-- ==== Sys2Proof/Machine/Bits.lean ====
section
/-! DEFINITION. Bit fields and signed readings of numbers (R3, R70). -/
namespace Sys2Proof

/-- Bits [lo + w - 1 : lo] of `x` (R3). -/
def bits (x lo w : Nat) : Nat := (x >>> lo) % 2 ^ w

/-- Bit `i` of `x`. -/
def bitAt (x i : Nat) : Bool := (x >>> i) % 2 == 1

/-- The two's complement reading of the low `w` bits. -/
def sgn (w x : Nat) : Int :=
  let y := x % 2 ^ w
  if y < 2 ^ (w - 1) then (y : Int) else (y : Int) - (2 ^ w : Nat)

/-- An integer reduced modulo 2^w. -/
def wrapI (w : Nat) (x : Int) : Nat := (x % ((2 ^ w : Nat) : Int)).toNat

/-- Sign extension from `w` to `v` bits. -/
def sext (w v x : Nat) : Nat := wrapI v (sgn w x)

/-- `x` with bits [lo + w - 1 : lo] replaced by `y`. -/
def setBits (x lo w y : Nat) : Nat :=
  x - (bits x lo w) * 2 ^ lo + (y % 2 ^ w) * 2 ^ lo

/-- All ones of width `w`. -/
def onesN (w : Nat) : Nat := 2 ^ w - 1

/-- Number of 1 bits among the low `w` bits. -/
def popc : Nat → Nat → Nat
  | 0, _ => 0
  | w + 1, x => x % 2 + popc w (x / 2)

/-- Leading zero bits of a `w`-bit number. -/
def clz (w x : Nat) : Nat := if x % 2 ^ w = 0 then w else w - 1 - Nat.log2 (x % 2 ^ w)

/-- Rotation left by `n` within `w` bits (R88). -/
def rotl (w x n : Nat) : Nat := ((x <<< n) ||| (x >>> (w - n))) % 2 ^ w

/-! ## The check code (R384) -/

/-- Eight steps of the reflected Castagnoli polynomial, 0x1EDC_6F41. -/
def crcByte (c b : Nat) : Nat :=
  (List.range 8).foldl (fun c _ => if c % 2 = 1 then (c / 2) ^^^ 0x82F63B78 else c / 2) (c ^^^ b % 256)
/-- CRC-32C: initial value and final XOR of ones. -/
def crc32c (bs : List Nat) : Nat := bs.foldl crcByte 0xFFFFFFFF ^^^ 0xFFFFFFFF
/-- The check code of a payload at a physical address: it covers the address, little-endian, and then the payload. -/
def checkCode (pa : Nat) (payload : List Nat) : Nat := crc32c ((List.range 8).map (fun i => pa / 256 ^ i % 256) ++ payload)

/-- The indices 0 … n - 1. -/
def upto (n : Nat) : List Nat := List.range n

end Sys2Proof
end

