-- ==== Sys2Proof/Syntax.lean ====
section
/-! DEFINITION. The instructions of the VX4 and the events of its units: one constructor per row of the opcode
table. An op word keeps typed operands and a typed modifier, so the machine never sees raw encodings. -/
namespace Sys2Proof

/-- The lane shape of R72. -/
inductive Shape where
  | s32 | s16 | s8 | s64 | s128
  deriving DecidableEq, Repr
def Shape.code : Shape → Nat
  | .s32 => 0
  | .s16 => 1
  | .s8 => 2
  | .s64 => 3
  | .s128 => 4
def Shape.ofCode : Nat → Option Shape
  | 0 => some .s32
  | 1 => some .s16
  | 2 => some .s8
  | 3 => some .s64
  | 4 => some .s128
  | _ => none

/-- The rounding mode of R72. -/
inductive Rnd where
  | rne | rtz | rup | rdn
  deriving DecidableEq, Repr
def Rnd.code : Rnd → Nat
  | .rne => 0
  | .rtz => 1
  | .rup => 2
  | .rdn => 3
def Rnd.ofCode : Nat → Option Rnd
  | 0 => some .rne
  | 1 => some .rtz
  | 2 => some .rup
  | 3 => some .rdn
  | _ => none

/-- The scope code of R75. -/
inductive Scope where
  | context | element | core | cluster | die | package | paddock | domain | host | system | stage
  deriving DecidableEq, Repr
def Scope.code : Scope → Nat
  | .context => 0
  | .element => 1
  | .core => 2
  | .cluster => 3
  | .die => 4
  | .package => 5
  | .paddock => 6
  | .domain => 7
  | .host => 8
  | .system => 9
  | .stage => 10
def Scope.ofCode : Nat → Option Scope
  | 0 => some .context
  | 1 => some .element
  | 2 => some .core
  | 3 => some .cluster
  | 4 => some .die
  | 5 => some .package
  | 6 => some .paddock
  | 7 => some .domain
  | 8 => some .host
  | 9 => some .system
  | 10 => some .stage
  | _ => none

/-- The order kind of R74. -/
inductive Order where
  | plain | acq | rel | ar
  deriving DecidableEq, Repr
def Order.code : Order → Nat
  | .plain => 0
  | .acq => 1
  | .rel => 2
  | .ar => 3
def Order.ofCode : Nat → Option Order
  | 0 => some .plain
  | 1 => some .acq
  | 2 => some .rel
  | 3 => some .ar
  | _ => none

/-- The access width of R74. -/
inductive Width where
  | w4 | w8 | w16 | nt
  deriving DecidableEq, Repr
def Width.code : Width → Nat
  | .w4 => 0
  | .w8 => 1
  | .w16 => 2
  | .nt => 3
def Width.ofCode : Nat → Option Width
  | 0 => some .w4
  | 1 => some .w8
  | 2 => some .w16
  | 3 => some .nt
  | _ => none

/-- The condition of CMP (R168). -/
inductive CmpCond where
  | eq | ne | lt | le | ltn | len | tst
  deriving DecidableEq, Repr
def CmpCond.code : CmpCond → Nat
  | .eq => 0
  | .ne => 1
  | .lt => 2
  | .le => 3
  | .ltn => 4
  | .len => 5
  | .tst => 6
def CmpCond.ofCode : Nat → Option CmpCond
  | 0 => some .eq
  | 1 => some .ne
  | 2 => some .lt
  | 3 => some .le
  | 4 => some .ltn
  | 5 => some .len
  | 6 => some .tst
  | _ => none

/-- The condition of FCMP (R176). -/
inductive FCond where
  | eq | ne | lt | le | un | ord | uge | ugt
  deriving DecidableEq, Repr
def FCond.code : FCond → Nat
  | .eq => 0
  | .ne => 1
  | .lt => 2
  | .le => 3
  | .un => 4
  | .ord => 5
  | .uge => 6
  | .ugt => 7
def FCond.ofCode : Nat → Option FCond
  | 0 => some .eq
  | 1 => some .ne
  | 2 => some .lt
  | 3 => some .le
  | 4 => some .un
  | 5 => some .ord
  | 6 => some .uge
  | 7 => some .ugt
  | _ => none

/-- The condition of WAITA and of filter nodes (R232). -/
inductive WCond where
  | eq | ne | lt | ge | ltn | gen | tst
  deriving DecidableEq, Repr
def WCond.code : WCond → Nat
  | .eq => 0
  | .ne => 1
  | .lt => 2
  | .ge => 3
  | .ltn => 4
  | .gen => 5
  | .tst => 6
def WCond.ofCode : Nat → Option WCond
  | 0 => some .eq
  | 1 => some .ne
  | 2 => some .lt
  | 3 => some .ge
  | 4 => some .ltn
  | 5 => some .gen
  | 6 => some .tst
  | _ => none

/-- The operation of FSGN (R175). -/
inductive SgnOp where
  | abs | neg | cps
  deriving DecidableEq, Repr
def SgnOp.code : SgnOp → Nat
  | .abs => 0
  | .neg => 1
  | .cps => 2
def SgnOp.ofCode : Nat → Option SgnOp
  | 0 => some .abs
  | 1 => some .neg
  | 2 => some .cps
  | _ => none

/-- The operation of PLOG (R131). -/
inductive LogOp where
  | and | or | xor | andn
  deriving DecidableEq, Repr
def LogOp.code : LogOp → Nat
  | .and => 0
  | .or => 1
  | .xor => 2
  | .andn => 3
def LogOp.ofCode : Nat → Option LogOp
  | 0 => some .and
  | 1 => some .or
  | 2 => some .xor
  | 3 => some .andn
  | _ => none

/-- The floating-point format codes of CVT and the matrix class (R178, R286). -/
inductive FFmt where
  | f32 | bf16 | e4m3 | e5m2 | e2m1
  deriving DecidableEq, Repr
def FFmt.code : FFmt → Nat
  | .f32 => 0
  | .bf16 => 1
  | .e4m3 => 2
  | .e5m2 => 3
  | .e2m1 => 4
def FFmt.ofCode : Nat → Option FFmt
  | 0 => some .f32
  | 1 => some .bf16
  | 2 => some .e4m3
  | 3 => some .e5m2
  | 4 => some .e2m1
  | _ => none

/-- The integer type codes of CVTI (R178). -/
inductive ITy where
  | i8 | n8 | i16 | n16 | i32 | n32 | i64 | n64
  deriving DecidableEq, Repr
def ITy.code : ITy → Nat
  | .i8 => 0
  | .n8 => 1
  | .i16 => 2
  | .n16 => 3
  | .i32 => 4
  | .n32 => 5
  | .i64 => 6
  | .n64 => 7
def ITy.ofCode : Nat → Option ITy
  | 0 => some .i8
  | 1 => some .n8
  | 2 => some .i16
  | 3 => some .n16
  | 4 => some .i32
  | 5 => some .n32
  | 6 => some .i64
  | 7 => some .n64
  | _ => none

/-- The format of QBLK (R182). -/
inductive QFmt where
  | e4m3 | e5m2 | e2m1
  deriving DecidableEq, Repr
def QFmt.code : QFmt → Nat
  | .e4m3 => 0
  | .e5m2 => 1
  | .e2m1 => 2
def QFmt.ofCode : Nat → Option QFmt
  | 0 => some .e4m3
  | 1 => some .e5m2
  | 2 => some .e2m1
  | _ => none

/-- The operation of FRED (R183). -/
inductive RedOp where
  | sum | max | min
  deriving DecidableEq, Repr
def RedOp.code : RedOp → Nat
  | .sum => 0
  | .max => 1
  | .min => 2
def RedOp.ofCode : Nat → Option RedOp
  | 0 => some .sum
  | 1 => some .max
  | 2 => some .min
  | _ => none

/-- The half and extension of UNPK (R183). -/
inductive UnpkSel where
  | lo | hi | losx | hisx
  deriving DecidableEq, Repr
def UnpkSel.code : UnpkSel → Nat
  | .lo => 0
  | .hi => 1
  | .losx => 2
  | .hisx => 3
def UnpkSel.ofCode : Nat → Option UnpkSel
  | 0 => some .lo
  | 1 => some .hi
  | 2 => some .losx
  | 3 => some .hisx
  | _ => none

/-- The block size of CTURN (R286). -/
inductive TurnK where
  | off | k4 | k8 | k16
  deriving DecidableEq, Repr
def TurnK.code : TurnK → Nat
  | .off => 0
  | .k4 => 1
  | .k8 => 2
  | .k16 => 3
def TurnK.ofCode : Nat → Option TurnK
  | 0 => some .off
  | 1 => some .k4
  | 2 => some .k8
  | 3 => some .k16
  | _ => none

/-- The kind of FENCE (R209). -/
inductive FenceK where
  | acq | rel | ar
  deriving DecidableEq, Repr
def FenceK.code : FenceK → Nat
  | .acq => 1
  | .rel => 2
  | .ar => 3
def FenceK.ofCode : Nat → Option FenceK
  | 1 => some .acq
  | 2 => some .rel
  | 3 => some .ar
  | _ => none

/-- The operation of AMO and RED (R228). -/
inductive AmoOp where
  | add4 | add8 | min4 | max4 | minn4 | maxn4 | minn8 | maxn8 | and8 | or8 | xor8 | swap4 | swap8 | fadd4 | fmin4 | fmax4
  deriving DecidableEq, Repr
def AmoOp.code : AmoOp → Nat
  | .add4 => 0
  | .add8 => 1
  | .min4 => 2
  | .max4 => 3
  | .minn4 => 4
  | .maxn4 => 5
  | .minn8 => 6
  | .maxn8 => 7
  | .and8 => 8
  | .or8 => 9
  | .xor8 => 10
  | .swap4 => 11
  | .swap8 => 12
  | .fadd4 => 13
  | .fmin4 => 14
  | .fmax4 => 15
def AmoOp.ofCode : Nat → Option AmoOp
  | 0 => some .add4
  | 1 => some .add8
  | 2 => some .min4
  | 3 => some .max4
  | 4 => some .minn4
  | 5 => some .maxn4
  | 6 => some .minn8
  | 7 => some .maxn8
  | 8 => some .and8
  | 9 => some .or8
  | 10 => some .xor8
  | 11 => some .swap4
  | 12 => some .swap8
  | 13 => some .fadd4
  | 14 => some .fmin4
  | 15 => some .fmax4
  | _ => none

/-- The mode of BEXT (R308). -/
inductive BextMode where
  | val | idx | sum
  deriving DecidableEq, Repr
def BextMode.code : BextMode → Nat
  | .val => 0
  | .idx => 1
  | .sum => 2
def BextMode.ofCode : Nat → Option BextMode
  | 0 => some .val
  | 1 => some .idx
  | 2 => some .sum
  | _ => none

/-- The operation of PSCAN (R308). -/
inductive ScanOp where
  | fsum | fmax | add
  deriving DecidableEq, Repr
def ScanOp.code : ScanOp → Nat
  | .fsum => 0
  | .fmax => 1
  | .add => 2
def ScanOp.ofCode : Nat → Option ScanOp
  | 0 => some .fsum
  | 1 => some .fmax
  | 2 => some .add
  | _ => none

/-- The mode of RSCAN (R344). -/
inductive RscanMode where
  | all | delta | grad | dgrad
  deriving DecidableEq, Repr
def RscanMode.code : RscanMode → Nat
  | .all => 0
  | .delta => 1
  | .grad => 2
  | .dgrad => 3
def RscanMode.ofCode : Nat → Option RscanMode
  | 0 => some .all
  | 1 => some .delta
  | 2 => some .grad
  | 3 => some .dgrad
  | _ => none

/-- The operation of MGRP (R395). -/
inductive MgrpOp where
  | set | clr | map | unmap
  deriving DecidableEq, Repr
def MgrpOp.code : MgrpOp → Nat
  | .set => 0
  | .clr => 1
  | .map => 2
  | .unmap => 3
def MgrpOp.ofCode : Nat → Option MgrpOp
  | 0 => some .set
  | 1 => some .clr
  | 2 => some .map
  | 3 => some .unmap
  | _ => none

/-- The operator of RAMO (R402). -/
inductive RamoOp where
  | add4 | add8 | swap4 | swap8 | cas4 | cas8 | cas16
  deriving DecidableEq, Repr
def RamoOp.code : RamoOp → Nat
  | .add4 => 0
  | .add8 => 1
  | .swap4 => 2
  | .swap8 => 3
  | .cas4 => 4
  | .cas8 => 5
  | .cas16 => 6
def RamoOp.ofCode : Nat → Option RamoOp
  | 0 => some .add4
  | 1 => some .add8
  | 2 => some .swap4
  | 3 => some .swap8
  | 4 => some .cas4
  | 5 => some .cas8
  | 6 => some .cas16
  | _ => none

/-- The kind of TLBI (R429). -/
inductive TlbiKind where
  | pg | asid | all
  deriving DecidableEq, Repr
def TlbiKind.code : TlbiKind → Nat
  | .pg => 0
  | .asid => 1
  | .all => 2
def TlbiKind.ofCode : Nat → Option TlbiKind
  | 0 => some .pg
  | 1 => some .asid
  | 2 => some .all
  | _ => none

/-- The form of LIMM (R171). -/
inductive LimmForm where
  | low | mid | top
  deriving DecidableEq, Repr
def LimmForm.code : LimmForm → Nat
  | .low => 0
  | .mid => 1
  | .top => 2
def LimmForm.ofCode : Nat → Option LimmForm
  | 0 => some .low
  | 1 => some .mid
  | 2 => some .top
  | _ => none

/-- The operand codes of R68; m and s registers share the codes 0x00-0x1F. -/
inductive Opd where
  | r (n : Fin 32) | o (n : Fin 8) | l (n : Fin 2) | zero | ones | lane | bank | act | core
  | inC (n : Fin 8) | outC (n : Fin 8) | h (n : Fin 16) | imm (v : BitVec 7)
  deriving DecidableEq, Repr

/-- What another agent asks of local memory: a read, a write, a CAS of one of its contexts, or an AMO or RED (R228-R231). -/
inductive OutOp where
  | read
  | write (v : BitVec 128)
  | cas (ctx : Nat) (old new : BitVec 64)
  | amo (op : AmoOp) (b : BitVec 64)
  deriving DecidableEq, Repr

/-- A place that another agent names: local physical address, or this package's scratchpad is never named. `lane` is the receive lane
that a peer's request comes in by (peer x 8 + plane); an access by the host or over UALink has none. -/
structure OutAccess where
  addr : Nat
  len : Nat
  op : OutOp
  lane : Nat
  deriving DecidableEq, Repr

/-- What the device reports of a row's activation counter (R280): its alert, the end of the refresh management, or a counter whose
check fails. -/
inductive RowReport where
  | alert (row : Nat)
  | managed (row : Nat)
  | corrupt (row : Nat)
  deriving DecidableEq, Repr

/-- What the outside answers to a request: nothing special (the access is performed on the local
storage), data from another package or the host, or a failure with its cause and detail (R79). -/
inductive Answer where
  | perform
  | data (v : BitVec 128)
  | fail (cause : BitVec 8) (detail : BitVec 81)
  deriving DecidableEq, Repr

/-- A turn of the index engine (R316): the request it serves and what its read of that turn answers. -/
structure EngineTurn where
  id : Nat
  ans : Answer
  deriving DecidableEq, Repr

/-- A lease service (R389): the head of this package's requests at a peer is served; a request of another package, for `n`
lanes or one plane, joins the queue of this receiver; its head is served; the oldest request of a package is denied at its
sender and leaves; or a receive lane that another package has released, moved or lost to key expiry goes dark. -/
inductive LeaseCall where
  | ours (peer : Nat)
  | request (src n : Nat) (plane : Option Nat) (prio : Bool)
  | theirs
  | denied (src : Nat)
  | released (src plane : Nat)
  deriving DecidableEq, Repr

/-- A member's answer to an MCST of this package (nak 0 is OK), or a line that another package sends here. -/
inductive McstWrite where
  | answer (id member nak : Nat)
  | incoming (src g off : Nat) (line : List (BitVec 8))
  deriving DecidableEq, Repr

/-- The end of a page's move (R406): one that this package asked for, or one that another package asked for, of the page
at an address of a pasture here. -/
inductive PageMove where
  | ours (id : Nat) (ok : Bool)
  | theirs (past va peer : Nat)
  deriving DecidableEq, Repr

/-- What the start in progress meets (R445, R446): the step that fails (0 none, and the codes of RESULT), the firmware image
that the SPI NOR flash holds, the base that Bruosh chooses for the firmware region, the UALink ports that train, and how many steps of
the start end with this report. -/
structure StartReport where
  result : Nat
  flash : List (BitVec 8)
  base : Nat
  ports : Nat
  steps : Nat
  deriving DecidableEq, Repr

/-- Modifier of the entries that use shape [5] (bit positions of M; the rest is 0). -/
structure ShF where
  shape : Shape
  deriving DecidableEq, Repr
/-- Modifier of the entries that use shape [5], sat [2] (bit positions of M; the rest is 0). -/
structure IntF where
  shape : Shape
  sat : Bool
  deriving DecidableEq, Repr
/-- Modifier of the entries that use shape [5], sx [0] (bit positions of M; the rest is 0). -/
structure BfxF where
  shape : Shape
  sx : Bool
  deriving DecidableEq, Repr
/-- Modifier of the entries that use shape [5], cond [2] (bit positions of M; the rest is 0). -/
structure CmpF where
  shape : Shape
  cond : CmpCond
  deriving DecidableEq, Repr
/-- Modifier of the entries that use p [0] (bit positions of M; the rest is 0). -/
structure SelF where
  p : Fin 8
  deriving DecidableEq, Repr
/-- Modifier of the entries that use shape [5], sh [2] (bit positions of M; the rest is 0). -/
structure LeaF where
  shape : Shape
  sh : Fin 8
  deriving DecidableEq, Repr
/-- Modifier of the entries that use shape [5], rnd [3], sat [2], xs [0] (bit positions of M; the rest is 0). -/
structure FpF where
  shape : Shape
  rnd : Rnd
  sat : Bool
  xs : Bool
  deriving DecidableEq, Repr
/-- Modifier of the entries that use shape [5], xs [0] (bit positions of M; the rest is 0). -/
structure FmmF where
  shape : Shape
  xs : Bool
  deriving DecidableEq, Repr
/-- Modifier of the entries that use shape [5], op [3], xs [0] (bit positions of M; the rest is 0). -/
structure FsgnF where
  shape : Shape
  op : SgnOp
  xs : Bool
  deriving DecidableEq, Repr
/-- Modifier of the entries that use shape [5], cond [2], xs [0] (bit positions of M; the rest is 0). -/
structure FcmpF where
  shape : Shape
  cond : FCond
  xs : Bool
  deriving DecidableEq, Repr
/-- Modifier of the entries that use part [5], rnd [3], sat [2], xs [0] (bit positions of M; the rest is 0). -/
structure CvtF where
  part : Fin 8
  rnd : Rnd
  sat : Bool
  xs : Bool
  deriving DecidableEq, Repr
/-- Modifier of the entries that use part [5], sat [2] (bit positions of M; the rest is 0). -/
structure CviF where
  part : Fin 8
  sat : Bool
  deriving DecidableEq, Repr
/-- Modifier of the entries that use shape [5], rnd [3], zx [1] (bit positions of M; the rest is 0). -/
structure FtoiF where
  shape : Shape
  rnd : Rnd
  zx : Bool
  deriving DecidableEq, Repr
/-- Modifier of the entries that use sat [2] (bit positions of M; the rest is 0). -/
structure SatF where
  sat : Bool
  deriving DecidableEq, Repr
/-- Modifier of the entries that use fmt [0] (bit positions of M; the rest is 0). -/
structure QblkF where
  fmt : QFmt
  deriving DecidableEq, Repr
/-- Modifier of the entries that use shape [5], sel [0] (bit positions of M; the rest is 0). -/
structure UnpkF where
  shape : Shape
  sel : UnpkSel
  deriving DecidableEq, Repr
/-- Modifier of the entries that use bit [0] (bit positions of M; the rest is 0). -/
structure BitF where
  bit : Bool
  deriving DecidableEq, Repr
/-- Modifier of the entries that use n [0] (bit positions of M; the rest is 0). -/
structure DeqF where
  n : Fin 32
  deriving DecidableEq, Repr
/-- Modifier of the entries that use op [0] (bit positions of M; the rest is 0). -/
structure PlogF where
  op : LogOp
  deriving DecidableEq, Repr
/-- Modifier of the entries that use cause [0] (bit positions of M; the rest is 0). -/
structure PoisF where
  cause : Fin 256
  deriving DecidableEq, Repr
/-- Modifier of the entries that use fmt [5] (bit positions of M; the rest is 0). -/
structure MxF where
  fmt : FFmt
  deriving DecidableEq, Repr
/-- Modifier of the entries that use fmt [5], os [0] (bit positions of M; the rest is 0). -/
structure MxfmtF where
  fmt : FFmt
  os : Bool
  deriving DecidableEq, Repr
/-- Modifier of the entries that use sat [2], clr [0] (bit positions of M; the rest is 0). -/
structure MxaccF where
  sat : Bool
  clr : Bool
  deriving DecidableEq, Repr
/-- Modifier of the entries that use fmt [5], rnd [3], sat [2], ch [1] (bit positions of M; the rest is 0). -/
structure MxdrnF where
  fmt : FFmt
  rnd : Rnd
  sat : Bool
  ch : Bool
  deriving DecidableEq, Repr
/-- Modifier of the entries that use k [0] (bit positions of M; the rest is 0). -/
structure CturnF where
  k : TurnK
  deriving DecidableEq, Repr
/-- Modifier of the entries that use scope [4], order [2], width [0] (bit positions of M; the rest is 0). -/
structure MemF where
  scope : Scope
  order : Order
  width : Width
  deriving DecidableEq, Repr
/-- Modifier of the entries that use scope [4] (bit positions of M; the rest is 0). -/
structure ScF where
  scope : Scope
  deriving DecidableEq, Repr
/-- Modifier of the entries that use scope [4], bit [0] (bit positions of M; the rest is 0). -/
structure ScBF where
  scope : Scope
  bit : Bool
  deriving DecidableEq, Repr
/-- Modifier of the entries that use scope [4], width [0] (bit positions of M; the rest is 0). -/
structure ApF where
  scope : Scope
  width : Width
  deriving DecidableEq, Repr
/-- Modifier of the entries that use scope [4], kind [2] (bit positions of M; the rest is 0). -/
structure FenceF where
  scope : Scope
  kind : FenceK
  deriving DecidableEq, Repr
/-- Modifier of the entries that use scope [4], op [0] (bit positions of M; the rest is 0). -/
structure AmoF where
  scope : Scope
  op : AmoOp
  deriving DecidableEq, Repr
/-- Modifier of the entries that use scope [4], w8 [3], cond [0] (bit positions of M; the rest is 0). -/
structure WaitaF where
  scope : Scope
  w8 : Bool
  cond : WCond
  deriving DecidableEq, Repr
/-- Modifier of the entries that use hd [4], hs [0] (bit positions of M; the rest is 0). -/
structure CopyF where
  hd : Fin 16
  hs : Fin 16
  deriving DecidableEq, Repr
/-- Modifier of the entries that use mode [0] (bit positions of M; the rest is 0). -/
structure BextF where
  mode : BextMode
  deriving DecidableEq, Repr
/-- Modifier of the entries that use rnd [3], op [0] (bit positions of M; the rest is 0). -/
structure PscanF where
  rnd : Rnd
  op : ScanOp
  deriving DecidableEq, Repr
/-- Modifier of the entries that use rel [0] (bit positions of M; the rest is 0). -/
structure RelF where
  rel : Fin 256
  deriving DecidableEq, Repr
/-- Modifier of the entries that use fam [0] (bit positions of M; the rest is 0). -/
structure FamF where
  fam : Fin 64
  deriving DecidableEq, Repr
/-- Modifier of the entries that use op [0] (bit positions of M; the rest is 0). -/
structure MgrpF where
  op : MgrpOp
  deriving DecidableEq, Repr
/-- Modifier of the entries that use scope [4], op [0] (bit positions of M; the rest is 0). -/
structure RamoF where
  scope : Scope
  op : RamoOp
  deriving DecidableEq, Repr
/-- Modifier of the entries that use pw [3], pi [0] (bit positions of M; the rest is 0). -/
structure PfF where
  pw : Bool
  pi : Fin 8
  deriving DecidableEq, Repr
/-- Modifier of the entries that use scope [4], kind [0] (bit positions of M; the rest is 0). -/
structure TlbiF where
  scope : Scope
  kind : TlbiKind
  deriving DecidableEq, Repr

/-- The rows of the opcode table: 185 opcodes (R85), then the 83 events. -/
inductive Instr where
  /-- NOP, opcode 0x00. -/
  | nop 
  /-- MOV, opcode 0x01. -/
  | mov (f : BitF) (d : Opd) (a : Opd)
  /-- SEND, opcode 0x02. -/
  | send (d : Opd) (a : Opd) (b : Opd)
  /-- DEQ, opcode 0x03. -/
  | deq (f : DeqF) (a : Opd)
  /-- TAGR, opcode 0x04. -/
  | tagr (d : Opd) (a : Opd)
  /-- EOS, opcode 0x05. -/
  | eos (d : Opd)
  /-- PSET, opcode 0x06. -/
  | pset (a : Fin 256) (b : Fin 256)
  /-- PLOG, opcode 0x07. -/
  | plog (f : PlogF) (d : Fin 8) (a : Fin 8) (b : Fin 8)
  /-- DONE, opcode 0x09. -/
  | done 
  /-- POISON, opcode 0x0A. -/
  | poison (f : PoisF) (d : Opd) (a : Opd)
  /-- CHQ, opcode 0x0B. -/
  | chq (d : Opd) (a : Fin 16)
  /-- ADD, opcode 0x10. -/
  | add (f : ShF) (d : Opd) (a : Opd) (b : Opd)
  /-- SUB, opcode 0x11. -/
  | sub (f : IntF) (d : Opd) (a : Opd) (b : Opd)
  /-- ADDS, opcode 0x12. -/
  | adds (f : ShF) (d : Opd) (a : Opd) (b : Opd)
  /-- ADDN, opcode 0x13. -/
  | addn (f : ShF) (d : Opd) (a : Opd) (b : Opd)
  /-- MUL, opcode 0x14. -/
  | mul (f : IntF) (d : Opd) (a : Opd) (b : Opd)
  /-- MULH, opcode 0x15. -/
  | mulh (f : ShF) (d : Opd) (a : Opd) (b : Opd)
  /-- MULHN, opcode 0x16. -/
  | mulhn (f : ShF) (d : Opd) (a : Opd) (b : Opd)
  /-- MAD, opcode 0x17. -/
  | mad (f : IntF) (d : Opd) (a : Opd) (b : Opd)
  /-- DIV, opcode 0x18. -/
  | div (f : ShF) (d : Opd) (a : Opd) (b : Opd)
  /-- DIVN, opcode 0x19. -/
  | divn (f : ShF) (d : Opd) (a : Opd) (b : Opd)
  /-- REM, opcode 0x1A. -/
  | rem (f : ShF) (d : Opd) (a : Opd) (b : Opd)
  /-- MIN, opcode 0x1B. -/
  | min (f : ShF) (d : Opd) (a : Opd) (b : Opd)
  /-- MAX, opcode 0x1C. -/
  | max (f : ShF) (d : Opd) (a : Opd) (b : Opd)
  /-- MINN, opcode 0x1D. -/
  | minn (f : ShF) (d : Opd) (a : Opd) (b : Opd)
  /-- MAXN, opcode 0x1E. -/
  | maxn (f : ShF) (d : Opd) (a : Opd) (b : Opd)
  /-- ABS, opcode 0x1F. -/
  | abs (f : IntF) (d : Opd) (a : Opd)
  /-- AND, opcode 0x20. -/
  | and (f : ShF) (d : Opd) (a : Opd) (b : Opd)
  /-- OR, opcode 0x21. -/
  | or (f : ShF) (d : Opd) (a : Opd) (b : Opd)
  /-- XOR, opcode 0x22. -/
  | xor (f : ShF) (d : Opd) (a : Opd) (b : Opd)
  /-- ANDN, opcode 0x23. -/
  | andn (f : ShF) (d : Opd) (a : Opd) (b : Opd)
  /-- SHL, opcode 0x24. -/
  | shl (f : IntF) (d : Opd) (a : Opd) (b : Opd)
  /-- SHR, opcode 0x25. -/
  | shr (f : ShF) (d : Opd) (a : Opd) (b : Opd)
  /-- SHA, opcode 0x26. -/
  | sha (f : ShF) (d : Opd) (a : Opd) (b : Opd)
  /-- ROT, opcode 0x27. -/
  | rot (f : ShF) (d : Opd) (a : Opd) (b : Opd)
  /-- CMP, opcode 0x28. -/
  | cmp (f : CmpF) (d : Fin 8) (a : Opd) (b : Opd)
  /-- SEL, opcode 0x29. -/
  | sel (f : SelF) (d : Opd) (a : Opd) (b : Opd)
  /-- CLZ, opcode 0x2A. -/
  | clz (f : ShF) (d : Opd) (a : Opd)
  /-- POPC, opcode 0x2B. -/
  | popc (f : ShF) (d : Opd) (a : Opd)
  /-- BFX, opcode 0x2C. -/
  | bfx (f : BfxF) (d : Opd) (a : Opd) (b : Opd)
  /-- BFI, opcode 0x2D. -/
  | bfi (f : ShF) (d : Opd) (a : Opd) (b : Opd)
  /-- LEA, opcode 0x2E. -/
  | lea (f : LeaF) (d : Opd) (a : Opd) (b : Opd)
  /-- LIMM, opcode 0x2F. -/
  | limm (form : LimmForm) (v : BitVec 22) (d : Opd)
  /-- FADD, opcode 0x30. -/
  | fadd (f : FpF) (d : Opd) (a : Opd) (b : Opd)
  /-- FSUB, opcode 0x31. -/
  | fsub (f : FpF) (d : Opd) (a : Opd) (b : Opd)
  /-- FMUL, opcode 0x32. -/
  | fmul (f : FpF) (d : Opd) (a : Opd) (b : Opd)
  /-- FMA, opcode 0x33. -/
  | fma (f : FpF) (d : Opd) (a : Opd) (b : Opd)
  /-- FNMA, opcode 0x34. -/
  | fnma (f : FpF) (d : Opd) (a : Opd) (b : Opd)
  /-- FMIN, opcode 0x35. -/
  | fmin (f : FmmF) (d : Opd) (a : Opd) (b : Opd)
  /-- FMAX, opcode 0x36. -/
  | fmax (f : FmmF) (d : Opd) (a : Opd) (b : Opd)
  /-- FSGN, opcode 0x37. -/
  | fsgn (f : FsgnF) (d : Opd) (a : Opd) (b : Opd)
  /-- FCMP, opcode 0x38. -/
  | fcmp (f : FcmpF) (d : Fin 8) (a : Opd) (b : Opd)
  /-- FDIV, opcode 0x39. -/
  | fdiv (f : FpF) (d : Opd) (a : Opd) (b : Opd)
  /-- FSQRT, opcode 0x3A. -/
  | fsqrt (f : FpF) (d : Opd) (a : Opd)
  /-- FRCP, opcode 0x3B. -/
  | frcp (f : FpF) (d : Opd) (a : Opd)
  /-- FRSQ, opcode 0x3C. -/
  | frsq (f : FpF) (d : Opd) (a : Opd)
  /-- FEXP2, opcode 0x3D. -/
  | fexp2 (f : FpF) (d : Opd) (a : Opd)
  /-- FLOG2, opcode 0x3E. -/
  | flog2 (f : FpF) (d : Opd) (a : Opd)
  /-- FDOT, opcode 0x3F. -/
  | fdot (f : FpF) (d : Opd) (a : Opd) (b : Opd)
  /-- CVT, opcode 0x40. -/
  | cvt (f : CvtF) (tf : FFmt) (ff : FFmt) (d : Opd) (a : Opd)
  /-- CVTI, opcode 0x41. -/
  | cvti (f : CviF) (tf : ITy) (ff : ITy) (d : Opd) (a : Opd)
  /-- FTOI, opcode 0x42. -/
  | ftoi (f : FtoiF) (d : Opd) (a : Opd)
  /-- ITOF, opcode 0x43. -/
  | itof (f : FtoiF) (d : Opd) (a : Opd)
  /-- SCALE, opcode 0x44. -/
  | scale (f : SatF) (d : Opd) (a : Opd) (b : Opd)
  /-- QBLK, opcode 0x45. -/
  | qblk (f : QblkF) (d : Opd) (a : Opd)
  /-- FRED, opcode 0x46. -/
  | fred (f : FpF) (op : RedOp) (d : Opd) (a : Opd)
  /-- SHUF, opcode 0x47. -/
  | shuf (f : ShF) (d : Opd) (a : Opd) (b : Opd)
  /-- BCST, opcode 0x48. -/
  | bcst (f : ShF) (d : Opd) (a : Opd) (b : Opd)
  /-- PACK, opcode 0x49. -/
  | pack (f : ShF) (d : Opd) (a : Opd) (b : Opd)
  /-- UNPK, opcode 0x4A. -/
  | unpk (f : UnpkF) (d : Opd) (a : Opd)
  /-- FCLS, opcode 0x4B. -/
  | fcls (f : ShF) (d : Opd) (a : Opd)
  /-- RAND, opcode 0x4C. -/
  | rand (f : BitF) (d : Opd) (a : Opd) (b : Opd)
  /-- MXMODE, opcode 0x50. -/
  | mxmode (f : BitF) (d : Opd) (a : Opd)
  /-- MXWLD, opcode 0x51. -/
  | mxwld (f : MxF) (a : Opd) (b : Opd)
  /-- MXWBUF, opcode 0x52. -/
  | mxwbuf (d : Opd) (a : Opd) (b : Opd)
  /-- MXFMT, opcode 0x53. -/
  | mxfmt (f : MxfmtF) (a : Opd) (b : Opd)
  /-- MXRUN, opcode 0x54. -/
  | mxrun (d : Opd) (a : Opd) (b : Opd)
  /-- MXACC, opcode 0x55. -/
  | mxacc (f : MxaccF) (a : Fin 4)
  /-- MXDRN, opcode 0x56. -/
  | mxdrn (f : MxdrnF) (d : Opd) (a : Opd) (b : Opd)
  /-- MXST, opcode 0x57. -/
  | mxst (f : BitF) (d : Opd) (a : Opd)
  /-- CTURN, opcode 0x58. -/
  | cturn (f : CturnF) (a : Fin 8)
  /-- MXWAIT, opcode 0x59. -/
  | mxwait (d : Opd) (a : Opd)
  /-- LD, opcode 0x60. -/
  | ld (f : MemF) (d : Opd) (a : Opd) (b : Opd)
  /-- ST, opcode 0x61. -/
  | st (f : MemF) (d : Opd) (a : Opd) (b : Opd)
  /-- LDS, opcode 0x62. -/
  | lds (f : MemF) (d : Opd) (a : Opd) (b : Opd)
  /-- STS, opcode 0x63. -/
  | sts (f : MemF) (d : Opd) (a : Opd) (b : Opd)
  /-- LDH, opcode 0x64. -/
  | ldh (f : MemF) (d : Opd) (a : Opd) (b : Opd)
  /-- STH, opcode 0x65. -/
  | sth (f : MemF) (d : Opd) (a : Opd) (b : Opd)
  /-- HSET, opcode 0x66. -/
  | hset (d : Opd) (a : Opd) (b : Fin 4)
  /-- HGET, opcode 0x67. -/
  | hget (d : Opd) (a : Opd) (b : Fin 4)
  /-- WBIND, opcode 0x68. -/
  | wbind (f : ScBF) (d : Opd) (a : Opd) (b : Opd)
  /-- WFREE, opcode 0x69. -/
  | wfree (a : Opd)
  /-- PFT, opcode 0x6A. -/
  | pft (f : ScF) (a : Opd) (b : Opd)
  /-- SNAP, opcode 0x6B. -/
  | snap (f : ScF) (d : Opd) (a : Opd) (b : Opd)
  /-- APPEND, opcode 0x6C. -/
  | append (f : ApF) (d : Opd) (a : Opd) (b : Opd)
  /-- PUBL, opcode 0x6D. -/
  | publ (f : ScBF) (d : Opd) (a : Opd) (b : Opd)
  /-- FENCE, opcode 0x6E. -/
  | fence (f : FenceF) (d : Opd)
  /-- AMO, opcode 0x70. -/
  | amo (f : AmoF) (d : Opd) (a : Opd) (b : Opd)
  /-- CAS, opcode 0x71. -/
  | cas (f : ScBF) (d : Opd) (a : Opd) (b : Opd)
  /-- RED, opcode 0x72. -/
  | red (f : AmoF) (d : Opd) (a : Opd) (b : Opd)
  /-- WAITA, opcode 0x73. -/
  | waita (f : WaitaF) (d : Opd) (a : Opd) (b : Opd)
  /-- MON, opcode 0x74. -/
  | mon (f : ScF) (a : Opd)
  /-- MWAIT, opcode 0x75. -/
  | mwait (f : ScF) (d : Opd)
  /-- ARRIVE, opcode 0x76. -/
  | arrive (f : ScF) (d : Opd) (a : Opd) (b : Opd)
  /-- WAITC, opcode 0x77. -/
  | waitc (f : ScBF) (d : Opd) (a : Opd) (b : Opd)
  /-- BAR, opcode 0x78. -/
  | bar (f : ScF) (d : Opd) (a : Fin 256)
  /-- BARA, opcode 0x79. -/
  | bara (f : ScF) (a : Fin 256)
  /-- FUTW, opcode 0x7A. -/
  | futw (f : ScF) (d : Opd) (a : Opd) (b : Opd)
  /-- FUTR, opcode 0x7B. -/
  | futr (f : ScF) (d : Opd) (a : Opd)
  /-- PRIO, opcode 0x7C. -/
  | prio (a : Opd)
  /-- COPY, opcode 0x80. -/
  | copy (f : CopyF) (d : Opd) (a : Opd) (b : Opd)
  /-- COPYA, opcode 0x81. -/
  | copya (f : CopyF) (d : Opd) (a : Opd) (b : Opd)
  /-- COPYI, opcode 0x82. -/
  | copyi (f : CopyF) (d : Opd) (a : Opd) (b : Opd)
  /-- CQRY, opcode 0x83. -/
  | cqry (d : Opd) (a : Opd)
  /-- AGLD, opcode 0x84. -/
  | agld (d : Opd) (a : Opd) (b : Opd)
  /-- AGST, opcode 0x85. -/
  | agst (d : Opd) (a : Opd) (b : Opd)
  /-- BOPEN, opcode 0x86. -/
  | bopen (f : BitF) (d : Opd) (a : Opd) (b : Opd)
  /-- BCLOSE, opcode 0x87. -/
  | bclose (d : Opd) (a : Opd)
  /-- PLSET, opcode 0x88. -/
  | plset (d : Opd) (a : Opd) (b : Opd)
  /-- CFLUSH, opcode 0x89. -/
  | cflush (f : BitF) (d : Opd) (a : Opd) (b : Opd)
  /-- RDEF, opcode 0x90. -/
  | rdef (d : Opd) (a : Opd)
  /-- RINS, opcode 0x91. -/
  | rins (f : RelF) (d : Opd) (a : Opd) (b : Opd)
  /-- RDEL, opcode 0x92. -/
  | rdel (f : RelF) (d : Opd) (a : Opd)
  /-- RULE, opcode 0x93. -/
  | rule (d : Opd) (a : Opd)
  /-- EVAL, opcode 0x94. -/
  | eval (d : Opd) (a : Opd)
  /-- FOLD, opcode 0x95. -/
  | fold (f : BitF) (d : Opd) (a : Opd)
  /-- RSCAN, opcode 0x96. -/
  | rscan (f : RelF) (d : Opd) (a : Opd) (b : RscanMode)
  /-- RLOOK, opcode 0x97. -/
  | rlook (f : RelF) (d : Opd) (a : Opd)
  /-- RWIT, opcode 0x98. -/
  | rwit (f : RelF) (d : Opd) (a : Opd)
  /-- RBACK, opcode 0x99. -/
  | rback (f : BitF) (d : Opd) (a : Opd) (b : Opd)
  /-- RCNT, opcode 0x9A. -/
  | rcnt (f : RelF) (d : Opd)
  /-- RDROP, opcode 0x9B. -/
  | rdrop (f : BitF) (d : Opd) (a : Opd)
  /-- BHIST, opcode 0xA0. -/
  | bhist (d : Opd) (a : Opd) (b : Opd)
  /-- BSEL, opcode 0xA1. -/
  | bsel (d : Opd) (a : Opd) (b : Opd)
  /-- BEXT, opcode 0xA2. -/
  | bext (f : BextF) (d : Opd) (a : Opd) (b : Opd)
  /-- PSCAN, opcode 0xA3. -/
  | pscan (f : PscanF) (d : Opd) (a : Opd) (b : Opd)
  /-- TOPP, opcode 0xA4. -/
  | topp (d : Opd) (a : Opd)
  /-- IWALK, opcode 0xA5. -/
  | iwalk (f : ScF) (d : Opd) (a : Opd) (b : Opd)
  /-- SPMX, opcode 0xA6. -/
  | spmx (f : ScF) (d : Opd) (a : Opd) (b : Opd)
  /-- EXQ, opcode 0xA7. -/
  | exq (f : ScF) (d : Opd) (a : Opd) (b : Opd)
  /-- EXCFG, opcode 0xA8. -/
  | excfg (d : Opd) (a : Opd) (b : Opd)
  /-- EXDQ, opcode 0xA9. -/
  | exdq (f : ScF) (d : Opd) (a : Opd) (b : Opd)
  /-- STAGE, opcode 0xB0. -/
  | stage (d : Opd) (a : Opd)
  /-- CAST, opcode 0xB1. -/
  | cast (d : Opd) (a : Opd) (b : Opd)
  /-- MERGE, opcode 0xB2. -/
  | merge (d : Opd) (a : Opd) (b : Opd)
  /-- KRT, opcode 0xB3. -/
  | krt (d : Opd) (a : Opd) (b : Opd)
  /-- HASH, opcode 0xB4. -/
  | hash (spr : Option (Fin 64)) (d : Opd) (a : Opd)
  /-- KROUTE, opcode 0xB5. -/
  | kroute (f : FamF) (d : Opd) (a : Opd) (b : Opd)
  /-- SDONE, opcode 0xB6. -/
  | sdone (a : Opd)
  /-- MDONE, opcode 0xB7. -/
  | mdone (a : Opd)
  /-- CASTQ, opcode 0xB8. -/
  | castq (d : Opd) (a : Opd)
  /-- LEASE, opcode 0xC0. -/
  | lease (d : Opd) (a : Opd) (b : Opd)
  /-- LMOVE, opcode 0xC1. -/
  | lmove (d : Opd) (a : Opd) (b : Opd)
  /-- LREL, opcode 0xC2. -/
  | lrel (f : BitF) (d : Opd) (a : Opd) (b : Opd)
  /-- LQRY, opcode 0xC3. -/
  | lqry (d : Opd) (a : Opd)
  /-- MCST, opcode 0xC4. -/
  | mcst (f : ScF) (d : Opd) (a : Opd) (b : Opd)
  /-- MCSTQ, opcode 0xC5. -/
  | mcstq (d : Opd) (a : Opd) (b : Opd)
  /-- MGRP, opcode 0xC6. -/
  | mgrp (f : MgrpF) (d : Opd) (a : Opd) (b : Opd)
  /-- RAMO, opcode 0xC7. -/
  | ramo (f : RamoF) (d : Opd) (a : Opd) (b : Opd)
  /-- PGMIG, opcode 0xC8. -/
  | pgmig (d : Opd) (a : Opd) (b : Opd)
  /-- SLOT, opcode 0xC9. -/
  | slot (d : Opd) (a : Opd)
  /-- KEYI, opcode 0xCA. -/
  | keyi (f : BitF) (d : Opd) (a : Opd) (b : Opd)
  /-- PEERQ, opcode 0xCB. -/
  | peerq (f : BitF) (d : Opd) (a : Opd)
  /-- LOOP, opcode 0xD0. -/
  | loop (a : Opd) (b : Fin 256)
  /-- LBRK, opcode 0xD1. -/
  | lbrk (c : Bool) (ng : Bool) (n : Fin 8)
  /-- JIND, opcode 0xD2. -/
  | jind (f : BitF) (a : Opd)
  /-- ARM, opcode 0xD3. -/
  | arm (f : PfF) (d : Opd) (a : Opd) (b : Opd)
  /-- INSTALL, opcode 0xD4. -/
  | install (f : PfF) (d : Opd) (a : Opd) (b : Opd)
  /-- LAUNCH, opcode 0xD5. -/
  | launch (f : PfF) (d : Opd) (a : Opd) (b : Opd)
  /-- SEQW, opcode 0xD6. -/
  | seqw (d : Opd) (a : Opd)
  /-- GETC, opcode 0xD7. -/
  | getc (d : Opd) (a : Fin 256) (b : Opd)
  /-- SETC, opcode 0xD8. -/
  | setc (d : Fin 256) (a : Opd) (b : Opd)
  /-- EVENT, opcode 0xD9. -/
  | event (a : Opd) (b : Opd)
  /-- TRAP, opcode 0xE0. -/
  | trap (a : Opd) (b : Opd)
  /-- TRET, opcode 0xE1. -/
  | tret 
  /-- PREEMPT, opcode 0xE2. -/
  | preempt (d : Opd) (a : Opd)
  /-- RESUME, opcode 0xE3. -/
  | resume (f : BitF) (d : Opd) (a : Opd) (b : Opd)
  /-- CSAVE, opcode 0xE4. -/
  | csave (d : Opd) (a : Opd)
  /-- CLOAD, opcode 0xE5. -/
  | cload (d : Opd) (a : Opd)
  /-- TLBI, opcode 0xE6. -/
  | tlbi (f : TlbiF) (d : Opd) (a : Opd) (b : Opd)
  /-- GTBL, opcode 0xE7. -/
  | gtbl (d : Opd) (a : Opd) (b : Opd)
  /-- PART, opcode 0xE8. -/
  | part (d : Opd) (a : Opd) (b : Opd)
  /-- HALT, opcode 0xE9. -/
  | halt (d : Opd) (a : Opd)
  /-- ATTEST, opcode 0xEB. -/
  | attest (d : Opd) (a : Opd) (b : Opd)
  /-- FLOG, opcode 0xEC. -/
  | flog (f : BitF) (d : Opd) (a : Opd) (b : Opd)
  /-- TOKEN_ARRIVAL (R113): the n-th token in transit arrives at its input. -/
  | tokenArrival (n : Nat)
  /-- CORNER_TURN_RESIZE (R301): the node of an input takes its pending size. -/
  | cornerTurnResize (core pe ch : Nat)
  /-- STARVE_CYCLE (R34): a PE cycle whose starvation counter reads 63. -/
  | starveCycle (core pe : Nat)
  /-- ACTIVATION_DISPATCH (R119): the core dispatches a queued activation record to a free bank. -/
  | activationDispatch (core : Nat)
  /-- COMMIT (R22): one buffered store of an ending atomic activation is written, or the bank is released. -/
  | commitEv (core ctx : Nat)
  /-- RECORD_PLACEMENT (R150): the dispatcher places the next record of an armed section. -/
  | recordPlacement (sect : Nat)
  /-- AVERAGING_SAMPLE (R36): the cores of a cluster sample their occupancy and the moves are assigned. -/
  | averagingSample (cluster : Nat)
  /-- AVERAGING_MOVE (R37): one assigned record moves across its link. -/
  | averagingMove (cluster : Nat)
  /-- BUCKET_STEP (R39): a leaky bucket gains its credit of 64 cycles. -/
  | bucketStep (port : Nat)
  /-- BUCKET_SETTING (R40): Bruosh writes DEPTH and RATE of a bucket. -/
  | bucketSetting (port depth rate : Nat)
  /-- DECODE_TRAP (R87): an S-form unit fetches a word that traps when it is decoded. -/
  | decodeTrap (unit : Nat)
  /-- PENDING_EMPTY (R65): the wait conditions of a unit stalled by NAS 101 are complete. -/
  | pendingEmpty (unit : Nat)
  /-- ARMATURE_TRANSFER (R148): the armature finishes the transfer of a checked image. -/
  | armatureTransfer (core frame : Nat)
  /-- PAGE_WALK (R194): the walk of a request finishes and fills the TLBs. -/
  | pageWalk (id : Nat)
  /-- LOAD_RESULT (R210): a load is performed, or fails, and its result is delivered. -/
  | loadResult (id : Nat) (ans : Answer)
  /-- STORE_COMPLETION (R210): a store is performed, or fails, and is acknowledged. -/
  | storeCompletion (id : Nat) (ans : Answer)
  /-- PFT_ARRIVAL (R220): the last byte of a prefetch is written; the listed units failed. -/
  | pftArrival (id : Nat) (bad : List Nat)
  /-- WINDOW_FREE (R219): every access through a closed window is performed and the window is freed. -/
  | windowFree (id : Nat)
  /-- FENCE_COMPLETION (R221): a fence completes. -/
  | fenceCompletion (id : Nat)
  /-- SCOPE_TIMEOUT (R257): a request is not answered within the timeout of its scope. -/
  | scopeTimeout (id : Nat)
  /-- PEER_FAILURE (R258): FTO passes and a package becomes failed for a pasture. -/
  | peerFailure (past peer : Nat)
  /-- PEER_REQUEST (R197): a request of another package is served here. -/
  | peerRequest (acc : OutAccess)
  /-- SYNC_ENGINE_SERVICE (R223): the synchronisation engine serves one operation. -/
  | syncEngineService (id : Nat) (ans : Answer)
  /-- RESERVATION_LAPSE (R231): a reservation lapses. -/
  | reservationLapse (word : Nat)
  /-- COPY_SLOT_GRANT (R259): a copy slot is granted to a waiting copy. -/
  | copySlotGrant (id : Nat)
  /-- COPY_COMPLETION (R262): a copy moves its bytes and writes its completion word; the listed units failed. -/
  | copyCompletion (id : Nat) (bad : List Nat)
  /-- AG_TILE_START (R269): a tile starts the program of a waiting AGLD or AGST. -/
  | agTileStart (id : Nat)
  /-- COALESCE_RELEASE (R270): a coalescing unit releases the accesses it holds. -/
  | coalesceRelease (tile : Nat)
  /-- NODE_CONFIGURATION (R271): a waiting PLSET writes its node. -/
  | nodeConfiguration (id : Nat)
  /-- FORCE_CLOSE (R276): a bank reserved for 4 microseconds is force-closed. -/
  | forceClose (row : Nat)
  /-- DRAM_REFRESH (R276): refresh precharges a reserved bank and reopens its row. -/
  | dramRefresh (row : Nat)
  /-- WRITE_DRAIN (R277): a pseudo-channel issues one queued write. -/
  | writeDrain (pc : Nat)
  /-- PARITY_ALERT (R279): a command parity alert; third: the third replay failed. -/
  | parityAlert (pc : Nat) (third : Bool)
  /-- ACTIVATION_THRESHOLD (R280): a row counter reaches its threshold. -/
  | activationThreshold (what : RowReport)
  /-- BACKGROUND_SCRUB (R281): the scrub reads a 64-byte unit; bad: it is uncorrectable. -/
  | backgroundScrub (u : Nat) (bad : Bool)
  /-- ARRAY_COMMAND (R284): the matrix array executes its next command; the listed units read as uncorrectable. -/
  | arrayCommand (core : Nat) (bad : List Nat)
  /-- MODE_CHANGE (R305): a mode change of an array completes. -/
  | modeChange (core : Nat)
  /-- DRAIN_TOKEN (R300): the drain in progress sends its next token. -/
  | drainToken (core : Nat)
  /-- INDEX_ENGINE_EMIT (R316): the index engine emits the next token of a request. -/
  | indexEngineEmit (turn : EngineTurn)
  /-- TIMER_RELEASE (R324): the release timer of an expert queue expires. -/
  | timerRelease (q : Nat)
  /-- EXDQ_DELIVERY (R325): a waiting EXDQ takes its entries. -/
  | exdqDelivery (id : Nat)
  /-- EXQ_PLACEMENT (R323): a waiting EXQ is placed. -/
  | exqPlacement (id : Nat)
  /-- TUPLE_EVENT (R335): a home port processes the next event of an evaluation. -/
  | tupleEvent (past : Nat)
  /-- USER_RETURN (R336): a block returns the two tokens of a user-channel candidate. -/
  | userReturn (core : Nat)
  /-- CANDIDATE_ARRIVAL (R337): a candidate arrives at its head port. -/
  | candidateArrival (past n : Nat)
  /-- FOLD_WAVE (R338): a fold wave sums the counts of a pasture. -/
  | foldWave (past : Nat)
  /-- FOLD_TIMEOUT (R340): the timeout of the running stratum expires. -/
  | foldTimeout (past : Nat)
  /-- CAST_SAMPLE (R364): the holders of a family sample their occupancy. -/
  | castSample (past fam : Nat)
  /-- ROUTINE_DISPATCH (R366): the routine of a cast or merge step is dispatched. -/
  | routineDispatch (past fam : Nat)
  /-- STEP_DONE (R369): the routine of a step has ended and its accesses are performed. -/
  | stepDone (past fam : Nat)
  /-- SENDER_ACK (R363): a sender acknowledges a new table version. -/
  | senderAck (past fam core : Nat)
  /-- LEASE_SERVICE (R389): the head lease request at a peer, or here, is served. -/
  | leaseService (c : LeaseCall)
  /-- LEASE_DENIAL (R389): a lease request is denied after 20 microseconds. -/
  | leaseDenial (id : Nat)
  /-- REVOCATION_NOTICE_END (R390): the notice of a revoked lane runs out. -/
  | revocationNoticeEnd (lane : Nat)
  /-- MCST_MEMBER_WRITE (R396): a member of a multicast writes the line, or refuses it, and answers. -/
  | mcstMemberWrite (w : McstWrite)
  /-- MCST_COMPLETION (R396): every member of a multicast has answered. -/
  | mcstCompletion (id : Nat)
  /-- TORYR_FLIT_RECEIVE (R399): a flit arrives on a lane. -/
  | toryrFlitReceive (lane : Nat) (ok : Bool) (phase : Bool)
  /-- KEY_LOW (R400): 2^32 counter values remain on a lane. -/
  | keyLow (lane : Nat)
  /-- KEY_HOLD (R400): a lane refuses its last counter value. -/
  | keyHold (lane : Nat)
  /-- KEY_EXPIRY (R400): 50 ms pass in KEY_HOLD. -/
  | keyExpiry (lane : Nat)
  /-- PAGE_MIGRATION (R406): the move of a migrate page completes. -/
  | pageMigration (mv : PageMove)
  /-- PORTAL_REPLY (R404): the portal answers a RAMO or an access to an H page. -/
  | portalReply (id : Nat) (ans : Answer)
  /-- SLOT_ENTRY_EFFECT (R407): slot index 0: the written slot entries of a router take effect. -/
  | slotEntryEffect (router : Nat)
  /-- ASYNC_CAUSE (R418): the shepherd core takes the head asynchronous cause. -/
  | asyncCause (cluster : Nat)
  /-- WATCHDOG (R418): a cause has waited 1 ms and is taken as cause 0x12. -/
  | watchdog (cluster n : Nat)
  /-- CHANNEL_STORE_READOUT (R423): the channel stores of a gated pasture are read out. -/
  | channelStoreReadout (past : Nat)
  /-- TLBI_COMPLETION (R198): a TLBI completes. -/
  | tlbiCompletion (id : Nat)
  /-- LAUNCH_WRITE (R442): the host writes a launch register. -/
  | launchWrite (past : Nat) (v : BitVec 64)
  /-- HOSTEV (R441): the host writes HOSTEV. -/
  | hostev (past : Nat) (v : BitVec 64)
  /-- PREQ (R441): the host writes PREQ. -/
  | preq (past : Nat) (v : BitVec 64)
  /-- EVENT_ACK (R443): the host writes word 1 of an event slot. -/
  | eventAck (past vec : Nat) (v : BitVec 64)
  /-- COLD_START (R445): STARTCTL is written with COLD set. -/
  | coldStart (v : BitVec 64)
  /-- WARM_START (R445): STARTCTL is written with WARM and not COLD set. -/
  | warmStart (v : BitVec 64)
  /-- START_COMPLETION (R448): the start in progress completes or fails. -/
  | startCompletion (rep : StartReport)
  /-- POWERCTL (R450): the host writes POWERCTL. -/
  | powerctl (v : BitVec 64)
  /-- FWSTAGE_WRITE (R446): the host writes the firmware staging buffer. -/
  | fwstageWrite (off : Nat) (v : BitVec 64)
  /-- HOST_MEMORY_ACCESS (R440): the host accesses memory through BAR2. -/
  | hostMemoryAccess (acc : OutAccess)
  /-- HOST_ATOMICOP (R439): the host sends an AtomicOp to a window. -/
  | hostAtomicop (off : Nat)
  /-- POWER_ON (R439): the module powers on: peer number, revision and the PCIe rate that both ends support. -/
  | powerOn (peer rev rate : Nat)
  /-- THERMAL_LIMIT (R450): the coolant limit and the averaged power are reported. -/
  | thermalLimit (watts power : Nat)
  /-- REGISTER_WRITE (R4): the host writes another register of the management window. -/
  | registerWrite (off : Nat) (v : BitVec 64)
  /-- REVOCATION_NOTICE (R390): a receiver announces the revocation of a lane from here. -/
  | revocationNotice (lane : Nat)
  /-- UALINK_PEER_ACCESS (R244): a UALink peer accesses device memory. -/
  | ualinkPeerAccess (acc : OutAccess)
  deriving DecidableEq, Repr

end Sys2Proof
end

