-- ==== Sys2Proof/Decode.lean ====
section
/-! DEFINITION. The decoder of op words and the encoder (R61, R68-R76 and the encoding table of each class).
The trigger and sequencing fields, which say when and where, are read by the machine (R62, R64). -/
namespace Sys2Proof

/-- The op word of R61, its five fields as numbers below 256. -/
structure OpWord where
  opc : Nat
  d : Nat
  a : Nat
  b : Nat
  m : Nat
  deriving DecidableEq, Repr

/-- Why a word is no instruction: its opcode is reserved, an operand code is reserved or a required
0x2A is missing, or a modifier or literal value is reserved (R69, R76). -/
inductive DecErr where
  | opcode | operand | modifier
  deriving DecidableEq, Repr

/-- Fields of bits [39:0] (R61). -/
def OpWord.ofNat (w : Nat) : OpWord :=
  ⟨bits w 32 8, bits w 24 8, bits w 16 8, bits w 8 8, bits w 0 8⟩

def OpWord.toNat (w : OpWord) : Nat :=
  ((((w.opc * 256 + w.d) * 256 + w.a) * 256 + w.b) * 256) + w.m

/-- The code of an operand (R68). -/
def Opd.code : Opd → Nat
  | .r n => n.val | .o n => 0x20 + n.val | .l n => 0x28 + n.val
  | .zero => 0x2A | .ones => 0x2B | .lane => 0x2C | .bank => 0x2D | .act => 0x2E | .core => 0x2F
  | .inC n => 0x30 + n.val | .outC n => 0x38 + n.val | .h n => 0x40 + n.val
  | .imm v => 0x80 + v.toNat

/-- The operand of a code; 0x50-0x7F are reserved (R68). -/
def Opd.ofCode (c : Nat) : Option Opd :=
  if c < 0x20 then some (.r (Fin.ofNat 32 c))
  else if c < 0x28 then some (.o (Fin.ofNat 8 (c - 0x20)))
  else if c < 0x2A then some (.l (Fin.ofNat 2 (c - 0x28)))
  else if c = 0x2A then some .zero else if c = 0x2B then some .ones else if c = 0x2C then some .lane
  else if c = 0x2D then some .bank else if c = 0x2E then some .act else if c = 0x2F then some .core
  else if c < 0x38 then some (.inC (Fin.ofNat 8 (c - 0x30)))
  else if c < 0x40 then some (.outC (Fin.ofNat 8 (c - 0x38)))
  else if c < 0x50 then some (.h (Fin.ofNat 16 (c - 0x40)))
  else if c < 0x80 then none
  else if c < 0x100 then some (.imm (BitVec.ofNat 7 (c - 0x80)))
  else none

def boolBit (b : Bool) : Nat := if b then 1 else 0

def ShF.enc (f : ShF) : Nat := f.shape.code * 32
def ShF.dec (m : Nat) : Option ShF := do
  let shape ← Shape.ofCode (bits m 5 3)
  let f : ShF := ⟨shape⟩
  if f.enc = m then some f else none
def IntF.enc (f : IntF) : Nat := f.shape.code * 32 + boolBit f.sat * 4
def IntF.dec (m : Nat) : Option IntF := do
  let shape ← Shape.ofCode (bits m 5 3)
  let f : IntF := ⟨shape, bits m 2 1 == 1⟩
  if f.enc = m then some f else none
def BfxF.enc (f : BfxF) : Nat := f.shape.code * 32 + boolBit f.sx
def BfxF.dec (m : Nat) : Option BfxF := do
  let shape ← Shape.ofCode (bits m 5 3)
  let f : BfxF := ⟨shape, bits m 0 1 == 1⟩
  if f.enc = m then some f else none
def CmpF.enc (f : CmpF) : Nat := f.shape.code * 32 + f.cond.code * 4
def CmpF.dec (m : Nat) : Option CmpF := do
  let shape ← Shape.ofCode (bits m 5 3)
  let cond ← CmpCond.ofCode (bits m 2 3)
  let f : CmpF := ⟨shape, cond⟩
  if f.enc = m then some f else none
def SelF.enc (f : SelF) : Nat := f.p.val
def SelF.dec (m : Nat) : Option SelF :=
  let f : SelF := ⟨Fin.ofNat 8 (bits m 0 3)⟩
  if f.enc = m then some f else none
def LeaF.enc (f : LeaF) : Nat := f.shape.code * 32 + f.sh.val * 4
def LeaF.dec (m : Nat) : Option LeaF := do
  let shape ← Shape.ofCode (bits m 5 3)
  let f : LeaF := ⟨shape, Fin.ofNat 8 (bits m 2 3)⟩
  if f.enc = m then some f else none
def FpF.enc (f : FpF) : Nat := f.shape.code * 32 + f.rnd.code * 8 + boolBit f.sat * 4 + boolBit f.xs
def FpF.dec (m : Nat) : Option FpF := do
  let shape ← Shape.ofCode (bits m 5 3)
  let rnd ← Rnd.ofCode (bits m 3 2)
  let f : FpF := ⟨shape, rnd, bits m 2 1 == 1, bits m 0 1 == 1⟩
  if f.enc = m then some f else none
def FmmF.enc (f : FmmF) : Nat := f.shape.code * 32 + boolBit f.xs
def FmmF.dec (m : Nat) : Option FmmF := do
  let shape ← Shape.ofCode (bits m 5 3)
  let f : FmmF := ⟨shape, bits m 0 1 == 1⟩
  if f.enc = m then some f else none
def FsgnF.enc (f : FsgnF) : Nat := f.shape.code * 32 + f.op.code * 8 + boolBit f.xs
def FsgnF.dec (m : Nat) : Option FsgnF := do
  let shape ← Shape.ofCode (bits m 5 3)
  let op ← SgnOp.ofCode (bits m 3 2)
  let f : FsgnF := ⟨shape, op, bits m 0 1 == 1⟩
  if f.enc = m then some f else none
def FcmpF.enc (f : FcmpF) : Nat := f.shape.code * 32 + f.cond.code * 4 + boolBit f.xs
def FcmpF.dec (m : Nat) : Option FcmpF := do
  let shape ← Shape.ofCode (bits m 5 3)
  let cond ← FCond.ofCode (bits m 2 3)
  let f : FcmpF := ⟨shape, cond, bits m 0 1 == 1⟩
  if f.enc = m then some f else none
def CvtF.enc (f : CvtF) : Nat := f.part.val * 32 + f.rnd.code * 8 + boolBit f.sat * 4 + boolBit f.xs
def CvtF.dec (m : Nat) : Option CvtF := do
  let rnd ← Rnd.ofCode (bits m 3 2)
  let f : CvtF := ⟨Fin.ofNat 8 (bits m 5 3), rnd, bits m 2 1 == 1, bits m 0 1 == 1⟩
  if f.enc = m then some f else none
def CviF.enc (f : CviF) : Nat := f.part.val * 32 + boolBit f.sat * 4
def CviF.dec (m : Nat) : Option CviF :=
  let f : CviF := ⟨Fin.ofNat 8 (bits m 5 3), bits m 2 1 == 1⟩
  if f.enc = m then some f else none
def FtoiF.enc (f : FtoiF) : Nat := f.shape.code * 32 + f.rnd.code * 8 + boolBit f.zx * 2
def FtoiF.dec (m : Nat) : Option FtoiF := do
  let shape ← Shape.ofCode (bits m 5 3)
  let rnd ← Rnd.ofCode (bits m 3 2)
  let f : FtoiF := ⟨shape, rnd, bits m 1 1 == 1⟩
  if f.enc = m then some f else none
def SatF.enc (f : SatF) : Nat := boolBit f.sat * 4
def SatF.dec (m : Nat) : Option SatF :=
  let f : SatF := ⟨bits m 2 1 == 1⟩
  if f.enc = m then some f else none
def QblkF.enc (f : QblkF) : Nat := f.fmt.code
def QblkF.dec (m : Nat) : Option QblkF := do
  let fmt ← QFmt.ofCode (bits m 0 2)
  let f : QblkF := ⟨fmt⟩
  if f.enc = m then some f else none
def UnpkF.enc (f : UnpkF) : Nat := f.shape.code * 32 + f.sel.code
def UnpkF.dec (m : Nat) : Option UnpkF := do
  let shape ← Shape.ofCode (bits m 5 3)
  let sel ← UnpkSel.ofCode (bits m 0 2)
  let f : UnpkF := ⟨shape, sel⟩
  if f.enc = m then some f else none
def BitF.enc (f : BitF) : Nat := boolBit f.bit
def BitF.dec (m : Nat) : Option BitF :=
  let f : BitF := ⟨bits m 0 1 == 1⟩
  if f.enc = m then some f else none
def DeqF.enc (f : DeqF) : Nat := f.n.val
def DeqF.dec (m : Nat) : Option DeqF :=
  let f : DeqF := ⟨Fin.ofNat 32 (bits m 0 5)⟩
  if f.enc = m then some f else none
def PlogF.enc (f : PlogF) : Nat := f.op.code
def PlogF.dec (m : Nat) : Option PlogF := do
  let op ← LogOp.ofCode (bits m 0 2)
  let f : PlogF := ⟨op⟩
  if f.enc = m then some f else none
def PoisF.enc (f : PoisF) : Nat := f.cause.val
def PoisF.dec (m : Nat) : Option PoisF :=
  let f : PoisF := ⟨Fin.ofNat 256 (bits m 0 8)⟩
  if f.enc = m then some f else none
def MxF.enc (f : MxF) : Nat := f.fmt.code * 32
def MxF.dec (m : Nat) : Option MxF := do
  let fmt ← FFmt.ofCode (bits m 5 3)
  let f : MxF := ⟨fmt⟩
  if f.enc = m then some f else none
def MxfmtF.enc (f : MxfmtF) : Nat := f.fmt.code * 32 + boolBit f.os
def MxfmtF.dec (m : Nat) : Option MxfmtF := do
  let fmt ← FFmt.ofCode (bits m 5 3)
  let f : MxfmtF := ⟨fmt, bits m 0 1 == 1⟩
  if f.enc = m then some f else none
def MxaccF.enc (f : MxaccF) : Nat := boolBit f.sat * 4 + boolBit f.clr
def MxaccF.dec (m : Nat) : Option MxaccF :=
  let f : MxaccF := ⟨bits m 2 1 == 1, bits m 0 1 == 1⟩
  if f.enc = m then some f else none
def MxdrnF.enc (f : MxdrnF) : Nat := f.fmt.code * 32 + f.rnd.code * 8 + boolBit f.sat * 4 + boolBit f.ch * 2
def MxdrnF.dec (m : Nat) : Option MxdrnF := do
  let fmt ← FFmt.ofCode (bits m 5 3)
  let rnd ← Rnd.ofCode (bits m 3 2)
  let f : MxdrnF := ⟨fmt, rnd, bits m 2 1 == 1, bits m 1 1 == 1⟩
  if f.enc = m then some f else none
def CturnF.enc (f : CturnF) : Nat := f.k.code
def CturnF.dec (m : Nat) : Option CturnF := do
  let k ← TurnK.ofCode (bits m 0 2)
  let f : CturnF := ⟨k⟩
  if f.enc = m then some f else none
def MemF.enc (f : MemF) : Nat := f.scope.code * 16 + f.order.code * 4 + f.width.code
def MemF.dec (m : Nat) : Option MemF := do
  let scope ← Scope.ofCode (bits m 4 4)
  let order ← Order.ofCode (bits m 2 2)
  let width ← Width.ofCode (bits m 0 2)
  let f : MemF := ⟨scope, order, width⟩
  if f.enc = m then some f else none
def ScF.enc (f : ScF) : Nat := f.scope.code * 16
def ScF.dec (m : Nat) : Option ScF := do
  let scope ← Scope.ofCode (bits m 4 4)
  let f : ScF := ⟨scope⟩
  if f.enc = m then some f else none
def ScBF.enc (f : ScBF) : Nat := f.scope.code * 16 + boolBit f.bit
def ScBF.dec (m : Nat) : Option ScBF := do
  let scope ← Scope.ofCode (bits m 4 4)
  let f : ScBF := ⟨scope, bits m 0 1 == 1⟩
  if f.enc = m then some f else none
def ApF.enc (f : ApF) : Nat := f.scope.code * 16 + f.width.code
def ApF.dec (m : Nat) : Option ApF := do
  let scope ← Scope.ofCode (bits m 4 4)
  let width ← Width.ofCode (bits m 0 2)
  let f : ApF := ⟨scope, width⟩
  if f.enc = m then some f else none
def FenceF.enc (f : FenceF) : Nat := f.scope.code * 16 + f.kind.code * 4
def FenceF.dec (m : Nat) : Option FenceF := do
  let scope ← Scope.ofCode (bits m 4 4)
  let kind ← FenceK.ofCode (bits m 2 2)
  let f : FenceF := ⟨scope, kind⟩
  if f.enc = m then some f else none
def AmoF.enc (f : AmoF) : Nat := f.scope.code * 16 + f.op.code
def AmoF.dec (m : Nat) : Option AmoF := do
  let scope ← Scope.ofCode (bits m 4 4)
  let op ← AmoOp.ofCode (bits m 0 4)
  let f : AmoF := ⟨scope, op⟩
  if f.enc = m then some f else none
def WaitaF.enc (f : WaitaF) : Nat := f.scope.code * 16 + boolBit f.w8 * 8 + f.cond.code
def WaitaF.dec (m : Nat) : Option WaitaF := do
  let scope ← Scope.ofCode (bits m 4 4)
  let cond ← WCond.ofCode (bits m 0 3)
  let f : WaitaF := ⟨scope, bits m 3 1 == 1, cond⟩
  if f.enc = m then some f else none
def CopyF.enc (f : CopyF) : Nat := f.hd.val * 16 + f.hs.val
def CopyF.dec (m : Nat) : Option CopyF :=
  let f : CopyF := ⟨Fin.ofNat 16 (bits m 4 4), Fin.ofNat 16 (bits m 0 4)⟩
  if f.enc = m then some f else none
def BextF.enc (f : BextF) : Nat := f.mode.code
def BextF.dec (m : Nat) : Option BextF := do
  let mode ← BextMode.ofCode (bits m 0 2)
  let f : BextF := ⟨mode⟩
  if f.enc = m then some f else none
def PscanF.enc (f : PscanF) : Nat := f.rnd.code * 8 + f.op.code
def PscanF.dec (m : Nat) : Option PscanF := do
  let rnd ← Rnd.ofCode (bits m 3 2)
  let op ← ScanOp.ofCode (bits m 0 2)
  let f : PscanF := ⟨rnd, op⟩
  if f.enc = m then some f else none
def RelF.enc (f : RelF) : Nat := f.rel.val
def RelF.dec (m : Nat) : Option RelF :=
  let f : RelF := ⟨Fin.ofNat 256 (bits m 0 8)⟩
  if f.enc = m then some f else none
def FamF.enc (f : FamF) : Nat := f.fam.val
def FamF.dec (m : Nat) : Option FamF :=
  let f : FamF := ⟨Fin.ofNat 64 (bits m 0 6)⟩
  if f.enc = m then some f else none
def MgrpF.enc (f : MgrpF) : Nat := f.op.code
def MgrpF.dec (m : Nat) : Option MgrpF := do
  let op ← MgrpOp.ofCode (bits m 0 2)
  let f : MgrpF := ⟨op⟩
  if f.enc = m then some f else none
def RamoF.enc (f : RamoF) : Nat := f.scope.code * 16 + f.op.code
def RamoF.dec (m : Nat) : Option RamoF := do
  let scope ← Scope.ofCode (bits m 4 4)
  let op ← RamoOp.ofCode (bits m 0 4)
  let f : RamoF := ⟨scope, op⟩
  if f.enc = m then some f else none
def PfF.enc (f : PfF) : Nat := boolBit f.pw * 8 + f.pi.val
def PfF.dec (m : Nat) : Option PfF :=
  let f : PfF := ⟨bits m 3 1 == 1, Fin.ofNat 8 (bits m 0 3)⟩
  if f.enc = m then some f else none
def TlbiF.enc (f : TlbiF) : Nat := f.scope.code * 16 + f.kind.code
def TlbiF.dec (m : Nat) : Option TlbiF := do
  let scope ← Scope.ofCode (bits m 4 4)
  let kind ← TlbiKind.ofCode (bits m 0 2)
  let f : TlbiF := ⟨scope, kind⟩
  if f.enc = m then some f else none
/-- Element widths of the formats and types (R92, R178). -/
def FFmt.width : FFmt → Nat
  | .f32 => 32 | .bf16 => 16 | .e4m3 => 8 | .e5m2 => 8 | .e2m1 => 4
def ITy.width : ITy → Nat
  | .i8 => 8 | .n8 => 8 | .i16 => 16 | .n16 => 16 | .i32 => 32 | .n32 => 32 | .i64 => 64 | .n64 => 64
def ITy.signed : ITy → Bool
  | .i8 => true | .i16 => true | .i32 => true | .i64 => true | .n8 => false | .n16 => false | .n32 => false | .n64 => false


/-- The selectors that GETC and SETC know; every other is reserved (R76, R140, R414). -/
def selectorOk (s : Nat) : Bool := s ≤ 5 || s == 0x10 || s == 0x11 || (0x20 ≤ s && s ≤ 0x2F && s != 0x27)

/-- The conditions of each entry on its modifier and literals (the encoding tables; R73, R76, R98). -/
def instrOk : Instr → Bool
  | .deq f _ => (1 ≤ f.n.val && f.n.val ≤ 20)
  | .poison f _ _ => (128 ≤ f.cause.val)
  | .add f _ _ _ => (f.shape != .s128)
  | .sub f _ _ _ => (f.shape != .s128)
  | .adds f _ _ _ => (f.shape != .s128)
  | .addn f _ _ _ => (f.shape != .s128)
  | .mul f _ _ _ => (f.shape != .s128)
  | .mulh f _ _ _ => (f.shape != .s128)
  | .mulhn f _ _ _ => (f.shape != .s128)
  | .mad f _ _ _ => (f.shape != .s128)
  | .div f _ _ _ => (f.shape != .s128)
  | .divn f _ _ _ => (f.shape != .s128)
  | .rem f _ _ _ => (f.shape != .s128)
  | .min f _ _ _ => (f.shape != .s128)
  | .max f _ _ _ => (f.shape != .s128)
  | .minn f _ _ _ => (f.shape != .s128)
  | .maxn f _ _ _ => (f.shape != .s128)
  | .abs f _ _ => (f.shape != .s128)
  | .shl f _ _ _ => (f.shape != .s128)
  | .shr f _ _ _ => (f.shape != .s128)
  | .sha f _ _ _ => (f.shape != .s128)
  | .rot f _ _ _ => (f.shape != .s128)
  | .cmp f _ _ _ => (f.shape != .s128)
  | .clz f _ _ => (f.shape != .s128)
  | .popc f _ _ => (f.shape != .s128)
  | .bfx f _ _ _ => (f.shape == .s32 || f.shape == .s16 || f.shape == .s64)
  | .bfi f _ _ _ => (f.shape == .s32 || f.shape == .s16 || f.shape == .s64)
  | .lea f _ _ _ => (f.shape == .s32 || f.shape == .s16 || f.shape == .s64)
  | .limm form v _ => (form != .top || v.toNat < 2 ^ 20)
  | .fadd f _ _ _ => (f.shape == .s32 || f.shape == .s16)
  | .fsub f _ _ _ => (f.shape == .s32 || f.shape == .s16)
  | .fmul f _ _ _ => (f.shape == .s32 || f.shape == .s16)
  | .fma f _ _ _ => (f.shape == .s32 || f.shape == .s16)
  | .fnma f _ _ _ => (f.shape == .s32 || f.shape == .s16)
  | .fmin f _ _ _ => (f.shape == .s32 || f.shape == .s16)
  | .fmax f _ _ _ => (f.shape == .s32 || f.shape == .s16)
  | .fsgn f _ _ b => (f.shape == .s32 || f.shape == .s16) && ((f.op == .cps || b == .zero))
  | .fcmp f _ _ _ => (f.shape == .s32 || f.shape == .s16)
  | .fdiv f _ _ _ => (f.shape == .s32 || f.shape == .s16)
  | .fsqrt f _ _ => (f.shape == .s32 || f.shape == .s16) && (!f.xs)
  | .frcp f _ _ => (f.shape == .s32 || f.shape == .s16) && (!f.xs)
  | .frsq f _ _ => (f.shape == .s32 || f.shape == .s16) && (!f.xs)
  | .fexp2 f _ _ => (f.shape == .s32 || f.shape == .s16) && (!f.xs)
  | .flog2 f _ _ => (f.shape == .s32 || f.shape == .s16) && (!f.xs)
  | .fdot f _ _ _ => (f.shape == .s32 || f.shape == .s16)
  | .cvt f tf ff _ _ => (tf != ff && f.part.val < max ff.width tf.width / min ff.width tf.width && (!(tf == .e4m3 || tf == .e5m2 || tf == .e2m1) || f.rnd == .rne))
  | .cvti f tf ff _ _ => (tf != ff && f.part.val < max ff.width tf.width / min ff.width tf.width)
  | .ftoi f _ _ => (f.shape == .s32 || f.shape == .s16)
  | .itof f _ _ => (f.shape == .s32 || f.shape == .s16)
  | .fred f op _ _ => ((f.shape == .s32 || f.shape == .s16) && (op == .sum || !f.sat))
  | .shuf f _ _ _ => (f.shape != .s128)
  | .bcst f _ _ _ => (f.shape != .s128)
  | .pack f _ _ _ => (f.shape == .s32 || f.shape == .s16 || f.shape == .s64)
  | .unpk f _ _ => (f.shape == .s32 || f.shape == .s16 || f.shape == .s8)
  | .fcls f _ _ => (f.shape == .s32 || f.shape == .s16)
  | .mxwld f _ _ => (f.fmt != .f32)
  | .mxfmt f _ _ => (f.fmt != .f32)
  | .mxdrn f _ _ _ => ((f.fmt == .f32 || f.fmt == .bf16) || f.rnd == .rne)
  | .ld f _ _ _ => (f.scope != .stage && (f.order == .plain || f.order == .acq))
  | .st f _ _ _ => (f.scope != .stage && (f.order == .plain || f.order == .rel))
  | .lds f _ _ _ => ((f.scope.code ≤ 3 || f.scope == .stage) && (f.order == .plain || f.order == .acq))
  | .sts f _ _ _ => ((f.scope.code ≤ 3 || f.scope == .stage) && (f.order == .plain || f.order == .rel))
  | .ldh f _ _ _ => (f.scope != .stage && (f.order == .plain || f.order == .acq))
  | .sth f _ _ _ => (f.scope != .stage && (f.order == .plain || f.order == .rel))
  | .wbind f _ _ _ => (2 ≤ f.scope.code && f.scope.code ≤ 9)
  | .pft f _ _ => (2 ≤ f.scope.code && f.scope.code ≤ 9)
  | .snap f _ _ _ => (2 ≤ f.scope.code && f.scope.code ≤ 9)
  | .append f _ _ _ => ((2 ≤ f.scope.code && f.scope.code ≤ 9) && f.width != .nt)
  | .publ f _ _ b => (2 ≤ f.scope.code && f.scope.code ≤ 9) && ((!f.bit || b == .zero))
  | .bar f _ _ => (2 ≤ f.scope.code && f.scope.code ≤ 9)
  | .bara f _ => (2 ≤ f.scope.code && f.scope.code ≤ 9)
  | .pscan f _ _ _ => (f.op == .fsum || f.rnd == .rne)
  | .iwalk f _ _ _ => (2 ≤ f.scope.code && f.scope.code ≤ 9)
  | .spmx f _ _ _ => (2 ≤ f.scope.code && f.scope.code ≤ 9)
  | .exq f _ _ _ => (2 ≤ f.scope.code && f.scope.code ≤ 9)
  | .exdq f _ _ _ => (2 ≤ f.scope.code && f.scope.code ≤ 9)
  | .hash spr _ _ => (match spr with | none => true | some k => 1 ≤ k.val && k.val ≤ 32)
  | .mcst f _ _ _ => (6 ≤ f.scope.code && f.scope.code ≤ 9)
  | .mgrp f _ a _ => (((f.op == .set || f.op == .map) || a == .zero))
  | .ramo f _ _ _ => (f.scope == .host || f.scope == .system)
  | .loop _ b => (b.val != 0)
  | .getc _ a _ => selectorOk a.val
  | .setc d _ _ => selectorOk d.val
  | .arm f _ _ _ => (f.pw || f.pi.val == 0)
  | .install f _ _ _ => (f.pw || f.pi.val == 0)
  | .launch f _ _ _ => (f.pw || f.pi.val == 0)
  | .resume f _ _ b => ((f.bit || b == .zero))
  | .tlbi f _ a b => (3 ≤ f.scope.code && f.scope.code ≤ 5) && ((f.kind == .pg || a == .zero) && (f.kind != .all || b == .zero))
  | _ => true

/-- The op word of an instruction; events have none. -/
def encOp : Instr → Option OpWord
  | .nop  => some ⟨0x00, 0x2A, 0x2A, 0x2A, 0⟩
  | .mov f d a => some ⟨0x01, d.code, a.code, 0x2A, f.enc⟩
  | .send d a b => some ⟨0x02, d.code, a.code, b.code, 0⟩
  | .deq f a => some ⟨0x03, 0x2A, a.code, 0x2A, f.enc⟩
  | .tagr d a => some ⟨0x04, d.code, a.code, 0x2A, 0⟩
  | .eos d => some ⟨0x05, d.code, 0x2A, 0x2A, 0⟩
  | .pset a b => some ⟨0x06, 0x2A, a.val, b.val, 0⟩
  | .plog f d a b => some ⟨0x07, d.val, a.val, b.val, f.enc⟩
  | .done  => some ⟨0x09, 0x2A, 0x2A, 0x2A, 0⟩
  | .poison f d a => some ⟨0x0A, d.code, a.code, 0x2A, f.enc⟩
  | .chq d a => some ⟨0x0B, d.code, 0x30 + a.val, 0x2A, 0⟩
  | .add f d a b => some ⟨0x10, d.code, a.code, b.code, f.enc⟩
  | .sub f d a b => some ⟨0x11, d.code, a.code, b.code, f.enc⟩
  | .adds f d a b => some ⟨0x12, d.code, a.code, b.code, f.enc⟩
  | .addn f d a b => some ⟨0x13, d.code, a.code, b.code, f.enc⟩
  | .mul f d a b => some ⟨0x14, d.code, a.code, b.code, f.enc⟩
  | .mulh f d a b => some ⟨0x15, d.code, a.code, b.code, f.enc⟩
  | .mulhn f d a b => some ⟨0x16, d.code, a.code, b.code, f.enc⟩
  | .mad f d a b => some ⟨0x17, d.code, a.code, b.code, f.enc⟩
  | .div f d a b => some ⟨0x18, d.code, a.code, b.code, f.enc⟩
  | .divn f d a b => some ⟨0x19, d.code, a.code, b.code, f.enc⟩
  | .rem f d a b => some ⟨0x1A, d.code, a.code, b.code, f.enc⟩
  | .min f d a b => some ⟨0x1B, d.code, a.code, b.code, f.enc⟩
  | .max f d a b => some ⟨0x1C, d.code, a.code, b.code, f.enc⟩
  | .minn f d a b => some ⟨0x1D, d.code, a.code, b.code, f.enc⟩
  | .maxn f d a b => some ⟨0x1E, d.code, a.code, b.code, f.enc⟩
  | .abs f d a => some ⟨0x1F, d.code, a.code, 0x2A, f.enc⟩
  | .and f d a b => some ⟨0x20, d.code, a.code, b.code, f.enc⟩
  | .or f d a b => some ⟨0x21, d.code, a.code, b.code, f.enc⟩
  | .xor f d a b => some ⟨0x22, d.code, a.code, b.code, f.enc⟩
  | .andn f d a b => some ⟨0x23, d.code, a.code, b.code, f.enc⟩
  | .shl f d a b => some ⟨0x24, d.code, a.code, b.code, f.enc⟩
  | .shr f d a b => some ⟨0x25, d.code, a.code, b.code, f.enc⟩
  | .sha f d a b => some ⟨0x26, d.code, a.code, b.code, f.enc⟩
  | .rot f d a b => some ⟨0x27, d.code, a.code, b.code, f.enc⟩
  | .cmp f d a b => some ⟨0x28, d.val, a.code, b.code, f.enc⟩
  | .sel f d a b => some ⟨0x29, d.code, a.code, b.code, f.enc⟩
  | .clz f d a => some ⟨0x2A, d.code, a.code, 0x2A, f.enc⟩
  | .popc f d a => some ⟨0x2B, d.code, a.code, 0x2A, f.enc⟩
  | .bfx f d a b => some ⟨0x2C, d.code, a.code, b.code, f.enc⟩
  | .bfi f d a b => some ⟨0x2D, d.code, a.code, b.code, f.enc⟩
  | .lea f d a b => some ⟨0x2E, d.code, a.code, b.code, f.enc⟩
  | .limm form v d => some ⟨0x2F, d.code, bits v.toNat 14 8, bits v.toNat 6 8, bits v.toNat 0 6 * 4 + form.code⟩
  | .fadd f d a b => some ⟨0x30, d.code, a.code, b.code, f.enc⟩
  | .fsub f d a b => some ⟨0x31, d.code, a.code, b.code, f.enc⟩
  | .fmul f d a b => some ⟨0x32, d.code, a.code, b.code, f.enc⟩
  | .fma f d a b => some ⟨0x33, d.code, a.code, b.code, f.enc⟩
  | .fnma f d a b => some ⟨0x34, d.code, a.code, b.code, f.enc⟩
  | .fmin f d a b => some ⟨0x35, d.code, a.code, b.code, f.enc⟩
  | .fmax f d a b => some ⟨0x36, d.code, a.code, b.code, f.enc⟩
  | .fsgn f d a b => some ⟨0x37, d.code, a.code, b.code, f.enc⟩
  | .fcmp f d a b => some ⟨0x38, d.val, a.code, b.code, f.enc⟩
  | .fdiv f d a b => some ⟨0x39, d.code, a.code, b.code, f.enc⟩
  | .fsqrt f d a => some ⟨0x3A, d.code, a.code, 0x2A, f.enc⟩
  | .frcp f d a => some ⟨0x3B, d.code, a.code, 0x2A, f.enc⟩
  | .frsq f d a => some ⟨0x3C, d.code, a.code, 0x2A, f.enc⟩
  | .fexp2 f d a => some ⟨0x3D, d.code, a.code, 0x2A, f.enc⟩
  | .flog2 f d a => some ⟨0x3E, d.code, a.code, 0x2A, f.enc⟩
  | .fdot f d a b => some ⟨0x3F, d.code, a.code, b.code, f.enc⟩
  | .cvt f tf ff d a => some ⟨0x40, d.code, a.code, tf.code * 16 + ff.code, f.enc⟩
  | .cvti f tf ff d a => some ⟨0x41, d.code, a.code, tf.code * 16 + ff.code, f.enc⟩
  | .ftoi f d a => some ⟨0x42, d.code, a.code, 0x2A, f.enc⟩
  | .itof f d a => some ⟨0x43, d.code, a.code, 0x2A, f.enc⟩
  | .scale f d a b => some ⟨0x44, d.code, a.code, b.code, f.enc⟩
  | .qblk f d a => some ⟨0x45, d.code, a.code, 0x2A, f.enc⟩
  | .fred f op d a => some ⟨0x46, d.code, a.code, op.code, f.enc⟩
  | .shuf f d a b => some ⟨0x47, d.code, a.code, b.code, f.enc⟩
  | .bcst f d a b => some ⟨0x48, d.code, a.code, b.code, f.enc⟩
  | .pack f d a b => some ⟨0x49, d.code, a.code, b.code, f.enc⟩
  | .unpk f d a => some ⟨0x4A, d.code, a.code, 0x2A, f.enc⟩
  | .fcls f d a => some ⟨0x4B, d.code, a.code, 0x2A, f.enc⟩
  | .rand f d a b => some ⟨0x4C, d.code, a.code, b.code, f.enc⟩
  | .mxmode f d a => some ⟨0x50, d.code, a.code, 0x2A, f.enc⟩
  | .mxwld f a b => some ⟨0x51, 0x2A, a.code, b.code, f.enc⟩
  | .mxwbuf d a b => some ⟨0x52, d.code, a.code, b.code, 0⟩
  | .mxfmt f a b => some ⟨0x53, 0x2A, a.code, b.code, f.enc⟩
  | .mxrun d a b => some ⟨0x54, d.code, a.code, b.code, 0⟩
  | .mxacc f a => some ⟨0x55, 0x2A, a.val, 0x2A, f.enc⟩
  | .mxdrn f d a b => some ⟨0x56, d.code, a.code, b.code, f.enc⟩
  | .mxst f d a => some ⟨0x57, d.code, a.code, 0x2A, f.enc⟩
  | .cturn f a => some ⟨0x58, 0x2A, 0x30 + a.val, 0x2A, f.enc⟩
  | .mxwait d a => some ⟨0x59, d.code, a.code, 0x2A, 0⟩
  | .ld f d a b => some ⟨0x60, d.code, a.code, b.code, f.enc⟩
  | .st f d a b => some ⟨0x61, d.code, a.code, b.code, f.enc⟩
  | .lds f d a b => some ⟨0x62, d.code, a.code, b.code, f.enc⟩
  | .sts f d a b => some ⟨0x63, d.code, a.code, b.code, f.enc⟩
  | .ldh f d a b => some ⟨0x64, d.code, a.code, b.code, f.enc⟩
  | .sth f d a b => some ⟨0x65, d.code, a.code, b.code, f.enc⟩
  | .hset d a b => some ⟨0x66, d.code, a.code, b.val, 0⟩
  | .hget d a b => some ⟨0x67, d.code, a.code, b.val, 0⟩
  | .wbind f d a b => some ⟨0x68, d.code, a.code, b.code, f.enc⟩
  | .wfree a => some ⟨0x69, 0x2A, a.code, 0x2A, 0⟩
  | .pft f a b => some ⟨0x6A, 0x2A, a.code, b.code, f.enc⟩
  | .snap f d a b => some ⟨0x6B, d.code, a.code, b.code, f.enc⟩
  | .append f d a b => some ⟨0x6C, d.code, a.code, b.code, f.enc⟩
  | .publ f d a b => some ⟨0x6D, d.code, a.code, b.code, f.enc⟩
  | .fence f d => some ⟨0x6E, d.code, 0x2A, 0x2A, f.enc⟩
  | .amo f d a b => some ⟨0x70, d.code, a.code, b.code, f.enc⟩
  | .cas f d a b => some ⟨0x71, d.code, a.code, b.code, f.enc⟩
  | .red f d a b => some ⟨0x72, d.code, a.code, b.code, f.enc⟩
  | .waita f d a b => some ⟨0x73, d.code, a.code, b.code, f.enc⟩
  | .mon f a => some ⟨0x74, 0x2A, a.code, 0x2A, f.enc⟩
  | .mwait f d => some ⟨0x75, d.code, 0x2A, 0x2A, f.enc⟩
  | .arrive f d a b => some ⟨0x76, d.code, a.code, b.code, f.enc⟩
  | .waitc f d a b => some ⟨0x77, d.code, a.code, b.code, f.enc⟩
  | .bar f d a => some ⟨0x78, d.code, a.val, 0x2A, f.enc⟩
  | .bara f a => some ⟨0x79, 0x2A, a.val, 0x2A, f.enc⟩
  | .futw f d a b => some ⟨0x7A, d.code, a.code, b.code, f.enc⟩
  | .futr f d a => some ⟨0x7B, d.code, a.code, 0x2A, f.enc⟩
  | .prio a => some ⟨0x7C, 0x2A, a.code, 0x2A, 0⟩
  | .copy f d a b => some ⟨0x80, d.code, a.code, b.code, f.enc⟩
  | .copya f d a b => some ⟨0x81, d.code, a.code, b.code, f.enc⟩
  | .copyi f d a b => some ⟨0x82, d.code, a.code, b.code, f.enc⟩
  | .cqry d a => some ⟨0x83, d.code, a.code, 0x2A, 0⟩
  | .agld d a b => some ⟨0x84, d.code, a.code, b.code, 0⟩
  | .agst d a b => some ⟨0x85, d.code, a.code, b.code, 0⟩
  | .bopen f d a b => some ⟨0x86, d.code, a.code, b.code, f.enc⟩
  | .bclose d a => some ⟨0x87, d.code, a.code, 0x2A, 0⟩
  | .plset d a b => some ⟨0x88, d.code, a.code, b.code, 0⟩
  | .cflush f d a b => some ⟨0x89, d.code, a.code, b.code, f.enc⟩
  | .rdef d a => some ⟨0x90, d.code, a.code, 0x2A, 0⟩
  | .rins f d a b => some ⟨0x91, d.code, a.code, b.code, f.enc⟩
  | .rdel f d a => some ⟨0x92, d.code, a.code, 0x2A, f.enc⟩
  | .rule d a => some ⟨0x93, d.code, a.code, 0x2A, 0⟩
  | .eval d a => some ⟨0x94, d.code, a.code, 0x2A, 0⟩
  | .fold f d a => some ⟨0x95, d.code, a.code, 0x2A, f.enc⟩
  | .rscan f d a b => some ⟨0x96, d.code, a.code, b.code, f.enc⟩
  | .rlook f d a => some ⟨0x97, d.code, a.code, 0x2A, f.enc⟩
  | .rwit f d a => some ⟨0x98, d.code, a.code, 0x2A, f.enc⟩
  | .rback f d a b => some ⟨0x99, d.code, a.code, b.code, f.enc⟩
  | .rcnt f d => some ⟨0x9A, d.code, 0x2A, 0x2A, f.enc⟩
  | .rdrop f d a => some ⟨0x9B, d.code, a.code, 0x2A, f.enc⟩
  | .bhist d a b => some ⟨0xA0, d.code, a.code, b.code, 0⟩
  | .bsel d a b => some ⟨0xA1, d.code, a.code, b.code, 0⟩
  | .bext f d a b => some ⟨0xA2, d.code, a.code, b.code, f.enc⟩
  | .pscan f d a b => some ⟨0xA3, d.code, a.code, b.code, f.enc⟩
  | .topp d a => some ⟨0xA4, d.code, a.code, 0x2A, 0⟩
  | .iwalk f d a b => some ⟨0xA5, d.code, a.code, b.code, f.enc⟩
  | .spmx f d a b => some ⟨0xA6, d.code, a.code, b.code, f.enc⟩
  | .exq f d a b => some ⟨0xA7, d.code, a.code, b.code, f.enc⟩
  | .excfg d a b => some ⟨0xA8, d.code, a.code, b.code, 0⟩
  | .exdq f d a b => some ⟨0xA9, d.code, a.code, b.code, f.enc⟩
  | .stage d a => some ⟨0xB0, d.code, a.code, 0x2A, 0⟩
  | .cast d a b => some ⟨0xB1, d.code, a.code, b.code, 0⟩
  | .merge d a b => some ⟨0xB2, d.code, a.code, b.code, 0⟩
  | .krt d a b => some ⟨0xB3, d.code, a.code, b.code, 0⟩
  | .hash spr d a => some ⟨0xB4, d.code, a.code, (match spr with | none => 0x2A | some k => k.val), (match spr with | none => 0 | some _ => 1)⟩
  | .kroute f d a b => some ⟨0xB5, d.code, a.code, b.code, f.enc⟩
  | .sdone a => some ⟨0xB6, 0x2A, a.code, 0x2A, 0⟩
  | .mdone a => some ⟨0xB7, 0x2A, a.code, 0x2A, 0⟩
  | .castq d a => some ⟨0xB8, d.code, a.code, 0x2A, 0⟩
  | .lease d a b => some ⟨0xC0, d.code, a.code, b.code, 0⟩
  | .lmove d a b => some ⟨0xC1, d.code, a.code, b.code, 0⟩
  | .lrel f d a b => some ⟨0xC2, d.code, a.code, b.code, f.enc⟩
  | .lqry d a => some ⟨0xC3, d.code, a.code, 0x2A, 0⟩
  | .mcst f d a b => some ⟨0xC4, d.code, a.code, b.code, f.enc⟩
  | .mcstq d a b => some ⟨0xC5, d.code, a.code, b.code, 0⟩
  | .mgrp f d a b => some ⟨0xC6, d.code, a.code, b.code, f.enc⟩
  | .ramo f d a b => some ⟨0xC7, d.code, a.code, b.code, f.enc⟩
  | .pgmig d a b => some ⟨0xC8, d.code, a.code, b.code, 0⟩
  | .slot d a => some ⟨0xC9, d.code, a.code, 0x2A, 0⟩
  | .keyi f d a b => some ⟨0xCA, d.code, a.code, b.code, f.enc⟩
  | .peerq f d a => some ⟨0xCB, d.code, a.code, 0x2A, f.enc⟩
  | .loop a b => some ⟨0xD0, 0x2A, a.code, b.val, 0⟩
  | .lbrk c ng n => some ⟨0xD1, 0x2A, boolBit c * 16 + boolBit ng * 8 + n.val, 0x2A, 0⟩
  | .jind f a => some ⟨0xD2, 0x2A, a.code, 0x2A, f.enc⟩
  | .arm f d a b => some ⟨0xD3, d.code, a.code, b.code, f.enc⟩
  | .install f d a b => some ⟨0xD4, d.code, a.code, b.code, f.enc⟩
  | .launch f d a b => some ⟨0xD5, d.code, a.code, b.code, f.enc⟩
  | .seqw d a => some ⟨0xD6, d.code, a.code, 0x2A, 0⟩
  | .getc d a b => some ⟨0xD7, d.code, a.val, b.code, 0⟩
  | .setc d a b => some ⟨0xD8, d.val, a.code, b.code, 0⟩
  | .event a b => some ⟨0xD9, 0x2A, a.code, b.code, 0⟩
  | .trap a b => some ⟨0xE0, 0x2A, a.code, b.code, 0⟩
  | .tret  => some ⟨0xE1, 0x2A, 0x2A, 0x2A, 0⟩
  | .preempt d a => some ⟨0xE2, d.code, a.code, 0x2A, 0⟩
  | .resume f d a b => some ⟨0xE3, d.code, a.code, b.code, f.enc⟩
  | .csave d a => some ⟨0xE4, d.code, a.code, 0x2A, 0⟩
  | .cload d a => some ⟨0xE5, d.code, a.code, 0x2A, 0⟩
  | .tlbi f d a b => some ⟨0xE6, d.code, a.code, b.code, f.enc⟩
  | .gtbl d a b => some ⟨0xE7, d.code, a.code, b.code, 0⟩
  | .part d a b => some ⟨0xE8, d.code, a.code, b.code, 0⟩
  | .halt d a => some ⟨0xE9, d.code, a.code, 0x2A, 0⟩
  | .attest d a b => some ⟨0xEB, d.code, a.code, b.code, 0⟩
  | .flog f d a b => some ⟨0xEC, d.code, a.code, b.code, f.enc⟩
  | _ => none

def need (x : Option α) (e : DecErr) : Except DecErr α :=
  match x with | some v => .ok v | none => .error e

def needZ (c : Nat) : Except DecErr Unit := if c = 0x2A then .ok () else .error .operand
def needM0 (m : Nat) : Except DecErr Unit := if m = 0 then .ok () else .error .modifier
def needOpd (c : Nat) : Except DecErr Opd := need (Opd.ofCode c) .operand
def needFin (n : Nat) [NeZero n] (c : Nat) (e : DecErr) : Except DecErr (Fin n) :=
  if c < n then .ok (Fin.ofNat n c) else .error e
def needCh (n : Nat) [NeZero n] (c : Nat) : Except DecErr (Fin n) :=
  if 0x30 ≤ c ∧ c < 0x30 + n then .ok (Fin.ofNat n (c - 0x30)) else .error .modifier

/-- Class 0x0_ of R85. -/
def decodeClass0 (w : OpWord) : Except DecErr Instr :=
  match w.opc % 16 with
  | 0x0 => do
    needZ w.d
    needZ w.a
    needZ w.b
    needM0 w.m
    .ok (.nop )
  | 0x1 => do
    let d ← needOpd w.d
    let a ← needOpd w.a
    needZ w.b
    let f ← need (BitF.dec w.m) .modifier
    .ok (.mov f d a)
  | 0x2 => do
    let d ← needOpd w.d
    let a ← needOpd w.a
    let b ← needOpd w.b
    needM0 w.m
    .ok (.send d a b)
  | 0x3 => do
    needZ w.d
    let a ← needOpd w.a
    needZ w.b
    let f ← need (DeqF.dec w.m) .modifier
    .ok (.deq f a)
  | 0x4 => do
    let d ← needOpd w.d
    let a ← needOpd w.a
    needZ w.b
    needM0 w.m
    .ok (.tagr d a)
  | 0x5 => do
    let d ← needOpd w.d
    needZ w.a
    needZ w.b
    needM0 w.m
    .ok (.eos d)
  | 0x6 => do
    needZ w.d
    let a ← needFin 256 w.a .modifier
    let b ← needFin 256 w.b .modifier
    needM0 w.m
    .ok (.pset a b)
  | 0x7 => do
    let d ← needFin 8 w.d .modifier
    let a ← needFin 8 w.a .modifier
    let b ← needFin 8 w.b .modifier
    let f ← need (PlogF.dec w.m) .modifier
    .ok (.plog f d a b)
  | 0x9 => do
    needZ w.d
    needZ w.a
    needZ w.b
    needM0 w.m
    .ok (.done )
  | 0xA => do
    let d ← needOpd w.d
    let a ← needOpd w.a
    needZ w.b
    let f ← need (PoisF.dec w.m) .modifier
    .ok (.poison f d a)
  | 0xB => do
    let d ← needOpd w.d
    let a ← needCh 16 w.a
    needZ w.b
    needM0 w.m
    .ok (.chq d a)
  | _ => .error .opcode

/-- Class 0x1_ of R85. -/
def decodeClass1 (w : OpWord) : Except DecErr Instr :=
  match w.opc % 16 with
  | 0x0 => do
    let d ← needOpd w.d
    let a ← needOpd w.a
    let b ← needOpd w.b
    let f ← need (ShF.dec w.m) .modifier
    .ok (.add f d a b)
  | 0x1 => do
    let d ← needOpd w.d
    let a ← needOpd w.a
    let b ← needOpd w.b
    let f ← need (IntF.dec w.m) .modifier
    .ok (.sub f d a b)
  | 0x2 => do
    let d ← needOpd w.d
    let a ← needOpd w.a
    let b ← needOpd w.b
    let f ← need (ShF.dec w.m) .modifier
    .ok (.adds f d a b)
  | 0x3 => do
    let d ← needOpd w.d
    let a ← needOpd w.a
    let b ← needOpd w.b
    let f ← need (ShF.dec w.m) .modifier
    .ok (.addn f d a b)
  | 0x4 => do
    let d ← needOpd w.d
    let a ← needOpd w.a
    let b ← needOpd w.b
    let f ← need (IntF.dec w.m) .modifier
    .ok (.mul f d a b)
  | 0x5 => do
    let d ← needOpd w.d
    let a ← needOpd w.a
    let b ← needOpd w.b
    let f ← need (ShF.dec w.m) .modifier
    .ok (.mulh f d a b)
  | 0x6 => do
    let d ← needOpd w.d
    let a ← needOpd w.a
    let b ← needOpd w.b
    let f ← need (ShF.dec w.m) .modifier
    .ok (.mulhn f d a b)
  | 0x7 => do
    let d ← needOpd w.d
    let a ← needOpd w.a
    let b ← needOpd w.b
    let f ← need (IntF.dec w.m) .modifier
    .ok (.mad f d a b)
  | 0x8 => do
    let d ← needOpd w.d
    let a ← needOpd w.a
    let b ← needOpd w.b
    let f ← need (ShF.dec w.m) .modifier
    .ok (.div f d a b)
  | 0x9 => do
    let d ← needOpd w.d
    let a ← needOpd w.a
    let b ← needOpd w.b
    let f ← need (ShF.dec w.m) .modifier
    .ok (.divn f d a b)
  | 0xA => do
    let d ← needOpd w.d
    let a ← needOpd w.a
    let b ← needOpd w.b
    let f ← need (ShF.dec w.m) .modifier
    .ok (.rem f d a b)
  | 0xB => do
    let d ← needOpd w.d
    let a ← needOpd w.a
    let b ← needOpd w.b
    let f ← need (ShF.dec w.m) .modifier
    .ok (.min f d a b)
  | 0xC => do
    let d ← needOpd w.d
    let a ← needOpd w.a
    let b ← needOpd w.b
    let f ← need (ShF.dec w.m) .modifier
    .ok (.max f d a b)
  | 0xD => do
    let d ← needOpd w.d
    let a ← needOpd w.a
    let b ← needOpd w.b
    let f ← need (ShF.dec w.m) .modifier
    .ok (.minn f d a b)
  | 0xE => do
    let d ← needOpd w.d
    let a ← needOpd w.a
    let b ← needOpd w.b
    let f ← need (ShF.dec w.m) .modifier
    .ok (.maxn f d a b)
  | 0xF => do
    let d ← needOpd w.d
    let a ← needOpd w.a
    needZ w.b
    let f ← need (IntF.dec w.m) .modifier
    .ok (.abs f d a)
  | _ => .error .opcode

/-- Class 0x2_ of R85. -/
def decodeClass2 (w : OpWord) : Except DecErr Instr :=
  match w.opc % 16 with
  | 0x0 => do
    let d ← needOpd w.d
    let a ← needOpd w.a
    let b ← needOpd w.b
    let f ← need (ShF.dec w.m) .modifier
    .ok (.and f d a b)
  | 0x1 => do
    let d ← needOpd w.d
    let a ← needOpd w.a
    let b ← needOpd w.b
    let f ← need (ShF.dec w.m) .modifier
    .ok (.or f d a b)
  | 0x2 => do
    let d ← needOpd w.d
    let a ← needOpd w.a
    let b ← needOpd w.b
    let f ← need (ShF.dec w.m) .modifier
    .ok (.xor f d a b)
  | 0x3 => do
    let d ← needOpd w.d
    let a ← needOpd w.a
    let b ← needOpd w.b
    let f ← need (ShF.dec w.m) .modifier
    .ok (.andn f d a b)
  | 0x4 => do
    let d ← needOpd w.d
    let a ← needOpd w.a
    let b ← needOpd w.b
    let f ← need (IntF.dec w.m) .modifier
    .ok (.shl f d a b)
  | 0x5 => do
    let d ← needOpd w.d
    let a ← needOpd w.a
    let b ← needOpd w.b
    let f ← need (ShF.dec w.m) .modifier
    .ok (.shr f d a b)
  | 0x6 => do
    let d ← needOpd w.d
    let a ← needOpd w.a
    let b ← needOpd w.b
    let f ← need (ShF.dec w.m) .modifier
    .ok (.sha f d a b)
  | 0x7 => do
    let d ← needOpd w.d
    let a ← needOpd w.a
    let b ← needOpd w.b
    let f ← need (ShF.dec w.m) .modifier
    .ok (.rot f d a b)
  | 0x8 => do
    let d ← needFin 8 w.d .operand
    let a ← needOpd w.a
    let b ← needOpd w.b
    let f ← need (CmpF.dec w.m) .modifier
    .ok (.cmp f d a b)
  | 0x9 => do
    let d ← needOpd w.d
    let a ← needOpd w.a
    let b ← needOpd w.b
    let f ← need (SelF.dec w.m) .modifier
    .ok (.sel f d a b)
  | 0xA => do
    let d ← needOpd w.d
    let a ← needOpd w.a
    needZ w.b
    let f ← need (ShF.dec w.m) .modifier
    .ok (.clz f d a)
  | 0xB => do
    let d ← needOpd w.d
    let a ← needOpd w.a
    needZ w.b
    let f ← need (ShF.dec w.m) .modifier
    .ok (.popc f d a)
  | 0xC => do
    let d ← needOpd w.d
    let a ← needOpd w.a
    let b ← needOpd w.b
    let f ← need (BfxF.dec w.m) .modifier
    .ok (.bfx f d a b)
  | 0xD => do
    let d ← needOpd w.d
    let a ← needOpd w.a
    let b ← needOpd w.b
    let f ← need (ShF.dec w.m) .modifier
    .ok (.bfi f d a b)
  | 0xE => do
    let d ← needOpd w.d
    let a ← needOpd w.a
    let b ← needOpd w.b
    let f ← need (LeaF.dec w.m) .modifier
    .ok (.lea f d a b)
  | 0xF => do
    let d ← needOpd w.d
    let form ← need (LimmForm.ofCode (w.m % 4)) .modifier
    .ok (.limm form (BitVec.ofNat 22 (w.a * 16384 + w.b * 64 + w.m / 4)) d)
  | _ => .error .opcode

/-- Class 0x3_ of R85. -/
def decodeClass3 (w : OpWord) : Except DecErr Instr :=
  match w.opc % 16 with
  | 0x0 => do
    let d ← needOpd w.d
    let a ← needOpd w.a
    let b ← needOpd w.b
    let f ← need (FpF.dec w.m) .modifier
    .ok (.fadd f d a b)
  | 0x1 => do
    let d ← needOpd w.d
    let a ← needOpd w.a
    let b ← needOpd w.b
    let f ← need (FpF.dec w.m) .modifier
    .ok (.fsub f d a b)
  | 0x2 => do
    let d ← needOpd w.d
    let a ← needOpd w.a
    let b ← needOpd w.b
    let f ← need (FpF.dec w.m) .modifier
    .ok (.fmul f d a b)
  | 0x3 => do
    let d ← needOpd w.d
    let a ← needOpd w.a
    let b ← needOpd w.b
    let f ← need (FpF.dec w.m) .modifier
    .ok (.fma f d a b)
  | 0x4 => do
    let d ← needOpd w.d
    let a ← needOpd w.a
    let b ← needOpd w.b
    let f ← need (FpF.dec w.m) .modifier
    .ok (.fnma f d a b)
  | 0x5 => do
    let d ← needOpd w.d
    let a ← needOpd w.a
    let b ← needOpd w.b
    let f ← need (FmmF.dec w.m) .modifier
    .ok (.fmin f d a b)
  | 0x6 => do
    let d ← needOpd w.d
    let a ← needOpd w.a
    let b ← needOpd w.b
    let f ← need (FmmF.dec w.m) .modifier
    .ok (.fmax f d a b)
  | 0x7 => do
    let d ← needOpd w.d
    let a ← needOpd w.a
    let b ← needOpd w.b
    let f ← need (FsgnF.dec w.m) .modifier
    .ok (.fsgn f d a b)
  | 0x8 => do
    let d ← needFin 8 w.d .operand
    let a ← needOpd w.a
    let b ← needOpd w.b
    let f ← need (FcmpF.dec w.m) .modifier
    .ok (.fcmp f d a b)
  | 0x9 => do
    let d ← needOpd w.d
    let a ← needOpd w.a
    let b ← needOpd w.b
    let f ← need (FpF.dec w.m) .modifier
    .ok (.fdiv f d a b)
  | 0xA => do
    let d ← needOpd w.d
    let a ← needOpd w.a
    needZ w.b
    let f ← need (FpF.dec w.m) .modifier
    .ok (.fsqrt f d a)
  | 0xB => do
    let d ← needOpd w.d
    let a ← needOpd w.a
    needZ w.b
    let f ← need (FpF.dec w.m) .modifier
    .ok (.frcp f d a)
  | 0xC => do
    let d ← needOpd w.d
    let a ← needOpd w.a
    needZ w.b
    let f ← need (FpF.dec w.m) .modifier
    .ok (.frsq f d a)
  | 0xD => do
    let d ← needOpd w.d
    let a ← needOpd w.a
    needZ w.b
    let f ← need (FpF.dec w.m) .modifier
    .ok (.fexp2 f d a)
  | 0xE => do
    let d ← needOpd w.d
    let a ← needOpd w.a
    needZ w.b
    let f ← need (FpF.dec w.m) .modifier
    .ok (.flog2 f d a)
  | 0xF => do
    let d ← needOpd w.d
    let a ← needOpd w.a
    let b ← needOpd w.b
    let f ← need (FpF.dec w.m) .modifier
    .ok (.fdot f d a b)
  | _ => .error .opcode

/-- Class 0x4_ of R85. -/
def decodeClass4 (w : OpWord) : Except DecErr Instr :=
  match w.opc % 16 with
  | 0x0 => do
    let d ← needOpd w.d
    let a ← needOpd w.a
    let tf ← need (FFmt.ofCode (w.b / 16)) .modifier
    let fr ← need (FFmt.ofCode (w.b % 16)) .modifier
    let f ← need (CvtF.dec w.m) .modifier
    .ok (.cvt f tf fr d a)
  | 0x1 => do
    let d ← needOpd w.d
    let a ← needOpd w.a
    let tf ← need (ITy.ofCode (w.b / 16)) .modifier
    let fr ← need (ITy.ofCode (w.b % 16)) .modifier
    let f ← need (CviF.dec w.m) .modifier
    .ok (.cvti f tf fr d a)
  | 0x2 => do
    let d ← needOpd w.d
    let a ← needOpd w.a
    needZ w.b
    let f ← need (FtoiF.dec w.m) .modifier
    .ok (.ftoi f d a)
  | 0x3 => do
    let d ← needOpd w.d
    let a ← needOpd w.a
    needZ w.b
    let f ← need (FtoiF.dec w.m) .modifier
    .ok (.itof f d a)
  | 0x4 => do
    let d ← needOpd w.d
    let a ← needOpd w.a
    let b ← needOpd w.b
    let f ← need (SatF.dec w.m) .modifier
    .ok (.scale f d a b)
  | 0x5 => do
    let d ← needOpd w.d
    let a ← needOpd w.a
    needZ w.b
    let f ← need (QblkF.dec w.m) .modifier
    .ok (.qblk f d a)
  | 0x6 => do
    let d ← needOpd w.d
    let a ← needOpd w.a
    let op ← need (RedOp.ofCode w.b) .modifier
    let f ← need (FpF.dec w.m) .modifier
    .ok (.fred f op d a)
  | 0x7 => do
    let d ← needOpd w.d
    let a ← needOpd w.a
    let b ← needOpd w.b
    let f ← need (ShF.dec w.m) .modifier
    .ok (.shuf f d a b)
  | 0x8 => do
    let d ← needOpd w.d
    let a ← needOpd w.a
    let b ← needOpd w.b
    let f ← need (ShF.dec w.m) .modifier
    .ok (.bcst f d a b)
  | 0x9 => do
    let d ← needOpd w.d
    let a ← needOpd w.a
    let b ← needOpd w.b
    let f ← need (ShF.dec w.m) .modifier
    .ok (.pack f d a b)
  | 0xA => do
    let d ← needOpd w.d
    let a ← needOpd w.a
    needZ w.b
    let f ← need (UnpkF.dec w.m) .modifier
    .ok (.unpk f d a)
  | 0xB => do
    let d ← needOpd w.d
    let a ← needOpd w.a
    needZ w.b
    let f ← need (ShF.dec w.m) .modifier
    .ok (.fcls f d a)
  | 0xC => do
    let d ← needOpd w.d
    let a ← needOpd w.a
    let b ← needOpd w.b
    let f ← need (BitF.dec w.m) .modifier
    .ok (.rand f d a b)
  | _ => .error .opcode

/-- Class 0x5_ of R85. -/
def decodeClass5 (w : OpWord) : Except DecErr Instr :=
  match w.opc % 16 with
  | 0x0 => do
    let d ← needOpd w.d
    let a ← needOpd w.a
    needZ w.b
    let f ← need (BitF.dec w.m) .modifier
    .ok (.mxmode f d a)
  | 0x1 => do
    needZ w.d
    let a ← needOpd w.a
    let b ← needOpd w.b
    let f ← need (MxF.dec w.m) .modifier
    .ok (.mxwld f a b)
  | 0x2 => do
    let d ← needOpd w.d
    let a ← needOpd w.a
    let b ← needOpd w.b
    needM0 w.m
    .ok (.mxwbuf d a b)
  | 0x3 => do
    needZ w.d
    let a ← needOpd w.a
    let b ← needOpd w.b
    let f ← need (MxfmtF.dec w.m) .modifier
    .ok (.mxfmt f a b)
  | 0x4 => do
    let d ← needOpd w.d
    let a ← needOpd w.a
    let b ← needOpd w.b
    needM0 w.m
    .ok (.mxrun d a b)
  | 0x5 => do
    needZ w.d
    let a ← needFin 4 w.a .modifier
    needZ w.b
    let f ← need (MxaccF.dec w.m) .modifier
    .ok (.mxacc f a)
  | 0x6 => do
    let d ← needOpd w.d
    let a ← needOpd w.a
    let b ← needOpd w.b
    let f ← need (MxdrnF.dec w.m) .modifier
    .ok (.mxdrn f d a b)
  | 0x7 => do
    let d ← needOpd w.d
    let a ← needOpd w.a
    needZ w.b
    let f ← need (BitF.dec w.m) .modifier
    .ok (.mxst f d a)
  | 0x8 => do
    needZ w.d
    let a ← needCh 8 w.a
    needZ w.b
    let f ← need (CturnF.dec w.m) .modifier
    .ok (.cturn f a)
  | 0x9 => do
    let d ← needOpd w.d
    let a ← needOpd w.a
    needZ w.b
    needM0 w.m
    .ok (.mxwait d a)
  | _ => .error .opcode

/-- Class 0x6_ of R85. -/
def decodeClass6 (w : OpWord) : Except DecErr Instr :=
  match w.opc % 16 with
  | 0x0 => do
    let d ← needOpd w.d
    let a ← needOpd w.a
    let b ← needOpd w.b
    let f ← need (MemF.dec w.m) .modifier
    .ok (.ld f d a b)
  | 0x1 => do
    let d ← needOpd w.d
    let a ← needOpd w.a
    let b ← needOpd w.b
    let f ← need (MemF.dec w.m) .modifier
    .ok (.st f d a b)
  | 0x2 => do
    let d ← needOpd w.d
    let a ← needOpd w.a
    let b ← needOpd w.b
    let f ← need (MemF.dec w.m) .modifier
    .ok (.lds f d a b)
  | 0x3 => do
    let d ← needOpd w.d
    let a ← needOpd w.a
    let b ← needOpd w.b
    let f ← need (MemF.dec w.m) .modifier
    .ok (.sts f d a b)
  | 0x4 => do
    let d ← needOpd w.d
    let a ← needOpd w.a
    let b ← needOpd w.b
    let f ← need (MemF.dec w.m) .modifier
    .ok (.ldh f d a b)
  | 0x5 => do
    let d ← needOpd w.d
    let a ← needOpd w.a
    let b ← needOpd w.b
    let f ← need (MemF.dec w.m) .modifier
    .ok (.sth f d a b)
  | 0x6 => do
    let d ← needOpd w.d
    let a ← needOpd w.a
    let b ← needFin 4 w.b .modifier
    needM0 w.m
    .ok (.hset d a b)
  | 0x7 => do
    let d ← needOpd w.d
    let a ← needOpd w.a
    let b ← needFin 4 w.b .modifier
    needM0 w.m
    .ok (.hget d a b)
  | 0x8 => do
    let d ← needOpd w.d
    let a ← needOpd w.a
    let b ← needOpd w.b
    let f ← need (ScBF.dec w.m) .modifier
    .ok (.wbind f d a b)
  | 0x9 => do
    needZ w.d
    let a ← needOpd w.a
    needZ w.b
    needM0 w.m
    .ok (.wfree a)
  | 0xA => do
    needZ w.d
    let a ← needOpd w.a
    let b ← needOpd w.b
    let f ← need (ScF.dec w.m) .modifier
    .ok (.pft f a b)
  | 0xB => do
    let d ← needOpd w.d
    let a ← needOpd w.a
    let b ← needOpd w.b
    let f ← need (ScF.dec w.m) .modifier
    .ok (.snap f d a b)
  | 0xC => do
    let d ← needOpd w.d
    let a ← needOpd w.a
    let b ← needOpd w.b
    let f ← need (ApF.dec w.m) .modifier
    .ok (.append f d a b)
  | 0xD => do
    let d ← needOpd w.d
    let a ← needOpd w.a
    let b ← needOpd w.b
    let f ← need (ScBF.dec w.m) .modifier
    .ok (.publ f d a b)
  | 0xE => do
    let d ← needOpd w.d
    needZ w.a
    needZ w.b
    let f ← need (FenceF.dec w.m) .modifier
    .ok (.fence f d)
  | _ => .error .opcode

/-- Class 0x7_ of R85. -/
def decodeClass7 (w : OpWord) : Except DecErr Instr :=
  match w.opc % 16 with
  | 0x0 => do
    let d ← needOpd w.d
    let a ← needOpd w.a
    let b ← needOpd w.b
    let f ← need (AmoF.dec w.m) .modifier
    .ok (.amo f d a b)
  | 0x1 => do
    let d ← needOpd w.d
    let a ← needOpd w.a
    let b ← needOpd w.b
    let f ← need (ScBF.dec w.m) .modifier
    .ok (.cas f d a b)
  | 0x2 => do
    let d ← needOpd w.d
    let a ← needOpd w.a
    let b ← needOpd w.b
    let f ← need (AmoF.dec w.m) .modifier
    .ok (.red f d a b)
  | 0x3 => do
    let d ← needOpd w.d
    let a ← needOpd w.a
    let b ← needOpd w.b
    let f ← need (WaitaF.dec w.m) .modifier
    .ok (.waita f d a b)
  | 0x4 => do
    needZ w.d
    let a ← needOpd w.a
    needZ w.b
    let f ← need (ScF.dec w.m) .modifier
    .ok (.mon f a)
  | 0x5 => do
    let d ← needOpd w.d
    needZ w.a
    needZ w.b
    let f ← need (ScF.dec w.m) .modifier
    .ok (.mwait f d)
  | 0x6 => do
    let d ← needOpd w.d
    let a ← needOpd w.a
    let b ← needOpd w.b
    let f ← need (ScF.dec w.m) .modifier
    .ok (.arrive f d a b)
  | 0x7 => do
    let d ← needOpd w.d
    let a ← needOpd w.a
    let b ← needOpd w.b
    let f ← need (ScBF.dec w.m) .modifier
    .ok (.waitc f d a b)
  | 0x8 => do
    let d ← needOpd w.d
    let a ← needFin 256 w.a .modifier
    needZ w.b
    let f ← need (ScF.dec w.m) .modifier
    .ok (.bar f d a)
  | 0x9 => do
    needZ w.d
    let a ← needFin 256 w.a .modifier
    needZ w.b
    let f ← need (ScF.dec w.m) .modifier
    .ok (.bara f a)
  | 0xA => do
    let d ← needOpd w.d
    let a ← needOpd w.a
    let b ← needOpd w.b
    let f ← need (ScF.dec w.m) .modifier
    .ok (.futw f d a b)
  | 0xB => do
    let d ← needOpd w.d
    let a ← needOpd w.a
    needZ w.b
    let f ← need (ScF.dec w.m) .modifier
    .ok (.futr f d a)
  | 0xC => do
    needZ w.d
    let a ← needOpd w.a
    needZ w.b
    needM0 w.m
    .ok (.prio a)
  | _ => .error .opcode

/-- Class 0x8_ of R85. -/
def decodeClass8 (w : OpWord) : Except DecErr Instr :=
  match w.opc % 16 with
  | 0x0 => do
    let d ← needOpd w.d
    let a ← needOpd w.a
    let b ← needOpd w.b
    let f ← need (CopyF.dec w.m) .modifier
    .ok (.copy f d a b)
  | 0x1 => do
    let d ← needOpd w.d
    let a ← needOpd w.a
    let b ← needOpd w.b
    let f ← need (CopyF.dec w.m) .modifier
    .ok (.copya f d a b)
  | 0x2 => do
    let d ← needOpd w.d
    let a ← needOpd w.a
    let b ← needOpd w.b
    let f ← need (CopyF.dec w.m) .modifier
    .ok (.copyi f d a b)
  | 0x3 => do
    let d ← needOpd w.d
    let a ← needOpd w.a
    needZ w.b
    needM0 w.m
    .ok (.cqry d a)
  | 0x4 => do
    let d ← needOpd w.d
    let a ← needOpd w.a
    let b ← needOpd w.b
    needM0 w.m
    .ok (.agld d a b)
  | 0x5 => do
    let d ← needOpd w.d
    let a ← needOpd w.a
    let b ← needOpd w.b
    needM0 w.m
    .ok (.agst d a b)
  | 0x6 => do
    let d ← needOpd w.d
    let a ← needOpd w.a
    let b ← needOpd w.b
    let f ← need (BitF.dec w.m) .modifier
    .ok (.bopen f d a b)
  | 0x7 => do
    let d ← needOpd w.d
    let a ← needOpd w.a
    needZ w.b
    needM0 w.m
    .ok (.bclose d a)
  | 0x8 => do
    let d ← needOpd w.d
    let a ← needOpd w.a
    let b ← needOpd w.b
    needM0 w.m
    .ok (.plset d a b)
  | 0x9 => do
    let d ← needOpd w.d
    let a ← needOpd w.a
    let b ← needOpd w.b
    let f ← need (BitF.dec w.m) .modifier
    .ok (.cflush f d a b)
  | _ => .error .opcode

/-- Class 0x9_ of R85. -/
def decodeClass9 (w : OpWord) : Except DecErr Instr :=
  match w.opc % 16 with
  | 0x0 => do
    let d ← needOpd w.d
    let a ← needOpd w.a
    needZ w.b
    needM0 w.m
    .ok (.rdef d a)
  | 0x1 => do
    let d ← needOpd w.d
    let a ← needOpd w.a
    let b ← needOpd w.b
    let f ← need (RelF.dec w.m) .modifier
    .ok (.rins f d a b)
  | 0x2 => do
    let d ← needOpd w.d
    let a ← needOpd w.a
    needZ w.b
    let f ← need (RelF.dec w.m) .modifier
    .ok (.rdel f d a)
  | 0x3 => do
    let d ← needOpd w.d
    let a ← needOpd w.a
    needZ w.b
    needM0 w.m
    .ok (.rule d a)
  | 0x4 => do
    let d ← needOpd w.d
    let a ← needOpd w.a
    needZ w.b
    needM0 w.m
    .ok (.eval d a)
  | 0x5 => do
    let d ← needOpd w.d
    let a ← needOpd w.a
    needZ w.b
    let f ← need (BitF.dec w.m) .modifier
    .ok (.fold f d a)
  | 0x6 => do
    let d ← needOpd w.d
    let a ← needOpd w.a
    let b ← need (RscanMode.ofCode w.b) .modifier
    let f ← need (RelF.dec w.m) .modifier
    .ok (.rscan f d a b)
  | 0x7 => do
    let d ← needOpd w.d
    let a ← needOpd w.a
    needZ w.b
    let f ← need (RelF.dec w.m) .modifier
    .ok (.rlook f d a)
  | 0x8 => do
    let d ← needOpd w.d
    let a ← needOpd w.a
    needZ w.b
    let f ← need (RelF.dec w.m) .modifier
    .ok (.rwit f d a)
  | 0x9 => do
    let d ← needOpd w.d
    let a ← needOpd w.a
    let b ← needOpd w.b
    let f ← need (BitF.dec w.m) .modifier
    .ok (.rback f d a b)
  | 0xA => do
    let d ← needOpd w.d
    needZ w.a
    needZ w.b
    let f ← need (RelF.dec w.m) .modifier
    .ok (.rcnt f d)
  | 0xB => do
    let d ← needOpd w.d
    let a ← needOpd w.a
    needZ w.b
    let f ← need (BitF.dec w.m) .modifier
    .ok (.rdrop f d a)
  | _ => .error .opcode

/-- Class 0xA_ of R85. -/
def decodeClassA (w : OpWord) : Except DecErr Instr :=
  match w.opc % 16 with
  | 0x0 => do
    let d ← needOpd w.d
    let a ← needOpd w.a
    let b ← needOpd w.b
    needM0 w.m
    .ok (.bhist d a b)
  | 0x1 => do
    let d ← needOpd w.d
    let a ← needOpd w.a
    let b ← needOpd w.b
    needM0 w.m
    .ok (.bsel d a b)
  | 0x2 => do
    let d ← needOpd w.d
    let a ← needOpd w.a
    let b ← needOpd w.b
    let f ← need (BextF.dec w.m) .modifier
    .ok (.bext f d a b)
  | 0x3 => do
    let d ← needOpd w.d
    let a ← needOpd w.a
    let b ← needOpd w.b
    let f ← need (PscanF.dec w.m) .modifier
    .ok (.pscan f d a b)
  | 0x4 => do
    let d ← needOpd w.d
    let a ← needOpd w.a
    needZ w.b
    needM0 w.m
    .ok (.topp d a)
  | 0x5 => do
    let d ← needOpd w.d
    let a ← needOpd w.a
    let b ← needOpd w.b
    let f ← need (ScF.dec w.m) .modifier
    .ok (.iwalk f d a b)
  | 0x6 => do
    let d ← needOpd w.d
    let a ← needOpd w.a
    let b ← needOpd w.b
    let f ← need (ScF.dec w.m) .modifier
    .ok (.spmx f d a b)
  | 0x7 => do
    let d ← needOpd w.d
    let a ← needOpd w.a
    let b ← needOpd w.b
    let f ← need (ScF.dec w.m) .modifier
    .ok (.exq f d a b)
  | 0x8 => do
    let d ← needOpd w.d
    let a ← needOpd w.a
    let b ← needOpd w.b
    needM0 w.m
    .ok (.excfg d a b)
  | 0x9 => do
    let d ← needOpd w.d
    let a ← needOpd w.a
    let b ← needOpd w.b
    let f ← need (ScF.dec w.m) .modifier
    .ok (.exdq f d a b)
  | _ => .error .opcode

/-- Class 0xB_ of R85. -/
def decodeClassB (w : OpWord) : Except DecErr Instr :=
  match w.opc % 16 with
  | 0x0 => do
    let d ← needOpd w.d
    let a ← needOpd w.a
    needZ w.b
    needM0 w.m
    .ok (.stage d a)
  | 0x1 => do
    let d ← needOpd w.d
    let a ← needOpd w.a
    let b ← needOpd w.b
    needM0 w.m
    .ok (.cast d a b)
  | 0x2 => do
    let d ← needOpd w.d
    let a ← needOpd w.a
    let b ← needOpd w.b
    needM0 w.m
    .ok (.merge d a b)
  | 0x3 => do
    let d ← needOpd w.d
    let a ← needOpd w.a
    let b ← needOpd w.b
    needM0 w.m
    .ok (.krt d a b)
  | 0x4 => do
    let d ← needOpd w.d
    let a ← needOpd w.a
    if w.m = 0 then do { needZ w.b; .ok (.hash none d a) }
    else if w.m = 1 then do { let k ← needFin 64 w.b .modifier; .ok (.hash (some k) d a) }
    else .error .modifier
  | 0x5 => do
    let d ← needOpd w.d
    let a ← needOpd w.a
    let b ← needOpd w.b
    let f ← need (FamF.dec w.m) .modifier
    .ok (.kroute f d a b)
  | 0x6 => do
    needZ w.d
    let a ← needOpd w.a
    needZ w.b
    needM0 w.m
    .ok (.sdone a)
  | 0x7 => do
    needZ w.d
    let a ← needOpd w.a
    needZ w.b
    needM0 w.m
    .ok (.mdone a)
  | 0x8 => do
    let d ← needOpd w.d
    let a ← needOpd w.a
    needZ w.b
    needM0 w.m
    .ok (.castq d a)
  | _ => .error .opcode

/-- Class 0xC_ of R85. -/
def decodeClassC (w : OpWord) : Except DecErr Instr :=
  match w.opc % 16 with
  | 0x0 => do
    let d ← needOpd w.d
    let a ← needOpd w.a
    let b ← needOpd w.b
    needM0 w.m
    .ok (.lease d a b)
  | 0x1 => do
    let d ← needOpd w.d
    let a ← needOpd w.a
    let b ← needOpd w.b
    needM0 w.m
    .ok (.lmove d a b)
  | 0x2 => do
    let d ← needOpd w.d
    let a ← needOpd w.a
    let b ← needOpd w.b
    let f ← need (BitF.dec w.m) .modifier
    .ok (.lrel f d a b)
  | 0x3 => do
    let d ← needOpd w.d
    let a ← needOpd w.a
    needZ w.b
    needM0 w.m
    .ok (.lqry d a)
  | 0x4 => do
    let d ← needOpd w.d
    let a ← needOpd w.a
    let b ← needOpd w.b
    let f ← need (ScF.dec w.m) .modifier
    .ok (.mcst f d a b)
  | 0x5 => do
    let d ← needOpd w.d
    let a ← needOpd w.a
    let b ← needOpd w.b
    needM0 w.m
    .ok (.mcstq d a b)
  | 0x6 => do
    let d ← needOpd w.d
    let a ← needOpd w.a
    let b ← needOpd w.b
    let f ← need (MgrpF.dec w.m) .modifier
    .ok (.mgrp f d a b)
  | 0x7 => do
    let d ← needOpd w.d
    let a ← needOpd w.a
    let b ← needOpd w.b
    let f ← need (RamoF.dec w.m) .modifier
    .ok (.ramo f d a b)
  | 0x8 => do
    let d ← needOpd w.d
    let a ← needOpd w.a
    let b ← needOpd w.b
    needM0 w.m
    .ok (.pgmig d a b)
  | 0x9 => do
    let d ← needOpd w.d
    let a ← needOpd w.a
    needZ w.b
    needM0 w.m
    .ok (.slot d a)
  | 0xA => do
    let d ← needOpd w.d
    let a ← needOpd w.a
    let b ← needOpd w.b
    let f ← need (BitF.dec w.m) .modifier
    .ok (.keyi f d a b)
  | 0xB => do
    let d ← needOpd w.d
    let a ← needOpd w.a
    needZ w.b
    let f ← need (BitF.dec w.m) .modifier
    .ok (.peerq f d a)
  | _ => .error .opcode

/-- Class 0xD_ of R85. -/
def decodeClassD (w : OpWord) : Except DecErr Instr :=
  match w.opc % 16 with
  | 0x0 => do
    needZ w.d
    let a ← needOpd w.a
    let b ← needFin 256 w.b .modifier
    needM0 w.m
    .ok (.loop a b)
  | 0x1 => do
    needZ w.d
    needZ w.b
    if w.a < 32 then .ok () else .error .modifier
    needM0 w.m
    .ok (.lbrk (bits w.a 4 1 == 1) (bits w.a 3 1 == 1) (Fin.ofNat 8 w.a))
  | 0x2 => do
    needZ w.d
    let a ← needOpd w.a
    needZ w.b
    let f ← need (BitF.dec w.m) .modifier
    .ok (.jind f a)
  | 0x3 => do
    let d ← needOpd w.d
    let a ← needOpd w.a
    let b ← needOpd w.b
    let f ← need (PfF.dec w.m) .modifier
    .ok (.arm f d a b)
  | 0x4 => do
    let d ← needOpd w.d
    let a ← needOpd w.a
    let b ← needOpd w.b
    let f ← need (PfF.dec w.m) .modifier
    .ok (.install f d a b)
  | 0x5 => do
    let d ← needOpd w.d
    let a ← needOpd w.a
    let b ← needOpd w.b
    let f ← need (PfF.dec w.m) .modifier
    .ok (.launch f d a b)
  | 0x6 => do
    let d ← needOpd w.d
    let a ← needOpd w.a
    needZ w.b
    needM0 w.m
    .ok (.seqw d a)
  | 0x7 => do
    let d ← needOpd w.d
    let a ← needFin 256 w.a .modifier
    let b ← needOpd w.b
    needM0 w.m
    .ok (.getc d a b)
  | 0x8 => do
    let d ← needFin 256 w.d .modifier
    let a ← needOpd w.a
    let b ← needOpd w.b
    needM0 w.m
    .ok (.setc d a b)
  | 0x9 => do
    needZ w.d
    let a ← needOpd w.a
    let b ← needOpd w.b
    needM0 w.m
    .ok (.event a b)
  | _ => .error .opcode

/-- Class 0xE_ of R85. -/
def decodeClassE (w : OpWord) : Except DecErr Instr :=
  match w.opc % 16 with
  | 0x0 => do
    needZ w.d
    let a ← needOpd w.a
    let b ← needOpd w.b
    needM0 w.m
    .ok (.trap a b)
  | 0x1 => do
    needZ w.d
    needZ w.a
    needZ w.b
    needM0 w.m
    .ok (.tret )
  | 0x2 => do
    let d ← needOpd w.d
    let a ← needOpd w.a
    needZ w.b
    needM0 w.m
    .ok (.preempt d a)
  | 0x3 => do
    let d ← needOpd w.d
    let a ← needOpd w.a
    let b ← needOpd w.b
    let f ← need (BitF.dec w.m) .modifier
    .ok (.resume f d a b)
  | 0x4 => do
    let d ← needOpd w.d
    let a ← needOpd w.a
    needZ w.b
    needM0 w.m
    .ok (.csave d a)
  | 0x5 => do
    let d ← needOpd w.d
    let a ← needOpd w.a
    needZ w.b
    needM0 w.m
    .ok (.cload d a)
  | 0x6 => do
    let d ← needOpd w.d
    let a ← needOpd w.a
    let b ← needOpd w.b
    let f ← need (TlbiF.dec w.m) .modifier
    .ok (.tlbi f d a b)
  | 0x7 => do
    let d ← needOpd w.d
    let a ← needOpd w.a
    let b ← needOpd w.b
    needM0 w.m
    .ok (.gtbl d a b)
  | 0x8 => do
    let d ← needOpd w.d
    let a ← needOpd w.a
    let b ← needOpd w.b
    needM0 w.m
    .ok (.part d a b)
  | 0x9 => do
    let d ← needOpd w.d
    let a ← needOpd w.a
    needZ w.b
    needM0 w.m
    .ok (.halt d a)
  | 0xB => do
    let d ← needOpd w.d
    let a ← needOpd w.a
    let b ← needOpd w.b
    needM0 w.m
    .ok (.attest d a b)
  | 0xC => do
    let d ← needOpd w.d
    let a ← needOpd w.a
    let b ← needOpd w.b
    let f ← need (BitF.dec w.m) .modifier
    .ok (.flog f d a b)
  | _ => .error .opcode

/-- The op word of R61 as an instruction, or why it is none. -/
def decodeOp (w : OpWord) : Except DecErr Instr := do
  let i ← match w.opc / 16 with
    | 0x0 => decodeClass0 w
    | 0x1 => decodeClass1 w
    | 0x2 => decodeClass2 w
    | 0x3 => decodeClass3 w
    | 0x4 => decodeClass4 w
    | 0x5 => decodeClass5 w
    | 0x6 => decodeClass6 w
    | 0x7 => decodeClass7 w
    | 0x8 => decodeClass8 w
    | 0x9 => decodeClass9 w
    | 0xA => decodeClassA w
    | 0xB => decodeClassB w
    | 0xC => decodeClassC w
    | 0xD => decodeClassD w
    | 0xE => decodeClassE w
    | _ => .error .opcode
  if instrOk i then .ok i else .error .modifier

/-- The words of a well-formed instruction: one 64-bit word whose trigger or sequencing field is 0. -/
def encode (i : Instr) : Option (BitVec 64) := (encOp i).map (fun w => BitVec.ofNat 64 w.toNat)

/-- The instruction of a table word. An instruction is one 64-bit word, stored little-endian (R3), so bit 0
of the table's number is bit 0 of the word; the trigger or sequencing field is not part of the row. -/
def decodeTableWord (nbits w : Nat) : Option Instr :=
  if nbits ≤ 64 then
    match decodeOp (OpWord.ofNat (bits w 0 40)) with
    | .ok i => some i
    | .error _ => none
  else none

end Sys2Proof
end

