-- ==== Sys2Proof/Machine/Checks.lean ====
section
/-! DEFINITION. The checks of a decoded word: which unit executes which opcode (R86) and which operand codes an
entry admits in a PE and in an S-form unit (R68, R69 and the encoding table of each class). -/
namespace Sys2Proof

/-- The kinds of unit that execute words (R68, R86). -/
inductive UKind where
  | pe | graph | shepherd | tile | portal
  deriving DecidableEq, Repr

/-- The operand classes of the encoding tables. -/
inductive Cls where
  | z          -- must hold 0x2A
  | lit        -- a literal: judged by the decoder
  | src        -- any source (R68)
  | srcOrZ     -- any source, or 0x2A
  | reg        -- a register, an input channel or an immediate of the tables ("reg")
  | reg16      -- as reg; a 16-byte operand in S-form is an even register (R205)
  | regCas     -- as reg; in S-form under w8 an even register and nothing else (R230)
  | regS       -- an s register
  | sImm       -- an s register or an immediate
  | sImmOrZ    -- an s register, an immediate or 0x2A
  | sOrZ       -- an s register or 0x2A
  | zOrS       -- 0x2A in a PE, an s register or an immediate in S-form (R286)
  | pair       -- as reg; an even register in S-form
  | dst        -- a register, zero or an output channel
  | mol        -- a register that is read, or written only
  | molo       -- a register or an output channel
  | moloz      -- a register, an output channel or zero
  | moloPair   -- as molo; an even register in S-form
  | out        -- an output channel; an s register in S-form
  | outP       -- an output channel only
  | outz       -- an output channel or zero; an s register in S-form
  | outzT      -- as outz; a loader tile also has out0; w16 takes an even register in S-form
  | ack        -- 0x2A or an output channel; 0x2A in S-form
  | dreg       -- an index register
  | dreg0      -- an s register or zero
  | ramoD      -- as outz; a register that is read under cas.w16 (PE only)
  | pred       -- a predicate number
  | han        -- a handle
  | inch       -- an input channel
  | evenM      -- an even m register, m0-m30
  | mreg       -- an m register in the range that QBLK admits
  deriving DecidableEq, Repr

/-- One row of the encoding tables: who executes it, its operand classes, whether it may carry an order
word (R82) and whether an atomic frame rejects it. -/
structure OpRow where
  opc : Nat
  pe : Bool
  graph : Bool
  shepherd : Bool
  tile : Bool
  portal : Bool
  d : Cls
  a : Cls
  b : Cls
  chain : Bool
  noAtomic : Bool
  deriving DecidableEq, Repr

def rows0 : List OpRow := [
  ⟨0x00, true, true, true, true, true, .z, .z, .z, false, false⟩,
  ⟨0x01, true, false, false, false, false, .dst, .src, .z, false, false⟩,
  ⟨0x02, true, false, false, false, false, .out, .src, .src, false, false⟩,
  ⟨0x03, true, false, false, false, false, .z, .inch, .z, false, false⟩,
  ⟨0x04, true, false, false, false, false, .mol, .inch, .z, false, false⟩,
  ⟨0x05, true, false, false, false, false, .out, .z, .z, false, false⟩,
  ⟨0x06, true, false, false, false, false, .z, .lit, .lit, false, false⟩,
  ⟨0x07, true, false, false, false, false, .lit, .lit, .lit, false, false⟩,
  ⟨0x09, true, false, false, false, false, .z, .z, .z, false, false⟩,
  ⟨0x0A, true, false, false, false, false, .molo, .src, .z, false, false⟩,
  ⟨0x0B, true, false, false, false, false, .mol, .lit, .z, false, false⟩]

def rows1 : List OpRow := [
  ⟨0x10, true, true, true, true, true, .dst, .src, .src, false, false⟩,
  ⟨0x11, true, true, true, true, true, .dst, .src, .src, false, false⟩,
  ⟨0x12, true, true, true, true, true, .dst, .src, .src, false, false⟩,
  ⟨0x13, true, true, true, true, true, .dst, .src, .src, false, false⟩,
  ⟨0x14, true, true, true, true, true, .dst, .src, .src, false, false⟩,
  ⟨0x15, true, true, true, true, true, .dst, .src, .src, false, false⟩,
  ⟨0x16, true, true, true, true, true, .dst, .src, .src, false, false⟩,
  ⟨0x17, true, true, true, true, true, .mol, .src, .src, false, false⟩,
  ⟨0x18, true, true, true, true, true, .dst, .src, .src, false, false⟩,
  ⟨0x19, true, true, true, true, true, .dst, .src, .src, false, false⟩,
  ⟨0x1A, true, true, true, true, true, .dst, .src, .src, false, false⟩,
  ⟨0x1B, true, true, true, true, true, .dst, .src, .src, false, false⟩,
  ⟨0x1C, true, true, true, true, true, .dst, .src, .src, false, false⟩,
  ⟨0x1D, true, true, true, true, true, .dst, .src, .src, false, false⟩,
  ⟨0x1E, true, true, true, true, true, .dst, .src, .src, false, false⟩,
  ⟨0x1F, true, true, true, true, true, .dst, .src, .z, false, false⟩]

def rows2 : List OpRow := [
  ⟨0x20, true, true, true, true, true, .dst, .src, .src, false, false⟩,
  ⟨0x21, true, true, true, true, true, .dst, .src, .src, false, false⟩,
  ⟨0x22, true, true, true, true, true, .dst, .src, .src, false, false⟩,
  ⟨0x23, true, true, true, true, true, .dst, .src, .src, false, false⟩,
  ⟨0x24, true, true, true, true, true, .dst, .src, .src, false, false⟩,
  ⟨0x25, true, true, true, true, true, .dst, .src, .src, false, false⟩,
  ⟨0x26, true, true, true, true, true, .dst, .src, .src, false, false⟩,
  ⟨0x27, true, true, true, true, true, .dst, .src, .src, false, false⟩,
  ⟨0x28, true, true, true, true, true, .pred, .src, .src, false, false⟩,
  ⟨0x29, true, true, true, true, true, .dst, .src, .src, false, false⟩,
  ⟨0x2A, true, true, true, true, true, .dst, .src, .z, false, false⟩,
  ⟨0x2B, true, true, true, true, true, .dst, .src, .z, false, false⟩,
  ⟨0x2C, true, true, true, true, true, .dst, .src, .src, false, false⟩,
  ⟨0x2D, true, true, true, true, true, .mol, .src, .src, false, false⟩,
  ⟨0x2E, true, true, true, true, true, .dst, .src, .src, false, false⟩,
  ⟨0x2F, true, true, true, true, true, .dst, .lit, .lit, false, false⟩]

def rows3 : List OpRow := [
  ⟨0x30, true, false, false, false, false, .dst, .src, .src, false, false⟩,
  ⟨0x31, true, false, false, false, false, .dst, .src, .src, false, false⟩,
  ⟨0x32, true, false, false, false, false, .dst, .src, .src, false, false⟩,
  ⟨0x33, true, false, false, false, false, .mol, .src, .src, false, false⟩,
  ⟨0x34, true, false, false, false, false, .mol, .src, .src, false, false⟩,
  ⟨0x35, true, false, false, false, false, .dst, .src, .src, false, false⟩,
  ⟨0x36, true, false, false, false, false, .dst, .src, .src, false, false⟩,
  ⟨0x37, true, false, false, false, false, .dst, .src, .srcOrZ, false, false⟩,
  ⟨0x38, true, false, false, false, false, .pred, .src, .src, false, false⟩,
  ⟨0x39, true, false, false, false, false, .dst, .src, .src, false, false⟩,
  ⟨0x3A, true, false, false, false, false, .dst, .src, .z, false, false⟩,
  ⟨0x3B, true, false, false, false, false, .dst, .src, .z, false, false⟩,
  ⟨0x3C, true, false, false, false, false, .dst, .src, .z, false, false⟩,
  ⟨0x3D, true, false, false, false, false, .dst, .src, .z, false, false⟩,
  ⟨0x3E, true, false, false, false, false, .dst, .src, .z, false, false⟩,
  ⟨0x3F, true, false, false, false, false, .mol, .src, .src, false, false⟩]

def rows4 : List OpRow := [
  ⟨0x40, true, false, false, false, false, .dst, .src, .lit, false, false⟩,
  ⟨0x41, true, false, false, false, false, .dst, .src, .lit, false, false⟩,
  ⟨0x42, true, false, false, false, false, .dst, .src, .z, false, false⟩,
  ⟨0x43, true, false, false, false, false, .dst, .src, .z, false, false⟩,
  ⟨0x44, true, false, false, false, false, .dst, .src, .src, false, false⟩,
  ⟨0x45, true, false, false, false, false, .mreg, .mreg, .z, false, false⟩,
  ⟨0x46, true, false, false, false, false, .dst, .src, .lit, false, false⟩,
  ⟨0x47, true, false, false, false, false, .dst, .src, .src, false, false⟩,
  ⟨0x48, true, false, false, false, false, .dst, .src, .src, false, false⟩,
  ⟨0x49, true, false, false, false, false, .dst, .src, .src, false, false⟩,
  ⟨0x4A, true, false, false, false, false, .dst, .src, .z, false, false⟩,
  ⟨0x4B, true, false, false, false, false, .dst, .src, .z, false, false⟩,
  ⟨0x4C, true, false, false, false, false, .dst, .src, .src, false, false⟩]

def rows5 : List OpRow := [
  ⟨0x50, false, true, true, false, false, .dreg0, .sImm, .z, false, true⟩,
  ⟨0x51, true, false, false, false, false, .z, .reg, .reg, false, true⟩,
  ⟨0x52, true, false, false, false, false, .outz, .reg, .reg, false, true⟩,
  ⟨0x53, true, false, false, false, false, .z, .reg, .reg, false, true⟩,
  ⟨0x54, true, false, false, false, false, .outz, .reg, .reg, false, true⟩,
  ⟨0x55, true, false, false, false, false, .z, .lit, .z, false, true⟩,
  ⟨0x56, true, false, false, false, false, .outz, .reg, .reg, false, true⟩,
  ⟨0x57, true, true, true, false, false, .molo, .reg, .z, false, true⟩,
  ⟨0x58, true, false, false, false, false, .z, .lit, .z, false, true⟩,
  ⟨0x59, true, true, true, false, false, .moloz, .zOrS, .z, false, true⟩]

def rows6 : List OpRow := [
  ⟨0x60, true, true, true, true, false, .outzT, .reg, .reg, true, false⟩,
  ⟨0x61, true, true, true, true, false, .ack, .reg, .reg16, true, false⟩,
  ⟨0x62, true, true, true, true, false, .outzT, .reg, .reg, true, false⟩,
  ⟨0x63, true, true, true, true, false, .ack, .reg, .reg16, true, false⟩,
  ⟨0x64, true, true, true, false, false, .outzT, .han, .reg, true, false⟩,
  ⟨0x65, true, true, true, false, false, .dreg, .han, .reg16, true, false⟩,
  ⟨0x66, true, true, true, false, false, .han, .reg, .lit, true, false⟩,
  ⟨0x67, true, true, true, false, false, .out, .han, .lit, true, false⟩,
  ⟨0x68, true, true, true, false, false, .han, .han, .han, true, true⟩,
  ⟨0x69, true, true, true, false, false, .z, .han, .z, true, true⟩,
  ⟨0x6A, true, true, true, false, false, .z, .pair, .reg, true, true⟩,
  ⟨0x6B, true, true, true, false, false, .han, .reg, .reg, true, false⟩,
  ⟨0x6C, true, true, true, false, false, .outz, .reg, .reg16, true, true⟩,
  ⟨0x6D, true, true, true, false, false, .outz, .reg, .reg, true, true⟩,
  ⟨0x6E, true, true, true, false, false, .outz, .z, .z, true, true⟩]

def rows7 : List OpRow := [
  ⟨0x70, true, true, true, false, true, .outz, .reg, .reg, true, true⟩,
  ⟨0x71, true, true, true, false, true, .outz, .reg, .regCas, true, true⟩,
  ⟨0x72, true, true, true, false, true, .ack, .reg, .reg, true, true⟩,
  ⟨0x73, true, true, true, false, false, .outz, .reg, .reg, true, true⟩,
  ⟨0x74, true, true, true, false, false, .z, .reg, .z, true, true⟩,
  ⟨0x75, true, true, true, false, false, .outz, .z, .z, true, true⟩,
  ⟨0x76, true, true, true, false, false, .ack, .reg, .reg, true, true⟩,
  ⟨0x77, true, true, true, false, false, .outz, .reg, .reg, true, true⟩,
  ⟨0x78, true, true, true, false, false, .outz, .lit, .z, true, true⟩,
  ⟨0x79, true, true, true, false, false, .z, .lit, .z, true, true⟩,
  ⟨0x7A, true, true, true, false, false, .outz, .reg, .reg, true, true⟩,
  ⟨0x7B, true, true, true, false, false, .outz, .reg, .z, true, true⟩,
  ⟨0x7C, true, false, false, false, false, .z, .reg, .z, true, false⟩]

def rows8 : List OpRow := [
  ⟨0x80, true, true, true, false, false, .outz, .pair, .reg, true, true⟩,
  ⟨0x81, true, true, true, false, false, .outz, .pair, .reg, true, true⟩,
  ⟨0x82, true, true, true, false, false, .outz, .pair, .reg, true, true⟩,
  ⟨0x83, true, true, true, false, false, .out, .reg, .z, true, true⟩,
  ⟨0x84, true, true, true, false, false, .outz, .reg, .reg, true, true⟩,
  ⟨0x85, true, true, true, false, false, .outz, .reg, .reg, true, true⟩,
  ⟨0x86, true, true, true, false, false, .outz, .reg, .reg, true, true⟩,
  ⟨0x87, true, true, true, false, false, .outz, .reg, .z, true, true⟩,
  ⟨0x88, true, true, true, false, false, .outz, .reg, .reg, true, true⟩,
  ⟨0x89, true, true, true, false, false, .outz, .reg, .reg, true, true⟩]

def rows9 : List OpRow := [
  ⟨0x90, true, true, true, false, false, .outz, .reg, .z, false, true⟩,
  ⟨0x91, true, true, true, false, false, .outz, .pair, .reg, false, true⟩,
  ⟨0x92, true, true, true, false, false, .outz, .pair, .z, false, true⟩,
  ⟨0x93, true, true, true, false, false, .outz, .reg, .z, false, true⟩,
  ⟨0x94, true, true, true, false, false, .outz, .reg, .z, false, true⟩,
  ⟨0x95, true, true, true, false, false, .outz, .reg, .z, false, true⟩,
  ⟨0x96, true, true, true, false, false, .outP, .reg, .lit, false, true⟩,
  ⟨0x97, true, true, true, false, false, .moloPair, .pair, .z, false, true⟩,
  ⟨0x98, true, true, true, false, false, .moloPair, .reg, .z, false, true⟩,
  ⟨0x99, true, true, true, false, false, .outz, .reg, .reg, false, true⟩,
  ⟨0x9A, true, true, true, false, false, .moloPair, .z, .z, false, true⟩,
  ⟨0x9B, true, true, true, false, false, .outz, .reg, .z, false, true⟩]

def rowsA : List OpRow := [
  ⟨0xA0, true, false, false, false, false, .evenM, .reg, .reg, false, false⟩,
  ⟨0xA1, true, false, false, false, false, .molo, .evenM, .reg, false, false⟩,
  ⟨0xA2, true, false, false, false, false, .molo, .reg, .reg, false, false⟩,
  ⟨0xA3, true, false, false, false, false, .molo, .reg, .reg, false, false⟩,
  ⟨0xA4, true, false, false, false, false, .mol, .reg, .z, false, false⟩,
  ⟨0xA5, true, false, false, false, false, .out, .han, .reg, true, true⟩,
  ⟨0xA6, true, false, false, false, false, .out, .han, .reg, true, true⟩,
  ⟨0xA7, true, false, false, false, false, .outz, .reg, .reg, false, true⟩,
  ⟨0xA8, true, true, true, false, false, .outz, .reg, .pair, false, true⟩,
  ⟨0xA9, true, false, false, false, false, .out, .reg, .reg, false, true⟩]

def rowsB : List OpRow := [
  ⟨0xB0, true, true, true, false, false, .outz, .reg, .z, false, true⟩,
  ⟨0xB1, true, true, true, false, false, .outz, .reg, .reg, false, true⟩,
  ⟨0xB2, true, true, true, false, false, .outz, .reg, .reg, false, true⟩,
  ⟨0xB3, true, true, true, false, false, .moloPair, .reg, .reg, false, true⟩,
  ⟨0xB4, true, true, true, false, false, .molo, .reg, .lit, false, false⟩,
  ⟨0xB5, true, true, true, false, false, .outz, .reg, .reg, false, true⟩,
  ⟨0xB6, true, false, false, false, false, .z, .srcOrZ, .z, false, true⟩,
  ⟨0xB7, true, false, false, false, false, .z, .srcOrZ, .z, false, true⟩,
  ⟨0xB8, true, true, true, false, false, .outz, .reg, .z, false, true⟩]

def rowsC : List OpRow := [
  ⟨0xC0, true, true, true, false, false, .outz, .reg, .reg, false, true⟩,
  ⟨0xC1, true, true, true, false, false, .outz, .reg, .reg, false, true⟩,
  ⟨0xC2, true, true, true, false, false, .outz, .reg, .reg, false, true⟩,
  ⟨0xC3, true, true, true, false, false, .outz, .reg, .z, false, true⟩,
  ⟨0xC4, true, true, true, false, false, .outz, .reg, .reg, true, true⟩,
  ⟨0xC5, true, true, true, false, false, .outz, .reg, .reg, false, true⟩,
  ⟨0xC6, false, false, true, false, false, .dreg0, .sOrZ, .regS, false, true⟩,
  ⟨0xC7, true, true, true, false, false, .ramoD, .reg, .reg, true, true⟩,
  ⟨0xC8, true, true, true, false, false, .outz, .reg, .reg, false, true⟩,
  ⟨0xC9, false, true, true, false, false, .dreg0, .regS, .z, false, true⟩,
  ⟨0xCA, false, false, true, false, false, .dreg0, .regS, .regS, false, true⟩,
  ⟨0xCB, true, true, true, false, false, .outz, .reg, .z, false, true⟩]

def rowsD : List OpRow := [
  ⟨0xD0, false, true, true, false, false, .z, .sImm, .lit, false, false⟩,
  ⟨0xD1, false, true, true, false, false, .z, .lit, .z, false, false⟩,
  ⟨0xD2, false, true, true, false, false, .z, .regS, .z, false, false⟩,
  ⟨0xD3, false, true, true, false, false, .dreg0, .regS, .sImm, false, false⟩,
  ⟨0xD4, false, true, true, false, false, .dreg0, .regS, .sImm, false, false⟩,
  ⟨0xD5, false, true, true, false, false, .dreg0, .regS, .sImm, false, false⟩,
  ⟨0xD6, false, true, true, false, false, .dreg0, .regS, .z, false, false⟩,
  ⟨0xD7, false, true, true, false, false, .regS, .lit, .sImmOrZ, false, false⟩,
  ⟨0xD8, false, true, true, false, false, .lit, .sImm, .sImmOrZ, false, false⟩,
  ⟨0xD9, false, true, true, false, false, .z, .sImm, .sImm, false, false⟩]

def rowsE : List OpRow := [
  ⟨0xE0, false, false, true, false, false, .z, .regS, .sImm, false, false⟩,
  ⟨0xE1, false, false, true, false, false, .z, .z, .z, false, false⟩,
  ⟨0xE2, false, false, true, false, false, .dreg0, .sImm, .z, false, false⟩,
  ⟨0xE3, false, false, true, false, false, .dreg0, .sImm, .sImmOrZ, false, false⟩,
  ⟨0xE4, false, false, true, false, false, .dreg0, .sImm, .z, false, false⟩,
  ⟨0xE5, false, false, true, false, false, .dreg0, .sImm, .z, false, false⟩,
  ⟨0xE6, false, false, true, false, false, .dreg0, .sOrZ, .sImmOrZ, false, false⟩,
  ⟨0xE7, false, false, true, false, false, .dreg0, .sImm, .regS, false, false⟩,
  ⟨0xE8, false, false, true, false, false, .dreg0, .regS, .regS, false, false⟩,
  ⟨0xE9, false, false, true, false, false, .dreg0, .sImm, .z, false, false⟩,
  ⟨0xEB, false, false, true, false, false, .dreg0, .regS, .regS, false, false⟩,
  ⟨0xEC, false, false, true, false, false, .dreg0, .sImm, .regS, false, false⟩]

def opRows : List OpRow :=
  rows0 ++ rows1 ++ rows2 ++ rows3 ++ rows4 ++ rows5 ++ rows6 ++ rows7 ++ rows8 ++ rows9 ++ rowsA ++ rowsB ++ rowsC ++ rowsD ++ rowsE

/-- The row of an opcode, none when R85 reserves it. -/
def opRow (opc : Nat) : Option OpRow := opRows.find? (fun r => r.opc == opc)

def OpRow.runs (r : OpRow) : UKind → Bool
  | .pe => r.pe | .graph => r.graph | .shepherd => r.shepherd | .tile => r.tile | .portal => r.portal

/-- The privileged opcodes: those only the shepherd core executes (R86). -/
def OpRow.privileged (r : OpRow) : Bool :=
  r.shepherd && !r.pe && !r.graph && !r.tile && !r.portal

/-- Code ranges of R68 in a PE. -/
def isM (c : Nat) : Bool := c < 0x20
def isReg (c : Nat) : Bool := c < 0x2A
def isIn (c : Nat) : Bool := 0x30 ≤ c && c < 0x38
def isOut (c : Nat) : Bool := 0x38 ≤ c && c < 0x40
def isHan (c : Nat) : Bool := 0x40 ≤ c && c < 0x50
def isImm (c : Nat) : Bool := 0x80 ≤ c && c < 0x100
def isZero (c : Nat) : Bool := c == 0x2A

/-- Whether an operand code suits a class in a PE (R68, R69). `q` is QBLK's k (R182) and `c16` says that RAMO
names cas.w16 (R402). -/
def Cls.okPe (q : Nat) (c16 : Bool) (isD : Bool) : Cls → Nat → Bool
  | .z, c => isZero c
  | .lit, _ => true
  | .src, c => isReg c || (0x2A ≤ c && c < 0x38) || isImm c
  | .srcOrZ, c => isReg c || (0x2A ≤ c && c < 0x38) || isImm c
  | .reg, c => isReg c || isZero c || isIn c || isImm c
  | .reg16, c => isReg c || isZero c || isIn c || isImm c
  | .regCas, c => isReg c || isZero c || isIn c || isImm c
  | .pair, c => isReg c || isZero c || isIn c || isImm c
  | .regS, _ => false
  | .sImm, _ => false
  | .sImmOrZ, _ => false
  | .sOrZ, _ => false
  | .zOrS, c => isZero c
  | .dst, c => isReg c || isZero c || isOut c
  | .mol, c => isReg c
  | .molo, c => isReg c || isOut c
  | .moloz, c => isReg c || isZero c || isOut c
  | .moloPair, c => isReg c || isOut c
  | .out, c => isOut c
  | .outP, c => isOut c
  | .outz, c => isOut c || isZero c
  | .outzT, c => isOut c || isZero c
  | .ack, c => isOut c || isZero c
  | .dreg, c => isReg c
  | .dreg0, _ => false
  | .ramoD, c => if c16 then isReg c else isOut c || isZero c
  | .pred, c => c < 8
  | .han, c => isHan c
  | .inch, c => isIn c
  | .evenM, c => isM c && c % 2 == 0
  | .mreg, c => if isD then c ≤ 31 - q else c ≤ 16

/-- Whether an operand code suits a class in an S-form unit; `loader` and `storer` say which channel the unit has
(R68, R268, R402). -/
def Cls.okS (loader storer : Bool) : Cls → Nat → Bool
  | .z, c => isZero c
  | .lit, _ => true
  | .src, c => isM c || isZero c || c == 0x2B || c == 0x2F || isImm c || (storer && c == 0x30)
  | .srcOrZ, c => isM c || isZero c || c == 0x2B || c == 0x2F || isImm c || (storer && c == 0x30)
  | .reg, c => isM c || isZero c || isImm c || (storer && c == 0x30)
  | .reg16, c => isM c || isZero c || isImm c || (storer && c == 0x30)
  | .regCas, c => isM c || isZero c || isImm c || (storer && c == 0x30)
  | .pair, c => isM c || isZero c || isImm c
  | .regS, c => isM c
  | .sImm, c => isM c || isImm c
  | .sImmOrZ, c => isM c || isZero c || isImm c
  | .sOrZ, c => isM c || isZero c
  | .zOrS, c => isM c || isImm c
  | .dst, c => isM c || isZero c || (loader && c == 0x38)
  | .mol, c => isM c
  | .molo, c => isM c
  | .moloz, c => isM c || isZero c
  | .moloPair, c => isM c
  | .out, c => isM c
  | .outP, _ => false
  | .outz, c => isM c || isZero c || (loader && c == 0x38)
  | .outzT, c => isM c || isZero c || (loader && c == 0x38)
  | .ack, c => isZero c
  | .dreg, c => isM c
  | .dreg0, c => isM c || isZero c
  | .ramoD, c => isM c || isZero c
  | .pred, c => c < 8
  | .han, c => isHan c
  | .inch, _ => false
  | .evenM, _ => false
  | .mreg, _ => false

/-- A 16-byte position of an S-form word names an even register (R205, R230, R344): `w16` says that the word moves
16 bytes, `cas8` that a CAS has a pair as B. -/
def Cls.evenS (w16 cas8 : Bool) : Cls → Nat → Bool
  | .reg16, c => !w16 || !isM c || c % 2 == 0
  | .outzT, c => !w16 || !isM c || c % 2 == 0
  | .regCas, c => !cas8 || (isM c && c % 2 == 0)
  | .pair, c => !isM c || c % 2 == 0
  | .moloPair, c => !isM c || c % 2 == 0
  | _, _ => true

/-- QBLK's k: 4 for the FP8 formats and 2 for E2M1 (R182). -/
def qblkK (m : Nat) : Nat := if m % 4 = 2 then 2 else 4

/-- Whether a memory word moves 16 bytes (R74). -/
def is16 (w : OpWord) : Bool :=
  (0x60 ≤ w.opc && w.opc ≤ 0x65 && 2 ≤ w.m % 4) || (w.opc == 0x6C && w.m % 4 == 2)

/-- Whether an integer or floating-point conversion narrows: its to-type is B[7:4] and its from-type B[3:0] (R178). -/
def narrows (opc b : Nat) : Bool :=
  let width := fun (c : Nat) =>
    if opc = 0x40 then (([32, 16, 8, 8, 4] : List Nat)[c]?).getD 0 else (([8, 8, 16, 16, 32, 32, 64, 64] : List Nat)[c]?).getD 0
  width (b / 16 % 16) != 0 && decide (width (b / 16 % 16) < width (b % 16))

/-- Operand rules that depend on the modifier: an entry that reads D wants a register there (R162, R308), and a form
without an operand wants 0x2A in its field (R209, R377, R395, R429). -/
def formOk (pe : Bool) (w : OpWord) : Bool :=
  let reg := fun c => if pe then isReg c else isM c
  match w.opc with
  | 0x2F => !(w.m % 4 == 1 || w.m % 4 == 2) || reg w.d
  | 0x40 => !narrows 0x40 w.b || reg w.d
  | 0x41 => !narrows 0x41 w.b || reg w.d
  | 0xA2 => w.m % 4 != 2 || reg w.d
  | 0x6D => w.m % 2 == 0 || isZero w.b
  | 0xB4 => w.m % 2 == 1 || isZero w.b
  | 0xC6 => if w.m % 2 == 1 then isZero w.a else isM w.a
  | 0xE3 => if w.m % 2 == 1 then isM w.b || isImm w.b else isZero w.b
  | 0xE6 => (if w.m % 4 == 0 then isM w.a else isZero w.a) && (if w.m % 4 == 2 then isZero w.b else isM w.b || isImm w.b)
  | _ => true

/-- Operand codes legal for the unit (step 4 of R87). -/
def operandsOk (k : UKind) (loader storer : Bool) (w : OpWord) (r : OpRow) : Bool :=
  formOk (k == .pe) w && match k with
  | .pe =>
    let q := qblkK w.m
    let c16 := w.opc == 0xC7 && w.m % 16 == 6
    r.d.okPe q c16 true w.d && r.a.okPe q c16 false w.a && r.b.okPe q c16 false w.b
  | _ => r.d.okS loader storer w.d && r.a.okS loader storer w.a && r.b.okS loader storer w.b

/-- Even registers in the 16-byte positions of an S-form word (R205). -/
def pairsOk (k : UKind) (w : OpWord) (r : OpRow) : Bool :=
  match k with
  | .pe => true
  | _ =>
    let cas8 := (w.opc == 0x71 && w.m % 16 == 1) || (w.opc == 0xC7 && w.m % 16 == 5)
    let bcls := if w.opc == 0xC7 then Cls.regCas else r.b
    r.d.evenS (is16 w) cas8 w.d && r.a.evenS (is16 w) cas8 w.a && bcls.evenS (is16 w) cas8 w.b

/-- Selectors whose fields are all RO (R140, R414). -/
def roSelector (sel : Nat) : Bool :=
  sel == 0x00 || sel == 0x01 || sel == 0x02 || sel == 0x04 || sel == 0x05 || sel == 0x11 || sel == 0x23 || sel == 0x24
    || sel == 0x26

/-- Reserved modifier values that depend on the unit kind or on an operand: in S-form only SHAPE 011 and 000 (R73), and no
cas.w16 (R402), and no SETC of a selector whose fields are all RO (R153; outside the shepherd core the selectors 0x20 to
0x2F trap with 0x03 instead, R414); in a PE `.pk` of MOV wants an input channel (R125). -/
def unitModOk (k : UKind) (w : OpWord) : Bool :=
  match k with
  | .pe => !(w.opc == 0x01 && w.m % 2 == 1) || isIn w.a
  | _ =>
    let sh := bits w.m 5 3
    (!(0x10 ≤ w.opc && w.opc ≤ 0x2E && w.opc != 0x29) || sh == 0 || sh == 3)
      && !(w.opc == 0xC7 && w.m % 16 == 6)
      && !(w.opc == 0xD8 && roSelector w.d && (k == .shepherd || w.d < 0x20))

/-- The fate of a word in a unit of kind `k`, in the order of R87: the trap cause of the first failure. `seq` says
that its sequencing field is legal. A fetched 0x2A field that does not hold 0x2A counts as an illegal operand code, and an
odd register in a 16-byte position comes after the steps of R87 (log 12). -/
def fateSeq (k : UKind) (loader storer seq : Bool) (w : OpWord) : Except Nat Instr :=
  match opRow w.opc with
  | none => .error 0x01
  | some r =>
    if r.privileged && k != .shepherd then .error 0x03
    else if !r.runs k then .error 0x01
    else if !operandsOk k loader storer w r then .error 0x01
    else match decodeOp w with
      | .ok i => if !seq || !unitModOk k w then .error 0x02 else if !pairsOk k w r then .error 0x01 else .ok i
      | .error .operand => .error 0x01
      | .error .opcode => .error 0x01
      | .error .modifier => .error 0x02

/-- The fate of an op word by itself. -/
def fate (k : UKind) (loader storer : Bool) (w : OpWord) : Except Nat Instr := fateSeq k loader storer true w

end Sys2Proof
end

