-- ==== Sys2Proof/Machine/Flags.lean ====
section
/-! DEFINITION. The flags of a status word (R100, R108). -/
namespace Sys2Proof

def fNV : Nat := 1
def fDZ : Nat := 2
def fOF : Nat := 4
def fUF : Nat := 8
def fNX : Nat := 16
def fOV : Nat := 32

/-- Union of flag sets. -/
def orFlags (l : List Nat) : Nat := l.foldl (fun a b => a ||| b) 0

/-- The flags of an accumulator status word (R109): NV, OF or SAT, UF; NX is discarded. A flag OF raised
under saturation is recorded as SAT. -/
def accFlags (sat : Bool) (f : Nat) : Nat :=
  (if bitAt f 0 then 1 else 0) + (if bitAt f 2 then (if sat then 4 else 2) else 0) + (if bitAt f 3 then 8 else 0)

end Sys2Proof
end

