-- ==== Sys2Proof/Machine/Num.lean ====
section
/-! DEFINITION. Floating-point formats and exact arithmetic (R92-R105, R111). Values are exact dyadic numbers, possibly with a
sticky remainder, and every result is rounded once by RoundTo. -/
namespace Sys2Proof

/-- An exact value: NaN, an infinity, or (-1)^neg x (m + r) x 2^e with r = 0, or 0 < r < 1 when sticky. -/
inductive XR where
  | nan
  | inf (neg : Bool)
  | fin (neg : Bool) (m : Nat) (e : Int) (sticky : Bool)
  deriving DecidableEq, Repr

/-- Lane width of a shape (R72). -/
def Shape.width : Shape → Nat
  | .s32 => 32 | .s16 => 16 | .s8 => 8 | .s64 => 64 | .s128 => 128

/-- Exponent width, fraction width and bias (R92). -/
def FFmt.eb : FFmt → Nat
  | .f32 => 8 | .bf16 => 8 | .e4m3 => 4 | .e5m2 => 5 | .e2m1 => 2
def FFmt.fb : FFmt → Nat
  | .f32 => 23 | .bf16 => 7 | .e4m3 => 3 | .e5m2 => 2 | .e2m1 => 1
def FFmt.bias : FFmt → Nat
  | .f32 => 127 | .bf16 => 127 | .e4m3 => 7 | .e5m2 => 15 | .e2m1 => 1
def FFmt.hasInf : FFmt → Bool
  | .f32 => true | .bf16 => true | .e5m2 => true | .e4m3 => false | .e2m1 => false
/-- Largest finite magnitude, as its code without the sign (R92). -/
def FFmt.largest : FFmt → Nat
  | .f32 => 0x7F7FFFFF | .bf16 => 0x7F7F | .e4m3 => 0x7E | .e5m2 => 0x7B | .e2m1 => 0x7
def FFmt.canon : FFmt → Nat
  | .f32 => 0x7FC00000 | .bf16 => 0x7FC0 | .e4m3 => 0x7F | .e5m2 => 0x7E | .e2m1 => 0
def FFmt.infCode : FFmt → Nat
  | .f32 => 0x7F800000 | .bf16 => 0x7F80 | .e5m2 => 0x7C | .e4m3 => 0x7F | .e2m1 => 0x7
def signBit (F : FFmt) (neg : Bool) : Nat := if neg then 2 ^ (F.width - 1) else 0

def isNanCode (F : FFmt) (x : Nat) : Bool :=
  let E := bits x F.fb F.eb
  let f := bits x 0 F.fb
  match F with
  | .e2m1 => false
  | .e4m3 => E == 15 && f == 7
  | _ => E == 2 ^ F.eb - 1 && f != 0
/-- A NaN whose most significant fraction bit is 0; E4M3 has none (R95). -/
def isSnan (F : FFmt) (x : Nat) : Bool :=
  match F with
  | .e4m3 => false
  | _ => isNanCode F x && !bitAt x (F.fb - 1)
def isInfCode (F : FFmt) (x : Nat) : Bool :=
  F.hasInf && bits x F.fb F.eb == 2 ^ F.eb - 1 && bits x 0 F.fb == 0
def signOf (F : FFmt) (x : Nat) : Bool := bitAt x (F.width - 1)

/-- Val (R88): the exact value of a code (R92, R93). -/
def fval (F : FFmt) (x : Nat) : XR :=
  let E := bits x F.fb F.eb
  let f := bits x 0 F.fb
  if isNanCode F x then .nan
  else if isInfCode F x then .inf (signOf F x)
  else if E = 0 then .fin (signOf F x) f (1 - (F.bias : Int) - F.fb) false
  else .fin (signOf F x) (2 ^ F.fb + f) ((E : Int) - F.bias - F.fb) false

/-- Scale (R88, R94): 2^(s - 127), NaN for 0xFF. -/
def scaleVal (s : Nat) : XR := if s = 255 then .nan else .fin false 1 ((s : Int) - 127) false

/-- Overflow (R97): the value and its extra flag. -/
def overflowTo (neg : Bool) (F : FFmt) (r : Rnd) (sat : Bool) : Nat × Nat :=
  let M := signBit F neg + F.largest
  let I := signBit F neg + F.infCode
  match F with
  | .e2m1 => (M, 0)
  | .e4m3 => if sat then (M, 0) else (F.canon, fNV)
  | _ =>
    if sat then (M, 0)
    else match r with
      | .rne => (I, 0)
      | .rtz => (M, 0)
      | .rup => if neg then (M, 0) else (I, 0)
      | .rdn => if neg then (I, 0) else (M, 0)

/-- Whether a magnitude is rounded away from zero, given the last kept bit and the discarded part compared
with one half (0 exact, 1 below, 2 a tie, 3 above). -/
def roundAway (r : Rnd) (neg : Bool) (odd : Bool) (part : Nat) : Bool :=
  if part = 0 then false
  else match r with
    | .rne => part == 3 || (part == 2 && odd)
    | .rtz => false
    | .rup => !neg
    | .rdn => neg

/-- The magnitude rounded to a multiple of 2^q: the multiple and whether it was inexact. -/
def roundAt (r : Rnd) (neg : Bool) (m : Nat) (e q : Int) (sticky : Bool) : Nat × Bool :=
  if q ≤ e then
    let v := m * 2 ^ (e - q).toNat
    let part := if sticky then 1 else 0
    (v + (if roundAway r neg (v % 2 == 1) part then 1 else 0), sticky)
  else
    let k := (q - e).toNat
    let v := m / 2 ^ k
    let low := m % 2 ^ k
    let half := 2 ^ (k - 1)
    let part := if low = 0 then (if sticky then 1 else 0)
      else if low < half then 1 else if low = half then (if sticky then 3 else 2) else 3
    (v + (if roundAway r neg (v % 2 == 1) part then 1 else 0), part != 0)

/-- RoundTo (R96-R98): the code and the flags it raises. -/
def roundTo (x : XR) (F : FFmt) (r : Rnd) (sat : Bool) : Nat × Nat :=
  match x with
  | .nan => match F with | .e2m1 => (0, fNV) | _ => (F.canon, 0)
  | .inf neg =>
    if F.hasInf && !sat then (signBit F neg + F.infCode, 0)
    else
      let o := overflowTo neg F r sat
      (o.1, fOF ||| fNX ||| o.2)
  | .fin neg m e sticky =>
    if m = 0 && !sticky then (signBit F neg, 0)
    else
      let top : Int := e + Nat.log2 m
      let emin : Int := 1 - (F.bias : Int)
      let q : Int := max top emin - F.fb
      let rr := roundAt r neg m e q sticky
      let n := rr.1
      let nx := if rr.2 then fNX else 0
      if n = 0 then (signBit F neg, nx)
      else
        let code : Int :=
          if n < 2 ^ F.fb then (n : Int)
          else if n = 2 ^ (F.fb + 1) then (q + F.fb + 1 + F.bias) * 2 ^ F.fb
          else (q + F.fb + F.bias) * 2 ^ F.fb + (n - 2 ^ F.fb : Nat)
        if (F.largest : Int) < code then
          let o := overflowTo neg F r sat
          (o.1, fOF ||| fNX ||| o.2)
        else
          let uf := if rr.2 && n < 2 ^ F.fb then fUF else 0
          (signBit F neg + code.toNat, nx ||| uf)

/-- Exact negation, product and sum. A sum or product that is no real number comes with NV (R100); an exact
zero of a sum of opposite signs is +0, and -0 under RDN (R96). -/
def xneg : XR → XR
  | .nan => .nan
  | .inf n => .inf (!n)
  | .fin n m e s => .fin (!n) m e s
def isZeroX : XR → Bool
  | .fin _ 0 _ false => true
  | _ => false

def xmul : XR → XR → XR × Nat
  | .nan, _ => (.nan, 0)
  | _, .nan => (.nan, 0)
  | .inf a, .inf b => (.inf (a != b), 0)
  | .inf a, .fin b m _ s => if m = 0 && !s then (.nan, fNV) else (.inf (a != b), 0)
  | .fin a m _ s, .inf b => if m = 0 && !s then (.nan, fNV) else (.inf (a != b), 0)
  | .fin a m e _, .fin b n f _ => (.fin (a != b) (m * n) (e + f) false, 0)

def xadd (r : Rnd) : XR → XR → XR × Nat
  | .nan, _ => (.nan, 0)
  | _, .nan => (.nan, 0)
  | .inf a, .inf b => if a = b then (.inf a, 0) else (.nan, fNV)
  | .inf a, .fin .. => (.inf a, 0)
  | .fin .., .inf b => (.inf b, 0)
  | .fin a m e _, .fin b n f _ =>
    let q := min e f
    let x : Int := (if a then -1 else 1) * ((m * 2 ^ (e - q).toNat : Nat) : Int)
    let y : Int := (if b then -1 else 1) * ((n * 2 ^ (f - q).toNat : Nat) : Int)
    let z := x + y
    if z = 0 then (if a = b then (.fin a 0 q false, 0) else (.fin (r == .rdn) 0 q false, 0))
    else (.fin (decide (z < 0)) z.natAbs q false, 0)

/-- Exact sum of a list, flags united. -/
def xsum (r : Rnd) (l : List XR) : XR × Nat :=
  match l with
  | [] => (.fin false 0 0 false, 0)
  | x :: xs => xs.foldl (fun acc y => let z := xadd r acc.1 y; (z.1, acc.2 ||| z.2)) (x, 0)

/-- The order of two values: none when unordered; -0 equals +0 (R176). -/
def xcmp : XR → XR → Option Ordering
  | .nan, _ => none
  | _, .nan => none
  | a, b =>
    let rank : XR → Int × Nat × Int := fun x => match x with
      | .nan => (0, 0, 0)
      | .inf n => (if n then -2 else 2, 0, 0)
      | .fin n m e _ => if m = 0 then (0, 0, 0) else (if n then -1 else 1, m, e)
    let x := rank a
    let y := rank b
    if x.1 < y.1 then some .lt
    else if y.1 < x.1 then some .gt
    else if x.1 = 1 || x.1 = -1 then
      let q := min x.2.2 y.2.2
      let u := x.2.1 * 2 ^ (x.2.2 - q).toNat
      let v := y.2.1 * 2 ^ (y.2.2 - q).toNat
      let o := if u < v then Ordering.lt else if u = v then Ordering.eq else Ordering.gt
      some (if x.1 = 1 then o else o.swap)
    else some .eq

/-- Square root of a number, truncated, by bits from `i` - 1 downward. -/
def isqrtGo (x : Nat) : Nat → Nat → Nat
  | 0, r => r
  | i + 1, r => if (r + 2 ^ i) * (r + 2 ^ i) ≤ x then isqrtGo x i (r + 2 ^ i) else isqrtGo x i r
def isqrt (x : Nat) : Nat := isqrtGo x (Nat.log2 x / 2 + 1) 0

/-- a / b (R102). -/
def xdiv : XR → XR → XR × Nat
  | .nan, _ => (.nan, 0)
  | _, .nan => (.nan, 0)
  | .inf _, .inf _ => (.nan, fNV)
  | .inf a, .fin b _ _ _ => (.inf (a != b), 0)
  | .fin a _ _ _, .inf b => (.fin (a != b) 0 0 false, 0)
  | .fin a m e _, .fin b n f _ =>
    if n = 0 then (if m = 0 then (.nan, fNV) else (.inf (a != b), fDZ))
    else (.fin (a != b) (m * 2 ^ 64 / n) (e - f - 64) (m * 2 ^ 64 % n != 0), 0)

/-- Square root (R102). -/
def xsqrt : XR → XR × Nat
  | .nan => (.nan, 0)
  | .inf n => if n then (.nan, fNV) else (.inf false, 0)
  | .fin n m e _ =>
    if m = 0 then (.fin n 0 0 false, 0)
    else if n then (.nan, fNV)
    else
      let s : Nat := if e % 2 = 0 then 64 else 65
      let y := m * 2 ^ s
      let r := isqrt y
      (.fin false r ((e - s) / 2) (r * r != y), 0)

/-- 1 / x (R102). -/
def xrcp : XR → XR × Nat
  | .nan => (.nan, 0)
  | .inf n => (.fin n 0 0 false, 0)
  | .fin n m e s => if m = 0 then (.inf n, fDZ) else xdiv (.fin false 1 0 false) (.fin n m e s)

/-- 1 / sqrt x (R102). -/
def xrsq : XR → XR × Nat
  | .nan => (.nan, 0)
  | .inf n => if n then (.nan, fNV) else (.fin false 0 0 false, 0)
  | .fin n m e _ =>
    if m = 0 then (.inf n, fDZ)
    else if n then (.nan, fNV)
    else
      let m1 := if e % 2 = 0 then m else 2 * m
      let e1 := if e % 2 = 0 then e else e - 1
      let r := isqrt (2 ^ 128 / m1)
      (.fin false r (-(e1 / 2) - 64) (r * r * m1 != 2 ^ 128), 0)

/-- ln 2 in units of 2^-256. -/
def ln2fix : Nat := 80260960185991308862233904206310070533990667611589946606122867505419956976171

/-- e^t for t in units of 2^-256, by its power series: the sum and the last term. -/
def expSeries (t : Nat) : Nat → Nat → Nat → Nat → Nat
  | 0, _, _, acc => acc
  | n + 1, k, term, acc =>
    let t1 := term * t / (k * 2 ^ 256)
    expSeries t n (k + 1) t1 (acc + t1)

/-- 2^x (R102): exact at integers, otherwise irrational and given to 240 bits with a sticky remainder. -/
def xexp2 : XR → XR × Nat
  | .nan => (.nan, 0)
  | .inf n => if n then (.fin false 0 0 false, 0) else (.inf false, 0)
  | .fin n m e _ =>
    if m = 0 then (.fin false 1 0 false, 0)
    else if (10 : Int) < e + Nat.log2 m then
      (if n then .fin false 1 (-2000) true else .fin false 1 2000 true, 0)
    else if 0 ≤ e then
      let i : Int := (m * 2 ^ e.toNat : Nat)
      (.fin false 1 (if n then -i else i) false, 0)
    else
      let k := (-e).toNat
      let i := m / 2 ^ k
      let f := m % 2 ^ k
      if f = 0 then (.fin false 1 (if n then -(i : Int) else i) false, 0)
      else
        let ip : Int := if n then -(i : Int) - 1 else i
        let fr := if n then 2 ^ k - f else f
        let t := fr * ln2fix / 2 ^ k
        (.fin false (expSeries t 64 1 (2 ^ 256) (2 ^ 256)) (ip - 256) true, 0)

/-- Binary digits of log2 y for 1 < y < 2 in units of 2^-256, by repeated squaring. -/
def logDigits : Nat → Nat → Nat → Nat
  | 0, _, acc => acc
  | n + 1, y, acc =>
    let z := y * y / 2 ^ 256
    if 2 ^ 257 ≤ z then logDigits n (z / 2) (2 * acc + 1) else logDigits n z (2 * acc)

/-- log2 x (R102): exact at powers of two. -/
def xlog2 : XR → XR × Nat
  | .nan => (.nan, 0)
  | .inf n => if n then (.nan, fNV) else (.inf false, 0)
  | .fin n m e _ =>
    if m = 0 then (.inf true, fDZ)
    else if n then (.nan, fNV)
    else
      let l := Nat.log2 m
      let k : Int := e + l
      if m = 2 ^ l then (.fin (decide (k < 0)) k.natAbs 0 false, 0)
      else
        let d := logDigits 120 (m * 2 ^ 256 / 2 ^ l) 0
        let v : Int := k * 2 ^ 120 + d
        if 0 ≤ v then (.fin false v.toNat (-120) true, 0)
        else (.fin true ((-v).toNat - 1) (-120) true, 0)

/-- minimumNumber and maximumNumber on codes (R103): the code and NV for a signalling NaN. -/
def minMaxNum (F : FFmt) (mx : Bool) (a b : Nat) : Nat × Nat :=
  let fl := if isSnan F a || isSnan F b then fNV else 0
  if isNanCode F a && isNanCode F b then (F.canon, fl)
  else if isNanCode F a then (b, fl)
  else if isNanCode F b then (a, fl)
  else match xcmp (fval F a) (fval F b) with
    | some .lt => (if mx then b else a, fl)
    | some .gt => (if mx then a else b, fl)
    | _ => ((if signOf F a == mx then b else a), fl)

/-- NV for a signalling NaN among the operands (R95). -/
def snanFlag (F : FFmt) (l : List Nat) : Nat := if l.any (isSnan F) then fNV else 0

/-- Rounds an exact result with the flags that forming it raised. -/
def finish (x : XR × Nat) (F : FFmt) (r : Rnd) (sat : Bool) (fl : Nat) : Nat × Nat :=
  let y := roundTo x.1 F r sat
  (y.1, y.2 ||| x.2 ||| fl)

/-- a + b rounded in FP32, as FRED, AMO and the scans use it. -/
def fadd32 (a b : Nat) (r : Rnd) (sat : Bool) : Nat × Nat :=
  finish (xadd r (fval .f32 a) (fval .f32 b)) .f32 r sat (snanFlag .f32 [a, b])
def fmul32 (a b : Nat) : Nat × Nat :=
  finish (xmul (fval .f32 a) (fval .f32 b)) .f32 .rne false (snanFlag .f32 [a, b])

/-- An integer as an exact value. -/
def xint (i : Int) : XR := .fin (decide (i < 0)) i.natAbs 0 false

/-- An exact value rounded to an integer under a mode: the integer and whether it changed (R99). -/
def toInt (r : Rnd) (neg : Bool) (m : Nat) (e : Int) : Int × Bool :=
  let rr := roundAt r neg m e 0 false
  (if neg then -(rr.1 : Int) else rr.1, rr.2)

/-- Rand32 (R111). -/
def rand32Go : Nat → Nat → Nat → Nat
  | 0, a, b => a ^^^ b
  | n + 1, a, b =>
    let a1 := rotl 32 ((a + b) % 2 ^ 32) 7
    rand32Go n a1 (((b ^^^ a1) + 0x9E3779B9) % 2 ^ 32)
def rand32 (c k : Nat) : Nat := rand32Go 6 c k

/-- RHash (R360). -/
def rhash (k : Nat) : Nat :=
  let x := k % 2 ^ 32
  let x := x ^^^ (x >>> 16)
  let x := (x * 0x6B5F2D1B) % 2 ^ 32
  let x := x ^^^ (x >>> 15)
  let x := (x * 0x3C9AE4D5) % 2 ^ 32
  x ^^^ (x >>> 16)

/-- HashOf under spread with width kb (R360). -/
def hashSpread (kb k : Nat) : Nat := (k % 2 ^ kb) * 2 ^ (32 - kb)

/-- The conditions of R232 on words of `w` bits. -/
def wcond (w : Nat) : WCond → Nat → Nat → Bool
  | .eq, a, b => a == b
  | .ne, a, b => a != b
  | .lt, a, b => decide (sgn w a < sgn w b)
  | .ge, a, b => decide (sgn w b ≤ sgn w a)
  | .ltn, a, b => decide (a < b)
  | .gen, a, b => decide (b ≤ a)
  | .tst, a, b => (a &&& b) != 0

end Sys2Proof
end

