-- ==== Sys2Proof/Word.lean ====
section
/-! DEFINITION. The word types of the VX4. -/
namespace Sys2Proof

/-- A byte of memory. -/
abbrev Byte := BitVec 8
/-- An s register, a predicate-free 64-bit word. -/
abbrev W64 := BitVec 64
/-- The payload of a token or of a PE register. -/
abbrev W128 := BitVec 128

end Sys2Proof
end

