-- ==== Sys2Proof/Config.lean ====
section
/-! DEFINITION. What an implementation fixes and what the manual leaves open: constants without a body, so that no
proof can see their value. -/
namespace Sys2Proof

/-- The slot that a relation port takes, and the tuple that it finds when several qualify: free
(R329, R330; log 9). Applied to the counter `free` of the state. -/
opaque Config.freeSlot : Nat → Nat
/-- A byte whose content the manual leaves unspecified: the array save area and the context area
(R307, R432; log 15). -/
opaque Config.freeByte : Nat → Byte
/-- A byte of memory on another package that an instruction reads by itself, at a virtual address: nothing here says what it is
(log 27). Applied to the counter `free` and the address. -/
opaque Config.outsideByte : Nat → Nat → Byte
/-- The payload and the tag of a head that a PE reads when the first pair of its dual issue has emptied the channel: the
manual does not say which token is read (R33, R121; log 23). -/
opaque Config.freeHead : Nat → BitVec 136
/-- The size of the cluster units' part of a context area, which is internal (R432; log 15); the model takes it below 1 MB. -/
opaque Config.unitBytes : Nat
/-- The pseudo-channel and the bank of an SA row, fixed by Bruosh at start-up (R274; log 17). -/
opaque Config.rowChannel : Nat → Nat
opaque Config.rowBank : Nat → Nat
/-- The lane chosen by hash of destination peer and line address (R385, R387; log 18). -/
opaque Config.gateLane : Nat → Nat
/-- SHA-512 of a byte string, the device identity key and signatures under it, the verification under the
fused vendor key, and the digest of the ROM (R437, R445, R446, R449; log 10). -/
opaque Config.sha512 : List Byte → BitVec 512
opaque Config.deviceKey : BitVec 256
opaque Config.deviceSign : List Byte → BitVec 512
opaque Config.vendorOk : BitVec 512 → BitVec 512 → Bool
opaque Config.romDigest : BitVec 256
/-- How a fault record's ITEM holds the chain and the sequence index of a store, whose layout the manual does not give
(R421; log 32). -/
opaque Config.chainItem : Nat → Nat → Nat
/-- Operators that a portal target advertised at link training: bit c of target t (R402; log 19). -/
opaque Config.portalOps : Nat → Nat
/-- Peer numbers in use in the domain (R392, R408; log 20). -/
opaque Config.peerInUse : Nat → Bool

end Sys2Proof
end

