-- ==== Sys2Proof/Machine/Tbl.lean ====
section
/-! DEFINITION. Sparse tables: lists of (key, value) with strictly rising keys. A table with a default lists no entry
equal to the default, so equal tables are equal data. -/
namespace Sys2Proof

/-- A sparse table by a numeric key. -/
abbrev Tbl (V : Type) := List (Nat × V)

/-- The entry of a key. (The laws of reading after writing hold of every list, sorted or not.) -/
def tfind {V : Type} (k : Nat) : Tbl V → Option V
  | [] => none
  | (a, v) :: t => if a = k then some v else tfind k t

/-- Writes an entry, keeping keys rising. -/
def tset {V : Type} (k : Nat) (v : V) : Tbl V → Tbl V
  | [] => [(k, v)]
  | (a, x) :: t =>
    if k < a then (k, v) :: (a, x) :: t
    else if a = k then (k, v) :: t
    else (a, x) :: tset k v t

/-- Removes an entry. -/
def tdel {V : Type} (k : Nat) : Tbl V → Tbl V
  | [] => []
  | (a, x) :: t => if a = k then tdel k t else (a, x) :: tdel k t

/-- The value of a key, with a default for keys that are not listed. -/
def tget {V : Type} (d : V) (k : Nat) (t : Tbl V) : V := (tfind k t).getD d

/-- Writes a value; writing the default removes the entry. -/
def tput {V : Type} [DecidableEq V] (d : V) (k : Nat) (v : V) (t : Tbl V) : Tbl V :=
  if v = d then tdel k t else tset k v t

/-- Keys strictly rising. -/
def twf {V : Type} : Tbl V → Bool
  | [] => true
  | [_] => true
  | (a, _) :: (b, y) :: t => decide (a < b) && twf ((b, y) :: t)

/-- Whether a key is listed. -/
def thas {V : Type} (k : Nat) (t : Tbl V) : Bool := (tfind k t).isSome

/-- The entries whose key satisfies a test. -/
def tfilter {V : Type} (p : Nat → Bool) (t : Tbl V) : Tbl V := t.filter (fun e => p e.1)

/-- Merge of two tables, the second winning. -/
def tunion {V : Type} (t u : Tbl V) : Tbl V := u.foldl (fun acc e => tset e.1 e.2 acc) t

end Sys2Proof
end

