-- ==== Sys2Proof/Machine/State.lean ====
section
/-! DEFINITION. The state of the machine: every piece of state that the chapters name, as plain data. Tables are sparse;
the key of each is given beside its field. Contexts are numbered core x 8 + 4 x frame + bank (R17). -/
namespace Sys2Proof.Machine

/-- Faults of the model: none of the meanings ends in one (every stop of the VX4 is a trap, a poison value or a
fault record, which are next states). The constructor is kept for a step that finds no instruction to run; no step
raises it, so it is safe. -/
inductive Fault where
  /-- Raised by no meaning and by no step; safe. -/
  | nothingToRun
  deriving DecidableEq, Repr

/-- Refusals of the model. -/
inductive Refusal where
  /-- The instruction has no meaning yet: raised by an arm of the dispatcher that rejects it by name; safe. -/
  | notModelled (mnemonic : String)
  deriving DecidableEq, Repr

/-- A value: payload and the two side bits of a register or token (R71, R77). -/
structure Val where
  pay : W128
  poison : Bool
  scaled : Bool
  deriving DecidableEq, Repr

/-- A token: value and the rest of its tag (R77). -/
structure Token where
  val : Val
  eos : Bool
  flag : Bool
  ctx : Nat
  deriving DecidableEq, Repr

/-- Which unit executes the present instruction: a firing PE pair, an S-form unit at a word, or none (an event). -/
inductive Actor where
  | idle
  | pe (core pe frame slot bank : Nat) (keep : Bool)
  | unit (u w : Nat)
  deriving DecidableEq, Repr

/-- What the executing word did to its unit's next address (R65, R141): sequence, a jump made by the
instruction, a stall before its effect (R66), or a trap. -/
inductive Ctl where
  | seq
  | jump (w : Nat)
  | stall
  | trapped
  deriving DecidableEq, Repr

/-- Where a result goes (R88 Deliver). `drop` is an operand field 0x2A without a result; `tile` is out0 of a
loader tile. -/
inductive Dst where
  | drop
  | zero
  | out (core pe ch bank : Nat)
  | reg (core pe ctx code : Nat)
  | sreg (u r : Nat)
  | spair (u r : Nat)
  | tile (u : Nat)
  deriving DecidableEq, Repr

/-- A ready-queue record (R21, R36): frame, activation number and the section that created it. -/
structure Rec where
  frame : Nat
  act : Nat
  sect : Nat
  deriving DecidableEq, Repr

/-- What an activation of a context is for: a section's record, a stage holder or a stage routine (R358, R366). -/
inductive ActKind where
  | record (sect : Nat)
  | holder (past fam : Nat)
  | routine (past fam : Nat)
  deriving DecidableEq, Repr

/-- A bound context (R17, R119). `done` has bit n for PE n; `ending` while a commit writes its stores;
`sdone` records which of SDONE and MDONE fired (R369). -/
structure Binding where
  act : Nat
  kind : ActKind
  done : Nat
  ending : Bool
  sdone : Option Bool
  deriving DecidableEq, Repr

/-- How an access names its place: a virtual address, a scratchpad address, or a handle image with the
handle's number and an index (R188). -/
inductive Place where
  | virt (va : Nat)
  | scratch (sa : Nat)
  | hand (owner h : Nat) (hv : BitVec 256) (ix : Nat)
  deriving DecidableEq, Repr

/-- The chain position of a request (R201): chain, firing count, sequence index. -/
structure ChainPos where
  chain : Nat
  n : Nat
  seq : Nat
  deriving DecidableEq, Repr

/-- A buffered store of an atomic activation (R22): chain position, issuer, place, data and order, and the SNAP that its handle
is pending on (R206). -/
structure BufStore where
  pos : Option ChainPos
  who : Actor
  pl : Place
  len : Nat
  data : Nat
  scope : Nat
  rel : Bool
  poison : Option W128
  hwait : Option Nat
  deriving DecidableEq, Repr

/-- An input channel (R113, R117, R118, R302): binding word, FIFO (with delay stages), spill ring tokens with the
ring's base, its head and the number of its last tokens that are still to be written into the ring's memory, and the corner-turn
node. -/
structure Chan where
  binding : W64
  fifo : List Token
  ring : List Token
  ringBase : Nat
  ringHead : Nat
  unw : Nat
  node : Nat
  pendNode : Option Nat
  gather : List Token
  emit : List Token
  deriving DecidableEq, Repr

/-- A token on its way to an input (R113, R114): `src` names the source whose order it keeps and `req` the KROUTE whose
record it is. -/
structure Transit where
  src : Nat
  dst : Nat
  tok : Token
  req : Option Nat
  deriving DecidableEq, Repr

/-- A circuit bound by a route plan (R382): source output key, destination input key, owning frame key. -/
structure Circuit where
  src : Nat
  dst : Nat
  owner : Nat
  deriving DecidableEq, Repr

/-- A move assigned by an averaging period (R36, R37). -/
structure Move where
  src : Nat
  dst : Nat
  rcd : Rec
  deriving DecidableEq, Repr

/-- The PE array: what a core's image holds of it (R424) and the tokens between PEs. Keys: `regs`
((core x 16 + pe) x 8 + context) x 64 + code; `preds` (core x 16 + pe) x 8 + context; `astat`, `prio`, `binds`,
`commit` core x 8 + context; `frames` core x 2 + frame (the image as 64-bit words); `chans`
(core x 16 + pe) x 8 + channel; `rq` core; `fires` ((core x 8 + context) x 16 + pe) x 8 + slot; `waits`
((core x 16 + pe) x 16 + slot) x 4 + bank; `rot`, `starv`, `busy` core x 16 + pe
(`rot` starts at 0, log 2); `hands` and `hpend` (core x 2 + frame) x 16
+ handle. -/
structure PeS where
  regs : Tbl Val
  preds : Tbl (BitVec 8)
  astat : Tbl W64
  prio : Tbl Nat
  frames : Tbl (List W64)
  chans : Tbl Chan
  rq : Tbl (List Rec)
  binds : Tbl Binding
  commit : Tbl (List BufStore)
  fires : Tbl Nat
  waits : Tbl Nat
  rot : Tbl Nat
  starv : Tbl Nat
  busy : Tbl Nat
  hands : Tbl (BitVec 256)
  hpend : Tbl Nat
  deriving DecidableEq, Repr

/-- Run state of an S-form unit. -/
inductive RunSt where
  | idle | running | waiting | halted
  deriving DecidableEq, Repr

/-- An entry of the loop stack (R141). -/
structure LoopE where
  start : Nat
  fin : Nat
  rem : Nat
  deriving DecidableEq, Repr

/-- A ticket table entry (R147): allocated work (a section or a graph by its model number) and generation. -/
structure Ticket where
  gen : Nat
  used : Bool
  child : Bool
  work : Nat
  deriving DecidableEq, Repr

/-- An S-form unit (R135). Units are numbered: graph context c of cluster k is 8 k + c; the shepherd core of
cluster k is 128 + k; edge tile t is 144 + t; plinth tile t is 272 + t; portal element e is 336 + e. `s` is keyed by
register number; `graph` names the graph the unit runs; `seqf` is the sequencing field of the word that it executes,
kept while a word waits. -/
structure SUnit where
  s : Tbl W64
  p : BitVec 8
  link : List Nat
  loops : List LoopE
  w : Nat
  base : Nat
  run : RunSt
  past : Nat
  sstat : W64
  tickets : Tbl Ticket
  graph : Nat
  seqf : Nat
  deriving DecidableEq, Repr

/-- A graph started by LAUNCH or by the host (R139): pasture, who waits for it, the unit that launched it (none for a root
graph), whether and how it halted, and how many of its sections and children are not complete. -/
structure Graph where
  past : Nat
  parent : Nat
  by_ : Option Nat
  root : Bool
  halted : Bool
  cause : Nat
  live : Nat
  complete : Bool
  deriving DecidableEq, Repr

/-- An armed section (R25, R150): entries (block, frame, core), tile count, next tile and block to place, records
not yet ended and aborted activations; `graph` is the graph that armed it, and `shep` marks one that a shepherd core
armed. -/
structure Section where
  past : Nat
  cluster : Nat
  graph : Nat
  shep : Bool
  entries : List (Nat × Nat × Nat)
  count : Nat
  tile : Nat
  blk : Nat
  created : Nat
  ended : Nat
  aborted : Nat
  complete : Bool
  deriving DecidableEq, Repr

/-- An install that the armature is transferring (R148): image words, the unit that waits for it and its word. -/
structure Install where
  img : List W64
  unit : Option Nat
  word : Nat
  dst : Dst
  pf : Option Nat
  deriving DecidableEq, Repr

/-- A trap cause in the asynchronous queue (R418). -/
structure Cause where
  code : Nat
  val : W64
  past : Nat
  deriving DecidableEq, Repr

/-- Privileged state of a shepherd core (R414). -/
structure Shep where
  status : W64
  spc1 : W64
  spc2 : W64
  sst1 : W64
  sst2 : W64
  cause1 : W64
  cause2 : W64
  tval1 : W64
  tval2 : W64
  tvec : W64
  queue : List Cause
  deriving DecidableEq, Repr

/-- Sequencing state: `units` by unit number; `uhands` unit x 16 + handle; `graphs` and `sections` by model number;
`installs` core x 2 + frame; `sheps` cluster; `heldTraps` are causes whose unit stalls, because the queue is full
(R418) or because it holds a fault record (R421), with the cluster, the unit, and whether its trap is still to be taken; `avg` the moves still to make of an averaging period, by cluster;
`rr` the graph context that a sequencer issued a word of last (R135) and `disp` the section that its dispatcher placed a record
of last (R150), by cluster. -/
structure SeqS where
  units : Tbl SUnit
  uhands : Tbl (BitVec 256)
  uhpend : Tbl Nat
  graphs : Tbl Graph
  sections : Tbl Section
  installs : Tbl Install
  sheps : Tbl Shep
  heldTraps : List (Nat × Cause × Actor × Bool)
  avg : Tbl (List Move)
  cycle : Nat
  rr : Tbl Nat
  disp : Tbl Nat
  deriving DecidableEq, Repr

/-- The binding of a tile (R269): loader, CTX, channel key of the PE side, request to answer, and
the tokens waiting at a storer's in0; `code` is the program, which the tile read as it started (none for a word that could not be read); `ending` is the cause of a halt
that waits for loads of the tile. -/
structure TileB where
  loader : Bool
  ctx : Nat
  chan : Nat
  req : Nat
  code : List (Option W64)
  inq : List Token
  ending : Option Nat
  deriving DecidableEq, Repr

/-- A plinth node (R271, R272): configuration, constant, words of the record being assembled, kept words,
running reduction (result, count, started). -/
structure Node where
  cfg : Nat
  const : Nat
  words : List Nat
  kept : List Nat
  acc : Nat
  cnt : Nat
  deriving DecidableEq, Repr

/-- The state of a tile whose pasture is pre-empted (R423): its unit, its binding and, of a plinth tile, its node (R425). -/
structure TileImg where
  unit : SUnit
  bind : TileB
  node : Option Node
  deriving DecidableEq, Repr

/-- The instructions on one pasture that Bruosh serves one at a time, in arrival order (R428). -/
inductive SysOp where
  | preempt (p : Nat)
  | resume (p : Nat) (swap : Option Nat)
  | csave (p : Nat)
  | cload (p : Nat)
  | halt (p : Nat)
  | gtbl (p va : Nat)
  | flogCfg (p ring : Nat)
  deriving DecidableEq, Repr

/-- What a request asks of a memory interface or an engine. -/
inductive ReqOp where
  | load (pl : Place) (n : Nat) (nt : Bool)
  | store (pl : Place) (n data : Nat)
  | hget (owner h k : Nat)
  | hset (owner h k : Nat) (v : W64)
  | wfree (owner h win : Nat)
  | pft (desc obj : Nat)
  | snap (owner h page ver : Nat)
  | append (page n data : Nat)
  | publ (page ver : Nat) (rst : Bool)
  | fence (kind : FenceK) (waits : Option (List Nat))
  | amo (op : AmoOp) (ea b : Nat) (fetch : Bool)
  | cas (ea n old new : Nat)
  | waita (ea n : Nat) (cond : WCond) (b : Nat)
  | mon (ea : Nat)
  | mwait
  | arrive (ea n : Nat)
  | waitc (ea tgt : Nat) (sub : Bool)
  | bar (g : Nat)
  | futw (ea v : Nat)
  | futr (ea : Nat)
  | copy (kind vec bw desc owner hdN hsN : Nat) (hd hs : BitVec 256) (judged : Bool)
  | ticket (copy : Nat)
  | ag (loader : Bool) (addr bind : Nat) (saved : Option TileImg)
  | plset (cfg c : Nat)
  | bopen (wr : Bool) (addr sp : Nat)
  | bclose (addr : Nat)
  | cflush (inv : Bool) (addr len : Nat) (waits : Option (List Nat))
  | tile
  | mode (core : Nat) (on : Bool)
  | arrayCmd (core : Nat)
  | iwalk (hv : BitVec 256) (h p0 cnt maj e : Nat)
  | spmx (hv x : BitVec 256) (h m0 cm maj e : Nat)
  | exq (q : Nat) (t : Token)
  | exdq (q n : Nat)
  | eval
  | rdef (va : Nat)
  | rback (seeds : List (Nat × Nat × Nat)) (acc : Bool)
  | fold (stage : Bool) (id waves : Nat)
  | stage (fam : Nat)
  | kroute (fam key : Nat) (rcd : Val)
  | lease (peer n : Nat) (plane : Option Nat) (src : Nat)
  | lrel (peer : Nat) (planes : List Nat)
  | mcstq (sa g : Nat)
  | mcst (sa g off seq : Nat) (line : List Byte) (mask : Nat) (answers : List (Nat × Nat))
  | ramo (op : RamoOp) (ea b c : Nat)
  | pgmig (va key peer : Nat)
  | keyi (lane va : Nat)
  | seqw (entry gen : Nat)
  | event (p vec val : Nat)
  | tlbi (waits : List Nat)
  | sys (op : SysOp)
  | part (core entry word : Nat)
  | install
  deriving DecidableEq, Repr

/-- A request in flight. `who` is the issuer, `act` its activation number, `sect` the model number of its section,
`scope`, `acq`, `rel` its order; `hwait` names a pending SNAP or WBIND; `pend` marks a condition registered in
Pending (R65); `granted` is the copy slot and generation, or an engine's own mark; `xlat` holds the translation
obtained by a walk (R198); `done` marks an access that has been performed; `res` holds the result tokens. -/
structure Req where
  id : Nat
  who : Actor
  act : Nat
  sect : Nat
  past : Nat
  dst : Dst
  op : ReqOp
  scope : Nat
  acq : Bool
  rel : Bool
  pos : Option ChainPos
  hwait : Option Nat
  pend : Bool
  granted : Option (Nat × Nat)
  xlat : Option (Nat × Nat)
  done : Bool
  res : Option (List Token)
  deriving DecidableEq, Repr

/-- A gather window (R218). -/
structure Window where
  closed : Bool
  we : Bool
  ix : BitVec 256
  src : BitVec 256
  scope : Nat
  deriving DecidableEq, Repr

/-- An append record (R214, R224): TAIL, eight slots of (VERSION, FRONTIER), and the pasture that created it. -/
structure AppRec where
  past : Nat
  tail : Nat
  slots : Tbl (Nat × Nat)
  deriving DecidableEq, Repr

/-- A TLB entry (R195): ASID, virtual page base, page size in bytes and the leaf entry. -/
structure TlbE where
  asid : Nat
  base : Nat
  size : Nat
  pte : Nat
  deriving DecidableEq, Repr

/-- An open-row reservation (R275, R276): bank and pseudo-channel are those of the row; `past` and `act` are the pasture and
the activation that made it. -/
structure OpenRow where
  row : Nat
  holder : Actor
  forced : Bool
  past : Nat
  act : Nat
  deriving DecidableEq, Repr

/-- Memory and its interfaces. `hbm` by physical address; `spad` core x 2^19 + offset; `badHbm` and `badSpad` the
poisoned 64-byte units; `tlb` core, or 1000 + cluster; `windows` pasture x 16 + window; `apps` physical page
number; `moves` page access counters (R197); `wq` queued writes and `drain`
the drain mode of a pseudo-channel; `rowAct` row activation counters;
`cached` kept lines of cached-peer pages, by peer x 2^40 + line number; `dirty` dirty lines; `torn` the bytes that a misaligned
access has performed (a mask) and, of a load, read (R200), by request; `alerts` the rows whose activation counter is at threshold
(R280). -/
structure MemS where
  hbm : List Host.Cell
  spad : List Host.Cell
  badHbm : List Nat
  badSpad : List Nat
  reqs : List Req
  park : List (Nat × Actor × Dst × Token)
  tlb : Tbl (List TlbE)
  windows : Tbl Window
  apps : Tbl AppRec
  moves : Tbl Nat
  rows : List OpenRow
  forced : List (Nat × Actor)
  wq : Tbl Nat
  drain : List Nat
  degraded : List Nat
  rowAct : Tbl Nat
  cached : Tbl (List Byte)
  dirty : List Nat
  bruoshLog : List (Nat × Nat)
  outbox : List (Nat × Nat)
  torn : Tbl (Nat × Nat)
  alerts : List Nat
  deriving DecidableEq, Repr

/-- A group table entry (R29, R30). `members` and `arrived` are contexts, core x 8 + context. -/
structure Group where
  members : List Nat
  arrived : List Nat
  phase : Nat
  wclass : Nat
  deriving DecidableEq, Repr

/-- A monitor (R233). -/
structure Monitor where
  line : Nat
  fired : Bool
  rearmed : Bool
  deriving DecidableEq, Repr

/-- Synchronisation state. `groups` pasture x 256 + group; `cas` context code x 4 + the engine's die, the failure count and its word;
`resv` word, the reserved context's code; `mons` context code; `bad` poisoned lines and the bytes still to be
written; `touched` the bytes that fault records and spill rings have written and whose waiters and monitors are still to be
served (R232, R233; the model's own). Context codes: a PE context is core x 8 + context, an S-form context
is 8,192 + unit. -/
structure SyncS where
  groups : Tbl Group
  cas : Tbl (Nat × Nat)
  resv : Tbl Nat
  mons : Tbl Monitor
  bad : Tbl (List Nat)
  touched : List Nat
  deriving DecidableEq, Repr

/-- A copy slot (R266). -/
structure CopySlot where
  gen : Nat
  busy : Bool
  failed : Nat
  bytes : Nat
  deriving DecidableEq, Repr

/-- Copy engines, tiles and nodes. `slots` core x 128 + slot; `tiles` unit number; `nodes` stack x 8 + node;
`held` the first access that a coalescing unit holds, plus 1; `merged` the first access of the merged request that an access
belongs to (R270); `issued` the copies in the order in which they were issued (R265), and `moved` those whose bytes have moved while
records of failed units wait to be written (R422). -/
structure CopyS where
  slots : Tbl CopySlot
  tiles : Tbl TileB
  nodes : Tbl Node
  held : Tbl Nat
  merged : Tbl Nat
  issued : List Nat
  moved : List Nat
  deriving DecidableEq, Repr

/-- A command of the matrix array (R284), with its operands and its result's destination as a request. -/
inductive ArrOp where
  | wld (fmt : FFmt) (a b : Nat)
  | wbuf (a b : Nat)
  | fmt (fmt : FFmt) (os : Bool) (a b : Nat)
  | run (a b : Nat)
  | acc (n : Nat) (sat clr : Bool)
  | drn (fmt : FFmt) (rnd : Rnd) (sat ch : Bool) (a b : Nat)
  | st (clr : Bool) (bank : Nat)
  | wait
  deriving DecidableEq, Repr

structure ArrCmd where
  op : ArrOp
  req : Nat
  who : Actor
  deriving DecidableEq, Repr

/-- A drain in progress (R300): tokens still to send and the target input. -/
structure Drain where
  toks : List Token
  dst : Nat
  req : Nat
  res : Nat
  deriving DecidableEq, Repr

/-- The progress of the MXRUN at the head of a queue (R296, R307): rows of its chunks already taken, the flags that it raised and
whether it marked a row. -/
structure RunProg where
  rows : Nat
  fl : Nat
  marked : Bool
  deriving DecidableEq, Repr

/-- The array state that is read out with an image (R282, R307). -/
structure ArrQ where
  queue : List ArrCmd
  drain : Option Drain
  first : Nat
  count : Nat
  wfmt : FFmt
  outerW : Nat
  seqOn : Bool
  afmt : FFmt
  os : Bool
  sbase : Nat
  rstride : Nat
  sstride : Nat
  actOn : Bool
  bank : Nat
  satm : Nat
  prog : Option RunProg
  deriving DecidableEq, Repr

/-- A tile register (R282): the bytes of its tile, its format and OuterW. -/
structure TileReg where
  tile : List Byte
  fmt : FFmt
  outerW : Nat
  deriving DecidableEq, Repr

/-- The held state of an array (R307): weight buffer by entry (the bytes of the tile image), tile
registers (active and standby), accumulators by bank x 2048 + row x 32 + column, row poison by bank x 64 + row,
accumulator status words by bank. -/
structure ArrH where
  wbuf : Tbl (List Byte)
  active : Option TileReg
  standby : Option TileReg
  acc : Tbl (BitVec 32)
  rowp : Tbl W128
  stat : Tbl (BitVec 32)
  deriving DecidableEq, Repr

/-- Matrix arrays. `mode` cores in systolic mode; `q` core; `h` core, with `owner` the pasture whose held state is
in the core; `saved` pasture x 1024 + core. -/
structure MatS where
  mode : List Nat
  q : Tbl ArrQ
  h : Tbl ArrH
  owner : Tbl Nat
  saved : Tbl ArrH
  deriving DecidableEq, Repr

/-- An expert queue (R320, R321). Entries carry FLAG and SCALED in their token; `twinOf` and `cut` serve a cast of
the queue (R373); `ringh` is the place in the ring that the next token takes; `waits` the requests that have arrived and wait for
room or for entries, in arrival order (R320, R325). -/
structure ExpQ where
  asid : Nat
  thr : Nat
  tmr : Nat
  ring : Nat
  ringn : Nat
  entries : List Token
  ringq : List Token
  released : Nat
  twinOf : Option Nat
  cut : Nat
  ringh : Nat
  waits : List Nat
  deriving DecidableEq, Repr

structure SelS where
  queues : Tbl ExpQ
  deriving DecidableEq, Repr

/-- A relation definition (R328) with DROPPED (R354). `placed` holds the keys under which the port stored each tuple, by
tuple id (R330). -/
structure Rel where
  arity : Nat
  keycol : Nat
  alg : Nat
  stratum : Nat
  lslots : Nat
  spbase : Nat
  spslots : Nat
  ovbase : Nat
  gbase : Nat
  homes : List Nat
  desc : Nat
  dropped : Nat
  derived : Bool
  placed : Tbl W128
  deriving DecidableEq, Repr

/-- Marks of a stratum (R334). -/
structure Strat where
  folded : Bool
  added : Bool
  droppedRule : Bool
  deriving DecidableEq, Repr

/-- A candidate tuple (R336, R337), with the port (a core) that formed it. -/
structure Cand where
  rel : Nat
  keys : W128
  weight : BitVec 32
  gen : Nat
  witness : W64
  src : Nat
  deriving DecidableEq, Repr

/-- An evaluation in progress (R334-R341). `present` and `events` name tuple versions as (relation, id, record); `user` holds the
candidates that an output channel (by its key) is to return and `back` the tokens that it has returned; `fresh` is how many events at
the front of `events` are the initial delta's, which has no order; `waveOk` and `waveTot` describe the previous wave. -/
structure Eval where
  last : Nat
  stratum : Nat
  rederived : Bool
  lost : List Nat
  present : List (Nat × Nat × Nat)
  events : List (Nat × Nat × Nat)
  fresh : Nat
  cands : List Cand
  user : Tbl (List Cand)
  back : Tbl (List Token)
  sent : Nat
  recv : Nat
  waveOk : Bool
  waveTot : Nat × Nat
  rounds : Nat
  full : Bool
  draining : Bool
  req : Nat
  deriving DecidableEq, Repr

/-- Relations. `rels` pasture x 256 + relation; `rules` pasture x 256 + rule id (the plan's eight words); `strata`
pasture x 64 + stratum; `evals` pasture. -/
structure RuleS where
  rels : Tbl Rel
  rules : Tbl (List W64)
  strata : Tbl Strat
  evals : Tbl Eval
  deriving DecidableEq, Repr

/-- A step of a stage family (R366, R370, R371). -/
inductive StepKind where
  | cast | merge | close
  deriving DecidableEq, Repr

/-- The progress of a step: waiting for idle, routine running, redirecting, ending the twin. -/
inductive StepPh where
  | prepare | routine | redirect | ending
  deriving DecidableEq, Repr

structure FamStep where
  kind : StepKind
  ph : StepPh
  entry : Nat
  other : Nat
  mid : Nat
  req : Nat
  acks : List Nat
  waves : Nat
  deriving DecidableEq, Repr

/-- An entry of a key-range table (R361): lowest hash and holder core (or queue). -/
structure KrtE where
  lo : Nat
  core : Nat
  split : Bool
  hold : Bool
  deriving DecidableEq, Repr

/-- A record routed to a holder (R362): key, value with side bits. -/
structure Routed where
  key : Nat
  val : Val
  deriving DecidableEq, Repr

/-- A stage family (R358, R359). `desc` holds the descriptor's eight words and then the candidate cores; `copies` are the
senders' table copies (version, entries) by core, or 1,000 + unit; `buf` the cast buffers of the holders by core; `sent`
counts KROUTEs and `wave` holds the totals SENT and RECV of the previous fold wave (R374); `hot` and `cool` count
consecutive samples by holder. -/
structure Fam where
  desc : List W64
  entries : List KrtE
  version : Nat
  step : Option FamStep
  buf : Tbl (List Routed)
  copies : Tbl (Nat × List KrtE)
  sent : Nat
  wave : Option (Nat × Nat)
  hot : Tbl Nat
  cool : Tbl Nat
  casts : Nat
  merges : Nat
  lastFail : Nat
  deriving DecidableEq, Repr

structure StageS where
  fams : Tbl Fam
  deriving DecidableEq, Repr

/-- A lit lane (R385-R390, R399, R400): holder pasture or none for a default lane, revocation notice, flit counter,
key phase, KEY_LOW, KEY_HOLD, key; `moved` once the requests of a gate lane whose key has expired ride the others. `nonce` is that
of the last flit sent (R399), and `came` the flits received whose request has not been served yet (R39). -/
structure Lane where
  holder : Option Nat
  notice : Bool
  ctr : Nat
  phase : Bool
  low : Bool
  hold : Bool
  key : BitVec 256
  newKey : Option (BitVec 256)
  revoking : Option Nat
  moved : Bool
  nonce : BitVec 96
  came : Nat
  deriving DecidableEq, Repr

/-- An inbound multicast mapping (R395). -/
structure Inbound where
  base : Nat
  len : Nat
  group : Nat
  src : Nat
  valid : Bool
  past : Nat
  deriving DecidableEq, Repr

/-- A lease request of another package in the queue of this receiver (R389): how many lanes, or the one plane of an LMOVE;
`waited` while it waits for a receive lane to free. -/
structure LeaseQ where
  src : Nat
  n : Nat
  plane : Option Nat
  prio : Bool
  waited : Bool
  deriving DecidableEq, Repr

/-- Fabric state. `slots` (router x 256 + slot index) x 8 + output port, the input port; `newSlots` written entries
that wait for slot index 0; `slotOwn` the pastures whose slot entries these are (key x 2 in effect, key x 2 + 1 waiting);
`circuits`; `transit` tokens on their way; `tx` and `rx` lanes by peer x 8 + plane, with
512 + g for gate port g; `denied` and `prio` by peer; `leases` the queue of
this receiver; `groups` mask and counter; `inbound` slot; `latest` the latest
MCST per group: sequence, mask, answers; `failed` pasture x 512 + peer; `resent` how often a discarded flit of a request has been
sent again, by request (R399). -/
structure FabS where
  slots : Tbl Nat
  newSlots : List (Nat × Option Nat)
  slotOwn : Tbl (List Nat)
  circuits : List Circuit
  transit : List Transit
  tx : Tbl Lane
  rx : Tbl Lane
  denied : Tbl Nat
  prio : List Nat
  leases : List LeaseQ
  groups : Tbl (Nat × Nat)
  inbound : Tbl Inbound
  latest : Tbl (Nat × Nat × List (Nat × Nat))
  failed : List Nat
  resent : Tbl Nat
  deriving DecidableEq, Repr

/-- A fault-log ring (R421); `filled` once it has been full, `bad` once one of its pages has failed (R422). -/
structure LogRing where
  base : Nat
  sz : Nat
  head : Nat
  tail : Nat
  filled : Bool
  bad : Bool
  deriving DecidableEq, Repr

/-- A fault record (R421), without SEQ and CYCLE, which the write adds. -/
structure FRec where
  origin : W128
  phys : Bool
  addr : Nat
  kind : Nat
  cause : Nat
  item : Nat
  data : W128
  deriving DecidableEq, Repr

/-- The state of a pasture (R414). -/
inductive PState where
  | free | ready | live | shadowed | saved | halted
  deriving DecidableEq, Repr

/-- The image of a pasture (R424, R425): its part of the PE array and of the arrays' queues and modes, its circuits, the
tokens that its loaders and drains have not sent yet, its graph contexts with their handles (R158), and its monitors
(R234). The state of its tiles stands in their requests. What its memory interfaces, index engines, copy engines and relation ports still hold of it stays in `reqs`, `rules` and
`fams` under its number and goes on only when it is live again (R341, R376, R423). -/
structure Image where
  pe : PeS
  arrq : Tbl ArrQ
  unsent : List Transit
  circuits : List Circuit
  mode : List Nat
  units : Tbl SUnit
  uhands : Tbl (BitVec 256)
  uhpend : Tbl Nat
  mons : Tbl Monitor
  deriving DecidableEq, Repr

/-- A pasture's registers (R414), PSTATUS (R442), fault log, home cluster and root graph (R138), image. `heldRecs` are records
that wait in their unit, with the CYCLE of the fault (R422). `gate` names the request of the PREEMPT or HALT that stopped the
clock, and `flight` the requests that were in flight then, which go on (R423). `ctxsave` is what CSAVE wrote into the context
area, or PREEMPT into its last part: base, length and the free counter of its bytes (R423, R432). `ending` is the CAUSE of a root
graph that is complete, with the requests (those below a number) whose accesses DONE still waits for (R442). -/
structure Pasture where
  asid : Nat
  st : PState
  xroot : Nat
  fto : Nat
  quota : W64
  pcap : Nat
  ctxbase : Nat
  asave : Nat
  cset : Nat
  pcause : Nat
  doneF : Bool
  haltedF : Bool
  badF : Bool
  busyF : Bool
  home : Nat
  root : Nat
  log : Option LogRing
  heldRecs : List (FRec × Actor × Nat)
  gate : Option Nat
  image : Option Image
  ending : Option (Nat × Nat)
  flight : List Nat
  ctxsave : Nat × Nat × Nat
  deriving DecidableEq, Repr

/-- A range table entry (R436). -/
structure PartRange where
  past : Nat
  len : Nat
  base : Nat
  deriving DecidableEq, Repr

/-- System state: pastures by number; `ranges` core x 8 + entry; `owners` the pasture that last owned a 256-byte unit of
a scratchpad, by core x 2,048 + unit; `coreOwner` the pasture whose state a core's PEs hold. -/
structure SysS where
  past : Tbl Pasture
  ranges : Tbl PartRange
  owners : Tbl Nat
  coreOwner : Tbl Nat
  deriving DecidableEq, Repr

/-- An event slot (R443). -/
structure EvSlot where
  value : W64
  pend : Bool
  count : Nat
  deriving DecidableEq, Repr

/-- The answer to the host's last read of BAR2 (R440): data, or an Unsupported Request. -/
inductive BarReply where
  | quiet
  | data (n v : Nat)
  | unsupported
  deriving DecidableEq, Repr

/-- Host link and start-up: `slots` pasture x 64 + vector; `msix` the messages sent, oldest first;
`fwstage` the staging buffer; `fwBase`, `fwSize`, `fwData` the firmware region; `digest` the latched digest and `coldDigest`
that of the last cold start; `phase`, `busy`, `result`, `count`,
`warmed` of STARTST; `startWarm`, `startScrub`, `startHostfw` the bits of the start in progress; `powst` the power state last
reported (R450); `bar2` the answer to the last read of BAR2. -/
structure HostS where
  peer : Nat
  revision : Nat
  slots : Tbl EvSlot
  msix : List Nat
  fwstage : List Host.Cell
  fwBase : Nat
  fwSize : Nat
  fwData : Nat
  fwEntry : Nat
  fwTvec : Nat
  digest : BitVec 512
  coldDigest : BitVec 512
  phase : Nat
  busy : Bool
  result : Nat
  count : Nat
  warmed : Bool
  startWarm : Bool
  startScrub : Bool
  startHostfw : Bool
  ports : Nat
  pcieRate : Nat
  powst : Nat
  bar2 : BarReply
  deriving DecidableEq, Repr

/-- Everything but the order of turns and the power registers. `cur` and `ctl` belong to the model: the unit
that executes and its next-address outcome (log 1). `hold` keeps the handles and pending handles as a dual issue
found them, for its second pair (R206). `ids` names requests, graphs and sections; `free` is the counter
that free values are drawn with (log 9). -/
structure Mach where
  pe : PeS
  seq : SeqS
  mem : MemS
  sync : SyncS
  copy : CopyS
  mat : MatS
  sel : SelS
  rule : RuleS
  stage : StageS
  fab : FabS
  sys : SysS
  host : HostS
  cur : Actor
  ctl : Ctl
  hold : Option (Tbl (BitVec 256) × Tbl Nat)
  ids : Nat
  free : Nat
  deriving DecidableEq, Repr

/-- A turn of the agenda (log 1): one cycle of a PE, one word of an S-form unit, or an event. -/
inductive Turn where
  | pe (core pe : Nat)
  | unit (u : Nat)
  | event (i : Instr)
  deriving DecidableEq, Repr

/-- A pair that a PE cycle selected and that is still to fire (R32, R33). -/
structure Sel where
  core : Nat
  pe : Nat
  slot : Nat
  bank : Nat
  deriving DecidableEq, Repr

/-- The order of turns: the model's own plain data (log 1). -/
structure Sched where
  agenda : List Turn
  firing : List Sel
  deriving DecidableEq, Repr

/-- A leaky bucket of an ingress port (R39). -/
structure Bucket where
  depth : Nat
  rate : Nat
  level : Nat
  newRate : Nat
  deriving DecidableEq, Repr

/-- Power (R39, R40, R450): buckets by port, CAP, thermal limit, averaged power, CAPPED mark; `paid` the flits of a request (by its
number) that have entered the fabric already. -/
structure PowerS where
  buckets : Tbl Bucket
  cap : Nat
  thermal : Nat
  power : Nat
  capped : Bool
  paid : Tbl Nat
  deriving DecidableEq, Repr

/-- The state of the machine. -/
structure State where
  m : Mach
  sched : Sched
  pow : PowerS
  deriving DecidableEq, Repr

def Val.none : Val := ⟨0, false, false⟩

def Chan.reset : Chan := ⟨0, [], [], 0, 0, 0, 0, .none, [], []⟩
def SUnit.reset : SUnit := ⟨[], 0, [], [], 0, 0, .idle, 0, 0, [], 0, 0⟩
def Shep.reset : Shep := ⟨0, 0, 0, 0, 0, 0, 0, 0, 0, 0, []⟩
def Group.reset : Group := ⟨[], [], 0, 0⟩
def CopySlot.reset : CopySlot := ⟨0, false, 0, 0⟩
def Node.reset : Node := ⟨0, 0, [], [], 0, 0⟩
def ArrQ.reset : ArrQ :=
  ⟨[], .none, 0, 0, .f32, 0, false, .f32, false, 0, 0, 0, false, 0, 0, .none⟩
def ArrH.reset : ArrH := ⟨[], .none, .none, [], [], []⟩
def ExpQ.reset : ExpQ := ⟨0, 0, 0, 0, 0, [], [], 0, .none, 0, 0, []⟩
def Strat.reset : Strat := ⟨false, false, false⟩
def EvSlot.reset : EvSlot := ⟨0, false, 0⟩
def AppRec.reset : AppRec := ⟨0, 0, []⟩
/-- The PE array at reset and as a launch leaves it; the bank rotation pointers start at 0, which the manual does not state (R32;
log 2). -/
def PeS.reset : PeS := ⟨[], [], [], [], [], [], [], [], [], [], [], [], [], [], [], []⟩

/-- The registers of a pasture at reset (R414): FREE, FTO 10 steps, PCAP 3, the rest 0. -/
def Pasture.reset : Pasture :=
  ⟨0, .free, 0, 10, 0, 3, 0, 0, 0, 0, false, false, false, false, 0, 0, .none, [], .none, .none, .none, [], (0, 0, 0)⟩

/-- DEPTH and RATE before Bruosh first writes them are not given by the manual: 1 and 1 (log 14, DESIGN CHOICE). -/
def Bucket.reset : Bucket := ⟨1, 1, 0, 1⟩

/-- The machine at power-on, before any start: held, every pasture FREE, memory listing nothing
(R414, R444, R450; log 2 to 5 for the values that the manual does not give). -/
def State.reset : State where
  m := {
    pe := PeS.reset
    seq := ⟨[], [], [], [], [], [], [], [], [], 0, [], []⟩
    mem := ⟨[], [], [], [], [], [], [], [], [], [], [], [], [], [], [], [], [], [], [], [], [], []⟩
    sync := ⟨[], [], [], [], [], []⟩
    copy := ⟨[], [], [], [], [], [], []⟩
    mat := ⟨[], [], [], [], []⟩
    sel := ⟨[]⟩
    rule := ⟨[], [], [], []⟩
    stage := ⟨[]⟩
    fab := ⟨[], [], [], [], [], [], [], [], [], [], [], [], [], [], []⟩
    sys := ⟨[], [], [], []⟩
    host := ⟨0, 0, [], [], [], 0, 0, 0, 0, 0, 0, 0, 0, false, 0, 0, false, false, false, false, 0, 6, 0, .quiet⟩
    cur := .idle
    ctl := .seq
    hold := .none
    ids := 0
    free := 0
  }
  sched := ⟨[], []⟩
  pow := ⟨[], 2500, 2500, 0, false, []⟩

end Sys2Proof.Machine
end

