-- ==== Sys2Proof/Machine/Ops.lean ====
section
/-! DEFINITION. Named operations over registers, channels, memory, traps, the fault log and activations: the helpers of
R88 and the sequences that several instructions and events share. -/
namespace Sys2Proof.Machine

/-! ## Memory -/

/-- What a byte of memory that nothing has written reads as: HBM is zeroed by step 5 of a cold start (R445);
before it, and in a scratchpad, the manual gives no value and the model reads 0 (log 3, log 4, DESIGN CHOICE). -/
def Memory.unlisted : Byte := 0

/-- The canonical form: addresses rising and no entry equal to what an unlisted address reads as. -/
def Memory.wf (t : List Host.Cell) : Bool := twf t && t.all (fun e => e.2 != Memory.unlisted)

def memGet (t : List Host.Cell) (a : Nat) : Byte := tget Memory.unlisted a t
def memPut (t : List Host.Cell) (a : Nat) (v : Byte) : List Host.Cell := tput Memory.unlisted a v t

/-- `n` bytes from `a`, little-endian (R3). -/
def memRead (t : List Host.Cell) (a : Nat) : Nat → Nat
  | 0 => 0
  | n + 1 => (memGet t a).toNat + 256 * memRead t (a + 1) n

/-- Writes the low `n` bytes of `v` at `a`, little-endian (R3). -/
def memWrite (t : List Host.Cell) (a : Nat) : Nat → Nat → List Host.Cell
  | 0, _ => t
  | n + 1, v => memWrite (memPut t a (BitVec.ofNat 8 v)) (a + 1) n (v / 256)

/-- Writes a list of bytes at `a`. -/
def memBytes (t : List Host.Cell) (a : Nat) : List Byte → List Host.Cell
  | [] => t
  | b :: bs => memBytes (memPut t a b) (a + 1) bs

def bytesOf (v : Nat) : Nat → List Byte
  | 0 => []
  | n + 1 => BitVec.ofNat 8 v :: bytesOf (v / 256) n

def natOf : List Byte → Nat
  | [] => 0
  | b :: bs => b.toNat + 256 * natOf bs

/-! ## Keys -/

def ctxKey (core frame bank : Nat) : Nat := core * 8 + frame * 4 + bank
def chanKey (core pe ch : Nat) : Nat := (core * 16 + pe) * 8 + ch
def regKey (core pe ctx code : Nat) : Nat := ((core * 16 + pe) * 8 + ctx) * 64 + code
def predKey (core pe ctx : Nat) : Nat := (core * 16 + pe) * 8 + ctx
def frameKey (core frame : Nat) : Nat := core * 2 + frame
def fireKey (core ctx pe slot : Nat) : Nat := ((core * 8 + ctx) * 16 + pe) * 8 + slot
def clusterOf (core : Nat) : Nat := core / 48

/-- The cluster whose shepherd core serves a unit (R135, R413); hub units go to the pasture's home. -/
def unitCluster (u home : Nat) : Nat :=
  if u < 128 then u / 8 else if u < 144 then u - 128 else if u < 272 then (u - 144) / 8
  else home

def isShepherd (u : Nat) : Bool := 128 ≤ u && u < 144
def isGraph (u : Nat) : Bool := u < 128
def isTile (u : Nat) : Bool := 144 ≤ u && u < 336

/-! ## Pastures -/

def pastOf (m : Mach) (p : Nat) : Pasture := tget Pasture.reset p m.sys.past
def setPast (m : Mach) (p : Nat) (x : Pasture) : Mach :=
  { m with sys.past := tput Pasture.reset p x m.sys.past }

/-- The core set is a 768-bit mask (R416). -/
def coreIn (m : Mach) (p core : Nat) : Bool := core < 768 && bitAt (pastOf m p).cset core

/-- A pasture whose clock runs: LIVE and not being read out (R423). -/
def running (m : Mach) (p : Nat) : Bool :=
  let P := pastOf m p
  P.st == .live && P.gate.isNone

/-- A pasture is live and has the core in its set. -/
def liveOn (m : Mach) (core p : Nat) : Bool := (pastOf m p).st == .live && coreIn m p core
/-- The pasture that is live on a core (R27): the one whose state the core's PEs hold comes first. -/
def livePast (m : Mach) (core : Nat) : Option Nat :=
  match tfind core m.sys.coreOwner with
  | some p => if liveOn m core p then some p else (upto 16).find? (liveOn m core)
  | none => (upto 16).find? (liveOn m core)

def coresOf (m : Mach) (p : Nat) : List Nat := (upto 768).filter (coreIn m p)

def unitOf (m : Mach) (u : Nat) : SUnit := tget SUnit.reset u m.seq.units
def setUnit (m : Mach) (u : Nat) (x : SUnit) : Mach :=
  { m with seq.units := tput SUnit.reset u x m.seq.units }

/-- The pasture on whose behalf an actor works; the shepherd core works for the pasture of its trap. -/
def pastOfActor (m : Mach) : Actor → Nat
  | .idle => 0
  | .pe core .. => (livePast m core).getD 0
  | .unit u _ =>
    if isShepherd u then bits (tget Shep.reset (u - 128) m.seq.sheps).status.toNat 12 4
    else (unitOf m u).past

/-- The address space of an actor's operands: 0xFFF for the shepherd core (R412). -/
def asidOfActor (m : Mach) : Actor → Nat
  | .unit u w => if isShepherd u then 0xFFF else (pastOf m (pastOfActor m (.unit u w))).asid
  | a => (pastOf m (pastOfActor m a)).asid

/-- The activation number that an actor's context reads as `act` (R21). -/
def actOf (m : Mach) : Actor → Nat
  | .pe core _ frame _ bank _ =>
    match tfind (ctxKey core frame bank) m.pe.binds with
    | some b => b.act
    | none => 0
  | _ => 0

/-- The section's or graph's model number that an actor works for; 2^64 for work that no ticket awaits. -/
def sectOf (m : Mach) : Actor → Nat
  | .pe core _ frame _ bank _ =>
    match tfind (ctxKey core frame bank) m.pe.binds with
    | some b => (match b.kind with | .record s => s | _ => 2 ^ 64)
    | none => 2 ^ 64
  | .unit u _ => if isShepherd u then 2 ^ 64 else (unitOf m u).graph
  | .idle => 2 ^ 64

/-! ## Frames: fields of an installed image (R80-R83), read from its 64-bit words -/

def imgWord (img : List W64) (i : Nat) : Nat := ((img[i]?).getD 0).toNat
def imgInstr (img : List W64) (pe slot : Nat) : Nat := imgWord img (8 + 8 * pe + slot)
/-- The 16-bit slot control word of R82. -/
def imgCtl (img : List W64) (pe slot : Nat) : Nat :=
  bits (imgWord img (136 + 2 * pe + slot / 4)) (16 * (slot % 4)) 16
def imgConf (img : List W64) (pe row : Nat) : Nat := bits (imgWord img (168 + pe)) (8 * row) 8
def imgBind (img : List W64) (pe ch : Nat) : Nat := imgWord img (184 + 8 * pe + ch)
def imgByte (img : List W64) (off : Nat) : Nat := bits (imgWord img (off / 8)) (8 * (off % 8)) 8
def imgAtomic (img : List W64) : Bool := bitAt (imgWord img 0) 25
def imgMovable (img : List W64) : Bool := bitAt (imgWord img 0) 26
def imgFrame (img : List W64) : Nat := bits (imgWord img 0) 24 1
def ctlV (c : Nat) : Bool := bitAt c 9
def ctlO (c : Nat) : Bool := bitAt c 8
def ctlChain (c : Nat) : Nat := bits c 5 2
def ctlSeq (c : Nat) : Nat := bits c 0 5
def ctlBank (c : Nat) : Nat := bits c 10 2

def frameImg (m : Mach) (core frame : Nat) : List W64 := tget [] (frameKey core frame) m.pe.frames

/-- A participating PE holds at least one instruction of the block (R21). -/
def participates (img : List W64) (pe : Nat) : Bool := (upto 8).any (fun j => ctlV (imgCtl img pe j))

/-! ## PE registers (R71, R119) -/

def peReg (m : Mach) (core pe ctx code : Nat) : Val := tget Val.none (regKey core pe ctx code) m.pe.regs
def setPeReg (m : Mach) (core pe ctx code : Nat) (v : Val) : Mach :=
  { m with pe.regs := tput Val.none (regKey core pe ctx code) v m.pe.regs }
def pePred (m : Mach) (core pe ctx : Nat) : Nat := (tget 0 (predKey core pe ctx) m.pe.preds).toNat
def setPePred (m : Mach) (core pe ctx v : Nat) : Mach :=
  { m with pe.preds := tput 0 (predKey core pe ctx) (BitVec.ofNat 8 v) m.pe.preds }

/-- Zeroes the registers, side bits and predicates of a context (R20, R119). -/
def zeroBank (m : Mach) (core ctx : Nat) : Mach :=
  { m with
    pe.regs := tfilter (fun k => !(k / 8192 == core && k / 64 % 8 == ctx)) m.pe.regs
    pe.preds := tfilter (fun k => !(k / 128 == core && k % 8 == ctx)) m.pe.preds }

/-- R100: ORs flags into the arithmetic status word of a context. -/
def stickyPe (m : Mach) (core ctx flags : Nat) : Mach :=
  let k := core * 8 + ctx
  { m with pe.astat := tput 0 k (BitVec.ofNat 64 ((tget 0 k m.pe.astat).toNat ||| flags)) m.pe.astat }

/-! ## S-form registers (R135) -/

def sReg (m : Mach) (u r : Nat) : Nat := (tget 0 r (unitOf m u).s).toNat
def setSReg (m : Mach) (u r v : Nat) : Mach :=
  let x := unitOf m u
  setUnit m u { x with s := tput 0 r (BitVec.ofNat 64 v) x.s }
def setSPred (m : Mach) (u i : Nat) (v : Bool) : Mach :=
  let x := unitOf m u
  setUnit m u { x with p := BitVec.ofNat 8 (setBits x.p.toNat i 1 (if v then 1 else 0)) }

/-- Whether a request or record of pasture `p` belongs to what unit `u` runs now: a graph context or a tile may have gone to
another pasture since (R423). -/
def ofUnit (m : Mach) (u p : Nat) (who : Actor) : Bool :=
  match who with
  | .unit v _ => v == u && (isShepherd u || (unitOf m u).past == p)
  | _ => false

/-! ## Handles (R206, R207). Owner of a PE handle: frame key; of an S-form handle: 2,048 + unit. -/

def handOwner : Actor → Nat
  | .pe core _ frame _ _ _ => frameKey core frame
  | .unit u _ => 2048 + u
  | .idle => 0
def getHand (m : Mach) (owner h : Nat) : BitVec 256 :=
  if owner < 2048 then tget 0 (owner * 16 + h) m.pe.hands else tget 0 ((owner - 2048) * 16 + h) m.seq.uhands
def setHand (m : Mach) (owner h : Nat) (v : BitVec 256) : Mach :=
  if owner < 2048 then { m with pe.hands := tput 0 (owner * 16 + h) v m.pe.hands }
  else { m with seq.uhands := tput 0 ((owner - 2048) * 16 + h) v m.seq.uhands }
def handPend (m : Mach) (owner h : Nat) : Option Nat :=
  if owner < 2048 then tfind (owner * 16 + h) m.pe.hpend else tfind ((owner - 2048) * 16 + h) m.seq.uhpend
def setHandPend (m : Mach) (owner h : Nat) (id : Option Nat) : Mach :=
  match id with
  | some i =>
    if owner < 2048 then { m with pe.hpend := tset (owner * 16 + h) i m.pe.hpend }
    else { m with seq.uhpend := tset ((owner - 2048) * 16 + h) i m.seq.uhpend }
  | none =>
    if owner < 2048 then { m with pe.hpend := tdel (owner * 16 + h) m.pe.hpend }
    else { m with seq.uhpend := tdel ((owner - 2048) * 16 + h) m.seq.uhpend }
/-- Fields of a handle image (R207). -/
def hBase (v : BitVec 256) : Nat := bits v.toNat 0 56
def hEsz (v : BitVec 256) : Nat := bits v.toNat 57 3
def hType (v : BitVec 256) : Nat := bits v.toNat 60 4
def hBound (v : BitVec 256) : Nat := bits v.toNat 64 56
def hLvl (v : BitVec 256) : Nat := bits v.toNat 122 6
def hAux0 (v : BitVec 256) : Nat := bits v.toNat 128 64
def hAux1 (v : BitVec 256) : Nat := bits v.toNat 192 64

/-! ## Poison (R78, R88) -/

/-- The origin record of R78; an S-form origin is the unit form U of R417 in [63:0] (R421). -/
def originOf (m : Mach) (who : Actor) (cause detail : Nat) : Nat :=
  match who with
  | .pe core pe frame slot bank _ =>
    bits detail 0 81 * 2 ^ 47 + bits (actOf m who) 0 16 * 2 ^ 31 + bits cause 0 8 * 2 ^ 20 + bank * 2 ^ 18
      + (8 * frame + slot) * 2 ^ 14 + pe * 2 ^ 10 + core
  | _ => bits detail 0 81 * 2 ^ 47 + bits cause 0 8 * 2 ^ 20

def poison (m : Mach) (who : Actor) (cause detail : Nat) : Val :=
  ⟨BitVec.ofNat 128 (originOf m who cause detail), true, false⟩
def poisonCause (v : Val) : Nat := bits v.pay.toNat 20 8
def poisonDetail (v : Val) : Nat := bits v.pay.toNat 47 81
/-- MERGE raised by `k`, saturating at 7. -/
def bumpMerge (v : Val) (k : Nat) : Val :=
  { v with pay := BitVec.ofNat 128 (setBits v.pay.toNat 28 3 (min 7 (bits v.pay.toNat 28 3 + k))) }
/-- Merge of R88. -/
def mergeVal (x y : Val) : Val := if x.poison then (if y.poison then bumpMerge x 1 else x) else y

/-- The merged poison of the sources, in order (R89). -/
def poisonStep (srcs : List Val) : Option Val :=
  srcs.foldl (fun acc s => if s.poison then some (match acc with | none => s | some v => mergeVal v s) else acc) none

def Val.ofNat (n : Nat) : Val := ⟨BitVec.ofNat 128 n, false, false⟩
def tokOf (v : Val) : Token := ⟨v, false, false, 0⟩
def tokNat (n : Nat) : Token := tokOf (Val.ofNat n)
def tagOf (t : Token) : Nat :=
  (if t.val.poison then 32 else 0) + (if t.flag then 16 else 0) + (if t.eos then 8 else 0)
    + (if t.val.scaled then 4 else 0) + t.ctx % 4

/-! ## Translation (R193-R200) -/

/-- Where an access goes. -/
inductive Loc where
  | hbm (pa : Nat)
  | spad (key : Nat)
  | peer (p pa : Nat) (cached : Bool)
  | host (target pa : Nat)
  | missing (pa : Nat)
  deriving DecidableEq, Repr

/-- How an access uses its page (R199, R222). -/
inductive AccK where
  | rd | wr | app | snap | snapLoad | pft | copyRd | atomR | atomW | ramo | fetch
  deriving DecidableEq, Repr

def AccK.writes : AccK → Bool
  | .wr => true | .app => true | .atomW => true | .ramo => true | _ => false

def pteSize (e : Nat) : Nat := match bits e 7 2 with | 0 => 65536 | 1 => 2097152 | 2 => 1073741824 | _ => 0

/-- A table pointer: V = 1, SIZE 11, ADDR and nothing else (R193). -/
def pteTable (e : Nat) : Bool := e == bits e 12 40 * 4096 + 3 * 128 + 1

/-- A leaf that breaks neither R193 nor R196. -/
def pteLeaf (e : Nat) (level : Nat) : Bool :=
  let size := bits e 7 2
  let mode := bits e 5 2
  let h := bitAt e 9
  bitAt e 0 && bits e 61 3 == 0
    && (level == 0 && size == 0 || level == 1 && size == 1 || level == 2 && size == 2)
    && (bits e 12 40 * 4096) % pteSize e == 0
    && (!h || (mode == 0 && bits e 52 9 ≤ 4))
    && (mode != 2 || !bitAt e 2)
    && (bits e 3 2 != 3 || size == 0)
    && (mode != 0 || h || bits e 12 40 * 4096 < 2 ^ 39)

/-- The DRAM row of a physical address (R274): the SA row within its stack. -/
def rowOf (pa : Nat) : Nat := pa / 256 % 8 * 2 ^ 40 + pa / 8192

def badUnit (m : Mach) (pa : Nat) : Bool :=
  m.mem.badHbm.contains (pa / 64) || m.mem.degraded.contains (Config.rowChannel (rowOf pa))

/-- The walk of R194 below a table: `lv` holds, from the root down, the level, the low VA bit and the
index width. The result is the leaf and its page size, or a cause and detail. An entry beyond 512 GB is XLATE
(log 98). -/
def walkTbl (m : Mach) (va : Nat) : List (Nat × Nat × Nat) → Nat → Except (Nat × Nat) Nat
  | [], _ => .error (0x02, va)
  | (level, lo, w) :: rest, tbl =>
    let pa := tbl + 8 * bits va lo w
    if 2 ^ 39 ≤ pa then .error (0x02, va)
    else if badUnit m pa then .error (0x01, pa / 64 * 64)
    else
      let e := memRead m.mem.hbm pa 8
      if pteTable e && level != 0 then walkTbl m va rest (bits e 12 40 * 4096)
      else if pteLeaf e level then .ok e
      else .error (0x02, va)

def walkLevels : List (Nat × Nat × Nat) := [(4, 48, 8), (3, 39, 9), (2, 30, 9), (1, 21, 9), (0, 16, 5)]

/-- Rounds up to a 64 KB page. -/
def pageUp (n : Nat) : Nat := (n + 65535) / 65536 * 65536

/-- The firmware region's mapping (R446): code read-only at 0x7F00_0000_0000, then the data area at the next 64 KB
page (log 21). The leaf is a local release page. -/
def fwLeaf (m : Mach) (va : Nat) : Except (Nat × Nat) Nat :=
  let off := va - 0x7F0000000000
  let code := pageUp m.host.fwSize
  if va < 0x7F0000000000 then .error (0x02, va)
  else if off < code then .ok ((m.host.fwBase + off / 65536 * 65536) / 4096 * 4096 + 8 + 2 + 1)
  else if off < code + m.host.fwData then .ok ((m.host.fwBase + off / 65536 * 65536) / 4096 * 4096 + 8 + 4 + 2 + 1)
  else .error (0x02, va)

/-- The pasture that owns an address-space identifier. -/
def pastOfAsid (m : Mach) (asid : Nat) : Option Nat :=
  (upto 16).find? (fun p => (pastOf m p).st != .free && (pastOf m p).asid == asid)

/-- The walk of an address space. The firmware's is the shepherd cores' alone: no pasture reaches it, whatever its ASID (R412). -/
def walk (m : Mach) (shep : Bool) (root va : Nat) : Except (Nat × Nat) Nat :=
  if shep then fwLeaf m va else walkTbl m va walkLevels root

/-- The tag of an actor's TLB entries: its ASID, apart from the firmware's for a pasture (R195, R412). -/
def tlbTag (shep : Bool) (asid : Nat) : Nat := if shep then 0xFFF else if asid = 0xFFF then 0x1000 else asid

def tlbHit (ts : List TlbE) (asid va : Nat) : Option Nat :=
  (ts.find? (fun e => e.asid == asid && e.base ≤ va && va < e.base + e.size)).map (·.pte)

def isShepActor : Actor → Bool
  | .unit u _ => isShepherd u
  | _ => false

/-- The TLBs that an actor's accesses use (R195). -/
def tlbsOf (m : Mach) : Actor → List TlbE
  | .pe core .. => tget [] core m.mem.tlb ++ tget [] (1000 + clusterOf core) m.mem.tlb
  | .unit u _ => tget [] (1000 + unitCluster u 0) m.mem.tlb
  | .idle => []

/-- The leaf for an address, from a TLB or by a walk. -/
def leafOf (m : Mach) (who : Actor) (p va : Nat) : Except (Nat × Nat) Nat :=
  let shep := isShepActor who
  if 2 ^ 56 ≤ va then .error (0x02, bits va 0 56)
  else match tlbHit (tlbsOf m who) (tlbTag shep (pastOf m p).asid) va with
    | some e => .ok e
    | none => walk m shep (pastOf m p).xroot va

/-- Whether a leaf admits an access (R196, R199, R222, R404); SNAP needs R = 1, and an append operation on an H = 1 page is XLATE
(log 101). A load through a snapshot handle whose BASE lies on no append page is XLATE too, which the rules do not say (DESIGN CHOICE,
log 111). -/
def leafAdmits (e : Nat) (k : AccK) : Bool :=
  let h := bitAt e 9
  let ord := bits e 3 2
  (if k.writes then bitAt e 2 else bitAt e 1)
    && (match k with
        | .rd => ord != 3 | .wr => ord != 3 | .fetch => ord != 3 && !h
        | .app => ord == 3 && !h | .snap => ord == 3 && !h | .snapLoad => ord == 3 && !h
        | .pft => true | .copyRd => true
        | .atomR => ord != 3 && !h | .atomW => ord != 3 && !h
        | .ramo => h)

/-- The place of one byte through a leaf (R197). A migrate page of another size than 64 KB, or one on
another package, acts as a direct-peer page (R406). MODE 01 or 10 with this package's own number is an outside place (log 100). -/
def leafLoc (m : Mach) (e va : Nat) : Loc :=
  let size := pteSize e
  let pa := bits e 12 40 * 4096 + va % size
  if bitAt e 9 then .host (bits e 52 9) pa
  else match bits e 5 2 with
    | 0 => if pa < 2 ^ 39 then .hbm pa else .missing pa
    | 1 => .peer (bits e 52 9) pa false
    | 2 => .peer (bits e 52 9) pa true
    | _ => if bits e 52 9 = m.host.peer then (if pa < 2 ^ 39 then .hbm pa else .missing pa)
           else .peer (bits e 52 9) pa false

/-- The bytes of the firmware region: code and data area (R446). -/
def regionSize (h : HostS) : Nat := pageUp h.fwSize + h.fwData
def inFirmware (m : Mach) (pa : Nat) : Bool := m.host.fwBase ≤ pa && pa < m.host.fwBase + regionSize m.host

/-- The place of one byte through a leaf, for an access that it admits. Translation never yields an address beyond the package's
memory (R189): a migrate page held here whose ADDR lies there does not translate (R196). A pasture's yields none in the firmware
region either (R446): that is XLATE (log 116). -/
def leafPlace (m : Mach) (shep : Bool) (e va : Nat) (k : AccK) : Except (Nat × Nat) Loc :=
  if leafAdmits e k then
    match leafLoc m e va with
    | .missing _ => .error (0x02, va)
    | .hbm pa => if !shep && inFirmware m pa then .error (0x02, va) else .ok (.hbm pa)
    | l => .ok l
  else .error (0x02, va)

/-- Translation of one byte. -/
def xlate (m : Mach) (who : Actor) (p va : Nat) (k : AccK) : Except (Nat × Nat) Loc := do
  let e ← leafOf m who p va
  leafPlace m (isShepActor who) e va k

/-- The ORD of the page of an address: 0 unordered, 1 release, 2 strong, 3 append; 1 where it does not
translate (the access then fails anyway). -/
def ordOf (m : Mach) (who : Actor) (p va : Nat) : Nat :=
  match leafOf m who p va with
  | .ok e => bits e 3 2
  | .error _ => 1

/-! ## Scratchpad addresses (R190) -/

/-- Whether a byte of a core's scratchpad lies in a range of the pasture (R436). -/
def inRange (m : Mach) (p core off : Nat) : Bool :=
  (upto 8).any (fun i => match tfind (core * 8 + i) m.sys.ranges with
    | some r => r.past == p && r.base * 256 ≤ off && off < (r.base + r.len) * 256
    | none => false)

/-- The core whose scratchpad an address names: `own` for W = 0, a core of cluster `cl` for W = 1. W = 0 from a unit
without a core of its own names none, which is a BOUNDS fault (log 97), and so is W = 0 with CORE not 0, which R190 forbids without
naming an outcome (DESIGN CHOICE, log 110). -/
def scratchCore (own : Option Nat) (cl sa : Nat) : Option Nat :=
  if sa ≥ 2 ^ 26 then none
  else if bitAt sa 25 then (if bits sa 19 6 < 48 then some (cl * 48 + bits sa 19 6) else none)
  else if bits sa 19 6 = 0 then own else none

def coreOfActor : Actor → Option Nat
  | .pe core .. => some core
  | _ => none
/-- The cluster of an actor's scratchpad window (R190). -/
def clOfActor (m : Mach) : Actor → Nat
  | .pe core .. => clusterOf core
  | .unit u w => unitCluster u (pastOf m (pastOfActor m (.unit u w))).home
  | .idle => 0

/-- The places of `n` bytes at a scratchpad address, or a BOUNDS fault (R190). -/
def scratchLocs (m : Mach) (who : Actor) (p sa n : Nat) : Except (Nat × Nat) (List Loc) :=
  match scratchCore (coreOfActor who) (clOfActor m who) sa with
  | none => .error (0x08, sa)
  | some core =>
    let off := bits sa 0 19
    if off + n ≤ 2 ^ 19 ∧ (upto n).all (fun i => inRange m p core (off + i)) then
      .ok ((upto n).map (fun i => .spad (core * 2 ^ 19 + off + i)))
    else .error (0x08, sa)

/-- The places of `n` bytes at a virtual address, each part obeying its own page (R200). -/
def virtLocs (m : Mach) (who : Actor) (p va n : Nat) (k : AccK) : Except (Nat × Nat) (List Loc) :=
  (upto n).mapM (fun i => xlate m who p ((va + i) % 2 ^ 64) k)

/-! ## Bytes of places -/

def locByte (m : Mach) : Loc → Byte
  | .hbm pa => memGet m.mem.hbm pa
  | .spad k => memGet m.mem.spad k
  | _ => 0

/-- The first failure of a read of local places (R189, R225, R281); DETAIL of a scratchpad unit: log 88. -/
def locFault (m : Mach) (who : Actor) : Loc → Option (Nat × Nat)
  | .hbm pa => if badUnit m pa || (tfind (pa / 64) m.sync.bad).isSome then some (0x01, pa / 64 * 64) else none
  | .spad k => if m.mem.badSpad.contains (k / 64) then some (0x01, k / 64 * 64) else none
  | .missing pa => some (0x08, pa)
  | .peer p _ _ =>
    if m.fab.failed.contains (pastOfActor m who * 512 + p) then some (0x09, p) else none
  | .host .. => none

def locsFault (m : Mach) (who : Actor) (ls : List Loc) : Option (Nat × Nat) := ls.findSome? (locFault m who)

/-- The physical address of a place (R79); a scratchpad unit has none, and the model gives core x 2^19 + offset (log 88). -/
def locPa : Loc → Nat
  | .hbm pa => pa | .spad k => k | .peer _ pa _ => pa | .host _ pa => pa | .missing pa => pa

def isOutside : Loc → Bool
  | .peer .. => true | .host .. => true | _ => false

def locsRead (m : Mach) (ls : List Loc) : Nat := natOf (ls.map (locByte m))

def setByte (m : Mach) (l : Loc) (b : Byte) : Mach :=
  match l with
  | .hbm pa => { m with mem.hbm := memPut m.mem.hbm pa b }
  | .spad k => { m with mem.spad := memPut m.mem.spad k b }
  | _ => m

/-- Writes bytes to places; places outside the package keep nothing here. A write that covers every byte of a
poisoned unit clears its mark (R281). -/
def setBytes (m : Mach) : List Loc → List Byte → Mach
  | l :: ls, b :: bs => setBytes (setByte m l b) ls bs
  | _, _ => m

/-- The 64-byte units that a list of local places covers whole. -/
def wholeUnits (ls : List Loc) : List Loc :=
  ls.filter (fun l => match l with
    | .hbm pa => pa % 64 == 0 && (upto 64).all (fun i => ls.contains (.hbm (pa + i)))
    | .spad k => k % 64 == 0 && (upto 64).all (fun i => ls.contains (.spad (k + i)))
    | _ => false)

/-- Clears poison marks of units written whole (R281). -/
def clearMarks (m : Mach) (ls : List Loc) : Mach :=
  (wholeUnits ls).foldl (fun m l => match l with
    | .hbm pa => { m with mem.badHbm := m.mem.badHbm.erase (pa / 64) }
    | .spad k => { m with mem.badSpad := m.mem.badSpad.erase (k / 64) }
    | _ => m) m
/-- Counts the bytes of a plain store to a poisoned engine line; its mark goes with the last of 64 (R225). -/
def clearLine (m : Mach) (ls : List Loc) : Mach :=
  ls.foldl (fun m l => match l with
    | .hbm pa =>
      (match tfind (pa / 64) m.sync.bad with
       | some left =>
         let left := left.erase (pa % 64)
         { m with sync.bad := if left.isEmpty then tdel (pa / 64) m.sync.bad else tset (pa / 64) left m.sync.bad }
       | none => m)
    | _ => m) m

/-- Notes the bytes of HBM that a write outside the memory interfaces has changed: their monitors and waiters follow at the next
flush (R232, R233). -/
def touch (m : Mach) (ls : List Loc) : Mach :=
  { m with sync.touched := m.sync.touched ++ ls.filterMap (fun l => match l with | .hbm pa => some pa | _ => none) }

/-! ## Traps (R413-R419) -/

/-- The unit form U of TVAL (R417). -/
def unitForm (who : Actor) (detail : Nat) : Nat :=
  match who with
  | .pe core pe frame slot _ _ => detail * 2 ^ 56 + 4 * 2 ^ 52 + core * 2 ^ 40 + (pe * 16 + 8 * frame + slot) * 2 ^ 24
  | .unit u w =>
    let k := if isShepherd u then 0 else if isGraph u then 1 else if isTile u then 2 else 3
    let n := if isShepherd u then 0 else if isGraph u then u % 8
      else if u < 272 then u - 144 else if u < 336 then u - 272 else u - 336
    detail * 2 ^ 56 + k * 2 ^ 52 + n * 2 ^ 40 + bits w 0 16 * 2 ^ 24
  | .idle => detail * 2 ^ 56

def shepOf (m : Mach) (k : Nat) : Shep := tget Shep.reset k m.seq.sheps
def setShep (m : Mach) (k : Nat) (x : Shep) : Mach := { m with seq.sheps := tput Shep.reset k x m.seq.sheps }
def shDepth (x : Shep) : Nat := bits x.status.toNat 0 2
def shAE (x : Shep) : Bool := bitAt x.status.toNat 2

/-- Whether a unit holds a fault record that the full ring has no room for (R422). -/
def holdsRec (m : Mach) (who : Actor) : Bool :=
  let same := fun (q : Nat) (a : Actor) => match a, who with
    | .pe c x _ _ _ _, .pe d y _ _ _ _ => c == d && x == y
    | _, .unit v _ => ofUnit m v q a
    | _, _ => false
  m.sys.past.any (fun e => e.2.heldRecs.any (fun h => same e.1 h.2.1))

/-- Whether a shepherd core's queue of causes takes one more: it has a place and no unit waits for one (R418). -/
def causeRoom (m : Mach) (cluster : Nat) : Bool :=
  (shepOf m cluster).queue.length < 64 && !(m.seq.heldTraps.any (fun h => h.1 == cluster && !holdsRec m h.2.2.1))

/-- An asynchronous cause joins its shepherd core's queue of 64; beyond it, its unit holds it and stalls (R418), as it does
while its fault record is to be written first (R421). -/
def raiseCause (m : Mach) (cluster : Nat) (c : Cause) (who : Actor) : Mach :=
  let x := shepOf m cluster
  if causeRoom m cluster ∧ !holdsRec m who then
    setShep m cluster { x with queue := x.queue ++ [c] }
  else { m with seq.heldTraps := m.seq.heldTraps ++ [(cluster, c, who, false)] }

/-- The cluster whose shepherd core serves an actor's causes (R413). -/
def causeCluster (m : Mach) (who : Actor) : Nat :=
  match who with
  | .pe core .. => clusterOf core
  | .unit u _ => unitCluster u (pastOf m (pastOfActor m who)).home
  | .idle => 0

/-- A cause raised outside clusters goes to the home cluster of the pasture (R413). -/
def raiseHome (m : Mach) (p code val : Nat) : Mach :=
  raiseCause m (pastOf m p).home ⟨code, BitVec.ofNat 64 val, p⟩ .idle

/-! ## The fault log (R421, R422) -/

def ringSize (r : LogRing) : Nat := 64 * 2 ^ r.sz
def ringCount (r : LogRing) : Nat := (r.head + 2 ^ 24 - r.tail) % 2 ^ 24

/-- The 64 bytes of a fault record. -/
def frecBytes (r : FRec) (seq cycle : Nat) : List Byte :=
  bytesOf r.origin.toNat 16 ++ bytesOf (bits r.addr 0 56 + (if r.phys then 2 ^ 63 else 0)) 8
    ++ bytesOf (r.kind % 256 * 256 + r.cause % 256) 4 ++ bytesOf seq 4 ++ bytesOf cycle 8 ++ bytesOf r.item 8
    ++ bytesOf r.data.toNat 16

/-- The places of a ring record in the pasture's space. -/
def ringLocs (m : Mach) (p : Nat) (r : LogRing) : Except (Nat × Nat) (List Loc) :=
  virtLocs m .idle p (r.base + 64 * (r.head % ringSize r)) 64 .wr

/-- FaultRecord (R88, R421) of a fault found in cycle `cyc`: writes record HEAD and increments HEAD; a full ring, or one
whose page fails, holds the record with its unit, the latter until `flog.cfg` (R422). When the ring first fills, LOG_FULL is
raised (log 22). -/
def faultRecAt (m : Mach) (p : Nat) (who : Actor) (fr : FRec) (cyc : Nat) : Mach :=
  let P := pastOf m p
  let hold := setPast m p { P with heldRecs := P.heldRecs ++ [(fr, who, cyc)] }
  match P.log with
  | none => hold
  | some r =>
    let failed := setPast m p { P with heldRecs := P.heldRecs ++ [(fr, who, cyc)], log := some { r with bad := true } }
    if ringCount r = ringSize r ∨ r.bad ∨ !P.heldRecs.isEmpty then hold
    else match ringLocs m p r with
      | .error _ => raiseHome failed p 0x15 (r.base + 64 * (r.head % ringSize r))
      | .ok ls =>
        match locsFault m .idle ls with
        | some (_, pa) => raiseHome failed p 0x15 pa
        | none =>
          let m1 := touch (clearMarks (setBytes m ls (frecBytes fr r.head cyc)) ls) ls
          let h := (r.head + 1) % 2 ^ 24
          let full := ringCount { r with head := h } == ringSize r
          let m2 := setPast m1 p { P with log := some { r with head := h, filled := r.filled || full } }
          if full && !r.filled then raiseHome m2 p 0x08 h else m2
def faultRec (m : Mach) (p : Nat) (who : Actor) (fr : FRec) : Mach := faultRecAt m p who fr m.seq.cycle

/-- A record for a poison value of a PE (KIND 0). -/
def poisonRec (v : Val) (kind : Nat) : FRec :=
  ⟨v.pay, false, bits (poisonDetail v) 0 56, kind, poisonCause v, 0, 0⟩

/-- Trap(0x07, v, 0) at the shepherd core of an actor's cluster. -/
def trapPoison (m : Mach) (who : Actor) (v : Val) : Mach :=
  raiseCause m (causeCluster m who) ⟨0x07, BitVec.ofNat 64 v.pay.toNat, pastOfActor m who⟩ who

/-- Poison reached a sink: a record, then the trap (R88, R89, R115). -/
def poisonSink (m : Mach) (who : Actor) (v : Val) : Mach :=
  trapPoison (faultRec m (pastOfActor m who) who (poisonRec v 0)) who v

/-! ## Channels (R113-R118, R302) -/

def chanOf (m : Mach) (k : Nat) : Chan := tget Chan.reset k m.pe.chans
def setChan (m : Mach) (k : Nat) (c : Chan) : Mach := { m with pe.chans := tput Chan.reset k c m.pe.chans }

def bindDL (b : W64) : Bool := bitAt b.toNat 62
def bindB (b : W64) : Bool := bitAt b.toNat 63
/-- FIFO places: 4, and k more in a delay line of k stages (R118). -/
def fifoCap (c : Chan) : Nat := if bindDL c.binding then 5 + bits c.binding.toNat 58 4 else 4
/-- Ring places: SPILL x 8 tokens (R117). -/
def ringCap (c : Chan) : Nat := bits c.binding.toNat 32 16 * 8
def plainRoom (c : Chan) : Nat := (fifoCap c - c.fifo.length) + (ringCap c - c.ring.length)
/-- What an input can still accept, its corner-turn node included (R113, R302). -/
def chanRoom (c : Chan) : Nat :=
  if c.node = 0 then plainRoom c
  else plainRoom c + (c.node - c.gather.length) + (if c.emit.isEmpty then c.node else 0)

/-- Lane j of output i is lane i of input j (R302). -/
def turnPay (k : Nat) (ts : List Token) (i : Nat) : Nat :=
  let w := 128 / k
  ((upto k).map (fun j => bits ((ts[j]?).map (fun t => t.val.pay.toNat) |>.getD 0) (w * i) w * 2 ^ (w * j))).sum

/-- The K outputs of a gathered block (R302). -/
def turnBlock (k : Nat) (ts : List Token) : List Token :=
  let ps := ts.filter (fun t => t.val.poison)
  match ps with
  | p :: rest => List.replicate k { p with val := bumpMerge p.val rest.length }
  | [] =>
    let ctx := (ts.head?.map (·.ctx)).getD 0
    let fl := ts.any (·.flag)
    let sc := ts.any (fun t => t.val.scaled)
    (upto k).map (fun i => ⟨⟨BitVec.ofNat 128 (turnPay k ts i), false, sc⟩, false, fl, ctx⟩)

/-- A token enters the FIFO, or the ring behind it (R117); none enters the FIFO while the ring holds one. -/
def pushTok (c : Chan) (t : Token) : Chan :=
  if c.ring.isEmpty && c.fifo.length < fifoCap c then { c with fifo := c.fifo ++ [t] }
  else { c with ring := c.ring ++ [t], unw := c.unw + 1, ringHead := if ringCap c = 0 then 0 else (c.ringHead + 1) % ringCap c }

/-- The oldest ring token moves into a free FIFO place (R117). -/
def refill : Nat → Chan → Chan
  | 0, c => c
  | n + 1, c =>
    match c.ring with
    | t :: ts => if c.fifo.length < fifoCap c then refill n { c with fifo := c.fifo ++ [t], ring := ts } else c
    | [] => c

/-- The node moves emitted tokens on while there is room, and a complete block into emission (R302). A gathered
list that ends in an EOS token is closed by it. -/
def settle : Nat → Chan → Chan
  | 0, c => c
  | n + 1, c =>
    match c.emit with
    | t :: ts => if plainRoom c = 0 then c else settle n (pushTok { c with emit := ts } t)
    | [] =>
      if c.node = 0 then c
      else
        match c.gather.getLast? with
        | some l =>
          if l.eos then
            let body := c.gather.dropLast
            settle n { c with gather := [], emit := (if body.isEmpty then [] else turnBlock c.node body) ++ [l] }
          else if c.gather.length < c.node then c
          else settle n { c with gather := [], emit := turnBlock c.node c.gather }
        | none => c

def settleC (c : Chan) : Chan := settle 64 c

/-- Whether an input can take one more token now. A new block size that can take effect does so before the next token
(R301). -/
def chanAccepts (c : Chan) : Bool :=
  if c.pendNode.isSome && c.gather.isEmpty && c.emit.isEmpty then false
  else if c.node = 0 then 0 < plainRoom c
  else c.gather.length < c.node && !((c.gather.getLast?).map (·.eos) |>.getD false)

/-- A token arrives at an input (R113). -/
def acceptTok (c : Chan) (t : Token) : Chan :=
  if c.node = 0 then pushTok c t else settleC { c with gather := c.gather ++ [t] }

/-- The head of an input. -/
def headTok (m : Mach) (k : Nat) : Option Token := (chanOf m k).fifo.head?

/-- The head leaves its FIFO; the ring and the node move up (R16, R117). -/
def dequeueC (c : Chan) : Chan :=
  let c1 := { c with fifo := c.fifo.tail }
  settleC (refill (fifoCap c1) c1)

def dequeue (m : Mach) (k : Nat) : Mach := setChan m k (dequeueC (chanOf m k))

/-- The spill ring's bytes of a token: payload and tag (R117). -/
def ringBytes (t : Token) : List Byte := bytesOf t.val.pay.toNat 16 ++ bytesOf (tagOf t) 1

/-- Writes into the ring's memory the tokens that an input has moved to the tail of its ring since it last did (R117). -/
def ringSync (m : Mach) (k : Nat) : Mach :=
  let c := chanOf m k
  let n := min c.unw c.ring.length
  if c.unw = 0 then m
  else
    let m1 := match livePast m (k / 128) with
      | some p => (upto n).foldl (fun m i =>
          match virtLocs m (.pe (k / 128) 0 0 0 0 false) p (c.ringBase + 32 * ((c.ringHead + ringCap c + i - n) % ringCap c)) 17 .wr with
          | .ok ls => touch (setBytes m ls (((c.ring[c.ring.length - n + i]?).map ringBytes).getD [])) ls
          | .error _ => m) m
      | none => m
    setChan m1 k { c with unw := 0 }

/-- Inputs bound to an output: by binding words of the same core, by circuits, and the in0 of storer tiles, whose key is
100,000 + unit (R83, R268, R382). -/
def boundInputs (m : Mach) (core pe ch : Nat) : List Nat :=
  ((upto 128).filter (fun i =>
      let b := (chanOf m (core * 128 + i)).binding
      bindB b && bits b.toNat 54 4 == pe && bits b.toNat 51 3 == ch)).map (fun i => core * 128 + i)
    ++ (m.fab.circuits.filter (fun c => c.src == chanKey core pe ch)).map (·.dst)
    ++ (m.copy.tiles.filter (fun e => !e.2.loader && e.2.chan == chanKey core pe ch)).map (fun e => 100000 + e.1)

/-- The pasture whose evaluation awaits returned candidates on an output (R336). -/
def userPort (m : Mach) (core pe ch : Nat) : Option (Nat × Eval) :=
  match livePast m core with
  | some p => (match tfind p m.rule.evals with
    | some e => if thas (chanKey core pe ch) e.user then some (p, e) else none
    | none => none)
  | none => none

/-- Emit (R88, R113, R115): a copy to every bound input; discarded without one, and a discarded poison is a sink. An
output that returns candidates of a user channel feeds its relation port too (R336). -/
def emitTok (m : Mach) (who : Actor) (core pe ch : Nat) (t : Token) : Mach :=
  let ds := boundInputs m core pe ch
  let m1 := { m with fab.transit := m.fab.transit ++ ds.map (fun d => ⟨chanKey core pe ch, d, t, none⟩) }
  match userPort m core pe ch with
  | some (p, e) =>
    let k := chanKey core pe ch
    { m1 with rule.evals := tset p { e with back := tset k (tget [] k e.back ++ [t]) e.back } m1.rule.evals }
  | none => if ds.isEmpty && t.val.poison then poisonSink m who t.val else m1

/-- A token from a source that is no PE output (R116): the source code keeps order per source. -/
def sendTok (m : Mach) (src dst : Nat) (t : Token) : Mach :=
  { m with fab.transit := m.fab.transit ++ [⟨src, dst, t, none⟩] }

/-- Tokens of PE outputs already on their way to an input. A token of another source (code 200,000 and above)
waits at its source until the input has room (R113), so it takes no place before it arrives. -/
def inTransit (m : Mach) (d : Nat) : Nat :=
  (m.fab.transit.filter (fun t => t.dst == d && t.src < 200000)).length

/-- What an input can still accept; in0 of a storer tile has 4 places. -/
def roomAt (m : Mach) (d : Nat) : Nat :=
  if d < 100000 then chanRoom (chanOf m d)
  else match tfind (d - 100000) m.copy.tiles with | some b => 4 - b.inq.length | none => 4

/-- Places of an input that outstanding requests of the outputs bound to it have reserved (R204). -/
def reservedAt (m : Mach) (d : Nat) : Nat :=
  (m.mem.reqs.filter (fun r => match r.dst with
    | .out c q h _ => (boundInputs m c q h).contains d
    | _ => false)).length

/-- The smallest free credit over the inputs bound to an output; none when it is unbound (R113, R134). -/
def creditOf (m : Mach) (core pe ch : Nat) : Option Nat :=
  match boundInputs m core pe ch with
  | [] => none
  | ds => (ds.map (fun d => roomAt m d - inTransit m d - reservedAt m d)).min?

/-- Credit as one token leaves (R15, condition 5). -/
def hasCredit (m : Mach) (core pe ch : Nat) : Bool :=
  match creditOf m core pe ch with | none => true | some n => 0 < n

/-! ## Plinth nodes (R271, R272) -/

/-- The words of a token, lowest first. -/
def tokWords (t : Token) : List Nat := (upto 4).map (fun i => bits t.val.pay.toNat (32 * i) 32)

/-- Tokens made of packed words; a last partial token stays behind. -/
def packWords (ctx : Nat) : List Nat → List Token × List Nat
  | a :: b :: c :: d :: rest =>
    let r := packWords ctx rest
    (⟨Val.ofNat (a + b * 2 ^ 32 + c * 2 ^ 64 + d * 2 ^ 96), false, false, ctx⟩ :: r.1, r.2)
  | l => ([], l)

/-- The combination of a reduce node. -/
def nodeComb (op a b : Nat) : Nat :=
  match op with
  | 0 => (fadd32 a b .rne false).1
  | 1 => (minMaxNum .f32 true a b).1
  | 2 => (minMaxNum .f32 false a b).1
  | 3 => (a + b) % 2 ^ 32
  | 4 => max a b
  | _ => min a b
def nodeIdent : Nat → Nat
  | 1 => 0xFF800000
  | 2 => 0x7F800000
  | 5 => 0xFFFFFFFF
  | _ => 0

def nodeRecWords (cfg : Nat) : Nat := 4 * 2 ^ bits cfg 54 2

/-- A complete record reaches the filter or the reduction. A record with a poisoned token (marked 2^32) is not tested; a
FIELD beyond the record reads a free word (log 29). -/
def nodeRecord (n : Node) (free ctx : Nat) : Node × List Token :=
  let ws := n.words
  let n1 := { n with words := [] }
  if ws.any (fun w => 2 ^ 32 ≤ w) then (n1, [])
  else
    let fld := (ws[bits n.cfg 50 4]?).getD (Config.freeSlot free % 2 ^ 32)
    let op := bits n.cfg 47 3
    if bitAt n.cfg 62 then
      ({ n1 with acc := if n.cnt = 0 then fld else nodeComb op n.acc fld, cnt := n.cnt + 1 }, [])
    else
      let pass := match WCond.ofCode op with | some c => wcond 32 c fld n.const | none => false
      let keep := ((upto ws.length).filter (fun j => bitAt n.cfg j)).map (fun j => (ws[j]?).getD 0)
      let r := packWords ctx (if pass then n.kept ++ keep else n.kept)
      ({ n1 with kept := r.2 }, r.1)

/-- A token of the loader passes its node: the node after it and the tokens that cross to the die. -/
def nodeStep (n : Node) (free : Nat) (t : Token) : Node × List Token :=
  if !bitAt n.cfg 63 then (n, [t])
  else if t.eos then
    let n1 := { n with words := [], kept := [], acc := 0, cnt := 0 }
    if bitAt n.cfg 62 then
      let r := if n.cnt = 0 then nodeIdent (bits n.cfg 47 3) else n.acc
      (n1, [⟨Val.ofNat (r + n.cnt % 2 ^ 32 * 2 ^ 32), false, false, t.ctx⟩, t])
    else if n.kept.isEmpty then (n1, [t])
    else (n1, (packWords t.ctx (n.kept ++ List.replicate (4 - n.kept.length) 0)).1 ++ [t])
  else
    let ws := if t.val.poison then List.replicate 4 (2 ^ 32) else tokWords t
    let n1 := { n with words := n.words ++ ws }
    let r := if nodeRecWords n.cfg ≤ n1.words.length then nodeRecord n1 free t.ctx else (n1, [])
    (r.1, if t.val.poison then t :: r.2 else r.2)

/-- A loader's out0: the token passes the node of a plinth tile and goes to the bound channel (R268, R272). -/
def loaderEmit (m : Mach) (u : Nat) (t : Token) : Mach :=
  match tfind u m.copy.tiles with
  | none => m
  | some b =>
    let t1 := { t with ctx := b.ctx }
    if u < 272 then sendTok m (200000 + u) b.chan t1
    else
      let r := nodeStep (tget Node.reset (u - 272) m.copy.nodes) m.free t1
      let m1 := { m with copy.nodes := tput Node.reset (u - 272) r.1 m.copy.nodes, free := m.free + 1 }
      r.2.foldl (fun m x => sendTok m (200000 + u) b.chan x) m1

/-! ## Delivery (R88, R204, R205, R426) -/

/-- The pasture of a destination, by its unit or core. -/
def writeDst (m : Mach) (who : Actor) (dst : Dst) (t : Token) : Mach :=
  match dst with
  | .drop => m
  | .zero => if t.val.poison then poisonSink m who t.val else m
  | .out core pe ch bank => emitTok m who core pe ch { t with ctx := bank }
  | .reg core pe ctx code => setPeReg m core pe ctx code t.val
  | .sreg u r => setSReg m u r (bits t.val.pay.toNat 0 64)
  | .spair u r => setSReg (setSReg m u r (bits t.val.pay.toNat 0 64)) u (r + 1) (bits t.val.pay.toNat 64 64)
  | .tile u => loaderEmit m u t

/-- The unit of a binding's TILE (R269). -/
def bindTile (b : Nat) : Nat := (if bitAt b 17 then 272 else 144) + bits b 18 8
/-- Whether the tile of an actor was pre-empted with its pasture and has not gone on yet (R425). -/
def tileAway (m : Mach) (p : Nat) (who : Actor) : Bool :=
  match who with
  | .unit u _ => isTile u && m.mem.reqs.any (fun r => match r.op with | .ag _ _ b (some _) => r.past == p && bindTile b == u | _ => false)
  | _ => false

/-- Delivers a result, or parks it while the pasture is gated (R426): a PE's, a graph context's, or a word of a tile's. -/
def deliverTok (m : Mach) (p : Nat) (who : Actor) (dst : Dst) (t : Token) : Mach :=
  let parks := match who with | .pe .. => true | .unit u _ => isGraph u || isTile u | _ => false
  if dst != .drop && tileAway m p who then { m with mem.park := m.mem.park ++ [(p, who, dst, t)] }
  else if parks && dst != .drop && !running m p && (pastOf m p).st != .free && (pastOf m p).st != .ready && (pastOf m p).st != .halted then
    { m with mem.park := m.mem.park ++ [(p, who, dst, t)] }
  else writeDst m who dst t

/-! ## Graphs, sections and units ending (R25, R139, R152, R415) -/

def graphOf (m : Mach) (g : Nat) : Option Graph := tfind g m.seq.graphs
def setGraph (m : Mach) (g : Nat) (x : Graph) : Mach := { m with seq.graphs := tset g x m.seq.graphs }

/-- Sends an MSI-X message (R443). -/
def msix (m : Mach) (entry : Nat) : Mach := { m with host.msix := m.host.msix ++ [entry] }

/-- The planes of the default lease from package s to package d, and the floor of the pair (R385, R386). -/
def lanePlanes (s d : Nat) : List Nat :=
  let i := (d % 64 + 72 - s % 64) % 72
  [i % 8, (i + 3) % 8, (i + 5) % 8]
def floorPlane (s d : Nat) : Nat := (lanePlanes s d).foldl min 7
/-- The lane of a peer and plane, by its key, is the floor of the pair (a gate lane has none). -/
def isFloor (own key : Nat) : Bool := key < 4096 && key % 8 == floorPlane own (key / 8)

/-- The objects that step 4 of R435 names are freed; no byte of memory or scratchpad changes. -/
def freeObjects (m : Mach) (p : Nat) : Mach :=
  let asid := (pastOf m p).asid
  { m with
    stage.fams := tfilter (fun k => k / 64 != p) m.stage.fams
    rule.rels := tfilter (fun k => k / 256 != p) m.rule.rels
    rule.rules := tfilter (fun k => k / 256 != p) m.rule.rules
    rule.strata := tfilter (fun k => k / 64 != p) m.rule.strata
    rule.evals := tdel p m.rule.evals
    mem.windows := tfilter (fun k => k / 16 != p) m.mem.windows
    sel.queues := m.sel.queues.filter (fun e => !(e.2.thr != 0 && e.2.asid == asid))
    fab.inbound := m.fab.inbound.filter (fun e => e.2.past != p)
    fab.tx := (m.fab.tx.filter (fun e => e.2.holder != some p || isFloor m.host.peer e.1)).map (fun e =>
      (e.1, if e.2.holder == some p then { e.2 with holder := none } else e.2))
    mem.reqs := m.mem.reqs.filter (fun r => r.past != p || (match r.op with
      | .lease .. => false | .eval => false | .rback .. => false | .rdef _ => false | _ => true))
    fab.slots := m.fab.slots.filter (fun e => tget [] (2 * e.1) m.fab.slotOwn != [p])
    fab.newSlots := m.fab.newSlots.filter (fun e => tget [] (2 * e.1 + 1) m.fab.slotOwn != [p])
    fab.slotOwn := (m.fab.slotOwn.map (fun e => (e.1, e.2.filter (· != p)))).filter (fun e => !e.2.isEmpty)
    pe.binds := m.pe.binds.filter (fun e => match e.2.kind with
      | .record _ => true
      | .holder q _ => q != p
      | .routine q _ => q != p) }

/-- Requests for items of memory, a node or a queue, which are performed or fail; a condition that waits (WAITA, WAITC, FUTR once
registered, MWAIT, BAR, FENCE, SEQW) is none (R244, R435). -/
def forItems (r : Req) : Bool :=
  match r.op with
  | .waita .. => r.granted.isNone | .waitc .. => r.granted.isNone | .futr _ => r.granted.isNone
  | .load .. => true | .store .. => true | .amo .. => true | .cas .. => true | .arrive .. => true | .futw .. => true
  | .append .. => true | .publ .. => true | .snap .. => true | .mcst .. => true | .mcstq .. => true | .ramo .. => true
  | .mon _ => true | .bopen .. => true | .bclose _ => true | .cflush .. => true | .iwalk .. => true | .spmx .. => true
  | .copy .. => true | .pft .. => true | .pgmig .. => true | .rdef _ => true | .keyi .. => true
  | .plset .. => true | .exq .. => true | .exdq .. => true | .event .. => true
  | _ => false
/-- Work of engines that runs on when its pasture ends (R435), and the system's own requests. -/
def outlives (r : Req) : Bool :=
  isShepActor r.who || (match r.op with | .copy .. => true | .pft .. => true | .pgmig .. => true | .sys _ => true | _ => false)

/-- The held state that arrays keep for a pasture that has ended is no longer held (R307): the next launch starts from the reset
state of R282. -/
def dropHeld (m : Mach) (p : Nat) : Mach :=
  { m with
    mat.owner := m.mat.owner.filter (fun e => e.2 != p)
    mat.saved := tfilter (fun k => k / 1024 != p) m.mat.saved }

/-- A complete pasture returns to READY and reports DONE (R415, R442). -/
def pastureDone (m : Mach) (p cause : Nat) : Mach :=
  let m1 := dropHeld (freeObjects m p) p
  msix (setPast m1 p { pastOf m1 p with st := .ready, doneF := true, pcause := cause, ending := none }) (1024 + p)

/-- Accesses of a pasture, of the requests below number `n`, that are still to be performed: those that engines make for it, and
those that wait for a handle, among them (R442; log 85). -/
def accessLeft (m : Mach) (p n : Nat) : Bool :=
  m.mem.reqs.any (fun r => r.past == p && r.id < n && !r.done && forItems r && !isShepActor r.who)

/-- The root graph of a pasture is complete: DONE, a release at host scope, waits for the pasture's accesses (R442; log 85). -/
def pastureEnds (m : Mach) (p cause : Nat) : Mach :=
  if accessLeft m p m.ids then setPast m p { pastOf m p with ending := some (m.ids, cause) } else pastureDone m p cause

/-- A pasture whose accesses are performed completes, unless its clock is gated. -/
def advanceEnd (m : Mach) : Option Mach :=
  (upto 16).findSome? (fun p => match (pastOf m p).ending with
    | some (n, cause) => if running m p && !accessLeft m p n then some (pastureDone m p cause) else none
    | none => none)

/-- Completes a graph that has halted with nothing outstanding, and then its ancestors (R139). -/
def checkGraph : Nat → Mach → Nat → Mach
  | 0, m, _ => m
  | n + 1, m, g =>
    match graphOf m g with
    | none => m
    | some x =>
      if x.halted && x.live == 0 && !x.complete then
        let m1 := setGraph m g { x with complete := true }
        if x.root then pastureEnds m1 x.past x.cause
        else match graphOf m1 x.parent with
          | some y => checkGraph n (setGraph m1 x.parent { y with live := y.live - 1 }) x.parent
          | none => m1
      else m

/-- A section whose activations have all ended completes (R25). -/
def checkSection (m : Mach) (id : Nat) : Mach :=
  match tfind id m.seq.sections with
  | none => m
  | some s =>
    let nb := (s.entries.map (·.1)).dedup.length
    if !s.complete && s.ended == s.count * nb then
      let m1 := { m with seq.sections := tset id { s with complete := true } m.seq.sections }
      if s.shep then m1
      else match graphOf m1 s.graph with
        | some y => checkGraph (m.seq.graphs.length + 1) (setGraph m1 s.graph { y with live := y.live - 1 }) s.graph
        | none => m1
    else m

/-- One activation of a section has ended, aborted or not (R24). -/
def endRecord (m : Mach) (id : Nat) (aborted : Bool) : Mach :=
  match tfind id m.seq.sections with
  | none => m
  | some s =>
    let s1 := { s with ended := s.ended + 1, aborted := s.aborted + (if aborted then 1 else 0) }
    checkSection { m with seq.sections := tset id s1 m.seq.sections } id

/-- The request with an id. -/
def reqOf (m : Mach) (id : Nat) : Option Req := m.mem.reqs.find? (fun r => r.id == id)
def setReq (m : Mach) (r : Req) : Mach :=
  { m with mem.reqs := m.mem.reqs.map (fun x => if x.id == r.id then r else x) }
def delReq (m : Mach) (id : Nat) : Mach := { m with mem.reqs := m.mem.reqs.filter (fun r => r.id != id) }
def modReq (m : Mach) (id : Nat) (f : Req → Req) : Mach :=
  match reqOf m id with | some r => setReq m (f r) | none => m

/-- Trap causes of failed S-form accesses (R211). -/
def sTrapCode (cause : Nat) : Nat :=
  if cause = 0x02 ∨ cause = 0x08 ∨ cause = 0x03 then 0x05
  else if cause = 0x01 then 0x15
  else if cause = 0x07 then 0x14
  else if cause = 0x09 ∨ cause = 0x0C ∨ cause = 0x0A ∨ cause = 0x0D then 0x13
  else 0x07

/-- Loads of a loader tile that have not yet emitted their token. -/
def tileBusy (m : Mach) (u : Nat) : Bool := m.mem.reqs.any (fun r => r.dst == .tile u && r.past == (unitOf m u).past)

/-- A tile ends: a loader emits an EOS token behind its loads, FLAG 1 if the halt was a trap (R268), and the tile's
AGLD or AGST gets its result (R269). -/
def tileEnd (m : Mach) (u : Nat) : Mach :=
  match tfind u m.copy.tiles with
  | none => m
  | some b =>
    match b.ending with
    | none => m
    | some cause =>
      if tileBusy m u then m
      else
        let m1 := if b.loader then loaderEmit m u ⟨Val.none, true, cause != 0, b.ctx⟩ else m
        let res := if cause = 0 then 0 else 2 ^ 63 + cause
        let m2 := modReq m1 b.req (fun r => { r with done := true, res := some [tokNat res] })
        { m2 with copy.tiles := tdel u m2.copy.tiles }
def tileHalt (m : Mach) (u cause : Nat) : Mach :=
  match tfind u m.copy.tiles with
  | none => m
  | some b => tileEnd { m with copy.tiles := tset u { b with ending := some cause } m.copy.tiles } u

/-- The requests and the install of a unit that halts go on, but their results have no register to go to any more; a FENCE stops
nothing, and a SEQW awaits no ticket of the discarded table (R139). -/
def orphanReqs (m : Mach) (u : Nat) : Mach :=
  let mine := fun r : Req => ofUnit m u r.past r.who
  let gone := fun r : Req => match r.op with | .fence .. => true | .seqw .. => true | _ => false
  { m with
    mem.reqs := (m.mem.reqs.filter (fun r => !(mine r && gone r))).map (fun r =>
      if mine r then { r with dst := (match r.dst with | .tile v => .tile v | _ => .drop), pend := false } else r)
    seq.installs := m.seq.installs.map (fun e => if e.2.unit == some u then (e.1, { e.2 with unit := none }) else e) }

/-- An S-form unit halts with a trap cause, or 0 under NAS 111 (R139, R268). -/
def haltUnit (m0 : Mach) (u cause : Nat) : Mach :=
  let x := unitOf m0 u
  let m := if isShepherd u then m0 else orphanReqs m0 u
  if isShepherd u then setUnit m u { x with run := .halted }
  else if isGraph u then
    let m1 := { setUnit m u SUnit.reset with
      seq.uhands := tfilter (fun k => k / 16 != u) m.seq.uhands
      seq.uhpend := tfilter (fun k => k / 16 != u) m.seq.uhpend }
    match graphOf m1 x.graph with
    | some g => checkGraph (m1.seq.graphs.length + 1) (setGraph m1 x.graph { g with halted := true, cause := cause }) x.graph
    | none => m1
  else tileHalt (setUnit m u { x with run := .halted }) u cause

/-! ## Taking a trap (R418, R419) -/

/-- The part of the PE array that lies in the cores that satisfy `f`. -/
def PeS.only (f : Nat → Bool) (x : PeS) : PeS where
  regs := tfilter (fun k => f (k / 8192)) x.regs
  preds := tfilter (fun k => f (k / 128)) x.preds
  astat := tfilter (fun k => f (k / 8)) x.astat
  prio := tfilter (fun k => f (k / 8)) x.prio
  frames := tfilter (fun k => f (k / 2)) x.frames
  chans := tfilter (fun k => f (k / 128)) x.chans
  rq := tfilter f x.rq
  binds := tfilter (fun k => f (k / 8)) x.binds
  commit := tfilter (fun k => f (k / 8)) x.commit
  fires := tfilter (fun k => f (k / 1024)) x.fires
  waits := tfilter (fun k => f (k / 1024)) x.waits
  rot := tfilter (fun k => f (k / 16)) x.rot
  starv := tfilter (fun k => f (k / 16)) x.starv
  busy := tfilter (fun k => f (k / 16)) x.busy
  hands := tfilter (fun k => f (k / 32)) x.hands
  hpend := tfilter (fun k => f (k / 32)) x.hpend

/-- Empties the PEs of the cores that satisfy `f`, with the tokens on their way to them and their circuits. -/
def clearCores (m : Mach) (f : Nat → Bool) : Mach :=
  { m with
    pe := m.pe.only (fun c => !f c)
    seq.installs := tfilter (fun k => !f (k / 2)) m.seq.installs
    fab.circuits := m.fab.circuits.filter (fun c => !f (c.owner / 2))
    fab.transit := m.fab.transit.filter (fun t => 100000 ≤ t.dst || !f (t.dst / 128))
    mat.q := tfilter (fun k => !f k) m.mat.q }

/-- A HALT of the pasture is under way, or the ROM handler has asked for one. -/
def halting (m : Mach) (p : Nat) : Bool :=
  m.mem.reqs.any (fun r => r.res.isNone && (r.granted.isSome || r.who == .idle)
    && (match r.op with | .sys (.halt q) => q == p | _ => false))

/-- A pasture ends as HALT ends it, at the ROM handler's hand (R419): its clock stops at once, and Bruosh goes on with steps 1 to 5 of
R435 before the next step of the machine. -/
def haltPast (m : Mach) (p : Nat) : Mach :=
  let P := pastOf m p
  if P.st == .free || P.st == .halted || halting m p then m
  else
    let r : Req := ⟨m.ids, .idle, 0, 0, p, .drop, .sys (.halt p), 5, false, false, none, none, false, none, none, false, none⟩
    setPast { m with ids := m.ids + 1, mem.reqs := m.mem.reqs ++ [r] } p { P with gate := P.gate.orElse (fun _ => some m.ids) }

/-- The word of STATUS after an entry at depth `d` for pasture `q`: DEPTH d, AE 0, PAST q (R414, R418). -/
def entryStatus (q d : Nat) : W64 := BitVec.ofNat 64 (q % 16 * 4096 + d)

/-- CAUSE register {PAST, CODE} (R414). -/
def causeWord (q c : Nat) : W64 := BitVec.ofNat 64 (q % 16 * 4096 + c % 256)

/-- Whether the shepherd core can fetch word TVEC (R418). -/
def tvecFetches (m : Mach) (k : Nat) : Bool :=
  let u := unitOf m (128 + k)
  let va := u.base + 8 * (shepOf m k).tvec.toNat
  match virtLocs m (.unit (128 + k) 0) 0 va 8 .fetch with
  | .ok ls => (locsFault m .idle ls).isNone
  | .error _ => false

/-- RomDoubleTrap (R419): both causes are logged, the pasture is halted; after a fetch fault the core
halts, otherwise it enters word TVEC at depth 1 with cause 0x11. -/
def romDoubleTrap (m : Mach) (k c q : Nat) (v : W64) (fetchFault : Bool) : Mach :=
  let x := shepOf m k
  let m0 := { m with mem.bruoshLog := m.mem.bruoshLog ++ [(x.cause2.toNat, x.tval2.toNat), (c, v.toNat)] }
  let m1 := haltPast m0 q
  if fetchFault then setUnit m1 (128 + k) { unitOf m1 (128 + k) with run := .halted }
  else
    let y := { shepOf m1 k with
      spc1 := 0, sst1 := 4, cause1 := causeWord q 0x11,
      tval1 := BitVec.ofNat 64 (bits x.cause2.toNat 0 8 + c % 256 * 256 + q % 16 * 65536),
      status := entryStatus q 1 }
    let m2 := setShep m1 k y
    setUnit m2 (128 + k) { unitOf m2 (128 + k) with w := y.tvec.toNat, run := .running }

/-- Taking a trap in the shepherd core of cluster `k` (R418): `spc` is the word that SPC saves. The saved registers
of the new level are written, STATUS changes and the next word is TVEC. -/
def takeTrap (m : Mach) (k c q : Nat) (v : W64) (spc : Nat) : Mach :=
  let x := shepOf m k
  let d := shDepth x
  if d ≥ 2 then romDoubleTrap m k c q v false
  else
    let s := BitVec.ofNat 64 spc
    let y := if d = 0 then { x with spc1 := s, sst1 := x.status, cause1 := causeWord q c, tval1 := v,
                                     status := entryStatus q 1 }
             else { x with spc2 := s, sst2 := x.status, cause2 := causeWord q c, tval2 := v,
                           status := entryStatus q 2 }
    let m1 := setShep m k y
    if tvecFetches m1 k then
      setUnit m1 (128 + k) { unitOf m1 (128 + k) with w := x.tvec.toNat, run := .running }
    else romDoubleTrap m1 k 0x04 q v true

/-- The trap of an S-form unit at word `w`: the shepherd core enters its handler, unless it has halted, since only a start restarts
it (R419); any other unit halts and its shepherd core gets the cause. -/
def trapNow (m : Mach) (u w : Nat) (c : Cause) : Mach :=
  if isShepherd u then (if (unitOf m u).run == .halted then m else takeTrap m (u - 128) c.code c.past c.val w)
  else raiseCause (haltUnit m u c.code) (unitCluster u (pastOf m c.past).home) c (.unit u w)

/-- The same, once the unit's fault record is written (R421) and, for a unit other than a shepherd core, the queue of causes has
a place for it (R66, R418): until then it holds the trap and stalls (R422). -/
def trapSync (m : Mach) (u w : Nat) (c : Cause) : Mach :=
  if holdsRec m (.unit u w) || (!isShepherd u && !causeRoom m (unitCluster u (pastOf m c.past).home)) then
    { m with seq.heldTraps := m.seq.heldTraps ++ [(unitCluster u (pastOf m c.past).home, c, .unit u w, true)] }
  else trapNow m u w c

/-- A trap raised by an S-form unit at word `w` (R87). -/
def trapUnit (m : Mach) (u w code : Nat) (val : Nat) : Mach :=
  let p := if isShepherd u then pastOfActor m (.unit u w) else (unitOf m u).past
  { trapSync m u w ⟨code, BitVec.ofNat 64 val, p⟩ with ctl := .trapped }

/-- A trap with the unit form as its value. -/
def trapForm (m : Mach) (u w code detail : Nat) : Mach := trapUnit m u w code (unitForm (.unit u w) detail)

/-- A trap whose record is now written is taken; a unit that has ended in the meantime only reports its cause. -/
def retakeTrap (m : Mach) (h : Nat × Cause × Actor × Bool) : Mach :=
  match h.2.2 with
  | (.unit u w, true) =>
    let x := unitOf m u
    if isShepherd u || (x.past == h.2.1.past && (x.run == .running || x.run == .waiting)) then { trapNow m u w h.2.1 with ctl := m.ctl }
    else raiseCause m h.1 h.2.1 (.unit u w)
  | (who, _) => raiseCause m h.1 h.2.1 who

/-- A place that frees in a queue takes the oldest held cause of that cluster (R418); a trap that waited for it is taken. -/
def releaseHeldTrap (m : Mach) (cluster : Nat) : Mach :=
  match m.seq.heldTraps.find? (fun h => h.1 == cluster && !holdsRec m h.2.2.1) with
  | some h =>
    if (shepOf m cluster).queue.length < 64 then
      let others := m.seq.heldTraps.erase h
      let m1 := retakeTrap { m with seq.heldTraps := others.filter (fun x => x.1 != cluster) } h
      { m1 with seq.heldTraps := others.filter (fun x => x.1 == cluster) ++ m1.seq.heldTraps }
    else m
  | none => m

/-- Held records are written in the order in which their units stalled, while there is room (R422); the traps that waited for
them follow (R421). -/
def drainLog (m : Mach) (p : Nat) : Mach :=
  let P := pastOf m p
  let m1 := P.heldRecs.foldl (fun m h => faultRecAt m p h.2.1 h.1 h.2.2) (setPast m p { P with heldRecs := [] })
  let stays := fun h : Nat × Cause × Actor × Bool => holdsRec m1 h.2.2.1
  (m1.seq.heldTraps.filter (fun h => !stays h)).foldl retakeTrap { m1 with seq.heldTraps := m1.seq.heldTraps.filter stays }

/-! ## Activations (R21-R24, R119, R132) -/

/-- Zeroes a context as an abort does: registers, predicates and the arithmetic status word (R22, R110). -/
def abortBank (m : Mach) (core ctx : Nat) : Mach :=
  let m1 := zeroBank m core ctx
  { m1 with pe.astat := tdel (core * 8 + ctx) m1.pe.astat }

/-- A context is released: unbound, its firing counts and buffer gone; a section's record has ended. -/
def releaseCtx (m : Mach) (core ctx : Nat) (aborted : Bool) : Mach :=
  let key := core * 8 + ctx
  match tfind key m.pe.binds with
  | none => m
  | some b =>
    let m1 := { m with
      pe.binds := tdel key m.pe.binds
      pe.commit := tdel key m.pe.commit
      pe.fires := tfilter (fun k => k / 128 != key) m.pe.fires }
    match b.kind with
    | .record s => endRecord m1 s aborted
    | _ => m1

/-- EndActivation (R22, R23): a streaming bank is released; an atomic one commits, or aborts when a buffered store
is poisoned. A routine activation that does not abort stays bound until its step is judged (R369). -/
def endActivation (m : Mach) (who : Actor) (core frame bank : Nat) : Mach :=
  let ctx := frame * 4 + bank
  let key := core * 8 + ctx
  let img := frameImg m core frame
  match tfind key m.pe.binds with
  | none => m
  | some b =>
    let wait := { m with pe.binds := tset key { b with ending := true } m.pe.binds }
    let routine := match b.kind with | .routine .. => true | _ => false
    let buf := if imgAtomic img then tget [] key m.pe.commit else []
    match buf.findSome? (fun e : BufStore => e.poison) with
    | some pv =>
      let v : Val := ⟨pv, true, false⟩
      let m1 := abortBank (releaseCtx m core ctx true) core ctx
      let m2 := faultRec m1 (pastOfActor m who) who (poisonRec v 1)
      trapPoison m2 who v
    | none => if routine || !buf.isEmpty then wait else releaseCtx m core ctx false

/-- DONE (R132): marks the PE's share; the last participating PE ends the activation. -/
def doneShare (m : Mach) (who : Actor) (core pe frame bank : Nat) : Mach :=
  let key := ctxKey core frame bank
  match tfind key m.pe.binds with
  | none => m
  | some b =>
    let d := setBits b.done pe 1 1
    let m1 := { m with pe.binds := tset key { b with done := d } m.pe.binds }
    let img := frameImg m core frame
    if (upto 16).all (fun q => !participates img q || bitAt d q) then endActivation m1 who core frame bank else m1

/-- A waiting write of a context's own priority class is stored as the pasture's cap when above it (R31). -/
def capClass (m : Mach) (p c : Nat) : Nat := min c (pastOf m p).pcap

/-- A fresh request number. -/
def freshId (m : Mach) : Nat × Mach := (m.ids, { m with ids := m.ids + 1 })
/-- The next value of the free counter (log 9). -/
def freshFree (m : Mach) : Nat × Mach := (m.free, { m with free := m.free + 1 })

end Sys2Proof.Machine
end

