-- ==== Sys2Proof/Machine/Operands.lean ====
section
/-! DEFINITION. Operand forms: how a firing PE or an S-form unit reads its sources, applies the poison step, dequeues
channels and delivers a result (R16, R66, R68-R71, R89, R159-R162, R205). -/
namespace Sys2Proof.Machine

/-- The outcome of a step of this machine. -/
abbrev Out := Host.Outcome State Fault Refusal

/-- A meaning that changes the machine proper and always goes on. -/
def lift (g : Mach → Mach) (s : State) : Out := .next { s with m := g s.m }

/-- How an entry reads its operands: integer lanes of a width, floating-point lanes, the narrow lanes of CVT, or a
whole value (an entry without a SHAPE field). -/
inductive LaneK where
  | int (w : Nat)
  | flt (F : FFmt)
  | nar (F : FFmt)
  | whole
  deriving DecidableEq, Repr

/-- Where an instruction's result goes: an operand code or a predicate. -/
inductive DstK where
  | opd (o : Opd)
  | pred (n : Nat)
  | none
  deriving DecidableEq, Repr

/-! ## Lanes (R72, R159) -/

/-- Lanes of `w` bits packed from lane 0 upward. -/
def packLanes (w : Nat) : List Nat → Nat
  | [] => 0
  | x :: xs => x % 2 ^ w + 2 ^ w * packLanes w xs
/-- Lane `i` of width `w`. -/
def lane (w x i : Nat) : Nat := bits x (w * i) w
def lanesOf (w n x : Nat) : List Nat := (upto n).map (lane w x)
def spread (w n x : Nat) : Nat := packLanes w (List.replicate n x)

/-- A lane operation applied to `n` lanes of A, B and D: the lanes and the union of the flags. -/
def onLanes (w n : Nat) (op : Nat → Nat → Nat → Nat × Nat) (a b d : Nat) : Nat × Nat :=
  let rs := (upto n).map (fun i => op (lane w a i) (lane w b i) (lane w d i))
  (packLanes w (rs.map (·.1)), orFlags (rs.map (·.2)))

/-! ## Sources (R68-R71) -/

/-- An immediate as the lanes of the entry read it (R70). -/
def immBits (k : LaneK) (v : BitVec 7) : Nat :=
  match k with
  | .int w => spread w (128 / w) (wrapI w v.toInt)
  | .flt F => spread F.width (128 / F.width) (roundTo (xint v.toInt) F .rne true).1
  | .nar F => spread F.width (128 / F.width) (roundTo (xint v.toInt) F .rne true).1
  | .whole => wrapI 128 v.toInt

/-- Lane width for `lane`, `bank`, `act` and `core`: SHAPE 000 for entries without a shape (R70). -/
def laneWidth : LaneK → Nat
  | .int w => w | .flt F => F.width | .nar _ => 32 | .whole => 32

/-- The register code of a register operand (R68). -/
def regCode : Opd → Option Nat
  | .r n => some n.val
  | .o n => some (0x20 + n.val)
  | .l n => some (0x28 + n.val)
  | _ => none

/-- The value that an empty channel yields: free (log 23). -/
def emptyHead (m : Mach) : Token :=
  let x := Config.freeHead m.free
  ⟨⟨BitVec.ofNat 128 x.toNat, bitAt x.toNat 133, bitAt x.toNat 130⟩, bitAt x.toNat 131, bitAt x.toNat 132,
    bits x.toNat 128 2⟩

def headOf (m : Mach) (core pe ch : Nat) : Token := (headTok m (chanKey core pe ch)).getD (emptyHead m)

/-- The number that code 0x2F reads in an S-form unit (R68): the cluster, or the unit number within its die or hub. An edge tile
counts over the four clusters of its compute die and a plinth tile over its stack's base die (log 87). -/
def unitNo (u : Nat) : Nat :=
  if u < 128 then u / 8 else if u < 144 then u - 128 else if u < 272 then (u - 144) % 32
  else if u < 336 then (u - 272) % 8 else u - 336

/-- A source operand as its PE or unit reads it (R68, R70, R71). -/
def srcVal (m : Mach) (k : LaneK) (o : Opd) : Val :=
  match m.cur with
  | .pe core pe frame _ bank _ =>
    let w := laneWidth k
    match o with
    | .r n => peReg m core pe (frame * 4 + bank) n.val
    | .o n => peReg m core pe (frame * 4 + bank) (0x20 + n.val)
    | .l n => peReg m core pe (frame * 4 + bank) (0x28 + n.val)
    | .zero => Val.none
    | .ones => Val.ofNat (onesN 128)
    | .lane => Val.ofNat (packLanes w (upto (128 / w)))
    | .bank => Val.ofNat (spread w (128 / w) bank)
    | .act => Val.ofNat (spread w (128 / w) (actOf m m.cur))
    | .core => Val.ofNat (spread w (128 / w) core)
    | .inC n => (headOf m core pe n.val).val
    | .imm v => Val.ofNat (immBits k v)
    | .outC _ => Val.none
    | .h _ => Val.none
  | .unit u _ =>
    match o with
    | .r n => Val.ofNat (sReg m u n.val)
    | .ones => Val.ofNat (onesN 64)
    | .core => Val.ofNat (unitNo u)
    | .imm v => Val.ofNat (wrapI 64 v.toInt)
    | .inC _ => match (tfind u m.copy.tiles).bind (fun b => b.inq.head?) with
      | some t => t.val
      | none => Val.none
    | _ => Val.none
  | .idle => Val.none

/-- The input channels that operands name, once each. -/
def inChans (os : List Opd) : List Nat :=
  (os.filterMap (fun o => match o with | .inC n => some n.val | _ => none)).dedup

/-- The dequeues of R16 for the source operands of a PE; KP keeps every channel. A channel that the first pair
emptied draws a free head (log 23). -/
def deqSrcs (m : Mach) (os : List Opd) : Mach :=
  match m.cur with
  | .pe core pe _ _ _ keep =>
    (inChans os).foldl (fun m ch =>
      let k := chanKey core pe ch
      if (chanOf m k).fifo.isEmpty then { m with free := m.free + 1 }
      else if keep then m else dequeue m k) m
  | _ => m

/-! ## Results -/

/-- Whether a request with a place on a PE's output is outstanding (R204). -/
def outHeld (m : Mach) (core pe ch : Nat) : Bool :=
  m.mem.reqs.any (fun r => match r.dst with | .out c q h _ => c == core && q == pe && h == ch | _ => false)

/-- A token of an instruction's own that waits behind earlier results of its destination. -/
def queueTok (m : Mach) (dst : Dst) (t : Token) : Mach :=
  { m with ids := m.ids + 1, mem.reqs := m.mem.reqs ++ [⟨m.ids, m.cur, actOf m m.cur, sectOf m m.cur, pastOfActor m m.cur,
      dst, .tile, 5, false, false, none, none, false, none, none, true, some [t]⟩] }

/-- Emit of an instruction: the token leaves at once, or behind the results that keep their place on the output before it
(R204, R259, R316; log 82). -/
def emitOut (m : Mach) (core pe ch : Nat) (t : Token) : Mach :=
  if outHeld m core pe ch then queueTok m (.out core pe ch t.ctx) t else emitTok m m.cur core pe ch t

/-- Delivers a value that an instruction forms itself: Emit (from a loader behind the results of its loads, R270), a register write, or a discard; a poisoned value that
reaches `zero`, a predicate or a handle has reached a sink (R88, R89, R160). -/
def putTok (m : Mach) (d : DstK) (t : Token) : Mach :=
  match m.cur with
  | .pe core pe frame _ bank _ =>
    match d with
    | .opd (.outC n) => emitOut m core pe n.val t
    | .opd o => match regCode o with
      | some c => setPeReg m core pe (frame * 4 + bank) c t.val
      | none => if t.val.poison then poisonSink m m.cur t.val else m
    | _ => if t.val.poison then poisonSink m m.cur t.val else m
  | .unit u _ =>
    match d with
    | .opd (.r n) => setSReg m u n.val (bits t.val.pay.toNat 0 64)
    | .opd (.outC _) => if tileBusy m u then queueTok m (.tile u) t else loaderEmit m u t
    | _ => m
  | .idle => m

/-- The firing bank, for the CTX of an emitted token. -/
def firingBank (m : Mach) : Nat := match m.cur with | .pe _ _ _ _ bank _ => bank | _ => 0

/-- A result with kind bits 0. -/
def putRes (m : Mach) (d : DstK) (v : Val) : Mach := putTok m d ⟨v, false, false, firingBank m⟩

/-- Writes a predicate of the firing bank or of the unit. -/
def setPred (m : Mach) (n : Nat) (v : Bool) : Mach :=
  match m.cur with
  | .pe core pe frame _ bank _ =>
    let ctx := frame * 4 + bank
    setPePred m core pe ctx (setBits (pePred m core pe ctx) n 1 (if v then 1 else 0))
  | .unit u _ => setSPred m u n v
  | .idle => m
def getPred (m : Mach) (n : Nat) : Bool :=
  match m.cur with
  | .pe core pe frame _ bank _ => bitAt (pePred m core pe (frame * 4 + bank)) n
  | .unit u _ => bitAt (unitOf m u).p.toNat n
  | .idle => false

/-- R100, R161: ORs flags into the firing context's arithmetic status word, or into the unit's SSTAT. -/
def sticky (m : Mach) (f : Nat) : Mach :=
  match m.cur with
  | .pe core _ frame _ bank _ => stickyPe m core (frame * 4 + bank) f
  | .unit u _ =>
    let x := unitOf m u
    setUnit m u { x with sstat := BitVec.ofNat 64 (x.sstat.toNat ||| f) }
  | .idle => m

/-! ## Starting an instruction -/

/-- Whether an s register is the D of an outstanding instruction (R66). -/
def sOutstanding (m : Mach) (u r : Nat) : Bool :=
  let hits := fun d : Dst => match d with
    | .sreg v x => v == u && x == r
    | .spair v x => v == u && (x == r || x + 1 == r)
    | _ => false
  let mine := fun p => isShepherd u || (unitOf m u).past == p
  m.mem.reqs.any (fun q => hits q.dst && mine q.past) || m.mem.park.any (fun e => hits e.2.2.1 && mine e.1)

/-- The s registers that operands name. -/
def sRegs (os : List Opd) : List Nat :=
  os.filterMap (fun o => match o with | .r n => some n.val | _ => none)

def dstOpds : DstK → List Opd
  | .opd o => [o]
  | _ => []

def isInC : Opd → Bool
  | .inC _ => true
  | _ => false

/-- A stalled word takes no effect (R66). -/
def stall (m : Mach) : Mach := { m with ctl := .stall }

/-- The common start of an S-form word that reads `os` and writes `d`: the register stall of R66, and the read of a
storer's in0, which stalls while it is empty, writes p0 before the word's own effect and traps on poison (R268; log 24). -/
def sStart (m : Mach) (u w : Nat) (os : List Opd) (more : List Nat) (eff : Mach → Mach) : Mach :=
  if (sRegs os ++ more).any (sOutstanding m u) then stall m
  else if os.any isInC then
    match tfind u m.copy.tiles with
    | some b =>
      match b.inq with
      | [] => stall m
      | t :: rest =>
        let m1 := { m with copy.tiles := tset u { b with inq := rest } m.copy.tiles }
        if t.val.poison then
          trapUnit (faultRec m1 (pastOfActor m m.cur) m.cur (poisonRec t.val 0)) u w 0x07 (bits t.val.pay.toNat 0 64)
        else eff (setSPred m1 u 0 t.eos)
    | none => stall m
  else eff m

/-- The start of an instruction: sources are read in the order A, B, D; in a PE the channels are dequeued and the
poison step of R89 applies; in an S-form unit the stalls of R66 apply. The effect gets the values. -/
def fireK (rd : List (LaneK × Opd)) (d : DstK) (onPoison : Val → Mach → Mach) (eff : List Val → Mach → Mach)
    (m : Mach) : Mach :=
  let vs := rd.map (fun x => srcVal m x.1 x.2)
  match m.cur with
  | .idle => m
  | .pe .. =>
    let m1 := deqSrcs m (rd.map (·.2))
    match poisonStep vs with
    | some v => onPoison v m1
    | none => eff vs m1
  | .unit u w => sStart m u w (rd.map (·.2) ++ dstOpds d) [] (eff vs)

/-- The start of an instruction whose poison step delivers the merged poison to D. -/
def fire (rd : List (LaneK × Opd)) (d : DstK) (eff : List Val → Mach → Mach) (m : Mach) : Mach :=
  fireK rd d (fun v m1 => putRes m1 d v) eff m

def valAt (vs : List Val) (i : Nat) : Val := (vs[i]?).getD Val.none
def natAt (vs : List Val) (i : Nat) : Nat := (valAt vs i).pay.toNat

/-- The start of an S-form instruction that only reads `os` and writes `d`: the effect gets the unit and the word. -/
def sFire (os : List Opd) (d : List Opd) (eff : Nat → Nat → List Nat → Mach → Mach) (m : Mach) : Mach :=
  match m.cur with
  | .unit u w => sStart m u w (os ++ d) [] (eff u w (os.map (fun o => (srcVal m .whole o).pay.toNat)))
  | _ => m

/-- Writes an s register, or discards (D of the sequencing classes). -/
def putS (m : Mach) (u : Nat) (d : Opd) (v : Nat) : Mach :=
  match d with
  | .r n => setSReg m u n.val v
  | _ => m

/-! ## Shapes of computation -/

/-- Integer and logic entries (R160, R161, R165): lanes of the shape in a PE, one scalar in an S-form unit, whose
32-bit result is sign-extended (R73). -/
def intLanes (m : Mach) (sh : Shape) (op : Nat → Nat → Nat → Nat × Nat) (a b d : Nat) : Nat × Nat :=
  let w := sh.width
  match m.cur with
  | .unit .. =>
    let x := op (a % 2 ^ w) (b % 2 ^ w) (d % 2 ^ w)
    (if w = 64 then x.1 % 2 ^ 64 else sext w 64 x.1, x.2)
  | _ => onLanes w (128 / w) op a b d

/-- An integer entry with sources A and B, and D when `readD`. -/
def intEntry (sh : Shape) (readD : Bool) (d a : Opd) (b : Option Opd) (op : Nat → Nat → Nat → Nat × Nat) : Mach → Mach :=
  let k := LaneK.int sh.width
  let rd := (k, a) :: ((match b with | some x => [(k, x)] | none => []) ++ (if readD then [(k, d)] else []))
  fire rd (.opd d) (fun vs m =>
    let nb := if b.isSome then natAt vs 1 else 0
    let nd := if readD then natAt vs (if b.isSome then 2 else 1) else 0
    let x := intLanes m sh op (natAt vs 0) nb nd
    sticky (putRes m (.opd d) (Val.ofNat x.1)) x.2)

/-- The first source that fails the scale check of R107: pairs of a value and whether its entry names it as
scale-carrying, in the order A, B, D. The result is the scaled bit received. -/
def scaleBad (xs : Bool) (l : List (Val × Bool)) : Option Bool :=
  (l.find? (fun x => if x.2 then x.1.scaled != xs else x.1.scaled)).map (fun x => x.1.scaled)

/-- The poison of a failed scale check (R107). -/
def scalePoison (m : Mach) (bit : Bool) : Val := poison m m.cur 0x05 (if bit then 1 else 0)

/-- Applies the scale check and then an effect. -/
def scaleCheck (xs : Bool) (l : List (Val × Bool)) (d : DstK) (eff : Mach → Mach) (m : Mach) : Mach :=
  match scaleBad xs l with
  | some bit => putRes m d (scalePoison m bit)
  | none => eff m

/-- A floating-point entry (R160, R172, R173): `carry` says which of A, B and D carry scales. -/
def fltEntry (F : FFmt) (xs readD : Bool) (carry : Bool × Bool × Bool) (d a : Opd) (b : Option Opd)
    (op : Nat → Nat → Nat → Nat × Nat) : Mach → Mach :=
  let k := LaneK.flt F
  let rd := (k, a) :: ((match b with | some x => [(k, x)] | none => []) ++ (if readD then [(k, d)] else []))
  fire rd (.opd d) (fun vs m =>
    let vb := if b.isSome then valAt vs 1 else Val.none
    let vd := if readD then valAt vs (if b.isSome then 2 else 1) else Val.none
    let chk := (valAt vs 0, carry.1) :: ((if b.isSome then [(vb, carry.2.1)] else []) ++ (if readD then [(vd, carry.2.2)] else []))
    scaleCheck xs chk (.opd d) (fun m =>
      let x := onLanes F.width (128 / F.width) op (natAt vs 0) vb.pay.toNat vd.pay.toNat
      sticky (putRes m (.opd d) ⟨BitVec.ofNat 128 x.1, false, xs⟩) x.2) m)

/-! ## Requests as accesses (R244) -/

/-- Bytes of an AMO or RED operation (R228). -/
def AmoOp.bytes : AmoOp → Nat
  | .add8 => 8 | .minn8 => 8 | .maxn8 => 8 | .and8 => 8 | .or8 => 8 | .xor8 => 8 | .swap8 => 8
  | _ => 4

/-- Bytes of a RAMO operation (R402). -/
def RamoOp.bytes : RamoOp → Nat
  | .add4 => 4 | .swap4 => 4 | .cas4 => 4 | .cas16 => 16 | _ => 8

/-- The place, width and kind of access of a request that touches memory by itself. -/
def reqPlace (r : Req) : Option (Place × Nat × AccK) :=
  match r.op with
  | .load pl n _ => some (pl, n, .rd)
  | .store pl n _ => some (pl, n, .wr)
  | .amo op ea _ _ => some (.virt ea, AmoOp.bytes op, .atomW)
  | .cas ea n _ _ => some (.virt ea, n, .atomW)
  | .waita ea n _ _ => some (if ea / 2 ^ 56 = 0xFF then .scratch (ea % 2 ^ 32) else .virt ea, n, .atomR)
  | .arrive ea _ => some (.virt ea, 8, .atomW)
  | .waitc ea _ sub => some (.virt ea, 8, if sub then .atomW else .atomR)
  | .futw ea _ => some (.virt ea, 16, .atomW)
  | .futr ea => some (.virt ea, 16, .atomR)
  | .append p n _ => some (.virt p, n, .app)
  | .publ p _ _ => some (.virt p, 1, .app)
  | .snap _ _ p _ => some (.virt p, 1, .snap)
  | .ramo op ea _ _ => some (.virt ea, RamoOp.bytes op, .ramo)
  | _ => none

/-- Requests that are accesses of a chain (R244, R249): copies and prefetches are the work of engines, but the descriptor of a COPYA or
COPYI that is still to be issued is read in the chain (R263, R264). -/
def isAcc (r : Req) : Bool :=
  match r.op with
  | .fence .. => true | .mon _ => true | .mwait => true | .bar _ => true | .iwalk .. => true | .spmx .. => true
  | .mcst .. => true | .mcstq .. => true | .bopen .. => true | .bclose _ => true | .cflush .. => true | .keyi .. => true
  | .copy k _ _ _ _ _ _ _ _ judged => k != 0 && !judged
  | _ => (reqPlace r).isSome

/-- Operations on memory that ended work leaves behind it: accesses of its chains, prefetches, and entries for a queue; a condition
of a context is none (R152). -/
def memOp (r : Req) : Bool :=
  match r.op with
  | .fence .. => false | .mwait => false | .bar _ => false
  | .pft .. => true | .exq .. => true
  | _ => isAcc r

/-- Whether an access of a unit, of those below request number `id`, is still to be performed: work that the unit started as
request `id` waits for it (R410). `sect` names the program that the unit ran. -/
def startHeld (m : Mach) (u sect id : Nat) : Bool :=
  m.mem.reqs.any (fun q => q.id < id && !q.done && isAcc q && q.sect == sect
    && (match q.who with | .unit v _ => v == u | _ => false))

end Sys2Proof.Machine
end

