-- ==== Sys2Proof/Machine/Arith.lean ====
section
/-! DEFINITION. Integer, logic, shift, compare, select and address instructions, classes 0x1_ and 0x2_ (R159-R171). -/
namespace Sys2Proof.Machine

/-- The exact value reduced to the lane: wrapped, or saturated with OV (R165). -/
def sgnRes (w : Nat) (sat : Bool) (x : Int) : Nat × Nat :=
  let hi : Int := 2 ^ (w - 1)
  if -hi ≤ x ∧ x < hi then (wrapI w x, 0)
  else if sat then (wrapI w (if x < 0 then -hi else hi - 1), fOV)
  else (wrapI w x, 0)
def unsRes (w : Nat) (x : Int) : Nat × Nat :=
  if 0 ≤ x ∧ x < 2 ^ w then (x.toNat, 0) else (if x < 0 then 0 else onesN w, fOV)

/-- The lane operations of R164 and R165, by name of their entry. -/
def opAdd (w a b _d : Nat) : Nat × Nat := sgnRes w false (sgn w a + sgn w b)
def opSub (sat : Bool) (w a b _d : Nat) : Nat × Nat := sgnRes w sat (sgn w a - sgn w b)
def opAdds (w a b _d : Nat) : Nat × Nat := sgnRes w true (sgn w a + sgn w b)
def opAddn (w a b _d : Nat) : Nat × Nat := unsRes w ((a : Int) + b)
def opMul (sat : Bool) (w a b _d : Nat) : Nat × Nat := sgnRes w sat (sgn w a * sgn w b)
def opMulh (w a b _d : Nat) : Nat × Nat := (wrapI w (Int.fdiv (sgn w a * sgn w b) (2 ^ w)), 0)
def opMulhn (w a b _d : Nat) : Nat × Nat := (a * b / 2 ^ w, 0)
def opMad (sat : Bool) (w a b d : Nat) : Nat × Nat := sgnRes w sat (sgn w d + sgn w a * sgn w b)
def opDiv (w a b _d : Nat) : Nat × Nat :=
  if b = 0 then (0, fDZ)
  else if sgn w a = -(2 ^ (w - 1) : Int) ∧ sgn w b = -1 then (a, fOV)
  else (wrapI w (Int.tdiv (sgn w a) (sgn w b)), 0)
def opDivn (_w a b _d : Nat) : Nat × Nat := if b = 0 then (0, fDZ) else (a / b, 0)
def opRem (w a b _d : Nat) : Nat × Nat :=
  if b = 0 then (a, fDZ) else (wrapI w (Int.tmod (sgn w a) (sgn w b)), 0)
def opMin (w a b _d : Nat) : Nat × Nat := (if sgn w a ≤ sgn w b then a else b, 0)
def opMax (w a b _d : Nat) : Nat × Nat := (if sgn w a ≤ sgn w b then b else a, 0)
def opMinn (_w a b _d : Nat) : Nat × Nat := (if a ≤ b then a else b, 0)
def opMaxn (_w a b _d : Nat) : Nat × Nat := (if a ≤ b then b else a, 0)
def opAbs (sat : Bool) (w a _b _d : Nat) : Nat × Nat := sgnRes w sat ((sgn w a).natAbs : Int)

def execAdd (f : ShF) (d a b : Opd) (s : State) : Out := lift (intEntry f.shape false d a (some b) (opAdd f.shape.width)) s
def execSub (f : IntF) (d a b : Opd) (s : State) : Out := lift (intEntry f.shape false d a (some b) (opSub f.sat f.shape.width)) s
def execAdds (f : ShF) (d a b : Opd) (s : State) : Out := lift (intEntry f.shape false d a (some b) (opAdds f.shape.width)) s
def execAddn (f : ShF) (d a b : Opd) (s : State) : Out := lift (intEntry f.shape false d a (some b) (opAddn f.shape.width)) s
def execMul (f : IntF) (d a b : Opd) (s : State) : Out := lift (intEntry f.shape false d a (some b) (opMul f.sat f.shape.width)) s
def execMulh (f : ShF) (d a b : Opd) (s : State) : Out := lift (intEntry f.shape false d a (some b) (opMulh f.shape.width)) s
def execMulhn (f : ShF) (d a b : Opd) (s : State) : Out := lift (intEntry f.shape false d a (some b) (opMulhn f.shape.width)) s
def execMad (f : IntF) (d a b : Opd) (s : State) : Out := lift (intEntry f.shape true d a (some b) (opMad f.sat f.shape.width)) s
def execDiv (f : ShF) (d a b : Opd) (s : State) : Out := lift (intEntry f.shape false d a (some b) (opDiv f.shape.width)) s
def execDivn (f : ShF) (d a b : Opd) (s : State) : Out := lift (intEntry f.shape false d a (some b) (opDivn f.shape.width)) s
def execRem (f : ShF) (d a b : Opd) (s : State) : Out := lift (intEntry f.shape false d a (some b) (opRem f.shape.width)) s
def execMin (f : ShF) (d a b : Opd) (s : State) : Out := lift (intEntry f.shape false d a (some b) (opMin f.shape.width)) s
def execMax (f : ShF) (d a b : Opd) (s : State) : Out := lift (intEntry f.shape false d a (some b) (opMax f.shape.width)) s
def execMinn (f : ShF) (d a b : Opd) (s : State) : Out := lift (intEntry f.shape false d a (some b) (opMinn f.shape.width)) s
def execMaxn (f : ShF) (d a b : Opd) (s : State) : Out := lift (intEntry f.shape false d a (some b) (opMaxn f.shape.width)) s
def execAbs (f : IntF) (d a : Opd) (s : State) : Out := lift (intEntry f.shape false d a none (opAbs f.sat f.shape.width)) s

/-! ## Logic, shifts and bit fields (R166, R167) -/

def opAnd (_w a b _d : Nat) : Nat × Nat := (a &&& b, 0)
def opOr (_w a b _d : Nat) : Nat × Nat := (a ||| b, 0)
def opXor (_w a b _d : Nat) : Nat × Nat := (a ^^^ b, 0)
def opAndn (w a b _d : Nat) : Nat × Nat := (a &&& (onesN w - b), 0)
def opShl (sat : Bool) (w a b _d : Nat) : Nat × Nat :=
  if sat then sgnRes w true (sgn w a * 2 ^ (b % w)) else (a * 2 ^ (b % w) % 2 ^ w, 0)
def opShr (w a b _d : Nat) : Nat × Nat := (a / 2 ^ (b % w), 0)
def opSha (w a b _d : Nat) : Nat × Nat := (wrapI w (Int.fdiv (sgn w a) (2 ^ (b % w))), 0)
def opRot (w a b _d : Nat) : Nat × Nat := (rotl w a (b % w), 0)
def opClz (w a _b _d : Nat) : Nat × Nat := (clz w a, 0)
def opPopc (w a _b _d : Nat) : Nat × Nat := (popc w a, 0)

def bfPos (w b : Nat) : Nat := bits b 0 8 % w
def bfLen (w b : Nat) : Nat := Nat.min (bits b 8 8) (w - bfPos w b)
def opBfx (sx : Bool) (w a b _d : Nat) : Nat × Nat :=
  let len := bfLen w b
  let f := a / 2 ^ bfPos w b % 2 ^ len
  (if sx && len != 0 then sext len w f else f, 0)
def opBfi (w a b d : Nat) : Nat × Nat := (setBits d (bfPos w b) (bfLen w b) a, 0)

def execAnd (f : ShF) (d a b : Opd) (s : State) : Out := lift (intEntry f.shape false d a (some b) (opAnd f.shape.width)) s
def execOr (f : ShF) (d a b : Opd) (s : State) : Out := lift (intEntry f.shape false d a (some b) (opOr f.shape.width)) s
def execXor (f : ShF) (d a b : Opd) (s : State) : Out := lift (intEntry f.shape false d a (some b) (opXor f.shape.width)) s
def execAndn (f : ShF) (d a b : Opd) (s : State) : Out := lift (intEntry f.shape false d a (some b) (opAndn f.shape.width)) s
def execShl (f : IntF) (d a b : Opd) (s : State) : Out := lift (intEntry f.shape false d a (some b) (opShl f.sat f.shape.width)) s
def execShr (f : ShF) (d a b : Opd) (s : State) : Out := lift (intEntry f.shape false d a (some b) (opShr f.shape.width)) s
def execSha (f : ShF) (d a b : Opd) (s : State) : Out := lift (intEntry f.shape false d a (some b) (opSha f.shape.width)) s
def execRot (f : ShF) (d a b : Opd) (s : State) : Out := lift (intEntry f.shape false d a (some b) (opRot f.shape.width)) s
def execClz (f : ShF) (d a : Opd) (s : State) : Out := lift (intEntry f.shape false d a none (opClz f.shape.width)) s
def execPopc (f : ShF) (d a : Opd) (s : State) : Out := lift (intEntry f.shape false d a none (opPopc f.shape.width)) s
def execBfx (f : BfxF) (d a b : Opd) (s : State) : Out := lift (intEntry f.shape false d a (some b) (opBfx f.sx f.shape.width)) s
def execBfi (f : ShF) (d a b : Opd) (s : State) : Out := lift (intEntry f.shape true d a (some b) (opBfi f.shape.width)) s

/-! ## Compare, select, address and literal (R168-R171) -/

def cmpHolds (w : Nat) : CmpCond → Nat → Nat → Bool
  | .eq, a, b => a == b
  | .ne, a, b => a != b
  | .lt, a, b => decide (sgn w a < sgn w b)
  | .le, a, b => decide (sgn w a ≤ sgn w b)
  | .ltn, a, b => decide (a < b)
  | .len, a, b => decide (a ≤ b)
  | .tst, a, b => (a &&& b) != 0

/-- Whether a relation holds in every lane: all lanes of the shape in a PE, the scalar in an S-form unit. -/
def allLanes (m : Mach) (w : Nat) (rel : Nat → Nat → Bool) (a b : Nat) : Bool :=
  match m.cur with
  | .unit .. => rel (a % 2 ^ w) (b % 2 ^ w)
  | _ => (upto (128 / w)).all (fun i => rel (lane w a i) (lane w b i))

/-- CMP (R168). -/
def cmpG (f : CmpF) (p : Nat) (a b : Opd) : Mach → Mach :=
  let w := f.shape.width
  fire [(.int w, a), (.int w, b)] (.pred p) (fun vs m =>
    setPred m p (allLanes m w (cmpHolds w f.cond) (natAt vs 0) (natAt vs 1)))
def execCmp (f : CmpF) (d : Fin 8) (a b : Opd) (s : State) : Out := lift (cmpG f d.val a b) s

/-- SEL (R169): all bits and both side bits of A or B. The predicate is read as it stood when the word began (R6). -/
def selG (p : Nat) (d a b : Opd) (m0 : Mach) : Mach :=
  fire [(.whole, a), (.whole, b)] (.opd d) (fun vs m =>
    putRes m (.opd d) (if getPred m0 p then valAt vs 0 else valAt vs 1)) m0
def execSel (f : SelF) (d a b : Opd) (s : State) : Out := lift (selG f.p.val d a b) s

/-- LEA (R170). -/
def opLea (sh w a b _d : Nat) : Nat × Nat := ((a + b * 2 ^ sh) % 2 ^ w, 0)
def execLea (f : LeaF) (d a b : Opd) (s : State) : Out := lift (intEntry f.shape false d a (some b) (opLea f.sh.val f.shape.width)) s

/-- LIMM (R171): `.low` does not read D; `.mid` and `.top` replace bits [43:22] and [63:44]. -/
def limmG (form : LimmForm) (v : BitVec 22) (d : Opd) : Mach → Mach :=
  match form with
  | .low => fire [] (.opd d) (fun _ m => putRes m (.opd d) (Val.ofNat v.toNat))
  | .mid => fire [(.whole, d)] (.opd d) (fun vs m => putRes m (.opd d) (Val.ofNat (setBits (natAt vs 0) 22 22 v.toNat)))
  | .top => fire [(.whole, d)] (.opd d) (fun vs m => putRes m (.opd d) (Val.ofNat (setBits (natAt vs 0) 44 20 v.toNat)))
def execLimm (form : LimmForm) (v : BitVec 22) (d : Opd) (s : State) : Out := lift (limmG form v d) s

end Sys2Proof.Machine
end

