-- ==== Sys2Proof/Machine/Float.lean ====
section
/-! DEFINITION. Floating-point instructions, class 0x3_ (R172-R177). -/
namespace Sys2Proof.Machine

/-- FP32 lanes under SHAPE 000, BF16 lanes under SHAPE 001 (R159). -/
def fmtOf : Shape → FFmt
  | .s16 => .bf16
  | _ => .f32

/-- Lane operations of R173: the exact value, rounded once (R101). -/
def fopAdd (F : FFmt) (r : Rnd) (sat : Bool) (a b _d : Nat) : Nat × Nat :=
  finish (xadd r (fval F a) (fval F b)) F r sat (snanFlag F [a, b])
def fopSub (F : FFmt) (r : Rnd) (sat : Bool) (a b _d : Nat) : Nat × Nat :=
  finish (xadd r (fval F a) (xneg (fval F b))) F r sat (snanFlag F [a, b])
def fopMul (F : FFmt) (r : Rnd) (sat : Bool) (a b _d : Nat) : Nat × Nat :=
  finish (xmul (fval F a) (fval F b)) F r sat (snanFlag F [a, b])
def fopFma (F : FFmt) (r : Rnd) (sat : Bool) (a b d : Nat) : Nat × Nat :=
  let p := xmul (fval F a) (fval F b)
  finish (xadd r p.1 (fval F d)) F r sat (if isNanCode F d then snanFlag F [a, b, d] else p.2 ||| snanFlag F [a, b, d])
def fopFnma (F : FFmt) (r : Rnd) (sat : Bool) (a b d : Nat) : Nat × Nat :=
  let p := xmul (fval F a) (fval F b)
  finish (xadd r (fval F d) (xneg p.1)) F r sat (if isNanCode F d then snanFlag F [a, b, d] else p.2 ||| snanFlag F [a, b, d])
def fopDiv (F : FFmt) (r : Rnd) (sat : Bool) (a b _d : Nat) : Nat × Nat :=
  finish (xdiv (fval F a) (fval F b)) F r sat (snanFlag F [a, b])
def fopUn (g : XR → XR × Nat) (F : FFmt) (r : Rnd) (sat : Bool) (a _b _d : Nat) : Nat × Nat :=
  finish (g (fval F a)) F r sat (snanFlag F [a])
def fopMin (F : FFmt) (a b _d : Nat) : Nat × Nat := minMaxNum F false a b
def fopMax (F : FFmt) (a b _d : Nat) : Nat × Nat := minMaxNum F true a b
/-- FSGN (R175): only the sign bit of a non-NaN lane changes. A signalling NaN input sets NV (R95),
    B's lane being an input under `.cps` alone. -/
def fopSgn (F : FFmt) (op : SgnOp) (a b _d : Nat) : Nat × Nat :=
  let nv := snanFlag F (if op = .cps then [a, b] else [a])
  if isNanCode F a then (F.canon, nv)
  else
    let mag := a % 2 ^ (F.width - 1)
    match op with
    | .abs => (mag, nv)
    | .neg => (mag + signBit F (!signOf F a), nv)
    | .cps => (mag + signBit F (signOf F b), nv)

def execFadd (f : FpF) (d a b : Opd) (s : State) : Out :=
  lift (fltEntry (fmtOf f.shape) f.xs false (true, true, false) d a (some b) (fopAdd (fmtOf f.shape) f.rnd f.sat)) s
def execFsub (f : FpF) (d a b : Opd) (s : State) : Out :=
  lift (fltEntry (fmtOf f.shape) f.xs false (true, true, false) d a (some b) (fopSub (fmtOf f.shape) f.rnd f.sat)) s
def execFmul (f : FpF) (d a b : Opd) (s : State) : Out :=
  lift (fltEntry (fmtOf f.shape) f.xs false (true, false, false) d a (some b) (fopMul (fmtOf f.shape) f.rnd f.sat)) s
def execFma (f : FpF) (d a b : Opd) (s : State) : Out :=
  lift (fltEntry (fmtOf f.shape) f.xs true (true, false, true) d a (some b) (fopFma (fmtOf f.shape) f.rnd f.sat)) s
def execFnma (f : FpF) (d a b : Opd) (s : State) : Out :=
  lift (fltEntry (fmtOf f.shape) f.xs true (true, false, true) d a (some b) (fopFnma (fmtOf f.shape) f.rnd f.sat)) s
def execFmin (f : FmmF) (d a b : Opd) (s : State) : Out :=
  lift (fltEntry (fmtOf f.shape) f.xs false (true, true, false) d a (some b) (fopMin (fmtOf f.shape))) s
def execFmax (f : FmmF) (d a b : Opd) (s : State) : Out :=
  lift (fltEntry (fmtOf f.shape) f.xs false (true, true, false) d a (some b) (fopMax (fmtOf f.shape))) s
def execFsgn (f : FsgnF) (d a b : Opd) (s : State) : Out :=
  lift (fltEntry (fmtOf f.shape) f.xs false (true, true, false) d a (if f.op = .cps then some b else none)
    (fopSgn (fmtOf f.shape) f.op)) s
def execFdiv (f : FpF) (d a b : Opd) (s : State) : Out :=
  lift (fltEntry (fmtOf f.shape) f.xs false (true, false, false) d a (some b) (fopDiv (fmtOf f.shape) f.rnd f.sat)) s
def execFsqrt (f : FpF) (d a : Opd) (s : State) : Out :=
  lift (fltEntry (fmtOf f.shape) f.xs false (false, false, false) d a none (fopUn xsqrt (fmtOf f.shape) f.rnd f.sat)) s
def execFrcp (f : FpF) (d a : Opd) (s : State) : Out :=
  lift (fltEntry (fmtOf f.shape) f.xs false (false, false, false) d a none (fopUn xrcp (fmtOf f.shape) f.rnd f.sat)) s
def execFrsq (f : FpF) (d a : Opd) (s : State) : Out :=
  lift (fltEntry (fmtOf f.shape) f.xs false (false, false, false) d a none (fopUn xrsq (fmtOf f.shape) f.rnd f.sat)) s
def execFexp2 (f : FpF) (d a : Opd) (s : State) : Out :=
  lift (fltEntry (fmtOf f.shape) f.xs false (false, false, false) d a none (fopUn xexp2 (fmtOf f.shape) f.rnd f.sat)) s
def execFlog2 (f : FpF) (d a : Opd) (s : State) : Out :=
  lift (fltEntry (fmtOf f.shape) f.xs false (false, false, false) d a none (fopUn xlog2 (fmtOf f.shape) f.rnd f.sat)) s

/-- The conditions of R176 on the relation of two lanes; none is unordered. -/
def fcondHolds : FCond → Option Ordering → Bool
  | .eq, o => o == some .eq
  | .ne, o => o != some .eq
  | .lt, o => o == some .lt
  | .le, o => o == some .lt || o == some .eq
  | .un, o => o.isNone
  | .ord, o => o.isSome
  | .uge, o => o != some .lt
  | .ugt, o => o == none || o == some .gt

/-- FCMP (R176). -/
def fcmpG (f : FcmpF) (p : Nat) (a b : Opd) : Mach → Mach :=
  let F := fmtOf f.shape
  fire [(.flt F, a), (.flt F, b)] (.pred p) (fun vs m =>
    scaleCheck f.xs [(valAt vs 0, true), (valAt vs 1, true)] (.pred p) (fun m =>
      let x := natAt vs 0
      let y := natAt vs 1
      let n := 128 / F.width
      let fl := snanFlag F (lanesOf F.width n x ++ lanesOf F.width n y)
      let r := (upto n).all (fun i => fcondHolds f.cond (xcmp (fval F (lane F.width x i)) (fval F (lane F.width y i))))
      sticky (setPred m p r) fl) m)
def execFcmp (f : FcmpF) (d : Fin 8) (a b : Opd) (s : State) : Out := lift (fcmpG f d.val a b) s

/-- The exact sum of FDOT and its NV flag (R177): NV for 0 x infinity and for infinities of both signs. -/
def dotSum (r : Rnd) (d : XR) (ps : List (XR × Nat)) : XR × Nat :=
  let ts := d :: ps.map (·.1)
  let opp := ts.any (· == .inf false) && ts.any (· == .inf true)
  ((xsum r ts).1, orFlags (ps.map (·.2)) ||| (if opp then fNV else 0))

/-- FDOT (R177): d is read as FP32 from D[31:0] in both shapes. -/
def fdotG (f : FpF) (d a b : Opd) : Mach → Mach :=
  let F := fmtOf f.shape
  fire [(.flt F, a), (.flt F, b), (.flt F, d)] (.opd d) (fun vs m =>
    scaleCheck f.xs [(valAt vs 0, true), (valAt vs 1, false), (valAt vs 2, true)] (.opd d) (fun m =>
      let x := natAt vs 0
      let y := natAt vs 1
      let z := natAt vs 2 % 2 ^ 32
      let n := 128 / F.width
      let ps := (upto n).map (fun i => xmul (fval F (lane F.width x i)) (fval F (lane F.width y i)))
      let fl := snanFlag F (lanesOf F.width n x ++ lanesOf F.width n y) ||| snanFlag .f32 [z]
      let r := finish (dotSum f.rnd (fval .f32 z) ps) .f32 f.rnd f.sat fl
      sticky (putRes m (.opd d) ⟨BitVec.ofNat 128 r.1, false, f.xs⟩) r.2) m)
def execFdot (f : FpF) (d a b : Opd) (s : State) : Out := lift (fdotG f d a b) s

end Sys2Proof.Machine
end

