-- ==== Sys2Proof/Machine/Convert.lean ====
section
/-! DEFINITION. Conversion, scaling, reduction, lane-move, classification and RAND instructions, class 0x4_
(R178-R187). -/
namespace Sys2Proof.Machine

/-- Elements of a conversion (R179): `conv` of the source elements, placed in D's other elements when narrowing. -/
def cvtElems (wt wf part : Nat) (conv : Nat → Nat × Nat) (a d : Nat) : Nat × Nat :=
  let wide := Nat.max wt wf
  let n := 128 / wide
  if wt < wf then
    let rs := (upto n).map (fun i => conv (lane wf a i))
    let blk := packLanes wt (rs.map (·.1))
    (setBits d (part * n * wt) (n * wt) blk, orFlags (rs.map (·.2)))
  else
    let rs := (upto n).map (fun i => conv (lane wf a (part * n + i)))
    (packLanes wt (rs.map (·.1)), orFlags (rs.map (·.2)))

/-- CVT (R179): A carries the scale; a narrowing D is not checked. A widening conversion is exact
    (R99, R179), an infinity included, so SAT acts on the other conversions alone (log 86). -/
def cvtG (f : CvtF) (tf ff : FFmt) (d a : Opd) : Mach → Mach :=
  let nar := tf.width < ff.width
  fire ((.nar ff, a) :: (if nar then [(.whole, d)] else [])) (.opd d) (fun vs m =>
    scaleCheck f.xs [(valAt vs 0, true)] (.opd d) (fun m =>
      let conv := fun x => finish (fval ff x, 0) tf f.rnd (f.sat && decide (tf.width ≤ ff.width)) (snanFlag ff [x])
      let r := cvtElems tf.width ff.width f.part.val conv (natAt vs 0) (natAt vs 1)
      sticky (putRes m (.opd d) ⟨BitVec.ofNat 128 r.1, false, f.xs⟩) r.2) m)
def execCvt (f : CvtF) (tf ff : FFmt) (d a : Opd) (s : State) : Out := lift (cvtG f tf ff d a) s

/-- The conversion of CVTI (R179): extended, then wrapped or saturated with OV. -/
def cvtInt (tt ft : ITy) (sat : Bool) (x : Nat) : Nat × Nat :=
  let v : Int := if ft.signed then sgn ft.width x else (x : Int)
  let lo : Int := if tt.signed then -(2 ^ (tt.width - 1)) else 0
  let hi : Int := if tt.signed then 2 ^ (tt.width - 1) - 1 else 2 ^ tt.width - 1
  if sat ∧ v < lo then (wrapI tt.width lo, fOV)
  else if sat ∧ hi < v then (wrapI tt.width hi, fOV)
  else (wrapI tt.width v, 0)
/-- CVTI (R179). Without a SHAPE field its immediates are 128 bits wide (R70; log 26). -/
def cvtiG (f : CviF) (tt ft : ITy) (d a : Opd) : Mach → Mach :=
  let nar := tt.width < ft.width
  fire ((.whole, a) :: (if nar then [(.whole, d)] else [])) (.opd d) (fun vs m =>
    let r := cvtElems tt.width ft.width f.part.val (cvtInt tt ft f.sat) (natAt vs 0) (natAt vs 1)
    sticky (putRes m (.opd d) (Val.ofNat r.1)) r.2)
def execCvti (f : CviF) (tf ff : ITy) (d a : Opd) (s : State) : Out := lift (cvtiG f tf ff d a) s

/-- FTOI in one lane (R99, R180). -/
def opFtoi (F : FFmt) (r : Rnd) (zx : Bool) (a _b _d : Nat) : Nat × Nat :=
  let w := F.width
  let lo : Int := if zx then 0 else -(2 ^ (w - 1))
  let hi : Int := if zx then 2 ^ w - 1 else 2 ^ (w - 1) - 1
  match fval F a with
  | .nan => (0, fNV)
  | .inf neg => (wrapI w (if neg then lo else hi), fNV)
  | .fin neg m e _ =>
    let x := toInt r neg m e
    if x.1 < lo then (wrapI w lo, fNV)
    else if hi < x.1 then (wrapI w hi, fNV)
    else (wrapI w x.1, if x.2 then fNX else 0)
def execFtoi (f : FtoiF) (d a : Opd) (s : State) : Out :=
  lift (fltEntry (fmtOf f.shape) false false (false, false, false) d a none (opFtoi (fmtOf f.shape) f.rnd f.zx)) s

/-- ITOF in one lane (R99, R180). -/
def opItof (F : FFmt) (r : Rnd) (zx : Bool) (a _b _d : Nat) : Nat × Nat :=
  roundTo (xint (if zx then (a : Int) else sgn F.width a)) F r false
/-- ITOF reads integer lanes, so an immediate is an integer and the scaled bit is ignored. -/
def execItof (f : FtoiF) (d a : Opd) (s : State) : Out :=
  lift (intEntry f.shape false d a none (opItof (fmtOf f.shape) f.rnd f.zx)) s

/-- SCALE (R181): A must be scaled and B must not be. -/
def scaleG (sat : Bool) (d a b : Opd) : Mach → Mach :=
  fire [(.flt .f32, a), (.flt .f32, b)] (.opd d) (fun vs m =>
    scaleCheck true [(valAt vs 0, true), (valAt vs 1, false)] (.opd d) (fun m =>
      let r := onLanes 32 4 (fopMul .f32 .rne sat) (natAt vs 0) (natAt vs 1) 0
      sticky (putRes m (.opd d) (Val.ofNat r.1)) r.2) m)
def execScale (f : SatF) (d a b : Opd) (s : State) : Out := lift (scaleG f.sat d a b) s

/-! ## QBLK (R105, R182) -/

def qFmt : QFmt → FFmt
  | .e4m3 => .e4m3 | .e5m2 => .e5m2 | .e2m1 => .e2m1
def qEmax : QFmt → Int
  | .e4m3 => 8 | .e5m2 => 15 | .e2m1 => 2
def qElems : QFmt → Nat
  | .e2m1 => 2 | _ => 4

/-- floor(log2 |x|) of a finite nonzero FP32 code. -/
def flog2i (x : Nat) : Option Int :=
  match fval .f32 x with
  | .fin _ m e _ => if m = 0 then none else some (e + Nat.log2 m)
  | _ => none

/-- The quantised elements, the scale byte and the flags of one group (R105). -/
def qblkGroup (q : QFmt) (xs : List Nat) : List Nat × Nat × Nat :=
  if xs.any (fun x => bits x 23 8 == 255) then (List.replicate 64 0, 255, fNV)
  else match (xs.filterMap flog2i).max? with
    | none => (List.replicate 64 0, 127, 0)
    | some l =>
      let k : Int := max (-127) (l - qEmax q)
      let rs := xs.map (fun x => match fval .f32 x with
        | .fin n m e st => roundTo (.fin n m (e - k) st) (qFmt q) .rne true
        | _ => (0, 0))
      (rs.map (·.1), (k + 127).toNat, orFlags (rs.map (·.2)) &&& (fNX ||| fUF))

/-- Writes a list of values to registers D, D + 1, … of the firing bank. -/
def putRegs (m : Mach) (d : Nat) : List Val → Mach
  | [] => m
  | v :: vs => putRegs (match m.cur with
      | .pe core pe frame _ bank _ => setPeReg m core pe (frame * 4 + bank) d v
      | _ => m) (d + 1) vs

/-- QBLK (R182): reads m[A] to m[A+15], writes the element registers from m[D] and the scale after them; its PE
then fires no pair in three cycles. -/
def qblkG (q : QFmt) (d a : Opd) (m : Mach) : Mach :=
  match m.cur, d, a with
  | .pe core pe frame _ bank _, .r dn, .r an =>
    let vs := (upto 16).map (fun i => peReg m core pe (frame * 4 + bank) (an.val + i))
    let m0 := { m with pe.busy := tput 0 (core * 16 + pe) 3 m.pe.busy }
    let all := fun v => putRegs m0 dn.val (List.replicate (qElems q + 1) v)
    match poisonStep vs with
    | some v => all v
    | none =>
      if vs.any (·.scaled) then all (scalePoison m true)
      else
        let g := qblkGroup q (vs.flatMap (fun v => lanesOf 32 4 v.pay.toNat))
        let w := (qFmt q).width
        let big := packLanes w g.1
        let es := (upto (qElems q)).map (fun i => (⟨BitVec.ofNat 128 (bits big (128 * i) 128), false, true⟩ : Val))
        sticky (putRegs m0 dn.val (es ++ [Val.ofNat g.2.1])) g.2.2
  | _, _, _ => m
def execQblk (f : QblkF) (d a : Opd) (s : State) : Out := lift (qblkG f.fmt d a) s

/-! ## Reduction and lane moves (R183-R187) -/

/-- One node of FRED's tree (R104, R184). -/
def fredNode (op : RedOp) (r : Rnd) (sat : Bool) (x y : Nat × Nat) : Nat × Nat :=
  let z := match op with
    | .sum => fadd32 x.1 y.1 r sat
    | .max => minMaxNum .f32 true x.1 y.1
    | .min => minMaxNum .f32 false x.1 y.1
  (z.1, x.2 ||| y.2 ||| z.2)
/-- A pairwise tree over 2^n values. -/
def treeUp (f : Nat × Nat → Nat × Nat → Nat × Nat) : Nat → List (Nat × Nat) → Nat × Nat
  | 0, l => l.headD (0, 0)
  | n + 1, l => f (treeUp f n (l.take (2 ^ n))) (treeUp f n (l.drop (2 ^ n)))
/-- A BF16 lane as FP32; a NaN is made canonical and a signalling one keeps its NV (R99). -/
def widen (F : FFmt) (x : Nat) : Nat × Nat :=
  match F with
  | .f32 => (x, 0)
  | _ => ((roundTo (fval F x) .f32 .rne false).1, snanFlag F [x])
/-- FRED (R184). -/
def fredG (f : FpF) (op : RedOp) (d a : Opd) : Mach → Mach :=
  let F := fmtOf f.shape
  fire [(.flt F, a)] (.opd d) (fun vs m =>
    scaleCheck f.xs [(valAt vs 0, true)] (.opd d) (fun m =>
      let n := 128 / F.width
      let ls := (lanesOf F.width n (natAt vs 0)).map (widen F)
      let r := treeUp (fredNode op f.rnd f.sat) (Nat.log2 n) ls
      sticky (putRes m (.opd d) ⟨BitVec.ofNat 128 r.1, false, f.xs⟩) r.2) m)
def execFred (f : FpF) (op : RedOp) (d a : Opd) (s : State) : Out := lift (fredG f op d a) s

/-- SHUF (R185). -/
def shufPay (w a b : Nat) : Nat :=
  let n := 128 / w
  packLanes w ((upto n).map (fun i => if lane w b i < n then lane w a (lane w b i) else 0))
def shufG (w : Nat) (d a b : Opd) : Mach → Mach :=
  fire [(.int w, a), (.int w, b)] (.opd d) (fun vs m =>
    putRes m (.opd d) ⟨BitVec.ofNat 128 (shufPay w (natAt vs 0) (natAt vs 1)), false, (valAt vs 0).scaled⟩)
def execShuf (f : ShF) (d a b : Opd) (s : State) : Out := lift (shufG f.shape.width d a b) s

/-- BCST (R185). -/
def bcstPay (w a b : Nat) : Nat :=
  let n := 128 / w
  let j := lane w b 0
  spread w n (if j < n then lane w a j else 0)
def bcstG (w : Nat) (d a b : Opd) : Mach → Mach :=
  fire [(.int w, a), (.int w, b)] (.opd d) (fun vs m =>
    putRes m (.opd d) ⟨BitVec.ofNat 128 (bcstPay w (natAt vs 0) (natAt vs 1)), false, (valAt vs 0).scaled⟩)
def execBcst (f : ShF) (d a b : Opd) (s : State) : Out := lift (bcstG f.shape.width d a b) s

/-- PACK (R185): sources whose scaled bits differ give poison with B's bit. -/
def packPay (w a b : Nat) : Nat :=
  let n := 128 / w
  packLanes (w / 2) (lanesOf w n a ++ lanesOf w n b)
def packG (w : Nat) (d a b : Opd) : Mach → Mach :=
  fire [(.int w, a), (.int w, b)] (.opd d) (fun vs m =>
    let va := valAt vs 0
    let vb := valAt vs 1
    if va.scaled = vb.scaled then putRes m (.opd d) ⟨BitVec.ofNat 128 (packPay w (natAt vs 0) (natAt vs 1)), false, va.scaled⟩
    else putRes m (.opd d) (scalePoison m vb.scaled))
def execPack (f : ShF) (d a b : Opd) (s : State) : Out := lift (packG f.shape.width d a b) s

/-- UNPK (R185). -/
def unpkPay (w : Nat) (sel : UnpkSel) (a : Nat) : Nat :=
  let n := 64 / w
  let hi := match sel with | .hi => 1 | .hisx => 1 | _ => 0
  let sx := match sel with | .losx => true | .hisx => true | _ => false
  packLanes (2 * w) ((upto n).map (fun i =>
    let x := lane w a (hi * n + i)
    if sx then sext w (2 * w) x else x))
def unpkG (w : Nat) (sel : UnpkSel) (d a : Opd) : Mach → Mach :=
  fire [(.int w, a)] (.opd d) (fun vs m =>
    putRes m (.opd d) ⟨BitVec.ofNat 128 (unpkPay w sel (natAt vs 0)), false, (valAt vs 0).scaled⟩)
def execUnpk (f : UnpkF) (d a : Opd) (s : State) : Out := lift (unpkG f.shape.width f.sel d a) s

/-- FCLS (R186). -/
def fclsBit (F : FFmt) (a : Nat) : Nat :=
  let E := bits a F.fb F.eb
  let fr := bits a 0 F.fb
  let neg := signOf F a
  if isSnan F a then 0
  else if isNanCode F a then 1
  else if isInfCode F a then (if neg then 2 else 9)
  else if E = 0 then (if fr = 0 then (if neg then 5 else 6) else if neg then 4 else 7)
  else if neg then 3 else 8
def opFcls (F : FFmt) (a _b _d : Nat) : Nat × Nat := (2 ^ fclsBit F a, 0)
/-- FCLS reads floating-point lanes and ignores A's scaled bit. -/
def fclsG (F : FFmt) (d a : Opd) : Mach → Mach :=
  fire [(.flt F, a)] (.opd d) (fun vs m =>
    putRes m (.opd d) (Val.ofNat (onLanes F.width (128 / F.width) (opFcls F) (natAt vs 0) 0 0).1))
def execFcls (f : ShF) (d a : Opd) (s : State) : Out := lift (fclsG (fmtOf f.shape) d a) s

/-- RAND (R111, R187). -/
def opRand (flt : Bool) (a b _d : Nat) : Nat × Nat :=
  let u := rand32 a b
  (if flt then (roundTo (.fin false (u / 256) (-24) false) .f32 .rne false).1 else u, 0)
def execRand (f : BitF) (d a b : Opd) (s : State) : Out := lift (intEntry .s32 false d a (some b) (opRand f.bit)) s

end Sys2Proof.Machine
end

