-- ==== Sys2Proof/Machine/Sched.lean ====
section
/-! DEFINITION. Readiness and selection in a PE (R15-R18, R31-R34, R120), and the fetch, the decoding and the
next address of S-form units (R64-R67, R87, R141, R144). -/
namespace Sys2Proof.Machine

/-! ## Ready pairs -/

/-- The op word and the trigger of a slot's instruction. -/
def slotWord (img : List W64) (pe j : Nat) : Nat := imgInstr img pe j
def trigPC (w : Nat) : Nat := bits w 56 8
def trigPV (w : Nat) : Nat := bits w 48 8
def trigTE (w : Nat) : Bool := bitAt w 47
def trigTC (w : Nat) : Nat := bits w 44 3
def trigTK (w : Nat) : Nat := bits w 42 2
def trigTV (w : Nat) : Bool := bitAt w 41
def trigKP (w : Nat) : Bool := bitAt w 40

/-- Input channels that operands A and B of an op word name, in order. -/
def wordIns (o : OpWord) : List Nat :=
  match opRow o.opc with
  | none => []
  | some r =>
    (if r.a != .lit && isIn o.a then [o.a - 0x30] else []) ++ (if r.b != .lit && isIn o.b then [o.b - 0x30] else [])
/-- The output channel that D names. -/
def wordOut (o : OpWord) : Option Nat :=
  match opRow o.opc with
  | none => none
  | some r => if r.d != .lit && r.d != .pred && isOut o.d then some (o.d - 0x38) else none

/-- Whether a unit has `n` free places for matrix commands (R285): 4 commands of each unit wait in the array's queue. -/
def arrayRoom (m : Mach) (core : Nat) (who : Actor) (n : Nat) : Bool :=
  let mine := fun a : Actor => match a, who with
    | .pe c p _ _ _ _, .pe c2 p2 _ _ _ _ => c == c2 && p == p2
    | .unit u _, .unit v _ => u == v
    | _, _ => false
  ((tget ArrQ.reset core m.mat.q).queue.filter (fun c => mine c.who)).length + n ≤ 4
def isMatrixOp (opc : Nat) : Bool := 0x51 ≤ opc && opc ≤ 0x59

/-- The bank that R18 yields, none when the heads disagree or a channel is empty. -/
def slotBank (m : Mach) (core pe : Nat) (chs : List Nat) (dflt : Nat) : Option Nat :=
  match chs with
  | [] => some dflt
  | c :: cs =>
    match headTok m (chanKey core pe c) with
    | none => none
    | some t =>
      if cs.all (fun x => match headTok m (chanKey core pe x) with | some y => y.ctx % 4 == t.ctx % 4 | none => false)
      then some (t.ctx % 4) else none

/-- Tag kind of R62. -/
def tagKind (t : Token) : Nat → Bool
  | 0 => t.eos
  | 1 => t.val.scaled
  | _ => t.flag

/-- Credit of the output that D names (R15, condition 5). -/
def outCredit (m : Mach) (core pe : Nat) (o : OpWord) : Bool :=
  match wordOut o with | some ch => hasCredit m core pe ch | none => true
def trigHolds (m : Mach) (core pe w : Nat) : Bool :=
  match headTok m (chanKey core pe (trigTC w)) with
  | some t => tagKind t (trigTK w) == trigTV w
  | none => false

/-! ## Key-range tables (R360-R363) -/

def famKey (p n : Nat) : Nat := p * 64 + n
def famOf (m : Mach) (k : Nat) : Option Fam := tfind k m.stage.fams
def Fam.word (f : Fam) (i : Nat) : Nat := ((f.desc[i]?).getD 0).toNat
def Fam.hsel (f : Fam) : Nat := bits (f.word 0) 8 2
def Fam.kb (f : Fam) : Nat := bits (f.word 0) 10 6
/-- HashOf (R360). -/
def Fam.hash (f : Fam) (k : Nat) : Nat := if f.hsel = 1 then hashSpread f.kb k else rhash k
/-- The entry that covers a hash: the last whose lowest hash is not above it (R361). -/
def coverOf (es : List KrtE) (h : Nat) : Option KrtE := (es.filter (fun e => e.lo ≤ h)).getLast?
/-- The sender that a KROUTE's copy of the table belongs to. -/
def senderOf : Actor → Nat
  | .pe core .. => core
  | .unit u _ => 1000 + u
  | .idle => 2000
/-- The sender's copy of the table; fetching it registers the sender (R363). -/
def copyOf (f : Fam) (sk : Nat) : Nat × List KrtE := tget (f.version, f.entries) sk f.copies
/-- A KROUTE stalls while a merge holds the range of its key (R362, R370). -/
def routeStalls (m : Mach) (who : Actor) (p n key : Nat) : Bool :=
  match famOf m (famKey p n) with
  | none => false
  | some f => match coverOf (copyOf f (senderOf who)).2 (f.hash key) with
    | some e => f.entries.any (fun x => x.core == e.core && x.hold)
    | none => false
/-- The stall of a PE's KROUTE: other pairs of the PE go on (R362). -/
def kroutePair (m : Mach) (core pe f j b : Nat) (o : OpWord) : Bool :=
  let who : Actor := .pe core pe f j b false
  let v := match Opd.ofCode o.b with | some x => srcVal { m with cur := who } .whole x | none => Val.none
  o.opc == 0xB5 && !v.poison && routeStalls m who (pastOfActor m who) (bits o.m 0 6) (v.pay.toNat % 2 ^ 32)

/-- Opcodes whose results arrive later: those of classes 0x6_ to 0xC_. -/
def isRequestOp (opc : Nat) : Bool := 0x60 ≤ opc && opc < 0xD0
/-- A core admits `n` more requests of a pasture: at most 512 are outstanding (R426). -/
def coreAdmits (m : Mach) (core n : Nat) : Bool :=
  m.mem.reqs.length + n ≤ 512 || decide ((m.mem.reqs.filter (fun r => !r.done && some r.past == livePast m core && (match r.who with
    | .pe c .. => c == core | _ => false))).length + n ≤ 512)

/-- R15, R18, R120, R127: the bank for which a slot (0-15, frame x 8 + slot) is ready. -/
def readyBank (m : Mach) (core pe sl : Nat) : Option Nat := do
  guard (core < 768 && pe < 16)
  let f := sl / 8
  let j := sl % 8
  let img := frameImg m core f
  let ctl := imgCtl img pe j
  guard (ctlV ctl)
  let w := slotWord img pe j
  let o := OpWord.ofNat (w % 2 ^ 40)
  let ins := wordIns o
  let trig := if trigTE w then [trigTC w] else []
  let b ← slotBank m core pe (ins ++ trig) (ctlBank ctl)
  let ctx := f * 4 + b
  let bind ← tfind (core * 8 + ctx) m.pe.binds
  guard (!bind.ending && !bitAt bind.done pe)
  guard (pePred m core pe ctx &&& trigPC w == trigPV w &&& trigPC w)
  guard (!trigTE w || trigHolds m core pe w)
  guard (o.opc != 0x03 || bits o.m 0 5 ≤ (chanOf m (chanKey core pe (ins.headD 0))).fifo.length)
  guard (outCredit m core pe o)
  guard (!isMatrixOp o.opc || arrayRoom m core (.pe core pe 0 0 0 false) 1)
  guard (!kroutePair m core pe f j b o)
  guard (!isRequestOp o.opc || coreAdmits m core 1)
  some b

/-- Every ready pair (slot, bank) of a PE; a slot is ready for at most one bank. -/
def readyPairs (m : Mach) (core pe : Nat) : List (Nat × Nat) :=
  (upto 16).filterMap (fun sl => (readyBank m core pe sl).map (fun b => (sl, b)))

/-- The effective class of a context (R31). -/
def effClass (m : Mach) (core ctx : Nat) : Nat :=
  match livePast m core with
  | none => 0
  | some p =>
    let k := core * 8 + ctx
    let gs := (tfilter (fun g => g / 256 == p) m.sync.groups).filter
      (fun g => g.2.members.contains k && !g.2.arrived.contains k)
    min ((pastOf m p).pcap) (gs.foldl (fun a g => max a g.2.wclass) (tget 0 k m.pe.prio))

/-- Rank of a pair as one number, compared lexicographically (R32). -/
def pairRank (m : Mach) (core pe : Nat) (x : Nat × Nat) : Nat :=
  let rot := tget 0 (core * 16 + pe) m.pe.rot
  effClass m core (x.1 / 8 * 4 + x.2) * 64 + (15 - x.1) * 4 + (3 - (x.2 + 4 - rot) % 4)

/-- The member of a list with the largest key, the first of equals. -/
def argMax {α : Type} (key : α → Nat) : List α → Option α
  | [] => none
  | x :: xs => match argMax key xs with
    | some y => if key x < key y then some y else some x
    | none => some x

def waitKey (core pe : Nat) (x : Nat × Nat) : Nat := ((core * 16 + pe) * 16 + x.1) * 4 + x.2

/-- Whether a channel operand is dequeued when the slot fires: not under KP, and not by TAGR (R16, R128). -/
def wordDeqs (w : Nat) : List Nat :=
  let o := OpWord.ofNat (w % 2 ^ 40)
  if trigKP w || o.opc == 0x04 then [] else wordIns o

/-- Compatible(a, b) (R32); QBLK fires with no second pair (R182). Two requests, or two matrix commands, need places for both
(R285, R426). -/
def compatible (m : Mach) (core pe : Nat) (a b : Nat × Nat) : Bool :=
  let img := frameImg m core (a.1 / 8)
  let wa := slotWord img pe (a.1 % 8)
  let wb := slotWord img pe (b.1 % 8)
  let oa := OpWord.ofNat (wa % 2 ^ 40)
  let ob := OpWord.ofNat (wb % 2 ^ 40)
  a.1 / 8 == b.1 / 8 && bitAt (imgConf img pe (a.1 % 8)) (b.1 % 8)
    && (a.1 != b.1 || a.2 != b.2)
    && oa.opc != 0x45 && ob.opc != 0x45
    && (!(isRequestOp oa.opc && isRequestOp ob.opc) || coreAdmits m core 2)
    && (!(isMatrixOp oa.opc && isMatrixOp ob.opc) || arrayRoom m core (.pe core pe 0 0 0 false) 2)
    && !(wordDeqs wa).any (fun c => (wordDeqs wb).contains c)
    && (match wordOut oa, wordOut ob with | some x, some y => x != y | _, _ => true)

/-- The pairs that a PE selects in a cycle (R32): under a StarveCycle the first is the longest-waiting pair. -/
def selectPairs (m : Mach) (core pe : Nat) (starve : Bool) : List (Nat × Nat) :=
  let rs := readyPairs m core pe
  let rank := pairRank m core pe
  let first := if starve then
      argMax (fun x => tget 0 (waitKey core pe x) m.pe.waits * 1024 + (3 - effClass m core (x.1 / 8 * 4 + x.2)) * 256
        + rank x % 64) rs
    else argMax rank rs
  match first with
  | none => []
  | some a => a :: (match argMax rank (rs.filter (fun b => compatible m core pe a b)) with | some b => [b] | none => [])

/-- A PE stalls while it holds a fault record or a cause of the pasture that it runs (R418, R422). -/
def peHeld (m : Mach) (p core pe : Nat) : Bool :=
  let mine := fun a : Actor => match a with | .pe c q _ _ _ _ => c == core && q == pe | _ => false
  (pastOf m p).heldRecs.any (fun h => mine h.2.1) || m.seq.heldTraps.any (fun h => h.2.1.past == p && mine h.2.2.1)

/-- The waits after a cycle (R34): a ready pair that did not fire waits one cycle more; every other pair's wait is 0. -/
def newWaits (m : Mach) (core pe : Nat) (fired : List (Nat × Nat)) : Tbl Nat :=
  let mine := fun k : Nat => k / 64 == core * 16 + pe
  let old := m.pe.waits
  ((readyPairs m core pe).filter (fun x => !fired.contains x)).foldl
    (fun t x => tset (waitKey core pe x) (tget 0 (waitKey core pe x) old + 1) t) (tfilter (fun k => !mine k) old)

/-- One cycle of a PE (R32-R34, R182): the pairs to fire, none while the PE stalls, and the counters moved on. PEs of a core are
numbered 0 to 15 and cores 0 to 767 (R9). -/
def peCycle (starve : Bool) (core pe : Nat) (s : State) : State :=
  match livePast s.m core with
  | none => s
  | some p =>
    if !running s.m p || 16 ≤ pe || 768 ≤ core then s
    else
      let q := core * 16 + pe
      let busy := tget 0 q s.m.pe.busy
      let sel := if busy = 0 ∧ !peHeld s.m p core pe then selectPairs s.m core pe starve else []
      { s with
        m.pe.waits := newWaits s.m core pe sel
        m.pe.busy := tput 0 q (busy - 1) s.m.pe.busy
        m.pe.rot := tput 0 q ((tget 0 q s.m.pe.rot + 1) % 4) s.m.pe.rot
        m.pe.starv := tput 0 q ((tget 0 q s.m.pe.starv + 1) % 64) s.m.pe.starv
        m.hold := if 1 < sel.length then some (s.m.pe.hands, s.m.pe.hpend) else none
        sched.firing := sel.map (fun x => ⟨core, pe, x.1, x.2⟩) }

/-- STARVE_CYCLE (R34): the cycle in which the starvation counter reads 63. -/
def execStarveCycle (core pe : Nat) (s : State) : Out :=
  .next (if tget 0 (core * 16 + pe) s.m.pe.starv = 63 then peCycle true core pe s else s)

/-- What firing a pair executes: the instruction and the actor. -/
def firingOf (m : Mach) (x : Sel) : Option (Instr × Actor) :=
  let f := x.slot / 8
  let w := slotWord (frameImg m x.core f) x.pe (x.slot % 8)
  match fate .pe true true (OpWord.ofNat (w % 2 ^ 40)) with
  | .ok i => some (i, .pe x.core x.pe f (x.slot % 8) x.bank (trigKP w))
  | .error _ => none

/-- After a firing: the firing count of the slot in its activation rises (R201), what its dequeues moved into spill rings is
written there (R117), and no unit executes. -/
def afterFiring (x : Sel) (m : Mach) : Mach :=
  let ctx := x.slot / 8 * 4 + x.bank
  let k := fireKey x.core ctx x.pe (x.slot % 8)
  let m0 := (upto 8).foldl (fun m ch => ringSync m (chanKey x.core x.pe ch)) m
  let m1 := { m0 with cur := .idle, ctl := .seq }
  if thas (x.core * 8 + ctx) m1.pe.binds then { m1 with pe.fires := tput 0 k (tget 0 k m1.pe.fires + 1) m1.pe.fires }
  else m1

/-! ## S-form units -/

def kindOf (u : Nat) : UKind :=
  if u < 128 then .graph else if u < 144 then .shepherd else if u < 336 then .tile else .portal

/-- The sequencing field of R64, the high 24 bits of a word. -/
def seqNAS (q : Nat) : Nat := bits q 21 3
def seqPS (q : Nat) : Nat := bits q 18 3
def seqPN (q : Nat) : Bool := bitAt q 17
def seqT (q : Nat) : Nat := bits q 0 16

/-- The reserved sequencing values of R67 and R144. -/
def seqOk (k : UKind) (opc q : Nat) : Bool :=
  !bitAt q 16 && (seqNAS q == 2 || (seqPS q == 0 && !seqPN q))
    && ((seqNAS q != 0 && seqNAS q != 4 && seqNAS q != 5 && seqNAS q != 7) || seqT q == 0)
    && (k != .tile || seqT q < 256)
    && (!(0xD0 ≤ opc && opc ≤ 0xD2) || seqNAS q == 0)

/-- The fate of a 64-bit word in a unit (R87). A tile has the channel of its role, a portal element both (R268, R402). -/
def wordFate (m : Mach) (u x : Nat) : Except Nat Instr :=
  let b := tfind u m.copy.tiles
  let loader := match b with | some b => b.loader | none => false
  let storer := match b with | some b => !b.loader | none => false
  let el := kindOf u == .portal
  fateSeq (kindOf u) (loader || el) (storer || el) (seqOk (kindOf u) (bits x 32 8) (x / 2 ^ 40)) (OpWord.ofNat (x % 2 ^ 40))

/-- Words of a code image (R135). -/
def imageWords (u : Nat) : Nat := if isTile u then 256 else if u < 144 then 65536 else 4096

/-- The word at the next address of a unit, or the trap cause and value of its fetch (R67, R417). A tile executes the program
that it read as it started (R269). A word on another package's page is not in this package: its bytes are free, anew for each word that
is executed (log 27). -/
def fetchWord (m : Mach) (u : Nat) : Except (Nat × Nat) Nat :=
  let x := unitOf m u
  let who : Actor := .unit u x.w
  let va := x.base + 8 * x.w
  let tv := fun v => if isShepherd u then bits v 0 56 else unitForm who 0
  if imageWords u ≤ x.w then .error (0x04, tv va)
  else match (tfind u m.copy.tiles).bind (fun b => b.code[x.w]?) with
  | some (some c) => .ok c.toNat
  | some none => .error (0x04, tv va)
  | none => match virtLocs m who (pastOfActor m who) va 8 .fetch with
    | .error _ => .error (0x04, tv va)
    | .ok ls =>
      match locsFault m who ls with
      | some (0x01, pa) => .error (0x15, pa)
      | some (c, d) => .error (sTrapCode c, d)
      | none =>
        if ls.any isOutside then .ok (natOf ((upto 8).map (fun i => Config.outsideByte m.free (va + i))))
        else .ok (locsRead m ls)

/-- A unit whose INSTALL or FENCE is not complete (R66, R148, R221). -/
def unitWaits (m : Mach) (u : Nat) : Bool :=
  m.seq.installs.any (fun e => e.2.unit == some u)
    || m.mem.reqs.any (fun r => (match r.op with | .fence .. => true | _ => false) && ofUnit m u r.past r.who)

/-- A unit that an INSTALL, a FENCE, a held fault record or a held cause stops (R66, R418, R422). -/
def unitBlocked (m : Mach) (u : Nat) : Bool :=
  unitWaits m u
    || (upto 16).any (fun p => (pastOf m p).heldRecs.any (fun h => ofUnit m u p h.2.1))
    || m.seq.heldTraps.any (fun h => ofUnit m u h.2.1.past h.2.2.1)

/-- A shepherd core takes the head of its queue before its next fetch (R418). -/
def asyncReady (m : Mach) (k : Nat) : Bool := shDepth (shepOf m k) == 0 && shAE (shepOf m k) && !(shepOf m k).queue.isEmpty

/-- A launched graph begins, with the fetch of its first word, once the accesses that happen before its LAUNCH are performed: they
happen before every access of the graph (R410; log 105). No word that has been fetched waits for it. -/
def graphWaits (m : Mach) (u : Nat) : Bool :=
  let g := (unitOf m u).graph
  match graphOf m g with
  | some x => (match x.by_ with | some v => startHeld m v x.parent g | none => false)
  | none => false

/-- Whether a unit may issue its next word. -/
def unitMayRun (m : Mach) (u : Nat) : Bool :=
  (unitOf m u).run == .running && (if isShepherd u then !asyncReady m (u - 128) else running m (unitOf m u).past)
    && !unitBlocked m u && !(isGraph u && graphWaits m u)

/-- The loop count of NAS 110 is the D of an outstanding instruction: the word stalls (R66, R136). -/
def lcStalls (m : Mach) (u q : Nat) : Bool := seqNAS q == 6 && sOutstanding m u 31

/-- NAS 011 on a full link stack and NAS 100 on an empty one trap (R65). -/
def linkFault (m : Mach) (u q : Nat) : Bool :=
  (seqNAS q == 3 && (unitOf m u).link.length == 8) || (seqNAS q == 4 && (unitOf m u).link.isEmpty)
/-- A unit's cause finds the queue of its shepherd core full (R418); a shepherd core's own traps are synchronous. -/
def causesFull (m : Mach) (u : Nat) : Bool :=
  !isShepherd u && !causeRoom m (unitCluster u (pastOf m (unitOf m u).past).home)
/-- A word that would raise a cause for which there is no room stalls before its effect (R66): `t` is the machine after it. -/
def raisesFull (m : Mach) (u : Nat) (t : Mach) : Bool :=
  !isShepherd u && t.seq.heldTraps.any (fun h => !m.seq.heldTraps.contains h && !causeRoom m h.1)

/-- Pending (R65): the wait conditions that a unit's instructions have registered and that are not complete. -/
def pendingOf (m : Mach) (u : Nat) : List Req :=
  m.mem.reqs.filter (fun r => r.pend && ofUnit m u r.past r.who)

/-- The loop stack of R141 applied to the next address. -/
def loopNext : Nat → List LoopE → Nat → Nat → List LoopE × Nat
  | 0, ls, _, nx => (ls, nx)
  | n + 1, ls, w, nx =>
    match ls with
    | [] => (ls, nx)
    | t :: rest =>
      if w = t.fin ∧ nx = w + 1 then
        if t.rem - 1 != 0 then loopNext n ({ t with rem := t.rem - 1 } :: rest) w t.start
        else loopNext n rest w nx
      else (ls, nx)

/-- Sets the next address, through the loop stack in units that have one. -/
def setNext (m : Mach) (u nx : Nat) : Mach :=
  let x := unitOf m u
  let r := loopNext 5 x.loops x.w nx
  setUnit m u { x with loops := r.1, w := r.2, run := .running }

/-- The next address of R65 under the unit's sequencing field, after the word's effect. A word whose own result is to arrive in
the loop count waits for it (R66, R136). -/
def nasNext (m : Mach) (u : Nat) : Mach :=
  let x := unitOf m u
  let q := x.seqf
  let w := x.w
  match seqNAS q with
  | 0 => setNext m u (w + 1)
  | 1 => setNext m u (seqT q)
  | 2 => setNext m u (if bitAt x.p.toNat (seqPS q) != seqPN q then seqT q else w + 1)
  | 3 =>
    if x.link.length = 8 then trapForm m u w 0x01 0x01
    else setNext (setUnit m u { x with link := (w + 1) :: x.link }) u (seqT q)
  | 4 =>
    match x.link with
    | [] => trapForm m u w 0x01 0x02
    | r :: rest => setNext (setUnit m u { x with link := rest }) u r
  | 5 => if (pendingOf m u).isEmpty then setNext m u (w + 1) else setUnit m u { x with run := .waiting }
  | 6 =>
    if sOutstanding m u 31 then setUnit m u { x with run := .waiting }
    else
    let lc := sReg m u 31
    let m1 := if lc = 0 then m else setSReg m u 31 (lc - 1)
    setNext m1 u (if 1 < lc then seqT q else w + 1)
  | _ => haltUnit m u 0

/-- A unit whose waiting word is complete goes on, unless a trap has taken it elsewhere. -/
def resumeWord (m : Mach) (u w : Nat) : Mach := if (unitOf m u).w = w then nasNext m u else m

/-- What follows a word's effect: nothing while it stalls or after a trap, the jump that it made, or NAS. -/
def afterWord (u : Nat) (m : Mach) : Mach :=
  let m1 := { m with cur := .idle, ctl := .seq }
  match m.ctl with
  | .stall => m1
  | .trapped => m1
  | .jump n => setNext m1 u n
  | .seq => if unitWaits m1 u then m1 else nasNext m1 u

/-- DECODE_TRAP (R87): the unit's next word fails its fetch or its checks. -/
def decodeTrapG (u : Nat) (m : Mach) : Mach :=
  if !unitMayRun m u then m
  else match fetchWord m u with
    | .error (c, v) => { trapUnit m u (unitOf m u).w c v with ctl := .seq }
    | .ok x => match wordFate m u x with
      | .error c => { trapForm m u (unitOf m u).w c 0 with ctl := .seq }
      | .ok _ => m

/-! ## Preparing a step -/

/-- CYCLE (R140) advances by 1 with each turn of the agenda (log 13). -/
def tick (s : State) : State := { s with m.seq.cycle := (s.m.seq.cycle + 1) % 2 ^ 64 }

/-- The state in which a firing pair's instruction executes. -/
def enterPe (who : Actor) (s : State) : State := { s with m.cur := who, m.ctl := .seq }

/-- The state in which a unit executes the word `x` that it fetched; the free values of the fetch are used up. -/
def enterUnit (u x : Nat) (s : State) : State :=
  let y := unitOf s.m u
  let m1 := setUnit s.m u { y with seqf := x / 2 ^ 40 }
  { s with m := { m1 with cur := .unit u y.w, ctl := .seq, free := m1.free + 1 } }

/-- The contexts of a unit's graph sequencer in round-robin order after the one that issued a word last, up to `u` (R135). -/
def rrBefore (m : Mach) (u : Nat) : List Nat :=
  let last := tget 7 (u / 8) m.seq.rr
  ((upto 8).map (fun i => u / 8 * 8 + (last + 1 + i) % 8)).takeWhile (· != u)

/-- The word that a unit is to execute now: none when its fetch or decoding fails. -/
def unitInstr (m : Mach) (u : Nat) : Option (Nat × Instr) :=
  match fetchWord m u with
  | .error _ => none
  | .ok x => match wordFate m u x with
    | .ok i => some (x, i)
    | .error _ => none

/-- What a unit's word does in its turn, and whether that stalls (R66): the word waits for the loop count, itself, or a place for the
cause that it would raise. `run` is what a word executes. -/
def wordStalls (run : Instr → State → Out) (s : State) (u x : Nat) (i : Instr) : Bool :=
  lcStalls s.m u (x / 2 ^ 40) || (linkFault s.m u (x / 2 ^ 40) && causesFull s.m u)
    || (match run i (enterUnit u x s) with
        | .next t => t.m.ctl == .stall || raisesFull s.m u (afterWord u t.m)
        | _ => false)

/-- Whether a unit issues a word now: it may run, and its next word does not stall; a word that fails its fetch or its checks traps,
once there is room for its cause. -/
def issues (run : Instr → State → Out) (s : State) (u : Nat) : Bool :=
  unitMayRun s.m u && (match unitInstr s.m u with
    | some (x, i) => !wordStalls run s u x i
    | none => !causesFull s.m u)

/-- The turn of a unit: a graph sequencer issues one word per cycle, round-robin over its runnable contexts (R135). -/
def unitTurn (run : Instr → State → Out) (s : State) (u : Nat) : Bool :=
  issues run s u && !(isGraph u && (rrBefore s.m u).any (issues run s))

/-- Notes the context that a graph sequencer has issued a word of. -/
def noteTurn (u : Nat) (s : State) : State := if isGraph u then { s with m.seq.rr := tset (u / 8) (u % 8) s.m.seq.rr } else s

/-- Leaves a state after the outcome of a meaning. -/
def leave (g : Mach → Mach) (o : Out) : Out :=
  match o with
  | .next s => .next { s with m := g s.m }
  | .fault f => .fault f
  | .refused r => .refused r

/-! ## Placing one instruction for the host's probe (log 8) -/

/-- An image of frame 0 of a core with one instruction, in slot 0 of PE 0. -/
def oneSlotImage (w : Nat) : List W64 :=
  List.replicate 8 0 ++ [BitVec.ofNat 64 (w % 2 ^ 40)] ++ List.replicate 127 0 ++ [0x200] ++ List.replicate 175 0

/-- The machine with one instruction where the next step runs it: a word that a PE executes fires in slot 0 of PE 0 of
core 0, in a bound bank of a live pasture 0; any other word stands at word 0 of the shepherd core of cluster 0. -/
def placeWord (s : State) (w : Nat) : State :=
  match fate .pe true true (OpWord.ofNat (w % 2 ^ 40)) with
  | .ok _ =>
    { s with
      m.sys.past := tset 0 { pastOf s.m 0 with st := .live, cset := 1 } s.m.sys.past
      m.pe.frames := tset 0 (oneSlotImage w) s.m.pe.frames
      m.pe.binds := tset 0 ⟨0, .record 0, 0, false, none⟩ s.m.pe.binds
      sched.firing := [⟨0, 0, 0, 0⟩] }
  | .error _ =>
    { s with
      m.mem.hbm := memWrite s.m.mem.hbm 0 8 w
      m.host.fwBase := 0
      m.host.fwSize := 65536
      m.seq.units := tset 128 { unitOf s.m 128 with base := 0x7F0000000000, w := 0, run := .running } s.m.seq.units
      sched.firing := []
      sched.agenda := .unit 128 :: s.sched.agenda }

end Sys2Proof.Machine
end

