-- ==== Sys2Proof/Machine/Seq.lean ====
section
/-! DEFINITION. Sequencing: loops, jumps, control registers, tickets, LAUNCH, SEQW and EVENT of class 0xD_
(R135-R157), and the records of activations (R36, R37, R119, R150). INSTALL and ARM stand in Install.lean. -/
namespace Sys2Proof.Machine

/-! ## LOOP, LBRK, JIND (R155-R157) -/

def loopG (a : Opd) (len : Nat) : Mach → Mach :=
  sFire [a] [] (fun u w vs m =>
    let n := bits ((vs[0]?).getD 0) 0 32
    let x := unitOf m u
    if n = 0 then { m with ctl := .jump (w + len + 1) }
    else if x.loops.length = 4 then trapForm m u w 0x01 0x03
    else if x.loops.head?.any (fun t => t.fin < w + len) then trapForm m u w 0x01 0x04
    else setUnit m u { x with loops := ⟨w + 1, w + len, n⟩ :: x.loops })
def execLoop (a : Opd) (b : Fin 256) (s : State) : Out := lift (loopG a b.val) s

def lbrkG (c ng : Bool) (n : Nat) (m : Mach) : Mach :=
  match m.cur with
  | .unit u w =>
    let x := unitOf m u
    if !c || bitAt x.p.toNat n != ng then
      match x.loops with
      | [] => trapForm m u w 0x01 0x05
      | t :: rest => { setUnit m u { x with loops := rest } with ctl := .jump (t.fin + 1) }
    else m
  | _ => m
def execLbrk (c ng : Bool) (n : Fin 8) (s : State) : Out := lift (lbrkG c ng n.val) s

def jindG (call : Bool) (a : Opd) : Mach → Mach :=
  sFire [a] [] (fun u w vs m =>
    let t := bits ((vs[0]?).getD 0) 0 16
    let x := unitOf m u
    if call then
      if x.link.length = 8 then trapForm m u w 0x01 0x01
      else { setUnit m u { x with link := (w + 1) :: x.link } with ctl := .jump t }
    else { m with ctl := .jump t })
def execJind (f : BitF) (a : Opd) (s : State) : Out := lift (jindG f.bit a) s

/-! ## Results and tickets (R145-R147) -/

/-- A failure word of R145. -/
def failWord (code pe slot detail : Nat) : Nat := 2 ^ 63 + detail % 256 * 65536 + slot % 8 * 4096 + pe % 16 * 256 + code
/-- A ticket word of R145. -/
def ticketWord (child : Bool) (gen e : Nat) : Nat := (if child then 2 ^ 62 else 0) + gen % 65536 * 65536 + e

/-- Writes D and, under PW, p[PI] (R145). -/
def seqResult (m : Mach) (u : Nat) (d : Opd) (f : PfF) (v : Nat) : Mach :=
  let m1 := putS m u d v
  if f.pw then setSPred m1 u f.pi.val (bitAt v 63) else m1

/-- The lowest-numbered free ticket entry (R147). -/
def freeTicket (m : Mach) (u : Nat) : Option Nat :=
  (upto 16).find? (fun e => !(tget ⟨0, false, false, 0⟩ e (unitOf m u).tickets).used)
/-- Allocates a ticket entry for a work number: the generation rises by 1 modulo 65,536. -/
def allocTicket (m : Mach) (u e : Nat) (child : Bool) (work : Nat) : Nat × Mach :=
  let x := unitOf m u
  let g := ((tget ⟨0, false, false, 0⟩ e x.tickets).gen + 1) % 65536
  (g, setUnit m u { x with tickets := tset e ⟨g, true, child, work⟩ x.tickets })
def freeTicketEntry (m : Mach) (u e : Nat) : Mach :=
  let x := unitOf m u
  match tfind e x.tickets with
  | some t => setUnit m u { x with tickets := tset e { t with used := false, work := 0 } x.tickets }
  | none => m

/-! ## Reading memory for descriptors and images -/

/-- The byte that the latest own pending store to a virtual address holds: a program's later reads see it. -/
def ownByte (m : Mach) (who : Actor) (a : Nat) : Option Byte :=
  let same := fun r : Req => match r.who, who with
    | _, .unit v _ => ofUnit m v r.past r.who
    | .pe c p .., .pe c2 p2 .. => c == c2 && p == p2
    | _, _ => false
  (m.mem.reqs.filterMap (fun r => match r.op with
    | .store (.virt va) n data =>
      if same r && !r.done && va ≤ a && a < va + n then some (BitVec.ofNat 8 (data / 256 ^ (a - va))) else none
    | _ => none)).getLast?

/-- `n` bytes that an instruction reads by itself at a virtual address (a descriptor, an image): plain loads at package
scope. Bytes on another package are free, each its own (log 27). -/
def readBytes (m : Mach) (who : Actor) (va n : Nat) : Except (Nat × Nat) (List Byte) :=
  match virtLocs m who (pastOfActor m who) va n .rd with
  | .error e => .error e
  | .ok ls =>
    match locsFault m who ls with
    | some e => .error e
    | none => .ok ((upto n).map (fun i =>
        match ownByte m who (va + i) with
        | some b => b
        | none => match ls[i]? with
          | some l => if isOutside l then Config.outsideByte m.free (va + i) else locByte m l
          | none => 0))
def readNat (m : Mach) (who : Actor) (va n : Nat) : Except (Nat × Nat) Nat := (readBytes m who va n).map natOf
/-- `n` 64-bit words at a virtual address. -/
def readWords (m : Mach) (who : Actor) (va n : Nat) : Except (Nat × Nat) (List W64) :=
  (readBytes m who va (8 * n)).map (fun bs => (upto n).map (fun i => BitVec.ofNat 64 (natOf ((bs.drop (8 * i)).take 8))))

/-! ## LAUNCH (R137, R151) -/

/-- Starts a graph in a graph context (R137). -/
def startGraph (m : Mach) (u p base arg : Nat) (parent : Nat) (by_ : Option Nat) (root : Bool) : Mach :=
  let id := m.ids
  let x : SUnit := { SUnit.reset with
    s := tput 0 1 (BitVec.ofNat 64 base) (tput 0 0 (BitVec.ofNat 64 arg) []),
    base := base, run := .running, past := p, graph := id }
  { setUnit m u x with
    ids := id + 1
    seq.graphs := tset id ⟨p, parent, by_, root, false, 0, 0, false⟩ m.seq.graphs
    seq.uhands := tfilter (fun k => k / 16 != u) m.seq.uhands
    seq.uhpend := tfilter (fun k => k / 16 != u) m.seq.uhpend }

def freeGraphCtx (m : Mach) (cluster : Nat) : Option Nat :=
  (upto 8).find? (fun c => (unitOf m (8 * cluster + c)).run == .idle)

/-- LAUNCH (R151): failures in the order NO_CLUSTER, IMAGE_READ, NO_CONTEXT, NO_TICKET. The graph is translated in the
space in which the child fetches it (log 28). -/
def launchG (f : PfF) (d a b : Opd) : Mach → Mach :=
  sFire [a, b] [d] (fun u w vs m =>
    let A := (vs[0]?).getD 0
    let p := pastOfActor m (.unit u w)
    let cl := if bitAt A 60 then bits A 56 4 else unitCluster u (pastOf m p).home
    let base := bits A 0 56
    if !(coresOf m p).any (fun c => clusterOf c == cl) then seqResult m u d f (failWord 0x31 0 0 0)
    else match virtLocs m (.unit (8 * cl) 0) p base 8 .fetch with
      | .error _ => seqResult m u d f (failWord 0x12 0 0 0)
      | .ok _ => match freeGraphCtx m cl with
        | none => seqResult m u d f (failWord 0x30 0 0 0)
        | some c => match freeTicket m u with
          | none => seqResult m u d f (failWord 0x21 0 0 0)
          | some e =>
            let id := m.ids
            let parent := if isShepherd u then 2 ^ 64 else (unitOf m u).graph
            let m1 := startGraph m (8 * cl + c) p base ((vs[1]?).getD 0) parent (some u) false
            let m2 := match graphOf m1 parent with
              | some g => setGraph m1 parent { g with live := g.live + 1 }
              | none => m1
            let t := allocTicket m2 u e true id
            seqResult t.2 u d f (ticketWord true t.1 e))
def execLaunch (f : PfF) (d a b : Opd) (s : State) : Out := lift (launchG f d a b) s

/-! ## SEQW (R152) -/

/-- The work numbers of a section or of a graph with everything that it started. -/
def workTree (m : Mach) : Nat → List Nat → List Nat
  | 0, ids => ids
  | n + 1, ids =>
    let kids := (m.seq.sections.filter (fun e => !e.2.shep && ids.contains e.2.graph)).map (·.1)
      ++ (m.seq.graphs.filter (fun e => ids.contains e.2.parent)).map (·.1)
    workTree m n (ids ++ kids.filter (fun k => !ids.contains k)).dedup

/-- Awaited work is complete once it has ended and every memory operation of it is performed (R152, R253; log 61). -/
def workDone (m : Mach) (id : Nat) (child : Bool) : Bool :=
  let ended := if child then (match graphOf m id with | some g => g.complete | none => true)
    else (match tfind id m.seq.sections with | some s => s.complete | none => true)
  let tree := workTree m (m.seq.graphs.length + 1) [id]
  ended && !m.mem.reqs.any (fun r => tree.contains r.sect && memOp r && !r.done)

/-- The result of a completed ticket: aborted activations, or the trap cause that halted the child. -/
def workResult (m : Mach) (id : Nat) (child : Bool) : Nat :=
  if child then (match graphOf m id with | some g => g.cause % 256 | none => 0)
  else (match tfind id m.seq.sections with | some s => bits s.aborted 0 22 | none => 0)

/-- The ticket entry that a SEQW of a unit awaits, once its work is done. -/
def seqwReady (m : Mach) (u : Nat) (r : Req) : Option (Nat × Ticket) :=
  match r.op with
  | .seqw e g =>
    (match tfind e (unitOf m u).tickets with
     | some t => if ofUnit m u r.past r.who && t.used && t.gen == g && workDone m t.work t.child then some (e, t) else none
     | none => none)
  | _ => none

/-- Completes the SEQWs of a unit whose awaited work is done, each of those that await one ticket, and frees its entry. -/
def settleSeqw (u : Nat) (m : Mach) : Mach :=
  let hits := m.mem.reqs.filterMap (fun r => (seqwReady m u r).map (fun x => (r, x)))
  let m1 := hits.foldl (fun n h => writeDst (delReq n h.1.id) h.1.who h.1.dst (tokNat (workResult m h.2.2.work h.2.2.child))) m
  hits.foldl (fun n h => freeTicketEntry n u h.2.1) m1

/-- PENDING_EMPTY (R65): a unit stalled by NAS 101 goes on once Pending is empty, and one whose word awaits its own result in the
loop count of NAS 110 once that has arrived (R136). -/
def pendingEmptyG (u : Nat) (m : Mach) : Mach :=
  let m1 := settleSeqw u m
  let x := unitOf m1 u
  if x.run = .waiting ∧ (isShepherd u ∨ running m1 x.past) then
    if seqNAS x.seqf = 6 then nasNext m1 u
    else if (pendingOf m1 u).isEmpty then setNext m1 u (x.w + 1)
    else m1
  else m1
def execPendingEmpty (unit : Nat) (s : State) : Out := lift (pendingEmptyG unit) s

/-- A ticket operand is stale (R152). -/
def staleTicket (m : Mach) (u v : Nat) : Bool :=
  let t := tget ⟨0, false, false, 0⟩ (bits v 0 4) (unitOf m u).tickets
  bitAt v 63 || bits v 32 30 != 0 || bits v 4 12 != 0 || !t.used || t.gen != bits v 16 16 || t.child != bitAt v 62

/-- A request of the executing unit that waits in Pending. -/
def pendReq (m : Mach) (u : Nat) (d : Opd) (op : ReqOp) : Mach :=
  let r : Req := ⟨m.ids, m.cur, 0, sectOf m m.cur, pastOfActor m m.cur,
    (match d with | .r n => .sreg u n.val | _ => .zero), op, 5, true, false, none, none, true, none, none, false, none⟩
  { m with ids := m.ids + 1, mem.reqs := m.mem.reqs ++ [r] }

def seqwG (d a : Opd) : Mach → Mach :=
  sFire [a] [d] (fun u _ vs m =>
    let v := (vs[0]?).getD 0
    if staleTicket m u v then putS m u d (2 ^ 63 + 0x40)
    else settleSeqw u (pendReq m u d (.seqw (bits v 0 4) (bits v 16 16))))
def execSeqw (d a : Opd) (s : State) : Out := lift (seqwG d a) s

/-! ## GETC and SETC (R140, R153, R414, R415) -/

def pstateCode : PState → Nat
  | .free => 0 | .ready => 1 | .live => 2 | .shadowed => 3 | .saved => 4 | .halted => 5

/-- A group table entry as GETC reads it (R30). -/
def groupWord (m : Mach) (p g : Nat) : Nat :=
  match tfind (p * 256 + g) m.sync.groups with
  | none => 0
  | some x => x.phase % 65536 * 2 ^ 32 + 2 ^ 28 + x.wclass % 4 * 2 ^ 26 + x.arrived.length % 2 ^ 13 * 2 ^ 13
      + x.members.length % 2 ^ 13

/-- The arithmetic status word of a context of a pasture, which stands in its image while it is pre-empted (R110). -/
def astatOf (m : Mach) (p ix : Nat) : W64 :=
  match (pastOf m p).image with
  | some i => tget 0 ix i.pe.astat
  | none => tget 0 ix m.pe.astat
def setAstat (m : Mach) (p ix v : Nat) : Mach :=
  let P := pastOf m p
  match P.image with
  | some i => setPast m p { P with image := some { i with pe.astat := tput 0 ix (BitVec.ofNat 64 v) i.pe.astat } }
  | none => { m with pe.astat := tput 0 ix (BitVec.ofNat 64 v) m.pe.astat }

/-- The word that a selector reads, or the trap cause of R153. -/
def getcVal (m : Mach) (u sel ix : Nat) : Except Nat Nat :=
  let x := unitOf m u
  let k := unitCluster u 0
  let sh := shepOf m k
  let P := pastOf m ix
  let lvl := fun (a b : W64) => if ix = 1 then .ok a.toNat else if ix = 2 then .ok b.toNat else .error 0x03
  let byP := fun (v : Nat) => if ix < 16 then Except.ok v else .error 0x03
  let own := pastOfActor m (.unit u x.w)
  if 0x20 ≤ sel ∧ sel ≤ 0x2F ∧ sel ≠ 0x27 ∧ !isShepherd u then .error 0x03
  else match sel with
    | 0x00 => .ok (bits x.base 0 56)
    | 0x01 => .ok (asidOfActor m (.unit u x.w) % 4096 * 256 + (if isShepherd u then 128 else 0)
        + (if isGraph u then u % 8 * 16 else 0) + k % 16)
    | 0x02 => .ok (x.loops.length % 8 * 16 + x.link.length % 16)
    | 0x03 => .ok x.sstat.toNat
    | 0x04 => .ok (((upto 16).map (fun e => if (tget ⟨0, false, false, 0⟩ e x.tickets).used then 2 ^ e else 0)).sum)
    | 0x05 => .ok m.seq.cycle
    | 0x10 => if ix < 6144 && coreIn m own (ix / 8) then .ok (astatOf m own ix).toNat else .error 0x03
    | 0x11 => if ix < 256 then .ok (groupWord m own ix) else .error 0x03
    | 0x20 => .ok sh.status.toNat
    | 0x21 => lvl sh.spc1 sh.spc2
    | 0x22 => lvl sh.sst1 sh.sst2
    | 0x23 => lvl sh.cause1 sh.cause2
    | 0x24 => lvl sh.tval1 sh.tval2
    | 0x25 => .ok sh.tvec.toNat
    | 0x26 => .ok sh.queue.length
    | 0x28 => byP (P.asid * 65536 + pstateCode P.st)
    | 0x29 => byP P.xroot
    | 0x2A => byP P.fto
    | 0x2B => byP P.quota.toNat
    | 0x2C => byP P.pcap
    | 0x2D => byP P.ctxbase
    | 0x2E => byP P.asave
    | 0x2F => if ix < 256 ∧ ix % 16 < 12 then .ok (bits (pastOf m (ix / 16)).cset (64 * (ix % 16)) 64) else .error 0x03
    | _ => .error 0x02

def early (P : Pasture) : Bool := P.st == .free || P.st == .ready

/-- SETC of STATE takes effect only for the transitions of R415. -/
def setPState (P : Pasture) (v : Nat) : PState :=
  match P.st, v with
  | .free, 1 => .ready
  | .ready, 0 => .free
  | .halted, 0 => .free
  | s, _ => s

/-- CSET (R416): ignored outside FREE and READY, and when a core would be in more than three core sets. -/
def setCset (m : Mach) (p w v : Nat) : Mach :=
  let P := pastOf m p
  let c := setBits P.cset (64 * w) 64 v
  if !early P || (upto 64).any (fun j => bitAt v j
      && 3 ≤ ((upto 16).filter (fun q => q != p && bitAt (pastOf m q).cset (64 * w + j))).length) then m
  else setPast m p { P with cset := c }

/-- The effect of SETC on a selector that GETC reads without a trap; RSV bits keep 0 (R4). -/
def setcEff (m : Mach) (u sel ix v : Nat) : Mach :=
  let x := unitOf m u
  let k := unitCluster u 0
  let sh := shepOf m k
  let P := pastOf m ix
  match sel with
  | 0x03 => setUnit m u { x with sstat := BitVec.ofNat 64 (bits v 0 6) }
  | 0x10 => setAstat m (pastOfActor m (.unit u x.w)) ix (bits v 0 6)
  | 0x20 => setShep m k { sh with status := BitVec.ofNat 64 (setBits sh.status.toNat 2 1 (bits v 2 1)) }
  | 0x21 => setShep m k (if ix = 1 then { sh with spc1 := BitVec.ofNat 64 (bits v 0 16) }
      else { sh with spc2 := BitVec.ofNat 64 (bits v 0 16) })
  | 0x22 => setShep m k (if ix = 1 then { sh with sst1 := BitVec.ofNat 64 v } else { sh with sst2 := BitVec.ofNat 64 v })
  | 0x25 => setShep m k { sh with tvec := BitVec.ofNat 64 (bits v 0 16) }
  | 0x28 =>
    let st := setPState P (bits v 0 3)
    let m1 := setPast m ix { P with st := st, asid := if early P then bits v 16 12 else P.asid }
    if st = .free then { m1 with mem.apps := m1.mem.apps.filter (fun e => e.2.past != ix) } else m1
  | 0x29 => if early P then setPast m ix { P with xroot := bits v 12 40 * 4096 } else m
  | 0x2A => setPast m ix { P with fto := bits v 0 10 }
  | 0x2B => setPast m ix { P with quota := BitVec.ofNat 64 (bits v 16 3 * 65536 + bits v 0 13) }
  | 0x2C => setPast m ix { P with pcap := bits v 0 2 }
  | 0x2D => if early P then setPast m ix { P with ctxbase := bits v 16 36 * 65536 } else m
  | 0x2E => if early P then setPast m ix { P with asave := bits v 12 40 * 4096 } else m
  | 0x2F => setCset m (ix / 16) (ix % 16) v
  | _ => m

def getcG (d : Opd) (sel : Nat) (b : Opd) : Mach → Mach :=
  sFire [b] [d] (fun u w vs m =>
    match getcVal m u sel (bits ((vs[0]?).getD 0) 0 13) with
    | .ok v => putS m u d v
    | .error c => trapForm m u w c 0)
def execGetc (d : Opd) (a : Fin 256) (b : Opd) (s : State) : Out := lift (getcG d a.val b) s

/-- SETC (R153). A unit traps a reserved selector, or one whose fields are all RO, as it decodes the word (R76, R87), so
before its index is judged (log 95); a selector of R414 traps with 0x03 outside the shepherd core. -/
def setcG (sel : Nat) (a b : Opd) : Mach → Mach :=
  sFire [a, b] [] (fun u w vs m =>
    let ix := bits ((vs[1]?).getD 0) 0 13
    if roSelector sel && (isShepherd u || sel < 0x20) then trapForm m u w 0x02 0
    else match getcVal m u sel ix with
      | .error c => trapForm m u w c 0
      | .ok _ => setcEff m u sel ix ((vs[0]?).getD 0))
def execSetc (d : Fin 256) (a b : Opd) (s : State) : Out := lift (setcG d.val a b) s

/-! ## EVENT (R154, R443) -/

/-- Posts an event: VALUE, PEND and COUNT, and a message only if PEND was 0. -/
def postEvent (m : Mach) (p vec v : Nat) : Mach :=
  let k := p * 64 + vec
  let x := tget EvSlot.reset k m.host.slots
  let y : EvSlot := ⟨BitVec.ofNat 64 v, true, min (x.count + 1) (2 ^ 32 - 1)⟩
  let m1 := { m with host.slots := tput EvSlot.reset k y m.host.slots }
  if x.pend then m1 else msix m1 k

/-- Whether an EVENT of a request number still has earlier accesses or events of its context before it (R154). -/
def eventHeld (m : Mach) (who : Actor) (id : Nat) : Bool :=
  m.mem.reqs.any (fun q => q.id < id && !q.done && (isAcc q || (match q.op with | .event .. => true | _ => false))
    && (match who with | .unit u _ => ofUnit m u q.past q.who | _ => false))

/-- EVENT is a release at host scope (R154): its message follows every earlier access of its context, and the word goes on
(R66). -/
def eventG (a b : Opd) : Mach → Mach :=
  sFire [a, b] [] (fun u w vs m =>
    let v := (vs[0]?).getD 0
    let p := pastOfActor m (.unit u w)
    if 63 < v then trapForm m u w 0x01 0x06
    else if eventHeld m (.unit u w) m.ids then
      { m with ids := m.ids + 1, mem.reqs := m.mem.reqs ++ [⟨m.ids, .unit u w, 0, sectOf m m.cur, p, .drop, .event p v ((vs[1]?).getD 0),
          8, false, true, none, none, false, none, none, false, none⟩] }
    else postEvent m p v ((vs[1]?).getD 0))

/-- The oldest EVENT that nothing holds is posted. -/
def advanceEvent (m : Mach) : Option Mach :=
  m.mem.reqs.findSome? (fun r => match r.op with
    | .event p v x => if (!isShepActor r.who && (pastOf m r.past).image.isSome) || eventHeld m r.who r.id then none else some (postEvent (delReq m r.id) p v x)
    | _ => none)
def execEvent (a b : Opd) (s : State) : Out := lift (eventG a b) s

/-! ## Records (R36, R37, R119, R150) -/

def queueOf (m : Mach) (core : Nat) : List Rec := tget [] core m.pe.rq
def setQueue (m : Mach) (core : Nat) (q : List Rec) : Mach := { m with pe.rq := tput [] core q m.pe.rq }

/-- Distinct blocks of a section in the order in which the descriptor first names them: the order in which one tile's records are placed (log 94). -/
def sectBlocks (s : Section) : List Nat := (s.entries.map (·.1)).eraseDups

/-- Places of a core's ready queue that its records and the records assigned to it take (R36). -/
def queueLoad (m : Mach) (core : Nat) : Nat :=
  (queueOf m core).length + ((m.seq.avg.map (fun e => (e.2.filter (fun v => v.dst == core)).length)).sum)

/-- The entry that takes the next record of a section, when its placement does not wait: for room, or for the accesses that
happen before its ARM (R150, R410). -/
def nextTarget (m : Mach) (id : Nat) (s : Section) : Option (Nat × Nat × Nat) := do
  guard (!s.complete && s.tile < s.count && running m s.past)
  guard (!(upto 144).any (fun u => startHeld m u s.graph id && (if s.shep then u == 128 + s.cluster else isGraph u)))
  let b ← (sectBlocks s)[s.blk]?
  let es := s.entries.filter (fun e => e.1 == b)
  let e ← es[s.tile % es.length]?
  guard (queueLoad m e.2.2 < 64)
  some e

/-- The section whose record a cluster's dispatcher places next: round-robin, in the order in which they were armed, over those
whose placement does not wait (R150). -/
def nextSection (m : Mach) (cl : Nat) : Option Nat :=
  let ids := (m.seq.sections.filter (fun e => e.2.cluster == cl && (nextTarget m e.1 e.2).isSome)).map (·.1)
  let last := tget 0 cl m.seq.disp
  ((ids.filter (fun i => last < i)).min?).orElse (fun _ => ids.min?)

/-- RECORD_PLACEMENT (R150): the dispatcher places the record of the next block and tile in its target's ready queue. -/
def recordPlacementG (id : Nat) (m : Mach) : Mach :=
  match tfind id m.seq.sections with
  | none => m
  | some s =>
    match nextTarget m id s with
    | none => m
    | some e =>
      if nextSection m s.cluster != some id then m
      else
        let s1 := if s.blk + 1 < (sectBlocks s).length then { s with blk := s.blk + 1 } else { s with blk := 0, tile := s.tile + 1 }
        let m1 := setQueue m e.2.2 (queueOf m e.2.2 ++ [⟨e.2.1, s.tile, id⟩])
        { m1 with
          seq.sections := tset id { s1 with created := s.created + 1 } m1.seq.sections
          seq.disp := tset s.cluster id m1.seq.disp }
def execRecordPlacement (sect : Nat) (s : State) : Out := lift (recordPlacementG sect) s

/-- The lowest-numbered free bank of a frame that holds a block. -/
def freeBank (m : Mach) (core frame : Nat) : Option Nat :=
  if (frameImg m core frame).isEmpty then none
  else (upto 4).find? (fun b => !thas (ctxKey core frame b) m.pe.binds)

/-- Binds a context: zeroes the bank and clears its firing counts (R119); without a participating PE the activation has
ended with that (R21). -/
def bindCtx (m : Mach) (core ctx act : Nat) (kind : ActKind) : Mach :=
  let m1 := zeroBank m core ctx
  let m2 := { m1 with pe.binds := tset (core * 8 + ctx) ⟨act, kind, 0, false, none⟩ m1.pe.binds }
  if (upto 16).any (participates (frameImg m core (ctx / 4))) then m2 else endActivation m2 .idle core (ctx / 4) (ctx % 4)

/-- A record that an averaging period has assigned to another core: its entry is kept for it until it has moved (R37). -/
def assigned (m : Mach) (core : Nat) (r : Rec) : Bool := m.seq.avg.any (fun e => e.2.any (fun v => v.src == core && v.rcd == r))

/-- ACTIVATION_DISPATCH (R119): the oldest queued record whose frame has a free bank goes to the lowest one (log 31). -/
def activationDispatchG (core : Nat) (m : Mach) : Mach :=
  match livePast m core with
  | none => m
  | some p =>
    if !running m p then m
    else
      let q := queueOf m core
      match q.find? (fun r => !assigned m core r && (freeBank m core r.frame).isSome) with
      | none => m
      | some r =>
        match freeBank m core r.frame with
        | none => m
        | some b => bindCtx (setQueue m core (q.erase r)) core (r.frame * 4 + b) r.act (.record r.sect)
def execActivationDispatch (core : Nat) (s : State) : Out := lift (activationDispatchG core) s

/-- The neighbour of a core across its east, south, west or north link, within the cluster's 6 x 8 mesh (R9). -/
def neighbour (core dir : Nat) : Option Nat :=
  let i := core % 48
  match dir with
  | 0 => if i % 8 < 7 then some (core + 1) else none
  | 1 => if i / 8 < 5 then some (core + 8) else none
  | 2 => if 0 < i % 8 then some (core - 1) else none
  | _ => if 0 < i / 8 then some (core - 8) else none

def movableRec (m : Mach) (core : Nat) (r : Rec) : Bool := imgMovable (frameImg m core r.frame)

/-- Whether a target can take records of a block (R37): same image, or an empty frame with no install into it. -/
def targetTakes (m : Mach) (x y : Nat) (r : Rec) : Bool :=
  let img := frameImg m x r.frame
  let there := frameImg m y r.frame
  livePast m x == livePast m y
    && (there == img || (there.isEmpty && !thas (frameKey y r.frame) m.seq.installs))

/-- One link's moves (R36): `done` holds what earlier links have assigned. -/
def linkMoves (m : Mach) (done : List Move) (x y : Nat) : List Move :=
  let occ := fun c => ((queueOf m c).filter (movableRec m c)).length
  let mv := (queueOf m x).filter (fun r => movableRec m x r && !done.any (fun v => v.src == x && v.rcd == r))
  let room := 64 - (queueOf m y).length - (done.filter (fun v => v.dst == y)).length
  let n := if occ y < occ x then min ((occ x - occ y) / 5) (min room mv.length) else 0
  ((mv.drop (mv.length - n)).filter (targetTakes m x y)).map (fun r => ⟨x, y, r⟩)

/-- AVERAGING_SAMPLE (R36, R37): the moves of the period, and the installs that empty target frames need. -/
def averagingSampleG (cl : Nat) (m : Mach) : Mach :=
  if !(tget [] cl m.seq.avg).isEmpty then m
  else
    let cores := (upto 48).map (fun i => cl * 48 + i)
    let mvs := cores.foldl (fun acc x => (upto 4).foldl (fun acc d =>
      match neighbour x d with
      | some y => if (livePast m x).any (running m) then acc ++ linkMoves m acc x y else acc
      | none => acc) acc) []
    let m1 := mvs.foldl (fun m v =>
      let k := frameKey v.dst v.rcd.frame
      if (frameImg m v.dst v.rcd.frame).isEmpty && !thas k m.seq.installs then
        { m with seq.installs := tset k ⟨frameImg m v.src v.rcd.frame, none, 0, .drop, none⟩ m.seq.installs }
      else m) m
    { m1 with seq.avg := tput [] cl mvs m1.seq.avg }
def execAveragingSample (cluster : Nat) (s : State) : Out := lift (averagingSampleG cluster) s

/-- AVERAGING_MOVE (R37): the first assigned record moves, once its target frame holds the image; it stays with the
sender when the install failed. It joins the end of the receiving queue, a place that R36 does not give (DESIGN CHOICE, log 107). A
pre-emption discards the moves of its pasture's period whole (R43). -/
def averagingMoveG (cl : Nat) (m : Mach) : Mach :=
  match tget [] cl m.seq.avg with
  | [] => m
  | v :: rest =>
    if !(livePast m v.src).any (running m) then
      { m with seq.avg := tput [] cl ((v :: rest).filter (fun x => (livePast m x.src).any (running m))) m.seq.avg }
    else
    let m1 := { m with seq.avg := tput [] cl rest m.seq.avg }
    if thas (frameKey v.dst v.rcd.frame) m.seq.installs then m
    else if frameImg m v.dst v.rcd.frame == frameImg m v.src v.rcd.frame && (queueOf m v.src).contains v.rcd then
      setQueue (setQueue m1 v.src ((queueOf m v.src).erase v.rcd)) v.dst (queueOf m1 v.dst ++ [v.rcd])
    else m1
def execAveragingMove (cluster : Nat) (s : State) : Out := lift (averagingMoveG cluster) s

/-! ## Token arrival (R113, R117) -/

/-- TOKEN_ARRIVAL: the first token of its source and input enters the input when there is room. A source that is no PE
output waits until the input has room beyond the places that PE outputs hold. -/
def tokenArrivalG (n : Nat) (m : Mach) : Mach :=
  match m.fab.transit[n]? with
  | none => m
  | some t =>
    let c := chanOf m t.dst
    let first := !(m.fab.transit.take n).any (fun x => x.src == t.src && x.dst == t.dst)
    if 100000 ≤ t.dst then
      let m1 := { m with fab.transit := m.fab.transit.eraseIdx n }
      match tfind (t.dst - 100000) m.copy.tiles with
      | some b =>
        if first && b.inq.length < 4 then { m1 with copy.tiles := tset (t.dst - 100000) { b with inq := b.inq ++ [t.tok] } m1.copy.tiles }
        else m
      | none => m1
    else
    let room := chanAccepts c && (t.src < 200000 || inTransit m t.dst + reservedAt m t.dst < chanRoom c)
    if first && room then
      ringSync (setChan { m with fab.transit := m.fab.transit.eraseIdx n } t.dst (acceptTok c t.tok)) t.dst
    else m

end Sys2Proof.Machine
end

