-- ==== Sys2Proof/Machine/Reach.lean ====
section
/-! DEFINITION. The memory interface: requests, their order in chains, the places that they reach, the flits that they send, and
the waiters that writes wake (R189-R203, R206-R209, R217-R218, R222-R238, R244-R256). -/
namespace Sys2Proof.Machine

/-! ## Issue -/

/-- The PE array that holds a pasture's state: the cores', or the image while it is pre-empted (R424). -/
def peOf (m : Mach) (p : Nat) : PeS := match (pastOf m p).image with | some i => i.pe | none => m.pe

/-- The chain position of the executing instruction: its order word and the firing count of its slot (R82, R201). -/
def posOf (m : Mach) : Option ChainPos :=
  match m.cur with
  | .pe core pe frame slot bank _ =>
    let c := imgCtl (frameImg m core frame) pe slot
    if ctlO c then some ⟨ctlChain c, tget 0 (fireKey core (frame * 4 + bank) pe slot) m.pe.fires, ctlSeq c⟩ else none
  | _ => none

/-- Where a result goes, by its operand D; `wide` for a 16-byte result of an S-form unit (R205). -/
def dstOf (m : Mach) (d : Opd) (wide : Bool) : Dst :=
  match m.cur with
  | .pe core pe frame _ bank _ =>
    match d with
    | .outC n => .out core pe n.val bank
    | o => match regCode o with | some c => .reg core pe (frame * 4 + bank) c | none => .zero
  | .unit u _ =>
    match d with
    | .r n => if wide then .spair u n.val else .sreg u n.val
    | .outC _ => .tile u
    | _ => .zero
  | .idle => .drop

/-- The acknowledgement's destination of a store, RED or ARRIVE: an output channel or nothing. -/
def ackOf (m : Mach) (d : Opd) : Dst :=
  match m.cur, d with
  | .pe core pe _ _ bank _, .outC n => .out core pe n.val bank
  | _, _ => .drop

def mkReq (m : Mach) (dst : Dst) (op : ReqOp) (sc : Nat) (acq rel : Bool) : Req :=
  ⟨m.ids, m.cur, actOf m m.cur, sectOf m m.cur, pastOfActor m m.cur, dst, op, sc, acq, rel, posOf m, none, false, none, none,
    false, none⟩
/-- A request enters; a tile's coalescing unit holds its accesses (R270). -/
def addReq (m : Mach) (r : Req) : Mach :=
  let held := match r.who, r.op with
    | .unit u _, .load .. => if isTile u && !thas u m.copy.held then tset u (r.id + 1) m.copy.held else m.copy.held
    | .unit u _, .store .. => if isTile u && !thas u m.copy.held then tset u (r.id + 1) m.copy.held else m.copy.held
    | _, _ => m.copy.held
  { m with ids := m.ids + 1, mem.reqs := m.mem.reqs ++ [r], copy.held := held }

/-- The second register of a 16-byte operand in an S-form unit (R205). -/
def pairReg (m : Mach) (wide : Bool) (o : Opd) : List Nat :=
  match m.cur, o with
  | .unit .., .r n => if wide then [n.val + 1] else []
  | _, _ => []

/-- A 16-byte operand: an S-form register pair, an immediate, sign-extended to the whole width (log 93), or the PE's whole value
(R205). -/
def wideVal (m : Mach) (o : Opd) : Nat :=
  match m.cur, o with
  | .unit u _, .r n => sReg m u n.val + sReg m u (n.val + 1) * 2 ^ 64
  | .unit .., .imm v => wrapI 128 v.toInt
  | _, _ => (srcVal m .whole o).pay.toNat

/-- The start of an instruction that makes a request: the poison step and the dequeues in a PE, the register stalls
in an S-form unit. -/
def memStart (os : List Opd) (ds : List Opd) (more : List Nat) (onPoison : Val → Mach → Mach) (eff : List Val → Mach → Mach)
    (m : Mach) : Mach :=
  let vs := os.map (srcVal m .whole)
  match m.cur with
  | .idle => m
  | .pe .. =>
    let m1 := deqSrcs m os
    match poisonStep vs with
    | some v => onPoison v m1
    | none => eff vs m1
  | .unit u w => sStart m u w (os ++ ds) more (eff vs)

/-! ## Handles as a firing reads them (R206) -/

/-- A handle, and the SNAP that it is pending on. Within a dual issue the second pair reads what stood before. -/
def readHand (m : Mach) (h : Nat) : BitVec 256 × Option Nat :=
  let o := handOwner m.cur
  match m.hold with
  | some (t, pd) => if o < 2048 then (tget 0 (o * 16 + h) t, tfind (o * 16 + h) pd) else (getHand m o h, handPend m o h)
  | none => (getHand m o h, handPend m o h)

/-- A handle of a pasture, in its image while it is pre-empted. -/
def getHandP (m : Mach) (p owner h : Nat) : BitVec 256 :=
  match (pastOf m p).image with
  | some i => if owner < 2048 then tget 0 (owner * 16 + h) i.pe.hands
      else if isGraph (owner - 2048) then tget 0 ((owner - 2048) * 16 + h) i.uhands else getHand m owner h
  | none => getHand m owner h
/-- Writes a handle of a pasture, in its image while it is pre-empted. -/
def setHandP (m : Mach) (p owner h : Nat) (v : BitVec 256) : Mach :=
  let P := pastOf m p
  match P.image with
  | some i =>
    if owner < 2048 then setPast m p { P with image := some { i with
      pe.hands := tput 0 (owner * 16 + h) v i.pe.hands, pe.hpend := tdel (owner * 16 + h) i.pe.hpend } }
    else if isGraph (owner - 2048) then setPast m p { P with image := some { i with
      uhands := tput 0 ((owner - 2048) * 16 + h) v i.uhands, uhpend := tdel ((owner - 2048) * 16 + h) i.uhpend } }
    else setHandPend (setHand m owner h v) owner h none
  | none => setHandPend (setHand m owner h v) owner h none
def handPendP (m : Mach) (p owner h : Nat) : Option Nat :=
  match (pastOf m p).image with
  | some i => if owner < 2048 then tfind (owner * 16 + h) i.pe.hpend
      else if isGraph (owner - 2048) then tfind ((owner - 2048) * 16 + h) i.uhpend else handPend m owner h
  | none => handPend m owner h

/-- An S-form instruction stalls on a handle that an outstanding SNAP is to write (R205). -/
def handStall (m : Mach) (hs : List Nat) : Bool :=
  match m.cur with
  | .unit u _ => hs.any (fun h => (handPend m (2048 + u) h).isSome)
  | _ => false

def hanNo : Opd → Nat
  | .h n => n.val
  | _ => 0

/-! ## Translation of a request (R193-R200) -/

def leafR (m : Mach) (r : Req) (va : Nat) : Except (Nat × Nat) Nat :=
  match r.xlat with
  | some (b, e) => if b ≤ va ∧ va < b + pteSize e then .ok e else leafOf m r.who r.past va
  | none => leafOf m r.who r.past va
def byteLoc (m : Mach) (r : Req) (va : Nat) (k : AccK) : Except (Nat × Nat) Loc :=
  match leafR m r va with
  | .error x => .error x
  | .ok e => leafPlace m (isShepActor r.who) e va k
/-- The places of an access; when only its second page fails, DETAIL is the address of the first byte there (R196; log 99). -/
def virtR (m : Mach) (r : Req) (va n : Nat) (k : AccK) : Except (Nat × Nat) (List Loc) :=
  (upto n).mapM (fun i => byteLoc m r ((va + i) % 2 ^ 64) k)

/-- Where a request goes: its places, beyond a snapshot's frontier, or a failure with cause and detail. -/
inductive Target where
  | at (ls : List Loc)
  | beyond
  | bad (cause detail : Nat)
  deriving DecidableEq, Repr

def Target.of : Except (Nat × Nat) (List Loc) → Target
  | .ok ls => .at ls
  | .error (c, d) => .bad c d
/-- BOUNDS through handle h (R79, R208). -/
def boundsAt (va h : Nat) : Target := .bad 0x08 (va % 2 ^ 56 + h % 16 * 2 ^ 56)

/-- Places of physical bytes without translation (R189, R208). -/
def physAt (pa n h : Nat) : Target :=
  if pa + n ≤ 2 ^ 39 then .at ((upto n).map (fun i => .hbm (pa + i)))
  else .bad 0x08 (pa % 2 ^ 56 + h % 16 * 2 ^ 56)

def relOf (m : Mach) (p r : Nat) : Option Rel := tfind (p * 256 + r) m.rule.rels

/-- The cores that hold partition `h` of a relation: its home and the twins of a cast of it (R329, R372). -/
def partCores (m : Mach) (p rl : Nat) (x : Rel) (h : Nat) : List Nat :=
  let fam := m.stage.fams.find? (fun e => e.1 / 64 == p && bits ((e.2.desc[0]?).getD 0).toNat 6 2 == 1
    && bits ((e.2.desc[6]?).getD 0).toNat 0 8 == rl && bits ((e.2.desc[6]?).getD 0).toNat 8 10 == h)
  (x.homes[h]?).getD 0 :: (match fam with | some e => e.2.entries.tail.map (·.core) | none => [])
/-- The core whose scratchpad holds slot `s` of a partition: the holder where it has a tuple, else its home. -/
def slotCore (m : Mach) (p rl : Nat) (x : Rel) (h s : Nat) : Nat :=
  let vAt := fun c => 128 ≤ (memGet m.mem.spad (c * 2 ^ 19 + x.spbase + 32 * s + 23)).toNat
  ((partCores m p rl x h).find? vAt).getD ((x.homes[h]?).getD 0)

/-- Byte `j` of partition `h` of a relation, viewed as records of 32 bytes (R329, R355). -/
def partLoc (m : Mach) (r : Req) (rl : Nat) (x : Rel) (h j : Nat) (k : AccK) : Except (Nat × Nat) Loc :=
  let s := j / 32
  if s < x.spslots then .ok (.spad (slotCore m r.past rl x h s * 2 ^ 19 + x.spbase + j))
  else byteLoc m r (x.ovbase + 32 * (h * (2 ^ x.lslots - x.spslots) + s - x.spslots) + j % 32) k

/-- Reads 4 bytes of a window's index range; bytes on another package are free (log 27). -/
def idxRead (m : Mach) (r : Req) (va : Nat) : Except (Nat × Nat) Nat :=
  match virtR m r va 4 .rd with
  | .error x => .error x
  | .ok ls =>
    match locsFault m r.who ls with
    | some x => .error x
    | none => .ok (natOf ((upto 4).map (fun i => match (ls[i]? : Option Loc) with
        | some l => if isOutside l then Config.outsideByte m.free (va + i) else locByte m l
        | none => 0)))

/-- An access through a gather window (R218): element `i`, unless the window is unbound or closed before it. The BOUNDS fault of an
unbound or closed window, of another width, of a store to a read-only one and of an index at or beyond the count names no address of
memory: DETAIL holds address 0 beside the handle number (DESIGN CHOICE, log 108). -/
def windowAt (m : Mach) (r : Req) (h : Nat) (hv : BitVec 256) (i n : Nat) (k : AccK) : Target :=
  let bad := boundsAt 0 h
  match tfind (r.past * 16 + bits (hAux0 hv) 0 4) m.mem.windows with
  | none => bad
  | some w =>
    if (w.closed && r.granted.isNone) || (k.writes && !w.we) || n != 2 ^ hEsz w.src || hBound w.ix / 4 ≤ i then bad
    else match idxRead m r (hBase w.ix + 4 * i) with
      | .error (c, d) => .bad c d
      | .ok j =>
        if hBound w.src < (j + 1) * n then boundsAt (hBase w.src + j * n) h
        else .of (virtR m r (hBase w.src + j * n) n k)

/-- Whether slot SLOT of a page's append record holds VERSION (R217). A record on another package is not seen here. -/
def snapHolds (m : Mach) (l : Loc) (slot ver : Nat) : Bool :=
  match l with
  | .hbm pa => (match tfind slot (tget AppRec.reset (pa / 65536) m.mem.apps).slots with | some x => x.1 == ver | none => false)
  | _ => true

/-- A load through a snapshot handle (R217). -/
def snapAt (m : Mach) (r : Req) (hv : BitVec 256) (o n : Nat) : Target :=
  let a := hAux0 hv
  let ver := bits a 0 32
  if bitAt a 35 then .bad 0x03 ver
  else match byteLoc m r (hBase hv) .snapLoad with
    | .error (c, d) => .bad c d
    | .ok l =>
      if !snapHolds m l (bits a 32 3) ver then .bad 0x03 ver
      else if hBound hv < o + n then .beyond
      else .of (virtR m r (hBase hv + o) n .snapLoad)

/-- The access of index `i` and width `n` through a handle (R208). -/
def handAt (m : Mach) (r : Req) (h : Nat) (hv : BitVec 256) (i n : Nat) (k : AccK) : Target :=
  let o := i * n
  let out := boundsAt (hBase hv + o) h
  match hType hv with
  | 1 => if hBound hv < o + n then out else .of (virtR m r (hBase hv + o) n k)
  | 2 => if hBound hv < o + n then out else .of (virtR m r (hBase hv + o) n k)
  | 3 => if hBound hv < o + n then out else .of (virtR m r (hBase hv + o) n k)
  | 4 => if hBound hv < o + n then out else .of (virtR m r (hBase hv + o) n k)
  | 5 =>
    match relOf m r.past (bits (hAux0 hv) 0 8) with
    | none => out
    | some x =>
      if k.writes || x.homes.length ≤ bits (hAux0 hv) 16 10 || 32 * 2 ^ x.lslots < o + n then out
      else .of ((upto n).mapM (fun j => partLoc m r (bits (hAux0 hv) 0 8) x (bits (hAux0 hv) 16 10) (o + j) k))
  | 6 => windowAt m r h hv i n k
  | 7 => if k.writes then out else snapAt m r hv o n
  | 8 => if hBound hv < o + n then out else physAt (bits (hAux0 hv) 0 52 + o) n h
  | _ => out

def targetOf (m : Mach) (r : Req) (pl : Place) (n : Nat) (k : AccK) : Target :=
  match pl with
  | .virt va => .of (virtR m r va n k)
  | .scratch sa => .of (scratchLocs m r.who r.past sa n)
  | .hand _ h hv i => handAt m r h hv i n k

/-! ## Chains (R201, R202, R221, R249) -/

/-- The order kind of the page that a request is on (R199, R248): 0 unordered, 1 release, 2 strong. An access through a pinned-region
(TYPE 8) or a relation (TYPE 5) handle has no page, and the rules give it no order kind: it is ordered as on a release page (DESIGN
CHOICE, log 113). -/
def reqOrd (m : Mach) (r : Req) : Nat :=
  let at' := fun va n => max (match leafR m r va with | .ok e => bits e 3 2 | .error _ => 1)
    (match leafR m r (va + n - 1) with | .ok e => bits e 3 2 | .error _ => 1)
  match r.op with
  | .bopen _ a _ => at' a 1
  | _ =>
  match reqPlace r with
  | some (.virt va, n, _) => at' va n
  | some (.hand _ _ hv i, n, _) =>
    if 1 ≤ hType hv ∧ hType hv ≤ 4 then at' (hBase hv + i * n) n else if hType hv = 6 then 0 else 1
  | _ => 1

/-- Loads and stores ignore their order kind on an unordered page (R248). -/
def plainHere (m : Mach) (r : Req) : Bool :=
  match r.op with
  | .load .. => reqOrd m r == 0
  | .store .. => reqOrd m r == 0
  | _ => false
def effAcq (m : Mach) (r : Req) : Bool := r.acq && !plainHere m r
def effRel (m : Mach) (r : Req) : Bool := r.rel && !plainHere m r
def isStrong (m : Mach) (r : Req) : Bool := reqOrd m r == 2

/-- The bytes of the DRAM row at a physical address R: four granules 2,048 bytes apart (R274). -/
def rowLocs (pa : Nat) : List Loc :=
  (upto 1024).map (fun i => .hbm (pa + i / 256 * 2048 + i % 256))
/-- The row that BOPEN and BCLOSE name: the physical address of an aligned address of a local page (R275). -/
def rowPa (m : Mach) (r : Req) (va : Nat) (k : AccK) : Option Nat :=
  if bits va 11 2 != 0 || bits va 0 8 != 0 then none
  else match byteLoc m r va k with | .ok (.hbm pa) => some pa | _ => none

/-- The bytes that a COPYA or COPYI reads as it is issued: its descriptor and the indices that this names (R263, R264). -/
def descLocs (m : Mach) (r : Req) (kind vec : Nat) : List Loc :=
  let at' := fun sa n => match scratchLocs m r.who r.past sa n with | .ok ls => ls | .error _ => []
  let ds := at' (bits vec 64 32) 32
  let x := locsRead m ds
  ds ++ (if kind = 2 && bits x 32 32 ≤ 2 ^ 17 then at' (bits x 64 32) (4 * bits x 32 32) else [])

/-- The append page of an operation of its engine, by physical page (R215). -/
def appPage (m : Mach) (r : Req) : Option Loc :=
  let page := fun a => match byteLoc m r (a / 65536 * 65536) (match r.op with | .snap .. => .snap | _ => .app) with
    | .ok l => some l | .error _ => none
  match r.op with
  | .append a _ _ => page a
  | .publ a _ _ => page a
  | .snap _ _ a _ => page a
  | _ => none
/-- The append record of a local page, as the engine holds it or would create it for the request's pasture (R214, R224). -/
def appOf (m : Mach) (r : Req) (pg : Nat) : AppRec := tget ⟨r.past, 0, []⟩ pg m.mem.apps
/-- The bytes of local page `pg` that an APPEND of `n` bytes writes, those that it skips among them; none where the page is full
(R215). -/
def appendLocs (m : Mach) (r : Req) (pg n : Nat) : List Loc :=
  let x := appOf m r pg
  let t := (x.tail + n - 1) / n * n
  if 65536 < t + n then [] else (upto (t + n - x.tail)).map (fun i => .hbm (pg * 65536 + x.tail + i))
/-- The bytes of memory that an operation on an append page touches: PUBL and SNAP touch none (R216, R217). On another package its
place there. -/
def pageLocs (m : Mach) (r : Req) : List Loc :=
  match appPage m r, r.op with
  | some (.hbm pa), .append _ n _ => appendLocs m r (pa / 65536) n
  | some (.hbm _), _ => []
  | some l, _ => [l]
  | none, _ => []
def isPageOp (r : Req) : Bool := match r.op with | .append .. => true | .publ .. => true | .snap .. => true | _ => false

def reqLocs (m : Mach) (r : Req) : List Loc :=
  match r.op with
  | .append .. => pageLocs m r
  | .publ .. => pageLocs m r
  | .snap .. => pageLocs m r
  | .copy kind vec _ _ _ _ _ _ _ judged => if judged || kind == 0 then [] else descLocs m r kind vec
  | .keyi _ va => (match virtR m r va 32 .rd with | .ok ls => ls | .error _ => [])
  | .bopen wr a sp => (match rowPa m r a (if wr then .wr else .rd) with
      | some pa => rowLocs pa ++ (match scratchLocs m r.who r.past sp 1024 with | .ok ls => ls | .error _ => [])
      | none => [])
  | .bclose a => (match rowPa m r a .rd with | some pa => rowLocs pa | none => [])
  | .mcstq sa _ => (match scratchLocs m r.who r.past sa 256 with | .ok ls => ls | .error _ => [])
  | .mcst sa _ _ _ [] _ _ => (match scratchLocs m r.who r.past sa 256 with | .ok ls => ls | .error _ => [])
  | _ =>
    match reqPlace r with
    | some (pl, n, k) => (match targetOf m r pl n k with | .at ls => ls | _ => [])
    | none => []

/-- A read of `n` bytes by the index engine, as a plain load; bytes of another package are free (log 27). -/
def engRead (m : Mach) (r : Req) (va n : Nat) : Except (Nat × Nat) Nat :=
  match virtR m r va n .rd with
  | .error x => .error x
  | .ok ls =>
    match locsFault m r.who ls with
    | some x => .error x
    | none => .ok (natOf ((upto n).map (fun i => match (ls[i]? : Option Loc) with
        | some l => if isOutside l then Config.outsideByte m.free (va + i) else locByte m l
        | none => 0)))
/-- The addresses and lengths that a walk reads for its next token (R317-R319). -/
def walkReads (m : Mach) (r : Req) : List (Nat × Nat) :=
  match r.op with
  | .iwalk hv _ p0 _ maj e =>
    if hType hv = 4 then [(hAux1 hv + 8 * (p0 + e), 8)] else [(hAux0 hv, 4 * (maj + 1)), (hAux1 hv + 4 * (p0 + e), 4)]
  | .spmx hv x _ m0 _ _ e =>
    let at' := fun i => match engRead m r (hAux0 hv + 4 * (m0 + e + i)) 4 with | .ok v => v | .error _ => 0
    [(hAux0 hv + 4 * (m0 + e), 8), (hAux1 hv + 4 * at' 0, 4 * (at' 1 - at' 0)),
      (hBase hv + at' 0 * 2 ^ hEsz hv, (at' 1 - at' 0) * 2 ^ hEsz hv), (hBase x, hBound x)]
  | _ => []
/-- The addresses and lengths that a walk may still read, for all its tokens. -/
def walkAhead (r : Req) : List (Nat × Nat) :=
  match r.op with
  | .iwalk hv _ p0 cnt maj e =>
    let n := min (cnt - e) (hBound hv / 2 ^ hEsz hv - (p0 + e))
    if n = 0 then [] else if hType hv = 4 then [(hAux1 hv + 8 * (p0 + e), 8 * n)]
    else [(hAux0 hv, 4 * (maj + 1)), (hAux1 hv + 4 * (p0 + e), 4 * n)]
  | .spmx hv x _ m0 cm maj e =>
    if cm ≤ e ∨ maj ≤ m0 + e then []
    else [(hAux0 hv + 4 * (m0 + e), 4 * (min cm (maj - m0) - e + 1)), (hAux1 hv, 4 * (hBound hv / 2 ^ hEsz hv)), (hBase hv, hBound hv),
      (hBase x, hBound x)]
  | _ => []
/-- Whether a place lies in a range of addresses of a request. The bytes of a range that lie in one 64 KB page are together. -/
def rangeHas (m : Mach) (r : Req) (x : Nat × Nat) (l : Loc) : Bool :=
  x.2 != 0 && (upto ((x.1 + x.2 - 1) / 65536 - x.1 / 65536 + 1)).any (fun i =>
    let lo := max x.1 ((x.1 / 65536 + i) * 65536)
    let hi := min (x.1 + x.2) ((x.1 / 65536 + i + 1) * 65536)
    match byteLoc m r lo .rd, l with
    | .ok (.hbm a), .hbm b => a ≤ b && b < a + (hi - lo)
    | .ok (.peer p a _), .peer q b _ => p == q && a ≤ b && b < a + (hi - lo)
    | .ok (.host t a), .host u b => t == u && a ≤ b && b < a + (hi - lo)
    | _, _ => false)
/-- The places of a range of addresses, one in each 64-byte line. -/
def unitLocs (m : Mach) (r : Req) (k : AccK) (x : Nat × Nat) : List Loc :=
  if x.2 = 0 then [] else (upto ((x.1 + x.2 - 1) / 64 - x.1 / 64 + 1)).filterMap (fun i =>
    match byteLoc m r (max x.1 ((x.1 / 64 + i) * 64)) k with | .ok l => some l | .error _ => none)
/-- The places where a request goes next: those of an access, of the next token of a walk, or of a prefetch and its object, the last
two with one place in each line. -/
def nextLocs (m : Mach) (r : Req) : List Loc :=
  match r.op with
  | .iwalk .. => (walkReads m r).flatMap (unitLocs m r .rd)
  | .spmx .. => (walkReads m r).flatMap (unitLocs m r .rd)
  | .pft desc obj => unitLocs m r .pft (bits desc 0 56, bits desc 96 32) ++ unitLocs m r .atomW (obj, 8)
  | _ => reqLocs m r

/-- Whether two requests touch a common byte, or name one append page (R214). A walk touches what it may still read (R316). -/
def commonByte (m : Mach) (r q : Req) : Bool :=
  let ls := reqLocs m r
  let lq := reqLocs m q
  lq.any (fun l => ls.contains l) || (walkAhead q).any (fun x => ls.any (rangeHas m q x)) || (walkAhead r).any (fun x => lq.any (rangeHas m r x))
    || ((appPage m r).isSome && appPage m r == appPage m q)

def posLt (x y : ChainPos) : Bool := x.n < y.n || (x.n == y.n && x.seq < y.seq)

/-- Whether `q` comes before `r` in one chain (R201, R205, R38). -/
def chainBefore (r q : Req) : Bool :=
  match r.who, q.who with
  | .unit u _, .unit v _ => u == v && (isShepherd u || r.past == q.past) && q.id < r.id
  | .pe c _ f _ b _, .pe c2 _ f2 _ b2 _ =>
    (match r.pos, q.pos with
     | some x, some y => c == c2 && f == f2 && x.chain == y.chain && r.past == q.past && r.sect == q.sect
        && (if b == b2 && r.act == q.act then posLt y x else q.act < r.act)
     | _, _ => false)
  | _, _ => false

def isFence (r : Req) : Bool := match r.op with | .fence .. => true | _ => false
/-- Engine work that follows every earlier access of its issuer's chain (R255). -/
def followsAll (r : Req) : Bool :=
  match r.op with
  | .fence .. => true | .ag .. => true | .copy .. => true | .pft .. => true | .mcst .. => true
  | .bar _ => true | .bclose _ => true | .cflush .. => true | _ => false

/-- Whether an access `q` that is not performed holds back `r` (R249). -/
def holdsBack (m : Mach) (r q : Req) : Bool :=
  !q.done && isAcc q && chainBefore r q
    && (isFence q || followsAll r || effAcq m q || effRel m r || (effRel m q && effAcq m r) || isStrong m r
      || commonByte m r q)
/-- The same of what a request reads as it is issued, a copy's descriptor: a plain load at its position. -/
def holdsRead (m : Mach) (r q : Req) : Bool :=
  !q.done && isAcc q && chainBefore r q && (isFence q || effAcq m q || commonByte m r q)

/-- The slots of a chain: PE, slot and sequence index. -/
def chainSlots (img : List W64) (c : Nat) : List (Nat × Nat × Nat) :=
  ((upto 128).map (fun i => (i / 8, i % 8, imgCtl img (i / 8) (i % 8)))).filterMap (fun x =>
    if ctlV x.2.2 && ctlO x.2.2 && ctlChain x.2.2 == c then some (x.1, x.2.1, ctlSeq x.2.2) else none)

def kindSect (b : Binding) : Nat := match b.kind with | .record s => s | _ => 2 ^ 64

/-- Whether the memory interface has reached a request's chain position: every earlier position has arrived or its PE has
fired DONE, and lower activations of the chain are past it (R201, R202, R38). -/
def posReady (m : Mach) (r : Req) : Bool :=
  match r.who, r.pos with
  | .pe core _ frame _ bank _, some x =>
    let P := peOf m r.past
    let slots := chainSlots (tget [] (frameKey core frame) P.frames) x.chain
    let ctx := frame * 4 + bank
    let own := match tfind (core * 8 + ctx) P.binds with
      | some b => (b.act != r.act || kindSect b != r.sect) || slots.all (fun t => bitAt b.done t.1
          || (if t.2.2 < x.seq then x.n + 1 else x.n) ≤ tget 0 (fireKey core ctx t.1 t.2.1) P.fires)
      | none => true
    own && (upto 4).all (fun k => match tfind (core * 8 + frame * 4 + k) P.binds with
      | some b => kindSect b != r.sect || r.act ≤ b.act
          || (slots.all (fun t => bitAt b.done t.1)
              && !(tget [] (core * 8 + frame * 4 + k) P.commit).any (fun e => (e.pos.map (·.chain)) == some x.chain))
      | none => true)
  | _, _ => true

/-- Whether `q` was issued before `r` in the same activation, in any chain (R221, R240). -/
def actBefore (r q : Req) : Bool :=
  match r.who, q.who with
  | .pe c _ f _ b _, .pe c2 _ f2 _ b2 _ => c == c2 && f == f2 && b == b2 && r.act == q.act && r.past == q.past && r.sect == q.sect && q.id < r.id
  | .unit u _, .unit v _ => u == v && (isShepherd u || r.past == q.past) && q.id < r.id
  | _, _ => false

/-- Whether `q` is an access of the activation that issued fence `r`, or comes before it in its chain (R221). -/
def fenceCovers (r q : Req) : Bool :=
  match r.who, q.who with
  | .pe c _ f _ b _, .pe c2 _ f2 _ b2 _ =>
    chainBefore r q || (c == c2 && f == f2 && b == b2 && r.act == q.act && r.past == q.past && r.sect == q.sect && q.id != r.id)
  | _, _ => chainBefore r q
/-- A list of requests in the order in which their interface issues them: chain order, else the order of firing (R201). -/
def insIssue (x : Req) : List Req → List Req
  | [] => [x]
  | y :: ys => if chainBefore y x then x :: y :: ys else y :: insIssue x ys
/-- A request that waits for what was issued before it, and that later accesses of its chain wait for. -/
def fenceLike (r : Req) : Bool := match r.op with | .fence .. => true | .cflush .. => true | _ => false
/-- Whether an access of the activation has been issued before fence `r`: it comes before it in its chain, or it is another chain's whose
position is reached and which no fence of that chain holds back (R221). -/
def issuedFor (m : Mach) (r q : Req) : Bool :=
  chainBefore r q || (!chainBefore q r && !fenceLike q && posReady m q
    && !m.mem.reqs.any (fun f => fenceLike f && f.id != r.id && !f.done && chainBefore q f))
/-- The accesses that a fence waits for: those issued before it and neither performed nor failed, in issue order. Where its
position has been reached they stand in it. -/
def fenceList (m : Mach) (r : Req) : List Nat :=
  match r.op with
  | .fence _ (some ws) => ws
  | .cflush _ _ _ (some ws) => ws
  | _ => ((m.mem.reqs.filter (fun q => !q.done && isAcc q && fenceCovers r q && issuedFor m r q)).foldl
      (fun l q => insIssue q l) []).map (·.id)
/-- The memory interface reaches the positions of fences, and of CFLUSHes, which order as fences do (R273): each keeps the
accesses that have been issued by then (R221). -/
def markFences (m : Mach) : Mach :=
  if m.mem.reqs.any (fun r => match r.op with | .fence _ none => true | .cflush _ _ _ none => true | _ => false) then
    { m with mem.reqs := m.mem.reqs.map (fun r => match r.op with
        | .fence k none => if posReady m r then { r with op := .fence k (some (fenceList m r)) } else r
        | .cflush i a n none => if posReady m r then { r with op := .cflush i a n (some (fenceList m r)) } else r
        | _ => r) }
  else m
/-- Whether an access holds back a fence (R221). -/
def fenceWaits (m : Mach) (r q : Req) : Bool := !q.done && (fenceList m r).contains q.id

/-- A page of these places is being moved (R406). -/
def locsMoving (m : Mach) (ls : List Loc) : Bool :=
  let ks := m.mem.reqs.filterMap (fun q => match q.op with | .pgmig _ k _ => if q.done then none else some k | _ => none)
  !ks.isEmpty && ls.any (fun l => match l with
    | .peer p pa _ => ks.contains (p * 2 ^ 40 + pa / 65536)
    | .hbm pa => ks.contains (m.host.peer * 2 ^ 40 + pa / 65536)
    | _ => false)
/-- The page of a request is being moved. -/
def pageMoving (m : Mach) (r : Req) : Bool := m.mem.reqs.any (fun q => match q.op with | .pgmig .. => !q.done | _ => false) && locsMoving m (nextLocs m r)

/-- Rows of one bank of one pseudo-channel (R274). -/
def sameBank (x y : Nat) : Bool := Config.rowChannel x == Config.rowChannel y && Config.rowBank x == Config.rowBank y
/-- While a bank is reserved, requests for its other rows wait (R275). -/
def rowsHeld (m : Mach) (ls : List Loc) : Bool :=
  m.mem.rows.any (fun x => ls.any (fun l => match l with
    | .hbm pa => rowOf pa != x.row && sameBank (rowOf pa) x.row
    | _ => false))
def rowHeld (m : Mach) (r : Req) : Bool := !m.mem.rows.isEmpty && rowsHeld m (nextLocs m r)

/-- A request in a gated region: a memory interface issues nothing of a pasture that is not running; what was in flight as its
clock stopped goes on (R423), and so does the work of engines. -/
def gated (m : Mach) (r : Req) : Bool :=
  let P := pastOf m r.past
  (P.gate.isSome || P.st == .shadowed || P.st == .saved) && !outlives r && !P.flight.contains r.id
    && (match r.who with | .idle => false | _ => true)

/-- A result of several tokens, or one that ends a stream. -/
def isStream (r : Req) : Bool :=
  match r.res with | some ts => decide (1 < ts.length) || (ts.getLast?).any (·.eos) | none => false

/-! ## Lanes of requests (R385, R387, R390, R400) -/

/-- A package outside the paddock is reached through the gate (R385). -/
def viaGate (m : Mach) (p : Nat) : Bool := p / 64 != m.host.peer / 64
/-- The lanes that carry traffic toward a package: its own, or the gate lanes; none during its revocation notice (R390). -/
def lanesTo (m : Mach) (p : Nat) : List Nat :=
  (m.fab.tx.filter (fun e => (if viaGate m p then decide (4096 ≤ e.1) else e.1 / 8 == p) && !e.2.notice && !e.2.moved)).map (·.1)
/-- The lane of a line: the gate lane that the hash chooses, or one of the lit lanes, the same for the whole line (R385, R387;
log 18). -/
def laneFor (m : Mach) (p line : Nat) : Option Nat :=
  let ks := lanesTo m p
  let h := Config.gateLane (p * 2 ^ 52 + line)
  if viaGate m p && ks.contains (4096 + h % 64) then some (4096 + h % 64) else ks[h % ks.length]?
/-- A lane that takes no flit: in KEY_HOLD, or its counter used up (R400). -/
def laneRefuses (l : Lane) : Bool := l.hold || decide (2 ^ 48 - 1 ≤ l.ctr)
/-- Traffic toward a line waits: its lane is in KEY_HOLD, or no lane is lit (R400). No lane leads to this package itself. -/
def lineHeld (m : Mach) (p line : Nat) : Bool :=
  p != m.host.peer && (match (laneFor m p line).bind (fun k => tfind k m.fab.tx) with | some l => laneRefuses l | none => true)
/-- Places that a request must send flits to: those on other packages; a load reads kept bytes here (R192). -/
def sentTo (m : Mach) (r : Req) (ls : List Loc) : List (Nat × Nat) :=
  (ls.filterMap (fun l => match l with
    | .peer p pa c => if c && (match r.op with | .load .. => true | _ => false) && thas (p * 2 ^ 52 + pa) m.mem.cached then none
        else some (p, pa / 64)
    | _ => none)).eraseDups
def laneHeld (m : Mach) (r : Req) (ls : List Loc) : Bool := (sentTo m r ls).any (fun x => lineHeld m x.1 x.2)
/-- The nonce of the next flit of a lane (R399): the lane id and the flit counter. -/
def nonce (id : Nat) (l : Lane) : BitVec 96 := BitVec.ofNat 96 (id % 2 ^ 48 * 2 ^ 48 + l.ctr % 2 ^ 48)
/-- The lane id of a transmit lane (R399). -/
def laneId (m : Mach) (key : Nat) : Nat :=
  let port := if 4096 ≤ key then 64 + (key / 8 - 512) else key / 8 % 64
  let dst := if 4096 ≤ key then 511 else key / 8
  m.host.peer * 2 ^ 39 + dst * 2 ^ 30 + key % 8 * 2 ^ 27 + (port + 72 - m.host.peer % 64) % 72 * 2 ^ 20

/-- The counter of a lane counts each flit, which goes under the lane's nonce of that moment (R399); when 2^32 values remain, KEY_LOW is
set (R400). -/
def countFlit (m : Mach) (p line : Nat) : Mach :=
  match laneFor m p line with
  | none => m
  | some k => match tfind k m.fab.tx with
    | some l => { m with fab.tx := tset k { l with nonce := nonce (laneId m k) l, ctr := l.ctr + 1, low := l.low || decide (2 ^ 48 ≤ l.ctr + 1 + 2 ^ 32) } m.fab.tx }
    | none => m
/-- The flits of a request: one for each line on another package (log 103). -/
def sendFlits (m : Mach) (r : Req) (ls : List Loc) : Mach := (sentTo m r ls).foldl (fun m x => countFlit m x.1 x.2) m
/-- A flit of a request whose tag has failed was discarded: it goes again under the next counter value, three times at most; none once
those are used up (R399). -/
def resendFlit (m : Mach) (r : Req) (ls : List Loc) : Option Mach :=
  let n := tget 0 r.id m.fab.resent
  if n < 3 then
    match sentTo m r ls with
    | x :: _ => (let m1 := countFlit m x.1 x.2; some { m1 with fab.resent := tset r.id (n + 1) m1.fab.resent })
    | [] => none
  else none

/-- Whether a memory interface may issue a request now; a tile's coalescing unit first releases the accesses that it holds
(R270). -/
def mayIssue (m : Mach) (r : Req) : Bool :=
  !r.done && r.hwait.isNone && !gated m r && posReady m r
    && (match r.who with | .unit u _ => (match tfind u m.copy.held with | some h => r.id + 1 < h | none => true) | _ => true)
    && !m.mem.reqs.any (holdsBack m r) && !pageMoving m r && !rowHeld m r
/-- Whether a request may be performed now: it is issued, and its lane takes its flits. -/
def mayPerform (m : Mach) (r : Req) : Bool := mayIssue m r && !laneHeld m r (nextLocs m r)
/-- A copy that has not been judged yet. -/
def unjudged (r : Req) : Bool := match r.op with | .copy _ _ _ _ _ _ _ _ _ j => !j | _ => false
/-- Whether a copy is issued: its chain position is reached and no earlier access of its chain holds back the read of its descriptor
(R201, R249, R263). -/
def copyIssues (m : Mach) (r : Req) : Bool :=
  let P := pastOf m r.past
  (isShepActor r.who || P.flight.contains r.id || (P.gate.isNone && P.image.isNone)) && posReady m r && !m.mem.reqs.any (holdsRead m r)

/-- The clock of a pasture stops for the operation `id`: what its memory interfaces have issued is in flight (R423). -/
def gatePast (m : Mach) (p id : Nat) : Mach :=
  setPast m p { pastOf m p with gate := some id, flight := (m.mem.reqs.filter (fun r => r.past == p && (mayIssue m r || (unjudged r && copyIssues m r)))).map (·.id) }

/-! ## Waiters and monitors (R232-R238) -/

/-- A context's key in the engines: pasture x 16,384 + PE context, or 8,192 + unit (R231, R233); a shepherd core has a
context of its own. -/
def ctxCode (p : Nat) : Actor → Nat
  | .pe core _ frame _ bank _ => p * 16384 + ctxKey core frame bank
  | .unit u _ => (if isShepherd u then 16 else p) * 16384 + 8192 + u
  | .idle => 17 * 16384

/-- A reservation of another context on a word holds back a modifying operation (R231). Keys of `resv` are
address x 16 + width. -/
def heldByResv (m : Mach) (code : Nat) (ls : List Loc) : Bool :=
  m.sync.resv.any (fun e => e.2 != code && ls.any (fun l => match l with
    | .hbm pa => e.1 / 16 ≤ pa && pa < e.1 / 16 + e.1 % 16
    | _ => false))

/-- Where a waiter waits: a physical address, or a scratchpad key above 2^60. -/
def waitRead (m : Mach) (a n : Nat) : Nat := if a < 2 ^ 60 then memRead m.mem.hbm a n else memRead m.mem.spad (a - 2 ^ 60) n

/-- A monitor fires on a write to its line while its pasture is not gated (R233, R234). -/
def fireMons (m : Mach) (ls : List Loc) : Mach :=
  { m with sync.mons := m.sync.mons.map (fun e =>
      if ls.any (fun l => match l with | .hbm pa => pa / 64 == e.2.line | _ => false)
          && (16 ≤ e.1 / 16384 || running m (e.1 / 16384)) then (e.1, { e.2 with fired := true }) else e) }

/-- What a registered waiter's word gives it: the value to deliver and memory after it (WAITC with `.sub` also writes), or
none while its condition does not hold (R232, R236, R238). -/
def waiterValue (m : Mach) (r : Req) : Option (Nat × Mach) :=
  match r.granted with
  | none => none
  | some (a, _) =>
    if 2 ^ 61 ≤ a ∨ (a < 2 ^ 60 ∧ thas (a / 64) m.sync.bad) then none
    else match r.op with
    | .waita _ n c b =>
      let v := waitRead m a n
      if wcond (8 * n) c v b then some (v, m) else none
    | .waitc _ tgt sub =>
      let v := waitRead m a 8
      if tgt ≤ v % 2 ^ 32 ∧ !(sub && heldByResv m (ctxCode r.past r.who) ((upto 8).map (fun i => .hbm (a + i)))) then
        some (v, if sub then fireMons { m with mem.hbm := memWrite m.mem.hbm a 8 (v % 2 ^ 32 - tgt) } [.hbm a] else m)
      else none
    | .futr _ =>
      let v := waitRead m a 16
      if bitAt v 64 then some (v % 2 ^ 64, m) else none
    | _ => none

/-- The place of a registered waiter in its queue: the order in which the engine registered them (R223, R236). -/
def waitTurn (r : Req) : Nat := match r.granted with | some (_, n) => n | none => 0
/-- The first registered waiter whose condition holds. -/
def firstWaiter (m : Mach) : Option Req :=
  argMax (fun r => m.ids - waitTurn r) (m.mem.reqs.filter (fun r => !r.done && (waiterValue m r).isSome))

/-- Completes registered waiters in queue order until none holds. -/
def wakeN : Nat → Mach → Mach
  | 0, m => m
  | n + 1, m =>
    match firstWaiter m with
    | none => m
    | some r =>
      match waiterValue m r with
      | some (v, m1) => wakeN n (modReq m1 r.id (fun x => { x with done := true, res := some [tokNat v] }))
      | none => m

/-- MWAITs that wait on a monitor that has fired complete with WRITTEN or REARMED, all of its context, and disarm it (R233,
R234). -/
def wakeMwait (m : Mach) : Mach :=
  let fired := fun r : Req => match r.op, tfind (ctxCode r.past r.who) m.sync.mons with
    | .mwait, some mo => mo.fired && r.granted.isSome && !r.done
    | _, _ => false
  let hits := m.mem.reqs.filter fired
  hits.foldl (fun n r =>
    let mo := (tfind (ctxCode r.past r.who) m.sync.mons).any (·.rearmed)
    modReq { n with sync.mons := tdel (ctxCode r.past r.who) n.sync.mons } r.id
      (fun x => { x with done := true, res := some [tokNat (if mo then 1 else 0)] })) m

/-! ## Buckets (R39, R40). Ports: 144 to 335 the tiles, 1,000 + core the copy engines, 10,000 + key the Toryr receive lanes -/

def bucketOf (s : State) (port : Nat) : Bucket := tget Bucket.reset port s.pow.buckets
def putBucket (s : State) (port : Nat) (b : Bucket) : State := { s with pow.buckets := tput Bucket.reset port b s.pow.buckets }

/-- BUCKET_STEP: a new RATE is in effect from this step, and the level rises to DEPTH at most. -/
def stepBucket (b : Bucket) : Bucket := { b with rate := b.newRate, level := min b.depth (b.level + b.newRate) }
def execBucketStep (port : Nat) (s : State) : Out := .next (putBucket s port (stepBucket (bucketOf s port)))

/-- BUCKET_SETTING: DEPTH at once, a higher level is cut, RATE waits for the next step; neither is ever 0 (R450). -/
def setBucket (b : Bucket) (depth rate : Nat) : Bucket :=
  { b with depth := max 1 depth, level := min b.level (max 1 depth), newRate := max 1 rate }
def execBucketSetting (port depth rate : Nat) (s : State) : Out :=
  .next (putBucket s port (setBucket (bucketOf s port) depth rate))

/-- Flits of a message of `n` bytes: 16 bytes each (R379), and at least one. -/
def flitsOf (n : Nat) : Nat := max 1 ((n + 15) / 16)
/-- Flits enter the fabric by spending a credit each of their port; those for which there is none are held there, and the bucket has
limited the port (R39, R450). `moves` tells whether the effect takes `n` flits in, of request `id`; it takes place as the last of them
enters (log 14). -/
def enterFabric (port id n : Nat) (moves : Mach → Mach → Bool) (g : Mach → Mach) (s : State) : State :=
  let m1 := g s.m
  if !moves s.m m1 then { s with m := m1 }
  else
    let b := bucketOf s port
    let due := n - tget 0 id s.pow.paid
    if b.level < due then
      let s1 := putBucket s port { b with level := 0 }
      { s1 with pow.capped := true, pow.paid := tput 0 id (n - due + b.level) s1.pow.paid }
    else
      let s1 := putBucket { s with m := m1 } port { b with level := b.level - due }
      { s1 with pow.paid := tput 0 id 0 s1.pow.paid }
/-- The ports of tiles take in their stores too: what completes request `id` of a storer spends a credit for each of its flits (R39). -/
def enterPort (id : Nat) (g : Mach → Mach) (s : State) : State :=
  let left := fun (_ m1 : Mach) => match reqOf m1 id with | some r => r.done | none => true
  match (reqOf s.m id).bind (fun r => match r.who, r.op with
      | .unit u _, .store _ n _ => if isTile u then some (u, flitsOf n) else none
      | .unit u _, _ => if isTile u then some (u, 1) else none
      | _, _ => none) with
  | some (u, n) => enterFabric u id n left g s
  | none => { s with m := g s.m }

end Sys2Proof.Machine
end

