-- ==== Sys2Proof/Machine/Shadow.lean ====
section
/-! DEFINITION. Images of pastures and the operations on one pasture that Bruosh serves in arrival order: PREEMPT, RESUME,
CSAVE, CLOAD, HALT, GTBL and `flog.cfg` (R423-R428, R430-R435, R438). -/
namespace Sys2Proof.Machine

/-! ## Images (R423-R426) -/

/-- The bytes that an internal format gives a save area: free (log 15). -/
def areaBytes (free n : Nat) : List Byte := (upto n).map (fun i => Config.freeByte (free + i))
/-- Bytes whose content is unspecified fill a save area (R307, R432; log 15); monitors and waiters see the write (R232, R233). -/
def fillFree (m : Mach) (base n : Nat) : Mach :=
  { m with
    mem.hbm := memBytes m.mem.hbm base (areaBytes m.free n)
    mem.badHbm := m.mem.badHbm.filter (fun u => !(base ≤ 64 * u && 64 * u + 64 ≤ base + n))
    sync.touched := m.sync.touched ++ (upto ((n + 63) / 64)).map (fun i => base + 64 * i)
    free := m.free + n }

/-- Two parts of the PE array, the second of cores that the first does not hold. -/
def PeS.join (x y : PeS) : PeS where
  regs := tunion x.regs y.regs
  preds := tunion x.preds y.preds
  astat := tunion x.astat y.astat
  prio := tunion x.prio y.prio
  frames := tunion x.frames y.frames
  chans := tunion x.chans y.chans
  rq := tunion x.rq y.rq
  binds := tunion x.binds y.binds
  commit := tunion x.commit y.commit
  fires := tunion x.fires y.fires
  waits := tunion x.waits y.waits
  rot := tunion x.rot y.rot
  starv := tunion x.starv y.starv
  busy := tunion x.busy y.busy
  hands := tunion x.hands y.hands
  hpend := tunion x.hpend y.hpend

/-- A token bound for a core of the pasture (one for a tile goes on with the tile's own state). -/
def boundFor (m : Mach) (p : Nat) (t : Transit) : Bool := t.dst < 100000 && coreIn m p (t.dst / 128)

/-- Whether a graph context runs a graph of the pasture (R158). -/
def ctxOf (m : Mach) (p u : Nat) : Bool := isGraph u && (unitOf m u).past == p && (unitOf m u).run != .idle
/-- Whether an address-generator tile runs for the pasture. -/
def tileFor (m : Mach) (p u : Nat) : Bool := thas u m.copy.tiles && (unitOf m u).past == p
/-- A tile's state, with the tokens that routers still hold for its in0, and a plinth tile's node. -/
def tileImage (m : Mach) (u : Nat) (b : TileB) : TileImg :=
  ⟨unitOf m u, { b with inq := b.inq ++ (m.fab.transit.filter (fun t => t.dst == 100000 + u)).map (·.tok) },
    if u < 272 then none else some (tget Node.reset (u - 272) m.copy.nodes)⟩

/-! ## The context area (R423, R432) -/

/-- The bytes of the parts of an image, in the order of readout (R424): registers; predicates, status words, handles, monitor and
group arrival state; frame configuration; commit buffers; state of the core's units; channel stores. -/
def imageParts : List Nat := [87360, 1344, 3840, 32768, 9344, 78336]
/-- A shadow slot: the image and the 16 KB parking buffer (R424, R426). -/
def slotBytes : Nat := imageParts.sum + 16384
/-- The part of the context area that holds the slots (R432). -/
def slotArea (m : Mach) (p : Nat) : Nat := slotBytes * (coresOf m p).length
/-- The size of the cluster units' part, which is internal (log 15). -/
def unitArea : Nat := Config.unitBytes % 2 ^ 20
def ctxBytes (m : Mach) (p : Nat) : Nat := slotArea m p + unitArea
/-- Whether an area can be read, and written: it lies in memory, without uncorrectable units, or without a degraded
pseudo-channel (R279). -/
def areaReads (m : Mach) (b n : Nat) : Bool :=
  decide (b + n ≤ 2 ^ 39) && !(upto ((n + 63) / 64)).any (fun i => badUnit m (b + 64 * i))
def areaWrites (m : Mach) (b n : Nat) : Bool :=
  decide (b + n ≤ 2 ^ 39) && (m.mem.degraded.isEmpty || !(upto ((n + 255) / 256)).any (fun i =>
    m.mem.degraded.contains (Config.rowChannel (rowOf (min (b + 256 * i) (b + n - 1))))))
/-- The place of the cluster units' part of a pasture. -/
def unitBase (m : Mach) (p : Nat) : Nat := (pastOf m p).ctxbase + slotArea m p
/-- A state that lies in the context area is written there, and the pasture remembers where and with which bytes (log 15). -/
def saveArea (m : Mach) (p b n : Nat) : Mach :=
  let m1 := fillFree m b n
  setPast m1 p { pastOf m1 p with ctxsave := (b, n, m.free) }
/-- Whether the bytes of the context area are still those that were written. -/
def areaIntact (m : Mach) (p : Nat) : Bool :=
  let x := (pastOf m p).ctxsave
  m.mem.hbm.filter (fun c => decide (x.1 ≤ c.1 ∧ c.1 < x.1 + x.2.1)) == memBytes [] x.1 (areaBytes x.2.2 x.2.1)
/-- The state that is read back where a program has written to the area: its format is internal, so it is free (log 15). -/
opaque freeImage : Nat → Option Image
/-- What of such a state a pasture can hold: its own cores' and its graph contexts'. -/
def Image.within (f : Nat → Bool) (p : Nat) (x : Image) : Image where
  pe := x.pe.only f
  arrq := tfilter f x.arrq
  unsent := x.unsent.filter (fun t => t.dst < 100000 && f (t.dst / 128))
  circuits := x.circuits.filter (fun c => f (c.owner / 2))
  mode := x.mode.filter f
  units := (tfilter isGraph x.units).map (fun e => (e.1, { e.2 with past := p }))
  uhands := tfilter (fun k => isGraph (k / 16)) x.uhands
  uhpend := tfilter (fun k => isGraph (k / 16)) x.uhpend
  mons := tfilter (fun k => k / 16384 == p) x.mons
/-- The image of a pasture as it is read back: as it was written, or free; `units` for the cluster units' part alone. -/
def readBack (m : Mach) (p : Nat) (units : Bool) : Mach :=
  let P := pastOf m p
  if areaIntact m p then m
  else match P.image with
    | none => m
    | some i =>
      let y := Image.within (coreIn m p) p ((freeImage m.free).getD i)
      let z := if units then { i with units := y.units, uhands := y.uhands, uhpend := y.uhpend } else y
      setPast { m with free := m.free + 1 } p { P with image := some z, ctxsave := (0, 0, 0) }

/-- The readout of a pasture (R423, R424): its part of the PE array, its graph contexts (R158) and its monitors (R234) go to its
image, its tiles to the requests that started them, the cluster units' state is written to the context area, and the state is SHADOWED; moves
of an averaging period are discarded (R43). -/
def takeImage (m : Mach) (p : Nat) : Mach :=
  let f := coreIn m p
  let i : Image := ⟨m.pe.only f, tfilter f m.mat.q, m.fab.transit.filter (boundFor m p),
    m.fab.circuits.filter (fun c => f (c.owner / 2)), m.mat.mode.filter f, tfilter (ctxOf m p) m.seq.units,
    tfilter (fun k => ctxOf m p (k / 16)) m.seq.uhands, tfilter (fun k => ctxOf m p (k / 16)) m.seq.uhpend,
    tfilter (fun k => k / 16384 == p) m.sync.mons⟩
  let m1 := clearCores m f
  let m2 := { m1 with
    mat.mode := m1.mat.mode.filter (fun c => !f c)
    seq.avg := m1.seq.avg.map (fun e => (e.1, e.2.filter (fun x => !f x.src)))
    seq.units := tfilter (fun u => !ctxOf m p u && !tileFor m p u) m1.seq.units
    seq.uhands := tfilter (fun k => !ctxOf m p (k / 16)) m1.seq.uhands
    seq.uhpend := tfilter (fun k => !ctxOf m p (k / 16)) m1.seq.uhpend
    sync.mons := tfilter (fun k => k / 16384 != p) m1.sync.mons
    copy.tiles := tfilter (fun u => !tileFor m p u) m1.copy.tiles
    copy.nodes := m1.copy.nodes.map (fun e => if tileFor m p (272 + e.1) then (e.1, { e.2 with words := [], kept := [], acc := 0, cnt := 0 }) else e)
    copy.held := tfilter (fun u => !tileFor m p u) m1.copy.held
    fab.transit := m1.fab.transit.filter (fun t => t.dst < 100000 || !tileFor m p (t.dst - 100000))
    mem.reqs := m1.mem.reqs.map (fun r => match r.op with
      | .ag ld a bw _ => (match m.copy.tiles.find? (fun e => e.2.req == r.id && tileFor m p e.1) with
          | some e => { r with op := .ag ld a bw (some (tileImage m e.1 e.2)) }
          | none => r)
      | _ => r) }
  saveArea (setPast m2 p { pastOf m2 p with st := .shadowed, gate := none, image := some i }) p (unitBase m p) unitArea

/-! ## Graph contexts that come back (R158, R425) -/

/-- The graph contexts of a cluster that are free, or that pasture `out` runs. -/
def ctxFree (m : Mach) (out : Option Nat) (k : Nat) : List Nat :=
  ((upto 8).map (fun c => 8 * k + c)).filter (fun u => (unitOf m u).run == .idle
    || (match out with | some q => ctxOf m q u | none => false))
/-- Every graph context of a pasture's image finds a free one in its cluster (log 89). -/
def ctxRoom (m : Mach) (p : Nat) (out : Option Nat) : Bool :=
  match (pastOf m p).image with
  | none => true
  | some i => (upto 16).all (fun k => (i.units.filter (fun e => e.1 / 8 == k)).length ≤ (ctxFree m out k).length)
/-- The contexts that the image's graphs come back in: their own where it is free, else the lowest free one (log 89). -/
def ctxMap (m : Mach) (us : List Nat) : Tbl Nat :=
  let own := us.filter (fun u => (unitOf m u).run == .idle)
  us.foldl (fun t u =>
    if own.contains u then tset u u t
    else match (ctxFree m none (u / 8)).find? (fun v => !own.contains v && !t.any (fun e => e.2 == v)) with
      | some v => tset u v t
      | none => tset u u t) []

/-- The renumbering of graph contexts in an actor, a destination, a handle's owner and an operation. -/
def renActor (t : Tbl Nat) : Actor → Actor
  | .unit u w => .unit (tget u u t) w
  | a => a
def renDst (t : Tbl Nat) : Dst → Dst
  | .sreg u r => .sreg (tget u u t) r
  | .spair u r => .spair (tget u u t) r
  | d => d
def renOwner (t : Tbl Nat) (o : Nat) : Nat := if o < 2048 then o else 2048 + tget (o - 2048) (o - 2048) t
def renPlace (t : Tbl Nat) : Place → Place
  | .hand o h v i => .hand (renOwner t o) h v i
  | p => p
def renOp (t : Tbl Nat) : ReqOp → ReqOp
  | .load pl n nt => .load (renPlace t pl) n nt
  | .store pl n d => .store (renPlace t pl) n d
  | .hget o h k => .hget (renOwner t o) h k
  | .hset o h k v => .hset (renOwner t o) h k v
  | .wfree o h w => .wfree (renOwner t o) h w
  | .snap o h pg v => .snap (renOwner t o) h pg v
  | .copy k vec bw ds o dN sN hd hs j => .copy k vec bw ds (renOwner t o) dN sN hd hs j
  | op => op
/-- The renumbering of a context code (R231, R233) of a pasture. -/
def renCode (t : Tbl Nat) (p c : Nat) : Nat :=
  if c / 16384 == p && 8192 ≤ c % 16384 then p * 16384 + 8192 + tget (c % 16384 - 8192) (c % 16384 - 8192) t else c

/-- Everything that names a graph context of the pasture names its new number. -/
def renumber (m : Mach) (p : Nat) (t : Tbl Nat) : Mach :=
  let act := fun (q : Nat) (a : Actor) => if q == p then renActor t a else a
  let m1 := { m with
    mem.reqs := m.mem.reqs.map (fun r => if r.past == p then { r with who := renActor t r.who, dst := renDst t r.dst, op := renOp t r.op } else r)
    mem.park := m.mem.park.map (fun e => if e.1 == p then (e.1, renActor t e.2.1, renDst t e.2.2.1, e.2.2.2) else e)
    seq.graphs := m.seq.graphs.map (fun e => if e.2.past == p then (e.1, { e.2 with by_ := e.2.by_.map (fun u => tget u u t) }) else e)
    seq.heldTraps := m.seq.heldTraps.map (fun h => (h.1, h.2.1, act h.2.1.past h.2.2.1, h.2.2.2))
    sync.cas := m.sync.cas.foldl (fun x e => tset (renCode t p (e.1 / 4) * 4 + e.1 % 4) e.2 x) []
    sync.resv := m.sync.resv.map (fun e => (e.1, renCode t p e.2))
    mat.q := m.mat.q.map (fun e => if coreIn m p e.1 then (e.1, { e.2 with queue := e.2.queue.map (fun c => { c with who := renActor t c.who }) }) else e)
    stage.fams := m.stage.fams.map (fun e => if e.1 / 64 == p then (e.1, { e.2 with copies := e.2.copies.foldl (fun x c =>
      tset (if c.1 < 1000 then c.1 else 1000 + tget (c.1 - 1000) (c.1 - 1000) t) c.2 x) [] }) else e) }
  let P := pastOf m1 p
  setPast m1 p { P with heldRecs := P.heldRecs.map (fun h => (h.1, renActor t h.2.1, h.2.2)) }

/-- The graph contexts, handles and monitors of an image come back (R158, R206, R234): monitors that are still armed are set fired
with REARMED. -/
def restoreCtxs (m : Mach) (p : Nat) (i : Image) : Mach :=
  let t := ctxMap m (i.units.map (·.1))
  let key := fun k => tget (k / 16) (k / 16) t * 16 + k % 16
  let m1 := renumber m p t
  { m1 with
    seq.units := i.units.foldl (fun x e => tset (tget e.1 e.1 t) e.2 x) m1.seq.units
    seq.uhands := i.uhands.foldl (fun x e => tset (key e.1) e.2 x) m1.seq.uhands
    seq.uhpend := i.uhpend.foldl (fun x e => tset (key e.1) e.2 x) m1.seq.uhpend
    sync.mons := i.mons.foldl (fun x e => tset (renCode t p e.1) { e.2 with fired := true, rearmed := true } x) m1.sync.mons }

/-- Each parked response of the pasture for an actor that satisfies `f` reaches its destination, in arrival order (R426). -/
def deliverParked (m : Mach) (p : Nat) (f : Actor → Bool) : Mach :=
  let mine := fun e : Nat × Actor × Dst × Token => e.1 == p && f e.2.1
  wakeMwait ((m.mem.park.filter mine).foldl (fun m e => writeDst m e.2.1 e.2.2.1 e.2.2.2)
    { m with mem.park := m.mem.park.filter (fun e => !mine e) })

/-- RESUME's effect (R425, R426, R234): the image is back, each parked response reaches its destination in arrival order, and
monitors that are still armed fire with REARMED. What a tile's words are still owed waits for the tile to go on. -/
def restore (m0 : Mach) (p : Nat) : Mach :=
  let m := readBack m0 p true
  match (pastOf m p).image with
  | none => m
  | some i =>
    let f := coreIn m p
    let m1 := clearCores m f
    let m2 := { m1 with
      pe := PeS.join m1.pe i.pe
      mat.q := tunion m1.mat.q i.arrq
      mat.mode := m1.mat.mode.filter (fun c => !f c) ++ i.mode
      fab.transit := m1.fab.transit ++ i.unsent
      fab.circuits := m1.fab.circuits ++ i.circuits
      stage.fams := m1.stage.fams.map (fun e => if e.1 / 64 == p then (e.1, { e.2 with hot := [], cool := [] }) else e)
      sys.coreOwner := (coresOf m p).foldl (fun t c => tset c p t) m1.sys.coreOwner }
    let m3 := restoreCtxs (setPast m2 p { pastOf m2 p with st := .live, image := none, gate := none, flight := [] }) p i
    deliverParked m3 p (fun a => match a with | .unit u _ => !isTile u | _ => true)

/-- The shadow slots of a core that are in use: shadowed pastures and one that is being read out; `skip` gives its slot up. -/
def slotsUsed (m : Mach) (core : Nat) (skip : Option Nat) : Nat :=
  ((upto 16).filter (fun q => some q != skip && coreIn m q core
    && ((pastOf m q).st == .shadowed || ((pastOf m q).st == .live && (pastOf m q).gate.isSome)))).length
def slotsFree (m : Mach) (p : Nat) (skip : Option Nat) : Bool := (coresOf m p).all (fun c => slotsUsed m c skip < 2)
/-- Every core of a pasture is free of live pastures, but for `ok`. -/
def coresFree (m : Mach) (p : Nat) (ok : Option Nat) : Bool :=
  (coresOf m p).all (fun c => match livePast m c with | some q => some q == ok | none => true)

/-! ## HALT (R435) -/

/-- What was in flight as the clock of a pasture stopped: what its memory interfaces had issued, an access that waits for its handle
among them. -/
def haltFlight (m : Mach) (p id : Nat) : List Nat :=
  let P := pastOf m p
  if P.st == .live && (P.gate.isNone || P.gate == some id) then
    let mg := setPast m p { P with gate := none }
    (m.mem.reqs.filter (fun r => r.past == p && (mayIssue mg { r with hwait := none } || (unjudged r && copyIssues mg r)))).map (·.id)
  else P.flight

/-- Whether a request of a pasture that is halted goes on: copies and prefetches run to completion, and each request in flight for an
item is performed or fails (steps 2 and 3 of R435). An EXQ without room and an EXDQ wait for a condition, as a PLSET does whose tile
runs (log 118). -/
def haltKeeps (m : Mach) (fl : List Nat) (r : Req) : Bool :=
  if unjudged r then fl.contains r.id
  else outlives r || (!r.done && fl.contains r.id && forItems r && (match r.op with
    | .exq q _ => (match tfind q m.sel.queues with
        | some x => (x.entries.length < 4096 && x.ringq.isEmpty) || x.ringq.length < 256 * x.ringn
        | none => true)
    | .exdq .. => false
    | .plset c _ => !thas (272 + (bits c 59 3 * 8 + bits c 56 3)) m.copy.tiles
    | _ => true))

/-- Step 1 of R435, for the HALT whose request is `id`: the clock stops, what the pasture runs is discarded with its image, and of its
requests only those in flight, copies and prefetches go on, their responses discarded. An operation of Bruosh on the
pasture that is under way (the ROM handler does not wait for it) fails with STATE. -/
def haltStart (m0 : Mach) (p id : Nat) : Mach :=
  let hit := fun r : Req => r.id != id && r.granted.isSome && r.res.isNone && (match r.op with
    | .sys (.preempt q) => q == p
    | .sys (.resume a s) => a == p || s == some p
    | .sys (.csave q) => q == p
    | _ => false)
  let fl := haltFlight m0 p id
  let ids := (m0.mem.reqs.filter hit).map (·.id)
  let m00 := (upto 16).foldl (fun m q => match (pastOf m q).gate with
    | some g => if ids.contains g then setPast m q { pastOf m q with gate := none } else m
    | none => m) m0
  let m := { m00 with mem.reqs := m00.mem.reqs.map (fun r =>
    if hit r then { r with done := true, res := some [tokNat (2 ^ 63 + 2)] } else r) }
  let P := pastOf m p
  let m1 := if P.st == .live then clearCores m (coreIn m p) else m
  let unitOfP := fun u : Nat => !isShepherd u && (unitOf m u).past == p && (unitOf m u).run != .idle
  let m2 := { m1 with
    seq.units := m1.seq.units.filter (fun e => !unitOfP e.1)
    seq.uhands := tfilter (fun k => !unitOfP (k / 16)) m1.seq.uhands
    seq.uhpend := tfilter (fun k => !unitOfP (k / 16)) m1.seq.uhpend
    seq.graphs := m1.seq.graphs.filter (fun e => e.2.past != p)
    seq.sections := m1.seq.sections.filter (fun e => e.2.past != p)
    copy.tiles := m1.copy.tiles.filter (fun e => (unitOf m e.1).past != p)
    mem.reqs := (m1.mem.reqs.filter (fun r => r.past != p || isShepActor r.who || r.id == id || haltKeeps m fl r)).map (fun r =>
      if r.past == p && !outlives r then { r with dst := .drop, pend := false } else r)
    mem.park := m1.mem.park.filter (fun e => e.1 != p)
    mem.apps := m1.mem.apps.filter (fun e => e.2.past != p)
    sync.mons := m1.sync.mons.filter (fun e => e.1 / 16384 != p) }
  setPast m2 p { pastOf m2 p with gate := some id, image := none, ending := none, ctxsave := (0, 0, 0), flight := m2.mem.reqs.map (·.id) }

/-- Whether requests of a pasture that is being halted are still in flight (step 2 of R435). -/
def haltBusy (m : Mach) (p : Nat) : Bool := m.mem.reqs.any (fun r => r.past == p && !outlives r)

/-- Steps 4 and 5 of R435. -/
def haltEnd (m : Mach) (p : Nat) : Mach :=
  let m1 := dropHeld (freeObjects m p) p
  msix (setPast m1 p { pastOf m1 p with st := .halted, haltedF := true, gate := none, root := 0, flight := [] }) (1024 + p)

/-! ## The service of one operation -/

def sysFail (c : Nat) : Nat := 2 ^ 63 + c
def sysAnswer (m : Mach) (id v : Nat) : Mach := modReq m id (fun r => { r with done := true, res := some [tokNat v] })
def sysGo (m : Mach) (id : Nat) : Mach := modReq m id (fun r => { r with granted := some (0, 0) })

/-- Responses still owed to a pasture (R432): those of what was in flight as its clock stopped and is neither performed nor registered
as a wait. A stream is paused in its unit (R426), and a copy or prefetch that goes on owes nothing. -/
def owed (m : Mach) (p : Nat) : Bool :=
  let paused := fun r : Req => match r.op with
    | .iwalk .. => true | .spmx .. => true | .exdq .. => true | .exq .. => true | .copy .. => true | .pft .. => true
    | .plset .. => true | .event .. => true | _ => false
  m.mem.reqs.any (fun r => r.past == p && !isShepActor r.who && !r.done && (pastOf m p).flight.contains r.id && forItems r && !paused r)

/-- CSAVE writes the slots and the cluster units' state, whose layout is internal (R432). -/
def saveCtx (m : Mach) (p : Nat) : Mach :=
  let m1 := saveArea m p (pastOf m p).ctxbase (ctxBytes m p)
  setPast m1 p { pastOf m1 p with st := .saved }
/-- CLOAD reads the image back; the cluster units' part stays where it lies until RESUME reads it (R432). -/
def loadCtx (m : Mach) (p : Nat) : Mach :=
  let m1 := readBack m p false
  let x := (pastOf m1 p).ctxsave
  let k := slotArea m p
  setPast m1 p { pastOf m1 p with st := .shadowed, ctxsave := (x.1 + k, x.2.1 - k, x.2.2 + k) }

/-- The members of a GTBL image (R434): (group, context), or the failure code. -/
def gtblMembers (m : Mach) (who : Actor) (p va : Nat) : Except Nat (List (Nat × Nat)) :=
  match readNat m who va 8 with
  | .error _ => .error 7
  | .ok n =>
    if 24576 < n then .error 1
    else match readBytes m who (va + 8) (4 * n) with
      | .error _ => .error 7
      | .ok bs =>
        let ws := (upto n).map (fun i => natOf ((bs.drop (4 * i)).take 4))
        let ms := (ws.map (fun w => (bits w 0 8, bits w 8 13))).dedup
        if ws.any (fun w => 2 ^ 21 ≤ w) then .error 1
        else if ms.any (fun x => !coreIn m p (x.2 / 8) || 4 < (ms.filter (fun y => y.2 == x.2)).length) then .error 5
        else .ok ms
/-- GTBL rebuilds the whole group table. -/
def setGroups (m : Mach) (p : Nat) (ms : List (Nat × Nat)) : Mach :=
  let t := tfilter (fun k => k / 256 != p) m.sync.groups
  { m with sync.groups := (upto 256).foldl (fun t g =>
      let mem := (ms.filter (fun x => x.1 == g)).map (·.2)
      if mem.isEmpty then t else tset (p * 256 + g) ⟨mem, [], 0, 0⟩ t) t }

/-- A leaf of a page that stays in this package's memory (R197). -/
def pinned (e : Nat) : Bool := !bitAt e 9 && bits e 5 2 == 0

/-- Whether every page of a ring is pinned and writable in the pasture's space (R421, R438). -/
def ringOk (m : Mach) (p base sz : Nat) : Bool :=
  let n := 4096 * 2 ^ sz
  (base :: (base + n - 1) :: (upto (n / 65536)).map (fun i => base / 65536 * 65536 + 65536 * (i + 1))).all
    (fun va => base + n ≤ va || (match leafOf m .idle p va with
      | .ok e => pinned e && leafAdmits e .wr
      | .error _ => false))

def sysPasts : SysOp → List Nat
  | .preempt p => [p] | .resume p none => [p] | .resume p (some q) => [p, q] | .csave p => [p] | .cload p => [p]
  | .halt p => [p] | .gtbl p _ => [p] | .flogCfg p _ => [p]

/-- The failure of a RESUME (R431): STATE, for a swap NO_SLOT, or MEMORY where the context area cannot be read or written. -/
def resumeCheck (m : Mach) (p : Nat) (out : Option Nat) : Option Nat :=
  if (pastOf m p).st != .shadowed || !coresFree m p out then some 2
  else
    let reads := areaReads m (unitBase m p) unitArea
    match out with
    | none => if reads then none else some 7
    | some q => if (pastOf m q).st != .live then some 2 else if !slotsFree m q (some p) then some 3
        else if !reads || !areaWrites m (unitBase m q) unitArea then some 7 else none

/-- Serves an operation whose turn has come: an answer at once, or the beginning of one that takes time. -/
def serveSys (m : Mach) (r : Req) (op : SysOp) : Mach :=
  let ans := sysAnswer m r.id
  match op with
  | .preempt p =>
    if (pastOf m p).st != .live then ans (sysFail 2)
    else if !slotsFree m p none then ans (sysFail 3)
    else if !areaWrites m (unitBase m p) unitArea then ans (sysFail 7)
    else sysGo (gatePast m p r.id) r.id
  | .resume p out =>
    match resumeCheck m p out with
    | some c => ans (sysFail c)
    | none => match out with
      | none => sysAnswer (restore m p) r.id 0
      | some q => sysGo (gatePast m q r.id) r.id
  | .csave p =>
    if (pastOf m p).st != .shadowed then ans (sysFail 2)
    else if !areaWrites m (pastOf m p).ctxbase (ctxBytes m p) then ans (sysFail 7)
    else sysGo m r.id
  | .cload p =>
    if (pastOf m p).st != .saved then ans (sysFail 2)
    else if !slotsFree m p none then ans (sysFail 3)
    else if !areaReads m (pastOf m p).ctxbase (ctxBytes m p) then ans (sysFail 7)
    else sysAnswer (loadCtx m p) r.id 0
  | .halt p =>
    if (pastOf m p).st == .free || (pastOf m p).st == .halted then ans (sysFail 2)
    else haltStart (sysGo m r.id) p r.id
  | .gtbl p va =>
    if (pastOf m p).st != .free && (pastOf m p).st != .ready then ans (sysFail 2)
    else match gtblMembers m r.who p va with
      | .error c => ans (sysFail c)
      | .ok ms => sysAnswer (setGroups { m with free := m.free + 8 + 4 * 24576 } p ms) r.id 0
  | .flogCfg p v =>
    let base := bits v 6 50 * 64
    let sz := bits v 0 4
    if (pastOf m p).st == .halted then ans (sysFail 2)
    else if bits v 4 2 ≠ 0 ∨ 10 < sz ∨ !ringOk m p base sz then ans (sysFail 1)
    else sysAnswer (drainLog (setPast m p { pastOf m p with log := some ⟨base, sz, 0, 0, false, false⟩ }) p) r.id 0

/-- The end of an operation that takes time, once nothing that it waits for is left. -/
def endSys (m : Mach) (r : Req) (op : SysOp) : Mach :=
  match op with
  | .halt p => sysAnswer (haltEnd m p) r.id 0
  | .csave p => if areaWrites m (pastOf m p).ctxbase (ctxBytes m p) then sysAnswer (saveCtx m p) r.id 0 else sysAnswer m r.id (sysFail 7)
  | _ => m

/-- Operations on one pasture are served one at a time, in arrival order (R428); the ROM handler does not wait (R419). -/
def sysTurn (m : Mach) (r : Req) (op : SysOp) : Bool :=
  r.who == .idle || !m.mem.reqs.any (fun q => q.id < r.id && q.res.isNone && (match q.op with
    | .sys o => (sysPasts o).any (fun p => (sysPasts op).contains p)
    | _ => false))

/-- The HALTs that the ROM handler has asked for begin (R419). -/
def romHalts (m : Mach) : Mach :=
  m.mem.reqs.foldl (fun m r => match r.op with
    | .sys (.halt p) => if r.who == .idle && r.granted.isNone && r.res.isNone then haltStart (sysGo m r.id) p r.id else m
    | _ => m) m

/-- Whether an operation can go on now. -/
def sysReady (m : Mach) (r : Req) : Bool :=
  match r.op with
  | .sys op =>
    r.res.isNone && sysTurn m r op && (match op with
      | .resume p out => r.granted.isNone && ((resumeCheck m p out).isSome || ctxRoom m p out)
      | .halt p => r.granted.isNone || !haltBusy m p
      | .csave p => r.granted.isNone || !owed m p
      | _ => r.granted.isNone)
  | _ => false

/-- The oldest operation that can go on does so. -/
def advanceSys (m : Mach) : Option Mach :=
  match m.mem.reqs.find? (sysReady m) with
  | none => none
  | some r => match r.op with
    | .sys op => some (if r.granted.isNone then serveSys m r op else endSys m r op)
    | _ => none

end Sys2Proof.Machine
end

