-- ==== Sys2Proof/Machine/Access.lean ====
section
/-! DEFINITION. Results of requests, in order, and their failures; loads and stores (R204, R205, R210-R213, R257, R258). -/
namespace Sys2Proof.Machine

/-! ## Results in order (R204, R205, R268) -/

def sameSlot (r q : Req) : Bool :=
  match r.who, q.who with
  | .pe c p f s _ _, .pe c2 p2 f2 s2 _ _ => c == c2 && p == p2 && f == f2 && s == s2 && r.past == q.past
  | _, _ => false
/-- Two results for one output of a PE (log 82). -/
def sameOut (d e : Dst) : Bool :=
  match d, e with
  | .out c p h _, .out c2 p2 h2 _ => c == c2 && p == p2 && h == h2
  | _, _ => false
/-- A tile runs for a pasture, whose clock runs: the streams of a gated tile stand still (R426). -/
def tileOf (m : Mach) (u p : Nat) : Bool := running m p && thas u m.copy.tiles && (unitOf m u).past == p
/-- Whether a request's result may leave: its slot and its output have no earlier result to come, a loader's token no
earlier one. -/
def firstOfSlot (m : Mach) (r : Req) : Bool :=
  !m.mem.reqs.any (fun q => q.id < r.id && ((sameSlot r q && q.dst != .drop && r.dst != .drop) || sameOut r.dst q.dst
    || (match r.dst with | .tile _ => q.dst == r.dst && q.past == r.past | _ => false)))
    && (match r.dst with | .tile u => tileOf m u r.past | _ => true)

/-- Whether D has credit for a token of the request: the place that the request reserved is its own (R204, R316). -/
def dstCredit (m : Mach) (r : Req) : Bool :=
  match r.dst with | .out c q h _ => hasCredit (delReq m r.id) c q h | _ => true
/-- A stream leaves token by token, each with credit of its own (R113); while its pasture is gated it is paused (R426). -/
def streamGoes (m : Mach) (r : Req) : Bool := !isStream r || (running m r.past && dstCredit m r)

/-- Delivers one token of a result that may leave; the tile of a result may end with its last. -/
def flushOne (m : Mach) : Option Mach :=
  match m.mem.reqs.find? (fun r => r.res.isSome && firstOfSlot m r && streamGoes m r) with
  | none => none
  | some r =>
    match r.res.getD [] with
    | t :: t2 :: rest => some (deliverTok (setReq m { r with res := some (t2 :: rest) }) r.past r.who r.dst t)
    | ts =>
      let m1 := ts.foldl (fun m t => deliverTok m r.past r.who r.dst t) (delReq m r.id)
      some (match r.dst with | .tile u => tileEnd m1 u | _ => m1)
def flushN : Nat → Mach → Mach
  | 0, m => m
  | n + 1, m => match (((flushOne m).orElse (fun _ => advanceSys m)).orElse (fun _ => advanceEnd m)).orElse (fun _ => advanceEvent m) with | some x => flushN n x | none => m
/-- What fault records and spill rings have written fires monitors and is tested by waiters (R232, R233). -/
def serveTouched (m : Mach) : Mach :=
  if m.sync.touched.isEmpty then m
  else
    let m1 := fireMons { m with sync.touched := [] } (m.sync.touched.map .hbm)
    wakeMwait (wakeN (m1.mem.reqs.length + 1) m1)
/-- Delivers results, and lets Bruosh serve what waits for them (R428), pastures complete (R442) and events leave (R154), until
nothing more can leave. -/
def flush (m : Mach) : Mach :=
  flushN (4 * m.mem.reqs.length + ((m.mem.reqs.map (fun r => (r.res.getD []).length)).sum) + 20) (serveTouched m)

/-- A request ends with a result. -/
def finishTok (m : Mach) (id : Nat) (ts : List Token) : Mach :=
  flush (modReq m id (fun r => { r with done := true, res := some ts }))
def finish (m : Mach) (id v : Nat) : Mach := finishTok m id [tokNat v]

/-- A result that is known at once: it still takes its turn behind earlier results of its slot (R204). -/
def resultNow (m : Mach) (dst : Dst) (op : ReqOp) (t : Token) : Mach :=
  flush (addReq m { mkReq m dst op 5 false false with done := true, res := some [t] })

/-- The poison step of a request: the merged poison is its result and uses up its chain position. -/
def poisonNow (d : Opd) (op : ReqOp) (v : Val) (m : Mach) : Mach := resultNow m (dstOf m d false) op (tokOf v)

/-! ## Failures (R210, R211, R258) -/

/-- The origin record of a failure: the fields of the instruction that issued the work (R78), U for an S-form unit (R421). -/
def originAct (who : Actor) (act cause detail : Nat) : Nat :=
  match who with
  | .pe core pe frame slot bank _ =>
    bits detail 0 81 * 2 ^ 47 + bits act 0 16 * 2 ^ 31 + bits cause 0 8 * 2 ^ 20 + bank * 2 ^ 18
      + (8 * frame + slot) * 2 ^ 14 + pe * 2 ^ 10 + core
  | w => unitForm w 0
def originReq (r : Req) (cause detail : Nat) : Nat := originAct r.who r.act cause detail
def poisonReq (r : Req) (cause detail : Nat) : Val := ⟨BitVec.ofNat 128 (originReq r cause detail), true, false⟩

/-- KIND and ITEM of a failed access: 2 for one of an S-form unit (R211), else 4 for a remote one, which names its peer, and 0
(R421). -/
def recKind (r : Req) (cause detail : Nat) (ls : List Loc) : Nat × Nat :=
  let peer := (ls.findSome? (fun l => match l with | .peer p _ _ => some p | _ => none)).orElse (fun _ =>
    if cause = 0x09 ∨ cause = 0x0A ∨ cause = 0x0D then some detail else none)
  (match r.who with | .pe .. => (if peer.isSome then 4 else 0) | _ => 2,
    match peer with
    | some p => p
    | none => match r.op, r.pos with | .store .., some x => Config.chainItem x.chain x.seq | _, _ => 0)

/-- ADDR and PHYS of a request: its virtual or scratchpad address, or the physical one of a pinned region. -/
def recAddr (r : Req) : Nat × Bool :=
  match reqPlace r with
  | some (.virt va, _, _) => (va % 2 ^ 56, false)
  | some (.scratch sa, _, _) => (sa, false)
  | some (.hand _ _ hv i, n, _) =>
    if hType hv = 8 then ((bits (hAux0 hv) 0 52 + i * n) % 2 ^ 56, true) else ((hBase hv + i * n) % 2 ^ 56, false)
  | none => (0, false)

def reqData (r : Req) : Nat := match r.op with | .store _ n d => d % 256 ^ n | _ => 0

/-- The fault record of a failed access. -/
def accRec (r : Req) (cause detail : Nat) (ls : List Loc) : FRec :=
  let k := recKind r cause detail ls
  let a := recAddr r
  ⟨BitVec.ofNat 128 (originReq r cause detail), a.2, a.1, k.1, cause, k.2, BitVec.ofNat 128 (reqData r)⟩

def isFormCause (c : Nat) : Bool := c == 0x05 || c == 0x06 || c == 0x13 || c == 0x14 || c == 0x15 || c == 0x07

/-- TVAL of a failed S-form access (R417): the address for memory errors, the peer, the shepherd core's own address, else
the unit form, which names the word that issued the access (R211). -/
def sTval (r : Req) (code detail : Nat) : Nat :=
  if code = 0x13 then bits detail 0 9
  else if code = 0x14 ∨ code = 0x15 then detail
  else match r.who with
    | .unit u _ => if isShepherd u ∧ code = 0x05 then bits detail 0 56 else unitForm r.who 0
    | w => unitForm w 0

/-- A trap of an S-form unit at the word that issued a request; a unit that no longer runs that program only reports the
cause (R139, R211). -/
def sTrap (m : Mach) (r : Req) (code val : Nat) : Mach :=
  match r.who with
  | .unit u w =>
    let x := unitOf m u
    if isShepherd u ∨ (sectOf m r.who = r.sect ∧ (x.run = .running ∨ x.run = .waiting)) then
      trapSync m u w ⟨code, BitVec.ofNat 64 val, r.past⟩
    else raiseCause m (unitCluster u (pastOf m r.past).home) ⟨code, BitVec.ofNat 64 val, r.past⟩ r.who
  | _ => m

/-- A failed request of an S-form unit: a fault record, then the trap (R211). A SCOPE_TIMEOUT has no peer to give as TVAL
(R417): a free value (log 34). -/
def failS (m : Mach) (r : Req) (cause detail : Nat) (ls : List Loc) : Mach :=
  let code := sTrapCode cause
  let val := if cause = 0x0C then Config.freeSlot m.free % 512 else sTval r code detail
  let m1 := if cause = 0x0C then { m with free := m.free + 1 } else m
  sTrap (faultRec (delReq m1 r.id) r.past r.who (accRec r cause detail ls)) r code val

/-- Whether a failure writes a record of its own: stores, RED and ARRIVE (R210, R229, R236), MON and PFT, which have no D. -/
def ownRecord (r : Req) : Bool :=
  match r.op with
  | .store .. => true
  | .amo _ _ _ fetch => !fetch
  | .arrive .. => true
  | .mon _ => true
  | .pft .. => true
  | _ => false

/-- A request that changes memory. -/
def modifies (r : Req) : Bool :=
  match r.op with | .ramo .. => true | .store .. => true | _ => (match reqPlace r with | some (_, _, k) => k.writes | none => false)
/-- Whether a failure of a PE's access writes a record: its own, a write whose check code fails (R384), and one on a degraded
pseudo-channel (R279). -/
def writesRecord (m : Mach) (r : Req) (cause : Nat) (ls : List Loc) : Bool :=
  ownRecord r || (cause == 0x07 && modifies r)
    || (cause == 0x01 && ls.any (fun l => match l with | .hbm pa => m.mem.degraded.contains (Config.rowChannel (rowOf pa)) | _ => false))

/-- A request fails (R210, R211, R227): poison to D, with the record and the trap of a store without one; while its pasture
is being halted, a record and no more (R435). -/
def failReq (m : Mach) (r : Req) (cause detail : Nat) (ls : List Loc) : Mach :=
  if halting m r.past && !isShepActor r.who then flush (delReq (faultRec m r.past r.who (accRec r cause detail ls)) r.id)
  else match r.who with
  | .pe core .. =>
    let v := poisonReq r cause detail
    let m1 := if writesRecord m r cause ls then faultRec m r.past r.who (accRec r cause detail ls) else m
    match r.dst with
    | .drop =>
      if ownRecord r then
        raiseCause (flush (delReq m1 r.id)) (clusterOf core) ⟨0x07, BitVec.ofNat 64 v.pay.toNat, r.past⟩ r.who
      else flush (delReq m1 r.id)
    | _ => finishTok m1 r.id [tokOf v]
  | _ => flush (failS m r cause detail ls)

/-- Waiters on a line that is poisoned fail as every operation on it does (R225). -/
def failWaiters (m : Mach) : Mach :=
  if m.sync.bad.isEmpty then m
  else (m.mem.reqs.filter (fun r => !r.done && (match r.op, r.granted with
      | .waita .., some (a, _) => decide (a < 2 ^ 60) && thas (a / 64) m.sync.bad
      | .waitc .., some (a, _) => thas (a / 64) m.sync.bad
      | .futr .., some (a, _) => thas (a / 64) m.sync.bad
      | _, _ => false))).foldl (fun m r => failReq m r 0x01 (((r.granted.map (·.1)).getD 0) / 64 * 64) []) m
/-- Completes waiters and delivers results that may leave. -/
def wake (m : Mach) : Mach :=
  let m1 := failWaiters m
  flush (wakeMwait (wakeN (m1.mem.reqs.length + 1) m1))

/-- The HBM units of a write: their lines are dirty in the memory-side cache (R273) and each takes a place in its
pseudo-channel's write queue, which drains from 48 entries on (R277). -/
def queueWrites (m : Mach) (ls : List Loc) : Mach :=
  let us := (ls.filterMap (fun l => match l with | .hbm pa => some (pa / 64) | _ => none)).dedup
  us.foldl (fun m u =>
    let pc := Config.rowChannel (rowOf (64 * u))
    let n := min 64 (tget 0 pc m.mem.wq + 1)
    { m with
      mem.dirty := if m.mem.dirty.contains u then m.mem.dirty else u :: m.mem.dirty
      mem.wq := tset pc n m.mem.wq
      mem.drain := if 48 ≤ n ∧ !m.mem.drain.contains pc then pc :: m.mem.drain else m.mem.drain }) m

/-- Bytes sent to other packages and to the host, by place (model's own record). -/
def outCode : Loc → Option Nat
  | .peer p pa _ => some (p * 2 ^ 52 + pa)
  | .host t pa => some (2 ^ 62 + t * 2 ^ 52 + pa)
  | _ => none

/-- Writes bytes: marks of whole units clear, monitors fire and waiters are tested (R225, R232, R233, R281). -/
def writeLocs (m : Mach) (ls : List Loc) (bs : List Byte) : Mach :=
  let m1 := queueWrites (fireMons (clearMarks (setBytes m ls bs) ls) ls) ls
  let out := (ls.zip bs).filterMap (fun x => (outCode x.1).map (fun c => (c, x.2.toNat)))
  wake { m1 with mem.outbox := m1.mem.outbox ++ out }

/-! ## Performing loads and stores (R210) -/

/-- A poisoned line of a synchronisation engine fails every operation on it but a plain store, which may clear it (R225). -/
def lineFault (m : Mach) (ls : List Loc) : Option (Nat × Nat) :=
  if m.sync.bad.isEmpty then none
  else ls.findSome? (fun l => match l with
    | .hbm pa => if thas (pa / 64) m.sync.bad then some (0x01, pa / 64 * 64) else none
    | _ => none)
/-- The first failure of a read (R189, R225, R281) or, for a write, of its target (R258). -/
def faultR (m : Mach) (r : Req) (wr : Bool) (ls : List Loc) : Option (Nat × Nat) :=
  ls.findSome? (fun l => match l with
    | .peer p _ _ => if m.fab.failed.contains (r.past * 512 + p) then some (0x09, p) else none
    | .missing pa => some (0x08, pa % 2 ^ 56)
    | .hbm pa =>
      if !wr then locFault m r.who l
      else if m.mem.degraded.contains (Config.rowChannel (rowOf pa)) then some (0x01, pa / 64 * 64) else none
    | l => if wr then none else locFault m r.who l)

/-- Whether the outside or a check code may answer an access with a failure: its cause (a local place knows UNCORRECTABLE and
E2E; R257), and the DETAIL that R79 gives the cause. -/
def failOk (r : Req) (ls : List Loc) (cause detail : Nat) : Bool :=
  let va := (recAddr r).1
  let n := max 1 ls.length
  (ls.any isOutside || cause == 0x01 || cause == 0x07) && (match cause with
    | 0x01 => detail % 64 == 0 && ls.any (fun l => locPa l / 64 * 64 == detail)
    | 0x02 => decide (va ≤ detail ∧ detail < va + n)
    | 0x03 => (match r.op with | .load (.hand _ _ hv _) .. => hType hv == 7 && detail == bits (hAux0 hv) 0 32 | _ => false)
    | 0x07 => ls.any (fun l => locPa l == detail)
    | 0x08 => decide (va ≤ detail % 2 ^ 56 ∧ detail % 2 ^ 56 < va + n) && detail / 2 ^ 56 == (match reqPlace r with
        | some (.hand _ h _ _, _, _) => h | _ => 0)
    | 0x09 => ls.any (fun l => match l with | .peer p _ _ => p == detail | .host t _ => t == detail | _ => false)
    | 0x0A => ls.any (fun l => match l with | .peer p _ _ => p == detail | _ => false)
    | 0x0D => ls.any (fun l => match l with | .peer p _ _ => p == detail | _ => false)
    | _ => false)

/-- A unit found uncorrectable by a read is marked (R281). -/
def markBad (m : Mach) (ls : List Loc) (cause detail : Nat) : Mach :=
  if cause != 0x01 then m
  else ls.foldl (fun m l => match l with
    | .hbm pa => if pa / 64 == detail / 64 ∧ !m.mem.badHbm.contains (pa / 64) then { m with mem.badHbm := pa / 64 :: m.mem.badHbm } else m
    | .spad k => if k / 64 == detail / 64 ∧ !m.mem.badSpad.contains (k / 64) then { m with mem.badSpad := k / 64 :: m.mem.badSpad } else m
    | _ => m) m

def cacheKey (p pa : Nat) : Nat := p * 2 ^ 52 + pa
/-- Whether every outside place is a kept byte of a cached-peer page (R192). -/
def allKept (m : Mach) (ls : List Loc) : Bool :=
  ls.all (fun l => !isOutside l || (match l with | .peer p pa c => c && thas (cacheKey p pa) m.mem.cached | _ => false))
/-- The bytes of a read: local bytes, kept bytes, or the answer's bytes. -/
def readVal (m : Mach) (ls : List Loc) (ans : Option Nat) : Nat :=
  natOf ((upto ls.length).map (fun i => match (ls[i]? : Option Loc) with
    | some (.peer p pa c) => (match ans with
        | some v => BitVec.ofNat 8 (v / 256 ^ i)
        | none => if c then ((tget [] (cacheKey p pa) m.mem.cached).head?).getD 0 else 0)
    | some (.host _ _) => (match ans with | some v => BitVec.ofNat 8 (v / 256 ^ i) | none => 0)
    | some l => locByte m l
    | none => 0))
/-- Bytes of cached-peer pages that an answer brought in are kept (R192), unless the access is non-temporal. -/
def keepBytes (m : Mach) (ls : List Loc) (v : Nat) : Mach :=
  (upto ls.length).foldl (fun m i => match (ls[i]? : Option Loc) with
    | some (.peer p pa true) => { m with mem.cached := tset (cacheKey p pa) [BitVec.ofNat 8 (v / 256 ^ i)] m.mem.cached }
    | _ => m) m

/-- The virtual addresses at which a request reaches its pages, for the counts of migrate pages: both pages of an access that
straddles two, the index and the element of a gather window, and the overflow area of a relation. -/
def moveVas (m : Mach) (r : Req) : List Nat :=
  let span := fun va n => [va, va + n - 1]
  match reqPlace r with
  | some (.virt va, n, _) => span va n
  | some (.hand _ _ hv i, n, _) =>
    (match hType hv with
     | 5 => (match relOf m r.past (bits (hAux0 hv) 0 8) with
        | some x => (upto n).filterMap (fun j =>
            let s := (i * n + j) / 32
            if s < x.spslots then none
            else some (x.ovbase + 32 * (bits (hAux0 hv) 16 10 * (2 ^ x.lslots - x.spslots) + s - x.spslots) + (i * n + j) % 32))
        | none => [])
     | 6 => (match tfind (r.past * 16 + bits (hAux0 hv) 0 4) m.mem.windows with
        | some w => span (hBase w.ix + 4 * i) 4 ++ (match idxRead m r (hBase w.ix + 4 * i) with
            | .ok j => span (hBase w.src + j * n) n | .error _ => [])
        | none => [])
     | 8 => []
     | _ => span (hBase hv + i * n) n)
  | _ => match r.op with | .mon ea => [ea] | .keyi _ va => span va 32 | _ => []

/-- Counts an access at an address to a migrate page on another package; at the threshold the page begins to move here
(R197, R406). -/
def countAt (m : Mach) (r : Req) (va : Nat) : Mach :=
  match leafR m r va with
  | .ok e =>
    if bits e 5 2 = 3 ∧ bits e 7 2 = 0 ∧ bits e 52 9 ≠ m.host.peer then
      let k := bits e 52 9 * 2 ^ 40 + bits e 12 40 / 16
      let n := tget 0 k m.mem.moves + 1
      let busy := m.mem.reqs.any (fun q => match q.op with | .pgmig _ x _ => x == k && !q.done | _ => false)
      if n < 64 * 4 ^ bits e 10 2 ∨ busy then { m with mem.moves := tset k n m.mem.moves }
      else { m with
        ids := m.ids + 1
        mem.moves := tdel k m.mem.moves
        mem.reqs := m.mem.reqs ++ [⟨m.ids, .idle, 0, 0, r.past, .drop, .pgmig va k m.host.peer, 5, false, false, none, none,
          false, none, none, false, none⟩] }
    else m
  | .error _ => m
/-- Counts a performed access of a chain, once for each page, and its flits. -/
def countMove (m : Mach) (r : Req) : Mach :=
  let m1 := sendFlits m r (reqLocs m r)
  (((moveVas m r).map (fun va => va / 65536 * 65536)).eraseDups).foldl (fun m va => countAt m r va) m1
/-- Counts the 64-byte units that a copy or a prefetch accesses. -/
def countUnits (m : Mach) (r : Req) (us : List Nat) : Mach := us.foldl (fun m u => countAt m r (64 * u)) m

/-- A load merges the stores that its activation has buffered before it (R22). -/
def mergeBuf (m : Mach) (r : Req) (ls : List Loc) (v : Nat) : Nat :=
  match r.who with
  | .pe core _ frame _ bank _ =>
    let P := peOf m r.past
    let ctx := frame * 4 + bank
    let own := match tfind (core * 8 + ctx) P.binds with | some b => b.act == r.act && kindSect b == r.sect | none => false
    let es := if own then (tget [] (core * 8 + ctx) P.commit).filter (fun e => e.poison.isNone
      && (match e.pos, r.pos with | some x, some y => x.chain != y.chain || posLt x y | _, _ => true)) else []
    es.foldl (fun v e =>
      match targetOf m { r with who := e.who } e.pl e.len .wr with
      | .at sl => (upto ls.length).foldl (fun v i => match (ls[i]? : Option Loc) with
          | some l => (match sl.findIdx? (· == l) with
              | some j => setBits v (8 * i) 8 (e.data / 256 ^ j)
              | none => v)
          | none => v) v
      | _ => v) v
  | _ => v

/-- A load of a handle window draws free index bytes (log 27). -/
def drawFree (m : Mach) : Mach := { m with free := m.free + 8 }

/-- A local access whose place is not aligned to its width is performed as separate byte accesses (R200). -/
def misaligned (ls : List Loc) : Bool :=
  !ls.any isOutside && (match ls.head? with | some l => locPa l % ls.length != 0 | none => false)
/-- The bytes of an access that are performed already, and the value of those of a load. -/
def tornOf (m : Mach) (r : Req) : Nat × Nat := tget (0, 0) r.id m.mem.torn
/-- A value with the bytes that a misaligned load has read before in their places. -/
def tornVal (m : Mach) (r : Req) (n v : Nat) : Nat :=
  (upto n).foldl (fun v i => if bitAt (tornOf m r).1 i then setBits v (8 * i) 8 (bits (tornOf m r).2 (8 * i) 8) else v) v
def setTorn (m : Mach) (r : Req) (i v : Nat) : Mach :=
  { m with mem.torn := tset r.id (setBits (tornOf m r).1 i 1 1, setBits (tornOf m r).2 (8 * i) 8 v) m.mem.torn }
def endTorn (m : Mach) (id : Nat) : Mach := { m with mem.torn := tdel id m.mem.torn }

/-- The other accesses of a merged request, which are performed and fail with it, each with its own result (R270). -/
def mergedWith (m : Mach) (r : Req) : List Req :=
  match tfind r.id m.copy.merged with
  | some g => m.mem.reqs.filter (fun q => q.id != r.id && !q.done && tfind q.id m.copy.merged == some g)
  | none => []
def failMerged (m : Mach) (r : Req) (cause detail : Nat) (ls : List Loc) : Mach :=
  (mergedWith m r).foldl (fun m q => failReq m q cause detail ls) (failReq (endTorn m r.id) r cause detail ls)
/-- Whether an access of a merged request has been performed already: the request is then past failing. -/
def mergedBegun (m : Mach) (r : Req) : Bool :=
  match tfind r.id m.copy.merged with
  | some g => m.copy.merged.any (fun e => e.2 == g && e.1 != r.id && !(m.mem.reqs.any (fun q => q.id == e.1 && !q.done)))
  | none => false
/-- The first failure that translation or the state of a place gives an access of a merged request (R270). -/
def mergedFault (m : Mach) (r : Req) : Option (Nat × Nat × List Loc) :=
  (r :: mergedWith m r).findSome? (fun q => match reqPlace q with
    | some (pl, n, k) => (match targetOf m q pl n k with
        | .bad c d => some (c, d, [])
        | .beyond => none
        | .at ls => (faultR m q k.writes ls).map (fun x => (x.1, x.2, ls)))
    | none => none)
/-- A flit of a request has been discarded, since its tag failed: it is sent again, or the request fails with PEER_FAIL, as `fail` makes
it fail with a peer (R399). -/
def discarded (m : Mach) (r : Req) (ls : List Loc) (fail : Nat → Mach) : Mach :=
  match resendFlit m r ls with
  | some m1 => m1
  | none => match sentTo m r ls with
    | x :: _ => fail x.1
    | [] => m

/-- A read whose single-bit error SECDED corrects: the corrected event is logged (R281). -/
def logCorrected (m : Mach) (ls : List Loc) : Mach :=
  match ls.findSome? (fun l => match l with | .hbm pa => some (pa / 64) | _ => none) with
  | some u => { m with mem.bruoshLog := m.mem.bruoshLog ++ [(0x10003, u)] }
  | none => m

/-- Whether the home of a snapshot's page on another package may answer a load beyond the frontier that its slot has been recycled
(R217). -/
def staleThere (m : Mach) (r : Req) (pl : Place) (cause detail : Nat) : Bool :=
  match pl with
  | .hand _ _ hv _ => cause == 0x03 && detail == bits (hAux0 hv) 0 32
      && (match byteLoc m r (hBase hv) .snapLoad with | .ok l => isOutside l | .error _ => false)
  | _ => false

/-- A load of `n` bytes at a place that nothing makes fail is performed, or fails, as it is answered. For a misaligned access to local
places an answer with data `v` performs its byte `v` mod `n` alone (R200), and an aligned access to local memory so answered is one that
SECDED has corrected (R281). -/
def loadOne (m : Mach) (r : Req) (pl : Place) (n : Nat) (nt : Bool) (ans : Answer) : Mach :=
  match targetOf m r pl n .rd with
  | .bad c d => failReq m r c d []
  | .beyond =>
    (match ans with
     | .fail c d => if staleThere m r pl c.toNat d.toNat then failMerged m r 0x03 d.toNat [] else m
     | _ => finishTok m r.id [⟨Val.none, false, true, 0⟩])
  | .at ls =>
    match ans with
    | .fail c d =>
      if c.toNat = 0 then discarded m r ls (fun p => failMerged m r 0x09 p ls)
      else if failOk r ls c.toNat d.toNat && !mergedBegun m r then failMerged (markBad m ls c.toNat d.toNat) r c.toNat d.toNat ls else m
    | .data v =>
      if ls.any isOutside then
        let m1 := if nt then m else keepBytes m ls v.toNat
        finish (drawFree (countMove m1 r)) r.id (mergeBuf m r ls (readVal m ls (some v.toNat)))
      else if misaligned ls then
        setTorn m r (v.toNat % n) (bits (mergeBuf m r ls (readVal m ls none)) (8 * (v.toNat % n)) 8)
      else finish (drawFree (countMove (logCorrected m ls) r)) r.id (mergeBuf m r ls (readVal m ls none))
    | .perform =>
      if allKept m ls then
        finish (endTorn (drawFree (countMove m r)) r.id) r.id (tornVal m r n (mergeBuf m r ls (readVal m ls none)))
      else m

/-- Whether the accesses merged with one may be performed with it: only what stands outside their request holds them back, since they
are performed in program order (R270). -/
def mergedMay (m : Mach) (r : Req) : Bool :=
  let g := mergedWith m r
  g.all (fun q => mayPerform { m with
    mem.reqs := m.mem.reqs.filter (fun x => x.id == q.id || (x.id != r.id && !g.any (fun y => y.id == x.id))) } q)

/-- A load is performed, or fails, with the accesses that its tile's coalescing unit has merged with it (R270). -/
def performLoad (m : Mach) (r : Req) (pl : Place) (n : Nat) (nt : Bool) (ans : Answer) : Mach :=
  match mergedFault m r with
  | some (c, d, ls) => failMerged m r c d ls
  | none =>
    let others := if ans == .perform then mergedWith m r else []
    if ans != .perform || mergedMay m r then
      others.foldl (fun m q => match reqOf m q.id, q.op with
        | some x, .load pl2 n2 nt2 => loadOne m x pl2 n2 nt2 .perform
        | _, _ => m) (loadOne m r pl n nt ans)
    else m

/-- A plain store of bytes, which also counts towards clearing the mark of a poisoned engine line (R225). -/
def storeLocs (m : Mach) (ls : List Loc) (bs : List Byte) : Mach := writeLocs (clearLine m ls) ls bs

/-- A store of `n` bytes at a place that nothing makes fail is performed, or fails; a misaligned one may be performed byte by byte as a
load is (R200). -/
def storeOne (m : Mach) (r : Req) (pl : Place) (n data : Nat) (ans : Answer) : Mach :=
  match targetOf m r pl n .wr with
  | .bad c d => failReq m r c d []
  | .beyond => m
  | .at ls =>
    if heldByResv m (ctxCode r.past r.who) ls then m
    else match ans with
      | .fail c d =>
        if c.toNat = 0 then discarded m r ls (fun p => failMerged m r 0x09 p ls)
        else if failOk r ls c.toNat d.toNat && c.toNat != 0x01 && !mergedBegun m r then failMerged m r c.toNat d.toNat ls else m
      | .data v =>
        if misaligned ls then
          let i := v.toNat % n
          storeLocs (setTorn m r i 0) ((ls[i]?).toList) [BitVec.ofNat 8 (data / 256 ^ i)]
        else m
      | .perform =>
        let m1 := modReq (endTorn (drawFree (countMove m r)) r.id) r.id (fun x => { x with done := true, res := some [tokNat 0] })
        let todo := (ls.zip (bytesOf data n)).zipIdx.filter (fun x => !bitAt (tornOf m r).1 x.2)
        flush (storeLocs m1 (todo.map (·.1.1)) (todo.map (·.1.2)))

/-- A store is performed, or fails, with the accesses that its tile's coalescing unit has merged with it (R270). -/
def performStore (m : Mach) (r : Req) (pl : Place) (n data : Nat) (ans : Answer) : Mach :=
  match mergedFault m r with
  | some (c, d, ls) => failMerged m r c d ls
  | none =>
    let others := if ans == .perform then mergedWith m r else []
    if ans != .perform || mergedMay m r then
      others.foldl (fun m q => match reqOf m q.id, q.op with
        | some x, .store pl2 n2 d2 => storeOne m x pl2 n2 d2 .perform
        | _, _ => m) (storeOne m r pl n data ans)
    else m

/-! ## Handles that a SNAP completes (R206, R213, R217) -/

/-- The bits of word `k` that a handle holds: [56] and [121:120] of the image are reserved and read zero (R4, R207). -/
def handWord (k v : Nat) : Nat := if k = 0 then setBits v 56 1 0 else if k = 1 then setBits v 56 2 0 else v

/-- The buffered stores that wait on a SNAP take the value that it leaves (R206). -/
def resolveBuf (m : Mach) (p id : Nat) (v : BitVec 256) : Mach :=
  let put := fun e : BufStore => if e.hwait == some id then
      { e with hwait := none, pl := (match e.pl with | .hand o g _ i => .hand o g v i | x => x) } else e
  let all := fun t : Tbl (List BufStore) => t.map (fun x => (x.1, x.2.map put))
  match (pastOf m p).image with
  | some i => setPast m p { pastOf m p with image := some { i with pe.commit := all i.pe.commit } }
  | none => { m with pe.commit := all m.pe.commit }

/-- A SNAP leaves a handle: the accesses that wait on it take its value, the HSETs that wait are applied in order and the
HGETs read the result. -/
def resolveHand (m : Mach) (p owner h id : Nat) (v : BitVec 256) : Mach :=
  let m1 := if handPendP m p owner h = some id then setHandP m p owner h v else m
  let m1 := resolveBuf m1 p id v
  let waiting := m1.mem.reqs.filter (fun r => r.hwait == some id)
  let m2 := waiting.foldl (fun m r =>
    match r.op with
    | .load (.hand o g _ i) n nt => modReq m r.id (fun x => { x with hwait := none, op := .load (.hand o g v i) n nt })
    | .store (.hand o g _ i) n d => modReq m r.id (fun x => { x with hwait := none, op := .store (.hand o g v i) n d })
    | .hset o g k w =>
      let hv := getHandP m p o g
      delReq (setHandP m p o g (BitVec.ofNat 256 (setBits hv.toNat (64 * k) 64 (handWord k w.toNat)))) r.id
    | .hget o g k =>
      let hv := getHandP m p o g
      modReq m r.id (fun x => { x with hwait := none, done := true, res := some [tokNat (bits hv.toNat (64 * k) 64)] })
    | .copy k vec bw ds o dN sN hd hs j =>
      let q := ReqOp.copy k vec bw ds o dN sN (if dN = h then v else hd) (if sN = h then v else hs) j
      modReq m r.id (fun x => { x with hwait := none, op := q })
    | .iwalk _ g p0 cnt mj e => modReq m r.id (fun x => { x with hwait := none, op := .iwalk v g p0 cnt mj e })
    | .spmx _ x g m0 cm mj e => modReq m r.id (fun y => { y with hwait := none, op := .spmx v x g m0 cm mj e })
    | _ => modReq m r.id (fun x => { x with hwait := none })) m1
  flush m2

end Sys2Proof.Machine
end

