-- ==== Sys2Proof/Machine/Memory.lean ====
section
/-! DEFINITION. Memory access instructions, class 0x6_, and the events of the memory interface (R188-R221, R257, R258). -/
namespace Sys2Proof.Machine

/-- Bytes of a width code (R74). -/
def widthBytes : Width → Nat
  | .w4 => 4 | .w8 => 8 | .w16 => 16 | .nt => 16
def isAcqO : Order → Bool
  | .acq => true | .ar => true | _ => false
def isRelO : Order → Bool
  | .rel => true | .ar => true | _ => false

/-! ## The commit buffer (R22, R212) -/

/-- Whether the executing PE works in an atomic frame. -/
def inAtomic (m : Mach) : Bool :=
  match m.cur with
  | .pe core _ frame .. => imgAtomic (frameImg m core frame)
  | _ => false

/-- Commit order: chain, round and sequence index; stores without a chain stand behind, in issue order. -/
def bufBefore (x y : BufStore) : Bool :=
  match x.pos, y.pos with
  | some a, some b => a.chain < b.chain || (a.chain == b.chain && posLt a b)
  | some _, none => true
  | none, _ => false
def insBuf (e : BufStore) : List BufStore → List BufStore
  | [] => [e]
  | x :: xs => if bufBefore e x then e :: x :: xs else x :: insBuf e xs

/-- Bytes that a share holds. -/
def bufUsed (es : List BufStore) : Nat := ((es.filter (fun e => e.poison.isNone)).map (·.len)).sum

/-- A store enters its bank's 4 KB share; one that would overflow it is poisoned with COMMIT_OVERFLOW (R22). -/
def bufferStore (m : Mach) (pl : Place) (n data sc : Nat) (rel : Bool) (pv : Option Val) (hw : Option Nat) : Mach :=
  match m.cur with
  | .pe core _ frame _ bank _ =>
    let k := ctxKey core frame bank
    let es := tget [] k m.pe.commit
    let used := bufUsed es
    let p := match pv with
      | some v => some v.pay
      | none => if 4096 < used + n then some (poison m m.cur 0x06 used).pay else none
    { m with pe.commit := tset k (insBuf ⟨posOf m, m.cur, pl, n, data, sc, rel, p, hw⟩ es) m.pe.commit }
  | _ => m

/-- COMMIT (R22): the next buffered store of an ending activation is issued as ST issues it, once the SNAP that its handle is
pending on has left its value (R206); after the last the bank is released. -/
def commitG (core ctx : Nat) (m : Mach) : Mach :=
  let k := core * 8 + ctx
  match tfind k m.pe.binds with
  | none => m
  | some b =>
    if !b.ending || !(livePast m core).any (running m) then m
    else match tget [] k m.pe.commit with
      | [] => (match b.kind with | .routine .. => m | _ => releaseCtx m core ctx false)
      | e :: rest =>
        if e.hwait.isSome then m else
        let r : Req := ⟨m.ids, e.who, b.act, kindSect b, (livePast m core).getD 0, .drop, .store e.pl e.len e.data, e.scope, false,
          e.rel, e.pos, none, false, none, none, false, none⟩
        let m1 := addReq { m with pe.commit := tput [] k rest m.pe.commit } r
        match b.kind, rest with
        | .routine .., _ => m1
        | _, [] => releaseCtx m1 core ctx false
        | _, _ => m1
def execCommitEv (core ctx : Nat) (s : State) : Out := lift (commitG core ctx) s

/-! ## Loads and stores (R210-R212) -/

/-- A store's request, or its entry in the commit buffer. -/
def issueStore (m : Mach) (d : Opd) (pl : Place) (n data sc : Nat) (rel : Bool) (hw : Option Nat) : Mach :=
  if inAtomic m then bufferStore m pl n (data % 256 ^ n) sc rel none hw
  else addReq m { mkReq m (ackOf m d) (.store pl n (data % 256 ^ n)) sc false rel with hwait := hw }

/-- A store with a poisoned operand (R22, R23, R89): in an atomic frame a poisoned entry, else a record, and poison on D or
the trap. -/
def poisonStore (d : Opd) (pl : Place) (n sc : Nat) (rel : Bool) (v : Val) (m : Mach) : Mach :=
  if inAtomic m then bufferStore m pl n 0 sc rel (some v) none
  else
    let m1 := faultRec m (pastOfActor m m.cur) m.cur (poisonRec v 0)
    match ackOf m d with
    | .drop => trapPoison m1 m.cur v
    | dst => resultNow m1 dst (.store pl n 0) (tokOf v)

/-- A window access to another core at a scope below cluster is performed at cluster scope (R209). -/
def scratchScope (m : Mach) (sa sc : Nat) : Nat :=
  if bitAt sa 25 && sc < 3 && scratchCore (coreOfActor m.cur) (clOfActor m m.cur) sa != coreOfActor m.cur then 3 else sc

/-- The common start of a load: reads `os`, writes D. -/
def loadStart (n : Nat) (d : Opd) (os : List Opd) (eff : List Val → Mach → Mach) (m : Mach) : Mach :=
  memStart os [d] (pairReg m (n == 16) d) (poisonNow d (.load (.virt 0) n false)) eff m
/-- A load's request. -/
def issueLoad (m : Mach) (f : MemF) (d : Opd) (pl : Place) (sc : Nat) (hw : Option Nat) : Mach :=
  let n := widthBytes f.width
  addReq m { mkReq m (dstOf m d (n == 16)) (.load pl n (f.width == .nt)) sc (isAcqO f.order) false with hwait := hw }

/-- LD (R210): ea = A + B. -/
def ldG (f : MemF) (d a b : Opd) : Mach → Mach :=
  loadStart (widthBytes f.width) d [a, b] (fun vs m =>
    issueLoad m f d (.virt ((natAt vs 0 % 2 ^ 64 + natAt vs 1 % 2 ^ 64) % 2 ^ 64)) f.scope.code none)
def execLd (f : MemF) (d a b : Opd) (s : State) : Out := lift (ldG f d a b) s

/-- LDS (R190, R210): ea = A + B modulo 2^32. -/
def ldsG (f : MemF) (d a b : Opd) : Mach → Mach :=
  loadStart (widthBytes f.width) d [a, b] (fun vs m =>
    let sa := (natAt vs 0 + natAt vs 1) % 2 ^ 32
    issueLoad m f d (.scratch sa) (scratchScope m sa f.scope.code) none)
def execLds (f : MemF) (d a b : Opd) (s : State) : Out := lift (ldsG f d a b) s

/-- The common start of a store with data operand B. -/
def storeStart (f : MemF) (b : Opd) (os : List Opd) (onPoison : Val → Mach → Mach) (eff : List Val → Nat → Mach → Mach)
    (m : Mach) : Mach :=
  let wide := widthBytes f.width == 16
  let data := wideVal m b
  memStart os [] (pairReg m wide b) onPoison (fun vs m1 => eff vs data m1) m

/-- ST (R210). -/
def stG (f : MemF) (d a b : Opd) : Mach → Mach :=
  let n := widthBytes f.width
  let sc := f.scope.code
  let rel := isRelO f.order
  storeStart f b [a, b] (poisonStore d (.virt 0) n sc rel) (fun vs x m =>
    issueStore m d (.virt (natAt vs 0 % 2 ^ 64)) n x sc rel none)
def execSt (f : MemF) (d a b : Opd) (s : State) : Out := lift (stG f d a b) s

/-- STS (R210). -/
def stsG (f : MemF) (d a b : Opd) : Mach → Mach :=
  let n := widthBytes f.width
  let sc := f.scope.code
  let rel := isRelO f.order
  storeStart f b [a, b] (poisonStore d (.scratch 0) n sc rel) (fun vs x m =>
    let sa := natAt vs 0 % 2 ^ 32
    issueStore m d (.scratch sa) n x (scratchScope m sa sc) rel none)
def execSts (f : MemF) (d a b : Opd) (s : State) : Out := lift (stsG f d a b) s

/-- LDH (R208, R210): index B through handle A; an access through a pending handle waits for it (R206). -/
def ldhG (f : MemF) (d a b : Opd) (m : Mach) : Mach :=
  if handStall m [hanNo a] then stall m
  else loadStart (widthBytes f.width) d [b] (fun vs m =>
    let x := readHand m (hanNo a)
    issueLoad m f d (.hand (handOwner m.cur) (hanNo a) x.1 (natAt vs 0 % 2 ^ 64)) f.scope.code x.2) m
def execLdh (f : MemF) (d a b : Opd) (s : State) : Out := lift (ldhG f d a b) s

/-- The poison step of STH, whose D is a source (R210): an m, o or l register takes the merged poison; elsewhere it is that of a
store. -/
def poisonSth (d : Opd) (n sc : Nat) (rel : Bool) (v : Val) (m : Mach) : Mach :=
  if !inAtomic m && (regCode d).isSome then putRes m (.opd d) v else poisonStore .zero (.virt 0) n sc rel v m

/-- STH (R208, R210): index D through handle A. -/
def sthG (f : MemF) (d a b : Opd) (m : Mach) : Mach :=
  let n := widthBytes f.width
  let sc := f.scope.code
  let rel := isRelO f.order
  if handStall m [hanNo a] then stall m
  else storeStart f b [b, d] (poisonSth d n sc rel) (fun vs x m =>
    let h := readHand m (hanNo a)
    issueStore m .zero (.hand (handOwner m.cur) (hanNo a) h.1 (natAt vs 1 % 2 ^ 64)) n x sc rel h.2) m
def execSth (f : MemF) (d a b : Opd) (s : State) : Out := lift (sthG f d a b) s

/-- STORE_COMPLETION (R210): a store is performed, or fails. -/
def storeCompletionG (id : Nat) (ans : Answer) (m : Mach) : Mach :=
  match reqOf m id with
  | none => m
  | some r =>
    match r.op with
    | .store pl n data => if mayPerform m r then performStore m r pl n data ans else m
    | _ => m
def execStoreCompletion (id : Nat) (ans : Answer) (s : State) : Out := .next (enterPort id (storeCompletionG id ans) s)

/-! ## Handle instructions (R213) -/

/-- HSET: word `k` of handle D, whose reserved bits take no write (R4, R207); TYPE 8 only from the shepherd core. A pending handle takes the write after its SNAP. -/
def hsetG (d a : Opd) (k : Nat) (m : Mach) : Mach :=
  if handStall m [hanNo d] then stall m
  else memStart [a] [] [] (fun v m => poisonSink m m.cur v) (fun vs m =>
    let o := handOwner m.cur
    let h := hanNo d
    let shep := match m.cur with | .unit u _ => isShepherd u | _ => false
    let v := handWord k (natAt vs 0 % 2 ^ 64)
    let v := if k = 0 ∧ bits v 60 4 = 8 ∧ !shep then bits v 0 60 else v
    match handPend m o h with
    | some id => addReq m { mkReq m .drop (.hset o h k (BitVec.ofNat 64 v)) 5 false false with hwait := some id }
    | none => setHand m o h (BitVec.ofNat 256 (setBits (getHand m o h).toNat (64 * k) 64 v))) m
def execHset (d a : Opd) (b : Fin 4) (s : State) : Out := lift (hsetG d a b.val) s

/-- HGET: word `k` of handle A; waits while A is pending. -/
def hgetG (d a : Opd) (k : Nat) (m : Mach) : Mach :=
  if handStall m [hanNo a] then stall m
  else memStart [] [d] [] (fun _ m => m) (fun _ m =>
    let o := handOwner m.cur
    let h := hanNo a
    let x := readHand m h
    match x.2 with
    | some id => addReq m { mkReq m (dstOf m d false) (.hget o h k) 5 false false with hwait := some id }
    | none => resultNow m (dstOf m d false) (.hget o h k) (tokNat (bits x.1.toNat (64 * k) 64))) m
def execHget (d a : Opd) (b : Fin 4) (s : State) : Out := lift (hgetG d a b.val) s

/-! ## Gather windows (R218, R219) -/

/-- Whether two handles may bind a window (R218). -/
def windowOk (ix src : BitVec 256) : Bool :=
  hType ix == 1 && hEsz ix == 2 && decide (hBound ix / 4 ≤ 2 ^ 32) && hType src == 1 && decide (2 ≤ hEsz src ∧ hEsz src ≤ 4)

/-- The handle image of a bound window (R208). -/
def windowImage (ix src : BitVec 256) (w : Nat) : BitVec 256 :=
  BitVec.ofNat 256 (w * 2 ^ 128 + hBound ix / 4 * 2 ^ hEsz src % 2 ^ 56 * 2 ^ 64 + 6 * 2 ^ 60 + hEsz src * 2 ^ 57)

/-- WBIND (R218): binds the lowest free window; D receives TYPE 0 when none is free or the operands break the rules: the whole handle
is then 0, where the rule speaks of TYPE alone (DESIGN CHOICE, log 112). A pending operand can only become a snapshot or TYPE 0, neither
of which binds. -/
def wbindG (f : ScBF) (d a b : Opd) (m : Mach) : Mach :=
  if handStall m [hanNo d, hanNo a, hanNo b] then stall m
  else
    let o := handOwner m.cur
    let p := pastOfActor m m.cur
    let ix := readHand m (hanNo a)
    let src := readHand m (hanNo b)
    let w := (upto 16).find? (fun w => !thas (p * 16 + w) m.mem.windows)
    let put := fun (m : Mach) v => setHandPend (setHand m o (hanNo d) v) o (hanNo d) none
    match w with
    | some w =>
      if ix.2.isNone && src.2.isNone && windowOk ix.1 src.1 then
        put { m with mem.windows := tset (p * 16 + w) ⟨false, f.bit, ix.1, src.1, f.scope.code⟩ m.mem.windows } (windowImage ix.1 src.1 w)
      else put m 0
    | none => put m 0
def execWbind (f : ScBF) (d a b : Opd) (s : State) : Out := lift (wbindG f d a b) s

/-- Whether a request goes through a window of its pasture. -/
def throughWindow (r : Req) (p w : Nat) : Bool :=
  let is6 := fun hv : BitVec 256 => hType hv == 6 && bits (hAux0 hv) 0 4 == w
  r.past == p && (match r.op with
    | .load (.hand _ _ hv _) .. => is6 hv
    | .store (.hand _ _ hv _) .. => is6 hv
    | _ => false)

/-- WINDOW_FREE (R219): every access that reached the closed window is performed; it is freed and A becomes TYPE 0. -/
def windowFreeG (id : Nat) (m : Mach) : Mach :=
  match reqOf m id with
  | none => m
  | some r =>
    match r.op with
    | .wfree o h w =>
      if m.mem.reqs.any (fun q => throughWindow q r.past w && !q.done && q.granted.isSome) then m
      else
        let hv := getHandP m r.past o h
        let m1 := setHandP (delReq m id) r.past o h (BitVec.ofNat 256 (setBits hv.toNat 60 4 0))
        { m1 with mem.windows := tdel (r.past * 16 + w) m1.mem.windows }
    | _ => m
def execWindowFree (id : Nat) (s : State) : Out := lift (windowFreeG id) s

/-- WFREE (R219): the window closes at once, and is freed at once where no access through it is under way. The accesses that
the memory interfaces have already issued count as those that reached it before (log 33). -/
def wfreeG (a : Opd) (m : Mach) : Mach :=
  if handStall m [hanNo a] then stall m
  else
    let p := pastOfActor m m.cur
    let x := readHand m (hanNo a)
    if hType x.1 != 6 || x.2.isSome then m
    else
      let w := bits (hAux0 x.1) 0 4
      let m1 := match tfind (p * 16 + w) m.mem.windows with
        | some y => { m with mem.windows := tset (p * 16 + w) { y with closed := true } m.mem.windows }
        | none => m
      let reqs := m1.mem.reqs.map (fun r =>
        if throughWindow r p w && !r.done && r.hwait.isNone && posReady m1 r then { r with granted := some (w, 1) } else r)
      windowFreeG m1.ids (addReq { m1 with mem.reqs := reqs } (mkReq m1 .drop (.wfree (handOwner m.cur) (hanNo a) w) 5 false false))
def execWfree (a : Opd) (s : State) : Out := lift (wfreeG a) s

/-! ## Tier prefetch (R220) -/

/-- The rules of a PFT descriptor. -/
def pftOk (x : Nat) : Bool :=
  let len := bits x 96 32
  bits x 56 8 == 0 && bits x 83 13 == 0 && bits x 0 56 % 64 == 0 && bits x 64 19 % 64 == 0 && len % 64 == 0
    && decide (64 ≤ len ∧ len ≤ 262144)

/-- PFT: a descriptor that breaks the rules is a BOUNDS fault, and nothing is copied or counted. -/
def pftG (f : ScF) (a b : Opd) (m : Mach) : Mach :=
  let x := wideVal m a
  memStart [a, b] [] (pairReg m true a) (fun v m => poisonSink m m.cur v) (fun vs m =>
    let r := mkReq m .drop (.pft (x % 2 ^ 128) (natAt vs 1 % 2 ^ 64)) f.scope.code false true
    if pftOk x then addReq m r
    else match m.cur with
      | .unit .. => { failS m r 0x08 (bits x 0 56) [] with ctl := .trapped }
      | who => poisonSink m who (poison m who 0x08 (bits x 0 56))) m
def execPft (f : ScF) (a b : Opd) (s : State) : Out := lift (pftG f a b) s

/-! ## Append pages (R214-R217): served by the synchronisation engine -/

/-- SNAP: handle D is pending until the engine answers. -/
def snapG (f : ScF) (d a b : Opd) (m : Mach) : Mach :=
  if handStall m [hanNo d] then stall m
  else memStart [a, b] [] [] (fun v m => poisonSink m m.cur v) (fun vs m =>
    let o := handOwner m.cur
    let r := mkReq m .drop (.snap o (hanNo d) (natAt vs 0 % 2 ^ 64) (natAt vs 1 % 2 ^ 32)) f.scope.code true false
    setHandPend (addReq m r) o (hanNo d) (some r.id)) m
def execSnap (f : ScF) (d a b : Opd) (s : State) : Out := lift (snapG f d a b) s

/-- APPEND. -/
def appendG (f : ApF) (d a b : Opd) (m : Mach) : Mach :=
  let n := widthBytes f.width
  let x := wideVal m b
  memStart [a, b] [d] (pairReg m (n == 16) b) (poisonNow d (.append 0 n 0)) (fun vs m =>
    addReq m (mkReq m (dstOf m d false) (.append (natAt vs 0 % 2 ^ 64) n (x % 256 ^ n)) f.scope.code false false)) m
def execAppend (f : ApF) (d a b : Opd) (s : State) : Out := lift (appendG f d a b) s

/-- PUBL; B is not read under `.rst`. -/
def publG (f : ScBF) (d a b : Opd) : Mach → Mach :=
  memStart (if f.bit then [a] else [a, b]) [d] [] (poisonNow d (.publ 0 0 f.bit)) (fun vs m =>
    addReq m (mkReq m (dstOf m d false) (.publ (natAt vs 0 % 2 ^ 64) (natAt vs 1 % 2 ^ 32) f.bit) f.scope.code false true))
def execPubl (f : ScBF) (d a b : Opd) (s : State) : Out := lift (publG f d a b) s

/-! ## FENCE (R221, R258) -/

def fenceAcq : FenceK → Bool
  | .acq => true | .ar => true | _ => false
def fenceRel : FenceK → Bool
  | .rel => true | .ar => true | _ => false

def fenceG (f : FenceF) (d : Opd) : Mach → Mach :=
  memStart [] [d] [] (fun _ m => m) (fun _ m =>
    markFences (addReq m (mkReq m (dstOf m d false) (.fence f.kind none) f.scope.code (fenceAcq f.kind) (fenceRel f.kind))))
def execFence (f : FenceF) (d : Opd) (s : State) : Out := lift (fenceG f d) s

/-- FENCE_COMPLETION: D receives 0, or FAIL with the first failed peer; an S-form unit goes on. -/
def fenceCompletionG (id : Nat) (m : Mach) : Mach :=
  match reqOf m id with
  | none => m
  | some r =>
    let gated := match r.who with | .unit u _ => !isShepherd u && !running m r.past | _ => false
    if !isFence r || !posReady m r || gated || m.mem.reqs.any (fenceWaits m r) then m
    else
      let v := match r.granted with | some (p, _) => 2 ^ 63 + p | none => 0
      let m1 := finish m id v
      match r.who with
      | .unit u w => resumeWord m1 u w
      | _ => m1
def execFenceCompletion (id : Nat) (s : State) : Out := lift (fenceCompletionG id) s

/-! ## Translation events (R194, R195) -/

/-- The virtual address that a request translates first. -/
def reqVa (r : Req) : Option Nat :=
  match reqPlace r with
  | some (.virt va, _, _) => some va
  | some (.hand _ _ hv i, n, _) => if 1 ≤ hType hv ∧ hType hv ≤ 4 ∨ hType hv = 7 then some (hBase hv + i * n) else none
  | _ => none

/-- TLBs that an access of an actor fills (R195). -/
def tlbKeys : Actor → List Nat
  | .pe core .. => [core, 1000 + clusterOf core]
  | .unit u _ => [1000 + unitCluster u 0]
  | .idle => []

/-- PAGE_WALK: the walk of a request finishes. The request keeps the translation until it is performed (R198) and the
TLBs hold it; a walk that meets a fault keeps nothing. -/
def pageWalkG (id : Nat) (m : Mach) : Mach :=
  match reqOf m id with
  | none => m
  | some r =>
    match reqVa r with
    | none => m
    | some va =>
      if r.done || r.xlat.isSome || 2 ^ 56 ≤ va then m
      else
        let shep := isShepActor r.who
        let asid := tlbTag shep (pastOf m r.past).asid
        match walk m shep (pastOf m r.past).xroot va with
        | .error _ => m
        | .ok e =>
          let base := va / pteSize e * pteSize e
          let m1 := (tlbKeys r.who).foldl (fun m k =>
            { m with mem.tlb := tset k ((⟨asid, base, pteSize e, e⟩ :: tget [] k m.mem.tlb).take (if k < 1000 then 64 else 4096)) m.mem.tlb }) m
          modReq m1 id (fun x => { x with xlat := some (base, e) })
def execPageWalk (id : Nat) (s : State) : Out := lift (pageWalkG id) s

/-- DECODE_TRAP (R87): the result of a tile that halts with it leaves (R269). -/
def execDecodeTrap (unit : Nat) (s : State) : Out := lift (fun m => flush (decodeTrapG unit m)) s

end Sys2Proof.Machine
end

