-- ==== Sys2Proof/Machine/Sync.lean ====
section
/-! DEFINITION. Atomic and synchronisation instructions, class 0x7_, and the synchronisation engine (R222-R243), with the
engine's side of append pages (R214-R217) and the scratchpad form of WAITA (R267). -/
namespace Sys2Proof.Machine

/-! ## Instructions: each makes a request to the engine -/

/-- An operation whose address is misaligned (R227): poison BOUNDS in a PE, trap 0x06 in an S-form unit. -/
def syncIssue (m : Mach) (dst : Dst) (op : ReqOp) (ea al sc : Nat) (acq rel : Bool) : Mach :=
  let r := mkReq m dst op sc acq rel
  if ea % al = 0 then
    addReq m { r with pend := match m.cur, op with
      | .unit .., .waita .. => true | .unit .., .mwait => true | .unit .., .waitc .. => true
      | .unit .., .futr .. => true | .unit .., .bar .. => true | _, _ => false }
  else match m.cur with
    | .unit u w => trapForm m u w 0x06 0
    | _ => failReq (addReq m r) r 0x08 (bits ea 0 56) []

/-- AMO (R229). -/
def amoG (f : AmoF) (d a b : Opd) : Mach → Mach :=
  memStart [a, b] [d] [] (poisonNow d (.amo f.op 0 0 true)) (fun vs m =>
    let n := AmoOp.bytes f.op
    let ea := natAt vs 0 % 2 ^ 64
    syncIssue m (dstOf m d false) (.amo f.op ea (natAt vs 1 % 256 ^ n) true) ea n f.scope.code true true)
def execAmo (f : AmoF) (d a b : Opd) (s : State) : Out := lift (amoG f d a b) s

/-- The poison step of RED and ARRIVE: a record, and poison on D or the trap. -/
def poisonAck (d : Opd) (op : ReqOp) (v : Val) (m : Mach) : Mach :=
  match ackOf m d with
  | .drop => poisonSink m m.cur v
  | dst => resultNow m dst op (tokOf v)

/-- RED (R229). -/
def redG (f : AmoF) (d a b : Opd) : Mach → Mach :=
  memStart [a, b] [] [] (poisonAck d (.amo f.op 0 0 false)) (fun vs m =>
    let n := AmoOp.bytes f.op
    let ea := natAt vs 0 % 2 ^ 64
    syncIssue m (ackOf m d) (.amo f.op ea (natAt vs 1 % 256 ^ n) false) ea n f.scope.code false true)
def execRed (f : AmoF) (d a b : Opd) (s : State) : Out := lift (redG f d a b) s

/-- CAS (R230): `.bit` is w8. -/
def casG (f : ScBF) (d a b : Opd) (m : Mach) : Mach :=
  let n := if f.bit then 8 else 4
  let x := if f.bit then wideVal m b else (srcVal m .whole b).pay.toNat
  memStart [a, b] [d] (pairReg m f.bit b) (poisonNow d (.cas 0 n 0 0)) (fun vs m =>
    let ea := natAt vs 0 % 2 ^ 64
    syncIssue m (dstOf m d false) (.cas ea n (bits x 0 (8 * n)) (bits x (8 * n) (8 * n))) ea n f.scope.code true true) m
def execCas (f : ScBF) (d a b : Opd) (s : State) : Out := lift (casG f d a b) s

/-- WAITA (R232, R267). The scratchpad form is performed at cluster scope at most. -/
def waitaG (f : WaitaF) (d a b : Opd) : Mach → Mach :=
  let n := if f.w8 then 8 else 4
  memStart [a, b] [d] [] (poisonNow d (.waita 0 n f.cond 0)) (fun vs m =>
    let ea := natAt vs 0 % 2 ^ 64
    let sc := if ea / 2 ^ 56 = 0xFF ∧ 3 < f.scope.code then 3 else f.scope.code
    syncIssue m (dstOf m d false) (.waita ea n f.cond (natAt vs 1 % 256 ^ n)) ea n sc true false)
def execWaita (f : WaitaF) (d a b : Opd) (s : State) : Out := lift (waitaG f d a b) s

/-- MON (R233). -/
def monG (f : ScF) (a : Opd) : Mach → Mach :=
  memStart [a] [] [] (fun v m => poisonSink m m.cur v) (fun vs m =>
    syncIssue m .drop (.mon (natAt vs 0 % 2 ^ 64)) 0 1 f.scope.code false false)
def execMon (f : ScF) (a : Opd) (s : State) : Out := lift (monG f a) s

/-- MWAIT (R233). -/
def mwaitG (f : ScF) (d : Opd) : Mach → Mach :=
  memStart [] [d] [] (fun _ m => m) (fun _ m => syncIssue m (dstOf m d false) .mwait 0 1 f.scope.code true false)
def execMwait (f : ScF) (d : Opd) (s : State) : Out := lift (mwaitG f d) s

/-- ARRIVE (R236). -/
def arriveG (f : ScF) (d a b : Opd) : Mach → Mach :=
  memStart [a, b] [] [] (poisonAck d (.arrive 0 0)) (fun vs m =>
    let ea := natAt vs 0 % 2 ^ 64
    syncIssue m (ackOf m d) (.arrive ea (natAt vs 1 % 2 ^ 32)) ea 8 f.scope.code false true)
def execArrive (f : ScF) (d a b : Opd) (s : State) : Out := lift (arriveG f d a b) s

/-- WAITC (R236): `.bit` is `.sub`. -/
def waitcG (f : ScBF) (d a b : Opd) : Mach → Mach :=
  memStart [a, b] [d] [] (poisonNow d (.waitc 0 0 f.bit)) (fun vs m =>
    let ea := natAt vs 0 % 2 ^ 64
    syncIssue m (dstOf m d false) (.waitc ea (natAt vs 1 % 2 ^ 32) f.bit) ea 8 f.scope.code true false)
def execWaitc (f : ScBF) (d a b : Opd) (s : State) : Out := lift (waitcG f d a b) s

/-- FUTW (R238). -/
def futwG (f : ScF) (d a b : Opd) : Mach → Mach :=
  memStart [a, b] [d] [] (poisonNow d (.futw 0 0)) (fun vs m =>
    let ea := natAt vs 0 % 2 ^ 64
    syncIssue m (dstOf m d false) (.futw ea (natAt vs 1 % 2 ^ 64)) ea 16 f.scope.code false true)
def execFutw (f : ScF) (d a b : Opd) (s : State) : Out := lift (futwG f d a b) s

/-- FUTR (R238). -/
def futrG (f : ScF) (d a : Opd) : Mach → Mach :=
  memStart [a] [d] [] (poisonNow d (.futr 0)) (fun vs m =>
    let ea := natAt vs 0 % 2 ^ 64
    syncIssue m (dstOf m d false) (.futr ea) ea 16 f.scope.code true false)
def execFutr (f : ScF) (d a : Opd) (s : State) : Out := lift (futrG f d a) s

/-- WCLASS rises to the firing member's effective class as its BAR fires (R240). -/
def raiseWclass (m : Mach) (g : Nat) : Mach :=
  match m.cur with
  | .pe core _ frame _ bank _ =>
    let k := pastOfActor m m.cur * 256 + g
    (match tfind k m.sync.groups with
     | some x =>
       if x.members.contains (ctxKey core frame bank) then
         { m with sync.groups := tset k { x with wclass := max x.wclass (effClass m core (frame * 4 + bank)) } m.sync.groups }
       else m
     | none => m)
  | _ => m

/-- BAR (R239). -/
def barG (f : ScF) (d : Opd) (g : Nat) : Mach → Mach :=
  memStart [] [d] [] (fun _ m => m) (fun _ m =>
    syncIssue (raiseWclass m g) (dstOf m d false) (.bar g) 0 1 f.scope.code true true)
def execBar (f : ScF) (d : Opd) (a : Fin 256) (s : State) : Out := lift (barG f d a.val) s

/-- BARA (R239): arrives and does not wait. -/
def baraG (f : ScF) (g : Nat) : Mach → Mach :=
  memStart [] [] [] (fun _ m => m) (fun _ m => addReq m (mkReq m .drop (.bar g) f.scope.code false true))
def execBara (f : ScF) (a : Fin 256) (s : State) : Out := lift (baraG f a.val) s

/-- PRIO (R241). -/
def prioG (a : Opd) (m : Mach) : Mach :=
  match m.cur with
  | .pe core _ frame _ bank _ =>
    memStart [a] [] [] (fun v m => poisonSink m m.cur v) (fun vs m =>
      { m with pe.prio := tput 0 (ctxKey core frame bank) (capClass m (pastOfActor m m.cur) (natAt vs 0 % 4)) m.pe.prio }) m
  | _ => m
def execPrio (a : Opd) (s : State) : Out := lift (prioG a) s

/-! ## What the engine computes -/

/-- The new value of AMO and RED (R228). -/
def amoNew (op : AmoOp) (old b : Nat) : Nat :=
  match op with
  | .add4 => (old + b) % 2 ^ 32
  | .add8 => (old + b) % 2 ^ 64
  | .min4 => if sgn 32 old ≤ sgn 32 b then old else b
  | .max4 => if sgn 32 b ≤ sgn 32 old then old else b
  | .minn4 => min old b
  | .maxn4 => max old b
  | .minn8 => min old b
  | .maxn8 => max old b
  | .and8 => old &&& b
  | .or8 => old ||| b
  | .xor8 => old ^^^ b
  | .swap4 => b
  | .swap8 => b
  | .fadd4 => (fadd32 old b .rne false).1
  | .fmin4 => (minMaxNum .f32 false old b).1
  | .fmax4 => (minMaxNum .f32 true old b).1

/-- The barrier object after `c` arrivals: ARRIVALS saturates (R235, R236). -/
def arriveVal (old c : Nat) : Nat := old / 2 ^ 32 * 2 ^ 32 + min (old % 2 ^ 32 + c) (2 ^ 32 - 1)

/-- The result of CAS (R230): a PE also gets the success bit. -/
def casRes (who : Actor) (old : Nat) (ok : Bool) : Nat :=
  match who with
  | .pe .. => old + (if ok then 2 ^ 64 else 0)
  | _ => old

/-- The die whose engine serves a local address (R222). -/
def engineDie (pa : Nat) : Nat := pa / 256 % 8 / 2
/-- Failure count and reservation after a CAS, at the engine of the word's die (R231). Words are address x 16 + width. -/
def casCount (m : Mach) (code word : Nat) (ok : Bool) : Mach :=
  let m0 := if tfind word m.sync.resv = some code then { m with sync.resv := tdel word m.sync.resv } else m
  let k := code * 4 + engineDie (word / 16)
  if ok then { m0 with sync.cas := tdel k m0.sync.cas }
  else
    let c := match tfind k m0.sync.cas with | some (c, w) => if w = word then c + 1 else 1 | none => 1
    let m1 := { m0 with sync.cas := tset k (c, word) m0.sync.cas }
    if 4 ≤ c ∧ !thas word m1.sync.resv then { m1 with sync.resv := tset word code m1.sync.resv } else m1

/-! ## Append pages at the engine (R214-R217) -/

/-- Whether the engine can serve a page: its record exists or one can be created (R224). -/
def appRoom (m : Mach) (pg : Nat) : Bool := thas pg m.mem.apps || m.mem.apps.length < 262144

/-- APPEND: the page after it and the result (R215). -/
def appendAt (m : Mach) (r : Req) (pg n data : Nat) : Mach × Nat :=
  let x := appOf m r pg
  let t := (x.tail + n - 1) / n * n
  if 65536 < t + n then ({ m with mem.apps := tset pg x m.mem.apps }, 2 ^ 63 + x.tail)
  else
    (writeLocs { m with mem.apps := tset pg { x with tail := t + n } m.mem.apps } (appendLocs m r pg n)
      (List.replicate (t - x.tail) 0 ++ bytesOf data n), t)

/-- The slot that PUBL writes: the lowest invalid one, else the one with the smallest VERSION. -/
def publSlot (x : AppRec) : Nat :=
  match (upto 8).find? (fun i => !thas i x.slots) with
  | some i => i
  | none =>
    let v := fun i => (tget (0, 0) i x.slots).1
    (upto 8).foldl (fun a i => if v i < v a then i else a) 0

/-- PUBL (R216). A failed PUBL has no slot and frontier to give: free values (log 34). -/
def publAt (m : Mach) (r : Req) (pg ver : Nat) (rst : Bool) : Mach × Nat :=
  let x := appOf m r pg
  if rst then ({ m with mem.apps := tset pg { x with tail := 0, slots := [] } m.mem.apps }, 0)
  else if x.slots.all (fun e => e.2.1 < ver) then
    let i := publSlot x
    ({ m with mem.apps := tset pg { x with slots := tset i (ver, x.tail) x.slots } m.mem.apps }, i * 2 ^ 32 + x.tail)
  else ({ m with mem.apps := tset pg x m.mem.apps, free := m.free + 1 },
    2 ^ 63 + Config.freeSlot m.free % 8 * 2 ^ 32 + Config.freeSlot m.free / 8 % 2 ^ 17)

/-- The answer to SNAP: FRONTIER [16:0], SLOT [34:32], STALE [35] (R217). A stale snapshot has no slot and frontier: free
values (log 34). -/
def snapOf (m : Mach) (r : Req) (pg ver : Nat) : Mach × Nat :=
  let x := appOf m r pg
  let m1 := { m with mem.apps := tset pg x m.mem.apps }
  match (upto 8).find? (fun i => match tfind i x.slots with | some y => y.1 == ver | none => false) with
  | some i => (m1, i * 2 ^ 32 + (tget (0, 0) i x.slots).2)
  | none => ({ m1 with free := m1.free + 1 },
    2 ^ 35 + Config.freeSlot m.free % 8 * 2 ^ 32 + Config.freeSlot m.free / 8 % 2 ^ 17)

/-- The handle image that SNAP leaves. -/
def snapImage (page ver v : Nat) : BitVec 256 :=
  BitVec.ofNat 256 ((bits v 32 4 * 2 ^ 32 + ver % 2 ^ 32) * 2 ^ 128 + bits v 0 17 * 2 ^ 64 + 7 * 2 ^ 60
    + bits page 16 40 * 65536)

def doneSnap (m : Mach) (r : Req) (owner h page ver v : Nat) : Mach :=
  resolveHand (delReq m r.id) r.past owner h r.id (snapImage page ver v)
/-- A failed SNAP leaves TYPE 0 and a record; in S-form it then traps (R217). -/
def failSnap (m : Mach) (r : Req) (owner h cause detail : Nat) (ls : List Loc) : Mach :=
  match r.who with
  | .pe .. => resolveHand (faultRec (delReq m r.id) r.past r.who (accRec r cause detail ls)) r.past owner h r.id 0
  | _ => failS (resolveHand m r.past owner h r.id 0) r cause detail ls

/-! ## Group barriers (R239) -/

/-- A BAR that waits in the current phase of its group, by its context (R30). -/
def waitsAtBar (p g : Nat) (r : Req) : Option Nat :=
  match r.op, r.who with
  | .bar h, .pe core _ frame _ bank _ => if h = g ∧ r.past = p ∧ r.dst != .drop ∧ !r.done then some (ctxKey core frame bank) else none
  | _, _ => none
/-- WCLASS of each group is at least the effective class of every member that waits at its BAR (R30, R240). -/
def raiseAll (m : Mach) : Mach :=
  { m with sync.groups := m.sync.groups.map (fun e =>
      let cs := (m.mem.reqs.filterMap (waitsAtBar (e.1 / 256) (e.1 % 256))).filter e.2.members.contains
      (e.1, { e.2 with wclass := cs.foldl (fun a c => max a (effClass m (c / 8) (c % 8))) e.2.wclass })) }
/-- A class that rises in one group may raise that of a member that waits in another. -/
def settleClassN : Nat → Mach → Mach
  | 0, m => m
  | n + 1, m => let m1 := raiseAll m; if m1.sync.groups == m.sync.groups then m else settleClassN n m1
/-- The classes of waiting members as they stand after a step (R240). -/
def settleClasses (m : Mach) : Mach :=
  if m.mem.reqs.any (fun r => match r.op with | .bar _ => !r.done | _ => false) then settleClassN (4 * m.sync.groups.length + 1) m else m

/-- A phase completes in one step: every waiting BAR of the group delivers the new PHASE. -/
def completePhase (m : Mach) (k : Nat) (x : Group) : Mach :=
  let ph := (x.phase + 1) % 65536
  let m1 := { m with sync.groups := tset k { x with arrived := [], phase := ph, wclass := 0 } m.sync.groups }
  { m1 with mem.reqs := m1.mem.reqs.map (fun r =>
      match r.op with
      | .bar g => if r.past * 256 + g = k ∧ r.granted.isSome ∧ !r.done then { r with done := true, res := some [tokNat ph] } else r
      | _ => r) }

/-- An arrival at group g of a pasture. -/
def arriveGroup (m : Mach) (k ctx : Nat) : Mach :=
  match tfind k m.sync.groups with
  | none => m
  | some x =>
    if !x.members.contains ctx || x.arrived.contains ctx then m
    else
      let y := { x with arrived := ctx :: x.arrived }
      if y.arrived.length = y.members.length then completePhase m k y
      else { m with sync.groups := tset k y m.sync.groups }

/-- BAR and BARA at the group's engine: a BAR registers and waits, and the context arrives. -/
def serveBar (m : Mach) (r : Req) (g : Nat) : Mach :=
  let k := r.past * 256 + g
  let ctx := match r.who with | .pe core _ frame _ bank _ => ctxKey core frame bank | _ => 6144
  let x := tget Group.reset k m.sync.groups
  if x.members.isEmpty then finish m r.id x.phase
  else if r.dst == .drop then flush (arriveGroup (delReq m r.id) k ctx)
  else flush (arriveGroup (modReq m r.id (fun q => { q with granted := some (0, 0) })) k ctx)

/-! ## Service (R222-R225) -/

/-- An operation that waits for a condition enters the queue of its word, behind those that wait there (R223, R236). -/
def register (m : Mach) (r : Req) (a : Nat) : Mach :=
  wake (modReq { m with ids := m.ids + 1 } r.id (fun q => { q with granted := some (a, m.ids) }))

/-- The virtual address of the append page that an operation names (log 92). -/
def pageVa (r : Req) : Nat := (recAddr r).1 / 65536 * 65536

/-- Serves an operation on the local line of `ls`: the effect of R228 to R238. -/
def serveLocal (m : Mach) (r : Req) (pa : Nat) (ls : List Loc) : Mach :=
  let wr := fun n v res => writeLocs (modReq m r.id (fun q => { q with done := true, res := some [tokNat res] })) (ls.take n) (bytesOf v n)
  match r.op with
  | .amo op _ b fetch =>
    let n := AmoOp.bytes op
    let old := memRead m.mem.hbm pa n
    wr n (amoNew op old b) (if fetch then old else 0)
  | .cas _ n old new =>
    let x := memRead m.mem.hbm pa n
    let ok := x == old
    let m1 := casCount m (ctxCode r.past r.who) (pa * 16 + n) ok
    if ok then writeLocs (modReq m1 r.id (fun q => { q with done := true, res := some [tokNat (casRes r.who x true)] })) ls (bytesOf new n)
    else finish m1 r.id (casRes r.who x false)
  | .arrive _ c => wr 8 (arriveVal (memRead m.mem.hbm pa 8) c) 0
  | .futw _ v =>
    if bitAt (memRead m.mem.hbm pa 16) 64 then finish m r.id (2 ^ 63)
    else wr 16 (memRead m.mem.hbm pa 16 / 2 ^ 65 * 2 ^ 65 + 2 ^ 64 + v) 0
  | .mon _ => flush (delReq { m with sync.mons := tset (ctxCode r.past r.who) ⟨pa / 64, false, false⟩ m.sync.mons } r.id)
  | .append _ n data =>
    if appRoom m (pa / 65536) then (let x := appendAt m r (pa / 65536) n data; finish x.1 r.id x.2)
    else failReq m r 0x08 (pageVa r) ls
  | .publ _ ver rst =>
    if appRoom m (pa / 65536) then (let x := publAt m r (pa / 65536) ver rst; finish x.1 r.id x.2)
    else failReq m r 0x08 (pageVa r) ls
  | .snap owner h page ver =>
    if appRoom m (pa / 65536) then (let x := snapOf m r (pa / 65536) ver; doneSnap x.1 r owner h page ver x.2)
    else failSnap m r owner h 0x08 (pageVa r) ls
  | _ => register m r pa

def failSync (m : Mach) (r : Req) (cause detail : Nat) (ls : List Loc) : Mach :=
  match r.op with
  | .snap owner h _ _ => failSnap m r owner h cause detail ls
  | _ => failReq m r cause detail ls

/-- The answer of an engine on another package: the result; its effect is that package's. -/
def serveRemote (m : Mach) (r : Req) (l : Loc) (v : Nat) : Mach :=
  match r.op, l with
  | .snap owner h page ver, _ => doneSnap m r owner h page ver v
  | .mon _, .peer p pa _ =>
    flush (delReq { m with sync.mons := tset (ctxCode r.past r.who) ⟨2 ^ 60 + p * 2 ^ 46 + pa / 64, false, false⟩ m.sync.mons } r.id)
  | .waita .., _ => finish m r.id v
  | .cas .., _ => finish m r.id v
  | .amo _ _ _ fetch, _ => finish m r.id (if fetch then v else 0)
  | .arrive .., _ => finish m r.id 0
  | _, _ => finish m r.id v

/-- The scratchpad form of WAITA is served by the interface of the word's core (R267). -/
def serveScratch (m : Mach) (r : Req) (sa n : Nat) : Mach :=
  match scratchLocs m r.who r.past sa n with
  | .error (c, d) => failReq m r c d []
  | .ok ls =>
    match locsFault m r.who ls, ls.head? with
    | some (c, d), _ => failReq m r c d ls
    | none, some (.spad k) => register m r (2 ^ 60 + k)
    | _, _ => m

/-- MWAIT (R233): it finds the latest earlier MON of its chain. The monitor is the context's (R234): none is found while the
pasture is away. A monitor of a line of another package fires as its engine answers. -/
def serveMwait (m : Mach) (r : Req) (ans : Answer) : Mach :=
  let code := ctxCode r.past r.who
  if (!isShepActor r.who && !running m r.past) || m.mem.reqs.any (fun q => (match q.op with | .mon _ => true | _ => false) && chainBefore r q) then m
  else match tfind code m.sync.mons with
    | none => if r.granted.isSome then m else finish m r.id 2
    | some mo =>
      match ans with
      | .data _ =>
        if 2 ^ 60 ≤ mo.line then
          wake (modReq { m with sync.mons := tset code { mo with fired := true } m.sync.mons } r.id (fun q => { q with granted := some (0, 0) }))
        else m
      | .perform => wake (modReq m r.id (fun q => { q with granted := some (0, 0) }))
      | .fail .. => m

/-- An operation that waits for a condition: the engine of another package answers that it has registered it, and it no longer
times out (R227). -/
def waitsThere (r : Req) : Bool := match r.op with | .waita .. => true | .waitc .. => true | .futr .. => true | _ => false

/-- The failure of an operation whose places are `ls`, and whose bytes are `at'`, before it is served. One on an append page of this
package reads none of its bytes: only a degraded pseudo-channel or a poisoned line makes its write fail (R215, R216, R225). -/
def serveFault (m : Mach) (r : Req) (ls at' : List Loc) : Option (Nat × Nat) :=
  if isPageOp r && !ls.any isOutside then (lineFault m at').orElse (fun _ => faultR m r true at') else faultR m r false ls

/-- An operation by virtual address: translation, then the engine that R222 names. -/
def serveVirt (m : Mach) (r : Req) (ea n : Nat) (k : AccK) (ans : Answer) : Mach :=
  let base := if isPageOp r then ea / 65536 * 65536 else ea
  match virtR m r base n k with
  | .error (c, d) => failSync m r c d []
  | .ok ls =>
    let at' := if isPageOp r then pageLocs m r else ls
    match serveFault m r ls at', ls.head? with
    | some (c, d), _ => failSync m r c d ls
    | none, some (.hbm pa) =>
      (match ans with
       | .perform => if modifies r && !waitsThere r && heldByResv m (ctxCode r.past r.who) at' then m else serveLocal m r pa ls
       | .fail c d =>
         (match decide (c = 0x01), at'.head? with
          | true, some (.hbm a) => wake (failSync { m with sync.bad := tset (a / 64) (upto 64) m.sync.bad } r 0x01 (a / 64 * 64) ls)
          | _, _ => if c = 0x07 ∧ failOk r ls 0x07 d.toNat then failSync m r 0x07 d.toNat ls else m)
       | .data _ => m)
    | none, some l =>
      (match ans with
       | .data v => if isOutside l then serveRemote (countMove m r) r l v.toNat else m
       | .fail c d =>
         if c = 0 then discarded m r ls (fun p => failSync m r 0x09 p ls)
         else if failOk r ls c.toNat d.toNat then failSync m r c.toNat d.toNat ls else m
       | .perform => if isOutside l && waitsThere r then modReq m r.id (fun q => { q with granted := some (2 ^ 61, 0) }) else m)
    | _, _ => m

/-- A BAR that its engine has registered. -/
def barWaits (q : Req) : Bool := q.granted.isSome && (match q.op with | .bar _ => true | _ => false)

/-- SYNC_ENGINE_SERVICE (R223): one operation in its turn. Operations that wait for a condition are served once. -/
def syncServiceG (id : Nat) (ans : Answer) (m : Mach) : Mach :=
  match reqOf m id with
  | none => m
  | some r =>
    match r.op with
    | .mwait => if mayPerform m r then serveMwait m r ans else m
    | .bar g => if mayPerform m r && r.granted.isNone && !m.mem.reqs.any (fun q => isAcc q && !q.done && !barWaits q && actBefore r q) then serveBar m r g else m
    | .mon ea => if mayPerform m r then serveVirt m r ea 1 .atomR ans else m
    | .load .. => m
    | .store .. => m
    | .ramo .. => m
    | _ =>
      match reqPlace r with
      | some (.virt ea, n, k) =>
        let mayServe := match r.granted with
          | none => true
          | some (a, _) => a == 2 ^ 61 && (match ans with | .perform => false | _ => true)
        if mayPerform m r && mayServe then serveVirt m r ea (if isPageOp r then 1 else n) k ans else m
      | some (.scratch sa, n, _) => if mayPerform m r && r.granted.isNone then serveScratch m r sa n else m
      | _ => m
def execSyncEngineService (id : Nat) (ans : Answer) (s : State) : Out := lift (syncServiceG id ans) s

/-- RESERVATION_LAPSE (R231): the reservation of a word (address x 16 + width) ends; the count stays. -/
def execReservationLapse (word : Nat) (s : State) : Out := lift (fun m => { m with sync.resv := tdel word m.sync.resv }) s

/-! ## Timeouts and failed peers (R257, R258) -/

/-- The places at which a request awaits an answer; a MON awaits its line's engine (R233), a walk those of its next token, a prefetch its
lines and its barrier object. -/
def awaited (m : Mach) (r : Req) : List Loc :=
  match r.op with
  | .mon ea => (match virtR m r ea 1 .atomR with | .ok ls => ls | .error _ => [])
  | _ => nextLocs m r

/-- The peer that an access's target is on. -/
def peerOfReq (m : Mach) (r : Req) : Option Nat :=
  (awaited m r).findSome? (fun l => match l with | .peer p _ _ => some p | _ => none)

/-- The die of an actor; hub units belong to none (R245). -/
def dieOf (m : Mach) : Actor → Option Nat
  | .pe core .. => some (core / 192)
  | .unit u w => if u < 272 then some (clOfActor m (.unit u w) / 4) else if u < 336 then some ((u - 272) / 8 / 2) else none
  | .idle => none

/-- The scope of an access: its own, or WBIND's through a window (R218); `.stage` is package scope here (R226). -/
def ownScope (m : Mach) (r : Req) : Nat :=
  let sc := match reqPlace r with
    | some (.hand _ _ hv _, _, _) =>
      (match hType hv, tfind (r.past * 16 + bits (hAux0 hv) 0 4) m.mem.windows with
       | 6, some w => w.scope
       | _, _ => r.scope)
    | _ => r.scope
  if sc = 10 then 5 else sc

/-- The smallest scope that contains an actor and what serves a place (R227, R245); an actor's scratchpad serves it at any. -/
def serverScope (m : Mach) (who : Actor) : Loc → Nat
  | .hbm pa => if dieOf m who = some (engineDie pa) then 4 else 5
  | .peer p _ _ => if p / 64 = m.host.peer / 64 then 6 else 7
  | .host t _ => if t = 0 then 8 else 9
  | _ => 0
/-- The scope whose timeout governs a request: the larger of its own and the smallest that contains issuer and server (R227,
R257). -/
def timeScope (m : Mach) (r : Req) : Nat :=
  match (awaited m r).head? with
  | some l => max (ownScope m r) (serverScope m r.who l)
  | none => ownScope m r

/-- Requests that time out as a whole: those that await an answer, not those that wait for a condition (R227). Each read of a walk, each
unit of a copy or a prefetch and the barrier object of a prefetch time out by themselves, in the events that complete them. -/
def timesOut (r : Req) : Bool :=
  ((reqPlace r).isSome || (match r.op with | .mon _ => true | .keyi .. => true | _ => false)) && r.granted.isNone

/-- What an unanswered request fails with (R257): PEER_FAIL and the peer, or SCOPE_TIMEOUT and the scope code. -/
def timeoutFault (m : Mach) (r : Req) : Nat × Nat :=
  let sc := timeScope m r
  match peerOfReq m r, (awaited m r).findSome? (fun l => match l with | .host t _ => if 1 ≤ t then some t else none | _ => none) with
  | some p, _ => if 6 ≤ sc then (0x09, p) else (0x0C, 2 * sc)
  | none, some t => if 8 ≤ sc then (0x09, t) else (0x0C, 2 * sc)
  | none, none => (0x0C, 2 * sc)

/-- SCOPE_TIMEOUT. -/
def scopeTimeoutG (id : Nat) (m : Mach) : Mach :=
  match reqOf m id with
  | none => m
  | some r =>
    if !timesOut r || !mayIssue m r then m
    else
      let x := timeoutFault m r
      failSync m r x.1 x.2 (awaited m r)
def execScopeTimeout (id : Nat) (s : State) : Out := lift (scopeTimeoutG id) s

/-- Requests of a pasture that still owe an acknowledgement of a peer. -/
def owing (m : Mach) (p peer : Nat) : List Req :=
  m.mem.reqs.filter (fun r => r.past == p && !r.done && r.hwait.isNone && posReady m r && peerOfReq m r == some peer)

/-- A fence notes the peer whose oldest unacknowledged access was issued first, the lower number on a tie. -/
def noteFailed (peer : Nat) (os : List Req) (m : Mach) (f : Req) : Mach :=
  let ws := fenceList m f
  let old := ((os.filter (fenceWaits m f)).map (fun q => ws.findIdx (· == q.id))).foldl min ws.length
  if old = ws.length then m
  else modReq m f.id (fun x => { x with granted := match x.granted with
    | some (q, i) => if i < old ∨ (i = old ∧ q ≤ peer) then some (q, i) else some (peer, old)
    | none => some (peer, old) })
/-- A package is failed for a pasture. -/
def addFailed (m : Mach) (p peer : Nat) : Mach :=
  { m with fab.failed := if m.fab.failed.contains (p * 512 + peer) then m.fab.failed else (p * 512 + peer) :: m.fab.failed }

/-- PEER_FAILURE (R258): FTO passes for a fence whose earlier accesses a package has not acknowledged: it is failed for the
pasture, its accesses fail (those of a walk or a prefetch as they come to their next read), the home shepherd core gets cause 0x13, once for each failed peer, and the fence notes the peer. -/
def peerFailureG (p peer : Nat) (m0 : Mach) : Mach :=
  let m := markFences m0
  let os := owing m p peer
  let fences := m.mem.reqs.filter (fun r => r.past == p && isFence r && posReady m r && os.any (fun q => fenceWaits m r q))
  if fences.isEmpty then m0
  else
    let m1 := addFailed (fences.foldl (noteFailed peer os) m) p peer
    let m2 := os.foldl (fun m q => match reqOf m q.id with
      | some r => if timesOut r then failSync m r 0x09 peer (awaited m r) else m
      | none => m) m1
    if m.fab.failed.contains (p * 512 + peer) then m2 else raiseHome m2 p 0x13 peer
def execPeerFailure (past peer : Nat) (s : State) : Out := lift (peerFailureG past peer) s

/-! ## Accesses from outside (R197, R231, R244) -/

/-- An operation of another agent that reads and changes its word in one step, unless its line fails (R225), it is misaligned
(R227) or a reservation holds it back (R231): `new` gives the bytes that it writes, if any. -/
def outsideRmw (m : Mach) (code addr n : Nat) (new : Mach → Nat → Option Nat × Mach) : Mach :=
  let ls := (upto n).map (fun i => Loc.hbm (addr + i))
  if addr % n ≠ 0 ∨ 2 ^ 39 < addr + n ∨ heldByResv m code ls ∨ ls.any (fun l => (locFault m .idle l).isSome) then m
  else match new m (memRead m.mem.hbm addr n) with
    | (some v, m1) => writeLocs m1 ls (bytesOf v n)
    | (none, m1) => m1

/-- How many bytes an access of another agent names. -/
def outLen (acc : OutAccess) : Nat := match acc.op with | .amo op _ => AmoOp.bytes op | _ => acc.len
/-- Whether an access of another agent waits: its bank is reserved for another row (R275), its page is being moved (R406), or a
reservation holds the word that it changes (R231). -/
def outsideWaits (m : Mach) (acc : OutAccess) : Bool :=
  let ls := (upto (min 16 (outLen acc))).map (fun i => Loc.hbm (acc.addr + i))
  rowsHeld m ls || locsMoving m ls || (match acc.op with
    | .read => false
    | .cas ctx _ _ => heldByResv m (20 * 16384 + ctx) ls
    | _ => heldByResv m (18 * 16384) ls)
/-- What another agent does to local HBM: a read changes nothing here; a write is one write of the coherence order; a CAS counts
for its context (whose code is above those of this package), and an AMO or RED applies its operation. -/
def outsideAccess (m : Mach) (acc : OutAccess) : Mach :=
  if outsideWaits m acc then m else
  match acc.op with
  | .read => m
  | .write v =>
    let ls := (upto acc.len).map (fun i => Loc.hbm (acc.addr + i))
    if 16 < acc.len ∨ 2 ^ 39 < acc.addr + acc.len ∨ heldByResv m (18 * 16384) ls then m
    else storeLocs m ls (bytesOf v.toNat acc.len)
  | .cas ctx old new =>
    let code := 20 * 16384 + ctx
    if acc.len = 4 ∨ acc.len = 8 then
      outsideRmw m code acc.addr acc.len (fun m x =>
        let ok := x == old.toNat % 256 ^ acc.len
        (if ok then some (new.toNat % 256 ^ acc.len) else none, casCount m code (acc.addr * 16 + acc.len) ok))
    else m
  | .amo op b =>
    let n := AmoOp.bytes op
    outsideRmw m (18 * 16384) acc.addr n (fun m x => (some (amoNew op x (b.toNat % 256 ^ n)), m))

/-- The flits of a request of another package. -/
def outFlits (acc : OutAccess) : Nat := match acc.op with | .write _ => flitsOf acc.len | _ => 1
/-- PEER_REQUEST (R197): a request of another package whose flits a lit receive lane has brought into the fabric (R39, R448). -/
def peerRequestG (acc : OutAccess) (m : Mach) : Mach :=
  match tfind acc.lane m.fab.rx with
  | none => m
  | some l =>
    if m.host.phase = 0 ∨ l.came < outFlits acc ∨ outsideWaits m acc then m
    else outsideAccess { m with fab.rx := tset acc.lane { l with came := l.came - outFlits acc } m.fab.rx } acc
def execPeerRequest (acc : OutAccess) (s : State) : Out := lift (peerRequestG acc) s

/-- UALINK_PEER_ACCESS (R244): through a port that trained, while the module is not held (R448). -/
def execUalinkPeerAccess (acc : OutAccess) (s : State) : Out :=
  lift (fun m => if m.host.ports = 0 ∨ m.host.phase = 0 then m else outsideAccess m acc) s

end Sys2Proof.Machine
end

