-- ==== Sys2Proof/Machine/Copy.lean ====
section
/-! DEFINITION. Copy and stream instructions, class 0x8_, the copy engines, address-generator tiles, plinth nodes, bulk
streams and the rules of the HBM controllers (R259-R281), with the completion of loads and of PFT. -/
namespace Sys2Proof.Machine

/-! ## The patterns of copies (R261-R264) -/

/-- An endpoint of a copy: a scratchpad or a handle. -/
inductive End where
  | sp
  | hand (h : Nat) (hv : BitVec 256)
  deriving DecidableEq, Repr

/-- The (source offset, destination offset) of each byte, in pattern order; elements of COPYI need their indices. -/
def linPairs (s d n : Nat) : List (Int × Int) := (upto n).map (fun (j : Nat) => ((s + j : Nat), (d + j : Nat)))
/-- Bytes of a COPYA descriptor (R263). -/
def strPairs (s d x : Nat) : List (Int × Int) :=
  let n0 := bits x 0 32
  let n1 := bits x 32 16
  let n2 := bits x 48 16
  (upto n2).flatMap (fun (p : Nat) => (upto n1).flatMap (fun (r : Nat) => (upto n0).map (fun (c : Nat) =>
    ((s : Int) + p * sgn 32 (bits x 128 32) + r * sgn 32 (bits x 64 32) + c,
     (d : Int) + p * sgn 32 (bits x 160 32) + r * sgn 32 (bits x 96 32) + c))))
/-- Bytes of a COPYI descriptor with its indices (R264). -/
def idxPairs (s d x : Nat) (ix : List Nat) : List (Int × Int) :=
  let e := bits x 0 32
  let sct := bitAt x 128
  (upto ix.length).flatMap (fun i =>
    let k := (ix[i]?).getD 0
    linPairs (s + (if sct then i else k) * e) (d + (if sct then k else i) * e) e)

/-- The rules of a COPYA descriptor (R263), but for coinciding destinations, which `copyOk` finds by their places. -/
def strOk (x : Nat) : Bool :=
  let n0 := bits x 0 32
  let n1 := bits x 32 16
  let n2 := bits x 48 16
  decide (1 ≤ n0 ∧ n0 ≤ 2 ^ 20 ∧ 1 ≤ n1 ∧ 1 ≤ n2 ∧ n0 * n1 * n2 < 2 ^ 32) && bits x 192 64 == 0
/-- The rules of a COPYI descriptor (R264). -/
def idxOk (x : Nat) : Bool :=
  let e := bits x 0 32
  let c := bits x 32 32
  (upto 9).any (fun i => e == 2 ^ i) && decide (1 ≤ c ∧ c ≤ 2 ^ 24) && bits x 64 2 == 0 && bits x 96 32 == 0
    && bits x 129 127 == 0

/-- Reads a scratchpad word list; none when a place breaks R190. -/
def spRead (m : Mach) (r : Req) (sa n : Nat) : Option Nat :=
  match scratchLocs m r.who r.past sa n with | .ok ls => some (locsRead m ls) | .error _ => none
/-- The indices of a COPYI. -/
def idxList (m : Mach) (r : Req) (x : Nat) : Option (List Nat) :=
  (upto (bits x 32 32)).mapM (fun i => spRead m r (bits x 64 32 + 4 * i) 4)

/-- The pairs of a copy of a kind (0 COPY, 1 COPYA, 2 COPYI), or none where its pattern breaks the rules. -/
def copyPairs (m : Mach) (r : Req) (kind vec desc : Nat) : Option (List (Int × Int)) :=
  let d := bits vec 0 32
  let s := bits vec 32 32
  match kind with
  | 0 => if bits vec 64 32 = 0 then none else some (linPairs s d (bits vec 64 32))
  | 1 => if strOk desc then some (strPairs s d desc) else none
  | _ => if !idxOk desc || bits desc 64 32 % 4 != 0 then none else (idxList m r desc).map (idxPairs s d desc)

/-- The place of an offset at an endpoint. -/
def endLoc (m : Mach) (r : Req) (e : End) (o : Int) (k : AccK) : Except (Nat × Nat) Loc :=
  match e with
  | .sp => match scratchLocs m r.who r.past (wrapI 32 o) 1 with
    | .ok ls => (match ls.head? with | some l => .ok l | none => .error (0x08, 0))
    | .error x => .error x
  | .hand h hv =>
    if o < 0 ∨ (hBound hv : Int) ≤ o then .error (0x08, wrapI 56 (hBase hv + o) + h * 2 ^ 56)
    else if hType hv = 8 then
      let pa := bits (hAux0 hv) 0 52 + o.toNat
      if pa < 2 ^ 39 then .ok (.hbm pa) else .error (0x08, pa % 2 ^ 56 + h * 2 ^ 56)
    else byteLoc m r (hBase hv + o.toNat) k

/-- Whether a byte lies within its endpoint, as a copy is judged at issue. -/
def endIn (m : Mach) (r : Req) (e : End) (o : Int) : Bool :=
  match e with
  | .sp => decide (0 ≤ o) && (match scratchLocs m r.who r.past (wrapI 32 o) 1 with | .ok _ => decide (o < 2 ^ 32) | .error _ => false)
  | .hand _ hv => decide (0 ≤ o ∧ o < (hBound hv : Int))

/-- The address space and address of an offset, for extents: scratchpad, virtual or physical. -/
def endKey (m : Mach) (r : Req) (e : End) (o : Int) : Nat × Int :=
  match e with
  | .sp => (0, (match scratchCore (coreOfActor r.who) (clOfActor m r.who) (wrapI 32 o) with
      | some c => (c * 2 ^ 19 + bits (wrapI 32 o) 0 19 : Nat) | none => 0))
  | .hand _ hv => if hType hv = 8 then (2, bits (hAux0 hv) 0 52 + o) else (1, hBase hv + o)

/-- The bounding extent of addresses. -/
def extent (ks : List (Nat × Int)) : Option (Nat × Int × Int) :=
  match ks with
  | [] => none
  | x :: xs => some (x.1, (xs.map (·.2)).foldl min x.2, (xs.map (·.2)).foldl max x.2)
def extOverlap (a b : Option (Nat × Int × Int)) : Bool :=
  match a, b with
  | some x, some y => x.1 == y.1 && decide (x.2.1 ≤ y.2.2 ∧ y.2.1 ≤ x.2.2)
  | _, _ => false

structure CopyArgs where
  kind : Nat
  vec : Nat
  bw : Nat
  desc : Nat
  dst : End
  src : End
  hdN : Nat
  hsN : Nat
  deriving DecidableEq, Repr

def copyArgs (r : Req) : Option CopyArgs :=
  match r.op with
  | .copy k vec bw desc _ dN sN hd hs _ =>
    some ⟨k, vec, bw, desc, if bitAt bw 32 then .sp else .hand dN hd, if bitAt bw 33 then .sp else .hand sN hs, dN, sN⟩
  | _ => none

def endType (src : Bool) : End → Bool
  | .sp => true
  | .hand _ hv => (1 ≤ hType hv && hType hv ≤ 4) || hType hv == 8 || (src && hType hv == 7 && !bitAt (hAux0 hv) 35)

/-- Whether CW is a 4-byte aligned scratchpad word within the pasture's ranges. -/
def cwOk (m : Mach) (r : Req) (vec : Nat) : Bool :=
  let cw := bits vec 96 32
  cw % 4 == 0 && (match scratchLocs m r.who r.past cw 4 with | .ok _ => true | .error _ => false)

/-- The bounding extents of destination and source. -/
def copyExts (m : Mach) (r : Req) (a : CopyArgs) : Option (Nat × Int × Int) × Option (Nat × Int × Int) :=
  match copyPairs m r a.kind a.vec a.desc with
  | none => (none, none)
  | some ps => (extent (ps.map (fun x => endKey m r a.dst x.2)), extent (ps.map (fun x => endKey m r a.src x.1)))

/-- Whether a copy is admitted (R262). -/
def copyOk (m : Mach) (r : Req) (a : CopyArgs) : Bool :=
  cwOk m r a.vec && bits a.bw 34 30 == 0 && bits a.bw 0 32 != 0xFFFFFFFF && endType false a.dst && endType true a.src
    && (a.dst != .sp || a.hdN == 0) && (a.src != .sp || a.hsN == 0)
    && (match copyPairs m r a.kind a.vec a.desc with
        | none => false
        | some ps => ps.all (fun x => endIn m r a.src x.1 && endIn m r a.dst x.2)
            && (a.kind != 1 || (ps.map (fun x => endKey m r a.dst x.2)).dedup.length == ps.length))
    && (let e := copyExts m r a; !extOverlap e.1 e.2)

/-- The core whose engine serves a copy (R259). -/
def copyCore (m : Mach) (r : Req) (a : CopyArgs) : Nat :=
  match r.who with
  | .pe core .. => core
  | w =>
    let at' := fun sa => scratchCore none (clOfActor m w) sa
    let cores := coresOf m r.past
    let dflt := ((cores.find? (fun c => clusterOf c == clOfActor m w)).getD (cores.head?.getD 0))
    match (if a.dst = .sp then at' (bits a.vec 0 32) else if a.src = .sp then at' (bits a.vec 32 32) else some dflt) with
    | some c => c
    | none => dflt

def copyTicket (core gen slot : Nat) : Nat := core * 2 ^ 48 + gen * 2 ^ 32 + slot

/-- DETAIL of an offset of an endpoint (R79): its virtual or scratchpad address, and the handle number. -/
def endDetail (e : End) (o : Int) : Nat :=
  match e with
  | .sp => wrapI 32 o
  | .hand h hv => wrapI 56 ((if hType hv = 8 then (bits (hAux0 hv) 0 52 : Nat) else (hBase hv : Nat)) + o) + h % 16 * 2 ^ 56
/-- DETAIL of the BOUNDS fault of a refused copy (R79): the first byte, in pattern order, that lies outside its endpoint; else CW, where it
is that which breaks the rules; else the first byte of the destination. -/
def refuseDetail (m : Mach) (r : Req) (a : CopyArgs) : Nat :=
  let ps := (copyPairs m r a.kind a.vec a.desc).getD []
  match ps.find? (fun x => !endIn m r a.src x.1 || !endIn m r a.dst x.2) with
  | some x => if endIn m r a.src x.1 then endDetail a.dst x.2 else endDetail a.src x.1
  | none => if cwOk m r a.vec then endDetail a.dst (bits a.vec 0 32 : Nat) else bits a.vec 96 32
/-- A refused copy (R262): a BOUNDS record, a FAIL ticket that names no engine (log 81) and, where CW is valid, the failure value there. -/
def refuseCopy (m : Mach) (r : Req) (a : CopyArgs) : Mach :=
  let tk := 2 ^ 63 + 0x08
  let fr : FRec := ⟨BitVec.ofNat 128 (originReq r 0x08 (refuseDetail m r a)), false, 0, 3, 0x08, tk, 0⟩
  let m1 := faultRec (delReq m r.id) r.past r.who fr
  let m2 := match m1.mem.reqs.find? (fun q => match q.op with | .ticket i => i == r.id | _ => false) with
    | some t => finish m1 t.id tk
    | none => m1
  if cwOk m2 r a.vec then
    let w : Req := { r with id := m2.ids, dst := .drop, op := .store (.scratch (bits a.vec 96 32)) 4 0xFFFFFFFF, rel := true, hwait := none }
    addReq m2 w
  else m2

/-- Judges a copy as it is issued: an admitted one takes its place in the order of issue (R262, R265). -/
def judgeCopy (m : Mach) (r : Req) : Mach :=
  match copyArgs r, r.op with
  | some a, .copy k vec bw ds o dN sN hd hs _ =>
    let ds := if k = 0 then ds else (spRead m r (bits vec 64 32) 32).getD 0
    let okD := k == 0 || (bits vec 64 32 % 16 == 0 && (spRead m r (bits vec 64 32) 32).isSome)
    let r1 := { r with op := .copy k vec bw ds o dN sN hd hs true }
    if okD && copyOk m r1 { a with desc := ds } then setReq { m with copy.issued := m.copy.issued ++ [r.id] } r1 else refuseCopy m r { a with desc := ds }
  | _, _ => m

/-- COPY, COPYA and COPYI (R261, R262): the copy and the request for its ticket. It is issued, and judged, at once where nothing before it
in its chain holds it back (R201, R263). -/
def copyG (kind : Nat) (f : CopyF) (d a b : Opd) (m : Mach) : Mach :=
  let hN := f.hd.val
  let sN := f.hs.val
  if handStall m [hN, sN] then stall m
  else
    let vec := wideVal m a
    memStart [a, b] [d] (pairReg m true a) (poisonNow d (.ticket 0)) (fun vs m =>
      let hd := readHand m hN
      let hs := readHand m sN
      let bw := natAt vs 1 % 2 ^ 64
      let dNeed := !bitAt bw 32 && hd.2.isSome
      let wait := if !bitAt bw 33 && hs.2.isSome then hs.2 else if dNeed then hd.2 else none
      let hdv := if dNeed then 0 else hd.1
      let r := { mkReq m .drop (.copy kind (vec % 2 ^ 128) bw 0 (handOwner m.cur) hN sN hdv hs.1 false) 5 false true with hwait := wait }
      let m1 := addReq m r
      let m2 := addReq m1 { mkReq m1 (dstOf m d false) (.ticket r.id) 5 false false with pos := none }
      if wait.isSome || !copyIssues m2 r then m2 else judgeCopy m2 r) m
def execCopy (f : CopyF) (d a b : Opd) (s : State) : Out := lift (copyG 0 f d a b) s
def execCopya (f : CopyF) (d a b : Opd) (s : State) : Out := lift (copyG 1 f d a b) s
def execCopyi (f : CopyF) (d a b : Opd) (s : State) : Out := lift (copyG 2 f d a b) s

/-! ## Slots, completion and CQRY (R259, R262, R265, R266) -/

def slotOf (m : Mach) (core i : Nat) : CopySlot := tget CopySlot.reset (core * 128 + i) m.copy.slots
def setSlot (m : Mach) (core i : Nat) (x : CopySlot) : Mach :=
  { m with copy.slots := tput CopySlot.reset (core * 128 + i) x m.copy.slots }
/-- Slots of an engine that hold no copy. -/
def freeSlots (m : Mach) (core : Nat) : List Nat := (upto 96).filter (fun i => !(slotOf m core i).busy)

/-- A copy is judged and waits for a slot. -/
def waitsSlot (r : Req) : Bool :=
  match r.op with | .copy _ _ _ _ _ _ _ _ _ j => j && r.granted.isNone | _ => false

/-- The place of a judged copy in the order of issue (R265). -/
def issueTurn (m : Mach) (r : Req) : Nat := m.copy.issued.findIdx (· == r.id)
/-- A copy that has been issued and only waits for the SNAP of its handle (R206): what it touches is not known yet. -/
def copyPends (m : Mach) (q : Req) : Bool := unjudged q && q.hwait.isSome && copyIssues m q
/-- An issued copy comes before `r` on an engine: an earlier judged one, or one that waits for its handle. -/
def copyEarlier (m : Mach) (r q : Req) : Bool :=
  if unjudged q then copyPends m q && q.id < r.id else issueTurn m q < issueTurn m r
/-- A copy that waits in a memory interface that is gated or read out stays there (R423, R424), until HALT lets it run (R435). -/
def copyFrozen (m : Mach) (r : Req) : Bool :=
  let P := pastOf m r.past
  !isShepActor r.who && !halting m r.past && (P.gate.isSome || P.st == .shadowed || P.st == .saved)
/-- The engine of a core holds fault records for which the ring has no room: it stalls (R422). Such a record is of KIND 3 and names the
engine in its ticket. -/
def engineHeld (m : Mach) (core : Nat) : Bool :=
  m.sys.past.any (fun e => e.2.heldRecs.any (fun h => h.2.1 == .idle && h.1.kind == 3 && h.1.item != 0 && h.1.item / 2 ^ 48 == core))

/-- COPY_SLOT_GRANT (R259, R266): a copy that waited to be issued is judged as its turn in its chain comes (R201, R263), and the oldest
waiting copy of an engine gets a free slot, and its ticket is delivered. Which free slot is not stated: a free choice (log 9). -/
def copySlotGrantG (id : Nat) (m : Mach) : Mach :=
  match reqOf m id with
  | none => m
  | some r =>
    match r.op, copyArgs r with
    | .copy _ _ _ _ _ _ _ _ _ false, _ => if r.hwait.isNone && copyIssues m r then judgeCopy m r else m
    | .copy .., some a =>
      let core := copyCore m r a
      let older := m.mem.reqs.any (fun q => (waitsSlot q || copyPends m q) && q.id != id && copyEarlier m r q
        && (match copyArgs q with | some b => copyCore m q b == core | none => false))
      let fs := freeSlots m core
      if r.granted.isSome || older || copyFrozen m r || engineHeld m core then m
      else match fs[Config.freeSlot m.free % fs.length]? with
        | none => m
        | some i =>
          let g := ((slotOf m core i).gen + 1) % 65536
          let m1 := setSlot { m with free := m.free + 1 } core i ⟨g, true, 0, 0⟩
          let m2 := modReq m1 id (fun x => { x with granted := some (i, g) })
          match m2.mem.reqs.find? (fun q => match q.op with | .ticket t => t == id | _ => false) with
          | some t => finish m2 t.id (copyTicket core g i)
          | none => m2
    | _, _ => m
def execCopySlotGrant (id : Nat) (s : State) : Out := lift (copySlotGrantG id) s

/-- The outcome of one byte: its place and value, or the failing side, unit, cause and detail. -/
inductive ByteOut where
  | ok (l : Loc) (b : Byte)
  | bad (side unit cause detail : Nat)
  deriving DecidableEq, Repr

/-- Address of an offset's 64-byte unit. -/
def unitAddr (m : Mach) (r : Req) (e : End) (o : Int) : Nat := ((endKey m r e o).2.toNat) / 64

/-- The failure that the outside or a check code gives a byte of a 64-byte unit: its cause and DETAIL (R79). An entry of `bad` is
unit + 2^56 x cause + 2^64 x side, with side 1 for the destination and 2 for a prefetch's barrier object; no cause is E2E. -/
def unitFault (m : Mach) (r : Req) (bad : List Nat) (side unit : Nat) (l : Loc) : Option (Nat × Nat) :=
  let late := some (0x0C, 2 * max (if r.scope = 10 then 5 else r.scope) (serverScope m r.who l))
  bad.findSome? (fun b =>
    if b % 2 ^ 56 == unit && b / 2 ^ 64 == side then
      (match b / 2 ^ 56 % 256, l with
       | 0, _ => some (0x07, locPa l)
       | 0x07, _ => some (0x07, locPa l)
       | 0x01, _ => if side = 0 then some (0x01, locPa l / 64 * 64) else none
       | 0x09, .peer p _ _ => some (0x09, p)
       | 0x09, .host t _ => if 1 ≤ t then some (0x09, t) else none
       | 0x0A, .peer p _ _ => some (0x0A, p)
       | 0x0D, .peer p _ _ => some (0x0D, p)
       | 0x0C, .hbm _ => late
       | 0x0C, .host 0 _ => late
       | _, _ => none)
    else none)

/-- Moves byte `j` of a copy: units named in `bad` fail as `unitFault` says, and a poisoned engine line takes no byte (R225); bytes of
another package are free (log 27). -/
def copyByte (m : Mach) (r : Req) (a : CopyArgs) (bad : List Nat) (j : Nat) (x : Int × Int) : ByteOut :=
  let su := unitAddr m r a.src x.1
  let du := unitAddr m r a.dst x.2
  match endLoc m r a.src x.1 .copyRd with
  | .error (c, d) => .bad 0 su c d
  | .ok sl =>
    match faultR m r false [sl] with
    | some (c, d) => .bad 0 su c d
    | none =>
      match unitFault m r bad 0 su sl with
      | some (c, d) => .bad 0 su c d
      | none =>
      match endLoc m r a.dst x.2 .wr with
        | .error (c, d) => .bad 1 du c d
        | .ok dl =>
          match ((faultR m r true [dl]).orElse (fun _ => lineFault m [dl])).orElse (fun _ => unitFault m r bad 1 du dl) with
          | some (c, d) => .bad 1 du c d
          | none => .ok dl (if isOutside sl then Config.freeByte (m.free + j) else locByte m sl)

/-- The failed units, once each, with the cause of their first failing byte. -/
def badUnits (os : List ByteOut) : List (Nat × Nat × Nat × Nat) :=
  os.foldl (fun acc o => match o with
    | .bad s u c d => if acc.any (fun y => y.1 == s && y.2.1 == u) then acc else acc ++ [(s, u, c, d)]
    | .ok .. => acc) []

/-- Of the bytes that one destination place would take, the last in pattern order: a scatter writes a repeated element from the
highest i that names it (R264). -/
def lastOnly (key : Int → Nat × Int) : List ((Int × Int) × ByteOut) → List ((Int × Int) × ByteOut)
  | [] => []
  | x :: xs => if xs.any (fun y => key y.1.2 == key x.1.2) then lastOnly key xs else x :: lastOnly key xs

/-- The bytes that a copy writes: none of a failed unit, whichever of its bytes failed (R265). -/
def goodBytes (m : Mach) (r : Req) (a : CopyArgs) (ps : List (Int × Int)) (os : List ByteOut) : List (Loc × Byte) :=
  let bu := badUnits os
  let all := if a.kind = 2 then lastOnly (endKey m r a.dst) (ps.zip os) else ps.zip os
  all.filterMap (fun x => match x.2 with
    | .ok l b => if bu.any (fun y => (y.1 == 0 && y.2.1 == unitAddr m r a.src x.1.1) || (y.1 == 1 && y.2.1 == unitAddr m r a.dst x.1.2))
        then none else some (l, b)
    | .bad .. => none)

/-- The scratchpad extents of a copy or PFT, each with whether it writes there. -/
def spadExts (m : Mach) (r : Req) : List (Bool × Int × Int) :=
  match r.op with
  | .pft desc _ =>
    (match coreOfActor r.who with
     | some c => [(true, ((c * 2 ^ 19 + bits desc 64 19 : Nat) : Int), ((c * 2 ^ 19 + bits desc 64 19 + bits desc 96 32 - 1 : Nat) : Int))]
     | none => [])
  | _ =>
    match copyArgs r with
    | some a =>
      let e := copyExts m r a
      (match e.1 with | some (0, lo, hi) => [(true, lo, hi)] | _ => []) ++ (match e.2 with | some (0, lo, hi) => [(false, lo, hi)] | _ => [])
    | none => []

/-- Whether `q` was issued before prefetch `r`: chain order, else the order of firing (R201). -/
def issuedBefore (r q : Req) : Bool := chainBefore r q || (!chainBefore q r && q.id < r.id)
/-- Whether an earlier copy holds back a copy of the same engine (R265) or a PFT (R220): their scratchpad ranges overlap, and one of
them writes there. Where what the earlier one touches is not known yet, it may. -/
def rangeHeld (m : Mach) (r : Req) : Bool :=
  let engine := fun x : Req => (copyArgs x).map (copyCore m x)
  let before := fun q : Req => if (copyArgs r).isSome then copyEarlier m r q
    else issuedBefore r q && (!unjudged q || chainBefore r q || copyPends m q)
  m.mem.reqs.any (fun q => q.id != r.id && (copyArgs q).isSome && before q
    && (engine r == none || engine q == engine r)
    && (unjudged q
      || (spadExts m q).any (fun x => (spadExts m r).any (fun y => (x.1 || y.1) && decide (x.2.1 ≤ y.2.2 ∧ y.2.1 ≤ x.2.2)))))

/-! ## Range tables (R427, R436) -/

/-- The scratchpad bytes that leave a pasture when an entry is rewritten: extents over core x 2^19 + offset. -/
def leaving (m : Mach) (core e word : Nat) : List (Nat × Nat) :=
  match tfind (core * 8 + e) m.sys.ranges with
  | none => []
  | some x =>
    let k := core * 2 ^ 19
    let lo := k + 256 * x.base
    let hi := k + 256 * (x.base + x.len)
    let nlo := k + 256 * bits word 0 11
    let nhi := nlo + 256 * bits word 16 12
    if bitAt word 63 && bits word 52 4 == x.past then
      (if lo < nlo then [(lo, min hi nlo)] else []) ++ (if nhi < hi then [(max lo nhi, hi)] else [])
    else [(lo, hi)]

/-- The scratchpad extents that a copy or PFT still touches: its payload, and a copy's completion word. -/
def allExts (m : Mach) (r : Req) : List (Int × Int) :=
  (spadExts m r).map (·.2) ++ (match copyArgs r with
    | some a => (match scratchLocs m r.who r.past (bits a.vec 96 32) 4 with
        | .ok ls => ls.map (fun l => ((locPa l : Int), (locPa l : Int)))
        | .error _ => [])
    | none => [])
/-- A copy or PFT that touches bytes which leave has not written its completion. -/
def partBusy (m : Mach) (core e word : Nat) : Bool :=
  (leaving m core e word).any (fun x => m.mem.reqs.any (fun r => (allExts m r).any (fun y =>
    decide (y.1 < (x.2 : Int) ∧ (x.1 : Int) ≤ y.2))))

/-- Whether a range word overlaps a range of another pasture in another entry of the core. -/
def partOverlap (m : Mach) (core e word : Nat) : Bool :=
  bitAt word 63 && (upto 8).any (fun i => i != e && (match tfind (core * 8 + i) m.sys.ranges with
    | some x => x.past != bits word 52 4 && decide (x.base < bits word 0 11 + bits word 16 12 ∧ bits word 0 11 < x.base + x.len)
    | none => false))

/-- PART's write: bytes that pass from one pasture to another read as zero to the new owner. -/
def writePart (m : Mach) (core e word : Nat) : Mach :=
  if !bitAt word 63 then { m with sys.ranges := tdel (core * 8 + e) m.sys.ranges }
  else
    let p := bits word 52 4
    let us := (upto (bits word 16 12)).map (fun i => core * 2048 + bits word 0 11 + i)
    let passing := us.filter (fun u => match tfind u m.sys.owners with | some q => q != p | none => false)
    { m with
      mem.spad := m.mem.spad.filter (fun c => !passing.contains (c.1 / 256))
      mem.badSpad := m.mem.badSpad.filter (fun u => !passing.contains (u / 4))
      sys.ranges := tset (core * 8 + e) ⟨p, bits word 16 12, bits word 0 11⟩ m.sys.ranges
      sys.owners := us.foldl (fun t u => tset u p t) m.sys.owners }

/-- A PART whose wait is over is judged and written. -/
def servePart (m : Mach) (r : Req) : Mach :=
  match r.op with
  | .part core e word =>
    if r.res.isSome || partBusy m core e word then m
    else if partOverlap m core e word then finish m r.id (2 ^ 63 + 4)
    else finish (writePart m core e word) r.id 0
  | _ => m
def serveParts (m : Mach) : Mach := m.mem.reqs.foldl servePart m

/-- A record for each failed unit (side, unit, cause, DETAIL); `phys` says of a side whether its addresses are physical (R421). ADDR of a
scratchpad unit is core x 2^19 + offset, since the rules name no form for it (DESIGN CHOICE, log 115). It is the engine that holds a record
for which there is no room (R422). -/
def unitRecords (m : Mach) (r : Req) (item : Nat) (phys : Nat → Bool) (us : List (Nat × Nat × Nat × Nat)) : Mach :=
  us.foldl (fun m u => faultRec m r.past .idle
    ⟨BitVec.ofNat 128 (originReq r u.2.2.1 u.2.2.2), phys u.1, u.2.1 * 64 % 2 ^ 56, 3, u.2.2.1, item, 0⟩) m

/-- The places that the pairs of a copy touch, as far as they translate. -/
def copyPlaces (m : Mach) (r : Req) (a : CopyArgs) (ps : List (Int × Int)) : List Loc :=
  let at' := fun (e : End) (k : AccK) (xs : List Int) => xs.filterMap (fun o => match endLoc m r e o k with | .ok l => some l | .error _ => none)
  at' a.src .copyRd (ps.map (·.1)) ++ at' a.dst .wr (ps.map (·.2))
/-- Counts the units of a copy towards the moving of migrate pages (R197). -/
def countCopy (m : Mach) (r : Req) (a : CopyArgs) (ps : List (Int × Int)) : Mach :=
  let virt := fun (e : End) (xs : List Int) => match e with
    | .hand _ hv => if hType hv = 8 then [] else (xs.map (unitAddr m r e)).dedup
    | .sp => []
  countUnits (countUnits m r (virt a.src (ps.map (·.1)))) r (virt a.dst (ps.map (·.2)))

/-- Marks the units that a copy or a prefetch finds uncorrectable as it reads them (R281), by the failures' cause and DETAIL. -/
def markUnits (m : Mach) (r : Req) (ls : List Loc) (us : List (Nat × Nat × Nat × Nat)) : Mach :=
  if us.any (fun u => u.1 == 0 && u.2.2.1 == 0x01) then
    let sound := ls.filter (fun l => (faultR m r false [l]).isNone)
    us.foldl (fun m u => if u.1 = 0 then markBad m sound u.2.2.1 u.2.2.2 else m) m
  else m
/-- Records of a ticket, or of prefetches (ITEM 0), that their unit still holds (R422). -/
def itemHeld (m : Mach) (p item : Nat) : Bool := (pastOf m p).heldRecs.any (fun h => h.2.1 == .idle && h.1.kind == 3 && h.1.item == item)

/-- The end of a copy: its slot keeps the outcome and its completion word is written (R262, R266). -/
def endCopy (m : Mach) (r : Req) (a : CopyArgs) (core i : Nat) : Mach :=
  let x := slotOf m core i
  let m1 := delReq (setSlot m core i { x with busy := false }) r.id
  let m2 := { m1 with copy.issued := m1.copy.issued.filter (· != r.id), copy.moved := m1.copy.moved.filter (· != r.id) }
  match scratchLocs m2 r.who r.past (bits a.vec 96 32) 4 with
  | .ok ls => serveParts (writeLocs m2 ls (bytesOf (if x.failed = 0 then bits a.bw 0 32 else 0xFFFFFFFF) 4))
  | .error _ => serveParts (flush m2)
/-- The bytes of a copy in slot `i`, generation `g`, move: each failed unit writes a record, and the slot notes the outcome (R265, R266). -/
def moveCopy (m : Mach) (r : Req) (a : CopyArgs) (core i g : Nat) (bad : List Nat) : Mach :=
  let ps := (copyPairs m r a.kind a.vec a.desc).getD []
  let os := (upto ps.length).map (fun j => copyByte m r a bad j ((ps[j]?).getD (0, 0)))
  let us := badUnits os
  let good := goodBytes m r a ps os
  let ls := copyPlaces m r a ps
  let phys := fun s : Nat => match (if s = 0 then a.src else a.dst) with | .hand _ hv => hType hv == 8 | .sp => false
  let m1 := { sendFlits (countCopy m r a ps) r ls with free := m.free + ps.length }
  let m2 := unitRecords (markUnits m1 r ls us) r (copyTicket core g i) phys us
  setSlot (writeLocs m2 (good.map (·.1)) (good.map (·.2))) core i ⟨g, true, min us.length 65535, min good.length (2 ^ 32 - 1)⟩
/-- The places that hold a copy back: another row of a reserved bank, a page that is being moved, a lane that takes no flit of the units
`sent` that do not fail, or the reservation of a word that it writes (R231, R275, R400, R406). -/
def placesHeld (m : Mach) (r : Req) (ls sent wr : List Loc) : Bool :=
  rowsHeld m ls || locsMoving m ls || laneHeld m r sent || heldByResv m (ctxCode r.past r.who) wr
/-- The pairs of a copy that do not fail. -/
def soundPairs (m : Mach) (r : Req) (a : CopyArgs) (bad : List Nat) (ps : List (Int × Int)) : List (Int × Int) :=
  (ps.zipIdx.filter (fun x => match copyByte m r a bad x.2 x.1 with | .ok .. => true | .bad .. => false)).map (·.1)
/-- The destination places of a copy, as far as they translate. -/
def copyDsts (m : Mach) (r : Req) (a : CopyArgs) : List Loc :=
  ((copyPairs m r a.kind a.vec a.desc).getD []).filterMap (fun x => match endLoc m r a.dst x.2 .wr with | .ok l => some l | .error _ => none)

/-- A copy waits at its places. -/
def copyHeld (m : Mach) (r : Req) (a : CopyArgs) (bad : List Nat) : Bool :=
  let ps := (copyPairs m r a.kind a.vec a.desc).getD []
  placesHeld m r (copyPlaces m r a ps) (copyPlaces m r a (soundPairs m r a bad ps)) (copyDsts m r a)

/-- COPY_COMPLETION (R197, R262, R265, R275): the bytes move, each failed unit writes a record, then the completion word is written. An
engine that holds a record for which the ring has no room stalls with it, and writes the word later (R422). -/
def copyCompletionG (id : Nat) (bad : List Nat) (m : Mach) : Mach :=
  match reqOf m id with
  | none => m
  | some r =>
    match copyArgs r, r.granted with
    | some a, some (i, g) =>
      let core := copyCore m r a
      if engineHeld m core then m
      else if m.copy.moved.contains id then endCopy m r a core i
      else if !mayPerform m r || rangeHeld m r || copyHeld m r a bad then m
      else
        let m1 := moveCopy m r a core i g bad
        if itemHeld m1 r.past (copyTicket core g i) then { m1 with copy.moved := id :: m1.copy.moved } else endCopy m1 r a core i
    | _, _ => m
/-- Whether the bytes of a copy have moved. -/
def copyMoved (m : Mach) (id : Nat) : Bool := m.copy.moved.contains id || (reqOf m id).isNone
/-- The payload of a copy enters the fabric at its engine's injection port, a credit for each flit (R39; log 14). -/
def execCopyCompletion (id : Nat) (bad : List Nat) (s : State) : Out :=
  match (reqOf s.m id).bind (fun r => (copyArgs r).map (fun a => (copyCore s.m r a, (((copyPairs s.m r a.kind a.vec a.desc).getD []).length)))) with
  | some x => .next (enterFabric (1000 + x.1) id (flitsOf x.2) (fun m m1 => !copyMoved m id && copyMoved m1 id)
      (copyCompletionG id bad) s)
  | none => .next s

/-- The word of CQRY (R266). -/
def cqryWord (m : Mach) (p v : Nat) : Nat :=
  let core := bits v 48 10
  let x := slotOf m core (bits v 0 8)
  if bitAt v 63 || !bitAt (pastOf m p).cset core || bits v 0 8 ≥ 96 || x.gen != bits v 32 16 then 3 * 2 ^ 62
  else (if x.busy then 1 else if x.failed = 0 then 0 else 2) * 2 ^ 62 + x.failed * 2 ^ 32 + x.bytes
def cqryG (d a : Opd) : Mach → Mach :=
  memStart [a] [d] [] (poisonNow d (.ticket 0)) (fun vs m =>
    resultNow m (dstOf m d false) (.ticket 0) (tokNat (cqryWord m (pastOfActor m m.cur) (natAt vs 0 % 2 ^ 64))))
def execCqry (d a : Opd) (s : State) : Out := lift (cqryG d a) s

/-- Unit `i` of a prefetch: its places and bytes, or its failure. Bytes of another package are free (log 27). -/
def pftUnit (m : Mach) (r : Req) (desc : Nat) (bad : List Nat) (i : Nat) : Except (Nat × Nat) (List Loc × List Byte) :=
  let va := bits desc 0 56 + 64 * i
  match virtR m r va 64 .pft, scratchLocs m r.who r.past (bits desc 64 19 + 64 * i) 64 with
  | .error x, _ => .error x
  | .ok _, .error x => .error x
  | .ok sl, .ok dl =>
    match faultR m r false sl with
    | some x => .error x
    | none =>
      match sl.findSome? (unitFault m r bad 0 i), dl.findSome? (unitFault m r bad 1 i) with
      | some x, _ => .error x
      | none, some x => .error x
      | none, none => .ok (dl, (upto 64).map (fun j => match (sl[j]? : Option Loc) with
        | some l => if isOutside l then Config.freeByte (m.free + 64 * i + j) else locByte m l
        | none => 0))

/-- The arrival of a prefetch at its barrier object, with the number of failed units (R220, R235); an object on another package counts it
there. `bad` names the object as side 2, unit 0, for a failure of that access. -/
def pftArrive (m : Mach) (r : Req) (obj fails : Nat) (bad : List Nat) : Mach :=
  if obj % 8 != 0 then failReq m r 0x08 (bits obj 0 56) []
  else match virtR m r obj 8 .atomW with
    | .error (c, d) => failReq m r c d []
    | .ok ls =>
      match (faultR m r false ls).orElse (fun _ => (ls.head?).bind (unitFault m r bad 2 0)) with
      | some (c, d) => failReq m r c d ls
      | none =>
        if heldByResv m (ctxCode r.past r.who) ls then modReq m r.id (fun x => { x with granted := some (fails, 0) })
        else if ls.any isOutside then flush (delReq m r.id)
        else
          let old := locsRead m ls
          writeLocs (delReq m r.id) ls (bytesOf (min (old / 2 ^ 32 + fails) (2 ^ 32 - 1) * 2 ^ 32 + min (old % 2 ^ 32 + 1) (2 ^ 32 - 1)) 8)
/-- The units of a prefetch are copied; failed ones write records (R220). The result is the machine and the number of failures. -/
def movePft (m : Mach) (r : Req) (desc : Nat) (bad : List Nat) : Mach × Nat :=
  let n := bits desc 96 32 / 64
  let us := (upto n).map (fun i => (i, pftUnit m r desc bad i))
  let fails := us.filterMap (fun x => match x.2 with | .error (c, d) => some (0, bits desc 0 56 / 64 + x.1, c, d) | .ok _ => none)
  let m0 := sendFlits (countUnits m r ((upto n).map (fun i => bits desc 0 56 / 64 + i))) r (nextLocs m r)
  let m1 := unitRecords (markUnits { m0 with free := m.free + 64 * n } r (unitLocs m r .pft (bits desc 0 56, 64 * n)) fails) r 0 (fun _ => false) fails
  (us.foldl (fun m x => match x.2 with | .ok (ls, bs) => writeLocs m ls bs | .error _ => m) m1, fails.length)

/-- The lane of a unit of a prefetch that does not fail, or of its object's access, takes no flit (R400). -/
def pftLaneHeld (m : Mach) (r : Req) (desc obj : Nat) (bad : List Nat) : Bool :=
  let sound := (upto (bits desc 96 32 / 64)).filter (fun i => match pftUnit m r desc bad i with | .ok _ => true | .error _ => false)
  laneHeld m r (sound.flatMap (fun i => unitLocs m r .pft (bits desc 0 56 + 64 * i, 64))
    ++ (unitLocs m r .atomW (obj, 8)).filter (fun l => (unitFault m r bad 2 0 l).isNone))

/-- PFT_ARRIVAL (R220): the units are copied; failed ones write records and count in FAILURES; then the arrival. `bad`
names 64-byte units by their number in the prefetch, as `unitFault` reads it. While a record waits for room in the ring the prefetch stalls
before its arrival (R422), and so it does while the object's word is reserved (R231). -/
def pftArrivalG (id : Nat) (bad : List Nat) (m : Mach) : Mach :=
  match reqOf m id with
  | none => m
  | some r =>
    match r.op with
    | .pft desc obj =>
      (match r.granted with
       | some (fails, _) => if itemHeld m r.past 0 then m else pftArrive m r obj fails bad
       | none =>
         if !mayIssue m r || pftLaneHeld m r desc obj bad || rangeHeld m r then m
         else
           let x := movePft m r desc bad
           if itemHeld x.1 r.past 0 then modReq x.1 id (fun q => { q with granted := some (x.2, 0) }) else pftArrive x.1 r obj x.2 bad)
    | _ => m
def execPftArrival (id : Nat) (bad : List Nat) (s : State) : Out := lift (fun m => serveParts (pftArrivalG id bad m)) s

/-! ## Address-generator tiles (R268-R270) -/

/-- A binding that R269 admits. -/
def bindOk (m : Mach) (p b : Nat) : Bool :=
  bits b 28 4 == 0 && coreIn m p (bits b 0 10) && decide (bits b 18 8 < if bitAt b 17 then 64 else 128)

/-- AGLD and AGST (R269): a bad binding answers at once; otherwise the request waits for its tile. -/
def agG (loader : Bool) (d a b : Opd) : Mach → Mach :=
  memStart [a, b] [d] [] (poisonNow d .tile) (fun vs m =>
    let bw := natAt vs 1 % 2 ^ 64
    if bindOk m (pastOfActor m m.cur) bw then
      addReq m (mkReq m (dstOf m d false) (.ag loader (bits (natAt vs 0) 0 56) bw none) 5 false true)
    else resultNow m (dstOf m d false) .tile (tokNat (2 ^ 63 + 3)))
def execAgld (d a b : Opd) (s : State) : Out := lift (agG true d a b) s
def execAgst (d a b : Opd) (s : State) : Out := lift (agG false d a b) s

/-- The words of a tile's program as the start reads them, at package scope (R269); one that cannot be read traps as the tile comes
to it (log 91). Bytes of another package are free (log 27). -/
def tileCode (m : Mach) (u addr : Nat) : List (Option W64) :=
  (upto 256).map (fun i => match readNat { m with free := m.free + 8 * i } (.unit u 0) (addr + 8 * i) 8 with
    | .ok v => some (BitVec.ofNat 64 v)
    | .error _ => none)

/-- AG_TILE_START (R269): the oldest request for a tile that is not running starts it, once the accesses that come before the
request are performed (R410). A tile that was pre-empted goes on from where it stood, with a plinth tile's node, and takes what it is still owed (R425, R426). -/
def agTileStartG (id : Nat) (m : Mach) : Mach :=
  match reqOf m id with
  | none => m
  | some r =>
    match r.op with
    | .ag loader addr bw saved =>
      let u := bindTile bw
      let older := m.mem.reqs.any (fun q => q.id < id && running m q.past && (match q.op with | .ag _ _ b _ => bindTile b == u | _ => false))
      if thas u m.copy.tiles || older || !mayPerform m r then m
      else match saved with
        | some x =>
          let m1 := setUnit { setReq m { r with op := .ag loader addr bw none } with
            copy.tiles := tset u x.bind m.copy.tiles
            copy.nodes := (match x.node with | some n => tput Node.reset (u - 272) n m.copy.nodes | none => m.copy.nodes) } u x.unit
          flush (deliverParked m1 r.past (fun a => match a with | .unit v _ => v == u | _ => false))
        | none =>
          let key := chanKey (bits bw 0 10) (bits bw 10 4) (bits bw 14 3)
          let x : SUnit := { SUnit.reset with
            s := tput 0 1 (BitVec.ofNat 64 addr) (tput 0 0 (BitVec.ofNat 64 (bits bw 32 32)) []), base := addr, run := .running
            past := r.past, graph := r.sect }
          let m1 := setUnit m u x
          { m1 with
            free := m.free + 2048
            copy.tiles := tset u ⟨loader, bits bw 26 2, key, id, tileCode m1 u addr, [], none⟩ m1.copy.tiles }
    | _ => m
def execAgTileStart (id : Nat) (s : State) : Out := lift (agTileStartG id) s

/-- The kind, address space and addresses of an access of a tile, for its coalescing unit. -/
def tileAcc (r : Req) : Option (Bool × Nat × Nat × Nat) :=
  let at' := fun (wr : Bool) (pl : Place) (n : Nat) => match pl with
    | .virt va => some (wr, 0, va, n) | .scratch sa => some (wr, 1, sa, n) | .hand .. => none
  match r.op with
  | .load pl n _ => at' false pl n
  | .store pl n _ => at' true pl n
  | _ => none
/-- The merged requests of consecutive accesses (R270): each access with the first of its request. Accesses merge where they are of
one kind, fall in one 256-byte granule and cover contiguous 32-byte sectors with those before; `cur` is the request that is
being formed: its first access, kind, space, granule and sectors. -/
def mergeRuns (cur : Option (Nat × Bool × Nat × Nat × Nat × Nat)) : List Req → Tbl Nat
  | [] => []
  | r :: rest =>
    match tileAcc r with
    | none => mergeRuns none rest
    | some (wr, sp, a, n) =>
      let lo := a / 32
      let hi := (a + n - 1) / 32
      match cur with
      | some (f, wr2, sp2, g, lo2, hi2) =>
        if wr = wr2 ∧ sp = sp2 ∧ a / 256 = g ∧ (a + n - 1) / 256 = g ∧ lo ≤ hi2 + 1 ∧ lo2 ≤ hi + 1 then
          (r.id, f) :: mergeRuns (some (f, wr, sp, g, min lo lo2, max hi hi2)) rest
        else (r.id, r.id) :: mergeRuns (some (r.id, wr, sp, a / 256, lo, hi)) rest
      | none => (r.id, r.id) :: mergeRuns (some (r.id, wr, sp, a / 256, lo, hi)) rest

/-- COALESCE_RELEASE (R270): the tile's coalescing unit issues the accesses that it holds, merged; a merged request that fails fails
each of its accesses (`failMerged`). -/
def coalesceReleaseG (tile : Nat) (m : Mach) : Mach :=
  match tfind tile m.copy.held with
  | none => m
  | some h =>
    let mine := m.mem.reqs.filter (fun r => h ≤ r.id + 1 && !r.done && ofUnit m tile r.past r.who)
    let live := m.copy.merged.filter (fun e => m.copy.merged.any (fun x => x.2 == e.2 && (reqOf m x.1).isSome))
    { m with
      copy.held := tdel tile m.copy.held
      copy.merged := (mergeRuns none mine).foldl (fun t e => tset e.1 e.2 t) live }
def execCoalesceRelease (tile : Nat) (s : State) : Out := lift (coalesceReleaseG tile) s

/-! ## Plinth nodes (R271) -/

/-- A configuration without a reserved value. -/
def plsetOk (c : Nat) : Bool :=
  bits c 54 2 != 3 && bits c 16 31 == 0 && decide (bits c 47 3 < if bitAt c 62 then 6 else 7)
def plsetG (d a b : Opd) : Mach → Mach :=
  memStart [a, b] [d] [] (poisonNow d .tile) (fun vs m =>
    let c := natAt vs 0 % 2 ^ 64
    if plsetOk c then addReq m (mkReq m (dstOf m d false) (.plset c (natAt vs 1 % 2 ^ 32)) 5 false false)
    else resultNow m (dstOf m d false) .tile (tokNat (2 ^ 63 + 2)))
def execPlset (d a b : Opd) (s : State) : Out := lift (plsetG d a b) s

/-- A tile of the pasture that was pre-empted is still to go on. -/
def tileSaved (m : Mach) (p u : Nat) : Bool :=
  m.mem.reqs.any (fun q => match q.op with | .ag _ _ b (some _) => q.past == p && bindTile b == u | _ => false)
/-- NODE_CONFIGURATION (R271): once the node's tile does not run, the configuration is written; not while the pasture is gated (R423), and
its own tile that was pre-empted still runs (R425). -/
def nodeConfigurationG (id : Nat) (m : Mach) : Mach :=
  match reqOf m id with
  | none => m
  | some r =>
    match r.op with
    | .plset c k =>
      let n := bits c 59 3 * 8 + bits c 56 3
      if thas (272 + n) m.copy.tiles || tileSaved m r.past (272 + n) || gated m r then m
      else finish { m with copy.nodes := tput Node.reset n ⟨c, k, [], [], 0, 0⟩ m.copy.nodes } id 0
    | _ => m
def execNodeConfiguration (id : Nat) (s : State) : Out := lift (nodeConfigurationG id) s

/-! ## CFLUSH (R273) and bulk streams (R274-R276): requests that LOAD_RESULT completes -/

def cflushG (f : BitF) (d a b : Opd) : Mach → Mach :=
  memStart [a, b] [d] [] (poisonNow d .tile) (fun vs m =>
    markFences (addReq m (mkReq m (dstOf m d false) (.cflush f.bit (bits (natAt vs 0) 0 56) (natAt vs 1 % 2 ^ 32) none) 5 false false)))
def execCflush (f : BitF) (d a b : Opd) (s : State) : Out := lift (cflushG f d a b) s

/-- One 64-byte line of a flushed range: a dirty local line is written back, a kept line of a cached-peer page is dropped
by `.inv`. -/
def flushLine (m : Mach) (inv : Bool) (l : Loc) : Mach :=
  match l with
  | .hbm pa => { m with mem.dirty := m.mem.dirty.erase (pa / 64) }
  | .peer p pa true => if inv then { m with mem.cached := tfilter (fun k => k / 64 != cacheKey p pa / 64) m.mem.cached } else m
  | _ => m

/-- CFLUSH, once the accesses that a FENCE in its place would wait for are performed (R273): every line of every page, and the first page's failure. -/
def doCflush (m : Mach) (r : Req) (inv : Bool) (a len : Nat) : Mach :=
  let lines := if len = 0 then [] else (upto ((a + len - 1) / 64 - a / 64 + 1)).map (fun i => (a / 64 + i) * 64)
  let go := lines.foldl (fun (x : Mach × Option Nat) va =>
    match byteLoc m r (max va a) .copyRd with
    | .ok l => (flushLine x.1 inv l, x.2)
    | .error (c, _) => (x.1, x.2.orElse (fun _ => some c))) (m, none)
  finish go.1 r.id (match go.2 with | some c => 2 ^ 63 + c | none => 0)

def bopenG (f : BitF) (d a b : Opd) : Mach → Mach :=
  memStart [a, b] [d] [] (poisonNow d .tile) (fun vs m =>
    addReq m (mkReq m (dstOf m d false) (.bopen f.bit (natAt vs 0 % 2 ^ 64) (natAt vs 1 % 2 ^ 32)) 5 false false))
def execBopen (f : BitF) (d a b : Opd) (s : State) : Out := lift (bopenG f d a b) s
def bcloseG (d a : Opd) : Mach → Mach :=
  memStart [a] [d] [] (poisonNow d .tile) (fun vs m =>
    addReq m (mkReq m (dstOf m d false) (.bclose (natAt vs 0 % 2 ^ 64)) 5 false false))
def execBclose (d a : Opd) (s : State) : Out := lift (bcloseG d a) s

def sameCtx (a b : Actor) : Bool := ctxCode 0 a == ctxCode 0 b
/-- A precharge counts one activation in the row's counter (R280). -/
def precharge (m : Mach) (row : Nat) : Mach := { m with mem.rowAct := tset row (tget 0 row m.mem.rowAct + 1) m.mem.rowAct }

/-- A force-closed status that waits for its holder (R276). -/
def takeForced (m : Mach) (row : Nat) (who : Actor) : Option Mach :=
  match m.mem.forced.find? (fun e => e.1 == row && sameCtx e.2 who) with
  | some e => some { m with mem.forced := m.mem.forced.erase e }
  | none => none

/-- BOPEN at the controller (R275): waits while the bank is reserved for another row, and to activate a row whose counter is at
threshold (R280). A buffer that is not 64-byte aligned is a BOUNDS failure, which the rule does not say (DESIGN CHOICE, log 114). -/
def doBopen (m : Mach) (r : Req) (wr : Bool) (a sp : Nat) : Mach :=
  match rowPa m r a (if wr then .wr else .rd) with
  | none => finish m r.id (2 ^ 63 + 8)
  | some pa =>
    let row := rowOf pa
    match takeForced m row r.who with
    | some m1 => finish m1 r.id (2 ^ 63 + 0x0B)
    | none =>
      if m.mem.rows.any (fun x => x.row != row && sameBank x.row row) then m
      else match (if sp % 64 = 0 then scratchLocs m r.who r.past sp 1024 else .error (0x08, sp)) with
        | .error (c, d) => failReq m r c d []
        | .ok buf =>
          let ls := rowLocs pa
          let src := if wr then buf else ls
          let dst := if wr then ls else buf
          match ((locsFault m r.who src).orElse (fun _ => faultR m r true dst)).orElse (fun _ => lineFault m dst) with
          | some (c, d) => failReq m r c d ls
          | none =>
            if heldByResv m (ctxCode r.past r.who) dst then m
            else
              let first := !m.mem.rows.any (fun x => x.row == row)
              if first && m.mem.alerts.contains row then m else
              let m1 := if first then { m with mem.rows := m.mem.rows ++ [⟨row, r.who, false, r.past, r.act⟩] } else m
              let m2 := modReq m1 r.id (fun x => { x with done := true, res := some [tokNat 0] })
              writeLocs m2 dst (src.map (locByte m))

/-- BCLOSE (R275, R276). -/
def doBclose (m : Mach) (r : Req) (a : Nat) : Mach :=
  match rowPa m r a .rd with
  | none => finish m r.id (2 ^ 63 + 8)
  | some pa =>
    match takeForced m (rowOf pa) r.who with
    | some m1 => finish m1 r.id (2 ^ 63 + 0x0B)
    | none =>
      if m.mem.rows.any (fun x => x.row == rowOf pa) then
        finish (precharge { m with mem.rows := m.mem.rows.filter (fun x => x.row != rowOf pa) } (rowOf pa)) r.id 0
      else finish m r.id 0

/-- LOAD_RESULT (R210): a load is performed, or fails, and its result is delivered; BOPEN, BCLOSE and CFLUSH deliver
their results as loads do (R260). -/
def loadResultG (id : Nat) (ans : Answer) (m : Mach) : Mach :=
  match reqOf m id with
  | none => m
  | some r =>
    if !mayPerform m r then m
    else match r.op with
      | .load pl n nt => performLoad m r pl n nt ans
      | .bopen wr a sp => doBopen m r wr a sp
      | .bclose a => doBclose m r a
      | .cflush inv a len _ => if m.mem.reqs.any (fenceWaits m r) then m else doCflush m r inv a len
      | _ => m

/-! ## HBM controllers (R276-R281) -/

/-- The ring of a pasture takes a record now (R422). -/
def logRoom (m : Mach) (p : Nat) : Bool :=
  let P := pastOf m p
  P.heldRecs.isEmpty && (match P.log with | some r => !r.bad && ringCount r != ringSize r | none => false)
/-- FORCE_CLOSE (R276): the reservation ends with a STREAM_TIMEOUT record; its holder gets the status later. The controller stalls while
the ring has no room for the record (R422). -/
def forceCloseG (row : Nat) (m : Mach) : Mach :=
  match m.mem.rows.find? (fun x => x.row == row) with
  | none => m
  | some x =>
    if !logRoom m x.past then m else
    let detail := row / 2 ^ 40 % 8 + Config.rowChannel row % 64 * 16
    let m1 := precharge { m with
      mem.rows := m.mem.rows.filter (fun y => y.row != row)
      mem.forced := m.mem.forced ++ [(row, x.holder)] } row
    faultRec m1 x.past .idle ⟨BitVec.ofNat 128 (originAct x.holder x.act 0x0B detail), true, row % 2 ^ 40 * 8192 + row / 2 ^ 40 % 8 * 256, 8, 0x0B, 0, 0⟩
def execForceClose (row : Nat) (s : State) : Out := lift (forceCloseG row) s

/-- DRAM_REFRESH (R276): a reserved bank is precharged and its row reactivated; the reservation stays. -/
def dramRefreshG (row : Nat) (m : Mach) : Mach :=
  if m.mem.rows.any (fun x => x.row == row) then precharge m row else m
def execDramRefresh (row : Nat) (s : State) : Out := lift (dramRefreshG row) s

/-- WRITE_DRAIN (R277): one queued write issues; draining ends when 16 remain. -/
def writeDrainG (pc : Nat) (m : Mach) : Mach :=
  let n := tget 0 pc m.mem.wq - 1
  { m with
    mem.wq := tput 0 pc n m.mem.wq
    mem.drain := if n ≤ 16 then m.mem.drain.erase pc else m.mem.drain }
def execWriteDrain (pc : Nat) (s : State) : Out := lift (writeDrainG pc) s

/-- Whether a request is on a pseudo-channel. -/
def onChannel (m : Mach) (pc : Nat) (r : Req) : Option Nat :=
  (reqLocs m r).findSome? (fun l => match l with | .hbm pa => if Config.rowChannel (rowOf pa) = pc then some pa else none | _ => none)

/-- PARITY_ALERT (R279): a replay changes nothing that software sees; a third failed replay degrades the pseudo-channel and
fails what is pending on it, each with a record. -/
def parityAlertG (pc : Nat) (third : Bool) (m : Mach) : Mach :=
  if !third then m
  else
    let m1 := { m with
      mem.degraded := if m.mem.degraded.contains pc then m.mem.degraded else pc :: m.mem.degraded
      mem.bruoshLog := m.mem.bruoshLog ++ [(0x10000, pc)] }
    m.mem.reqs.foldl (fun m q => match reqOf m q.id with
      | some r =>
        (match r.done, onChannel m pc r with
         | false, some pa =>
           let d := pa / 64 * 64
           let m2 := if ownRecord r || (match r.who with | .unit .. => true | _ => false) then m
             else faultRec m r.past r.who (accRec r 0x01 d [])
           (match r.op with
            | .snap owner h _ _ => failSnap m2 r owner h 0x01 d []
            | _ => failReq m2 r 0x01 d [])
         | _, _ => m)
      | none => m) m1
def execParityAlert (pc : Nat) (third : Bool) (s : State) : Out := lift (parityAlertG pc third) s

/-- ACTIVATION_THRESHOLD (R280): the row's alert is raised; refresh management of its neighbours ends, the counter starts again
and activations of the row go on; or a counter fails its check, which is treated as at threshold and logged as corrected. -/
def activationThresholdG (what : RowReport) (m : Mach) : Mach :=
  match what with
  | .alert row => if m.mem.alerts.contains row then m else { m with mem.alerts := row :: m.mem.alerts }
  | .managed row => { m with mem.rowAct := tdel row m.mem.rowAct, mem.alerts := m.mem.alerts.filter (· != row) }
  | .corrupt row => { m with
      mem.rowAct := tdel row m.mem.rowAct
      mem.alerts := if m.mem.alerts.contains row then m.mem.alerts else row :: m.mem.alerts
      mem.bruoshLog := m.mem.bruoshLog ++ [(0x10002, row)] }
def execActivationThreshold (what : RowReport) (s : State) : Out := lift (activationThresholdG what) s

/-- BACKGROUND_SCRUB (R281): a unit found uncorrectable is marked and the event is logged; a corrected one is written back, its bytes
as they were, and logged as corrected. -/
def backgroundScrubG (u : Nat) (bad : Bool) (m : Mach) : Mach :=
  if 2 ^ 33 ≤ u then m
  else if !bad then { m with mem.bruoshLog := m.mem.bruoshLog ++ [(0x10003, u)] }
  else
    { m with
      mem.badHbm := if m.mem.badHbm.contains u then m.mem.badHbm else u :: m.mem.badHbm
      mem.bruoshLog := m.mem.bruoshLog ++ [(0x10001, u)] }
def execBackgroundScrub (u : Nat) (bad : Bool) (s : State) : Out := lift (backgroundScrubG u bad) s

end Sys2Proof.Machine
end

