-- ==== Sys2Proof/Machine/Matrix.lean ====
section
/-! DEFINITION. Matrix arrays and corner-turn nodes, class 0x5_ (R106, R109, R282-R307). -/
namespace Sys2Proof.Machine

/-! ## Queues of commands (R282-R287) -/

/-- The key of a core's queue: the live pasture's own, or that of the commands which a shepherd core sends for a pasture that is
not launched (R303). -/
def arrKey (m : Mach) (p core : Nat) : Nat := if (pastOf m p).st == .live then core else 1024 * (p + 1) + core
/-- The queue and latched state of a core's array for a pasture: in its image while it is pre-empted (R307). -/
def arrQOf (m : Mach) (p core : Nat) : ArrQ :=
  match (pastOf m p).image with
  | some i => tget ArrQ.reset core i.arrq
  | none => tget ArrQ.reset (arrKey m p core) m.mat.q
def setArrQ (m : Mach) (p core : Nat) (q : ArrQ) : Mach :=
  let P := pastOf m p
  match P.image with
  | some i => setPast m p { P with image := some { i with arrq := tput ArrQ.reset core q i.arrq } }
  | none => { m with mat.q := tput ArrQ.reset (arrKey m p core) q m.mat.q }
/-- The command at the head of a queue leaves it, with its progress. -/
def popCmd (m : Mach) (p core : Nat) : Mach :=
  let q := arrQOf m p core
  setArrQ m p core { q with queue := q.queue.drop 1, drain := none, prog := none }
/-- The command at the head of a queue is under way (R307). -/
def ArrQ.busy (q : ArrQ) : Bool := q.drain.isSome || q.prog.isSome

/-- The result of a command reaches its destination as a load's does (R287). -/
def cmdDone (m : Mach) (id v : Nat) : Mach := finish m id v

def isUnit : Actor → Bool
  | .unit .. => true
  | _ => false

/-- S-form MXWAITs whose earlier commands are complete answer 0 (R304). -/
def settleWaits (p core : Nat) : Nat → Mach → Mach
  | 0, m => m
  | n + 1, m =>
    let q := arrQOf m p core
    match q.queue with
    | c :: rest =>
      if !q.busy && c.op == .wait && isUnit c.who then
        settleWaits p core n (cmdDone (setArrQ m p core { q with queue := rest }) c.req 0)
      else m
    | [] => m

/-- A command and its request enter the queue of a core (R284). -/
def pushCmd (m : Mach) (p core : Nat) (dst : Dst) (pend : Bool) (op : ArrOp) : Mach :=
  let r := { mkReq m dst (.arrayCmd core) 5 true false with pos := none, pend := pend }
  let q := arrQOf m p core
  let m1 := setArrQ (addReq m r) p core { q with queue := q.queue ++ [⟨op, r.id, m.cur⟩] }
  settleWaits p core 8 m1

/-- A PE's command enters the queue of its core. -/
def peCmd (m : Mach) (dst : Dst) (op : ArrOp) : Mach :=
  match m.cur with
  | .pe core .. => pushCmd m (pastOfActor m m.cur) core dst false op
  | _ => m

/-- Places of S-form commands in use; a registered MXWAIT takes none (R285, R304). -/
def sPlaces (q : ArrQ) : Nat := (q.queue.filter (fun c => isUnit c.who && c.op != .wait)).length

/-! ## Instructions -/

def drop64 (vs : List Val) (i : Nat) : Nat := natAt vs i % 2 ^ 64

/-- MXWLD (R292): a scaled B is poison, which traps. -/
def mxwldG (fmt : FFmt) (a b : Opd) : Mach → Mach :=
  memStart [a, b] [] [] (fun v m => poisonSink m m.cur v) (fun vs m =>
    if (valAt vs 1).scaled then poisonSink m m.cur (poison m m.cur 0x05 1)
    else peCmd m .drop (.wld fmt (drop64 vs 0) (drop64 vs 1)))
def execMxwld (f : MxF) (a b : Opd) (s : State) : Out := lift (mxwldG f.fmt a b) s

/-- MXWBUF (R291). -/
def mxwbufG (d a b : Opd) : Mach → Mach :=
  memStart [a, b] [d] [] (poisonNow d .tile) (fun vs m => peCmd m (dstOf m d false) (.wbuf (drop64 vs 0) (drop64 vs 1)))
def execMxwbuf (d a b : Opd) (s : State) : Out := lift (mxwbufG d a b) s

/-- MXFMT (R293). -/
def mxfmtG (f : MxfmtF) (a b : Opd) : Mach → Mach :=
  memStart [a, b] [] [] (fun v m => poisonSink m m.cur v)
    (fun vs m => peCmd m .drop (.fmt f.fmt f.os (drop64 vs 0) (drop64 vs 1)))
def execMxfmt (f : MxfmtF) (a b : Opd) (s : State) : Out := lift (mxfmtG f a b) s

/-- MXRUN (R296). -/
def mxrunG (d a b : Opd) : Mach → Mach :=
  memStart [a, b] [d] [] (poisonNow d .tile) (fun vs m => peCmd m (dstOf m d false) (.run (drop64 vs 0) (drop64 vs 1)))
def execMxrun (d a b : Opd) (s : State) : Out := lift (mxrunG d a b) s

/-- MXACC (R295). -/
def mxaccG (f : MxaccF) (n : Nat) (m : Mach) : Mach := peCmd m .drop (.acc n f.sat f.clr)
def execMxacc (f : MxaccF) (a : Fin 4) (s : State) : Out := lift (mxaccG f a.val) s

/-- MXDRN (R299, R300). -/
def mxdrnG (f : MxdrnF) (d a b : Opd) : Mach → Mach :=
  memStart [a, b] [d] [] (poisonNow d .tile)
    (fun vs m => peCmd m (dstOf m d false) (.drn f.fmt f.rnd f.sat f.ch (drop64 vs 0) (drop64 vs 1)))
def execMxdrn (f : MxdrnF) (d a b : Opd) (s : State) : Out := lift (mxdrnG f d a b) s

/-- MXST (R303): in S-form for core A[25:16], waiting for one of the four places (R285). -/
def mxstG (clr : Bool) (d a : Opd) : Mach → Mach :=
  memStart [a] [d] [] (poisonNow d .tile) (fun vs m =>
    let x := drop64 vs 0
    match m.cur with
    | .unit u w =>
      let p := pastOfActor m m.cur
      let core := bits x 16 10
      if !coreIn m p core then trapForm m u w 0x03 0
      else if 4 ≤ sPlaces (arrQOf m p core) then stall m
      else pushCmd m p core (dstOf m d false) false (.st clr (x % 4))
    | _ => peCmd m (dstOf m d false) (.st clr (x % 4)))
def execMxst (f : BitF) (d a : Opd) (s : State) : Out := lift (mxstG f.bit d a) s

/-- MXWAIT (R304): in S-form a condition in Pending for core A[9:0]. -/
def mxwaitG (d a : Opd) (m : Mach) : Mach :=
  match m.cur with
  | .unit .. =>
    memStart [a] [d] [] (poisonNow d .tile) (fun vs m =>
      match m.cur with
      | .unit u w =>
        let p := pastOfActor m m.cur
        let core := bits (drop64 vs 0) 0 10
        if !coreIn m p core then trapForm m u w 0x03 0
        else pushCmd m p core (dstOf m d false) true .wait
      | _ => m) m
  | _ => peCmd m (dstOf m d false) .wait
def execMxwait (d a : Opd) (s : State) : Out := lift (mxwaitG d a) s

/-- MXMODE (R305). -/
def mxmodeG (on : Bool) (d a : Opd) : Mach → Mach :=
  memStart [a] [d] [] (poisonNow d .tile) (fun vs m =>
    let core := bits (drop64 vs 0) 0 10
    let dst := dstOf m d false
    if !coreIn m (pastOfActor m m.cur) core then resultNow m dst (.mode core on) (tokNat (2 ^ 63 + 0x11))
    else if m.mat.mode.contains core == on then resultNow m dst (.mode core on) (tokNat 0)
    else addReq m (mkReq m dst (.mode core on) 5 false false))
def execMxmode (f : BitF) (d a : Opd) (s : State) : Out := lift (mxmodeG f.bit d a) s

def TurnK.size : TurnK → Nat
  | .off => 0 | .k4 => 4 | .k8 => 8 | .k16 => 16

/-- CTURN (R301): the new size waits until the node is empty. -/
def cturnG (k ch : Nat) (m : Mach) : Mach :=
  match m.cur with
  | .pe core pe .. =>
    let x := chanKey core pe ch
    setChan m x { chanOf m x with pendNode := some k }
  | _ => m
def execCturn (f : CturnF) (a : Fin 8) (s : State) : Out := lift (cturnG (TurnK.size f.k) a.val) s

/-- CORNER_TURN_RESIZE (R301): the node holds no token and takes its new size. -/
def cornerTurnResizeG (core pe ch : Nat) (m : Mach) : Mach :=
  let x := chanKey core pe ch
  let c := chanOf m x
  match c.pendNode with
  | some k => if c.gather.isEmpty && c.emit.isEmpty then setChan m x { c with node := k, pendNode := none } else m
  | none => m
def execCornerTurnResize (core pe ch : Nat) (s : State) : Out := lift (cornerTurnResizeG core pe ch) s

/-! ## Held state (R283, R307) -/

def heldOf (m : Mach) (core : Nat) : ArrH := tget ArrH.reset core m.mat.h
def setHeld (m : Mach) (core : Nat) (h : ArrH) : Mach := { m with mat.h := tput ArrH.reset core h m.mat.h }

/-- The held state of another pasture goes to its save area (R307); one that is not launched has none. -/
def saveHeld (m : Mach) (core q : Nat) : Mach :=
  if (pastOf m q).image.isNone then { m with mat.h := tdel core m.mat.h, mat.owner := tdel core m.mat.owner } else
  let k := (coresOf m q).findIdx (· == core)
  let m1 := fillFree m ((pastOf m q).asave + 151552 * k) 151552
  { m1 with mat := { m1.mat with
      saved := tset (q * 1024 + core) (heldOf m core) m1.mat.saved
      h := tdel core m1.mat.h
      owner := tdel core m1.mat.owner } }

/-- The array holds the state of pasture `p`: what another pasture left is saved, its own is read back. -/
def takeHeld (m : Mach) (core p : Nat) : Mach :=
  match tfind core m.mat.owner with
  | some q =>
    if q = p then m
    else
      let m1 := saveHeld m core q
      { m1 with mat := { m1.mat with
          h := tput ArrH.reset core (tget ArrH.reset (p * 1024 + core) m1.mat.saved) m1.mat.h
          saved := tdel (p * 1024 + core) m1.mat.saved
          owner := tset core p m1.mat.owner } }
  | none =>
    { m with mat := { m.mat with
        h := tput ArrH.reset core (tget ArrH.reset (p * 1024 + core) m.mat.saved) m.mat.h
        saved := tdel (p * 1024 + core) m.mat.saved
        owner := tset core p m.mat.owner } }

/-- No command waits in the core, for any pasture. -/
def arraysEmpty (m : Mach) (core : Nat) : Bool :=
  m.mat.q.all (fun e => e.1 % 1024 != core || (e.2.queue.isEmpty && !e.2.busy))

/-- MODE_CHANGE (R283, R305): the oldest pending change of a core completes; leaving waits for an empty queue. -/
def modeChangeG (core : Nat) (m : Mach) : Mach :=
  match m.mem.reqs.find? (fun r => !r.done && (isShepActor r.who || running m r.past)
      && (match r.op with | .mode c _ => c == core | _ => false)) with
  | none => m
  | some r =>
    match r.op with
    | .mode _ true =>
      finish { m with mat.mode := if m.mat.mode.contains core then m.mat.mode else core :: m.mat.mode } r.id 0
    | .mode _ false =>
      if !arraysEmpty m core then m
      else
        let m1 := match livePast m core with
          | some p =>
            let m1 := takeHeld m core p
            setHeld m1 core { heldOf m1 core with wbuf := [], active := none, standby := none }
          | none => (match tfind core m.mat.owner with | some o => saveHeld m core o | none => m)
        finish { m1 with mat.mode := m1.mat.mode.erase core } r.id 0
    | _ => m
def execModeChange (core : Nat) (s : State) : Out := lift (modeChangeG core) s

/-! ## Scratchpad accesses of the array (R288, R306) -/

/-- A scratchpad address that the array may use: W = 0 and no reserved bit (R190, R288). -/
def arrW0 (sa : Nat) : Bool := decide (sa < 2 ^ 19)
/-- The offset of an access of `n` bytes in the core's scratchpad, or the first offending address (R288): its own where its form is
wrong, else its first byte outside the pasture's ranges. -/
def arrAddr (m : Mach) (p core sa n al : Nat) : Except Nat Nat :=
  if sa % al ≠ 0 ∨ !arrW0 sa then .error sa
  else match (upto n).find? (fun i => !arrW0 (sa + i) || !inRange m p core (sa + i)) with
    | some i => .error (sa + i)
    | none => .ok (core * 2 ^ 19 + sa)

/-- The first offending address of a list of accesses (address, bytes, alignment). -/
def arrBad (m : Mach) (p core : Nat) (l : List (Nat × Nat × Nat)) : Option Nat :=
  l.findSome? (fun x => match arrAddr m p core x.1 x.2.1 x.2.2 with | .ok _ => none | .error a => some a)

/-- The first uncorrectable unit that an access reads: marked already, or found so now (`bad`, units of the core). -/
def arrFault (m : Mach) (core : Nat) (bad : List Nat) (sa n : Nat) : Option Nat :=
  ((upto ((sa + n - 1) / 64 - sa / 64 + 1)).map (fun i => sa / 64 + i)).find? (fun u =>
    bad.contains u || m.mem.badSpad.contains (core * 8192 + u))

def spadBytes (m : Mach) (core sa n : Nat) : List Byte := (upto n).map (fun i => memGet m.mem.spad (core * 2 ^ 19 + sa + i))

/-- A unit found uncorrectable is marked (R281). -/
def markSpad (m : Mach) (core u : Nat) : Mach :=
  if m.mem.badSpad.contains (core * 8192 + u) then m else { m with mem.badSpad := (core * 8192 + u) :: m.mem.badSpad }

/-- A refused command (R288): a BOUNDS record, and poison to an output or the trap, as a failed store has. -/
def refuseCmd (m : Mach) (r : Req) (a : Nat) : Mach :=
  let v := poisonReq r 0x08 (a % 2 ^ 56)
  let m1 := faultRec m r.past r.who ⟨v.pay, false, a % 2 ^ 56, 0, 0x08, 0, 0⟩
  match r.dst with
  | .out .. => finishTok m1 r.id [tokOf v]
  | _ => raiseCause (flush (delReq m1 r.id)) (causeCluster m1 r.who) ⟨0x07, BitVec.ofNat 64 v.pay.toNat, r.past⟩ r.who

/-! ## Weight tiles (R289-R292) -/

def byteAt (l : List Byte) (i : Nat) : Nat := ((l[i]?).map (·.toNat)).getD 0

/-- Units of a tile image (R290). -/
def tileUnits (t : List Byte) : Nat :=
  4 + ((upto 96).filter (fun k => ((t.drop (64 * k)).take 64).any (fun b => b != 0))).length
/-- What an invalid entry reads as (R292). -/
def emptyTile : List Byte := List.replicate 6144 0 ++ List.replicate 192 0x7F
def wbufTile (h : ArrH) (e : Nat) : List Byte := (tfind e h.wbuf).getD emptyTile

/-- MXWBUF at the array (R291). -/
def doWbuf (m : Mach) (p core : Nat) (r : Req) (bad : List Nat) (a b : Nat) : Mach :=
  let sa := a % 2 ^ 32
  let e := b % 32
  let h := heldOf m core
  if 32 ≤ b then refuseCmd m r sa
  else match arrAddr m p core sa 6336 64 with
    | .error x => refuseCmd m r x
    | .ok _ =>
      let us := ((upto 99).map (fun i => sa / 64 + i)).filter (fun u => (arrFault m core bad (64 * u) 64).isSome)
      if !us.isEmpty then
        let m1 := us.foldl (fun m u => faultRec (markSpad m core u) r.past r.who
          ⟨BitVec.ofNat 128 (originReq r 0x01 (core * 2 ^ 19 + 64 * u)), false, 64 * u, 0, 0x01, 0, 0⟩) m
        cmdDone (setHeld m1 core { h with wbuf := tdel e h.wbuf }) r.id (2 ^ 63 + 2)
      else
        let t := spadBytes m core sa 6336
        let others := ((tdel e h.wbuf).map (fun x => tileUnits x.2)).sum
        if 1536 < others + tileUnits t then
          cmdDone (setHeld m core { h with wbuf := tdel e h.wbuf }) r.id (2 ^ 63 + 1)
        else cmdDone (setHeld m core { h with wbuf := tset e t h.wbuf }) r.id (tileUnits t)

/-- MXWLD at the array (R292). -/
def doWld (m : Mach) (p core : Nat) (r : Req) (fmt : FFmt) (a b : Nat) : Mach :=
  let first := a % 32
  let count := bits a 8 3 + 1
  if bits a 5 3 != 0 || bits a 11 53 != 0 || 32 < first + count then refuseCmd m r (a % 2 ^ 32)
  else
    let q := { arrQOf m p core with first := first, count := count, wfmt := fmt, outerW := b % 2 ^ 32, seqOn := true }
    let h := heldOf m core
    cmdDone (setHeld (setArrQ m p core q) core { h with active := some ⟨wbufTile h first, fmt, b % 2 ^ 32⟩ }) r.id 0

/-- MXFMT at the array (R293). -/
def doFmt (m : Mach) (p core : Nat) (r : Req) (fmt : FFmt) (os : Bool) (a b : Nat) : Mach :=
  let sb := a % 2 ^ 32
  if sb % 16 != 0 || 2 ^ 19 ≤ sb || b % 16 != 0 || bits b 32 4 != 0 || bits b 48 16 != 0 then refuseCmd m r sb
  else
    let q := { arrQOf m p core with
      afmt := fmt, os := os, sbase := sb, rstride := b % 2 ^ 32, sstride := bits b 32 16, actOn := true }
    cmdDone (setArrQ m p core q) r.id 0

/-- MXACC at the array (R295). -/
def doAcc (m : Mach) (p core : Nat) (r : Req) (n : Nat) (sat clr : Bool) : Mach :=
  let q := arrQOf m p core
  let m1 := setArrQ m p core { q with bank := n, satm := setBits q.satm n 1 (if sat then 1 else 0) }
  let h := heldOf m1 core
  let m2 := if clr then setHeld m1 core { h with
      acc := tfilter (fun k => k / 2048 != n) h.acc, rowp := tfilter (fun k => k / 64 != n) h.rowp } else m1
  cmdDone m2 r.id 0

/-! ## MXRUN (R106, R294-R297) -/

def isFp8 (F : FFmt) : Bool := F == .e4m3 || F == .e5m2

/-- Elements per chunk, activation bytes per chunk and groups of a pairing; none where it is forbidden (R294). -/
def geometry (fa fw : FFmt) : Option (Nat × Nat × Nat) :=
  if isFp8 fa && (isFp8 fw || fw == .e2m1) then some (192, 192, 3)
  else if fa == .e2m1 && fw == .e2m1 then some (384, 192, 6)
  else if fa == .e2m1 && isFp8 fw then some (192, 96, 3)
  else if fa == .bf16 && fw == .bf16 then some (96, 192, 0)
  else none

/-- Element `k` of a column of bytes (R289, R93). -/
def elemAt (F : FFmt) (l : List Byte) (base k : Nat) : Nat :=
  match F with
  | .bf16 => byteAt l (base + 2 * k) + 256 * byteAt l (base + 2 * k + 1)
  | .e2m1 => bits (byteAt l (base + k / 2)) (4 * (k % 2)) 4
  | _ => byteAt l (base + k)

/-- Bytes of the elements below `n`. -/
def elemBytes (F : FFmt) (n : Nat) : Nat := match F with | .bf16 => 2 * n | .e2m1 => (n + 1) / 2 | _ => n

/-- MarkRow (R297). -/
def markRow (h : ArrH) (i : Nat) (p : W128) : ArrH :=
  match tfind i h.rowp with
  | none => { h with rowp := tset i p h.rowp }
  | some o => { h with rowp := tset i (bumpMerge ⟨o, true, false⟩ 1).pay h.rowp }

def isNanX : XR → Bool
  | .nan => true
  | _ => false

/-- RoundTo FP32 with the bank's saturate mode; a NaN is an invalid operation or a NaN input (R109). -/
def rnd32 (x : XR) (sat : Bool) : Nat × Nat :=
  let r := roundTo x .f32 .rne sat
  (r.1, r.2 ||| (if isNanX x then fNV else 0))

/-- The exact sum S of a chunk: the products of the groups below `last`, each group times its two scales (R106). -/
def chunkSum (fa fw : FFmt) (G last : Nat) (act sca tile : List Byte) (n : Nat) : XR :=
  let prods := fun lo hi => (xsum .rne (.fin false 0 0 false :: ((upto (hi - lo)).map (fun i =>
    (xmul (fval fa (elemAt fa act 0 (lo + i))) (fval fw (elemAt fw tile (192 * n) (lo + i)))).1)))).1
  if G = 0 then prods 0 last
  else
    let gs := (upto G).filter (fun g => 64 * g < last)
    (xsum .rne (.fin false 0 0 false :: gs.map (fun g =>
      (xmul (xmul (prods (64 * g) (min (64 * g + 64) last)) (scaleVal (byteAt sca (4 + g)))).1
        (scaleVal (byteAt tile (6144 + 32 * g + n)))).1))).1

/-- One accumulator element for one chunk (R106): the new value and its flags. -/
def passElem (x : XR) (outer : List Nat) (acc : Nat) (sat : Bool) : Nat × Nat :=
  let t := outer.foldl (fun (t : Nat × Nat) o =>
    let r := rnd32 (xmul (fval .f32 t.1) (fval .f32 o)).1 sat
    (r.1, t.2 ||| r.2)) (rnd32 x sat)
  let r := rnd32 (xadd .rne (fval .f32 acc) (fval .f32 t.1)).1 sat
  (r.1, t.2 ||| r.2)

/-- The state of an MXRUN around one row: held state, units to mark, flags, whether a row was marked. -/
structure RunAcc where
  h : ArrH
  bad : List Nat
  fl : Nat
  marked : Bool
  deriving DecidableEq, Repr

/-- The work of one row in one chunk: `ab` is the address of its elements, `rb` of its scale record. -/
def runRow (m : Mach) (core : Nat) (r : Req) (q : ArrQ) (bad : List Nat) (G last ab rb : Nat) (tile : List Byte) (i : Nat)
    (x : RunAcc) : RunAcc :=
  let key := q.bank * 64 + i
  if thas key x.h.rowp then x
  else
    let nb := elemBytes q.afmt last
    let f := (arrFault m core bad ab nb).orElse (fun _ => if G = 0 then none else arrFault m core bad rb 16)
    match f with
    | some u => { x with
        h := markRow x.h key (BitVec.ofNat 128 (originReq r 0x01 (core * 2 ^ 19 + 64 * u))), bad := u :: x.bad, marked := true }
    | none =>
      let act := spadBytes m core ab nb
      let rec16 := if G = 0 then [] else spadBytes m core rb 16
      let oa := if q.os then natOf (rec16.take 4) else 0x3F800000
      let outer := if G = 0 then [] else [oa, q.outerW]
      let sat := bitAt q.satm q.bank
      (upto 32).foldl (fun (x : RunAcc) n =>
        let k := q.bank * 2048 + i * 32 + n
        let v := passElem (chunkSum q.afmt q.wfmt G last act rec16 tile n) outer (tget 0 k x.h.acc).toNat sat
        { x with h := { x.h with acc := tput 0 k (BitVec.ofNat 32 v.1) x.h.acc }, fl := x.fl ||| v.2 }) x

/-- Flags join the accumulator status word of a bank (R109). -/
def orStat (h : ArrH) (bank fl : Nat) : ArrH :=
  { h with stat := tput 0 bank (tget 0 bank h.stat ||| BitVec.ofNat 32 fl) h.stat }
def statOf (h : ArrH) (bank : Nat) : Nat := (tget 0 bank h.stat).toNat
/-- TILES rises by 1, saturating at 65,535. -/
def countTile (h : ArrH) (bank : Nat) : ArrH :=
  let w := statOf h bank
  { h with stat := tput 0 bank (BitVec.ofNat 32 (min 65535 (w / 65536 + 1) * 65536 + w % 65536)) h.stat }

/-- The accesses of an MXRUN, in the order in which it makes them: rows that are not marked when it starts. -/
def runTouch (h : ArrH) (q : ArrQ) (E CB G chunks rows arow kl ab : Nat) : List (Nat × Nat × Nat) :=
  (upto chunks).flatMap (fun j => (upto rows).flatMap (fun i =>
    if thas (q.bank * 64 + arow + i) h.rowp then []
    else
      let last := if j + 1 = chunks then kl else E
      (ab + i * q.rstride + CB * j, elemBytes q.afmt last, 1)
        :: (if G = 0 then [] else [(q.sbase + i * q.sstride + 16 * j, 16, 1)])))

/-- The end of an MXRUN (R296): TILES, the tile registers and the result. -/
def runEnd (m : Mach) (p core : Nat) (r : Req) (chunks fl : Nat) (marked : Bool) : Mach :=
  let q := arrQOf m p core
  let h := heldOf m core
  let tile := fun k => some ⟨wbufTile h (q.first + k), q.wfmt, q.outerW⟩
  let res := (if marked then 1 else 0) + (if statOf h q.bank = 0 then 0 else 2)
  let h1 := if accFlags (bitAt q.satm q.bank) fl = 0 then h else countTile h q.bank
  cmdDone (setHeld m core { h1 with
    active := tile (chunks - 1)
    standby := if chunks = 1 then h.standby else tile (chunks - 2) }) r.id res

/-- The next row of an MXRUN (R296, R298): rows ascend within a chunk, and chunks ascend. Its flags reach the status word of the
bank and units found uncorrectable are marked (R281). -/
def runNext (m : Mach) (p core : Nat) (r : Req) (bad : List Nat) (a b E CB G : Nat) (pr : RunProg) : Mach :=
  let q := arrQOf m p core
  let rows := bits b 0 6 + 1
  let chunks := bits b 12 3 + 1
  let kl := if bits b 15 9 = 0 then E else bits b 15 9
  let j := pr.rows / rows
  let i := pr.rows % rows
  let h := heldOf m core
  let x := runRow m core r q bad G (if j + 1 = chunks then kl else E) (a % 2 ^ 32 + i * q.rstride + CB * j)
    (q.sbase + i * q.sstride + 16 * j) (wbufTile h (q.first + j)) (bits b 6 6 + i) ⟨h, [], pr.fl, pr.marked⟩
  let m1 := setHeld (x.bad.foldl (fun m u => markSpad m core u) m) core (orStat x.h q.bank (accFlags (bitAt q.satm q.bank) x.fl))
  if pr.rows + 1 = rows * chunks then runEnd (setArrQ m1 p core { q with prog := none }) p core r chunks x.fl x.marked
  else setArrQ m1 p core { q with prog := some ⟨pr.rows + 1, x.fl, x.marked⟩ }

/-- MXRUN at the array (R296), one row at a turn: other units of the core act between its rows (R14). Bytes at and beyond KLAST are not
touched. It is refused before its first row or not at all (R288). -/
def doRun (m : Mach) (p core : Nat) (r : Req) (bad : List Nat) (a b : Nat) : Mach :=
  let q := arrQOf m p core
  let h := heldOf m core
  let ab := a % 2 ^ 32
  let rows := bits b 0 6 + 1
  let arow := bits b 6 6
  let chunks := bits b 12 3 + 1
  match q.prog with
  | some pr =>
    match geometry q.afmt q.wfmt with
    | some (E, CB, G) => runNext m p core r bad a b E CB G pr
    | none => m
  | none =>
    if !q.seqOn || !q.actOn || bits b 24 40 != 0 || 64 < arow + rows || q.count < chunks || ab % 16 != 0 || !arrW0 ab then
      refuseCmd m r ab
    else match geometry q.afmt q.wfmt with
      | none =>
        let v := poisonReq r 0x04 (q.afmt.code + 16 * q.wfmt.code)
        cmdDone (setHeld m core (markRow h (q.bank * 64 + arow) v.pay)) r.id 1
      | some (E, CB, G) =>
        let kl := if bits b 15 9 = 0 then E else bits b 15 9
        if E < kl then refuseCmd m r ab
        else match arrBad m p core (runTouch h q E CB G chunks rows arow kl ab) with
          | some x => refuseCmd m r x
          | none => runNext m p core r bad a b E CB G ⟨0, 0, false⟩

/-! ## MXDRN (R299, R300) -/

/-- One token of a drained row: converted values, and the flags of the conversions. -/
def drainTok (h : ArrH) (fmt : FFmt) (rnd : Rnd) (sat : Bool) (bank i t : Nat) : Nat × Nat :=
  let per := 128 / fmt.width
  let vs := (upto per).map (fun c => roundTo (fval .f32 (tget 0 (bank * 2048 + i * 32 + per * t + c) h.acc).toNat) fmt rnd sat)
  (packLanes fmt.width (vs.map (·.1)), orFlags (vs.map (·.2)))

/-- Tokens of a drain in order, with their row; a marked row gives poisoned tokens (R300), and FLAG reads the status word
after the token's values are converted (R110). -/
def drainToks (fmt : FFmt) (rnd : Rnd) (sat : Bool) (bank ctx : Nat) :
    List (Nat × Nat) → ArrH → ArrH × List (Nat × Token)
  | [], h => (h, [])
  | (i, t) :: rest, h =>
    match tfind (bank * 64 + i) h.rowp with
    | some o =>
      let r := drainToks fmt rnd sat bank ctx rest h
      (r.1, (i, ⟨⟨o, true, false⟩, false, decide (statOf h bank % 16 ≠ 0), ctx⟩) :: r.2)
    | none =>
      let v := drainTok h fmt rnd sat bank i t
      let h1 := orStat h bank (accFlags sat v.2)
      let r := drainToks fmt rnd sat bank ctx rest h1
      (r.1, (i, ⟨⟨BitVec.ofNat 128 v.1, false, false⟩, false, decide (statOf h1 bank % 16 ≠ 0), ctx⟩) :: r.2)

/-- Clears drained rows (CLR). -/
def clearRows (h : ArrH) (bank frow rows : Nat) : ArrH :=
  { h with
    acc := tfilter (fun k => !(bank * 2048 + frow * 32 ≤ k && k < bank * 2048 + (frow + rows) * 32)) h.acc
    rowp := tfilter (fun k => !(bank * 64 + frow ≤ k && k < bank * 64 + frow + rows)) h.rowp }

/-- MXDRN at the array. The reserved bits of its drain word have no effect (R4). A drain to a channel goes on with DRAIN_TOKEN. -/
def doDrn (m : Mach) (p core : Nat) (r : Req) (fmt : FFmt) (rnd : Rnd) (sat ch : Bool) (a b : Nat) : Mach :=
  let h := heldOf m core
  let bank := b % 4
  let frow := bits b 8 6
  let rows := bits b 14 6 + 1
  let clr := bitAt b 20
  let ntok := fmt.width / 4
  let sa := a % 2 ^ 32
  let stride := if a / 2 ^ 32 = 0 then 16 * ntok else a / 2 ^ 32
  let addr := fun i => sa + (i - frow) * stride
  let sel := (upto rows).map (fun i => frow + i)
  let open' := sel.filter (fun i => !thas (bank * 64 + i) h.rowp)
  let row := fun (l : List (Nat × Nat)) => drainToks fmt rnd sat bank (if ch then bits a 8 2 else 0) l h
  let byRow := sel.flatMap (fun i => (upto ntok).map (fun t => (i, t)))
  let byCol := (upto ntok).flatMap (fun t => sel.map (fun i => (i, t)))
  if 64 < frow + rows || (ch && (bits a 12 52 != 0 || bitAt a 7)) || (!ch && (sa % 16 != 0 || stride % 16 != 0 || !arrW0 sa)) then refuseCmd m r sa
  else match (if ch then none else arrBad m p core (open'.map (fun i => (addr i, 16 * ntok, 1)))) with
    | some x => refuseCmd m r x
    | none =>
      let out := row (if ch && bitAt a 11 then byCol else byRow)
      let res := (if open'.length < rows then 1 else 0) + (if statOf out.1 bank = 0 then 0 else 2)
      let m1 := setHeld m core (if clr then clearRows out.1 bank frow rows else out.1)
      if ch then
        let eos : List Token := if bitAt a 10 then [⟨Val.none, true, false, bits a 8 2⟩] else []
        let q := arrQOf m1 p core
        setArrQ m1 p core { q with drain := some ⟨out.2.map (·.2) ++ eos, chanKey core (a % 16) (bits a 4 3), r.id, res⟩ }
      else
        let m2 := sel.foldl (fun m i =>
          match tfind (bank * 64 + i) h.rowp with
          | some o => faultRec m r.past r.who (poisonRec ⟨o, true, false⟩ 0)
          | none =>
            let bs := (out.2.filter (fun x => x.1 == i)).flatMap (fun x => bytesOf x.2.val.pay.toNat 16)
            writeLocs m ((upto (16 * ntok)).map (fun j => .spad (core * 2 ^ 19 + addr i + j))) bs) m1
        cmdDone m2 r.id res

/-! ## Execution in queue order (R283, R284) -/

def doCmd (m : Mach) (p core : Nat) (r : Req) (bad : List Nat) (op : ArrOp) : Mach :=
  match op with
  | .wld fmt a b => doWld m p core r fmt a b
  | .wbuf a b => doWbuf m p core r bad a b
  | .fmt fmt os a b => doFmt m p core r fmt os a b
  | .run a b => doRun m p core r bad a b
  | .acc n sat clr => doAcc m p core r n sat clr
  | .drn fmt rnd sat ch a b => doDrn m p core r fmt rnd sat ch a b
  | .st clr bank =>
    let h := heldOf m core
    cmdDone (if clr then setHeld m core { h with stat := tdel bank h.stat } else m) r.id (statOf h bank)
  | .wait => cmdDone m r.id 0

/-- The pasture whose commands the array of a core executes: the live one, or one that is not launched and for which a shepherd core
has sent commands (R303). -/
def arrayPast (m : Mach) (core : Nat) : Option Nat :=
  let waits := fun p => !(arrQOf m p core).queue.isEmpty
  match (livePast m core).filter (fun p => waits p || (arrQOf m p core).busy) with
  | some p => if running m p then some p else none
  | none => (upto 16).find? (fun p => (pastOf m p).st != .live && (pastOf m p).image.isNone && waits p)

/-- ARRAY_COMMAND (R284): the array executes the command at the head of its queue, in systolic mode only, one row of an MXRUN at a
time; a command of a halted unit has no request any more and changes nothing. -/
def arrayCommandG (core : Nat) (bad : List Nat) (m : Mach) : Mach :=
  match arrayPast m core with
  | none => m
  | some p =>
    let q := arrQOf m p core
    if !m.mat.mode.contains core || q.drain.isSome then m
    else match q.queue with
      | [] => m
      | c :: _ =>
        let m1 := takeHeld m core p
        match reqOf m1 c.req with
        | none => settleWaits p core 8 (popCmd m1 p core)
        | some r =>
          let m2 := doCmd m1 p core r bad c.op
          if (arrQOf m2 p core).busy then m2 else settleWaits p core 8 (popCmd m2 p core)
def execArrayCommand (core : Nat) (bad : List Nat) (s : State) : Out := lift (arrayCommandG core bad) s

/-- DRAIN_TOKEN (R300): the drain sends its next token once the one before it has entered its input; after the last the
command completes. -/
def drainTokenG (core : Nat) (m : Mach) : Mach :=
  match livePast m core with
  | none => m
  | some p =>
    let q := arrQOf m p core
    match q.drain with
    | none => m
    | some d =>
      if !running m p || m.fab.transit.any (fun t => t.src == 300000 + core) then m
      else match d.toks with
        | t :: rest => sendTok (setArrQ m p core { q with drain := some { d with toks := rest } }) (300000 + core) d.dst t
        | [] => settleWaits p core 8 (cmdDone (popCmd m p core) d.req d.res)
def execDrainToken (core : Nat) (s : State) : Out := lift (drainTokenG core) s

end Sys2Proof.Machine
end

