-- ==== Sys2Proof/Machine/Token.lean ====
section
/-! DEFINITION. Token, trigger and predicate instructions, class 0x0_ (R123-R134). -/
namespace Sys2Proof.Machine

/-- NOP (R124): no effect. -/
def execNop (s : State) : Out := lift (fun m => m) s

/-- The EOS and FLAG bits of the head that a channel operand names. -/
def headKind (m : Mach) (o : Opd) : Bool × Bool :=
  match m.cur, o with
  | .pe core pe .., .inC n => let t := headOf m core pe n.val; (t.eos, t.flag)
  | _, _ => (false, false)

/-- MOV (R125). -/
def movG (pk : Bool) (d a : Opd) (m : Mach) : Mach :=
  let k := if pk then headKind m a else (false, false)
  let tok := fun v => (⟨v, k.1, k.2, firingBank m⟩ : Token)
  fireK [(.whole, a)] (.opd d) (fun v m1 => putTok m1 (.opd d) (tok v))
    (fun vs m1 => putTok m1 (.opd d) (tok (valAt vs 0))) m
def execMov (f : BitF) (d a : Opd) (s : State) : Out := lift (movG f.bit d a) s

/-- SEND (R126): the tag of the emitted token comes from B[4:0]; when only A is poisoned it still does. -/
def sendG (d a b : Opd) (m : Mach) : Mach :=
  let vb := srcVal m .whole b
  let n := vb.pay.toNat
  let tag := fun v => (⟨v, bitAt n 0, bitAt n 1, if bitAt n 2 then bits n 3 2 else firingBank m⟩ : Token)
  fireK [(.whole, a), (.whole, b)] (.opd d)
    (fun v m1 => putTok m1 (.opd d) (if vb.poison then ⟨v, false, false, firingBank m⟩ else tag v))
    (fun vs m1 => putTok m1 (.opd d) (tag (valAt vs 0))) m
def execSend (d a b : Opd) (s : State) : Out := lift (sendG d a b) s

/-- DEQ (R127): discards n tokens; a poisoned one is recorded and does not trap. -/
def deqGo (core pe ch : Nat) : Nat → Mach → Mach
  | 0, m => m
  | n + 1, m =>
    match headTok m (chanKey core pe ch) with
    | none => m
    | some t =>
      let m1 := dequeue m (chanKey core pe ch)
      deqGo core pe ch n (if t.val.poison then faultRec m1 (pastOfActor m1 m1.cur) m1.cur (poisonRec t.val 0) else m1)
def deqG (n : Nat) (a : Opd) (m : Mach) : Mach :=
  match m.cur, a with
  | .pe core pe .., .inC ch => deqGo core pe ch.val n m
  | _, _ => m
def execDeq (f : DeqF) (a : Opd) (s : State) : Out := lift (deqG f.n.val a) s

/-- TAGR (R128): the head tag, without a dequeue and without the poison step. -/
def tagrG (d a : Opd) (m : Mach) : Mach :=
  match m.cur, a with
  | .pe core pe .., .inC ch => putRes m (.opd d) (Val.ofNat (tagOf (headOf m core pe ch.val)))
  | _, _ => m
def execTagr (d a : Opd) (s : State) : Out := lift (tagrG d a) s

/-- EOS (R129). -/
def eosG (d : Opd) (m : Mach) : Mach := putTok m (.opd d) ⟨Val.none, true, false, firingBank m⟩
def execEos (d : Opd) (s : State) : Out := lift (eosG d) s

/-- PSET (R130). -/
def psetG (mask value : Nat) (m : Mach) : Mach :=
  match m.cur with
  | .pe core pe frame _ bank _ =>
    let ctx := frame * 4 + bank
    let p := pePred m core pe ctx
    setPePred m core pe ctx ((p &&& (255 - mask)) ||| (value &&& mask))
  | _ => m
def execPset (a b : Fin 256) (s : State) : Out := lift (psetG a.val b.val) s

/-- The operations of PLOG (R131). -/
def logOp : LogOp → Bool → Bool → Bool
  | .and, x, y => x && y
  | .or, x, y => x || y
  | .xor, x, y => x != y
  | .andn, x, y => x && !y

/-- PLOG (R131). -/
def plogG (op : LogOp) (d a b : Nat) (m : Mach) : Mach := setPred m d (logOp op (getPred m a) (getPred m b))
def execPlog (f : PlogF) (d a b : Fin 8) (s : State) : Out := lift (plogG f.op d.val a.val b.val) s

/-- DONE (R132). -/
def doneG (m : Mach) : Mach :=
  match m.cur with
  | .pe core pe frame _ bank _ => doneShare m m.cur core pe frame bank
  | _ => m

/-- POISON (R133). -/
def poisonG (cause : Nat) (d a : Opd) : Mach → Mach :=
  fire [(.whole, a)] (.opd d) (fun vs m => putRes m (.opd d) (poison m m.cur cause (bits (natAt vs 0) 0 81)))
def execPoison (f : PoisF) (d a : Opd) (s : State) : Out := lift (poisonG f.cause.val d a) s

/-- The occupancy word of CHQ (R134); the count of an output with a ring is capped at 20 (log 25). -/
def chqWord (m : Mach) (core pe ch : Nat) : Nat :=
  if ch < 8 then
    let c := chanOf m (chanKey core pe ch)
    c.ring.length % 2 ^ 32 * 2 ^ 32 + (if bindDL c.binding then 128 else 0) + (if ringCap c = 0 then 0 else 64)
      + Nat.min 20 c.fifo.length
  else match creditOf m core pe (ch - 8) with
    | none => 32
    | some n => Nat.min 20 n
/-- CHQ (R134). -/
def chqG (d : Opd) (a : Nat) (m : Mach) : Mach :=
  match m.cur with
  | .pe core pe .. => putRes m (.opd d) (Val.ofNat (chqWord m core pe a))
  | _ => m
def execChq (d : Opd) (a : Fin 16) (s : State) : Out := lift (chqG d a.val) s

end Sys2Proof.Machine
end

