-- ==== Sys2Proof/Machine/Select.lean ====
section
/-! DEFINITION. Selection, sparse and expert instructions, class 0xA_: buckets and cut-offs (R308-R315), the index engine
(R316-R319) and expert queues (R320-R326, R373). -/
namespace Sys2Proof.Machine

/-! ## Buckets (R309-R311) -/

/-- A hole: a NaN lane (R309). -/
def isHole (x : Nat) : Bool := isNanCode .f32 x
/-- key(x) (R310). -/
def selKey (x : Nat) : Nat := if bitAt x 31 then 2 ^ 32 - 1 - x % 2 ^ 32 else x % 2 ^ 32 + 2 ^ 31
/-- bkt(x) under a selection word (R310). -/
def bucket (sw x : Nat) : Nat := min 15 (selKey x / 2 ^ bits sw 0 5 - bits sw 8 24)

/-- The register after an even m register. -/
def nextReg : Opd → Opd
  | .r n => .r (n + 1)
  | o => o

/-- Adds lane `x` to a histogram of 16 counts: the histogram and the flag. -/
def histAdd (sw : Nat) (h : List Nat) (x : Nat) : List Nat × Nat :=
  if isHole x then (h, 0)
  else
    let b := bucket sw x
    if (h[b]?).getD 0 = 65535 then (h, fOV) else (h.set b ((h[b]?).getD 0 + 1), 0)

/-- A histogram of two registers. -/
def histOf (lo hi : Nat) : List Nat := lanesOf 16 8 lo ++ lanesOf 16 8 hi
def histLo (h : List Nat) : Nat := packLanes 16 (h.take 8)
def histHi (h : List Nat) : Nat := packLanes 16 (h.drop 8)

/-- BHIST's counting: both registers and the flags. -/
def histStep (sw a : Nat) (h : List Nat) : List Nat × Nat :=
  (lanesOf 32 4 a).foldl (fun (x : List Nat × Nat) v => let y := histAdd sw x.1 v; (y.1, x.2 ||| y.2)) (h, 0)

/-- BHIST (R311): poison goes to both registers. As in all of class 0xA_, which has no SHAPE field, an immediate is 128 bits
(R70; log 26). -/
def bhistG (d a b : Opd) : Mach → Mach :=
  let both := fun (v : Val) (m : Mach) => putRes (putRes m (.opd d) v) (.opd (nextReg d)) v
  fireK [(.whole, a), (.whole, b), (.whole, d), (.whole, nextReg d)] (.opd d) both (fun vs m =>
    if (valAt vs 0).scaled then both (scalePoison m true) m
    else
      let r := histStep (natAt vs 1 % 2 ^ 64) (natAt vs 0) (histOf (natAt vs 2) (natAt vs 3))
      sticky (putRes (putRes m (.opd d) (Val.ofNat (histLo r.1))) (.opd (nextReg d)) (Val.ofNat (histHi r.1))) r.2)
def execBhist (d a b : Opd) (s : State) : Out := lift (bhistG d a b) s

/-- The number of entries in buckets `t` and above. -/
def histFrom (h : List Nat) (t : Nat) : Nat := (h.drop t).sum
/-- The largest bucket whose count from it upward reaches `k`, or 0 (R312). -/
def threshold (h : List Nat) (k : Nat) : Nat → Nat
  | 0 => 0
  | t + 1 => if k ≤ histFrom h (t + 1) then t + 1 else threshold h k t

/-- BSEL (R312). -/
def bselG (d a b : Opd) : Mach → Mach :=
  fire [(.whole, a), (.whole, nextReg a), (.whole, b)] (.opd d) (fun vs m =>
    let h := histOf (natAt vs 0) (natAt vs 1)
    let t := threshold h (natAt vs 2 % 2 ^ 16) 15
    putRes m (.opd d) (Val.ofNat (packLanes 32 [t, histFrom h t, histFrom h (t + 1), histFrom h 0])))
def execBsel (d a b : Opd) (s : State) : Out := lift (bselG d a b) s

/-- Lanes that BEXT selects (R313), with their numbers. -/
def selected (sw : Nat) (ls : List Nat) : List (Nat × Nat) :=
  ((upto ls.length).map (fun i => (i, (ls[i]?).getD 0))).filter (fun x =>
    !isHole x.2 && decide (bits sw 32 4 ≤ bucket sw x.2 ∧ bucket sw x.2 ≤ bits sw 36 4))

def padTo (n v : Nat) (l : List Nat) : List Nat := l ++ List.replicate (n - l.length) v

/-- BEXT .sum over the lanes: S, U, the counts and the flags (R313). -/
def bextSum (sw a d : Nat) : Nat × Nat :=
  let r := (lanesOf 32 4 a).foldl (fun (x : List Nat × Nat) v =>
    if isHole v then x
    else
      let s := decide (bits sw 32 4 ≤ bucket sw v ∧ bucket sw v ≤ bits sw 36 4)
      let i := if s then 0 else 1
      let y := fadd32 ((x.1[i]?).getD 0) v .rne false
      ((x.1.set i y.1).set (i + 2) (((x.1[i + 2]?).getD 0 + 1) % 2 ^ 32), x.2 ||| y.2)) (lanesOf 32 4 d, 0)
  (packLanes 32 r.1, r.2)

/-- BEXT (R313). -/
def bextG (mode : BextMode) (d a b : Opd) : Mach → Mach :=
  let rd := [(LaneK.whole, a), (.whole, b)] ++ (if mode = .sum then [(.whole, d)] else [])
  fire rd (.opd d) (fun vs m =>
    scaleCheck false [(valAt vs 0, true)] (.opd d) (fun m =>
      let sw := natAt vs 1 % 2 ^ 64
      let sel := selected sw (lanesOf 32 4 (natAt vs 0))
      match mode with
      | .sum => let r := bextSum sw (natAt vs 0) (natAt vs 2); sticky (putRes m (.opd d) (Val.ofNat r.1)) r.2
      | .val =>
        putTok m (.opd d) ⟨Val.ofNat (packLanes 32 (padTo 4 FFmt.f32.canon (sel.map (·.2)))), false, sel.isEmpty, firingBank m⟩
      | .idx =>
        putTok m (.opd d) ⟨Val.ofNat (packLanes 32 (padTo 4 (2 ^ 32 - 1) (sel.map (fun x => (bits sw 40 24 + x.1) % 2 ^ 32)))),
          false, sel.isEmpty, firingBank m⟩) m)
def execBext (f : BextF) (d a b : Opd) (s : State) : Out := lift (bextG f.mode d a b) s

/-! ## Scans (R314, R315) -/

/-- The carry of a floating-point scan: the highest lane that is not NaN, or +0. -/
def scanCarry (b : Nat) : Nat := ((lanesOf 32 4 b).reverse.find? (fun x => !isHole x)).getD 0

/-- One lane of a scan: the running value, the lane's result and its flags. -/
def scanLane (op : ScanOp) (r : Rnd) (s a : Nat) : Nat × Nat × Nat :=
  match op with
  | .add => let x := (s + a) % 2 ^ 32; (x, x, 0)
  | .fsum => if isHole a then (s, FFmt.f32.canon, 0) else let x := fadd32 s a r false; (x.1, x.1, x.2)
  | .fmax => if isHole a then (s, FFmt.f32.canon, 0) else let x := (minMaxNum .f32 true s a).1; (x, x, 0)

/-- The scan of four lanes from a carry. -/
def scanLanes (op : ScanOp) (r : Rnd) : List Nat → Nat → List Nat × Nat
  | [], _ => ([], 0)
  | a :: as, s =>
    let x := scanLane op r s a
    let y := scanLanes op r as x.1
    (x.2.1 :: y.1, x.2.2 ||| y.2)

/-- PSCAN (R314). -/
def pscanG (f : PscanF) (d a b : Opd) : Mach → Mach :=
  let isAdd := f.op == .add
  fire [(.whole, a), (.whole, b)] (.opd d) (fun vs m =>
    let eff := fun m =>
      let c := if isAdd then lane 32 (natAt vs 1) 3 else scanCarry (natAt vs 1)
      let r := scanLanes f.op f.rnd (lanesOf 32 4 (natAt vs 0)) c
      sticky (putRes m (.opd d) (Val.ofNat (packLanes 32 r.1))) r.2
    if isAdd then eff m else scaleCheck false [(valAt vs 0, true)] (.opd d) eff m)
def execPscan (f : PscanF) (d a b : Opd) (s : State) : Out := lift (pscanG f d a b) s

/-- TOPP's record (R315): threshold, last prefix, kept and seen counts. -/
def toppLane (x : Nat × Nat × Nat × Nat) (a : Nat) : Nat × Nat × Nat × Nat :=
  if isHole a then x
  else
    let keep := xcmp (fval .f32 x.2.1) (fval .f32 x.1) == some .lt
    (x.1, a, (x.2.2.1 + (if keep then 1 else 0)) % 2 ^ 32, (x.2.2.2 + 1) % 2 ^ 32)
def toppStep (a d : Nat) : Nat :=
  let r := (lanesOf 32 4 a).foldl toppLane (lane 32 d 0, lane 32 d 1, lane 32 d 2, lane 32 d 3)
  packLanes 32 [r.1, r.2.1, r.2.2.1, r.2.2.2]

/-- TOPP (R315). -/
def toppG (d a : Opd) : Mach → Mach :=
  fire [(.whole, a), (.whole, d)] (.opd d) (fun vs m =>
    scaleCheck false [(valAt vs 0, true)] (.opd d)
      (fun m => putRes m (.opd d) (Val.ofNat (toppStep (natAt vs 0) (natAt vs 1)))) m)
def execTopp (d a : Opd) (s : State) : Out := lift (toppG d a) s

/-! ## The index engine (R316-R319) -/

/-- IWALK (R318): the request, with the handle as the firing reads it. Reserved bits of B refuse it as a wrong handle does
(log 36). -/
def iwalkG (f : ScF) (d a b : Opd) : Mach → Mach :=
  memStart [b] [d] [] (poisonNow d .tile) (fun vs m =>
    let x := readHand m (hanNo a)
    let w := natAt vs 0
    let bad := bits w 96 32 != 0
    addReq m { mkReq m (dstOf m d false)
        (.iwalk (if bad then 0 else x.1) (hanNo a) (bits w 0 32) (bits w 32 32) (bits w 64 32) 0) f.scope.code false false with
      hwait := if bad then none else x.2 })
def execIwalk (f : ScF) (d a b : Opd) (s : State) : Out := lift (iwalkG f d a b) s

/-- SPMX (R319): the handles as the firing reads them; a pending handle ends as one that SPMX refuses. -/
def spmxG (f : ScF) (d a b : Opd) : Mach → Mach :=
  memStart [b] [d] [] (poisonNow d .tile) (fun vs m =>
    let w := natAt vs 0
    let xn := bits w 96 4
    let h := readHand m (hanNo a)
    let x := readHand m xn
    let bad := bits w 100 28 != 0
    addReq m { mkReq m (dstOf m d false)
        (.spmx (if bad then 0 else h.1) x.1 (hanNo a + 16 * xn) (bits w 0 32) (bits w 32 32) (bits w 64 32) 0)
        f.scope.code false false with
      hwait := if bad then none else h.2.orElse (fun _ => x.2) })
def execSpmx (f : ScF) (d a b : Opd) (s : State) : Out := lift (spmxG f d a b) s

/-- The number of j in 1 … MAJ with pos[j] ≤ p, at most MAJ − 1 (R317). -/
def majorIndex (m : Mach) (r : Req) (pos maj p : Nat) : Except (Nat × Nat) Nat :=
  match (upto maj).mapM (fun j => engRead m r (pos + 4 * (j + 1)) 4) with
  | .error x => .error x
  | .ok vs => .ok (min (maj - 1) (vs.filter (fun v => v ≤ p)).length)

/-- Row and column of position `p` (R317). -/
def walkCoord (m : Mach) (r : Req) (hv : BitVec 256) (maj p : Nat) : Except (Nat × Nat) (Nat × Nat) :=
  if hType hv = 4 then
    match engRead m r (hAux1 hv + 8 * p) 8 with
    | .error x => .error x
    | .ok v => .ok (v % 2 ^ 32, v / 2 ^ 32)
  else match majorIndex m r (hAux0 hv) maj p with
    | .error x => .error x
    | .ok j =>
      match engRead m r (hAux1 hv + 4 * p) 4 with
      | .error x => .error x
      | .ok c => .ok (if hType hv = 2 then (j, c) else (c, j))

/-- Handles that IWALK and SPMX accept (R317). -/
def walkOk (hv : BitVec 256) (maj : Nat) : Bool :=
  let l := hLvl hv % 16
  ((hType hv == 2 || hType hv == 3) && l == 4 && maj != 0) || (hType hv == 4 && l == 9)
def spmxOk (hv x : BitVec 256) (maj : Nat) : Bool :=
  hType hv != 4 && walkOk hv maj && hType x == 1 && (hEsz hv == 1 || hEsz hv == 2) && (hEsz x == 1 || hEsz x == 2)

def fmtOfEsz (e : Nat) : FFmt := if e = 1 then .bf16 else .f32

/-- The running sum of SPMX over one major index: y, k, whether an index was out of range, and flags. -/
structure SpAcc where
  y : Nat
  k : Nat
  bad : Option Nat
  fl : Nat
  deriving DecidableEq, Repr

/-- One position of SPMX (R319). -/
def spmxPos (m : Mach) (r : Req) (hv x : BitVec 256) (p : Nat) (s : SpAcc) : Except (Nat × Nat) SpAcc :=
  let ew := 2 ^ hEsz hv
  let xw := 2 ^ hEsz x
  match engRead m r (hAux1 hv + 4 * p) 4 with
  | .error e => .error e
  | .ok j =>
    if hBound x < (j + 1) * xw then .ok { s with bad := s.bad.orElse (fun _ => some ((hBase x + j * xw) % 2 ^ 56)) }
    else match engRead m r (hBase hv + p * ew) ew, engRead m r (hBase x + j * xw) xw with
      | .error e, _ => .error e
      | .ok _, .error e => .error e
      | .ok v, .ok w =>
        let F := fmtOfEsz (hEsz hv)
        let G := fmtOfEsz (hEsz x)
        let pr := xmul (fval F v) (fval G w)
        let sm := xadd .rne (fval .f32 s.y) pr.1
        let z := Sys2Proof.finish (sm.1, pr.2 ||| sm.2) .f32 .rne false (snanFlag F [v] ||| snanFlag G [w])
        .ok { s with y := z.1, k := s.k + 1, fl := s.fl ||| z.2 }

def spmxGo (m : Mach) (r : Req) (hv x : BitVec 256) : Nat → Nat → SpAcc → Except (Nat × Nat) SpAcc
  | 0, _, s => .ok s
  | n + 1, p, s =>
    match spmxPos m r hv x p s with
    | .error e => .error e
    | .ok t => spmxGo m r hv x n (p + 1) t

/-- The sum of one major index of SPMX. -/
def spmxRow (m : Mach) (r : Req) (hv x : BitVec 256) (mj : Nat) : Except (Nat × Nat) SpAcc :=
  match engRead m r (hAux0 hv + 4 * mj) 4, engRead m r (hAux0 hv + 4 * (mj + 1)) 4 with
  | .error e, _ => .error e
  | .ok _, .error e => .error e
  | .ok a, .ok b =>
    let hi := min b (hBound hv / 2 ^ hEsz hv)
    spmxGo m r hv x (hi - a) a ⟨0, 0, none, 0⟩

/-- Flags of a request reach the arithmetic status word of the context that fired it. -/
def stickyReq (m : Mach) (r : Req) (fl : Nat) : Mach :=
  match r.who with
  | .pe core _ frame _ bank _ =>
    let ix := ctxKey core frame bank
    setAstat m r.past ix ((astatOf m r.past ix).toNat ||| fl)
  | _ => m

def isIndexReq (r : Req) : Bool :=
  match r.op with | .iwalk .. => true | .spmx .. => true | _ => false

/-- Whether the index engine of the request's core works on it: one of its 8 oldest, in its turn on D, with its chain
position reached (R316). A pasture that is gated gets no token (R426), but one that is halted ends its requests (R435). -/
def indexTurn (m : Mach) (r : Req) : Bool :=
  let mine := m.mem.reqs.filter (fun q => isIndexReq q && q.id < r.id && coreOfActor q.who == coreOfActor r.who)
  (running m r.past || halting m r.past) && mayIssue m r && mine.length < 8 && firstOfSlot m r && !mine.any (fun q => q.dst == r.dst)

/-- The last token of a walk: the count, with EOS, and FLAG when it was cut. -/
def walkEnd (m : Mach) (r : Req) (e : Nat) (cut : Bool) : Mach :=
  if dstCredit m r then finishTok m r.id [⟨Val.ofNat (e % 2 ^ 32), true, cut, 0⟩] else m

/-- The reads of a walk's next token count towards the moving of their pages (R197), once for each range and page, and send their flits
(R399; log 103). -/
def walkCounts (m : Mach) (r : Req) : Mach :=
  ((walkReads m r).flatMap (fun x => if x.2 = 0 then [] else
      (upto ((x.1 + x.2 - 1) / 65536 - x.1 / 65536 + 1)).map (fun i => (x.1 / 65536 + i) * 65536))).foldl
    (fun m va => countAt m r va) (sendFlits m r (nextLocs m r))
/-- A token of a walk that is not the last one. -/
def walkToken (m : Mach) (r : Req) (next : ReqOp) (used : Nat) (v : Val) : Mach :=
  if dstCredit m r then
    let m0 := walkCounts m r
    let m1 := modReq { m0 with free := m0.free + used } r.id (fun q => { q with op := next })
    deliverTok m1 r.past r.who r.dst (tokOf v)
  else m

/-- Whether the outside or a check code may fail a read of a walk: its cause, with the DETAIL that R79 gives it. -/
def walkFails (m : Mach) (r : Req) (cause detail : Nat) : Bool :=
  let at' := fun (f : Loc → Bool) => (walkReads m r).any (fun x => (upto x.2).any (fun i =>
    match byteLoc m r (x.1 + i) .rd with | .ok l => f l | .error _ => false))
  match cause with
  | 0x01 => detail % 64 == 0 && at' (fun l => locPa l / 64 * 64 == detail)
  | 0x07 => at' (fun l => locPa l == detail)
  | 0x0C => at' (fun l => match l with
      | .peer .. => false
      | .host t _ => t == 0 && detail == 2 * max r.scope (serverScope m r.who l)
      | _ => detail == 2 * max r.scope (serverScope m r.who l))
  | 0x09 => at' (fun l => match l with | .peer p _ _ => p == detail | .host t _ => t == detail && t != 0 | _ => false)
  | 0x0A => at' (fun l => match l with | .peer p _ _ => p == detail | _ => false)
  | 0x0D => at' (fun l => match l with | .peer p _ _ => p == detail | _ => false)
  | _ => false

/-- The next token of a walk: what its reads give, or the poison `failed` of one that fails as loads fail. -/
def walkStep (m : Mach) (r : Req) (failed : Option Val) : Mach :=
  match r.op with
  | .iwalk hv h p0 cnt maj e =>
    let p := p0 + e
    if !walkOk hv maj then finishTok m r.id [tokOf (poisonReq r 0x08 (h * 2 ^ 56))]
    else if e < cnt ∧ p < hBound hv / 2 ^ hEsz hv then
      walkToken m r (.iwalk hv h p0 cnt maj (e + 1)) (16 + 4 * maj) (match failed, walkCoord m r hv maj p with
        | some v, _ => v
        | none, .error (c, d) => poisonReq r c d
        | none, .ok x => Val.ofNat (packLanes 32 [x.1, x.2, p, e]))
    else walkEnd m r e (decide (e < cnt))
  | .spmx hv x h m0 cm maj e =>
    let mj := m0 + e
    if !spmxOk hv x maj then finishTok m r.id [tokOf (poisonReq r 0x08 (h % 16 * 2 ^ 56))]
    else if e < cm ∧ mj < maj then
      let next := ReqOp.spmx hv x h m0 cm maj (e + 1)
      match failed, spmxRow m r hv x mj with
      | some v, _ => walkToken m r next 8 v
      | none, .error (c, d) => walkToken m r next 8 (poisonReq r c d)
      | none, .ok s =>
        let v := match s.bad with
          | some a => poisonReq r 0x08 (a + h / 16 * 2 ^ 56)
          | none => Val.ofNat (packLanes 32 [s.y, mj, s.k, 0])
        if dstCredit m r then stickyReq (walkToken m r next (8 + 12 * (s.k + 1)) v) r s.fl else m
    else walkEnd m r e (decide (e < cm))
  | _ => m

/-- The outside answers with a failure of its own. -/
def answersFail : Answer → Bool
  | .fail c _ => c != 0
  | _ => false

/-- INDEX_ENGINE_EMIT (R316, R318, R319): the next token of a request, in order, or the poison of a read of it that fails as loads
fail: a unit that it finds uncorrectable is marked (R281), and a discarded flit goes again (R399). -/
def indexEngineEmitG (id : Nat) (ans : Answer) (m : Mach) : Mach :=
  match reqOf m id with
  | none => m
  | some r =>
    if !indexTurn m r || (!answersFail ans && laneHeld m r (nextLocs m r)) then m
    else match ans with
      | .fail c d =>
        if c = 0 then discarded m r (nextLocs m r) (fun p => walkStep m r (some (poisonReq r 0x09 p)))
        else if walkFails m r c.toNat d.toNat then
          walkStep (markBad m (nextLocs m r) c.toNat d.toNat) r (some (poisonReq r c.toNat d.toNat))
        else m
      | _ => walkStep m r none
def execIndexEngineEmit (turn : EngineTurn) (s : State) : Out := lift (indexEngineEmitG turn.id turn.ans) s

/-! ## Expert queues (R320-R326) -/

def queueX (m : Mach) (q : Nat) : ExpQ := tget ExpQ.reset q m.sel.queues
def setQueueX (m : Mach) (q : Nat) (x : ExpQ) : Mach := { m with sel.queues := tput ExpQ.reset q x m.sel.queues }

/-- The address space of a request's issuer. -/
def reqAsid (m : Mach) (r : Req) : Nat :=
  match r.who with
  | .unit u _ => if isShepherd u then 0xFFF else (pastOf m r.past).asid
  | _ => (pastOf m r.past).asid

/-- A queue that a request may use: claimed, by its address space (R323). -/
def queueMine (m : Mach) (r : Req) (q : Nat) : Bool :=
  let x := queueX m q
  x.thr != 0 && x.asid == reqAsid m r

def exqCount (x : ExpQ) : Nat := x.entries.length + x.ringq.length
def unreleased (x : ExpQ) : Nat := exqCount x - x.released
def releaseAll (x : ExpQ) : ExpQ := { x with released := exqCount x }

/-- Ring entries move up as room frees (R323). -/
def exqRefill (x : ExpQ) : ExpQ :=
  let n := 4096 - x.entries.length
  { x with entries := x.entries ++ x.ringq.take n, ringq := x.ringq.drop n }

/-- The entries of the table of the family that casts queue `q` (R373): lowest hash and queue. -/
def castTable (m : Mach) (q : Nat) : List KrtE :=
  match m.stage.fams.find? (fun e => bits ((e.2.desc[0]?).getD 0).toNat 6 2 == 2 && bits ((e.2.desc[6]?).getD 0).toNat 32 9 == q) with
  | some e => e.2.entries
  | none => []


/-- The queue that an EXQ to `q` reaches: routed by RHash of the issuing core under a cast (R373). -/
def routeExq (m : Mach) (r : Req) (q : Nat) : Nat :=
  match coverOf (castTable m q) (rhash ((coreOfActor r.who).getD 0)) with
  | some e => e.core
  | none => q

/-- The entry of a ring in memory, laid out as R117 states. -/
def exqRingStore (m : Mach) (r : Req) (x : ExpQ) (t : Token) : Mach :=
  match virtLocs m r.who r.past (x.ring + 32 * x.ringh) 17 .wr with
  | .ok ls => touch (setBytes m ls (ringBytes t)) ls
  | .error _ => m

/-- Appends an entry; none when the queue and its ring are full (R323, R324). -/
def appendX (m : Mach) (r : Req) (q : Nat) (t : Token) : Option Mach :=
  let x := queueX m q
  let thr := fun (y : ExpQ) => if y.thr ≤ unreleased y then releaseAll y else y
  if x.entries.length < 4096 ∧ x.ringq.isEmpty then some (setQueueX m q (thr { x with entries := x.entries ++ [t] }))
  else if x.ringq.length < 256 * x.ringn then
    some (setQueueX (exqRingStore m r x t) q
      (thr { x with ringq := x.ringq ++ [t], ringh := (x.ringh + 1) % (256 * x.ringn) }))
  else none

/-- Requests of one issuer to one queue arrive in issue order (R320). -/
def sameIssuer (a b : Actor) : Bool :=
  match a, b with
  | .pe c p _ _ _ _, .pe c2 p2 _ _ _ _ => c == c2 && p == p2
  | .unit u _, .unit v _ => u == v
  | _, _ => false
def isExq (r : Req) : Bool := match r.op with | .exq .. => true | _ => false
def queueReq (r : Req) : Option Nat :=
  match r.op with | .exq q _ => some q | .exdq q _ => some q | _ => none
def queuePoison (m : Mach) (r : Req) (q : Nat) : Mach := finishTok m r.id [tokOf (poisonReq r 0x08 q)]

/-- EXQ at its queue. -/
def doExq (m : Mach) (r : Req) (q : Nat) (t : Token) : Mach :=
  if !queueMine m r q then queuePoison m r q
  else match appendX m r (routeExq m r q) t with
    | some m1 => finish m1 r.id 0
    | none => m

/-- The queue that an EXDQ on `q` takes from: the lowest entry of a cast family with a released entry, a twin only once the
owner's entries of the cut are gone (R373). -/
def sourceExdq (m : Mach) (q : Nat) : Nat :=
  match (castTable m q).find? (fun e => let x := queueX m e.core; 1 ≤ x.released && x.cut == 0) with
  | some e => e.core
  | none => q

/-- Entries leave queue `k`: the cuts of its twins shrink. -/
def takeX (m : Mach) (k n : Nat) : Mach :=
  let x := queueX m k
  let m1 := setQueueX m k (exqRefill { x with entries := x.entries.drop n, released := x.released - n })
  { m1 with sel.queues := m1.sel.queues.map (fun e => if e.2.twinOf == some k then (e.1, { e.2 with cut := e.2.cut - n }) else e) }

/-- EXDQ at its queue (R325): while its pasture is gated it takes no entry (R426). -/
def doExdq (m : Mach) (r : Req) (q n : Nat) : Mach :=
  if !queueMine m r q then queuePoison m r q
  else if !(running m r.past || isShepActor r.who) then m
  else
    let k := sourceExdq m q
    let x := queueX m k
    let c := min n x.released
    if c = 0 ∨ x.cut ≠ 0 then m
    else finishTok (takeX m k c) r.id (x.entries.take c ++ [⟨Val.ofNat c, true, false, 0⟩])

/-- Whether a request, once it has arrived, need not wait at its queue: an EXQ has room (R323), an EXDQ finds a released entry
(R325), or it is refused. -/
def queueOpen (m : Mach) (r : Req) : Bool :=
  match r.op with
  | .exq q t => !queueMine m r q || (appendX m r (routeExq m r q) t).isSome
  | .exdq q _ => !queueMine m r q || (let x := queueX m (sourceExdq m q); decide (x.released ≠ 0 ∧ x.cut = 0))
  | _ => false
/-- Requests that have arrived and wait at queue `q`, in arrival order, are ahead of a later arrival of their own kind: EXQs for room in
one queue, EXDQs for entries (R320, R325). A gated pasture's EXDQ takes no entry and lets others pass (R426). -/
def queueAhead (m : Mach) (r : Req) (q : Nat) : Bool :=
  ((queueX m q).waits.takeWhile (· != r.id)).any (fun i => match reqOf m i with
    | some x => !x.done && isExq x == isExq r && (if isExq r then routeExq m x q == routeExq m r q else running m x.past || isShepActor x.who)
    | none => false)
/-- A request arrives at its queue, and with it those of its issuer that were sent before it (R320). -/
def arriveQueue (m : Mach) (r : Req) (q : Nat) : Mach :=
  let x := queueX m q
  let due := (m.mem.reqs.filter (fun y => !y.done && queueReq y == some q && y.past == r.past && sameIssuer y.who r.who && y.id ≤ r.id
    && !x.waits.contains y.id)).map (·.id)
  if x.thr = 0 then m else setQueueX m q { x with waits := x.waits ++ due }
/-- A request that has been served leaves the queue's list. -/
def leaveQueue (m : Mach) (q : Nat) : Mach :=
  let x := queueX m q
  setQueueX m q { x with waits := x.waits.filter (fun i => (reqOf m i).any (fun y => !y.done)) }

/-- Requests of one issuer arrive in issue order (R320). One that waits at the queue holds back only those of its own kind: an EXQ
that waits for room lets EXDQs make it, and an EXDQ that waits for entries lets EXQs bring them (R323, R325, R326). -/
def queueTurn (m : Mach) (r : Req) : Bool :=
  !r.done && !m.mem.reqs.any (fun q => !q.done && q.id < r.id && (queueReq q).isSome && queueReq q == queueReq r && q.past == r.past
    && sameIssuer q.who r.who && (isExq q == isExq r || queueOpen m q))

/-- Serves one queue request if it can be served; otherwise it has arrived and waits in its place. -/
def serveQueue (m : Mach) (r : Req) : Mach :=
  match queueReq r with
  | none => m
  | some q =>
    let m1 := arriveQueue m r q
    if queueTurn m r && !queueAhead m1 r q then
      leaveQueue (match r.op with | .exq _ t => doExq m1 r q t | .exdq _ n => doExdq m1 r q n | _ => m1) q
    else m1

/-- EXQ (R323): the entry keeps FLAG and SCALED of A. -/
def exqG (f : ScF) (d a b : Opd) (m : Mach) : Mach :=
  let fl := (headKind m a).2
  memStart [a, b] [d] [] (poisonNow d .tile) (fun vs m =>
    let q := bits (natAt vs 1) 0 9
    let dst := dstOf m d false
    if bits (natAt vs 1) 9 119 != 0 then resultNow m dst .tile (tokOf (poison m m.cur 0x08 q))
    else addReq m (mkReq m dst (.exq q ⟨valAt vs 0, false, fl, 0⟩) f.scope.code false true)) m
def execExq (f : ScF) (d a b : Opd) (s : State) : Out := lift (exqG f d a b) s

/-- EXDQ (R325). -/
def exdqG (f : ScF) (d a b : Opd) : Mach → Mach :=
  memStart [a, b] [d] [] (poisonNow d .tile) (fun vs m =>
    let q := bits (natAt vs 0) 0 9
    let n := bits (natAt vs 1) 0 9
    let dst := dstOf m d false
    if n = 0 ∨ 256 < n then resultNow m dst .tile (tokOf (poison m m.cur 0x08 q))
    else addReq m (mkReq m dst (.exdq q n) f.scope.code true false))
def execExdq (f : ScF) (d a b : Opd) (s : State) : Out := lift (exdqG f d a b) s

/-- EXQ_PLACEMENT (R323). -/
def exqPlacementG (id : Nat) (m : Mach) : Mach :=
  match reqOf m id with
  | some r => (match r.op with | .exq .. => serveQueue m r | _ => m)
  | none => m
def execExqPlacement (id : Nat) (s : State) : Out := lift (exqPlacementG id) s

/-- EXDQ_DELIVERY (R325). -/
def exdqDeliveryG (id : Nat) (m : Mach) : Mach :=
  match reqOf m id with
  | some r => (match r.op with | .exdq .. => serveQueue m r | _ => m)
  | none => m
def execExdqDelivery (id : Nat) (s : State) : Out := lift (exdqDeliveryG id) s

/-- TIMER_RELEASE (R324). -/
def timerReleaseG (q : Nat) (m : Mach) : Mach :=
  let x := queueX m q
  if x.tmr = 0 then m else setQueueX m q (releaseAll x)
def execTimerRelease (q : Nat) (s : State) : Out := lift (timerReleaseG q) s

/-- The code of a refused configuration, 0 when it is admitted (R322). -/
def excfgCode (x : ExpQ) (asid w : Nat) : Nat :=
  let thr := bits w 0 13
  let ring := bits w 64 56
  let ringn := bits w 48 16
  if 4096 < thr ∨ bits w 13 19 ≠ 0 ∨ bits w 120 8 ≠ 0 ∨ ring % 256 ≠ 0 then 1
  else if (thr = 0 ∧ exqCount x ≠ 0) ∨ ((ring ≠ x.ring ∨ ringn ≠ x.ringn) ∧ !x.ringq.isEmpty) then 2
  else if x.thr ≠ 0 ∧ x.asid ≠ asid then 3
  else 0

/-- The queue after an admitted configuration. -/
def excfgQueue (x : ExpQ) (asid w : Nat) : ExpQ :=
  if bits w 0 13 = 0 then ExpQ.reset
  else
    let same := bits w 64 56 = x.ring ∧ bits w 48 16 = x.ringn
    releaseAll { x with
      asid := asid, thr := bits w 0 13, tmr := bits w 32 16, ring := bits w 64 56, ringn := bits w 48 16,
      ringh := if same then x.ringh else 0 }

/-- EXCFG (R322): it reaches its queue behind the issuer's earlier requests to it (R320). -/
def excfgG (d a b : Opd) (m : Mach) : Mach :=
  let w := wideVal m b
  memStart [a, b] [d] (pairReg m true b) (poisonNow d .tile) (fun vs m =>
    let q := bits (natAt vs 0) 0 9
    let mine := m.mem.reqs.filter (fun r => queueReq r == some q && sameIssuer r.who m.cur)
    let m1 := mine.foldl (fun m r => match reqOf m r.id with | some r => serveQueue m r | none => m) m
    let asid := asidOfActor m1 m1.cur
    let x := queueX m1 q
    let c := excfgCode x asid w
    if c = 0 then resultNow (setQueueX m1 q (excfgQueue x asid w)) (dstOf m1 d false) .tile (tokNat 0)
    else resultNow m1 (dstOf m1 d false) .tile (tokNat (2 ^ 63 + c))) m
def execExcfg (d a b : Opd) (s : State) : Out := lift (excfgG d a b) s

end Sys2Proof.Machine
end

