-- ==== Sys2Proof/Machine/Rules.lean ====
section
/-! DEFINITION. Relation and rule instructions, class 0x9_: relations and their ports (R328-R331, R347-R355, R357), rule
plans (R332, R333, R350), evaluation (R334-R342, R351) and gradients (R343, R356). FOLD and FOLD_WAVE stand in
Stage.lean. -/
namespace Sys2Proof.Machine

/-! ## Records (R329, R330) -/

/-- The fields of a tuple record. -/
structure Tup where
  keys : Nat
  w : Nat
  fl : Nat
  wit : Nat
  deriving DecidableEq, Repr

def tupOf (n : Nat) : Tup := ⟨bits n 0 128, bits n 128 32, bits n 160 32, bits n 192 64⟩
def tupNat (t : Tup) : Nat := t.keys % 2 ^ 128 + t.w % 2 ^ 32 * 2 ^ 128 + t.fl % 2 ^ 32 * 2 ^ 160 + t.wit % 2 ^ 64 * 2 ^ 192

def flV : Nat := 2 ^ 31
def flBASE : Nat := 2 ^ 30
def flDEL : Nat := 2 ^ 29
def flLOW : Nat := 2 ^ 28
def flPEND : Nat := 2 ^ 27
def flNEW : Nat := 2 ^ 26
def Tup.v (t : Tup) : Bool := bitAt t.fl 31
def Tup.base (t : Tup) : Bool := bitAt t.fl 30
def Tup.del (t : Tup) : Bool := bitAt t.fl 29
def Tup.low (t : Tup) : Bool := bitAt t.fl 28
def Tup.pend (t : Tup) : Bool := bitAt t.fl 27
def Tup.new (t : Tup) : Bool := bitAt t.fl 26
def Tup.gen (t : Tup) : Nat := t.fl % 65536

/-- No tuple (R329). -/
def noId : Nat := 0x0FFFFFFF
def wAll : Nat := 2 ^ 64 - 1

def idHome (id : Nat) : Nat := id / 2 ^ 18
def idSlot (id : Nat) : Nat := id % 2 ^ 18

/-- Places of 32 bytes of an overflow slot, or of another range of the relation's areas, in the pasture's space. -/
def areaLocs (m : Mach) (p va n : Nat) : Option (List Loc) :=
  match virtLocs m .idle p va n .wr with | .ok ls => some ls | .error _ => none

/-- The places of a slot held at core `c`, or of the overflow slot. -/
def slotAt (m : Mach) (p : Nat) (x : Rel) (c h s : Nat) : Option (List Loc) :=
  if s < x.spslots then some ((upto 32).map (fun i => .spad (c * 2 ^ 19 + x.spbase + 32 * s + i)))
  else areaLocs m p (x.ovbase + 32 * (h * (2 ^ x.lslots - x.spslots) + s - x.spslots)) 32

/-- The bytes of places as the port reads them: free where a place does not translate or is on another package (log 27). -/
def portRead (m : Mach) (ls : Option (List Loc)) (n off : Nat) : Nat :=
  natOf ((upto n).map (fun i => match ls with
    | some l => (match (l[i]? : Option Loc) with
      | some x => if isOutside x then Config.freeByte (m.free + off + i) else locByte m x
      | none => 0)
    | none => Config.freeByte (m.free + off + i)))

/-- The record of a tuple id. -/
def recAt (m : Mach) (p rl : Nat) (x : Rel) (id : Nat) : Tup :=
  let h := idHome id
  let s := idSlot id
  if x.homes.length ≤ h ∨ 2 ^ x.lslots ≤ s then ⟨0, 0, 0, 0⟩
  else tupOf (portRead m (slotAt m p x (slotCore m p rl x h s) h s) 32 (32 * id))

/-- Slot ids of a partition, ascending. -/
def partIds (x : Rel) (h : Nat) : List Nat := (upto (2 ^ x.lslots)).map (fun s => h * 2 ^ 18 + s)
/-- Tuples of a relation: ids whose record has V. -/
def tuplesOf (m : Mach) (p rl : Nat) (x : Rel) : List (Nat × Tup) :=
  ((upto x.homes.length).flatMap (partIds x)).filterMap (fun id =>
    let t := recAt m p rl x id
    if t.v then some (id, t) else none)

/-- Key column `c` of a key tuple. -/
def keyCol (k c : Nat) : Nat := bits k (32 * c) 32
/-- Keys at or beyond ARITY read as 0 (R349, R357). -/
def cutKeys (x : Rel) (k : Nat) : Nat := k % 2 ^ (32 * x.arity)
/-- The home index of a key tuple (R329). -/
def homeIx (x : Rel) (k : Nat) : Nat := if x.homes.length ≤ 1 then 0 else rhash (keyCol k x.keycol) % x.homes.length

/-- The core that holds the tuples of a key: the home, or the twin of its range (R372). -/
def keyCore (m : Mach) (p rl : Nat) (x : Rel) (k : Nat) : Nat :=
  let h := homeIx x k
  let fam := m.stage.fams.find? (fun e => e.1 / 64 == p && bits ((e.2.desc[0]?).getD 0).toNat 6 2 == 1
    && bits ((e.2.desc[6]?).getD 0).toNat 0 8 == rl && bits ((e.2.desc[6]?).getD 0).toNat 8 10 == h)
  match fam.bind (fun e => coverOf e.2.entries (rhash (keyCol k x.keycol))) with
  | some e => e.core
  | none => (x.homes[h]?).getD 0

def setRel (m : Mach) (p rl : Nat) (x : Rel) : Mach := { m with rule.rels := tset (p * 256 + rl) x m.rule.rels }

/-- Writes bytes at places that exist. -/
def portWrite (m : Mach) (ls : Option (List Loc)) (bs : List Byte) : Mach :=
  match ls with | some l => writeLocs m l bs | none => m

/-- Stores a record at its holder. -/
def putRec (m : Mach) (p rl : Nat) (x : Rel) (id : Nat) (t : Tup) : Mach :=
  let h := idHome id
  let s := idSlot id
  let c := if (recAt m p rl x id).v then slotCore m p rl x h s else keyCore m p rl x t.keys
  portWrite m (slotAt m p x c h s) (bytesOf (tupNat t) 32)

/-- Removes a tuple: its record becomes 0. -/
def dropRec (m : Mach) (p rl : Nat) (x : Rel) (id : Nat) : Mach :=
  let m1 := portWrite m (slotAt m p x (slotCore m p rl x (idHome id) (idSlot id)) (idHome id) (idSlot id)) (List.replicate 32 0)
  match relOf m1 p rl with
  | some y => setRel m1 p rl { y with placed := tdel id y.placed }
  | none => m1

/-- Find (R330): the port's probe order is not fixed, so it finds any of several slots with the keys; a slot that holds
the keys only through a program's store may also be missed (log 9). -/
def findTup (m : Mach) (p rl : Nat) (x : Rel) (k : Nat) : Option Nat :=
  let hits := (partIds x (homeIx x k)).filter (fun id => let t := recAt m p rl x id; t.v && t.keys == k)
  let sure := hits.any (fun id => tfind id x.placed == some (BitVec.ofNat 128 k))
  if hits.isEmpty then none
  else if sure then hits[Config.freeSlot m.free % hits.length]?
  else hits[Config.freeSlot m.free % (hits.length + 1)]?

/-- A free slot of the home partition, of the port's choice (R329; log 9). -/
def freeId (m : Mach) (p rl : Nat) (x : Rel) (k : Nat) : Option Nat :=
  let fs := (partIds x (homeIx x k)).filter (fun id => !(recAt m p rl x id).v)
  fs[Config.freeSlot m.free % fs.length]?

/-- Stores a new tuple in a slot. -/
def placeTup (m : Mach) (p rl : Nat) (x : Rel) (id : Nat) (t : Tup) : Mach :=
  let m1 := putRec { m with free := m.free + 1 } p rl x id t
  match relOf m1 p rl with
  | some y => setRel m1 p rl { y with placed := tset id (BitVec.ofNat 128 t.keys) y.placed }
  | none => m1

/-- The gradient word of a tuple id (R329). -/
def gradVa (x : Rel) (id : Nat) : Nat := x.gbase + 4 * (idHome id * 2 ^ x.lslots + idSlot id)
def gradOf (m : Mach) (p : Nat) (x : Rel) (id : Nat) : Nat := portRead m (areaLocs m p (gradVa x id) 4) 4 (2 ^ 34 + 4 * id)

/-! ## Algebras (R331) -/

def f32Cmp (a b : Nat) : Option Ordering := xcmp (fval .f32 a) (fval .f32 b)
def f32One : Nat := 0x3F800000
def f32Neg (a : Nat) : Nat := if bitAt a 31 then a - 2 ^ 31 else a + 2 ^ 31
def algZero (alg : Nat) : Nat := if alg = 2 then 0x7F800000 else 0
def algOne (alg : Nat) : Nat := if alg = 2 then 0 else f32One
def isZeroW (alg w : Nat) : Bool := f32Cmp w (algZero alg) == some .eq
/-- A NaN, or a weight outside the domain and not Zero. -/
def domainErr (alg w : Nat) : Bool :=
  if isNanCode .f32 w then true
  else if isZeroW alg w then false
  else match alg with
    | 0 => f32Cmp w f32One != some .eq
    | 2 => f32Cmp w 0 == some .lt
    | _ => f32Cmp w 0 != some .gt || f32Cmp w f32One == some .gt
def better (alg new old : Nat) : Bool :=
  match alg with
  | 0 => false
  | 2 => f32Cmp new old == some .lt
  | _ => f32Cmp new old == some .gt
/-- The product of an algebra: and, ×, +, min. -/
def otimes (alg a b : Nat) : Nat :=
  match alg with
  | 1 => (fmul32 a b).1
  | 2 => (fadd32 a b .rne false).1
  | _ => (minMaxNum .f32 false a b).1
/-- 1 − w. -/
def oneMinus (w : Nat) : Nat := (fadd32 f32One (f32Neg w) .rne false).1

/-! ## Plans (R332, R333) -/

structure Plan where
  head : Nat
  b0 : Nat
  b1 : Nat
  neg : Bool
  two : Bool
  maph : Nat
  map0 : Nat
  map1 : Nat
  filt : List Nat
  user : Nat
  ftmo : Nat
  deriving DecidableEq, Repr

def planOf (ws : List W64) : Plan :=
  let w := fun i => ((ws[i]?).getD 0).toNat
  ⟨bits (w 0) 0 8, bits (w 0) 8 8, bits (w 0) 16 8, bitAt (w 0) 24, bitAt (w 0) 25, bits (w 1) 0 16, bits (w 1) 16 16,
    bits (w 1) 32 16, [w 2, w 3], w 4, bits (w 5) 0 32⟩

/-- Positive atoms: relation and column map. -/
def Plan.pos (p : Plan) : List (Nat × Nat) := (p.b0, p.map0) :: (if p.two && !p.neg then [(p.b1, p.map1)] else [])
def atomVars (x : Rel) (map : Nat) : List Nat := (upto x.arity).map (fun c => bits map (4 * c) 4)
def filtOn (f : Nat) : Bool := bitAt f 11
def filtVars (f : Nat) : List Nat := if filtOn f then bits f 0 3 :: (if bitAt f 3 then [bits f 4 3] else []) else []

/-- Reserved bits and values of a plan. -/
def planReserved (ws : List W64) : Bool :=
  let w := fun i => ((ws[i]?).getD 0).toNat
  bits (w 0) 26 38 != 0 || bits (w 1) 48 16 != 0 || bits (w 4) 13 51 != 0 || bits (w 5) 32 32 != 0 || w 6 != 0 || w 7 != 0
    || [w 2, w 3].any (fun f => bits f 12 20 != 0 || bitAt f 7 || 5 < bits f 8 3)
    || (!bitAt (w 0) 25 && (bitAt (w 0) 24 || bits (w 0) 16 8 != 0 || bits (w 1) 32 16 != 0))

/-- The refusal code of a plan, or 0 (R333). -/
def planCode (m : Mach) (p : Nat) (ws : List W64) : Nat :=
  let q := planOf ws
  let names := q.head :: q.b0 :: (if q.two then [q.b1] else [])
  if planReserved ws then 9
  else match relOf m p q.head, relOf m p q.b0, (if q.two then relOf m p q.b1 else relOf m p q.b0) with
    | some h, some x0, some x1 =>
      let v0 := atomVars x0 q.map0
      let v1 := if q.two then atomVars x1 q.map1 else []
      let vh := atomVars h q.maph
      let bound := v0 ++ (if q.two && !q.neg then v1 else [])
      let need := vh ++ (if q.neg then v1 else []) ++ q.filt.flatMap filtVars
      if (v0 ++ v1 ++ vh).any (fun v => 7 < v) || names.any (fun n => (relOf m p n).map (·.alg) != some h.alg)
          || need.any (fun v => !bound.contains v)
          || (q.two && !q.neg && ((v0[x0.keycol]?) != (v1[x1.keycol]?) || x0.homes != x1.homes)) then 9
      else if h.stratum < x0.stratum || (q.two && !q.neg && h.stratum < x1.stratum)
          || (q.neg && (h.stratum ≤ x1.stratum || h.alg == 2)) then 0x0A
      else if (tuplesOf m p q.head h).any (fun t => t.2.base) then 6
      else 0
    | _, _, _ => 9

/-- Registered plans of a pasture, by rule id. -/
def plansOf (m : Mach) (p : Nat) : List (Nat × Plan) :=
  (m.rule.rules.filter (fun e => e.1 / 256 == p)).map (fun e => (e.1 % 256, planOf e.2))
def stratOf (m : Mach) (p s : Nat) : Strat := tget Strat.reset (p * 64 + s) m.rule.strata
def setStrat (m : Mach) (p s : Nat) (x : Strat) : Mach := { m with rule.strata := tput Strat.reset (p * 64 + s) x m.rule.strata }
def relStratum (m : Mach) (p r : Nat) : Nat := ((relOf m p r).map (·.stratum)).getD 64

/-! ## The form of the class (R345) -/

def failW (c : Nat) : Nat := 2 ^ 63 + c
def failWide (c : Nat) : Nat := 2 ^ 127 + c

/-- The common start: poison and scale, then an effect on the machine that gives the result. -/
def ruleStart (os : List Opd) (d : Opd) (wideD wideA : Bool) (eff : Nat → List Val → Mach → Mach × Nat) (m : Mach) : Mach :=
  let a := match os with | o :: _ => if wideA then wideVal m o else (srcVal m .whole o).pay.toNat | [] => 0
  memStart os [d] (pairReg m wideD d ++ (match os with | o :: _ => pairReg m wideA o | [] => [])) (poisonNow d .tile)
    (fun vs m =>
      if vs.any (·.scaled) then resultNow m (dstOf m d wideD) .tile (tokOf (poison m m.cur 0x05 1))
      else let r := eff a vs m; resultNow r.1 (dstOf r.1 d wideD) .tile (tokNat r.2)) m

/-- An EVAL or an RBACK of a pasture is running (R347). -/
def ruleBusy (m : Mach) (p : Nat) : Bool :=
  thas p m.rule.evals || m.mem.reqs.any (fun r => r.past == p && !r.done && (match r.op with | .rback .. => true | _ => false))

/-! ## RDEF (R328, R348) -/

def relFieldsOk (ws : List W64) : Bool :=
  let w := fun i => ((ws[i]?).getD 0).toNat
  let ar := bits (w 0) 8 3
  let L := bits (w 0) 32 5
  bits (w 0) 15 1 == 0 && bits (w 0) 22 10 == 0 && bits (w 0) 37 27 == 0 && bits (w 1) 19 13 == 0 && bits (w 1) 51 13 == 0
    && bits (w 2) 56 8 == 0 && bits (w 3) 56 8 == 0 && bits (w 4) 56 8 == 0 && bits (w 5) 10 54 == 0 && w 6 == 0 && w 7 == 0
    && decide (1 ≤ ar ∧ ar ≤ 4 ∧ bits (w 0) 11 2 < ar ∧ 4 ≤ L ∧ L ≤ 18 ∧ bits (w 1) 32 19 ≤ 2 ^ L ∧ bits (w 1) 0 19 % 32 = 0
        ∧ bits (w 2) 0 56 % 32 = 0 ∧ bits (w 3) 0 56 % 4 = 0 ∧ 1 ≤ bits (w 5) 0 10 ∧ bits (w 5) 0 10 ≤ 768)

def mkRel (va : Nat) (ws : List W64) (homes : List Nat) : Rel :=
  let w := fun i => ((ws[i]?).getD 0).toNat
  ⟨bits (w 0) 8 3, bits (w 0) 11 2, bits (w 0) 13 2, bits (w 0) 16 6, bits (w 0) 32 5, bits (w 1) 0 19, bits (w 1) 32 19,
    bits (w 2) 0 56, bits (w 3) 0 56, homes, va, 0, false, []⟩

/-- Whether every page of an area translates and is writable. -/
def areaOk (m : Mach) (p va n : Nat) : Bool :=
  n == 0 || (upto ((va + n - 1) / 65536 - va / 65536 + 1)).all (fun i =>
    match leafOf m .idle p (max va ((va / 65536 + i) * 65536)) with | .ok e => leafAdmits e .wr | .error _ => false)

/-- Whether a failure that the outside or a check code answers hits a place: E2E names its physical address, the others its peer
(R79). -/
def failsAt (cause detail : Nat) (l : Loc) : Bool :=
  match cause, l with
  | 0x07, l => locPa l == detail
  | 0x09, .peer p _ _ => p == detail
  | 0x0A, .peer p _ _ => p == detail
  | 0x0D, .peer p _ _ => p == detail
  | _, _ => false

/-- Zeroes `n` blocks of `k` bytes; the first failing write stops it (R348), on a place that fails or as the answer says. -/
def zeroArea (r : Req) (ans : Answer) (k : Nat) : Nat → Nat → Mach → Mach × Option (Nat × Nat)
  | 0, _, m => (m, none)
  | n + 1, va, m =>
    match virtLocs m .idle r.past va k .wr with
    | .error e => (m, some e)
    | .ok ls =>
      let answered := match ans with
        | .fail c d => if ls.any (failsAt c.toNat d.toNat) then some (c.toNat, d.toNat) else none
        | _ => none
      match (faultR m r true ls).orElse (fun _ => answered) with
      | some e => (m, some e)
      | none => zeroArea r ans k n (va + k) (writeLocs m ls (List.replicate k 0))

/-- RDEF at its turn (R348): the machine after it and the result; BUSY where an EVAL or an RBACK runs by then (R347). -/
def rdefGo (m : Mach) (r : Req) (ans : Answer) (va : Nat) : Mach × Nat :=
  let p := r.past
  if ruleBusy m p then (m, failW 4)
  else if va % 64 ≠ 0 then (m, failW 1)
  else match readWords m r.who va 8 with
    | .error _ => (m, failW 0x0E)
    | .ok ws =>
      let rl := bits ((ws[0]?).getD 0).toNat 0 8
      let hc := bits ((ws[5]?).getD 0).toNat 0 10
      if !relFieldsOk ws then (m, failW 1)
      else if (relOf m p rl).isSome then (m, failW 2)
      else match readBytes m r.who (bits ((ws[4]?).getD 0).toNat 0 56) (2 * hc) with
        | .error _ => (m, failW 0x0E)
        | .ok bs =>
          let homes := (upto hc).map (fun i => natOf ((bs.drop (2 * i)).take 2))
          let x := mkRel va ws homes
          let n := 2 ^ x.lslots
          if homes.dedup.length ≠ hc then (m, failW 1)
          else if homes.any (fun c => !coreIn m p c
              || 2 ^ 19 < x.spbase + 32 * x.spslots || (upto (32 * x.spslots)).any (fun i => !inRange m p c (x.spbase + i))) then
            (m, failW 3)
          else if !areaOk m p x.ovbase (32 * hc * (n - x.spslots)) || !areaOk m p x.gbase (4 * hc * n) then (m, failW 0x0E)
          else
            let z1 := zeroArea r ans 32 (hc * (n - x.spslots)) x.ovbase m
            let z2 := match z1.2 with | some e => (z1.1, some e) | none => zeroArea r ans 4 (hc * n) x.gbase z1.1
            match z2.2 with
            | some (c, d) =>
              (faultRec z2.1 p r.who ⟨BitVec.ofNat 128 (originReq r c d), false, va, 5, c, noId, 0⟩, failW 0x0E)
            | none =>
              let m1 := homes.foldl (fun m c => (upto x.spslots).foldl (fun m s =>
                portWrite m (slotAt m p x c 0 s) (List.replicate 32 0)) m) z2.1
              (setRel m1 p rl x, 0)
/-- RDEF: refused at once while an EVAL or an RBACK runs (R347); else it is performed with LOAD_RESULT. -/
def rdefG (d a : Opd) : Mach → Mach :=
  memStart [a] [d] [] (poisonNow d .tile) (fun vs m =>
    let dst := dstOf m d false
    if (valAt vs 0).scaled then resultNow m dst .tile (tokOf (poison m m.cur 0x05 1))
    else if ruleBusy m (pastOfActor m m.cur) then resultNow m dst .tile (tokNat (failW 4))
    else addReq m { mkReq m dst (.rdef (bits (natAt vs 0) 0 56)) 5 true false with pos := none })
def execRdef (d a : Opd) (s : State) : Out := lift (rdefG d a) s

/-! ## RINS and RDEL (R349) -/

def rinsGo (m : Mach) (p rl k0 b : Nat) : Mach × Nat :=
  let w := b % 2 ^ 32
  let rep := bitAt b 32
  if ruleBusy m p then (m, failW 4)
  else match relOf m p rl with
    | none => (m, failW 5)
    | some x =>
      let k := cutKeys x k0
      let st := x.stratum * 65536
      if x.derived then (m, failW 6)
      else if domainErr x.alg w then (m, failW 7)
      else
        let id? := findTup m p rl x k
        let t := match id? with | some id => recAt m p rl x id | none => ⟨0, 0, 0, 0⟩
        let m := { m with free := m.free + 1 }
        let fresh : Tup := ⟨k, w, flV + flBASE + flPEND + st, wAll⟩
        match id? with
        | none =>
          if isZeroW x.alg w then (m, 0)
          else match freeId m p rl x k with
            | none => (m, failW 8)
            | some id => (placeTup m p rl x id fresh, 2 ^ 62 + id)
        | some id =>
          if t.del then (if isZeroW x.alg w then (m, 0) else (putRec m p rl x id fresh, 2 ^ 62 + id))
          else if better x.alg w t.w then
            (putRec m p rl x id { t with w := w, fl := setBits t.fl 27 1 1 }, 2 ^ 61 + id)
          else if rep ∧ f32Cmp w t.w ≠ some .eq ∧ !isZeroW x.alg w then
            (putRec m p rl x id { t with w := w, fl := setBits (setBits t.fl 27 1 1) 28 1 1 }, 2 ^ 60 + id)
          else (m, id)
/-- RINS. -/
def rinsG (f : RelF) (d a b : Opd) : Mach → Mach :=
  ruleStart [a, b] d false true (fun x vs m => rinsGo m (pastOfActor m m.cur) f.rel.val x (natAt vs 1))
def execRins (f : RelF) (d a b : Opd) (s : State) : Out := lift (rinsG f d a b) s

def rdelGo (m : Mach) (p rl k0 : Nat) : Mach × Nat :=
  if ruleBusy m p then (m, failW 4)
  else match relOf m p rl with
    | none => (m, failW 5)
    | some x =>
      if x.derived then (m, failW 6)
      else
        let m1 := { m with free := m.free + 1 }
        match findTup m p rl x (cutKeys x k0) with
        | none => (m1, failW 0x0B)
        | some id =>
          let t := recAt m p rl x id
          if t.del then (m1, failW 0x0B)
          else (putRec m1 p rl x id { t with fl := setBits (setBits t.fl 27 1 1) 29 1 1 }, id)
/-- RDEL. -/
def rdelG (f : RelF) (d a : Opd) : Mach → Mach :=
  ruleStart [a] d false true (fun x _ m => rdelGo m (pastOfActor m m.cur) f.rel.val x)
def execRdel (f : RelF) (d a : Opd) (s : State) : Out := lift (rdelG f d a) s

/-! ## RULE and RDROP (R350) -/

def ruleGo (m : Mach) (p va : Nat) : Mach × Nat :=
  if ruleBusy m p then (m, failW 4)
  else if va % 64 ≠ 0 then (m, failW 1)
  else match readWords m m.cur va 8 with
    | .error _ => (m, failW 0x0E)
    | .ok ws =>
      let c := planCode m p ws
      if c ≠ 0 then (m, failW c)
      else match (upto 255).find? (fun i => !thas (p * 256 + i) m.rule.rules) with
        | none => (m, failW 0x0C)
        | some i =>
          let q := planOf ws
          let m1 := { m with rule.rules := tset (p * 256 + i) ws m.rule.rules }
          let m2 := match relOf m1 p q.head with | some h => setRel m1 p q.head { h with derived := true } | none => m1
          let s := relStratum m2 p q.head
          (setStrat m2 p s { stratOf m2 p s with added := true }, i)
/-- RULE. -/
def ruleG (d a : Opd) : Mach → Mach :=
  ruleStart [a] d false false (fun x _ m => ruleGo { m with free := m.free + 1 } (pastOfActor m m.cur) (bits x 0 56))
def execRule (d a : Opd) (s : State) : Out := lift (ruleG d a) s

def rdropGo (m : Mach) (p : Nat) (isRule : Bool) (n : Nat) : Mach × Nat :=
  if ruleBusy m p then (m, failW 4)
  else if isRule then
    match tfind (p * 256 + n) m.rule.rules with
    | none => (m, failW 5)
    | some ws =>
      let s := relStratum m p (planOf ws).head
      (setStrat { m with rule.rules := tdel (p * 256 + n) m.rule.rules } p s { stratOf m p s with droppedRule := true }, 0)
  else if (relOf m p n).isNone then (m, failW 5)
  else if (plansOf m p).any (fun q => q.2.head == n || q.2.b0 == n || (q.2.two && q.2.b1 == n)) then (m, failW 2)
  else ({ m with rule.rels := tdel (p * 256 + n) m.rule.rels }, 0)
/-- RDROP. -/
def rdropG (f : BitF) (d a : Opd) : Mach → Mach :=
  ruleStart [a] d false false (fun x _ m => rdropGo m (pastOfActor m m.cur) f.bit (bits x 0 8))
def execRdrop (f : BitF) (d a : Opd) (s : State) : Out := lift (rdropG f d a) s

/-! ## Reading relations (R353, R354) -/

/-- Tokens of one tuple in RSCAN. -/
def scanTokens (m : Mach) (p : Nat) (x : Rel) (grad : Bool) (e : Nat × Tup) : List Token :=
  [tokNat e.2.keys, tokNat (e.2.w + e.2.fl * 2 ^ 32 + e.2.wit * 2 ^ 64)]
    ++ (if grad then [tokNat (gradOf m p x e.1 + e.1 * 2 ^ 32)] else [])
/-- RSCAN: the tuples of one partition in ascending slot order. -/
def rscanToks (m : Mach) (p rl h : Nat) (mode : RscanMode) : List Token :=
  let bad := fun c => [⟨Val.ofNat (failW c), true, true, 0⟩]
  match relOf m p rl with
  | none => bad 5
  | some x =>
    if x.homes.length ≤ h then bad 1
    else
      let delta := mode == .delta || mode == .dgrad
      let ts := (partIds x h).filterMap (fun id =>
        let t := recAt m p rl x id
        if t.v && !t.del && (!delta || t.new) then some (id, t) else none)
      ts.flatMap (scanTokens m p x (mode == .grad || mode == .dgrad)) ++ [⟨Val.ofNat ts.length, true, false, 0⟩]
def rscanG (f : RelF) (d a : Opd) (mode : RscanMode) : Mach → Mach :=
  memStart [a] [d] [] (poisonNow d .tile) (fun vs m =>
    if (valAt vs 0).scaled then resultNow m (dstOf m d false) .tile (tokOf (poison m m.cur 0x05 1))
    else
      let ts := rscanToks m (pastOfActor m m.cur) f.rel.val (bits (natAt vs 0) 0 10) mode
      flush (addReq m { mkReq m (dstOf m d false) .tile 5 false false with done := true, res := some ts }))
def execRscan (f : RelF) (d a : Opd) (b : RscanMode) (s : State) : Out := lift (rscanG f d a b) s

def rlookGo (m : Mach) (p rl k0 : Nat) : Mach × Nat :=
  match relOf m p rl with
  | none => (m, failWide 5)
  | some x =>
    let m1 := { m with free := m.free + 1 }
    match findTup m p rl x (cutKeys x k0) with
    | none => (m1, algZero x.alg + noId * 2 ^ 96)
    | some id =>
      let t := recAt m p rl x id
      (m1, t.w + gradOf m p x id * 2 ^ 32 + t.fl * 2 ^ 64 + id * 2 ^ 96)
/-- RLOOK (R354, R357). -/
def rlookG (f : RelF) (d a : Opd) : Mach → Mach :=
  ruleStart [a] d true true (fun x _ m => rlookGo m (pastOfActor m m.cur) f.rel.val x)
def execRlook (f : RelF) (d a : Opd) (s : State) : Out := lift (rlookG f d a) s

def rwitGo (m : Mach) (p rl id : Nat) : Mach × Nat :=
  match relOf m p rl with
  | none => (m, failWide 5)
  | some x =>
    let t := recAt m p rl x id
    (m, if t.v then t.wit + t.fl * 2 ^ 64 + t.w % 2 ^ 31 * 2 ^ 96 else 0)
/-- RWIT (R354). -/
def rwitG (f : RelF) (d a : Opd) : Mach → Mach :=
  ruleStart [a] d true false (fun x _ m => rwitGo m (pastOfActor m m.cur) f.rel.val (bits x 0 28))
def execRwit (f : RelF) (d a : Opd) (s : State) : Out := lift (rwitG f d a) s

def rcntGo (m : Mach) (p rl : Nat) : Mach × Nat :=
  match relOf m p rl with
  | none => (m, failWide 5)
  | some x =>
    let ts := (tuplesOf m p rl x).map (·.2)
    (m, ts.length + (ts.filter (·.new)).length * 2 ^ 32 + (ts.map (·.gen)).foldl max 0 * 2 ^ 64
      + min x.dropped (2 ^ 31 - 1) * 2 ^ 96)
/-- RCNT (R354). -/
def rcntG (f : RelF) (d : Opd) : Mach → Mach :=
  ruleStart [] d true false (fun _ _ m => rcntGo m (pastOfActor m m.cur) f.rel.val)
def execRcnt (f : RelF) (d : Opd) (s : State) : Out := lift (rcntG f d) s

/-! ## Candidates (R336) -/

/-- Binds the columns of an atom: none when shared variables disagree. -/
def bindAtom : List Nat → Nat → List (Nat × Nat) → Option (List (Nat × Nat))
  | [], _, env => some env
  | v :: vs, k, env =>
    let x := k % 2 ^ 32
    match env.find? (fun e => e.1 == v) with
    | some e => if e.2 = x then bindAtom vs (k / 2 ^ 32) env else none
    | none => bindAtom vs (k / 2 ^ 32) (env ++ [(v, x)])
def varOf (env : List (Nat × Nat)) (v : Nat) : Nat := ((env.find? (fun e => e.1 == v)).map (·.2)).getD 0
/-- The key tuple that a map takes from the variables. -/
def keysBy (env : List (Nat × Nat)) (vs : List Nat) : Nat := packLanes 32 (vs.map (varOf env))

def filtPass (env : List (Nat × Nat)) (f : Nat) : Bool :=
  let a := varOf env (bits f 0 3)
  let b := if bitAt f 3 then varOf env (bits f 4 3) else bits f 32 32
  !filtOn f || (match bits f 8 3 with
    | 0 => a == b | 1 => a != b | 2 => decide (a < b) | 3 => decide (a ≤ b) | 4 => decide (b < a) | _ => decide (b ≤ a))

/-- The candidate of a rule from its positive atoms' tuples (relation, id, record); none where the variables disagree, a
filter does not pass or a Boolean negated tuple is present. `core` is the port that forms it. -/
def formCand (m : Mach) (p rid core : Nat) (q : Plan) (atoms : List (Nat × Nat × Tup)) : Option Cand :=
  match relOf m p q.head with
  | none => none
  | some h =>
    let maps := [q.map0, q.map1]
    let env := (upto atoms.length).foldl (fun (e : Option (List (Nat × Nat))) i =>
      match e, atoms[i]? with
      | some env, some a => (match relOf m p a.1 with
          | some x => bindAtom (atomVars x ((maps[i]?).getD 0)) a.2.2.keys env
          | none => none)
      | _, _ => none) (some [])
    match env with
    | none => none
    | some env =>
      if !q.filt.all (filtPass env) then none
      else
        let ws := atoms.map (fun a => a.2.2.w)
        let w := match ws with | [a, b] => otimes h.alg a b | a :: _ => a | [] => 0
        let gen := 1 + (atoms.map (fun a => a.2.2.gen)).foldl max 0
        let t0 := (atoms[0]?.map (fun a => a.2.1)).getD noId
        let t1 := (atoms[1]?.map (fun a => a.2.1)).getD noId
        let keys := keysBy env (atomVars h q.maph)
        let mk := fun w t1 => some (⟨q.head, BitVec.ofNat 128 keys, BitVec.ofNat 32 w, gen,
          BitVec.ofNat 64 (rid * 2 ^ 56 + t0 * 2 ^ 28 + t1), core⟩ : Cand)
        if q.neg then
          match relOf m p q.b1 with
          | none => none
          | some x =>
            match findTup m p q.b1 x (keysBy env (atomVars x q.map1)) with
            | none => mk (otimes h.alg w (algOne h.alg)) noId
            | some id => if h.alg = 0 then none else mk (otimes h.alg w (oneMinus (recAt m p q.b1 x id).w)) id
        else mk w t1

/-! ## Events and candidates of an evaluation (R335-R337) -/

def evalOf (m : Mach) (p : Nat) : Option Eval := tfind p m.rule.evals
def setEval (m : Mach) (p : Nat) (e : Eval) : Mach := { m with rule.evals := tset p e m.rule.evals }

/-- Rules of the running stratum, by ascending id. -/
def stratRules (m : Mach) (p s : Nat) : List (Nat × Plan) := (plansOf m p).filter (fun q => relStratum m p q.2.head == s)

/-- An event for a version of a tuple, which carries its record: each pair of versions is joined once, at the event of the later
one (R335). -/
def addEvent (e : Eval) (rl id rcd : Nat) : Eval := { e with events := e.events ++ [(rl, id, rcd)], sent := e.sent + 1 }

/-- A version of a tuple as the port joins it: its record as it stands, or as it stood while an event of a later version waits
(R330, R335). -/
def versionAt (m : Mach) (p : Nat) (x : Rel) (events : List (Nat × Nat × Nat)) (rl id rcd : Nat) : Tup :=
  let t := recAt m p rl x id
  if t.v && events.any (fun w => w.1 == rl && w.2.1 == id) then tupOf rcd else t
/-- PRESENT with a version of a tuple in the place of an earlier one. -/
def putPresent (l : List (Nat × Nat × Nat)) (rl id rcd : Nat) : List (Nat × Nat × Nat) :=
  (rl, id, rcd) :: l.filter (fun u => !(u.1 == rl && u.2.1 == id))

/-- A candidate leaves the port: to its head's home, or as two tokens on the user channel of the port's core (R336). -/
def sendCand (m : Mach) (p core user : Nat) (c : Cand) : Mach :=
  match evalOf m p with
  | none => m
  | some e =>
    if bitAt user 0 then
      let pe := bits user 1 4
      let key := chanKey core pe (bits user 8 3)
      let ctx := bits user 11 2
      let kt : Token := ⟨⟨c.keys, false, false⟩, false, false, ctx⟩
      let wt : Token := ⟨Val.ofNat (c.weight.toNat + min c.gen 65535 * 2 ^ 32 + c.witness.toNat * 2 ^ 64), false, false, ctx⟩
      let m1 := setEval m p { e with user := tset key (tget [] key e.user ++ [c]) e.user, sent := e.sent + 2 }
      let dst := chanKey core pe (bits user 5 3)
      sendTok (sendTok m1 (500000 + core) dst kt) (500000 + core) dst wt
    else setEval m p { e with cands := e.cands ++ [c], sent := e.sent + 1 }

/-- The candidates of one rule for tuple v = (rl, id, t), at the port of a core. -/
def ruleCands (m : Mach) (p rid core : Nat) (q : Plan) (e : Eval) (rl id : Nat) (t : Tup) : List Cand :=
  let v := (rl, id, t)
  match q.pos with
  | [(b, _)] => if b = rl then (formCand m p rid core q [v]).toList else []
  | [(b0, _), (b1, _)] =>
    let kc := fun r (x : Tup) => keyCol x.keys (((relOf m p r).map (·.keycol)).getD 0)
    let others := fun o => (e.present.filter (fun u => u.1 == o && idHome u.2.1 == idHome id)).filterMap (fun u =>
      match relOf m p o with
      | some x =>
        let tu := versionAt m p x e.events o u.2.1 u.2.2
        if tu.v && kc o tu == kc rl t then some (o, u.2.1, tu) else none
      | none => none)
    (if b0 = rl then (others b1).filterMap (fun u => formCand m p rid core q [v, u]) else [])
      ++ (if b1 = rl then ((others b0).filter (fun u => !(u.1 == rl && u.2.1 == id))).filterMap (fun u =>
            formCand m p rid core q [u, v]) else [])
  | _ => []

/-- An evaluation in its end state after a timeout: the trap, then FAIL (R340). -/
def drainEnd (p : Nat) (m : Mach) : Mach :=
  match evalOf m p with
  | none => m
  | some e =>
    if e.draining && e.events.isEmpty && e.cands.isEmpty && e.user.isEmpty then
      finish (raiseHome { m with rule.evals := tdel p m.rule.evals } p 0x0E e.stratum) e.req (failW 0x0D)
    else m

/-- The port that processes the events of a tuple: its holder's. -/
def eventPort (m : Mach) (p : Nat) (v : Nat × Nat × Nat) : Nat :=
  match relOf m p v.1 with
  | some x => slotCore m p v.1 x (idHome v.2.1) (idSlot v.2.1)
  | none => 1024
/-- The events that may be processed next: those of the initial delta, and the oldest other one of each port, since a port's own events
reach it in the order in which it issued them (R335, R347). -/
def nextEvents (m : Mach) (p : Nat) (e : Eval) : List Nat :=
  let port := fun i : Nat => (e.events[i]?).map (eventPort m p)
  (upto e.events.length).filter (fun i => i < e.fresh || !(upto i).any (fun j => decide (e.fresh ≤ j) && port j == port i))

/-- TUPLE_EVENT (R335): one of the events that may be processed next; which is not fixed (log 9), but those of one tuple in their order. -/
def tupleEventG (p : Nat) (m : Mach) : Mach :=
  match evalOf m p with
  | none => m
  | some e =>
    let may := nextEvents m p e
    if !running m p then m
    else match (may[Config.freeSlot m.free % may.length]?).bind (fun i => e.events[i]?) with
      | none => m
      | some (rl, id, _) =>
        let i := e.events.findIdx (fun w => w.1 == rl && w.2.1 == id)
        let rcd := ((e.events[i]?).map (·.2.2)).getD 0
        let e1 := { e with
          events := e.events.eraseIdx i, fresh := if i < e.fresh then e.fresh - 1 else e.fresh
          present := putPresent e.present rl id rcd, recv := e.recv + 1 }
        let m1 := setEval { m with free := m.free + 1 } p e1
        match relOf m p rl with
        | none => drainEnd p m1
        | some x =>
          let t := versionAt m p x e1.events rl id rcd
          if e.draining || !t.v then drainEnd p m1
          else
            let core := slotCore m p rl x (idHome id) (idSlot id)
            let cs := (stratRules m p e.stratum).flatMap (fun q =>
              (ruleCands m p q.1 core q.2 e1 rl id t).map (fun c => (q.2.user, c)))
            cs.foldl (fun m c => sendCand m p core c.1 c.2) m1
def execTupleEvent (past : Nat) (s : State) : Out := lift (tupleEventG past) s

/-- A candidate at its head's home port (R337). -/
def headPort (m : Mach) (p : Nat) (e : Eval) (c : Cand) : Mach × Eval :=
  match relOf m p c.rel with
  | none => (m, e)
  | some x =>
    let w := c.weight.toNat
    let k := cutKeys x c.keys.toNat
    let gen := min c.gen 65535
    let fl := flV + flNEW + x.stratum * 65536 + gen
    if isNanCode .f32 w || (!isZeroW x.alg w && domainErr x.alg w) then (setRel m p c.rel { x with dropped := x.dropped + 1 }, e)
    else if isZeroW x.alg w then (m, e)
    else
      let id? := findTup m p c.rel x k
      let m := { m with free := m.free + 1 }
      match id? with
      | none =>
        (match freeId m p c.rel x k with
         | none =>
           let org := bits x.desc 0 56 * 2 ^ 47 + 0x08 * 2 ^ 20 + keyCore m p c.rel x k
           (faultRec (setRel m p c.rel { x with dropped := x.dropped + 1 }) p .idle
             ⟨BitVec.ofNat 128 org, false, x.desc, 5, 0x08, noId, 0⟩, { e with full := true })
         | some id =>
           let t : Tup := ⟨k, w, fl, c.witness.toNat⟩
           (placeTup m p c.rel x id t, { addEvent e c.rel id (tupNat t) with rounds := max e.rounds gen }))
      | some id =>
        let t := recAt m p c.rel x id
        if better x.alg w t.w then
          let t := { t with w := w, fl := setBits (setBits t.fl 0 16 gen) 26 1 1, wit := c.witness.toNat }
          (putRec m p c.rel x id t, { addEvent e c.rel id (tupNat t) with rounds := max e.rounds gen })
        else (m, e)

/-- The head port of a candidate: the core that holds its key. -/
def candPort (m : Mach) (p : Nat) (c : Cand) : Nat :=
  match relOf m p c.rel with | some x => keyCore m p c.rel x (cutKeys x c.keys.toNat) | none => 1024
/-- Whether a candidate may arrive: those of one port to one head port arrive in the order in which it issued them (R347). -/
def candFirst (m : Mach) (p : Nat) (e : Eval) (n : Nat) (c : Cand) : Bool :=
  !(e.cands.take n).any (fun d => d.src == c.src && candPort m p d == candPort m p c)

/-- CANDIDATE_ARRIVAL (R337): candidates of different ports arrive in any order. -/
def candidateArrivalG (p n : Nat) (m : Mach) : Mach :=
  match evalOf m p with
  | none => m
  | some e =>
    if !running m p then m
    else match e.cands[n]? with
      | none => m
      | some c =>
        if !candFirst m p e n c then m else
        let r := headPort m p { e with cands := e.cands.eraseIdx n } c
        drainEnd p (setEval r.1 p { r.2 with recv := r.2.recv + 1 })
def execCandidateArrival (past n : Nat) (s : State) : Out := lift (candidateArrivalG past n) s

/-- USER_RETURN (R336): a block has returned the two tokens of the oldest candidate of an output of a core; each poisoned one is
recorded and traps. -/
def userReturnG (core : Nat) (m : Mach) : Mach :=
  match livePast m core with
  | none => m
  | some p =>
    match evalOf m p with
    | none => m
    | some e =>
      if !running m p then m
      else match e.user.find? (fun u => u.1 / 128 == core && 2 ≤ (tget [] u.1 e.back).length) with
        | none => m
        | some (key, cs) =>
          match tget [] key e.back, cs with
          | kt :: wt :: rest, c :: more =>
            let user := if more.isEmpty then tdel key e.user else tset key more e.user
            let back := if more.isEmpty || rest.isEmpty then tdel key e.back else tset key rest e.back
            let e1 := { e with user := user, back := back, sent := e.sent + 2, recv := e.recv + 4 }
            let m1 := setEval m p e1
            let bad := ([kt, wt].map (·.val)).filter (·.poison)
            if !bad.isEmpty then
              drainEnd p (bad.foldl (fun m v => raiseCause (faultRec m p .idle { poisonRec v 5 with item := noId }) (clusterOf core)
                ⟨0x07, BitVec.ofNat 64 v.pay.toNat, p⟩ .idle) m1)
            else
              if wt.flag then drainEnd p m1
              else
                let w := wt.val.pay.toNat
                let c1 : Cand := { c with
                  keys := kt.val.pay, weight := BitVec.ofNat 32 w, gen := bits w 32 16, witness := BitVec.ofNat 64 (w / 2 ^ 64) }
                setEval m1 p { e1 with cands := e1.cands ++ [c1], sent := e1.sent + 1 }
          | _, _ => m
def execUserReturn (core : Nat) (s : State) : Out := lift (userReturnG core) s

/-! ## Strata (R334, R338, R340, R342) -/

def relNums (m : Mach) (p : Nat) : List Nat := (m.rule.rels.filter (fun e => e.1 / 256 == p)).map (fun e => e.1 % 256)
/-- Every tuple of a pasture: relation, id, record. -/
def allTuples (m : Mach) (p : Nat) : List (Nat × Nat × Tup) :=
  (relNums m p).flatMap (fun r => match relOf m p r with
    | some x => (tuplesOf m p r x).map (fun t => (r, t.1, t.2))
    | none => [])
/-- Stores a record of a relation. -/
def putTup (m : Mach) (p rl id : Nat) (t : Tup) : Mach :=
  match relOf m p rl with | some x => putRec m p rl x id t | none => m
def delTup (m : Mach) (p rl id : Nat) : Mach :=
  match relOf m p rl with | some x => dropRec m p rl x id | none => m

/-- The tuples that a witness names (R330): none for a base tuple or a rule that is no longer registered. -/
def witNames (m : Mach) (p : Nat) (t : Tup) : List (Nat × Nat) :=
  match (plansOf m p).find? (fun q => q.1 == bits t.wit 56 8) with
  | some q => (q.2.b0, bits t.wit 28 28) :: (if q.2.two && bits t.wit 0 28 != noId then [(q.2.b1, bits t.wit 0 28)] else [])
  | none => []

/-- Over-deletion: the smallest set closed under witnesses (R342). -/
def overDelete (m : Mach) (p : Nat) (all : List (Nat × Nat × Tup)) (low : List (Nat × Nat)) :
    Nat → List (Nat × Nat) → List (Nat × Nat)
  | 0, x => x
  | n + 1, x =>
    let more := all.filter (fun t => !x.contains (t.1, t.2.1) && !t.2.2.base
      && (witNames m p t.2.2).any (fun u => x.contains u || low.contains u))
    if more.isEmpty then x else overDelete m p all low n (x ++ more.map (fun t => (t.1, t.2.1)))

/-- Delete and re-derive: the machine, and the relations that lost a tuple (R342). -/
def deleteRederive (m : Mach) (p : Nat) : Mach × List Nat :=
  let all := allTuples m p
  let del := (all.filter (fun t => t.2.2.del)).map (fun t => (t.1, t.2.1))
  let low := (all.filter (fun t => t.2.2.low)).map (fun t => (t.1, t.2.1))
  let x := overDelete m p all low all.length del
  let m1 := x.foldl (fun m u => delTup m p u.1 u.2) m
  let m2 := (all.filter (fun t => t.2.2.low && !x.contains (t.1, t.2.1))).foldl (fun m t =>
    putTup m p t.1 t.2.1 { t.2.2 with fl := setBits t.2.2.fl 28 1 0 }) m1
  (m2, (x.map (·.1)).dedup)

/-- Starts the stratum in `e.stratum` according to its state (R334). -/
def startStratum (m : Mach) (p : Nat) (e : Eval) : Mach :=
  let s := e.stratum
  let rs := (stratRules m p s).map (·.2)
  let st := stratOf m p s
  let negs := (rs.filter (·.neg)).map (·.b1)
  let isNew := fun n => e.lost.contains n || (match relOf m p n with
    | some x => (tuplesOf m p n x).any (fun t => t.2.new) | none => false)
  let reset := st.droppedRule || negs.any isNew
  let full := reset || e.rederived || !st.folded || st.added
  let heads := (rs.map (·.head)).dedup
  let gone := if reset then heads.flatMap (fun h => match relOf m p h with
    | some x => (tuplesOf m p h x).map (fun t => (h, t.1)) | none => []) else []
  let m1 := gone.foldl (fun m u => delTup m p u.1 u.2) m
  let bodies := (rs.flatMap (fun q => q.pos.map (·.1))).dedup
  let ts := bodies.flatMap (fun b => match relOf m1 p b with
    | some x => (tuplesOf m1 p b x).map (fun t => (b, t.1, t.2)) | none => [])
  let delta := ts.filter (fun t => full || t.2.2.new)
  let ids := fun (l : List (Nat × Nat × Tup)) => l.map (fun t => (t.1, t.2.1, tupNat t.2.2))
  setEval m1 p { e with
    lost := (e.lost ++ gone.map (·.1)).dedup, events := ids delta, fresh := delta.length
    present := ids (ts.filter (fun t => !(full || t.2.2.new))), cands := [], user := [], back := []
    sent := delta.length, recv := 0, waveOk := false, waveTot := (0, 0) }

/-- EVAL (R334, R351). -/
def evalGo (m : Mach) (p id top : Nat) : Mach :=
  let ts := allTuples m p
  let m1 := ts.foldl (fun m t =>
    let f := setBits (setBits t.2.2.fl 26 1 (if t.2.2.pend then 1 else 0)) 27 1 0
    if f = t.2.2.fl then m else putTup m p t.1 t.2.1 { t.2.2 with fl := f }) m
  let redo := ts.any (fun t => t.2.2.del || t.2.2.low)
  let r := if redo then deleteRederive m1 p else (m1, [])
  startStratum r.1 p ⟨top, 0, redo, r.2, [], [], 0, [], [], [], 0, 0, false, (0, 0), 0, false, false, id⟩
def evalG (d a : Opd) : Mach → Mach :=
  memStart [a] [d] [] (poisonNow d .eval) (fun vs m =>
    let p := pastOfActor m m.cur
    let dst := dstOf m d false
    if (valAt vs 0).scaled then resultNow m dst .eval (tokOf (poison m m.cur 0x05 1))
    else if ruleBusy m p then resultNow m dst .eval (tokNat (failW 4))
    else evalGo (addReq m (mkReq m dst .eval 5 true false)) p m.ids (bits (natAt vs 0) 0 6))
def execEval (d a : Opd) (s : State) : Out := lift (evalG d a) s

/-- A fold wave over a running evaluation (R338): two quiet waves with equal totals fold the stratum. -/
def evalWave (p : Nat) (m : Mach) : Mach :=
  match evalOf m p with
  | none => m
  | some e =>
    let quiet := e.events.isEmpty && e.cands.isEmpty && e.user.isEmpty && e.sent == e.recv
    if e.draining then m
    else if quiet && e.waveOk && e.waveTot == (e.sent, e.recv) then
      let m1 := setStrat m p e.stratum ⟨true, false, false⟩
      if e.stratum < e.last then startStratum m1 p { e with stratum := e.stratum + 1 }
      else finish { m1 with rule.evals := tdel p m1.rule.evals } e.req
        ((if e.full then 2 ^ 62 else 0) + min e.rounds 65535 * 2 ^ 32)
    else setEval m p { e with waveOk := quiet, waveTot := (e.sent, e.recv) }

/-- FOLD_TIMEOUT (R340): the stratum's timeout expires and its tokens in flight are drained. -/
def foldTimeoutG (p : Nat) (m : Mach) : Mach :=
  match evalOf m p with
  | none => m
  | some e =>
    let tmo := ((stratRules m p e.stratum).map (fun q => q.2.ftmo)).foldl max 0
    if !running m p || tmo = 0 || e.draining then m else drainEnd p (setEval m p { e with draining := true })
def execFoldTimeout (past : Nat) (s : State) : Out := lift (foldTimeoutG past) s

/-! ## Gradients (R343, R356) -/

/-- Partial derivatives to the two body atoms (R343). -/
def partials (alg : Nat) (single neg : Bool) (f0 f1 : Nat) : Nat × Nat :=
  let one := f32One
  let mone := f32Neg one
  match alg with
  | 1 => (if single then one else f1, if neg then f32Neg f0 else f0)
  | 2 => (one, one)
  | 3 =>
    let lt := f32Cmp f1 f0 == some .lt
    (if single || !lt then one else 0, if lt then (if neg then mone else one) else 0)
  | _ => (one, if neg then mone else one)

def fadd1 (a b : Nat) : Nat := (fadd32 a b .rne false).1

/-- Sums contributions in an order that is not fixed (R343; log 16). -/
def sumFree : Nat → Nat → List Nat → Nat → Nat
  | 0, _, _, h => h
  | n + 1, fr, l, h =>
    match l[Config.freeSlot fr % l.length]? with
    | none => h
    | some x => sumFree n (fr + 1) (l.eraseIdx (Config.freeSlot fr % l.length)) (fadd1 h x)

/-- Gradients in progress: seeds summed by tuple, contributions by tuple, finished values, skipped witnesses. -/
structure BackAcc where
  seeds : List ((Nat × Nat) × Nat)
  contr : List ((Nat × Nat) × Nat)
  h : List ((Nat × Nat) × Nat)
  skipped : Nat
  free : Nat
  deriving DecidableEq, Repr

def seedOf (b : BackAcc) (u : Nat × Nat) : Nat := ((b.seeds.find? (fun e => e.1 == u)).map (·.2)).getD 0
/-- The gradient of a tuple from its seeds and what has reached it. -/
def gradSum (b : BackAcc) (u : Nat × Nat) : Nat :=
  let cs := (b.contr.filter (fun e => e.1 == u)).map (·.2)
  sumFree cs.length b.free cs (seedOf b u)

/-- What a tuple sends to the tuples that its witness names. -/
def backProp (m : Mach) (p : Nat) (t : Tup) (h : Nat) : List ((Nat × Nat) × Nat) :=
  match (plansOf m p).find? (fun q => q.1 == bits t.wit 56 8) with
  | none => []
  | some q =>
    let u0 := (q.2.b0, bits t.wit 28 28)
    let u1 := (q.2.b1, bits t.wit 0 28)
    let has1 := q.2.two && bits t.wit 0 28 != noId
    let wOf := fun (u : Nat × Nat) => match relOf m p u.1 with | some x => (recAt m p u.1 x u.2).w | none => 0
    let alg := ((relOf m p q.2.head).map (·.alg)).getD 0
    let f1 := if !has1 then algOne alg else if q.2.neg then oneMinus (wOf u1) else wOf u1
    let d := partials alg (!q.2.two) q.2.neg (wOf u0) f1
    (u0, (fmul32 h d.1).1) :: (if has1 then [(u1, (fmul32 h d.2).1)] else [])

/-- Propagates each tuple after every tuple whose witness names it. -/
def backGo (m : Mach) (p : Nat) : Nat → List (Nat × Nat × Tup) → BackAcc → BackAcc
  | 0, _, b => b
  | n + 1, todo, b =>
    match todo.find? (fun t => !todo.any (fun u => (witNames m p u.2.2).contains (t.1, t.2.1))) with
    | none => b
    | some t =>
      let u := (t.1, t.2.1)
      let h := gradSum b u
      let known := (plansOf m p).any (fun q => q.1 == bits t.2.2.wit 56 8)
      let base := bits t.2.2.wit 56 8 == 255
      backGo m p n (todo.filter (fun v => (v.1, v.2.1) != u)) { b with
        contr := b.contr ++ (if base then [] else backProp m p t.2.2 h)
        h := b.h ++ [(u, h)], free := b.free + b.contr.length
        skipped := b.skipped + (if base || known then 0 else 1) }

/-- Writes every gradient word of a relation: h, or RoundTo(old + h). -/
def writeGrads (m : Mach) (p rl : Nat) (x : Rel) (acc : Bool) (b : BackAcc) : Mach :=
  ((upto x.homes.length).flatMap (partIds x)).foldl (fun m id =>
    let h := ((b.h.find? (fun e => e.1 == (rl, id))).map (·.2)).getD 0
    let v := if acc then fadd1 (gradOf m p x id) h else h
    portWrite m (areaLocs m p (gradVa x id) 4) (bytesOf v 4)) m

/-- A seed of RBACK: relation, keys, value; none when a byte beyond them is not 0. -/
def seedsOf (bs : List Byte) (n : Nat) : Option (List (Nat × Nat × Nat)) :=
  (upto n).mapM (fun i =>
    let x := natOf ((bs.drop (32 * i)).take 32)
    if bits x 168 88 = 0 then some (bits x 160 8, bits x 0 128, bits x 128 32) else none)

/-- The seeds of an RBACK, or its refusal (R356). -/
def rbackSeeds (m : Mach) (p va n : Nat) : Except Nat (List (Nat × Nat × Nat)) :=
  if ruleBusy m p then .error 4
  else if n = 0 ∨ 65536 < n then .error 1
  else match readBytes m m.cur va (32 * n) with
    | .error _ => .error 0x0E
    | .ok bs =>
      match seedsOf bs n with
      | none => .error 1
      | some seeds => if seeds.any (fun s => (relOf m p s.1).isNone) then .error 5 else .ok seeds

/-- The gradients of an RBACK (R343, R356): the machine after it and the result. -/
def rbackGo (m : Mach) (p : Nat) (seeds : List (Nat × Nat × Nat)) (acc : Bool) : Mach × Nat :=
  let at' := seeds.map (fun s => match relOf m p s.1 with
    | some x => ((findTup m p s.1 x (cutKeys x s.2.1)).map (fun id => (s.1, id)), s.2.2)
    | none => (none, s.2.2))
  let absent := (at'.filter (fun s => s.1.isNone)).length
  let sums := at'.foldl (fun (l : List ((Nat × Nat) × Nat)) s => match s.1 with
    | none => l
    | some u =>
      if l.any (fun e => e.1 == u) then l.map (fun e => if e.1 == u then (u, fadd1 e.2 s.2) else e)
      else l ++ [(u, fadd1 0 s.2)]) []
  let ts := allTuples m p
  let b := backGo m p ts.length ts ⟨sums, [], [], 0, m.free + 1⟩
  let m1 := (relNums m p).foldl (fun m r => match relOf m p r with
    | some x => writeGrads m p r x acc b | none => m) { m with free := b.free }
  (m1, min b.skipped 65535 * 2 ^ 32 + min absent (2 ^ 32 - 1))

/-- RBACK: it is judged as it fires and then runs (R347) until LOAD_RESULT delivers its result. -/
def rbackG (f : BitF) (d a b : Opd) : Mach → Mach :=
  memStart [a, b] [d] [] (poisonNow d .tile) (fun vs m =>
    let dst := dstOf m d false
    if vs.any (·.scaled) then resultNow m dst .tile (tokOf (poison m m.cur 0x05 1))
    else match rbackSeeds m (pastOfActor m m.cur) (bits (natAt vs 0) 0 56) (bits (natAt vs 1) 0 17) with
      | .error c => resultNow m dst .tile (tokNat (failW c))
      | .ok seeds => addReq { m with free := m.free + 1 } { mkReq m dst (.rback seeds f.bit) 5 true false with pos := none })
def execRback (f : BitF) (d a b : Opd) (s : State) : Out := lift (rbackG f d a b) s

/-- LOAD_RESULT: RDEF and RBACK deliver their results as loads do (R345). -/
def loadResult (id : Nat) (ans : Answer) (m : Mach) : Mach :=
  match reqOf m id with
  | none => m
  | some r =>
    match r.op with
    | .rdef va => if mayPerform m r then (let x := rdefGo { m with free := m.free + 1 } r ans va; finish x.1 id x.2) else m
    | .rback seeds acc => if mayPerform m r then (let x := rbackGo m r.past seeds acc; finish x.1 id x.2) else m
    | _ => loadResultG id ans m

end Sys2Proof.Machine
end

