-- ==== Sys2Proof/Machine/Install.lean ====
section
/-! DEFINITION. INSTALL (R148): the checks of a block image (R19, R81-R84), what a frame's new image changes (R20, R117,
R118, R383) and the armature's transfer; ARM (R149, R150), whose descriptor is read as an image is. -/
namespace Sys2Proof.Machine

/-! ## Instruction words (R19, R61-R63, R76, R87) -/

/-- The trigger field of a valid word (R63). -/
def trigOk (w : Nat) : Bool :=
  trigPV w &&& trigPC w == trigPV w && (trigTE w || (trigTC w == 0 && trigTK w == 0 && !trigTV w)) && trigTK w != 3

/-- The binding word that an input has once the image is installed: its own, or the one that stands (R20). -/
def effBind (m : Mach) (core : Nat) (img : List W64) (pe ch : Nat) : W64 :=
  if imgBind img pe ch = 0 then (chanOf m (chanKey core pe ch)).binding else BitVec.ofNat 64 (imgBind img pe ch)

/-- Checks of single opcodes that a block can fail: the frame's kind (R212 and the class rules), DEQ's count and KP (R127),
CTURN on a delay line of the block (R286). -/
def opBlockOk (m : Mach) (core : Nat) (img : List W64) (pe w : Nat) : Bool :=
  let o := OpWord.ofNat (w % 2 ^ 40)
  let atomic := imgAtomic img
  match opRow o.opc with
  | none => false
  | some r =>
    !(atomic && (r.noAtomic || ((o.opc == 0x61 || o.opc == 0x63) && isOut o.d)))
      && (o.opc != 0x03 || (!trigKP w && decide (bits o.m 0 5 ≤ fifoCap { Chan.reset with
            binding := effBind m core img pe (o.a - 0x30) })))
      && (o.opc != 0x58 || !bitAt (imgBind img pe (o.a - 0x30)) 62)

def wordOk (m : Mach) (core : Nat) (img : List W64) (pe w : Nat) : Bool :=
  trigOk w && (match fate .pe true true (OpWord.ofNat (w % 2 ^ 40)) with | .ok _ => true | .error _ => false)
    && opBlockOk m core img pe w

/-- The slots of a block in ascending PE and then slot order. -/
def allSlots : List (Nat × Nat) := (upto 128).map (fun i => (i / 8, i % 8))
/-- The inputs of a core in ascending PE and then channel order. -/
def allInputs : List (Nat × Nat) := allSlots

/-- The first failing instruction word (R84). -/
def badWord (m : Mach) (core : Nat) (img : List W64) : Option (Nat × Nat) :=
  allSlots.find? (fun x => ctlV (imgCtl img x.1 x.2) && !wordOk m core img x.1 (imgInstr img x.1 x.2))

/-! ## The header (R81) -/

def imgSize (w0 : Nat) : Nat := bits w0 32 16
/-- MAGIC, FORMAT, SIZE and the reserved bits of header word 0 (R148). -/
def header0Ok (w : Nat) : Bool :=
  bits w 0 16 == 0x4B48 && bits w 16 8 == 1 && bits w 27 5 == 0 && bits w 48 16 == 0 && decide (0x9C0 ≤ imgSize w * 64)
/-- A part of the image: offset and count of entries of `k` bytes. -/
def partOff (img : List W64) (i : Nat) : Nat := bits (imgWord img i) 0 32
def partCnt (img : List W64) (i : Nat) : Nat := bits (imgWord img i) 32 16
def partOk (img : List W64) (i k : Nat) : Bool :=
  bits (imgWord img i) 48 16 == 0
    && (partCnt img i == 0 || (partOff img i % 16 == 0
      && decide (0x9C0 ≤ partOff img i ∧ partOff img i + partCnt img i * k ≤ imgSize (imgWord img 0) * 64)))
def headerOk (img : List W64) : Bool :=
  partOk img 1 16 && partOk img 2 8 && partOk img 3 4 && partOk img 4 8 && bits (imgWord img 5) 56 8 == 0
    && imgWord img 6 == 0 && imgWord img 7 == 0
def spillBase (img : List W64) : Nat := bits (imgWord img 5) 0 56

/-! ## Order words (R82) -/

/-- Chain and sequence index of every slot that belongs to a chain. -/
def chained (img : List W64) : List ((Nat × Nat) × (Nat × Nat)) :=
  allSlots.filterMap (fun x =>
    let c := imgCtl img x.1 x.2
    if ctlV c && ctlO c then some (x, (ctlChain c, ctlSeq c)) else none)
def slotBefore (x y : Nat × Nat) : Bool := decide (x.1 * 8 + x.2 < y.1 * 8 + y.2)

/-- The control word of one slot: reserved bits, an empty slot (log 40), who may carry an order word, no duplicate position,
L exactly on the highest SEQ of the chain (log 41). A FENCE must carry an order word (R221). -/
def ctlOk (img : List W64) (pe j : Nat) : Bool :=
  let c := imgCtl img pe j
  let w := imgInstr img pe j
  let opc := bits w 32 8
  if !ctlV c then c == 0 && w == 0
  else
    let ch := chained img
    let chain := match opRow opc with | some r => r.chain | none => false
    bits c 12 4 == 0
      && (if ctlO c then
            chain && !ch.any (fun e => slotBefore e.1 (pe, j) && e.2 == (ctlChain c, ctlSeq c))
              && bitAt c 7 == !ch.any (fun e => e.2.1 == ctlChain c && decide (ctlSeq c < e.2.2))
          else bits c 0 8 == 0 && opc != 0x6E)
def badCtl (img : List W64) : Option (Nat × Nat) := allSlots.find? (fun x => !ctlOk img x.1 x.2)

/-! ## Channel bindings (R83, R118) -/

def chanBindOk (img : List W64) (b : Nat) : Bool :=
  let dl := bitAt b 62
  bits b 48 3 == 0 && bits b 0 16 == 0
    && (if dl then bits b 32 16 == 0 && decide (bits b 16 16 + bits b 58 4 < partCnt img 1) else bits b 58 4 == 0)
    && (bits b 32 16 == 0 || spillBase img % 256 == 0)
def badBind (img : List W64) : Option (Nat × Nat) := allInputs.find? (fun x => !chanBindOk img (imgBind img x.1 x.2))

/-! ## Route plan (R382, R383) -/

/-- A slot table's entries as an install in progress leaves them. -/
abbrev SlotMap := List (Nat × Option Nat)
def slotKey (router ix out : Nat) : Nat := (router * 256 + ix) * 8 + out
/-- The input port that an entry grants: as the plan so far wrote it, as SLOT wrote it, or as it stands. -/
def slotIn (m : Mach) (w : SlotMap) (k : Nat) : Option Nat :=
  match w.reverse.find? (fun e => e.1 == k), m.fab.newSlots.reverse.find? (fun e => e.1 == k) with
  | some e, _ => e.2
  | none, some e => e.2
  | none, none => tfind k m.fab.slots

/-- A slot entry (KIND 00): what it writes, or none when it is refused. -/
def slotEntry (m : Mach) (p : Nat) (w : SlotMap) (e : Nat) : Option (Nat × Option Nat) :=
  let k := slotKey (bits e 44 10) (bits e 36 8) (bits e 28 3)
  let v := bitAt e 35
  let inp := bits e 32 3
  if bits e 62 2 != 0 || bits e 54 8 != 0 || bits e 31 1 != 0 || bits e 0 28 != 0 || 5 < inp || 5 < bits e 28 3
      || !coreIn m p (bits e 44 10) then none
  else if v && (match slotIn m w k with | some x => x != inp | none => false) then none
  else some (k, if v then some inp else none)
/-- A circuit entry (KIND 01): source and destination keys, or none when it is refused. -/
def circuitEntry (m : Mach) (p core e : Nat) : Option (Nat × Nat) :=
  let d := bits e 44 10
  if bits e 62 2 != 1 || bits e 54 1 != 0 || bits e 0 37 != 0 || !coreIn m p d || d == core then none
  else some (chanKey core (bits e 58 4) (bits e 55 3), chanKey d (bits e 40 4) (bits e 37 3))

/-- What a route plan writes: slot entries and circuits. -/
structure RouteW where
  slots : SlotMap
  circ : List (Nat × Nat)
  deriving DecidableEq, Repr
/-- Judges entries `i` onward; the index of the first that is refused. -/
def judgeRoute (m : Mach) (p core : Nat) : List Nat → Nat → RouteW → Except Nat RouteW
  | [], _, r => .ok r
  | e :: es, i, r =>
    if bits e 62 2 = 0 then
      match slotEntry m p r.slots e with
      | some x => judgeRoute m p core es (i + 1) { r with slots := r.slots ++ [x] }
      | none => .error i
    else match circuitEntry m p core e with
      | some x => judgeRoute m p core es (i + 1) { r with circ := r.circ ++ [x] }
      | none => .error i
def routeEntries (img : List W64) : List Nat := (upto (partCnt img 2)).map (fun i => imgWord img (partOff img 2 / 8 + i))

/-- What a plan that was judged before writes. -/
def routeWrites (core : Nat) (es : List Nat) : RouteW :=
  ⟨(es.filter (fun e => bits e 62 2 == 0)).map (fun e =>
      (slotKey (bits e 44 10) (bits e 36 8) (bits e 28 3), if bitAt e 35 then some (bits e 32 3) else none)),
    (es.filter (fun e => bits e 62 2 == 1)).map (fun e =>
      (chanKey core (bits e 58 4) (bits e 55 3), chanKey (bits e 44 10) (bits e 40 4) (bits e 37 3)))⟩

/-! ## Portal capabilities (R403) and strata (R333) -/

def capOk (e : Nat) : Bool :=
  bits e 29 3 == 0 && bits e 7 19 == 0 && decide (bits e 26 3 ≤ 4)
    && (upto 7).all (fun c => !bitAt e c || bitAt (Config.portalOps (bits e 26 3)) c)
def capEntries (img : List W64) : List Nat :=
  (upto (partCnt img 3)).map (fun i => bits (imgWord img (partOff img 3 / 8 + i / 2)) (32 * (i % 2)) 32)
/-- A rule plan that a block names: aligned, readable and not refused by RULE. -/
def planOk (m : Mach) (who : Actor) (p va : Nat) : Bool :=
  va % 64 == 0 && (match readWords m who va 8 with | .ok ws => planCode m p ws == 0 | .error _ => false)
def planEntries (img : List W64) : List Nat := (upto (partCnt img 4)).map (fun i => imgWord img (partOff img 4 / 8 + i))

/-! ## The whole judgement (R19, R84) -/

/-- The failure word of the first failed item, or what the route plan writes. -/
def judge (m : Mach) (who : Actor) (p core : Nat) (img : List W64) : Except Nat RouteW :=
  match badWord m core img with
  | some x => .error (failWord 0x01 x.1 x.2 0)
  | none =>
    if !headerOk img then .error (failWord 0x01 0 0 0)
    else match badCtl img with
      | some x => .error (failWord 0x02 x.1 x.2 0)
      | none => match badBind img with
        | some x => .error (failWord 0x03 x.1 0 x.2)
        | none => match judgeRoute m p core (routeEntries img) 0 ⟨[], []⟩ with
          | .error i => .error (failWord 0x04 0 0 i)
          | .ok r => match (capEntries img).findIdx? (fun e => !capOk e) with
            | some i => .error (failWord 0x05 0 0 i)
            | none => match (planEntries img).findIdx? (fun va => !planOk m who p va) with
              | some i => .error (failWord 0x06 0 0 i)
              | none => .ok r

/-! ## What a successful install changes (R20, R118, R148) -/

/-- Where the ring of an input starts: behind the rings of the block's inputs before it (R117). -/
def ringStart (img : List W64) (pe ch : Nat) : Nat :=
  spillBase img + ((allInputs.filter (fun x => slotBefore x (pe, ch))).map (fun x => bits (imgBind img x.1 x.2) 32 16 * 256)).sum

/-- The delay stages of an input: k initial values with tag 0 (R118). -/
def initToks (img : List W64) (b : Nat) : List Token :=
  if bitAt b 62 then
    (upto (bits b 58 4 + 1)).map (fun i =>
      let k := partOff img 1 / 8 + 2 * (bits b 16 16 + i)
      tokNat (imgWord img k + imgWord img (k + 1) * 2 ^ 64))
  else []

/-- An input whose binding word in the image is not 0 (R20). -/
def loadChan (img : List W64) (core : Nat) (m : Mach) (x : Nat × Nat) : Mach :=
  let b := imgBind img x.1 x.2
  if b = 0 then m
  else setChan m (chanKey core x.1 x.2)
    { Chan.reset with binding := BitVec.ofNat 64 b, fifo := initToks img b, ringBase := ringStart img x.1 x.2 }

/-- Zeroes the four banks of a frame and sets its handles to type none (R20, R206). -/
def zeroFrame (m : Mach) (core frame : Nat) : Mach :=
  let m1 := (upto 4).foldl (fun m b => abortBank m core (frame * 4 + b)) m
  { m1 with
    pe.hands := tfilter (fun k => k / 16 != frameKey core frame) m1.pe.hands
    pe.hpend := tfilter (fun k => k / 16 != frameKey core frame) m1.pe.hpend }

/-- The pastures of slot entry `k` once pasture `p` writes `v` where `old` stands: equal entries of several pastures stay until
the last of them ends (R383). -/
def slotOwners (m : Mach) (p k : Nat) (old v : Option Nat) : List Nat :=
  if old == v && v.isSome then (tget [] k m.fab.slotOwn).filter (· != p) ++ [p] else [p]
/-- Writes slot entries of the pastures `own`. -/
def writeSlots (m : Mach) (own : Mach → Nat → Option Nat → List Nat) (w : SlotMap) : Mach :=
  w.foldl (fun m e => { m with
    fab.newSlots := m.fab.newSlots.filter (fun x => x.1 != e.1)
    fab.slots := match e.2 with | some v => tset e.1 v m.fab.slots | none => tdel e.1 m.fab.slots
    fab.slotOwn := tput [] (2 * e.1) (if e.2.isSome then own m e.1 e.2 else []) (tdel (2 * e.1 + 1) m.fab.slotOwn) }) m

def addCircuits (m : Mach) (core frame : Nat) (cs : List (Nat × Nat)) : Mach :=
  cs.foldl (fun m c =>
    if m.fab.circuits.any (fun x => x.src == c.1 && x.dst == c.2) then m
    else { m with fab.circuits := m.fab.circuits ++ [⟨c.1, c.2, frameKey core frame⟩] }) m

/-- A frame without a block. -/
def emptyFrame (m : Mach) (core frame : Nat) : Mach := { m with pe.frames := tdel (frameKey core frame) m.pe.frames }

/-- The block in place. -/
def placeBlock (m : Mach) (p core frame : Nat) (img : List W64) (r : RouteW) : Mach :=
  let m1 := zeroFrame { m with pe.frames := tset (frameKey core frame) img m.pe.frames } core frame
  addCircuits (writeSlots (allInputs.foldl (loadChan img core) m1)
    (fun m k v => slotOwners m p (2 * k) (tfind k m.fab.slots) v) r.slots) core frame r.circ

/-- The frame has a bound activation, or queued records of its block (R146); a record that an averaging period has assigned to
the core counts (log 31). -/
def frameBusy (m : Mach) (core frame : Nat) : Bool :=
  (upto 4).any (fun b => thas (ctxKey core frame b) m.pe.binds) || (queueOf m core).any (fun r => r.frame == frame)
    || m.seq.avg.any (fun e => e.2.any (fun v => v.dst == core && v.rcd.frame == frame))

/-- Reads an image as INSTALL does (R148): the failure word and the machine, or the image. An image that is not on a 64-byte boundary
(R80), for which neither rule names a failure, is read where it stands (DESIGN CHOICE, log 109). -/
def readImage (m : Mach) (who : Actor) (p core va : Nat) : Except (Nat × Mach) (List W64 × RouteW) :=
  match readNat m who va 8 with
  | .error _ => .error (failWord 0x12 0 0 0, m)
  | .ok h =>
    let f := bits h 24 1
    if frameBusy m core f then .error (failWord 0x10 0 0 0, m)
    else if !header0Ok h then .error (failWord 0x01 0 0 0, emptyFrame m core f)
    else match readWords m who va (8 * imgSize h) with
      | .error _ => .error (failWord 0x12 0 0 0, emptyFrame m core f)
      | .ok img => match judge m who p core img with
        | .error v => .error (v, emptyFrame m core f)
        | .ok r => .ok (img, r)

/-! ## INSTALL -/

/-- An install into the frame that the image names is in progress: this one waits its turn in the armature (R148). -/
def armatureBusy (m : Mach) (who : Actor) (core va : Nat) : Bool :=
  match readNat m who va 8 with
  | .ok h => thas (frameKey core (bits h 24 1)) m.seq.installs
  | .error _ => false

/-- A plain load that an instruction makes by itself is performed in its place in the unit's program order (R249, R253): it waits
while an earlier access of its unit holds it back, or while its page is being moved (R406). -/
def imageHeld (m : Mach) (va n : Nat) : Bool :=
  let r := mkReq m .drop (.load (.virt va) n false) 5 false false
  m.mem.reqs.any (holdsBack m r) || pageMoving m r || rowHeld m r
/-- The same of a descriptor or image whose first word gives its size. -/
def readsHeld (m : Mach) (who : Actor) (va : Nat) (size : Nat → Nat) : Bool :=
  imageHeld m va 8 || (match readNat m who va 8 with | .ok h => imageHeld m va (size h) | .error _ => false)

/-- INSTALL (R148). The image is judged at once; until its transfer ends the frame keeps what it held (log 96). -/
def installG (f : PfF) (d a b : Opd) : Mach → Mach :=
  sFire [a, b] [d] (fun u w vs m =>
    let who : Actor := .unit u w
    let p := pastOfActor m who
    let va := bits ((vs[0]?).getD 0) 0 56
    let core := bits ((vs[1]?).getD 0) 0 10
    if !coreIn m p core then seqResult m u d f (failWord 0x11 0 0 0)
    else if armatureBusy m who core va || readsHeld m who va (fun h => 64 * imgSize h) then stall m
    else match readImage m who p core va with
      | .error (v, m1) => seqResult { m1 with free := m1.free + 1 } u d f v
      | .ok (img, _) =>
        let dst := match d with | .r n => Dst.sreg u n.val | _ => .zero
        { m with
          free := m.free + 1
          seq.installs := tset (frameKey core (imgFrame img))
            ⟨img, some u, w, dst, if f.pw then some f.pi.val else none⟩ m.seq.installs })
def execInstall (f : PfF) (d a b : Opd) (s : State) : Out := lift (installG f d a b) s

/-! ## ARM (R149, R150) -/

/-- Entries of a section descriptor: block, frame and core. -/
def sectEntry (w : W64) : Nat × Nat × Nat := (bits w.toNat 11 5, bits w.toNat 10 1, bits w.toNat 0 10)

/-- The checks 1 to 6 of R150: the entries, or the code of the first failure. A descriptor that is not on a 64-byte boundary, for which
R149 names no failure, is read where it stands (DESIGN CHOICE, log 109). -/
def armCheck (m : Mach) (who : Actor) (p va count : Nat) : Except Nat (List (Nat × Nat × Nat)) :=
  match readNat m who va 8 with
  | .error _ => .error 0x12
  | .ok h =>
    let n := bits h 0 8
    if n = 0 ∨ 64 < n then .error 0x22
    else match readWords m who (va + 8) n with
      | .error _ => .error 0x12
      | .ok ws =>
        if bits h 8 56 != 0 || ws.any (fun w => bits w.toNat 16 48 != 0) then .error 0x22
        else
          let es := ws.map sectEntry
          if es.any (fun e => !coreIn m p e.2.2) then .error 0x11
          else if count = 0 ∨ 65536 < count then .error 0x20
          else if es.any (fun e => (frameImg m e.2.2 e.2.1).isEmpty) then .error 0x24
          else if es.any (fun e => es.any (fun g => e.1 == g.1
              && frameImg m e.2.2 e.2.1 != frameImg m g.2.2 g.2.1)) then .error 0x25
          else .ok es

/-- The bytes of a section descriptor, by its count of entries (R149); a count that R150 refuses leaves the header. -/
def armSize (h : Nat) : Nat := if bits h 0 8 ≤ 64 then 8 + 8 * bits h 0 8 else 8
/-- ARM arms a section: its model number, ticket word and state. Its reads of the descriptor stand in their place in the unit's program
order, so the word waits for an acquire, a fence or a store that comes before them (R249, R253; log 117). -/
def armG (f : PfF) (d a b : Opd) : Mach → Mach :=
  sFire [a, b] [d] (fun u w vs m0 =>
    let who : Actor := .unit u w
    let p := pastOfActor m0 who
    let count := (vs[1]?).getD 0
    let va := bits ((vs[0]?).getD 0) 0 56
    if readsHeld m0 who va armSize then stall m0
    else
    let m := { m0 with free := m0.free + 1 }
    match armCheck m0 who p va count with
    | .error c => seqResult m u d f (failWord c 0 0 0)
    | .ok es =>
      match freeTicket m u with
      | none => seqResult m u d f (failWord 0x21 0 0 0)
      | some e =>
        let id := m.ids
        let sec : Section := ⟨p, unitCluster u (pastOf m p).home, sectOf m who, isShepherd u, es, count, 0, 0, 0, 0, 0, false⟩
        let m1 := { m with ids := id + 1, seq.sections := tset id sec m.seq.sections }
        let m2 := if isShepherd u then m1 else match graphOf m1 (unitOf m u).graph with
          | some g => setGraph m1 (unitOf m u).graph { g with live := g.live + 1 }
          | none => m1
        let t := allocTicket m2 u e false id
        seqResult t.2 u d f (ticketWord false t.1 e))
def execArm (f : PfF) (d a b : Opd) (s : State) : Out := lift (armG f d a b) s

/-- The unit that waited for an install receives 0 and goes on. -/
def installDone (m : Mach) (x : Install) : Mach :=
  match x.unit with
  | none => m
  | some u =>
    let m1 := writeDst m (.unit u x.word) x.dst (tokNat 0)
    let m2 := match x.pf with | some i => setSPred m1 u i false | none => m1
    resumeWord m2 u x.word

/-- The pasture on whose core an install ends: the one that is live there, or else any that holds the core. -/
def pastOfCore (m : Mach) (core : Nat) : Nat :=
  ((livePast m core).orElse (fun _ => (upto 16).find? (fun p => coreIn m p core))).getD 0

/-- ARMATURE_TRANSFER (R148): the image is in place; a transfer that has begun is finished before a readout (R158). The
image of an averaging period is judged first (R37). -/
def armatureTransferG (core frame : Nat) (m : Mach) : Mach :=
  let k := frameKey core frame
  match tfind k m.seq.installs with
  | none => m
  | some x =>
    let p := match x.unit with | some u => pastOfActor m (.unit u x.word) | none => pastOfCore m core
    let who : Actor := match x.unit with | some u => .unit u x.word | none => .pe core 0 0 0 0 false
    let m1 := { m with seq.installs := tdel k m.seq.installs }
    if (pastOf m p).image.isSome then m
    else match x.unit with
      | none => (match judge m who p core x.img with
        | .ok r => placeBlock m1 p core frame x.img r
        | .error _ => m1)
      | some _ => installDone (placeBlock m1 p core frame x.img (routeWrites core (routeEntries x.img))) x
def execArmatureTransfer (core frame : Nat) (s : State) : Out := lift (armatureTransferG core frame) s

end Sys2Proof.Machine
end

