-- ==== Sys2Proof/Machine/Stage.lean ====
section
/-! DEFINITION. Stage casting, class 0xB_ (R358-R378): families and their tables, KROUTE and its records, casts, merges and
closes; FOLD and the fold waves (R338, R352, R374); DONE, which ends holders and routines (R132, R369, R370). -/
namespace Sys2Proof.Machine

/-! ## Descriptors (R359) -/

def setFam (m : Mach) (k : Nat) (f : Fam) : Mach := { m with stage.fams := tset k f m.stage.fams }
def Fam.kind (f : Fam) : Nat := bits (f.word 0) 6 2
def Fam.acast (f : Fam) : Bool := bitAt (f.word 0) 16
def Fam.amerge (f : Fam) : Bool := bitAt (f.word 0) 17
def Fam.spe (f : Fam) : Nat := bits (f.word 0) 18 4
def Fam.sch (f : Fam) : Nat := bits (f.word 0) 22 3
def Fam.sctx (f : Fam) : Nat := bits (f.word 0) 25 2
def Fam.owner (f : Fam) : Nat := bits (f.word 0) 32 10
def Fam.maxt (f : Fam) : Nat := bits (f.word 0) 48 5
def Fam.cn (f : Fam) : Nat := bits (f.word 0) 53 4
def Fam.mn (f : Fam) : Nat := bits (f.word 0) 57 4
def Fam.cth (f : Fam) : Nat := bits (f.word 1) 0 13
def Fam.mth (f : Fam) : Nat := bits (f.word 1) 16 13
def Fam.sblk (f : Fam) : Nat := bits (f.word 2) 0 56
def Fam.rblk (f : Fam) : Nat := bits (f.word 3) 0 56
def Fam.stbase (f : Fam) : Nat := bits (f.word 4) 0 19
def Fam.stlen (f : Fam) : Nat := bits (f.word 4) 32 20
def Fam.tlist (f : Fam) : Nat := bits (f.word 5) 0 56
def Fam.rel (f : Fam) : Nat := bits (f.word 6) 0 8
def Fam.hix (f : Fam) : Nat := bits (f.word 6) 8 10
def Fam.queue (f : Fam) : Nat := bits (f.word 6) 32 9
def Fam.tcnt (f : Fam) : Nat := bits (f.word 6) 48 5
def Fam.rpe (f : Fam) : Nat := bits (f.word 7) 0 4
def Fam.rch (f : Fam) : Nat := bits (f.word 7) 4 3
/-- The candidate cores, as STAGE read them. -/
def Fam.cands (f : Fam) : List Nat := (f.desc.drop 8).map (·.toNat)
/-- SIN of a holder (R358). -/
def Fam.sin (f : Fam) (core : Nat) : Nat := chanKey core f.spe f.sch

/-- Reserved bits and ranges of a descriptor: KB counts only under HSEL 01 (log 42). -/
def Fam.fieldsOk (f : Fam) : Bool :=
  bits (f.word 0) 27 5 == 0 && bits (f.word 0) 42 6 == 0 && bits (f.word 0) 61 3 == 0
    && bits (f.word 1) 13 3 == 0 && bits (f.word 1) 29 35 == 0
    && bits (f.word 2) 56 8 == 0 && bits (f.word 3) 56 8 == 0 && bits (f.word 5) 56 8 == 0
    && bits (f.word 4) 19 13 == 0 && bits (f.word 4) 52 12 == 0
    && bits (f.word 6) 18 14 == 0 && bits (f.word 6) 41 7 == 0 && bits (f.word 6) 53 11 == 0 && bits (f.word 7) 7 57 == 0
    && f.kind != 3 && decide (f.hsel < 2) && (f.hsel == 0 || decide (1 ≤ f.kb ∧ f.kb ≤ 32))
    && decide (f.maxt ≤ 16 ∧ 1 ≤ f.cth ∧ f.cth ≤ 4096 ∧ f.mth ≤ 4096 ∧ f.stbase % 16 = 0 ∧ f.stlen % 16 = 0 ∧ 16 ≤ f.stlen
        ∧ f.stbase + f.stlen ≤ 2 ^ 19 ∧ 1 ≤ f.tcnt ∧ f.tcnt ≤ 16)
    && (f.kind != 1 || (f.hsel == 0 && f.sblk == 0 && f.rblk == 0 && f.spe == 0 && f.sch == 0 && f.rpe == 0))

/-! ## Holders -/

/-- The upper end of entry `i`'s range (R361). -/
def hiOf (es : List KrtE) (i : Nat) : Nat := ((es[i + 1]?).map (·.lo)).getD (2 ^ 32)
def entryOf (es : List KrtE) (i : Nat) : KrtE := (es[i]?).getD ⟨0, 0, false, false⟩
/-- The core, or queue, of entry `i`. -/
def holderOf (f : Fam) (i : Nat) : Nat := (entryOf f.entries i).core
/-- The core whose pasture's image space and cluster a family uses. -/
def famHome (f : Fam) : Nat := if f.kind = 2 then f.queue / 32 * 48 else if f.kind = 1 then holderOf f 0 else f.owner
def famCluster (f : Fam) : Nat := famHome f / 48

/-- Tokens that stand at an input, in its ring or in its node. -/
def chanToks (c : Chan) : List Token := c.fifo ++ c.ring ++ c.gather ++ c.emit

/-- Records on their way to a holder. -/
def inFlight (m : Mach) (f : Fam) (core : Nat) : Bool :=
  m.fab.transit.any (fun t => t.dst == f.sin core && 400000 ≤ t.src && t.src < 450000)

/-- Accesses of a context's activation that its memory interface has outstanding (R367). -/
def ctxReqs (m : Mach) (core ctx act : Nat) : Bool :=
  m.mem.reqs.any (fun r => isAcc r && r.act == act && (match r.who with
    | .pe c _ fr _ b _ => c == core && fr * 4 + b == ctx
    | _ => false))

/-- The relation port's pending operations for a partition: its part of a running evaluation (R372). -/
def portBusy (m : Mach) (p : Nat) (f : Fam) : Bool :=
  match evalOf m p with
  | none => false
  | some e => e.events.any (fun x => x.1 == f.rel && idHome x.2.1 == f.hix) || e.cands.any (fun c => c.rel == f.rel) || !e.user.isEmpty

/-- A holder is idle (R367); a partition when its port has nothing pending, a queue when it is empty (R372, R373). -/
def holderIdle (m : Mach) (p : Nat) (f : Fam) (h : Nat) : Bool :=
  match f.kind with
  | 1 => !portBusy m p f
  | 2 => exqCount (queueX m h) == 0
  | _ =>
    let img := frameImg m h 0
    let held := fun (k : Nat) => (chanToks (chanOf m k)).any (fun t => t.ctx % 4 == f.sctx)
    (chanToks (chanOf m (f.sin h))).isEmpty
      && (match tfind (h * 8 + f.sctx) m.pe.binds with
          | none => true
          | some b =>
            (upto 16).all (fun pe => !participates img pe
              || (!(readyPairs m h pe).contains (0, f.sctx) && !(readyPairs m h pe).any (fun x => x.1 < 8 && x.2 == f.sctx)
                  && (upto 8).all (fun c => !held (chanKey h pe c))))
              && !ctxReqs m h f.sctx b.act)

/-- The operations that wait at the ports of a partition, each by the hash of its tuple's key column (R372). -/
def portOps (m : Mach) (p : Nat) (f : Fam) : List Nat :=
  match evalOf m p, relOf m p f.rel with
  | some e, some x =>
    let h := fun k => rhash (keyCol k x.keycol)
    (e.events.filter (fun v => v.1 == f.rel && idHome v.2.1 == f.hix)).map (fun v => h (tupOf v.2.2).keys)
      ++ (e.cands.filter (fun c => c.rel == f.rel && homeIx x (cutKeys x c.keys.toNat) == f.hix)).map
        (fun c => h (cutKeys x c.keys.toNat))
  | _, _ => []
/-- Occupancy at a sample (R364, R372, R373): of a partition, what waits at the port of the holder. -/
def occupancy (m : Mach) (p : Nat) (f : Fam) (h : Nat) : Nat :=
  match f.kind with
  | 1 => ((portOps m p f).filter (fun k => (coverOf f.entries k).map (·.core) == some h)).length
  | 2 => exqCount (queueX m h)
  | _ => let c := chanOf m (f.sin h); c.fifo.length + c.ring.length + (tget [] h f.buf).length

/-! ## Results and events of steps -/

/-- CAST_EVENT (R366, R369, R370). -/
def castEvent (m : Mach) (p num : Nat) (f : Fam) (s : FamStep) (failed : Bool) : Mach :=
  let v := num % 64 + (if s.kind == .merge then 64 else 0) + (if failed then 128 else 0) + s.entry % 32 * 256 + s.other % 1024 * 65536
  raiseCause m (famCluster f) ⟨0x0D, BitVec.ofNat 64 v, p⟩ .idle

/-- Buffered records of a holder leave it in arrival order for the holders of their range (R366). -/
def releaseBuf (m : Mach) (f : Fam) (core : Nat) : Mach :=
  (tget [] core f.buf).foldl (fun m r =>
    let dst := match coverOf f.entries (f.hash r.key) with | some e => e.core | none => core
    { m with fab.transit := m.fab.transit ++ [⟨430000 + core, f.sin dst, ⟨r.val, false, false, f.sctx⟩, none⟩] }) m

/-! ## KROUTE (R362, R363) -/

/-- The source code of a KROUTE's records: one per sender, a core or a unit (R256, R363). -/
def routeSrc : Actor → Nat
  | .pe core .. => 400000 + core * 16
  | .unit u _ => 420000 + u
  | .idle => 429999
def srcSender (src : Nat) : Nat := if src < 420000 then (src - 400000) / 16 else 1000 + (src - 420000)


/-- The families of a pasture whose tables a sender holds. -/
def heldTables (m : Mach) (p sk : Nat) : List (Nat × Fam) := m.stage.fams.filter (fun e => e.1 / 64 == p && thas sk e.2.copies)
/-- The inputs of a family's holders. -/
def famSins (f : Fam) : List Nat :=
  (f.entries.map (·.core) ++ (match f.step with | some s => [s.other, s.mid] | none => [])).dedup.map (f.sin ·)
/-- The senders of a family that a change of its table must reach: those that hold a copy, and those that have given theirs up but whose
records have not left yet (R363). -/
def senders (m : Mach) (f : Fam) : List Nat :=
  (f.copies.map (·.1) ++ (m.fab.transit.filter (fun t => 400000 ≤ t.src && t.src < 430000 && (famSins f).contains t.dst)).map
    (fun t => srcSender t.src)).dedup
/-- Room for one more table at a sender that holds 8: one of them goes (R363); which is not stated (log 104). -/
def roomTable (m : Mach) (k sk : Nat) : Mach :=
  let hs := heldTables m (k / 64) sk
  if hs.any (·.1 == k) || hs.length < 8 then m
  else match hs[Config.freeSlot m.free % hs.length]? with
    | some e => setFam { m with free := m.free + 1 } e.1 { e.2 with copies := tdel sk e.2.copies }
    | none => m

/-- The record of a KROUTE leaves (R362); a table that is not held is fetched (R363). -/
def routeRec (m : Mach) (r : Req) : Mach :=
  match r.op with
  | .kroute n key v =>
    (match famOf m (famKey r.past n) with
     | none => m
     | some f =>
       let sk := senderOf r.who
       let cp := copyOf f sk
       match coverOf cp.2 (f.hash key) with
       | none => m
       | some e =>
         let m1 := setFam (roomTable m (famKey r.past n) sk) (famKey r.past n) { f with copies := tset sk cp f.copies, sent := f.sent + 1 }
         let m2 := modReq m1 r.id (fun x => { x with granted := some (e.core, cp.1) })
         { m2 with fab.transit := m2.fab.transit ++ [⟨routeSrc r.who, f.sin e.core, ⟨v, false, false, f.sctx⟩, some r.id⟩] })
  | _ => m

/-- A KROUTE that names no declared family (R363); in an S-form unit it traps as a failed access does (R211). -/
def routeNone (m : Mach) (d : Opd) (n : Nat) : Mach :=
  match m.cur with
  | .unit .. => { failS m (mkReq m .drop .tile 5 false false) 0x08 n [] with ctl := .trapped }
  | who => resultNow m (dstOf m d false) .tile (tokOf (poison m who 0x08 n))

def krouteGo (n : Nat) (d : Opd) (va vb : Val) (m : Mach) : Mach :=
  if (famOf m (famKey (pastOfActor m m.cur) n)).isNone then routeNone m d n
  else
    let key := vb.pay.toNat % 2 ^ 32
    let rcd : Val := { va with pay := BitVec.ofNat 128 (va.pay.toNat / 2 ^ 32 * 2 ^ 32 + key) }
    let r := mkReq m (dstOf m d false) (.kroute n key rcd) 5 false false
    routeRec (addReq m r) r

/-- KROUTE: the poison step is on B only. While a merge holds its range it stalls, and takes no operand. -/
def krouteG (n : Nat) (d a b : Opd) (m : Mach) : Mach :=
  let va := srcVal m .whole a
  let vb := srcVal m .whole b
  let held := fun m : Mach => routeStalls m m.cur (pastOfActor m m.cur) n (vb.pay.toNat % 2 ^ 32)
  match m.cur with
  | .idle => m
  | .pe .. =>
    let m1 := deqSrcs m [a, b]
    if vb.poison then poisonNow d .tile vb m1 else if held m then stall m else krouteGo n d va vb m1
  | .unit u w => sStart m u w [a, b, d] [] (fun m => if held m then stall m else krouteGo n d va vb m)
def execKroute (f : FamF) (d a b : Opd) (s : State) : Out := lift (krouteG f.fam.val d a b) s

/-! ## Ends of steps (R366, R369, R370, R371) -/

/-- Redirection ends once every sender has acknowledged and every forwarded record is in the twin's SIN (R366). -/
def redirEnd (k : Nat) (m : Mach) : Mach :=
  match famOf m k with
  | none => m
  | some f =>
    match f.step with
    | none => m
    | some s =>
      let old := holderOf f s.entry
      let fwd := m.fab.transit.any (fun t => t.src == 430000 + old && t.dst == f.sin s.other)
      if s.ph != .redirect || !s.acks.isEmpty || fwd then m
      else
        let m1 := releaseBuf m f s.other
        let m2 := setFam m1 k { f with step := none, buf := tdel s.other f.buf, casts := f.casts + 1 }
        let m3 := castEvent m2 (k / 64) (k % 64) f s false
        finish m3 s.req (s.other % 1024 + f.version % 65536 * 2 ^ 32)

/-- Both frames of a core are emptied and whatever is bound in them is released (R369, R370). -/
def clearCore (m : Mach) (core : Nat) : Mach :=
  let m1 := (upto 8).foldl (fun m c => releaseCtx m core c false) m
  emptyFrame (emptyFrame m1 core 0) core 1

/-- A step fails (R369; log 43): the table stays. -/
def stepFail (k code : Nat) (m : Mach) : Mach :=
  match famOf m k with
  | none => m
  | some f =>
    match f.step with
    | none => m
    | some s =>
      let cold := f.entries.map (fun e => { e with split := false, hold := false })
      let f1 := { f with step := none, entries := cold, lastFail := code % 256 }
      let m1 := match s.kind with
        | .cast =>
          let old := holderOf f s.entry
          let m0 := releaseBuf (if f.kind = 0 then clearCore m s.other else m) f1 old
          setFam m0 k { f1 with buf := tdel old f1.buf }
        | _ => setFam m k f1
      finish (castEvent m1 (k / 64) (k % 64) f s true) s.req (2 ^ 63 + code)

/-- TWIN_END (R370, R371): the holder activation that received EOS has ended. -/
def twinEnd (k : Nat) (m : Mach) : Mach :=
  match famOf m k with
  | none => m
  | some f =>
    match f.step with
    | none => m
    | some s =>
      if s.ph != .ending || (f.kind == 0 && thas (s.mid * 8 + f.sctx) m.pe.binds) then m
      else
        let m1 := if f.kind = 0 then clearCore m s.mid else m
        match s.kind with
        | .close => finish { m1 with stage.fams := tdel k m1.stage.fams } s.req 0
        | _ =>
          let m2 := setFam m1 k { f with step := none, merges := f.merges + 1 }
          finish (castEvent m2 (k / 64) (k % 64) f s false) s.req 0

/-- Whether the routine activation of a step is bound and has fired the matching instruction. -/
def routineOf (m : Mach) (k core : Nat) : Option Binding :=
  match tfind (core * 8 + 4) m.pe.binds with
  | some b => if b.kind == .routine (k / 64) (k % 64) then some b else none
  | none => none
def markOk (s : FamStep) (b : Binding) : Bool := b.sdone == some (s.kind == .cast)
/-- The core on which a step's routine runs: the holder that is split, or the twin that is merged. -/
def routineCore (f : Fam) (s : FamStep) : Nat := holderOf f s.entry

/-- STEP_FAILURE (R369): the routine has ended without the matching instruction. -/
def routineFail (k : Nat) (m : Mach) : Mach :=
  match famOf m k with
  | none => m
  | some f =>
    match f.step with
    | none => m
    | some s =>
      if s.ph != .routine then m
      else match routineOf m k (routineCore f s) with
        | none => stepFail k 0x0A m
        | some b => if b.ending && !markOk s b then stepFail k 0x0A (releaseCtx m (routineCore f s) 4 false) else m

/-- What ends with an activation: routines that failed and twins that received EOS (R369, R370). -/
def stageEnds (p : Nat) (m : Mach) : Mach :=
  (m.stage.fams.filter (fun e => e.1 / 64 == p)).foldl (fun m e => twinEnd e.1 (routineFail e.1 m)) m

def stageEndsCur (m : Mach) : Mach := stageEnds (pastOfActor m m.cur) m

/-- DONE (R132). -/
def execDone (s : State) : Out := lift (fun m => stageEndsCur (doneG m)) s

/-- Marks the routine activation of a step that this instruction completes (R369). -/
def markDone (split : Bool) (m : Mach) : Mach :=
  match m.cur with
  | .pe core _ frame _ bank _ =>
    let key := ctxKey core frame bank
    match tfind key m.pe.binds with
    | some b =>
      (match b.kind with
       | .routine p n => (match (famOf m (famKey p n)).bind (·.step) with
         | some s => if s.ph == .routine && (s.kind == .cast) == split then
             { m with pe.binds := tset key { b with sdone := some split } m.pe.binds } else m
         | none => m)
       | _ => m)
    | none => m
  | _ => m

/-- SDONE and MDONE (R369): a poisoned A is a sink and nothing else happens (R89). -/
def stepDoneG (split : Bool) (a : Opd) : Mach → Mach :=
  fireK [(.whole, a)] .none (fun v m => putRes m .none v) (fun _ m => stageEndsCur (doneG (markDone split m)))
def execSdone (a : Opd) (s : State) : Out := lift (stepDoneG true a) s
def execMdone (a : Opd) (s : State) : Out := lift (stepDoneG false a) s

/-! ## Casts (R364-R366, R372, R373) -/

/-- The target of a cast (R365): the first candidate that qualifies, or for queues the lowest free one of the cluster. -/
def castTarget (m : Mach) (p : Nat) (f : Fam) : Option Nat :=
  if f.kind = 2 then
    ((upto 32).map (fun i => f.queue / 32 * 32 + i)).find? (fun q => (queueX m q).thr == 0)
  else f.cands.find? (fun c => c / 48 == famCluster f && coreIn m p c && !f.entries.any (fun e => e.core == c)
    && (frameImg m c 0).isEmpty && (frameImg m c 1).isEmpty)

/-- Installs a family's two blocks on a core (R358, R378): the code of a refused block with the frames empty. -/
def installPair (m : Mach) (who : Actor) (p core : Nat) (f : Fam) : Except (Nat × Mach) Mach :=
  let one := fun (m : Mach) (va frame : Nat) =>
    match readImage m who p core va with
    | .error (v, m1) => Except.error (v % 256, m1)
    | .ok (img, r) => if imgFrame img = frame then .ok (placeBlock m p core frame img r) else .error (0x01, m)
  let m := { m with free := m.free + 2 ^ 20 }
  match one m f.sblk 0 with
  | .error (c, m1) => .error (c, emptyFrame m1 core 0)
  | .ok m1 => match one m1 f.rblk 1 with
    | .error (c, m2) => .error (c, emptyFrame (emptyFrame m2 core 0) core 1)
    | .ok m2 => .ok m2

/-- The refusal of a cast of entry `i`, or 0 (R364-R366). -/
def castCode (m : Mach) (p : Nat) (f : Fam) (i : Nat) : Nat :=
  if f.step.isSome then 4
  else if f.entries.length ≤ i then 1
  else if f.maxt + 1 ≤ f.entries.length then 7
  else if hiOf f.entries i - (entryOf f.entries i).lo < 2 then 8
  else if (castTarget m p f).isNone then 9
  else 0

/-- Steps 1 and 2 of R366: SPLIT, the twin's blocks and its holder activation. The images are read in the pasture's space,
for the owner core. -/
def startCast (m : Mach) (p n i req : Nat) (f : Fam) : Mach :=
  let k := famKey p n
  let lo := (entryOf f.entries i).lo
  let hi := hiOf f.entries i
  let tgt := (castTarget m p f).getD 0
  let s : FamStep := ⟨.cast, .prepare, i, tgt, lo + (hi - lo) / 2, req, [], 0⟩
  let f1 := { f with step := some s, entries := f.entries.modify i (fun e => { e with split := true }) }
  let m1 := setFam m k f1
  match f.kind with
  | 0 =>
    (match installPair m1 (.pe (famHome f) 0 0 0 0 false) p tgt f with
     | .error (c, m2) => stepFail k (6 + c * 65536) m2
     | .ok m2 => bindCtx m2 tgt f.sctx 0 (.holder p n))
  | 2 =>
    let x := queueX m1 f.queue
    setQueueX m1 tgt { ExpQ.reset with
      asid := x.asid, thr := x.thr, tmr := x.tmr, ring := x.ring, ringn := x.ringn, twinOf := some f.queue, cut := 0 }
  | _ => m1

/-! ## Merges and closes (R370, R371) -/

def mergeCode (f : Fam) (i : Nat) : Nat :=
  if f.step.isSome then 4
  else if f.entries.length ≤ i || (i == 0 && 1 < f.entries.length) then 0x0B
  else 0

/-- Step 1 of R370: HOLD. `mid` names the core whose holder is to end. -/
def startMerge (m : Mach) (p n i req : Nat) (f : Fam) : Mach :=
  let s : FamStep := if i = 0 then ⟨.close, .prepare, 0, 0, holderOf f 0, req, [], 0⟩
    else ⟨.merge, .prepare, i, holderOf f (i - 1), holderOf f i, req, [], 0⟩
  let es := if i = 0 then f.entries else f.entries.modify i (fun e => { e with hold := true })
  setFam m (famKey p n) { f with step := some s, entries := es }

/-! ## STAGE, CAST, MERGE, KRT, CASTQ, HASH (R378) -/

/-- The common start of an instruction of the class: the poison step, then an effect that gives a result at once. -/
def stageStart (os : List Opd) (d : Opd) (wide : Bool) (eff : List Val → Mach → Mach × Nat) : Mach → Mach :=
  fun m => memStart os [d] (pairReg m wide d) (poisonNow d .tile) (fun vs m =>
    let r := eff vs m
    resultNow r.1 (dstOf r.1 d wide) .tile (tokNat r.2)) m

/-- The owner of a family, or none when it is outside the pasture (R359, R372, R373). -/
def famOwner (m : Mach) (p : Nat) (f : Fam) : Option Nat :=
  match f.kind with
  | 1 => (relOf m p f.rel).bind (fun x => x.homes[f.hix]?)
  | 2 => if (queueX m f.queue).thr != 0 && (queueX m f.queue).asid == (pastOf m p).asid then some f.queue else none
  | _ => if coreIn m p f.owner && (upto f.stlen).all (fun i => inRange m p f.owner (f.stbase + i)) then some f.owner else none

def stageGo (m : Mach) (p va : Nat) : Mach × Nat :=
  if va % 64 ≠ 0 then (m, failW 1)
  else match readWords m m.cur va 8 with
    | .error _ => (m, failW 0x0C)
    | .ok ws =>
      let f : Fam := ⟨ws, [], 0, none, [], [], 0, none, [], [], 0, 0, 0⟩
      let n := bits (f.word 0) 0 6
      if !f.fieldsOk then (m, failW 1)
      else if (famOf m (famKey p n)).isSome then (m, failW 2)
      else match readBytes m m.cur f.tlist (2 * f.tcnt), famOwner m p f with
        | .error _, _ => (m, failW 0x0C)
        | .ok _, none => (m, failW 3)
        | .ok bs, some own =>
          let cands := (upto f.tcnt).map (fun i => natOf ((bs.drop (2 * i)).take 2))
          let f1 := { f with desc := ws ++ cands.map (BitVec.ofNat 64), entries := [⟨0, own, false, false⟩] }
          if cands.any (fun c => c / 48 != famCluster f1) then (m, failW 3)
          else if f.kind = 0 then
            if !(frameImg m own 0).isEmpty || !(frameImg m own 1).isEmpty then (m, failW (6 + 0x10 * 65536))
            else match installPair m m.cur p own f1 with
              | .error (c, m1) => (m1, failW (6 + c * 65536))
              | .ok m1 => (setFam (bindCtx m1 own f1.sctx 0 (.holder p n)) (famKey p n) f1, 0)
          else (setFam m (famKey p n) f1, 0)
def stageG (d a : Opd) : Mach → Mach :=
  stageStart [a] d false (fun vs m => stageGo { m with free := m.free + 1 } (pastOfActor m m.cur) (bits (natAt vs 0) 0 56))
def execStage (d a : Opd) (s : State) : Out := lift (stageG d a) s

/-- The common form of CAST and MERGE: a refusal at once, or a step that delivers the result when it ends. -/
def stepStart (d a b : Opd) (code : Mach → Nat → Fam → Nat → Nat) (start : Mach → Nat → Nat → Nat → Nat → Fam → Mach) :
    Mach → Mach :=
  memStart [a, b] [d] [] (poisonNow d .tile) (fun vs m =>
    let p := pastOfActor m m.cur
    let n := bits (natAt vs 0) 0 6
    let i := bits (natAt vs 1) 0 5
    let dst := dstOf m d false
    match famOf m (famKey p n) with
    | none => resultNow m dst .tile (tokNat (failW 5))
    | some f =>
      let c := code m p f i
      if c ≠ 0 then resultNow m dst .tile (tokNat (failW c))
      else start (addReq m (mkReq m dst (.stage n) 5 true false)) p n i m.ids f)
def castG (d a b : Opd) : Mach → Mach := stepStart d a b castCode startCast
def execCast (d a b : Opd) (s : State) : Out := lift (castG d a b) s
def mergeG (d a b : Opd) : Mach → Mach := stepStart d a b (fun _ _ f i => mergeCode f i) startMerge
def execMerge (d a b : Opd) (s : State) : Out := lift (mergeG d a b) s

/-- An entry as KRT reads it (R361). -/
def krtWord (f : Fam) (i : Nat) : Nat :=
  match f.entries[i]? with
  | none => 0
  | some e =>
    f.version % 65536 * 2 ^ 64 + (if e.split then 2 ^ 53 else 0) + (if e.hold then 2 ^ 52 else 0) + 2 ^ 51 + f.sctx * 2 ^ 49
      + f.sch * 2 ^ 46 + f.spe * 2 ^ 42 + e.core % 1024 * 2 ^ 32 + e.lo
/-- KRT; an undeclared family reads with V = 0 (log 44). -/
def krtG (d a b : Opd) : Mach → Mach :=
  stageStart [a, b] d true (fun vs m =>
    (m, match famOf m (famKey (pastOfActor m m.cur) (bits (natAt vs 0) 0 6)) with
      | some f => krtWord f (bits (natAt vs 1) 0 5)
      | none => 0))
def execKrt (d a b : Opd) (s : State) : Out := lift (krtG d a b) s

/-- The state code of CASTQ. -/
def stepCode (f : Fam) : Nat :=
  match f.step with
  | none => 0
  | some s => match s.kind with
    | .cast => if s.ph == .redirect then 2 else 1
    | .merge => 3
    | .close => 4
def castqWord (f : Fam) : Nat :=
  stepCode f * 2 ^ 60 + f.entries.length * 2 ^ 48 + f.version % 65536 * 2 ^ 32 + min 255 f.casts * 65536
    + min 255 f.merges * 256 + f.lastFail % 256
def castqG (d a : Opd) : Mach → Mach :=
  stageStart [a] d false (fun vs m =>
    (m, match famOf m (famKey (pastOfActor m m.cur) (bits (natAt vs 0) 0 6)) with
      | some f => castqWord f
      | none => failW 5))
def execCastq (d a : Opd) (s : State) : Out := lift (castqG d a) s

/-- HASH: lanes in a PE, bits [31:0] in an S-form unit. -/
def hashG (spr : Option (Fin 64)) (d a : Opd) : Mach → Mach :=
  let h := fun k => match spr with | some kb => hashSpread kb.val k | none => rhash k
  fire [(.whole, a)] (.opd d) (fun vs m =>
    let x := natAt vs 0
    putRes m (.opd d) (Val.ofNat (match m.cur with
      | .unit .. => h (x % 2 ^ 32)
      | _ => packLanes 32 ((lanesOf 32 4 x).map h))))
def execHash (spr : Option (Fin 64)) (d a : Opd) (s : State) : Out := lift (hashG spr d a) s

/-! ## Arrival of routed records (R362, R366) -/

/-- The program family whose SIN an input is: family key and family. -/
def sinFamily (m : Mach) (dst : Nat) : Option (Nat × Fam) :=
  m.stage.fams.find? (fun e => e.2.kind == 0 && e.2.sin (dst / 128) == dst && livePast m (dst / 128) == some (e.1 / 64)
    && (e.2.entries.any (fun x => x.core == dst / 128) || (e.2.step.map (·.other)) == some (dst / 128)))

/-- Where an arriving record goes. -/
inductive Arr where
  | sin
  | buf
  | forward (core : Nat)
  | wait
  deriving DecidableEq, Repr

/-- A record at a holder (R366): into the cast buffer while its entry is split, on to the twin while it redirects, into the
twin's buffer when it comes directly; otherwise into SIN, behind the records that a buffer has released. -/
def arrivalOf (m : Mach) (f : Fam) (t : Transit) : Arr :=
  let core := t.dst / 128
  let direct := t.src < 430000
  let behind := direct && m.fab.transit.any (fun x => x.src == 430000 + core && x.dst == t.dst)
  let inBuf := if (tget [] core f.buf).length < 256 then Arr.buf else .wait
  let inSin := if behind then Arr.wait else .sin
  match f.step with
  | none => inSin
  | some s =>
    if s.kind != .cast then inSin
    else if s.ph != .redirect then
      if core != holderOf f s.entry then inSin else if behind then .wait else inBuf
    else if core == s.other then (if direct then inBuf else .sin)
    else if core == holderOf f s.entry && direct
        && (coverOf f.entries (f.hash (t.tok.val.pay.toNat % 2 ^ 32))).map (·.core) == some s.other then .forward s.other
    else inSin

/-- The result of the KROUTE whose record has arrived. -/
def routeDone (m : Mach) (q : Option Nat) : Mach :=
  match q.bind (reqOf m) with
  | some r => (match r.granted with | some (c, v) => finish m r.id (c % 1024 + v % 65536 * 65536) | none => m)
  | none => m

/-- Whether transit `n` is the first of its source and input. -/
def firstTransit (m : Mach) (n : Nat) (t : Transit) : Bool := !(m.fab.transit.take n).any (fun x => x.src == t.src && x.dst == t.dst)

def routedArrival (n : Nat) (t : Transit) (k : Nat) (f : Fam) (m : Mach) : Mach :=
  if !firstTransit m n t then m
  else
    let m1 := { m with fab.transit := m.fab.transit.eraseIdx n }
    match arrivalOf m f t with
    | .wait => m
    | .sin =>
      let m2 := tokenArrivalG n m
      if m2.fab.transit.length = m1.fab.transit.length then redirEnd k (routeDone m2 t.req) else m
    | .buf =>
      let core := t.dst / 128
      let rcd : Routed := ⟨t.tok.val.pay.toNat % 2 ^ 32, t.tok.val⟩
      routeDone (setFam m1 k { f with buf := tset core (tget [] core f.buf ++ [rcd]) f.buf }) t.req
    | .forward c =>
      { m1 with fab.transit := m1.fab.transit ++ [⟨430000 + t.dst / 128, f.sin c, t.tok, t.req⟩] }

/-- TOKEN_ARRIVAL (R113): a routed record passes its family's cast buffer; every other token enters its input. -/
def tokenArrivalAny (n : Nat) (m : Mach) : Mach :=
  match m.fab.transit[n]? with
  | none => m
  | some t =>
    if 400000 ≤ t.src && t.src < 450000 then
      match sinFamily m t.dst with
      | some e => routedArrival n t e.1 e.2 m
      | none =>
        let m2 := tokenArrivalG n m
        if m2.fab.transit.length < m.fab.transit.length then routeDone m2 t.req else m
    else tokenArrivalG n m
/-- A token of a loader tile is a flit that enters the fabric at the tile's port (R39). -/
def execTokenArrival (n : Nat) (s : State) : Out :=
  match s.m.fab.transit[n]? with
  | none => .next s
  | some t =>
    if 200000 ≤ t.src ∧ t.src < 200336 then
      .next (enterFabric (t.src - 200000) (2 ^ 64) 1 (fun m m1 => m1.fab.transit.length < m.fab.transit.length) (tokenArrivalAny n) s)
    else lift (tokenArrivalAny n) s

/-! ## Events of steps -/

/-- Whether a step may leave its first phase: the holder is idle; a merge also needs the confirmation of fold waves, two as
R374 counts them (log 45); a partition waits for a wave and a queue for nothing but its own emptiness in a merge. -/
def stepReady (m : Mach) (p : Nat) (f : Fam) (s : FamStep) : Bool :=
  match f.kind with
  | 1 => !portBusy m p f && 1 ≤ s.waves
  | 2 => s.kind == .cast || (s.kind == .close) || exqCount (queueX m s.mid) == 0
  | _ =>
    let h := routineCore f s
    holderIdle m p f h && (s.kind != .merge || (2 ≤ s.waves && !inFlight m f h && (tget [] h f.buf).isEmpty))

/-- The entry token (R368). -/
def entryToken (f : Fam) (s : FamStep) : Token :=
  let lo := if s.kind == .cast then s.mid else (entryOf f.entries s.entry).lo
  let v := (f.version + 1) % 65536 * 2 ^ 112 + s.other % 65536 * 2 ^ 96 + hiOf f.entries s.entry % 2 ^ 32 * 2 ^ 64 + lo * 2 ^ 32
    + (0x02000000 + s.other % 48 * 2 ^ 19)
  ⟨Val.ofNat v, false, s.kind == .merge, 0⟩

/-- Delivers EOS to the SIN of the core whose holder is to end, in the bank of its activation (R370; log 46). -/
def sendEos (m : Mach) (f : Fam) (core : Nat) : Mach := sendTok m (430000 + core) (f.sin core) ⟨Val.none, true, false, f.sctx⟩

/-- ROUTINE_DISPATCH (R366 step 3, R370 steps 2 and 3, R371). -/
def routineDispatchG (p n : Nat) (m : Mach) : Mach :=
  let k := famKey p n
  match famOf m k with
  | none => m
  | some f =>
    match f.step with
    | none => m
    | some s =>
      if !running m p || s.ph != .prepare || f.kind != 0 || !stepReady m p f s then m
      else
        let h := routineCore f s
        match s.kind with
        | .close => twinEnd k (sendEos (setFam m k { f with step := some { s with ph := .ending } }) f s.mid)
        | _ =>
          if thas (h * 8 + 4) m.pe.binds then m
          else
            let m1 := bindCtx m h 4 ((f.version + 1) % 65536) (.routine p n)
            let m2 := setFam m1 k { f with step := some { s with ph := .routine } }
            sendTok m2 (450000 + h) (chanKey h f.rpe f.rch) (entryToken f s)
def execRoutineDispatch (past fam : Nat) (s : State) : Out := lift (routineDispatchG past fam) s

/-- Moves the tuples of a hash range between two holders of a partition, slot by slot (R372). -/
def moveTuples (m : Mach) (p : Nat) (f : Fam) (src dst lo hi : Nat) : Mach :=
  match relOf m p f.rel with
  | none => m
  | some x => (upto x.spslots).foldl (fun m s =>
      let t := tupOf (portRead m (slotAt m p x src f.hix s) 32 0)
      let h := rhash (keyCol t.keys x.keycol)
      if t.v && lo ≤ h && h < hi then
        portWrite (portWrite m (slotAt m p x dst f.hix s) (bytesOf (tupNat t) 32)) (slotAt m p x src f.hix s) (List.replicate 32 0)
      else m) m

/-- A cast is done (R366 steps 4 and 5): the new entry, the next version and the start of redirection. -/
def castDone (k : Nat) (f : Fam) (s : FamStep) (m : Mach) : Mach :=
  let old := holderOf f s.entry
  let es := f.entries.map (fun e => { e with split := false })
  let es1 := es.take (s.entry + 1) ++ [⟨s.mid, s.other, false, false⟩] ++ es.drop (s.entry + 1)
  let f1 := { f with
    entries := es1, version := (f.version + 1) % 65536
    step := some { s with ph := .redirect, acks := senders m f } }
  let m1 := releaseBuf m f1 old
  redirEnd k (setFam m1 k { f1 with buf := tdel old f1.buf })

/-- A merge is done (R370 steps 4 and 5): the entry is gone and the senders hold the new table, by which stalled KROUTEs go on. -/
def mergeDone (k : Nat) (f : Fam) (s : FamStep) (m : Mach) : Mach :=
  let es := (f.entries.eraseIdx s.entry).map (fun e => { e with hold := false })
  let v := (f.version + 1) % 65536
  let f1 := { f with
    entries := es, version := v, copies := f.copies.map (fun c => (c.1, (v, es)))
    step := some { s with ph := .ending } }
  let m1 := setFam m k f1
  twinEnd k (if f.kind = 0 then sendEos m1 f s.mid else m1)

/-- A step of a hardware family (R372, R373); the cut of a queue is made as the range is handed over. -/
def hardStep (k : Nat) (f : Fam) (s : FamStep) (m : Mach) : Mach :=
  let p := k / 64
  if s.ph != .prepare || !stepReady m p f s then m
  else match s.kind with
    | .cast => castDone k f s (if f.kind = 1 then moveTuples m p f (holderOf f s.entry) s.other s.mid (hiOf f.entries s.entry)
        else setQueueX m s.other { queueX m s.other with cut := exqCount (queueX m f.queue) })
    | .merge =>
      mergeDone k f s (if f.kind = 1 then moveTuples m p f s.mid s.other (entryOf f.entries s.entry).lo (hiOf f.entries s.entry)
        else setQueueX m s.mid ExpQ.reset)
    | .close => twinEnd k (setFam m k { f with step := some { s with ph := .ending } })

/-- STEP_DONE (R369): the routine has ended with the matching instruction and its accesses are performed. -/
def stepDoneEv (p n : Nat) (m : Mach) : Mach :=
  let k := famKey p n
  match famOf m k with
  | none => m
  | some f =>
    match f.step with
    | none => m
    | some s =>
      if !running m p then m
      else if f.kind ≠ 0 then hardStep k f s m
      else match s.ph with
        | .ending => twinEnd k m
        | .routine =>
          let h := routineCore f s
          (match routineOf m k h with
           | none => routineFail k m
           | some b =>
             if !b.ending then m
             else if !markOk s b then routineFail k m
             else if ctxReqs m h 4 b.act || !(tget [] (h * 8 + 4) m.pe.commit).isEmpty then m
             else
               let m1 := releaseCtx m h 4 false
               if s.kind == .cast then castDone k f s m1 else mergeDone k f s m1)
        | _ => m
def execStepDone (past fam : Nat) (s : State) : Out := lift (stepDoneEv past fam) s

/-- Records that a sender sent under an older version and that have not reached their holder (R363; log 47). -/
def oldInFlight (m : Mach) (f : Fam) (sk : Nat) : Bool :=
  m.fab.transit.any (fun t => 400000 ≤ t.src && t.src < 430000 && srcSender t.src == sk
    && (match t.req.bind (reqOf m) with
        | some r => (match r.granted with | some (c, v) => v != f.version && t.dst == f.sin c | none => false)
        | none => false))

/-- SENDER_ACK (R363): a sender takes the new version and acknowledges once its older records have left. -/
def senderAckG (p n sk : Nat) (m : Mach) : Mach :=
  let k := famKey p n
  match famOf m k with
  | none => m
  | some f =>
    let waits := match f.step with | some s => s.acks.contains sk | none => false
    if !running m p || !(thas sk f.copies || waits) then m
    else
      let f1 := if thas sk f.copies then { f with copies := tset sk (f.version, f.entries) f.copies } else f
      let ack := !oldInFlight m f1 sk
      let st := f1.step.map (fun s => if ack then { s with acks := s.acks.filter (· != sk) } else s)
      redirEnd k (setFam m k { f1 with step := st })
def execSenderAck (past fam core : Nat) (s : State) : Out := lift (senderAckG past fam core) s

/-- Requests of a sample: casts of entries and merges of twins (R364, R370). -/
def sampleReqs (f : Fam) : List (Bool × Nat) :=
  let hot := fun i => tget 0 (holderOf f i) f.hot
  let cool := fun i => tget 0 (holderOf f i) f.cool
  let ix := upto f.entries.length
  (if f.acast && f.entries.length < f.maxt + 1 then (ix.filter (fun i => f.cn + 1 ≤ hot i)).map (fun i => (false, i)) else [])
    ++ (if f.amerge then (ix.filter (fun i => i != 0 && decide (f.mn + 1 ≤ cool i ∧ f.mn + 1 ≤ cool (i - 1)))).map (fun i => (true, i)) else [])

/-- CAST_SAMPLE (R364, R370): every holder samples its occupancy; one of the requests, if any, starts a step. Which of
several is not fixed (log 9). -/
def castSampleG (p n : Nat) (m : Mach) : Mach :=
  let k := famKey p n
  match famOf m k with
  | none => m
  | some f =>
    if !running m p then m
    else
      let count := fun (t : Tbl Nat) (c : Nat → Bool) =>
        f.entries.foldl (fun a e => if c (occupancy m p f e.core) then tset e.core (tget 0 e.core t + 1) a else a) []
      let f1 := { f with hot := count f.hot (fun o => decide (f.cth ≤ o)), cool := count f.cool (fun o => decide (o ≤ f.mth)) }
      let m1 := setFam m k f1
      let rs := if f1.step.isSome then [] else sampleReqs f1
      match rs[Config.freeSlot m.free % rs.length]? with
      | none => m1
      | some (false, i) =>
        let m2 := { m1 with free := m1.free + 1 }
        if castCode m2 p f1 i = 0 then startCast m2 p n i (2 ^ 64) f1 else m2
      | some (true, i) => startMerge { m1 with free := m1.free + 1 } p n i (2 ^ 64) f1
def execCastSample (past fam : Nat) (s : State) : Out := lift (castSampleG past fam) s

/-! ## FOLD and fold waves (R338, R352, R374) -/

/-- FOLD (R352). -/
def foldG (stg : Bool) (d a : Opd) : Mach → Mach :=
  memStart [a] [d] [] (poisonNow d .tile) (fun vs m =>
    let p := pastOfActor m m.cur
    let dst := dstOf m d false
    let n := bits (natAt vs 0) 0 8
    let known := if stg then decide (n < 64) && (famOf m (famKey p n)).isSome else (relOf m p n).isSome
    if (valAt vs 0).scaled then resultNow m dst .tile (tokOf (poison m m.cur 0x05 1))
    else if !known then resultNow m dst .tile (tokNat (failW 5))
    else addReq m (mkReq m dst (.fold stg n 0) 5 true false))
def execFold (f : BitF) (d a : Opd) (s : State) : Out := lift (foldG f.bit d a) s

/-- Records sent and not yet dequeued from a SIN (R374): on their way, in cast buffers, or in SIN. -/
def famPending (m : Mach) (f : Fam) : Nat :=
  let sins := famSins f
  (m.fab.transit.filter (fun t => 400000 ≤ t.src && t.src < 450000 && sins.contains t.dst && !t.tok.eos)).length
    + (f.buf.map (fun b => b.2.length)).sum
    + (sins.map (fun c => ((chanToks (chanOf m c)).filter (fun t => !t.eos)).length)).sum

/-- Whether a family folds at this wave, and its totals (R374). -/
def famFolds (m : Mach) (p : Nat) (f : Fam) : Bool × (Nat × Nat) :=
  let tot := (f.sent, f.sent - famPending m f)
  (f.wave == some tot && tot.1 == tot.2 && f.entries.all (fun e => holderIdle m p f e.core), tot)

/-- A wave over one family: the totals, and the confirmation that a step waits for (R370, R372). -/
def waveFam (p : Nat) (m : Mach) (e : Nat × Fam) : Mach :=
  let f := e.2
  let quiet := fun (s : FamStep) => if f.kind = 0 then
      holderIdle m p f (routineCore f s) && !inFlight m f (routineCore f s) && (tget [] (routineCore f s) f.buf).isEmpty
    else !portBusy m p f
  let st := f.step.map (fun s => if s.ph == .prepare && (s.kind == .merge || f.kind == 1) then
    { s with waves := if quiet s then s.waves + 1 else 0 } else s)
  setFam m e.1 { f with wave := some (famFolds m p f).2, step := st }

/-- FOLD requests that a wave moves on: a relation's completes at its second wave, a family's when the family folds. -/
def waveFold (p : Nat) (folded : List Nat) (m : Mach) (r : Req) : Mach :=
  match r.op with
  | .fold true n _ => if folded.contains n || (famOf m (famKey p n)).isNone then finish m r.id 0 else m
  | .fold false n w => if 1 ≤ w then finish m r.id 0 else modReq m r.id (fun x => { x with op := .fold false n (w + 1) })
  | _ => m

/-- FOLD_WAVE (R338, R374): the drovers sum the counts of a pasture. -/
def foldWaveG (p : Nat) (m : Mach) : Mach :=
  if !running m p then m
  else
    let fams := m.stage.fams.filter (fun e => e.1 / 64 == p)
    let folded := (fams.filter (fun e => (famFolds m p e.2).1)).map (fun e => e.1 % 64)
    let m1 := fams.foldl (waveFam p) m
    let m2 := (m.mem.reqs.filter (fun r => r.past == p && !r.done)).foldl (waveFold p folded) m1
    stageEnds p (evalWave p m2)
def execFoldWave (past : Nat) (s : State) : Out := lift (foldWaveG past) s

end Sys2Proof.Machine
end

