-- ==== Sys2Proof/Machine/Fabric.lean ====
section
/-! DEFINITION. Fabric, optics and leases, class 0xC_ (R381-R409): Toryr lanes and leases, multicast, lane keys, the portal,
migrate pages, slot entries and peers. Lanes to and from peers are keyed peer x 8 + plane, gate lanes (512 + gate port) x 8
+ plane; an event names a transmit lane by its key and a receive lane by its key + 8,192. -/
namespace Sys2Proof.Machine

/-! ## Lanes (R385-R391) -/

def Lane.fresh (p : Option Nat) : Lane := ⟨p, false, 0, false, false, false, 0, .none, .none, false, 0, 0⟩
def txLit (m : Mach) (peer k : Nat) : Bool := thas (peer * 8 + k) m.fab.tx
def rxLit (m : Mach) (peer k : Nat) : Bool := thas (peer * 8 + k) m.fab.rx
/-- Lit transmit lanes of a plane; each plane lights at most 32 (R385). -/
def planeTx (m : Mach) (k : Nat) : Nat := (m.fab.tx.filter (fun e => e.1 % 8 == k)).length
def planeRx (m : Mach) (k : Nat) : Nat := (m.fab.rx.filter (fun e => e.1 % 8 == k)).length
def freeTx (m : Mach) : Nat := ((upto 8).map (fun k => 32 - planeTx m k)).sum

/-- Lanes to a peer that a pasture holds, and all that it holds. -/
def heldTo (m : Mach) (p peer : Nat) : Nat := (m.fab.tx.filter (fun e => e.1 / 8 == peer && e.2.holder == some p)).length
def heldAll (m : Mach) (p : Nat) : Nat := (m.fab.tx.filter (fun e => e.2.holder == some p)).length

/-- A set of planes as bits. -/
def planeBits (ks : List Nat) : Nat := (ks.map (fun k => 2 ^ k)).sum

/-- The lease status word (R391). -/
def leaseWord (m : Mach) (p peer : Nat) : Nat :=
  let tx := (upto 8).filter (txLit m peer)
  let rx := (upto 8).filter (rxLit m peer)
  let rev := (upto 8).any (fun k => match tfind (peer * 8 + k) m.fab.tx with | some l => l.notice | none => false)
  planeBits tx * 2 ^ 48 + planeBits rx * 2 ^ 40 + tx.length * 2 ^ 36 + rx.length * 2 ^ 32 + heldTo m p peer % 16 * 2 ^ 28
    + tget 0 peer m.fab.denied % 16 * 2 ^ 24 + (if m.fab.prio.contains peer then 2 ^ 23 else 0) + (if rev then 2 ^ 22 else 0)
    + freeTx m % 512 * 2 ^ 12 + heldAll m p % 512

/-- Peer numbers in use (R392). -/
def inUse (m : Mach) (a : Nat) : Bool := a < 512 && (a == m.host.peer || Config.peerInUse a)
def inPaddock (m : Mach) (a : Nat) : Bool := a != m.host.peer && a / 64 == m.host.peer / 64
def peerFailed (m : Mach) (p a : Nat) : Bool := m.fab.failed.contains (p * 512 + a)

/-- FIELD, NOT_PADDOCK and PEER_FAILED, in that order (R392, R394). -/
def peerCode (m : Mach) (p : Nat) (peers : List Nat) (fieldOk : Bool) (failed : Bool) : Nat :=
  if !fieldOk || !peers.all (inUse m) then 1
  else if !peers.all (inPaddock m) then 3
  else if failed && peers.any (peerFailed m p) then 6
  else 0

/-- The quota word's fields (R388). -/
def quotaTotal (m : Mach) (p : Nat) : Nat := bits (pastOf m p).quota.toNat 0 9
def quotaPeer (m : Mach) (p : Nat) : Nat := bits (pastOf m p).quota.toNat 9 4
def quotaTake (m : Mach) (p : Nat) : Bool := bitAt (pastOf m p).quota.toNat 16
def quotaRevoke (m : Mach) (p : Nat) : Bool := bitAt (pastOf m p).quota.toNat 17
def quotaLink (m : Mach) (p : Nat) : Bool := bitAt (pastOf m p).quota.toNat 18
/-- The link pasture: the first whose quota word has LINK (R388). -/
def linkPast (m : Mach) : Option Nat := (upto 16).find? (fun p => (pastOf m p).st != .free && quotaLink m p)

/-- The start of LEASE, LMOVE, LREL, LQRY and PEERQ: the effect gets the pasture and the operands. -/
def laneStart (os : List Opd) (d : Opd) (eff : Nat → Nat → Nat → Mach → Mach) : Mach → Mach :=
  memStart os [d] [] (poisonNow d .tile) (fun vs m => eff (pastOfActor m m.cur) (natAt vs 0 % 2 ^ 64) (natAt vs 1 % 2 ^ 64) m)

/-- A lease or move is queued; `granted` marks a requester with PRIO (R389). -/
def queueLease (m : Mach) (d : Opd) (peer n : Nat) (plane : Option Nat) (src : Nat) : Mach :=
  addReq m { mkReq m (dstOf m d false) (.lease peer n plane src) 5 false false with
    granted := if m.fab.prio.contains peer then some (1, 0) else .none }

/-- LEASE (R394): n is B[2:0]. -/
def leaseG (d a b : Opd) : Mach → Mach :=
  laneStart [a, b] d (fun p x n m =>
    let n := bits n 0 3
    let c := peerCode m p [x] (1 ≤ n) true
    let c1 := if c != 0 then c
      else if quotaPeer m p < heldTo m p x + n ∨ quotaTotal m p < heldAll m p + n then 2 else 0
    if c1 ≠ 0 then resultNow m (dstOf m d false) .tile (tokNat (failW c1))
    else queueLease m d x n .none m.host.peer)
def execLease (d a b : Opd) (s : State) : Out := lift (leaseG d a b) s

/-- Whether a transmit lane may be released or moved by a pasture, `take` being TAKE (R394). -/
def mayRelease (m : Mach) (p : Nat) (take : Bool) (peer k : Nat) : Bool :=
  match tfind (peer * 8 + k) m.fab.tx with
  | some l => !isFloor m.host.peer (peer * 8 + k) && (l.holder == some p || (l.holder.isNone && take))
  | none => false
/-- Planes from the highest downward. -/
def planesDown : List Nat := [7, 6, 5, 4, 3, 2, 1, 0]

/-- LMOVE (R394). Which receive lanes are free at the peer is not known here: free bits (log 9). -/
def lmoveG (d a b : Opd) : Mach → Mach :=
  laneStart [a, b] d (fun p x b m =>
    let y := bits b 0 9
    let mask := Config.freeSlot m.free
    let c := peerCode m p [x, y] true true
    let has := fun k => match tfind (y * 8 + k) m.fab.tx with | some l => l.holder == some p | none => false
    let fits := fun take => planesDown.filter (fun k => mayRelease m p take x k && !has k && bitAt mask k)
    let answer := fun v => resultNow m (dstOf m d false) .tile (tokNat (failW v))
    if c ≠ 0 then answer c
    else if quotaPeer m p < heldTo m p y + 1 then answer 2
    else match (fits (quotaTake m p)).head? with
      | none => if (fits true).isEmpty then answer 5 else answer 2
      | some k =>
        let adds := match tfind (x * 8 + k) m.fab.tx with | some l => if l.holder.isNone then 1 else 0 | none => 0
        if quotaTotal m p < heldAll m p + adds then answer 2
        else queueLease { m with free := m.free + 1 } d y 1 (some k) x)
def execLmove (d a b : Opd) (s : State) : Out := lift (lmoveG d a b) s

/-- Releases transmit lanes. -/
def darkTx (m : Mach) (peer : Nat) (ks : List Nat) : Mach :=
  ks.foldl (fun m k => { m with fab.tx := tdel (peer * 8 + k) m.fab.tx }) m

/-- LREL (R394); `.rx` revokes lanes toward this package and waits for the notices (R390). -/
def lrelG (f : BitF) (d a b : Opd) : Mach → Mach :=
  laneStart [a, b] d (fun p x n m =>
    let n := bits n 0 3
    let c := peerCode m p [x] (1 ≤ n) true
    let now := fun m v => resultNow m (dstOf m d false) .tile (tokNat v)
    if c ≠ 0 then now m (failW c)
    else if f.bit then
      if !quotaRevoke m p then now m (failW 2)
      else
        let ks := (planesDown.filter (fun k => match tfind (x * 8 + k) m.fab.rx with
          | some l => k != floorPlane x m.host.peer && l.revoking.isNone
          | none => false)).take n
        if ks.length < n then now m (failW 5)
        else
          let m1 := ks.foldl (fun m k => match tfind (x * 8 + k) m.fab.rx with
            | some l => { m with fab.rx := tset (x * 8 + k) { l with revoking := some m.ids } m.fab.rx }
            | none => m) m
          addReq m1 (mkReq m1 (dstOf m1 d false) (.lrel x ks) 5 false false)
    else
      let ks := (planesDown.filter (mayRelease m p (quotaTake m p) x)).take n
      if ks.length < n then now m (failW 5)
      else let m1 := darkTx m x ks
           now m1 (leaseWord m1 p x))
def execLrel (f : BitF) (d a b : Opd) (s : State) : Out := lift (lrelG f d a b) s

/-- LQRY (R394). -/
def lqryG (d a : Opd) : Mach → Mach :=
  laneStart [a] d (fun p x _ m =>
    let c := peerCode m p [x] true false
    resultNow m (dstOf m d false) .tile (tokNat (if c ≠ 0 then failW c else leaseWord m p x)))
def execLqry (d a : Opd) (s : State) : Out := lift (lqryG d a) s

/-- PEERQ (R408). The key marks of a peer in another paddock are those of the gate lanes. -/
def peerWord (m : Mach) (p x : Nat) : Nat :=
  let gate := x / 64 != m.host.peer / 64
  let ls := m.fab.tx.filter (fun e => e.1 / 8 == x || (gate && 4096 ≤ e.1))
  (if peerFailed m p x then 2 ^ 16 else 0) + (if ls.any (·.2.low) then 2 ^ 15 else 0) + (if ls.any (·.2.hold) then 2 ^ 14 else 0)
    + ((upto 8).filter (txLit m x)).length * 2 ^ 10 + (if gate then 2 ^ 9 else 0)
def peerqG (f : BitF) (d a : Opd) : Mach → Mach :=
  laneStart [a] d (fun p a _ m =>
    let x := bits a 0 9
    if !inUse m x then resultNow m (dstOf m d false) .tile (tokNat (failW 1))
    else
      let v := peerWord m p x
      let m1 := if f.bit then { m with fab.failed := m.fab.failed.filter (· != p * 512 + x) } else m
      resultNow m1 (dstOf m1 d false) .tile (tokNat v))
def execPeerq (f : BitF) (d a : Opd) (s : State) : Out := lift (peerqG f d a) s

/-! ## Lease events (R389, R390) -/

/-- The head of this package's lease requests at a peer: the oldest with PRIO, else the oldest. -/
def leaseHead (m : Mach) (peer : Nat) : Option Req :=
  let q := m.mem.reqs.filter (fun r => !r.done && (match r.op with | .lease x _ _ _ => x == peer | _ => false))
  (q.find? (·.granted.isSome)).orElse (fun _ => q.head?)

/-- A request is granted: DENIED and PRIO clear and the status word is delivered. -/
def grantLease (m : Mach) (r : Req) (peer : Nat) : Mach :=
  let m1 := { m with fab.denied := tdel peer m.fab.denied, fab.prio := m.fab.prio.filter (· != peer) }
  finish m1 r.id (leaseWord m1 r.past peer)
def lightTx (m : Mach) (p peer : Nat) (ks : List Nat) : Mach :=
  ks.foldl (fun m k => { m with fab.tx := tset (peer * 8 + k) (Lane.fresh (some p)) m.fab.tx }) m

/-- The head request of this package at a peer is served; the peer's free receive lanes are free bits (log 9). -/
def serveOurs (m0 : Mach) (peer : Nat) : Mach :=
  match leaseHead m0 peer with
  | none => m0
  | some r =>
    let mask := Config.freeSlot m0.free
    let m := { m0 with free := m0.free + 1 }
    match r.op with
    | .lease _ n .none _ =>
      let ks := ((upto 8).filter (fun k => planeTx m k < 32 && bitAt mask k && !txLit m peer k)).take n
      if ks.isEmpty then m else grantLease (lightTx m r.past peer ks) r peer
    | .lease _ _ (some k) src =>
      if bitAt mask k && mayRelease m r.past (quotaTake m r.past) src k && !txLit m peer k then
        grantLease (lightTx (darkTx m src [k]) r.past peer [k]) r peer
      else m
    | _ => m

/-- The head of the queue of this receiver (R389): the oldest with PRIO, else the oldest. -/
def queueHead (m : Mach) : Option LeaseQ := (m.fab.leases.find? (·.prio)).orElse (fun _ => m.fab.leases.head?)
/-- A receive lane goes dark and frees its place: the head of the queue is served again (R389). -/
def freeRx (m : Mach) (key : Nat) : Mach :=
  { m with fab.rx := tdel key m.fab.rx, fab.leases := m.fab.leases.map (fun q => { q with waited := false }) }

/-- A receive lane is dark; an LREL that revokes it delivers with its last lane (R390, R394). -/
def endRx (m : Mach) (key : Nat) : Mach :=
  let m1 := freeRx m key
  match (tfind key m.fab.rx).bind (·.revoking) with
  | none => m1
  | some id => match reqOf m1 id with
    | none => m1
    | some r => if m1.fab.rx.any (fun e => e.2.revoking == some id) then m1 else finish m1 id (leaseWord m1 r.past (key / 8))

/-- The head of the queue is served; which transmit lanes its sender has free are free bits (log 9). Without a lane for it, it waits
for the next receive lane to free here. -/
def serveTheirs (m0 : Mach) : Mach :=
  match queueHead m0 with
  | none => m0
  | some q =>
    if q.waited then m0
    else
      let mask := Config.freeSlot m0.free
      let m := { m0 with free := m0.free + 1 }
      let planes := match q.plane with | some k => [k] | none => upto 8
      let ks := (planes.filter (fun k => bitAt mask k && planeRx m k < 32 && !rxLit m q.src k)).take q.n
      if ks.isEmpty then { m with fab.leases := m.fab.leases.map (fun x => if x == q then { x with waited := true } else x) }
      else ks.foldl (fun m k => { m with fab.rx := tset (q.src * 8 + k) (Lane.fresh .none) m.fab.rx })
        { m with fab.leases := m.fab.leases.erase q }

/-- A request of another package of the paddock joins the queue of this receiver (R389). -/
def joinQueue (m : Mach) (src n : Nat) (plane : Option Nat) (prio : Bool) : Mach :=
  if !inPaddock m src || n = 0 || 7 < n || plane.any (8 ≤ ·) then m
  else { m with fab.leases := m.fab.leases ++ [⟨src, n, plane, prio, false⟩] }

/-- LEASE_SERVICE (R389). A floor lane goes dark here only as its sender's key expires (R386, R400), and a gate lane never. While the
module is held, and until a start lights its lanes, none is lit (R445, R448). -/
def leaseServiceG (c : LeaseCall) (m : Mach) : Mach :=
  if m.host.phase < 5 then m else match c with
  | .ours peer => serveOurs m peer
  | .request src n plane prio => joinQueue m src n plane prio
  | .theirs => serveTheirs m
  | .denied src => { m with fab.leases := m.fab.leases.eraseP (·.src == src) }
  | .released src k => if 512 ≤ src ∨ 8 ≤ k then m else endRx m (src * 8 + k)
def execLeaseService (c : LeaseCall) (s : State) : Out := lift (leaseServiceG c) s

/-- LEASE_DENIAL (R389): still queued after 20 microseconds. -/
def leaseDenialG (id : Nat) (m : Mach) : Mach :=
  match reqOf m id with
  | none => m
  | some r =>
    match r.op with
    | .lease peer _ _ _ =>
      if r.done then m
      else
        let n := min 15 (tget 0 peer m.fab.denied + 1)
        let m1 := { m with
          fab.denied := tset peer n m.fab.denied
          fab.prio := if 8 ≤ n ∧ !m.fab.prio.contains peer then peer :: m.fab.prio else m.fab.prio }
        finish m1 id (failW 4)
    | _ => m
def execLeaseDenial (id : Nat) (s : State) : Out := lift (leaseDenialG id) s

/-- REVOCATION_NOTICE (R390): a receiver revokes a lane from here that is no floor and no gate lane. -/
def revocationNoticeG (lane : Nat) (m : Mach) : Mach :=
  match tfind lane m.fab.tx with
  | none => m
  | some l => if 4096 ≤ lane ∨ isFloor m.host.peer lane then m else { m with fab.tx := tset lane { l with notice := true } m.fab.tx }
def execRevocationNotice (lane : Nat) (s : State) : Out := lift (revocationNoticeG lane) s

/-- A cause for a lane's holder, or for the link pasture where the package holds it (R390, R413). -/
def laneCause (m : Mach) (holder : Option Nat) (code val : Nat) : Mach :=
  match holder.orElse (fun _ => linkPast m) with
  | some p => raiseHome m p code val
  | none => m

/-- REVOCATION_NOTICE_END (R390): the lane is dark. A receive lane's LREL delivers with its last lane. -/
def revocationNoticeEndG (lane : Nat) (m : Mach) : Mach :=
  if lane < 8192 then
    match tfind lane m.fab.tx with
    | none => m
    | some l =>
      if !l.notice then m
      else laneCause { m with fab.tx := tdel lane m.fab.tx } l.holder 0x0C (lane / 8 + lane % 8 * 512)
  else
    let k := lane - 8192
    match tfind k m.fab.rx with
    | none => m
    | some l =>
      match l.revoking with
      | none => m
      | some _ => endRx m k
def execRevocationNoticeEnd (lane : Nat) (s : State) : Out := lift (revocationNoticeEndG lane) s

/-! ## Lane keys (R399-R401) -/

/-- The key of the lane that a lane id names in one direction; a gate is peer 511 at its own end (log 18). -/
def laneOfId (m : Mach) (rx : Bool) (id : Nat) : Option Nat :=
  let own := m.host.peer
  let src := bits id 39 9
  let dst := bits id 30 9
  let i := bits id 20 7
  let far := if rx then src else dst
  let port := if rx then (own % 64 + 72 - i) % 72 else (own % 64 + i) % 72
  let peer := if port < 64 then own / 64 * 64 + port else 511
  if 2 ^ 48 ≤ id ∨ bits id 0 20 ≠ 0 ∨ 72 ≤ i ∨ i = 0 ∨ (if rx then dst else src) ≠ own ∨ far ≠ peer then none
  else
    let key := (if port < 64 then peer else 512 + (port - 64)) * 8 + bits id 27 3
    if thas key (if rx then m.fab.rx else m.fab.tx) then some key else none

/-- KEYI's effect on a lane (R400, R401). -/
def installKey (m : Mach) (rx : Bool) (key : Nat) (v : BitVec 256) : Mach :=
  if rx then
    match tfind key m.fab.rx with
    | some l => { m with fab.rx := tset key { l with newKey := some v } m.fab.rx }
    | none => m
  else
    match tfind key m.fab.tx with
    | some l => { m with fab.tx := tset key { l with key := v, phase := !l.phase, ctr := 0, hold := false, low := false, moved := false } m.fab.tx }
    | none => m

/-- A shepherd core's instruction fails to read its operand's memory (R211). -/
def shepReadFail (m : Mach) (cause detail : Nat) : Mach :=
  { failS m (mkReq m .drop .tile 5 false false) cause detail [] with ctl := .trapped }

/-- KEYI (R401): the key is read as a plain load at package scope, which LOAD_RESULT performs in its place in the chain. -/
def keyiG (f : BitF) (d a b : Opd) : Mach → Mach :=
  sFire [a, b] [d] (fun u w vs m =>
    if !isShepherd u || !quotaLink m (pastOfActor m (.unit u w)) then trapForm m u w 0x03 0
    else addReq m (mkReq m (dstOf m d false)
      (.keyi (bits ((vs[1]?).getD 0) 0 48 + (if f.bit then 2 ^ 48 else 0)) (bits ((vs[0]?).getD 0) 0 56)) 5 false false))
def execKeyi (f : BitF) (d a b : Opd) (s : State) : Out := lift (keyiG f d a b) s

/-- The key of a KEYI has been read at the places `ls`: bytes of another package are free (log 27). -/
def keyiEnd (m : Mach) (r : Req) (lane va : Nat) (ls : List Loc) : Mach :=
  let key := BitVec.ofNat 256 (natOf ((upto 32).map (fun i => match (ls[i]? : Option Loc) with
    | some l => if isOutside l then Config.outsideByte m.free (va + i) else locByte m l
    | none => 0)))
  let m1 := countMove { m with free := m.free + 1 } r
  let rx := decide (2 ^ 48 ≤ lane)
  match laneOfId m rx (lane % 2 ^ 48) with
  | none => finish m1 r.id (failW 1)
  | some k => finish (installKey m1 rx k key) r.id 0
/-- KEYI's read is performed, or fails as a load does. -/
def keyiDo (m : Mach) (r : Req) (lane va : Nat) (ans : Answer) : Mach :=
  match virtR m r va 32 .rd with
  | .error (c, d) => failReq m r c d []
  | .ok ls =>
    match faultR m r false ls, ans with
    | some (c, d), _ => failReq m r c d ls
    | none, .fail c d =>
      if c = 0 then discarded m r ls (fun p => failReq m r 0x09 p ls)
      else if failOk r ls c.toNat d.toNat then failReq (markBad m ls c.toNat d.toNat) r c.toNat d.toNat ls else m
    | none, _ => keyiEnd m r lane va ls

/-- TORYR_FLIT_RECEIVE (R399, R401): a flit whose tag fails is discarded; the first of a new phase drops the old key. A flit comes into
the fabric with a credit of its lane's port (R39), and the request that it belongs to may then be served (PEER_REQUEST). -/
def toryrFlitReceiveG (lane : Nat) (ok phase : Bool) (m : Mach) : Mach :=
  match tfind (lane - 8192) m.fab.rx with
  | none => m
  | some l =>
    if lane < 8192 ∨ !ok then m
    else if phase == l.phase then { m with fab.rx := tset (lane - 8192) { l with ctr := min (l.ctr + 1) (2 ^ 48 - 1), came := l.came + 1 } m.fab.rx }
    else match l.newKey with
      | none => m
      | some k => { m with fab.rx := tset (lane - 8192) { l with key := k, newKey := .none, phase := phase, ctr := 1, came := l.came + 1 } m.fab.rx }
def execToryrFlitReceive (lane : Nat) (ok phase : Bool) (s : State) : Out :=
  .next (enterFabric (10000 + (lane - 8192)) (2 ^ 64) 1 (fun m m1 => m1.fab.rx != m.fab.rx)
    (toryrFlitReceiveG lane ok phase) s)

/-- KEY_LOW (R400): the counter has reached its last 2^32 values, with flits of replies and of other packages' requests, which
the model does not show one by one (log 103). -/
def keyLowG (lane : Nat) (m : Mach) : Mach :=
  match tfind lane m.fab.tx with
  | none => m
  | some l => { m with fab.tx := tset lane { l with low := true, ctr := max l.ctr (2 ^ 48 - 2 ^ 32) } m.fab.tx }
def execKeyLow (lane : Nat) (s : State) : Out := lift (keyLowG lane) s

/-- KEY_HOLD (R400): cause 0x0B at the link pasture. -/
def keyHoldG (lane : Nat) (m : Mach) : Mach :=
  match tfind lane m.fab.tx with
  | none => m
  | some l =>
    if l.hold then m
    else laneCause { m with fab.tx := tset lane { l with hold := true, ctr := 2 ^ 48 - 1 } m.fab.tx } .none 0x0B (laneId m lane)
def execKeyHold (lane : Nat) (s : State) : Out := lift (keyHoldG lane) s

/-- KEY_EXPIRY (R400): the lane goes dark; a gate lane stays lit (R385) and its requests ride the other gate lanes. Requests that
no lane is left for fail with KEY_EXPIRED, those of engines unit by unit in the events that complete them. -/
def keyExpiryG (lane : Nat) (m : Mach) : Mach :=
  match tfind lane m.fab.tx with
  | none => m
  | some l =>
    if !l.hold then m
    else
      let m1 := if 4096 ≤ lane then { m with fab.tx := tset lane { l with moved := true } m.fab.tx }
        else { m with fab.tx := tdel lane m.fab.tx }
      let same := fun (p : Nat) => if 4096 ≤ lane then viaGate m p else p == lane / 8
      let left := m1.fab.tx.any (fun e => (if 4096 ≤ lane then decide (4096 ≤ e.1) else e.1 / 8 == lane / 8) && !e.2.moved)
      if left then m1
      else (m1.mem.reqs.filter (fun r => timesOut r && mayIssue m1 r)).foldl (fun m r =>
        match reqOf m r.id, peerOfReq m r with
        | some q, some p => if same p then failSync m q 0x0A p (awaited m q) else m
        | _, _ => m) m1
def execKeyExpiry (lane : Nat) (s : State) : Out := lift (keyExpiryG lane) s

/-! ## Multicast (R395-R398, R411) -/

/-- MGRP (R395) on group B[7:0] or slot B[5:0]. -/
def mgrpG (f : MgrpF) (d a b : Opd) : Mach → Mach :=
  sFire [a, b] [d] (fun u w vs m =>
    let who : Actor := .unit u w
    let va := bits ((vs[0]?).getD 0) 0 64
    let y := (vs[1]?).getD 0
    let g := bits y 0 8
    let i := bits y 0 6
    match f.op with
    | .set =>
      match readNat m who va 64 with
        | .error (c, x) => shepReadFail m c x
        | .ok v =>
          putS { m with free := m.free + 64, fab.groups := tset g (v, (tget (0, 0) g m.fab.groups).2) m.fab.groups } u d 0
    | .clr => putS { m with fab.groups := tset g (0, (tget (0, 0) g m.fab.groups).2) m.fab.groups } u d 0
    | .map =>
      match readNat m who va 16 with
        | .error (c, x) => shepReadFail m c x
        | .ok v =>
          let x : Inbound := ⟨bits v 64 52, bits v 32 32, bits v 16 8, bits v 0 9, bitAt v 24, pastOfActor m who⟩
          let m1 := { m with free := m.free + 16 }
          if bits v 116 12 ≠ 0 ∨ bits v 64 8 ≠ 0 ∨ bits v 25 7 ≠ 0 ∨ bits v 9 7 ≠ 0 ∨ x.len = 0 ∨ 2 ^ 39 < x.base + 256 * x.len then
            putS m1 u d (failW 1)
          else putS { m1 with fab.inbound := tset i x m1.fab.inbound } u d 0
    | .unmap => putS { m with fab.inbound := tdel i m.fab.inbound } u d 0)
def execMgrp (f : MgrpF) (d a b : Opd) (s : State) : Out := lift (mgrpG f d a b) s

/-- A scratchpad operand of MCST and MCSTQ: W = 0 in a PE, W = 1 in S-form (R396). -/
def lineLocs (m : Mach) (sa al : Nat) : Except (Nat × Nat) (List Loc) :=
  let w := match m.cur with | .pe .. => !bitAt sa 25 | _ => bitAt sa 25
  if w && sa % al == 0 then scratchLocs m m.cur (pastOfActor m m.cur) sa 256 else .error (0x08, sa)

/-- The issuer of an MCST: the core of a PE, or the unit. -/
def issuerOf : Actor → Nat
  | .pe core .. => core
  | .unit u _ => 1000 + u
  | .idle => 5000

/-- An MCST is sent once its chain position allows: it reads its line once, takes the group's next sequence number and
becomes the group's latest (R396, R411). -/
def mcstSend (m : Mach) (id : Nat) : Mach :=
  match reqOf m id with
  | none => m
  | some r =>
    match r.op with
    | .mcst sa g off _ [] mask _ =>
      if !mayPerform m r then m
      else (match scratchLocs m r.who r.past sa 256 with
        | .error (c, d) => failReq m r c d []
        | .ok ls =>
          match locsFault m r.who ls with
          | some (c, d) => failReq m r c d ls
          | none =>
            let n := ((tget (0, 0) g m.fab.groups).2 + 1) % 65536
            let m1 := { m with
              fab.groups := tset g ((tget (0, 0) g m.fab.groups).1, n) m.fab.groups
              fab.latest := tset g (n, mask, []) m.fab.latest }
            modReq m1 id (fun x => { x with op := .mcst sa g off n (ls.map (locByte m)) mask [] }))
    | _ => m

/-- MCST (R396). -/
def mcstG (f : ScF) (d a b : Opd) : Mach → Mach :=
  memStart [a, b] [d] [] (poisonNow d .tile) (fun vs m =>
    let sa := natAt vs 0 % 2 ^ 32
    let y := natAt vs 1
    let g := bits y 0 8
    let mask := (tget (0, 0) g m.fab.groups).1
    let busy := m.mem.reqs.any (fun r => match r.op with
      | .mcst _ x _ _ _ _ _ => x == g && issuerOf r.who == issuerOf m.cur && !r.done
      | _ => false)
    match lineLocs m sa 256 with
    | .error _ => resultNow m (dstOf m d false) .tile (tokNat (failW 1))
    | .ok _ =>
      if 2 ^ 32 ≤ y ∨ mask = 0 ∨ busy then resultNow m (dstOf m d false) .tile (tokNat (failW 1))
      else mcstSend (addReq m (mkReq m (dstOf m d false) (.mcst sa g (bits y 8 24) 0 [] mask []) f.scope.code false true)) m.ids)
def execMcst (f : ScF) (d a b : Opd) (s : State) : Out := lift (mcstG f d a b) s

/-- The members of a mask. -/
def membersOf (mask : Nat) : List Nat := (upto 512).filter (bitAt mask)

/-- The completion record (R397). -/
def mcstRecord (g : Nat) (x : Nat × Nat × List (Nat × Nat)) (pend : Bool) : Nat :=
  let ok := x.2.2.filter (fun a => a.2 == 0)
  let nak := (membersOf x.2.1).filterMap (fun p => (x.2.2.find? (fun a => a.1 == p && a.2 != 0)))
  let first := (nak.head?).getD (0, 0)
  ok.length * 2 ^ 53 + nak.length * 2 ^ 43 + first.1 * 2 ^ 34 + first.2 * 2 ^ 30 + (if pend then 2 ^ 29 else 0)
    + x.1 % 65536 * 2 ^ 8 + g

/-- The vector of MCSTQ (R398). -/
def mcstVector (x : Nat × Nat × List (Nat × Nat)) : List Byte :=
  let nib := fun p => if !bitAt x.2.1 p then 0
    else match x.2.2.find? (fun a => a.1 == p) with
      | some (_, 0) => 1
      | some (_, n) => 8 + n
      | none => 2
  (upto 256).map (fun i => BitVec.ofNat 8 (nib (2 * i) + 16 * nib (2 * i + 1)))

/-- MCSTQ at its place in its chain (R398, R411): the vector is written, then the record delivered. -/
def mcstqDo (m : Mach) (r : Req) (sa g : Nat) : Mach :=
  match scratchLocs m r.who r.past sa 256 with
  | .error (c, d) => failReq m r c d []
  | .ok ls =>
    let x := tget (0, 0, []) g m.fab.latest
    let pend := (membersOf x.2.1).any (fun p => !x.2.2.any (fun a => a.1 == p))
    finish (writeLocs m ls (mcstVector x)) r.id (mcstRecord g x pend)

/-- MCSTQ (R398): a vector address outside the pasture's scratchpad is a BOUNDS fault (R190). While an earlier access of its unit
to those bytes is still to be performed, LOAD_RESULT delivers it (R205, R411). -/
def mcstqG (d a b : Opd) : Mach → Mach :=
  memStart [a, b] [d] [] (poisonNow d .tile) (fun vs m =>
    let sa := natAt vs 0 % 2 ^ 32
    let g := bits (natAt vs 1) 0 8
    match lineLocs m sa 16 with
    | .error (c, x) =>
      (match m.cur with
       | .unit .. => { failS m (mkReq m .drop .tile 2 false false) c x [] with ctl := .trapped }
       | who => resultNow m (dstOf m d false) .tile (tokOf (poison m who c x)))
    | .ok _ =>
      let r := mkReq m (dstOf m d false) (.mcstq sa g) 2 false false
      let m1 := addReq m r
      if mayPerform m1 r then mcstqDo m1 r sa g else m1)
def execMcstq (d a b : Opd) (s : State) : Out := lift (mcstqG d a b) s

/-- LOAD_RESULT: also the MCSTQ that has waited for its place in its chain, and the read of a KEYI. -/
def loadResultAny (id : Nat) (ans : Answer) (m : Mach) : Mach :=
  match reqOf m id with
  | none => m
  | some r =>
    match r.op with
    | .mcstq sa g => if mayPerform m r then mcstqDo m r sa g else m
    | .keyi lane va => if mayPerform m r then keyiDo m r lane va ans else m
    | _ => loadResult id ans m
def execLoadResult (id : Nat) (ans : Answer) (s : State) : Out := lift (loadResultAny id ans) s

/-- The places of a line at this package, as a member, through its inbound mapping. -/
def memberLocs (i : Inbound) (off : Nat) : List Loc := (upto 256).map (fun j => .hbm (i.base + 256 * off + j))
def memberMap (m : Mach) (src g : Nat) : Option Inbound :=
  (m.fab.inbound.find? (fun e => e.2.valid && e.2.src == src && e.2.group == g)).map (·.2)
/-- A member's failure to write a line: a poisoned line of an engine (R225), or a degraded pseudo-channel (R279). -/
def memberFault (m : Mach) (ls : List Loc) : Option (Nat × Nat) :=
  (lineFault m ls).orElse (fun _ => ls.findSome? (fun l =>
    if m.mem.degraded.contains (Config.rowChannel (rowOf (locPa l))) then some (0x01, locPa l / 64 * 64) else none))
/-- The line of a multicast at this package, as a member (R396): NAK reason or the written memory. A NAK member receives no byte. -/
def memberWrite (m : Mach) (src g off : Nat) (line : List Byte) : Nat × Mach :=
  match memberMap m src g with
  | none => (1, m)
  | some i =>
    if i.len < off + 1 then (2, m)
    else if (memberFault m (memberLocs i off)).isSome then (5, m)
    else (0, writeLocs m (memberLocs i off) line)
/-- A reservation, a reserved bank or a page move holds the member's write back (R231, R275, R406). -/
def memberHeld (m : Mach) (src g off : Nat) : Bool :=
  match memberMap m src g with
  | none => false
  | some i =>
    let ls := memberLocs i off
    heldByResv m (18 * 16384) ls || rowsHeld m ls || locsMoving m ls

/-- An answer is noted in its request and, while it is the group's latest, there (R398). -/
def noteAnswer (m : Mach) (id g n member nak : Nat) : Mach :=
  let m1 := modReq m id (fun r => match r.op with
    | .mcst sa g off n l mask as => { r with op := .mcst sa g off n l mask (as ++ [(member, nak)]) }
    | _ => r)
  match tfind g m1.fab.latest with
  | some x => if x.1 = n then { m1 with fab.latest := tset g (x.1, x.2.1, x.2.2 ++ [(member, nak)]) m1.fab.latest } else m1
  | none => m1

/-- MCST_MEMBER_WRITE (R396). This package's own member write follows its inbound mappings; a member that is failed for the
pasture is PEER_FAIL. -/
def mcstMemberWriteG (x : McstWrite) (m0 : Mach) : Mach :=
  match x with
  | .incoming src g off line =>
    if line.length ≠ 256 ∨ src = m0.host.peer ∨ memberHeld m0 src g off then m0 else (memberWrite m0 src g off line).2
  | .answer id member nak =>
    let m := mcstSend m0 id
    match reqOf m id with
    | none => m
    | some r =>
      match r.op with
      | .mcst _ g off n line mask as =>
        if r.done || line.isEmpty || !bitAt mask member || 512 ≤ member || as.any (fun a => a.1 == member) || 7 < nak then m
        else if peerFailed m r.past member then noteAnswer m id g n member 3
        else if member = m.host.peer ∧ nak < 3 then
          if memberHeld m member g off then m
          else let y := memberWrite m member g off line
               noteAnswer y.2 id g n member y.1
        else if nak ≠ 3 ∧ nak ≠ 6 ∧ lineHeld m member 0 then m
        else noteAnswer (countFlit m member 0) id g n member nak
      | _ => m
def execMcstMemberWrite (w : McstWrite) (s : State) : Out := lift (mcstMemberWriteG w) s

/-- The poison cause of a NAK's record; OUT_OF_RANGE and NO_ROUTE have none of their own (R79, R397): a free value (log 34). -/
def nakCause (m : Mach) (nak : Nat) : Nat :=
  match nak with
  | 1 => 0x0D | 3 => 0x09 | 4 => 0x07 | 5 => 0x01 | 6 => 0x0A
  | _ => Config.freeSlot m.free % 256

/-- DETAIL of a NAK's record (R79): the peer, or the physical address where the write failed, which is known for this package alone
and else a free value (log 34). -/
def nakDetail (m : Mach) (member nak g off : Nat) : Nat :=
  let pa := Config.freeSlot (m.free + 1) % 2 ^ 52
  match nak with
  | 4 => pa
  | 5 =>
    (match (if member = m.host.peer then memberMap m member g else none) with
     | some i => (match memberFault m (memberLocs i off) with | some x => x.2 | none => i.base + 256 * off)
     | none => pa / 64 * 64)
  | _ => member

/-- MCST_COMPLETION (R396): a record for each NAK, then the completion record. -/
def mcstCompletionG (id : Nat) (m : Mach) : Mach :=
  match reqOf m id with
  | none => m
  | some r =>
    match r.op with
    | .mcst _ g off n line mask as =>
      if r.done || line.isEmpty || (membersOf mask).any (fun p => !as.any (fun a => a.1 == p)) then m
      else
        let naks := (membersOf mask).filterMap (fun p => as.find? (fun a => a.1 == p && a.2 != 0))
        let m1 := naks.foldl (fun m a =>
          let c := nakCause m a.2
          faultRec { m with free := m.free + 2 } r.past r.who
            ⟨BitVec.ofNat 128 (originReq r c (nakDetail m a.1 a.2 g off)), false, 0, 6, c, n * 256 + g, 0⟩) m
        finish m1 id (mcstRecord g (n, mask, as) false)
    | _ => m
def execMcstCompletion (id : Nat) (s : State) : Out := lift (mcstCompletionG id) s

/-! ## Portal (R402-R405) -/

/-- RAMO (R404). The CAS operands are those of R230; `.cas.w16` expects B and writes the register that D names. -/
def ramoG (f : RamoF) (d a b : Opd) (m : Mach) : Mach :=
  let n := RamoOp.bytes f.op
  let pair := f.op == .cas8
  let x := if pair then wideVal m b else (srcVal m .whole b).pay.toNat
  let os := if f.op == .cas16 then [a, b, d] else [a, b]
  memStart os [d] (pairReg m pair b) (poisonNow d (.ramo f.op 0 0 0)) (fun vs m =>
    let ea := natAt vs 0 % 2 ^ 64
    let cas := f.op == .cas4 || pair
    let new := if f.op == .cas16 then natAt vs 2 else if cas then bits x (8 * n) (8 * n) else 0
    syncIssue m (dstOf m d false) (.ramo f.op ea (bits x 0 (8 * n)) new) ea n f.scope.code true true) m
def execRamo (f : RamoF) (d a b : Opd) (s : State) : Out := lift (ramoG f d a b) s

/-- The answer to a RAMO: an operator that its target lacks is not sent (R404). -/
def performRamo (m : Mach) (r : Req) (op : RamoOp) (ea : Nat) (ans : Answer) : Mach :=
  let n := RamoOp.bytes op
  match targetOf m r (.virt ea) n .ramo with
  | .beyond => m
  | .bad c d => failReq m r c d []
  | .at ls =>
    let t := match ls.head? with | some (.host t _) => t | _ => 0
    if !bitAt (Config.portalOps t) op.code then failReq m r 0x08 (bits ea 0 56) ls
    else match ans with
      | .data v => finish m r.id (bits v.toNat 0 (8 * n))
      | .fail c d => if failOk r ls c.toNat d.toNat then failReq m r c.toNat d.toNat ls else m
      | .perform => m

/-- PORTAL_REPLY (R402, R404). -/
def portalReplyG (id : Nat) (ans : Answer) (m : Mach) : Mach :=
  match reqOf m id with
  | none => m
  | some r =>
    let host := (reqLocs m r).any (fun l => match l with | .host .. => true | _ => false)
    if !mayPerform m r then m
    else match r.op with
      | .ramo op ea _ _ => performRamo m r op ea ans
      | .load pl n nt => if host then performLoad m r pl n nt ans else m
      | .store pl n d => if host then performStore m r pl n d ans else m
      | _ => m
def execPortalReply (id : Nat) (ans : Answer) (s : State) : Out := lift (portalReplyG id ans) s

/-! ## Migrate pages (R406) -/

def pageKey (e : Nat) : Nat := bits e 52 9 * 2 ^ 40 + bits e 12 40 / 16
/-- A 64 KB migrate page (R406). -/
def migratable (e : Nat) : Bool := bits e 5 2 == 3 && bits e 7 2 == 0 && !bitAt e 9

/-- PGMIG (R406). -/
def pgmigG (d a b : Opd) : Mach → Mach :=
  memStart [a, b] [d] [] (poisonNow d .tile) (fun vs m =>
    let p := pastOfActor m m.cur
    let va := natAt vs 0 % 2 ^ 64
    let peer := bits (natAt vs 1) 0 9
    let now := fun v => resultNow m (dstOf m d false) .tile (tokNat v)
    match leafOf m m.cur p va with
    | .error _ => now (failW 1)
    | .ok e =>
      if !migratable e then now (failW 1)
      else if peerFailed m p peer || peerFailed m p (bits e 52 9) then now (failW 6)
      else if bits e 52 9 = peer then now 0
      else addReq m (mkReq m (dstOf m d false) (.pgmig va (pageKey e) peer) 5 false false))
def execPgmig (d a b : Opd) (s : State) : Out := lift (pgmigG d a b) s

/-- The physical address of the leaf entry of an address. -/
def pteAddr (m : Mach) (va : Nat) : List (Nat × Nat × Nat) → Nat → Option Nat
  | [], _ => none
  | (level, lo, w) :: rest, tbl =>
    let pa := tbl + 8 * bits va lo w
    if 2 ^ 39 ≤ pa then none
    else
      let e := memRead m.mem.hbm pa 8
      if pteTable e && level != 0 then pteAddr m va rest (bits e 12 40 * 4096)
      else if pteLeaf e level then some pa else none

/-- Steps 3 to 5 of R406: the bytes that come from another package are free (log 27); the old and the new holder write
PEER; translations of the page are obtained again. -/
def movePage (m : Mach) (p va peer : Nat) : Mach :=
  match pteAddr m va walkLevels (pastOf m p).xroot with
  | none => m
  | some pa =>
    let e := memRead m.mem.hbm pa 8
    if !migratable e then m
    else
      let own := m.host.peer
      let old := bits e 52 9
      let m1 := if peer = own ∧ old ≠ own then fillFree m (bits e 12 40 * 4096) 65536 else m
      let m2 := if peer = own ∨ old = own then
          writeLocs m1 ((upto 8).map (fun i => .hbm (pa + i))) (bytesOf (setBits e 52 9 peer) 8) else m1
      let inPage := fun b => b / 65536 == va / 65536
      { m2 with
        mem.moves := tdel (pageKey e) m2.mem.moves
        mem.tlb := m2.mem.tlb.map (fun t => (t.1, t.2.filter (fun x => !(x.asid == (pastOf m p).asid && inPage x.base))))
        mem.reqs := m2.mem.reqs.map (fun r => match r.xlat with
          | some (b, _) => if r.past == p && inPage b then { r with xlat := .none } else r
          | none => r) }

/-- PAGE_MIGRATION (R406). If the old holder fails, the accesses that stall on the page fail, those of engines unit by unit in the
events that complete them. -/
def pageMigrationG (mv : PageMove) (m : Mach) : Mach :=
  match mv with
  | .theirs p va peer => if (pastOf m p).st == .free then m else movePage m p va peer
  | .ours id ok =>
    match reqOf m id with
    | none => m
    | some r =>
      match r.op with
      | .pgmig va key peer =>
        let earlier := m.mem.reqs.any (fun q => q.id < id && !q.done && (match q.op with | .pgmig _ k _ => k == key | _ => false))
        if r.done || earlier then m
        else if ok then finish (movePage m r.past va peer) id 0
        else
          let old := key / 2 ^ 40
          let m1 := finish m id (failW 6)
          let stalled := m.mem.reqs.filter (fun q => !q.done && timesOut q && (awaited m q).any (fun l => match l with
            | .peer x pa _ => x * 2 ^ 40 + pa / 65536 == key
            | _ => false))
          if old = m.host.peer then m1
          else stalled.foldl (fun m q => match reqOf m q.id with | some x => failSync m x 0x09 old (awaited m x) | none => m) m1
      | _ => m
def execPageMigration (mv : PageMove) (s : State) : Out := lift (pageMigrationG mv) s

/-! ## Slot entries (R407) -/

/-- A written entry of pasture `p` waits for slot index 0. -/
def newSlot (m : Mach) (p : Nat) (e : Nat × Option Nat) : Mach :=
  { m with
    fab.newSlots := (m.fab.newSlots.filter (fun x => x.1 != e.1)) ++ [e]
    fab.slotOwn := tset (2 * e.1 + 1) (slotOwners m p (2 * e.1 + 1) ((m.fab.newSlots.find? (fun x => x.1 == e.1)).bind (·.2)) e.2)
      m.fab.slotOwn }
/-- SLOT: the checks of INSTALL; the entry waits for slot index 0. -/
def slotG (d a : Opd) : Mach → Mach :=
  sFire [a] [d] (fun u w vs m =>
    match slotEntry m (pastOfActor m (.unit u w)) [] ((vs[0]?).getD 0) with
    | none => putS m u d (failW 4)
    | some e => putS (newSlot m (pastOfActor m (.unit u w)) e) u d 0)
def execSlot (d a : Opd) (s : State) : Out := lift (slotG d a) s

/-- SLOT_ENTRY_EFFECT (R407): the written entries of a router take effect. -/
def slotEntryEffectG (router : Nat) (m : Mach) : Mach :=
  let mine := m.fab.newSlots.filter (fun e => e.1 / 2048 == router)
  writeSlots m (fun m k v =>
    let new := tget [] (2 * k + 1) m.fab.slotOwn
    if tfind k m.fab.slots == v then ((tget [] (2 * k) m.fab.slotOwn).filter (fun p => !new.contains p)) ++ new else new) mine
def execSlotEntryEffect (router : Nat) (s : State) : Out := lift (slotEntryEffectG router) s

end Sys2Proof.Machine
end

