-- ==== Sys2Proof/Machine/Host.lean ====
section
/-! DEFINITION. The host link, start-up and power: the management window, launch writes, event slots, starts, BAR2 and the
power registers (R439-R450). -/
namespace Sys2Proof.Machine

/-! ## Launch (R28, R34, R138, R282, R415, R442) -/

/-- Sets a W1C bit of PSTATUS and sends entry 1,024 + p (R442). -/
def launchBad (m : Mach) (p : Nat) : Mach := msix (setPast m p { pastOf m p with badF := true }) (1024 + p)
def launchBusy (m : Mach) (p : Nat) : Mach := msix (setPast m p { pastOf m p with busyF := true }) (1024 + p)

/-- Cores of a pasture that no other live pasture holds. -/
def takes (m : Mach) (p core : Nat) : Bool :=
  coreIn m p core && (match livePast m core with | some q => q == p | none => true)

/-- A launch finds none of another pasture's blocks on its cores (R27), the starvation counters at 0 (R34) and the arrays as
R282 resets them. -/
def launchCores (m : Mach) (p : Nat) : Mach :=
  let f := takes m p
  let m1 := clearCores m (fun c => f c && tfind c m.sys.coreOwner != some p)
  let own := fun c => tfind c m1.mat.owner == some p
  { m1 with
    sys.coreOwner := ((upto 768).filter f).foldl (fun t c => tset c p t) m1.sys.coreOwner
    pe.starv := tfilter (fun k => !f (k / 16)) m1.pe.starv
    pe.chans := m1.pe.chans.map (fun e =>
      if f (e.1 / 128) then (e.1, { e.2 with node := 0, pendNode := none, gather := [], emit := [] }) else e)
    mat := {
      mode := m1.mat.mode.filter (fun c => !f c)
      q := tfilter (fun c => !f c && c / 1024 != p + 1) m1.mat.q
      h := tfilter (fun c => !(f c && own c)) m1.mat.h
      owner := tfilter (fun c => !(f c && own c)) m1.mat.owner
      saved := tfilter (fun k => k / 1024 != p) m1.mat.saved } }

/-- A write to LAUNCH of pasture `p`. While a start runs or the module is held no pasture is READY (R447): LAUNCH_BUSY (log 66). -/
def launchWriteG (p v : Nat) (m : Mach) : Mach :=
  let P := pastOf m p
  if 16 ≤ p then m
  else if bits v 56 8 ≠ 0 ∨ bits v 0 6 ≠ 0 then launchBad m p
  else if P.st != .ready then launchBusy m p
  else match (coresOf m p).head? with
    | none => launchBad m p
    | some c =>
      if P.log.isNone then launchBad m p
      else
        let k := clusterOf c
        match freeGraphCtx m k with
        | none => launchBusy m p
        | some g =>
          let m1 := launchCores m p
          let m2 := setPast m1 p { pastOf m1 p with st := .live, home := k, root := m1.ids, pcause := 0 }
          startGraph m2 (8 * k + g) p (bits v 0 56) 0 0 .none true
def execLaunchWrite (past : Nat) (v : BitVec 64) (s : State) : Out := lift (launchWriteG past v.toNat) s

/-! ## Events from and to the host (R413, R441, R443) -/

/-- HOSTEV: the written value is the TVAL of cause 0x10. -/
def hostevG (p v : Nat) (m : Mach) : Mach := if 16 ≤ p then m else raiseHome m p 0x10 v
def execHostev (past : Nat) (v : BitVec 64) (s : State) : Out := lift (hostevG past v.toNat) s

/-- PREQ: TVAL [8:0] of cause 0x0F; bits [63:9] must be 0. -/
def preqG (p v : Nat) (m : Mach) : Mach := if 16 ≤ p ∨ bits v 9 55 ≠ 0 then m else raiseHome m p 0x0F v
def execPreq (past : Nat) (v : BitVec 64) (s : State) : Out := lift (preqG past v.toNat) s

/-- EVENT_ACK (R443): PEND and COUNT clear when COUNT is still the written value; otherwise the message is sent again. -/
def eventAckG (p vec v : Nat) (m : Mach) : Mach :=
  let k := p * 64 + vec
  let x := tget EvSlot.reset k m.host.slots
  if 16 ≤ p ∨ 64 ≤ vec ∨ !bitAt v 63 then m
  else if x.count = bits v 0 32 then
    { m with host.slots := tput EvSlot.reset k { x with pend := false, count := 0 } m.host.slots }
  else msix m k
def execEventAck (past vec : Nat) (v : BitVec 64) (s : State) : Out := lift (eventAckG past vec v.toNat) s

/-- A write to PSTATUS clears the W1C bits that it has 1 in (R4, R442). -/
def pstatusWrite (p v : Nat) (m : Mach) : Mach :=
  let P := pastOf m p
  setPast m p { P with
    doneF := P.doneF && !bitAt v 3
    busyF := P.busyF && !bitAt v 4
    badF := P.badF && !bitAt v 5
    haltedF := P.haltedF && !bitAt v 6 }

/-- PSTATUS (R442). -/
def pstatusWord (P : Pasture) : Nat :=
  P.pcause % 256 * 256 + (if P.haltedF then 64 else 0) + (if P.badF then 32 else 0) + (if P.busyF then 16 else 0)
    + (if P.doneF then 8 else 0) + pstateCode P.st

/-! ## Starts (R444-R448) -/

/-- The beginning of a start (R447): every pasture ends, engine state and requests go, every lane is dark; HBM, the
scratchpads, the firmware region and the host's registers stay. CYCLE counts from here (R140). -/
def startBegin (warm : Bool) (v : Nat) (m : Mach) : Mach where
  pe := PeS.reset
  seq := ⟨[], [], [], [], [], [], [], [], [], 0, [], []⟩
  mem := { m.mem with
    reqs := [], park := [], tlb := [], windows := [], apps := [], moves := [], rows := [], forced := [], wq := [], drain := []
    degraded := [], rowAct := [], torn := [], alerts := [] }
  sync := ⟨[], [], [], [], [], []⟩
  copy := ⟨[], [], [], [], [], [], []⟩
  mat := ⟨[], [], [], [], []⟩
  sel := ⟨[]⟩
  rule := ⟨[], [], [], []⟩
  stage := ⟨[]⟩
  fab := ⟨m.fab.slots, m.fab.newSlots, m.fab.slotOwn, [], [], [], [], [], [], [], [], [], [], [], []⟩
  sys := { m.sys with
    coreOwner := []
    past := (upto 16).foldl (fun t p =>
      tput Pasture.reset p { tget Pasture.reset p t with
        st := .free, quota := 0, root := 0, log := none, heldRecs := [], gate := none, image := none, ending := none, flight := [], ctxsave := (0, 0, 0) } t) m.sys.past }
  host := { m.host with
    busy := true, phase := 1, ports := 0, warmed := warm, startWarm := warm, startScrub := warm && bitAt v 2, startHostfw := bitAt v 3 }
  cur := .idle
  ctl := .seq
  hold := none
  ids := m.ids
  free := m.free

/-- A write to STARTCTL (R444): COLD takes precedence, a write without COLD and WARM does nothing. -/
def startWrite (v : Nat) (s : State) : State :=
  if bitAt v 0 || bitAt v 1 then { s with m := startBegin (!bitAt v 0) v s.m, sched.firing := [], pow.paid := [] } else s
def execColdStart (v : BitVec 64) (s : State) : Out := .next (if bitAt v.toNat 0 then startWrite v.toNat s else s)
def execWarmStart (v : BitVec 64) (s : State) : Out := .next (if bitAt v.toNat 0 then s else startWrite v.toNat s)

/-- The bytes of the firmware image that step 2 reads (R446). -/
def imageByte (m : Mach) (rep : StartReport) (i : Nat) : Byte :=
  if m.host.startHostfw then (if i < 524288 then memGet m.host.fwstage i else 0) else (rep.flash[i]?).getD 0
def imageBytes (m : Mach) (rep : StartReport) (off n : Nat) : List Byte := (upto n).map (fun i => imageByte m rep (off + i))
def imageNat (m : Mach) (rep : StartReport) (off n : Nat) : Nat := natOf (imageBytes m rep off n)
def imageSize (m : Mach) (rep : StartReport) : Nat := imageNat m rep 8 4

/-- The header's rules (R446). -/
def fwHeaderOk (m : Mach) (rep : StartReport) : Bool :=
  let size := imageSize m rep
  imageNat m rep 0 4 == 0x46574B48 && size % 64 == 0
    && (if m.host.startHostfw then decide (size ≤ 524032) else decide (size ≤ 2 ^ 25 ∧ 256 + size ≤ rep.flash.length))
    && imageNat m rep 0x10 4 % 65536 == 0 && imageNat m rep 0x14 44 == 0 && imageNat m rep 0x80 128 == 0

/-- The SHA-512 digest over header bytes 0x00 to 0x3F and the code and data. -/
def imageDigest (m : Mach) (rep : StartReport) : BitVec 512 :=
  Config.sha512 (imageBytes m rep 0 64 ++ imageBytes m rep 256 (imageSize m rep))
def imageSigned (m : Mach) (rep : StartReport) : Bool :=
  fwHeaderOk m rep && Config.vendorOk (imageDigest m rep) (BitVec.ofNat 512 (imageNat m rep 0x40 64))

/-- Step 2 is skipped by a warm start whose image has the digest latched at the last cold start (R445). -/
def skipsStep2 (m : Mach) (rep : StartReport) : Bool :=
  m.host.startWarm && fwHeaderOk m rep && imageDigest m rep == m.host.coldDigest

/-- Loading the firmware region (R446): code and data at the base, then zeros up to the end of the data area. -/
def loadFirmware (m : Mach) (rep : StartReport) : Mach :=
  let size := imageSize m rep
  let base := rep.base / 65536 * 65536
  let m1 := { m with
    host.fwBase := base
    host.fwSize := size
    host.fwData := imageNat m rep 0x10 4
    host.fwEntry := imageNat m rep 0x0C 2
    host.fwTvec := imageNat m rep 0x0E 2
    host.digest := imageDigest m rep
    host.coldDigest := if m.host.startWarm then m.host.coldDigest else imageDigest m rep }
  { m1 with
    mem.hbm := memBytes (m1.mem.hbm.filter (fun e => !inFirmware m1 e.1)) base (imageBytes m rep 256 size)
    mem.badHbm := m1.mem.badHbm.filter (fun u => !inFirmware m1 (64 * u)) }

/-- Step 5 (R445): every unit outside the firmware region holds zeros and fresh ECC. -/
def scrub (m : Mach) : Mach :=
  { m with
    mem.hbm := m.mem.hbm.filter (fun e => inFirmware m e.1)
    mem.dirty := []
    mem.badHbm := m.mem.badHbm.filter (fun u => inFirmware m (64 * u)) }

/-- Lines that only the memory-side caches held do not survive a warm start (R273, R447): their bytes are free. -/
def loseLine (m : Mach) (line : Nat) : Mach :=
  if inFirmware m (64 * line) then m
  else { m with
    mem.hbm := memBytes m.mem.hbm (64 * line) ((upto 64).map (fun i => Config.freeByte (m.free + i)))
    free := m.free + 64 }

/-- The lanes that a completed start lights (R385, R386), in one direction: `planes d` are those of the pair with peer d. -/
def defaultLanes (own : Nat) (planes : Nat → List Nat) : Tbl Lane :=
  ((upto 64).flatMap (fun j =>
      let d := own / 64 * 64 + j
      if d = own then [] else ((upto 8).filter (fun k => (planes d).contains k)).map (fun k => (d * 8 + k, Lane.fresh none))))
    ++ (upto 64).map (fun i => (4096 + i, Lane.fresh none))

/-- The shepherd cores at the end of step 6 (R446). -/
def bootUnits (h : HostS) : Tbl SUnit :=
  (upto 16).map (fun k => (128 + k, { SUnit.reset with base := 0x7F0000000000, w := h.fwEntry, run := .running }))
def bootSheps (h : HostS) : Tbl Shep :=
  (upto 16).map (fun k => (k, { Shep.reset with tvec := BitVec.ofNat 64 h.fwTvec }))

/-- Step 4 (R386, R445): the default lease and the gate lanes are lit, and the UALink ports train. -/
def lightLanes (m : Mach) (ports : Nat) : Mach :=
  let own := m.host.peer
  { m with
    fab.tx := defaultLanes own (fun d => lanePlanes own d)
    fab.rx := defaultLanes own (fun d => lanePlanes d own)
    host.ports := min 15 ports }
/-- Step 6 and the end of a start that succeeds (R445, R446, R448). -/
def finishStart (m : Mach) : Mach :=
  let m1 := m.mem.dirty.foldl loseLine m
  let m2 := { m1 with
    mem.cached := []
    mem.dirty := []
    fab.slots := []
    fab.newSlots := []
    fab.slotOwn := []
    seq.units := bootUnits m1.host
    seq.sheps := bootSheps m1.host
    host := { m1.host with busy := false, phase := 7, result := 0, count := (m1.host.count + 1) % 65536 } }
  msix m2 1040

/-- A start fails: the module is held, with every lane dark (R448). -/
def failStart (m : Mach) (result : Nat) : Mach :=
  { m with
    fab.tx := []
    fab.rx := []
    host := { m.host with busy := false, phase := 0, result := result, ports := 0 } }

/-- The step of a start that PHASE names is done, and the next one runs (R445). -/
def startStep (rep : StartReport) (m : Mach) : Mach :=
  let next := fun (m : Mach) => { m with host.phase := m.host.phase + 1 }
  if !m.host.busy then m
  else match m.host.phase with
    | 1 => if rep.result = 1 then failStart m 1 else next m
    | 2 =>
      if skipsStep2 m rep then next m
      else if rep.result = 2 || !imageSigned m rep then failStart m 2
      else next (loadFirmware m rep)
    | 3 => if rep.result = 3 then failStart m 3 else next m
    | 4 => if rep.result = 4 then failStart m 4 else next (lightLanes m rep.ports)
    | 5 => if rep.result = 5 then failStart m 5 else next (if !m.host.startWarm || m.host.startScrub then scrub m else m)
    | _ => finishStart m
def startSteps (rep : StartReport) : Nat → Mach → Mach
  | 0, m => m
  | n + 1, m => startSteps rep n (startStep rep m)

/-- START_COMPLETION (R448): steps of the start in progress end, as many as the report says; after the sixth it completes, or it fails
and leaves the module held. A failure of step 1 or 2 leaves the firmware region as it was. -/
def startCompletionG (rep : StartReport) (m : Mach) : Mach :=
  if 6 ≤ rep.result ∨ 2 ^ 39 < rep.base + 2 ^ 26 + 2 ^ 32 then m else startSteps rep (min 6 rep.steps) m
def execStartCompletion (rep : StartReport) (s : State) : Out := lift (startCompletionG rep) s

/-- FWSTAGE_WRITE (R446): accepted only while no start runs. -/
def fwstageWriteG (off v : Nat) (m : Mach) : Mach :=
  if m.host.busy ∨ 524288 ≤ off ∨ off % 8 ≠ 0 then m
  else { m with host.fwstage := memWrite m.host.fwstage off 8 v }
def execFwstageWrite (off : Nat) (v : BitVec 64) (s : State) : Out := lift (fwstageWriteG off v.toNat) s

/-! ## The port (R439, R440) -/

/-- The answer to a read of BAR2: the bytes, or free ones where a unit is uncorrectable, since no rule says what the host then receives
(log 27). -/
def bar2Read (m : Mach) (acc : OutAccess) : Mach :=
  let ls := (upto acc.len).map (fun i => Loc.hbm (acc.addr + i))
  if 16 < acc.len ∨ 2 ^ 39 < acc.addr + acc.len ∨ outsideWaits m acc then m
  else if ls.any (fun l => (locFault m .idle l).isSome) then
    { m with free := m.free + 1, host.bar2 := .data acc.len (natOf ((upto acc.len).map (fun i => Config.outsideByte m.free i))) }
  else { m with host.bar2 := .data acc.len (memRead m.mem.hbm acc.addr acc.len) }
/-- HOST_MEMORY_ACCESS (R440): a read or write through BAR2. Until the module is READY a read completes with Unsupported Request and a
write is dropped. -/
def hostMemoryAccessG (acc : OutAccess) (m : Mach) : Mach :=
  match acc.op, decide (m.host.phase = 7) with
  | .read, false => { m with host.bar2 := .unsupported }
  | .read, true => bar2Read m acc
  | _, false => m
  | _, true => outsideAccess m acc
def execHostMemoryAccess (acc : OutAccess) (s : State) : Out := lift (hostMemoryAccessG acc) s

/-- HOST_ATOMICOP: Unsupported Request; nothing changes. -/
def execHostAtomicop (_off : Nat) (s : State) : Out := lift (fun m => m) s

/-- POWER_ON: everything at its reset value, the straps and the trained rate of the port. -/
def powerOnS (peer rev rate : Nat) (s : State) : State :=
  let r := State.reset
  { r with
    m.host.peer := peer % 512
    m.host.revision := rev % 256
    m.host.pcieRate := max 4 (min 6 rate)
    sched.agenda := s.sched.agenda }
def execPowerOn (peer rev rate : Nat) (s : State) : Out := .next (powerOnS peer rev rate s)

/-! ## Power (R450) -/

/-- A written CAP is clamped to 500 to 2,500. -/
def capOf (v : Nat) : Nat := max 500 (min 2500 (bits v 0 12))
def powerctlS (v : Nat) (s : State) : State := { s with pow.cap := capOf v }
def execPowerctl (v : BitVec 64) (s : State) : Out := .next (powerctlS v.toNat s)

/-- The cap in force. -/
def effCap (x : PowerS) : Nat := min x.cap x.thermal

/-- THERMAL_LIMIT: the coolant's limit and the power averaged over the last 10 microseconds, which begins a new period. Bruosh holds
the power at or below 2,500 W (R12). -/
def execThermalLimit (watts power : Nat) (s : State) : Out :=
  .next { s with pow.thermal := watts, pow.power := min 2500 power, pow.capped := false }

/-- The power state: 0 HELD, 1 IDLE, 2 RUN, 3 CAPPED. -/
def powerState (s : State) : Nat :=
  if s.m.host.phase ≠ 7 then 0
  else if !(upto 16).any (fun p => (pastOf s.m p).st == .live) then 1
  else if s.pow.capped then 3 else 2
/-- A change of the power state sends entry 1,040. -/
def notePower (s : State) : State :=
  let x := powerState s
  if x = s.m.host.powst then s else { s with m := msix { s.m with host.powst := x } 1040 }

/-! ## The management window (R4, R441) -/

/-- A write to a register of the window. Read-only registers and offsets without a register ignore it. -/
def registerWriteS (off v : Nat) (s : State) : State :=
  let g := fun (f : Mach → Mach) => { s with m := f s.m }
  if off % 8 ≠ 0 ∨ 2 ^ 20 ≤ off then s
  else if 0x80000 ≤ off then g (fwstageWriteG (off - 0x80000) v)
  else if off = 0x08 then startWrite v s
  else if off = 0x18 then powerctlS v s
  else if 0x10000 ≤ off ∧ off < 0x20000 then
    let p := (off - 0x10000) / 0x1000
    let o := off % 0x1000
    if o = 0 then g (launchWriteG p v)
    else if o = 8 then g (pstatusWrite p v)
    else if o = 0x10 then g (hostevG p v)
    else if o = 0x18 then g (preqG p v)
    else if 0x400 ≤ o ∧ o < 0x800 ∧ o % 16 = 8 then g (eventAckG p ((o - 0x400) / 16) v)
    else s
  else s
def execRegisterWrite (off : Nat) (v : BitVec 64) (s : State) : Out := .next (registerWriteS off v.toNat s)

/-- A read of a register of the window: write-only registers and other offsets read 0. -/
def registerRead (off : Nat) (s : State) : Nat :=
  let h := s.m.host
  if off = 0 then 0x5634 + h.revision % 256 * 2 ^ 16 + h.peer % 512 * 2 ^ 24
  else if off = 0x10 then
    (if h.warmed then 2 ^ 32 else 0) + h.count * 2 ^ 16 + h.result * 2 ^ 8
      + (if h.busy then 8 else 0) + h.phase
  else if off = 0x18 then s.pow.cap
  else if off = 0x20 then
    (if s.pow.thermal < s.pow.cap then 2 ^ 27 else 0) + powerState s * 2 ^ 25 + s.pow.power * 2 ^ 12 + effCap s.pow
  else if off = 0x28 then h.ports % 16 + h.pcieRate * 16
  else if 0x10000 ≤ off ∧ off < 0x20000 then
    let p := (off - 0x10000) / 0x1000
    let o := off % 0x1000
    let x := tget EvSlot.reset (p * 64 + (o - 0x400) / 16) h.slots
    if o = 8 then pstatusWord (pastOf s.m p)
    else if o < 0x400 ∨ 0x800 ≤ o then 0
    else if o % 16 = 0 then x.value.toNat
    else if o % 16 = 8 then (if x.pend then 2 ^ 63 else 0) + x.count
    else 0
  else 0

end Sys2Proof.Machine
end

