-- ==== Sys2Proof/Machine/System.lean ====
section
/-! DEFINITION. System, trap and pre-emption instructions, class 0xE_ (R412-R438), which only the shepherd core executes, and
the events of traps, readouts and translation invalidation. -/
namespace Sys2Proof.Machine

/-! ## TRAP and TRET (R420) -/

/-- TRAP: a software cause at once, with SPC on the next word; below 0x80 it is an illegal instruction. -/
def trapG (a b : Opd) : Mach → Mach :=
  sFire [a, b] [] (fun u w vs m =>
    let c := bits ((vs[0]?).getD 0) 0 8
    if c < 0x80 then trapForm m u w 0x01 0
    else { takeTrap m (u - 128) c (pastOfActor m (.unit u w)) (BitVec.ofNat 64 ((vs[1]?).getD 0)) (w + 1) with ctl := .trapped })
def execTrap (a b : Opd) (s : State) : Out := lift (trapG a b) s

/-- The saved status and the saved word of the present level (R414). -/
def savedStatus (x : Shep) : Nat := if shDepth x = 1 then x.sst1.toNat else x.sst2.toNat
def savedWord (x : Shep) : Nat := if shDepth x = 1 then x.spc1.toNat else x.spc2.toNat
/-- A saved status that TRET accepts: no reserved bit set, and the depth below the present one. -/
def statusOk (x : Shep) : Bool :=
  let s := savedStatus x
  bits s 16 48 == 0 && bits s 3 9 == 0 && bits s 0 2 + 1 == shDepth x

/-- TRET: STATUS and the next word come back from the saved registers of the level. -/
def tretG (m : Mach) : Mach :=
  sFire [] [] (fun u w _ m =>
    let k := u - 128
    let x := shepOf m k
    if shDepth x = 0 then trapUnit m u w 0x09 w
    else if !statusOk x then trapUnit m u w 0x0A w
    else { setShep m k { x with status := BitVec.ofNat 64 (savedStatus x) } with ctl := .jump (bits (savedWord x) 0 16) }) m
def execTret (s : State) : Out := lift tretG s

/-! ## Operations on one pasture (R428, R431-R435, R438) -/

/-- The start of an operation of Bruosh: the pasture operands must be 0 to 15; the operation enters its pasture's queue and is
served when its turn comes. -/
def sysStart (os : List Opd) (pasts : List Nat) (d : Opd) (op : List Nat → SysOp) : Mach → Mach :=
  sFire os [d] (fun u _ vs m =>
    if pasts.any (fun i => 16 ≤ (vs[i]?).getD 0) then putS m u d (sysFail 1)
    else flush (addReq m (mkReq m (dstOf m d false) (.sys (op vs)) 5 false false)))

def preemptG (d a : Opd) : Mach → Mach := sysStart [a] [0] d (fun vs => .preempt ((vs[0]?).getD 0))
def execPreempt (d a : Opd) (s : State) : Out := lift (preemptG d a) s

/-- RESUME; under `.swap` operand B is the pasture that goes out. -/
def resumeG (f : BitF) (d a b : Opd) : Mach → Mach :=
  if f.bit then sysStart [a, b] [0, 1] d (fun vs => .resume ((vs[0]?).getD 0) (some ((vs[1]?).getD 0)))
  else sysStart [a] [0] d (fun vs => .resume ((vs[0]?).getD 0) none)
def execResume (f : BitF) (d a b : Opd) (s : State) : Out := lift (resumeG f d a b) s

def csaveG (d a : Opd) : Mach → Mach := sysStart [a] [0] d (fun vs => .csave ((vs[0]?).getD 0))
def execCsave (d a : Opd) (s : State) : Out := lift (csaveG d a) s

def cloadG (d a : Opd) : Mach → Mach := sysStart [a] [0] d (fun vs => .cload ((vs[0]?).getD 0))
def execCload (d a : Opd) (s : State) : Out := lift (cloadG d a) s

def haltG (d a : Opd) : Mach → Mach := sysStart [a] [0] d (fun vs => .halt ((vs[0]?).getD 0))
def execHalt (d a : Opd) (s : State) : Out := lift (haltG d a) s

def gtblG (d a b : Opd) : Mach → Mach := sysStart [a, b] [0] d (fun vs => .gtbl ((vs[0]?).getD 0) (bits ((vs[1]?).getD 0) 0 56))
def execGtbl (d a b : Opd) (s : State) : Out := lift (gtblG d a b) s

/-- `flog.ack` (R438): TAIL advances by at most the records there are; D holds HEAD and TAIL, and held records follow. -/
def flogAck (m : Mach) (u : Nat) (d : Opd) (p n : Nat) : Mach :=
  match (pastOf m p).log with
  | none => putS m u d (sysFail 2)
  | some r =>
    let t := (r.tail + min (bits n 0 24) (ringCount r)) % 2 ^ 24
    let m1 := setPast m p { pastOf m p with log := some { r with tail := t } }
    putS (drainLog m1 p) u d (r.head + t * 2 ^ 24)

/-- FLOG: `.bit` is `.ack`. -/
def flogG (f : BitF) (d a b : Opd) : Mach → Mach :=
  if f.bit then sFire [a, b] [d] (fun u _ vs m =>
    let p := (vs[0]?).getD 0
    if 16 ≤ p then putS m u d (sysFail 1) else flogAck m u d p ((vs[1]?).getD 0))
  else sysStart [a, b] [0] d (fun vs => .flogCfg ((vs[0]?).getD 0) ((vs[1]?).getD 0))
def execFlog (f : BitF) (d a b : Opd) (s : State) : Out := lift (flogG f d a b) s

/-- CHANNEL_STORE_READOUT (R423): once every token that the pasture's PEs emitted has landed and every transfer that the
armature has begun is finished, the channel stores are read out; a swap restores the other pasture in the same step. -/
def channelStoreReadoutG (p : Nat) (m : Mach) : Mach :=
  match (pastOf m p).gate with
  | none => m
  | some id =>
    let swapsIn := match (reqOf m id).map (·.op) with | some (.sys (.resume a _)) => some a | _ => none
    if halting m p || !(swapsIn.all (fun a => ctxRoom m a (some p))) || m.fab.transit.any (fun t => t.src < 200000 && boundFor m p t)
        || m.seq.installs.any (fun e => coreIn m p (e.1 / 2)) then m
    else
      let m1 := takeImage m p
      match reqOf m1 id with
      | none => m1
      | some r => match r.op with
        | .sys (.resume a _) => finish (restore m1 a) id 0
        | _ => finish m1 id 0
def execChannelStoreReadout (past : Nat) (s : State) : Out := lift (channelStoreReadoutG past) s

/-! ## TLBI (R198, R433) -/

/-- Whether a table of TLB entries lies within the scope of a TLBI of cluster `k`: L1 by core, the others 1,000 + cluster. -/
def tlbIn (k scope key : Nat) : Bool :=
  let c := if 1000 ≤ key then key - 1000 else clusterOf key
  if scope = 3 then c == k else if scope = 4 then c / 4 == k / 4 else true
def actorCluster : Actor → Nat
  | .pe core .. => clusterOf core
  | .unit u _ => unitCluster u 0
  | .idle => 0
/-- Whether a TLBI names a translation of tag `a`: a pasture that was given ASID 0xFFF has a tag of its own (R412). -/
def tlbNames (kind : TlbiKind) (va asid : Nat) (a base size : Nat) : Bool :=
  match kind with
  | .pg => min a 0xFFF == asid && base ≤ va && va < base + size
  | .asid => min a 0xFFF == asid
  | .all => a != 0xFFF

/-- TLBI drops the entries; it then waits for the accesses in flight that use a translation it named. An access of a
pasture that is not running and that has not been issued translates again (R428). -/
def tlbiG (f : TlbiF) (d a b : Opd) : Mach → Mach :=
  sFire [a, b] [d] (fun u w vs m =>
    let k := unitCluster u 0
    let va := bits ((vs[0]?).getD 0) 0 56
    let asid := bits ((vs[1]?).getD 0) 0 12
    let names := tlbNames f.kind va asid
    let hit := fun r : Req => !r.done && (match r.xlat with
      | some (base, e) => tlbIn k f.scope.code (1000 + actorCluster r.who) && names (asidOfActorP m r) base (pteSize e)
      | none => false)
    let waits := ((m.mem.reqs.filter hit).filter (fun r => running m r.past || isShepActor r.who || mayPerform m r)).map (·.id)
    let m1 := { m with
      mem.tlb := m.mem.tlb.map (fun t => if tlbIn k f.scope.code t.1
        then (t.1, t.2.filter (fun x => !names x.asid x.base x.size)) else t)
      mem.reqs := m.mem.reqs.map (fun r => if hit r && !waits.contains r.id then { r with xlat := none } else r) }
    addReq m1 { mkReq m1 (dstOf m1 d false) (.tlbi waits) f.scope.code false false with who := .unit u w })
where
  /-- The address space of a request. -/
  asidOfActorP (m : Mach) (r : Req) : Nat := tlbTag (isShepActor r.who) (pastOf m r.past).asid
def execTlbi (f : TlbiF) (d a b : Opd) (s : State) : Out := lift (tlbiG f d a b) s

/-- TLBI_COMPLETION (R198). -/
def tlbiCompletionG (id : Nat) (m : Mach) : Mach :=
  match reqOf m id with
  | none => m
  | some r =>
    match r.op with
    | .tlbi waits =>
      let waitsFor := fun q : Req => waits.contains q.id && !q.done && (running m q.past || isShepActor q.who || mayPerform m q)
      if r.done || m.mem.reqs.any waitsFor then m
      else
        let m1 := { m with mem.reqs := m.mem.reqs.map (fun q => if waits.contains q.id && !q.done then { q with xlat := none } else q) }
        finish m1 id 0
    | _ => m
def execTlbiCompletion (id : Nat) (s : State) : Out := lift (tlbiCompletionG id) s

/-! ## PART (R436) -/

/-- The range word without its entry number: reserved bits, and LEN and BASE within a scratchpad. -/
def partWordOk (v : Nat) : Bool :=
  bits v 11 5 == 0 && bits v 28 20 == 0 && decide (bits v 48 4 < 8) && bits v 56 7 == 0
    && (!bitAt v 63 || decide (1 ≤ bits v 16 12 ∧ bits v 0 11 + bits v 16 12 ≤ 2048))

def partG (d a b : Opd) : Mach → Mach :=
  sFire [a, b] [d] (fun u _ vs m =>
    let core := bits ((vs[0]?).getD 0) 0 10
    let v := (vs[1]?).getD 0
    if 768 ≤ core ∨ !partWordOk v then putS m u d (sysFail 1)
    else if bitAt v 63 && !coreIn m (bits v 52 4) core then putS m u d (sysFail 6)
    else
      let r := mkReq m (dstOf m d false) (.part core (bits v 48 4) v) 5 false false
      servePart (addReq m r) r)
def execPart (d a b : Opd) (s : State) : Out := lift (partG d a b) s

/-! ## ATTEST (R437) -/

/-- Bytes 0x00 to 0xBF of the report. -/
def reportBody (m : Mach) (cluster : Nat) (nonce : List Byte) : List Byte :=
  bytesOf (1 + cluster * 256 + m.host.count % 65536 * 65536) 8 ++ List.replicate 24 0 ++ nonce
    ++ bytesOf m.host.digest.toNat 64 ++ bytesOf Config.deviceKey.toNat 32 ++ bytesOf Config.romDigest.toNat 32

def attestG (d a b : Opd) : Mach → Mach :=
  sFire [a, b] [d] (fun u w vs m =>
    let who : Actor := .unit u w
    match readBytes m who (bits ((vs[1]?).getD 0) 0 56) 32 with
    | .error _ => putS m u d (sysFail 7)
    | .ok nonce =>
      match virtLocs m who (pastOfActor m who) (bits ((vs[0]?).getD 0) 0 56) 256 .wr with
      | .error _ => putS m u d (sysFail 7)
      | .ok ls =>
        if ((faultR m (mkReq m .drop .tile 5 false false) true ls).orElse (fun _ => lineFault m ls)).isSome then putS m u d (sysFail 7)
        else if heldByResv m (ctxCode (pastOfActor m who) who) ls || rowsHeld m ls || locsMoving m ls then stall m
        else
          let body := reportBody m (u - 128) nonce
          let m1 := writeLocs { m with free := m.free + 32 } ls (body ++ bytesOf (Config.deviceSign body).toNat 64)
          putS m1 u d 0)
def execAttest (d a b : Opd) (s : State) : Out := lift (attestG d a b) s

/-! ## Asynchronous causes (R418) -/

/-- ASYNC_CAUSE: before a fetch, at depth 0 with AE set, the core takes the head of its queue. -/
def asyncCauseG (k : Nat) (m : Mach) : Mach :=
  let u := 128 + k
  let x := shepOf m k
  if 16 ≤ k ∨ (unitOf m u).run != .running ∨ !asyncReady m k ∨ unitBlocked m u then m
  else match x.queue with
    | [] => m
    | c :: rest =>
      takeTrap (releaseHeldTrap (setShep m k { x with queue := rest }) k) k c.code c.past c.val (unitOf m u).w
def execAsyncCause (cluster : Nat) (s : State) : Out := lift (asyncCauseG cluster) s

/-- WATCHDOG: the n-th cause of a queue has waited 1 ms; it is taken as cause 0x12 between two words, at any depth. A core
that waits under NAS 101 goes on at the word after it. -/
def watchdogG (k n : Nat) (m : Mach) : Mach :=
  let u := 128 + k
  let x := shepOf m k
  match x.queue[n]? with
  | none => m
  | some c =>
    let y := unitOf m u
    if 16 ≤ k ∨ (y.run != .running && y.run != .waiting) ∨ unitWaits m u then m
    else
      let m1 := releaseHeldTrap (setShep m k { x with queue := x.queue.eraseIdx n }) k
      let m2 := if y.run == .waiting then setNext m1 u (y.w + 1) else m1
      takeTrap m2 k 0x12 c.past (causeWord c.past c.code) (unitOf m2 u).w
def execWatchdog (cluster n : Nat) (s : State) : Out := lift (watchdogG cluster n) s

end Sys2Proof.Machine
end

