-- ==== Sys2Proof/Machine/Dispatch.lean ====
section
/-! DEFINITION. The dispatcher: one arm per constructor of Instr, each a direct call of the meaning. -/
namespace Sys2Proof.Machine

def exec (i : Instr) (s : State) : Host.Outcome State Fault Refusal :=
  match i with
  | .nop => Sys2Proof.Machine.execNop s
  | .mov f d a => Sys2Proof.Machine.execMov f d a s
  | .send d a b => Sys2Proof.Machine.execSend d a b s
  | .deq f a => Sys2Proof.Machine.execDeq f a s
  | .tagr d a => Sys2Proof.Machine.execTagr d a s
  | .eos d => Sys2Proof.Machine.execEos d s
  | .pset a b => Sys2Proof.Machine.execPset a b s
  | .plog f d a b => Sys2Proof.Machine.execPlog f d a b s
  | .done => Sys2Proof.Machine.execDone s
  | .poison f d a => Sys2Proof.Machine.execPoison f d a s
  | .chq d a => Sys2Proof.Machine.execChq d a s
  | .add f d a b => Sys2Proof.Machine.execAdd f d a b s
  | .sub f d a b => Sys2Proof.Machine.execSub f d a b s
  | .adds f d a b => Sys2Proof.Machine.execAdds f d a b s
  | .addn f d a b => Sys2Proof.Machine.execAddn f d a b s
  | .mul f d a b => Sys2Proof.Machine.execMul f d a b s
  | .mulh f d a b => Sys2Proof.Machine.execMulh f d a b s
  | .mulhn f d a b => Sys2Proof.Machine.execMulhn f d a b s
  | .mad f d a b => Sys2Proof.Machine.execMad f d a b s
  | .div f d a b => Sys2Proof.Machine.execDiv f d a b s
  | .divn f d a b => Sys2Proof.Machine.execDivn f d a b s
  | .rem f d a b => Sys2Proof.Machine.execRem f d a b s
  | .min f d a b => Sys2Proof.Machine.execMin f d a b s
  | .max f d a b => Sys2Proof.Machine.execMax f d a b s
  | .minn f d a b => Sys2Proof.Machine.execMinn f d a b s
  | .maxn f d a b => Sys2Proof.Machine.execMaxn f d a b s
  | .abs f d a => Sys2Proof.Machine.execAbs f d a s
  | .and f d a b => Sys2Proof.Machine.execAnd f d a b s
  | .or f d a b => Sys2Proof.Machine.execOr f d a b s
  | .xor f d a b => Sys2Proof.Machine.execXor f d a b s
  | .andn f d a b => Sys2Proof.Machine.execAndn f d a b s
  | .shl f d a b => Sys2Proof.Machine.execShl f d a b s
  | .shr f d a b => Sys2Proof.Machine.execShr f d a b s
  | .sha f d a b => Sys2Proof.Machine.execSha f d a b s
  | .rot f d a b => Sys2Proof.Machine.execRot f d a b s
  | .cmp f d a b => Sys2Proof.Machine.execCmp f d a b s
  | .sel f d a b => Sys2Proof.Machine.execSel f d a b s
  | .clz f d a => Sys2Proof.Machine.execClz f d a s
  | .popc f d a => Sys2Proof.Machine.execPopc f d a s
  | .bfx f d a b => Sys2Proof.Machine.execBfx f d a b s
  | .bfi f d a b => Sys2Proof.Machine.execBfi f d a b s
  | .lea f d a b => Sys2Proof.Machine.execLea f d a b s
  | .limm form v d => Sys2Proof.Machine.execLimm form v d s
  | .fadd f d a b => Sys2Proof.Machine.execFadd f d a b s
  | .fsub f d a b => Sys2Proof.Machine.execFsub f d a b s
  | .fmul f d a b => Sys2Proof.Machine.execFmul f d a b s
  | .fma f d a b => Sys2Proof.Machine.execFma f d a b s
  | .fnma f d a b => Sys2Proof.Machine.execFnma f d a b s
  | .fmin f d a b => Sys2Proof.Machine.execFmin f d a b s
  | .fmax f d a b => Sys2Proof.Machine.execFmax f d a b s
  | .fsgn f d a b => Sys2Proof.Machine.execFsgn f d a b s
  | .fcmp f d a b => Sys2Proof.Machine.execFcmp f d a b s
  | .fdiv f d a b => Sys2Proof.Machine.execFdiv f d a b s
  | .fsqrt f d a => Sys2Proof.Machine.execFsqrt f d a s
  | .frcp f d a => Sys2Proof.Machine.execFrcp f d a s
  | .frsq f d a => Sys2Proof.Machine.execFrsq f d a s
  | .fexp2 f d a => Sys2Proof.Machine.execFexp2 f d a s
  | .flog2 f d a => Sys2Proof.Machine.execFlog2 f d a s
  | .fdot f d a b => Sys2Proof.Machine.execFdot f d a b s
  | .cvt f tf ff d a => Sys2Proof.Machine.execCvt f tf ff d a s
  | .cvti f tf ff d a => Sys2Proof.Machine.execCvti f tf ff d a s
  | .ftoi f d a => Sys2Proof.Machine.execFtoi f d a s
  | .itof f d a => Sys2Proof.Machine.execItof f d a s
  | .scale f d a b => Sys2Proof.Machine.execScale f d a b s
  | .qblk f d a => Sys2Proof.Machine.execQblk f d a s
  | .fred f op d a => Sys2Proof.Machine.execFred f op d a s
  | .shuf f d a b => Sys2Proof.Machine.execShuf f d a b s
  | .bcst f d a b => Sys2Proof.Machine.execBcst f d a b s
  | .pack f d a b => Sys2Proof.Machine.execPack f d a b s
  | .unpk f d a => Sys2Proof.Machine.execUnpk f d a s
  | .fcls f d a => Sys2Proof.Machine.execFcls f d a s
  | .rand f d a b => Sys2Proof.Machine.execRand f d a b s
  | .mxmode f d a => Sys2Proof.Machine.execMxmode f d a s
  | .mxwld f a b => Sys2Proof.Machine.execMxwld f a b s
  | .mxwbuf d a b => Sys2Proof.Machine.execMxwbuf d a b s
  | .mxfmt f a b => Sys2Proof.Machine.execMxfmt f a b s
  | .mxrun d a b => Sys2Proof.Machine.execMxrun d a b s
  | .mxacc f a => Sys2Proof.Machine.execMxacc f a s
  | .mxdrn f d a b => Sys2Proof.Machine.execMxdrn f d a b s
  | .mxst f d a => Sys2Proof.Machine.execMxst f d a s
  | .cturn f a => Sys2Proof.Machine.execCturn f a s
  | .mxwait d a => Sys2Proof.Machine.execMxwait d a s
  | .ld f d a b => Sys2Proof.Machine.execLd f d a b s
  | .st f d a b => Sys2Proof.Machine.execSt f d a b s
  | .lds f d a b => Sys2Proof.Machine.execLds f d a b s
  | .sts f d a b => Sys2Proof.Machine.execSts f d a b s
  | .ldh f d a b => Sys2Proof.Machine.execLdh f d a b s
  | .sth f d a b => Sys2Proof.Machine.execSth f d a b s
  | .hset d a b => Sys2Proof.Machine.execHset d a b s
  | .hget d a b => Sys2Proof.Machine.execHget d a b s
  | .wbind f d a b => Sys2Proof.Machine.execWbind f d a b s
  | .wfree a => Sys2Proof.Machine.execWfree a s
  | .pft f a b => Sys2Proof.Machine.execPft f a b s
  | .snap f d a b => Sys2Proof.Machine.execSnap f d a b s
  | .append f d a b => Sys2Proof.Machine.execAppend f d a b s
  | .publ f d a b => Sys2Proof.Machine.execPubl f d a b s
  | .fence f d => Sys2Proof.Machine.execFence f d s
  | .amo f d a b => Sys2Proof.Machine.execAmo f d a b s
  | .cas f d a b => Sys2Proof.Machine.execCas f d a b s
  | .red f d a b => Sys2Proof.Machine.execRed f d a b s
  | .waita f d a b => Sys2Proof.Machine.execWaita f d a b s
  | .mon f a => Sys2Proof.Machine.execMon f a s
  | .mwait f d => Sys2Proof.Machine.execMwait f d s
  | .arrive f d a b => Sys2Proof.Machine.execArrive f d a b s
  | .waitc f d a b => Sys2Proof.Machine.execWaitc f d a b s
  | .bar f d a => Sys2Proof.Machine.execBar f d a s
  | .bara f a => Sys2Proof.Machine.execBara f a s
  | .futw f d a b => Sys2Proof.Machine.execFutw f d a b s
  | .futr f d a => Sys2Proof.Machine.execFutr f d a s
  | .prio a => Sys2Proof.Machine.execPrio a s
  | .copy f d a b => Sys2Proof.Machine.execCopy f d a b s
  | .copya f d a b => Sys2Proof.Machine.execCopya f d a b s
  | .copyi f d a b => Sys2Proof.Machine.execCopyi f d a b s
  | .cqry d a => Sys2Proof.Machine.execCqry d a s
  | .agld d a b => Sys2Proof.Machine.execAgld d a b s
  | .agst d a b => Sys2Proof.Machine.execAgst d a b s
  | .bopen f d a b => Sys2Proof.Machine.execBopen f d a b s
  | .bclose d a => Sys2Proof.Machine.execBclose d a s
  | .plset d a b => Sys2Proof.Machine.execPlset d a b s
  | .cflush f d a b => Sys2Proof.Machine.execCflush f d a b s
  | .rdef d a => Sys2Proof.Machine.execRdef d a s
  | .rins f d a b => Sys2Proof.Machine.execRins f d a b s
  | .rdel f d a => Sys2Proof.Machine.execRdel f d a s
  | .rule d a => Sys2Proof.Machine.execRule d a s
  | .eval d a => Sys2Proof.Machine.execEval d a s
  | .fold f d a => Sys2Proof.Machine.execFold f d a s
  | .rscan f d a b => Sys2Proof.Machine.execRscan f d a b s
  | .rlook f d a => Sys2Proof.Machine.execRlook f d a s
  | .rwit f d a => Sys2Proof.Machine.execRwit f d a s
  | .rback f d a b => Sys2Proof.Machine.execRback f d a b s
  | .rcnt f d => Sys2Proof.Machine.execRcnt f d s
  | .rdrop f d a => Sys2Proof.Machine.execRdrop f d a s
  | .bhist d a b => Sys2Proof.Machine.execBhist d a b s
  | .bsel d a b => Sys2Proof.Machine.execBsel d a b s
  | .bext f d a b => Sys2Proof.Machine.execBext f d a b s
  | .pscan f d a b => Sys2Proof.Machine.execPscan f d a b s
  | .topp d a => Sys2Proof.Machine.execTopp d a s
  | .iwalk f d a b => Sys2Proof.Machine.execIwalk f d a b s
  | .spmx f d a b => Sys2Proof.Machine.execSpmx f d a b s
  | .exq f d a b => Sys2Proof.Machine.execExq f d a b s
  | .excfg d a b => Sys2Proof.Machine.execExcfg d a b s
  | .exdq f d a b => Sys2Proof.Machine.execExdq f d a b s
  | .stage d a => Sys2Proof.Machine.execStage d a s
  | .cast d a b => Sys2Proof.Machine.execCast d a b s
  | .merge d a b => Sys2Proof.Machine.execMerge d a b s
  | .krt d a b => Sys2Proof.Machine.execKrt d a b s
  | .hash spr d a => Sys2Proof.Machine.execHash spr d a s
  | .kroute f d a b => Sys2Proof.Machine.execKroute f d a b s
  | .sdone a => Sys2Proof.Machine.execSdone a s
  | .mdone a => Sys2Proof.Machine.execMdone a s
  | .castq d a => Sys2Proof.Machine.execCastq d a s
  | .lease d a b => Sys2Proof.Machine.execLease d a b s
  | .lmove d a b => Sys2Proof.Machine.execLmove d a b s
  | .lrel f d a b => Sys2Proof.Machine.execLrel f d a b s
  | .lqry d a => Sys2Proof.Machine.execLqry d a s
  | .mcst f d a b => Sys2Proof.Machine.execMcst f d a b s
  | .mcstq d a b => Sys2Proof.Machine.execMcstq d a b s
  | .mgrp f d a b => Sys2Proof.Machine.execMgrp f d a b s
  | .ramo f d a b => Sys2Proof.Machine.execRamo f d a b s
  | .pgmig d a b => Sys2Proof.Machine.execPgmig d a b s
  | .slot d a => Sys2Proof.Machine.execSlot d a s
  | .keyi f d a b => Sys2Proof.Machine.execKeyi f d a b s
  | .peerq f d a => Sys2Proof.Machine.execPeerq f d a s
  | .loop a b => Sys2Proof.Machine.execLoop a b s
  | .lbrk c ng n => Sys2Proof.Machine.execLbrk c ng n s
  | .jind f a => Sys2Proof.Machine.execJind f a s
  | .arm f d a b => Sys2Proof.Machine.execArm f d a b s
  | .install f d a b => Sys2Proof.Machine.execInstall f d a b s
  | .launch f d a b => Sys2Proof.Machine.execLaunch f d a b s
  | .seqw d a => Sys2Proof.Machine.execSeqw d a s
  | .getc d a b => Sys2Proof.Machine.execGetc d a b s
  | .setc d a b => Sys2Proof.Machine.execSetc d a b s
  | .event a b => Sys2Proof.Machine.execEvent a b s
  | .trap a b => Sys2Proof.Machine.execTrap a b s
  | .tret => Sys2Proof.Machine.execTret s
  | .preempt d a => Sys2Proof.Machine.execPreempt d a s
  | .resume f d a b => Sys2Proof.Machine.execResume f d a b s
  | .csave d a => Sys2Proof.Machine.execCsave d a s
  | .cload d a => Sys2Proof.Machine.execCload d a s
  | .tlbi f d a b => Sys2Proof.Machine.execTlbi f d a b s
  | .gtbl d a b => Sys2Proof.Machine.execGtbl d a b s
  | .part d a b => Sys2Proof.Machine.execPart d a b s
  | .halt d a => Sys2Proof.Machine.execHalt d a s
  | .attest d a b => Sys2Proof.Machine.execAttest d a b s
  | .flog f d a b => Sys2Proof.Machine.execFlog f d a b s
  | .tokenArrival n => Sys2Proof.Machine.execTokenArrival n s
  | .cornerTurnResize core pe ch => Sys2Proof.Machine.execCornerTurnResize core pe ch s
  | .starveCycle core pe => Sys2Proof.Machine.execStarveCycle core pe s
  | .activationDispatch core => Sys2Proof.Machine.execActivationDispatch core s
  | .commitEv core ctx => Sys2Proof.Machine.execCommitEv core ctx s
  | .recordPlacement sect => Sys2Proof.Machine.execRecordPlacement sect s
  | .averagingSample cluster => Sys2Proof.Machine.execAveragingSample cluster s
  | .averagingMove cluster => Sys2Proof.Machine.execAveragingMove cluster s
  | .bucketStep port => Sys2Proof.Machine.execBucketStep port s
  | .bucketSetting port depth rate => Sys2Proof.Machine.execBucketSetting port depth rate s
  | .decodeTrap unit => Sys2Proof.Machine.execDecodeTrap unit s
  | .pendingEmpty unit => Sys2Proof.Machine.execPendingEmpty unit s
  | .armatureTransfer core frame => Sys2Proof.Machine.execArmatureTransfer core frame s
  | .pageWalk id => Sys2Proof.Machine.execPageWalk id s
  | .loadResult id ans => Sys2Proof.Machine.execLoadResult id ans s
  | .storeCompletion id ans => Sys2Proof.Machine.execStoreCompletion id ans s
  | .pftArrival id bad => Sys2Proof.Machine.execPftArrival id bad s
  | .windowFree id => Sys2Proof.Machine.execWindowFree id s
  | .fenceCompletion id => Sys2Proof.Machine.execFenceCompletion id s
  | .scopeTimeout id => Sys2Proof.Machine.execScopeTimeout id s
  | .peerFailure past peer => Sys2Proof.Machine.execPeerFailure past peer s
  | .peerRequest acc => Sys2Proof.Machine.execPeerRequest acc s
  | .syncEngineService id ans => Sys2Proof.Machine.execSyncEngineService id ans s
  | .reservationLapse word => Sys2Proof.Machine.execReservationLapse word s
  | .copySlotGrant id => Sys2Proof.Machine.execCopySlotGrant id s
  | .copyCompletion id bad => Sys2Proof.Machine.execCopyCompletion id bad s
  | .agTileStart id => Sys2Proof.Machine.execAgTileStart id s
  | .coalesceRelease tile => Sys2Proof.Machine.execCoalesceRelease tile s
  | .nodeConfiguration id => Sys2Proof.Machine.execNodeConfiguration id s
  | .forceClose row => Sys2Proof.Machine.execForceClose row s
  | .dramRefresh row => Sys2Proof.Machine.execDramRefresh row s
  | .writeDrain pc => Sys2Proof.Machine.execWriteDrain pc s
  | .parityAlert pc third => Sys2Proof.Machine.execParityAlert pc third s
  | .activationThreshold what => Sys2Proof.Machine.execActivationThreshold what s
  | .backgroundScrub u bad => Sys2Proof.Machine.execBackgroundScrub u bad s
  | .arrayCommand core bad => Sys2Proof.Machine.execArrayCommand core bad s
  | .modeChange core => Sys2Proof.Machine.execModeChange core s
  | .drainToken core => Sys2Proof.Machine.execDrainToken core s
  | .indexEngineEmit turn => Sys2Proof.Machine.execIndexEngineEmit turn s
  | .timerRelease q => Sys2Proof.Machine.execTimerRelease q s
  | .exdqDelivery id => Sys2Proof.Machine.execExdqDelivery id s
  | .exqPlacement id => Sys2Proof.Machine.execExqPlacement id s
  | .tupleEvent past => Sys2Proof.Machine.execTupleEvent past s
  | .userReturn core => Sys2Proof.Machine.execUserReturn core s
  | .candidateArrival past n => Sys2Proof.Machine.execCandidateArrival past n s
  | .foldWave past => Sys2Proof.Machine.execFoldWave past s
  | .foldTimeout past => Sys2Proof.Machine.execFoldTimeout past s
  | .castSample past fam => Sys2Proof.Machine.execCastSample past fam s
  | .routineDispatch past fam => Sys2Proof.Machine.execRoutineDispatch past fam s
  | .stepDone past fam => Sys2Proof.Machine.execStepDone past fam s
  | .senderAck past fam core => Sys2Proof.Machine.execSenderAck past fam core s
  | .leaseService c => Sys2Proof.Machine.execLeaseService c s
  | .leaseDenial id => Sys2Proof.Machine.execLeaseDenial id s
  | .revocationNoticeEnd lane => Sys2Proof.Machine.execRevocationNoticeEnd lane s
  | .mcstMemberWrite w => Sys2Proof.Machine.execMcstMemberWrite w s
  | .mcstCompletion id => Sys2Proof.Machine.execMcstCompletion id s
  | .toryrFlitReceive lane ok phase => Sys2Proof.Machine.execToryrFlitReceive lane ok phase s
  | .keyLow lane => Sys2Proof.Machine.execKeyLow lane s
  | .keyHold lane => Sys2Proof.Machine.execKeyHold lane s
  | .keyExpiry lane => Sys2Proof.Machine.execKeyExpiry lane s
  | .pageMigration mv => Sys2Proof.Machine.execPageMigration mv s
  | .portalReply id ans => Sys2Proof.Machine.execPortalReply id ans s
  | .slotEntryEffect router => Sys2Proof.Machine.execSlotEntryEffect router s
  | .asyncCause cluster => Sys2Proof.Machine.execAsyncCause cluster s
  | .watchdog cluster n => Sys2Proof.Machine.execWatchdog cluster n s
  | .channelStoreReadout past => Sys2Proof.Machine.execChannelStoreReadout past s
  | .tlbiCompletion id => Sys2Proof.Machine.execTlbiCompletion id s
  | .launchWrite past v => Sys2Proof.Machine.execLaunchWrite past v s
  | .hostev past v => Sys2Proof.Machine.execHostev past v s
  | .preq past v => Sys2Proof.Machine.execPreq past v s
  | .eventAck past vec v => Sys2Proof.Machine.execEventAck past vec v s
  | .coldStart v => Sys2Proof.Machine.execColdStart v s
  | .warmStart v => Sys2Proof.Machine.execWarmStart v s
  | .startCompletion rep => Sys2Proof.Machine.execStartCompletion rep s
  | .powerctl v => Sys2Proof.Machine.execPowerctl v s
  | .fwstageWrite off v => Sys2Proof.Machine.execFwstageWrite off v s
  | .hostMemoryAccess acc => Sys2Proof.Machine.execHostMemoryAccess acc s
  | .hostAtomicop off => Sys2Proof.Machine.execHostAtomicop off s
  | .powerOn peer rev rate => Sys2Proof.Machine.execPowerOn peer rev rate s
  | .thermalLimit watts power => Sys2Proof.Machine.execThermalLimit watts power s
  | .registerWrite off v => Sys2Proof.Machine.execRegisterWrite off v s
  | .revocationNotice lane => Sys2Proof.Machine.execRevocationNotice lane s
  | .ualinkPeerAccess acc => Sys2Proof.Machine.execUalinkPeerAccess acc s

end Sys2Proof.Machine
end

