-- ==== Sys2Proof/Machine/Step.lean ====
section
/-! DEFINITION. One step: the next selected pair fires, or the next turn of the agenda runs (log 1). -/
namespace Sys2Proof.Machine

/-- One word of an S-form unit, in its turn; the results that may leave then do. -/
def stepUnit (u : Nat) (s : State) : Host.Outcome State Fault Refusal :=
  if unitTurn exec s u then
    match unitInstr s.m u with
    | some (x, i) => leave (fun m => flush (afterWord u m)) (exec i (enterUnit u x (noteTurn u s)))
    | none => exec (.decodeTrap u) (noteTurn u s)
  else .next s

/-- A turn of the agenda: one cycle of a PE, one word of an S-form unit, or one event. -/
def stepTurn (t : Turn) (s : State) : Host.Outcome State Fault Refusal :=
  match t with
  | .pe core pe =>
    if tget 0 (core * 16 + pe) s.m.pe.starv = 63 then exec (.starveCycle core pe) s else .next (peCycle false core pe s)
  | .unit u => stepUnit u { s with m := settleSeqw u s.m }
  | .event i => exec i s

/-- What the next step runs. An empty agenda leaves the state as it is but for CYCLE. -/
def stepCore (s : State) : Host.Outcome State Fault Refusal :=
  match s.sched.firing with
  | x :: rest =>
    let s1 := { s with sched.firing := rest }
    match firingOf s.m x with
    | some (i, who) => leave (fun m => markFences (afterFiring x m)) (exec i (enterPe who s1))
    | none => .next s1
  | [] =>
    match s.sched.agenda with
    | [] => .next (tick s)
    | t :: rest => stepTurn t (tick { s with sched.agenda := rest })

/-- What a step leaves to be served at once: the bytes that fault records and spill rings have written, whose monitors fire and which
waiters test (R232, R233), a HALT of the ROM handler, which stops its pasture (R419), and the classes of waiting contexts (R240). -/
def serveStep (m : Mach) : Mach := settleClasses (romHalts (serveTouched m))

/-- The end of a step: what it leaves to be served, and the report of a changed power state (R450). -/
def endStep (s : State) : State := notePower { s with m := serveStep s.m }

/-- One step of the machine: what is next runs, and the step ends. -/
def step (s : State) : Host.Outcome State Fault Refusal :=
  match stepCore s with
  | .next t => .next (endStep t)
  | o => o

/-- `s` with an instruction of the opcode table where the next step runs it (log 8). -/
def State.withFetchWord (s : State) (nbits w : Nat) : State := placeWord s (w % 2 ^ nbits)

end Sys2Proof.Machine
end

