-- ==== Sys2Proof/Safety.lean ====
section
/-! DEFINITION. The terms in which claims are stated: when an instruction starts (its operands can be read and are not
poisoned), the machine after its sources are read, what a value instruction writes, and what a run keeps. -/
namespace Sys2Proof.Machine

/-! ## Starting (R66, R89, R268) -/

/-- An S-form word that names the operands `os` and the further registers `more` does not stall: no register is the D of an
outstanding instruction, and a token that is not poisoned waits at in0 if in0 is read. -/
def sReady (m : Mach) (u : Nat) (os : List Opd) (more : List Nat) : Bool :=
  !(sRegs os ++ more).any (sOutstanding m u)
    && (!os.any isInC || (match tfind u m.copy.tiles with
      | some b => (match b.inq with | t :: _ => !t.val.poison | [] => false)
      | none => false))

/-- A value instruction with the sources `rd` and the result `d` starts: in a PE no source is poisoned. -/
def starts (m : Mach) (rd : List (LaneK × Opd)) (d : DstK) : Bool :=
  match m.cur with
  | .idle => false
  | .pe .. => (poisonStep (rd.map (fun x => srcVal m x.1 x.2))).isNone
  | .unit u _ => sReady m u (rd.map (·.2) ++ dstOpds d) []

/-- An instruction that makes a request starts. -/
def memStarts (m : Mach) (os ds : List Opd) (more : List Nat) : Bool :=
  match m.cur with
  | .idle => false
  | .pe .. => (poisonStep (os.map (srcVal m .whole))).isNone
  | .unit u _ => sReady m u (os ++ ds) more

/-- An S-form-only instruction starts in unit `u`. -/
def sStarts (m : Mach) (u w : Nat) (os d : List Opd) : Bool := m.cur == .unit u w && sReady m u (os ++ d) []

/-- The machine after the sources `os` of an instruction with the results `ds` are read: a PE has dequeued its channels, a
storer tile has consumed its token and set p0. -/
def readDone (m : Mach) (os ds : List Opd) : Mach :=
  match m.cur with
  | .idle => m
  | .pe .. => deqSrcs m os
  | .unit u _ =>
    if (os ++ ds).any isInC then
      match tfind u m.copy.tiles with
      | some b => (match b.inq with
        | t :: rest => setSPred { m with copy.tiles := tset u { b with inq := rest } m.copy.tiles } u 0 t.eos
        | [] => m)
      | none => m
    else m

/-! ## What a value instruction writes -/

/-- The state after a value instruction: D holds `v`; `fl` joins the arithmetic status. -/
def wrote (s : State) (os : List Opd) (d : DstK) (v : Val) (fl : Nat) : State :=
  { s with m := sticky (putRes (readDone s.m os (dstOpds d)) d v) fl }
/-- The same for an instruction that raises no flag. -/
def wroteV (s : State) (os : List Opd) (d : DstK) (v : Val) : State :=
  { s with m := putRes (readDone s.m os (dstOpds d)) d v }

/-- The payload of a source. -/
def payOf (m : Mach) (k : LaneK) (o : Opd) : Nat := (srcVal m k o).pay.toNat

/-- An integer entry's sources (A, B where it has one, D where it reads it). -/
def intSrcs (sh : Shape) (readD : Bool) (d a : Opd) (b : Option Opd) : List (LaneK × Opd) :=
  (.int sh.width, a) :: ((match b with | some x => [(.int sh.width, x)] | none => []) ++ (if readD then [(.int sh.width, d)] else []))
/-- The state after an integer entry whose lanes are computed by `op` from the lanes of A, B and D (R160, R161, R165). -/
def intRes (s : State) (sh : Shape) (readD : Bool) (d a : Opd) (b : Option Opd) (op : Nat → Nat → Nat → Nat × Nat) : State :=
  let k := LaneK.int sh.width
  let B := match b with | some x => payOf s.m k x | none => 0
  let D := if readD then payOf s.m k d else 0
  let os := (intSrcs sh readD d a b).map (·.2)
  let r := intLanes (readDone s.m os [d]) sh op (payOf s.m k a) B D
  wrote s os (.opd d) (Val.ofNat r.1) r.2

/-- A floating-point entry's sources. -/
def fltSrcs (F : FFmt) (readD : Bool) (d a : Opd) (b : Option Opd) : List (LaneK × Opd) :=
  (.flt F, a) :: ((match b with | some x => [(.flt F, x)] | none => []) ++ (if readD then [(.flt F, d)] else []))
/-- The scale check of R107 passes: `carry` says which of A, B and D carry scales. -/
def scalesOk (m : Mach) (F : FFmt) (xs readD : Bool) (carry : Bool × Bool × Bool) (d a : Opd) (b : Option Opd) : Bool :=
  let ok := fun (o : Opd) (c : Bool) => (srcVal m (.flt F) o).scaled == (c && xs)
  ok a carry.1 && (match b with | some x => ok x carry.2.1 | none => true) && (!readD || ok d carry.2.2)
/-- The state after a floating-point entry (R160, R172, R173). -/
def fltRes (s : State) (F : FFmt) (xs readD : Bool) (d a : Opd) (b : Option Opd) (op : Nat → Nat → Nat → Nat × Nat) : State :=
  let k := LaneK.flt F
  let B := match b with | some x => payOf s.m k x | none => 0
  let D := if readD then payOf s.m k d else 0
  let os := (fltSrcs F readD d a b).map (·.2)
  let r := onLanes F.width (128 / F.width) op (payOf s.m k a) B D
  wrote s os (.opd d) ⟨BitVec.ofNat 128 r.1, false, xs⟩ r.2

/-! ## What every run keeps -/

/-- A bucket as Bruosh sets it (R39, R450). -/
def bucketOk (b : Bucket) : Bool := decide (1 ≤ b.depth ∧ 1 ≤ b.rate ∧ 1 ≤ b.newRate ∧ b.level ≤ b.depth)
/-- CAP is in its range, every bucket has room and a rate, and a PE cycle selects at most two pairs (R32, R450). -/
def runOk (s : State) : Bool :=
  decide (500 ≤ s.pow.cap ∧ s.pow.cap ≤ 2500 ∧ s.sched.firing.length ≤ 2) && s.pow.buckets.all (fun e => bucketOk e.2)

end Sys2Proof.Machine
end

