-- ==== Sys2Proof/Safety/Alu.lean ====
section
/-! DEFINITION. What the tables of chapter 8 say of one lane, in exact integers and rational numbers, for the claims about
classes 0x1_ to 0x4_. -/
namespace Sys2Proof.Machine

/-- A lane read as signed. -/
def asInt (w x : Nat) : Int := (BitVec.ofNat w x).toInt
/-- The lane of an exact value (R165): itself in the range, the nearest value with OV where it saturates, else mod 2^w. -/
def narrow (w : Nat) (lo hi : Int) (saturates : Bool) (x : Int) : Nat × Nat :=
  if saturates ∧ (x < lo ∨ hi < x) then ((BitVec.ofInt w (max lo (min hi x))).toNat, fOV) else ((BitVec.ofInt w x).toNat, 0)
def narrowS (w : Nat) (saturates : Bool) (x : Int) : Nat × Nat := narrow w (-(2 ^ (w - 1))) (2 ^ (w - 1) - 1) saturates x
def narrowU (w : Nat) (x : Int) : Nat × Nat := narrow w 0 (2 ^ w - 1) true x

/-- An entry of a lane table: shape, whether D is read, D, A, B, and the lane of the lanes of A, B and D. -/
structure LaneRow where
  shape : Shape
  readD : Bool
  d : Opd
  a : Opd
  b : Option Opd
  op : Nat → Nat → Nat → Nat × Nat

/-- The table of R164 with the effect of R165. -/
def intRow : Instr → Option LaneRow
  | .add f d a b => some ⟨f.shape, false, d, a, some b, fun x y _ => narrowS f.shape.width false (asInt f.shape.width x + asInt f.shape.width y)⟩
  | .sub f d a b => some ⟨f.shape, false, d, a, some b, fun x y _ => narrowS f.shape.width f.sat (asInt f.shape.width x - asInt f.shape.width y)⟩
  | .adds f d a b => some ⟨f.shape, false, d, a, some b, fun x y _ => narrowS f.shape.width true (asInt f.shape.width x + asInt f.shape.width y)⟩
  | .addn f d a b => some ⟨f.shape, false, d, a, some b, fun x y _ => narrowU f.shape.width ((x : Int) + y)⟩
  | .mul f d a b => some ⟨f.shape, false, d, a, some b, fun x y _ => narrowS f.shape.width f.sat (asInt f.shape.width x * asInt f.shape.width y)⟩
  | .mulh f d a b => some ⟨f.shape, false, d, a, some b, fun x y _ =>
      narrowS f.shape.width false ⌊(asInt f.shape.width x * asInt f.shape.width y : ℚ) / 2 ^ f.shape.width⌋⟩
  | .mulhn f d a b => some ⟨f.shape, false, d, a, some b, fun x y _ => narrowU f.shape.width ⌊((x : ℚ) * y) / 2 ^ f.shape.width⌋⟩
  | .mad f d a b => some ⟨f.shape, true, d, a, some b, fun x y z =>
      narrowS f.shape.width f.sat (asInt f.shape.width z + asInt f.shape.width x * asInt f.shape.width y)⟩
  | .div f d a b => some ⟨f.shape, false, d, a, some b, fun x y _ =>
      if y = 0 then (0, fDZ)
      else if asInt f.shape.width x = -(2 ^ (f.shape.width - 1)) ∧ asInt f.shape.width y = -1 then (x, fOV)
      else narrowS f.shape.width false ((asInt f.shape.width x).tdiv (asInt f.shape.width y))⟩
  | .divn f d a b => some ⟨f.shape, false, d, a, some b, fun x y _ => if y = 0 then (0, fDZ) else narrowU f.shape.width ⌊(x : ℚ) / y⌋⟩
  | .rem f d a b => some ⟨f.shape, false, d, a, some b, fun x y _ =>
      if y = 0 then (x, fDZ)
      else narrowS f.shape.width false
        (asInt f.shape.width x - asInt f.shape.width y * (asInt f.shape.width x).tdiv (asInt f.shape.width y))⟩
  | .min f d a b => some ⟨f.shape, false, d, a, some b, fun x y _ => narrowS f.shape.width false (min (asInt f.shape.width x) (asInt f.shape.width y))⟩
  | .max f d a b => some ⟨f.shape, false, d, a, some b, fun x y _ => narrowS f.shape.width false (max (asInt f.shape.width x) (asInt f.shape.width y))⟩
  | .minn f d a b => some ⟨f.shape, false, d, a, some b, fun x y _ => narrowU f.shape.width (min (x : Int) y)⟩
  | .maxn f d a b => some ⟨f.shape, false, d, a, some b, fun x y _ => narrowU f.shape.width (max (x : Int) y)⟩
  | .abs f d a => some ⟨f.shape, false, d, a, none, fun x _ _ => narrowS f.shape.width f.sat |asInt f.shape.width x|⟩
  | _ => none

/-- Bits of a field of R167. -/
def fieldPos (w b : Nat) : Nat := (b % 256) % w
def fieldLen (w b : Nat) : Nat := min (b / 256 % 256) (w - fieldPos w b)

/-- The tables of R166, R167 and R170. -/
def logicRow : Instr → Option LaneRow
  | .and f d a b => some ⟨f.shape, false, d, a, some b, fun x y _ => ((BitVec.ofNat f.shape.width x &&& BitVec.ofNat f.shape.width y).toNat, 0)⟩
  | .or f d a b => some ⟨f.shape, false, d, a, some b, fun x y _ => ((BitVec.ofNat f.shape.width x ||| BitVec.ofNat f.shape.width y).toNat, 0)⟩
  | .xor f d a b => some ⟨f.shape, false, d, a, some b, fun x y _ => ((BitVec.ofNat f.shape.width x ^^^ BitVec.ofNat f.shape.width y).toNat, 0)⟩
  | .andn f d a b => some ⟨f.shape, false, d, a, some b, fun x y _ => ((BitVec.ofNat f.shape.width x &&& ~~~BitVec.ofNat f.shape.width y).toNat, 0)⟩
  | .shl f d a b => some ⟨f.shape, false, d, a, some b, fun x y _ =>
      narrowS f.shape.width f.sat (asInt f.shape.width x * 2 ^ (y % f.shape.width))⟩
  | .shr f d a b => some ⟨f.shape, false, d, a, some b, fun x y _ => ((BitVec.ofNat f.shape.width x >>> (y % f.shape.width)).toNat, 0)⟩
  | .sha f d a b => some ⟨f.shape, false, d, a, some b, fun x y _ => (((BitVec.ofNat f.shape.width x).sshiftRight (y % f.shape.width)).toNat, 0)⟩
  | .rot f d a b => some ⟨f.shape, false, d, a, some b, fun x y _ => (((BitVec.ofNat f.shape.width x).rotateLeft (y % f.shape.width)).toNat, 0)⟩
  | .clz f d a => some ⟨f.shape, false, d, a, none, fun x _ _ => (f.shape.width - Nat.size x, 0)⟩
  | .popc f d a => some ⟨f.shape, false, d, a, none, fun x _ _ => ((List.range f.shape.width).countP (fun i => x.testBit i), 0)⟩
  | .bfx f d a b => some ⟨f.shape, false, d, a, some b, fun x y _ =>
      let len := fieldLen f.shape.width y
      let v := x / 2 ^ fieldPos f.shape.width y % 2 ^ len
      ((BitVec.ofInt f.shape.width (if f.sx ∧ 0 < len ∧ v.testBit (len - 1) then (v : Int) - 2 ^ len else v)).toNat, 0)⟩
  | .bfi f d a b => some ⟨f.shape, true, d, a, some b, fun x y z =>
      let pos := fieldPos f.shape.width y
      let mask := 2 ^ fieldLen f.shape.width y - 1
      ((BitVec.ofNat f.shape.width z &&& ~~~BitVec.ofNat f.shape.width (mask <<< pos)
        ||| BitVec.ofNat f.shape.width ((x &&& mask) <<< pos)).toNat, 0)⟩
  | .lea f d a b => some ⟨f.shape, false, d, a, some b, fun x y _ => ((x + y * 2 ^ f.sh.val) % 2 ^ f.shape.width, 0)⟩
  | _ => none

/-! ## Exact values (R92, R101, R102) -/

/-- The rational number of a finite exact value. -/
def XR.toRat : XR → Option ℚ
  | .fin neg m e false => some ((if neg then -1 else 1) * m * (2 : ℚ) ^ e)
  | _ => none

/-- A row of R173 to R175: format, XS, whether D is read, the scale-carrying sources among A, B and D, the operands and the
lane. -/
structure FltRow where
  fmt : FFmt
  xs : Bool
  readD : Bool
  carry : Bool × Bool × Bool
  d : Opd
  a : Opd
  b : Option Opd
  op : Nat → Nat → Nat → Nat × Nat

/-- `RoundTo(f, format, RND, SAT)` of an exact value with the flags of its operands (R101). -/
def rounded (f : FpF) (codes : List Nat) (x : XR × Nat) : Nat × Nat :=
  let r := roundTo x.1 (fmtOf f.shape) f.rnd f.sat
  (r.1, r.2 ||| x.2 ||| (if codes.any (isSnan (fmtOf f.shape)) then fNV else 0))

/-- The tables of R173, R174 and R175. -/
def fltRow : Instr → Option FltRow
  | .fadd f d a b => let v := fval (fmtOf f.shape)
    some ⟨fmtOf f.shape, f.xs, false, (true, true, false), d, a, some b, fun x y _ => rounded f [x, y] (xadd f.rnd (v x) (v y))⟩
  | .fsub f d a b => let v := fval (fmtOf f.shape)
    some ⟨fmtOf f.shape, f.xs, false, (true, true, false), d, a, some b, fun x y _ => rounded f [x, y] (xadd f.rnd (v x) (xneg (v y)))⟩
  | .fmul f d a b => let v := fval (fmtOf f.shape)
    some ⟨fmtOf f.shape, f.xs, false, (true, false, false), d, a, some b, fun x y _ => rounded f [x, y] (xmul (v x) (v y))⟩
  | .fma f d a b => let v := fval (fmtOf f.shape)
    some ⟨fmtOf f.shape, f.xs, true, (true, false, true), d, a, some b, fun x y z =>
      rounded f [x, y, z] (let p := xmul (v x) (v y); let t := xadd f.rnd p.1 (v z)
        (t.1, t.2 ||| (if isNanCode (fmtOf f.shape) z then 0 else p.2)))⟩
  | .fnma f d a b => let v := fval (fmtOf f.shape)
    some ⟨fmtOf f.shape, f.xs, true, (true, false, true), d, a, some b, fun x y z =>
      rounded f [x, y, z] (let p := xmul (v x) (v y); let t := xadd f.rnd (v z) (xneg p.1)
        (t.1, t.2 ||| (if isNanCode (fmtOf f.shape) z then 0 else p.2)))⟩
  | .fmin f d a b => some ⟨fmtOf f.shape, f.xs, false, (true, true, false), d, a, some b, fun x y _ => minMaxNum (fmtOf f.shape) false x y⟩
  | .fmax f d a b => some ⟨fmtOf f.shape, f.xs, false, (true, true, false), d, a, some b, fun x y _ => minMaxNum (fmtOf f.shape) true x y⟩
  | .fsgn f d a b => some ⟨fmtOf f.shape, f.xs, false, (true, true, false), d, a, (if f.op = .cps then some b else none), fun x y _ =>
      let F := fmtOf f.shape
      let nv := if isSnan F x || (f.op == .cps && isSnan F y) then fNV else 0
      if isNanCode F x then (F.canon, nv)
      else
        let neg := match f.op with | .abs => false | .neg => !x.testBit (F.width - 1) | .cps => y.testBit (F.width - 1)
        (x % 2 ^ (F.width - 1) + (if neg then 2 ^ (F.width - 1) else 0), nv)⟩
  | .fdiv f d a b => let v := fval (fmtOf f.shape)
    some ⟨fmtOf f.shape, f.xs, false, (true, false, false), d, a, some b, fun x y _ => rounded f [x, y] (xdiv (v x) (v y))⟩
  | .fsqrt f d a => let v := fval (fmtOf f.shape)
    some ⟨fmtOf f.shape, f.xs, false, (false, false, false), d, a, none, fun x _ _ => rounded f [x] (xsqrt (v x))⟩
  | .frcp f d a => let v := fval (fmtOf f.shape)
    some ⟨fmtOf f.shape, f.xs, false, (false, false, false), d, a, none, fun x _ _ => rounded f [x] (xrcp (v x))⟩
  | .frsq f d a => let v := fval (fmtOf f.shape)
    some ⟨fmtOf f.shape, f.xs, false, (false, false, false), d, a, none, fun x _ _ => rounded f [x] (xrsq (v x))⟩
  | .fexp2 f d a => let v := fval (fmtOf f.shape)
    some ⟨fmtOf f.shape, f.xs, false, (false, false, false), d, a, none, fun x _ _ => rounded f [x] (xexp2 (v x))⟩
  | .flog2 f d a => let v := fval (fmtOf f.shape)
    some ⟨fmtOf f.shape, f.xs, false, (false, false, false), d, a, none, fun x _ _ => rounded f [x] (xlog2 (v x))⟩
  | _ => none

/-! ## Compare, convert, reduce -/

/-- The condition of R168 on two lanes of `w` bits. -/
def cmpRel (w : Nat) (c : CmpCond) (x y : Nat) : Bool :=
  match c with
  | .eq => decide (x = y)
  | .ne => decide (x ≠ y)
  | .lt => decide (asInt w x < asInt w y)
  | .le => decide (asInt w x ≤ asInt w y)
  | .ltn => decide (x < y)
  | .len => decide (x ≤ y)
  | .tst => decide (x &&& y ≠ 0)
/-- Every lane of the shape satisfies a relation: all lanes in a PE, the scalar in an S-form unit. -/
def everyLane (m : Mach) (w : Nat) (rel : Nat → Nat → Bool) (x y : Nat) : Bool :=
  match m.cur with
  | .unit .. => rel (x % 2 ^ w) (y % 2 ^ w)
  | _ => decide (∀ i < 128 / w, rel (x / 2 ^ (w * i) % 2 ^ w) (y / 2 ^ (w * i) % 2 ^ w))

/-- The integer conversion of R179: the value by the signedness of `from`, reduced modulo 2^width or saturated. -/
def intConv (tt ft : ITy) (sat : Bool) (x : Nat) : Nat × Nat :=
  let v : Int := if ft.signed then asInt ft.width x else x
  if tt.signed then narrowS tt.width sat v else narrow tt.width 0 (2 ^ tt.width - 1) sat v
/-- The elements of a conversion (R179): those of `part` are converted, a narrowing one keeps D's others. -/
def convElems (wt wf part : Nat) (conv : Nat → Nat × Nat) (a d : Nat) : Nat × Nat :=
  let n := 128 / max wt wf
  let src := fun i => if wt < wf then lane wf a i else lane wf a (part * n + i)
  let out := if wt < wf then
      (upto (128 / wt)).map (fun e => if part * n ≤ e ∧ e < part * n + n then (conv (src (e - part * n))).1 else lane wt d e)
    else (upto n).map (fun i => (conv (src i)).1)
  (packLanes wt out, orFlags ((upto n).map (fun i => (conv (src i)).2)))

/-- A write of predicate `p`, and of flags, after the sources `os` are read. -/
def wrotePred (s : State) (os : List Opd) (p : Nat) (v : Bool) : State := { s with m := setPred (readDone s.m os []) p v }

/-! ## Frames -/

/-- The numbers of a firing pair are in their ranges (R9, R17, R18). -/
def actorOk : Actor → Bool
  | .pe core pe frame slot bank _ => core < 768 && pe < 16 && frame < 2 && slot < 8 && bank < 4
  | _ => true

/-- What a value instruction with the destination `d` and the sources `os` leaves as it was: every byte of memory and of the
scratchpads, every register but the destination, every predicate but p0 of a storer tile that reads in0, the handles, the
privileged registers, the pastures, the frames, the bound contexts and the ready queues, every channel but those that it
dequeues, the arithmetic status of other contexts, and every other part of the machine. Requests stay as they were too, but that a
result for an output joins them where it leaves behind earlier results of that output (R204). Only a result for an output changes the
fabric, where its copies are under way, a plinth node that it passes (R272), or the port of a relation that it answers (R336). -/
structure KeepsRest (m t : Mach) (d : Opd) (os : List Opd) : Prop where
  mem : t.mem = { m.mem with reqs := t.mem.reqs }
  reqs : (∀ n, d ≠ .outC n) → t.mem.reqs = m.mem.reqs
  regs : ∀ core pe ctx code, pe < 16 → ctx < 8 → code < 64 → (∀ p f b k c, m.cur = .pe core p f k b c → regCode d = some code → p = pe → ctx ≠ f * 4 + b) →
    peReg t core pe ctx code = peReg m core pe ctx code
  sregs : ∀ u r, (∀ w n, m.cur = .unit u w → d = .r n → r ≠ n.val) → sReg t u r = sReg m u r
  preds : t.pe.preds = m.pe.preds
  spreds : ∀ u i, (os.any isInC = false ∨ i ≠ 0) → bitAt (unitOf t u).p.toNat i = bitAt (unitOf m u).p.toNat i
  hands : t.pe.hands = m.pe.hands ∧ t.seq.uhands = m.seq.uhands
  sheps : t.seq.sheps = m.seq.sheps
  sys : t.sys = m.sys
  array : t.pe.frames = m.pe.frames ∧ t.pe.binds = m.pe.binds ∧ t.pe.rq = m.pe.rq ∧ t.pe.prio = m.pe.prio
  chans : ∀ core pe ch, pe < 16 → ch < 8 → (∀ f k b c, m.cur = .pe core pe f k b c → ch ∉ inChans os) →
    chanOf t (chanKey core pe ch) = chanOf m (chanKey core pe ch)
  astat : ∀ k, (∀ core p f j b c, m.cur = .pe core p f j b c → k ≠ core * 8 + (f * 4 + b)) →
    tget 0 k t.pe.astat = tget 0 k m.pe.astat
  queued : t.mem.reqs = m.mem.reqs ∨ ∃ r, t.mem.reqs = m.mem.reqs ++ [r] ∧ r.done = true
  inner : (∀ n, d ≠ .outC n) → t.fab = m.fab ∧ t.rule = m.rule ∧ t.copy.nodes = m.copy.nodes
  outer : t.fab = { m.fab with transit := t.fab.transit } ∧ t.rule = { m.rule with evals := t.rule.evals }
    ∧ t.copy = { m.copy with tiles := t.copy.tiles, nodes := t.copy.nodes }
  tiles : os.any isInC = false → t.copy.tiles = m.copy.tiles
  parts : t.host = m.host ∧ t.stage = m.stage ∧ t.sync = m.sync ∧ t.mat = m.mat ∧ t.sel = m.sel
  peParts : t.pe = { m.pe with regs := t.pe.regs, chans := t.pe.chans, astat := t.pe.astat }
  seqParts : t.seq = { m.seq with units := t.seq.units }
  units : ∀ u, unitOf t u = { unitOf m u with s := (unitOf t u).s, p := (unitOf t u).p, sstat := (unitOf t u).sstat }
    ∧ ((∀ w, m.cur ≠ .unit u w) → unitOf t u = unitOf m u)

end Sys2Proof.Machine
end

