-- ==== Sys2Proof/Safety/Issue.lean ====
section
/-! DEFINITION. What an instruction that makes a request leaves, and what it keeps. -/
namespace Sys2Proof.Machine

/-- The state after an instruction with the sources `os` and the results `ds` whose effect is `eff`. -/
def after (s : State) (os ds : List Opd) (eff : Mach → Mach) : State := { s with m := eff (readDone s.m os ds) }
/-- The state after an instruction that makes the request `f` gives. -/
def issued (s : State) (os ds : List Opd) (f : Mach → Req) : State := after s os ds (fun m => addReq m (f m))
/-- The state after an instruction whose result `v` is known at once; it takes its turn behind earlier ones (R204). -/
def answered (s : State) (os : List Opd) (d : Opd) (op : ReqOp) (v : Nat) : State :=
  after s os [d] (fun m => resultNow m (dstOf m d false) op (tokNat v))
/-- What becomes of an operation of class 0x7_ whose address `ea` is misaligned (R227): trap 0x06 in an S-form unit, a request that fails
with BOUNDS in a PE. -/
def misplaced (m : Mach) (r : Req) (ea : Nat) : Mach :=
  match m.cur with
  | .unit u w => trapForm m u w 0x06 0
  | _ => failReq (addReq m r) r 0x08 (ea % 2 ^ 56) []
/-- The state after an instruction of class 0x5_ whose command enters the queue of its core. -/
def queued (s : State) (os ds : List Opd) (dst : Mach → Dst) (op : ArrOp) : State := after s os ds (fun m => peCmd m (dst m) op)

/-- The copy that COPY, COPYA or COPYI (kind 0, 1, 2) makes when no handle that it needs is pending, with the descriptor `ds` and, once
judged, `j` (R261, R262). -/
def copyNew (m : Mach) (f : CopyF) (k vec bw ds : Nat) (j : Bool) : Req :=
  mkReq m .drop (.copy k vec bw ds (handOwner m.cur) f.hd.val f.hs.val (readHand m f.hd.val).1 (readHand m f.hs.val).1 j) 5 false true
/-- A copy whose handle waits for a SNAP: the destination's is not read yet, and the source's is waited for first (R206). -/
def copyWaits (m : Mach) (f : CopyF) (k vec bw : Nat) : Req :=
  let hd := readHand m f.hd.val
  let hs := readHand m f.hs.val
  let pendD := !bitAt bw 32 && hd.2.isSome
  { mkReq m .drop (.copy k vec bw 0 (handOwner m.cur) f.hd.val f.hs.val (if pendD then 0 else hd.1) hs.1 false) 5 false true with
    hwait := if !bitAt bw 33 && hs.2.isSome then hs.2 else if pendD then hd.2 else none }
/-- The machine with a copy and the request for its ticket. -/
def copyMade (m : Mach) (f : CopyF) (d : Opd) (k vec bw : Nat) : Mach :=
  let m1 := addReq m (copyNew m f k vec bw 0 false)
  addReq m1 { mkReq m1 (dstOf m d false) (.ticket m.ids) 5 false false with pos := none }
/-- The descriptor of a copy: none for COPY, else the 32 bytes at VEC[95:64], which must be 16-byte aligned (R261). -/
def copyDesc (m : Mach) (r : Req) (k vec ds : Nat) : Prop :=
  if k = 0 then ds = 0 else bits vec 64 32 % 16 = 0 ∧ spRead m r (bits vec 64 32) 32 = some ds

/-- An instruction of class 0x9_ or 0xB_ starts (R345, R378): `wideD` and `wideA` say which of D and A are 128-bit operands, and no source
is scaled. -/
def ruleStarts (s : State) (os : List Opd) (d : Opd) (wideD wideA : Bool) : Bool :=
  memStarts s.m os [d] (pairReg s.m wideD d ++ (match os with | o :: _ => pairReg s.m wideA o | [] => []))
    && !os.any (fun o => (srcVal s.m .whole o).scaled)
/-- The state after its effect on the machine has given its result. -/
def ruleAns (s : State) (os : List Opd) (d : Opd) (wide : Bool) (eff : Mach → Mach × Nat) : State :=
  after s os [d] (fun m => resultNow (eff m).1 (dstOf (eff m).1 d wide) .tile (tokNat (eff m).2))

/-- What an instruction that only makes a request leaves as it was: every byte of memory and of the scratchpads, every register,
every predicate but p0 of a storer tile that reads in0, the handles, the privileged registers, the pastures, the frames and
bound contexts, and every channel but those that it dequeues. -/
structure KeepsAll (m t : Mach) (os : List Opd) : Prop where
  hbm : t.mem.hbm = m.mem.hbm
  spad : t.mem.spad = m.mem.spad
  regs : t.pe.regs = m.pe.regs
  preds : t.pe.preds = m.pe.preds
  sregs : ∀ u r, sReg t u r = sReg m u r
  spreds : ∀ u i, (os.any isInC = false ∨ i ≠ 0) → bitAt (unitOf t u).p.toNat i = bitAt (unitOf m u).p.toNat i
  hands : t.pe.hands = m.pe.hands ∧ t.seq.uhands = m.seq.uhands
  sheps : t.seq.sheps = m.seq.sheps
  sys : t.sys = m.sys
  array : t.pe.frames = m.pe.frames ∧ t.pe.binds = m.pe.binds ∧ t.pe.prio = m.pe.prio ∧ t.pe.astat = m.pe.astat
  chans : ∀ core pe ch, pe < 16 → ch < 8 → (∀ f k b c, m.cur = .pe core pe f k b c → ch ∉ inChans os) →
    chanOf t (chanKey core pe ch) = chanOf m (chanKey core pe ch)

end Sys2Proof.Machine
end

