-- ==== Sys2Proof/WellFormed.lean ====
section
/-! DEFINITION. Well-formed instructions: the op word of an instruction passes every check of a unit kind. -/
namespace Sys2Proof

/-- An instruction is well formed for a unit kind when its op word runs there. -/
def Instr.wf (k : UKind) (i : Instr) : Bool :=
  match encOp i with
  | none => true
  | some w => match fate k true true w with | .ok _ => true | .error _ => false

end Sys2Proof
end

