-- ==== Sys2Proof/Certificates/Slice0/Obligations.lean ====
section
/-! DEFINITION. The statements for the provers. -/
section
open Sys2Proof Sys2Proof.Machine

/-! ## Encoding, steps, reset -/

/-- Words written out from the encoding tables and the printed programs of the manual decode to the instructions that they
stand for: LIMM and LIMM.mid (R171), LEA, FDIV with an immediate and FMUL (chapter 8), DONE (R132), TRET and TLBI
(chapter 23), RAMO (R402). -/
def Obligations.DecodeWords : Prop :=
  decodeTableWord 64 0x0000002F04000300 = some (.limm .low 0xC0 (.r 4))
  ∧ decodeTableWord 64 0x0000002F04040001 = some (.limm .mid 0x10000 (.r 4))
  ∧ decodeTableWord 64 0x0000002E39A03028 = some (.lea ⟨.s16, 2⟩ (.outC 1) (.imm 0x20) (.inC 0))
  ∧ decodeTableWord 64 0x000000393C33F020 = some (.fdiv ⟨.s16, .rne, false, false⟩ (.outC 4) (.inC 3) (.imm 0x70))
  ∧ decodeTableWord 64 0x0000003238303520 = some (.fmul ⟨.s16, .rne, false, false⟩ (.outC 0) (.inC 0) (.inC 5))
  ∧ decodeTableWord 64 0x000000092A2A2A00 = some .done
  ∧ decodeTableWord 64 0x000000E12A2A2A00 = some .tret
  ∧ decodeTableWord 64 0x000000E62A030450 = some (.tlbi ⟨.package, .pg⟩ .zero (.r 3) (.r 4))
  ∧ decodeTableWord 64 0x000000C704060781 = some (.ramo ⟨.host, .add8⟩ (.r 4) (.r 6) (.r 7))

/-- For every instruction that is well formed for some unit kind, the op word that the encoder gives is 40 bits wide, and the
decoder reads the same instruction from those bits: no operand and no modifier bit is lost (R61, R68, R76). -/
def Obligations.EncodeDecode : Prop :=
  ∀ k i w, Instr.wf k i = true → encOp i = some w → w.toNat < 2 ^ 40 ∧ decodeOp (OpWord.ofNat w.toNat) = .ok i

/-- A selected pair fires what the word of its slot decodes to: step is exec of that instruction in the firing pair's name,
then the firing count of R201, the marking of the accesses that a FENCE waits for (R221) and the end of the step, which serves what
it leaves and reports a changed power state. -/
def Obligations.StepFiresPair : Prop :=
  ∀ s x rest i t, s.sched.firing = x :: rest →
    fate .pe true true (OpWord.ofNat (imgInstr (frameImg s.m x.core (x.slot / 8)) x.pe (x.slot % 8) % 2 ^ 40)) = .ok i →
    exec i { s with
      sched.firing := rest, m.ctl := .seq
      m.cur := .pe x.core x.pe (x.slot / 8) (x.slot % 8) x.bank (bitAt (imgInstr (frameImg s.m x.core (x.slot / 8)) x.pe (x.slot % 8)) 40) }
      = .next t →
    step s = .next (endStep { t with m := markFences (afterFiring x t.m) })

/-- A unit's turn executes the word that its eight bytes at the next address decode to, a tile the word of the program that it
read as it started (R269): step is exec of that instruction in the unit's name, then the word's sequencing (R64, R65, R87), the
results that may leave (R204) and the end of the step. CYCLE has risen by 1, the tickets awaited have been settled and, in a graph
sequencer, the context is noted as the last that issued a word (R135) before. That CYCLE counts turns is the model's choice (log 13), and
so is which context of a graph sequencer a turn serves (log 106). -/
def Obligations.StepRunsWord : Prop :=
  ∀ (s : State) u rest x i t, s.sched.firing = [] → s.sched.agenda = .unit u :: rest →
    let s1 : State := { s with
      sched.agenda := rest
      m := settleSeqw u { s.m with seq.cycle := (s.m.seq.cycle + 1) % 2 ^ 64 } }
    let y := unitOf s1.m u
    let who : Actor := .unit u y.w
    unitTurn exec s1 u = true → y.w < imageWords u →
    ((tfind u s1.m.copy.tiles = none ∧ ∃ ls, virtLocs s1.m who (pastOfActor s1.m who) (y.base + 8 * y.w) 8 .fetch = .ok ls
        ∧ locsFault s1.m who ls = none ∧ ls.any isOutside = false ∧ x = locsRead s1.m ls)
      ∨ (∃ b c, tfind u s1.m.copy.tiles = some b ∧ b.code[y.w]? = some (some c) ∧ x = c.toNat)) →
    wordFate s1.m u x = .ok i →
    exec i (enterUnit u x (noteTurn u s1)) = .next t →
    step s = .next (endStep { t with m := flush (afterWord u t.m) })

/-- The other turns: an event runs as exec of its constructor, a PE's turn selects pairs (under a StarveCycle where its counter
reads 63, R34), and an empty agenda only advances CYCLE, by 1; each ends as every step does. That a turn of the agenda is the unit of
CYCLE, and that one with nothing to do counts, is the model's choice (log 1, 13, 78). -/
def Obligations.StepTurns : Prop :=
  ∀ s, s.sched.firing = [] →
    (s.sched.agenda = [] → step s = .next (endStep { s with m.seq.cycle := (s.m.seq.cycle + 1) % 2 ^ 64 }))
    ∧ (∀ i rest t, s.sched.agenda = .event i :: rest → exec i (tick { s with sched.agenda := rest }) = .next t →
        step s = .next (endStep t))
    ∧ (∀ core pe rest, s.sched.agenda = .pe core pe :: rest → step s =
        .next (endStep (peCycle (tget 0 (core * 16 + pe) s.m.pe.starv == 63) core pe (tick { s with sched.agenda := rest }))))

/-- What reset leaves: every pasture FREE with FTO 10, PCAP 3 and its other registers 0, no core held, no unit running, the
shepherd cores' privileged registers 0, memory and scratchpads listing nothing, no lane lit, STARTST 0 and CAP 2,500 (R414, R444,
R450). The values 0 of units' registers, memory and scratchpads are the model's choice (log 3, 4, 5). -/
def Obligations.ResetState : Prop :=
  (∀ p, (pastOf State.reset.m p).st = .free ∧ (pastOf State.reset.m p).fto = 10 ∧ (pastOf State.reset.m p).pcap = 3
      ∧ (pastOf State.reset.m p).asid = 0 ∧ (pastOf State.reset.m p).xroot = 0 ∧ (pastOf State.reset.m p).quota = 0
      ∧ (pastOf State.reset.m p).ctxbase = 0 ∧ (pastOf State.reset.m p).asave = 0 ∧ (pastOf State.reset.m p).cset = 0)
  ∧ (∀ core, livePast State.reset.m core = none)
  ∧ (∀ u, (unitOf State.reset.m u).run = .idle ∧ ∀ r, sReg State.reset.m u r = 0)
  ∧ (∀ k, shepOf State.reset.m k = ⟨0, 0, 0, 0, 0, 0, 0, 0, 0, 0, []⟩)
  ∧ (∀ a, memGet State.reset.m.mem.hbm a = 0 ∧ memGet State.reset.m.mem.spad a = 0)
  ∧ State.reset.m.fab.tx = [] ∧ State.reset.m.host.phase = 0 ∧ State.reset.m.host.busy = false
  ∧ State.reset.pow.cap = 2500

/-- An invariant of every step: CAP lies between 500 and 2,500, every token bucket has a depth and a rate of at least 1 and no
more credit than its depth, and at most two pairs are selected (R32, R39, R450). -/
def Obligations.RunInvariant : Prop := ∀ s t, runOk s = true → step s = .next t → runOk t = true

/-- The reset state satisfies the invariant, and its memories are in canonical form. -/
def Obligations.ResetInvariant : Prop :=
  runOk State.reset = true ∧ Memory.wf State.reset.m.mem.hbm = true ∧ Memory.wf State.reset.m.mem.spad = true

/-- Writes of bytes at places keep the canonical form of memory and scratchpads, and change no other place: a place read
after a write gives the last byte written there, or what it gave before (R3, R189). -/
def Obligations.MemoryWrites : Prop :=
  ∀ m ls bs, ls.length = bs.length →
    (Memory.wf m.mem.hbm = true → Memory.wf (setBytes m ls bs).mem.hbm = true)
    ∧ (Memory.wf m.mem.spad = true → Memory.wf (setBytes m ls bs).mem.spad = true)
    ∧ (∀ a, memGet (setBytes m ls bs).mem.hbm a =
        (((ls.zip bs).reverse.find? (fun e => e.1 == .hbm a)).map (·.2)).getD (memGet m.mem.hbm a))
    ∧ (∀ a, memGet (setBytes m ls bs).mem.spad a =
        (((ls.zip bs).reverse.find? (fun e => e.1 == .spad a)).map (·.2)).getD (memGet m.mem.spad a))

/-! ## Integer and logic instructions -/

/-- R165 for the sixteen integer entries ADD to ABS, in a PE and in an S-form unit: each lane is the exact value of the
table, wrapped or saturated with OV, and a zero divisor gives 0 (the dividend for REM) with DZ. -/
def Obligations.IntegerResults : Prop :=
  ∀ i s r, intRow i = some r → instrOk i = true → starts s.m (intSrcs r.shape r.readD r.d r.a r.b) (.opd r.d) = true →
    exec i s = .next (intRes s r.shape r.readD r.d r.a r.b r.op)

/-- R166, R167 and R170 for AND, OR, XOR, ANDN, SHL, SHR, SHA, ROT, CLZ, POPC, BFX, BFI and LEA. -/
def Obligations.LogicResults : Prop :=
  ∀ i s r, logicRow i = some r → instrOk i = true → starts s.m (intSrcs r.shape r.readD r.d r.a r.b) (.opd r.d) = true →
    exec i s = .next (intRes s r.shape r.readD r.d r.a r.b r.op)

/-- CMP writes 1 to its predicate when the condition holds in every lane, else 0, and raises no flag (R168). -/
def Obligations.CompareResult : Prop :=
  ∀ s f p a b, instrOk (.cmp f p a b) = true → starts s.m [(.int f.shape.width, a), (.int f.shape.width, b)] (.pred p.val) = true →
    exec (.cmp f p a b) s = .next (wrotePred s [a, b] p.val
      (everyLane s.m f.shape.width (cmpRel f.shape.width f.cond) (payOf s.m (.int f.shape.width) a) (payOf s.m (.int f.shape.width) b)))

/-- A value instruction of classes 0x1_ to 0x3_ that starts changes nothing but its destination, the arithmetic status of its
context or unit, and the channels that it reads (ADD to LEA, FADD to FLOG2): KeepsRest lists every other part of the machine, and what a
result for an output adds to the fabric, to the requests and to the relation or node that it passes. -/
def Obligations.ValueFrame : Prop :=
  (∀ i s r t, (intRow i = some r ∨ logicRow i = some r) → actorOk s.m.cur = true →
    starts s.m (intSrcs r.shape r.readD r.d r.a r.b) (.opd r.d) = true → exec i s = .next t →
    KeepsRest s.m t.m r.d (r.a :: (r.b.toList ++ [r.d])) ∧ t.sched = s.sched ∧ t.pow = s.pow)
  ∧ (∀ i s r t, fltRow i = some r → actorOk s.m.cur = true →
    starts s.m (fltSrcs r.fmt r.readD r.d r.a r.b) (.opd r.d) = true →
    scalesOk s.m r.fmt r.xs r.readD r.carry r.d r.a r.b = true → exec i s = .next t →
    KeepsRest s.m t.m r.d (r.a :: (r.b.toList ++ [r.d])) ∧ t.sched = s.sched ∧ t.pow = s.pow)

/-! ## Floating point -/

/-- FADD, FSUB, FMUL, FMA, FNMA, FMIN, FMAX, FSGN, FDIV, FSQRT, FRCP, FRSQ, FEXP2 and FLOG2 give in each lane the rounded exact
value of their table, with the flags of R96 and R101, and carry XS (R172-R175). -/
def Obligations.FloatResults : Prop :=
  ∀ i s r, fltRow i = some r → starts s.m (fltSrcs r.fmt r.readD r.d r.a r.b) (.opd r.d) = true →
    scalesOk s.m r.fmt r.xs r.readD r.carry r.d r.a r.b = true →
    exec i s = .next (fltRes s r.fmt r.xs r.readD r.d r.a r.b r.op)

/-- The exact arithmetic of the table of R173 is exact: sum, product and negation of finite values are those of the rational
numbers, and a quotient is either exact or lies strictly inside the next 2^-64 of its unit, with the sticky mark set. -/
def Obligations.ExactArithmetic : Prop :=
  (∀ r x y p q, XR.toRat x = some p → XR.toRat y = some q →
    XR.toRat (xadd r x y).1 = some (p + q) ∧ XR.toRat (xmul x y).1 = some (p * q) ∧ XR.toRat (xneg x) = some (-p))
  ∧ (∀ a m e b n f, 0 < n → ∃ k st, xdiv (.fin a m e false) (.fin b n f false) = (.fin (a != b) k (e - f - 64) st, 0)
      ∧ (st = false ↔ (k : ℚ) * n = m * 2 ^ 64) ∧ (k : ℚ) * n ≤ m * 2 ^ 64 ∧ m * 2 ^ 64 < ((k : ℚ) + 1) * n)

/-- Rounding a value that a format represents gives its code and raises no flag, in every mode, with and without saturation
(R92, R96): every finite code of every format is a fixed point of Val and RoundTo. -/
def Obligations.RoundRepresentable : Prop :=
  ∀ F r sat x, x < 2 ^ FFmt.width F → isNanCode F x = false → isInfCode F x = false → roundTo (fval F x) F r sat = (x, 0)

/-- FCMP writes its predicate from the relation of every pair of lanes and sets NV only for a signalling NaN (R176); FDOT
rounds the exact sum of D's scalar and the lane products once (R177); FTOI saturates with NV and ITOF rounds (R180); SCALE
multiplies a scaled A and clears the bit (R181); FRED reduces in the tree of R104 (R184); FCLS sets one bit (R186). CVT and CVTI convert the elements of their part, a narrowing one keeping D's other elements (R179); QBLK writes the
quantised elements, marked scaled, and the scale register, and its PE rests three cycles (R105, R182). That CVT's SAT acts only where the
format does not widen (log 86) and that an immediate of CVTI is 128 bits wide (log 26) are the model's readings. -/
def Obligations.ConversionsAndOthers : Prop :=
  ((∀ s f p a b, let F := fmtOf f.shape; starts s.m [(.flt F, a), (.flt F, b)] (.pred p.val) = true →
    (srcVal s.m (.flt F) a).scaled = f.xs → (srcVal s.m (.flt F) b).scaled = f.xs →
    let n := 128 / F.width; let x := payOf s.m (.flt F) a; let y := payOf s.m (.flt F) b
    let hold := decide (∀ i < n, fcondHolds f.cond (xcmp (fval F (lane F.width x i)) (fval F (lane F.width y i))) = true)
    let nv := if (lanesOf F.width n x ++ lanesOf F.width n y).any (isSnan F) then fNV else 0
    exec (.fcmp f p a b) s = .next { s with m := sticky (setPred (readDone s.m [a, b] []) p.val hold) nv })
  ∧ (∀ s f d a b, let F := fmtOf f.shape; starts s.m [(.flt F, a), (.flt F, b), (.flt F, d)] (.opd d) = true →
    (srcVal s.m (.flt F) a).scaled = f.xs → (srcVal s.m (.flt F) b).scaled = false → (srcVal s.m (.flt F) d).scaled = f.xs →
    let n := 128 / F.width; let x := payOf s.m (.flt F) a; let y := payOf s.m (.flt F) b; let z := payOf s.m (.flt F) d % 2 ^ 32
    let sum := dotSum f.rnd (fval .f32 z) ((upto n).map (fun i => xmul (fval F (lane F.width x i)) (fval F (lane F.width y i))))
    let r := roundTo sum.1 .f32 f.rnd f.sat
    let nv := if (lanesOf F.width n x ++ lanesOf F.width n y).any (isSnan F) || isSnan .f32 z then fNV else 0
    exec (.fdot f d a b) s = .next (wrote s [a, b, d] (.opd d) ⟨BitVec.ofNat 128 r.1, false, f.xs⟩ (r.2 ||| sum.2 ||| nv)))
  ∧ (∀ s f d a, starts s.m (fltSrcs (fmtOf f.shape) false d a none) (.opd d) = true →
    scalesOk s.m (fmtOf f.shape) false false (false, false, false) d a none = true →
    exec (.ftoi f d a) s = .next (fltRes s (fmtOf f.shape) false false d a none (opFtoi (fmtOf f.shape) f.rnd f.zx)))
  ∧ (∀ s f d a, starts s.m (intSrcs f.shape false d a none) (.opd d) = true →
    exec (.itof f d a) s = .next (intRes s f.shape false d a none (fun x _ _ =>
      roundTo (xint (if f.zx then (x : Int) else asInt (fmtOf f.shape).width x)) (fmtOf f.shape) f.rnd false)))
  ∧ (∀ s f d a b, starts s.m [(.flt .f32, a), (.flt .f32, b)] (.opd d) = true →
    (srcVal s.m (.flt .f32) a).scaled = true → (srcVal s.m (.flt .f32) b).scaled = false →
    let r := onLanes 32 4 (fun x y _ => rounded ⟨.s32, .rne, f.sat, true⟩ [x, y] (xmul (fval .f32 x) (fval .f32 y)))
      (payOf s.m (.flt .f32) a) (payOf s.m (.flt .f32) b) 0
    exec (.scale f d a b) s = .next (wrote s [a, b] (.opd d) (Val.ofNat r.1) r.2))
  ∧ (∀ s f op d a, let F := fmtOf f.shape; starts s.m [(.flt F, a)] (.opd d) = true → (srcVal s.m (.flt F) a).scaled = f.xs →
    let r := treeUp (fredNode op f.rnd f.sat) (Nat.log2 (128 / F.width))
      ((lanesOf F.width (128 / F.width) (payOf s.m (.flt F) a)).map (widen F))
    exec (.fred f op d a) s = .next (wrote s [a] (.opd d) ⟨BitVec.ofNat 128 r.1, false, f.xs⟩ r.2))
  ∧ (∀ s f d a, let F := fmtOf f.shape; starts s.m [(.flt F, a)] (.opd d) = true →
    exec (.fcls f d a) s = .next (wroteV s [a] (.opd d) (Val.ofNat
      (packLanes F.width ((lanesOf F.width (128 / F.width) (payOf s.m (.flt F) a)).map (fun x => 2 ^ fclsBit F x)))))))
  ∧ ((∀ s f tf ff d a, let nar : Bool := tf.width < ff.width
    starts s.m ((.nar ff, a) :: (if nar then [(.whole, d)] else [])) (.opd d) = true → (srcVal s.m (.nar ff) a).scaled = f.xs →
    let conv := fun x => let r := roundTo (fval ff x) tf f.rnd (f.sat && decide (tf.width ≤ ff.width)); (r.1, r.2 ||| (if isSnan ff x then fNV else 0))
    let r := convElems tf.width ff.width f.part.val conv (payOf s.m (.nar ff) a) (payOf s.m .whole d)
    instrOk (.cvt f tf ff d a) = true →
    exec (.cvt f tf ff d a) s = .next (wrote s (a :: (if nar then [d] else [])) (.opd d) ⟨BitVec.ofNat 128 r.1, false, f.xs⟩ r.2))
  ∧ (∀ s f tf ff d a, let nar : Bool := tf.width < ff.width
    starts s.m ((.whole, a) :: (if nar then [(.whole, d)] else [])) (.opd d) = true →
    let r := convElems tf.width ff.width f.part.val (intConv tf ff f.sat) (payOf s.m .whole a) (payOf s.m .whole d)
    instrOk (.cvti f tf ff d a) = true →
    exec (.cvti f tf ff d a) s = .next (wrote s (a :: (if nar then [d] else [])) (.opd d) (Val.ofNat r.1) r.2))
  ∧ (∀ s f dn an core pe frame slot bank keep, s.m.cur = .pe core pe frame slot bank keep → actorOk s.m.cur = true →
    an.val ≤ 16 → dn.val + qElems f.fmt ≤ 31 →
    let ctx := frame * 4 + bank
    let vs := (upto 16).map (fun i => peReg s.m core pe ctx (an.val + i))
    vs.any (·.poison) = false → vs.any (·.scaled) = false →
    let g := qblkGroup f.fmt (vs.flatMap (fun v => lanesOf 32 4 v.pay.toNat))
    ∃ t, exec (.qblk f (.r dn) (.r an)) s = .next t
      ∧ (∀ j < qElems f.fmt, peReg t.m core pe ctx (dn.val + j)
          = ⟨BitVec.ofNat 128 (packLanes (qFmt f.fmt).width g.1 / 2 ^ (128 * j)), false, true⟩)
      ∧ peReg t.m core pe ctx (dn.val + qElems f.fmt) = ⟨BitVec.ofNat 128 g.2.1, false, false⟩
      ∧ tget 0 (core * 16 + pe) t.m.pe.busy = 3))

/-- SEL gives A with its side bits when the predicate is 1 and B otherwise (R169); LIMM gives its literal, and LIMM.mid and
LIMM.top replace bits [43:22] and [63:44] of D (R171). SHUF, BCST, PACK and UNPK move lanes and carry A's scaled bit (R185); RAND gives Rand32 of the lanes (R111, R187). -/
def Obligations.SelectionAndLanes : Prop :=
  ((∀ s f d a b, starts s.m [(.whole, a), (.whole, b)] (.opd d) = true →
    exec (.sel f d a b) s = .next (wroteV s [a, b] (.opd d)
      (if getPred s.m f.p.val then srcVal s.m .whole a else srcVal s.m .whole b)))
  ∧ (∀ s v d, starts s.m [] (.opd d) = true → exec (.limm .low v d) s = .next (wroteV s [] (.opd d) (Val.ofNat v.toNat)))
  ∧ (∀ s v d, starts s.m [(.whole, d)] (.opd d) = true → exec (.limm .mid v d) s = .next (wroteV s [d] (.opd d)
      (Val.ofNat (payOf s.m .whole d % 2 ^ 22 + v.toNat * 2 ^ 22 + payOf s.m .whole d / 2 ^ 44 * 2 ^ 44))))
  ∧ (∀ s v d, v.toNat < 2 ^ 20 → starts s.m [(.whole, d)] (.opd d) = true → exec (.limm .top v d) s = .next (wroteV s [d] (.opd d)
      (Val.ofNat (payOf s.m .whole d % 2 ^ 44 + v.toNat * 2 ^ 44 + payOf s.m .whole d / 2 ^ 64 * 2 ^ 64)))))
  ∧ ((∀ s f d a b, let w := f.shape.width; starts s.m [(.int w, a), (.int w, b)] (.opd d) = true →
    exec (.shuf f d a b) s = .next (wroteV s [a, b] (.opd d) ⟨BitVec.ofNat 128 (packLanes w ((upto (128 / w)).map (fun i =>
      let j := lane w (payOf s.m (.int w) b) i
      if j < 128 / w then lane w (payOf s.m (.int w) a) j else 0))), false, (srcVal s.m (.int w) a).scaled⟩))
  ∧ (∀ s f d a b, let w := f.shape.width; starts s.m [(.int w, a), (.int w, b)] (.opd d) = true →
    exec (.bcst f d a b) s = .next (wroteV s [a, b] (.opd d) ⟨BitVec.ofNat 128 (packLanes w ((upto (128 / w)).map (fun _ =>
      let j := lane w (payOf s.m (.int w) b) 0
      if j < 128 / w then lane w (payOf s.m (.int w) a) j else 0))), false, (srcVal s.m (.int w) a).scaled⟩))
  ∧ (∀ s f d a b, let w := f.shape.width; starts s.m [(.int w, a), (.int w, b)] (.opd d) = true →
    (srcVal s.m (.int w) a).scaled = (srcVal s.m (.int w) b).scaled →
    exec (.pack f d a b) s = .next (wroteV s [a, b] (.opd d) ⟨BitVec.ofNat 128 (packLanes (w / 2)
      (((upto (128 / w)).map (fun i => lane w (payOf s.m (.int w) a) i % 2 ^ (w / 2)))
        ++ ((upto (128 / w)).map (fun i => lane w (payOf s.m (.int w) b) i % 2 ^ (w / 2))))), false, (srcVal s.m (.int w) a).scaled⟩))
  ∧ (∀ s f d a, let w := f.shape.width; starts s.m [(.int w, a)] (.opd d) = true →
    exec (.unpk f d a) s = .next (wroteV s [a] (.opd d) ⟨BitVec.ofNat 128 (packLanes (2 * w) ((upto (64 / w)).map (fun i =>
      let x := lane w (payOf s.m (.int w) a) ((if f.sel = .hi ∨ f.sel = .hisx then 64 / w else 0) + i)
      if f.sel = .losx ∨ f.sel = .hisx then (BitVec.ofInt (2 * w) (asInt w x)).toNat else x))), false, (srcVal s.m (.int w) a).scaled⟩))
  ∧ (∀ s f d a b, starts s.m (intSrcs .s32 false d a (some b)) (.opd d) = true →
    exec (.rand f d a b) s = .next (intRes s .s32 false d a (some b) (fun x y _ =>
      (if f.bit then (roundTo (.fin false (rand32 x y / 256) (-24) false) .f32 .rne false).1 else rand32 x y, 0)))))

/-- In a PE a poisoned source ends an entry of classes 0x1_ to 0x3_: the first poison in the order A, B, D, its MERGE raised for
each further one, goes to D with no flag, or to the fault log and a trap 0x07 where D is no channel and no register (R89). The scale check: the first floating-point source in the order A, B, D whose scaled bit is not the one that the entry and
XS ask for turns the result into poison 0x05 with that bit as its detail, and no flag is raised (R107). -/
def Obligations.PoisonAndScales : Prop :=
  (∀ i s core pe frame slot bank keep d rd, s.m.cur = .pe core pe frame slot bank keep →
    ((∃ r, (intRow i = some r ∨ logicRow i = some r) ∧ d = r.d ∧ rd = intSrcs r.shape r.readD r.d r.a r.b)
      ∨ (∃ r, fltRow i = some r ∧ d = r.d ∧ rd = fltSrcs r.fmt r.readD r.d r.a r.b)) →
    ∀ v ps, (rd.map (fun x => srcVal s.m x.1 x.2)).filter (·.poison) = v :: ps →
    let m := deqSrcs s.m (rd.map (·.2))
    let x : Val := { v with pay := BitVec.ofNat 128 (setBits v.pay.toNat 28 3 (min 7 (bits v.pay.toNat 28 3 + ps.length))) }
    exec i s = .next { s with m :=
      match d with
      | .outC n => emitOut m core pe n.val ⟨x, false, false, bank⟩
      | d => match regCode d with
        | some c => setPeReg m core pe (frame * 4 + bank) c x
        | none => trapPoison (faultRec m (pastOfActor m s.m.cur) s.m.cur (poisonRec x 0)) s.m.cur x })
  ∧ (∀ i s r, fltRow i = some r → starts s.m (fltSrcs r.fmt r.readD r.d r.a r.b) (.opd r.d) = true →
    let chk := (r.a, r.carry.1) :: ((match r.b with | some b => [(b, r.carry.2.1)] | none => []) ++ if r.readD then [(r.d, r.carry.2.2)] else [])
    ∀ o c, chk.find? (fun x => (srcVal s.m (.flt r.fmt) x.1).scaled != (x.2 && r.xs)) = some (o, c) →
    exec i s = .next (wroteV s ((fltSrcs r.fmt r.readD r.d r.a r.b).map (·.2)) (.opd r.d)
      (poison (readDone s.m ((fltSrcs r.fmt r.readD r.d r.a r.b).map (·.2)) [r.d]) s.m.cur 0x05
        (if (srcVal s.m (.flt r.fmt) o).scaled then 1 else 0))))

/-! ## Tokens, triggers, activations -/

/-- NOP has no effect (R124); MOV passes the value and, under .pk, the head's EOS and FLAG (R125); SEND takes its tag from
B[4:0] (R126); EOS emits an EOS token (R129); POISON forms a poison of its literal cause with A's detail (R133). -/
def Obligations.TokenResults : Prop :=
  (∀ s, exec .nop s = .next s)
  ∧ (∀ s f d a, starts s.m [(.whole, a)] (.opd d) = true →
    let k := if f.bit then headKind s.m a else (false, false)
    let m := readDone s.m [a] [d]
    exec (.mov f d a) s = .next { s with m := putTok m (.opd d) ⟨srcVal s.m .whole a, k.1, k.2, firingBank m⟩ })
  ∧ (∀ s d a b, starts s.m [(.whole, a), (.whole, b)] (.opd d) = true →
    let n := payOf s.m .whole b
    let m := readDone s.m [a, b] [d]
    let k : Token := ⟨srcVal s.m .whole a, n.testBit 0, n.testBit 1, if n.testBit 2 then n / 8 % 4 else firingBank m⟩
    exec (.send d a b) s = .next { s with m := putTok m (.opd d) k })
  ∧ (∀ s d, exec (.eos d) s = .next { s with m := putTok s.m (.opd d) ⟨⟨0, false, false⟩, true, false, firingBank s.m⟩ })
  ∧ (∀ s f d a, starts s.m [(.whole, a)] (.opd d) = true →
    exec (.poison f d a) s = .next (wroteV s [a] (.opd d)
      (poison (readDone s.m [a] [d]) s.m.cur f.cause.val (payOf s.m .whole a % 2 ^ 81))))

/-- TAGR reads the head's tag and takes no token (R128); CHQ reads the occupancy of an input and the credit of an output
(R134), where an unbound output reads UNB and the cap of 20 on a count is log 25; PSET writes the predicates that its mask
selects (R130); PLOG combines two predicates (R131). DEQ discards its n tokens from the head of a channel without a spill ring and without a corner-turn node, and leaves
memory as it was when none of them is poisoned (R127). -/
def Obligations.TagsAndPredicates : Prop :=
  (∀ s core pe frame slot bank keep, s.m.cur = .pe core pe frame slot bank keep → actorOk s.m.cur = true →
    (∀ d n t, headTok s.m (chanKey core pe n.val) = some t →
      let tag := (if t.val.poison then 32 else 0) + (if t.flag then 16 else 0) + (if t.eos then 8 else 0)
        + (if t.val.scaled then 4 else 0) + t.ctx % 4
      exec (.tagr d (.inC n)) s = .next { s with m := putRes s.m (.opd d) (Val.ofNat tag) })
    ∧ (∀ d (a : Fin 16), a.val < 8 →
      let c := chanOf s.m (chanKey core pe a.val)
      let word := min 20 c.fifo.length + (if ringCap c = 0 then 0 else 64) + (if bindDL c.binding then 128 else 0)
        + c.ring.length % 2 ^ 32 * 2 ^ 32
      exec (.chq d a) s = .next { s with m := putRes s.m (.opd d) (Val.ofNat word) })
    ∧ (∀ d (a : Fin 16), 8 ≤ a.val →
      let word := match creditOf s.m core pe (a.val - 8) with | none => 32 | some n => min 20 n
      exec (.chq d a) s = .next { s with m := putRes s.m (.opd d) (Val.ofNat word) })
    ∧ (∀ a b, ∃ t, exec (.pset a b) s = .next t ∧ t.m.mem = s.m.mem ∧ ∀ i < 8,
      bitAt (pePred t.m core pe (frame * 4 + bank)) i
        = if bitAt a.val i then bitAt b.val i else bitAt (pePred s.m core pe (frame * 4 + bank)) i)
    ∧ (∀ f d a b, ∃ t, exec (.plog f d a b) s = .next t ∧ t.m.mem = s.m.mem ∧ ∀ i < 8,
      bitAt (pePred t.m core pe (frame * 4 + bank)) i
        = if i = d.val then
            (let x := bitAt (pePred s.m core pe (frame * 4 + bank)) a.val
             let y := bitAt (pePred s.m core pe (frame * 4 + bank)) b.val
             match f.op with | .and => x && y | .or => x || y | .xor => x ^^ y | .andn => x && !y)
          else bitAt (pePred s.m core pe (frame * 4 + bank)) i))
  ∧ (∀ s core pe frame slot bank keep (f : DeqF) (ch : Fin 8), s.m.cur = .pe core pe frame slot bank keep →
    let c := chanOf s.m (chanKey core pe ch.val)
    c.ring = [] → c.node = 0 → c.emit = [] → f.n.val ≤ c.fifo.length → (c.fifo.take f.n.val).all (fun t => !t.val.poison) = true →
    ∃ t, exec (.deq f (.inC ch)) s = .next t ∧ (chanOf t.m (chanKey core pe ch.val)).fifo = c.fifo.drop f.n.val
      ∧ t.m.mem = s.m.mem ∧ (∀ k, k ≠ chanKey core pe ch.val → chanOf t.m k = chanOf s.m k))

/-- DONE marks its PE's share; the last participating PE of a streaming frame releases the bank, and the activation's section
counts one ended activation more (R23, R132); in an atomic frame with buffered stores the context waits for its commit (R22).
The oldest record of a ready queue whose frame has a free bank and that is not assigned to another core (R37) is dispatched to the lowest free bank of its frame, whose registers and predicates then read 0
(R119); where no PE participates, the activation has ended with its dispatch. That a later record passes one whose frame has no free bank
is log 31, and the end at the dispatch log 84: readings of the model. -/
def Obligations.DoneAndDispatch : Prop :=
  (∀ s core pe frame slot bank keep b, s.m.cur = .pe core pe frame slot bank keep → actorOk s.m.cur = true →
    let key := core * 8 + frame * 4 + bank
    tfind key s.m.pe.binds = some b →
    let img := frameImg s.m core frame
    let done := setBits b.done pe 1 1
    (∀ q < 16, participates img q = true → bitAt done q = false →
      exec .done s = .next { s with m.pe.binds := tset key { b with done := done } s.m.pe.binds })
    ∧ ((∀ q < 16, participates img q = true → bitAt done q = true) →
      (∀ id sec, imgAtomic img = false → b.kind = .record id → tfind id s.m.seq.sections = some sec →
        ∃ t, exec .done s = .next t ∧ tfind key t.m.pe.binds = none
          ∧ (tfind id t.m.seq.sections).map (·.ended) = some (sec.ended + 1)
          ∧ (tfind id t.m.seq.sections).map (·.aborted) = some sec.aborted)
      ∧ (imgAtomic img = true → tget [] key s.m.pe.commit ≠ [] → (tget [] key s.m.pe.commit).all (fun e => e.poison.isNone) = true →
        exec .done s = .next { s with m.pe.binds := tset key { b with done := done, ending := true } s.m.pe.binds })))
  ∧ (∀ s core p r b, livePast s.m core = some p → running s.m p = true →
    (tget [] core s.m.pe.rq).find? (fun r => !assigned s.m core r && (freeBank s.m core r.frame).isSome) = some r → freeBank s.m core r.frame = some b →
    ((upto 16).any (participates (frameImg s.m core r.frame)) = true → ∃ t, exec (.activationDispatch core) s = .next t
      ∧ tfind (core * 8 + r.frame * 4 + b) t.m.pe.binds = some ⟨r.act, .record r.sect, 0, false, none⟩
      ∧ tget [] core t.m.pe.rq = (tget [] core s.m.pe.rq).erase r
      ∧ (r.frame < 2 → b < 4 → ∀ pe < 16, (∀ code < 64, peReg t.m core pe (r.frame * 4 + b) code = ⟨0, false, false⟩)
          ∧ pePred t.m core pe (r.frame * 4 + b) = 0)
      ∧ t.m.mem = s.m.mem)
    ∧ (∀ sec, (upto 16).any (participates (frameImg s.m core r.frame)) = false → tfind r.sect s.m.seq.sections = some sec →
      ∃ t, exec (.activationDispatch core) s = .next t ∧ tfind (core * 8 + r.frame * 4 + b) t.m.pe.binds = none
        ∧ (tfind r.sect t.m.seq.sections).map (·.ended) = some (sec.ended + 1)
        ∧ (tfind r.sect t.m.seq.sections).map (·.aborted) = some sec.aborted))

/-- The next block and tile of a section become a record of their target's ready queue, when the dispatcher's round-robin comes
to the section (its rotation is the model's, log 106), while the queue has a place that no assigned record keeps, and once the accesses that happen before the ARM are
performed (R410 in the model's reading, log 105): blocks in the order in which the descriptor first names them within a tile (log 94), targets in turn by tile
number (R150). Averaging: a period's sample records moves only where none is still to make (R36), of movable blocks, to targets that can take them. A move waits while its target frame's install runs, takes its record from
the sender's queue to the end of the receiver's (the model's choice, log 107) once both frames hold the same image, and otherwise leaves it with the sender
(R37). A pre-emption discards the moves of its pasture's period (R43). -/
def Obligations.RecordsPlaced : Prop :=
  (∀ s id sec b e, tfind id s.m.seq.sections = some sec → sec.complete = false → sec.tile < sec.count →
    running s.m sec.past = true → (∀ u < 144, (if sec.shep then u = 128 + sec.cluster else u < 128) → startHeld s.m u sec.graph id = false) →
    ((sec.entries.map (·.1)).eraseDups)[sec.blk]? = some b →
    let es := sec.entries.filter (fun e => e.1 == b)
    es[sec.tile % es.length]? = some e → queueLoad s.m e.2.2 < 64 → nextSection s.m sec.cluster = some id →
    ∃ t, exec (.recordPlacement id) s = .next t
      ∧ tget [] e.2.2 t.m.pe.rq = tget [] e.2.2 s.m.pe.rq ++ [⟨e.2.1, sec.tile, id⟩]
      ∧ (∃ sec2, tfind id t.m.seq.sections = some sec2 ∧ sec2.created = sec.created + 1 ∧ sec2.count = sec.count
        ∧ (if sec.blk + 1 < ((sec.entries.map (·.1)).eraseDups).length then sec2.blk = sec.blk + 1 ∧ sec2.tile = sec.tile
           else sec2.blk = 0 ∧ sec2.tile = sec.tile + 1))
      ∧ t.m.mem = s.m.mem)
  ∧ ((∀ s cl, tget [] cl s.m.seq.avg ≠ [] → exec (.averagingSample cl) s = .next s)
  ∧ (∀ s cl, tget [] cl s.m.seq.avg = [] → ∃ t, exec (.averagingSample cl) s = .next t ∧ t.m.pe = s.m.pe ∧ t.m.mem = s.m.mem
      ∧ ∀ v ∈ tget [] cl t.m.seq.avg, v.rcd ∈ tget [] v.src s.m.pe.rq ∧ movableRec s.m v.src v.rcd = true
        ∧ targetTakes s.m v.src v.dst v.rcd = true)
  ∧ (∀ s cl v rest, tget [] cl s.m.seq.avg = v :: rest → (livePast s.m v.src).any (running s.m) = true →
      thas (frameKey v.dst v.rcd.frame) s.m.seq.installs = false →
      frameImg s.m v.dst v.rcd.frame = frameImg s.m v.src v.rcd.frame → v.rcd ∈ tget [] v.src s.m.pe.rq → v.src ≠ v.dst →
      ∃ t, exec (.averagingMove cl) s = .next t ∧ tget [] cl t.m.seq.avg = rest
        ∧ tget [] v.src t.m.pe.rq = (tget [] v.src s.m.pe.rq).erase v.rcd
        ∧ tget [] v.dst t.m.pe.rq = tget [] v.dst s.m.pe.rq ++ [v.rcd] ∧ t.m.mem = s.m.mem)
  ∧ (∀ s cl v rest, tget [] cl s.m.seq.avg = v :: rest → (livePast s.m v.src).any (running s.m) = false →
      ∃ t, exec (.averagingMove cl) s = .next t ∧ t.m.pe = s.m.pe ∧ t.m.mem = s.m.mem
        ∧ tget [] cl t.m.seq.avg = rest.filter (fun x => (livePast s.m x.src).any (running s.m)))
  ∧ (∀ s cl v rest, tget [] cl s.m.seq.avg = v :: rest → (livePast s.m v.src).any (running s.m) = true →
      (thas (frameKey v.dst v.rcd.frame) s.m.seq.installs = true → exec (.averagingMove cl) s = .next s)
      ∧ (thas (frameKey v.dst v.rcd.frame) s.m.seq.installs = false → frameImg s.m v.dst v.rcd.frame ≠ frameImg s.m v.src v.rcd.frame →
        ∃ t, exec (.averagingMove cl) s = .next t ∧ tget [] cl t.m.seq.avg = rest ∧ t.m.pe = s.m.pe ∧ t.m.mem = s.m.mem))
  ∧ (∀ s cl, tget [] cl s.m.seq.avg = [] → exec (.averagingMove cl) s = .next s))

/-- Every cycle of a running PE moves its rotation and its starvation counter on, also one in which it stalls, and selects at
most two pairs. A StarveCycle selects first the ready pair that has waited longest (R32, R34). A token bucket: a step raises the level
by RATE up to DEPTH and puts a written RATE into effect. A setting cuts a level above the new DEPTH at once (R39, R40). -/
def Obligations.PowerBuckets : Prop :=
  (∀ s core pe p, livePast s.m core = some p → running s.m p = true → tget 0 (core * 16 + pe) s.m.pe.starv = 63 →
    ∃ t, exec (.starveCycle core pe) s = .next t
      ∧ tget 0 (core * 16 + pe) t.m.pe.starv = 0
      ∧ tget 0 (core * 16 + pe) t.m.pe.rot = (tget 0 (core * 16 + pe) s.m.pe.rot + 1) % 4
      ∧ t.sched.firing.length ≤ 2
      ∧ (peHeld s.m p core pe = true → t.sched.firing = [])
      ∧ (∀ x y, t.sched.firing.head? = some x → y ∈ readyPairs s.m core pe →
          tget 0 (waitKey core pe y) s.m.pe.waits ≤ tget 0 (waitKey core pe (x.slot, x.bank)) s.m.pe.waits)
      ∧ (peHeld s.m p core pe = false → tget 0 (core * 16 + pe) s.m.pe.busy = 0 → t.sched.firing = [] → readyPairs s.m core pe = []))
  ∧ (∀ s core pe p x, livePast s.m core = some p → running s.m p = true →
      let t := peCycle x core pe s
      tget 0 (core * 16 + pe) t.m.pe.starv = (tget 0 (core * 16 + pe) s.m.pe.starv + 1) % 64
      ∧ tget 0 (core * 16 + pe) t.m.pe.rot = (tget 0 (core * 16 + pe) s.m.pe.rot + 1) % 4 ∧ t.sched.firing.length ≤ 2)
  ∧ (∀ s port b, bucketOf s port = b →
    (∃ t, exec (.bucketStep port) s = .next t ∧ bucketOf t port = ⟨b.depth, b.newRate, min b.depth (b.level + b.newRate), b.newRate⟩
      ∧ t.m = s.m ∧ ∀ q, q ≠ port → bucketOf t q = bucketOf s q)
    ∧ (∀ depth rate, 0 < depth → 0 < rate → ∃ t, exec (.bucketSetting port depth rate) s = .next t
      ∧ bucketOf t port = ⟨depth, b.rate, min b.level depth, rate⟩ ∧ t.m = s.m ∧ ∀ q, q ≠ port → bucketOf t q = bucketOf s q))

/-- A token of a PE output enters its input when it is the first of its source and the input accepts it: it stands at the end of
the FIFO of an input without a node (R113, R117). -/
def Obligations.TokenArrives : Prop :=
  ∀ s n t, s.m.fab.transit[n]? = some t → t.dst < 100000 → t.src < 200000 →
    (s.m.fab.transit.take n).all (fun x => x.src != t.src || x.dst != t.dst) = true →
    let c := chanOf s.m t.dst
    c.pendNode = none → c.node = 0 → c.ring = [] → c.unw = 0 → c.fifo.length < fifoCap c →
    ∃ u, exec (.tokenArrival n) s = .next u ∧ chanOf u.m t.dst = { c with fifo := c.fifo ++ [t.tok] }
      ∧ u.m.fab.transit = s.m.fab.transit.eraseIdx n ∧ u.m.mem = s.m.mem ∧ u.m.pe.regs = s.m.pe.regs

/-! ## Sequencing -/

/-- The next address of R65 for each value of NAS, in a unit without an open loop: sequence, jump, conditional jump, call,
return, wait for an empty Pending, counted jump on s31 once no result for it is outstanding, and halt. LOOP opens a loop over the next L words, or skips them when its count is 0 (R155); LBRK leaves the innermost loop when its
condition holds (R156); JIND jumps to A[15:0], pushing the return address under .call (R157). -/
def Obligations.Sequencing : Prop :=
  (∀ m u, m.ctl = .seq → unitWaits m u = false → (unitOf m u).loops = [] →
    let x := unitOf m u
    let T := x.seqf % 2 ^ 16
    let go := fun (m : Mach) (n : Nat) => setUnit m u { unitOf m u with w := n, run := .running }
    let m0 : Mach := { m with cur := .idle, ctl := .seq }
    (x.seqf / 2 ^ 21 % 8 = 0 → afterWord u m = go m0 (x.w + 1))
    ∧ (x.seqf / 2 ^ 21 % 8 = 1 → afterWord u m = go m0 T)
    ∧ (x.seqf / 2 ^ 21 % 8 = 2 → afterWord u m
        = go m0 (if x.p.getLsbD (x.seqf / 2 ^ 18 % 8) ^^ x.seqf.testBit 17 then T else x.w + 1))
    ∧ (x.seqf / 2 ^ 21 % 8 = 3 → x.link.length < 8 → afterWord u m = go (setUnit m0 u { x with link := (x.w + 1) :: x.link }) T)
    ∧ (∀ r rest, x.seqf / 2 ^ 21 % 8 = 4 → x.link = r :: rest → afterWord u m = go (setUnit m0 u { x with link := rest }) r)
    ∧ (x.seqf / 2 ^ 21 % 8 = 5 → pendingOf m u = [] → afterWord u m = go m0 (x.w + 1))
    ∧ (x.seqf / 2 ^ 21 % 8 = 5 → pendingOf m u ≠ [] → afterWord u m = setUnit m0 u { x with run := .waiting })
    ∧ (x.seqf / 2 ^ 21 % 8 = 6 → sOutstanding m u 31 = true → afterWord u m = setUnit m0 u { x with run := .waiting })
    ∧ (x.seqf / 2 ^ 21 % 8 = 6 → sOutstanding m u 31 = false → sReg m u 31 ≤ 1 → afterWord u m = go (if sReg m u 31 = 0 then m0 else setSReg m0 u 31 0) (x.w + 1))
    ∧ (x.seqf / 2 ^ 21 % 8 = 6 → sOutstanding m u 31 = false → 1 < sReg m u 31 → afterWord u m = go (setSReg m0 u 31 (sReg m u 31 - 1)) T)
    ∧ (x.seqf / 2 ^ 21 % 8 = 7 → afterWord u m = haltUnit m0 u 0)
    ∧ (x.seqf / 2 ^ 21 % 8 = 3 → x.link.length = 8 → afterWord u m = trapForm m0 u x.w 0x01 0x01)
    ∧ (x.seqf / 2 ^ 21 % 8 = 4 → x.link = [] → afterWord u m = trapForm m0 u x.w 0x01 0x02))
  ∧ ((∀ s u w a b, sStarts s.m u w [a] [] = true → payOf s.m .whole a % 2 ^ 32 = 0 →
    exec (.loop a b) s = .next { s with m := { readDone s.m [a] [] with ctl := .jump (w + b.val + 1) } })
  ∧ (∀ s u w a b, sStarts s.m u w [a] [] = true → payOf s.m .whole a % 2 ^ 32 ≠ 0 →
    let m := readDone s.m [a] []
    let x := unitOf m u
    x.loops.length < 4 → (∀ t ∈ x.loops.head?, w + b.val ≤ t.fin) →
    exec (.loop a b) s = .next { s with m := setUnit m u { x with loops := ⟨w + 1, w + b.val, payOf s.m .whole a % 2 ^ 32⟩ :: x.loops } })
  ∧ (∀ s u w c ng (n : Fin 8) t rest, s.m.cur = .unit u w → (unitOf s.m u).loops = t :: rest →
    (c = true → bitAt (unitOf s.m u).p.toNat n.val = !ng) →
    exec (.lbrk c ng n) s = .next { s with m := { setUnit s.m u { unitOf s.m u with loops := rest } with ctl := .jump (t.fin + 1) } })
  ∧ (∀ s u w ng (n : Fin 8), s.m.cur = .unit u w → bitAt (unitOf s.m u).p.toNat n.val = ng → exec (.lbrk true ng n) s = .next s)
  ∧ (∀ s u w a, sStarts s.m u w [a] [] = true →
    exec (.jind ⟨false⟩ a) s = .next { s with m := { readDone s.m [a] [] with ctl := .jump (payOf s.m .whole a % 2 ^ 16) } })
  ∧ (∀ s u w a, sStarts s.m u w [a] [] = true →
    let m := readDone s.m [a] []
    (unitOf m u).link.length < 8 → exec (.jind ⟨true⟩ a) s = .next { s with m :=
      { setUnit m u { unitOf m u with link := (w + 1) :: (unitOf m u).link } with ctl := .jump (payOf s.m .whole a % 2 ^ 16) } }))

/-- ARM makes a section of the descriptor's entries and the tile count, LAUNCH starts a graph at word 0 of A in a free graph
context with s0 the argument and s1 its base; both allocate the lowest free ticket, whose generation rises, and write the
ticket word to D (R137, R145, R147, R150, R151). A failed check writes the failure word of R145: those of ARM's checks 1 to 6 and
NO_TICKET, and NO_CLUSTER, IMAGE_READ, NO_CONTEXT and NO_TICKET of LAUNCH, in this order. LAUNCH translates its graph in the space in
which the child fetches it (log 28), and ARM waits for what comes before its reads of the descriptor (log 117): readings of the model. -/
def Obligations.ArmAndLaunch : Prop :=
  (∀ s u w f d a b, sStarts s.m u w [a, b] [d] = true →
    let m0 := readDone s.m [a, b] [d]
    let m := { m0 with free := m0.free + 1 }
    let p := pastOfActor m (.unit u w)
    let va := payOf s.m .whole a % 2 ^ 56
    (readsHeld m0 (.unit u w) va armSize = true → exec (.arm f d a b) s = .next { s with m := stall m0 })
    ∧ (readsHeld m0 (.unit u w) va armSize = false →
      (∀ c, armCheck m (.unit u w) p va (payOf s.m .whole b) = .error c →
        exec (.arm f d a b) s = .next { s with m := seqResult m u d f (2 ^ 63 + c) })
      ∧ (∀ es, armCheck m (.unit u w) p va (payOf s.m .whole b) = .ok es →
        (freeTicket m u = none → exec (.arm f d a b) s = .next { s with m := seqResult m u d f (2 ^ 63 + 0x21) })
        ∧ (∀ e, freeTicket m u = some e →
          let g := ((tget ⟨0, false, false, 0⟩ e (unitOf m u).tickets).gen + 1) % 65536
          ∃ t, exec (.arm f d a b) s = .next t
            ∧ tfind m.ids t.m.seq.sections = some ⟨p, unitCluster u (pastOf m p).home, sectOf m (.unit u w), isShepherd u, es,
                payOf s.m .whole b, 0, 0, 0, 0, 0, false⟩
            ∧ tfind e (unitOf t.m u).tickets = some ⟨g, true, false, m.ids⟩
            ∧ (∀ n, d = .r n → sReg t.m u n.val = g * 65536 + e) ∧ t.m.mem = m.mem))))
  ∧ (∀ s u w f d a b ls c e, sStarts s.m u w [a, b] [d] = true →
    let m := readDone s.m [a, b] [d]
    let A := payOf s.m .whole a
    let p := pastOfActor m (.unit u w)
    let cl := if bitAt A 60 then bits A 56 4 else unitCluster u (pastOf m p).home
    (unitOf m u).run = .running → (coresOf m p).any (fun c => clusterOf c == cl) = true →
    virtLocs m (.unit (8 * cl) 0) p (A % 2 ^ 56) 8 .fetch = .ok ls → freeGraphCtx m cl = some c → freeTicket m u = some e →
    let g := ((tget ⟨0, false, false, 0⟩ e (unitOf m u).tickets).gen + 1) % 65536
    ∃ t, exec (.launch f d a b) s = .next t
      ∧ (unitOf t.m (8 * cl + c)).run = .running ∧ (unitOf t.m (8 * cl + c)).w = 0
      ∧ (unitOf t.m (8 * cl + c)).base = A % 2 ^ 56 ∧ (unitOf t.m (8 * cl + c)).past = p
      ∧ sReg t.m (8 * cl + c) 0 = payOf s.m .whole b % 2 ^ 64 ∧ sReg t.m (8 * cl + c) 1 = A % 2 ^ 56
      ∧ tfind e (unitOf t.m u).tickets = some ⟨g, true, true, m.ids⟩
      ∧ (∀ n, d = .r n → sReg t.m u n.val = 2 ^ 62 + g * 65536 + e) ∧ t.m.mem = m.mem)
  ∧ (∀ s u w f d a b, sStarts s.m u w [a, b] [d] = true →
    let m := readDone s.m [a, b] [d]
    let A := payOf s.m .whole a
    let p := pastOfActor m (.unit u w)
    let cl := if bitAt A 60 then bits A 56 4 else unitCluster u (pastOf m p).home
    let fails := fun c => exec (.launch f d a b) s = .next { s with m := seqResult m u d f (2 ^ 63 + c) }
    ((coresOf m p).any (fun c => clusterOf c == cl) = false → fails 0x31)
    ∧ ((coresOf m p).any (fun c => clusterOf c == cl) = true →
      (∀ x, virtLocs m (.unit (8 * cl) 0) p (A % 2 ^ 56) 8 .fetch = .error x → fails 0x12)
      ∧ (∀ ls, virtLocs m (.unit (8 * cl) 0) p (A % 2 ^ 56) 8 .fetch = .ok ls →
        (freeGraphCtx m cl = none → fails 0x30)
        ∧ (∀ c, freeGraphCtx m cl = some c → freeTicket m u = none → fails 0x21))))

/-- GETC writes the word of its selector to D and SETC writes the selector's fields, where the selector exists for the unit and,
for SETC, is not read-only (R140, R153, R414). A reserved selector and SETC of a read-only one trap with 0x02 as the word is decoded (R76, R153), so
before an index is judged (the model's reading, log 95); an index beyond the register's range, a context or group outside the pasture, and a selector
of R414 outside the shepherd core trap with 0x03. What SETC writes is what GETC reads back, field by field: SSTAT, ASTAT, STATUS.AE alone, SPC, SST and TVEC of the shepherd core's own
cluster, and STATE (the transitions of R415, every other write leaves it), ASID, FTO, XROOT, QUOTA, PCAP, CTXBASE, ASAVE and CSET of a pasture (R4, R140, R414, R416). -/
def Obligations.ControlRegisters : Prop :=
  ((∀ s u w d a b v, sStarts s.m u w [b] [d] = true →
    let m := readDone s.m [b] [d]
    getcVal m u a.val (payOf s.m .whole b % 2 ^ 13) = .ok v → exec (.getc d a b) s = .next { s with m := putS m u d v })
  ∧ (∀ s u w d a b c, sStarts s.m u w [b] [d] = true →
    let m := readDone s.m [b] [d]
    getcVal m u a.val (payOf s.m .whole b % 2 ^ 13) = .error c → exec (.getc d a b) s = .next { s with m := trapForm m u w c 0 })
  ∧ (∀ s u w d a b, sStarts s.m u w [a, b] [] = true →
    let m := readDone s.m [a, b] []
    let ix := payOf s.m .whole b % 2 ^ 13
    (roSelector d.val = true ∧ (isShepherd u = true ∨ d.val < 0x20) → exec (.setc d a b) s = .next { s with m := trapForm m u w 0x02 0 })
    ∧ (¬(roSelector d.val = true ∧ (isShepherd u = true ∨ d.val < 0x20)) →
      (∀ v, getcVal m u d.val ix = .ok v → exec (.setc d a b) s = .next { s with m := setcEff m u d.val ix (payOf s.m .whole a) })
      ∧ (∀ c, getcVal m u d.val ix = .error c → exec (.setc d a b) s = .next { s with m := trapForm m u w c 0 })))
  ∧ (∀ w r k loader storer seq, opRow w.opc = some r → (k = .graph ∨ k = .shepherd) → w.d < 256 → w.a < 256 → w.b < 256 →
    operandsOk k loader storer w r = true →
    (w.opc = 0xD7 ∧ selectorOk w.a = false
      ∨ w.opc = 0xD8 ∧ (selectorOk w.d = false ∨ roSelector w.d = true ∧ (k = .shepherd ∨ w.d < 0x20))) →
    fateSeq k loader storer seq w = .error 0x02))
  ∧ (∀ m u sel ix,
    (selectorOk sel = false → getcVal m u sel ix = .error 0x02)
    ∧ (0x20 ≤ sel → sel ≤ 0x2F → sel ≠ 0x27 → isShepherd u = false → getcVal m u sel ix = .error 0x03)
    ∧ (6144 ≤ ix ∨ coreIn m (pastOfActor m (.unit u (unitOf m u).w)) (ix / 8) = false → getcVal m u 0x10 ix = .error 0x03)
    ∧ (256 ≤ ix → getcVal m u 0x11 ix = .error 0x03)
    ∧ (isShepherd u = true →
      (0x21 ≤ sel → sel ≤ 0x24 → ix ≠ 1 → ix ≠ 2 → getcVal m u sel ix = .error 0x03)
      ∧ (0x28 ≤ sel → sel ≤ 0x2E → 16 ≤ ix → getcVal m u sel ix = .error 0x03)
      ∧ (256 ≤ ix ∨ 12 ≤ ix % 16 → getcVal m u 0x2F ix = .error 0x03)))
  ∧ (∀ m u ix v, ix < 6144 → coreIn m (pastOfActor m (.unit u (unitOf m u).w)) (ix / 8) = true →
    getcVal (setcEff m u 0x10 ix v) u 0x10 ix = .ok (v % 64))
  ∧ (∀ m k v, k < 16 →
    let u := 128 + k
    let x := shepOf m k
    getcVal (setcEff m u 0x03 0 v) u 0x03 0 = .ok (v % 64)
    ∧ getcVal (setcEff m u 0x20 0 v) u 0x20 0 = .ok (x.status.toNat - x.status.toNat / 4 % 2 * 4 + v / 4 % 2 * 4)
    ∧ getcVal (setcEff m u 0x21 1 v) u 0x21 1 = .ok (v % 2 ^ 16) ∧ getcVal (setcEff m u 0x21 2 v) u 0x21 2 = .ok (v % 2 ^ 16)
    ∧ getcVal (setcEff m u 0x22 1 v) u 0x22 1 = .ok (v % 2 ^ 64) ∧ getcVal (setcEff m u 0x22 2 v) u 0x22 2 = .ok (v % 2 ^ 64)
    ∧ getcVal (setcEff m u 0x25 0 v) u 0x25 0 = .ok (v % 2 ^ 16)
    ∧ (∀ p < 16, getcVal (setcEff m u 0x2A p v) u 0x2A p = .ok (v % 2 ^ 10)
      ∧ getcVal (setcEff m u 0x2B p v) u 0x2B p = .ok (v % 2 ^ 13 + v / 2 ^ 16 % 8 * 2 ^ 16)
      ∧ getcVal (setcEff m u 0x2C p v) u 0x2C p = .ok (v % 4)
      ∧ (early (pastOf m p) = true →
        getcVal (setcEff m u 0x29 p v) u 0x29 p = .ok (v / 2 ^ 12 % 2 ^ 40 * 2 ^ 12)
        ∧ getcVal (setcEff m u 0x2D p v) u 0x2D p = .ok (v / 2 ^ 16 % 2 ^ 36 * 2 ^ 16)
        ∧ getcVal (setcEff m u 0x2E p v) u 0x2E p = .ok (v / 2 ^ 12 % 2 ^ 40 * 2 ^ 12))
      ∧ (early (pastOf m p) = false →
        setcEff m u 0x29 p v = m ∧ setcEff m u 0x2D p v = m ∧ setcEff m u 0x2E p v = m)
      ∧ (let P := pastOf m p
        let code := if P.st = .free ∧ v % 8 = 1 then 1 else if (P.st = .ready ∨ P.st = .halted) ∧ v % 8 = 0 then 0 else pstateCode P.st
        getcVal (setcEff m u 0x28 p v) u 0x28 p = .ok ((if early P then v / 2 ^ 16 % 2 ^ 12 else P.asid) * 2 ^ 16 + code))
      ∧ (∀ w < 12,
        let ix := p * 16 + w
        let full := fun j => decide (3 ≤ ((upto 16).filter (fun q => q != p && bitAt (pastOf m q).cset (64 * w + j))).length)
        (early (pastOf m p) = false ∨ (∃ j < 64, bitAt v j = true ∧ full j = true) → setcEff m u 0x2F ix v = m)
        ∧ (early (pastOf m p) = true → (∀ j < 64, bitAt v j = true → full j = false) →
          getcVal (setcEff m u 0x2F ix v) u 0x2F ix = .ok (v % 2 ^ 64)))))

/-- SEQW registers the completion of its ticket's work in Pending, and a stale ticket gives 2^63 + 0x40 at once (R65, R152). Once the work is done
D receives the number of a section's aborted activations, or the trap cause that halted a child, and the ticket's entry is free; the work is
done when it has ended and its memory operations are performed (R152 in the model's reading, log 61). A
unit that waits under NAS 101 goes on once Pending is empty. EVENT posts its value to the slot of vector A, sets PEND, counts, and sends a message only when PEND was 0 (R154, R443); while earlier accesses or events of its context are not performed the post waits
for them and the unit goes on (log 30, the model's reading). A vector above 63 traps. -/
def Obligations.WaitsAndEvents : Prop :=
  ((∀ s u w d a, sStarts s.m u w [a] [d] = true →
    let m := readDone s.m [a] [d]
    staleTicket m u (payOf s.m .whole a) = true → exec (.seqw d a) s = .next { s with m := putS m u d (2 ^ 63 + 0x40) })
  ∧ (∀ s u w d a, sStarts s.m u w [a] [d] = true →
    let m := readDone s.m [a] [d]
    staleTicket m u (payOf s.m .whole a) = false →
    exec (.seqw d a) s = .next { s with m := settleSeqw u { m with
      ids := m.ids + 1
      mem.reqs := m.mem.reqs ++ [⟨m.ids, s.m.cur, 0, sectOf m s.m.cur, pastOfActor m s.m.cur,
        (match d with | .r n => .sreg u n.val | _ => .zero), .seqw (payOf s.m .whole a % 16) (payOf s.m .whole a / 2 ^ 16 % 2 ^ 16), 5, true, false, none, none, true,
        none, none, false, none⟩] } })
  ∧ (∀ s u, (∀ r ∈ s.m.mem.reqs, ∀ v w e g, r.who = .unit v w → r.op = .seqw e g → v ≠ u) → (unitOf s.m u).run = .waiting →
    (unitOf s.m u).seqf / 2 ^ 21 % 8 ≠ 6 →
    pendingOf s.m u = [] → (isShepherd u = true ∨ running s.m (unitOf s.m u).past = true) → (unitOf s.m u).loops = [] →
    exec (.pendingEmpty u) s = .next { s with m := setUnit s.m u { unitOf s.m u with w := (unitOf s.m u).w + 1, run := .running } })
  ∧ (∀ s u, (∀ r ∈ s.m.mem.reqs, ∀ v w e g, r.who = .unit v w → r.op = .seqw e g → v ≠ u) → pendingOf s.m u ≠ [] →
    (unitOf s.m u).seqf / 2 ^ 21 % 8 ≠ 6 →
    exec (.pendingEmpty u) s = .next s)
  ∧ (∀ s u w r e g n child k, r ∈ s.m.mem.reqs → r.who = .unit u w → r.op = .seqw e g → r.dst = .sreg u n →
    (∀ q ∈ s.m.mem.reqs, q ≠ r → seqwReady s.m u q = none) → (unitOf s.m u).seqf / 2 ^ 21 % 8 ≠ 6 →
    ofUnit s.m u r.past r.who = true → tfind e (unitOf s.m u).tickets = some ⟨g, true, child, k⟩ → workDone s.m k child = true →
    let v := if child then ((graphOf s.m k).map (·.cause % 256)).getD 0
      else ((tfind k s.m.seq.sections).map (·.aborted % 2 ^ 22)).getD 0
    ∃ t, exec (.pendingEmpty u) s = .next t ∧ sReg t.m u n = v ∧ tfind e (unitOf t.m u).tickets = some ⟨g, false, child, 0⟩
      ∧ t.m.mem.reqs = s.m.mem.reqs.filter (fun q => q.id != r.id) ∧ t.m.mem.hbm = s.m.mem.hbm ∧ t.m.mem.spad = s.m.mem.spad)
  ∧ (∀ m k child, workDone m k child = true ↔
    ((if child then ∀ g, graphOf m k = some g → g.complete = true else ∀ x, tfind k m.seq.sections = some x → x.complete = true)
      ∧ ∀ r ∈ m.mem.reqs, r.sect ∈ workTree m (m.seq.graphs.length + 1) [k] → memOp r = true → r.done = true)))
  ∧ ((∀ s u w a b, sStarts s.m u w [a, b] [] = true → payOf s.m .whole a ≤ 63 →
    let m := readDone s.m [a, b] []
    eventHeld m (.unit u w) m.ids = false →
    let k := pastOfActor m (.unit u w) * 64 + payOf s.m .whole a
    let x := tget EvSlot.reset k m.host.slots
    ∃ t, exec (.event a b) s = .next t
      ∧ tget EvSlot.reset k t.m.host.slots = ⟨BitVec.ofNat 64 (payOf s.m .whole b), true, min (x.count + 1) (2 ^ 32 - 1)⟩
      ∧ t.m.host.msix = (if x.pend then m.host.msix else m.host.msix ++ [k]) ∧ t.m.mem = m.mem)
  ∧ (∀ s u w a b, sStarts s.m u w [a, b] [] = true → payOf s.m .whole a ≤ 63 →
    let m := readDone s.m [a, b] []
    eventHeld m (.unit u w) m.ids = true →
    ∃ t r, exec (.event a b) s = .next t ∧ t.m.host = m.host ∧ t.m.mem.reqs = m.mem.reqs ++ [r] ∧ r.id = m.ids ∧ r.who = .unit u w
      ∧ r.op = .event (pastOfActor m (.unit u w)) (payOf s.m .whole a) (payOf s.m .whole b) ∧ r.done = false)
  ∧ (∀ s u w a b, sStarts s.m u w [a, b] [] = true → 63 < payOf s.m .whole a →
    exec (.event a b) s = .next { s with m := trapForm (readDone s.m [a, b] []) u w 0x01 0x06 }))

/-! ## Class 0x6_: memory -/

/-- An instruction whose effect is a request for the memory interface, an engine or a controller changes no byte of memory, no
register and no handle as it is issued, and dequeues only the channels that it reads (R204, R210). -/
def Obligations.RequestFrame : Prop :=
  ∀ s os ds f, (∀ x ∈ inChans os, x < 8) → (∀ core pe f k b c, s.m.cur = .pe core pe f k b c → pe < 16) →
    KeepsAll s.m (issued s os ds f).m (os ++ ds) ∧ (issued s os ds f).m.mem.reqs = s.m.mem.reqs ++ [f (readDone s.m os ds)]

/-- LD, LDS and LDH make a load of their width for D at A + B, at A + B modulo 2^32 and at index B through handle A (R208, R210);
ST, STS and STH make a store of B's low bytes at A and through handle A at index D. In an atomic frame each of the
three stores enters the commit buffer of its bank instead (R22). HSET writes word B of handle D alone, but for the reserved bits [56]
and [121:120] of the image, which keep 0, and TYPE 8 outside a shepherd core, which becomes TYPE 0. HGET gives word B of handle A (R4,
R207, R213). In a PE both wait for a SNAP that their handle is pending on (R206). -/
def Obligations.LoadsAndStores : Prop :=
  (∀ f d a b s, let n := widthBytes f.width
    memStarts s.m [a, b] [d] (pairReg s.m (n == 16) d) = true → exec (.ld f d a b) s = .next (issued s [a, b] [d] (fun m =>
      mkReq m (dstOf m d (n == 16)) (.load (.virt ((payOf s.m .whole a % 2 ^ 64 + payOf s.m .whole b % 2 ^ 64) % 2 ^ 64)) n (f.width == .nt))
        f.scope.code (isAcqO f.order) false)))
  ∧ (∀ f d a b s, let n := widthBytes f.width
    memStarts s.m [a, b] [d] (pairReg s.m (n == 16) d) = true → exec (.lds f d a b) s = .next (issued s [a, b] [d] (fun m =>
      let sa := (payOf s.m .whole a + payOf s.m .whole b) % 2 ^ 32
      mkReq m (dstOf m d (n == 16)) (.load (.scratch sa) n (f.width == .nt)) (scratchScope m sa f.scope.code) (isAcqO f.order) false)))
  ∧ (∀ f d h b s, let n := widthBytes f.width
    handStall s.m [h.val] = false → memStarts s.m [b] [d] (pairReg s.m (n == 16) d) = true →
    exec (.ldh f d (.h h) b) s = .next (issued s [b] [d] (fun m =>
      { mkReq m (dstOf m d (n == 16)) (.load (.hand (handOwner m.cur) h.val (readHand m h.val).1 (payOf s.m .whole b % 2 ^ 64)) n (f.width == .nt))
          f.scope.code (isAcqO f.order) false with hwait := (readHand m h.val).2 })))
  ∧ (∀ f d a b s, let n := widthBytes f.width
    memStarts s.m [a, b] [] (pairReg s.m (n == 16) b) = true → inAtomic s.m = false → exec (.st f d a b) s = .next (issued s [a, b] [] (fun m =>
      mkReq m (ackOf m d) (.store (.virt (payOf s.m .whole a % 2 ^ 64)) n (wideVal s.m b % 256 ^ n)) f.scope.code false (isRelO f.order))))
  ∧ (∀ f d a b s, let n := widthBytes f.width
    let sa := payOf s.m .whole a % 2 ^ 32
    memStarts s.m [a, b] [] (pairReg s.m (n == 16) b) = true → inAtomic s.m = false → exec (.sts f d a b) s = .next (issued s [a, b] [] (fun m =>
      mkReq m (ackOf m d) (.store (.scratch sa) n (wideVal s.m b % 256 ^ n)) (scratchScope m sa f.scope.code) false (isRelO f.order))))
  ∧ (∀ f d h b s, let n := widthBytes f.width
    handStall s.m [h.val] = false → memStarts s.m [b, d] [] (pairReg s.m (n == 16) b) = true → inAtomic s.m = false →
    exec (.sth f d (.h h) b) s = .next (issued s [b, d] [] (fun m =>
      { mkReq m .drop (.store (.hand (handOwner m.cur) h.val (readHand m h.val).1 (payOf s.m .whole d % 2 ^ 64)) n (wideVal s.m b % 256 ^ n))
          f.scope.code false (isRelO f.order) with hwait := (readHand m h.val).2 })))
  ∧ (∀ f d a b s, let n := widthBytes f.width
    memStarts s.m [a, b] [] (pairReg s.m (n == 16) b) = true → inAtomic s.m = true → exec (.st f d a b) s = .next (after s [a, b] [] (fun m =>
      bufferStore m (.virt (payOf s.m .whole a % 2 ^ 64)) n (wideVal s.m b % 256 ^ n) f.scope.code (isRelO f.order) none none)))
  ∧ (∀ f d a b s, let n := widthBytes f.width
    let sa := payOf s.m .whole a % 2 ^ 32
    memStarts s.m [a, b] [] (pairReg s.m (n == 16) b) = true → inAtomic s.m = true → exec (.sts f d a b) s = .next (after s [a, b] [] (fun m =>
      bufferStore m (.scratch sa) n (wideVal s.m b % 256 ^ n) (scratchScope m sa f.scope.code) (isRelO f.order) none none)))
  ∧ (∀ f d h b s, let n := widthBytes f.width
    handStall s.m [h.val] = false → memStarts s.m [b, d] [] (pairReg s.m (n == 16) b) = true → inAtomic s.m = true →
    exec (.sth f d (.h h) b) s = .next (after s [b, d] [] (fun m =>
      bufferStore m (.hand (handOwner m.cur) h.val (readHand m h.val).1 (payOf s.m .whole d % 2 ^ 64)) n (wideVal s.m b % 256 ^ n)
        f.scope.code (isRelO f.order) none (readHand m h.val).2)))
  ∧ (∀ h a b s, memStarts s.m [a] [] [] = true → handStall s.m [h.val] = false → handPend s.m (handOwner s.m.cur) h.val = none →
    ∃ t, exec (.hset (.h h) a b) s = .next t
      ∧ (∀ k < 4, bits (getHand t.m (handOwner s.m.cur) h.val).toNat (64 * k) 64 =
          if k = b.val then
            (let x := payOf s.m .whole a % 2 ^ 64
             let v := if k = 0 then x - x / 2 ^ 56 % 2 * 2 ^ 56 else if k = 1 then x - x / 2 ^ 56 % 4 * 2 ^ 56 else x
             if k = 0 ∧ v / 2 ^ 60 = 8 ∧ isShepActor s.m.cur = false then v % 2 ^ 60 else v)
          else bits (getHand s.m (handOwner s.m.cur) h.val).toNat (64 * k) 64)
      ∧ (∀ o g, g < 16 → (o ≠ handOwner s.m.cur ∨ g ≠ h.val) → getHand t.m o g = getHand s.m o g) ∧ t.m.mem = s.m.mem)
  ∧ (∀ d h b s, memStarts s.m [] [d] [] = true → handStall s.m [h.val] = false → (readHand s.m h.val).2 = none →
    exec (.hget d (.h h) b) s = .next (answered s [] d (.hget (handOwner s.m.cur) h.val b.val)
      (bits (readHand s.m h.val).1.toNat (64 * b.val) 64)))
  ∧ (∀ h a b s id, memStarts s.m [a] [] [] = true → handStall s.m [h.val] = false → handPend s.m (handOwner s.m.cur) h.val = some id →
    ∃ t r, exec (.hset (.h h) a b) s = .next t ∧ t.m.mem.reqs = s.m.mem.reqs ++ [r] ∧ r.hwait = some id
      ∧ (∃ v, r.op = .hset (handOwner s.m.cur) h.val b.val v) ∧ (∀ o g, getHand t.m o g = getHand s.m o g))
  ∧ (∀ d h b s id, memStarts s.m [] [d] [] = true → handStall s.m [h.val] = false → (readHand s.m h.val).2 = some id →
    exec (.hget d (.h h) b) s = .next (issued s [] [d] (fun m =>
      { mkReq m (dstOf m d false) (.hget (handOwner s.m.cur) h.val b.val) 5 false false with hwait := some id })))


/-- A load delivers the bytes of its places, lowest first, over them those that its activation has buffered; a place that cannot be
read fails it, and so does an answer of the outside or of a check code that R79 allows for its place (R22, R79, R204, R210, R211); a flit
that was discarded goes again, three times at most (R399). A
misaligned access may be performed byte by byte (R200), and an aligned one of local memory answered with data is one that SECDED has
corrected: it delivers the same and logs a corrected event (R281). The loads that a coalescing unit has merged are performed together and fail
together (R270). A shepherd core's sole load leaves exactly its register changed to those bytes. A result does
not leave before an earlier one of its slot (R204) or of its output, and a token that an instruction emits on such an output
waits behind it as well (the model's reading, log 82). -/
def Obligations.LoadsPerformed : Prop :=
  (∀ s id r pl n nt ls, reqOf s.m id = some r → r.op = .load pl n nt → mayPerform s.m r = true → mergedWith s.m r = [] →
    targetOf s.m r pl n .rd = .at ls → faultR s.m r false ls = none → allKept s.m ls = true → exec (.loadResult id .perform) s =
      .next { s with m := finish (endTorn (drawFree (countMove s.m r)) id) id (tornVal s.m r n (mergeBuf s.m r ls (readVal s.m ls none))) })
  ∧ (∀ m r n v, tfind r.id m.mem.torn = none → tornVal m r n v = v)
  ∧ (∀ s id r pl n nt ls v, reqOf s.m id = some r → r.op = .load pl n nt → mayPerform s.m r = true → targetOf s.m r pl n .rd = .at ls →
    mergedFault s.m r = none → misaligned ls = true →
    let i := v.toNat % n
    exec (.loadResult id (.data v)) s = .next { s with m := setTorn s.m r i (bits (mergeBuf s.m r ls (readVal s.m ls none)) (8 * i) 8) })
  ∧ (∀ s id r pl n nt ls c d, reqOf s.m id = some r → r.op = .load pl n nt → mayPerform s.m r = true → targetOf s.m r pl n .rd = .at ls →
    mergedFault s.m r = none →
    let m1 := if c.toNat = 0 then discarded s.m r ls (fun p => failMerged s.m r 0x09 p ls)
      else if failOk r ls c.toNat d.toNat && !mergedBegun s.m r then failMerged (markBad s.m ls c.toNat d.toNat) r c.toNat d.toNat ls else s.m
    exec (.loadResult id (.fail c d)) s = .next { s with m := m1 })
  ∧ (∀ m r ls fail, (sentTo m r ls = [] → discarded m r ls fail = m)
    ∧ (∀ x rest, sentTo m r ls = x :: rest →
      let n := tget 0 r.id m.fab.resent
      let m1 := countFlit m x.1 x.2
      (n < 3 → discarded m r ls fail = { m1 with fab.resent := tset r.id (n + 1) m1.fab.resent })
      ∧ (3 ≤ n → discarded m r ls fail = fail x.1)))
  ∧ (∀ m ls, ls.any isOutside = false → readVal m ls none = natOf (ls.map (locByte m)))
  ∧ (∀ s id r pl n nt ls v, reqOf s.m id = some r → r.op = .load pl n nt → mayPerform s.m r = true → targetOf s.m r pl n .rd = .at ls →
    mergedFault s.m r = none → ls.any isOutside = true →
    let x := mergeBuf s.m r ls (readVal s.m ls (some v.toNat))
    exec (.loadResult id (.data v)) s =
      .next { s with m := finish (drawFree (countMove (if nt then s.m else keepBytes s.m ls v.toNat) r)) id x })
  ∧ (∀ s id r pl n nt ls v, reqOf s.m id = some r → r.op = .load pl n nt → mayPerform s.m r = true → targetOf s.m r pl n .rd = .at ls →
    mergedFault s.m r = none → ls.any isOutside = false → misaligned ls = false →
    let m1 := match ls.findSome? (fun l => match l with | .hbm pa => some (pa / 64) | _ => none) with
      | some u => { s.m with mem.bruoshLog := s.m.mem.bruoshLog ++ [(0x10003, u)] }
      | none => s.m
    exec (.loadResult id (.data v)) s =
      .next { s with m := finish (drawFree (countMove m1 r)) id (mergeBuf s.m r ls (readVal s.m ls none)) })
  ∧ (∀ s id r pl n nt v, reqOf s.m id = some r → r.op = .load pl n nt → mayPerform s.m r = true → targetOf s.m r pl n .rd = .beyond →
    mergedFault s.m r = none → exec (.loadResult id (.data v)) s = .next { s with m := finishTok s.m id [⟨Val.none, false, true, 0⟩] })
  ∧ (∀ s id r pl n nt c d ls ans, reqOf s.m id = some r → r.op = .load pl n nt → mayPerform s.m r = true →
    mergedFault s.m r = some (c, d, ls) → exec (.loadResult id ans) s = .next { s with m := failMerged s.m r c d ls })
  ∧ (∀ m r pl n k, mergedWith m r = [] → reqPlace r = some (pl, n, k) →
    (∀ c d, targetOf m r pl n k = .bad c d → mergedFault m r = some (c, d, []))
    ∧ (∀ ls, targetOf m r pl n k = .at ls → mergedFault m r = (faultR m r k.writes ls).map (fun x => (x.1, x.2, ls)))
    ∧ (∀ c d ls, failMerged m r c d ls = failReq (endTorn m r.id) r c d ls))
  ∧ (∀ s id r pl n nt, reqOf s.m id = some r → r.op = .load pl n nt → mayPerform s.m r = true → mergedFault s.m r = none →
    let apart := fun q : Req => { s.m with mem.reqs := s.m.mem.reqs.filter (fun x =>
      x.id == q.id || (x.id != r.id && !(mergedWith s.m r).any (fun y => y.id == x.id))) }
    ((mergedWith s.m r).all (fun q => mayPerform (apart q) q) = false → exec (.loadResult id .perform) s = .next s)
    ∧ ((mergedWith s.m r).all (fun q => mayPerform (apart q) q) = true →
      let one := fun (m : Mach) (q : Req) => match reqOf m q.id, q.op with
        | some x, .load pl2 n2 nt2 => loadOne m x pl2 n2 nt2 .perform
        | _, _ => m
      exec (.loadResult id .perform) s = .next { s with m := (mergedWith s.m r).foldl one (loadOne s.m r pl n nt .perform) }))
  ∧ (∀ s id r pl n nt ls u w k, s.m.mem.reqs = [r] → r.id = id → r.op = .load pl n nt → r.who = .unit u w → isShepherd u = true →
    r.dst = .sreg u k → mayPerform s.m r = true → targetOf s.m r pl n .rd = .at ls → faultR s.m r false ls = none →
    ls.any isOutside = false → (∀ va ∈ moveVas s.m r, ∀ e, leafR s.m r (va / 65536 * 65536) = .ok e → bits e 5 2 ≠ 3) →
    tfind id s.m.mem.torn = none → s.m.sync.touched = [] →
    (∀ p < 16, (pastOf s.m p).ending = none) → ∃ t, exec (.loadResult id .perform) s = .next t ∧ sReg t.m u k = natOf (ls.map (locByte s.m)) % 2 ^ 64
      ∧ (∀ v j, (v ≠ u ∨ j ≠ k) → sReg t.m v j = sReg s.m v j) ∧ t.m.mem.hbm = s.m.mem.hbm ∧ t.m.mem.spad = s.m.mem.spad
      ∧ t.m.mem.reqs = [] ∧ t.m.pe = s.m.pe)
  ∧ (∀ m r q core pe ch b b', q ∈ m.mem.reqs → q.id < r.id →
    ((sameSlot r q = true ∧ q.dst ≠ .drop ∧ r.dst ≠ .drop) ∨ (r.dst = .out core pe ch b ∧ q.dst = .out core pe ch b')) →
    firstOfSlot m r = false)
  ∧ (∀ s f (n : Fin 8) v core pe frame slot bank keep q b, s.m.cur = .pe core pe frame slot bank keep → q ∈ s.m.mem.reqs →
    q.dst = .out core pe n.val b → ∃ t r, exec (.mov f (.outC n) (.imm v)) s = .next t ∧ t.m.mem.reqs = s.m.mem.reqs ++ [r]
      ∧ t.m.fab.transit = s.m.fab.transit ∧ r.dst = .out core pe n.val bank ∧ r.id = s.m.ids ∧ r.done = true)

/-- A store writes its low bytes to its places, lowest first, and to no other, a misaligned one whole or byte by byte (R200); a sole
store without an acknowledgement changes no register (R210). A place that does not exist, a degraded pseudo-channel, a failed
package or an answer that R79 allows fails it, with the stores that a coalescing unit has merged with it, which are performed together (R270). What completes a
storer tile's store spends a credit of the tile's port for each of its flits of 16 bytes (R39, R379), and takes effect as the last flit enters
(the model's choice, log 14). The check code
of a payload is the CRC-32C of its physical address and its bytes (R384). -/
def Obligations.StoresPerformed : Prop :=
  (∀ s id r pl n data ls, reqOf s.m id = some r → r.op = .store pl n data → mayPerform s.m r = true → mergedWith s.m r = [] →
    targetOf s.m r pl n .wr = .at ls → faultR s.m r true ls = none → heldByResv s.m (ctxCode r.past r.who) ls = false →
    let m := modReq (endTorn (drawFree (countMove s.m r)) id) id (fun x => { x with done := true, res := some [tokNat 0] })
    let todo := (ls.zip (bytesOf data n)).zipIdx.filter (fun x => !bitAt (tornOf s.m r).1 x.2)
    exec (.storeCompletion id .perform) s
      = .next (enterPort id (fun _ => flush (storeLocs m (todo.map (·.1.1)) (todo.map (·.1.2)))) s))
  ∧ (∀ s id g, (∀ r u w, reqOf s.m id = some r → r.who = .unit u w → isTile u = false) → enterPort id g s = { s with m := g s.m })
  ∧ (∀ s id g r u w, reqOf s.m id = some r → r.who = .unit u w → isTile u = true →
    (∀ q, reqOf (g s.m) id = some q → q.done = true) →
    let b := bucketOf s u
    let n := match r.op with | .store _ k _ => max 1 ((k + 15) / 16) | _ => 1
    let due := n - tget 0 id s.pow.paid
    enterPort id g s = if b.level < due then
        (let s1 := putBucket s u { b with level := 0 }
         { s1 with pow.capped := true, pow.paid := tput 0 id (n - due + b.level) s1.pow.paid })
      else
        (let s1 := putBucket { s with m := g s.m } u { b with level := b.level - due }
         { s1 with pow.paid := tput 0 id 0 s1.pow.paid }))
  ∧ (∀ s id r pl n data ls v, reqOf s.m id = some r → r.op = .store pl n data → mayPerform s.m r = true → targetOf s.m r pl n .wr = .at ls →
    mergedFault s.m r = none → heldByResv s.m (ctxCode r.past r.who) ls = false → misaligned ls = true →
    let i := v.toNat % n
    exec (.storeCompletion id (.data v)) s = .next (enterPort id (fun _ =>
      storeLocs (setTorn s.m r i 0) (ls[i]?).toList [BitVec.ofNat 8 (data / 256 ^ i)]) s))
  ∧ (∀ s id r pl n data ls c d, reqOf s.m id = some r → r.op = .store pl n data → mayPerform s.m r = true → targetOf s.m r pl n .wr = .at ls →
    mergedFault s.m r = none → heldByResv s.m (ctxCode r.past r.who) ls = false →
    exec (.storeCompletion id (.fail c d)) s = .next (enterPort id (fun _ =>
      if c.toNat = 0 then discarded s.m r ls (fun p => failMerged s.m r 0x09 p ls)
      else if failOk r ls c.toNat d.toNat && c.toNat != 0x01 && !mergedBegun s.m r then failMerged s.m r c.toNat d.toNat ls else s.m) s))
  ∧ (∀ s id r pl n data ls, s.m.mem.reqs = [r] → r.id = id → r.op = .store pl n data → r.dst = .drop → mayPerform s.m r = true →
    targetOf s.m r pl n .wr = .at ls → faultR s.m r true ls = none → heldByResv s.m (ctxCode r.past r.who) ls = false →
    (∀ va ∈ moveVas s.m r, ∀ e, leafR s.m r (va / 65536 * 65536) = .ok e → bits e 5 2 ≠ 3) → (∀ u w, r.who = .unit u w → isTile u = false) →
    tfind id s.m.mem.torn = none → s.m.sync.touched = [] →
    (∀ p < 16, (pastOf s.m p).ending = none) → ∃ t, exec (.storeCompletion id .perform) s = .next t ∧ t.m.mem.hbm = (setBytes s.m ls (bytesOf data n)).mem.hbm
      ∧ t.m.mem.spad = (setBytes s.m ls (bytesOf data n)).mem.spad ∧ t.m.pe = s.m.pe ∧ t.m.seq = s.m.seq ∧ t.m.sys = s.m.sys
      ∧ t.m.mem.reqs = [])
  ∧ (∀ s id r pl n data c d ls ans, reqOf s.m id = some r → r.op = .store pl n data → mayPerform s.m r = true →
    mergedFault s.m r = some (c, d, ls) →
    exec (.storeCompletion id ans) s = .next (enterPort id (fun _ => failMerged s.m r c d ls) s))
  ∧ (∀ s id r pl n data, reqOf s.m id = some r → r.op = .store pl n data → mayPerform s.m r = true → mergedFault s.m r = none →
    let apart := fun q : Req => { s.m with mem.reqs := s.m.mem.reqs.filter (fun x =>
      x.id == q.id || (x.id != r.id && !(mergedWith s.m r).any (fun y => y.id == x.id))) }
    exec (.storeCompletion id .perform) s = .next (enterPort id (fun _ =>
      if (mergedWith s.m r).all (fun q => mayPerform (apart q) q) then
        (mergedWith s.m r).foldl (fun m q => match reqOf m q.id, q.op with
          | some x, .store pl2 n2 d2 => storeOne m x pl2 n2 d2 .perform
          | _, _ => m) (storeOne s.m r pl n data .perform)
      else s.m) s))
  ∧ crc32c [0x31, 0x32, 0x33, 0x34, 0x35, 0x36, 0x37, 0x38, 0x39] = 0xE3069283
  ∧ (∀ pa bs, checkCode pa bs = crc32c ([pa % 256, pa / 256 % 256, pa / 256 ^ 2 % 256, pa / 256 ^ 3 % 256, pa / 256 ^ 4 % 256,
      pa / 256 ^ 5 % 256, pa / 256 ^ 6 % 256, pa / 256 ^ 7 % 256] ++ bs))

/-- The commit buffer keeps its stores in chain order, a store that would pass 4 KB is poisoned with COMMIT_OVERFLOW, and COMMIT
issues the first of them as ST issues it, once no SNAP of its handle is outstanding (R206), releasing the bank after the last (R22).
The place of the unchained stores, behind every chain and in issue order (`bufBefore`), is the model's reading: log entry 57. -/
def Obligations.CommitOrder : Prop :=
  (∀ e es, es.Pairwise (fun x y => bufBefore y x = false) →
    (insBuf e es).Pairwise (fun x y => bufBefore y x = false) ∧ (insBuf e es).Perm (e :: es))
  ∧ (∀ m pl n data sc rel hw core pe f k b c, m.cur = .pe core pe f k b c →
    let es := tget [] (ctxKey core f b) m.pe.commit
    tget [] (ctxKey core f b) (bufferStore m pl n data sc rel none hw).pe.commit = insBuf ⟨posOf m, m.cur, pl, n, data, sc, rel,
      if bufUsed es + n ≤ 4096 then none else some (poison m m.cur 0x06 (bufUsed es)).pay, hw⟩ es)
  ∧ (∀ s core ctx b p e rest, tfind (core * 8 + ctx) s.m.pe.binds = some b → b.ending = true → livePast s.m core = some p →
    running s.m p = true → tget [] (core * 8 + ctx) s.m.pe.commit = e :: rest →
    (e.hwait.isSome = true → exec (.commitEv core ctx) s = .next s)
    ∧ (e.hwait = none →
    let m1 := addReq { s.m with pe.commit := tput [] (core * 8 + ctx) rest s.m.pe.commit } ⟨s.m.ids, e.who, b.act, kindSect b, p,
      .drop, .store e.pl e.len e.data, e.scope, false, e.rel, e.pos, none, false, none, none, false, none⟩
    (((∃ q f, b.kind = .routine q f) ∨ rest ≠ []) → exec (.commitEv core ctx) s = .next { s with m := m1 })
    ∧ ((∀ q f, b.kind ≠ .routine q f) → rest = [] → exec (.commitEv core ctx) s = .next { s with m := releaseCtx m1 core ctx false })))

/-- WBIND binds the lowest free window of the pasture to two handles that R218 admits and leaves its image in D, else TYPE 0; WFREE
closes the window and frees it where no access through it is under way; else WINDOW_FREE frees it; TYPE 0 is left (R208, R218, R219). PFT, APPEND, PUBL, SNAP and FENCE make their
requests (R215-R217, R220, R221); SNAP leaves D pending. That WFREE waits only for the accesses already issued is the model's reading
(log entry 33), and that a refused WBIND leaves the whole handle 0 is its choice (log entry 112). -/
def Obligations.WindowsAndPages : Prop :=
  (∀ f (d a b : Fin 16) s w, handStall s.m [d.val, a.val, b.val] = false →
    let p := pastOfActor s.m s.m.cur
    let ix := readHand s.m a.val
    let src := readHand s.m b.val
    (upto 16).find? (fun w => !thas (p * 16 + w) s.m.mem.windows) = some w → ix.2 = none → src.2 = none → windowOk ix.1 src.1 = true →
    ∃ t, exec (.wbind f (.h d) (.h a) (.h b)) s = .next t ∧ getHand t.m (handOwner s.m.cur) d.val = windowImage ix.1 src.1 w
      ∧ tfind (p * 16 + w) t.m.mem.windows = some ⟨false, f.bit, ix.1, src.1, f.scope.code⟩
      ∧ (∀ k, k ≠ p * 16 + w → tfind k t.m.mem.windows = tfind k s.m.mem.windows) ∧ t.m.mem.hbm = s.m.mem.hbm)
  ∧ (∀ f (d a b : Fin 16) s, handStall s.m [d.val, a.val, b.val] = false →
    (windowOk (readHand s.m a.val).1 (readHand s.m b.val).1 = false ∨ (readHand s.m a.val).2.isSome = true ∨ (readHand s.m b.val).2.isSome = true ∨
      (∀ w < 16, thas (pastOfActor s.m s.m.cur * 16 + w) s.m.mem.windows = true)) →
    ∃ t, exec (.wbind f (.h d) (.h a) (.h b)) s = .next t ∧ getHand t.m (handOwner s.m.cur) d.val = 0 ∧ t.m.mem = s.m.mem)
  ∧ (∀ (a : Fin 16) s y, handStall s.m [a.val] = false → hType (readHand s.m a.val).1 = 6 → (readHand s.m a.val).2 = none →
    let w := bits (hAux0 (readHand s.m a.val).1) 0 4
    let k := pastOfActor s.m s.m.cur * 16 + w
    let m1 := { s.m with mem.windows := tset k { y with closed := true } s.m.mem.windows }
    let busy := s.m.mem.reqs.any (fun r => throughWindow r (pastOfActor s.m s.m.cur) w && !r.done
      && (r.granted.isSome || (r.hwait.isNone && posReady m1 r)))
    tfind k s.m.mem.windows = some y → (∀ r ∈ s.m.mem.reqs, r.id < s.m.ids) →
    (busy = true → ∃ t, exec (.wfree (.h a)) s = .next t ∧ tfind k t.m.mem.windows = some { y with closed := true }
      ∧ (t.m.mem.reqs.getLast?).map (·.op) = some (.wfree (handOwner s.m.cur) a.val w) ∧ t.m.mem.hbm = s.m.mem.hbm)
    ∧ (busy = false → (pastOf s.m (pastOfActor s.m s.m.cur)).image = none →
      ∃ t, exec (.wfree (.h a)) s = .next t ∧ tfind k t.m.mem.windows = none ∧ hType (getHand t.m (handOwner s.m.cur) a.val) = 0
        ∧ t.m.mem.reqs = s.m.mem.reqs ∧ t.m.mem.hbm = s.m.mem.hbm))
  ∧ (∀ s id r o h w, reqOf s.m id = some r → r.op = .wfree o h w → h < 16 → (pastOf s.m r.past).image = none →
    s.m.mem.reqs.any (fun q => throughWindow q r.past w && !q.done && q.granted.isSome) = false →
    ∃ t, exec (.windowFree id) s = .next t ∧ tfind (r.past * 16 + w) t.m.mem.windows = none ∧ hType (getHand t.m o h) = 0
      ∧ reqOf t.m id = none)
  ∧ (∀ f a b s, memStarts s.m [a, b] [] (pairReg s.m true a) = true → pftOk (wideVal s.m a) = true →
    exec (.pft f a b) s = .next (issued s [a, b] [] (fun m =>
      mkReq m .drop (.pft (wideVal s.m a % 2 ^ 128) (payOf s.m .whole b % 2 ^ 64)) f.scope.code false true)))
  ∧ (∀ f (d : Fin 16) a b s, memStarts s.m [a, b] [] [] = true → handStall s.m [d.val] = false →
    exec (.snap f (.h d) a b) s = .next (after s [a, b] [] (fun m =>
      setHandPend (addReq m (mkReq m .drop (.snap (handOwner m.cur) d.val (payOf s.m .whole a % 2 ^ 64) (payOf s.m .whole b % 2 ^ 32))
        f.scope.code true false)) (handOwner m.cur) d.val (some m.ids))))
  ∧ (∀ f d a b s, let n := widthBytes f.width
    memStarts s.m [a, b] [d] (pairReg s.m (n == 16) b) = true → exec (.append f d a b) s = .next (issued s [a, b] [d] (fun m =>
      mkReq m (dstOf m d false) (.append (payOf s.m .whole a % 2 ^ 64) n (wideVal s.m b % 256 ^ n)) f.scope.code false false)))
  ∧ (∀ f d a b s, f.bit = false → memStarts s.m [a, b] [d] [] = true → exec (.publ f d a b) s = .next (issued s [a, b] [d] (fun m =>
      mkReq m (dstOf m d false) (.publ (payOf s.m .whole a % 2 ^ 64) (payOf s.m .whole b % 2 ^ 32) false) f.scope.code false true)))
  ∧ (∀ f d a b s, f.bit = true → memStarts s.m [a] [d] [] = true → exec (.publ f d a b) s = .next (issued s [a] [d] (fun m =>
      mkReq m (dstOf m d false) (.publ (payOf s.m .whole a % 2 ^ 64) 0 true) f.scope.code false true)))
  ∧ (∀ f d s, memStarts s.m [] [d] [] = true → exec (.fence f d) s = .next (after s [] [d] (fun m => markFences (addReq m
      (mkReq m (dstOf m d false) (.fence f.kind none) f.scope.code (fenceAcq f.kind) (fenceRel f.kind))))))

/-- A fence completes when no earlier access is outstanding: D receives 0, or FAIL with the failed peer (R221, R258). PFT_ARRIVAL
copies every unit that does not fail, writes a record for each that does, and adds the arrival and the number of failures to its barrier, once no reservation
holds its word (R220, R231); its flits are the model's count (log 103). A request's time may pass: SCOPE_TIMEOUT with twice the scope code as its detail (R79, in the reading of log 52), or PEER_FAIL for a
package (R257). PEER_FAILURE fails what a package owes the pasture's fences, and raises its cause once for each failed peer (R258). PAGE_WALK keeps a translation (R194, R195). -/
def Obligations.FencesAndWalks : Prop :=
  (∀ s id r, reqOf s.m id = some r → isFence r = true → posReady s.m r = true →
    (∀ u w, r.who = .unit u w → isShepherd u = true ∨ running s.m r.past = true) →
    (s.m.mem.reqs.any (fenceWaits s.m r) = true → exec (.fenceCompletion id) s = .next s)
    ∧ (s.m.mem.reqs.any (fenceWaits s.m r) = false →
      let m1 := finish s.m id (match r.granted with | some (p, _) => 2 ^ 63 + p | none => 0)
      ((∀ u w, r.who ≠ .unit u w) → exec (.fenceCompletion id) s = .next { s with m := m1 })
      ∧ (∀ u w, r.who = .unit u w → exec (.fenceCompletion id) s = .next { s with m := resumeWord m1 u w })))
  ∧ (∀ s id r desc obj bad ls, reqOf s.m id = some r → r.op = .pft desc obj → r.granted = none → mayIssue s.m r = true →
    pftLaneHeld s.m r desc obj bad = false → rangeHeld s.m r = false → obj % 8 = 0 →
    let n := bits desc 96 32 / 64
    let units := (upto n).map (fun i => (i, pftUnit s.m r desc bad i))
    let fails := units.filterMap (fun x => match x.2 with | .error e => some (0, desc % 2 ^ 56 / 64 + x.1, e.1, e.2) | .ok _ => none)
    let m1 := sendFlits (countUnits s.m r ((upto n).map (fun i => desc % 2 ^ 56 / 64 + i))) r (nextLocs s.m r)
    let m2 := units.foldl (fun m x => match x.2 with | .ok u => writeLocs m u.1 u.2 | .error _ => m)
      (unitRecords (markUnits { m1 with free := s.m.free + 64 * n } r (unitLocs s.m r .pft (desc % 2 ^ 56, 64 * n)) fails) r 0 (fun _ => false) fails)
    itemHeld m2 r.past 0 = false → virtR m2 r obj 8 .atomW = .ok ls → faultR m2 r false ls = none →
    (ls.head?).bind (unitFault m2 r bad 2 0) = none →
    let v := min (locsRead m2 ls / 2 ^ 32 + fails.length) (2 ^ 32 - 1) * 2 ^ 32 + min (locsRead m2 ls % 2 ^ 32 + 1) (2 ^ 32 - 1)
    exec (.pftArrival id bad) s = .next { s with m := serveParts (
      if heldByResv m2 (ctxCode r.past r.who) ls = true then modReq m2 id (fun q => { q with granted := some (fails.length, 0) })
      else if ls.any isOutside = true then flush (delReq m2 id)
      else writeLocs (delReq m2 id) ls (bytesOf v 8)) })
  ∧ (∀ s id r, reqOf s.m id = some r → timesOut r = true → mayIssue s.m r = true →
    exec (.scopeTimeout id) s = .next { s with m := failSync s.m r (timeoutFault s.m r).1 (timeoutFault s.m r).2 (awaited s.m r) })
  ∧ (∀ m r, (peerOfReq m r = none → (∀ l ∈ awaited m r, ∀ t a, l = .host t a → t = 0) → timeoutFault m r = (0x0C, 2 * timeScope m r))
    ∧ (∀ p, peerOfReq m r = some p → timeoutFault m r = if 6 ≤ timeScope m r then (0x09, p) else (0x0C, 2 * timeScope m r)))
  ∧ (∀ s p peer, let m0 := markFences s.m
    let os := owing m0 p peer
    let fences := m0.mem.reqs.filter (fun r => r.past == p && isFence r && posReady m0 r && os.any (fun q => fenceWaits m0 r q))
    let m1 := addFailed (fences.foldl (noteFailed peer os) m0) p peer
    let m2 := os.foldl (fun m q => match reqOf m q.id with | some r => if timesOut r then failSync m r 0x09 peer (awaited m r) else m | none => m) m1
    (fences ≠ [] → exec (.peerFailure p peer) s
      = .next { s with m := if m0.fab.failed.contains (p * 512 + peer) then m2 else raiseHome m2 p 0x13 peer })
    ∧ (fences = [] → exec (.peerFailure p peer) s = .next s))
  ∧ (∀ s id r va e, reqOf s.m id = some r → reqVa r = some va → r.done = false → r.xlat = none → va < 2 ^ 56 →
    walk s.m (isShepActor r.who) (pastOf s.m r.past).xroot va = .ok e →
    let asid := if isShepActor r.who then 0xFFF else if (pastOf s.m r.past).asid = 0xFFF then 0x1000 else (pastOf s.m r.past).asid
    ∃ t, exec (.pageWalk id) s = .next t
      ∧ (reqOf t.m id).map (·.xlat) = some (some (va / pteSize e * pteSize e, e))
      ∧ (∀ k ∈ tlbKeys r.who, (tget [] k t.m.mem.tlb).head? = some ⟨asid, va / pteSize e * pteSize e, pteSize e, e⟩)
      ∧ t.m.mem.hbm = s.m.mem.hbm)


/-! ## Class 0x7_: synchronisation -/

/-- Each instruction of class 0x7_ makes its operation for the engine, with the scope and the order of R226 and R227; an S-form WAITA,
MWAIT, WAITC, FUTR and BAR is a condition in Pending (R65). A misaligned address of AMO, RED, CAS, WAITA, ARRIVE, WAITC, FUTW or FUTR gives
trap 0x06 in an S-form unit and makes the operation fail with BOUNDS in a PE (R227). BAR raises its
group's WCLASS to the member's effective class (R240), and PRIO sets its context's class, clamped to PCAP (R241). -/
def Obligations.SyncIssues : Prop :=
  (∀ f d a b s, let n := AmoOp.bytes f.op
    let ea := payOf s.m .whole a % 2 ^ 64
    memStarts s.m [a, b] [d] [] = true → ea % n = 0 → exec (.amo f d a b) s = .next (issued s [a, b] [d] (fun m =>
      mkReq m (dstOf m d false) (.amo f.op ea (payOf s.m .whole b % 256 ^ n) true) f.scope.code true true)))
  ∧ ((∀ f d a b s, let n := AmoOp.bytes f.op
      let ea := payOf s.m .whole a % 2 ^ 64
      ea % n ≠ 0 →
      (memStarts s.m [a, b] [d] [] = true → exec (.amo f d a b) s = .next (after s [a, b] [d] (fun m => misplaced m
        (mkReq m (dstOf m d false) (.amo f.op ea (payOf s.m .whole b % 256 ^ n) true) f.scope.code true true) ea)))
      ∧ (memStarts s.m [a, b] [] [] = true → exec (.red f d a b) s = .next (after s [a, b] [] (fun m => misplaced m
        (mkReq m (ackOf m d) (.amo f.op ea (payOf s.m .whole b % 256 ^ n) false) f.scope.code false true) ea))))
    ∧ (∀ f d a b s, let n := if f.bit then 8 else 4
      let ea := payOf s.m .whole a % 2 ^ 64
      let x := if f.bit then wideVal s.m b else payOf s.m .whole b
      memStarts s.m [a, b] [d] (pairReg s.m f.bit b) = true → ea % n ≠ 0 → exec (.cas f d a b) s = .next (after s [a, b] [d] (fun m => misplaced m
        (mkReq m (dstOf m d false) (.cas ea n (x % 2 ^ (8 * n)) (x / 2 ^ (8 * n) % 2 ^ (8 * n))) f.scope.code true true) ea)))
    ∧ (∀ f d a b s, let n := if f.w8 then 8 else 4
      let ea := payOf s.m .whole a % 2 ^ 64
      memStarts s.m [a, b] [d] [] = true → ea % n ≠ 0 → exec (.waita f d a b) s = .next (after s [a, b] [d] (fun m => misplaced m
        (mkReq m (dstOf m d false) (.waita ea n f.cond (payOf s.m .whole b % 256 ^ n))
          (if ea / 2 ^ 56 = 0xFF ∧ 3 < f.scope.code then 3 else f.scope.code) true false) ea)))
    ∧ (∀ f d a b s, let ea := payOf s.m .whole a % 2 ^ 64
      memStarts s.m [a, b] [] [] = true → ea % 8 ≠ 0 → exec (.arrive f d a b) s = .next (after s [a, b] [] (fun m => misplaced m
        (mkReq m (ackOf m d) (.arrive ea (payOf s.m .whole b % 2 ^ 32)) f.scope.code false true) ea)))
    ∧ (∀ f d a b s, let ea := payOf s.m .whole a % 2 ^ 64
      memStarts s.m [a, b] [d] [] = true → ea % 8 ≠ 0 → exec (.waitc f d a b) s = .next (after s [a, b] [d] (fun m => misplaced m
        (mkReq m (dstOf m d false) (.waitc ea (payOf s.m .whole b % 2 ^ 32) f.bit) f.scope.code true false) ea)))
    ∧ (∀ f d a b s, let ea := payOf s.m .whole a % 2 ^ 64
      memStarts s.m [a, b] [d] [] = true → ea % 16 ≠ 0 → exec (.futw f d a b) s = .next (after s [a, b] [d] (fun m => misplaced m
        (mkReq m (dstOf m d false) (.futw ea (payOf s.m .whole b % 2 ^ 64)) f.scope.code false true) ea)))
    ∧ (∀ f d a s, let ea := payOf s.m .whole a % 2 ^ 64
      memStarts s.m [a] [d] [] = true → ea % 16 ≠ 0 → exec (.futr f d a) s = .next (after s [a] [d] (fun m => misplaced m
        (mkReq m (dstOf m d false) (.futr ea) f.scope.code true false) ea))))
  ∧ (∀ f d a b s, let n := AmoOp.bytes f.op
    let ea := payOf s.m .whole a % 2 ^ 64
    memStarts s.m [a, b] [] [] = true → ea % n = 0 → exec (.red f d a b) s = .next (issued s [a, b] [] (fun m =>
      mkReq m (ackOf m d) (.amo f.op ea (payOf s.m .whole b % 256 ^ n) false) f.scope.code false true)))
  ∧ (∀ f d a b s, let n := if f.bit then 8 else 4
    let ea := payOf s.m .whole a % 2 ^ 64
    let x := if f.bit then wideVal s.m b else payOf s.m .whole b
    memStarts s.m [a, b] [d] (pairReg s.m f.bit b) = true → ea % n = 0 → exec (.cas f d a b) s = .next (issued s [a, b] [d] (fun m =>
      mkReq m (dstOf m d false) (.cas ea n (x % 2 ^ (8 * n)) (x / 2 ^ (8 * n) % 2 ^ (8 * n))) f.scope.code true true)))
  ∧ (∀ f d a b s, let n := if f.w8 then 8 else 4
    let ea := payOf s.m .whole a % 2 ^ 64
    memStarts s.m [a, b] [d] [] = true → ea % n = 0 → exec (.waita f d a b) s = .next (issued s [a, b] [d] (fun m =>
      { mkReq m (dstOf m d false) (.waita ea n f.cond (payOf s.m .whole b % 256 ^ n))
          (if ea / 2 ^ 56 = 0xFF ∧ 3 < f.scope.code then 3 else f.scope.code) true false with pend := isUnit m.cur })))
  ∧ (∀ f a s, memStarts s.m [a] [] [] = true → exec (.mon f a) s = .next (issued s [a] [] (fun m =>
      mkReq m .drop (.mon (payOf s.m .whole a % 2 ^ 64)) f.scope.code false false)))
  ∧ (∀ f d s, memStarts s.m [] [d] [] = true → exec (.mwait f d) s = .next (issued s [] [d] (fun m =>
      { mkReq m (dstOf m d false) .mwait f.scope.code true false with pend := isUnit m.cur })))
  ∧ (∀ f d a b s, let ea := payOf s.m .whole a % 2 ^ 64
    memStarts s.m [a, b] [] [] = true → ea % 8 = 0 → exec (.arrive f d a b) s = .next (issued s [a, b] [] (fun m =>
      mkReq m (ackOf m d) (.arrive ea (payOf s.m .whole b % 2 ^ 32)) f.scope.code false true)))
  ∧ (∀ f d a b s, let ea := payOf s.m .whole a % 2 ^ 64
    memStarts s.m [a, b] [d] [] = true → ea % 8 = 0 → exec (.waitc f d a b) s = .next (issued s [a, b] [d] (fun m =>
      { mkReq m (dstOf m d false) (.waitc ea (payOf s.m .whole b % 2 ^ 32) f.bit) f.scope.code true false with pend := isUnit m.cur })))
  ∧ (∀ f d a b s, let ea := payOf s.m .whole a % 2 ^ 64
    memStarts s.m [a, b] [d] [] = true → ea % 16 = 0 → exec (.futw f d a b) s = .next (issued s [a, b] [d] (fun m =>
      mkReq m (dstOf m d false) (.futw ea (payOf s.m .whole b % 2 ^ 64)) f.scope.code false true)))
  ∧ (∀ f d a s, let ea := payOf s.m .whole a % 2 ^ 64
    memStarts s.m [a] [d] [] = true → ea % 16 = 0 → exec (.futr f d a) s = .next (issued s [a] [d] (fun m =>
      { mkReq m (dstOf m d false) (.futr ea) f.scope.code true false with pend := isUnit m.cur })))
  ∧ (∀ f d g s, memStarts s.m [] [d] [] = true → exec (.bar f d g) s = .next (after s [] [d] (fun m =>
      addReq (raiseWclass m g.val) { mkReq (raiseWclass m g.val) (dstOf m d false) (.bar g.val) f.scope.code true true with pend := isUnit m.cur })))
  ∧ (∀ m g core pe fr k b c x, m.cur = .pe core pe fr k b c → tfind (pastOfActor m m.cur * 256 + g) m.sync.groups = some x →
    x.members.contains (ctxKey core fr b) = true →
    tfind (pastOfActor m m.cur * 256 + g) (raiseWclass m g).sync.groups = some { x with wclass := max x.wclass (effClass m core (fr * 4 + b)) })
  ∧ (∀ f g s, memStarts s.m [] [] [] = true → exec (.bara f g) s = .next (issued s [] [] (fun m =>
      mkReq m .drop (.bar g.val) f.scope.code false true)))
  ∧ (∀ a s core pe fr k b c, s.m.cur = .pe core pe fr k b c → memStarts s.m [a] [] [] = true →
    ∃ t, exec (.prio a) s = .next t
      ∧ tget 0 (ctxKey core fr b) t.m.pe.prio = min (payOf s.m .whole a % 4) (pastOf s.m (pastOfActor s.m s.m.cur)).pcap
      ∧ (∀ x, x ≠ ctxKey core fr b → tget 0 x t.m.pe.prio = tget 0 x s.m.pe.prio) ∧ t.m.mem = s.m.mem ∧ t.m.sync = s.m.sync)

/-- What AMO and RED leave in the word for each operation code, with `old` and `b` of the operation's width (R228). An engine performs one operation in its turn on its local word: AMO and RED write the new value and AMO gives the old one (R229), CAS
writes only where the word matches (R230), ARRIVE adds to ARRIVALS, saturating (R236), FUTW fills an empty cell and fails on a full one
(R238); WAITA, WAITC and FUTR register and complete once their condition holds (R232, R236, R238). The last
arrival at a group's barrier begins its next phase (R239). A lapsed reservation is gone (R231). -/
def Obligations.EngineServes : Prop :=
  (∀ old b, (old < 2 ^ 32 → b < 2 ^ 32 →
      amoNew .add4 old b = (old + b) % 2 ^ 32 ∧ sgn 32 (amoNew .min4 old b) = min (sgn 32 old) (sgn 32 b)
      ∧ sgn 32 (amoNew .max4 old b) = max (sgn 32 old) (sgn 32 b)
      ∧ amoNew .minn4 old b = min old b ∧ amoNew .maxn4 old b = max old b ∧ amoNew .swap4 old b = b
      ∧ amoNew .fadd4 old b = (fadd32 old b .rne false).1 ∧ amoNew .fmin4 old b = (minMaxNum .f32 false old b).1
      ∧ amoNew .fmax4 old b = (minMaxNum .f32 true old b).1)
    ∧ (old < 2 ^ 64 → b < 2 ^ 64 →
      amoNew .add8 old b = (old + b) % 2 ^ 64 ∧ amoNew .minn8 old b = min old b ∧ amoNew .maxn8 old b = max old b
      ∧ amoNew .and8 old b = old &&& b ∧ amoNew .or8 old b = old ||| b ∧ amoNew .xor8 old b = old ^^^ b ∧ amoNew .swap8 old b = b))
  ∧ ((∀ s id r ea n k pa ls, reqOf s.m id = some r → reqPlace r = some (.virt ea, n, k) → k ≠ .app → k ≠ .snap → mayPerform s.m r = true →
    r.granted = none → virtR s.m r ea n k = .ok ls → faultR s.m r false ls = none → ls.head? = some (.hbm pa) →
    (modifies r = true → waitsThere r = false → heldByResv s.m (ctxCode r.past r.who) ls = false) →
    let ends := fun v => modReq s.m id (fun q => { q with done := true, res := some [tokNat v] })
    (∀ op b fetch, r.op = .amo op ea b fetch →
      let old := memRead s.m.mem.hbm pa n
      let m1 := writeLocs (ends (if fetch then old else 0)) (ls.take n) (bytesOf (amoNew op old b) n)
      exec (.syncEngineService id .perform) s = .next { s with m := m1 })
    ∧ (∀ old new, r.op = .cas ea n old new → memRead s.m.mem.hbm pa n ≠ old →
      let m1 := casCount s.m (ctxCode r.past r.who) (pa * 16 + n) false
      exec (.syncEngineService id .perform) s = .next { s with m := finish m1 id (casRes r.who (memRead s.m.mem.hbm pa n) false) })
    ∧ (∀ old new, r.op = .cas ea n old new → memRead s.m.mem.hbm pa n = old →
      let m1 := modReq (casCount s.m (ctxCode r.past r.who) (pa * 16 + n) true) id
        (fun q => { q with done := true, res := some [tokNat (casRes r.who old true)] })
      exec (.syncEngineService id .perform) s = .next { s with m := writeLocs m1 ls (bytesOf new n) })
    ∧ (∀ c, r.op = .arrive ea c →
      let old := memRead s.m.mem.hbm pa 8
      let new := old / 2 ^ 32 * 2 ^ 32 + min (old % 2 ^ 32 + c) (2 ^ 32 - 1)
      exec (.syncEngineService id .perform) s = .next { s with m := writeLocs (ends 0) (ls.take 8) (bytesOf new 8) })
    ∧ (∀ v, r.op = .futw ea v → bitAt (memRead s.m.mem.hbm pa 16) 64 = true →
      exec (.syncEngineService id .perform) s = .next { s with m := finish s.m id (2 ^ 63) })
    ∧ (∀ v, r.op = .futw ea v → bitAt (memRead s.m.mem.hbm pa 16) 64 = false →
      let new := memRead s.m.mem.hbm pa 16 / 2 ^ 65 * 2 ^ 65 + 2 ^ 64 + v
      exec (.syncEngineService id .perform) s = .next { s with m := writeLocs (ends 0) (ls.take 16) (bytesOf new 16) })
    ∧ (((∃ c b, r.op = .waita ea n c b) ∨ (∃ t x, r.op = .waitc ea t x) ∨ r.op = .futr ea) →
      exec (.syncEngineService id .perform) s = .next { s with m := wake (modReq { s.m with ids := s.m.ids + 1 } id (fun q => { q with granted := some (pa, s.m.ids) })) }))
  ∧ (∀ s id r ea n c b u w k pa ls, s.m.mem.reqs = [r] → r.id = id → r.op = .waita ea n c b → r.who = .unit u w → isShepherd u = true →
    r.dst = .sreg u k → ea < 255 * 2 ^ 56 → mayPerform s.m r = true → r.granted = none → r.res = none → virtR s.m r ea n .atomR = .ok ls →
    faultR s.m r false ls = none → ls.head? = some (.hbm pa) → pa < 2 ^ 60 → (∀ p < 16, (pastOf s.m p).ending = none) →
    ∃ t, exec (.syncEngineService id .perform) s = .next t ∧ t.m.mem.hbm = s.m.mem.hbm
      ∧ (wcond (8 * n) c (memRead s.m.mem.hbm pa n) b = true → sReg t.m u k = memRead s.m.mem.hbm pa n % 2 ^ 64 ∧ t.m.mem.reqs = [])
      ∧ (wcond (8 * n) c (memRead s.m.mem.hbm pa n) b = false → t.m.seq = s.m.seq ∧ t.m.mem.reqs = [{ r with granted := some (pa, s.m.ids) }]))
  ∧ (∀ m k ctx x, tfind k m.sync.groups = some x → x.members.contains ctx = true → x.arrived.contains ctx = false →
    tfind k (arriveGroup m k ctx).sync.groups = some (if x.arrived.length + 1 = x.members.length then
      { x with arrived := [], phase := (x.phase + 1) % 65536, wclass := 0 } else { x with arrived := ctx :: x.arrived }))
  ∧ (∀ s w, ∃ t, exec (.reservationLapse w) s = .next t ∧ tfind w t.m.sync.resv = none
      ∧ (∀ x, x ≠ w → tfind x t.m.sync.resv = tfind x s.m.sync.resv) ∧ t.m.sync.cas = s.m.sync.cas))


/-! ## Class 0x8_: copies, tiles, nodes, streams -/

/-- COPY, COPYA and COPYI make a copy and the request for its ticket. It is judged as it is issued, which is at once unless an earlier access
of its chain, or its place there, holds it back (R201, R263): a copy that R262 admits takes its place in the order of issue and waits for a slot,
another is refused with its ticket (R261, R262). That COPYI's indices are judged then and that a handle number beside a scratchpad endpoint is
refused is the model's reading (log 53). A copy whose handle is pending waits for it (R206). -/
def Obligations.CopiesIssue : Prop :=
  ∀ f d a b s i k, ((i = .copy f d a b ∧ k = 0) ∨ (i = .copya f d a b ∧ k = 1) ∨ (i = .copyi f d a b ∧ k = 2)) →
    handStall s.m [f.hd.val, f.hs.val] = false → memStarts s.m [a, b] [d] (pairReg s.m true a) = true →
    let m := readDone s.m [a, b] [d]
    let vec := wideVal s.m a % 2 ^ 128
    let bw := payOf s.m .whole b % 2 ^ 64
    let pends := (!bitAt bw 32 && (readHand m f.hd.val).2.isSome) || (!bitAt bw 33 && (readHand m f.hs.val).2.isSome)
    let m1 := copyMade m f d k vec bw
    let r := copyNew m f k vec bw 0 false
    (pends = false → copyIssues m1 r = false → exec i s = .next { s with m := m1 })
    ∧ (pends = false → copyIssues m1 r = true →
      (∀ ds A, copyDesc m1 r k vec ds → copyArgs (copyNew m f k vec bw ds true) = some A →
        (copyOk m1 (copyNew m f k vec bw ds true) A = true →
          exec i s = .next { s with m := setReq { m1 with copy.issued := m1.copy.issued ++ [m.ids] } (copyNew m f k vec bw ds true) })
        ∧ (copyOk m1 (copyNew m f k vec bw ds true) A = false → exec i s = .next { s with m := refuseCopy m1 r A }))
      ∧ (∀ A, k ≠ 0 → (vec / 2 ^ 64 % 16 ≠ 0 ∨ spRead m1 r (bits vec 64 32) 32 = none) →
        copyArgs (copyNew m f k vec bw ((spRead m1 r (bits vec 64 32) 32).getD 0) true) = some A →
        exec i s = .next { s with m := refuseCopy m1 r A }))
    ∧ (pends = true →
      let m2 := addReq m (copyWaits m f k vec bw)
      exec i s = .next { s with m := addReq m2 { mkReq m2 (dstOf m d false) (.ticket m.ids) 5 false false with pos := none } })

/-- CQRY gives the state, failures and bytes of a ticket's copy (R266). AGLD, AGST and PLSET ask for their tile or node, or answer 2^63 + 3
or 2^63 + 2 for a binding or configuration that R269 or R271 refuses; BOPEN, BCLOSE and CFLUSH make their requests (R273, R275). The oldest waiting copy of an engine gets a free slot, whose generation rises, and its ticket (R259, R266); its completion moves every
byte of a unit that does not fail, of a scatter the last that names an element, a failed unit writes a record, and then its value, or the failure value,
goes to CW (R262, R264, R265); its payload takes a credit of its engine's port for each flit (R39; that the effect comes with the last is the
model's choice, log 14). A tile starts at
A with s0 and s1 once the accesses before it are performed (R410 in the model's reading, log 105), and keeps the program that it reads then (R269); a pre-empted one goes on
from where it stood, with its node (R425). A tile releases what its coalescing unit holds (R270), and a
node whose tile does not run takes its configuration (R271). -/
def Obligations.StreamsAndCopies : Prop :=
  ((∀ d a s, memStarts s.m [a] [d] [] = true → exec (.cqry d a) s = .next (after s [a] [d] (fun m =>
      resultNow m (dstOf m d false) (.ticket 0) (tokNat (cqryWord m (pastOfActor m m.cur) (payOf s.m .whole a % 2 ^ 64))))))
  ∧ (∀ m p core slot gen, core < 768 → slot < 96 → gen < 65536 → bitAt (pastOf m p).cset core = true →
      let x := slotOf m core slot
      cqryWord m p (copyTicket core gen slot) = if x.gen ≠ gen then 3 * 2 ^ 62 else
        (if x.busy then 2 ^ 62 else if x.failed = 0 then 0 else 2 ^ 63) + x.failed * 2 ^ 32 + x.bytes)
  ∧ (∀ d a b s i ld, (i = .agld d a b ∧ ld = true ∨ i = .agst d a b ∧ ld = false) → memStarts s.m [a, b] [d] [] = true →
    let bw := payOf s.m .whole b % 2 ^ 64
    (bindOk (readDone s.m [a, b] [d]) (pastOfActor s.m s.m.cur) bw = true → exec i s = .next (issued s [a, b] [d] (fun m =>
      mkReq m (dstOf m d false) (.ag ld (payOf s.m .whole a % 2 ^ 56) bw none) 5 false true)))
    ∧ (bindOk (readDone s.m [a, b] [d]) (pastOfActor s.m s.m.cur) bw = false →
      exec i s = .next (answered s [a, b] d .tile (2 ^ 63 + 3))))
  ∧ (∀ d a b s, memStarts s.m [a, b] [d] [] = true →
    let c := payOf s.m .whole a % 2 ^ 64
    (plsetOk c = true → exec (.plset d a b) s = .next (issued s [a, b] [d] (fun m =>
      mkReq m (dstOf m d false) (.plset c (payOf s.m .whole b % 2 ^ 32)) 5 false false)))
    ∧ (plsetOk c = false → exec (.plset d a b) s = .next (answered s [a, b] d .tile (2 ^ 63 + 2))))
  ∧ (∀ f d a b s, memStarts s.m [a, b] [d] [] = true → exec (.cflush f d a b) s = .next (after s [a, b] [d] (fun m => markFences (addReq m
      (mkReq m (dstOf m d false) (.cflush f.bit (payOf s.m .whole a % 2 ^ 56) (payOf s.m .whole b % 2 ^ 32) none) 5 false false)))))
  ∧ (∀ f d a b s, memStarts s.m [a, b] [d] [] = true → exec (.bopen f d a b) s = .next (issued s [a, b] [d] (fun m =>
      mkReq m (dstOf m d false) (.bopen f.bit (payOf s.m .whole a % 2 ^ 64) (payOf s.m .whole b % 2 ^ 32)) 5 false false)))
  ∧ (∀ d a s, memStarts s.m [a] [d] [] = true → exec (.bclose d a) s = .next (issued s [a] [d] (fun m =>
      mkReq m (dstOf m d false) (.bclose (payOf s.m .whole a % 2 ^ 64)) 5 false false))))
  ∧ ((∀ s id r A, reqOf s.m id = some r → waitsSlot r = true → copyArgs r = some A →
    let core := copyCore s.m r A
    (∀ q ∈ s.m.mem.reqs, (waitsSlot q = true ∨ copyPends s.m q = true) → q.id ≠ id → copyEarlier s.m r q = true →
      ∀ B, copyArgs q = some B → copyCore s.m q B ≠ core) →
    copyFrozen s.m r = false → engineHeld s.m core = false → freeSlots s.m core ≠ [] →
    ∃ i ∈ freeSlots s.m core,
      let g := ((slotOf s.m core i).gen + 1) % 65536
      let m1 := modReq (setSlot { s.m with free := s.m.free + 1 } core i ⟨g, true, 0, 0⟩) id (fun x => { x with granted := some (i, g) })
      let isT := fun (q : Req) => match q.op with | .ticket t => t == id | _ => false
      (∀ t, m1.mem.reqs.find? isT = some t → exec (.copySlotGrant id) s = .next { s with m := finish m1 t.id (copyTicket core g i) })
      ∧ (m1.mem.reqs.find? isT = none → exec (.copySlotGrant id) s = .next { s with m := m1 }))
  ∧ (∀ s id r A i g ps bad ls, reqOf s.m id = some r → copyArgs r = some A → r.granted = some (i, g) → mayPerform s.m r = true →
    rangeHeld s.m r = false → copyPairs s.m r A.kind A.vec A.desc = some ps → s.m.copy.moved.contains id = false →
    let core := copyCore s.m r A
    engineHeld s.m core = false → copyHeld s.m r A bad = false →
    let os := (upto ps.length).map (fun j => copyByte s.m r A bad j ((ps[j]?).getD (0, 0)))
    let us := badUnits os
    let good := goodBytes s.m r A ps os
    let places := copyPlaces s.m r A ps
    let phys := fun side : Nat => match (if side = 0 then A.src else A.dst) with | .hand _ hv => hType hv == 8 | .sp => false
    let m0 := { sendFlits (countCopy s.m r A ps) r places with free := s.m.free + ps.length }
    let m1 := writeLocs (unitRecords (markUnits m0 r places us) r (copyTicket core g i) phys us) (good.map (·.1)) (good.map (·.2))
    let m2 := setSlot m1 core i ⟨g, true, min us.length 65535, min good.length (2 ^ 32 - 1)⟩
    itemHeld m2 r.past (copyTicket core g i) = false →
    let m3 := delReq (setSlot m2 core i ⟨g, false, min us.length 65535, min good.length (2 ^ 32 - 1)⟩) id
    let m4 := { m3 with copy.issued := m3.copy.issued.filter (· != id), copy.moved := m3.copy.moved.filter (· != id) }
    scratchLocs m4 r.who r.past (bits A.vec 96 32) 4 = .ok ls →
    let m5 := serveParts (writeLocs m4 ls (bytesOf (if us = [] then bits A.bw 0 32 else 0xFFFFFFFF) 4))
    reqOf m5 id = none →
    let b := bucketOf s (1000 + core)
    let n := max 1 ((ps.length + 15) / 16)
    let due := n - tget 0 id s.pow.paid
    exec (.copyCompletion id bad) s = .next (if b.level < due then
        (let s1 := putBucket s (1000 + core) { b with level := 0 }
         { s1 with pow.capped := true, pow.paid := tput 0 id (n - due + b.level) s1.pow.paid })
      else
        (let s1 := putBucket { s with m := m5 } (1000 + core) { b with level := b.level - due }
         { s1 with pow.paid := tput 0 id 0 s1.pow.paid })))
  ∧ (∀ m r A ps (moves : List (Loc × Byte)), A.kind ≠ 2 → moves.length = ps.length →
    goodBytes m r A ps (moves.map (fun x => .ok x.1 x.2)) = moves)
  ∧ (∀ s id r ld addr bw, reqOf s.m id = some r → r.op = .ag ld addr bw none → addr < 2 ^ 56 → mayPerform s.m r = true →
    let u := bindTile bw
    thas u s.m.copy.tiles = false → (∀ q ∈ s.m.mem.reqs, q.id < id → running s.m q.past = true → ∀ l x y z, q.op = .ag l x y z → bindTile y ≠ u) →
    ∃ t, exec (.agTileStart id) s = .next t ∧ (unitOf t.m u).run = .running ∧ (unitOf t.m u).w = 0 ∧ (unitOf t.m u).base = addr
      ∧ (unitOf t.m u).past = r.past ∧ sReg t.m u 0 = bits bw 32 32 ∧ sReg t.m u 1 = addr ∧ (∀ n, 1 < n → sReg t.m u n = 0)
      ∧ tfind u t.m.copy.tiles = some ⟨ld, bits bw 26 2, chanKey (bits bw 0 10) (bits bw 10 4) (bits bw 14 3), id,
          tileCode (setUnit s.m u (unitOf t.m u)) u addr, [], none⟩
      ∧ t.m.mem = s.m.mem)
  ∧ (∀ s id r ld addr bw x, reqOf s.m id = some r → r.op = .ag ld addr bw (some x) → mayPerform s.m r = true →
    let u := bindTile bw
    thas u s.m.copy.tiles = false → (∀ q ∈ s.m.mem.reqs, q.id < id → running s.m q.past = true → ∀ l x y z, q.op = .ag l x y z → bindTile y ≠ u) →
    let m1 := setUnit { setReq s.m { r with op := .ag ld addr bw none } with
      copy.tiles := tset u x.bind s.m.copy.tiles
      copy.nodes := (match x.node with | some n => tput Node.reset (u - 272) n s.m.copy.nodes | none => s.m.copy.nodes) } u x.unit
    exec (.agTileStart id) s = .next { s with m := flush (deliverParked m1 r.past (fun a => match a with | .unit v _ => v == u | _ => false)) })
  ∧ (∀ s u, ∃ t, exec (.coalesceRelease u) s = .next t ∧ tget 0 u t.m.copy.held = 0
      ∧ (∀ v, v ≠ u → tget 0 v t.m.copy.held = tget 0 v s.m.copy.held) ∧ t.m.mem = s.m.mem)
  ∧ (∀ s id r c k, reqOf s.m id = some r → r.op = .plset c k →
    let n := bits c 59 3 * 8 + bits c 56 3
    thas (272 + n) s.m.copy.tiles = false → tileSaved s.m r.past (272 + n) = false → gated s.m r = false → exec (.nodeConfiguration id) s =
      .next { s with m := finish { s.m with copy.nodes := tput Node.reset n ⟨c, k, [], [], 0, 0⟩ s.m.copy.nodes } id 0 }))

/-- Another package, a UALink peer and the host write local HBM as one write of the coherence order, and read it without changing
it; the host receives the bytes, or Unsupported Request before READY, and a peer's request takes the flits that its lane has brought in (R39, R197, R231, R244, R439, R440).
Another package's AMO and CAS apply their operation to the word in one step, a CAS counting for its context. While its bank is reserved for
another row, its page moves or its word is reserved such an access waits, and one of a package while the module is held (R231, R275, R406, R448). The HBM controllers: a reserved bank is precharged and reopened by a refresh and force-closed with a STREAM_TIMEOUT record (R276; its KIND 8 and address are the model's reading, log 65, and that a refresh counts an activation log 102), a
queued write drains (R277), a third failed replay degrades the pseudo-channel (R279; a successful one has no effect that software sees, log 76), a row at its activation threshold waits for the
refresh management of its neighbours, with which its counter starts again, and a corrupted counter counts as at threshold (R280). An
uncorrectable unit is marked and logged, a corrected one logged (R281). -/
def Obligations.ControllerEvents : Prop :=
  (∀ s a n ln l (v : BitVec 128), n ≤ 16 → a + n ≤ 2 ^ 39 →
    let ls := (upto n).map (fun i => Loc.hbm (a + i))
    rowsHeld s.m ls = false → locsMoving s.m ls = false →
    (heldByResv s.m (18 * 16384) ls = false →
      let k := max 1 ((n + 15) / 16)
      let t := { s with m := storeLocs s.m ls (bytesOf v.toNat n) }
      (tfind ln s.m.fab.rx = some l → k ≤ l.came → s.m.host.phase ≠ 0 → exec (.peerRequest ⟨a, n, .write v, ln⟩) s
        = .next { s with m := storeLocs { s.m with fab.rx := tset ln { l with came := l.came - k } s.m.fab.rx } ls (bytesOf v.toNat n) })
      ∧ (s.m.host.ports ≠ 0 → s.m.host.phase ≠ 0 → exec (.ualinkPeerAccess ⟨a, n, .write v, ln⟩) s = .next t)
      ∧ (s.m.host.phase = 7 → exec (.hostMemoryAccess ⟨a, n, .write v, ln⟩) s = .next t))
    ∧ (tfind ln s.m.fab.rx = some l → 1 ≤ l.came → s.m.host.phase ≠ 0 → exec (.peerRequest ⟨a, n, .read, ln⟩) s
      = .next { s with m.fab.rx := tset ln { l with came := l.came - 1 } s.m.fab.rx })
    ∧ exec (.ualinkPeerAccess ⟨a, n, .read, ln⟩) s = .next s
    ∧ (s.m.host.phase = 7 → ls.any (fun l => (locFault s.m .idle l).isSome) = false → exec (.hostMemoryAccess ⟨a, n, .read, ln⟩) s
      = .next { s with m.host.bar2 := .data n (memRead s.m.mem.hbm a n) })
    ∧ (s.m.host.phase ≠ 7 → exec (.hostMemoryAccess ⟨a, n, .read, ln⟩) s = .next { s with m.host.bar2 := .unsupported }
      ∧ exec (.hostMemoryAccess ⟨a, n, .write v, ln⟩) s = .next s))
  ∧ (∀ s acc, outsideWaits s.m acc = true ∨ s.m.host.phase = 0 ∨ tfind acc.lane s.m.fab.rx = none → exec (.peerRequest acc) s = .next s)
  ∧ (∀ s a op (b : BitVec 64) ln l, let n := AmoOp.bytes op
    let ls := (upto n).map (fun i => Loc.hbm (a + i))
    a % n = 0 → a + n ≤ 2 ^ 39 → outsideWaits s.m ⟨a, n, .amo op b, ln⟩ = false → ls.any (fun l => (locFault s.m .idle l).isSome) = false →
    tfind ln s.m.fab.rx = some l → 1 ≤ l.came → s.m.host.phase ≠ 0 →
    let m0 := { s.m with fab.rx := tset ln { l with came := l.came - 1 } s.m.fab.rx }
    exec (.peerRequest ⟨a, n, .amo op b, ln⟩) s
      = .next { s with m := writeLocs m0 ls (bytesOf (amoNew op (memRead s.m.mem.hbm a n) (b.toNat % 256 ^ n)) n) })
  ∧ (∀ s a n ctx (old new : BitVec 64) ln l, (n = 4 ∨ n = 8) → a % n = 0 → a + n ≤ 2 ^ 39 →
    let ls := (upto n).map (fun i => Loc.hbm (a + i))
    outsideWaits s.m ⟨a, n, .cas ctx old new, ln⟩ = false → ls.any (fun l => (locFault s.m .idle l).isSome) = false →
    tfind ln s.m.fab.rx = some l → 1 ≤ l.came → s.m.host.phase ≠ 0 →
    let ok := memRead s.m.mem.hbm a n == old.toNat % 256 ^ n
    let m0 := { s.m with fab.rx := tset ln { l with came := l.came - 1 } s.m.fab.rx }
    let m1 := casCount m0 (20 * 16384 + ctx) (a * 16 + n) ok
    exec (.peerRequest ⟨a, n, .cas ctx old new, ln⟩) s
      = .next { s with m := if ok then writeLocs m1 ls (bytesOf (new.toNat % 256 ^ n) n) else m1 })
  ∧ ((∀ (s : State) row x, s.m.mem.rows.find? (fun y => y.row == row) = some x → logRoom s.m x.past = false → exec (.forceClose row) s = .next s)
  ∧ (∀ (s : State) row x, s.m.mem.rows.find? (fun y => y.row == row) = some x → logRoom s.m x.past = true →
    let m1 := { s.m with
      mem.rows := s.m.mem.rows.filter (fun y => y.row != row)
      mem.forced := s.m.mem.forced ++ [(row, x.holder)]
      mem.rowAct := tset row (tget 0 row s.m.mem.rowAct + 1) s.m.mem.rowAct }
    let detail := row / 2 ^ 40 % 8 + Config.rowChannel row % 64 * 16
    let fr : FRec := ⟨BitVec.ofNat 128 (originAct x.holder x.act 0x0B detail), true, row % 2 ^ 40 * 8192 + row / 2 ^ 40 % 8 * 256, 8, 0x0B, 0, 0⟩
    exec (.forceClose row) s = .next { s with m := faultRec m1 x.past .idle fr })
  ∧ (∀ s row, s.m.mem.rows.any (fun x => x.row == row) = true → ∃ t, exec (.dramRefresh row) s = .next t
      ∧ tget 0 row t.m.mem.rowAct = tget 0 row s.m.mem.rowAct + 1 ∧ t.m.mem.rows = s.m.mem.rows ∧ t.m.mem.hbm = s.m.mem.hbm)
  ∧ (∀ s pc, ∃ t, exec (.writeDrain pc) s = .next t ∧ tget 0 pc t.m.mem.wq = tget 0 pc s.m.mem.wq - 1
      ∧ t.m.mem.drain = (if tget 0 pc s.m.mem.wq ≤ 17 then s.m.mem.drain.erase pc else s.m.mem.drain) ∧ t.m.mem.hbm = s.m.mem.hbm)
  ∧ (∀ s pc, exec (.parityAlert pc false) s = .next s)
  ∧ (∀ (s : State) pc, let m1 := { s.m with
      mem.degraded := if s.m.mem.degraded.contains pc then s.m.mem.degraded else pc :: s.m.mem.degraded
      mem.bruoshLog := s.m.mem.bruoshLog ++ [(0x10000, pc)] }
    (∀ q ∈ s.m.mem.reqs, q.done = true ∨ onChannel m1 pc q = none) → exec (.parityAlert pc true) s = .next { s with m := m1 })
  ∧ (∀ s row, ∃ t, exec (.activationThreshold (.alert row)) s = .next t ∧ row ∈ t.m.mem.alerts
      ∧ (∀ x, x ≠ row → (x ∈ t.m.mem.alerts ↔ x ∈ s.m.mem.alerts)) ∧ t.m.mem.rowAct = s.m.mem.rowAct ∧ t.m.mem.hbm = s.m.mem.hbm)
  ∧ (∀ s row, ∃ t, exec (.activationThreshold (.managed row)) s = .next t ∧ tget 0 row t.m.mem.rowAct = 0 ∧ row ∉ t.m.mem.alerts
      ∧ (∀ x, x ≠ row → tget 0 x t.m.mem.rowAct = tget 0 x s.m.mem.rowAct ∧ (x ∈ t.m.mem.alerts ↔ x ∈ s.m.mem.alerts))
      ∧ t.m.mem.hbm = s.m.mem.hbm)
  ∧ (∀ s row, ∃ t, exec (.activationThreshold (.corrupt row)) s = .next t ∧ tget 0 row t.m.mem.rowAct = 0 ∧ row ∈ t.m.mem.alerts
      ∧ t.m.mem.bruoshLog = s.m.mem.bruoshLog ++ [(0x10002, row)] ∧ t.m.mem.hbm = s.m.mem.hbm)
  ∧ (∀ s u, u < 2 ^ 33 → ∃ t, exec (.backgroundScrub u true) s = .next t ∧ u ∈ t.m.mem.badHbm
      ∧ t.m.mem.bruoshLog = s.m.mem.bruoshLog ++ [(0x10001, u)] ∧ t.m.mem.hbm = s.m.mem.hbm)
  ∧ (∀ s u, u < 2 ^ 33 → exec (.backgroundScrub u false) s = .next { s with m.mem.bruoshLog := s.m.mem.bruoshLog ++ [(0x10003, u)] })
  ∧ (∀ s u x, 2 ^ 33 ≤ u → exec (.backgroundScrub u x) s = .next s))


/-! ## Class 0x5_: matrix arrays -/

/-- MXWLD, MXWBUF, MXFMT, MXRUN, MXACC, MXDRN, MXST and MXWAIT enter the queue of their array with their operands (R284, R291-R304); in
S-form MXST and MXWAIT name their core, MXST taking one of its four places (R285). MXMODE asks for the mode or answers at once (R305), CTURN
sets the size that waits (R301). A command stands last in the queue. A core outside the pasture traps MXST and MXWAIT and fails MXMODE, and a fifth MXST waits. -/
def Obligations.MatrixCommands : Prop :=
  (∀ f a b s, memStarts s.m [a, b] [] [] = true → (srcVal s.m .whole b).scaled = false → exec (.mxwld f a b) s =
    .next (queued s [a, b] [] (fun _ => .drop) (.wld f.fmt (payOf s.m .whole a % 2 ^ 64) (payOf s.m .whole b % 2 ^ 64))))
  ∧ (∀ d a b s, memStarts s.m [a, b] [d] [] = true → exec (.mxwbuf d a b) s =
    .next (queued s [a, b] [d] (fun m => dstOf m d false) (.wbuf (payOf s.m .whole a % 2 ^ 64) (payOf s.m .whole b % 2 ^ 64))))
  ∧ (∀ f a b s, memStarts s.m [a, b] [] [] = true → exec (.mxfmt f a b) s =
    .next (queued s [a, b] [] (fun _ => .drop) (.fmt f.fmt f.os (payOf s.m .whole a % 2 ^ 64) (payOf s.m .whole b % 2 ^ 64))))
  ∧ (∀ d a b s, memStarts s.m [a, b] [d] [] = true → exec (.mxrun d a b) s =
    .next (queued s [a, b] [d] (fun m => dstOf m d false) (.run (payOf s.m .whole a % 2 ^ 64) (payOf s.m .whole b % 2 ^ 64))))
  ∧ (∀ f d a b s, memStarts s.m [a, b] [d] [] = true → exec (.mxdrn f d a b) s = .next (queued s [a, b] [d] (fun m => dstOf m d false)
      (.drn f.fmt f.rnd f.sat f.ch (payOf s.m .whole a % 2 ^ 64) (payOf s.m .whole b % 2 ^ 64))))
  ∧ (∀ f n s core pe fr k b c, s.m.cur = .pe core pe fr k b c →
    exec (.mxacc f n) s = .next { s with m := pushCmd s.m (pastOfActor s.m s.m.cur) core .drop false (.acc n.val f.sat f.clr) })
  ∧ (∀ f d a s core pe fr k b c, s.m.cur = .pe core pe fr k b c → memStarts s.m [a] [d] [] = true → exec (.mxst f d a) s =
    .next (queued s [a] [d] (fun m => dstOf m d false) (.st f.bit (payOf s.m .whole a % 2 ^ 64 % 4))))
  ∧ (∀ f d a s u w, s.m.cur = .unit u w → memStarts s.m [a] [d] [] = true →
    let m := readDone s.m [a] [d]
    let p := pastOfActor m m.cur
    let core := bits (payOf s.m .whole a % 2 ^ 64) 16 10
    let op := ArrOp.st f.bit (payOf s.m .whole a % 2 ^ 64 % 4)
    coreIn m p core = true → sPlaces (arrQOf m p core) < 4 →
    exec (.mxst f d a) s = .next { s with m := pushCmd m p core (dstOf m d false) false op })
  ∧ (∀ d a s core pe fr k b c, s.m.cur = .pe core pe fr k b c → exec (.mxwait d a) s =
    .next { s with m := pushCmd s.m (pastOfActor s.m s.m.cur) core (dstOf s.m d false) false .wait })
  ∧ (∀ d a s u w, s.m.cur = .unit u w → memStarts s.m [a] [d] [] = true →
    let m := readDone s.m [a] [d]
    let p := pastOfActor m m.cur
    coreIn m p (payOf s.m .whole a % 2 ^ 10) = true →
    exec (.mxwait d a) s = .next { s with m := pushCmd m p (payOf s.m .whole a % 2 ^ 10) (dstOf m d false) true .wait })
  ∧ (∀ f d a s, memStarts s.m [a] [d] [] = true →
    let core := payOf s.m .whole a % 2 ^ 10
    coreIn s.m (pastOfActor s.m s.m.cur) core = true →
    (s.m.mat.mode.contains core = f.bit → exec (.mxmode f d a) s = .next (answered s [a] d (.mode core f.bit) 0))
    ∧ (s.m.mat.mode.contains core ≠ f.bit → exec (.mxmode f d a) s = .next (issued s [a] [d] (fun m =>
        mkReq m (dstOf m d false) (.mode core f.bit) 5 false false))))
  ∧ (∀ f (ch : Fin 8) s core pe fr k b c, s.m.cur = .pe core pe fr k b c → ∃ t, exec (.cturn f ch) s = .next t
      ∧ chanOf t.m (chanKey core pe ch.val) = { chanOf s.m (chanKey core pe ch.val) with pendNode := some (TurnK.size f.k) }
      ∧ (∀ x, x ≠ chanKey core pe ch.val → chanOf t.m x = chanOf s.m x) ∧ t.m.mem = s.m.mem)
  ∧ (∀ f a b s, memStarts s.m [a, b] [] [] = true → (srcVal s.m .whole b).scaled = true → exec (.mxwld f a b) s = .next (after s [a, b] [] (fun m =>
      poisonSink m m.cur (poison m m.cur 0x05 1))))
  ∧ (∀ d a s u w f, s.m.cur = .unit u w → memStarts s.m [a] [d] [] = true →
    let m := readDone s.m [a] [d]
    let p := pastOfActor m m.cur
    let x := payOf s.m .whole a % 2 ^ 64
    (coreIn m p (x / 2 ^ 16 % 2 ^ 10) = false → exec (.mxst f d a) s = .next { s with m := trapForm m u w 0x03 0 })
    ∧ (coreIn m p (x / 2 ^ 16 % 2 ^ 10) = true → 4 ≤ sPlaces (arrQOf m p (x / 2 ^ 16 % 2 ^ 10)) → exec (.mxst f d a) s = .next { s with m := stall m })
    ∧ (coreIn m p (x % 2 ^ 10) = false → exec (.mxwait d a) s = .next { s with m := trapForm m u w 0x03 0 }
      ∧ exec (.mxmode f d a) s = .next (answered s [a] d (.mode (x % 2 ^ 10) f.bit) (2 ^ 63 + 0x11))))
  ∧ (∀ m p core dst pend op, (op = .wait → isUnit m.cur = false) →
    (∀ c ∈ (arrQOf m p core).queue.head?, c.op = .wait → isUnit c.who = false) →
    (arrQOf (pushCmd m p core dst pend op) p core).queue = (arrQOf m p core).queue ++ [⟨op, m.ids, m.cur⟩])

/-- The array executes the head of its queue in systolic mode, and the command leaves the queue as it completes; a drain sends its tokens in order and then completes, a mode change empties
what it must, and a corner-turn node takes its new size once it is empty (R283, R284, R300, R301, R305). MXWLD latches a tile sequence and its first tile (R292), MXACC
selects a bank and its saturate mode and clears it under .clr (R295), MXST gives the status word and clears it under .clr (R303). MXRUN adds the chunk's products to each
element of a row (R106), skips a marked row and marks one that cannot be read, row by row and chunk by chunk; it ends with TILES, the tile
registers and its result (R296-R298). That one row is one turn of the array is the model's choice (log 6). -/
def Obligations.MatrixEvents : Prop :=
  (∀ s core bad p c rest, arrayPast s.m core = some p → s.m.mat.mode.contains core = true →
    (arrQOf s.m p core).drain = none → (arrQOf s.m p core).queue = c :: rest →
    let m1 := takeHeld s.m core p
    (reqOf m1 c.req = none → exec (.arrayCommand core bad) s = .next { s with m := settleWaits p core 8 (popCmd m1 p core) })
    ∧ (∀ r, reqOf m1 c.req = some r →
      let m2 := doCmd m1 p core r bad c.op
      exec (.arrayCommand core bad) s = .next { s with m :=
        if (arrQOf m2 p core).drain.isSome || (arrQOf m2 p core).prog.isSome then m2 else settleWaits p core 8 (popCmd m2 p core) }))
  ∧ (∀ m core p, livePast m core = some p → running m p = true → (arrQOf m p core).queue ≠ [] → arrayPast m core = some p)
  ∧ (∀ m core p, arrayPast m core = some p → (livePast m core = some p ∧ running m p = true)
    ∨ ((pastOf m p).st ≠ .live ∧ (pastOf m p).image = none ∧ (arrQOf m p core).queue ≠ []))
  ∧ (∀ s core bad, s.m.mat.mode.contains core = false → exec (.arrayCommand core bad) s = .next s)
  ∧ (∀ m p core r bad fmt a b, let h := heldOf m core
    let first := a % 32
    let count := a / 2 ^ 8 % 8 + 1
    let tile := (tfind first h.wbuf).getD (List.replicate 6144 0 ++ List.replicate 192 0x7F)
    let ok : Bool := a / 2 ^ 5 % 8 == 0 && bits a 11 53 == 0 && first + count ≤ 32
    (ok = false → doCmd m p core r bad (.wld fmt a b) = refuseCmd m r (a % 2 ^ 32))
    ∧ (ok = true → doCmd m p core r bad (.wld fmt a b) = finish (setHeld (setArrQ m p core { arrQOf m p core with
        first := first, count := count, wfmt := fmt, outerW := b % 2 ^ 32, seqOn := true }) core
      { h with active := some ⟨tile, fmt, b % 2 ^ 32⟩ }) r.id 0))
  ∧ (∀ m p core r bad n sat clr, n < 4 →
    let m1 := setArrQ m p core { arrQOf m p core with bank := n, satm := setBits (arrQOf m p core).satm n 1 (if sat then 1 else 0) }
    (clr = false → doCmd m p core r bad (.acc n sat clr) = finish m1 r.id 0)
    ∧ (clr = true → ∃ h, doCmd m p core r bad (.acc n sat clr) = finish (setHeld m1 core h) r.id 0 ∧ h.stat = (heldOf m1 core).stat
      ∧ (∀ k < 2048, tget 0 (2048 * n + k) h.acc = 0) ∧ (∀ k, k / 2048 ≠ n → tget 0 k h.acc = tget 0 k (heldOf m1 core).acc)
      ∧ (∀ i < 64, tfind (64 * n + i) h.rowp = none) ∧ (∀ i, i / 64 ≠ n → tfind i h.rowp = tfind i (heldOf m1 core).rowp)))
  ∧ (∀ m p core r bad clr bank, let h := heldOf m core
    doCmd m p core r bad (.st clr bank)
      = finish (if clr then setHeld m core { h with stat := tdel bank h.stat } else m) r.id (tget 0 bank h.stat).toNat)
  ∧ (∀ m core r (q : ArrQ) bad G last ab rb tile i x, let y := runRow m core r q bad G last ab rb tile i x
    let at' := fun n => q.bank * 2048 + i * 32 + n
    let act := spadBytes m core ab (elemBytes q.afmt last)
    let scales := if G = 0 then [] else spadBytes m core rb 16
    let outer := if G = 0 then [] else [if q.os then natOf (scales.take 4) else 0x3F800000, q.outerW]
    let bad? := (arrFault m core bad ab (elemBytes q.afmt last)).orElse (fun _ => if G = 0 then none else arrFault m core bad rb 16)
    (thas (q.bank * 64 + i) x.h.rowp = true → y = x)
    ∧ (∀ u, thas (q.bank * 64 + i) x.h.rowp = false → bad? = some u → y.marked = true ∧ y.bad = u :: x.bad ∧ y.h.acc = x.h.acc
      ∧ tfind (q.bank * 64 + i) y.h.rowp = some (BitVec.ofNat 128 (originReq r 0x01 (core * 2 ^ 19 + 64 * u))))
    ∧ (thas (q.bank * 64 + i) x.h.rowp = false → bad? = none → y.h.rowp = x.h.rowp ∧ y.h.stat = x.h.stat ∧ y.marked = x.marked
      ∧ (∀ n < 32, tget 0 (at' n) y.h.acc = BitVec.ofNat 32 (passElem (chunkSum q.afmt q.wfmt G last act scales tile n) outer
          (tget 0 (at' n) x.h.acc).toNat (bitAt q.satm q.bank)).1)
      ∧ (∀ k, (∀ n < 32, k ≠ at' n) → tget 0 k y.h.acc = tget 0 k x.h.acc)))
  ∧ (∀ x oa ow acc sat,
    let t0 := roundTo x .f32 .rne sat
    let t1 := roundTo (xmul (fval .f32 t0.1) (fval .f32 oa)).1 .f32 .rne sat
    let t2 := roundTo (xmul (fval .f32 t1.1) (fval .f32 ow)).1 .f32 .rne sat
    (passElem x [] acc sat).1 = (roundTo (xadd .rne (fval .f32 acc) (fval .f32 t0.1)).1 .f32 .rne sat).1
    ∧ (passElem x [oa, ow] acc sat).1 = (roundTo (xadd .rne (fval .f32 acc) (fval .f32 t2.1)).1 .f32 .rne sat).1)
  ∧ (∀ m p core r bad a b, let q := arrQOf m p core
    let rows := b % 64 + 1
    let chunks := b / 2 ^ 12 % 8 + 1
    let ab := a % 2 ^ 32
    let field : Bool := q.seqOn && q.actOn && bits b 24 40 == 0 && b / 64 % 64 + rows ≤ 64 && chunks ≤ q.count && ab % 16 == 0 && ab < 2 ^ 19
    (∀ pr E CB G, q.prog = some pr → geometry q.afmt q.wfmt = some (E, CB, G) →
      doCmd m p core r bad (.run a b) = runNext m p core r bad a b E CB G pr)
    ∧ (q.prog = none → field = false → doCmd m p core r bad (.run a b) = refuseCmd m r ab)
    ∧ (q.prog = none → field = true → geometry q.afmt q.wfmt = none → doCmd m p core r bad (.run a b)
      = finish (setHeld m core (markRow (heldOf m core) (q.bank * 64 + b / 64 % 64)
          (BitVec.ofNat 128 (originReq r 0x04 (q.afmt.code + 16 * q.wfmt.code))))) r.id 1)
    ∧ (∀ E CB G, q.prog = none → field = true → geometry q.afmt q.wfmt = some (E, CB, G) →
      let kl := if b / 2 ^ 15 % 2 ^ 9 = 0 then E else b / 2 ^ 15 % 2 ^ 9
      let touched := arrBad m p core (runTouch (heldOf m core) q E CB G chunks rows (b / 64 % 64) kl ab)
      (E < kl → doCmd m p core r bad (.run a b) = refuseCmd m r ab)
      ∧ (∀ x, kl ≤ E → touched = some x → doCmd m p core r bad (.run a b) = refuseCmd m r x)
      ∧ (kl ≤ E → touched = none → doCmd m p core r bad (.run a b) = runNext m p core r bad a b E CB G ⟨0, 0, false⟩)))
  ∧ (∀ m p core r bad a b E CB G pr, let q := arrQOf m p core
    let rows := b % 64 + 1
    let chunks := b / 2 ^ 12 % 8 + 1
    let kl := if b / 2 ^ 15 % 2 ^ 9 = 0 then E else b / 2 ^ 15 % 2 ^ 9
    let j := pr.rows / rows
    let i := pr.rows % rows
    let x := runRow m core r q bad G (if j + 1 = chunks then kl else E) (a % 2 ^ 32 + i * q.rstride + CB * j) (q.sbase + i * q.sstride + 16 * j)
      (wbufTile (heldOf m core) (q.first + j)) (b / 64 % 64 + i) ⟨heldOf m core, [], pr.fl, pr.marked⟩
    let m1 := setHeld (x.bad.foldl (fun m u => markSpad m core u) m) core
      { x.h with stat := tput 0 q.bank (tget 0 q.bank x.h.stat ||| BitVec.ofNat 32 (accFlags (bitAt q.satm q.bank) x.fl)) x.h.stat }
    (pr.rows + 1 ≠ rows * chunks →
      runNext m p core r bad a b E CB G pr = setArrQ m1 p core { q with prog := some ⟨pr.rows + 1, x.fl, x.marked⟩ })
    ∧ (pr.rows + 1 = rows * chunks →
      runNext m p core r bad a b E CB G pr = runEnd (setArrQ m1 p core { q with prog := none }) p core r chunks x.fl x.marked))
  ∧ (∀ m p core r chunks fl marked, let q := arrQOf m p core
    let h := heldOf m core
    let w := (tget 0 q.bank h.stat).toNat
    let tile := fun k => some (⟨(tfind (q.first + k) h.wbuf).getD emptyTile, q.wfmt, q.outerW⟩ : TileReg)
    let h1 := if accFlags (bitAt q.satm q.bank) fl = 0 then h
      else { h with stat := tput 0 q.bank (BitVec.ofNat 32 (min 65535 (w / 65536 + 1) * 65536 + w % 65536)) h.stat }
    runEnd m p core r chunks fl marked = finish (setHeld m core { h1 with
      active := tile (chunks - 1)
      standby := if chunks = 1 then h.standby else tile (chunks - 2) }) r.id
      ((if marked then 1 else 0) + (if w = 0 then 0 else 2)))
  ∧ (∀ s core p d t rest, livePast s.m core = some p → running s.m p = true → (arrQOf s.m p core).drain = some d → d.toks = t :: rest →
    s.m.fab.transit.any (fun t => t.src == 300000 + core) = false →
    let m1 := setArrQ s.m p core { arrQOf s.m p core with drain := some { d with toks := rest } }
    exec (.drainToken core) s = .next { s with m := { m1 with fab.transit := m1.fab.transit ++ [⟨300000 + core, d.dst, t, none⟩] } })
  ∧ (∀ s core p d, livePast s.m core = some p → running s.m p = true → (arrQOf s.m p core).drain = some d → d.toks = [] →
    s.m.fab.transit.any (fun t => t.src == 300000 + core) = false →
    let m1 := setArrQ s.m p core { arrQOf s.m p core with queue := (arrQOf s.m p core).queue.drop 1, drain := none, prog := none }
    exec (.drainToken core) s = .next { s with m := settleWaits p core 8 (finish m1 d.req d.res) })
  ∧ (∀ s core r on, s.m.mem.reqs = [r] → r.done = false → r.op = .mode core on → isShepActor r.who = true →
    (on = true →
      let m1 := { s.m with mat.mode := if s.m.mat.mode.contains core then s.m.mat.mode else core :: s.m.mat.mode }
      exec (.modeChange core) s = .next { s with m := finish m1 r.id 0 })
    ∧ (on = false → arraysEmpty s.m core = false → exec (.modeChange core) s = .next s)
    ∧ (on = false → livePast s.m core = none → arraysEmpty s.m core = true →
      let m1 := match tfind core s.m.mat.owner with | some o => saveHeld s.m core o | none => s.m
      exec (.modeChange core) s = .next { s with m := finish { m1 with mat.mode := m1.mat.mode.erase core } r.id 0 })
    ∧ (∀ p, on = false → livePast s.m core = some p → arraysEmpty s.m core = true →
      let m1 := takeHeld s.m core p
      let m2 := setHeld m1 core { heldOf m1 core with wbuf := [], active := none, standby := none }
      exec (.modeChange core) s = .next { s with m := finish { m2 with mat.mode := m2.mat.mode.erase core } r.id 0 }))
  ∧ (∀ m core q, tget ArrQ.reset core m.mat.q = q → (q.queue ≠ [] ∨ q.drain.isSome = true ∨ q.prog.isSome = true) → core < 768 →
    arraysEmpty m core = false)
  ∧ (∀ s core pe ch k, let x := chanKey core pe ch
    let c := chanOf s.m x
    c.pendNode = some k →
    (c.gather = [] → c.emit = [] → ∃ t, exec (.cornerTurnResize core pe ch) s = .next t
      ∧ chanOf t.m x = { c with node := k, pendNode := none } ∧ (∀ y, y ≠ x → chanOf t.m y = chanOf s.m y))
    ∧ ((c.gather ≠ [] ∨ c.emit ≠ []) → exec (.cornerTurnResize core pe ch) s = .next s))

/-- The exact sum S of a chunk is that of R106: the products of its elements below `last`, each group of 64 times its two scales,
without rounding. -/
def Obligations.ChunkSum : Prop :=
  ∀ fa fw G last act sca tile n (A B S T : Nat → ℚ),
    (∀ i < last, XR.toRat (fval fa (elemAt fa act 0 i)) = some (A i) ∧ XR.toRat (fval fw (elemAt fw tile (192 * n) i)) = some (B i)) →
    (∀ g < G, XR.toRat (scaleVal (byteAt sca (4 + g))) = some (S g) ∧ XR.toRat (scaleVal (byteAt tile (6144 + 32 * g + n))) = some (T g)) →
    let part := fun lo hi => ((upto (hi - lo)).map (fun i => A (lo + i) * B (lo + i))).sum
    XR.toRat (chunkSum fa fw G last act sca tile n) = some (if G = 0 then part 0 last
      else (((upto G).filter (fun g => 64 * g < last)).map (fun g => part (64 * g) (min (64 * g + 64) last) * S g * T g)).sum)


/-! ## Class 0xA_: selection, indices, queues -/

/-- BHIST counts every lane that is no hole in its bucket (R309-R311), BSEL finds the largest bucket from which K entries are reached (R312),
BEXT selects the lanes of its bucket range (R313), PSCAN scans its lanes from the carry of B (R314), TOPP keeps the lanes whose prefix is
below the threshold (R315). -/
def Obligations.SelectionResults : Prop :=
  (∀ s d a b, starts s.m [(.whole, a), (.whole, b), (.whole, d), (.whole, nextReg d)] (.opd d) = true →
    (srcVal s.m .whole a).scaled = false →
    let r := histStep (payOf s.m .whole b % 2 ^ 64) (payOf s.m .whole a) (histOf (payOf s.m .whole d) (payOf s.m .whole (nextReg d)))
    let m := readDone s.m [a, b, d, nextReg d] [d]
    let m1 := putRes (putRes m (.opd d) (Val.ofNat (histLo r.1))) (.opd (nextReg d)) (Val.ofNat (histHi r.1))
    exec (.bhist d a b) s = .next { s with m := sticky m1 r.2 })
  ∧ (∀ sw a h b, h.length = 16 → b < 16 →
    let c := ((lanesOf 32 4 a).filter (fun x => !isHole x && bucket sw x == b)).length
    (h[b]?).getD 0 + c ≤ 65535 → (((histStep sw a h).1)[b]?).getD 0 = (h[b]?).getD 0 + c)
  ∧ (∀ s d a b, starts s.m [(.whole, a), (.whole, nextReg a), (.whole, b)] (.opd d) = true →
    let h := histOf (payOf s.m .whole a) (payOf s.m .whole (nextReg a))
    let t := threshold h (payOf s.m .whole b % 2 ^ 16) 15
    exec (.bsel d a b) s =
      .next (wroteV s [a, nextReg a, b] (.opd d) (Val.ofNat (packLanes 32 [t, histFrom h t, histFrom h (t + 1), histFrom h 0]))))
  ∧ (∀ h k, let t := threshold h k 15
    (t = 0 ∨ k ≤ histFrom h t) ∧ ∀ u, t < u → u ≤ 15 → histFrom h u < k)
  ∧ (∀ s d a b, starts s.m [(.whole, a), (.whole, b), (.whole, d)] (.opd d) = true → (srcVal s.m .whole a).scaled = false →
    let r := bextSum (payOf s.m .whole b % 2 ^ 64) (payOf s.m .whole a) (payOf s.m .whole d)
    exec (.bext ⟨.sum⟩ d a b) s = .next (wrote s [a, b, d] (.opd d) (Val.ofNat r.1) r.2))
  ∧ (∀ s d a b, starts s.m [(.whole, a), (.whole, b)] (.opd d) = true → (srcVal s.m .whole a).scaled = false →
    let sw := payOf s.m .whole b % 2 ^ 64
    let sel := selected sw (lanesOf 32 4 (payOf s.m .whole a))
    let m := readDone s.m [a, b] [d]
    let x := packLanes 32 (padTo 4 FFmt.f32.canon (sel.map (·.2)))
    let y := packLanes 32 (padTo 4 (2 ^ 32 - 1) (sel.map (fun x => (bits sw 40 24 + x.1) % 2 ^ 32)))
    exec (.bext ⟨.val⟩ d a b) s = .next { s with m := putTok m (.opd d) ⟨Val.ofNat x, false, sel.isEmpty, firingBank m⟩ }
    ∧ exec (.bext ⟨.idx⟩ d a b) s = .next { s with m := putTok m (.opd d) ⟨Val.ofNat y, false, sel.isEmpty, firingBank m⟩ })
  ∧ (∀ s f d a b, f.op = .add → starts s.m [(.whole, a), (.whole, b)] (.opd d) = true → ∃ r : List Nat, r.length = 4
      ∧ (∀ i < 4, (r[i]?).getD 0 = (lane 32 (payOf s.m .whole b) 3
          + ((lanesOf 32 4 (payOf s.m .whole a)).take (i + 1)).sum) % 2 ^ 32)
      ∧ exec (.pscan f d a b) s = .next (wrote s [a, b] (.opd d) (Val.ofNat (packLanes 32 r)) 0))
  ∧ (∀ s f d a b, f.op ≠ .add → starts s.m [(.whole, a), (.whole, b)] (.opd d) = true → (srcVal s.m .whole a).scaled = false →
    let r := scanLanes f.op f.rnd (lanesOf 32 4 (payOf s.m .whole a)) (scanCarry (payOf s.m .whole b))
    exec (.pscan f d a b) s = .next (wrote s [a, b] (.opd d) (Val.ofNat (packLanes 32 r.1)) r.2))
  ∧ (∀ s d a, starts s.m [(.whole, a), (.whole, d)] (.opd d) = true → (srcVal s.m .whole a).scaled = false →
    exec (.topp d a) s = .next (wroteV s [a, d] (.opd d) (Val.ofNat (toppStep (payOf s.m .whole a) (payOf s.m .whole d)))))

/-- IWALK and SPMX make a walk for the index engine, whose tokens come in order, while D has credit, and end with the count and EOS. A read
of it that fails, by its translation or by the outside, gives the token of its position as poison, and so does an index beyond the vector
(R316-R319); a read to a package whose lane holds its flits waits (R400). EXQ and EXDQ make a request at their queue, EXCFG configures it
(R322), EXQ_PLACEMENT appends and releases at the threshold, TIMER_RELEASE releases all, and EXDQ_DELIVERY gives released entries in order
(R323-R325), to a pasture whose clock runs (R426). A request that finds no room or no entry keeps its place of arrival, behind which later
ones of its kind wait (R320, R325; log 36). -/
def Obligations.IndexAndQueues : Prop :=
  (∀ f d (a : Fin 16) b s, memStarts s.m [b] [d] [] = true → bits (payOf s.m .whole b) 96 32 = 0 →
    let w := payOf s.m .whole b
    exec (.iwalk f d (.h a) b) s = .next (issued s [b] [d] (fun m =>
      { mkReq m (dstOf m d false) (.iwalk (readHand m a.val).1 a.val (bits w 0 32) (bits w 32 32) (bits w 64 32) 0) f.scope.code false false with
        hwait := (readHand m a.val).2 })))
  ∧ (∀ f d (a : Fin 16) b s, memStarts s.m [b] [d] [] = true → bits (payOf s.m .whole b) 100 28 = 0 →
    let w := payOf s.m .whole b
    let x := bits w 96 4
    exec (.spmx f d (.h a) b) s = .next (issued s [b] [d] (fun m =>
      { mkReq m (dstOf m d false)
          (.spmx (readHand m a.val).1 (readHand m x).1 (a.val + 16 * x) (bits w 0 32) (bits w 32 32) (bits w 64 32) 0) f.scope.code false false with
        hwait := (readHand m a.val).2.orElse (fun _ => (readHand m x).2) })))
  ∧ (∀ s id r hv h p0 cnt maj e, reqOf s.m id = some r → r.op = .iwalk hv h p0 cnt maj e → indexTurn s.m r = true → walkOk hv maj = true →
    let next := fun m : Mach =>
      modReq { walkCounts m r with free := (walkCounts m r).free + (16 + 4 * maj) } id (fun q => { q with op := .iwalk hv h p0 cnt maj (e + 1) })
    (laneHeld s.m r (nextLocs s.m r) = true → exec (.indexEngineEmit ⟨id, .perform⟩) s = .next s)
    ∧ (∀ x, e < cnt → p0 + e < hBound hv / 2 ^ hEsz hv → laneHeld s.m r (nextLocs s.m r) = false → walkCoord s.m r hv maj (p0 + e) = .ok x →
      dstCredit s.m r = true → exec (.indexEngineEmit ⟨id, .perform⟩) s =
        .next { s with m := deliverTok (next s.m) r.past r.who r.dst (tokNat (packLanes 32 [x.1, x.2, p0 + e, e])) })
    ∧ (∀ x, e < cnt → p0 + e < hBound hv / 2 ^ hEsz hv → laneHeld s.m r (nextLocs s.m r) = false → walkCoord s.m r hv maj (p0 + e) = .error x →
      dstCredit s.m r = true → exec (.indexEngineEmit ⟨id, .perform⟩) s =
        .next { s with m := deliverTok (next s.m) r.past r.who r.dst (tokOf (poisonReq r x.1 x.2)) })
    ∧ (∀ c d, e < cnt → p0 + e < hBound hv / 2 ^ hEsz hv → c ≠ 0 → walkFails s.m r c.toNat d.toNat = true →
      let mb := markBad s.m (nextLocs s.m r) c.toNat d.toNat
      dstCredit mb r = true → exec (.indexEngineEmit ⟨id, .fail c d⟩) s =
        .next { s with m := deliverTok (next mb) r.past r.who r.dst (tokOf (poisonReq r c.toNat d.toNat)) })
    ∧ ((cnt ≤ e ∨ hBound hv / 2 ^ hEsz hv ≤ p0 + e) → laneHeld s.m r (nextLocs s.m r) = false → dstCredit s.m r = true → exec (.indexEngineEmit ⟨id, .perform⟩) s =
      .next { s with m := finishTok s.m id [⟨Val.ofNat (e % 2 ^ 32), true, decide (e < cnt), 0⟩] }))
  ∧ (∀ s id r hv x h m0 cm maj e, reqOf s.m id = some r → r.op = .spmx hv x h m0 cm maj e → indexTurn s.m r = true → spmxOk hv x maj = true →
    (∀ y, e < cm → m0 + e < maj → laneHeld s.m r (nextLocs s.m r) = false → spmxRow s.m r hv x (m0 + e) = .ok y → dstCredit s.m r = true →
      let v := match y.bad with
        | none => Val.ofNat (packLanes 32 [y.y, m0 + e, y.k, 0])
        | some a => poisonReq r 0x08 (a + h / 16 * 2 ^ 56)
      let m1 := modReq { walkCounts s.m r with free := (walkCounts s.m r).free + (8 + 12 * (y.k + 1)) } id
        (fun q => { q with op := .spmx hv x h m0 cm maj (e + 1) })
      exec (.indexEngineEmit ⟨id, .perform⟩) s = .next { s with m := stickyReq (deliverTok m1 r.past r.who r.dst (tokOf v)) r y.fl })
    ∧ ((cm ≤ e ∨ maj ≤ m0 + e) → laneHeld s.m r (nextLocs s.m r) = false → dstCredit s.m r = true → exec (.indexEngineEmit ⟨id, .perform⟩) s =
      .next { s with m := finishTok s.m id [⟨Val.ofNat (e % 2 ^ 32), true, decide (e < cm), 0⟩] }))
  ∧ (∀ f d a b s, memStarts s.m [a, b] [d] [] = true → payOf s.m .whole b < 2 ^ 9 → exec (.exq f d a b) s = .next (issued s [a, b] [d] (fun m =>
      mkReq m (dstOf m d false) (.exq (payOf s.m .whole b) ⟨srcVal s.m .whole a, false, (headKind s.m a).2, 0⟩) f.scope.code false true)))
  ∧ (∀ f d a b s, memStarts s.m [a, b] [d] [] = true → let n := payOf s.m .whole b % 2 ^ 9
    1 ≤ n → n ≤ 256 → exec (.exdq f d a b) s = .next (issued s [a, b] [d] (fun m =>
      mkReq m (dstOf m d false) (.exdq (payOf s.m .whole a % 2 ^ 9) n) f.scope.code true false)))
  ∧ (∀ d a b s, memStarts s.m [a, b] [d] (pairReg s.m true b) = true →
    let q := payOf s.m .whole a % 2 ^ 9
    (∀ r ∈ s.m.mem.reqs, queueReq r = some q → sameIssuer r.who s.m.cur = false) →
    let m := readDone s.m [a, b] [d]
    let c := excfgCode (queueX m q) (asidOfActor m m.cur) (wideVal s.m b)
    (c = 0 → exec (.excfg d a b) s =
      .next { s with m := resultNow (setQueueX m q (excfgQueue (queueX m q) (asidOfActor m m.cur) (wideVal s.m b))) (dstOf m d false) .tile (tokNat 0) })
    ∧ (c ≠ 0 → exec (.excfg d a b) s = .next { s with m := resultNow m (dstOf m d false) .tile (tokNat (2 ^ 63 + c)) }))
  ∧ (∀ s id r q t, reqOf s.m id = some r → r.op = .exq q t → queueTurn s.m r = true →
    let m := arriveQueue s.m r q
    (queueAhead m r q = true → exec (.exqPlacement id) s = .next { s with m := m })
    ∧ (∀ m1, queueAhead m r q = false → queueMine m r q = true → appendX m r (routeExq m r q) t = some m1 →
      exec (.exqPlacement id) s = .next { s with m := leaveQueue (finish m1 id 0) q })
    ∧ (queueAhead m r q = false → queueMine m r q = true → appendX m r (routeExq m r q) t = none →
      exec (.exqPlacement id) s = .next { s with m := leaveQueue m q }))
  ∧ (∀ m r q t, let x := queueX m q
    x.entries.length < 4096 → x.ringq = [] → ∃ m1, appendX m r q t = some m1 ∧ (queueX m1 q).entries = x.entries ++ [t]
      ∧ (queueX m1 q).released = (if x.thr ≤ x.entries.length + 1 - x.released then x.entries.length + 1 else x.released))
  ∧ (∀ s id r q n, reqOf s.m id = some r → r.op = .exdq q n → queueTurn s.m r = true →
    let m := arriveQueue s.m r q
    let k := sourceExdq m q
    let c := min n (queueX m k).released
    let ts := (queueX m k).entries.take c ++ [⟨Val.ofNat c, true, false, 0⟩]
    (queueAhead m r q = true → exec (.exdqDelivery id) s = .next { s with m := m })
    ∧ (queueAhead m r q = false → queueMine m r q = true → (running m r.past = true ∨ isShepActor r.who = true) →
      0 < c → (queueX m k).cut = 0 → exec (.exdqDelivery id) s = .next { s with m := leaveQueue (finishTok (takeX m k c) id ts) q }))
  ∧ (∀ s q, (queueX s.m q).tmr ≠ 0 → ∃ t, exec (.timerRelease q) s = .next t
      ∧ queueX t.m q = { queueX s.m q with released := (queueX s.m q).entries.length + (queueX s.m q).ringq.length }
      ∧ (∀ k, k ≠ q → queueX t.m k = queueX s.m k) ∧ t.m.mem = s.m.mem)


/-! ## Class 0x9_: relations and rules -/

/-- The instructions of relations: RDEF declares a relation and RBACK propagates gradients, each refused at once with BUSY while an EVAL or
an RBACK of the pasture runs (R347) and else performed with LOAD_RESULT; the others answer at once: RINS inserts, raises or replaces a tuple,
RDEL marks one, RULE registers a plan under the lowest free id, RDROP removes a rule or relation, RSCAN, RLOOK, RWIT and RCNT read (R345,
R348-R350, R353-R356). RDEF finds an EVAL or RBACK that began since it fired and is then refused (R347). Which slot the port gives a new
tuple, and which of several with its keys it finds, is not fixed (log 9). -/
def Obligations.Relations : Prop :=
  (∀ d a s, ruleStarts s [a] d false false = true →
    let m := readDone s.m [a] [d]
    (ruleBusy m (pastOfActor m m.cur) = true → exec (.rdef d a) s = .next (answered s [a] d .tile (2 ^ 63 + 4)))
    ∧ (ruleBusy m (pastOfActor m m.cur) = false → exec (.rdef d a) s = .next (issued s [a] [d] (fun m =>
        { mkReq m (dstOf m d false) (.rdef (payOf s.m .whole a % 2 ^ 56)) 5 true false with pos := none }))))
  ∧ (∀ s id r va ans, reqOf s.m id = some r → r.op = .rdef va → mayPerform s.m r = true →
    let x := rdefGo { s.m with free := s.m.free + 1 } r ans va
    exec (.loadResult id ans) s = .next { s with m := finish x.1 id x.2 })
  ∧ (∀ m r ans va, ruleBusy m r.past = true → rdefGo m r ans va = (m, 2 ^ 63 + 4))
  ∧ (∀ m r ans va m1, rdefGo m r ans va = (m1, 0) → ∃ rl x, relOf m r.past rl = none ∧ relOf m1 r.past rl = some x ∧ x.desc = va
      ∧ x.derived = false ∧ x.dropped = 0 ∧ x.homes.Nodup ∧ (∀ c ∈ x.homes, coreIn m r.past c = true))
  ∧ (∀ f d a b s, ruleStarts s [a, b] d false true = true → exec (.rins f d a b) s = .next (ruleAns s [a, b] d false (fun m =>
      rinsGo m (pastOfActor m m.cur) f.rel.val (wideVal s.m a) (payOf s.m .whole b))))
  ∧ (∀ m p rl k b x, ruleBusy m p = false → relOf m p rl = some x → x.derived = false →
    let w := b % 2 ^ 32
    let m1 := { m with free := m.free + 1 }
    let t0 : Tup := ⟨cutKeys x k, w, flV + flBASE + flPEND + x.stratum * 65536, wAll⟩
    (domainErr x.alg w = true → rinsGo m p rl k b = (m, 2 ^ 63 + 7))
    ∧ (domainErr x.alg w = false → findTup m p rl x (cutKeys x k) = none →
      (isZeroW x.alg w = true → rinsGo m p rl k b = (m1, 0))
      ∧ (isZeroW x.alg w = false → freeId m1 p rl x (cutKeys x k) = none → rinsGo m p rl k b = (m1, 2 ^ 63 + 8))
      ∧ (∀ id, isZeroW x.alg w = false → freeId m1 p rl x (cutKeys x k) = some id →
        rinsGo m p rl k b = (placeTup m1 p rl x id t0, 2 ^ 62 + id)))
    ∧ (∀ id, domainErr x.alg w = false → findTup m p rl x (cutKeys x k) = some id →
      let t := recAt m p rl x id
      (t.del = true → isZeroW x.alg w = true → rinsGo m p rl k b = (m1, 0))
      ∧ (t.del = true → isZeroW x.alg w = false → rinsGo m p rl k b = (putRec m1 p rl x id t0, 2 ^ 62 + id))
      ∧ (t.del = false → better x.alg w t.w = true →
        rinsGo m p rl k b = (putRec m1 p rl x id { t with w := w, fl := setBits t.fl 27 1 1 }, 2 ^ 61 + id))
      ∧ (t.del = false → better x.alg w t.w = false → bitAt b 32 = true → f32Cmp w t.w ≠ some .eq → isZeroW x.alg w = false →
        rinsGo m p rl k b = (putRec m1 p rl x id { t with w := w, fl := setBits (setBits t.fl 27 1 1) 28 1 1 }, 2 ^ 60 + id))
      ∧ (t.del = false → better x.alg w t.w = false → (bitAt b 32 = false ∨ f32Cmp w t.w = some .eq ∨ isZeroW x.alg w = true) →
        rinsGo m p rl k b = (m1, id))))
  ∧ (∀ f d a s, ruleStarts s [a] d false true = true → exec (.rdel f d a) s = .next (ruleAns s [a] d false (fun m =>
      rdelGo m (pastOfActor m m.cur) f.rel.val (wideVal s.m a))))
  ∧ (∀ m p rl k x id, ruleBusy m p = false → relOf m p rl = some x → x.derived = false → findTup m p rl x (cutKeys x k) = some id →
    (recAt m p rl x id).del = false →
    let t := { recAt m p rl x id with fl := setBits (setBits (recAt m p rl x id).fl 27 1 1) 29 1 1 }
    rdelGo m p rl k = (putRec { m with free := m.free + 1 } p rl x id t, id))
  ∧ (∀ d a s, ruleStarts s [a] d false false = true → exec (.rule d a) s =
    .next (ruleAns s [a] d false (fun m => ruleGo { m with free := m.free + 1 } (pastOfActor m m.cur) (payOf s.m .whole a % 2 ^ 56))))
  ∧ (∀ m p va m1 i, ruleGo m p va = (m1, i) → i < 2 ^ 63 → i < 255 ∧ thas (p * 256 + i) m.rule.rules = false
      ∧ (∀ j < i, thas (p * 256 + j) m.rule.rules = true)
      ∧ ∃ ws, readWords m m.cur va 8 = .ok ws ∧ planCode m p ws = 0 ∧ tfind (p * 256 + i) m1.rule.rules = some ws
        ∧ (stratOf m1 p (relStratum m1 p (planOf ws).head)).added = true)
  ∧ (∀ f d a s, ruleStarts s [a] d false false = true → exec (.rdrop f d a) s =
    .next (ruleAns s [a] d false (fun m => rdropGo m (pastOfActor m m.cur) f.bit (payOf s.m .whole a % 2 ^ 8))))
  ∧ (∀ m p n m1, rdropGo m p true n = (m1, 0) → thas (p * 256 + n) m.rule.rules = true ∧ tfind (p * 256 + n) m1.rule.rules = none)
  ∧ (∀ m p n m1, rdropGo m p false n = (m1, 0) → (relOf m p n).isSome = true ∧ relOf m1 p n = none)
  ∧ (∀ f d a mode s, memStarts s.m [a] [d] [] = true → (srcVal s.m .whole a).scaled = false →
    exec (.rscan f d a mode) s = .next (after s [a] [d] (fun m =>
      flush (addReq m { mkReq m (dstOf m d false) .tile 5 false false with
        done := true
        res := some (rscanToks m (pastOfActor m m.cur) f.rel.val (payOf s.m .whole a % 2 ^ 10) mode) }))))
  ∧ (∀ m p rl h x, relOf m p rl = some x → h < x.homes.length →
    ∃ ts : List (Nat × Tup), rscanToks m p rl h .all = ts.flatMap (scanTokens m p x false) ++ [⟨Val.ofNat ts.length, true, false, 0⟩]
      ∧ (ts.map (·.1)).Pairwise (· < ·)
      ∧ ∀ id t, (id, t) ∈ ts ↔ id ∈ partIds x h ∧ t = recAt m p rl x id ∧ t.v = true ∧ t.del = false)
  ∧ (∀ f d a s, ruleStarts s [a] d true true = true → exec (.rlook f d a) s = .next (ruleAns s [a] d true (fun m =>
      rlookGo m (pastOfActor m m.cur) f.rel.val (wideVal s.m a))))
  ∧ (∀ m p rl k x, relOf m p rl = some x →
    (findTup m p rl x (cutKeys x k) = none → rlookGo m p rl k = ({ m with free := m.free + 1 }, algZero x.alg + 0x0FFFFFFF * 2 ^ 96))
    ∧ (∀ id, findTup m p rl x (cutKeys x k) = some id → rlookGo m p rl k = ({ m with free := m.free + 1 },
        (recAt m p rl x id).w + gradOf m p x id * 2 ^ 32 + (recAt m p rl x id).fl * 2 ^ 64 + id * 2 ^ 96)))
  ∧ (∀ f d a s, ruleStarts s [a] d true false = true → exec (.rwit f d a) s = .next (ruleAns s [a] d true (fun m =>
      rwitGo m (pastOfActor m m.cur) f.rel.val (payOf s.m .whole a % 2 ^ 28))))
  ∧ (∀ m p rl id x, relOf m p rl = some x → let t := recAt m p rl x id
    (t.v = true → rwitGo m p rl id = (m, t.wit + t.fl * 2 ^ 64 + t.w % 2 ^ 31 * 2 ^ 96)) ∧ (t.v = false → rwitGo m p rl id = (m, 0)))
  ∧ (∀ f d s, ruleStarts s [] d true false = true → exec (.rcnt f d) s = .next (ruleAns s [] d true (fun m =>
      rcntGo m (pastOfActor m m.cur) f.rel.val)))
  ∧ (∀ m p rl x, relOf m p rl = some x → ∃ ts : List Tup, ∃ g : Nat,
    rcntGo m p rl = (m, ts.length + (ts.filter (·.new)).length * 2 ^ 32 + g * 2 ^ 64 + min x.dropped (2 ^ 31 - 1) * 2 ^ 96)
    ∧ (∀ t, t ∈ ts ↔ ∃ h id, h < x.homes.length ∧ id ∈ partIds x h ∧ t = recAt m p rl x id ∧ t.v = true)
    ∧ (∀ t ∈ ts, t.gen ≤ g) ∧ (g = 0 ∨ ∃ t ∈ ts, t.gen = g))
  ∧ (∀ m p rl k, relOf m p rl = none → rlookGo m p rl k = (m, 2 ^ 127 + 5) ∧ rwitGo m p rl k = (m, 2 ^ 127 + 5)
    ∧ rcntGo m p rl = (m, 2 ^ 127 + 5))
  ∧ (∀ f d a b s, ruleStarts s [a, b] d false false = true →
    let m := readDone s.m [a, b] [d]
    let j := rbackSeeds m (pastOfActor m m.cur) (payOf s.m .whole a % 2 ^ 56) (payOf s.m .whole b % 2 ^ 17)
    (∀ c, j = .error c → exec (.rback f d a b) s = .next (answered s [a, b] d .tile (2 ^ 63 + c)))
    ∧ (∀ seeds, j = .ok seeds → exec (.rback f d a b) s = .next (after s [a, b] [d] (fun m =>
        addReq { m with free := m.free + 1 } { mkReq m (dstOf m d false) (.rback seeds f.bit) 5 true false with pos := none }))))
  ∧ (∀ m p va n, ruleBusy m p = true → rbackSeeds m p va n = .error 4)
  ∧ (∀ s id r seeds acc ans, reqOf s.m id = some r → r.op = .rback seeds acc → mayPerform s.m r = true →
    exec (.loadResult id ans) s = .next { s with m := finish (rbackGo s.m r.past seeds acc).1 id (rbackGo s.m r.past seeds acc).2 })

/-- An evaluation: EVAL starts the strata, an event is taken out and joined, a candidate reaches its head's home, a user block's tokens become
a candidate, two equal quiet waves fold the stratum, the last gives the result, and the timeout drains it (R334-R340, R351); trap 0x0E
comes as the drained evaluation ends, which is the model's reading of R340 (log 37). Which of the events that may be processed comes next is
not fixed (log 9): those of one port, and one port's candidates to one head port, keep the order in which they were issued (R347). FOLD waits
for its waves (R352). -/
def Obligations.Evaluation : Prop :=
  (∀ d a s, memStarts s.m [a] [d] [] = true → (srcVal s.m .whole a).scaled = false →
    let m := readDone s.m [a] [d]
    let m1 := addReq m (mkReq m (dstOf m d false) .eval 5 true false)
    ruleBusy m (pastOfActor m m.cur) = false →
    exec (.eval d a) s = .next { s with m := evalGo m1 (pastOfActor m m.cur) m.ids (payOf s.m .whole a % 2 ^ 6) })
  ∧ (∀ f d a s, memStarts s.m [a] [d] [] = true → (srcVal s.m .whole a).scaled = false →
    let m := readDone s.m [a] [d]
    let n := payOf s.m .whole a % 2 ^ 8
    let known := if f.bit then decide (n < 64) && (famOf m (famKey (pastOfActor m m.cur) n)).isSome
      else (relOf m (pastOfActor m m.cur) n).isSome
    (known = true → exec (.fold f d a) s = .next (issued s [a] [d] (fun m => mkReq m (dstOf m d false) (.fold f.bit n 0) 5 true false)))
    ∧ (known = false → exec (.fold f d a) s = .next (answered s [a] d .tile (2 ^ 63 + 5))))
  ∧ (∀ s p e, evalOf s.m p = some e → running s.m p = true → e.events ≠ [] →
    ∃ n rl id rcd, n ∈ nextEvents s.m p e ∧ (∃ x, e.events[n]? = some (rl, id, x)) ∧
      let i := e.events.findIdx (fun w => w.1 == rl && w.2.1 == id)
      e.events[i]? = some (rl, id, rcd) ∧
      let e1 := { e with
        events := e.events.eraseIdx i
        fresh := if i < e.fresh then e.fresh - 1 else e.fresh
        present := (rl, id, rcd) :: e.present.filter (fun u => !(u.1 == rl && u.2.1 == id))
        recv := e.recv + 1 }
      let m1 := setEval { s.m with free := s.m.free + 1 } p e1
      (∀ x, relOf s.m p rl = some x → e.draining = false →
        let t := versionAt s.m p x e1.events rl id rcd
        let core := slotCore s.m p rl x (idHome id) (idSlot id)
        let cs := (stratRules s.m p e.stratum).flatMap (fun q => (ruleCands s.m p q.1 core q.2 e1 rl id t).map (fun c => (q.2.user, c)))
        (t.v = true → exec (.tupleEvent p) s = .next { s with m := cs.foldl (fun m c => sendCand m p core c.1 c.2) m1 })
        ∧ (t.v = false → exec (.tupleEvent p) s = .next { s with m := m1 }))
      ∧ ((relOf s.m p rl = none ∨ e.draining = true) → exec (.tupleEvent p) s = .next { s with m := drainEnd p m1 }))
  ∧ (∀ m p e, ∀ n ∈ nextEvents m p e, n < e.events.length ∧ (n < e.fresh ∨ ∀ j, e.fresh ≤ j → j < n →
    (e.events[j]?).map (eventPort m p) ≠ (e.events[n]?).map (eventPort m p)))
  ∧ (∀ m p x events rl id rcd, versionAt m p x events rl id rcd =
    if (recAt m p rl x id).v = true ∧ ∃ w ∈ events, w.1 = rl ∧ w.2.1 = id then tupOf rcd else recAt m p rl x id)
  ∧ (∀ s p n e c, evalOf s.m p = some e → running s.m p = true → e.cands[n]? = some c → e.draining = false →
    ((∃ c0 ∈ e.cands.take n, c0.src = c.src ∧ candPort s.m p c0 = candPort s.m p c) → exec (.candidateArrival p n) s = .next s)
    ∧ ((∀ c0 ∈ e.cands.take n, c0.src = c.src → candPort s.m p c0 ≠ candPort s.m p c) →
    let r := headPort s.m p { e with cands := e.cands.eraseIdx n } c
    r.2.draining = false →
    exec (.candidateArrival p n) s = .next { s with m := setEval r.1 p { r.2 with recv := r.2.recv + 1 } }))
  ∧ (∀ m p e c x id, relOf m p c.rel = some x → isNanCode .f32 c.weight.toNat = false → domainErr x.alg c.weight.toNat = false →
    isZeroW x.alg c.weight.toNat = false → findTup m p c.rel x (cutKeys x c.keys.toNat) = some id →
    let gen := min c.gen 65535
    let t := recAt { m with free := m.free + 1 } p c.rel x id
    headPort m p e c = if better x.alg c.weight.toNat t.w then
        (putRec { m with free := m.free + 1 } p c.rel x id
          { t with w := c.weight.toNat, fl := setBits (setBits t.fl 0 16 gen) 26 1 1, wit := c.witness.toNat },
         { e with
            events := e.events ++ [(c.rel, id, tupNat { t with
              w := c.weight.toNat, fl := setBits (setBits t.fl 0 16 gen) 26 1 1, wit := c.witness.toNat })]
            sent := e.sent + 1, rounds := max e.rounds gen })
      else ({ m with free := m.free + 1 }, e))
  ∧ (∀ s core p e key c more kt wt rest, livePast s.m core = some p → evalOf s.m p = some e → running s.m p = true →
    e.user.find? (fun u => u.1 / 128 == core && 2 ≤ (tget [] u.1 e.back).length) = some (key, c :: more) →
    tget [] key e.back = kt :: wt :: rest →
    let e1 := { e with
      user := if more.isEmpty then tdel key e.user else tset key more e.user
      back := if more.isEmpty || rest.isEmpty then tdel key e.back else tset key rest e.back
      sent := e.sent + 2, recv := e.recv + 4 }
    let m1 := setEval s.m p e1
    let w := wt.val.pay.toNat
    let c1 := { c with keys := kt.val.pay, weight := BitVec.ofNat 32 w, gen := bits w 32 16, witness := BitVec.ofNat 64 (w / 2 ^ 64) }
    let raised := fun (m : Mach) (v : Val) =>
      raiseCause (faultRec m p .idle { poisonRec v 5 with item := noId }) (clusterOf core) ⟨0x07, BitVec.ofNat 64 v.pay.toNat, p⟩ .idle
    (kt.val.poison = false → wt.val.poison = false → wt.flag = false →
      exec (.userReturn core) s = .next { s with m := setEval m1 p { e1 with cands := e.cands ++ [c1], sent := e.sent + 3 } })
    ∧ (kt.val.poison = false → wt.val.poison = false → wt.flag = true → exec (.userReturn core) s = .next { s with m := drainEnd p m1 })
    ∧ (kt.val.poison = true → wt.val.poison = false → exec (.userReturn core) s = .next { s with m := drainEnd p (raised m1 kt.val) })
    ∧ (kt.val.poison = false → wt.val.poison = true → exec (.userReturn core) s = .next { s with m := drainEnd p (raised m1 wt.val) })
    ∧ (kt.val.poison = true → wt.val.poison = true →
      exec (.userReturn core) s = .next { s with m := drainEnd p (raised (raised m1 kt.val) wt.val) }))
  ∧ (∀ s p, running s.m p = true → (∀ e ∈ s.m.stage.fams, e.1 / 64 ≠ p) → (∀ r ∈ s.m.mem.reqs, ∀ b n w, r.op ≠ .fold b n w) →
    exec (.foldWave p) s = .next { s with m := stageEnds p (evalWave p s.m) })
  ∧ (∀ m p e, evalOf m p = some e → e.draining = false → e.events = [] → e.cands = [] → e.user = [] → e.sent = e.recv →
    ((e.waveOk = false ∨ e.waveTot ≠ (e.sent, e.recv)) → evalWave p m = setEval m p { e with waveOk := true, waveTot := (e.sent, e.recv) })
    ∧ (e.waveOk = true → e.waveTot = (e.sent, e.recv) →
      let m1 := setStrat m p e.stratum ⟨true, false, false⟩
      let v := (if e.full then 2 ^ 62 else 0) + min e.rounds 65535 * 2 ^ 32
      (e.stratum < e.last → evalWave p m = startStratum m1 p { e with stratum := e.stratum + 1 })
      ∧ (e.last ≤ e.stratum → evalWave p m = finish { m1 with rule.evals := tdel p m1.rule.evals } e.req v)))
  ∧ (∀ s p e, evalOf s.m p = some e → running s.m p = true → e.draining = false →
    ((stratRules s.m p e.stratum).map (fun q => q.2.ftmo)).foldl max 0 ≠ 0 →
    exec (.foldTimeout p) s = .next { s with m := drainEnd p (setEval s.m p { e with draining := true }) })
  ∧ (∀ m p e, evalOf m p = some e → e.draining = true → e.events = [] → e.cands = [] → e.user = [] →
    drainEnd p m = finish (raiseHome { m with rule.evals := tdel p m.rule.evals } p 0x0E e.stratum) e.req (2 ^ 63 + 0x0D))


/-! ## Class 0xB_: stage casting -/

/-- STAGE declares a family with one entry that covers every hash (R359, R361); KROUTE sends its record to the holder that its copy of the
table names, and stalls while a merge holds the range of its key (R362, R363); CAST and MERGE start a step (R364-R366, R370); HASH, KRT and
CASTQ read (R360, R361, R378); SDONE and MDONE mark their step's routine and end the activation's share (R369). Three points are the
model's readings: KRT of an undeclared family reads 0 (log 44), the hold is read from the family's own table at once (log 45), and which
table a sender that holds 8 gives up is not fixed (log 104). -/
def Obligations.Stages : Prop :=
  (∀ d a s, memStarts s.m [a] [d] [] = true → exec (.stage d a) s =
    .next (ruleAns s [a] d false (fun m => stageGo { m with free := m.free + 1 } (pastOfActor m m.cur) (payOf s.m .whole a % 2 ^ 56))))
  ∧ (∀ m p va m1, stageGo m p va = (m1, 0) → ∃ ws f, readWords m m.cur va 8 = .ok ws ∧
      let k := famKey p (bits ((ws[0]?).getD 0).toNat 0 6)
      famOf m1 k = some f ∧ famOf m k = none ∧ f.desc.take 8 = ws ∧ f.entries.map (·.lo) = [0] ∧ f.version = 0 ∧ f.step = none
        ∧ f.fieldsOk = true)
  ∧ (∀ d a b s, memStarts s.m [a, b] [d] [] = true →
    let m := readDone s.m [a, b] [d]
    let p := pastOfActor m m.cur
    let n := payOf s.m .whole a % 2 ^ 6
    let i := payOf s.m .whole b % 2 ^ 5
    let m1 := addReq m (mkReq m (dstOf m d false) (.stage n) 5 true false)
    ∀ f, famOf m (famKey p n) = some f →
    (castCode m p f i = 0 → exec (.cast d a b) s = .next { s with m := startCast m1 p n i m.ids f })
    ∧ (mergeCode f i = 0 → exec (.merge d a b) s = .next { s with m := startMerge m1 p n i m.ids f }))
  ∧ (∀ m p n i req f, i ≠ 0 → i < f.entries.length →
    ∃ g, famOf (startMerge m p n i req f) (famKey p n) = some g ∧ (g.entries.map (·.core)) = f.entries.map (·.core)
      ∧ (entryOf g.entries i).hold = true ∧ g.step.map (fun s => (s.kind, s.ph, s.entry, s.other, s.mid)) =
        some (.merge, .prepare, i, holderOf f (i - 1), holderOf f i))
  ∧ (∀ d a b s, memStarts s.m [a, b] [d] (pairReg s.m true d) = true → exec (.krt d a b) s = .next (ruleAns s [a, b] d true (fun m =>
      (m, match famOf m (famKey (pastOfActor m m.cur) (payOf s.m .whole a % 2 ^ 6)) with
        | some f => krtWord f (payOf s.m .whole b % 2 ^ 5)
        | none => 0))))
  ∧ (∀ d a s, memStarts s.m [a] [d] [] = true → exec (.castq d a) s = .next (ruleAns s [a] d false (fun m =>
      (m, match famOf m (famKey (pastOfActor m m.cur) (payOf s.m .whole a % 2 ^ 6)) with
        | some f => castqWord f
        | none => 2 ^ 63 + 5))))
  ∧ (∀ spr d a s, starts s.m [(.whole, a)] (.opd d) = true →
    let h := fun k => match spr with | some kb => hashSpread kb.val k | none => rhash k
    let x := payOf s.m .whole a
    ((∃ u w, s.m.cur = .unit u w) → exec (.hash spr d a) s = .next (wroteV s [a] (.opd d) (Val.ofNat (h (x % 2 ^ 32)))))
    ∧ ((∃ c p f k b z, s.m.cur = .pe c p f k b z) →
      exec (.hash spr d a) s = .next (wroteV s [a] (.opd d) (Val.ofNat (packLanes 32 ((lanesOf 32 4 x).map h))))))
  ∧ (∀ f d a b s core pe fr k bk c, s.m.cur = .pe core pe fr k bk c → (srcVal s.m .whole b).poison = false →
    let m := deqSrcs s.m [a, b]
    let key := payOf s.m .whole b % 2 ^ 32
    let rcd := { srcVal s.m .whole a with pay := BitVec.ofNat 128 (payOf s.m .whole a / 2 ^ 32 * 2 ^ 32 + key) }
    let held := routeStalls s.m s.m.cur (pastOfActor s.m s.m.cur) f.fam.val key
    (famOf m (famKey (pastOfActor m m.cur) f.fam.val)).isSome = true →
    let r := mkReq m (dstOf m d false) (.kroute f.fam.val key rcd) 5 false false
    (held = false → exec (.kroute f d a b) s = .next { s with m := routeRec (addReq m r) r })
    ∧ (held = true → exec (.kroute f d a b) s = .next { s with m := stall s.m }))
  ∧ (∀ f d a b s u w, s.m.cur = .unit u w → sReady s.m u [a, b, d] [] = true →
    let m := readDone s.m [a, b, d] []
    let key := payOf s.m .whole b % 2 ^ 32
    let rcd := { srcVal s.m .whole a with pay := BitVec.ofNat 128 (payOf s.m .whole a / 2 ^ 32 * 2 ^ 32 + key) }
    let held := routeStalls m m.cur (pastOfActor m m.cur) f.fam.val key
    (famOf m (famKey (pastOfActor m m.cur) f.fam.val)).isSome = true →
    let r := mkReq m (dstOf m d false) (.kroute f.fam.val key rcd) 5 false false
    (held = false → exec (.kroute f d a b) s = .next { s with m := routeRec (addReq m r) r })
    ∧ (held = true → exec (.kroute f d a b) s = .next { s with m := stall m }))
  ∧ (∀ m who p n key f, famOf m (famKey p n) = some f →
    (routeStalls m who p n key = true ↔ ∃ e, coverOf (copyOf f (senderOf who)).2 (f.hash key) = some e
      ∧ ∃ x ∈ f.entries, x.core = e.core ∧ x.hold = true))
  ∧ (∀ m r n key v f e, r.op = .kroute n key v → famOf m (famKey r.past n) = some f →
    coverOf (copyOf f (senderOf r.who)).2 (f.hash key) = some e →
    (routeRec m r).fab.transit = m.fab.transit ++ [⟨routeSrc r.who, f.sin e.core, ⟨v, false, false, f.sctx⟩, some r.id⟩]
      ∧ (famOf (routeRec m r) (famKey r.past n)).map (·.sent) = some (f.sent + 1)
      ∧ ∀ g, famOf (routeRec m r) (famKey r.past n) = some g → thas (senderOf r.who) g.copies = true)
  ∧ (∀ m k sk, ((heldTables m (k / 64) sk).length < 8 ∨ (∃ x ∈ heldTables m (k / 64) sk, x.1 = k)) → roomTable m k sk = m)
  ∧ (∀ m k sk, 8 ≤ (heldTables m (k / 64) sk).length → (∀ x ∈ heldTables m (k / 64) sk, x.1 ≠ k) →
    ∃ x ∈ heldTables m (k / 64) sk, roomTable m k sk = setFam { m with free := m.free + 1 } x.1 { x.2 with copies := tdel sk x.2.copies })
  ∧ (∀ a s i split, (i = .sdone a ∧ split = true ∨ i = .mdone a ∧ split = false) → starts s.m [(.whole, a)] .none = true →
    exec i s = .next { s with m := stageEndsCur (doneG (markDone split (readDone s.m [a] []))) })

/-- The events of a step: samples count hot and cool holders and may start a step (R364, R370), a routine is dispatched once its holder is
ready (R366, R370), a routine that has ended with its instruction finishes the step's change of the table (R369, R370), and a sender takes
the new table and acknowledges it once the records that it sent under an older one have left, one that gave its table up among them (R363;
log 47). The occupancy of a partition is what waits at the port of its holder and that of a queue is its entries (R364, R372, R373). Which
of several requests of a sample starts a step is not fixed (log 9). -/
def Obligations.StageEvents : Prop :=
  (∀ s p n f, famOf s.m (famKey p n) = some f → running s.m p = true →
    let count := fun (t : Tbl Nat) (c : Nat → Bool) =>
      f.entries.foldl (fun a e => if c (occupancy s.m p f e.core) then tset e.core (tget 0 e.core t + 1) a else a) []
    let f1 := { f with hot := count f.hot (fun o => decide (f.cth ≤ o)), cool := count f.cool (fun o => decide (o ≤ f.mth)) }
    let m1 := setFam s.m (famKey p n) f1
    let m2 := { m1 with free := m1.free + 1 }
    ((f.step.isSome = true ∨ sampleReqs f1 = []) → exec (.castSample p n) s = .next { s with m := m1 })
    ∧ (f.step = none → sampleReqs f1 ≠ [] → ∃ x ∈ sampleReqs f1,
      (x.1 = false → castCode m2 p f1 x.2 = 0 → exec (.castSample p n) s = .next { s with m := startCast m2 p n x.2 (2 ^ 64) f1 })
      ∧ (x.1 = true → exec (.castSample p n) s = .next { s with m := startMerge m2 p n x.2 (2 ^ 64) f1 })))
  ∧ (∀ s p n f st, famOf s.m (famKey p n) = some f → f.step = some st → running s.m p = true → st.ph = .prepare → f.kind = 0 →
    stepReady s.m p f st = true → st.kind ≠ .close → thas (routineCore f st * 8 + 4) s.m.pe.binds = false →
    let h := routineCore f st
    let m1 := setFam (bindCtx s.m h 4 ((f.version + 1) % 65536) (.routine p n)) (famKey p n) { f with step := some { st with ph := .routine } }
    exec (.routineDispatch p n) s = .next { s with m := sendTok m1 (450000 + h) (chanKey h f.rpe f.rch) (entryToken f st) })
  ∧ (∀ s p n f st, famOf s.m (famKey p n) = some f → f.step = some st → running s.m p = true → st.ph = .prepare → f.kind = 0 →
    stepReady s.m p f st = false → exec (.routineDispatch p n) s = .next s)
  ∧ (∀ s p n f st b, famOf s.m (famKey p n) = some f → f.step = some st → running s.m p = true → f.kind = 0 → st.ph = .routine →
    let h := routineCore f st
    routineOf s.m (famKey p n) h = some b → b.ending = true → b.sdone = some (decide (st.kind = .cast)) →
    ctxReqs s.m h 4 b.act = false → tget [] (h * 8 + 4) s.m.pe.commit = [] →
    let m1 := releaseCtx s.m h 4 false
    (st.kind = .cast → exec (.stepDone p n) s = .next { s with m := castDone (famKey p n) f st m1 })
    ∧ (st.kind ≠ .cast → exec (.stepDone p n) s = .next { s with m := mergeDone (famKey p n) f st m1 }))
  ∧ (∀ k m f st, let es1 := (f.entries.map (fun e => { e with split := false })).take (st.entry + 1) ++ [⟨st.mid, st.other, false, false⟩]
      ++ (f.entries.map (fun e => { e with split := false })).drop (st.entry + 1)
    (∃ m1 b, castDone k f st m = redirEnd k (setFam m1 k { f with
      entries := es1
      version := (f.version + 1) % 65536
      step := some { st with ph := .redirect, acks := senders m f }
      buf := b }))
    ∧ ((f.entries.map (·.lo)).Pairwise (· < ·) → st.entry < f.entries.length → (entryOf f.entries st.entry).lo < st.mid →
      st.mid < hiOf f.entries st.entry → ∀ h < 2 ^ 32, (coverOf es1 h).map (·.core) =
        if st.mid ≤ h ∧ h < hiOf f.entries st.entry then some st.other else (coverOf f.entries h).map (·.core)))
  ∧ (∀ m f sk, sk ∈ senders m f ↔ ((∃ c ∈ f.copies, c.1 = sk) ∨ ∃ t ∈ m.fab.transit, 400000 ≤ t.src ∧ t.src < 430000 ∧
    t.dst ∈ famSins f ∧ srcSender t.src = sk))
  ∧ (∀ m p f h, (f.kind = 2 → occupancy m p f h = (queueX m h).entries.length + (queueX m h).ringq.length)
    ∧ (f.kind = 1 → occupancy m p f h = ((portOps m p f).filter (fun k => (coverOf f.entries k).map (·.core) == some h)).length)
    ∧ (f.kind = 0 → occupancy m p f h =
        (chanOf m (f.sin h)).fifo.length + (chanOf m (f.sin h)).ring.length + (tget [] h f.buf).length))
  ∧ (∀ s p n f st, famOf s.m (famKey p n) = some f → f.step = some st → running s.m p = true → f.kind = 2 → st.kind = .cast →
    st.ph = .prepare →
    exec (.stepDone p n) s = .next { s with m := castDone (famKey p n) f st (setQueueX s.m st.other { queueX s.m st.other with
      cut := (queueX s.m f.queue).entries.length + (queueX s.m f.queue).ringq.length }) })
  ∧ (∀ s p n sk f st, famOf s.m (famKey p n) = some f → running s.m p = true → thas sk f.copies = true → f.step = some st →
    sk ∈ st.acks → oldInFlight s.m { f with copies := tset sk (f.version, f.entries) f.copies } sk = false →
    exec (.senderAck p n sk) s = .next { s with m := redirEnd (famKey p n) (setFam s.m (famKey p n) { f with
      copies := tset sk (f.version, f.entries) f.copies
      step := some { st with acks := st.acks.filter (· != sk) } }) })
  ∧ (∀ s p n sk f st, famOf s.m (famKey p n) = some f → running s.m p = true → thas sk f.copies = false → f.step = some st →
    sk ∈ st.acks → oldInFlight s.m f sk = false → exec (.senderAck p n sk) s =
      .next { s with m := redirEnd (famKey p n) (setFam s.m (famKey p n) { f with step := some { st with acks := st.acks.filter (· != sk) } }) })
  ∧ (∀ s p n sk f st, famOf s.m (famKey p n) = some f → running s.m p = true → thas sk f.copies = false → f.step = some st →
    sk ∈ st.acks → oldInFlight s.m f sk = true →
    exec (.senderAck p n sk) s = .next { s with m := redirEnd (famKey p n) (setFam s.m (famKey p n) f) })
  ∧ (∀ s p n sk f, famOf s.m (famKey p n) = some f → running s.m p = true → thas sk f.copies = true → f.step = none →
    ∃ t, exec (.senderAck p n sk) s = .next t ∧ famOf t.m (famKey p n) = some { f with copies := tset sk (f.version, f.entries) f.copies }
      ∧ t.m.mem = s.m.mem)


/-! ## Class 0xC_: fabric, optics and leases -/

/-- LEASE, LMOVE, LREL and LQRY answer FIELD, NOT_PADDOCK, PEER_FAILED, QUOTA and FLOOR (R392, R394) and otherwise queue the
request, release the highest planes that may be released, or deliver the lease status word (R391, R394). PEERQ delivers the peer word
and under `.admit` takes the failure mark (R408). The count is B[2:0], the package that LMOVE moves a lane to B[8:0], and PEERQ's A[8:0].
The order of these answers, FIELD for a count of 0, LREL's FLOOR, LMOVE's choice of QUOTA or FLOOR and LQRY's answer of a failed peer are
the model's readings (log 38); which receive lanes are free at a peer is a free value (log 9). -/
def Obligations.LaneInstructions : Prop :=
  (∀ d a b s, memStarts s.m [a, b] [d] [] = true → exec (.lease d a b) s = .next (after s [a, b] [d] (fun m =>
    let p := pastOfActor m m.cur
    let x := payOf s.m .whole a % 2 ^ 64
    let n := payOf s.m .whole b % 2 ^ 3
    let answer := fun c => resultNow m (dstOf m d false) .tile (tokNat (2 ^ 63 + c))
    if n = 0 ∨ inUse m x = false then answer 1
    else if inPaddock m x = false then answer 3
    else if peerFailed m p x = true then answer 6
    else if quotaPeer m p < heldTo m p x + n ∨ quotaTotal m p < heldAll m p + n then answer 2
    else queueLease m d x n none m.host.peer)))
  ∧ (∀ d a b s, memStarts s.m [a, b] [d] [] = true → exec (.lmove d a b) s = .next (after s [a, b] [d] (fun m =>
    let p := pastOfActor m m.cur
    let x := payOf s.m .whole a % 2 ^ 64
    let y := payOf s.m .whole b % 2 ^ 9
    let answer := fun c => resultNow m (dstOf m d false) .tile (tokNat (2 ^ 63 + c))
    let fits := fun take => planesDown.filter (fun k => mayRelease m p take x k
      && decide ((tfind (y * 8 + k) m.fab.tx).map (·.holder) ≠ some (some p)) && bitAt (Config.freeSlot m.free) k)
    if inUse m x = false ∨ inUse m y = false then answer 1
    else if inPaddock m x = false ∨ inPaddock m y = false then answer 3
    else if peerFailed m p x = true ∨ peerFailed m p y = true then answer 6
    else if quotaPeer m p ≤ heldTo m p y then answer 2
    else match fits (quotaTake m p) with
      | [] => answer (if fits true = [] then 5 else 2)
      | k :: _ =>
        let adds := if (tfind (x * 8 + k) m.fab.tx).map (·.holder) = some none then 1 else 0
        if quotaTotal m p < heldAll m p + adds then answer 2 else queueLease { m with free := m.free + 1 } d y 1 (some k) x)))
  ∧ (∀ f d a b s, memStarts s.m [a, b] [d] [] = true → f.bit = false → exec (.lrel f d a b) s = .next (after s [a, b] [d] (fun m =>
    let p := pastOfActor m m.cur
    let x := payOf s.m .whole a % 2 ^ 64
    let n := payOf s.m .whole b % 2 ^ 3
    let ks := (planesDown.filter (mayRelease m p (quotaTake m p) x)).take n
    let answer := fun m v => resultNow m (dstOf m d false) .tile (tokNat v)
    if n = 0 ∨ inUse m x = false then answer m (2 ^ 63 + 1)
    else if inPaddock m x = false then answer m (2 ^ 63 + 3)
    else if peerFailed m p x = true then answer m (2 ^ 63 + 6)
    else if ks.length < n then answer m (2 ^ 63 + 5)
    else answer (darkTx m x ks) (leaseWord (darkTx m x ks) p x))))
  ∧ (∀ f d a b s, memStarts s.m [a, b] [d] [] = true → f.bit = true → ∃ eff : Mach → Mach,
    exec (.lrel f d a b) s = .next (after s [a, b] [d] eff) ∧
    let m := readDone s.m [a, b] [d]
    let p := pastOfActor m m.cur
    let x := payOf s.m .whole a % 2 ^ 64
    let n := payOf s.m .whole b % 2 ^ 3
    let ks := (planesDown.filter (fun k => match tfind (x * 8 + k) m.fab.rx with
      | some l => k != floorPlane x m.host.peer && l.revoking.isNone
      | none => false)).take n
    let answer := fun c => resultNow m (dstOf m d false) .tile (tokNat (2 ^ 63 + c))
    if n = 0 ∨ inUse m x = false then eff m = answer 1
    else if inPaddock m x = false then eff m = answer 3
    else if peerFailed m p x = true then eff m = answer 6
    else if quotaRevoke m p = false then eff m = answer 2
    else if ks.length < n then eff m = answer 5
    else ((eff m).mem.reqs.getLast?).map (·.op) = some (.lrel x ks) ∧ (eff m).fab.tx = m.fab.tx
      ∧ ∀ k < 8, (tfind (x * 8 + k) (eff m).fab.rx).map (·.revoking) =
        if k ∈ ks then some (some m.ids) else (tfind (x * 8 + k) m.fab.rx).map (·.revoking))
  ∧ (∀ m x ks k, (∀ j ∈ ks, j < 8) → tfind k (darkTx m x ks).fab.tx = if k / 8 = x ∧ k % 8 ∈ ks then none else tfind k m.fab.tx)
  ∧ (∀ d a s, memStarts s.m [a] [d] [] = true → exec (.lqry d a) s = .next (after s [a] [d] (fun m =>
    let p := pastOfActor m m.cur
    let x := payOf s.m .whole a % 2 ^ 64
    let answer := fun v => resultNow m (dstOf m d false) .tile (tokNat v)
    if inUse m x = false then answer (2 ^ 63 + 1)
    else if inPaddock m x = false then answer (2 ^ 63 + 3)
    else answer (leaseWord m p x))))
  ∧ (∀ f d a s, memStarts s.m [a] [d] [] = true → exec (.peerq f d a) s = .next (after s [a] [d] (fun m =>
    let p := pastOfActor m m.cur
    let x := payOf s.m .whole a % 2 ^ 9
    if inUse m x = false then resultNow m (dstOf m d false) .tile (tokNat (2 ^ 63 + 1))
    else
      let m1 := if f.bit then { m with fab.failed := m.fab.failed.filter (· ≠ p * 512 + x) } else m
      resultNow m1 (dstOf m1 d false) .tile (tokNat (peerWord m p x)))))
  ∧ (∀ m p x, let w := peerWord m p x
    w < 2 ^ 17 ∧ bitAt w 16 = peerFailed m p x ∧ bits w 10 4 = ((upto 8).filter (txLit m x)).length
      ∧ bitAt w 9 = (x / 64 != m.host.peer / 64) ∧ bits w 0 9 = 0)

/-- A lease service grants the head request, the oldest with PRIO first, on free planes only, so that no plane lights more than 32 lanes in
a direction (R385, R389); 20 microseconds of waiting deny it (R389). Requests of other packages join this receiver's queue, whose head, the
oldest with PRIO first, is served alone; without a lane for it, it waits until a receive lane frees here (R389). A module that has not lit
its lanes serves none (R445, R448). A revoked lane goes dark at the end of its notice, with cause 0x0C, and an LREL delivers with the last
lane that it revokes (R390, R394). Each flit goes under its lane's nonce and takes the next value of the counter (R399, R400). A lane whose
key runs out is held with cause 0x0B and then goes dark, but a gate lane stays lit (R385, R400). KEYI reads its key as a load and sets a
transmit lane's key, phase and counter, or a receive lane's next key, which the first good flit of the new phase makes its key (R399-R401).
These are the model's: KEY_LOW and KEY_HOLD move the counter on, for the flits that it does not show, and a line's request is one flit (log
103); DENIED and PRIO are kept per package (log 38); which lanes and slots are free elsewhere is not fixed (log 9). -/
def Obligations.LaneEvents : Prop :=
  (∀ s c, s.m.host.phase < 5 → exec (.leaseService c) s = .next s)
  ∧ (∀ s x r n y, 5 ≤ s.m.host.phase → leaseHead s.m x = some r → r.op = .lease x n none y →
    let m := { s.m with free := s.m.free + 1 }
    let ks := ((upto 8).filter (fun k => decide (planeTx m k < 32) && bitAt (Config.freeSlot s.m.free) k && !txLit m x k)).take n
    exec (.leaseService (.ours x)) s = .next { s with m := if ks = [] then m else grantLease (lightTx m r.past x ks) r x })
  ∧ (∀ m x r, leaseHead m x = some r → r ∈ m.mem.reqs ∧ r.done = false ∧
      (r.granted = none → ∀ q ∈ m.mem.reqs, ∀ n k y, q.op = .lease x n k y → q.done = false → q.granted = none))
  ∧ (∀ m p x ks, ks.Nodup → (∀ k ∈ ks, k < 8 ∧ planeTx m k < 32 ∧ txLit m x k = false) →
    (∀ k ∈ ks, tfind (x * 8 + k) (lightTx m p x ks).fab.tx = some (Lane.fresh (some p)))
    ∧ (∀ k < 8, planeTx (lightTx m p x ks) k = planeTx m k + if k ∈ ks then 1 else 0))
  ∧ (∀ s src n plane prio, 5 ≤ s.m.host.phase → inPaddock s.m src = true → 0 < n → n < 8 → (∀ k, plane = some k → k < 8) →
    exec (.leaseService (.request src n plane prio)) s =
      .next { s with m.fab.leases := s.m.fab.leases ++ [⟨src, n, plane, prio, false⟩] })
  ∧ (∀ s src n plane prio, (inPaddock s.m src = false ∨ n = 0 ∨ 7 < n ∨ ∃ k, plane = some k ∧ 7 < k) →
    exec (.leaseService (.request src n plane prio)) s = .next s)
  ∧ (∀ s q, 5 ≤ s.m.host.phase → queueHead s.m = some q → q.waited = false →
    let m := { s.m with free := s.m.free + 1 }
    let planes := match q.plane with | some k => [k] | none => upto 8
    let ks := (planes.filter (fun k => bitAt (Config.freeSlot s.m.free) k && decide (planeRx m k < 32) && !rxLit m q.src k)).take q.n
    ∃ t, exec (.leaseService .theirs) s = .next t ∧ t.m.fab.tx = s.m.fab.tx ∧ t.m.mem = s.m.mem
      ∧ (ks = [] → t.m.fab.rx = s.m.fab.rx ∧ t.m.fab.leases = s.m.fab.leases.map (fun x => if x = q then { x with waited := true } else x))
      ∧ (ks ≠ [] → t.m.fab.leases = s.m.fab.leases.erase q ∧ (∀ k ∈ ks, tfind (q.src * 8 + k) t.m.fab.rx = some (Lane.fresh none))
        ∧ (∀ j, (∀ k ∈ ks, j ≠ q.src * 8 + k) → tfind j t.m.fab.rx = tfind j s.m.fab.rx)))
  ∧ (∀ s, (queueHead s.m = none ∨ ∃ q, queueHead s.m = some q ∧ q.waited = true) → exec (.leaseService .theirs) s = .next s)
  ∧ (∀ m q, queueHead m = some q → q ∈ m.fab.leases ∧ (q.prio = false → (∀ x ∈ m.fab.leases, x.prio = false) ∧ m.fab.leases.head? = some q))
  ∧ (∀ s, (∀ k < 8, planeRx s.m k ≤ 32) → (∀ q ∈ s.m.fab.leases, ∀ k, q.plane = some k → k < 8) →
    ∃ t, exec (.leaseService .theirs) s = .next t ∧ (∀ k < 8, planeRx t.m k ≤ 32))
  ∧ (∀ s src, 5 ≤ s.m.host.phase → exec (.leaseService (.denied src)) s = .next { s with m.fab.leases := s.m.fab.leases.eraseP (·.src == src) })
  ∧ (∀ s src k, 5 ≤ s.m.host.phase → k < 8 → src < 512 → exec (.leaseService (.released src k)) s = .next { s with m := endRx s.m (src * 8 + k) })
  ∧ (∀ s k l id, tfind k s.m.fab.rx = some l → l.revoking = some id →
    exec (.revocationNoticeEnd (8192 + k)) s = .next { s with m := endRx s.m k })
  ∧ (∀ m key, let m1 := freeRx m key
    m1.fab.rx = tdel key m.fab.rx ∧ m1.fab.leases = m.fab.leases.map (fun q => { q with waited := false }) ∧ m1.mem = m.mem
    ∧ ((∀ l, tfind key m.fab.rx = some l → l.revoking = none) → endRx m key = m1)
    ∧ (∀ l id r, tfind key m.fab.rx = some l → l.revoking = some id → reqOf m id = some r →
      ((∃ e ∈ m1.fab.rx, e.2.revoking = some id) → endRx m key = m1)
      ∧ ((∀ e ∈ m1.fab.rx, e.2.revoking ≠ some id) → endRx m key = finish m1 id (leaseWord m1 r.past (key / 8)))))
  ∧ (∀ s id r x n k y, reqOf s.m id = some r → r.op = .lease x n k y → r.done = false →
    let d := min 15 (tget 0 x s.m.fab.denied + 1)
    let m1 := { s.m with
      fab.denied := tset x d s.m.fab.denied
      fab.prio := if 8 ≤ d ∧ x ∉ s.m.fab.prio then x :: s.m.fab.prio else s.m.fab.prio }
    exec (.leaseDenial id) s = .next { s with m := finish m1 id (2 ^ 63 + 4) })
  ∧ (∀ s lane l, tfind lane s.m.fab.tx = some l → lane < 4096 → isFloor s.m.host.peer lane = false →
    ∃ t, exec (.revocationNotice lane) s = .next t ∧ tfind lane t.m.fab.tx = some { l with notice := true }
      ∧ (∀ k, k ≠ lane → tfind k t.m.fab.tx = tfind k s.m.fab.tx))
  ∧ (∀ s lane l, tfind lane s.m.fab.tx = some l → lane < 8192 → l.notice = true →
    exec (.revocationNoticeEnd lane) s =
      .next { s with m := laneCause { s.m with fab.tx := tdel lane s.m.fab.tx } l.holder 0x0C (lane / 8 + lane % 8 * 512) })
  ∧ (∀ s lane l, tfind lane s.m.fab.tx = some l → ∃ t, exec (.keyLow lane) s = .next t
      ∧ tfind lane t.m.fab.tx = some { l with low := true, ctr := max l.ctr (2 ^ 48 - 2 ^ 32) } ∧ t.m.mem = s.m.mem)
  ∧ (∀ s lane l, tfind lane s.m.fab.tx = some l → l.hold = false →
    let m1 := { s.m with fab.tx := tset lane { l with hold := true, ctr := 2 ^ 48 - 1 } s.m.fab.tx }
    exec (.keyHold lane) s = .next { s with m := laneCause m1 none 0x0B (laneId s.m lane) })
  ∧ (∀ s lane l, tfind lane s.m.fab.tx = some l → lane < 4096 → l.hold = true →
    (∃ k x, tfind k (tdel lane s.m.fab.tx) = some x ∧ k / 8 = lane / 8 ∧ x.moved = false) →
    exec (.keyExpiry lane) s = .next { s with m.fab.tx := tdel lane s.m.fab.tx })
  ∧ (∀ s lane l, tfind lane s.m.fab.tx = some l → 4096 ≤ lane → l.hold = true →
    (∃ k x, tfind k s.m.fab.tx = some x ∧ k ≠ lane ∧ 4096 ≤ k ∧ x.moved = false) →
    exec (.keyExpiry lane) s = .next { s with m.fab.tx := tset lane { l with moved := true } s.m.fab.tx })
  ∧ (∀ m p line k l, laneFor m p line = some k → tfind k m.fab.tx = some l →
    tfind k (countFlit m p line).fab.tx =
        some { l with nonce := nonce (laneId m k) l, ctr := l.ctr + 1, low := l.low || decide (2 ^ 48 - 2 ^ 32 ≤ l.ctr + 1) }
      ∧ (∀ j, j ≠ k → tfind j (countFlit m p line).fab.tx = tfind j m.fab.tx)
      ∧ (p ≠ m.host.peer → (lineHeld m p line = true ↔ l.hold = true ∨ 2 ^ 48 - 1 ≤ l.ctr)))
  ∧ (∀ m p line k, laneFor m p line = some k → ∃ l, (k, l) ∈ m.fab.tx ∧ l.notice = false ∧ l.moved = false
      ∧ (p / 64 = m.host.peer / 64 → k / 8 = p) ∧ (p / 64 ≠ m.host.peer / 64 → 4096 ≤ k))
  ∧ (∀ id l, id < 2 ^ 48 → l.ctr < 2 ^ 48 → (nonce id l).toNat = id * 2 ^ 48 + l.ctr)
  ∧ (∀ f s u w d a b, sStarts s.m u w [a, b] [d] = true → isShepherd u = true →
    let m := readDone s.m [a, b] [d]
    quotaLink m (pastOfActor m (.unit u w)) = true → exec (.keyi f d a b) s = .next { s with m := addReq m (mkReq m (dstOf m d false)
      (.keyi (payOf s.m .whole b % 2 ^ 48 + if f.bit then 2 ^ 48 else 0) (payOf s.m .whole a % 2 ^ 56)) 5 false false) })
  ∧ (∀ s id r lane va ls, reqOf s.m id = some r → r.op = .keyi lane va → mayPerform s.m r = true →
    virtR s.m r va 32 .rd = .ok ls → faultR s.m r false ls = none →
    exec (.loadResult id .perform) s = .next { s with m := keyiEnd s.m r lane va ls }
    ∧ (∀ c d, c ≠ 0 → failOk r ls c.toNat d.toNat = true → exec (.loadResult id (.fail c d)) s =
      .next { s with m := failReq (markBad s.m ls c.toNat d.toNat) r c.toNat d.toNat ls }))
  ∧ (∀ s id r lane va x ans, reqOf s.m id = some r → r.op = .keyi lane va → mayPerform s.m r = true →
    virtR s.m r va 32 .rd = .error x → exec (.loadResult id ans) s = .next { s with m := failReq s.m r x.1 x.2 [] })
  ∧ (∀ m r lane va ls, ls.length = 32 → (∀ l ∈ ls, isOutside l = false) →
    let m1 := countMove { m with free := m.free + 1 } r
    let rx := decide (2 ^ 48 ≤ lane)
    (∀ k, laneOfId m1 rx (lane % 2 ^ 48) = some k →
      keyiEnd m r lane va ls = finish (installKey m1 rx k (BitVec.ofNat 256 (natOf (ls.map (locByte m))))) r.id 0)
    ∧ (laneOfId m1 rx (lane % 2 ^ 48) = none → keyiEnd m r lane va ls = finish m1 r.id (2 ^ 63 + 1)))
  ∧ (∀ f s u w d a b, sStarts s.m u w [a, b] [d] = true → isShepherd u = true →
    let m := readDone s.m [a, b] [d]
    quotaLink m (pastOfActor m (.unit u w)) = false → exec (.keyi f d a b) s = .next { s with m := trapForm m u w 0x03 0 })
  ∧ (∀ m key v l, (tfind key m.fab.tx = some l → tfind key (installKey m false key v).fab.tx =
        some { l with key := v, phase := !l.phase, ctr := 0, hold := false, low := false, moved := false })
      ∧ (tfind key m.fab.rx = some l → tfind key (installKey m true key v).fab.rx = some { l with newKey := some v }))
  ∧ (∀ m key, m.host.peer < 512 → key < 4096 → key / 8 / 64 = m.host.peer / 64 → key / 8 ≠ m.host.peer → thas key m.fab.tx = true →
    laneOfId m false (laneId m key) = some key)
  ∧ (∀ s lane l k, tfind lane s.m.fab.rx = some l → l.newKey = some k → (bucketOf s (10000 + lane)).level ≠ 0 →
    tfind (2 ^ 64) s.pow.paid = none → ∃ t, exec (.toryrFlitReceive (8192 + lane) true (!l.phase)) s = .next t
      ∧ tfind lane t.m.fab.rx = some { l with key := k, newKey := none, phase := !l.phase, ctr := 1, came := l.came + 1 }
      ∧ (bucketOf t (10000 + lane)).level + 1 = (bucketOf s (10000 + lane)).level)
  ∧ (∀ s lane l, tfind lane s.m.fab.rx = some l → (bucketOf s (10000 + lane)).level ≠ 0 → tfind (2 ^ 64) s.pow.paid = none →
    ∃ t, exec (.toryrFlitReceive (8192 + lane) true l.phase) s = .next t
      ∧ tfind lane t.m.fab.rx = some { l with ctr := min (l.ctr + 1) (2 ^ 48 - 1), came := l.came + 1 })
  ∧ (∀ s lane l, tfind lane s.m.fab.rx = some l → (bucketOf s (10000 + lane)).level = 0 → tfind (2 ^ 64) s.pow.paid = none →
    ∀ ok phase, ∃ t, exec (.toryrFlitReceive (8192 + lane) ok phase) s = .next t ∧ t.m = s.m)
  ∧ (∀ s lane phase, exec (.toryrFlitReceive (8192 + lane) false phase) s = .next s)

/-- MGRP writes the mask of group B[7:0] or maps and unmaps slot B[5:0] for lines that arrive here (R395). MCST is sent to the group's members with the
next sequence number, one at a time for a group and an issuer (R396, R411); a member's line is written as R396 maps it, the record
and the vector count the answers (R397, R398), and the last answer completes it. A member whose line is poisoned in its engine or on a
degraded channel answers that its memory failed and is given no byte (R225, R279, R396). MCSTQ writes its vector and answers once the
earlier accesses of its chain to those bytes are performed (R398, R411). That a unit is the issuer of its S-form MCST, and that the sequence
number is taken as the line is read, are the model's readings (log 38). -/
def Obligations.Multicast : Prop :=
  (∀ f s u w d a b, sStarts s.m u w [a, b] [d] = true →
    let m := readDone s.m [a, b] [d]
    let g := payOf s.m .whole b % 256
    let j := payOf s.m .whole b % 64
    let va := payOf s.m .whole a % 2 ^ 64
    let n := (tget (0, 0) g m.fab.groups).2
    (∀ v, f.op = .set → readNat m (.unit u w) va 64 = .ok v →
      let m1 := { m with free := m.free + 64, fab.groups := tset g (v, n) m.fab.groups }
      exec (.mgrp f d a b) s = .next { s with m := putS m1 u d 0 })
    ∧ (f.op = .clr → exec (.mgrp f d a b) s = .next { s with m := putS { m with fab.groups := tset g (0, n) m.fab.groups } u d 0 })
    ∧ (f.op = .unmap → exec (.mgrp f d a b) s = .next { s with m := putS { m with fab.inbound := tdel j m.fab.inbound } u d 0 })
    ∧ (∀ v, f.op = .map → readNat m (.unit u w) va 16 = .ok v → bits v 116 12 = 0 → bits v 64 8 = 0 → bits v 25 7 = 0 →
      bits v 9 7 = 0 → bits v 32 32 ≠ 0 → bits v 64 52 + 256 * bits v 32 32 ≤ 2 ^ 39 →
      let i : Inbound := ⟨bits v 64 52, bits v 32 32, bits v 16 8, bits v 0 9, bitAt v 24, pastOfActor m (.unit u w)⟩
      let m1 := { m with free := m.free + 16, fab.inbound := tset j i m.fab.inbound }
      exec (.mgrp f d a b) s = .next { s with m := putS m1 u d 0 })
    ∧ (∀ v, f.op = .map → readNat m (.unit u w) va 16 = .ok v →
      (bits v 116 12 ≠ 0 ∨ bits v 64 8 ≠ 0 ∨ bits v 25 7 ≠ 0 ∨ bits v 9 7 ≠ 0 ∨ bits v 32 32 = 0 ∨
        2 ^ 39 < bits v 64 52 + 256 * bits v 32 32) →
      exec (.mgrp f d a b) s = .next { s with m := putS { m with free := m.free + 16 } u d (2 ^ 63 + 1) }))
  ∧ (∀ f d a b s, memStarts s.m [a, b] [d] [] = true →
    let m := readDone s.m [a, b] [d]
    let sa := payOf s.m .whole a % 2 ^ 32
    let y := payOf s.m .whole b
    let mask := (tget (0, 0) (y % 256) m.fab.groups).1
    let busy := ∃ r ∈ m.mem.reqs, r.done = false ∧ issuerOf r.who = issuerOf m.cur ∧ ∃ x o n l k as, r.op = .mcst x (y % 256) o n l k as
    (∀ ls, lineLocs m sa 256 = .ok ls → y < 2 ^ 32 → mask ≠ 0 → ¬busy → exec (.mcst f d a b) s = .next (after s [a, b] [d] (fun m =>
      mcstSend (addReq m (mkReq m (dstOf m d false) (.mcst sa (y % 256) (y / 256) 0 [] mask []) f.scope.code false true)) m.ids)))
    ∧ ((mask = 0 ∨ 2 ^ 32 ≤ y ∨ busy ∨ ∃ c, lineLocs m sa 256 = .error c) → exec (.mcst f d a b) s = .next (answered s [a, b] d .tile (2 ^ 63 + 1))))
  ∧ (∀ m id r sa g off n mask as ls, reqOf m id = some r → r.op = .mcst sa g off n [] mask as → as = [] → mayPerform m r = true →
    scratchLocs m r.who r.past sa 256 = .ok ls → locsFault m r.who ls = none →
    let k := ((tget (0, 0) g m.fab.groups).2 + 1) % 65536
    tget (0, 0) g (mcstSend m id).fab.groups = ((tget (0, 0) g m.fab.groups).1, k) ∧ tfind g (mcstSend m id).fab.latest = some (k, mask, [])
      ∧ (reqOf (mcstSend m id) id).map (·.op) = some (.mcst sa g off k (ls.map (locByte m)) mask []))
  ∧ (∀ d a b s ls, memStarts s.m [a, b] [d] [] = true →
    let m := readDone s.m [a, b] [d]
    let sa := payOf s.m .whole a % 2 ^ 32
    let g := payOf s.m .whole b % 256
    let r := mkReq m (dstOf m d false) (.mcstq sa g) 2 false false
    lineLocs m sa 16 = .ok ls →
    (mayPerform (addReq m r) r = true → exec (.mcstq d a b) s = .next (after s [a, b] [d] (fun m => mcstqDo (addReq m r) r sa g)))
    ∧ (mayPerform (addReq m r) r = false → exec (.mcstq d a b) s = .next (issued s [a, b] [d] (fun _ => r))))
  ∧ (∀ s id r sa g ans, reqOf s.m id = some r → r.op = .mcstq sa g → mayPerform s.m r = true →
    exec (.loadResult id ans) s = .next { s with m := mcstqDo s.m r sa g })
  ∧ (∀ m r sa g ls, scratchLocs m r.who r.past sa 256 = .ok ls → mcstqDo m r sa g =
    let x := tget (0, 0, []) g m.fab.latest
    finish (writeLocs m ls (mcstVector x)) r.id (mcstRecord g x
      ((upto 512).any (fun p => bitAt x.2.1 p && !x.2.2.any (fun a => a.1 == p)))))
  ∧ (∀ m r q, q ∈ m.mem.reqs → holdsBack m r q = true → mayPerform m r = false)
  ∧ (∀ x p, p < 512 → (∀ a ∈ x.2.2, a.2 < 8) →
    bits ((mcstVector x).map (·.toNat))[p / 2]! (4 * (p % 2)) 4 = if bitAt x.2.1 p = false then 0 else
      match x.2.2.find? (fun a => a.1 == p) with
      | some a => if a.2 = 0 then 1 else 8 + a.2
      | none => 2)
  ∧ (∀ s src g off line e, s.m.fab.inbound.find? (fun e => e.2.valid && e.2.src == src && e.2.group == g) = some e → src ≠ s.m.host.peer →
    line.length = 256 → memberHeld s.m src g off = false → exec (.mcstMemberWrite (.incoming src g off line)) s =
      if off < e.2.len ∧ memberFault s.m (memberLocs e.2 off) = none then .next { s with m := writeLocs s.m (memberLocs e.2 off) line }
      else .next s)
  ∧ (∀ i off, memberLocs i off = (upto 256).map (fun j => Loc.hbm (i.base + 256 * off + j)))
  ∧ (∀ s src g off line, memberHeld s.m src g off = true → exec (.mcstMemberWrite (.incoming src g off line)) s = .next s)
  ∧ (∀ m ls, memberFault m ls = none ↔ lineFault m ls = none ∧ ∀ l ∈ ls, Config.rowChannel (rowOf (locPa l)) ∉ m.mem.degraded)
  ∧ (∀ s id r sa g off n line mask as nak e, reqOf s.m id = some r → r.op = .mcst sa g off n line mask as → line ≠ [] → r.done = false →
    bitAt mask s.m.host.peer = true → s.m.host.peer < 512 → nak < 3 → (∀ a ∈ as, a.1 ≠ s.m.host.peer) →
    peerFailed s.m r.past s.m.host.peer = false → memberHeld s.m s.m.host.peer g off = false →
    memberMap s.m s.m.host.peer g = some e →
    let answer := fun m n' => noteAnswer m id g n s.m.host.peer n'
    let m1 := if e.len ≤ off then answer s.m 2
      else if memberFault s.m (memberLocs e off) ≠ none then answer s.m 5
      else answer (writeLocs s.m (memberLocs e off) line) 0
    exec (.mcstMemberWrite (.answer id s.m.host.peer nak)) s = .next { s with m := m1 })
  ∧ (∀ s id r sa g off n line mask as k nak, reqOf s.m id = some r → r.op = .mcst sa g off n line mask as → line ≠ [] → r.done = false →
    bitAt mask k = true → k < 512 → nak < 8 → (∀ a ∈ as, a.1 ≠ k) → k ≠ s.m.host.peer → peerFailed s.m r.past k = false →
    ((nak = 3 ∨ nak = 6 ∨ lineHeld s.m k 0 = false) →
      exec (.mcstMemberWrite (.answer id k nak)) s = .next { s with m := noteAnswer (countFlit s.m k 0) id g n k nak })
    ∧ (nak ≠ 3 → nak ≠ 6 → lineHeld s.m k 0 = true → exec (.mcstMemberWrite (.answer id k nak)) s = .next s))
  ∧ (∀ s id r sa g off n line mask as, reqOf s.m id = some r → r.op = .mcst sa g off n line mask as → line ≠ [] → r.done = false →
    (∀ p < 512, bitAt mask p = true → ∃ a ∈ as, a.1 = p) → (∀ a ∈ as, a.2 = 0) →
    exec (.mcstCompletion id) s = .next { s with m := finish s.m id (mcstRecord g (n, mask, as) false) })
  ∧ (∀ s id r sa g off n line mask as p, reqOf s.m id = some r → r.op = .mcst sa g off n line mask as → p < 512 → bitAt mask p = true →
    (∀ a ∈ as, a.1 ≠ p) → exec (.mcstCompletion id) s = .next s)

/-- RAMO makes its operation for the portal, of the code's width (R404); an operator that the target lacks fails with 0x08, and the portal's
reply is its result (R402-R404). PGMIG answers FAIL 1 for a page that is no migrate page, 0 for one that is there, and else moves it
(R406). SLOT leaves an entry that waits for slot index 0 (R407). -/
def Obligations.PortalAndPages : Prop :=
  (∀ f d a b s, let n := RamoOp.bytes f.op
    let ea := payOf s.m .whole a % 2 ^ 64
    let x := if f.op = .cas8 then wideVal s.m b else payOf s.m .whole b
    let new := if f.op = .cas4 ∨ f.op = .cas8 then x / 256 ^ n % 256 ^ n else if f.op = .cas16 then payOf s.m .whole d else 0
    let os := if f.op = .cas16 then [a, b, d] else [a, b]
    memStarts s.m os [d] (pairReg s.m (f.op == .cas8) b) = true → ea % n = 0 → exec (.ramo f d a b) s = .next (issued s os [d] (fun m =>
      mkReq m (dstOf m d false) (.ramo f.op ea (x % 256 ^ n) new) f.scope.code true true)))
  ∧ (∀ s id r op ea b c ls v, reqOf s.m id = some r → r.op = .ramo op ea b c → mayPerform s.m r = true →
    targetOf s.m r (.virt ea) (RamoOp.bytes op) .ramo = .at ls →
    let t := match ls.head? with | some (.host t _) => t | _ => 0
    let m1 := finish s.m id (v.toNat % 256 ^ RamoOp.bytes op)
    let m2 := failReq s.m r 0x08 (ea % 2 ^ 56) ls
    exec (.portalReply id (.data v)) s = .next { s with m := if bitAt (Config.portalOps t) op.code then m1 else m2 })
  ∧ (∀ s id r op ea b c ls x y, reqOf s.m id = some r → r.op = .ramo op ea b c → mayPerform s.m r = true →
    targetOf s.m r (.virt ea) (RamoOp.bytes op) .ramo = .at ls →
    bitAt (Config.portalOps (match ls.head? with | some (.host t _) => t | _ => 0)) op.code = true →
    exec (.portalReply id (.fail x y)) s =
      .next { s with m := if failOk r ls x.toNat y.toNat then failReq s.m r x.toNat y.toNat ls else s.m })
  ∧ (∀ s id r, reqOf s.m id = some r → mayPerform s.m r = false → ∀ ans, exec (.portalReply id ans) s = .next s)
  ∧ (∀ d a b s, memStarts s.m [a, b] [d] [] = true →
    let m := readDone s.m [a, b] [d]
    let p := pastOfActor m m.cur
    let va := payOf s.m .whole a % 2 ^ 64
    let peer := payOf s.m .whole b % 512
    (∀ c, leafOf m m.cur p va = .error c → exec (.pgmig d a b) s = .next (answered s [a, b] d .tile (2 ^ 63 + 1)))
    ∧ (∀ e, leafOf m m.cur p va = .ok e → migratable e = false → exec (.pgmig d a b) s = .next (answered s [a, b] d .tile (2 ^ 63 + 1)))
    ∧ (∀ e, leafOf m m.cur p va = .ok e → migratable e = true → peerFailed m p peer = false → peerFailed m p (bits e 52 9) = false →
      (bits e 52 9 = peer → exec (.pgmig d a b) s = .next (answered s [a, b] d .tile 0))
      ∧ (bits e 52 9 ≠ peer → exec (.pgmig d a b) s = .next (issued s [a, b] [d] (fun m =>
          mkReq m (dstOf m d false) (.pgmig va (pageKey e) peer) 5 false false)))))
  ∧ (∀ s id r va key peer, reqOf s.m id = some r → r.op = .pgmig va key peer → r.done = false →
    (∀ q ∈ s.m.mem.reqs, q.id < id → q.done = false → ∀ v p, q.op ≠ .pgmig v key p) →
    exec (.pageMigration (.ours id true)) s = .next { s with m := finish (movePage s.m r.past va peer) id 0 })
  ∧ (∀ m p va peer pa, pteAddr m va walkLevels (pastOf m p).xroot = some pa →
    let e := memRead m.mem.hbm pa 8
    migratable e = true → m.mem.reqs = [] → peer < 512 → peer ≠ m.host.peer → bits e 52 9 = m.host.peer →
      memRead (movePage m p va peer).mem.hbm pa 8 = setBits e 52 9 peer
      ∧ (∀ a, a < pa ∨ pa + 8 ≤ a → memGet (movePage m p va peer).mem.hbm a = memGet m.mem.hbm a))
  ∧ (∀ s u w d a, sStarts s.m u w [a] [d] = true →
    let m := readDone s.m [a] [d]
    (∀ e, slotEntry m (pastOfActor m (.unit u w)) [] (payOf s.m .whole a) = some e →
      exec (.slot d a) s = .next { s with m := putS (newSlot m (pastOfActor m (.unit u w)) e) u d 0 })
    ∧ (slotEntry m (pastOfActor m (.unit u w)) [] (payOf s.m .whole a) = none →
      exec (.slot d a) s = .next { s with m := putS m u d (2 ^ 63 + 4) }))
  ∧ (∀ m p e, (newSlot m p e).fab.newSlots = (m.fab.newSlots.filter (fun x => x.1 ≠ e.1)) ++ [e] ∧ (newSlot m p e).fab.slots = m.fab.slots
      ∧ (newSlot m p e).mem = m.mem ∧ p ∈ tget [] (2 * e.1 + 1) (newSlot m p e).fab.slotOwn)
  ∧ (∀ s router, (s.m.fab.newSlots.map (·.1)).Nodup → ∃ t, exec (.slotEntryEffect router) s = .next t
      ∧ t.m.fab.newSlots = s.m.fab.newSlots.filter (fun e => e.1 / 2048 ≠ router)
      ∧ (∀ e ∈ s.m.fab.newSlots, e.1 / 2048 = router → tfind e.1 t.m.fab.slots = e.2)
      ∧ (∀ k, k / 2048 ≠ router → tfind k t.m.fab.slots = tfind k s.m.fab.slots))


/-- INSTALL hands an image that passes every check to the armature, or writes the failure word of the first failed item (R84, R148); it waits
while an install into its frame is in progress or an earlier store of its unit to the image is still to be performed (R148, R249); the
transfer puts the block in place and the unit goes on with 0 (R148, R158). A placed block zeroes the four banks of its frame, loads
every input whose binding word is not 0 and no other, and changes no memory (R20, R118). These are the model's readings: the item and the
slot that a failure word names (log 40, 41), the old block kept until the transfer ends (log 96), the second judgement of an averaging
install (log 51), and an image that is not on a 64-byte boundary, which is read where it stands (log 109). -/
def Obligations.Installs : Prop :=
  (∀ f s u w d a b, sStarts s.m u w [a, b] [d] = true →
    let m := readDone s.m [a, b] [d]
    let p := pastOfActor m (.unit u w)
    let va := payOf s.m .whole a % 2 ^ 56
    let core := payOf s.m .whole b % 2 ^ 10
    (coreIn m p core = false → exec (.install f d a b) s = .next { s with m := seqResult m u d f (failWord 0x11 0 0 0) })
    ∧ (coreIn m p core = true → (armatureBusy m (.unit u w) core va = true ∨ readsHeld m (.unit u w) va (fun h => 64 * imgSize h) = true) →
      exec (.install f d a b) s = .next { s with m := stall m })
    ∧ (∀ v m1, coreIn m p core = true → armatureBusy m (.unit u w) core va = false → readsHeld m (.unit u w) va (fun h => 64 * imgSize h) = false →
      readImage m (.unit u w) p core va = .error (v, m1) →
      exec (.install f d a b) s = .next { s with m := seqResult { m1 with free := m1.free + 1 } u d f v })
    ∧ (∀ img r, coreIn m p core = true → armatureBusy m (.unit u w) core va = false → readsHeld m (.unit u w) va (fun h => 64 * imgSize h) = false →
      readImage m (.unit u w) p core va = .ok (img, r) →
      ∃ t, exec (.install f d a b) s = .next t ∧ t.m.mem = m.mem ∧ t.m.pe = m.pe
        ∧ (tfind (frameKey core (imgFrame img)) t.m.seq.installs).map (fun x => (x.img, x.unit, x.word)) = some (img, some u, w)))
  ∧ (∀ m who p core va h, readNat m who va 8 = .ok h →
    (frameBusy m core (bits h 24 1) = true → readImage m who p core va = .error (failWord 0x10 0 0 0, m))
    ∧ (frameBusy m core (bits h 24 1) = false → header0Ok h = false →
      readImage m who p core va = .error (failWord 0x01 0 0 0, emptyFrame m core (bits h 24 1)))
    ∧ (∀ img, frameBusy m core (bits h 24 1) = false → header0Ok h = true → readWords m who va (8 * imgSize h) = .ok img →
      (∀ x, badWord m core img = some x → readImage m who p core va =
        .error (failWord 0x01 x.1 x.2 0, emptyFrame m core (bits h 24 1)))
      ∧ (∀ x, badWord m core img = none → headerOk img = true → badCtl img = some x → readImage m who p core va =
        .error (failWord 0x02 x.1 x.2 0, emptyFrame m core (bits h 24 1)))
      ∧ (∀ x, badWord m core img = none → headerOk img = true → badCtl img = none → badBind img = some x → readImage m who p core va =
        .error (failWord 0x03 x.1 0 x.2, emptyFrame m core (bits h 24 1)))))
  ∧ (∀ (s : State) core frame x u, tfind (frameKey core frame) s.m.seq.installs = some x → x.unit = some u →
    (pastOf s.m (pastOfActor s.m (.unit u x.word))).image = none →
    let m1 := { s.m with seq.installs := tdel (frameKey core frame) s.m.seq.installs }
    let p := pastOfActor s.m (.unit u x.word)
    exec (.armatureTransfer core frame) s =
      .next { s with m := installDone (placeBlock m1 p core frame x.img (routeWrites core (routeEntries x.img))) x })
  ∧ (∀ (s : State) core frame x r, tfind (frameKey core frame) s.m.seq.installs = some x → x.unit = none →
    (pastOf s.m (pastOfCore s.m core)).image = none → judge s.m (.pe core 0 0 0 0 false) (pastOfCore s.m core) core x.img = .ok r →
    let m1 := { s.m with seq.installs := tdel (frameKey core frame) s.m.seq.installs }
    exec (.armatureTransfer core frame) s = .next { s with m := placeBlock m1 (pastOfCore s.m core) core frame x.img r })
  ∧ (∀ m p core frame img r, frame < 2 → let t := placeBlock m p core frame img r
    frameImg t core frame = img ∧ t.mem = m.mem ∧ t.seq = m.seq ∧ t.sys = m.sys
    ∧ (∀ pe < 16, ∀ ch < 8, chanOf t (chanKey core pe ch) = if imgBind img pe ch = 0 then chanOf m (chanKey core pe ch) else
        { Chan.reset with
          binding := BitVec.ofNat 64 (imgBind img pe ch), fifo := initToks img (imgBind img pe ch), ringBase := ringStart img pe ch })
    ∧ (∀ k, k / 128 ≠ core → chanOf t k = chanOf m k)
    ∧ (∀ pe < 16, ∀ code < 64, ∀ c < 8, peReg t core pe c code = if c / 4 = frame then Val.none else peReg m core pe c code))


/-! ## Class 0xE_: traps, the system and pre-emption -/

/-- A word that its unit cannot fetch or whose checks fail traps with the cause of R87 (or 0x04 or 0x15 for the fetch, R67,
R417), and has no effect. Taking a trap saves the word, STATUS, the cause and its value in the registers of the new level, makes STATUS that of an entry and goes
on at TVEC (R414, R418); at depth 2 the ROM logs both causes, halts the pasture and enters TVEC at depth 1 with cause 0x11 (R419).
TRAP takes a software cause at once with SPC on the next word; TRET restores STATUS and goes on at the saved word, and traps with 0x09
at depth 0 and 0x0A for a saved status that it refuses (R420). An asynchronous cause is taken at depth 0 with AE set (R418). A unit that is
no shepherd core halts as its cause joins the queue of its cluster's core; while that queue is full it holds the trap and stalls (R66, R418). -/
def Obligations.Traps : Prop :=
  ((∀ s u c v, unitMayRun s.m u = true → fetchWord s.m u = .error (c, v) →
    exec (.decodeTrap u) s = .next { s with m := flush { trapUnit s.m u (unitOf s.m u).w c v with ctl := .seq } })
  ∧ (∀ s u x c, unitMayRun s.m u = true → fetchWord s.m u = .ok x → wordFate s.m u x = .error c →
    exec (.decodeTrap u) s = .next { s with m := flush { trapForm s.m u (unitOf s.m u).w c 0 with ctl := .seq } }))
  ∧ ((∀ m k c q v spc, shDepth (shepOf m k) = 0 → tvecFetches m k = true →
    let x := shepOf m k
    let t := takeTrap m k c q v spc
    shepOf t k = { x with
      spc1 := BitVec.ofNat 64 spc, sst1 := x.status, cause1 := causeWord q c, tval1 := v, status := entryStatus q 1 }
    ∧ (unitOf t (128 + k)).w = x.tvec.toNat ∧ (unitOf t (128 + k)).run = .running
    ∧ (∀ j, j ≠ k → shepOf t j = shepOf m j) ∧ t.mem = m.mem ∧ t.pe = m.pe ∧ (∀ u r, sReg t u r = sReg m u r))
  ∧ (∀ m k c q v spc, shDepth (shepOf m k) = 1 → tvecFetches m k = true →
    let x := shepOf m k
    let t := takeTrap m k c q v spc
    shepOf t k = { x with
      spc2 := BitVec.ofNat 64 spc, sst2 := x.status, cause2 := causeWord q c, tval2 := v, status := entryStatus q 2 }
    ∧ (unitOf t (128 + k)).w = x.tvec.toNat ∧ t.mem = m.mem)
  ∧ (∀ m k c q v spc, shDepth (shepOf m k) = 2 → let x := shepOf m k
    let t := takeTrap m k c q v spc
    let y := shepOf t k
    (y.spc1, y.sst1, y.cause1, y.status) = (0, 4, causeWord q 0x11, entryStatus q 1)
      ∧ y.tval1.toNat = x.cause2.toNat % 256 + c % 256 * 256 + q % 16 * 65536
      ∧ (unitOf t (128 + k)).w = y.tvec.toNat ∧ (unitOf t (128 + k)).run = .running)
  ∧ (∀ s k w a b, sStarts s.m (128 + k) w [a, b] [] = true →
    let m := readDone s.m [a, b] []
    let c := payOf s.m .whole a % 256
    let v := BitVec.ofNat 64 (payOf s.m .whole b)
    (128 ≤ c → exec (.trap a b) s = .next { s with m := { takeTrap m k c (pastOfActor m (.unit (128 + k) w)) v (w + 1) with ctl := .trapped } })
    ∧ (c < 128 → exec (.trap a b) s = .next { s with m := trapForm m (128 + k) w 0x01 0 }))
  ∧ (∀ (s : State) k w, s.m.cur = .unit (128 + k) w → let x := shepOf s.m k
    (shDepth x ≠ 0 → statusOk x = true → exec .tret s = .next { s with m :=
      { setShep s.m k { x with status := BitVec.ofNat 64 (savedStatus x) } with ctl := .jump (savedWord x % 2 ^ 16) } })
    ∧ (shDepth x = 0 → exec .tret s = .next { s with m := trapUnit s.m (128 + k) w 0x09 w })
    ∧ (shDepth x ≠ 0 → statusOk x = false → exec .tret s = .next { s with m := trapUnit s.m (128 + k) w 0x0A w }))
  ∧ (∀ (s : State) k c q v spc w, shDepth (shepOf s.m k) = 0 → tvecFetches s.m k = true → spc < 2 ^ 16 →
    bits (shepOf s.m k).status.toNat 3 9 = 0 → bits (shepOf s.m k).status.toNat 16 48 = 0 →
    ∃ t, exec .tret { s with m := { takeTrap s.m k c q v spc with cur := .unit (128 + k) w } } = .next t
      ∧ (shepOf t.m k).status = (shepOf s.m k).status ∧ t.m.ctl = .jump spc)
  ∧ (∀ m u w c, isShepherd u = false → holdsRec m (.unit u w) = false →
    let k := unitCluster u (pastOf m c.past).home
    (causeRoom m k = true → trapSync m u w c = raiseCause (haltUnit m u c.code) k c (.unit u w))
    ∧ (causeRoom m k = false → trapSync m u w c = { m with seq.heldTraps := m.seq.heldTraps ++ [(k, c, .unit u w, true)] }))
  ∧ (∀ (s : State) k c rest, k < 16 → (unitOf s.m (128 + k)).run = .running → (shepOf s.m k).queue = c :: rest → unitBlocked s.m (128 + k) = false →
    shDepth (shepOf s.m k) = 0 → shAE (shepOf s.m k) = true →
    let m1 := releaseHeldTrap (setShep s.m k { shepOf s.m k with queue := rest }) k
    exec (.asyncCause k) s = .next { s with m := takeTrap m1 k c.code c.past c.val (unitOf s.m (128 + k)).w })
  ∧ (∀ s k, (shAE (shepOf s.m k) = false ∨ shDepth (shepOf s.m k) ≠ 0) → exec (.asyncCause k) s = .next s)
  ∧ (∀ (s : State) k n c, k < 16 → (unitOf s.m (128 + k)).run = .running → (shepOf s.m k).queue[n]? = some c → unitWaits s.m (128 + k) = false →
    let m1 := releaseHeldTrap (setShep s.m k { shepOf s.m k with queue := (shepOf s.m k).queue.eraseIdx n }) k
    exec (.watchdog k n) s = .next { s with m := takeTrap m1 k 0x12 c.past (causeWord c.past c.code) (unitOf m1 (128 + k)).w }))

/-- PREEMPT, RESUME, CSAVE, CLOAD, HALT, GTBL and FLOG enter the queue of their pasture (R428, R431-R435, R438), or answer FIELD for a pasture
above 15; `flog.ack` advances TAIL by at most the records there are. The served operation answers STATE where its pasture is in
another state, and the readout of the channel stores ends a PREEMPT, and a swap with the other pasture in place (R423, R428-R432). A readout
takes the pasture's part of the PE array, its graph contexts and its monitors into its image and leaves neither behind (R158, R423, R424),
and a RESUME brings them back, its monitors that are still armed as fired with REARMED (R234, R425); the cluster units' part goes to the
context area at the readout and is read back at RESUME, the slots at CSAVE and CLOAD, MEMORY where the area cannot be written or read
(R423, R430, R432). HALT keeps what was in flight and ends HALTED (R435). These are the model's readings: the graph contexts that graphs
come back in (log 89), the layout of the save areas, whose bytes are free, as is what is read back where a program has written there (log
15), B[63:56] of FLOG, the readout and the other readings of these operations (log 39), and what HALT ends of waits (log 118). -/
def Obligations.SystemOperations : Prop :=
  (∀ s u w d a b i op, sStarts s.m u w [a, b] [d] = true → payOf s.m .whole a < 16 →
    (i = .resume ⟨true⟩ d a b ∧ op = SysOp.resume (payOf s.m .whole a) (some (payOf s.m .whole b)) ∧ payOf s.m .whole b < 16
      ∨ i = .gtbl d a b ∧ op = .gtbl (payOf s.m .whole a) (payOf s.m .whole b % 2 ^ 56)
      ∨ i = .flog ⟨false⟩ d a b ∧ op = .flogCfg (payOf s.m .whole a) (payOf s.m .whole b)) →
    exec i s = .next (after s [a, b] [d] (fun m => flush (addReq m (mkReq m (dstOf m d false) (.sys op) 5 false false)))))
  ∧ (∀ s u w d a b i op, sStarts s.m u w [a] [d] = true → payOf s.m .whole a < 16 →
    (i = .preempt d a ∧ op = SysOp.preempt (payOf s.m .whole a) ∨ i = .csave d a ∧ op = .csave (payOf s.m .whole a)
      ∨ i = .cload d a ∧ op = .cload (payOf s.m .whole a) ∨ i = .halt d a ∧ op = .halt (payOf s.m .whole a)
      ∨ i = .resume ⟨false⟩ d a b ∧ op = .resume (payOf s.m .whole a) none) →
    exec i s = .next (after s [a] [d] (fun m => flush (addReq m (mkReq m (dstOf m d false) (.sys op) 5 false false)))))
  ∧ (∀ s u w d a i, sStarts s.m u w [a] [d] = true → 16 ≤ payOf s.m .whole a →
    i ∈ [Instr.preempt d a, .csave d a, .cload d a, .halt d a] → exec i s = .next (after s [a] [d] (fun m => putS m u d (2 ^ 63 + 1))))
  ∧ (∀ s u w d a b r, sStarts s.m u w [a, b] [d] = true → payOf s.m .whole a < 16 →
    let m := readDone s.m [a, b] [d]
    let p := payOf s.m .whole a
    (pastOf m p).log = some r →
    let t := (r.tail + min (payOf s.m .whole b % 2 ^ 24) (ringCount r)) % 2 ^ 24
    let m1 := setPast m p { pastOf m p with log := some { r with tail := t } }
    exec (.flog ⟨true⟩ d a b) s = .next { s with m := putS (drainLog m1 p) u d (r.head + t * 2 ^ 24) })
  ∧ (∀ m r p, ((pastOf m p).st ≠ .live → serveSys m r (.preempt p) = sysAnswer m r.id (2 ^ 63 + 2))
    ∧ ((pastOf m p).st ≠ .shadowed → serveSys m r (.resume p none) = sysAnswer m r.id (2 ^ 63 + 2)
        ∧ serveSys m r (.csave p) = sysAnswer m r.id (2 ^ 63 + 2))
    ∧ ((pastOf m p).st = .live → slotsFree m p none = true → serveSys m r (.preempt p) =
        if areaWrites m (unitBase m p) unitArea then sysGo (gatePast m p r.id) r.id else sysAnswer m r.id (2 ^ 63 + 7))
    ∧ ((pastOf m p).st = .live → slotsFree m p none = false → serveSys m r (.preempt p) = sysAnswer m r.id (2 ^ 63 + 3))
    ∧ ((pastOf m p).st = .shadowed → coresFree m p none = true → serveSys m r (.resume p none) =
        if areaReads m (unitBase m p) unitArea then sysAnswer (restore m p) r.id 0 else sysAnswer m r.id (2 ^ 63 + 7))
    ∧ ((pastOf m p).st = .shadowed → coresFree m p none = false → serveSys m r (.resume p none) = sysAnswer m r.id (2 ^ 63 + 2))
    ∧ (∀ q, (pastOf m p).st = .shadowed → coresFree m p (some q) = true → (pastOf m q).st = .live → serveSys m r (.resume p (some q)) =
        if slotsFree m q (some p) = false then sysAnswer m r.id (2 ^ 63 + 3)
        else if areaReads m (unitBase m p) unitArea && areaWrites m (unitBase m q) unitArea then sysGo (gatePast m q r.id) r.id
        else sysAnswer m r.id (2 ^ 63 + 7))
    ∧ ((pastOf m p).st = .shadowed → serveSys m r (.csave p) =
        if areaWrites m (pastOf m p).ctxbase (ctxBytes m p) then sysGo m r.id else sysAnswer m r.id (2 ^ 63 + 7))
    ∧ (areaWrites m (pastOf m p).ctxbase (ctxBytes m p) = true → endSys m r (.csave p) = sysAnswer (saveCtx m p) r.id 0)
    ∧ ((pastOf m p).st ≠ .saved → serveSys m r (.cload p) = sysAnswer m r.id (2 ^ 63 + 2))
    ∧ ((pastOf m p).st = .saved → slotsFree m p none = false → serveSys m r (.cload p) = sysAnswer m r.id (2 ^ 63 + 3))
    ∧ ((pastOf m p).st = .saved → slotsFree m p none = true → serveSys m r (.cload p) =
        if areaReads m (pastOf m p).ctxbase (ctxBytes m p) then sysAnswer (loadCtx m p) r.id 0 else sysAnswer m r.id (2 ^ 63 + 7))
    ∧ ((pastOf m p).st ≠ .free → (pastOf m p).st ≠ .halted → serveSys m r (.halt p) = haltStart (sysGo m r.id) p r.id)
    ∧ endSys m r (.halt p) = sysAnswer (haltEnd m p) r.id 0
    ∧ ((pastOf m p).st = .free ∨ (pastOf m p).st = .halted → serveSys m r (.halt p) = sysAnswer m r.id (2 ^ 63 + 2))
    ∧ ((pastOf m p).st = .free ∨ (pastOf m p).st = .ready → ∀ va ms, gtblMembers m r.who p va = .ok ms → serveSys m r (.gtbl p va) =
        sysAnswer (setGroups { m with free := m.free + 8 + 4 * 24576 } p ms) r.id 0)
    ∧ (∀ v, (pastOf m p).st ≠ .halted → v / 16 % 4 = 0 → v % 16 ≤ 10 → ringOk m p (bits v 6 50 * 64) (v % 16) = true →
        serveSys m r (.flogCfg p v) =
          sysAnswer (drainLog (setPast m p { pastOf m p with log := some ⟨bits v 6 50 * 64, v % 16, 0, 0, false, false⟩ }) p) r.id 0))
  ∧ (∀ (s : State) p id, (pastOf s.m p).gate = some id → halting s.m p = false →
    (s.m.fab.transit.any (fun t => t.src < 200000 && boundFor s.m p t) = true → exec (.channelStoreReadout p) s = .next s)
    ∧ (s.m.fab.transit.any (fun t => t.src < 200000 && boundFor s.m p t) = false →
      s.m.seq.installs.any (fun e => coreIn s.m p (e.1 / 2)) = false → ∀ r, reqOf (takeImage s.m p) id = some r →
      (r.op = .sys (.preempt p) → exec (.channelStoreReadout p) s = .next { s with m := finish (takeImage s.m p) id 0 })
      ∧ (∀ a, r.op = .sys (.resume a (some p)) → ctxRoom s.m a (some p) = true → exec (.channelStoreReadout p) s =
          .next { s with m := finish (restore (takeImage s.m p) a) id 0 })))
  ∧ (∀ m p, ∃ i, (pastOf (takeImage m p) p).image = some i ∧ (pastOf (takeImage m p) p).st = .shadowed ∧ i.pe = m.pe.only (coreIn m p)
      ∧ (∀ u, tfind u i.units = if ctxOf m p u then tfind u m.seq.units else none)
      ∧ (∀ u, ctxOf m p u = true → unitOf (takeImage m p) u = SUnit.reset)
      ∧ (∀ k, tfind k i.mons = if k / 16384 = p then tfind k m.sync.mons else none)
      ∧ (∀ k, k / 16384 = p → tfind k (takeImage m p).sync.mons = none) ∧ (takeImage m p).mem.spad = m.mem.spad
      ∧ (∀ a, (a < unitBase m p ∨ unitBase m p + unitArea ≤ a) → memGet (takeImage m p).mem.hbm a = memGet m.mem.hbm a)
      ∧ (∀ c e, tfind c m.seq.avg = some e → tfind c (takeImage m p).seq.avg = some (e.filter (fun x => !coreIn m p x.src))))
  ∧ (∀ m p, (pastOf (saveCtx m p) p).st = .saved ∧ (pastOf (saveCtx m p) p).image = (pastOf m p).image ∧ (saveCtx m p).pe = m.pe
    ∧ (∀ a, (a < (pastOf m p).ctxbase ∨ (pastOf m p).ctxbase + ctxBytes m p ≤ a) → memGet (saveCtx m p).mem.hbm a = memGet m.mem.hbm a))
  ∧ (∀ m p, (pastOf (loadCtx m p) p).st = .shadowed ∧ (loadCtx m p).mem = m.mem
    ∧ (areaIntact m p = true → (pastOf (loadCtx m p) p).image = (pastOf m p).image)
    ∧ (areaIntact m p = false → ∀ i, (pastOf m p).image = some i →
      (pastOf (loadCtx m p) p).image = some (Image.within (coreIn m p) p ((freeImage m.free).getD i))))
  ∧ (∀ m p, let t := haltEnd m p
    (pastOf t p).st = .halted ∧ (pastOf t p).haltedF = true ∧ (pastOf t p).root = 0 ∧ (pastOf t p).gate = none
      ∧ t.host.msix = m.host.msix ++ [1024 + p] ∧ t.mem.hbm = m.mem.hbm ∧ t.mem.spad = m.mem.spad)
  ∧ (∀ m p id, (pastOf m p).st = .live → (∀ r ∈ (haltStart m p id).mem.reqs, r.past = p → isShepActor r.who = false → r.id ≠ id → outlives r = false →
    r.dst = .drop ∧ r.pend = false))
  ∧ (∀ m p i, let t := restoreCtxs m p i
    (∀ u x, i.units = [(u, x)] → (unitOf m u).run = .idle → unitOf t u = x)
    ∧ (∀ k x, i.mons = [(k, x)] → i.units = [] → tfind k t.sync.mons = some { x with fired := true, rearmed := true }))

/-- TLBI drops every translation of its scope that it names and no other, and completes once no access that uses a named translation is in
flight (R198, R433). PART writes a core's range word after the accesses that leave it, bytes that pass to another pasture reading as
zero (R188, R436); which answer PART gives where several apply is the model's reading (log 39). ATTEST signs the report over the nonce and
writes it, or answers MEMORY where that write fails (R430, R437). -/
def Obligations.InvalidateAndPartition : Prop :=
  (∀ f s u w d a b, sStarts s.m u w [a, b] [d] = true →
    let va := payOf s.m .whole a % 2 ^ 56
    let asid := payOf s.m .whole b % 2 ^ 12
    let named := fun e : TlbE => match f.kind with
      | .pg => min e.asid 0xFFF = asid ∧ e.base ≤ va ∧ va < e.base + e.size
      | .asid => min e.asid 0xFFF = asid
      | .all => e.asid ≠ 0xFFF
    ∃ t, exec (.tlbi f d a b) s = .next t ∧ t.m.mem.hbm = s.m.mem.hbm ∧ t.m.mem.spad = s.m.mem.spad ∧ t.m.pe = s.m.pe ∧ t.m.sys = s.m.sys
      ∧ (∀ k, tlbIn (unitCluster u 0) f.scope.code k = false → tget [] k t.m.mem.tlb = tget [] k s.m.mem.tlb)
      ∧ (∀ k, tlbIn (unitCluster u 0) f.scope.code k = true →
        ∀ e, e ∈ tget [] k t.m.mem.tlb ↔ e ∈ tget [] k s.m.mem.tlb ∧ ¬ named e))
  ∧ (∀ (s : State) id r ws, reqOf s.m id = some r → r.op = .tlbi ws → r.done = false →
    let waits := fun q : Req => decide (q.id ∈ ws) && !q.done && (running s.m q.past || isShepActor q.who || mayPerform s.m q)
    (s.m.mem.reqs.any waits = true → exec (.tlbiCompletion id) s = .next s)
    ∧ (s.m.mem.reqs.any waits = false →
      let m1 := { s.m with mem.reqs := s.m.mem.reqs.map (fun q => if q.id ∈ ws ∧ q.done = false then { q with xlat := none } else q) }
      exec (.tlbiCompletion id) s = .next { s with m := finish m1 id 0 }))
  ∧ (∀ s u w d a b, sStarts s.m u w [a, b] [d] = true →
    let m := readDone s.m [a, b] [d]
    let core := payOf s.m .whole a % 2 ^ 10
    let v := payOf s.m .whole b
    let r := mkReq m (dstOf m d false) (.part core (bits v 48 4) v) 5 false false
    (core < 768 → partWordOk v = true → (bitAt v 63 = true → coreIn m (bits v 52 4) core = true) →
      exec (.part d a b) s = .next { s with m := servePart (addReq m r) r })
    ∧ ((768 ≤ core ∨ partWordOk v = false) → exec (.part d a b) s = .next { s with m := putS m u d (2 ^ 63 + 1) })
    ∧ (core < 768 → partWordOk v = true → bitAt v 63 = true → coreIn m (bits v 52 4) core = false →
      exec (.part d a b) s = .next { s with m := putS m u d (2 ^ 63 + 6) }))
  ∧ (∀ m r core e v, r.op = .part core e v → r.res = none → partBusy m core e v = false →
    (partOverlap m core e v = true → servePart m r = finish m r.id (2 ^ 63 + 4))
    ∧ (partOverlap m core e v = false → servePart m r = finish (writePart m core e v) r.id 0))
  ∧ (∀ m core e v, partBusy m core e v = true ↔ ∃ x ∈ leaving m core e v, ∃ r ∈ m.mem.reqs, ∃ y ∈ allExts m r, y.1 < (x.2 : Int) ∧ (x.1 : Int) ≤ y.2)
  ∧ (∀ m core e v, (bitAt v 63 = false → tfind (core * 8 + e) (writePart m core e v).sys.ranges = none)
    ∧ (bitAt v 63 = true → tfind (core * 8 + e) (writePart m core e v).sys.ranges = some ⟨bits v 52 4, bits v 16 12, bits v 0 11⟩)
    ∧ (∀ k, k ≠ core * 8 + e → tfind k (writePart m core e v).sys.ranges = tfind k m.sys.ranges)
    ∧ (∀ i < bits v 16 12, ∀ q, bitAt v 63 = true → tfind (core * 2048 + (bits v 0 11 + i)) m.sys.owners = some q → q ≠ bits v 52 4 →
      ∀ j < 256, memGet (writePart m core e v).mem.spad ((core * 2048 + (bits v 0 11 + i)) * 256 + j) = 0))
  ∧ (∀ s u w d a b nonce ls, sStarts s.m u w [a, b] [d] = true →
    let m := readDone s.m [a, b] [d]
    let who : Actor := .unit u w
    readBytes m who (payOf s.m .whole b % 2 ^ 56) 32 = .ok nonce →
    virtLocs m who (pastOfActor m who) (payOf s.m .whole a % 2 ^ 56) 256 .wr = .ok ls →
    let bad := (faultR m (mkReq m .drop .tile 5 false false) true ls).isSome || (lineFault m ls).isSome
    let held := heldByResv m (ctxCode (pastOfActor m who) who) ls || rowsHeld m ls || locsMoving m ls
    let body := reportBody m (u - 128) nonce
    let m1 := writeLocs { m with free := m.free + 32 } ls (body ++ bytesOf (Config.deviceSign body).toNat 64)
    (bad = true → exec (.attest d a b) s = .next { s with m := putS m u d (2 ^ 63 + 7) })
    ∧ (bad = false → held = true → exec (.attest d a b) s = .next { s with m := stall m })
    ∧ (bad = false → held = false → exec (.attest d a b) s = .next { s with m := putS m1 u d 0 }))
  ∧ (∀ m k nonce, nonce.length = 32 → let body := reportBody m k nonce
    body.length = 192 ∧ (body.drop 32).take 32 = nonce ∧ natOf ((body.drop 64).take 64) = m.host.digest.toNat
      ∧ natOf ((body.drop 128).take 32) = Config.deviceKey.toNat ∧ natOf ((body.drop 160).take 32) = Config.romDigest.toNat)


/-! ## The host link, start-up and power -/

/-- A launch write starts the root graph of a READY pasture on the lowest free graph context of its home cluster (R28, R442); a write with
reserved bits sets LAUNCH_BAD, one for another state, and so one while the module is held (log 66), LAUNCH_BUSY. HOSTEV and PREQ raise causes 0x10 and 0x0F at the home cluster
(R413, R442), EVENT_ACK clears an event slot whose COUNT has not moved (R443), and a write of the window goes to its register (R441).
A pasture that completes is READY with DONE, CAUSE and its message once its accesses are performed, and not before (R415, R442; log 85). -/
def Obligations.HostWrites : Prop :=
  (∀ (s : State) p (v : BitVec 64) c g, p < 16 → bits v.toNat 56 8 = 0 → bits v.toNat 0 6 = 0 → (pastOf s.m p).st = .ready →
    (coresOf s.m p).head? = some c → (pastOf s.m p).log.isSome = true → freeGraphCtx s.m (clusterOf c) = some g →
    let u := 8 * clusterOf c + g
    ∃ t, exec (.launchWrite p v) s = .next t ∧ (unitOf t.m u).run = .running ∧ (unitOf t.m u).w = 0
      ∧ (unitOf t.m u).base = v.toNat ∧ (unitOf t.m u).past = p ∧ sReg t.m u 0 = 0 ∧ sReg t.m u 1 = v.toNat
      ∧ (pastOf t.m p).st = .live ∧ (pastOf t.m p).home = clusterOf c ∧ t.m.mem = s.m.mem
      ∧ (∀ q, q ≠ p → pastOf t.m q = pastOf s.m q) ∧ (∀ x, x ≠ u → unitOf t.m x = unitOf s.m x))
  ∧ (∀ (s : State) p (v : BitVec 64), p < 16 → (bits v.toNat 56 8 ≠ 0 ∨ bits v.toNat 0 6 ≠ 0) → ∃ t, exec (.launchWrite p v) s = .next t
      ∧ pastOf t.m p = { pastOf s.m p with badF := true } ∧ t.m.host.msix = s.m.host.msix ++ [1024 + p] ∧ t.m.mem = s.m.mem ∧ t.m.seq = s.m.seq)
  ∧ (∀ (s : State) p (v : BitVec 64), p < 16 → bits v.toNat 56 8 = 0 → bits v.toNat 0 6 = 0 → (pastOf s.m p).st ≠ .ready →
    ∃ t, exec (.launchWrite p v) s = .next t ∧ pastOf t.m p = { pastOf s.m p with busyF := true }
      ∧ t.m.host.msix = s.m.host.msix ++ [1024 + p] ∧ t.m.mem = s.m.mem ∧ t.m.seq = s.m.seq)
  ∧ (∀ (s : State) p (v : BitVec 64), p < 16 → exec (.hostev p v) s = .next { s with m := raiseHome s.m p 0x10 v.toNat })
  ∧ (∀ (s : State) p (v : BitVec 64), p < 16 → v.toNat < 512 → exec (.preq p v) s = .next { s with m := raiseHome s.m p 0x0F v.toNat })
  ∧ (∀ m p code v, let k := (pastOf m p).home
    (shepOf m k).queue.length < 64 → m.seq.heldTraps = [] → v < 2 ^ 64 →
    (shepOf (raiseHome m p code v) k).queue = (shepOf m k).queue ++ [⟨code, BitVec.ofNat 64 v, p⟩]
      ∧ (raiseHome m p code v).mem = m.mem ∧ (raiseHome m p code v).pe = m.pe)
  ∧ (∀ m p cause,
    (accessLeft m p m.ids = false → pastOf (pastureEnds m p cause) p =
        { pastOf m p with st := .ready, doneF := true, pcause := cause, ending := none }
      ∧ (pastureEnds m p cause).host.msix = m.host.msix ++ [1024 + p] ∧ (pastureEnds m p cause).mem.hbm = m.mem.hbm
      ∧ (pastureEnds m p cause).mem.spad = m.mem.spad)
    ∧ (accessLeft m p m.ids = true → pastOf (pastureEnds m p cause) p = { pastOf m p with ending := some (m.ids, cause) }
      ∧ (pastureEnds m p cause).host = m.host ∧ (pastureEnds m p cause).mem = m.mem))
  ∧ (∀ s p vec (v : BitVec 64), p < 16 → vec < 64 → bitAt v.toNat 63 = true →
    let x := tget EvSlot.reset (p * 64 + vec) s.m.host.slots
    (x.count = bits v.toNat 0 32 → ∃ t, exec (.eventAck p vec v) s = .next t
      ∧ tget EvSlot.reset (p * 64 + vec) t.m.host.slots = { x with pend := false, count := 0 } ∧ t.m.host.msix = s.m.host.msix
      ∧ (∀ k, k ≠ p * 64 + vec → tget EvSlot.reset k t.m.host.slots = tget EvSlot.reset k s.m.host.slots))
    ∧ (x.count ≠ bits v.toNat 0 32 → exec (.eventAck p vec v) s = .next { s with m := msix s.m (p * 64 + vec) }))
  ∧ (∀ s (v : BitVec 64), exec (.registerWrite 0x08 v) s = .next (startWrite v.toNat s)
    ∧ exec (.registerWrite 0x18 v) s = exec (.powerctl v) s
    ∧ (∀ p < 16, exec (.registerWrite (0x10000 + 0x1000 * p) v) s = exec (.launchWrite p v) s
      ∧ exec (.registerWrite (0x10000 + 0x1000 * p + 8) v) s = .next { s with m := pstatusWrite p v.toNat s.m }
      ∧ exec (.registerWrite (0x10000 + 0x1000 * p + 0x10) v) s = exec (.hostev p v) s
      ∧ exec (.registerWrite (0x10000 + 0x1000 * p + 0x18) v) s = exec (.preq p v) s
      ∧ (∀ e < 64, exec (.registerWrite (0x10000 + 0x1000 * p + 0x408 + 16 * e) v) s = exec (.eventAck p e v) s
        ∧ exec (.registerWrite (0x10000 + 0x1000 * p + 0x400 + 16 * e) v) s = .next s))
    ∧ (∀ i < 65536, exec (.registerWrite (0x80000 + 8 * i) v) s = exec (.fwstageWrite (8 * i) v) s)
    ∧ exec (.registerWrite 0 v) s = .next s ∧ exec (.registerWrite 0x10 v) s = .next s ∧ exec (.registerWrite 0x20 v) s = .next s)
  ∧ (∀ (s : State) off, exec (.hostAtomicop off) s = .next s)

/-- A start frees every pasture, darkens the lanes and keeps HBM and the scratchpads (R444, R447); its steps end one after another, with
PHASE naming the one that runs: it loads a signed image with zeros behind it, lights the default lanes, scrubs, sends entry 1,040 and runs
the shepherd cores from the image's entry (R385, R444-R446, R448), or leaves the module held with the failing step. FWSTAGE, POWERCTL, the
power-on state and the coolant's limit are R446 and R450, and power stays at or below 2,500 W (R12). The data area at the next 64 KB page
(log 21), what a start keeps (log 68), entry 1,040 for a completed start (log 70) and default lanes toward every port (log 73) are the
model's readings. -/
def Obligations.StartAndPower : Prop :=
  (∀ s (v : BitVec 64), (bitAt v.toNat 0 = true → exec (.coldStart v) s = .next (startWrite v.toNat s))
    ∧ (bitAt v.toNat 0 = false → exec (.coldStart v) s = .next s ∧ exec (.warmStart v) s = .next (startWrite v.toNat s))
    ∧ (bitAt v.toNat 0 = true ∨ bitAt v.toNat 1 = true → let t := startWrite v.toNat s
      (∀ p < 16, (pastOf t.m p).st = .free) ∧ t.m.mem.hbm = s.m.mem.hbm ∧ t.m.mem.spad = s.m.mem.spad ∧ t.m.fab.tx = [] ∧ t.m.fab.rx = []
        ∧ t.m.mem.reqs = [] ∧ t.m.seq.units = [] ∧ t.m.seq.cycle = 0 ∧ t.m.host.busy = true ∧ t.m.host.phase = 1 ∧ t.m.host.warmed = !bitAt v.toNat 0
        ∧ t.m.host.slots = s.m.host.slots ∧ t.m.host.fwstage = s.m.host.fwstage ∧ t.pow = { s.pow with paid := [] }))
  ∧ (∀ s, bits (registerRead 0x10 s) 0 4 = (if s.m.host.busy then 8 else 0) + s.m.host.phase % 8 ∨ 8 ≤ s.m.host.phase)
  ∧ (∀ (s : State) rep, rep.result < 6 → rep.base + 2 ^ 26 + 2 ^ 32 ≤ 2 ^ 39 →
    exec (.startCompletion rep) s = .next { s with m := startSteps rep (min 6 rep.steps) s.m })
  ∧ (∀ rep n m, startSteps rep 0 m = m ∧ startSteps rep (n + 1) m = startSteps rep n (startStep rep m))
  ∧ (∀ rep m, m.host.busy = false → startStep rep m = m)
  ∧ (∀ rep m, m.host.busy = true → let next := fun m : Mach => { m with host.phase := m.host.phase + 1 }
    (m.host.phase = 1 → startStep rep m = if rep.result = 1 then failStart m 1 else next m)
    ∧ (m.host.phase = 2 → startStep rep m = if skipsStep2 m rep then next m
        else if rep.result = 2 || !imageSigned m rep then failStart m 2 else next (loadFirmware m rep))
    ∧ (m.host.phase = 3 → startStep rep m = if rep.result = 3 then failStart m 3 else next m)
    ∧ (m.host.phase = 4 → startStep rep m = if rep.result = 4 then failStart m 4 else next (lightLanes m rep.ports))
    ∧ (m.host.phase = 5 → startStep rep m = if rep.result = 5 then failStart m 5
        else next (if !m.host.startWarm || m.host.startScrub then scrub m else m))
    ∧ (m.host.phase = 6 → startStep rep m = finishStart m))
  ∧ (∀ m c, let t := failStart m c
    t.host.busy = false ∧ t.host.phase = 0 ∧ t.host.result = c ∧ t.fab.tx = [] ∧ t.fab.rx = [] ∧ t.mem = m.mem ∧ t.host.msix = m.host.msix)
  ∧ (∀ (s : State) rep, s.m.host.busy = true → s.m.host.phase = 1 → rep.result = 0 → rep.steps = 6 → s.m.host.startWarm = false →
    rep.base + 2 ^ 26 + 2 ^ 32 ≤ 2 ^ 39 →
    ∃ t, exec (.startCompletion rep) s = .next t ∧ t.m.host.busy = false
      ∧ (imageSigned s.m rep = false → t.m.host.phase = 0 ∧ t.m.host.result = 2)
      ∧ (imageSigned s.m rep = true → t.m.host.phase = 7 ∧ t.m.host.result = 0 ∧ t.m.host.fwBase = rep.base / 65536 * 65536
        ∧ t.m.host.fwEntry = imageNat s.m rep 0x0C 2 ∧ t.m.host.fwTvec = imageNat s.m rep 0x0E 2))
  ∧ (∀ m rep, let t := loadFirmware m rep
    let n := imageSize m rep
    let base := rep.base / 65536 * 65536
    (∀ i < n, memGet t.mem.hbm (base + i) = imageByte m rep (256 + i))
      ∧ (∀ i, n ≤ i → i < (n + 65535) / 65536 * 65536 + imageNat m rep 0x10 4 → memGet t.mem.hbm (base + i) = 0)
      ∧ (∀ a, a < base ∨ base + ((n + 65535) / 65536 * 65536 + imageNat m rep 0x10 4) ≤ a → memGet t.mem.hbm a = memGet m.mem.hbm a))
  ∧ (∀ m a, memGet (scrub m).mem.hbm a = if inFirmware m a then memGet m.mem.hbm a else 0)
  ∧ (∀ m, let t := finishStart m
    t.host.phase = 7 ∧ t.host.busy = false ∧ t.host.result = 0 ∧ t.host.count = (m.host.count + 1) % 65536
      ∧ t.host.msix.getLast? = some 1040 ∧ t.fab.slots = [] ∧ t.fab.tx = m.fab.tx ∧ t.fab.rx = m.fab.rx
      ∧ (∀ k < 16, (unitOf t (128 + k)).run = .running ∧ (unitOf t (128 + k)).w = m.host.fwEntry
        ∧ (unitOf t (128 + k)).base = 0x7F0000000000 ∧ (∀ r, sReg t (128 + k) r = 0)
        ∧ shepOf t k = { Shep.reset with tvec := BitVec.ofNat 64 m.host.fwTvec }))
  ∧ (∀ m ports, let t := lightLanes m ports
    t.mem = m.mem ∧ t.host.ports = min 15 ports
      ∧ (∀ d < 512, ∀ k < 8, d ≠ m.host.peer → d / 64 = m.host.peer / 64 →
        txLit t d k = decide (k ∈ lanePlanes m.host.peer d) ∧ rxLit t d k = decide (k ∈ lanePlanes d m.host.peer)))
  ∧ (∀ (s : State) off (v : BitVec 64), s.m.host.busy = false → off < 524288 → off % 8 = 0 → ∃ t, exec (.fwstageWrite off v) s = .next t
      ∧ memRead t.m.host.fwstage off 8 = v.toNat ∧ (∀ a, a < off ∨ off + 8 ≤ a → memGet t.m.host.fwstage a = memGet s.m.host.fwstage a)
      ∧ t.m.mem = s.m.mem)
  ∧ (∀ (s : State) off v, s.m.host.busy = true → exec (.fwstageWrite off v) s = .next s)
  ∧ (∀ s (v : BitVec 64), ∃ t, exec (.powerctl v) s = .next t ∧ t.m = s.m ∧ 500 ≤ t.pow.cap ∧ t.pow.cap ≤ 2500
      ∧ (500 ≤ v.toNat % 4096 → v.toNat % 4096 ≤ 2500 → t.pow.cap = v.toNat % 4096) ∧ registerRead 0x18 t = t.pow.cap)
  ∧ (∀ (s : State) w p, ∃ t, exec (.thermalLimit w p) s = .next t ∧ t.m = s.m ∧ t.pow.cap = s.pow.cap ∧ effCap t.pow = min s.pow.cap w
      ∧ t.pow.power = min 2500 p)
  ∧ (∀ s peer rev rate, ∃ t, exec (.powerOn peer rev rate) s = .next t ∧ t.m.mem = State.reset.m.mem ∧ t.m.seq = State.reset.m.seq
      ∧ t.m.sys = State.reset.m.sys ∧ t.pow = State.reset.pow ∧ t.m.host.peer = peer % 512
      ∧ bits (registerRead 0 t) 0 16 = 0x5634 ∧ bits (registerRead 0 t) 24 9 = peer % 512 ∧ t.m.host.phase = 0)

end
end

