-- ==== Sys2Proof/Laws/Start.lean ====
section
/-! SUPPORT. One lemma per shared start: what it does when the instruction starts. -/
namespace Sys2Proof.Machine

theorem sStart_ready (m : Mach) (u w : Nat) (os : List Opd) (more : List Nat) (eff : Mach → Mach) (hc : m.cur = .unit u w)
    (h : sReady m u os more = true) : sStart m u w os more eff = eff (readDone m os []) := by
  unfold sReady at h
  simp only [Bool.and_eq_true, Bool.not_eq_true'] at h
  unfold sStart readDone
  rw [h.1, hc]
  simp only [List.append_nil, Bool.false_eq_true, if_false]
  by_cases hi : os.any isInC = true
  · simp only [hi, if_true]
    have h2 := h.2
    simp only [hi, Bool.not_true, Bool.false_or] at h2
    split at h2
    · split at h2
      · simp_all
      · cases h2
    · cases h2
  · simp [hi]

theorem fireK_starts (m : Mach) (rd : List (LaneK × Opd)) (d : DstK) (onP : Val → Mach → Mach) (eff : List Val → Mach → Mach)
    (h : starts m rd d = true) :
    fireK rd d onP eff m = eff (rd.map (fun x => srcVal m x.1 x.2)) (readDone m (rd.map (·.2)) (dstOpds d)) := by
  unfold starts at h
  unfold fireK
  split at h
  · cases h
  · rename_i hc
    simp only [hc, readDone]
    rw [Option.isNone_iff_eq_none] at h
    rw [h]
  · rename_i u w hc
    simp only
    rw [sStart_ready m u w _ _ _ hc h]
    simp only [readDone, hc, List.append_nil]

theorem fire_starts (m : Mach) (rd : List (LaneK × Opd)) (d : DstK) (eff : List Val → Mach → Mach)
    (h : starts m rd d = true) :
    fire rd d eff m = eff (rd.map (fun x => srcVal m x.1 x.2)) (readDone m (rd.map (·.2)) (dstOpds d)) := fireK_starts m rd d _ eff h

theorem memStart_starts (m : Mach) (os ds : List Opd) (more : List Nat) (onP : Val → Mach → Mach) (eff : List Val → Mach → Mach)
    (h : memStarts m os ds more = true) :
    memStart os ds more onP eff m = eff (os.map (srcVal m .whole)) (readDone m os ds) := by
  unfold memStarts at h
  unfold memStart
  split at h
  · cases h
  · rename_i hc
    simp only [hc, readDone]
    rw [Option.isNone_iff_eq_none] at h
    rw [h]
  · rename_i u w hc
    simp only
    rw [sStart_ready m u w _ _ _ hc h]
    simp only [readDone, hc, List.append_nil]

theorem sFire_starts (m : Mach) (u w : Nat) (os d : List Opd) (eff : Nat → Nat → List Nat → Mach → Mach)
    (h : sStarts m u w os d = true) :
    sFire os d eff m = eff u w (os.map (fun o => payOf m .whole o)) (readDone m os d) := by
  unfold sStarts at h
  simp only [Bool.and_eq_true, beq_iff_eq] at h
  unfold sFire
  simp only [h.1]
  rw [sStart_ready m u w _ _ _ h.1 h.2]
  simp only [readDone, h.1, List.append_nil, payOf]

theorem intEntry_starts (s : State) (sh : Shape) (rd : Bool) (d a : Opd) (b : Option Opd) (op : Nat → Nat → Nat → Nat × Nat)
    (h : starts s.m (intSrcs sh rd d a b) (.opd d) = true) :
    lift (intEntry sh rd d a b op) s = .next (intRes s sh rd d a b op) := by
  show Host.Outcome.next { s with m := fire (intSrcs sh rd d a b) (.opd d) _ s.m } = _
  rw [fire_starts _ _ _ _ h]
  cases b <;> cases rd <;> rfl

theorem fltEntry_starts (s : State) (F : FFmt) (xs rd : Bool) (c : Bool × Bool × Bool) (d a : Opd) (b : Option Opd)
    (op : Nat → Nat → Nat → Nat × Nat) (h : starts s.m (fltSrcs F rd d a b) (.opd d) = true)
    (hs : scalesOk s.m F xs rd c d a b = true) :
    lift (fltEntry F xs rd c d a b op) s = .next (fltRes s F xs rd d a b op) := by
  obtain ⟨c1, c2, c3⟩ := c
  show Host.Outcome.next { s with m := fire (fltSrcs F rd d a b) (.opd d) _ s.m } = _
  rw [fire_starts _ _ _ _ h]
  have key : scaleBad xs ((valAt ((fltSrcs F rd d a b).map (fun x => srcVal s.m x.1 x.2)) 0, c1) ::
      ((if b.isSome then [((if b.isSome then valAt ((fltSrcs F rd d a b).map (fun x => srcVal s.m x.1 x.2)) 1 else Val.none), c2)] else []) ++
       (if rd then [((if rd then valAt ((fltSrcs F rd d a b).map (fun x => srcVal s.m x.1 x.2)) (if b.isSome then 2 else 1) else Val.none), c3)] else []))) = none := by
    cases b <;> cases rd <;> cases c1 <;> cases c2 <;> cases c3 <;> cases xs <;>
      simp_all [scalesOk, scaleBad, fltSrcs, valAt]
  simp only [scaleCheck]
  rw [key]
  dsimp only
  cases b <;> cases rd <;> rfl

end Sys2Proof.Machine
end

