-- ==== Sys2Proof/Laws/Arith.lean ====
section
/-! SUPPORT. The arithmetic of lanes: two spellings of a signed lane and of narrowing agree, lanes are below 2^w, and an entry
applied lane by lane depends only on its values on lanes. -/
namespace Sys2Proof.Machine

theorem asInt_eq (w x : Nat) (hw : 0 < w) : asInt w x = sgn w x := by
  unfold asInt sgn
  rw [BitVec.toInt_eq_toNat_cond, BitVec.toNat_ofNat]
  have h : 2 * (x % 2 ^ w) < 2 ^ w ↔ x % 2 ^ w < 2 ^ (w - 1) := by
    obtain ⟨n, rfl⟩ : ∃ n, w = n + 1 := ⟨w - 1, by omega⟩
    simp [pow_succ]; omega
  by_cases hc : x % 2 ^ w < 2 ^ (w - 1) <;> simp [hc, h]

theorem ofInt_eq (w : Nat) (x : Int) : (BitVec.ofInt w x).toNat = wrapI w x := by
  simp [wrapI, BitVec.toNat_ofInt]

theorem narrowS_eq (w : Nat) (sat : Bool) (x : Int) : narrowS w sat x = sgnRes w sat x := by
  unfold narrowS narrow sgnRes
  have hp : (0:Int) < 2 ^ (w-1) := by positivity
  simp only [ofInt_eq]
  cases sat
  · simp
  · simp only [true_and, if_true]
    by_cases h1 : x < -(2 ^ (w - 1))
    · have : ¬ (-(2 ^ (w - 1)) ≤ x ∧ x < (2:Int) ^ (w - 1)) := by omega
      rw [if_pos (by omega), if_neg this, if_pos (by omega : x < 0)]
      congr 2; omega
    · by_cases h2 : (2:Int) ^ (w-1) - 1 < x
      · have : ¬ (-(2 ^ (w - 1)) ≤ x ∧ x < (2:Int) ^ (w - 1)) := by omega
        rw [if_pos (by omega), if_neg this, if_neg (by omega : ¬ x < 0)]
        congr 2; omega
      · rw [if_neg (by omega), if_pos (by omega)]

theorem narrowU_eq (w : Nat) (x : Int) : narrowU w x = unsRes w x := by
  unfold narrowU narrow unsRes
  have hp : (0:Int) < 2 ^ w := by positivity
  simp only [ofInt_eq, true_and]
  by_cases h1 : x < 0
  · rw [if_pos (by omega), if_neg (by omega), if_pos (by omega)]
    have : max 0 (min ((2:Int)^w - 1) x) = 0 := by omega
    rw [this]; simp [wrapI]
  · by_cases h2 : (2:Int)^w - 1 < x
    · rw [if_pos (by omega), if_neg (by omega), if_neg (by omega)]
      have : max 0 (min ((2:Int)^w - 1) x) = 2^w-1 := by omega
      rw [this]; congr 1
      simp only [wrapI, onesN]; push_cast
      rw [Int.emod_eq_of_lt (by omega) (by omega)]
      have h3 : (1:Nat) ≤ 2^w := Nat.one_le_two_pow
      zify [h3]; rw [Int.toNat_of_nonneg (by omega)]
    · rw [if_neg (by omega), if_pos (by omega)]
      simp only [wrapI]; push_cast
      rw [Int.emod_eq_of_lt (by omega) (by omega)]

theorem lane_lt (w x i : Nat) : lane w x i < 2 ^ w := by unfold lane bits; exact Nat.mod_lt _ (by positivity)

theorem onLanes_congr (w n : Nat) (f g : Nat → Nat → Nat → Nat × Nat)
    (h : ∀ x y z, x < 2^w → y < 2^w → z < 2^w → f x y z = g x y z) (a b d : Nat) : onLanes w n f a b d = onLanes w n g a b d := by
  unfold onLanes
  have : (upto n).map (fun i => f (lane w a i) (lane w b i) (lane w d i)) = (upto n).map (fun i => g (lane w a i) (lane w b i) (lane w d i)) := by
    apply List.map_congr_left; intro i _; exact h _ _ _ (lane_lt ..) (lane_lt ..) (lane_lt ..)
  rw [this]

theorem intLanes_congr (m : Mach) (sh : Shape) (f g : Nat → Nat → Nat → Nat × Nat)
    (h : ∀ x y z, x < 2^sh.width → y < 2^sh.width → z < 2^sh.width → f x y z = g x y z) (a b d : Nat) :
    intLanes m sh f a b d = intLanes m sh g a b d := by
  unfold intLanes
  have hp : 0 < 2 ^ sh.width := by positivity
  split
  · simp only [h _ _ _ (Nat.mod_lt _ hp) (Nat.mod_lt _ hp) (Nat.mod_lt _ hp)]
  · exact onLanes_congr _ _ _ _ h _ _ _

theorem intRes_congr (s : State) (sh : Shape) (rd : Bool) (d a : Opd) (b : Option Opd) (f g : Nat → Nat → Nat → Nat × Nat)
    (h : ∀ x y z, x < 2^sh.width → y < 2^sh.width → z < 2^sh.width → f x y z = g x y z) :
    intRes s sh rd d a b f = intRes s sh rd d a b g := by
  unfold intRes; simp only [intLanes_congr _ sh f g h]

theorem shape_pos (sh : Shape) : 0 < sh.width := by cases sh <;> decide

theorem sgn_bounds (w x : Nat) (hw : 0 < w) : -(2:Int)^(w-1) ≤ sgn w x ∧ sgn w x < 2^(w-1) := by
  unfold sgn
  have hm : x % 2^w < 2^w := Nat.mod_lt _ (by positivity)
  have h2 : 2 ^ w = 2 * 2 ^ (w-1) := by
    obtain ⟨n, rfl⟩ : ∃ n, w = n + 1 := ⟨w - 1, by omega⟩
    simp [pow_succ]; omega
  simp only
  split
  · rename_i h
    constructor
    · have : (0:Int) ≤ 2^(w-1) := by positivity
      omega
    · exact_mod_cast h
  · rename_i h
    have h3 : (2:Nat)^(w-1) ≤ x % 2^w := by omega
    zify at h3 hm h2
    push_cast
    constructor <;> omega

theorem wrap_sgn (w x : Nat) (hx : x < 2^w) : wrapI w (sgn w x) = x := by
  unfold sgn wrapI
  rw [Nat.mod_eq_of_lt hx]
  simp only
  split
  · rw [Int.emod_eq_of_lt (by omega) (by exact_mod_cast hx)]; simp
  · rw [Int.sub_emod_right, Int.emod_eq_of_lt (by omega) (by exact_mod_cast hx)]; simp

theorem sgnRes_in (w : Nat) (x : Int) : sgnRes w false x = (wrapI w x, 0) := by unfold sgnRes; split <;> simp_all

end Sys2Proof.Machine
end

