-- ==== Sys2Proof/Laws/Table.lean ====
section
/-! SUPPORT. Reading a table after a write, and the canonical forms that writes keep. -/
namespace Sys2Proof

@[simp] theorem tfind_tset_same {V : Type} (k : Nat) (v : V) (t : Tbl V) : tfind k (tset k v t) = some v := by
  induction t with
  | nil => simp [tset, tfind]
  | cons e t ih =>
    obtain ⟨a, x⟩ := e
    simp only [tset]
    split
    · simp [tfind]
    · split
      · simp [tfind]
      · rename_i h; simp [tfind, h, ih]
theorem tfind_tset_other {V : Type} (j k : Nat) (v : V) (t : Tbl V) (h : j ≠ k) : tfind j (tset k v t) = tfind j t := by
  induction t with
  | nil => simp [tset, tfind, Ne.symm h]
  | cons e t ih =>
    obtain ⟨a, x⟩ := e
    simp only [tset]
    split
    · simp [tfind, Ne.symm h]
    · split
      · rename_i h2; subst h2; simp [tfind, Ne.symm h]
      · simp only [tfind, ih]
@[simp] theorem tfind_tdel_same {V : Type} (k : Nat) (t : Tbl V) : tfind k (tdel k t) = none := by
  induction t with
  | nil => rfl
  | cons e t ih =>
    obtain ⟨a, x⟩ := e
    simp only [tdel]
    split
    · exact ih
    · rename_i h; simp [tfind, h, ih]
theorem tfind_tdel_other {V : Type} (j k : Nat) (t : Tbl V) (h : j ≠ k) : tfind j (tdel k t) = tfind j t := by
  induction t with
  | nil => rfl
  | cons e t ih =>
    obtain ⟨a, x⟩ := e
    simp only [tdel]
    split
    · rename_i h2; subst h2; simp [tfind, Ne.symm h, ih]
    · simp only [tfind, ih]
@[simp] theorem tget_tput_same {V : Type} [DecidableEq V] (d : V) (k : Nat) (v : V) (t : Tbl V) : tget d k (tput d k v t) = v := by
  unfold tput tget
  split
  · rename_i h; simp [h]
  · simp
theorem tget_tput_other {V : Type} [DecidableEq V] (d : V) (j k : Nat) (v : V) (t : Tbl V) (h : j ≠ k) :
    tget d j (tput d k v t) = tget d j t := by
  unfold tput tget
  split
  · rw [tfind_tdel_other _ _ _ h]
  · rw [tfind_tset_other _ _ _ _ h]
theorem tget_tput {V : Type} [DecidableEq V] (d : V) (j k : Nat) (v : V) (t : Tbl V) :
    tget d j (tput d k v t) = if j = k then v else tget d j t := by
  by_cases h : j = k
  · subst h; simp
  · simp [h, tget_tput_other]

/-! ## Canonical form -/

/-- Every key of a table is above a bound. -/
def above {V : Type} (n : Nat) (t : Tbl V) : Prop := ∀ e ∈ t, n < e.1

theorem twf_cons {V : Type} (a : Nat) (x : V) (t : Tbl V) : twf ((a, x) :: t) = true ↔ above a t ∧ twf t = true := by
  induction t generalizing a x with
  | nil => simp [twf, above]
  | cons e t ih =>
    obtain ⟨b, y⟩ := e
    simp only [twf, Bool.and_eq_true, decide_eq_true_eq]
    constructor
    · rintro ⟨h1, h2⟩
      refine ⟨?_, h2⟩
      intro e he
      rcases List.mem_cons.mp he with rfl | he
      · exact h1
      · exact Nat.lt_trans h1 (((ih b y).mp h2).1 e he)
    · rintro ⟨h1, h2⟩
      exact ⟨h1 (b, y) List.mem_cons_self, h2⟩
theorem above_tset {V : Type} (n k : Nat) (v : V) (t : Tbl V) (h : above n t) (hk : n < k) : above n (tset k v t) := by
  induction t with
  | nil => simpa [tset, above] using hk
  | cons e t ih =>
    obtain ⟨a, x⟩ := e
    have ha : n < a := h (a, x) List.mem_cons_self
    have ht : above n t := fun e he => h e (List.mem_cons_of_mem _ he)
    simp only [tset]
    split
    · intro e he; rcases List.mem_cons.mp he with rfl | he
      · exact hk
      · exact h e he
    · split
      · intro e he; rcases List.mem_cons.mp he with rfl | he
        · exact hk
        · exact ht e he
      · intro e he; rcases List.mem_cons.mp he with rfl | he
        · exact ha
        · exact ih ht e he
theorem twf_tset {V : Type} (k : Nat) (v : V) (t : Tbl V) (h : twf t = true) : twf (tset k v t) = true := by
  induction t with
  | nil => rfl
  | cons e t ih =>
    obtain ⟨a, x⟩ := e
    have h' := (twf_cons a x t).mp h
    simp only [tset]
    split
    · rename_i hk
      refine (twf_cons _ _ _).mpr ⟨?_, h⟩
      intro e he; rcases List.mem_cons.mp he with rfl | he
      · exact hk
      · exact Nat.lt_trans hk (h'.1 e he)
    · split
      · rename_i hk; subst hk; exact (twf_cons _ _ _).mpr h'
      · rename_i h1 h2
        exact (twf_cons _ _ _).mpr ⟨above_tset _ _ _ _ h'.1 (by omega), ih h'.2⟩
theorem mem_tset {V : Type} (k : Nat) (v : V) (t : Tbl V) (e : Nat × V) (h : e ∈ tset k v t) : e = (k, v) ∨ e ∈ t := by
  induction t with
  | nil => simpa [tset] using h
  | cons f t ih =>
    obtain ⟨a, x⟩ := f
    simp only [tset] at h
    split at h
    · rcases List.mem_cons.mp h with h | h
      · exact .inl h
      · exact .inr h
    · split at h
      · rcases List.mem_cons.mp h with h | h
        · exact .inl h
        · exact .inr (List.mem_cons_of_mem _ h)
      · rcases List.mem_cons.mp h with h | h
        · exact .inr (h ▸ List.mem_cons_self)
        · rcases ih h with h | h
          · exact .inl h
          · exact .inr (List.mem_cons_of_mem _ h)
theorem mem_tdel {V : Type} (k : Nat) (t : Tbl V) (e : Nat × V) (h : e ∈ tdel k t) : e ∈ t := by
  induction t with
  | nil => simp [tdel] at h
  | cons f t ih =>
    obtain ⟨a, x⟩ := f
    simp only [tdel] at h
    split at h
    · exact List.mem_cons_of_mem _ (ih h)
    · rcases List.mem_cons.mp h with h | h
      · exact h ▸ List.mem_cons_self
      · exact List.mem_cons_of_mem _ (ih h)
theorem twf_tdel {V : Type} (k : Nat) (t : Tbl V) (h : twf t = true) : twf (tdel k t) = true := by
  induction t with
  | nil => rfl
  | cons e t ih =>
    obtain ⟨a, x⟩ := e
    have h' := (twf_cons a x t).mp h
    simp only [tdel]
    split
    · exact ih h'.2
    · exact (twf_cons _ _ _).mpr ⟨fun e he => h'.1 e (mem_tdel _ _ _ he), ih h'.2⟩

namespace Machine

/-- Memory keeps its canonical form under a write of one byte. -/
theorem memPut_wf (t : List Host.Cell) (a : Nat) (v : Byte) (h : Memory.wf t = true) : Memory.wf (memPut t a v) = true := by
  unfold Memory.wf at *
  simp only [Bool.and_eq_true, List.all_eq_true, bne_iff_ne] at *
  unfold memPut tput
  split
  · exact ⟨twf_tdel _ _ h.1, fun e he => h.2 e (mem_tdel _ _ _ he)⟩
  · rename_i hv
    refine ⟨twf_tset _ _ _ h.1, fun e he => ?_⟩
    rcases mem_tset _ _ _ _ he with rfl | he
    · exact hv
    · exact h.2 e he
theorem memWrite_wf (t : List Host.Cell) (a n v : Nat) (h : Memory.wf t = true) : Memory.wf (memWrite t a n v) = true := by
  induction n generalizing t a v with
  | zero => exact h
  | succ n ih => exact ih _ _ _ (memPut_wf _ _ _ h)
theorem memBytes_wf (t : List Host.Cell) (a : Nat) (bs : List Byte) (h : Memory.wf t = true) : Memory.wf (memBytes t a bs) = true := by
  induction bs generalizing t a with
  | nil => exact h
  | cons b bs ih => exact ih _ _ (memPut_wf _ _ _ h)
@[simp] theorem memGet_memPut_same (t : List Host.Cell) (a : Nat) (v : Byte) : memGet (memPut t a v) a = v := tget_tput_same ..
theorem memGet_memPut_other (t : List Host.Cell) (a b : Nat) (v : Byte) (h : b ≠ a) : memGet (memPut t a v) b = memGet t b :=
  tget_tput_other _ _ _ _ _ h

/-! ## Places -/

@[simp] theorem setBytes_hbm_wf (m : Mach) (ls : List Loc) (bs : List Byte) (h : Memory.wf m.mem.hbm = true) :
    Memory.wf (setBytes m ls bs).mem.hbm = true := by
  induction ls generalizing m bs with
  | nil => exact h
  | cons l ls ih =>
    cases bs with
    | nil => exact h
    | cons b bs =>
      refine ih _ _ ?_
      cases l <;> first | exact memPut_wf _ _ _ h | exact h
@[simp] theorem setBytes_spad_wf (m : Mach) (ls : List Loc) (bs : List Byte) (h : Memory.wf m.mem.spad = true) :
    Memory.wf (setBytes m ls bs).mem.spad = true := by
  induction ls generalizing m bs with
  | nil => exact h
  | cons l ls ih =>
    cases bs with
    | nil => exact h
    | cons b bs =>
      refine ih _ _ ?_
      cases l <;> first | exact memPut_wf _ _ _ h | exact h

end Machine
end Sys2Proof
end

