-- ==== Sys2Proof/Laws/State.lean ====
section
/-! SUPPORT. What each update of the machine leaves as it was, field by field, and what it reads back. -/
namespace Sys2Proof.Machine

@[simp] theorem setPast_pe (m : Mach) (p : Nat) (x : Pasture) : (setPast m p x).pe = m.pe := rfl
@[simp] theorem setPast_seq (m : Mach) (p : Nat) (x : Pasture) : (setPast m p x).seq = m.seq := rfl
@[simp] theorem setPast_mem (m : Mach) (p : Nat) (x : Pasture) : (setPast m p x).mem = m.mem := rfl
@[simp] theorem setPast_sync (m : Mach) (p : Nat) (x : Pasture) : (setPast m p x).sync = m.sync := rfl
@[simp] theorem setPast_copy (m : Mach) (p : Nat) (x : Pasture) : (setPast m p x).copy = m.copy := rfl
@[simp] theorem setPast_mat (m : Mach) (p : Nat) (x : Pasture) : (setPast m p x).mat = m.mat := rfl
@[simp] theorem setPast_sel (m : Mach) (p : Nat) (x : Pasture) : (setPast m p x).sel = m.sel := rfl
@[simp] theorem setPast_rule (m : Mach) (p : Nat) (x : Pasture) : (setPast m p x).rule = m.rule := rfl
@[simp] theorem setPast_stage (m : Mach) (p : Nat) (x : Pasture) : (setPast m p x).stage = m.stage := rfl
@[simp] theorem setPast_fab (m : Mach) (p : Nat) (x : Pasture) : (setPast m p x).fab = m.fab := rfl
@[simp] theorem setPast_host (m : Mach) (p : Nat) (x : Pasture) : (setPast m p x).host = m.host := rfl
@[simp] theorem setPast_cur (m : Mach) (p : Nat) (x : Pasture) : (setPast m p x).cur = m.cur := rfl
@[simp] theorem setPast_ctl (m : Mach) (p : Nat) (x : Pasture) : (setPast m p x).ctl = m.ctl := rfl
@[simp] theorem setPast_hold (m : Mach) (p : Nat) (x : Pasture) : (setPast m p x).hold = m.hold := rfl
@[simp] theorem setPast_ids (m : Mach) (p : Nat) (x : Pasture) : (setPast m p x).ids = m.ids := rfl
@[simp] theorem setPast_free (m : Mach) (p : Nat) (x : Pasture) : (setPast m p x).free = m.free := rfl
@[simp] theorem setUnit_pe (m : Mach) (u : Nat) (x : SUnit) : (setUnit m u x).pe = m.pe := rfl
@[simp] theorem setUnit_mem (m : Mach) (u : Nat) (x : SUnit) : (setUnit m u x).mem = m.mem := rfl
@[simp] theorem setUnit_sync (m : Mach) (u : Nat) (x : SUnit) : (setUnit m u x).sync = m.sync := rfl
@[simp] theorem setUnit_copy (m : Mach) (u : Nat) (x : SUnit) : (setUnit m u x).copy = m.copy := rfl
@[simp] theorem setUnit_mat (m : Mach) (u : Nat) (x : SUnit) : (setUnit m u x).mat = m.mat := rfl
@[simp] theorem setUnit_sel (m : Mach) (u : Nat) (x : SUnit) : (setUnit m u x).sel = m.sel := rfl
@[simp] theorem setUnit_rule (m : Mach) (u : Nat) (x : SUnit) : (setUnit m u x).rule = m.rule := rfl
@[simp] theorem setUnit_stage (m : Mach) (u : Nat) (x : SUnit) : (setUnit m u x).stage = m.stage := rfl
@[simp] theorem setUnit_fab (m : Mach) (u : Nat) (x : SUnit) : (setUnit m u x).fab = m.fab := rfl
@[simp] theorem setUnit_sys (m : Mach) (u : Nat) (x : SUnit) : (setUnit m u x).sys = m.sys := rfl
@[simp] theorem setUnit_host (m : Mach) (u : Nat) (x : SUnit) : (setUnit m u x).host = m.host := rfl
@[simp] theorem setUnit_cur (m : Mach) (u : Nat) (x : SUnit) : (setUnit m u x).cur = m.cur := rfl
@[simp] theorem setUnit_ctl (m : Mach) (u : Nat) (x : SUnit) : (setUnit m u x).ctl = m.ctl := rfl
@[simp] theorem setUnit_hold (m : Mach) (u : Nat) (x : SUnit) : (setUnit m u x).hold = m.hold := rfl
@[simp] theorem setUnit_ids (m : Mach) (u : Nat) (x : SUnit) : (setUnit m u x).ids = m.ids := rfl
@[simp] theorem setUnit_free (m : Mach) (u : Nat) (x : SUnit) : (setUnit m u x).free = m.free := rfl
@[simp] theorem setPeReg_seq (m : Mach) (core pe ctx code : Nat) (v : Val) : (setPeReg m core pe ctx code v).seq = m.seq := rfl
@[simp] theorem setPeReg_mem (m : Mach) (core pe ctx code : Nat) (v : Val) : (setPeReg m core pe ctx code v).mem = m.mem := rfl
@[simp] theorem setPeReg_sync (m : Mach) (core pe ctx code : Nat) (v : Val) : (setPeReg m core pe ctx code v).sync = m.sync := rfl
@[simp] theorem setPeReg_copy (m : Mach) (core pe ctx code : Nat) (v : Val) : (setPeReg m core pe ctx code v).copy = m.copy := rfl
@[simp] theorem setPeReg_mat (m : Mach) (core pe ctx code : Nat) (v : Val) : (setPeReg m core pe ctx code v).mat = m.mat := rfl
@[simp] theorem setPeReg_sel (m : Mach) (core pe ctx code : Nat) (v : Val) : (setPeReg m core pe ctx code v).sel = m.sel := rfl
@[simp] theorem setPeReg_rule (m : Mach) (core pe ctx code : Nat) (v : Val) : (setPeReg m core pe ctx code v).rule = m.rule := rfl
@[simp] theorem setPeReg_stage (m : Mach) (core pe ctx code : Nat) (v : Val) : (setPeReg m core pe ctx code v).stage = m.stage := rfl
@[simp] theorem setPeReg_fab (m : Mach) (core pe ctx code : Nat) (v : Val) : (setPeReg m core pe ctx code v).fab = m.fab := rfl
@[simp] theorem setPeReg_sys (m : Mach) (core pe ctx code : Nat) (v : Val) : (setPeReg m core pe ctx code v).sys = m.sys := rfl
@[simp] theorem setPeReg_host (m : Mach) (core pe ctx code : Nat) (v : Val) : (setPeReg m core pe ctx code v).host = m.host := rfl
@[simp] theorem setPeReg_cur (m : Mach) (core pe ctx code : Nat) (v : Val) : (setPeReg m core pe ctx code v).cur = m.cur := rfl
@[simp] theorem setPeReg_ctl (m : Mach) (core pe ctx code : Nat) (v : Val) : (setPeReg m core pe ctx code v).ctl = m.ctl := rfl
@[simp] theorem setPeReg_hold (m : Mach) (core pe ctx code : Nat) (v : Val) : (setPeReg m core pe ctx code v).hold = m.hold := rfl
@[simp] theorem setPeReg_ids (m : Mach) (core pe ctx code : Nat) (v : Val) : (setPeReg m core pe ctx code v).ids = m.ids := rfl
@[simp] theorem setPeReg_free (m : Mach) (core pe ctx code : Nat) (v : Val) : (setPeReg m core pe ctx code v).free = m.free := rfl
@[simp] theorem setPePred_seq (m : Mach) (core pe ctx v : Nat) : (setPePred m core pe ctx v).seq = m.seq := rfl
@[simp] theorem setPePred_mem (m : Mach) (core pe ctx v : Nat) : (setPePred m core pe ctx v).mem = m.mem := rfl
@[simp] theorem setPePred_sync (m : Mach) (core pe ctx v : Nat) : (setPePred m core pe ctx v).sync = m.sync := rfl
@[simp] theorem setPePred_copy (m : Mach) (core pe ctx v : Nat) : (setPePred m core pe ctx v).copy = m.copy := rfl
@[simp] theorem setPePred_mat (m : Mach) (core pe ctx v : Nat) : (setPePred m core pe ctx v).mat = m.mat := rfl
@[simp] theorem setPePred_sel (m : Mach) (core pe ctx v : Nat) : (setPePred m core pe ctx v).sel = m.sel := rfl
@[simp] theorem setPePred_rule (m : Mach) (core pe ctx v : Nat) : (setPePred m core pe ctx v).rule = m.rule := rfl
@[simp] theorem setPePred_stage (m : Mach) (core pe ctx v : Nat) : (setPePred m core pe ctx v).stage = m.stage := rfl
@[simp] theorem setPePred_fab (m : Mach) (core pe ctx v : Nat) : (setPePred m core pe ctx v).fab = m.fab := rfl
@[simp] theorem setPePred_sys (m : Mach) (core pe ctx v : Nat) : (setPePred m core pe ctx v).sys = m.sys := rfl
@[simp] theorem setPePred_host (m : Mach) (core pe ctx v : Nat) : (setPePred m core pe ctx v).host = m.host := rfl
@[simp] theorem setPePred_cur (m : Mach) (core pe ctx v : Nat) : (setPePred m core pe ctx v).cur = m.cur := rfl
@[simp] theorem setPePred_ctl (m : Mach) (core pe ctx v : Nat) : (setPePred m core pe ctx v).ctl = m.ctl := rfl
@[simp] theorem setPePred_hold (m : Mach) (core pe ctx v : Nat) : (setPePred m core pe ctx v).hold = m.hold := rfl
@[simp] theorem setPePred_ids (m : Mach) (core pe ctx v : Nat) : (setPePred m core pe ctx v).ids = m.ids := rfl
@[simp] theorem setPePred_free (m : Mach) (core pe ctx v : Nat) : (setPePred m core pe ctx v).free = m.free := rfl
@[simp] theorem stickyPe_seq (m : Mach) (core ctx f : Nat) : (stickyPe m core ctx f).seq = m.seq := rfl
@[simp] theorem stickyPe_mem (m : Mach) (core ctx f : Nat) : (stickyPe m core ctx f).mem = m.mem := rfl
@[simp] theorem stickyPe_sync (m : Mach) (core ctx f : Nat) : (stickyPe m core ctx f).sync = m.sync := rfl
@[simp] theorem stickyPe_copy (m : Mach) (core ctx f : Nat) : (stickyPe m core ctx f).copy = m.copy := rfl
@[simp] theorem stickyPe_mat (m : Mach) (core ctx f : Nat) : (stickyPe m core ctx f).mat = m.mat := rfl
@[simp] theorem stickyPe_sel (m : Mach) (core ctx f : Nat) : (stickyPe m core ctx f).sel = m.sel := rfl
@[simp] theorem stickyPe_rule (m : Mach) (core ctx f : Nat) : (stickyPe m core ctx f).rule = m.rule := rfl
@[simp] theorem stickyPe_stage (m : Mach) (core ctx f : Nat) : (stickyPe m core ctx f).stage = m.stage := rfl
@[simp] theorem stickyPe_fab (m : Mach) (core ctx f : Nat) : (stickyPe m core ctx f).fab = m.fab := rfl
@[simp] theorem stickyPe_sys (m : Mach) (core ctx f : Nat) : (stickyPe m core ctx f).sys = m.sys := rfl
@[simp] theorem stickyPe_host (m : Mach) (core ctx f : Nat) : (stickyPe m core ctx f).host = m.host := rfl
@[simp] theorem stickyPe_cur (m : Mach) (core ctx f : Nat) : (stickyPe m core ctx f).cur = m.cur := rfl
@[simp] theorem stickyPe_ctl (m : Mach) (core ctx f : Nat) : (stickyPe m core ctx f).ctl = m.ctl := rfl
@[simp] theorem stickyPe_hold (m : Mach) (core ctx f : Nat) : (stickyPe m core ctx f).hold = m.hold := rfl
@[simp] theorem stickyPe_ids (m : Mach) (core ctx f : Nat) : (stickyPe m core ctx f).ids = m.ids := rfl
@[simp] theorem stickyPe_free (m : Mach) (core ctx f : Nat) : (stickyPe m core ctx f).free = m.free := rfl
@[simp] theorem zeroBank_seq (m : Mach) (core ctx : Nat) : (zeroBank m core ctx).seq = m.seq := rfl
@[simp] theorem zeroBank_mem (m : Mach) (core ctx : Nat) : (zeroBank m core ctx).mem = m.mem := rfl
@[simp] theorem zeroBank_sync (m : Mach) (core ctx : Nat) : (zeroBank m core ctx).sync = m.sync := rfl
@[simp] theorem zeroBank_copy (m : Mach) (core ctx : Nat) : (zeroBank m core ctx).copy = m.copy := rfl
@[simp] theorem zeroBank_mat (m : Mach) (core ctx : Nat) : (zeroBank m core ctx).mat = m.mat := rfl
@[simp] theorem zeroBank_sel (m : Mach) (core ctx : Nat) : (zeroBank m core ctx).sel = m.sel := rfl
@[simp] theorem zeroBank_rule (m : Mach) (core ctx : Nat) : (zeroBank m core ctx).rule = m.rule := rfl
@[simp] theorem zeroBank_stage (m : Mach) (core ctx : Nat) : (zeroBank m core ctx).stage = m.stage := rfl
@[simp] theorem zeroBank_fab (m : Mach) (core ctx : Nat) : (zeroBank m core ctx).fab = m.fab := rfl
@[simp] theorem zeroBank_sys (m : Mach) (core ctx : Nat) : (zeroBank m core ctx).sys = m.sys := rfl
@[simp] theorem zeroBank_host (m : Mach) (core ctx : Nat) : (zeroBank m core ctx).host = m.host := rfl
@[simp] theorem zeroBank_cur (m : Mach) (core ctx : Nat) : (zeroBank m core ctx).cur = m.cur := rfl
@[simp] theorem zeroBank_ctl (m : Mach) (core ctx : Nat) : (zeroBank m core ctx).ctl = m.ctl := rfl
@[simp] theorem zeroBank_hold (m : Mach) (core ctx : Nat) : (zeroBank m core ctx).hold = m.hold := rfl
@[simp] theorem zeroBank_ids (m : Mach) (core ctx : Nat) : (zeroBank m core ctx).ids = m.ids := rfl
@[simp] theorem zeroBank_free (m : Mach) (core ctx : Nat) : (zeroBank m core ctx).free = m.free := rfl
@[simp] theorem setSReg_pe (m : Mach) (u r v : Nat) : (setSReg m u r v).pe = m.pe := rfl
@[simp] theorem setSReg_mem (m : Mach) (u r v : Nat) : (setSReg m u r v).mem = m.mem := rfl
@[simp] theorem setSReg_sync (m : Mach) (u r v : Nat) : (setSReg m u r v).sync = m.sync := rfl
@[simp] theorem setSReg_copy (m : Mach) (u r v : Nat) : (setSReg m u r v).copy = m.copy := rfl
@[simp] theorem setSReg_mat (m : Mach) (u r v : Nat) : (setSReg m u r v).mat = m.mat := rfl
@[simp] theorem setSReg_sel (m : Mach) (u r v : Nat) : (setSReg m u r v).sel = m.sel := rfl
@[simp] theorem setSReg_rule (m : Mach) (u r v : Nat) : (setSReg m u r v).rule = m.rule := rfl
@[simp] theorem setSReg_stage (m : Mach) (u r v : Nat) : (setSReg m u r v).stage = m.stage := rfl
@[simp] theorem setSReg_fab (m : Mach) (u r v : Nat) : (setSReg m u r v).fab = m.fab := rfl
@[simp] theorem setSReg_sys (m : Mach) (u r v : Nat) : (setSReg m u r v).sys = m.sys := rfl
@[simp] theorem setSReg_host (m : Mach) (u r v : Nat) : (setSReg m u r v).host = m.host := rfl
@[simp] theorem setSReg_cur (m : Mach) (u r v : Nat) : (setSReg m u r v).cur = m.cur := rfl
@[simp] theorem setSReg_ctl (m : Mach) (u r v : Nat) : (setSReg m u r v).ctl = m.ctl := rfl
@[simp] theorem setSReg_hold (m : Mach) (u r v : Nat) : (setSReg m u r v).hold = m.hold := rfl
@[simp] theorem setSReg_ids (m : Mach) (u r v : Nat) : (setSReg m u r v).ids = m.ids := rfl
@[simp] theorem setSReg_free (m : Mach) (u r v : Nat) : (setSReg m u r v).free = m.free := rfl
@[simp] theorem setSPred_pe (m : Mach) (u i : Nat) (v : Bool) : (setSPred m u i v).pe = m.pe := rfl
@[simp] theorem setSPred_mem (m : Mach) (u i : Nat) (v : Bool) : (setSPred m u i v).mem = m.mem := rfl
@[simp] theorem setSPred_sync (m : Mach) (u i : Nat) (v : Bool) : (setSPred m u i v).sync = m.sync := rfl
@[simp] theorem setSPred_copy (m : Mach) (u i : Nat) (v : Bool) : (setSPred m u i v).copy = m.copy := rfl
@[simp] theorem setSPred_mat (m : Mach) (u i : Nat) (v : Bool) : (setSPred m u i v).mat = m.mat := rfl
@[simp] theorem setSPred_sel (m : Mach) (u i : Nat) (v : Bool) : (setSPred m u i v).sel = m.sel := rfl
@[simp] theorem setSPred_rule (m : Mach) (u i : Nat) (v : Bool) : (setSPred m u i v).rule = m.rule := rfl
@[simp] theorem setSPred_stage (m : Mach) (u i : Nat) (v : Bool) : (setSPred m u i v).stage = m.stage := rfl
@[simp] theorem setSPred_fab (m : Mach) (u i : Nat) (v : Bool) : (setSPred m u i v).fab = m.fab := rfl
@[simp] theorem setSPred_sys (m : Mach) (u i : Nat) (v : Bool) : (setSPred m u i v).sys = m.sys := rfl
@[simp] theorem setSPred_host (m : Mach) (u i : Nat) (v : Bool) : (setSPred m u i v).host = m.host := rfl
@[simp] theorem setSPred_cur (m : Mach) (u i : Nat) (v : Bool) : (setSPred m u i v).cur = m.cur := rfl
@[simp] theorem setSPred_ctl (m : Mach) (u i : Nat) (v : Bool) : (setSPred m u i v).ctl = m.ctl := rfl
@[simp] theorem setSPred_hold (m : Mach) (u i : Nat) (v : Bool) : (setSPred m u i v).hold = m.hold := rfl
@[simp] theorem setSPred_ids (m : Mach) (u i : Nat) (v : Bool) : (setSPred m u i v).ids = m.ids := rfl
@[simp] theorem setSPred_free (m : Mach) (u i : Nat) (v : Bool) : (setSPred m u i v).free = m.free := rfl
@[simp] theorem setChan_seq (m : Mach) (k : Nat) (c : Chan) : (setChan m k c).seq = m.seq := rfl
@[simp] theorem setChan_mem (m : Mach) (k : Nat) (c : Chan) : (setChan m k c).mem = m.mem := rfl
@[simp] theorem setChan_sync (m : Mach) (k : Nat) (c : Chan) : (setChan m k c).sync = m.sync := rfl
@[simp] theorem setChan_copy (m : Mach) (k : Nat) (c : Chan) : (setChan m k c).copy = m.copy := rfl
@[simp] theorem setChan_mat (m : Mach) (k : Nat) (c : Chan) : (setChan m k c).mat = m.mat := rfl
@[simp] theorem setChan_sel (m : Mach) (k : Nat) (c : Chan) : (setChan m k c).sel = m.sel := rfl
@[simp] theorem setChan_rule (m : Mach) (k : Nat) (c : Chan) : (setChan m k c).rule = m.rule := rfl
@[simp] theorem setChan_stage (m : Mach) (k : Nat) (c : Chan) : (setChan m k c).stage = m.stage := rfl
@[simp] theorem setChan_fab (m : Mach) (k : Nat) (c : Chan) : (setChan m k c).fab = m.fab := rfl
@[simp] theorem setChan_sys (m : Mach) (k : Nat) (c : Chan) : (setChan m k c).sys = m.sys := rfl
@[simp] theorem setChan_host (m : Mach) (k : Nat) (c : Chan) : (setChan m k c).host = m.host := rfl
@[simp] theorem setChan_cur (m : Mach) (k : Nat) (c : Chan) : (setChan m k c).cur = m.cur := rfl
@[simp] theorem setChan_ctl (m : Mach) (k : Nat) (c : Chan) : (setChan m k c).ctl = m.ctl := rfl
@[simp] theorem setChan_hold (m : Mach) (k : Nat) (c : Chan) : (setChan m k c).hold = m.hold := rfl
@[simp] theorem setChan_ids (m : Mach) (k : Nat) (c : Chan) : (setChan m k c).ids = m.ids := rfl
@[simp] theorem setChan_free (m : Mach) (k : Nat) (c : Chan) : (setChan m k c).free = m.free := rfl
@[simp] theorem dequeue_seq (m : Mach) (k : Nat) : (dequeue m k).seq = m.seq := rfl
@[simp] theorem dequeue_mem (m : Mach) (k : Nat) : (dequeue m k).mem = m.mem := rfl
@[simp] theorem dequeue_sync (m : Mach) (k : Nat) : (dequeue m k).sync = m.sync := rfl
@[simp] theorem dequeue_copy (m : Mach) (k : Nat) : (dequeue m k).copy = m.copy := rfl
@[simp] theorem dequeue_mat (m : Mach) (k : Nat) : (dequeue m k).mat = m.mat := rfl
@[simp] theorem dequeue_sel (m : Mach) (k : Nat) : (dequeue m k).sel = m.sel := rfl
@[simp] theorem dequeue_rule (m : Mach) (k : Nat) : (dequeue m k).rule = m.rule := rfl
@[simp] theorem dequeue_stage (m : Mach) (k : Nat) : (dequeue m k).stage = m.stage := rfl
@[simp] theorem dequeue_fab (m : Mach) (k : Nat) : (dequeue m k).fab = m.fab := rfl
@[simp] theorem dequeue_sys (m : Mach) (k : Nat) : (dequeue m k).sys = m.sys := rfl
@[simp] theorem dequeue_host (m : Mach) (k : Nat) : (dequeue m k).host = m.host := rfl
@[simp] theorem dequeue_cur (m : Mach) (k : Nat) : (dequeue m k).cur = m.cur := rfl
@[simp] theorem dequeue_ctl (m : Mach) (k : Nat) : (dequeue m k).ctl = m.ctl := rfl
@[simp] theorem dequeue_hold (m : Mach) (k : Nat) : (dequeue m k).hold = m.hold := rfl
@[simp] theorem dequeue_ids (m : Mach) (k : Nat) : (dequeue m k).ids = m.ids := rfl
@[simp] theorem dequeue_free (m : Mach) (k : Nat) : (dequeue m k).free = m.free := rfl
@[simp] theorem sendTok_pe (m : Mach) (src dst : Nat) (t : Token) : (sendTok m src dst t).pe = m.pe := rfl
@[simp] theorem sendTok_seq (m : Mach) (src dst : Nat) (t : Token) : (sendTok m src dst t).seq = m.seq := rfl
@[simp] theorem sendTok_mem (m : Mach) (src dst : Nat) (t : Token) : (sendTok m src dst t).mem = m.mem := rfl
@[simp] theorem sendTok_sync (m : Mach) (src dst : Nat) (t : Token) : (sendTok m src dst t).sync = m.sync := rfl
@[simp] theorem sendTok_copy (m : Mach) (src dst : Nat) (t : Token) : (sendTok m src dst t).copy = m.copy := rfl
@[simp] theorem sendTok_mat (m : Mach) (src dst : Nat) (t : Token) : (sendTok m src dst t).mat = m.mat := rfl
@[simp] theorem sendTok_sel (m : Mach) (src dst : Nat) (t : Token) : (sendTok m src dst t).sel = m.sel := rfl
@[simp] theorem sendTok_rule (m : Mach) (src dst : Nat) (t : Token) : (sendTok m src dst t).rule = m.rule := rfl
@[simp] theorem sendTok_stage (m : Mach) (src dst : Nat) (t : Token) : (sendTok m src dst t).stage = m.stage := rfl
@[simp] theorem sendTok_sys (m : Mach) (src dst : Nat) (t : Token) : (sendTok m src dst t).sys = m.sys := rfl
@[simp] theorem sendTok_host (m : Mach) (src dst : Nat) (t : Token) : (sendTok m src dst t).host = m.host := rfl
@[simp] theorem sendTok_cur (m : Mach) (src dst : Nat) (t : Token) : (sendTok m src dst t).cur = m.cur := rfl
@[simp] theorem sendTok_ctl (m : Mach) (src dst : Nat) (t : Token) : (sendTok m src dst t).ctl = m.ctl := rfl
@[simp] theorem sendTok_hold (m : Mach) (src dst : Nat) (t : Token) : (sendTok m src dst t).hold = m.hold := rfl
@[simp] theorem sendTok_ids (m : Mach) (src dst : Nat) (t : Token) : (sendTok m src dst t).ids = m.ids := rfl
@[simp] theorem sendTok_free (m : Mach) (src dst : Nat) (t : Token) : (sendTok m src dst t).free = m.free := rfl
@[simp] theorem setShep_pe (m : Mach) (k : Nat) (x : Shep) : (setShep m k x).pe = m.pe := rfl
@[simp] theorem setShep_mem (m : Mach) (k : Nat) (x : Shep) : (setShep m k x).mem = m.mem := rfl
@[simp] theorem setShep_sync (m : Mach) (k : Nat) (x : Shep) : (setShep m k x).sync = m.sync := rfl
@[simp] theorem setShep_copy (m : Mach) (k : Nat) (x : Shep) : (setShep m k x).copy = m.copy := rfl
@[simp] theorem setShep_mat (m : Mach) (k : Nat) (x : Shep) : (setShep m k x).mat = m.mat := rfl
@[simp] theorem setShep_sel (m : Mach) (k : Nat) (x : Shep) : (setShep m k x).sel = m.sel := rfl
@[simp] theorem setShep_rule (m : Mach) (k : Nat) (x : Shep) : (setShep m k x).rule = m.rule := rfl
@[simp] theorem setShep_stage (m : Mach) (k : Nat) (x : Shep) : (setShep m k x).stage = m.stage := rfl
@[simp] theorem setShep_fab (m : Mach) (k : Nat) (x : Shep) : (setShep m k x).fab = m.fab := rfl
@[simp] theorem setShep_sys (m : Mach) (k : Nat) (x : Shep) : (setShep m k x).sys = m.sys := rfl
@[simp] theorem setShep_host (m : Mach) (k : Nat) (x : Shep) : (setShep m k x).host = m.host := rfl
@[simp] theorem setShep_cur (m : Mach) (k : Nat) (x : Shep) : (setShep m k x).cur = m.cur := rfl
@[simp] theorem setShep_ctl (m : Mach) (k : Nat) (x : Shep) : (setShep m k x).ctl = m.ctl := rfl
@[simp] theorem setShep_hold (m : Mach) (k : Nat) (x : Shep) : (setShep m k x).hold = m.hold := rfl
@[simp] theorem setShep_ids (m : Mach) (k : Nat) (x : Shep) : (setShep m k x).ids = m.ids := rfl
@[simp] theorem setShep_free (m : Mach) (k : Nat) (x : Shep) : (setShep m k x).free = m.free := rfl
@[simp] theorem setGraph_pe (m : Mach) (g : Nat) (x : Graph) : (setGraph m g x).pe = m.pe := rfl
@[simp] theorem setGraph_mem (m : Mach) (g : Nat) (x : Graph) : (setGraph m g x).mem = m.mem := rfl
@[simp] theorem setGraph_sync (m : Mach) (g : Nat) (x : Graph) : (setGraph m g x).sync = m.sync := rfl
@[simp] theorem setGraph_copy (m : Mach) (g : Nat) (x : Graph) : (setGraph m g x).copy = m.copy := rfl
@[simp] theorem setGraph_mat (m : Mach) (g : Nat) (x : Graph) : (setGraph m g x).mat = m.mat := rfl
@[simp] theorem setGraph_sel (m : Mach) (g : Nat) (x : Graph) : (setGraph m g x).sel = m.sel := rfl
@[simp] theorem setGraph_rule (m : Mach) (g : Nat) (x : Graph) : (setGraph m g x).rule = m.rule := rfl
@[simp] theorem setGraph_stage (m : Mach) (g : Nat) (x : Graph) : (setGraph m g x).stage = m.stage := rfl
@[simp] theorem setGraph_fab (m : Mach) (g : Nat) (x : Graph) : (setGraph m g x).fab = m.fab := rfl
@[simp] theorem setGraph_sys (m : Mach) (g : Nat) (x : Graph) : (setGraph m g x).sys = m.sys := rfl
@[simp] theorem setGraph_host (m : Mach) (g : Nat) (x : Graph) : (setGraph m g x).host = m.host := rfl
@[simp] theorem setGraph_cur (m : Mach) (g : Nat) (x : Graph) : (setGraph m g x).cur = m.cur := rfl
@[simp] theorem setGraph_ctl (m : Mach) (g : Nat) (x : Graph) : (setGraph m g x).ctl = m.ctl := rfl
@[simp] theorem setGraph_hold (m : Mach) (g : Nat) (x : Graph) : (setGraph m g x).hold = m.hold := rfl
@[simp] theorem setGraph_ids (m : Mach) (g : Nat) (x : Graph) : (setGraph m g x).ids = m.ids := rfl
@[simp] theorem setGraph_free (m : Mach) (g : Nat) (x : Graph) : (setGraph m g x).free = m.free := rfl
@[simp] theorem setReq_pe (m : Mach) (r : Req) : (setReq m r).pe = m.pe := rfl
@[simp] theorem setReq_seq (m : Mach) (r : Req) : (setReq m r).seq = m.seq := rfl
@[simp] theorem setReq_sync (m : Mach) (r : Req) : (setReq m r).sync = m.sync := rfl
@[simp] theorem setReq_copy (m : Mach) (r : Req) : (setReq m r).copy = m.copy := rfl
@[simp] theorem setReq_mat (m : Mach) (r : Req) : (setReq m r).mat = m.mat := rfl
@[simp] theorem setReq_sel (m : Mach) (r : Req) : (setReq m r).sel = m.sel := rfl
@[simp] theorem setReq_rule (m : Mach) (r : Req) : (setReq m r).rule = m.rule := rfl
@[simp] theorem setReq_stage (m : Mach) (r : Req) : (setReq m r).stage = m.stage := rfl
@[simp] theorem setReq_fab (m : Mach) (r : Req) : (setReq m r).fab = m.fab := rfl
@[simp] theorem setReq_sys (m : Mach) (r : Req) : (setReq m r).sys = m.sys := rfl
@[simp] theorem setReq_host (m : Mach) (r : Req) : (setReq m r).host = m.host := rfl
@[simp] theorem setReq_cur (m : Mach) (r : Req) : (setReq m r).cur = m.cur := rfl
@[simp] theorem setReq_ctl (m : Mach) (r : Req) : (setReq m r).ctl = m.ctl := rfl
@[simp] theorem setReq_hold (m : Mach) (r : Req) : (setReq m r).hold = m.hold := rfl
@[simp] theorem setReq_ids (m : Mach) (r : Req) : (setReq m r).ids = m.ids := rfl
@[simp] theorem setReq_free (m : Mach) (r : Req) : (setReq m r).free = m.free := rfl
@[simp] theorem delReq_pe (m : Mach) (id : Nat) : (delReq m id).pe = m.pe := rfl
@[simp] theorem delReq_seq (m : Mach) (id : Nat) : (delReq m id).seq = m.seq := rfl
@[simp] theorem delReq_sync (m : Mach) (id : Nat) : (delReq m id).sync = m.sync := rfl
@[simp] theorem delReq_copy (m : Mach) (id : Nat) : (delReq m id).copy = m.copy := rfl
@[simp] theorem delReq_mat (m : Mach) (id : Nat) : (delReq m id).mat = m.mat := rfl
@[simp] theorem delReq_sel (m : Mach) (id : Nat) : (delReq m id).sel = m.sel := rfl
@[simp] theorem delReq_rule (m : Mach) (id : Nat) : (delReq m id).rule = m.rule := rfl
@[simp] theorem delReq_stage (m : Mach) (id : Nat) : (delReq m id).stage = m.stage := rfl
@[simp] theorem delReq_fab (m : Mach) (id : Nat) : (delReq m id).fab = m.fab := rfl
@[simp] theorem delReq_sys (m : Mach) (id : Nat) : (delReq m id).sys = m.sys := rfl
@[simp] theorem delReq_host (m : Mach) (id : Nat) : (delReq m id).host = m.host := rfl
@[simp] theorem delReq_cur (m : Mach) (id : Nat) : (delReq m id).cur = m.cur := rfl
@[simp] theorem delReq_ctl (m : Mach) (id : Nat) : (delReq m id).ctl = m.ctl := rfl
@[simp] theorem delReq_hold (m : Mach) (id : Nat) : (delReq m id).hold = m.hold := rfl
@[simp] theorem delReq_ids (m : Mach) (id : Nat) : (delReq m id).ids = m.ids := rfl
@[simp] theorem delReq_free (m : Mach) (id : Nat) : (delReq m id).free = m.free := rfl
@[simp] theorem msix_pe (m : Mach) (n : Nat) : (msix m n).pe = m.pe := rfl
@[simp] theorem msix_seq (m : Mach) (n : Nat) : (msix m n).seq = m.seq := rfl
@[simp] theorem msix_mem (m : Mach) (n : Nat) : (msix m n).mem = m.mem := rfl
@[simp] theorem msix_sync (m : Mach) (n : Nat) : (msix m n).sync = m.sync := rfl
@[simp] theorem msix_copy (m : Mach) (n : Nat) : (msix m n).copy = m.copy := rfl
@[simp] theorem msix_mat (m : Mach) (n : Nat) : (msix m n).mat = m.mat := rfl
@[simp] theorem msix_sel (m : Mach) (n : Nat) : (msix m n).sel = m.sel := rfl
@[simp] theorem msix_rule (m : Mach) (n : Nat) : (msix m n).rule = m.rule := rfl
@[simp] theorem msix_stage (m : Mach) (n : Nat) : (msix m n).stage = m.stage := rfl
@[simp] theorem msix_fab (m : Mach) (n : Nat) : (msix m n).fab = m.fab := rfl
@[simp] theorem msix_sys (m : Mach) (n : Nat) : (msix m n).sys = m.sys := rfl
@[simp] theorem msix_cur (m : Mach) (n : Nat) : (msix m n).cur = m.cur := rfl
@[simp] theorem msix_ctl (m : Mach) (n : Nat) : (msix m n).ctl = m.ctl := rfl
@[simp] theorem msix_hold (m : Mach) (n : Nat) : (msix m n).hold = m.hold := rfl
@[simp] theorem msix_ids (m : Mach) (n : Nat) : (msix m n).ids = m.ids := rfl
@[simp] theorem msix_free (m : Mach) (n : Nat) : (msix m n).free = m.free := rfl
@[simp] theorem stall_pe (m : Mach) : (stall m).pe = m.pe := rfl
@[simp] theorem stall_seq (m : Mach) : (stall m).seq = m.seq := rfl
@[simp] theorem stall_mem (m : Mach) : (stall m).mem = m.mem := rfl
@[simp] theorem stall_sync (m : Mach) : (stall m).sync = m.sync := rfl
@[simp] theorem stall_copy (m : Mach) : (stall m).copy = m.copy := rfl
@[simp] theorem stall_mat (m : Mach) : (stall m).mat = m.mat := rfl
@[simp] theorem stall_sel (m : Mach) : (stall m).sel = m.sel := rfl
@[simp] theorem stall_rule (m : Mach) : (stall m).rule = m.rule := rfl
@[simp] theorem stall_stage (m : Mach) : (stall m).stage = m.stage := rfl
@[simp] theorem stall_fab (m : Mach) : (stall m).fab = m.fab := rfl
@[simp] theorem stall_sys (m : Mach) : (stall m).sys = m.sys := rfl
@[simp] theorem stall_host (m : Mach) : (stall m).host = m.host := rfl
@[simp] theorem stall_cur (m : Mach) : (stall m).cur = m.cur := rfl
@[simp] theorem stall_hold (m : Mach) : (stall m).hold = m.hold := rfl
@[simp] theorem stall_ids (m : Mach) : (stall m).ids = m.ids := rfl
@[simp] theorem stall_free (m : Mach) : (stall m).free = m.free := rfl
@[simp] theorem setQueue_seq (m : Mach) (core : Nat) (q : List Rec) : (setQueue m core q).seq = m.seq := rfl
@[simp] theorem setQueue_mem (m : Mach) (core : Nat) (q : List Rec) : (setQueue m core q).mem = m.mem := rfl
@[simp] theorem setQueue_sync (m : Mach) (core : Nat) (q : List Rec) : (setQueue m core q).sync = m.sync := rfl
@[simp] theorem setQueue_copy (m : Mach) (core : Nat) (q : List Rec) : (setQueue m core q).copy = m.copy := rfl
@[simp] theorem setQueue_mat (m : Mach) (core : Nat) (q : List Rec) : (setQueue m core q).mat = m.mat := rfl
@[simp] theorem setQueue_sel (m : Mach) (core : Nat) (q : List Rec) : (setQueue m core q).sel = m.sel := rfl
@[simp] theorem setQueue_rule (m : Mach) (core : Nat) (q : List Rec) : (setQueue m core q).rule = m.rule := rfl
@[simp] theorem setQueue_stage (m : Mach) (core : Nat) (q : List Rec) : (setQueue m core q).stage = m.stage := rfl
@[simp] theorem setQueue_fab (m : Mach) (core : Nat) (q : List Rec) : (setQueue m core q).fab = m.fab := rfl
@[simp] theorem setQueue_sys (m : Mach) (core : Nat) (q : List Rec) : (setQueue m core q).sys = m.sys := rfl
@[simp] theorem setQueue_host (m : Mach) (core : Nat) (q : List Rec) : (setQueue m core q).host = m.host := rfl
@[simp] theorem setQueue_cur (m : Mach) (core : Nat) (q : List Rec) : (setQueue m core q).cur = m.cur := rfl
@[simp] theorem setQueue_ctl (m : Mach) (core : Nat) (q : List Rec) : (setQueue m core q).ctl = m.ctl := rfl
@[simp] theorem setQueue_hold (m : Mach) (core : Nat) (q : List Rec) : (setQueue m core q).hold = m.hold := rfl
@[simp] theorem setQueue_ids (m : Mach) (core : Nat) (q : List Rec) : (setQueue m core q).ids = m.ids := rfl
@[simp] theorem setQueue_free (m : Mach) (core : Nat) (q : List Rec) : (setQueue m core q).free = m.free := rfl

/-! ## Reading back -/

theorem pastOf_setPast (m : Mach) (p q : Nat) (x : Pasture) : pastOf (setPast m p x) q = if q = p then x else pastOf m q :=
  tget_tput ..
@[simp] theorem pastOf_setPast_same (m : Mach) (p : Nat) (x : Pasture) : pastOf (setPast m p x) p = x := tget_tput_same ..
theorem unitOf_setUnit (m : Mach) (u v : Nat) (x : SUnit) : unitOf (setUnit m u x) v = if v = u then x else unitOf m v := tget_tput ..
@[simp] theorem unitOf_setUnit_same (m : Mach) (u : Nat) (x : SUnit) : unitOf (setUnit m u x) u = x := tget_tput_same ..
theorem shepOf_setShep (m : Mach) (k j : Nat) (x : Shep) : shepOf (setShep m k x) j = if j = k then x else shepOf m j := tget_tput ..
@[simp] theorem shepOf_setShep_same (m : Mach) (k : Nat) (x : Shep) : shepOf (setShep m k x) k = x := tget_tput_same ..
theorem chanOf_setChan (m : Mach) (k j : Nat) (c : Chan) : chanOf (setChan m k c) j = if j = k then c else chanOf m j := tget_tput ..
@[simp] theorem chanOf_setChan_same (m : Mach) (k : Nat) (c : Chan) : chanOf (setChan m k c) k = c := tget_tput_same ..
@[simp] theorem peReg_setPeReg_same (m : Mach) (core pe ctx code : Nat) (v : Val) :
    peReg (setPeReg m core pe ctx code v) core pe ctx code = v := tget_tput_same ..
/-- A write of one register leaves the others: the key of a register names it within the ranges of R9, R17 and R68. -/
theorem regKey_inj {core pe ctx code core' pe' ctx' code' : Nat} (h1 : pe < 16) (h2 : ctx < 8) (h3 : code < 64) (h1' : pe' < 16)
    (h2' : ctx' < 8) (h3' : code' < 64) (h : regKey core pe ctx code = regKey core' pe' ctx' code') :
    core = core' ∧ pe = pe' ∧ ctx = ctx' ∧ code = code' := by unfold regKey at h; omega
theorem chanKey_inj {core pe ch core' pe' ch' : Nat} (h1 : pe < 16) (h2 : ch < 8) (h1' : pe' < 16) (h2' : ch' < 8)
    (h : chanKey core pe ch = chanKey core' pe' ch') : core = core' ∧ pe = pe' ∧ ch = ch' := by unfold chanKey at h; omega
theorem peReg_setPeReg_other (m : Mach) (core pe ctx code core' pe' ctx' code' : Nat) (v : Val)
    (h : regKey core' pe' ctx' code' ≠ regKey core pe ctx code) :
    peReg (setPeReg m core pe ctx code v) core' pe' ctx' code' = peReg m core' pe' ctx' code' := tget_tput_other _ _ _ _ _ h
theorem sReg_setSReg (m : Mach) (u r v j q : Nat) :
    sReg (setSReg m u r v) j q = if j = u ∧ q = r then v % 2 ^ 64 else sReg m j q := by
  unfold sReg setSReg
  rw [unitOf_setUnit]
  by_cases h : j = u
  · subst h
    simp only [if_true, tget_tput, true_and]
    by_cases h2 : q = r
    · simp [h2]
    · simp [h2]
  · simp [h]

end Sys2Proof.Machine
end

