-- ==== Sys2Proof/Laws/Operands.lean ====
section
/-! SUPPORT. What reading sources and delivering a healthy result can change. -/
namespace Sys2Proof.Machine

/-- Two machines agree but for channels and the free counter. -/
structure ChansOnly (m t : Mach) : Prop where
  pe : t.pe = { m.pe with chans := t.pe.chans }
  seq : t.seq = m.seq
  mem : t.mem = m.mem
  sync : t.sync = m.sync
  copy : t.copy = m.copy
  mat : t.mat = m.mat
  sel : t.sel = m.sel
  rule : t.rule = m.rule
  stage : t.stage = m.stage
  fab : t.fab = m.fab
  sys : t.sys = m.sys
  host : t.host = m.host
  cur : t.cur = m.cur
  ctl : t.ctl = m.ctl

theorem ChansOnly.refl (m : Mach) : ChansOnly m m := ⟨rfl, rfl, rfl, rfl, rfl, rfl, rfl, rfl, rfl, rfl, rfl, rfl, rfl, rfl⟩
theorem ChansOnly.trans {a b c : Mach} (h : ChansOnly a b) (g : ChansOnly b c) : ChansOnly a c where
  pe := by rw [g.pe, h.pe]
  seq := g.seq.trans h.seq
  mem := g.mem.trans h.mem
  sync := g.sync.trans h.sync
  copy := g.copy.trans h.copy
  mat := g.mat.trans h.mat
  sel := g.sel.trans h.sel
  rule := g.rule.trans h.rule
  stage := g.stage.trans h.stage
  fab := g.fab.trans h.fab
  sys := g.sys.trans h.sys
  host := g.host.trans h.host
  cur := g.cur.trans h.cur
  ctl := g.ctl.trans h.ctl

/-- One dequeue of an operand channel. -/
theorem deqOne_rest (m : Mach) (core pe : Nat) (keep : Bool) (ch : Nat) :
    ChansOnly m (let k := chanKey core pe ch
      if (chanOf m k).fifo.isEmpty then { m with free := m.free + 1 } else if keep then m else dequeue m k) := by
  dsimp only
  split
  · exact ⟨rfl, rfl, rfl, rfl, rfl, rfl, rfl, rfl, rfl, rfl, rfl, rfl, rfl, rfl⟩
  · split
    · exact .refl m
    · exact ⟨rfl, rfl, rfl, rfl, rfl, rfl, rfl, rfl, rfl, rfl, rfl, rfl, rfl, rfl⟩

/-- The dequeues of R16 change channels and the free counter, nothing else. -/
theorem deqSrcs_rest (m : Mach) (os : List Opd) : ChansOnly m (deqSrcs m os) := by
  unfold deqSrcs
  split
  · rename_i core pe f k b keep _
    generalize inChans os = l
    have h : ∀ (l : List Nat) (a : Mach), ChansOnly m a → ChansOnly m (l.foldl (fun m ch =>
        let k := chanKey core pe ch
        if (chanOf m k).fifo.isEmpty then { m with free := m.free + 1 } else if keep then m else dequeue m k) a) := by
      intro l
      induction l with
      | nil => exact fun a h => h
      | cons c l ih => exact fun a h => ih _ (h.trans (deqOne_rest a core pe keep c))
    exact h l m (.refl m)
  · exact .refl m

@[simp] theorem deqSrcs_cur (m : Mach) (os : List Opd) : (deqSrcs m os).cur = m.cur := (deqSrcs_rest m os).cur

/-- The dequeues of R16 leave every channel that is not an operand of the firing PE. -/
theorem deqSrcs_chans (m : Mach) (os : List Opd) (k : Nat)
    (h : ∀ core pe f j b c, m.cur = .pe core pe f j b c → ∀ ch ∈ inChans os, k ≠ chanKey core pe ch) :
    chanOf (deqSrcs m os) k = chanOf m k := by
  unfold deqSrcs
  split
  · rename_i core pe f j b keep hc
    have hk := h core pe f j b keep hc
    generalize inChans os = l at hk
    have key : ∀ (l : List Nat) (a : Mach), (∀ ch ∈ l, k ≠ chanKey core pe ch) → chanOf (l.foldl (fun m ch =>
        let k := chanKey core pe ch
        if (chanOf m k).fifo.isEmpty then { m with free := m.free + 1 } else if keep then m else dequeue m k) a) k = chanOf a k := by
      intro l
      induction l with
      | nil => exact fun a _ => rfl
      | cons c l ih =>
        intro a ha
        refine (ih _ (fun ch hc => ha ch (List.mem_cons_of_mem _ hc))).trans ?_
        dsimp only
        split
        · rfl
        · split
          · rfl
          · exact (chanOf_setChan _ _ _ _).trans (if_neg (ha c List.mem_cons_self))
    exact key l m hk
  · rfl

/-- A healthy token that a PE emits changes the tokens on their way and, on an output of a user channel, the evaluation. -/
theorem emitTok_healthy (m : Mach) (who : Actor) (core pe ch : Nat) (t : Token) (h : t.val.poison = false) :
    ∃ tr ev, emitTok m who core pe ch t = { m with fab.transit := tr, rule.evals := ev } := by
  unfold emitTok
  dsimp only
  split
  · exact ⟨_, _, rfl⟩
  · simp only [h, Bool.and_false, Bool.false_eq_true, if_false]
    exact ⟨_, m.rule.evals, rfl⟩

/-- A request list is that of a machine, or has one answered request more. -/
abbrev Joined (m : Mach) (rq : List Req) : Prop := rq = m.mem.reqs ∨ ∃ r, rq = m.mem.reqs ++ [r] ∧ r.done = true

/-- An instruction's healthy token leaves as `emitTok_healthy` says, or joins the requests behind the results that hold the
output. -/
theorem emitOut_healthy (m : Mach) (core pe ch : Nat) (t : Token) (h : t.val.poison = false) :
    ∃ tr ev rq ids, emitOut m core pe ch t = { m with fab.transit := tr, rule.evals := ev, mem.reqs := rq, ids := ids }
      ∧ Joined m rq := by
  unfold emitOut
  split
  · exact ⟨m.fab.transit, m.rule.evals, _, _, rfl, .inr ⟨_, rfl, rfl⟩⟩
  · obtain ⟨tr, ev, e⟩ := emitTok_healthy m m.cur core pe ch t h
    exact ⟨tr, ev, m.mem.reqs, m.ids, e, .inl rfl⟩

/-- A token of a loader tile changes the tokens on their way, its node and the free counter. -/
theorem loaderEmit_rest (m : Mach) (u : Nat) (t : Token) :
    ∃ tr nodes fr, loaderEmit m u t = { m with fab.transit := tr, copy.nodes := nodes, free := fr } := by
  unfold loaderEmit
  split
  · exact ⟨m.fab.transit, m.copy.nodes, m.free, rfl⟩
  · dsimp only
    split
    · exact ⟨_, m.copy.nodes, m.free, rfl⟩
    · have h : ∀ (l : List Token) (src dst : Nat) (a : Mach), ∃ tr, l.foldl (fun m x => sendTok m src dst x) a = { a with fab.transit := tr } := by
        intro l src dst
        induction l with
        | nil => exact fun a => ⟨a.fab.transit, rfl⟩
        | cons x l ih => intro a; obtain ⟨tr, e⟩ := ih (sendTok a src dst x); exact ⟨tr, e⟩
      obtain ⟨tr, e⟩ := h _ _ _ _
      exact ⟨tr, _, _, e⟩

/-- A healthy result in a PE changes the register that D names, or the tokens on their way and behind earlier results. -/
theorem putRes_pe (m : Mach) (d : Opd) (v : Val) (core pe f j b : Nat) (c : Bool) (hv : v.poison = false)
    (hc : m.cur = .pe core pe f j b c) :
    ∃ regs tr ev rq ids, putRes m (.opd d) v
        = { m with pe.regs := regs, fab.transit := tr, rule.evals := ev, mem.reqs := rq, ids := ids }
      ∧ Joined m rq ∧ ((∀ n, d ≠ .outC n) → rq = m.mem.reqs ∧ tr = m.fab.transit ∧ ev = m.rule.evals)
      ∧ ∀ k, (∀ code, regCode d = some code → k ≠ regKey core pe (f * 4 + b) code) → tget Val.none k regs = tget Val.none k m.pe.regs := by
  obtain ⟨⟩ := m
  cases hc
  unfold putRes putTok
  dsimp only
  split
  · rename_i n hn
    cases hn
    obtain ⟨tr, ev, rq, ids, e, hj⟩ := emitOut_healthy _ core pe n.val ⟨v, false, false, b⟩ hv
    exact ⟨_, tr, ev, rq, ids, e, hj, fun h => absurd rfl (h n), fun _ _ => rfl⟩
  · rename_i o _ hno ho
    cases ho
    cases hd : regCode d with
    | none => exact ⟨_, _, _, _, _, if_neg (by simp [hv]), .inl rfl, fun _ => ⟨rfl, rfl, rfl⟩, fun _ _ => rfl⟩
    | some code => exact ⟨_, _, _, _, _, rfl, .inl rfl, fun _ => ⟨rfl, rfl, rfl⟩, fun k hk => tget_tput_other _ _ _ _ _ (hk code rfl)⟩
  · exact ⟨_, _, _, _, _, if_neg (by simp [hv]), .inl rfl, fun _ => ⟨rfl, rfl, rfl⟩, fun _ _ => rfl⟩

/-- A write of p0 leaves the other predicates of its unit. -/
theorem spred_other (p : BitVec 8) (v : Nat) (i : Nat) (h : i ≠ 0) :
    bitAt (BitVec.ofNat 8 (setBits p.toNat 0 1 v)).toNat i = bitAt p.toNat i := by
  have hp := p.isLt
  simp only [bitAt, BitVec.toNat_ofNat, setBits, bits, Nat.shiftRight_eq_div_pow, pow_zero, Nat.div_one, pow_one, Nat.mul_one]
  obtain ⟨j, rfl⟩ : ∃ j, i = j + 1 := ⟨i - 1, by omega⟩
  have e1 : (p.toNat - p.toNat % 2 + v % 2) % 2 ^ 8 = p.toNat - p.toNat % 2 + v % 2 := Nat.mod_eq_of_lt (by omega)
  have e2 : 2 ^ (j + 1) = 2 * 2 ^ j := by rw [pow_succ, mul_comm]
  have e3 : (p.toNat - p.toNat % 2 + v % 2) / 2 = p.toNat / 2 := by omega
  rw [e1, e2, ← Nat.div_div_eq_div_mul, ← Nat.div_div_eq_div_mul, e3]

/-- Reading the sources in an S-form unit changes a storer's tokens and its p0. -/
theorem readDone_unit (m : Mach) (os ds : List Opd) (u w : Nat) (hc : m.cur = .unit u w) :
    ∃ tiles sp, readDone m os ds = { m with copy.tiles := tiles, seq.units := sp }
      ∧ ((os ++ ds).any isInC = false → tiles = m.copy.tiles)
      ∧ (∀ v, tget SUnit.reset v sp = { unitOf m v with p := (tget SUnit.reset v sp).p })
      ∧ (∀ v, v ≠ u → tget SUnit.reset v sp = unitOf m v)
      ∧ (∀ v i, ((os ++ ds).any isInC = false ∨ i ≠ 0) → bitAt (tget SUnit.reset v sp).p.toNat i = bitAt (unitOf m v).p.toNat i) := by
  obtain ⟨⟩ := m
  cases hc
  unfold readDone
  dsimp only
  split
  · rename_i hin
    split
    · split
      · refine ⟨_, _, rfl, fun h => absurd (hin.symm.trans h) (by decide), fun v => ?_, fun v hv => ?_, fun v i hi => ?_⟩
        · rw [tget_tput]; split
          · rename_i h; subst h; rfl
          · rfl
        · exact tget_tput_other _ _ _ _ _ hv
        · rw [tget_tput]; split
          · rename_i h; subst h
            have hi0 : i ≠ 0 := by
              rcases hi with h | h
              · rw [hin] at h; cases h
              · exact h
            exact spred_other _ _ _ hi0
          · rfl
      · exact ⟨_, _, rfl, fun _ => rfl, fun _ => rfl, fun _ _ => rfl, fun _ _ _ => rfl⟩
    · exact ⟨_, _, rfl, fun _ => rfl, fun _ => rfl, fun _ _ => rfl, fun _ _ _ => rfl⟩
  · exact ⟨_, _, rfl, fun _ => rfl, fun _ => rfl, fun _ _ => rfl, fun _ _ _ => rfl⟩

/-- A result in an S-form unit changes the register that D names, or the tokens of a loader tile, on their way or behind earlier results. -/
theorem putRes_unit (m : Mach) (d : Opd) (v : Val) (u w : Nat) (hc : m.cur = .unit u w) :
    ∃ sp tr nodes fr rq ids, putRes m (.opd d) v
        = { m with copy.nodes := nodes, seq.units := sp, fab.transit := tr, free := fr, mem.reqs := rq, ids := ids }
      ∧ Joined m rq
      ∧ ((∀ n, d ≠ .outC n) → rq = m.mem.reqs ∧ tr = m.fab.transit ∧ nodes = m.copy.nodes)
      ∧ (∀ x, tget SUnit.reset x sp = { unitOf m x with s := (tget SUnit.reset x sp).s })
      ∧ (∀ x, x ≠ u → tget SUnit.reset x sp = unitOf m x)
      ∧ (∀ x r, (∀ n, x = u → d = .r n → r ≠ n.val) → tget 0 r (tget SUnit.reset x sp).s = tget 0 r (unitOf m x).s) := by
  obtain ⟨⟩ := m
  cases hc
  unfold putRes putTok
  dsimp only
  split
  · rename_i n hd
    cases hd
    refine ⟨_, _, _, _, _, _, rfl, .inl rfl, fun _ => ⟨rfl, rfl, rfl⟩, fun x => ?_, fun x hx => tget_tput_other _ _ _ _ _ hx, fun x r hk => ?_⟩
    · rw [tget_tput]; split
      · rename_i h; subst h; rfl
      · rfl
    · rw [tget_tput]; split
      · rename_i h; subst h
        rw [tget_tput_other _ _ _ _ _ (hk n rfl rfl)]
      · rfl
  · rename_i n hd
    cases hd
    split
    · exact ⟨_, _, _, _, _, _, rfl, .inr ⟨_, rfl, rfl⟩, fun h => absurd rfl (h n), fun _ => rfl, fun _ _ => rfl, fun _ _ _ => rfl⟩
    · obtain ⟨tr, nodes, fr, el⟩ := loaderEmit_rest _ u _
      exact ⟨_, tr, nodes, fr, _, _, el, .inl rfl, fun h => absurd rfl (h n), fun _ => rfl, fun _ _ => rfl, fun _ _ _ => rfl⟩
  · exact ⟨_, _, _, _, _, _, rfl, .inl rfl, fun _ => ⟨rfl, rfl, rfl⟩, fun _ => rfl, fun _ _ => rfl, fun _ _ _ => rfl⟩

/-- What a value instruction that starts leaves, once its result is healthy (the frame of R160 and R161). -/
theorem wrote_keeps (s : State) (os : List Opd) (d : Opd) (v : Val) (fl : Nat) (hv : v.poison = false) (ha : actorOk s.m.cur = true) :
    KeepsRest s.m (wrote s os (.opd d) v fl).m d (os ++ [d]) := by
  unfold wrote
  cases hc : s.m.cur with
  | idle =>
    have e : sticky (putRes (readDone s.m os (dstOpds (.opd d))) (.opd d) v) fl = s.m := by
      simp [sticky, putRes, putTok, readDone, hc]
    dsimp only
    rw [e]
    exact ⟨rfl, fun _ => rfl, fun _ _ _ _ _ _ _ _ => rfl, fun _ _ _ => rfl, rfl, fun _ _ _ => rfl, ⟨rfl, rfl⟩, rfl, rfl, ⟨rfl, rfl, rfl, rfl⟩,
      fun _ _ _ _ _ _ => rfl, fun _ _ => rfl, .inl rfl, fun _ => ⟨rfl, rfl, rfl⟩, ⟨rfl, rfl, rfl⟩, fun _ => rfl, ⟨rfl, rfl, rfl, rfl, rfl⟩,
      rfl, rfl, fun _ => ⟨rfl, fun _ => rfl⟩⟩
  | pe core pe f j b c =>
    simp only [actorOk, hc, Bool.and_eq_true, decide_eq_true_eq] at ha
    obtain ⟨⟨⟨⟨h1, h2⟩, h3⟩, h4⟩, h5⟩ := ha
    have hr := deqSrcs_rest s.m os
    have hcur : (deqSrcs s.m os).cur = .pe core pe f j b c := by rw [hr.cur, hc]
    have hrd : readDone s.m os (dstOpds (.opd d)) = deqSrcs s.m os := by simp [readDone, hc]
    dsimp only
    rw [hrd]
    -- the result's delivery: a register, tokens, or nothing
    have put : ∃ regs tr ev rq ids, putRes (deqSrcs s.m os) (.opd d) v
        = { deqSrcs s.m os with pe.regs := regs, fab.transit := tr, rule.evals := ev, mem.reqs := rq, ids := ids }
        ∧ Joined s.m rq ∧ ((∀ n, d ≠ .outC n) → rq = s.m.mem.reqs ∧ tr = s.m.fab.transit ∧ ev = s.m.rule.evals)
        ∧ ∀ k, (∀ code, regCode d = some code → k ≠ regKey core pe (f * 4 + b) code) → tget Val.none k regs = tget Val.none k s.m.pe.regs := by
      obtain ⟨regs, tr, ev, rq, ids, e, hj, hq, h⟩ := putRes_pe (deqSrcs s.m os) d v core pe f j b c hv hcur
      rw [Joined, hr.mem] at hj
      rw [hr.mem, hr.fab, hr.rule] at hq
      exact ⟨regs, tr, ev, rq, ids, e, hj, hq, fun k hk => by rw [h k hk, hr.pe]⟩
    obtain ⟨regs, tr, ev, rq, ids, e, hj, hrq, hregs⟩ := put
    rw [e]
    simp only [sticky, hcur]
    have hpe := hr.pe
    have hseq := hr.seq
    have hu : ∀ u, unitOf (deqSrcs s.m os) u = unitOf s.m u := fun u => by simp only [unitOf, hseq]
    refine ⟨?_, fun h => (hrq h).1, ?_, ?_, ?_, ?_, ⟨?_, ?_⟩, ?_, hr.sys, ⟨?_, ?_, ?_, ?_⟩, ?_, ?_, hj, fun h => ?_, ?_, fun _ => ?_,
      ⟨hr.host, hr.stage, hr.sync, hr.mat, hr.sel⟩, ?_, ?_, fun u => ?_⟩
    · simp only [stickyPe, hr.mem]
    · intro core' pe' ctx code q1 q2 q3 hk
      refine hregs _ fun cd hd he => ?_
      have hcd : cd < 64 := by cases d <;> simp only [regCode, Option.some.injEq, reduceCtorEq] at hd <;> omega
      obtain ⟨rfl, rfl, rfl, rfl⟩ := regKey_inj q1 q2 q3 h2 (by omega) hcd he
      exact hk pe' f b j c hc hd rfl rfl
    · intro u r _; simp only [sReg, unitOf, stickyPe]; rw [hseq]
    · simp only [stickyPe]; rw [hpe]
    · intro u i _; simp only [unitOf, stickyPe]; rw [hseq]
    · simp only [stickyPe]; rw [hpe]
    · simp only [stickyPe]; rw [hseq]
    · simp only [stickyPe]; rw [hseq]
    · simp only [stickyPe]; rw [hpe]
    · simp only [stickyPe]; rw [hpe]
    · simp only [stickyPe]; rw [hpe]
    · simp only [stickyPe]; rw [hpe]
    · intro core' pe' ch q1 q2 hk
      refine deqSrcs_chans s.m os _ fun c' p' f' j' b' k' hc' ch' hch' he => ?_
      rw [hc] at hc'
      cases hc'
      have hch8 : ch' < 8 := by
        simp only [inChans, List.mem_dedup, List.mem_filterMap] at hch'
        obtain ⟨o, _, ho⟩ := hch'
        split at ho
        · cases ho; omega
        · cases ho
      obtain ⟨rfl, rfl, rfl⟩ := chanKey_inj q1 q2 h2 hch8 he
      refine hk f j b c hc ?_
      simp only [inChans, List.mem_dedup, List.filterMap_append, List.mem_append] at hch' ⊢
      exact .inl hch'
    · intro k hk
      simp only [stickyPe]
      rw [tget_tput_other _ _ _ _ _ (hk core pe f j b c hc), hpe]
    · obtain ⟨_, rfl, rfl⟩ := hrq h
      simp only [stickyPe, hr.fab, hr.rule, hr.copy, and_self]
    · simp only [stickyPe, hr.fab, hr.rule, hr.copy, and_self]
    · simp only [stickyPe, hr.copy]
    · simp only [stickyPe]; rw [hpe]
    · simp only [stickyPe]; rw [hseq]
    · simp only [stickyPe, unitOf] at hu ⊢
      exact ⟨by rw [hu u], fun _ => hu u⟩
  | unit u w =>
    obtain ⟨tiles, sp, e, ht, hs1, ho1, hsp⟩ := readDone_unit s.m os [d] u w hc
    dsimp only
    rw [show dstOpds (.opd d) = [d] from rfl, e]
    obtain ⟨sp2, tr, nodes, fr, rq, ids, e2, hj, hq2, hs2, ho2, hr2⟩ := putRes_unit { s.m with copy.tiles := tiles, seq.units := sp } d v u w hc
    rw [e2]
    simp only [sticky, hc]
    -- the registers and predicates of the delivered result, then of the sources read
    have hss : ∀ x, (tget SUnit.reset x sp).s = (unitOf s.m x).s := fun x => by rw [hs1 x]
    have hpp : ∀ x, (tget SUnit.reset x sp2).p = (tget SUnit.reset x sp).p := fun x => by rw [hs2 x]; rfl
    refine ⟨rfl, fun h => (hq2 h).1, fun _ _ _ _ _ _ _ _ => rfl, fun x r hk => ?_, rfl, fun x i hi => ?_, ⟨rfl, rfl⟩, rfl, rfl, ⟨rfl, rfl, rfl, rfl⟩,
      fun _ _ _ _ _ _ => rfl, fun _ _ => rfl, hj, fun h => ?_, ⟨rfl, rfl, rfl⟩, ht, ⟨rfl, rfl, rfl, rfl, rfl⟩, rfl, rfl, fun x => ⟨?_, fun hx => ?_⟩⟩
    · have h1 := hr2 x r (fun n hu hd => hk w n (by rw [hc, hu]) hd)
      have h2 := hss x
      simp only [sReg, unitOf, setUnit, tget_tput]
      split
      · rename_i h; subst h; simp only [unitOf] at h1 h2 ⊢; rw [h1, h2]
      · simp only [unitOf] at h1 h2 ⊢; rw [h1, h2]
    · have h1 := hpp x
      have h2 := hsp x i (by simpa using hi)
      simp only [unitOf, setUnit, tget_tput]
      split
      · rename_i h; subst h; simp only [unitOf] at h1 h2 ⊢; rw [h1, h2]
      · simp only [unitOf] at h1 h2 ⊢; rw [h1, h2]
    · obtain ⟨_, rfl, rfl⟩ := hq2 h
      exact ⟨rfl, rfl, rfl⟩
    · have h1 := hs1 x
      have h2 := hs2 x
      simp only [unitOf, setUnit, tget_tput] at h1 h2 ⊢
      split
      · rename_i h; subst h; rw [h2, h1]
      · rw [h2, h1]
    · have hx' : x ≠ u := fun h => hx w (by rw [hc, h])
      have h1 := ho1 x hx'
      have h2 := ho2 x hx'
      simp only [unitOf, setUnit] at h1 h2 ⊢
      rw [tget_tput_other _ _ _ _ _ hx', h2, h1]

end Sys2Proof.Machine
end

