-- ==== Sys2Proof/Laws/PerInstr.lean ====
section
/-! SUPPORT. One lemma per constructor: decoding an encoded op word gives the instruction back (R61, R76), and the lemmas for
operands and modifiers that it rests on. -/
namespace Sys2Proof.Laws.RoundTrip

/-- The decoder gives the instruction back, or refuses it where its modifier or literal is reserved. -/
def Statement (i : Instr) : Prop :=
  ∀ w, encOp i = some w → decodeOp w = if instrOk i then .ok i else .error .modifier

@[simp] theorem opd_code (o : Opd) : needOpd o.code = .ok o := by
  cases o with
  | imm v =>
    have h : ∀ n < 128, Opd.ofCode (0x80 + n) = some (.imm (BitVec.ofNat 7 n)) := by decide
    simp [needOpd, need, Opd.code, h v.toNat v.isLt]
  | _ => first | rfl | (rename_i n; revert n; decide)
@[simp] theorem fin_code (n : Nat) [NeZero n] (v : Fin n) (e : DecErr) : needFin n v.val e = .ok v := by simp [needFin, v.isLt]
@[simp] theorem ch_code (n : Nat) [NeZero n] (v : Fin n) : needCh n (0x30 + v.val) = .ok v := by simp [needCh]
@[simp] theorem ffmt_code (x : FFmt) : FFmt.ofCode x.code = some x := by cases x <;> rfl
@[simp] theorem ity_code (x : ITy) : ITy.ofCode x.code = some x := by cases x <;> rfl
@[simp] theorem red_code (x : RedOp) : RedOp.ofCode x.code = some x := by cases x <;> rfl
@[simp] theorem rscan_code (x : RscanMode) : RscanMode.ofCode x.code = some x := by cases x <;> rfl
@[simp] theorem limm_code (x : LimmForm) : LimmForm.ofCode x.code = some x := by cases x <;> rfl
theorem ffmt_lt (x : FFmt) : x.code < 16 := by cases x <;> decide
theorem ity_lt (x : ITy) : x.code < 16 := by cases x <;> decide
theorem two_nibbles (x y : Nat) (h : y < 16) : (x * 16 + y) / 16 = x ∧ (x * 16 + y) % 16 = y := by omega
@[simp] theorem zero_code : needZ 0x2A = .ok () := rfl
@[simp] theorem m0_code : needM0 0 = .ok () := rfl

@[simp] theorem ShF_code (f : ShF) : ShF.dec f.enc = some f := by
  obtain ⟨shape⟩ := f
  cases shape <;> rfl
@[simp] theorem IntF_code (f : IntF) : IntF.dec f.enc = some f := by
  obtain ⟨shape, sat⟩ := f
  cases shape <;> cases sat <;> rfl
@[simp] theorem BfxF_code (f : BfxF) : BfxF.dec f.enc = some f := by
  obtain ⟨shape, sx⟩ := f
  cases shape <;> cases sx <;> rfl
@[simp] theorem CmpF_code (f : CmpF) : CmpF.dec f.enc = some f := by
  obtain ⟨shape, cond⟩ := f
  cases shape <;> cases cond <;> rfl
@[simp] theorem SelF_code (f : SelF) : SelF.dec f.enc = some f := by
  have h : ∀ n : Fin 8, SelF.dec (SelF.enc ⟨n⟩) = some ⟨n⟩ := by decide
  exact h f.p
@[simp] theorem LeaF_code (f : LeaF) : LeaF.dec f.enc = some f := by
  obtain ⟨shape, sh⟩ := f
  cases shape <;> fin_cases sh <;> rfl
@[simp] theorem FpF_code (f : FpF) : FpF.dec f.enc = some f := by
  obtain ⟨shape, rnd, sat, xs⟩ := f
  cases shape <;> cases rnd <;> cases sat <;> cases xs <;> rfl
@[simp] theorem FmmF_code (f : FmmF) : FmmF.dec f.enc = some f := by
  obtain ⟨shape, xs⟩ := f
  cases shape <;> cases xs <;> rfl
@[simp] theorem FsgnF_code (f : FsgnF) : FsgnF.dec f.enc = some f := by
  obtain ⟨shape, op, xs⟩ := f
  cases shape <;> cases op <;> cases xs <;> rfl
@[simp] theorem FcmpF_code (f : FcmpF) : FcmpF.dec f.enc = some f := by
  obtain ⟨shape, cond, xs⟩ := f
  cases shape <;> cases cond <;> cases xs <;> rfl
@[simp] theorem CvtF_code (f : CvtF) : CvtF.dec f.enc = some f := by
  obtain ⟨part, rnd, sat, xs⟩ := f
  cases rnd <;> cases sat <;> cases xs <;> fin_cases part <;> rfl
@[simp] theorem CviF_code (f : CviF) : CviF.dec f.enc = some f := by
  obtain ⟨part, sat⟩ := f
  cases sat <;> fin_cases part <;> rfl
@[simp] theorem FtoiF_code (f : FtoiF) : FtoiF.dec f.enc = some f := by
  obtain ⟨shape, rnd, zx⟩ := f
  cases shape <;> cases rnd <;> cases zx <;> rfl
@[simp] theorem SatF_code (f : SatF) : SatF.dec f.enc = some f := by
  obtain ⟨sat⟩ := f
  cases sat <;> rfl
@[simp] theorem QblkF_code (f : QblkF) : QblkF.dec f.enc = some f := by
  obtain ⟨fmt⟩ := f
  cases fmt <;> rfl
@[simp] theorem UnpkF_code (f : UnpkF) : UnpkF.dec f.enc = some f := by
  obtain ⟨shape, sel⟩ := f
  cases shape <;> cases sel <;> rfl
@[simp] theorem BitF_code (f : BitF) : BitF.dec f.enc = some f := by
  obtain ⟨bit⟩ := f
  cases bit <;> rfl
@[simp] theorem DeqF_code (f : DeqF) : DeqF.dec f.enc = some f := by
  have h : ∀ n : Fin 32, DeqF.dec (DeqF.enc ⟨n⟩) = some ⟨n⟩ := by decide
  exact h f.n
@[simp] theorem PlogF_code (f : PlogF) : PlogF.dec f.enc = some f := by
  obtain ⟨op⟩ := f
  cases op <;> rfl
@[simp] theorem PoisF_code (f : PoisF) : PoisF.dec f.enc = some f := by
  obtain ⟨cause⟩ := f
  simp [PoisF.enc, PoisF.dec, bits, Nat.mod_eq_of_lt cause.isLt]
@[simp] theorem MxF_code (f : MxF) : MxF.dec f.enc = some f := by
  obtain ⟨fmt⟩ := f
  cases fmt <;> rfl
@[simp] theorem MxfmtF_code (f : MxfmtF) : MxfmtF.dec f.enc = some f := by
  obtain ⟨fmt, os⟩ := f
  cases fmt <;> cases os <;> rfl
@[simp] theorem MxaccF_code (f : MxaccF) : MxaccF.dec f.enc = some f := by
  obtain ⟨sat, clr⟩ := f
  cases sat <;> cases clr <;> rfl
@[simp] theorem MxdrnF_code (f : MxdrnF) : MxdrnF.dec f.enc = some f := by
  obtain ⟨fmt, rnd, sat, ch⟩ := f
  cases fmt <;> cases rnd <;> cases sat <;> cases ch <;> rfl
@[simp] theorem CturnF_code (f : CturnF) : CturnF.dec f.enc = some f := by
  obtain ⟨k⟩ := f
  cases k <;> rfl
@[simp] theorem MemF_code (f : MemF) : MemF.dec f.enc = some f := by
  obtain ⟨scope, order, width⟩ := f
  cases scope <;> cases order <;> cases width <;> rfl
@[simp] theorem ScF_code (f : ScF) : ScF.dec f.enc = some f := by
  obtain ⟨scope⟩ := f
  cases scope <;> rfl
@[simp] theorem ScBF_code (f : ScBF) : ScBF.dec f.enc = some f := by
  obtain ⟨scope, bit⟩ := f
  cases scope <;> cases bit <;> rfl
@[simp] theorem ApF_code (f : ApF) : ApF.dec f.enc = some f := by
  obtain ⟨scope, width⟩ := f
  cases scope <;> cases width <;> rfl
@[simp] theorem FenceF_code (f : FenceF) : FenceF.dec f.enc = some f := by
  obtain ⟨scope, kind⟩ := f
  cases scope <;> cases kind <;> rfl
@[simp] theorem AmoF_code (f : AmoF) : AmoF.dec f.enc = some f := by
  obtain ⟨scope, op⟩ := f
  cases scope <;> cases op <;> rfl
@[simp] theorem WaitaF_code (f : WaitaF) : WaitaF.dec f.enc = some f := by
  obtain ⟨scope, w8, cond⟩ := f
  cases scope <;> cases w8 <;> cases cond <;> rfl
@[simp] theorem CopyF_code (f : CopyF) : CopyF.dec f.enc = some f := by
  have h : ∀ hd hs : Fin 16, CopyF.dec (CopyF.enc ⟨hd, hs⟩) = some ⟨hd, hs⟩ := by decide
  exact h f.hd f.hs
@[simp] theorem BextF_code (f : BextF) : BextF.dec f.enc = some f := by
  obtain ⟨mode⟩ := f
  cases mode <;> rfl
@[simp] theorem PscanF_code (f : PscanF) : PscanF.dec f.enc = some f := by
  obtain ⟨rnd, op⟩ := f
  cases rnd <;> cases op <;> rfl
@[simp] theorem RelF_code (f : RelF) : RelF.dec f.enc = some f := by
  obtain ⟨rel⟩ := f
  simp [RelF.enc, RelF.dec, bits, Nat.mod_eq_of_lt rel.isLt]
@[simp] theorem FamF_code (f : FamF) : FamF.dec f.enc = some f := by
  have h : ∀ n : Fin 64, FamF.dec (FamF.enc ⟨n⟩) = some ⟨n⟩ := by decide
  exact h f.fam
@[simp] theorem MgrpF_code (f : MgrpF) : MgrpF.dec f.enc = some f := by
  obtain ⟨op⟩ := f
  cases op <;> rfl
@[simp] theorem RamoF_code (f : RamoF) : RamoF.dec f.enc = some f := by
  obtain ⟨scope, op⟩ := f
  cases scope <;> cases op <;> rfl
@[simp] theorem PfF_code (f : PfF) : PfF.dec f.enc = some f := by
  obtain ⟨pw, pi⟩ := f
  cases pw <;> fin_cases pi <;> rfl
@[simp] theorem TlbiF_code (f : TlbiF) : TlbiF.dec f.enc = some f := by
  obtain ⟨scope, kind⟩ := f
  cases scope <;> cases kind <;> rfl

theorem nop : Statement (.nop ) := by
  rintro w ⟨⟩
  simp [decodeOp, decodeClass0, bind, Except.bind]
theorem mov (f : BitF) (d : Opd) (a : Opd) : Statement (.mov f d a) := by
  rintro w ⟨⟩
  simp [decodeOp, decodeClass0, need, bind, Except.bind]
theorem send (d : Opd) (a : Opd) (b : Opd) : Statement (.send d a b) := by
  rintro w ⟨⟩
  simp [decodeOp, decodeClass0, bind, Except.bind]
theorem deq (f : DeqF) (a : Opd) : Statement (.deq f a) := by
  rintro w ⟨⟩
  simp [decodeOp, decodeClass0, need, bind, Except.bind]
theorem tagr (d : Opd) (a : Opd) : Statement (.tagr d a) := by
  rintro w ⟨⟩
  simp [decodeOp, decodeClass0, bind, Except.bind]
theorem eos (d : Opd) : Statement (.eos d) := by
  rintro w ⟨⟩
  simp [decodeOp, decodeClass0, bind, Except.bind]
theorem pset (a : Fin 256) (b : Fin 256) : Statement (.pset a b) := by
  rintro w ⟨⟩
  simp [decodeOp, decodeClass0, bind, Except.bind]
theorem plog (f : PlogF) (d : Fin 8) (a : Fin 8) (b : Fin 8) : Statement (.plog f d a b) := by
  rintro w ⟨⟩
  simp [decodeOp, decodeClass0, need, bind, Except.bind]
theorem done : Statement (.done ) := by
  rintro w ⟨⟩
  simp [decodeOp, decodeClass0, bind, Except.bind]
theorem poison (f : PoisF) (d : Opd) (a : Opd) : Statement (.poison f d a) := by
  rintro w ⟨⟩
  simp [decodeOp, decodeClass0, need, bind, Except.bind]
theorem chq (d : Opd) (a : Fin 16) : Statement (.chq d a) := by
  rintro w ⟨⟩
  simp [decodeOp, decodeClass0, bind, Except.bind]
theorem add (f : ShF) (d : Opd) (a : Opd) (b : Opd) : Statement (.add f d a b) := by
  rintro w ⟨⟩
  simp [decodeOp, decodeClass1, need, bind, Except.bind]
theorem sub (f : IntF) (d : Opd) (a : Opd) (b : Opd) : Statement (.sub f d a b) := by
  rintro w ⟨⟩
  simp [decodeOp, decodeClass1, need, bind, Except.bind]
theorem adds (f : ShF) (d : Opd) (a : Opd) (b : Opd) : Statement (.adds f d a b) := by
  rintro w ⟨⟩
  simp [decodeOp, decodeClass1, need, bind, Except.bind]
theorem addn (f : ShF) (d : Opd) (a : Opd) (b : Opd) : Statement (.addn f d a b) := by
  rintro w ⟨⟩
  simp [decodeOp, decodeClass1, need, bind, Except.bind]
theorem mul (f : IntF) (d : Opd) (a : Opd) (b : Opd) : Statement (.mul f d a b) := by
  rintro w ⟨⟩
  simp [decodeOp, decodeClass1, need, bind, Except.bind]
theorem mulh (f : ShF) (d : Opd) (a : Opd) (b : Opd) : Statement (.mulh f d a b) := by
  rintro w ⟨⟩
  simp [decodeOp, decodeClass1, need, bind, Except.bind]
theorem mulhn (f : ShF) (d : Opd) (a : Opd) (b : Opd) : Statement (.mulhn f d a b) := by
  rintro w ⟨⟩
  simp [decodeOp, decodeClass1, need, bind, Except.bind]
theorem mad (f : IntF) (d : Opd) (a : Opd) (b : Opd) : Statement (.mad f d a b) := by
  rintro w ⟨⟩
  simp [decodeOp, decodeClass1, need, bind, Except.bind]
theorem div (f : ShF) (d : Opd) (a : Opd) (b : Opd) : Statement (.div f d a b) := by
  rintro w ⟨⟩
  simp [decodeOp, decodeClass1, need, bind, Except.bind]
theorem divn (f : ShF) (d : Opd) (a : Opd) (b : Opd) : Statement (.divn f d a b) := by
  rintro w ⟨⟩
  simp [decodeOp, decodeClass1, need, bind, Except.bind]
theorem rem (f : ShF) (d : Opd) (a : Opd) (b : Opd) : Statement (.rem f d a b) := by
  rintro w ⟨⟩
  simp [decodeOp, decodeClass1, need, bind, Except.bind]
theorem min (f : ShF) (d : Opd) (a : Opd) (b : Opd) : Statement (.min f d a b) := by
  rintro w ⟨⟩
  simp [decodeOp, decodeClass1, need, bind, Except.bind]
theorem max (f : ShF) (d : Opd) (a : Opd) (b : Opd) : Statement (.max f d a b) := by
  rintro w ⟨⟩
  simp [decodeOp, decodeClass1, need, bind, Except.bind]
theorem minn (f : ShF) (d : Opd) (a : Opd) (b : Opd) : Statement (.minn f d a b) := by
  rintro w ⟨⟩
  simp [decodeOp, decodeClass1, need, bind, Except.bind]
theorem maxn (f : ShF) (d : Opd) (a : Opd) (b : Opd) : Statement (.maxn f d a b) := by
  rintro w ⟨⟩
  simp [decodeOp, decodeClass1, need, bind, Except.bind]
theorem abs (f : IntF) (d : Opd) (a : Opd) : Statement (.abs f d a) := by
  rintro w ⟨⟩
  simp [decodeOp, decodeClass1, need, bind, Except.bind]
theorem and (f : ShF) (d : Opd) (a : Opd) (b : Opd) : Statement (.and f d a b) := by
  rintro w ⟨⟩
  simp [decodeOp, decodeClass2, need, bind, Except.bind]
theorem or (f : ShF) (d : Opd) (a : Opd) (b : Opd) : Statement (.or f d a b) := by
  rintro w ⟨⟩
  simp [decodeOp, decodeClass2, need, bind, Except.bind]
theorem xor (f : ShF) (d : Opd) (a : Opd) (b : Opd) : Statement (.xor f d a b) := by
  rintro w ⟨⟩
  simp [decodeOp, decodeClass2, need, bind, Except.bind]
theorem andn (f : ShF) (d : Opd) (a : Opd) (b : Opd) : Statement (.andn f d a b) := by
  rintro w ⟨⟩
  simp [decodeOp, decodeClass2, need, bind, Except.bind]
theorem shl (f : IntF) (d : Opd) (a : Opd) (b : Opd) : Statement (.shl f d a b) := by
  rintro w ⟨⟩
  simp [decodeOp, decodeClass2, need, bind, Except.bind]
theorem shr (f : ShF) (d : Opd) (a : Opd) (b : Opd) : Statement (.shr f d a b) := by
  rintro w ⟨⟩
  simp [decodeOp, decodeClass2, need, bind, Except.bind]
theorem sha (f : ShF) (d : Opd) (a : Opd) (b : Opd) : Statement (.sha f d a b) := by
  rintro w ⟨⟩
  simp [decodeOp, decodeClass2, need, bind, Except.bind]
theorem rot (f : ShF) (d : Opd) (a : Opd) (b : Opd) : Statement (.rot f d a b) := by
  rintro w ⟨⟩
  simp [decodeOp, decodeClass2, need, bind, Except.bind]
theorem cmp (f : CmpF) (d : Fin 8) (a : Opd) (b : Opd) : Statement (.cmp f d a b) := by
  rintro w ⟨⟩
  simp [decodeOp, decodeClass2, need, bind, Except.bind]
theorem sel (f : SelF) (d : Opd) (a : Opd) (b : Opd) : Statement (.sel f d a b) := by
  rintro w ⟨⟩
  simp [decodeOp, decodeClass2, need, bind, Except.bind]
theorem clz (f : ShF) (d : Opd) (a : Opd) : Statement (.clz f d a) := by
  rintro w ⟨⟩
  simp [decodeOp, decodeClass2, need, bind, Except.bind]
theorem popc (f : ShF) (d : Opd) (a : Opd) : Statement (.popc f d a) := by
  rintro w ⟨⟩
  simp [decodeOp, decodeClass2, need, bind, Except.bind]
theorem bfx (f : BfxF) (d : Opd) (a : Opd) (b : Opd) : Statement (.bfx f d a b) := by
  rintro w ⟨⟩
  simp [decodeOp, decodeClass2, need, bind, Except.bind]
theorem bfi (f : ShF) (d : Opd) (a : Opd) (b : Opd) : Statement (.bfi f d a b) := by
  rintro w ⟨⟩
  simp [decodeOp, decodeClass2, need, bind, Except.bind]
theorem lea (f : LeaF) (d : Opd) (a : Opd) (b : Opd) : Statement (.lea f d a b) := by
  rintro w ⟨⟩
  simp [decodeOp, decodeClass2, need, bind, Except.bind]
theorem limm (form : LimmForm) (v : BitVec 22) (d : Opd) : Statement (.limm form v d) := by
  rintro w ⟨⟩
  have hv := v.isLt
  have h1 : (bits v.toNat 0 6 * 4 + form.code) % 4 = form.code := by cases form <;> simp [LimmForm.code]
  have h2 : BitVec.ofNat 22 (bits v.toNat 14 8 * 16384 + bits v.toNat 6 8 * 64 + (bits v.toNat 0 6 * 4 + form.code) / 4) = v := by
    apply BitVec.eq_of_toNat_eq
    have : form.code < 4 := by cases form <;> decide
    simp only [BitVec.toNat_ofNat, bits, Nat.shiftRight_eq_div_pow]
    omega
  simp [decodeOp, decodeClass2, need, h1, h2, bind, Except.bind]
theorem fadd (f : FpF) (d : Opd) (a : Opd) (b : Opd) : Statement (.fadd f d a b) := by
  rintro w ⟨⟩
  simp [decodeOp, decodeClass3, need, bind, Except.bind]
theorem fsub (f : FpF) (d : Opd) (a : Opd) (b : Opd) : Statement (.fsub f d a b) := by
  rintro w ⟨⟩
  simp [decodeOp, decodeClass3, need, bind, Except.bind]
theorem fmul (f : FpF) (d : Opd) (a : Opd) (b : Opd) : Statement (.fmul f d a b) := by
  rintro w ⟨⟩
  simp [decodeOp, decodeClass3, need, bind, Except.bind]
theorem fma (f : FpF) (d : Opd) (a : Opd) (b : Opd) : Statement (.fma f d a b) := by
  rintro w ⟨⟩
  simp [decodeOp, decodeClass3, need, bind, Except.bind]
theorem fnma (f : FpF) (d : Opd) (a : Opd) (b : Opd) : Statement (.fnma f d a b) := by
  rintro w ⟨⟩
  simp [decodeOp, decodeClass3, need, bind, Except.bind]
theorem fmin (f : FmmF) (d : Opd) (a : Opd) (b : Opd) : Statement (.fmin f d a b) := by
  rintro w ⟨⟩
  simp [decodeOp, decodeClass3, need, bind, Except.bind]
theorem fmax (f : FmmF) (d : Opd) (a : Opd) (b : Opd) : Statement (.fmax f d a b) := by
  rintro w ⟨⟩
  simp [decodeOp, decodeClass3, need, bind, Except.bind]
theorem fsgn (f : FsgnF) (d : Opd) (a : Opd) (b : Opd) : Statement (.fsgn f d a b) := by
  rintro w ⟨⟩
  simp [decodeOp, decodeClass3, need, bind, Except.bind]
theorem fcmp (f : FcmpF) (d : Fin 8) (a : Opd) (b : Opd) : Statement (.fcmp f d a b) := by
  rintro w ⟨⟩
  simp [decodeOp, decodeClass3, need, bind, Except.bind]
theorem fdiv (f : FpF) (d : Opd) (a : Opd) (b : Opd) : Statement (.fdiv f d a b) := by
  rintro w ⟨⟩
  simp [decodeOp, decodeClass3, need, bind, Except.bind]
theorem fsqrt (f : FpF) (d : Opd) (a : Opd) : Statement (.fsqrt f d a) := by
  rintro w ⟨⟩
  simp [decodeOp, decodeClass3, need, bind, Except.bind]
theorem frcp (f : FpF) (d : Opd) (a : Opd) : Statement (.frcp f d a) := by
  rintro w ⟨⟩
  simp [decodeOp, decodeClass3, need, bind, Except.bind]
theorem frsq (f : FpF) (d : Opd) (a : Opd) : Statement (.frsq f d a) := by
  rintro w ⟨⟩
  simp [decodeOp, decodeClass3, need, bind, Except.bind]
theorem fexp2 (f : FpF) (d : Opd) (a : Opd) : Statement (.fexp2 f d a) := by
  rintro w ⟨⟩
  simp [decodeOp, decodeClass3, need, bind, Except.bind]
theorem flog2 (f : FpF) (d : Opd) (a : Opd) : Statement (.flog2 f d a) := by
  rintro w ⟨⟩
  simp [decodeOp, decodeClass3, need, bind, Except.bind]
theorem fdot (f : FpF) (d : Opd) (a : Opd) (b : Opd) : Statement (.fdot f d a b) := by
  rintro w ⟨⟩
  simp [decodeOp, decodeClass3, need, bind, Except.bind]
theorem cvt (f : CvtF) (tf : FFmt) (ff : FFmt) (d : Opd) (a : Opd) : Statement (.cvt f tf ff d a) := by
  rintro w ⟨⟩
  simp [decodeOp, decodeClass4, need, two_nibbles _ _ (ffmt_lt ff), bind, Except.bind]
theorem cvti (f : CviF) (tf : ITy) (ff : ITy) (d : Opd) (a : Opd) : Statement (.cvti f tf ff d a) := by
  rintro w ⟨⟩
  simp [decodeOp, decodeClass4, need, two_nibbles _ _ (ity_lt ff), bind, Except.bind]
theorem ftoi (f : FtoiF) (d : Opd) (a : Opd) : Statement (.ftoi f d a) := by
  rintro w ⟨⟩
  simp [decodeOp, decodeClass4, need, bind, Except.bind]
theorem itof (f : FtoiF) (d : Opd) (a : Opd) : Statement (.itof f d a) := by
  rintro w ⟨⟩
  simp [decodeOp, decodeClass4, need, bind, Except.bind]
theorem scale (f : SatF) (d : Opd) (a : Opd) (b : Opd) : Statement (.scale f d a b) := by
  rintro w ⟨⟩
  simp [decodeOp, decodeClass4, need, bind, Except.bind]
theorem qblk (f : QblkF) (d : Opd) (a : Opd) : Statement (.qblk f d a) := by
  rintro w ⟨⟩
  simp [decodeOp, decodeClass4, need, bind, Except.bind]
theorem fred (f : FpF) (op : RedOp) (d : Opd) (a : Opd) : Statement (.fred f op d a) := by
  rintro w ⟨⟩
  simp [decodeOp, decodeClass4, need, bind, Except.bind]
theorem shuf (f : ShF) (d : Opd) (a : Opd) (b : Opd) : Statement (.shuf f d a b) := by
  rintro w ⟨⟩
  simp [decodeOp, decodeClass4, need, bind, Except.bind]
theorem bcst (f : ShF) (d : Opd) (a : Opd) (b : Opd) : Statement (.bcst f d a b) := by
  rintro w ⟨⟩
  simp [decodeOp, decodeClass4, need, bind, Except.bind]
theorem pack (f : ShF) (d : Opd) (a : Opd) (b : Opd) : Statement (.pack f d a b) := by
  rintro w ⟨⟩
  simp [decodeOp, decodeClass4, need, bind, Except.bind]
theorem unpk (f : UnpkF) (d : Opd) (a : Opd) : Statement (.unpk f d a) := by
  rintro w ⟨⟩
  simp [decodeOp, decodeClass4, need, bind, Except.bind]
theorem fcls (f : ShF) (d : Opd) (a : Opd) : Statement (.fcls f d a) := by
  rintro w ⟨⟩
  simp [decodeOp, decodeClass4, need, bind, Except.bind]
theorem rand (f : BitF) (d : Opd) (a : Opd) (b : Opd) : Statement (.rand f d a b) := by
  rintro w ⟨⟩
  simp [decodeOp, decodeClass4, need, bind, Except.bind]
theorem mxmode (f : BitF) (d : Opd) (a : Opd) : Statement (.mxmode f d a) := by
  rintro w ⟨⟩
  simp [decodeOp, decodeClass5, need, bind, Except.bind]
theorem mxwld (f : MxF) (a : Opd) (b : Opd) : Statement (.mxwld f a b) := by
  rintro w ⟨⟩
  simp [decodeOp, decodeClass5, need, bind, Except.bind]
theorem mxwbuf (d : Opd) (a : Opd) (b : Opd) : Statement (.mxwbuf d a b) := by
  rintro w ⟨⟩
  simp [decodeOp, decodeClass5, bind, Except.bind]
theorem mxfmt (f : MxfmtF) (a : Opd) (b : Opd) : Statement (.mxfmt f a b) := by
  rintro w ⟨⟩
  simp [decodeOp, decodeClass5, need, bind, Except.bind]
theorem mxrun (d : Opd) (a : Opd) (b : Opd) : Statement (.mxrun d a b) := by
  rintro w ⟨⟩
  simp [decodeOp, decodeClass5, bind, Except.bind]
theorem mxacc (f : MxaccF) (a : Fin 4) : Statement (.mxacc f a) := by
  rintro w ⟨⟩
  simp [decodeOp, decodeClass5, need, bind, Except.bind]
theorem mxdrn (f : MxdrnF) (d : Opd) (a : Opd) (b : Opd) : Statement (.mxdrn f d a b) := by
  rintro w ⟨⟩
  simp [decodeOp, decodeClass5, need, bind, Except.bind]
theorem mxst (f : BitF) (d : Opd) (a : Opd) : Statement (.mxst f d a) := by
  rintro w ⟨⟩
  simp [decodeOp, decodeClass5, need, bind, Except.bind]
theorem cturn (f : CturnF) (a : Fin 8) : Statement (.cturn f a) := by
  rintro w ⟨⟩
  simp [decodeOp, decodeClass5, need, bind, Except.bind]
theorem mxwait (d : Opd) (a : Opd) : Statement (.mxwait d a) := by
  rintro w ⟨⟩
  simp [decodeOp, decodeClass5, bind, Except.bind]
theorem ld (f : MemF) (d : Opd) (a : Opd) (b : Opd) : Statement (.ld f d a b) := by
  rintro w ⟨⟩
  simp [decodeOp, decodeClass6, need, bind, Except.bind]
theorem st (f : MemF) (d : Opd) (a : Opd) (b : Opd) : Statement (.st f d a b) := by
  rintro w ⟨⟩
  simp [decodeOp, decodeClass6, need, bind, Except.bind]
theorem lds (f : MemF) (d : Opd) (a : Opd) (b : Opd) : Statement (.lds f d a b) := by
  rintro w ⟨⟩
  simp [decodeOp, decodeClass6, need, bind, Except.bind]
theorem sts (f : MemF) (d : Opd) (a : Opd) (b : Opd) : Statement (.sts f d a b) := by
  rintro w ⟨⟩
  simp [decodeOp, decodeClass6, need, bind, Except.bind]
theorem ldh (f : MemF) (d : Opd) (a : Opd) (b : Opd) : Statement (.ldh f d a b) := by
  rintro w ⟨⟩
  simp [decodeOp, decodeClass6, need, bind, Except.bind]
theorem sth (f : MemF) (d : Opd) (a : Opd) (b : Opd) : Statement (.sth f d a b) := by
  rintro w ⟨⟩
  simp [decodeOp, decodeClass6, need, bind, Except.bind]
theorem hset (d : Opd) (a : Opd) (b : Fin 4) : Statement (.hset d a b) := by
  rintro w ⟨⟩
  simp [decodeOp, decodeClass6, bind, Except.bind]
theorem hget (d : Opd) (a : Opd) (b : Fin 4) : Statement (.hget d a b) := by
  rintro w ⟨⟩
  simp [decodeOp, decodeClass6, bind, Except.bind]
theorem wbind (f : ScBF) (d : Opd) (a : Opd) (b : Opd) : Statement (.wbind f d a b) := by
  rintro w ⟨⟩
  simp [decodeOp, decodeClass6, need, bind, Except.bind]
theorem wfree (a : Opd) : Statement (.wfree a) := by
  rintro w ⟨⟩
  simp [decodeOp, decodeClass6, bind, Except.bind]
theorem pft (f : ScF) (a : Opd) (b : Opd) : Statement (.pft f a b) := by
  rintro w ⟨⟩
  simp [decodeOp, decodeClass6, need, bind, Except.bind]
theorem snap (f : ScF) (d : Opd) (a : Opd) (b : Opd) : Statement (.snap f d a b) := by
  rintro w ⟨⟩
  simp [decodeOp, decodeClass6, need, bind, Except.bind]
theorem append (f : ApF) (d : Opd) (a : Opd) (b : Opd) : Statement (.append f d a b) := by
  rintro w ⟨⟩
  simp [decodeOp, decodeClass6, need, bind, Except.bind]
theorem publ (f : ScBF) (d : Opd) (a : Opd) (b : Opd) : Statement (.publ f d a b) := by
  rintro w ⟨⟩
  simp [decodeOp, decodeClass6, need, bind, Except.bind]
theorem fence (f : FenceF) (d : Opd) : Statement (.fence f d) := by
  rintro w ⟨⟩
  simp [decodeOp, decodeClass6, need, bind, Except.bind]
theorem amo (f : AmoF) (d : Opd) (a : Opd) (b : Opd) : Statement (.amo f d a b) := by
  rintro w ⟨⟩
  simp [decodeOp, decodeClass7, need, bind, Except.bind]
theorem cas (f : ScBF) (d : Opd) (a : Opd) (b : Opd) : Statement (.cas f d a b) := by
  rintro w ⟨⟩
  simp [decodeOp, decodeClass7, need, bind, Except.bind]
theorem red (f : AmoF) (d : Opd) (a : Opd) (b : Opd) : Statement (.red f d a b) := by
  rintro w ⟨⟩
  simp [decodeOp, decodeClass7, need, bind, Except.bind]
theorem waita (f : WaitaF) (d : Opd) (a : Opd) (b : Opd) : Statement (.waita f d a b) := by
  rintro w ⟨⟩
  simp [decodeOp, decodeClass7, need, bind, Except.bind]
theorem mon (f : ScF) (a : Opd) : Statement (.mon f a) := by
  rintro w ⟨⟩
  simp [decodeOp, decodeClass7, need, bind, Except.bind]
theorem mwait (f : ScF) (d : Opd) : Statement (.mwait f d) := by
  rintro w ⟨⟩
  simp [decodeOp, decodeClass7, need, bind, Except.bind]
theorem arrive (f : ScF) (d : Opd) (a : Opd) (b : Opd) : Statement (.arrive f d a b) := by
  rintro w ⟨⟩
  simp [decodeOp, decodeClass7, need, bind, Except.bind]
theorem waitc (f : ScBF) (d : Opd) (a : Opd) (b : Opd) : Statement (.waitc f d a b) := by
  rintro w ⟨⟩
  simp [decodeOp, decodeClass7, need, bind, Except.bind]
theorem bar (f : ScF) (d : Opd) (a : Fin 256) : Statement (.bar f d a) := by
  rintro w ⟨⟩
  simp [decodeOp, decodeClass7, need, bind, Except.bind]
theorem bara (f : ScF) (a : Fin 256) : Statement (.bara f a) := by
  rintro w ⟨⟩
  simp [decodeOp, decodeClass7, need, bind, Except.bind]
theorem futw (f : ScF) (d : Opd) (a : Opd) (b : Opd) : Statement (.futw f d a b) := by
  rintro w ⟨⟩
  simp [decodeOp, decodeClass7, need, bind, Except.bind]
theorem futr (f : ScF) (d : Opd) (a : Opd) : Statement (.futr f d a) := by
  rintro w ⟨⟩
  simp [decodeOp, decodeClass7, need, bind, Except.bind]
theorem prio (a : Opd) : Statement (.prio a) := by
  rintro w ⟨⟩
  simp [decodeOp, decodeClass7, bind, Except.bind]
theorem copy (f : CopyF) (d : Opd) (a : Opd) (b : Opd) : Statement (.copy f d a b) := by
  rintro w ⟨⟩
  simp [decodeOp, decodeClass8, need, bind, Except.bind]
theorem copya (f : CopyF) (d : Opd) (a : Opd) (b : Opd) : Statement (.copya f d a b) := by
  rintro w ⟨⟩
  simp [decodeOp, decodeClass8, need, bind, Except.bind]
theorem copyi (f : CopyF) (d : Opd) (a : Opd) (b : Opd) : Statement (.copyi f d a b) := by
  rintro w ⟨⟩
  simp [decodeOp, decodeClass8, need, bind, Except.bind]
theorem cqry (d : Opd) (a : Opd) : Statement (.cqry d a) := by
  rintro w ⟨⟩
  simp [decodeOp, decodeClass8, bind, Except.bind]
theorem agld (d : Opd) (a : Opd) (b : Opd) : Statement (.agld d a b) := by
  rintro w ⟨⟩
  simp [decodeOp, decodeClass8, bind, Except.bind]
theorem agst (d : Opd) (a : Opd) (b : Opd) : Statement (.agst d a b) := by
  rintro w ⟨⟩
  simp [decodeOp, decodeClass8, bind, Except.bind]
theorem bopen (f : BitF) (d : Opd) (a : Opd) (b : Opd) : Statement (.bopen f d a b) := by
  rintro w ⟨⟩
  simp [decodeOp, decodeClass8, need, bind, Except.bind]
theorem bclose (d : Opd) (a : Opd) : Statement (.bclose d a) := by
  rintro w ⟨⟩
  simp [decodeOp, decodeClass8, bind, Except.bind]
theorem plset (d : Opd) (a : Opd) (b : Opd) : Statement (.plset d a b) := by
  rintro w ⟨⟩
  simp [decodeOp, decodeClass8, bind, Except.bind]
theorem cflush (f : BitF) (d : Opd) (a : Opd) (b : Opd) : Statement (.cflush f d a b) := by
  rintro w ⟨⟩
  simp [decodeOp, decodeClass8, need, bind, Except.bind]
theorem rdef (d : Opd) (a : Opd) : Statement (.rdef d a) := by
  rintro w ⟨⟩
  simp [decodeOp, decodeClass9, bind, Except.bind]
theorem rins (f : RelF) (d : Opd) (a : Opd) (b : Opd) : Statement (.rins f d a b) := by
  rintro w ⟨⟩
  simp [decodeOp, decodeClass9, need, bind, Except.bind]
theorem rdel (f : RelF) (d : Opd) (a : Opd) : Statement (.rdel f d a) := by
  rintro w ⟨⟩
  simp [decodeOp, decodeClass9, need, bind, Except.bind]
theorem rule (d : Opd) (a : Opd) : Statement (.rule d a) := by
  rintro w ⟨⟩
  simp [decodeOp, decodeClass9, bind, Except.bind]
theorem eval (d : Opd) (a : Opd) : Statement (.eval d a) := by
  rintro w ⟨⟩
  simp [decodeOp, decodeClass9, bind, Except.bind]
theorem fold (f : BitF) (d : Opd) (a : Opd) : Statement (.fold f d a) := by
  rintro w ⟨⟩
  simp [decodeOp, decodeClass9, need, bind, Except.bind]
theorem rscan (f : RelF) (d : Opd) (a : Opd) (b : RscanMode) : Statement (.rscan f d a b) := by
  rintro w ⟨⟩
  simp [decodeOp, decodeClass9, need, bind, Except.bind]
theorem rlook (f : RelF) (d : Opd) (a : Opd) : Statement (.rlook f d a) := by
  rintro w ⟨⟩
  simp [decodeOp, decodeClass9, need, bind, Except.bind]
theorem rwit (f : RelF) (d : Opd) (a : Opd) : Statement (.rwit f d a) := by
  rintro w ⟨⟩
  simp [decodeOp, decodeClass9, need, bind, Except.bind]
theorem rback (f : BitF) (d : Opd) (a : Opd) (b : Opd) : Statement (.rback f d a b) := by
  rintro w ⟨⟩
  simp [decodeOp, decodeClass9, need, bind, Except.bind]
theorem rcnt (f : RelF) (d : Opd) : Statement (.rcnt f d) := by
  rintro w ⟨⟩
  simp [decodeOp, decodeClass9, need, bind, Except.bind]
theorem rdrop (f : BitF) (d : Opd) (a : Opd) : Statement (.rdrop f d a) := by
  rintro w ⟨⟩
  simp [decodeOp, decodeClass9, need, bind, Except.bind]
theorem bhist (d : Opd) (a : Opd) (b : Opd) : Statement (.bhist d a b) := by
  rintro w ⟨⟩
  simp [decodeOp, decodeClassA, bind, Except.bind]
theorem bsel (d : Opd) (a : Opd) (b : Opd) : Statement (.bsel d a b) := by
  rintro w ⟨⟩
  simp [decodeOp, decodeClassA, bind, Except.bind]
theorem bext (f : BextF) (d : Opd) (a : Opd) (b : Opd) : Statement (.bext f d a b) := by
  rintro w ⟨⟩
  simp [decodeOp, decodeClassA, need, bind, Except.bind]
theorem pscan (f : PscanF) (d : Opd) (a : Opd) (b : Opd) : Statement (.pscan f d a b) := by
  rintro w ⟨⟩
  simp [decodeOp, decodeClassA, need, bind, Except.bind]
theorem topp (d : Opd) (a : Opd) : Statement (.topp d a) := by
  rintro w ⟨⟩
  simp [decodeOp, decodeClassA, bind, Except.bind]
theorem iwalk (f : ScF) (d : Opd) (a : Opd) (b : Opd) : Statement (.iwalk f d a b) := by
  rintro w ⟨⟩
  simp [decodeOp, decodeClassA, need, bind, Except.bind]
theorem spmx (f : ScF) (d : Opd) (a : Opd) (b : Opd) : Statement (.spmx f d a b) := by
  rintro w ⟨⟩
  simp [decodeOp, decodeClassA, need, bind, Except.bind]
theorem exq (f : ScF) (d : Opd) (a : Opd) (b : Opd) : Statement (.exq f d a b) := by
  rintro w ⟨⟩
  simp [decodeOp, decodeClassA, need, bind, Except.bind]
theorem excfg (d : Opd) (a : Opd) (b : Opd) : Statement (.excfg d a b) := by
  rintro w ⟨⟩
  simp [decodeOp, decodeClassA, bind, Except.bind]
theorem exdq (f : ScF) (d : Opd) (a : Opd) (b : Opd) : Statement (.exdq f d a b) := by
  rintro w ⟨⟩
  simp [decodeOp, decodeClassA, need, bind, Except.bind]
theorem stage (d : Opd) (a : Opd) : Statement (.stage d a) := by
  rintro w ⟨⟩
  simp [decodeOp, decodeClassB, bind, Except.bind]
theorem cast (d : Opd) (a : Opd) (b : Opd) : Statement (.cast d a b) := by
  rintro w ⟨⟩
  simp [decodeOp, decodeClassB, bind, Except.bind]
theorem merge (d : Opd) (a : Opd) (b : Opd) : Statement (.merge d a b) := by
  rintro w ⟨⟩
  simp [decodeOp, decodeClassB, bind, Except.bind]
theorem krt (d : Opd) (a : Opd) (b : Opd) : Statement (.krt d a b) := by
  rintro w ⟨⟩
  simp [decodeOp, decodeClassB, bind, Except.bind]
theorem hash (spr : Option (Fin 64)) (d : Opd) (a : Opd) : Statement (.hash spr d a) := by
  rintro w ⟨⟩
  cases spr <;> simp [decodeOp, decodeClassB, bind, Except.bind]
theorem kroute (f : FamF) (d : Opd) (a : Opd) (b : Opd) : Statement (.kroute f d a b) := by
  rintro w ⟨⟩
  simp [decodeOp, decodeClassB, need, bind, Except.bind]
theorem sdone (a : Opd) : Statement (.sdone a) := by
  rintro w ⟨⟩
  simp [decodeOp, decodeClassB, bind, Except.bind]
theorem mdone (a : Opd) : Statement (.mdone a) := by
  rintro w ⟨⟩
  simp [decodeOp, decodeClassB, bind, Except.bind]
theorem castq (d : Opd) (a : Opd) : Statement (.castq d a) := by
  rintro w ⟨⟩
  simp [decodeOp, decodeClassB, bind, Except.bind]
theorem lease (d : Opd) (a : Opd) (b : Opd) : Statement (.lease d a b) := by
  rintro w ⟨⟩
  simp [decodeOp, decodeClassC, bind, Except.bind]
theorem lmove (d : Opd) (a : Opd) (b : Opd) : Statement (.lmove d a b) := by
  rintro w ⟨⟩
  simp [decodeOp, decodeClassC, bind, Except.bind]
theorem lrel (f : BitF) (d : Opd) (a : Opd) (b : Opd) : Statement (.lrel f d a b) := by
  rintro w ⟨⟩
  simp [decodeOp, decodeClassC, need, bind, Except.bind]
theorem lqry (d : Opd) (a : Opd) : Statement (.lqry d a) := by
  rintro w ⟨⟩
  simp [decodeOp, decodeClassC, bind, Except.bind]
theorem mcst (f : ScF) (d : Opd) (a : Opd) (b : Opd) : Statement (.mcst f d a b) := by
  rintro w ⟨⟩
  simp [decodeOp, decodeClassC, need, bind, Except.bind]
theorem mcstq (d : Opd) (a : Opd) (b : Opd) : Statement (.mcstq d a b) := by
  rintro w ⟨⟩
  simp [decodeOp, decodeClassC, bind, Except.bind]
theorem mgrp (f : MgrpF) (d : Opd) (a : Opd) (b : Opd) : Statement (.mgrp f d a b) := by
  rintro w ⟨⟩
  simp [decodeOp, decodeClassC, need, bind, Except.bind]
theorem ramo (f : RamoF) (d : Opd) (a : Opd) (b : Opd) : Statement (.ramo f d a b) := by
  rintro w ⟨⟩
  simp [decodeOp, decodeClassC, need, bind, Except.bind]
theorem pgmig (d : Opd) (a : Opd) (b : Opd) : Statement (.pgmig d a b) := by
  rintro w ⟨⟩
  simp [decodeOp, decodeClassC, bind, Except.bind]
theorem slot (d : Opd) (a : Opd) : Statement (.slot d a) := by
  rintro w ⟨⟩
  simp [decodeOp, decodeClassC, bind, Except.bind]
theorem keyi (f : BitF) (d : Opd) (a : Opd) (b : Opd) : Statement (.keyi f d a b) := by
  rintro w ⟨⟩
  simp [decodeOp, decodeClassC, need, bind, Except.bind]
theorem peerq (f : BitF) (d : Opd) (a : Opd) : Statement (.peerq f d a) := by
  rintro w ⟨⟩
  simp [decodeOp, decodeClassC, need, bind, Except.bind]
theorem loop (a : Opd) (b : Fin 256) : Statement (.loop a b) := by
  rintro w ⟨⟩
  simp [decodeOp, decodeClassD, bind, Except.bind]
theorem lbrk (c : Bool) (ng : Bool) (n : Fin 8) : Statement (.lbrk c ng n) := by
  rintro w ⟨⟩
  cases c <;> cases ng <;> fin_cases n <;> rfl
theorem jind (f : BitF) (a : Opd) : Statement (.jind f a) := by
  rintro w ⟨⟩
  simp [decodeOp, decodeClassD, need, bind, Except.bind]
theorem arm (f : PfF) (d : Opd) (a : Opd) (b : Opd) : Statement (.arm f d a b) := by
  rintro w ⟨⟩
  simp [decodeOp, decodeClassD, need, bind, Except.bind]
theorem install (f : PfF) (d : Opd) (a : Opd) (b : Opd) : Statement (.install f d a b) := by
  rintro w ⟨⟩
  simp [decodeOp, decodeClassD, need, bind, Except.bind]
theorem launch (f : PfF) (d : Opd) (a : Opd) (b : Opd) : Statement (.launch f d a b) := by
  rintro w ⟨⟩
  simp [decodeOp, decodeClassD, need, bind, Except.bind]
theorem seqw (d : Opd) (a : Opd) : Statement (.seqw d a) := by
  rintro w ⟨⟩
  simp [decodeOp, decodeClassD, bind, Except.bind]
theorem getc (d : Opd) (a : Fin 256) (b : Opd) : Statement (.getc d a b) := by
  rintro w ⟨⟩
  simp [decodeOp, decodeClassD, bind, Except.bind]
theorem setc (d : Fin 256) (a : Opd) (b : Opd) : Statement (.setc d a b) := by
  rintro w ⟨⟩
  simp [decodeOp, decodeClassD, bind, Except.bind]
theorem event (a : Opd) (b : Opd) : Statement (.event a b) := by
  rintro w ⟨⟩
  simp [decodeOp, decodeClassD, bind, Except.bind]
theorem trap (a : Opd) (b : Opd) : Statement (.trap a b) := by
  rintro w ⟨⟩
  simp [decodeOp, decodeClassE, bind, Except.bind]
theorem tret : Statement (.tret ) := by
  rintro w ⟨⟩
  simp [decodeOp, decodeClassE, bind, Except.bind]
theorem preempt (d : Opd) (a : Opd) : Statement (.preempt d a) := by
  rintro w ⟨⟩
  simp [decodeOp, decodeClassE, bind, Except.bind]
theorem resume (f : BitF) (d : Opd) (a : Opd) (b : Opd) : Statement (.resume f d a b) := by
  rintro w ⟨⟩
  simp [decodeOp, decodeClassE, need, bind, Except.bind]
theorem csave (d : Opd) (a : Opd) : Statement (.csave d a) := by
  rintro w ⟨⟩
  simp [decodeOp, decodeClassE, bind, Except.bind]
theorem cload (d : Opd) (a : Opd) : Statement (.cload d a) := by
  rintro w ⟨⟩
  simp [decodeOp, decodeClassE, bind, Except.bind]
theorem tlbi (f : TlbiF) (d : Opd) (a : Opd) (b : Opd) : Statement (.tlbi f d a b) := by
  rintro w ⟨⟩
  simp [decodeOp, decodeClassE, need, bind, Except.bind]
theorem gtbl (d : Opd) (a : Opd) (b : Opd) : Statement (.gtbl d a b) := by
  rintro w ⟨⟩
  simp [decodeOp, decodeClassE, bind, Except.bind]
theorem part (d : Opd) (a : Opd) (b : Opd) : Statement (.part d a b) := by
  rintro w ⟨⟩
  simp [decodeOp, decodeClassE, bind, Except.bind]
theorem halt (d : Opd) (a : Opd) : Statement (.halt d a) := by
  rintro w ⟨⟩
  simp [decodeOp, decodeClassE, bind, Except.bind]
theorem attest (d : Opd) (a : Opd) (b : Opd) : Statement (.attest d a b) := by
  rintro w ⟨⟩
  simp [decodeOp, decodeClassE, bind, Except.bind]
theorem flog (f : BitF) (d : Opd) (a : Opd) (b : Opd) : Statement (.flog f d a b) := by
  rintro w ⟨⟩
  simp [decodeOp, decodeClassE, need, bind, Except.bind]
theorem tokenArrival (n : Nat) : Statement (.tokenArrival n) := nofun
theorem cornerTurnResize (core : Nat) (pe : Nat) (ch : Nat) : Statement (.cornerTurnResize core pe ch) := nofun
theorem starveCycle (core : Nat) (pe : Nat) : Statement (.starveCycle core pe) := nofun
theorem activationDispatch (core : Nat) : Statement (.activationDispatch core) := nofun
theorem commitEv (core : Nat) (ctx : Nat) : Statement (.commitEv core ctx) := nofun
theorem recordPlacement (sect : Nat) : Statement (.recordPlacement sect) := nofun
theorem averagingSample (cluster : Nat) : Statement (.averagingSample cluster) := nofun
theorem averagingMove (cluster : Nat) : Statement (.averagingMove cluster) := nofun
theorem bucketStep (port : Nat) : Statement (.bucketStep port) := nofun
theorem bucketSetting (port : Nat) (depth : Nat) (rate : Nat) : Statement (.bucketSetting port depth rate) := nofun
theorem decodeTrap (unit : Nat) : Statement (.decodeTrap unit) := nofun
theorem pendingEmpty (unit : Nat) : Statement (.pendingEmpty unit) := nofun
theorem armatureTransfer (core : Nat) (frame : Nat) : Statement (.armatureTransfer core frame) := nofun
theorem pageWalk (id : Nat) : Statement (.pageWalk id) := nofun
theorem loadResult (id : Nat) (ans : Answer) : Statement (.loadResult id ans) := nofun
theorem storeCompletion (id : Nat) (ans : Answer) : Statement (.storeCompletion id ans) := nofun
theorem pftArrival (id : Nat) (bad : List Nat) : Statement (.pftArrival id bad) := nofun
theorem windowFree (id : Nat) : Statement (.windowFree id) := nofun
theorem fenceCompletion (id : Nat) : Statement (.fenceCompletion id) := nofun
theorem scopeTimeout (id : Nat) : Statement (.scopeTimeout id) := nofun
theorem peerFailure (past : Nat) (peer : Nat) : Statement (.peerFailure past peer) := nofun
theorem peerRequest (acc : OutAccess) : Statement (.peerRequest acc) := nofun
theorem syncEngineService (id : Nat) (ans : Answer) : Statement (.syncEngineService id ans) := nofun
theorem reservationLapse (word : Nat) : Statement (.reservationLapse word) := nofun
theorem copySlotGrant (id : Nat) : Statement (.copySlotGrant id) := nofun
theorem copyCompletion (id : Nat) (bad : List Nat) : Statement (.copyCompletion id bad) := nofun
theorem agTileStart (id : Nat) : Statement (.agTileStart id) := nofun
theorem coalesceRelease (tile : Nat) : Statement (.coalesceRelease tile) := nofun
theorem nodeConfiguration (id : Nat) : Statement (.nodeConfiguration id) := nofun
theorem forceClose (row : Nat) : Statement (.forceClose row) := nofun
theorem dramRefresh (row : Nat) : Statement (.dramRefresh row) := nofun
theorem writeDrain (pc : Nat) : Statement (.writeDrain pc) := nofun
theorem parityAlert (pc : Nat) (third : Bool) : Statement (.parityAlert pc third) := nofun
theorem activationThreshold (what : RowReport) : Statement (.activationThreshold what) := nofun
theorem backgroundScrub (u : Nat) (bad : Bool) : Statement (.backgroundScrub u bad) := nofun
theorem arrayCommand (core : Nat) (bad : List Nat) : Statement (.arrayCommand core bad) := nofun
theorem modeChange (core : Nat) : Statement (.modeChange core) := nofun
theorem drainToken (core : Nat) : Statement (.drainToken core) := nofun
theorem indexEngineEmit (turn : EngineTurn) : Statement (.indexEngineEmit turn) := nofun
theorem timerRelease (q : Nat) : Statement (.timerRelease q) := nofun
theorem exdqDelivery (id : Nat) : Statement (.exdqDelivery id) := nofun
theorem exqPlacement (id : Nat) : Statement (.exqPlacement id) := nofun
theorem tupleEvent (past : Nat) : Statement (.tupleEvent past) := nofun
theorem userReturn (core : Nat) : Statement (.userReturn core) := nofun
theorem candidateArrival (past : Nat) (n : Nat) : Statement (.candidateArrival past n) := nofun
theorem foldWave (past : Nat) : Statement (.foldWave past) := nofun
theorem foldTimeout (past : Nat) : Statement (.foldTimeout past) := nofun
theorem castSample (past : Nat) (fam : Nat) : Statement (.castSample past fam) := nofun
theorem routineDispatch (past : Nat) (fam : Nat) : Statement (.routineDispatch past fam) := nofun
theorem stepDone (past : Nat) (fam : Nat) : Statement (.stepDone past fam) := nofun
theorem senderAck (past : Nat) (fam : Nat) (core : Nat) : Statement (.senderAck past fam core) := nofun
theorem leaseService (c : LeaseCall) : Statement (.leaseService c) := nofun
theorem leaseDenial (id : Nat) : Statement (.leaseDenial id) := nofun
theorem revocationNoticeEnd (lane : Nat) : Statement (.revocationNoticeEnd lane) := nofun
theorem mcstMemberWrite (w : McstWrite) : Statement (.mcstMemberWrite w) := nofun
theorem mcstCompletion (id : Nat) : Statement (.mcstCompletion id) := nofun
theorem toryrFlitReceive (lane : Nat) (ok : Bool) (phase : Bool) : Statement (.toryrFlitReceive lane ok phase) := nofun
theorem keyLow (lane : Nat) : Statement (.keyLow lane) := nofun
theorem keyHold (lane : Nat) : Statement (.keyHold lane) := nofun
theorem keyExpiry (lane : Nat) : Statement (.keyExpiry lane) := nofun
theorem pageMigration (mv : PageMove) : Statement (.pageMigration mv) := nofun
theorem portalReply (id : Nat) (ans : Answer) : Statement (.portalReply id ans) := nofun
theorem slotEntryEffect (router : Nat) : Statement (.slotEntryEffect router) := nofun
theorem asyncCause (cluster : Nat) : Statement (.asyncCause cluster) := nofun
theorem watchdog (cluster : Nat) (n : Nat) : Statement (.watchdog cluster n) := nofun
theorem channelStoreReadout (past : Nat) : Statement (.channelStoreReadout past) := nofun
theorem tlbiCompletion (id : Nat) : Statement (.tlbiCompletion id) := nofun
theorem launchWrite (past : Nat) (v : BitVec 64) : Statement (.launchWrite past v) := nofun
theorem hostev (past : Nat) (v : BitVec 64) : Statement (.hostev past v) := nofun
theorem preq (past : Nat) (v : BitVec 64) : Statement (.preq past v) := nofun
theorem eventAck (past : Nat) (vec : Nat) (v : BitVec 64) : Statement (.eventAck past vec v) := nofun
theorem coldStart (v : BitVec 64) : Statement (.coldStart v) := nofun
theorem warmStart (v : BitVec 64) : Statement (.warmStart v) := nofun
theorem startCompletion (rep : StartReport) : Statement (.startCompletion rep) := nofun
theorem powerctl (v : BitVec 64) : Statement (.powerctl v) := nofun
theorem fwstageWrite (off : Nat) (v : BitVec 64) : Statement (.fwstageWrite off v) := nofun
theorem hostMemoryAccess (acc : OutAccess) : Statement (.hostMemoryAccess acc) := nofun
theorem hostAtomicop (off : Nat) : Statement (.hostAtomicop off) := nofun
theorem powerOn (peer : Nat) (rev : Nat) (rate : Nat) : Statement (.powerOn peer rev rate) := nofun
theorem thermalLimit (watts : Nat) (power : Nat) : Statement (.thermalLimit watts power) := nofun
theorem registerWrite (off : Nat) (v : BitVec 64) : Statement (.registerWrite off v) := nofun
theorem revocationNotice (lane : Nat) : Statement (.revocationNotice lane) := nofun
theorem ualinkPeerAccess (acc : OutAccess) : Statement (.ualinkPeerAccess acc) := nofun

end Sys2Proof.Laws.RoundTrip
end

