-- ==== Sys2Proof/Tests/Slice0.lean ====
section
/-! SUPPORT. Decoding tests on words that the manual prints, ill-formed terms, small effects, and for each statement with
hypotheses a state and operands that meet them. -/
set_option maxRecDepth 20000
namespace Sys2Proof.Tests
set_option Elab.async false
open Sys2Proof Sys2Proof.Machine

/-- A PE of core 0 executes, frame 0, bank 0. -/
def P : State := { State.reset with m.cur := .pe 0 0 0 0 0 false }
/-- The shepherd core of cluster 0 executes its word 0. -/
def U : State := { State.reset with m.cur := .unit 128 0 }
/-- Graph context 0 of cluster 0 executes its word 0. -/
def G : State := { State.reset with m.cur := .unit 0 0 }
/-- A state with another machine part. -/
def on (s : State) (f : Mach → Mach) : State := { s with m := f s.m }
/-- The next state of an outcome. -/
def nx (o : Out) : State := match o with | .next t => t | _ => State.reset

/-! ## Decoding: words that the manual prints (R63, R171 and the printed programs of each chapter) -/

theorem test_dec_fma : decodeTableWord 64 0x0901A23304303100 = some (.fma ⟨.s32, .rne, false, false⟩ (.r 4) (.inC 0) (.inC 1)) := by decide
theorem test_dec_add : decodeTableWord 64 0x000000100201BF60 = some (.add ⟨.s64⟩ (.r 2) (.r 1) (.imm 0x3F)) := by decide
theorem test_dec_install : decodeTableWord 64 0x5C000AD40503890F = some (.install ⟨true, 7⟩ (.r 5) (.r 3) (.imm 9)) := by decide
theorem test_dec_ldh : decodeTableWord 64 0x0202006438403152 = some (.ldh ⟨.package, .plain, .w16⟩ (.outC 0) (.h 0) (.inC 1)) := by decide
theorem test_dec_snap : decodeTableWord 64 0x0200006B40308250 = some (.snap ⟨.package⟩ (.h 0) (.inC 0) (.imm 2)) := by decide
theorem test_dec_sts : decodeTableWord 64 0x0000A8632A323420 = some (.sts ⟨.core, .plain, .w4⟩ .zero (.inC 2) (.inC 4)) := by decide
theorem test_dec_copy : decodeTableWord 64 0x00000080110E1000 = some (.copy ⟨0, 0⟩ (.r 17) (.r 14) (.r 16)) := by decide
theorem test_dec_waita : decodeTableWord 64 0x000000733C308031 = some (.waita ⟨.cluster, false, .ne⟩ (.outC 4) (.inC 0) (.imm 0)) := by decide
theorem test_dec_mxacc : decodeTableWord 64 0x000000552A002A01 = some (.mxacc ⟨false, true⟩ 0) := by decide
theorem test_dec_mxfmt : decodeTableWord 64 0x000000532A010241 = some (.mxfmt ⟨.e4m3, true⟩ (.r 1) (.r 2)) := by decide
theorem test_dec_bext : decodeTableWord 64 0x000000A239300500 = some (.bext ⟨.val⟩ (.outC 1) (.inC 0) (.r 5)) := by decide
theorem test_dec_rins : decodeTableWord 64 0x0000009119141601 = some (.rins ⟨1⟩ (.r 25) (.r 20) (.r 22)) := by decide
theorem test_dec_merge : decodeTableWord 64 0x000000B21B808100 = some (.merge (.r 27) (.imm 0) (.imm 1)) := by decide
theorem test_dec_kroute : decodeTableWord 64 0x0000A8B52A343200 = some (.kroute ⟨0⟩ .zero (.inC 4) (.inC 2)) := by decide
theorem test_dec_sdone : decodeTableWord 64 0x040000B62A332A00 = some (.sdone (.inC 3)) := by decide
theorem test_dec_lease : decodeTableWord 64 0x000000C005028200 = some (.lease (.r 5) (.r 2) (.imm 2)) := by decide
theorem test_dec_resume : decodeTableWord 64 0x000000E307060501 = some (.resume ⟨true⟩ (.r 7) (.r 6) (.r 5)) := by decide
theorem test_dec_flog : decodeTableWord 64 0x000000EC06810701 = some (.flog ⟨true⟩ (.r 6) (.imm 1) (.r 7)) := by decide
theorem test_dec_itof : decodeTableWord 64 0x000000433B312A20 = some (.itof ⟨.s16, .rne, false⟩ (.outC 3) (.inC 1)) := by decide
/-- Opcode 0x08 is reserved (R85), and so is bit 7 of ADD's modifier. -/
theorem test_dec_reserved : decodeTableWord 64 0x0000000802010300 = none ∧ decodeTableWord 64 0x0000001002010180 = none := by decide

/-! ## Ill-formed terms, one for each check -/

theorem test_wf_good : Instr.wf .pe (.add ⟨.s32⟩ (.r 4) (.r 1) (.imm 3)) = true ∧ Instr.wf .shepherd .tret = true := by decide
/-- A shepherd's instruction in a graph context, and DONE there. -/
theorem test_wf_unit : Instr.wf .graph .tret = false ∧ Instr.wf .graph .done = false := by decide
/-- An immediate and a source channel as a result, an odd register where QBLK needs an even one or one in its range. -/
theorem test_wf_operand : Instr.wf .pe (.add ⟨.s32⟩ (.imm 1) (.r 1) (.r 2)) = false ∧ Instr.wf .pe (.mov ⟨false⟩ (.inC 0) (.r 1)) = false
    ∧ Instr.wf .pe (.qblk ⟨.e4m3⟩ (.r 30) (.r 0)) = false ∧ Instr.wf .shepherd (.add ⟨.s32⟩ (.inC 1) (.r 1) (.r 2)) = false := by decide
/-- A shape that an S-form unit does not have (R73), and a conversion between equal types. -/
theorem test_wf_modifier : Instr.wf .graph (.add ⟨.s8⟩ (.r 4) (.r 1) (.r 2)) = false
    ∧ Instr.wf .pe (.cvt ⟨0, .rne, false, false⟩ .bf16 .bf16 (.r 1) (.r 2)) = false := by decide

/-! ## Effects -/

/-- 0xFF + 0x02 in an 8-bit lane wraps to 1; a saturating ADDS of 127 and 1 gives 127 and sets OV (R165). -/
theorem test_add_wraps : (peReg (nx (exec (.add ⟨.s8⟩ (.r 3) (.r 1) (.r 2)) (on P (fun m =>
    setPeReg (setPeReg m 0 0 0 1 (Val.ofNat 0xFF)) 0 0 0 2 (Val.ofNat 2))))).m 0 0 0 3).pay.toNat = 1 := by decide
theorem test_adds_saturates : (peReg (nx (exec (.adds ⟨.s8⟩ (.r 1) (.r 1) (.r 2)) (on P (fun m =>
    setPeReg (setPeReg m 0 0 0 1 (Val.ofNat 127)) 0 0 0 2 (Val.ofNat 1))))).m 0 0 0 1).pay.toNat = 127 := by decide
/-- DIV by zero gives 0 and sets DZ; the source may be the destination. -/
theorem test_div_zero : (peReg (nx (exec (.div ⟨.s32⟩ (.r 1) (.r 1) .zero) (on P (fun m =>
    setPeReg m 0 0 0 1 (Val.ofNat 9))))).m 0 0 0 1).pay.toNat = 0 := by decide
/-- 1.0 + 1.0 = 2.0 in FP32 (R173). -/
theorem test_fadd : (peReg (nx (exec (.fadd ⟨.s32, .rne, false, false⟩ (.r 3) (.r 1) (.r 1)) (on P (fun m =>
    setPeReg m 0 0 0 1 (Val.ofNat 0x3F800000))))).m 0 0 0 3).pay.toNat % 2 ^ 32 = 0x40000000 := by decide
/-- A write to the zero code is discarded (R70). -/
theorem test_zero_discards : (nx (exec (.limm .low 5 .zero) U)).m.seq = U.m.seq := by decide
theorem test_limm : sReg (nx (exec (.limm .low 0xC0 (.r 4)) U)).m 128 4 = 0xC0 := by decide
/-- A reset machine steps: CYCLE counts, nothing else runs. -/
theorem test_reset_step : (nx (step State.reset)).m.seq.cycle = 1 ∧ (nx (step State.reset)).m.mem = State.reset.m.mem := by decide

/-! ## Witnesses: encoding, steps, integer and floating-point instructions -/

/-- A state that fires MOV in slot 0 of PE 0. -/
def fireS (w : Nat) : State := State.reset.withFetchWord 64 w
theorem wit_EncodeDecode : Instr.wf .pe (.add ⟨.s16⟩ (.r 2) (.r 1) (.imm 63)) = true
    ∧ (encOp (.add ⟨.s16⟩ (.r 2) (.r 1) (.imm 63))).isSome = true := by decide
theorem wit_StepFiresPair : (fireS 0x2A2A2A00).sched.firing = [⟨0, 0, 0, 0⟩]
    ∧ (match fate .pe true true (OpWord.ofNat (imgInstr (frameImg (fireS 0x2A2A2A00).m 0 0) 0 0 % 2 ^ 40)) with
      | .ok i => i == .nop | .error _ => false) = true ∧ exec .nop (fireS 0x2A2A2A00) = .next (fireS 0x2A2A2A00) :=
  ⟨by decide, by decide, rfl⟩
/-- TRET stands at word 0 of the shepherd core of cluster 0. -/
def tretS : State := State.reset.withFetchWord 64 0x000000E12A2A2A00
theorem wit_StepRunsWord : tretS.sched.firing = [] ∧ tretS.sched.agenda = [.unit 128] ∧ unitMayRun tretS.m 128 = true
    ∧ (unitOf tretS.m 128).w < imageWords 128
    ∧ (match virtLocs tretS.m (.unit 128 0) 0 0x7F0000000000 8 .fetch with
      | .ok ls => locsFault tretS.m (.unit 128 0) ls == none && !ls.any isOutside
        && (match wordFate tretS.m 128 (locsRead tretS.m ls) with | .ok i => i == .tret | .error _ => false)
      | .error _ => false) = true := by decide
theorem wit_StepTurns : State.reset.sched.firing = [] ∧ State.reset.sched.agenda = []
    ∧ ({ State.reset with sched.agenda := [.pe 0 0] } : State).sched.firing = [] := by decide
theorem wit_RunInvariant : runOk State.reset = true ∧ step State.reset = .next (nx (step State.reset)) := ⟨by decide, rfl⟩
theorem wit_IntegerResults : (intRow (.mad ⟨.s32, true⟩ (.r 3) (.r 1) (.inC 0))).isSome = true ∧ instrOk (.mad ⟨.s32, true⟩ (.r 3) (.r 1) (.r 2)) = true
    ∧ starts P.m (intSrcs .s32 true (.r 3) (.r 1) (some (.r 2))) (.opd (.r 3)) = true
    ∧ starts G.m (intSrcs .s64 false (.r 3) (.r 1) (some (.imm 1))) (.opd (.r 3)) = true := by decide
theorem wit_LogicResults : (logicRow (.bfi ⟨.s16⟩ (.r 3) (.r 1) (.r 2))).isSome = true ∧ instrOk (.bfi ⟨.s16⟩ (.r 3) (.r 1) (.r 2)) = true
    ∧ starts P.m (intSrcs .s16 true (.r 3) (.r 1) (some (.r 2))) (.opd (.r 3)) = true := by decide
theorem wit_CompareResult : instrOk (.cmp ⟨.s8, .ltn⟩ 7 (.r 1) (.r 2)) = true
    ∧ starts P.m [(.int 8, .r 1), (.int 8, .r 2)] (.pred 7) = true := by decide
theorem wit_ValueFrame : (intRow (.sub ⟨.s32, false⟩ (.r 3) (.r 1) (.r 2))).isSome = true ∧ actorOk P.m.cur = true
    ∧ starts P.m (intSrcs .s32 false (.r 3) (.r 1) (some (.r 2))) (.opd (.r 3)) = true
    ∧ exec (.sub ⟨.s32, false⟩ (.r 3) (.r 1) (.r 2)) P = .next (nx (exec (.sub ⟨.s32, false⟩ (.r 3) (.r 1) (.r 2)) P)) :=
  ⟨by decide, by decide, by decide, rfl⟩
theorem wit_FloatResults : (fltRow (.fma ⟨.s32, .rne, false, false⟩ (.r 3) (.r 1) (.r 2))).isSome = true
    ∧ starts P.m (fltSrcs .f32 true (.r 3) (.r 1) (some (.r 2))) (.opd (.r 3)) = true
    ∧ scalesOk P.m .f32 false true (true, true, true) (.r 3) (.r 1) (some (.r 2)) = true := by decide
theorem wit_ExactArithmetic : (XR.toRat (.fin true 3 1 false)).isSome = true ∧ 0 < 3 := by decide
theorem wit_RoundRepresentable : 0x3F800000 < 2 ^ FFmt.width .f32 ∧ isNanCode .f32 0x3F800000 = false ∧ isInfCode .f32 0x3F800000 = false := by decide
/-- A scaled value in m1. -/
def scaledS : State := on P (fun m => setPeReg m 0 0 0 1 ⟨0x3F800000, false, true⟩)
theorem wit_ConversionsAndOthers :
    starts P.m [(.flt .f32, .r 1), (.flt .f32, .r 2)] (.pred 0) = true ∧ (srcVal P.m (.flt .f32) (.r 1)).scaled = false
    ∧ starts P.m [(.flt .bf16, .r 1), (.flt .bf16, .r 2), (.flt .bf16, .r 3)] (.opd (.r 3)) = true
    ∧ starts P.m (fltSrcs .f32 false (.r 3) (.r 1) none) (.opd (.r 3)) = true
    ∧ scalesOk P.m .f32 false false (false, false, false) (.r 3) (.r 1) none = true
    ∧ starts scaledS.m [(.flt .f32, .r 1), (.flt .f32, .r 2)] (.opd (.r 3)) = true ∧ (srcVal scaledS.m (.flt .f32) (.r 1)).scaled = true
    ∧ (srcVal scaledS.m (.flt .f32) (.r 2)).scaled = false
    ∧ starts P.m [(.nar .f32, .r 1), (.whole, .r 3)] (.opd (.r 3)) = true ∧ instrOk (.cvt ⟨1, .rne, true, false⟩ .bf16 .f32 (.r 3) (.r 1)) = true
    ∧ instrOk (.cvti ⟨0, true⟩ .i8 .i32 (.r 3) (.r 1)) = true ∧ actorOk P.m.cur = true
    ∧ ((upto 16).map (fun i => peReg P.m 0 0 0 (16 + i))).any (·.poison) = false
    ∧ ((upto 16).map (fun i => peReg P.m 0 0 0 (16 + i))).any (·.scaled) = false := by decide
theorem wit_SelectionAndLanes : starts P.m [(.whole, .r 1), (.whole, .r 2)] (.opd (.r 3)) = true ∧ starts P.m [] (.opd (.r 3)) = true
    ∧ starts P.m [(.whole, .r 3)] (.opd (.r 3)) = true ∧ (0xFFFFF : BitVec 22).toNat < 2 ^ 20
    ∧ starts P.m [(.int 16, .r 1), (.int 16, .r 2)] (.opd (.outC 7)) = true
    ∧ (srcVal P.m (.int 16) (.r 1)).scaled = (srcVal P.m (.int 16) (.r 2)).scaled := by decide
/-- A poison in m1. -/
def poisonS : State := on P (fun m => setPeReg m 0 0 0 1 ⟨5, true, false⟩)
theorem wit_PoisonAndScales : (intRow (.add ⟨.s32⟩ (.r 3) (.r 1) (.r 2))).isSome = true
    ∧ ((intSrcs .s32 false (.r 3) (.r 1) (some (.r 2))).map (fun x => srcVal poisonS.m x.1 x.2)).filter (·.poison) = [⟨5, true, false⟩]
    ∧ (fltRow (.fadd ⟨.s32, .rne, false, false⟩ (.r 3) (.r 1) (.r 2))).isSome = true
    ∧ starts scaledS.m (fltSrcs .f32 false (.r 3) (.r 1) (some (.r 2))) (.opd (.r 3)) = true
    ∧ ((Opd.r 1, true) :: [(Opd.r 2, true)]).find? (fun x => (srcVal scaledS.m (.flt .f32) x.1).scaled != (x.2 && false)) = some (.r 1, true) := by decide

/-! ## Witnesses: tokens, activations, sequencing -/

theorem wit_TokenResults : starts P.m [(.whole, .r 1)] (.opd (.outC 7)) = true ∧ starts P.m [(.whole, .r 1), (.whole, .imm 4)] (.opd (.outC 0)) = true := by decide
/-- Input 0 of PE 0 of core 0 holds one token. -/
def chanS : State := on P (fun m => setChan m 0 { Chan.reset with fifo := [⟨⟨5, false, false⟩, true, false, 2⟩] })
theorem wit_TagsAndPredicates : actorOk P.m.cur = true ∧ (headTok chanS.m (chanKey 0 0 0)).isSome = true ∧ (7 : Fin 16).val < 8 ∧ 8 ≤ (8 : Fin 16).val
    ∧ (chanOf chanS.m 0).ring = [] ∧ (chanOf chanS.m 0).node = 0 ∧ (chanOf chanS.m 0).emit = [] ∧ (1 : Fin 32).val ≤ (chanOf chanS.m 0).fifo.length
    ∧ ((chanOf chanS.m 0).fifo.take 1).all (fun t => !t.val.poison) = true := by decide
/-- Pasture 0 is live on core 0, whose frame 0 holds a block with one NOP in PE 0. -/
def live (m : Mach) : Mach := { m with
  sys.past := [(0, { Pasture.reset with st := .live, cset := 1 })], pe.frames := [(0, oneSlotImage 0x2A2A2A00)] }
/-- Section 7 has one entry, block 0 in frame 0 of core 0, and two tiles. -/
def sect7 : Section := ⟨0, 0, 0, false, [(0, 0, 0)], 2, 0, 0, 0, 0, 0, false⟩
/-- The block's frame is atomic. -/
def atomicImg : List W64 := 0x2000000 :: (oneSlotImage 0x2A2A2A00).drop 1
def bound (m : Mach) : Mach := { live m with pe.binds := [(0, ⟨0, .record 7, 0, false, none⟩)], seq.sections := [(7, sect7)] }
def boundS : State := on P bound
def atomicS : State := on boundS (fun m => { m with
  pe.frames := [(0, atomicImg)], pe.commit := [(0, [⟨none, .pe 0 0 0 0 0 false, .virt 0, 4, 1, 0, false, none, none⟩])] })
def queueS : State := on State.reset (fun m => { live m with pe.rq := [(0, [⟨0, 1, 7⟩])] })
/-- The block in frame 0 has no instruction. -/
def noPeS : State := on queueS (fun m => { m with pe.frames := [(0, [0])], seq.sections := boundS.m.seq.sections })
theorem wit_DoneAndDispatch : actorOk P.m.cur = true ∧ (tfind 0 boundS.m.pe.binds).isSome = true
    ∧ (∃ q < 16, participates (frameImg boundS.m 0 0) q = true) ∧ imgAtomic (frameImg boundS.m 0 0) = false
    ∧ (∀ q < 16, participates (frameImg boundS.m 0 0) q = true → bitAt (setBits 0 0 1 1) q = true)
    ∧ (∃ q < 16, participates (frameImg (on P (fun m => { m with pe.frames := [(0, oneSlotImage 0x2A2A2A00)], cur := .pe 0 1 0 0 0 false })).m 0 0) q = true
        ∧ bitAt (setBits 0 1 1 1) q = false)
    ∧ (tfind 7 boundS.m.seq.sections).isSome = true ∧ imgAtomic (frameImg atomicS.m 0 0) = true ∧ tget [] 0 atomicS.m.pe.commit ≠ []
    ∧ (tget [] 0 atomicS.m.pe.commit).all (fun e => e.poison.isNone) = true
    ∧ livePast queueS.m 0 = some 0 ∧ running queueS.m 0 = true ∧ freeBank queueS.m 0 0 = some 0
    ∧ (tget [] 0 queueS.m.pe.rq).find? (fun r => !assigned queueS.m 0 r && (freeBank queueS.m 0 r.frame).isSome) = some ⟨0, 1, 7⟩
    ∧ (upto 16).any (participates (frameImg queueS.m 0 0)) = true
    ∧ livePast noPeS.m 0 = some 0 ∧ running noPeS.m 0 = true ∧ freeBank noPeS.m 0 0 = some 0
    ∧ (tget [] 0 noPeS.m.pe.rq).find? (fun r => !assigned noPeS.m 0 r && (freeBank noPeS.m 0 r.frame).isSome) = some ⟨0, 1, 7⟩
    ∧ (upto 16).any (participates (frameImg noPeS.m 0 0)) = false ∧ (tfind 7 noPeS.m.seq.sections).isSome = true := by decide
def moveS : State := on State.reset (fun m => { m with
  pe.frames := [(0, oneSlotImage 0x2A2A2A00), (2, oneSlotImage 0x2A2A2A00)], pe.rq := [(0, [⟨0, 1, 7⟩])]
  seq.avg := [(0, [⟨0, 1, ⟨0, 1, 7⟩⟩])] })
/-- The receiver's frame holds another block, or waits for an install. -/
def moveB (ins : Bool) : State := on moveS (fun m => { m with
  pe.frames := [(0, oneSlotImage 0x2A2A2A00)], seq.installs := if ins then [(2, ⟨[], none, 0, .zero, none⟩)] else [] })
/-- The sender's pasture runs. -/
def moveL (s : State) : State := on s (fun m => { m with sys.past := [(0, { Pasture.reset with st := .live, cset := 1 })] })
theorem wit_RecordsPlaced_moves : (∀ s ∈ [moveL moveS, moveL (moveB true), moveL (moveB false)],
      (livePast s.m 0).any (running s.m) = true ∧ tget [] 0 s.m.seq.avg = ⟨0, 1, ⟨0, 1, 7⟩⟩ :: [])
    ∧ thas (frameKey 1 0) (moveL moveS).m.seq.installs = false ∧ frameImg (moveL moveS).m 1 0 = frameImg (moveL moveS).m 0 0
    ∧ thas (frameKey 1 0) (moveL (moveB true)).m.seq.installs = true
    ∧ thas (frameKey 1 0) (moveL (moveB false)).m.seq.installs = false ∧ frameImg (moveL (moveB false)).m 1 0 ≠ frameImg (moveL (moveB false)).m 0 0
    ∧ (livePast moveS.m 0).any (running moveS.m) = false := by decide
theorem wit_RecordsPlaced : (tfind 7 boundS.m.seq.sections).isSome = true ∧ sect7.complete = false ∧ sect7.tile < sect7.count ∧ running boundS.m 0 = true
    ∧ (∀ u < 144, startHeld boundS.m u sect7.graph 7 = false) ∧ nextSection boundS.m sect7.cluster = some 7
    ∧ ((sect7.entries.map (·.1)).eraseDups)[0]? = some 0 ∧ (sect7.entries.filter (fun e => e.1 == 0))[0 % 1]? = some (0, 0, 0)
    ∧ queueLoad boundS.m 0 < 64 ∧ tget [] 0 moveS.m.seq.avg = ⟨0, 1, ⟨0, 1, 7⟩⟩ :: [] ∧ tget [] 1 moveS.m.seq.avg = []
    ∧ thas (frameKey 1 0) moveS.m.seq.installs = false ∧ frameImg moveS.m 1 0 = frameImg moveS.m 0 0
    ∧ (⟨0, 1, 7⟩ : Rec) ∈ tget [] 0 moveS.m.pe.rq ∧ thas (frameKey 1 0) (moveB true).m.seq.installs = true
    ∧ thas (frameKey 1 0) (moveB false).m.seq.installs = false ∧ frameImg (moveB false).m 1 0 ≠ frameImg (moveB false).m 0 0 := by decide
def starvS : State := on State.reset (fun m => { bound m with pe.starv := [(0, 63)] })
theorem wit_PowerBuckets : livePast starvS.m 0 = some 0 ∧ running starvS.m 0 = true ∧ peHeld starvS.m 0 0 0 = false
    ∧ peHeld (on starvS (fun m => { m with seq.heldTraps := [(0, ⟨0x13, 0, 0⟩, .pe 0 0 0 0 0 false, false)] })).m 0 0 0 = true
    ∧ tget 0 0 starvS.m.pe.starv = 63 ∧ tget 0 0 starvS.m.pe.busy = 0 ∧ readyPairs starvS.m 0 0 = [(0, 0)]
    ∧ bucketOf State.reset 3 = ⟨1, 1, 0, 1⟩ ∧ 0 < 1 := by decide
def arriveS : State := on State.reset (fun m => { m with fab.transit := [⟨8, 0, ⟨⟨5, false, false⟩, false, false, 0⟩, none⟩] })
theorem wit_TokenArrives : (arriveS.m.fab.transit[0]?).isSome = true ∧ (chanOf arriveS.m 0).node = 0 ∧ (chanOf arriveS.m 0).pendNode = none
    ∧ (chanOf arriveS.m 0).ring = [] ∧ (chanOf arriveS.m 0).fifo.length < fifoCap (chanOf arriveS.m 0)
    ∧ (arriveS.m.fab.transit.take 0).all (fun x => x.src != 8 || x.dst != 0) = true := by decide
/-- A unit after a word with a sequencing field, a call depth and a count in s31. -/
def seqS (q : Nat) (link : List Nat) (c : Nat) : Mach := { State.reset.m with
  seq.units := [(0, { SUnit.reset with seqf := q * 2 ^ 21, link := link, s := [(31, BitVec.ofNat 64 c)], run := .running })] }
/-- A condition of unit 0 that is registered in Pending. -/
def pendR : Req := ⟨5, .unit 0 0, 0, 0, 0, .zero, .mwait, 5, true, false, none, none, true, none, none, false, none⟩
theorem wit_Sequencing : (seqS 0 [] 0).ctl = .seq ∧ unitWaits (seqS 0 [] 0) 0 = false ∧ (unitOf (seqS 0 [] 0) 0).loops = []
    ∧ (∀ q < 8, (unitOf (seqS q [] 0) 0).seqf / 2 ^ 21 % 8 = q) ∧ (unitOf (seqS 3 [1, 2, 3, 4, 5, 6, 7] 0) 0).link.length < 8
    ∧ (unitOf (seqS 3 [1, 2, 3, 4, 5, 6, 7, 8] 0) 0).link.length = 8 ∧ (unitOf (seqS 4 [9] 0) 0).link = [9] ∧ pendingOf (seqS 5 [] 0) 0 = []
    ∧ pendingOf { seqS 5 [] 0 with mem.reqs := [pendR] } 0 ≠ [] ∧ sReg (seqS 6 [] 1) 0 31 ≤ 1 ∧ 1 < sReg (seqS 6 [] 2) 0 31
    ∧ sStarts G.m 0 0 [.r 1] [] = true ∧ payOf G.m .whole (.r 1) % 2 ^ 32 = 0 ∧ payOf G.m .whole (.imm 3) % 2 ^ 32 ≠ 0
    ∧ sStarts G.m 0 0 [.imm 3] [] = true ∧ (unitOf G.m 0).loops.length < 4 ∧ (unitOf G.m 0).link.length < 8 := by decide
def loopS : State := on G (fun m => setUnit m 0 { SUnit.reset with loops := [⟨1, 5, 2⟩] })
theorem wit_Sequencing_loops : (unitOf loopS.m 0).loops = ⟨1, 5, 2⟩ :: [] ∧ bitAt (unitOf loopS.m 0).p.toNat 7 = !true
    ∧ (∀ t ∈ (unitOf loopS.m 0).loops.head?, 0 + 5 ≤ t.fin) := by decide
/-- A result for s31 of unit 0 is outstanding. -/
theorem wit_Sequencing_s31 : sOutstanding { seqS 6 [] 1 with mem.reqs := [{ pendR with dst := .sreg 0 31 }] } 0 31 = true
    ∧ sOutstanding (seqS 6 [] 1) 0 31 = false ∧ sOutstanding (seqS 6 [] 2) 0 31 = false
    ∧ unitWaits { seqS 6 [] 1 with mem.reqs := [{ pendR with dst := .sreg 0 31 }] } 0 = false := by decide
/-- A shepherd core with a firmware region of 64 KB at 0 whose first words are given; pasture 0 is live on core 0. -/
def fw (ws : List Nat) : State := on U (fun m => { live m with
  host.fwSize := 65536
  mem.hbm := ((upto ws.length).map (fun i => (8 * i, (ws[i]?).getD 0))).foldl (fun t e => memWrite t e.1 8 e.2) []
  seq.units := [(128, { SUnit.reset with base := 0x7F0000000000, run := .running })] })
/-- s1 holds an address in the firmware region. -/
def fwA (ws : List Nat) : State := on (fw ws) (fun m => setSReg m 128 1 0x7F0000000000)
theorem wit_ArmAndLaunch : sStarts (fwA [1, 0]).m 128 0 [.r 1, .imm 2] [.r 3] = true
    ∧ (match armCheck (fwA [1, 0]).m (.unit 128 0) 0 0x7F0000000000 2 with | .ok es => es == [(0, 0, 0)] | .error _ => false) = true
    ∧ (match armCheck (fwA [1, 0]).m (.unit 128 0) 0 0x7F0000000000 0 with | .ok _ => false | .error c => c == 0x20) = true
    ∧ freeTicket (fwA [1, 0]).m 128 = some 0 ∧ (unitOf (fwA []).m 128).run = .running
    ∧ (coresOf (fwA []).m 0).any (fun c => clusterOf c == 0) = true ∧ freeGraphCtx (fwA []).m 0 = some 0 := by decide
/-- Pasture 0 owns cores 0 and 1 and the scratchpad of core 0; its table at 1 MB maps the first 1 GB to itself. -/
def mapped (m : Mach) : Mach := { live m with
  sys.past := [(0, { Pasture.reset with st := .live, cset := 3, xroot := 0x100000 })], sys.ranges := [(0, ⟨0, 2047, 0⟩)]
  mem.hbm := memWrite (memWrite (memWrite m.mem.hbm 0x100000 8 (0x101000 + 385)) 0x101000 8 (0x102000 + 385)) 0x102000 8 263 }
/-- Words at an address of HBM. -/
def store (a : Nat) (ws : List Nat) (m : Mach) : Mach :=
  { m with mem.hbm := (upto ws.length).foldl (fun h i => memWrite h (a + 8 * i) 8 ((ws[i]?).getD 0)) m.mem.hbm }
/-- The shepherd core of cluster 0 acts for pasture 0, which is live on core 0. -/
def UL : State := on U live
/-- The graph contexts of cluster 0 run, or its shepherd core's tickets are open. -/
def busyC (m : Mach) : Mach := { m with seq.units := (upto 8).map (fun u => (u, { SUnit.reset with run := .running })) }
theorem wit_ArmAndLaunch_room : freeGraphCtx (busyC (mapped State.reset.m)) 0 = none
    ∧ (coresOf (busyC (mapped State.reset.m)) 0).any (fun c => clusterOf c == 0) = true
    ∧ (∀ m ∈ [busyC (mapped State.reset.m), mapped State.reset.m],
      (match virtLocs m (.unit 0 0) 0 64 8 .fetch with | .ok _ => true | .error _ => false) = true)
    ∧ (coresOf (mapped State.reset.m) 0).any (fun c => clusterOf c == 0) = true ∧ freeGraphCtx (mapped State.reset.m) 0 = some 0
    ∧ freeTicket (setUnit (mapped State.reset.m) 128 { SUnit.reset with tickets := (upto 16).map (fun e => (e, ⟨0, true, false, 9⟩)) }) 128 = none := by decide +kernel
theorem wit_ControlRegisters : sStarts U.m 128 0 [.r 1] [.r 3] = true ∧ sStarts U.m 128 0 [.r 1, .r 2] [] = true
    ∧ (match getcVal U.m 128 0x20 0 with | .ok v => v == 0 | .error _ => false) = true
    ∧ (match getcVal G.m 0 0x20 0 with | .ok _ => false | .error _ => true) = true ∧ roSelector 0x20 = false ∧ roSelector 0x00 = true
    ∧ (match getcVal U.m 128 0x00 0 with | .ok _ => true | .error _ => false) = true
    ∧ early (pastOf U.m 0) = true ∧ early (pastOf (fw []).m 0) = false ∧ (pastOf U.m 15).st = .free := by decide
def ticketS : State := on G (fun m => setUnit m 0 { SUnit.reset with tickets := [(0, ⟨0, true, false, 9⟩)] })
def waitS : State := on State.reset (fun m => setUnit m 128 { SUnit.reset with run := .waiting })
theorem wit_WaitsAndEvents : sStarts ticketS.m 0 0 [.r 1] [.r 3] = true ∧ staleTicket G.m 0 0 = true ∧ staleTicket ticketS.m 0 0 = false
    ∧ (unitOf waitS.m 128).run = .waiting ∧ pendingOf waitS.m 128 = [] ∧ isShepherd 128 = true ∧ (unitOf waitS.m 128).loops = []
    ∧ waitS.m.mem.reqs = [] ∧ pendingOf { seqS 5 [] 0 with mem.reqs := [pendR] } 0 ≠ []
    ∧ sStarts G.m 0 0 [.imm 63, .r 2] [] = true ∧ payOf G.m .whole (.imm 63) ≤ 63 ∧ eventHeld G.m (.unit 0 0) G.m.ids = false
    ∧ 63 < payOf (on G (fun m => setSReg m 0 1 64)).m .whole (.r 1) := by decide

/-- The words of the traps: a reserved selector, and SETC of a read-only one in a graph context. -/
theorem wit_ControlRegisters_decode : (opRow 0xD7).isSome = true ∧ (opRow 0xD8).isSome = true ∧ selectorOk 6 = false ∧ selectorOk 0x27 = false
    ∧ roSelector 0x02 = true ∧ (∀ k ∈ [UKind.graph, UKind.shepherd], (opRow 0xD7).any (operandsOk k false false ⟨0xD7, 0, 6, 0, 0⟩) = true
      ∧ (opRow 0xD8).any (operandsOk k false false ⟨0xD8, 6, 0, 0, 0⟩) = true
      ∧ (opRow 0xD8).any (operandsOk k false false ⟨0xD8, 2, 0, 0, 0⟩) = true) := by decide
/-- A register in range and one out of it, for each clause; three pastures share core 5. -/
def csetS : State := on U (fun m => { m with sys.past := [1, 2, 3].map (fun p => (p, { Pasture.reset with cset := 2 ^ 5 })) })
theorem wit_ControlRegisters_ranges : coreIn boundS.m (pastOfActor boundS.m (.unit 128 (unitOf boundS.m 128).w)) (0 / 8) = true
    ∧ coreIn boundS.m (pastOfActor boundS.m (.unit 128 (unitOf boundS.m 128).w)) (8 / 8) = false
    ∧ isShepherd 0 = false ∧ isShepherd 128 = true ∧ (0x27 : Nat) ≠ 0x20 ∧ 15 % 16 ≥ 12 ∧ early (pastOf U.m 15) = true ∧ (pastOf U.m 15).st = .free
    ∧ (pastOf (on U (fun m => { m with sys.past := [(15, { Pasture.reset with st := .halted })] })).m 15).st = .halted
    ∧ 3 ≤ ((upto 16).filter (fun q => q != 0 && bitAt (pastOf csetS.m q).cset (64 * 0 + 5))).length
    ∧ ¬3 ≤ ((upto 16).filter (fun q => q != 1 && bitAt (pastOf csetS.m q).cset (64 * 0 + 5))).length := by decide
/-- The work of a ticket has ended: a section with two aborted activations, or a child graph that halted with cause 0x14. -/
def seqwR (e : Nat) : Req := ⟨5, .unit 0 0, 0, 2 ^ 64, 0, .sreg 0 3, .seqw e 0, 5, true, false, none, none, true, none, none, false, none⟩
def doneW (child : Bool) : State := on State.reset (fun m => { setUnit (live m) 0 { SUnit.reset with run := .waiting, tickets := [(2, ⟨0, true, child, 9⟩)] } with
  mem.reqs := [seqwR 2], seq.sections := [(9, { sect7 with aborted := 2, complete := true })]
  seq.graphs := [(9, ⟨0, 0, none, true, true, 0x14, 0, true⟩)] })
theorem wit_WaitsAndEvents_done : ∀ c ∈ [false, true], seqwR 2 ∈ (doneW c).m.mem.reqs ∧ (seqwR 2).who = .unit 0 0 ∧ (seqwR 2).op = .seqw 2 0
    ∧ (seqwR 2).dst = .sreg 0 3 ∧ (∀ q ∈ (doneW c).m.mem.reqs, q ≠ seqwR 2 → seqwReady (doneW c).m 0 q = none)
    ∧ (unitOf (doneW c).m 0).seqf / 2 ^ 21 % 8 ≠ 6 ∧ ofUnit (doneW c).m 0 (seqwR 2).past (seqwR 2).who = true
    ∧ tfind 2 (unitOf (doneW c).m 0).tickets = some ⟨0, true, c, 9⟩ ∧ workDone (doneW c).m 9 c = true := by decide
/-- An earlier store of graph context 0 is to be performed. -/
def evHeld : State := on G (fun m => { m with ids := 6, mem.reqs := [{ pendR with op := .store (.scratch 0) 4 1 }] })
theorem wit_WaitsAndEvents_held : sStarts evHeld.m 0 0 [.imm 63, .r 2] [] = true
    ∧ eventHeld (readDone evHeld.m [.imm 63, .r 2] []) (.unit 0 0) (readDone evHeld.m [.imm 63, .r 2] []).ids = true
    ∧ (unitOf waitS.m 128).seqf / 2 ^ 21 % 8 ≠ 6 ∧ (unitOf (seqS 5 [] 0) 0).seqf / 2 ^ 21 % 8 ≠ 6 ∧ pendR.op = .mwait := by decide
/-! ## Witnesses: memory and synchronisation -/

/-- A request that keeps the translation of the first 64 KB, by the leaf `e` (7: local, readable and writable). -/
def rq (op : ReqOp) (e : Nat := 7) (dst : Dst := .drop) (who : Actor := .pe 0 0 0 0 0 false) : Req :=
  ⟨5, who, 0, 0, 0, dst, op, 5, false, false, none, none, false, none, some (0, e), false, none⟩
/-- The leaf of a page of package 5. -/
def peerE : Nat := 5 * 2 ^ 52 + 32 + 7
def withR (r : Req) : State := on State.reset (fun m => { m with mem.reqs := [r], fab.tx := [(40, Lane.fresh none)] })
/-- The one lit lane to package 5 takes the flits of every line. -/
theorem lane_open (m : Mach) (r : Req) (h : m.fab.tx = [(40, Lane.fresh none)]) (g : viaGate m 5 = false) (i : mayIssue m r = true)
    (q : (sentTo m r (nextLocs m r)).all (fun x => x.1 == 5) = true) : mayPerform m r = true := by
  have hl : ∀ line, lineHeld m 5 line = false := fun line => by
    have k : lanesTo m 5 = [40] := by simp only [lanesTo, h, g]; decide
    simp only [lineHeld, laneFor, k, g, h, List.length_singleton, Nat.mod_one]
    simp [tfind, laneRefuses, Lane.fresh]
  have ha : laneHeld m r (nextLocs m r) = false := by
    rw [laneHeld, List.any_eq_false]
    intro x hx
    have e : x.1 = 5 := by simpa using List.all_eq_true.1 q x hx
    rw [e, hl]
    decide
  rw [mayPerform, i, ha]; rfl
/-- ARM's other outcomes: a descriptor that an earlier store is to write, and a unit whose sixteen tickets are open. -/
def ticketsS : State := on (fwA [1, 0]) (fun m => setUnit m 128 { unitOf m 128 with tickets := (upto 16).map (fun e => (e, ⟨0, true, false, 9⟩)) })
def heldArm : State := on (fw [1, 0]) (fun m => { setSReg m 128 1 0x7F0000010000 with
  host.fwData := 65536, ids := 6, mem.reqs := [{ rq (.store (.virt 0x7F0000010000) 8 1) with who := .unit 128 0, xlat := none }] })
theorem wit_ArmAndLaunch_fails : readsHeld (readDone heldArm.m [.r 1, .imm 2] [.r 3]) (.unit 128 0) 0x7F0000010000 armSize = true
    ∧ sStarts heldArm.m 128 0 [.r 1, .imm 2] [.r 3] = true ∧ payOf heldArm.m .whole (.r 1) % 2 ^ 56 = 0x7F0000010000
    ∧ readsHeld (fwA [1, 0]).m (.unit 128 0) 0x7F0000000000 armSize = false ∧ freeTicket ticketsS.m 128 = none
    ∧ sStarts ticketsS.m 128 0 [.r 1, .imm 2] [.r 3] = true
    ∧ (match armCheck ticketsS.m (.unit 128 0) 0 0x7F0000000000 2 with | .ok _ => true | .error _ => false) = true
    ∧ (coresOf U.m 0).any (fun c => clusterOf c == 0) = false
    ∧ (match virtLocs UL.m (.unit 0 0) 0 0 8 .fetch with | .ok _ => false | .error _ => true) = true
    ∧ (coresOf UL.m 0).any (fun c => clusterOf c == 0) = true := by decide +kernel
def ldR : Req := rq (.load (.virt 64) 4 false)
/-- Handle 1 waits for request 9. -/
def handW : State := on P (fun m => { m with pe.hpend := [(1, 9)] })
theorem wit_LoadsAndStores_pending : handStall handW.m [1] = false ∧ handPend handW.m (handOwner handW.m.cur) 1 = some 9
    ∧ (readHand handW.m 1).2 = some 9 ∧ memStarts handW.m [.r 1] [] [] = true ∧ memStarts handW.m [] [.r 3] [] = true
    ∧ memStarts atomicS.m [.r 2, .r 1] [] (pairReg atomicS.m true (.r 2)) = true ∧ handStall atomicS.m [15] = false := by decide
def stR : Req := rq (.store (.virt 64) 4 0x11223344)
/-- The request may be performed at local places. -/
def okAt (r : Req) (pl : Place) (n : Nat) (k : AccK) : Bool :=
  mayPerform (withR r).m r && (match targetOf (withR r).m r pl n k with
    | .at ls => faultR (withR r).m r k.writes ls == none && !ls.any isOutside && allKept (withR r).m ls
      && !heldByResv (withR r).m (ctxCode r.past r.who) ls
    | _ => false)
theorem wit_RequestFrame : (∀ x ∈ inChans [.inC 7, .r 1], x < 8) ∧ (0 : Nat) < 16 := by decide
theorem wit_LoadsAndStores : memStarts P.m [.r 1, .r 0] [.r 3] (pairReg P.m true (.r 3)) = true
    ∧ memStarts U.m [.r 1, .r 2] [.r 4] (pairReg U.m true (.r 4)) = true ∧ handStall P.m [15] = false ∧ inAtomic P.m = false
    ∧ inAtomic atomicS.m = true ∧ memStarts atomicS.m [.r 1, .r 2] [] (pairReg atomicS.m false (.r 2)) = true
    ∧ handPend P.m (handOwner P.m.cur) 15 = none ∧ (readHand P.m 15).2 = none ∧ memStarts P.m [] [.outC 1] [] = true := by decide
/-- A load of slot 0 of PE 0 of core 0 for out1, and a later one of the same slot in another bank. -/
def outQ : Req := { ldR with dst := .out 0 0 1 0 }
def outR : Req := { ldR with id := 6, dst := .out 0 0 1 3 }
def heldOut : State := on P (fun m => { m with mem.reqs := [outQ], ids := 6 })
theorem wit_LoadsPerformed : reqOf (withR ldR).m 5 = some ldR ∧ okAt ldR (.virt 64) 4 .rd = true
    ∧ (let r := rq (.load (.virt 64) 4 false) peerE
       match targetOf (withR r).m r (.virt 64) 4 .rd with
        | .at ls => faultR (withR r).m r false ls == none && ls.any isOutside && failOk r ls 0x0D 5 | _ => false) = true
    ∧ (let r := rq (.load (.virt 65) 4 false)
       okAt r (.virt 65) 4 .rd && misaligned ((upto 4).map (fun i => Loc.hbm (65 + i)))) = true
    ∧ tfind 5 (withR ldR).m.mem.torn = none ∧ (withR ldR).m.sync.touched = [] ∧ (∀ p < 16, (pastOf (withR ldR).m p).ending = none)
    ∧ (let s := on (withR ldR) (fun m => { m with mem.badHbm := [1] })
       mayPerform s.m ldR && (match targetOf s.m ldR (.virt 64) 4 .rd with | .at ls => faultR s.m ldR false ls == some (1, 64) | _ => false)) = true
    ∧ (let r := rq (.load (.virt 64) 4 false) 1
       mayPerform (withR r).m r && targetOf (withR r).m r (.virt 64) 4 .rd == .bad 0x02 64) = true
    ∧ okAt (rq (.load (.virt 64) 4 false) 7 (.sreg 128 3) (.unit 128 0)) (.virt 64) 4 .rd = true ∧ isShepherd 128 = true
    ∧ (match leafR (withR ldR).m ldR 64 with | .ok e => bits e 5 2 != 3 | .error _ => false) = true
    ∧ outQ ∈ heldOut.m.mem.reqs ∧ outQ.id < outR.id ∧ sameSlot outR outQ = true ∧ outQ.dst = .out 0 0 1 0 ∧ outR.dst = .out 0 0 1 3
    ∧ heldOut.m.cur = .pe 0 0 0 0 0 false := by decide
/-- Two loads of a loader tile that its coalescing unit has merged, and a pair of which one waits for its handle. -/
def pairS (b : Req) : State := on (withR ldR) (fun m => { m with ids := 7, mem.reqs := [ldR, { b with id := 6 }], copy.merged := [(5, 1), (6, 1)] })
/-- A snapshot of a page with no bytes below its frontier. -/
def snapR : Req := rq (.load (.hand 0 1 (BitVec.ofNat 256 (2 * 2 ^ 57 + 7 * 2 ^ 60)) 0) 4 false) 31
def snapS : State := on (withR snapR) (fun m => { m with mem.apps := [(0, { AppRec.reset with slots := [(0, (0, 0))] })] })
theorem wit_LoadsPerformed_merged : mergedWith (withR ldR).m ldR = [] ∧ mergedFault (withR ldR).m ldR = none ∧ ldR.op = .load (.virt 64) 4 false
    ∧ mergedWith (pairS ldR).m ldR = [{ ldR with id := 6 }] ∧ mergedMay (pairS ldR).m ldR = true
    ∧ mergedFault (pairS ldR).m ldR = none ∧ mayPerform (pairS ldR).m ldR = true
    ∧ mergedMay (pairS { ldR with hwait := some 3 }).m ldR = false
    ∧ (let m := (on (pairS ldR) (fun m => { m with mem.badHbm := [1] })).m
       (mergedFault m ldR).isSome = true ∧ mayPerform m ldR = true)
    ∧ (match targetOf (withR ldR).m ldR (.virt 64) 4 .rd with | .at ls => !misaligned ls && !ls.any isOutside | _ => false) = true
    ∧ mergedFault snapS.m snapR = none ∧ mayPerform snapS.m snapR = true ∧ targetOf snapS.m snapR (.hand 0 1 (BitVec.ofNat 256 (2 * 2 ^ 57 + 7 * 2 ^ 60)) 0) 4 .rd = .beyond := by decide
/-- A flit of a load from package 5 is discarded, once more or for the fourth time. -/
def sentR : Req := rq (.load (.virt 64) 4 false) peerE
theorem wit_LoadsPerformed_discarded : sentTo (withR sentR).m sentR (reqLocs (withR sentR).m sentR) = (5, 1) :: []
    ∧ sentTo (withR ldR).m ldR (reqLocs (withR ldR).m ldR) = [] ∧ tget 0 5 (withR sentR).m.fab.resent < 3
    ∧ 3 ≤ tget 0 5 (on (withR sentR) (fun m => { m with fab.resent := [(5, 3)] })).m.fab.resent := by decide
/-- A load from package 5 may be performed: its lane is lit. -/
theorem wit_LoadsPerformed_peer : mayPerform (withR (rq (.load (.virt 64) 4 false) peerE)).m (rq (.load (.virt 64) 4 false) peerE) = true :=
  lane_open _ _ rfl (by decide) (by decide) (by decide)
/-- R204: a token emitted while an earlier load holds its place on the output waits behind it. -/
theorem test_emit_waits_behind_load : (match exec (.mov ⟨false⟩ (.outC 1) (.imm 5)) heldOut with
    | .next t => t.m.mem.reqs.map (·.done) == [false, true] && (flush t.m).mem.reqs.length == 2
      && (finishTok t.m 5 [tokNat 9]).mem.reqs.isEmpty
    | _ => false) = true := by decide
/-- A store to package 5, which has failed. -/
def peerR : Req := rq (.store (.virt 64) 4 1) peerE
def failedS : State := on (withR peerR) (fun m => { m with fab.failed := [5] })
theorem wit_StoresPerformed_peer : mayPerform failedS.m peerR = true := lane_open _ _ rfl (by decide) (by decide) (by decide)
theorem wit_StoresPerformed : reqOf (withR stR).m 5 = some stR ∧ okAt stR (.virt 64) 4 .wr = true
    ∧ (match targetOf failedS.m peerR (.virt 64) 4 .wr with | .at ls => faultR failedS.m peerR true ls == some (0x09, 5) | _ => false) = true
    ∧ (let r := rq (.store (.virt 65) 4 1)
       okAt r (.virt 65) 4 .wr && misaligned ((upto 4).map (fun i => Loc.hbm (65 + i)))) = true
    ∧ isTile 144 = true ∧ (let r := rq (.store (.virt 64) 4 1) 7 .drop (.unit 144 0)
       okAt r (.virt 64) 4 .wr && decide (reqOf (withR r).m 5 = some r) && decide ((bucketOf (withR r) 144).level = 0)) = true
    ∧ (bucketOf (putBucket State.reset 144 ⟨1, 1, 1, 1⟩) 144).level = 1
    ∧ tfind 5 (withR stR).m.mem.torn = none ∧ (withR stR).m.sync.touched = [] ∧ (∀ p < 16, (pastOf (withR stR).m p).ending = none)
    ∧ (let r := rq (.store (.virt 64) 4 1) 3
       mayPerform (withR r).m r && targetOf (withR r).m r (.virt 64) 4 .wr == .bad 0x02 64) = true := by decide
/-- Merged stores of a storer tile, one of which fails; a tile whose port has credit for one of two flits. -/
def tileR : Req := rq (.store (.virt 64) 4 1) 7 .drop (.unit 144 0)
def tilePair (e : Nat) : State := on (withR tileR) (fun m => { m with ids := 7, mem.reqs := [tileR, { tileR with id := 6, xlat := some (0, e) }], copy.merged := [(5, 1), (6, 1)] })
theorem wit_StoresPerformed_merged : mergedWith (withR stR).m stR = [] ∧ mergedFault (withR stR).m stR = none
    ∧ mergedFault (tilePair 7).m tileR = none ∧ mergedMay (tilePair 7).m tileR = true ∧ mayPerform (tilePair 7).m { tileR with id := 6 } = false ∧ mayPerform (tilePair 7).m tileR = true
    ∧ (mergedFault (tilePair 3).m tileR).isSome = true ∧ mayPerform (tilePair 3).m tileR = true
    ∧ tget 0 5 (withR tileR).pow.paid = 0 ∧ max 1 ((16 + 15) / 16) = 1 ∧ reqOf { (withR tileR).m with mem.reqs := [] } 5 = none := by decide
/-- Core 0 has a record and a stage routine whose stores are being committed. -/
def bufE : BufStore := ⟨none, .pe 0 0 0 0 0 false, .virt 0, 4, 1, 0, false, none, none⟩
def commitS (k : ActKind) (rest : List BufStore) : State := on State.reset (fun m => { live m with
  pe.binds := [(0, ⟨0, k, 1, true, none⟩)], pe.commit := [(0, bufE :: rest)] })
theorem wit_CommitOrder : [bufE].Pairwise (fun x y => bufBefore y x = false) ∧ livePast (commitS (.record 7) []).m 0 = some 0
    ∧ running (commitS (.record 7) []).m 0 = true ∧ (tfind 0 (commitS (.record 7) []).m.pe.binds).map (·.ending) = some true
    ∧ tget [] 0 (commitS (.routine 0 1) []).m.pe.commit = [bufE] ∧ tget [] 0 (commitS (.record 7) [bufE]).m.pe.commit = [bufE, bufE] := by decide
/-- A buffered store whose handle a SNAP is to write. -/
theorem wit_CommitOrder_waits : ({ bufE with hwait := some 3 } : BufStore).hwait.isSome = true ∧ bufE.hwait = none := by decide
/-- Handle 1 is an index array of 16 words, handle 2 an array of 8-byte elements, handle 3 a window. -/
def handS : State := on P (fun m => setHand (setHand (setHand m 0 1 (BitVec.ofNat 256 (64 * 2 ^ 64 + 2 ^ 60 + 2 * 2 ^ 57))) 0 2
  (BitVec.ofNat 256 (1024 * 2 ^ 64 + 2 ^ 60 + 3 * 2 ^ 57))) 0 3 (BitVec.ofNat 256 (6 * 2 ^ 60)))
def winS : State := on handS (fun m => { m with mem.windows := (upto 16).map (fun w => (w, ⟨false, false, 0, 0, 0⟩)) })
theorem wit_WindowsAndPages : handStall handS.m [0, 1, 2] = false ∧ handOwner handS.m.cur = 0
    ∧ (upto 16).find? (fun w => !thas (0 * 16 + w) handS.m.mem.windows) = some 0
    ∧ (readHand handS.m 1).2 = none ∧ windowOk (readHand handS.m 1).1 (readHand handS.m 2).1 = true
    ∧ windowOk (readHand handS.m 2).1 (readHand handS.m 2).1 = false ∧ ((upto 16).all (fun w => thas (0 * 16 + w) winS.m.mem.windows)) = true
    ∧ hType (readHand winS.m 3).1 = 6 ∧ (tfind 0 winS.m.mem.windows).isSome = true
    ∧ winS.m.mem.reqs = [] ∧ pastOfActor winS.m winS.m.cur = 0 ∧ bits (hAux0 (readHand winS.m 3).1) 0 4 = 0
    ∧ (pastOf winS.m 0).image = none ∧ handStall winS.m [3] = false ∧ (readHand winS.m 3).2 = none
    ∧ (let r := { rq (.load (.hand 0 3 (readHand winS.m 3).1 0) 4 false) with granted := some (0, 1) }
       throughWindow r 0 0 && !r.done && (r.granted.isSome || (r.hwait.isNone && posReady winS.m r))) = true
    ∧ (pastOf (withR (rq (.wfree 0 3 0))).m 0).image = none
    ∧ (withR (rq (.wfree 0 3 0))).m.mem.reqs.any (fun q => throughWindow q 0 0 && !q.done && q.granted.isSome) = false
    ∧ memStarts P.m [.r 1, .r 2] [] (pairReg P.m true (.r 1)) = true ∧ pftOk (64 * 2 ^ 96) = true := by decide
theorem wit_WindowsAndPages_pending : handStall handW.m [2, 1, 0] = false ∧ (readHand handW.m 1).2.isSome = true := by decide
/-- A load through the window is under way as WFREE closes it. -/
def winB : State := on winS (fun m => { m with ids := 6, mem.reqs := [{ rq (.load (.hand 0 3 (readHand winS.m 3).1 0) 4 false) with granted := some (0, 1) }] })
theorem wit_WindowsAndPages_busy : (winB.m.mem.reqs.any (fun r => throughWindow r (pastOfActor winB.m winB.m.cur) 0 && !r.done
      && (r.granted.isSome || (r.hwait.isNone && posReady winB.m r)))) = true ∧ (∀ r ∈ winB.m.mem.reqs, r.id < winB.m.ids)
    ∧ (∀ r ∈ winS.m.mem.reqs, r.id < winS.m.ids) := by decide
def fenceR : Req := rq (.fence .ar none)
/-- A prefetch of one unit to the scratchpad of core 0, all of which is pasture 0's. -/
def pftR : Req := rq (.pft (64 * 2 ^ 96) 128)
def pftS : State := on (withR pftR) (fun m => { m with sys.ranges := [(0, ⟨0, 2047, 0⟩)] })
theorem wit_FencesAndWalks : isFence fenceR = true ∧ posReady (withR fenceR).m fenceR = true
    ∧ (withR fenceR).m.mem.reqs.any (fenceWaits (withR fenceR).m fenceR) = false
    ∧ (let s := on State.reset (fun m => { m with mem.reqs := [{ ldR with id := 4 }, fenceR] })
       s.m.mem.reqs.any (fenceWaits s.m fenceR)) = true
    ∧ mayPerform pftS.m pftR = true ∧ rangeHeld pftS.m pftR = false ∧ 128 % 8 = 0
    ∧ (match pftUnit pftS.m pftR (64 * 2 ^ 96) [] 0 with | .ok _ => true | .error _ => false) = true
    ∧ timesOut ldR = true ∧ mayPerform (withR ldR).m ldR = true ∧ peerOfReq (withR ldR).m ldR = none
    ∧ (let r := { rq (.load (.virt 64) 4 false) peerE with scope := 6 }
       timesOut r && mayIssue (withR r).m r && peerOfReq (withR r).m r == some 5 && decide (6 ≤ timeScope (withR r).m r)) = true
    ∧ (∀ l ∈ awaited (withR ldR).m ldR, l = .hbm 64 ∨ l = .hbm 65 ∨ l = .hbm 66 ∨ l = .hbm 67)
    ∧ rowsHeld pftS.m [.hbm 0] = false ∧ laneHeld pftS.m pftR [.hbm 0] = false
    ∧ (let q := { rq (.load (.virt 64) 4 false) peerE with id := 4 }
       let s := on State.reset (fun m => { m with mem.reqs := [q, fenceR] })
       (markFences s.m).mem.reqs.any (fun r => r.past == 0 && isFence r && posReady (markFences s.m) r
         && (owing (markFences s.m) 0 5).any (fun q => fenceWaits (markFences s.m) r q))) = true
    ∧ (on State.reset (fun m => { m with fab.failed := [5] })).m.fab.failed.contains (0 * 512 + 5) = true
    ∧ owing (markFences failedS.m) 0 5 = [peerR] ∧ reqVa ldR = some 64 ∧ isShepActor (.unit 128 0) = true := by decide
/-- The prefetch goes on to its arrival: no reservation, or one of another context, holds its object's word; its object on package 5. -/
def pftM (s : State) : Mach := sendFlits (countUnits s.m pftR [1, 2]) pftR (nextLocs s.m pftR)
theorem wit_FencesAndWalks_pft : mayIssue pftS.m pftR = true ∧ pftR.granted = none ∧ pftLaneHeld pftS.m pftR (64 * 2 ^ 96) 128 [] = false
    ∧ itemHeld pftS.m 0 0 = false ∧ (match virtR pftS.m pftR 128 8 .atomW with
      | .ok ls => faultR pftS.m pftR false ls == none && ((ls.head?).bind (unitFault pftS.m pftR [] 2 0)).isNone
        && !heldByResv pftS.m (ctxCode pftR.past pftR.who) ls && !ls.any isOutside
        && heldByResv (on pftS (fun m => { m with sync.resv := [(128 * 16 + 8, 99)] })).m (ctxCode pftR.past pftR.who) ls
      | .error _ => false) = true
    ∧ (match virtR pftS.m { pftR with xlat := some (0, peerE) } 128 8 .atomW with | .ok ls => ls.any isOutside | .error _ => false) = true := by decide
/-- FTO passes for an access to package 5 at a scope below system; the fences of a pasture none of whose accesses go to package 6. -/
theorem wit_FencesAndWalks_times : (let r := { rq (.load (.virt 64) 4 false) peerE with scope := 2 }
      peerOfReq (withR r).m r = some 5 ∧ 6 ≤ timeScope (withR r).m r)
    ∧ owing (markFences (withR fenceR).m) 0 6 = []
    ∧ ((markFences failedS.m).fab.failed.contains (0 * 512 + 5)) = true ∧ ((markFences (withR fenceR).m).fab.failed.contains (0 * 512 + 5)) = false := by decide
theorem wit_FencesAndWalks_walk : (match walk (fw []).m true 0 0x7F0000000000 with | .ok _ => true | .error _ => false) = true := by decide +kernel
theorem wit_SyncIssues : memStarts P.m [.r 1, .r 2] [.outC 1] [] = true ∧ payOf P.m .whole (.r 1) % 2 ^ 64 % 16 = 0
    ∧ memStarts U.m [.imm 5, .r 2] [.r 3] [] = true ∧ payOf U.m .whole (.imm 5) % 2 ^ 64 % AmoOp.bytes .add4 ≠ 0
    ∧ memStarts U.m [.r 1, .r 2] [.r 4] (pairReg U.m true (.r 2)) = true ∧ memStarts P.m [] [] [] = true
    ∧ (let m := (on P (fun m => { m with sync.groups := [(3, ⟨[0], [], 0, 0⟩)] })).m
       (tfind (pastOfActor m m.cur * 256 + 3) m.sync.groups).map (·.members.contains (ctxKey 0 0 0))) = some true := by decide
/-- m1, and s1 of a shepherd core, hold an address that no width divides. -/
def oddP : State := on P (fun m => setPeReg m 0 0 0 1 (Val.ofNat 1))
def oddU : State := on U (fun m => setSReg m 128 1 1)
theorem wit_SyncIssues_misaligned : ∀ s ∈ [oddP, oddU], (∀ n ∈ [4, 8, 16], payOf s.m .whole (.r 1) % 2 ^ 64 % n ≠ 0)
    ∧ memStarts s.m [.r 1, .r 2] [.r 3] [] = true ∧ memStarts s.m [.r 1, .r 2] [] [] = true ∧ memStarts s.m [.r 1] [.r 3] [] = true
    ∧ (∀ w, memStarts s.m [.r 1, .r 2] [.r 3] (pairReg s.m w (.r 2)) = true) := by decide
def amoR (op : ReqOp) : Req := rq op
theorem wit_EngineServes_writes : modifies (amoR (.amo .add8 64 3 false)) = true ∧ waitsThere (amoR (.amo .add8 64 3 false)) = false
    ∧ waitsThere (amoR (.waita 64 4 .ne 3)) = true ∧ heldByResv (withR (amoR (.amo .add8 64 3 false))).m 0 [.hbm 64] = false
    ∧ (amoR (.futr 64)).res = none ∧ (64 : Nat) < 255 * 2 ^ 56 ∧ AccK.atomW ≠ AccK.app ∧ AccK.atomR ≠ AccK.snap := by decide
theorem wit_EngineServes : (1 : Nat) < 2 ^ 32 ∧ reqPlace (amoR (.amo .add4 64 3 true)) = some (.virt 64, 4, .atomW)
    ∧ (∀ op ∈ [ReqOp.amo .add8 64 3 false, .cas 64 4 0 1, .cas 64 4 7 1, .arrive 64 1, .futw 64 9],
        okAt (amoR op) (.virt 64) 4 .atomW = true ∧ (amoR op).granted = none)
    ∧ (∀ op ∈ [ReqOp.waita 64 4 .ne 3, .waitc 64 1 false, .futr 64], okAt (amoR op) (.virt 64) 4 .atomR = true)
    ∧ memRead (withR ldR).m.mem.hbm 64 4 = 0 ∧ bitAt (memRead (withR ldR).m.mem.hbm 64 16) 64 = false
    ∧ (match virtR (withR ldR).m ldR 64 4 .atomW with | .ok ls => ls.head? == some (.hbm 64) | .error _ => false) = true
    ∧ bitAt (memRead (on (withR ldR) (fun m => { m with mem.hbm := memWrite [] 64 16 (2 ^ 64) })).m.mem.hbm 64 16) 64 = true
    ∧ wcond 32 .ne 0 3 = true ∧ wcond 32 .ne 3 3 = false
    ∧ okAt (rq (.waita 64 4 .ne 3) 7 (.sreg 128 3) (.unit 128 0)) (.virt 64) 4 .atomR = true
    ∧ (⟨[0, 8], [8], 0, 0⟩ : Group).members.contains 0 = true ∧ (⟨[0, 8], [8], 0, 0⟩ : Group).arrived.contains 0 = false := by decide

/-! ## Witnesses: copies, matrix arrays, selection, indices and queues -/

/-- VEC of a copy of 16 bytes from offset 4,096 to offset 0, completion word at 8,192. -/
def copyV : Nat := 4096 * 2 ^ 32 + 16 * 2 ^ 64 + 8192 * 2 ^ 96
/-- A PE of pasture 0, which owns the scratchpad of core 0: m1 holds a VEC `v`, m2 both scratchpad endpoints. -/
def copyP (v : Nat) : State := on P (fun m => { setPeReg (setPeReg (live m) 0 0 0 1 (Val.ofNat v)) 0 0 0 2 (Val.ofNat (3 * 2 ^ 32)) with
  sys.past := [(0, { Pasture.reset with st := .live, cset := 1 })], sys.ranges := [(0, ⟨0, 2047, 0⟩)] })
def copyF0 : CopyF := ⟨0, 0⟩
/-- Handle 1 waits for request 9. -/
def copyW : State := on (copyP copyV) (fun m => { m with pe.hpend := [(1, 9)] })
def copyJ (v : Nat) : Bool :=
  let m := (copyP v).m
  copyOk (copyMade (readDone m [.r 1, .r 2] [.r 3]) copyF0 (.r 3) 0 v (3 * 2 ^ 32)) (copyNew (readDone m [.r 1, .r 2] [.r 3]) copyF0 0 v (3 * 2 ^ 32) 0 true)
    ⟨0, v, 3 * 2 ^ 32, 0, .sp, .sp, 0, 0⟩
theorem wit_CopiesIssue : handStall (copyP copyV).m [0, 0] = false
    ∧ memStarts (copyP copyV).m [.r 1, .r 2] [.r 3] (pairReg (copyP copyV).m true (.r 1)) = true
    ∧ wideVal (copyP copyV).m (.r 1) % 2 ^ 128 = copyV ∧ payOf (copyP copyV).m .whole (.r 2) % 2 ^ 64 = 3 * 2 ^ 32
    ∧ (readHand (readDone (copyP copyV).m [.r 1, .r 2] [.r 3]) 0).2 = none
    ∧ copyJ copyV = true ∧ copyJ (8192 * 2 ^ 96) = false
    ∧ (readHand (readDone copyW.m [.r 1, .r 2] [.r 3]) 1).2 = some 9 ∧ bitAt 0 33 = false
    ∧ spRead (copyMade (copyP 0).m copyF0 (.r 3) 1 0 (3 * 2 ^ 32)) (copyNew (copyP 0).m copyF0 1 0 (3 * 2 ^ 32) 0 false) 0 32 = some 0 := by decide
/-- The pasture is gated; a COPYA whose descriptor at 16 cannot be read or at 8 is misaligned. -/
def copyG (s : State) : State := on s (fun m => { m with sys.past := [(0, { Pasture.reset with st := .live, cset := 1, gate := some 5 })] })
theorem wit_CopiesIssue_issue : (∀ k ∈ [0, 1, 2], let m := readDone (copyP copyV).m [.r 1, .r 2] [.r 3]
      let r := copyNew m copyF0 k copyV (3 * 2 ^ 32) 0 false
      copyIssues (copyMade m copyF0 (.r 3) k copyV (3 * 2 ^ 32)) r = true ∧ (copyArgs r).isSome = true
        ∧ copyIssues (copyMade (copyG (copyP copyV)).m copyF0 (.r 3) k copyV (3 * 2 ^ 32)) r = false)
    ∧ 8 * 2 ^ 64 / 2 ^ 64 % 16 ≠ 0
    ∧ spRead (copyMade (copyP 0).m copyF0 (.r 3) 1 (2 ^ 19 * 2 ^ 64) 0) (copyNew (copyP 0).m copyF0 1 (2 ^ 19 * 2 ^ 64) 0 0 false)
        (bits (2 ^ 19 * 2 ^ 64) 64 32) 32 = none := by decide
theorem wit_CopiesIssue_desc : copyDesc P.m (copyNew P.m copyF0 0 copyV 0 0 false) 0 copyV 0 := by unfold copyDesc; simp
/-- A copy of pasture 0 in flight. -/
def copyR (g : Option (Nat × Nat)) : Req := { rq (.copy 0 copyV (3 * 2 ^ 32) 0 0 0 0 0 0 true) with granted := g }
def copyS (g : Option (Nat × Nat)) : State := on (copyP copyV) (fun m => { m with mem.reqs := [copyR g] })
def agR : Req := rq (.ag true 4096 0 none)
def plR : Req := rq (.plset 0 5)
theorem wit_StreamsAndCopies : memStarts P.m [.r 1] [.r 2] [] = true ∧ 767 < 768 ∧ 95 < 96 ∧ 65535 < 65536
    ∧ bitAt (pastOf (copyP 0).m 0).cset 0 = true ∧ bindOk (readDone (copyP 0).m [.r 1, .r 3] [.r 2]) 0 0 = true
    ∧ bindOk (readDone (copyP 0).m [.r 1, .r 2] [.r 3]) 0 1 = false ∧ memStarts P.m [.r 1, .r 2] [.r 3] [] = true
    ∧ plsetOk 0 = true ∧ plsetOk (2 ^ 16) = false
    ∧ reqOf (copyS none).m 5 = some (copyR none) ∧ waitsSlot (copyR none) = true ∧ (copyArgs (copyR none)).isSome = true
    ∧ freeSlots (copyS none).m 0 ≠ []
    ∧ reqOf (copyS (some (3, 1))).m 5 = some (copyR (some (3, 1))) ∧ mayPerform (copyS (some (3, 1))).m (copyR (some (3, 1))) = true
    ∧ rangeHeld (copyS (some (3, 1))).m (copyR (some (3, 1))) = false
    ∧ (match copyArgs (copyR (some (3, 1))), copyPairs (copyS none).m (copyR none) 0 copyV 0 with
      | some A, some ps => ps.length == 16 && (upto ps.length).all (fun j =>
          match copyByte (copyS (some (3, 1))).m (copyR (some (3, 1))) A [] j ((ps[j]?).getD (0, 0)) with | .ok _ _ => true | _ => false)
      | _, _ => false) = true
    ∧ (copyS none).m.sync.resv = [] ∧ (match scratchLocs (copyS none).m (copyR none).who 0 8192 4 with | .ok _ => true | .error _ => false) = true
    ∧ (let s := on (copyP 0) (fun m => { m with mem.reqs := [agR] }); reqOf s.m 5 = some agR ∧ running s.m 0 = true ∧ thas 144 s.m.copy.tiles = false)
    ∧ (let s := on (copyP 0) (fun m => { m with mem.reqs := [plR] }); reqOf s.m 5 = some plR ∧ thas 272 s.m.copy.tiles = false) := by decide
/-- The copy is the first of its engine to be granted, and moves with no record to hold; its port has credit for a flit, or none. -/
def copyA : CopyArgs := ⟨0, copyV, 3 * 2 ^ 32, 0, .sp, .sp, 0, 0⟩
theorem wit_StreamsAndCopies_engine : copyArgs (copyR none) = some copyA ∧ copyCore (copyS none).m (copyR none) copyA = 0
    ∧ (∀ q ∈ (copyS none).m.mem.reqs, q.id ≠ 5 → False) ∧ copyFrozen (copyS none).m (copyR none) = false ∧ engineHeld (copyS none).m 0 = false
    ∧ (on (copyS none) (fun m => { m with mem.reqs := [copyR none, { rq (.ticket 5) with id := 6 }] })).m.mem.reqs.any
        (fun q => match q.op with | .ticket t => t == 5 | _ => false) = true
    ∧ (copyS (some (3, 1))).m.copy.moved.contains 5 = false ∧ copyHeld (copyS (some (3, 1))).m (copyR (some (3, 1))) copyA [] = false
    ∧ itemHeld (copyS (some (3, 1))).m 0 (copyTicket 0 1 3) = false
    ∧ (bucketOf (copyS none) 1000).level ≤ 1 ∧ 1 < (bucketOf (putBucket (copyS none) 1000 ⟨4, 1, 4, 1⟩) 1000).level
    ∧ (copyArgs (copyR none)).map (·.kind) = some 0 := by decide
/-- A pre-empted tile with its node, whose start waits for its memory interface. -/
def imgT : TileImg := ⟨SUnit.reset, ⟨true, 0, 0, 5, [], [], none⟩, some Node.reset⟩
def savedR : Req := rq (.ag true 4096 0 (some imgT))
theorem wit_StreamsAndCopies_saved : (let s := on (copyP 0) (fun m => { m with mem.reqs := [savedR] })
      reqOf s.m 5 = some savedR ∧ mayPerform s.m savedR = true ∧ thas (bindTile 0) s.m.copy.tiles = false ∧ tileSaved s.m 0 144 = true)
    ∧ (let s := on (copyP 0) (fun m => { m with mem.reqs := [plR] }); tileSaved s.m 0 272 = false ∧ gated s.m plR = false)
    ∧ mayPerform (on (copyP 0) (fun m => { m with mem.reqs := [agR] })).m agR = true ∧ (4096 : Nat) < 2 ^ 56 := by decide
/-- A row of HBM is held open by a PE. -/
def rowS : State := on State.reset (fun m => { live m with mem.rows := [⟨3, .pe 0 0 0 0 0 false, false, 0, 1⟩] })
theorem wit_ControllerEvents : 2 ^ 39 - 16 + 16 ≤ 2 ^ 39
    ∧ heldByResv State.reset.m (18 * 16384) ((upto 16).map (fun i => Loc.hbm (2 ^ 39 - 16 + i))) = false
    ∧ (on State.reset (fun m => { m with host.ports := 1, host.phase := 7 })).m.host.ports ≠ 0
    ∧ rowS.m.mem.rows.find? (fun y => y.row == 3) = some ⟨3, .pe 0 0 0 0 0 false, false, 0, 1⟩
    ∧ rowS.m.mem.rows.any (fun x => x.row == 3) = true ∧ State.reset.m.mem.reqs = [] ∧ 2 ^ 33 - 1 < 2 ^ 33 := by decide
theorem wit_MatrixCommands : memStarts P.m [.r 1, .r 2] [] [] = true ∧ (srcVal P.m .whole (.r 2)).scaled = false
    ∧ memStarts P.m [.r 1, .r 2] [.outC 0] [] = true ∧ P.m.cur = .pe 0 0 0 0 0 false ∧ memStarts P.m [.r 1] [.r 2] [] = true
    ∧ UL.m.cur = .unit 128 0 ∧ memStarts UL.m [.r 1] [.r 2] [] = true ∧ coreIn (readDone UL.m [.r 1] [.r 2]) 0 0 = true
    ∧ sPlaces (arrQOf (readDone UL.m [.r 1] [.r 2]) 0 0) < 4 ∧ coreIn UL.m 0 (payOf UL.m .whole (.r 1) % 2 ^ 10) = true
    ∧ UL.m.mat.mode.contains 0 = false ∧ (on UL (fun m => { m with mat.mode := [0] })).m.mat.mode.contains 0 = true
    ∧ (pastOf UL.m 0).image = none ∧ (pastOf UL.m 0).st = .live ∧ (arrQOf UL.m 0 0).queue = [] := by decide
/-- A fifth MXST of S-form units, a core outside the pasture, and a scaled OuterW. -/
def fullQ : State := on UL (fun m => { m with mat.q := [(0, { ArrQ.reset with queue := (upto 4).map (fun i => ⟨.st false 0, i, .unit 128 0⟩) })] })
theorem wit_MatrixCommands_stops : 4 ≤ sPlaces (arrQOf (readDone fullQ.m [.r 1] [.r 3]) 0 0) ∧ coreIn (readDone fullQ.m [.r 1] [.r 3]) 0 0 = true
    ∧ memStarts fullQ.m [.r 1] [.r 3] [] = true ∧ coreIn (readDone U.m [.r 1] [.r 3]) 0 0 = false ∧ memStarts U.m [.r 1] [.r 3] [] = true
    ∧ (let s := on P (fun m => setPeReg m 0 0 0 2 ⟨0, false, true⟩)
       (srcVal s.m .whole (.r 2)).scaled = true ∧ memStarts s.m [.r 1, .r 2] [] [] = true)
    ∧ isUnit P.m.cur = false ∧ (arrQOf P.m 0 0).queue = [] := by decide
/-- A peer's receive lane 8 has brought in two flits; the module is READY; the log of pasture 0 has room. -/
def peerS : State := on State.reset (fun m => { m with host.phase := 7, fab.rx := [(8, { Lane.fresh none with came := 2 })] })
def logS : State := on rowS (fun m => { m with sys.past := [(0, { Pasture.reset with st := .live, cset := 1, log := some ⟨0, 0, 0, 0, false, false⟩ })] })
theorem wit_ControllerEvents_peers : (tfind 8 peerS.m.fab.rx).map (·.came) = some 2 ∧ max 1 ((16 + 15) / 16) ≤ 2 ∧ peerS.m.host.phase ≠ 0
    ∧ rowsHeld peerS.m [.hbm 0] = false ∧ locsMoving peerS.m [.hbm 0] = false ∧ State.reset.m.host.phase ≠ 7
    ∧ ((upto 16).map (fun i => Loc.hbm i)).any (fun l => (locFault peerS.m .idle l).isSome) = false
    ∧ outsideWaits peerS.m ⟨0, 4, .amo .add4 1, 8⟩ = false ∧ outsideWaits peerS.m ⟨0, 4, .cas 0 0 1, 8⟩ = false
    ∧ State.reset.m.host.phase = 0 ∧ tfind 9 peerS.m.fab.rx = none
    ∧ outsideWaits (on peerS (fun m => { m with sync.resv := [(4, 99)] })).m ⟨0, 4, .amo .add4 1, 8⟩ = true
    ∧ logRoom rowS.m 0 = false ∧ logRoom logS.m 0 = true ∧ (peerS.m.mem.reqs = []) ∧ 2 ^ 33 ≤ 2 ^ 33 := by decide
def mwR (op : ReqOp) : Req := { rq op with who := .unit 128 0, xlat := none }
/-- Core 0 is in systolic mode with a queue, a drain and a request. -/
def arrS (q : ArrQ) (r : Req) : State := on State.reset (fun m => { live m with mat.mode := [0], mat.q := [(0, q)], mem.reqs := [r] })
def accQ : ArrQ := { ArrQ.reset with queue := [⟨.acc 1 false true, 5, .pe 0 0 0 0 0 false⟩] }
def drnQ (ts : List Token) : ArrQ := { ArrQ.reset with drain := some ⟨ts, 8, 5, 0⟩ }
def turnS (g : List Token) : State := on State.reset (fun m => setChan m 0 { Chan.reset with pendNode := some 8, gather := g })
theorem wit_MatrixEvents : (let s := arrS accQ (rq (.arrayCmd 0))
      livePast s.m 0 = some 0 ∧ running s.m 0 = true ∧ s.m.mat.mode.contains 0 = true ∧ (arrQOf s.m 0 0).drain = none
        ∧ (arrQOf s.m 0 0).queue = ⟨.acc 1 false true, 5, .pe 0 0 0 0 0 false⟩ :: []
        ∧ reqOf (takeHeld (setArrQ s.m 0 0 { arrQOf s.m 0 0 with queue := [] }) 0 0) 5 = some (rq (.arrayCmd 0)))
    ∧ livePast (on State.reset live).m 0 = some 0 ∧ (on State.reset live).m.mat.mode.contains 0 = false
    ∧ (let s := arrS (drnQ [⟨⟨7, false, false⟩, false, false, 0⟩]) (rq (.arrayCmd 0))
      (arrQOf s.m 0 0).drain = some ⟨[⟨⟨7, false, false⟩, false, false, 0⟩], 8, 5, 0⟩ ∧ s.m.fab.transit = [])
    ∧ (arrQOf (arrS (drnQ []) (rq (.arrayCmd 0))).m 0 0).drain = some ⟨[], 8, 5, 0⟩
    ∧ (∀ on ∈ [true, false], (arrS ArrQ.reset (mwR (.mode 0 on))).m.mem.reqs = [mwR (.mode 0 on)] ∧ (mwR (.mode 0 on)).done = false
      ∧ isShepActor (mwR (.mode 0 on)).who = true)
    ∧ (tget ArrQ.reset 0 (arrS accQ (mwR (.mode 0 false))).m.mat.q).queue ≠ []
    ∧ livePast (arrS ArrQ.reset (mwR (.mode 0 false))).m 0 = some 0
    ∧ (tget ArrQ.reset 0 (arrS ArrQ.reset (mwR (.mode 0 false))).m.mat.q).queue = []
    ∧ (tget ArrQ.reset 0 (arrS ArrQ.reset (mwR (.mode 0 false))).m.mat.q).drain = none
    ∧ (chanOf (turnS []).m 0).pendNode = some 8 ∧ (chanOf (turnS []).m 0).gather = [] ∧ (chanOf (turnS []).m 0).emit = []
    ∧ (chanOf (turnS [⟨⟨7, false, false⟩, false, false, 0⟩]).m 0).gather ≠ [] := by decide
/-- An MXRUN of two rows of one chunk of BF16 elements at 0, at its start and after its first row; a READY pasture's array. -/
def runQ (pr : Option RunProg) : ArrQ := { ArrQ.reset with seqOn := true, actOn := true, count := 1, afmt := .bf16, wfmt := .bf16, rstride := 192, prog := pr }
def runS (q : ArrQ) : State := on (arrS q (rq (.arrayCmd 0))) (fun m => { m with sys.ranges := [(0, ⟨0, 2047, 0⟩)] })
theorem wit_MatrixEvents_run : (∀ q ∈ [runQ none], q.seqOn = true ∧ q.actOn = true ∧ q.prog = none ∧ geometry q.afmt q.wfmt = some (96, 192, 0)
      ∧ 1 ≤ q.count ∧ arrBad (runS q).m 0 0 (runTouch (heldOf (runS q).m 0) q 96 192 0 1 2 0 96 0) = none
      ∧ (arrBad State.reset.m 0 0 (runTouch (heldOf State.reset.m 0) q 96 192 0 1 2 0 96 0)).isSome = true ∧ 96 < 2 ^ 9 - 1)
    ∧ (runQ (some ⟨1, 0, false⟩)).prog = some ⟨1, 0, false⟩ ∧ geometry .bf16 .e4m3 = none ∧ (ArrQ.reset.seqOn && ArrQ.reset.actOn) = false
    ∧ 1 + 1 = (2 : Nat) * 1 ∧ 0 + 1 ≠ (2 : Nat) * 1
    ∧ thas (0 * 64 + 0) (heldOf (runS (runQ none)).m 0).rowp = false ∧ thas (0 * 64 + 0) (markRow (heldOf (runS (runQ none)).m 0) 0 5).rowp = true
    ∧ (arrFault (runS (runQ none)).m 0 [] 0 (elemBytes .bf16 96)) = none ∧ (arrFault (runS (runQ none)).m 0 [0] 0 (elemBytes .bf16 96)) = some 0
    ∧ arrayPast (arrS accQ (rq (.arrayCmd 0))).m 0 = some 0
    ∧ (let s := on (arrS accQ (rq (.arrayCmd 0))) (fun m => { m with
         sys.past := [(0, { Pasture.reset with st := .ready, cset := 1 })], mat.q := [(1024, accQ)] })
       arrayPast s.m 0 = some 0 ∧ (pastOf s.m 0).st ≠ .live)
    ∧ reqOf (takeHeld (arrS accQ { rq (.arrayCmd 0) with id := 9 }).m 0 0) 5 = none
    ∧ arraysEmpty (arrS accQ (mwR (.mode 0 false))).m 0 = false ∧ arraysEmpty (arrS ArrQ.reset (mwR (.mode 0 false))).m 0 = true
    ∧ arraysEmpty State.reset.m 0 = true ∧ livePast State.reset.m 0 = none
    ∧ (arrS (drnQ []) (rq (.arrayCmd 0))).m.fab.transit.any (fun t => t.src == 300000 + 0) = false
    ∧ livePast (arrS (drnQ []) (rq (.arrayCmd 0))).m 0 = some 0 ∧ running (arrS (drnQ []) (rq (.arrayCmd 0))).m 0 = true
    ∧ (32 / 2 ^ 5 % 8 == 0 && bits 32 11 53 == 0) = false ∧ (31 / 2 ^ 5 % 8 == 0 && bits 31 11 53 == 0 && decide (31 % 32 + (31 / 2 ^ 8 % 8 + 1) ≤ 32)) = true := by decide
theorem wit_ChunkSum : (XR.toRat (fval .e4m3 (elemAt .e4m3 [0x38] 0 0))).isSome = true ∧ (XR.toRat (fval .bf16 (elemAt .bf16 [] 192 0))).isSome = true
    ∧ (XR.toRat (scaleVal (byteAt [0, 0, 0, 0, 127] 4))).isSome = true ∧ (XR.toRat (scaleVal (byteAt [] 6144))).isSome = true := by decide
theorem wit_SelectionResults :
    starts P.m [(.whole, .r 1), (.whole, .r 2), (.whole, .r 4), (.whole, nextReg (.r 4))] (.opd (.r 4)) = true
    ∧ (srcVal P.m .whole (.r 1)).scaled = false ∧ (List.replicate 16 0).length = 16
    ∧ (65535 : Nat) + ((lanesOf 32 4 (packLanes 32 [0x7FC00000, 0x7FC00000, 0x7FC00000, 0x7FC00000])).filter (fun x => !isHole x)).length ≤ 65535
    ∧ starts P.m [(.whole, .r 4), (.whole, nextReg (.r 4)), (.whole, .r 1)] (.opd (.r 3)) = true
    ∧ threshold (histOf 0 0) 1 15 = 0 ∧ (0 : Nat) < 15
    ∧ starts P.m [(.whole, .r 1), (.whole, .r 2), (.whole, .r 3)] (.opd (.r 3)) = true
    ∧ starts P.m [(.whole, .r 1), (.whole, .r 2)] (.opd (.outC 3)) = true
    ∧ starts P.m [(.whole, .r 1), (.whole, .r 2)] (.opd (.r 3)) = true
    ∧ starts P.m [(.whole, .r 1), (.whole, .r 2)] (.opd (.r 3)) = true
    ∧ starts P.m [(.whole, .r 1), (.whole, .r 3)] (.opd (.r 3)) = true := by decide
/-- A coordinate list of 16 elements at 0, and a row-compressed matrix of 4 float elements with a vector of 16. -/
def cooH : BitVec 256 := BitVec.ofNat 256 (2 * 2 ^ 57 + 4 * 2 ^ 60 + 64 * 2 ^ 64 + 9 * 2 ^ 122 + 1024 * 2 ^ 192)
def rowH : BitVec 256 := BitVec.ofNat 256 (2 * 2 ^ 57 + 2 * 2 ^ 60 + 16 * 2 ^ 64 + 4 * 2 ^ 122 + 256 * 2 ^ 128 + 512 * 2 ^ 192)
def vecH : BitVec 256 := BitVec.ofNat 256 (2048 + 2 * 2 ^ 57 + 2 ^ 60 + 64 * 2 ^ 64)
def engS (op : ReqOp) : State := on State.reset (fun m => { live m with mem.reqs := [rq op 7 (.out 0 0 0 0)] })
def walkR (e : Nat) : ReqOp := .iwalk cooH 1 0 2 0 e
def spmR (e : Nat) : ReqOp := .spmx rowH vecH 33 0 2 2 e
def exT : Token := ⟨⟨9, false, true⟩, false, true, 0⟩
def exS (op : ReqOp) : State := on State.reset (fun m => { live m with
  mem.reqs := [rq op], sel.queues := [(0, { ExpQ.reset with thr := 2, entries := [exT, exT], released := 2, tmr := 1 })] })
theorem wit_IndexAndQueues : memStarts P.m [.r 1] [.outC 1] [] = true ∧ bits (payOf P.m .whole (.r 1)) 96 32 = 0 ∧ bits (payOf P.m .whole (.r 1)) 100 28 = 0
    ∧ (∀ e < 3, reqOf (engS (walkR e)).m 5 = some (rq (walkR e) 7 (.out 0 0 0 0)) ∧ indexTurn (engS (walkR e)).m (rq (walkR e) 7 (.out 0 0 0 0)) = true
      ∧ walkOk cooH 0 = true)
    ∧ (1 < hBound cooH / 2 ^ hEsz cooH) ∧ (match walkCoord (engS (walkR 1)).m (rq (walkR 1) 7 (.out 0 0 0 0)) cooH 0 1 with | .ok _ => true | .error _ => false) = true
    ∧ dstCredit (engS (walkR 1)).m (rq (walkR 1) 7 (.out 0 0 0 0)) = true
    ∧ walkFails (engS (walkR 1)).m (rq (walkR 1) 7 (.out 0 0 0 0)) 0x01 1024 = true
    ∧ (∀ e < 3, reqOf (engS (spmR e)).m 5 = some (rq (spmR e) 7 (.out 0 0 0 0)) ∧ indexTurn (engS (spmR e)).m (rq (spmR e) 7 (.out 0 0 0 0)) = true)
    ∧ spmxOk rowH vecH 2 = true ∧ (match spmxRow (engS (spmR 1)).m (rq (spmR 1) 7 (.out 0 0 0 0)) rowH vecH 1 with | .ok y => y.bad.isNone | .error _ => false) = true
    ∧ dstCredit (engS (spmR 1)).m (rq (spmR 1) 7 (.out 0 0 0 0)) = true
    ∧ memStarts P.m [.r 1, .r 2] [.r 3] [] = true ∧ payOf P.m .whole (.r 2) < 2 ^ 9 ∧ payOf P.m .whole (.imm 1) % 2 ^ 9 = 1
    ∧ memStarts P.m [.r 1, .imm 1] [.r 3] [] = true ∧ memStarts P.m [.r 1, .r 2] [.r 3] (pairReg P.m true (.r 2)) = true
    ∧ excfgCode (queueX P.m 0) 0 0 = 0 ∧ excfgCode (queueX P.m 0) 0 8191 = 1
    ∧ reqOf (exS (.exq 0 exT)).m 5 = some (rq (.exq 0 exT)) ∧ queueTurn (exS (.exq 0 exT)).m (rq (.exq 0 exT)) = true
    ∧ queueMine (exS (.exq 0 exT)).m (rq (.exq 0 exT)) 0 = true ∧ (appendX (exS (.exq 0 exT)).m (rq (.exq 0 exT)) 0 exT).isSome = true
    ∧ routeExq (exS (.exq 0 exT)).m (rq (.exq 0 exT)) 0 = 0 ∧ (queueX (exS (.exq 0 exT)).m 0).ringq = []
    ∧ reqOf (exS (.exdq 0 256)).m 5 = some (rq (.exdq 0 256)) ∧ queueTurn (exS (.exdq 0 256)).m (rq (.exdq 0 256)) = true
    ∧ queueMine (exS (.exdq 0 256)).m (rq (.exdq 0 256)) 0 = true ∧ sourceExdq (exS (.exdq 0 256)).m 0 = 0
    ∧ (queueX (exS (.exdq 0 256)).m 0).cut = 0 ∧ 0 < min 256 (queueX (exS (.exdq 0 256)).m 0).released
    ∧ (queueX (exS (.exdq 0 256)).m 0).tmr ≠ 0 := by decide

/-- Another PE's EXQ waits at the queue; a walk of package 5 whose lane is in KEY_HOLD. -/
def waitX (op : ReqOp) : State := on (exS op) (fun m => { m with
  mem.reqs := [rq op, { rq (.exq 0 exT) 7 .drop (.pe 0 1 0 0 0 false) with id := 4 }], sel.queues := [(0, { ExpQ.reset with thr := 2, entries := [exT, exT], released := 2, waits := [4] })] })
def fullX : State := on (exS (.exq 0 exT)) (fun m => { m with sel.queues := [(0, { ExpQ.reset with thr := 2, entries := List.replicate 4096 exT })] })
theorem wit_IndexAndQueues_turns : queueAhead (arriveQueue (waitX (.exq 0 exT)).m (rq (.exq 0 exT)) 0) (rq (.exq 0 exT)) 0 = true
    ∧ queueTurn (waitX (.exq 0 exT)).m (rq (.exq 0 exT)) = true
    ∧ queueAhead (arriveQueue (exS (.exq 0 exT)).m (rq (.exq 0 exT)) 0) (rq (.exq 0 exT)) 0 = false
    ∧ queueMine (arriveQueue (exS (.exq 0 exT)).m (rq (.exq 0 exT)) 0) (rq (.exq 0 exT)) 0 = true
    ∧ (appendX (arriveQueue (exS (.exq 0 exT)).m (rq (.exq 0 exT)) 0) (rq (.exq 0 exT)) 0 exT).isSome = true
    ∧ queueAhead (arriveQueue (exS (.exdq 0 256)).m (rq (.exdq 0 256)) 0) (rq (.exdq 0 256)) 0 = false
    ∧ queueMine (arriveQueue (exS (.exdq 0 256)).m (rq (.exdq 0 256)) 0) (rq (.exdq 0 256)) 0 = true
    ∧ 0 < min 256 (queueX (arriveQueue (exS (.exdq 0 256)).m (rq (.exdq 0 256)) 0) 0).released
    ∧ running (arriveQueue (exS (.exdq 0 256)).m (rq (.exdq 0 256)) 0) 0 = true
    ∧ laneHeld (engS (walkR 1)).m (rq (walkR 1) 7 (.out 0 0 0 0)) (nextLocs (engS (walkR 1)).m (rq (walkR 1) 7 (.out 0 0 0 0))) = false
    ∧ laneHeld (engS (spmR 1)).m (rq (spmR 1) 7 (.out 0 0 0 0)) (nextLocs (engS (spmR 1)).m (rq (spmR 1) 7 (.out 0 0 0 0))) = false
    ∧ (let r := rq (walkR 1) 1 (.out 0 0 0 0)
       let m := { (engS (walkR 1)).m with mem.reqs := [r] }
       (match walkCoord m r cooH 0 1 with | .ok _ => false | .error _ => true) = true ∧ dstCredit m r = true ∧ indexTurn m r = true
         ∧ laneHeld m r (nextLocs m r) = false)
    ∧ (let r := rq (walkR 1) peerE (.out 0 0 0 0)
       laneHeld { (engS (walkR 1)).m with mem.reqs := [r] } r (nextLocs { (engS (walkR 1)).m with mem.reqs := [r] } r) = true)
    ∧ dstCredit (markBad (engS (walkR 1)).m (nextLocs (engS (walkR 1)).m (rq (walkR 1) 7 (.out 0 0 0 0))) 0x01 1024) (rq (walkR 1) 7 (.out 0 0 0 0)) = true := by decide
theorem wit_IndexAndQueues_full : appendX fullX.m (rq (.exq 0 exT)) 0 exT = none := by decide +kernel

/-! ## Witnesses: relations, evaluations, stage families -/

/-- The pick of one element, whatever the free value. -/
theorem pick_one {α : Type} (l : List α) (a : α) (h : l = [a]) (x : Nat) : l[x % l.length]? = some a := by subst h; simp [Nat.mod_one]
/-- A relation of pasture 0 with one slot, in the scratchpad of core 0 from `sp`. -/
def relX (sp st : Nat) (d : Bool) : Rel := ⟨1, 0, 1, st, 0, sp, 1, 0, 0, [0], 64, 0, d, [(0, 7)]⟩
def tupX : Tup := ⟨7, 0x3F000000, flV, wAll⟩
/-- A plan: relation 1 from relation 0, with a fold timeout. -/
def planX : List W64 := [1, 0, 0, 0, 0, 5, 0, 0]
/-- Relation 0 holds a tuple with key 7 or none, relation 1 is empty; `rs` are the rules. -/
def relS (full : Bool) (rs : Tbl (List W64)) : State := on P (fun m => store 64 [0x0001, 0, 0, 0, 0, 5, 0, 0] { mapped m with
  mem.spad := if full then memWrite [] 0 32 (tupNat tupX) else [], rule.rels := [(0, relX 0 0 false), (1, relX 32 0 false)], rule.rules := rs })
/-- A descriptor of relation 0: arity 1, 16 slots in the scratchpad of core 0. -/
def rdefS : State := on P (fun m => store 64 [0x100 + 4 * 2 ^ 32, 16 * 2 ^ 32, 0, 0x2000, 0x3000, 1, 0, 0] (mapped m))
/-- A back-propagation runs; a relation with the descriptor's one seed at 4,096. -/
def busyR : State := on P (fun m => { m with mem.reqs := [rq (.rback [] false)] })
def seedS : State := on (relS true []) (store 4096 [7, 0x3F800000, 0, 0])
theorem wit_Relations : ruleStarts P [.r 1] (.r 3) false false = true ∧ ruleStarts P [.r 1, .r 2] (.r 3) false true = true
    ∧ ruleStarts P [.r 1] (.r 3) false true = true ∧ ruleStarts P [.r 1] (.r 3) true true = true ∧ ruleStarts U [.r 2] (.r 4) true false = true
    ∧ ruleStarts P [] (.r 3) true false = true ∧ ruleStarts P [.r 1, .r 2] (.r 3) false false = true
    ∧ ruleStarts U [.r 2, .r 1] (.r 4) false true = true
    ∧ (rdefGo rdefS.m (rq (.rdef 64)) .perform 64).2 = 0
    ∧ mayPerform (withR (rq (.rdef 64))).m (rq (.rdef 64)) = true ∧ mayPerform (withR (rq (.rback [] false))).m (rq (.rback [] false)) = true
    ∧ ruleBusy (readDone P.m [.r 1] [.r 3]) 0 = false ∧ ruleBusy (readDone busyR.m [.r 1] [.r 3]) 0 = true
    ∧ (match rbackSeeds (readDone seedS.m [.r 1, .r 2] [.r 3]) 0 4096 1 with | .ok l => l.length == 1 | .error _ => false) = true
    ∧ (match rbackSeeds (readDone seedS.m [.r 1, .r 2] [.r 3]) 0 4096 0 with | .ok _ => false | .error c => c == 1) = true ∧ ruleBusy (relS false []).m 0 = false ∧ relOf (relS false []).m 0 0 = some (relX 0 0 false)
    ∧ (relX 0 0 false).derived = false ∧ domainErr 1 (0x3F800000 % 2 ^ 32) = false ∧ findTup (relS false []).m 0 0 (relX 0 0 false) (cutKeys (relX 0 0 false) 7) = none
    ∧ isZeroW 1 0x3F800000 = false ∧ (recAt (relS true []).m 0 0 (relX 0 0 false) 0).del = false
    ∧ better 1 0x3F800000 (recAt (relS true []).m 0 0 (relX 0 0 false) 0).w = true
    ∧ (ruleGo (relS false []).m 0 64).2 = 0 ∧ (rdropGo (relS false [(3, planX)]).m 0 true 3).2 = 0 ∧ (rdropGo (relS false []).m 0 false 1).2 = 0
    ∧ memStarts P.m [.r 1] [.r 3] [] = true ∧ (srcVal P.m .whole (.r 1)).scaled = false ∧ (0 : Nat) < (relX 0 0 false).homes.length := by decide +kernel
theorem wit_Relations_free : freeId { (relS false []).m with free := (relS false []).m.free + 1 } 0 0 (relX 0 0 false) (cutKeys (relX 0 0 false) 7) = some 0 :=
  pick_one _ _ (by decide) _
theorem wit_Relations_find (s : State) (h : s = relS true []) : findTup s.m 0 0 (relX 0 0 false) (cutKeys (relX 0 0 false) 7) = some 0 := by
  subst h
  unfold findTup
  dsimp only
  rw [if_neg (by decide), if_pos (by decide)]
  exact pick_one _ _ (by decide) _
/-- The pairs of an inserted weight with the tuple present: better, equal, worse with REPLACE, zero; a deleted tuple. -/
theorem wit_Relations_insert : domainErr 1 0xBF800000 = true ∧ domainErr 1 0x3F000000 = false
    ∧ (let t := recAt (relS true []).m 0 0 (relX 0 0 false) 0
       t.del = false ∧ better 1 0x3F800000 t.w = true ∧ better 1 0x3E800000 t.w = false ∧ f32Cmp 0x3E800000 t.w ≠ some .eq
         ∧ f32Cmp 0x3F000000 t.w = some .eq ∧ better 1 0x3F000000 t.w = false ∧ t.v = true)
    ∧ bitAt (2 ^ 32 + 0x3E800000) 32 = true ∧ bitAt 0x3E800000 32 = false ∧ isZeroW 1 0x3E800000 = false ∧ isZeroW 1 0 = true
    ∧ (let m := { (relS true []).m with mem.spad := memWrite [] 0 32 (tupNat { tupX with fl := flV + 2 ^ 29 }) }
       (recAt m 0 0 (relX 0 0 false) 0).del = true)
    ∧ (recAt (relS false []).m 0 0 (relX 0 0 false) 0).v = false ∧ ruleBusy busyR.m 0 = true ∧ relOf (relS true []).m 0 5 = none
    ∧ findTup (relS false []).m 0 0 (relX 0 0 false) (cutKeys (relX 0 0 false) 7) = none
    ∧ partIds (relX 0 0 false) 0 ≠ [] := by decide +kernel
/-- A running evaluation of stratum 0. -/
def evE : Eval := ⟨0, 0, false, [], [], [(0, 0, tupNat tupX)], 0, [], [], [], 1, 0, false, (0, 0), 0, false, false, 5⟩
def evS (e : Eval) : State := on (relS true [(0, planX)]) (fun m => { m with rule.evals := [(0, e)] })
def candX : Cand := ⟨0, 7, 0x3F800000, 1, 0, 0⟩
def quietE : Eval := { evE with events := [], sent := 0 }
theorem wit_Evaluation : memStarts P.m [.r 1] [.r 3] [] = true ∧ ruleBusy (readDone P.m [.r 1] [.r 3]) 0 = false
    ∧ (relOf (readDone (relS true []).m [.r 1] [.r 3]) 0 0).isSome = true
    ∧ evalOf (evS evE).m 0 = some evE ∧ running (evS evE).m 0 = true ∧ evE.events ≠ [] ∧ evE.draining = false
    ∧ relOf (evS evE).m 0 0 = some (relX 0 0 false) ∧ (recAt (evS evE).m 0 0 (relX 0 0 false) 0).v = true
    ∧ evalOf (evS { evE with cands := [{ candX with weight := 0 }] }).m 0 = some { evE with cands := [{ candX with weight := 0 }] }
    ∧ (headPort (evS evE).m 0 evE { candX with weight := 0 }).2.draining = false
    ∧ isNanCode .f32 candX.weight.toNat = false ∧ domainErr 1 candX.weight.toNat = false ∧ isZeroW 1 candX.weight.toNat = false
    ∧ (let e := { evE with user := [(5, [candX])], back := [(5, [⟨⟨7, false, false⟩, false, false, 0⟩, ⟨⟨9, false, false⟩, false, false, 0⟩])] }
       livePast (evS e).m 0 = some 0 ∧ e.user.find? (fun u => u.1 / 128 == 0 && 2 ≤ (tget [] u.1 e.back).length) = some (5, candX :: [])
         ∧ tget [] 5 e.back = ⟨⟨7, false, false⟩, false, false, 0⟩ :: ⟨⟨9, false, false⟩, false, false, 0⟩ :: [])
    ∧ (evS evE).m.stage.fams = [] ∧ (evS evE).m.mem.reqs = []
    ∧ quietE.sent = quietE.recv ∧ quietE.waveTot = (quietE.sent, quietE.recv) ∧ quietE.waveOk = false
    ∧ ({ quietE with waveOk := true, stratum := 0, last := 1 } : Eval).stratum < 1
    ∧ ((stratRules (evS evE).m 0 evE.stratum).map (fun q => q.2.ftmo)).foldl max 0 ≠ 0 := by decide
/-- Two candidates of one port to one head port; two issued events of one port. -/
def pairE : Eval := { evE with cands := [candX, candX], events := [(0, 0, 0), (0, 0, 1)] }
theorem wit_Evaluation_order : evalOf (evS pairE).m 0 = some pairE ∧ pairE.cands[1]? = some candX ∧ pairE.cands[0]? = some candX
    ∧ (∃ c0 ∈ pairE.cands.take 1, c0.src = candX.src ∧ candPort (evS pairE).m 0 c0 = candPort (evS pairE).m 0 candX)
    ∧ (pairE.cands.take 0 = []) ∧ 0 ∈ nextEvents (evS pairE).m 0 pairE ∧ 1 ∉ nextEvents (evS pairE).m 0 pairE
    ∧ 0 ∈ nextEvents (evS { pairE with fresh := 2 }).m 0 { pairE with fresh := 2 } ∧ 1 ∈ nextEvents (evS { pairE with fresh := 2 }).m 0 { pairE with fresh := 2 } := by decide +kernel
/-- The evaluation with a candidate at a user block and its two tokens back: poisoned, and with FLAG. -/
def userE (kp wp fl : Bool) : Eval := { evE with user := [(5, [candX])], back := [(5, [⟨⟨7, kp, false⟩, false, false, 0⟩, ⟨⟨9, wp, false⟩, false, fl, 0⟩])] }
theorem wit_Evaluation_user : (∀ kp ∈ [false, true], ∀ wp ∈ [false, true], ∀ fl ∈ [false, true],
      evalOf (evS (userE kp wp fl)).m 0 = some (userE kp wp fl) ∧ livePast (evS (userE kp wp fl)).m 0 = some 0
      ∧ (userE kp wp fl).user.find? (fun u => u.1 / 128 == 0 && 2 ≤ (tget [] u.1 (userE kp wp fl).back).length) = some (5, [candX])
      ∧ tget [] 5 (userE kp wp fl).back = [⟨⟨7, kp, false⟩, false, false, 0⟩, ⟨⟨9, wp, false⟩, false, fl, 0⟩])
    ∧ evE.events.find? (fun w => w.1 == 0 && w.2.1 == 0) = some (0, 0, tupNat tupX)
    ∧ (versionAt (evS evE).m 0 (relX 0 0 false) [] 0 0 (tupNat tupX)).v = true ∧ (versionAt (relS false []).m 0 (relX 0 0 false) [] 0 0 0).v = false
    ∧ relOf (evS { evE with events := [(5, 0, 0)] }).m 0 5 = none
    ∧ evalOf (evS { quietE with draining := true }).m 0 = some { quietE with draining := true } ∧ quietE.events = [] ∧ quietE.cands = [] ∧ quietE.user = [] := by decide
/-- A program family 0 of pasture 0 whose owner is core 0, with candidate core 1. -/
def famX (es : List KrtE) (st : Option FamStep) : Fam :=
  ⟨[BitVec.ofNat 64 (2 ^ 16 + 4 * 2 ^ 48), 0, 0, 0, 0, 0, BitVec.ofNat 64 (2 ^ 48), 0, 1], es, 0, st, [], [(0, (0, es))], 0, none, [], [], 0, 0, 0⟩
def es1 : List KrtE := [⟨0, 0, false, false⟩]
def es2 : List KrtE := [⟨0, 0, false, false⟩, ⟨2 ^ 31, 1, false, false⟩]
def famS (es : List KrtE) (st : Option FamStep) : State := on P (fun m => { mapped m with stage.fams := [(0, famX es st)] })
/-- The descriptor of a queue family at address 64. -/
def stageS : State := on P (fun m => store 64 [128, 1, 0, 0, 16 * 2 ^ 32, 0, 2 ^ 48, 0] { mapped m with
  sel.queues := [(0, { ExpQ.reset with thr := 1 })] })
def krR : Req := { rq (.kroute 0 7 ⟨7, false, false⟩) with xlat := none }
theorem wit_Stages : memStarts P.m [.r 1] [.r 3] [] = true ∧ (stageGo stageS.m 0 64).2 = 0
    ∧ memStarts (famS es1 none).m [.r 1, .r 2] [.r 3] [] = true
    ∧ famOf (readDone (famS es1 none).m [.r 1, .r 2] [.r 3]) (famKey 0 0) = some (famX es1 none)
    ∧ castCode (readDone (famS es1 none).m [.r 1, .r 2] [.r 3]) 0 (famX es1 none) 0 = 0 ∧ mergeCode (famX es1 none) 0 = 0 ∧ mergeCode (famX es2 none) 1 = 0
    ∧ 1 < (famX es2 none).entries.length ∧ memStarts P.m [.r 1, .r 2] [.r 4] (pairReg P.m true (.r 4)) = true
    ∧ memStarts UL.m [.r 1, .r 2] [.r 4] (pairReg UL.m true (.r 4)) = true
    ∧ starts P.m [(.whole, .r 1)] (.opd (.r 3)) = true ∧ starts UL.m [(.whole, .r 1)] (.opd (.r 3)) = true
    ∧ (srcVal (famS es1 none).m .whole (.r 2)).poison = false ∧ (famOf (deqSrcs (famS es1 none).m [.r 1, .r 2]) (famKey 0 0)).isSome = true
    ∧ sReady UL.m 128 [.r 1, .r 2, .r 3] [] = true
    ∧ coverOf (copyOf (famX es1 none) (senderOf krR.who)).2 ((famX es1 none).hash 7) = some ⟨0, 0, false, false⟩
    ∧ (famX es1 none).entries.any (fun x => x.core == 0 && x.hold) = false ∧ starts P.m [(.whole, .r 1)] .none = true := by decide
/-- A merge holds the range of entry 0; eight other families at one sender. -/
def famH : State := famS [⟨0, 0, false, true⟩] none
def manyS (n : Nat) : State := on P (fun m => { m with stage.fams := (upto n).map (fun k => (k + 1, famX es1 none)) })
theorem wit_Stages_held : routeStalls famH.m famH.m.cur (pastOfActor famH.m famH.m.cur) 0 7 = true
    ∧ routeStalls (famS es1 none).m P.m.cur 0 0 7 = false ∧ (famOf (deqSrcs famH.m [.r 1, .r 2]) (famKey 0 0)).isSome = true
    ∧ (heldTables (manyS 8).m (0 / 64) 0).length = 8 ∧ (∀ x ∈ heldTables (manyS 8).m (0 / 64) 0, x.1 ≠ 0) ∧ (heldTables (manyS 7).m (0 / 64) 0).length < 8 := by decide
def castSt (ph : StepPh) (k : StepKind) : FamStep := ⟨k, ph, 0, 1, 2 ^ 31, 5, [], 0⟩
/-- The routine of a cast or merge on core 0 has ended with the instruction that matches. -/
def doneS (k : StepKind) : State := on (famS es2 (some (castSt .routine k))) (fun m => { m with
  pe.binds := [(4, ⟨1, .routine 0 0, 0, true, some (decide (k = .cast))⟩)] })
theorem wit_StageEvents : famOf (famS es1 none).m (famKey 0 0) = some (famX es1 none) ∧ running (famS es1 none).m 0 = true
    ∧ sampleReqs { famX es1 none with hot := [(0, 1)] } ≠ [] ∧ (famX es1 none).cth ≤ occupancy (famS es1 none).m 0 (famX es1 none) 0
    ∧ castCode (famS es1 none).m 0 (famX es1 none) 0 = 0
    ∧ (famX es1 (some (castSt .prepare .cast))).kind = 0
    ∧ stepReady (famS es1 (some (castSt .prepare .cast))).m 0 (famX es1 (some (castSt .prepare .cast))) (castSt .prepare .cast) = true
    ∧ thas (routineCore (famX es1 none) (castSt .prepare .cast) * 8 + 4) (famS es1 (some (castSt .prepare .cast))).m.pe.binds = false
    ∧ stepReady (on (famS es1 (some (castSt .prepare .cast))) (fun m => setChan m 0 { Chan.reset with fifo := [⟨⟨5, false, false⟩, false, false, 0⟩] })).m 0
        (famX es1 (some (castSt .prepare .cast))) (castSt .prepare .cast) = false
    ∧ (∀ k ∈ [StepKind.cast, .merge], famOf (doneS k).m (famKey 0 0) = some (famX es2 (some (castSt .routine k)))
      ∧ routineOf (doneS k).m (famKey 0 0) 0 = some ⟨1, .routine 0 0, 0, true, some (decide (k = .cast))⟩
      ∧ ctxReqs (doneS k).m 0 4 1 = false ∧ tget [] 4 (doneS k).m.pe.commit = [])
    ∧ ((famX es1 none).entries.map (·.lo)).Pairwise (· < ·) ∧ (entryOf es1 0).lo < 2 ^ 31 ∧ 2 ^ 31 < hiOf es1 0
    ∧ thas 0 (famX es1 none).copies = true := by decide

/-- A family of a queue, and one whose sender 0 has to acknowledge. -/
def queueF : Fam := { famX es1 (some (castSt .prepare .cast)) with desc := [128, 0, 0, 0, 0, 0, 0, 0, 1] }
def ackF : Fam := famX es1 (some { castSt .redirect .cast with acks := [0] })
theorem wit_StageEvents_queue : queueF.kind = 2 ∧ queueF.step = some (castSt .prepare .cast) ∧ (castSt .prepare .cast).ph = .prepare ∧ (castSt .prepare .cast).kind = .cast
    ∧ ({ queueF with desc := [64, 0, 0, 0, 0, 0, 0, 0, 1] } : Fam).kind = 1
    ∧ famOf (famS es1 (some { castSt .redirect .cast with acks := [0] })).m (famKey 0 0) = some ackF ∧ thas 0 ackF.copies = true
    ∧ oldInFlight (famS es1 (some { castSt .redirect .cast with acks := [0] })).m { ackF with copies := tset 0 (ackF.version, ackF.entries) ackF.copies } 0 = false
    ∧ (famX es1 none).step = none := by decide
/-- Sender 0 gave its table up, with a record of it on the way under version 1, or none. -/
def gaveF : Fam := { famX es1 (some { castSt .redirect .cast with acks := [0] }) with copies := [] }
def gaveS (on' : Bool) : State := on (famS es1 none) (fun m => { m with
  stage.fams := [(0, gaveF)], mem.reqs := [{ krR with granted := some (0, 1) }]
  fab.transit := if on' then [⟨routeSrc krR.who, gaveF.sin 0, exT, some 5⟩] else [] })
theorem wit_StageEvents_senders : (∀ b ∈ [false, true], famOf (gaveS b).m (famKey 0 0) = some gaveF ∧ running (gaveS b).m 0 = true
      ∧ oldInFlight (gaveS b).m gaveF 0 = b) ∧ thas 0 gaveF.copies = false ∧ 0 ∈ [0] ∧ gaveF.step.isSome = true
    ∧ 0 ∈ senders (gaveS true).m gaveF ∧ 0 ∉ senders (gaveS false).m gaveF := by decide
/-! ## Witnesses: lanes, multicast, portals, pages -/

def laneX : Lane := Lane.fresh (some 0)
/-- Transmit lanes 8 to 15 lead to peer 1; receive lane 8 comes from it. -/
def laneS (l : Lane) (rs : List Req) : State := on P (fun m => { m with
  fab.tx := (upto 8).map (fun k => (8 + k, l)), fab.rx := [(8, { l with newKey := some 5 })], mem.reqs := rs, host.phase := 7 })
theorem wit_LaneInstructions : memStarts P.m [.r 1, .r 2] [.r 3] [] = true ∧ memStarts P.m [.r 1] [.r 3] [] = true ∧ (∀ j ∈ [0, 7], j < 8)
    ∧ memStarts UL.m [.imm 1, .imm 7] [.r 3] [] = true := by decide
def leaseR (n : Nat) (k : Option Nat) : Req := { rq (.lease 1 n k 0) with xlat := none }
/-- The shepherd core's s1 points into the firmware region, s2 holds `v`, and pasture 0 has LINK. -/
def linkS (ws : List Nat) (v : Nat) : State := on (fwA ws) (fun m => setSReg { m with
  sys.past := [(0, { Pasture.reset with st := .live, cset := 1, quota := BitVec.ofNat 64 (2 ^ 18) })], fab.tx := [(9, laneX)] } 128 2 v)
theorem wit_LaneEvents : leaseHead (laneS laneX [leaseR 2 none]).m 1 = some (leaseR 2 none) ∧ [0, 7].Nodup
    ∧ (∀ k ∈ [0, 7], k < 8 ∧ planeTx State.reset.m k < 32 ∧ txLit State.reset.m 511 k = false) ∧ (∀ k < 8, planeRx (laneS laneX []).m k ≤ 32)
    ∧ (∃ k < 8, k ≠ floorPlane 511 State.reset.m.host.peer) ∧ reqOf (laneS laneX [leaseR 1 (some 3)]).m 5 = some (leaseR 1 (some 3))
    ∧ tfind 15 (laneS laneX []).m.fab.tx = some laneX ∧ (∃ k < 8, isFloor (laneS laneX []).m.host.peer (8 + k) = false)
    ∧ tfind 8 (laneS { laneX with notice := true } []).m.fab.tx = some { laneX with notice := true } ∧ laneX.hold = false
    ∧ tfind 8 (laneS { laneX with hold := true } []).m.fab.tx = some { laneX with hold := true }
    ∧ thas 9 (tdel 8 (laneS { laneX with hold := true } []).m.fab.tx) = true ∧ 9 / 8 = 8 / 8
    ∧ sStarts (linkS [1] 0).m 128 0 [.r 1, .r 2] [.r 3] = true ∧ isShepherd 128 = true ∧ quotaLink (readDone (linkS [1] 0).m [.r 1, .r 2] [.r 3]) 0 = true
    ∧ (match readBytes (readDone (linkS [1] 0).m [.r 1, .r 2] [.r 3]) (.unit 128 0) (payOf (linkS [1] 0).m .whole (.r 1) % 2 ^ 56) 32 with
      | .ok _ => true | .error _ => false) = true
    ∧ (let s := linkS [1] (laneId State.reset.m 9)
       laneOfId (readDone s.m [.r 1, .r 2] [.r 3]) false (payOf s.m .whole (.r 2) % 2 ^ 64) = some 9)
    ∧ laneOfId (readDone (linkS [1] 0).m [.r 1, .r 2] [.r 3]) false 0 = none
    ∧ sStarts (fwA [1]).m 128 0 [.r 1, .r 2] [.r 3] = true ∧ quotaLink (readDone (fwA [1]).m [.r 1, .r 2] [.r 3]) 0 = false
    ∧ thas 9 (linkS [] 0).m.fab.tx = true ∧ tfind 8 (laneS laneX []).m.fab.rx = some { laneX with newKey := some 5 }
    ∧ (bucketOf { laneS laneX [] with pow.buckets := [(10008, ⟨1, 1, 1, 1⟩)] } 10008).level ≠ 0 := by decide
/-- A queue of requests of package 1. -/
def qS (w : Bool) : State := on (laneS laneX []) (fun m => { m with fab.leases := [⟨1, 1, none, false, w⟩] })
/-- An LREL revokes receive lane 8 alone, or lane 9 too; a KEYI reads its key at 64, or on a page that does not answer. -/
def revS (two : Bool) : State := on (laneS laneX []) (fun m => { m with
  fab.rx := (8, { laneX with revoking := some 5 }) :: (if two then [(9, { laneX with revoking := some 5 })] else [])
  mem.reqs := [rq (.lrel 1 [0])] })
def keyR : Req := rq (.keyi 9 64) 7 (.sreg 128 3) (.unit 128 0)
theorem wit_LaneEvents_ends : (laneS laneX []).m.host.phase ≥ 5 ∧ State.reset.m.host.phase < 5
    ∧ (∀ b ∈ [false, true], tfind 8 (revS b).m.fab.rx = some { laneX with revoking := some 5 } ∧ reqOf (revS b).m 5 = some (rq (.lrel 1 [0]))
      ∧ (freeRx (revS b).m 8).fab.rx.any (fun e => e.2.revoking == some 5) = b)
    ∧ tfind 8 (laneS laneX []).m.fab.rx = some { laneX with newKey := some 5 } ∧ laneX.revoking = none
    ∧ reqOf (withR keyR).m 5 = some keyR ∧ mayPerform (withR keyR).m keyR = true
    ∧ (match virtR (withR keyR).m keyR 64 32 .rd with
      | .ok ls => faultR (withR keyR).m keyR false ls == none && failOk keyR ls 0x01 64 && ls.length == 32 && !ls.any isOutside | .error _ => false) = true
    ∧ (match virtR (withR keyR).m { keyR with xlat := some (0, 1) } 64 32 .rd with | .ok _ => false | .error _ => true) = true
    ∧ laneOfId (withR keyR).m false 9 = none ∧ tfind (2 ^ 64) (laneS laneX []).pow.paid = none
    ∧ (bucketOf { laneS laneX [] with pow.buckets := [(10008, ⟨1, 1, 0, 1⟩)] } 10008).level = 0 := by decide
/-- A gate lane in KEY_HOLD beside another lit one. -/
def gateL : State := on State.reset (fun m => { m with fab.tx := [(4096, { laneX with hold := true }), (4097, laneX)] })
theorem wit_LaneEvents_queue : inPaddock State.reset.m 1 = true ∧ inPaddock State.reset.m 64 = false ∧ queueHead State.reset.m = none
    ∧ (∀ w ∈ [false, true], queueHead (qS w).m = some ⟨1, 1, none, false, w⟩)
    ∧ tfind 4096 gateL.m.fab.tx = some { laneX with hold := true } ∧ tfind 4097 gateL.m.fab.tx = some laneX ∧ laneX.moved = false
    ∧ tfind 40 (withR ldR).m.fab.tx = some (Lane.fresh none) ∧ (Lane.fresh none).ctr < 2 ^ 48 ∧ 5 ≠ (withR ldR).m.host.peer := by decide
theorem wit_LaneEvents_lane : laneFor (withR ldR).m 5 0 = some 40 := by
  have g : viaGate (withR ldR).m 5 = false := by decide
  have k : lanesTo (withR ldR).m 5 = [40] := by decide
  simp only [laneFor, g, k, List.length_singleton, Nat.mod_one]
  rfl
/-- s1 points into the firmware region, s2 holds `v`. -/
def mgS (ws : List Nat) (v : Nat) : State := on (fwA ws) (fun m => setSReg m 128 2 v)
def lineX : List Byte := List.replicate 256 0
def mcR (line : List Byte) (as : List (Nat × Nat)) : Req := rq (.mcst 0 0 0 1 line 2 as)
def mcS (rs : List Req) : State := on (copyP 0) (fun m => { m with
  fab.groups := [(0, (2, 0))], mem.reqs := rs, fab.inbound := [(0, ⟨0, 1, 0, 1, true, 0⟩)] })
theorem wit_Multicast : sStarts (mgS [1, 0] 63).m 128 0 [.r 1, .r 2] [.r 3] = true
    ∧ payOf (mgS [1, 0] 255).m .whole (.r 2) < 256 ∧ payOf (mgS [1, 0] 63).m .whole (.r 2) < 64
    ∧ 256 ≤ payOf (mgS [1, 0] 256).m .whole (.r 2) ∧ 64 ≤ payOf (mgS [1, 0] 64).m .whole (.r 2)
    ∧ (match readNat (readDone (mgS [1, 0] 63).m [.r 1, .r 2] [.r 3]) (.unit 128 0) 0x7F0000000000 64 with | .ok _ => true | .error _ => false) = true
    ∧ (match readNat (readDone (mgS [2 ^ 32 + 1, 0] 63).m [.r 1, .r 2] [.r 3]) (.unit 128 0) 0x7F0000000000 16 with
      | .ok v => v == 2 ^ 32 + 1 | .error _ => false) = true
    ∧ bits (2 ^ 32 + 1) 32 32 ≠ 0 ∧ bits (2 ^ 32 + 1) 25 7 = 0 ∧ bits (2 ^ 32 + 1) 9 7 = 0
    ∧ memStarts (mcS []).m [.r 4, .r 5] [.r 3] [] = true ∧ (tget (0, 0) 0 (readDone (mcS []).m [.r 4, .r 5] [.r 3]).fab.groups).1 ≠ 0
    ∧ (match lineLocs (readDone (mcS []).m [.r 4, .r 5] [.r 3]) 0 256 with | .ok _ => true | .error _ => false) = true
    ∧ (mcS []).m.mem.reqs = [] ∧ (tget (0, 0) 1 (readDone (mcS []).m [.r 4, .r 5] [.r 3]).fab.groups).1 = 0
    ∧ reqOf (mcS [mcR [] []]).m 5 = some (mcR [] []) ∧ mayPerform (mcS [mcR [] []]).m (mcR [] []) = true
    ∧ (match scratchLocs (mcS [mcR [] []]).m (mcR [] []).who 0 0 256 with
      | .ok ls => locsFault (mcS [mcR [] []]).m (mcR [] []).who ls == none | .error _ => false) = true
    ∧ (match lineLocs (readDone (mcS []).m [.r 4, .r 5] [.r 3]) 0 16 with | .ok _ => true | .error _ => false) = true
    ∧ (∀ a ∈ [(1, 7)], a.2 < 8)
    ∧ (mcS []).m.fab.inbound.find? (fun e => e.2.valid && e.2.src == 1 && e.2.group == 0) = some (0, ⟨0, 1, 0, 1, true, 0⟩)
    ∧ 1 ≠ (mcS []).m.host.peer ∧ lineX.length = 256 ∧ memberHeld (mcS []).m 1 0 0 = false
    ∧ reqOf (mcS [mcR lineX []]).m 5 = some (mcR lineX []) ∧ lineX ≠ [] ∧ bitAt 2 1 = true ∧ peerFailed (mcS []).m 0 1 = false
    ∧ (∀ p < 512, bitAt 2 p = true → ∃ a ∈ [(1, 0)], a.1 = p) ∧ (∀ a ∈ [(1, 0)], a.2 = 0) := by decide +kernel
/-- This package is a member of its own group, and maps it; the word of its line is reserved, or its line is poisoned. -/
def ownS : State := on (mcS [rq (.mcst 0 0 0 1 lineX 1 [])]) (fun m => { m with fab.inbound := [(0, ⟨0, 1, 0, 0, true, 0⟩)] })
theorem wit_Multicast_own : reqOf ownS.m 5 = some (rq (.mcst 0 0 0 1 lineX 1 [])) ∧ bitAt 1 ownS.m.host.peer = true ∧ ownS.m.host.peer < 512
    ∧ peerFailed ownS.m 0 ownS.m.host.peer = false ∧ memberHeld ownS.m ownS.m.host.peer 0 0 = false
    ∧ memberMap ownS.m ownS.m.host.peer 0 = some ⟨0, 1, 0, 0, true, 0⟩ ∧ memberFault ownS.m (memberLocs ⟨0, 1, 0, 0, true, 0⟩ 0) = none
    ∧ (memberFault { ownS.m with sync.bad := [(0, [])] } (memberLocs ⟨0, 1, 0, 0, true, 0⟩ 0)).isSome = true
    ∧ memberHeld (on (mcS []) (fun m => { m with sync.resv := [(8, 99)] })).m 1 0 0 = true
    ∧ lineHeld (mcS []).m 2 0 = true ∧ bitAt 4 2 = true ∧ 2 ≠ (mcS []).m.host.peer := by decide +kernel
/-- An earlier store of the shepherd core to the vector's place. -/
def mcqQ : Req := rq (.store (.scratch (2 ^ 25)) 4 1) 7 .drop (.unit 128 0)
def mcqS : State := on (mcS [mcqQ]) (fun m => { m with ids := 6, cur := .unit 128 0 })
def mcqR (m : Mach) : Req := mkReq m (dstOf m (.r 3) false) (.mcstq (2 ^ 25) 0) 2 false false
theorem wit_Multicast_query : mayPerform (addReq (mcS []).m (mcqR (mcS []).m)) (mcqR (mcS []).m) = true
    ∧ mayPerform (addReq mcqS.m (mcqR mcqS.m)) (mcqR mcqS.m) = false ∧ holdsBack mcqS.m (mcqR mcqS.m) mcqQ = true
    ∧ lineHeld (mcS []).m 1 0 = true ∧ bits 1 32 32 = 0
    ∧ (match readNat (readDone (mgS [1, 0] 63).m [.r 1, .r 2] [.r 3]) (.unit 128 0) 0x7F0000000000 16 with | .ok v => v == 1 | .error _ => false) = true := by decide +kernel
/-- The table of pasture 0 maps page 0 as a migrate page, held here. -/
def pgS (rs : List Req) : State := on P (fun m => store 0x100000 [0x101000 + 385] (store 0x101000 [0x102000 + 385] (store 0x102000 [0x103000 + 385]
  (store 0x103000 [0x104000 + 385] (store 0x104000 [103] { mapped m with mem.hbm := [], mem.reqs := rs })))))
def ramoR : Req := rq (.ramo .add8 64 3 0) (7 + 512)
def pmR : Req := { rq (.pgmig 0 0 1) with xlat := none }
/-- A slot entry for output 0 of router 0, input 1. -/
def slotV : Nat := 2 ^ 35 + 2 ^ 32
theorem wit_PortalAndPages : memStarts P.m [.r 1, .r 2] [.r 3] (pairReg P.m true (.r 2)) = true ∧ payOf P.m .whole (.imm 16) % 2 ^ 64 % RamoOp.bytes .cas16 = 0
    ∧ memStarts P.m [.imm 16, .r 2, .r 3] [.r 3] (pairReg P.m false (.r 2)) = true
    ∧ reqOf (withR ramoR).m 5 = some ramoR ∧ mayPerform (withR ramoR).m ramoR = true
    ∧ (match targetOf (withR ramoR).m ramoR (.virt 64) 8 .ramo with | .at _ => true | _ => false) = true
    ∧ mayPerform (withR { ramoR with hwait := some 3 }).m { ramoR with hwait := some 3 } = false
    ∧ memStarts (pgS []).m [.r 1, .r 2] [.r 3] [] = true
    ∧ (match leafOf (readDone P.m [.r 1, .r 2] [.r 3]) P.m.cur 0 0 with | .ok _ => false | .error _ => true) = true
    ∧ (match leafOf (readDone (relS false []).m [.r 1, .r 2] [.r 3]) P.m.cur 0 0 with | .ok e => !migratable e | .error _ => false) = true
    ∧ (match leafOf (readDone (pgS []).m [.r 1, .r 2] [.r 3]) P.m.cur 0 0 with | .ok e => migratable e && bits e 52 9 == 0 | .error _ => false) = true
    ∧ payOf (pgS []).m .whole (.imm 1) % 512 = 1 ∧ peerFailed (pgS []).m 0 1 = false ∧ memStarts (pgS []).m [.r 1, .imm 1] [.r 3] [] = true
    ∧ reqOf (pgS [pmR]).m 5 = some pmR ∧ pmR.done = false ∧ pteAddr (pgS []).m 0 walkLevels (pastOf (pgS []).m 0).xroot = some 0x104000
    ∧ (pgS []).m.mem.reqs = [] ∧ 1 ≠ (pgS []).m.host.peer ∧ bits (memRead (pgS []).m.mem.hbm 0x104000 8) 52 9 = (pgS []).m.host.peer
    ∧ (let s := on U (fun m => setSReg (live m) 128 1 slotV)
       sStarts s.m 128 0 [.r 1] [.r 3] = true ∧ (slotEntry (readDone s.m [.r 1] [.r 3]) 0 [] (payOf s.m .whole (.r 1))).isSome = true
         ∧ slotEntry (readDone s.m [.r 1] [.r 3]) 0 [] (payOf s.m .whole (.imm 63)) = none)
    ∧ (([(0, some 1), (2048, none)] : List (Nat × Option Nat)).map (·.1)).Nodup := by decide +kernel

/-! ## Witnesses: installs, traps, the system, the host -/

/-- The cells of a block image of 39 units of 64 bytes for frame 0, zero but for its header and the cells `cs`. -/
def imgC (cs : List Host.Cell) : List Host.Cell := [(0, 0x48), (1, 0x4B), (2, 1), (4, 39)] ++ cs
/-- The shepherd core of cluster 0 with the image at the start of its firmware region. -/
def imgS (cs : List Host.Cell) : State := { State.reset with m := { State.reset.m with
  cur := .unit 128 0, host.fwSize := 65536, mem.hbm := imgC cs, sys.past := [(0, { Pasture.reset with st := .live, cset := 1 })]
  seq.units := [(128, { SUnit.reset with base := 0x7F0000000000, run := .running, s := [(1, 0x7F0000000000)] })] } }
/-- The image as words. -/
def imgR (f : List (Nat × Nat)) : List W64 :=
  f.foldl (fun l x => l.set x.1 (BitVec.ofNat 64 x.2)) (BitVec.ofNat 64 (0x4B48 + 2 ^ 16 + 39 * 2 ^ 32) :: List.replicate 311 0)
theorem wit_Installs : sStarts (fwA []).m 128 0 [.r 1, .r 2] [.r 3] = true ∧ coreIn (readDone (fwA []).m [.r 1, .imm 1] [.r 3]) 0 1 = false
    ∧ sStarts (fwA []).m 128 0 [.r 1, .imm 1] [.r 3] = true ∧ coreIn (fwA []).m 0 0 = true
    ∧ armatureBusy (readDone (fwA []).m [.r 1, .r 2] [.r 3]) (.unit 128 0) 0 0x7F0000000000 = false
    ∧ (match readImage (readDone (fwA []).m [.r 1, .r 2] [.r 3]) (.unit 128 0) 0 0 0x7F0000000000 with | .ok _ => false | .error _ => true) = true
    ∧ (match readNat (fwA [2 ^ 24]).m (.unit 128 0) 0x7F0000000000 8 with
      | .ok h => !frameBusy (fwA [2 ^ 24]).m 0 (bits h 24 1) && !header0Ok h | .error _ => false) = true
    ∧ frameBusy boundS.m 0 0 = true := by decide +kernel
/-- An earlier store of the shepherd core to the image is to be performed. -/
def heldImg : State := on (fwA []) (fun m => { m with host.fwData := 65536, ids := 6, mem.reqs := [{ rq (.store (.virt 0x7F0000010000) 8 1) with who := .unit 128 0, xlat := none }] })
theorem wit_Installs_waits : armatureBusy (on (fwA []) (fun m => { m with seq.installs := [(0, ⟨[], none, 0, .zero, none⟩)] })).m (.unit 128 0) 0 0x7F0000000000 = true
    ∧ readsHeld heldImg.m (.unit 128 0) 0x7F0000010000 (fun h => 64 * imgSize h) = true
    ∧ readsHeld (fwA []).m (.unit 128 0) 0x7F0000000000 (fun h => 64 * imgSize h) = false := by decide +kernel
/-- The firmware region is page 0 of HBM. -/
theorem img_leaf (cs : List Host.Cell) (va : Nat) (h : 0x7F0000000000 ≤ va) (k : va - 0x7F0000000000 < 65536) :
    fwLeaf (imgS cs).m va = .ok 11 := by
  have e1 : pageUp (imgS cs).m.host.fwSize = 65536 := by show pageUp 65536 = _; decide
  have e2 : (imgS cs).m.host.fwBase = 0 := rfl
  have e3 : (va - 0x7F0000000000) / 65536 = 0 := by omega
  simp only [fwLeaf, e1, e2, e3]
  rw [if_neg (by omega), if_pos k]
theorem img_xlate (cs : List Host.Cell) (va : Nat) (h : 0x7F0000000000 ≤ va) (k : va - 0x7F0000000000 < 65536) :
    xlate (imgS cs).m (.unit 128 0) 0 va .rd = .ok (.hbm (va - 0x7F0000000000)) := by
  have h1 : tlbHit (tlbsOf (imgS cs).m (.unit 128 0)) 0xFFF va = none := rfl
  have hl : leafOf (imgS cs).m (.unit 128 0) 0 va = .ok 11 := by
    have hs : isShepActor (.unit 128 0) = true := by decide
    simp only [leafOf, hs, tlbTag, if_true, h1, walk]
    rw [if_neg (by omega), img_leaf cs va h k]
  have hp : leafLoc (imgS cs).m 11 va = .hbm (va - 0x7F0000000000) := by
    have e1 : pteSize 11 = 65536 := by decide
    have e2 : bits 11 12 40 = 0 := by decide
    have e3 : bitAt 11 9 = false := by decide
    have e4 : bits 11 5 2 = 0 := by decide
    have e5 : va % 65536 = va - 0x7F0000000000 := by omega
    simp only [leafLoc, e1, e2, e3, e4, e5]
    rw [if_neg (by decide), if_pos (by omega), Nat.zero_mul, Nat.zero_add]
  rw [xlate, hl]
  show leafPlace (imgS cs).m true 11 va .rd = _
  rw [leafPlace, if_pos (by decide), hp]
  rfl
theorem mapM_ok {α β ε : Type} (f : α → Except ε β) (g : α → β) : ∀ l : List α, (∀ x ∈ l, f x = .ok (g x)) → l.mapM f = .ok (l.map g)
  | [], _ => rfl
  | x :: l, h => by
    rw [List.mapM_cons, h x (by simp), mapM_ok f g l (fun y hy => h y (by simp [hy]))]
    rfl
theorem img_read (cs : List Host.Cell) (n : Nat) (h : n ≤ 65536) :
    readBytes (imgS cs).m (.unit 128 0) 0x7F0000000000 n = .ok ((upto n).map (memGet (imgC cs))) := by
  have hl : virtLocs (imgS cs).m (.unit 128 0) 0 0x7F0000000000 n .rd = .ok ((upto n).map Loc.hbm) :=
    mapM_ok _ _ _ (fun i hi => by
      have hi : i < n := by simpa [upto] using hi
      rw [Nat.mod_eq_of_lt (by omega), img_xlate cs _ (by omega) (by omega), Nat.add_sub_cancel_left])
  have hd : ∀ pa, Config.rowChannel (rowOf pa) ∉ (imgS cs).m.mem.degraded := fun pa => List.not_mem_nil
  have hf : locsFault (imgS cs).m (.unit 128 0) ((upto n).map Loc.hbm) = none := by
    rw [locsFault, List.findSome?_eq_none_iff]
    intro l hl
    obtain ⟨i, -, rfl⟩ := List.mem_map.1 hl
    rfl
  have hp : pastOfActor (imgS cs).m (.unit 128 0) = 0 := by
    show bits (tget Shep.reset (128 - 128) ([] : Tbl Shep)).status.toNat 12 4 = 0
    decide
  simp only [readBytes, hp, hl, hf]
  congr 1
  apply List.map_congr_left
  intro i hi
  have hi : i < n := by simpa [upto] using hi
  have e : ((upto n).map Loc.hbm)[i]? = some (.hbm i) := by simp [upto, hi]
  rw [e]
  rfl
theorem map_ok {α β ε : Type} (f : α → β) (a : α) : Except.map f (.ok a : Except ε α) = .ok (f a) := rfl
theorem slice_map {β : Type} (g : Nat → β) (n k : Nat) (h : k + 8 ≤ n) : (((upto n).map g).drop k).take 8 = (List.range' k 8).map g := by
  apply List.ext_getElem
  · simp [upto]; omega
  · intro i h1 h2
    simp [upto]
theorem img_words : readWords (imgS []).m (.unit 128 0) 0x7F0000000000 312 = .ok (imgR []) := by
  rw [readWords, img_read [] (8 * 312) (by omega), map_ok]
  refine congrArg Except.ok ?_
  have e : ∀ i ∈ upto 312, BitVec.ofNat 64 (natOf ((((upto (8 * 312)).map (memGet (imgC []))).drop (8 * i)).take 8))
      = BitVec.ofNat 64 (natOf ((List.range' (8 * i) 8).map (memGet (imgC [])))) := by
    intro i hi
    have hi : i < 312 := by simpa [upto] using hi
    rw [slice_map _ _ _ (by omega)]
  rw [List.map_congr_left e]
  decide +kernel
/-- The image is read, passes every check and is handed to the armature; bytes that do not make a header are refused. -/
theorem wit_Installs_image : ∃ r, readImage (imgS []).m (.unit 128 0) 0 0 0x7F0000000000 = .ok (imgR [], r)
    ∧ armatureBusy (imgS []).m (.unit 128 0) 0 0x7F0000000000 = false := by
  have h : readNat (imgS []).m (.unit 128 0) 0x7F0000000000 8 = .ok (0x4B48 + 2 ^ 16 + 39 * 2 ^ 32) := by
    rw [readNat, img_read [] 8 (by omega), map_ok]
    exact congrArg Except.ok (by decide +kernel)
  have hj : (match judge (imgS []).m (.unit 128 0) 0 0 (imgR []) with | .ok _ => true | .error _ => false) = true := by decide +kernel
  cases hr : judge (imgS []).m (.unit 128 0) 0 0 (imgR []) with
  | error v => rw [hr] at hj; cases hj
  | ok r =>
    refine ⟨r, ?_, ?_⟩
    · have e : 8 * imgSize (0x4B48 + 2 ^ 16 + 39 * 2 ^ 32) = 312 := by decide
      simp only [readImage, h, e, img_words, hr]
      rw [if_neg (by decide), if_neg (by decide)]
    · simp only [armatureBusy, h]
      decide
theorem wit_Installs_judge : header0Ok (imgWord (imgR []) 0) = true ∧ imgSize (imgWord (imgR []) 0) = 39 ∧ (imgR []).length = 312
    ∧ (match judge State.reset.m (.pe 0 0 0 0 0 false) 0 0 (imgR []) with | .ok _ => true | .error _ => false) = true := by decide +kernel
/-- A reserved opcode in a valid slot, an instruction in an empty slot, and a reserved bit in a binding word. -/
theorem wit_Installs_failures : (badWord State.reset.m 0 (imgR [(8, 8 * 2 ^ 32), (136, 0x200)])).isSome = true
    ∧ badWord State.reset.m 0 (imgR [(8, 1)]) = none ∧ headerOk (imgR [(8, 1)]) = true ∧ (badCtl (imgR [(8, 1)])).isSome = true
    ∧ badWord State.reset.m 0 (imgR [(184, 1)]) = none ∧ headerOk (imgR [(184, 1)]) = true ∧ badCtl (imgR [(184, 1)]) = none
    ∧ (badBind (imgR [(184, 1)])).isSome = true := by decide +kernel
def insS (u : Option Nat) : State := on (fw []) (fun m => { m with seq.installs := [(0, ⟨imgR [], u, 0, .zero, none⟩)] })
theorem wit_Installs_transfer : (∀ u ∈ [some 128, none], tfind (frameKey 0 0) (insS u).m.seq.installs = some ⟨imgR [], u, 0, .zero, none⟩)
    ∧ (pastOf (insS (some 128)).m (pastOfActor (insS (some 128)).m (.unit 128 0))).image = none ∧ (pastOf (insS none).m (pastOfCore (insS none).m 0)).image = none
    ∧ (match judge (insS none).m (.pe 0 0 0 0 0 false) (pastOfCore (insS none).m 0) 0 (imgR []) with | .ok _ => true | .error _ => false) = true := by decide +kernel
/-- The shepherd core of cluster 0 with other privileged registers. -/
def shS (x : Shep) : State := on (fw []) (fun m => setShep m 0 x)
def trS (c : Nat) : State := on (fw []) (fun m => setSReg m 128 1 c)
theorem wit_Traps : (let s := on U (fun m => { live m with seq.units := [(128, { SUnit.reset with run := .running })] })
      unitMayRun s.m 128 = true ∧ (match fetchWord s.m 128 with | .ok _ => false | .error _ => true) = true)
    ∧ unitMayRun (fw [8 * 2 ^ 32]).m 128 = true
    ∧ (match fetchWord (fw [8 * 2 ^ 32]).m 128 with
      | .ok x => (match wordFate (fw [8 * 2 ^ 32]).m 128 x with | .ok _ => false | .error _ => true) | .error _ => false) = true
    ∧ (∀ n < 3, shDepth (shepOf (shS { Shep.reset with status := BitVec.ofNat 64 n }).m 0) = n
      ∧ tvecFetches (shS { Shep.reset with status := BitVec.ofNat 64 n }).m 0 = true)
    ∧ sStarts (trS 128).m 128 0 [.r 1, .r 2] [] = true ∧ 128 ≤ payOf (trS 128).m .whole (.r 1) % 256 ∧ payOf (trS 127).m .whole (.r 1) % 256 < 128
    ∧ (fw []).m.cur = .unit 128 0 ∧ shDepth (shepOf (fw []).m 0) = 0 ∧ statusOk { Shep.reset with status := 1 } = true
    ∧ shDepth { Shep.reset with status := 1, sst1 := 8 } ≠ 0 ∧ statusOk { Shep.reset with status := 1, sst1 := 8 } = false
    ∧ bits (shepOf (fw []).m 0).status.toNat 3 9 = 0 ∧ bits (shepOf (fw []).m 0).status.toNat 16 48 = 0 ∧ 65535 < 2 ^ 16
    ∧ (let s := shS { Shep.reset with status := 4, queue := [⟨0x10, 0, 0⟩] }
       (unitOf s.m 128).run = .running ∧ (shepOf s.m 0).queue = ⟨0x10, 0, 0⟩ :: [] ∧ unitBlocked s.m 128 = false ∧ shDepth (shepOf s.m 0) = 0
         ∧ shAE (shepOf s.m 0) = true ∧ (shepOf s.m 0).queue[0]? = some ⟨0x10, 0, 0⟩ ∧ unitWaits s.m 128 = false)
    ∧ shAE (shepOf (fw []).m 0) = false := by decide +kernel
theorem wit_Traps_room : isShepherd 0 = false ∧ holdsRec (fw []).m (.unit 0 0) = false ∧ causeRoom (fw []).m 0 = true
    ∧ causeRoom (shS { Shep.reset with queue := List.replicate 64 ⟨0x10, 0, 0⟩ }).m 0 = false := by decide +kernel
/-- Pasture 0 in a state; pastures 1 and 2 fill both slots of core 0 when `full`. -/
def psS (st : PState) (full : Bool) : State := on (fw [0]) (fun m => { m with sys.past :=
  (0, { Pasture.reset with st := st, cset := 1, xroot := 0x100000 }) :: (if full then [1, 2].map (fun p => (p, { Pasture.reset with st := .shadowed, cset := 1 })) else []) })
def sysR (op : SysOp) : Req := { rq (.sys op) 7 .drop (.unit 128 0) with xlat := none }
def gateS (ts : List Transit) (op : SysOp) : State := on (fw []) (fun m => { m with
  sys.past := [(0, { Pasture.reset with st := .live, cset := 1, gate := some 5 })], mem.reqs := [sysR op], fab.transit := ts })
theorem wit_SystemOperations : sStarts (trS 15).m 128 0 [.r 1, .r 2] [.r 3] = true ∧ payOf (trS 15).m .whole (.r 1) < 16
    ∧ payOf (trS 15).m .whole (.r 2) < 16 ∧ sStarts (trS 15).m 128 0 [.r 1] [.r 3] = true ∧ 16 ≤ payOf (trS 16).m .whole (.r 1)
    ∧ (let s := on (fw []) (fun m => { m with sys.past := [(0, { Pasture.reset with st := .live, log := some ⟨0, 0, 3, 1, false, false⟩ })] })
       (pastOf (readDone s.m [.r 1, .r 2] [.r 3]) 0).log = some ⟨0, 0, 3, 1, false, false⟩)
    ∧ (pastOf (psS .ready false).m 0).st ≠ .live ∧ (pastOf (psS .ready false).m 0).st ≠ .shadowed
    ∧ coresFree (psS .shadowed false).m 0 none = true ∧ slotsFree (psS .saved true).m 0 none = false ∧ slotsFree (psS .saved false).m 0 none = true
    ∧ (pastOf (psS .halted false).m 0).st = .halted
    ∧ (match gtblMembers (psS .ready false).m (sysR (.preempt 0)).who 0 0x7F0000000000 with | .ok _ => true | .error _ => false) = true
    ∧ ringOk rdefS.m 0 0x10000 0 = true
    ∧ (pastOf (gateS [] (.preempt 0)).m 0).gate = some 5 ∧ halting (gateS [] (.preempt 0)).m 0 = false
    ∧ (gateS [⟨8, 0, ⟨⟨5, false, false⟩, false, false, 0⟩, none⟩] (.preempt 0)).m.fab.transit.any
        (fun t => t.src < 200000 && boundFor (gateS [] (.preempt 0)).m 0 t) = true
    ∧ (∀ op ∈ [SysOp.preempt 0, .resume 1 (some 0)], reqOf (takeImage (gateS [] op).m 0) 5 = some (sysR op)
      ∧ (gateS [] op).m.seq.installs = [] ∧ (gateS [] op).m.fab.transit = []) := by decide +kernel
/-- Memory without uncorrectable units and degraded pseudo-channels is read. -/
theorem area_reads (m : Mach) (b n : Nat) (h : b + n ≤ 2 ^ 39) (g : m.mem.badHbm = []) (d : m.mem.degraded = []) : areaReads m b n = true := by
  simp only [areaReads, badUnit, g, d]
  simpa using h
theorem wit_SystemOperations_area : areaReads (psS .saved false).m (pastOf (psS .saved false).m 0).ctxbase (ctxBytes (psS .saved false).m 0) = true := by
  refine area_reads _ _ _ ?_ rfl rfl
  have e : slotArea (psS .saved false).m 0 = 229376 := by decide +kernel
  have b : (pastOf (psS .saved false).m 0).ctxbase = 0 := by decide +kernel
  have u : unitArea < 2 ^ 20 := Nat.mod_lt _ (by decide)
  rw [b, ctxBytes, e]
  omega
/-- A swap: pasture 0 is shadowed, and pasture 1 runs on its core. -/
def swapS : Mach := { State.reset.m with
  sys.past := [(0, { Pasture.reset with st := .shadowed, cset := 1 }), (1, { Pasture.reset with st := .live, cset := 1 })], sys.coreOwner := [(0, 1)] }
theorem wit_SystemOperations_swap : (pastOf swapS 0).st = .shadowed ∧ (pastOf swapS 1).st = .live ∧ coresFree swapS 0 (some 1) = true
    ∧ coresFree swapS 0 none = false ∧ slotsFree swapS 1 (some 0) = true
    ∧ slotsFree { swapS with sys.past := swapS.sys.past ++ [2, 3].map (fun p => (p, { Pasture.reset with st := .shadowed, cset := 1 })) } 1 (some 0) = false := by
  decide +kernel
/-- One byte of the context area of pasture 0 has been written, as `v`; its image holds nothing. -/
def savedS (v : Byte) : Mach := { (psS .saved false).m with
  mem.hbm := [(0, v)]
  sys.past := [(0, { Pasture.reset with st := .saved, cset := 1, ctxsave := (0, 1, 0), image := some ⟨PeS.reset, [], [], [], [], [], [], [], []⟩ })] }
theorem wit_SystemOperations_intact : areaIntact (psS .saved false).m 0 = true := by decide +kernel
theorem savedS_intact (v : Byte) (h : areaIntact (savedS v) 0 = true) : memBytes [] 0 (areaBytes 0 1) = [(0, v)] := (eq_of_beq h).symm
theorem wit_SystemOperations_changed : ∃ v : Byte, areaIntact (savedS v) 0 = false ∧ (pastOf (savedS v) 0).image.isSome = true := by
  by_cases h : areaIntact (savedS 1) 0 = true
  · refine ⟨2, ?_, rfl⟩
    by_contra g
    have e := (savedS_intact 1 h).symm.trans (savedS_intact 2 (by simpa using g))
    exact absurd e (by decide)
  · exact ⟨1, by simpa using h, rfl⟩
/-- A graph context of pasture 0 runs. -/
def graphS : State := on (gateS [] (.preempt 0)) (fun m => setUnit m 3 { SUnit.reset with run := .running })
theorem wit_SystemOperations_image : ctxRoom (gateS [] (.resume 1 (some 0))).m 1 (some 0) = true ∧ ctxOf graphS.m 0 3 = true
    ∧ ((pastOf (takeImage graphS.m 0) 0).image.map (·.units)) = some [(3, { SUnit.reset with run := .running })] ∧ (unitOf State.reset.m 3).run = .idle := by decide +kernel
def tlR : Req := { rq (.tlbi [4]) 7 .drop (.unit 128 0) with xlat := none }
/-- A range word: valid, pasture `p`, length, base, entry. -/
def rangeV (p len base e : Nat) : Nat := 2 ^ 63 + p * 2 ^ 52 + e * 2 ^ 48 + len * 2 ^ 16 + base
def ptS (v : Nat) : State := on (trS 0) (fun m => setSReg m 128 2 v)
/-- s1 points into the firmware's data area, s2 to a nonce. -/
def attS : State := on (fw []) (fun m => { setSReg (setSReg m 128 1 0x7F0000010000) 128 2 0x7F0000000000 with host.fwSize := 65536, host.fwData := 65536 })
theorem wit_InvalidateAndPartition : sStarts (trS 0).m 128 0 [.r 1, .r 2] [.r 3] = true
    ∧ tlbIn (unitCluster 128 0) 3 1016 = false ∧ tlbIn (unitCluster 128 0) 3 1000 = true
    ∧ (let s := on (fw []) (fun m => { m with mem.reqs := [{ ldR with id := 4 }, tlR] })
       reqOf s.m 5 = some tlR ∧ tlR.done = false ∧ (4 ∈ [4] ∧ running s.m 0 = true))
    ∧ reqOf (on (fw []) (fun m => { m with mem.reqs := [tlR] })).m 5 = some tlR
    ∧ payOf (ptS 0).m .whole (.r 1) % 2 ^ 10 < 768 ∧ partWordOk (rangeV 0 2048 0 7) = true ∧ coreIn (readDone (ptS 0).m [.r 1, .r 2] [.r 3]) 0 0 = true
    ∧ partWordOk (rangeV 0 2048 1 0) = false ∧ coreIn (readDone (ptS 0).m [.r 1, .r 2] [.r 3]) 1 0 = false
    ∧ partBusy (copyP 0).m 0 1 (rangeV 1 16 0 1) = false ∧ partOverlap (copyP 0).m 0 1 (rangeV 1 16 0 1) = true ∧ partOverlap (copyP 0).m 0 1 (rangeV 0 16 0 1) = false
    ∧ bitAt (rangeV 1 16 0 1) 63 = true ∧ bits (rangeV 1 16 0 1) 16 12 = 16 ∧ bitAt 0 63 = false
    ∧ tfind (0 * 2048 + (bits (rangeV 1 16 0 1) 0 11 + 0)) (on State.reset (fun m => { m with sys.owners := [(0, 2)] })).m.sys.owners = some 2
    ∧ sStarts attS.m 128 0 [.r 1, .r 2] [.r 3] = true
    ∧ (match readBytes (readDone attS.m [.r 1, .r 2] [.r 3]) (.unit 128 0) (payOf attS.m .whole (.r 2) % 2 ^ 56) 32 with | .ok _ => true | .error _ => false) = true
    ∧ (match virtLocs (readDone attS.m [.r 1, .r 2] [.r 3]) (.unit 128 0) 0 (payOf attS.m .whole (.r 1) % 2 ^ 56) 256 .wr with
      | .ok ls => ls.all (fun l => match l with | .missing _ => false | _ => true) | .error _ => false) = true
    ∧ (List.replicate 32 (0 : Byte)).length = 32 := by decide +kernel
/-- Where ATTEST writes its report in `attS`. -/
def attLocs : List Loc :=
  match virtLocs (readDone attS.m [.r 1, .r 2] [.r 3]) (.unit 128 0) 0 (payOf attS.m .whole (.r 1) % 2 ^ 56) 256 .wr with | .ok ls => ls | .error _ => []
def attBad (m : Mach) : Bool := (faultR m (mkReq m .drop .tile 5 false false) true attLocs).isSome || (lineFault m attLocs).isSome
theorem wit_InvalidateAndPartition_report : attBad (readDone attS.m [.r 1, .r 2] [.r 3]) = false
    ∧ (let m := readDone attS.m [.r 1, .r 2] [.r 3]
       heldByResv m (ctxCode (pastOfActor m (.unit 128 0)) (.unit 128 0)) attLocs || rowsHeld m attLocs || locsMoving m attLocs) = false := by decide +kernel
theorem wit_InvalidateAndPartition_stops : attBad { attS.m with sync.bad := [(1024, [0])] } = true
    ∧ heldByResv { attS.m with sync.resv := [(65536 * 16 + 8, 5)] } 7 attLocs = true := by decide +kernel
def readyS : State := on State.reset (fun m => { m with host.phase := 7, sys.past := [(15, { Pasture.reset with st := .ready, cset := 1, log := some ⟨0, 0, 0, 0, false, false⟩ })] })
theorem wit_HostWrites : accessLeft State.reset.m 0 State.reset.m.ids = false
    ∧ (let m := { (withR stR).m with ids := 6 }; accessLeft m 0 m.ids = true)
    ∧ bits (0x40 : BitVec 64).toNat 56 8 = 0 ∧ bits (0x40 : BitVec 64).toNat 0 6 = 0 ∧ (pastOf readyS.m 15).st = .ready
    ∧ (coresOf readyS.m 15).head? = some 0 ∧ (pastOf readyS.m 15).log.isSome = true ∧ freeGraphCtx readyS.m (clusterOf 0) = some 0
    ∧ bits (0x3F : BitVec 64).toNat 0 6 ≠ 0 ∧ bits (0xFF00000000000000 : BitVec 64).toNat 56 8 ≠ 0 ∧ (pastOf readyS.m 14).st ≠ .ready
    ∧ (511 : BitVec 64).toNat < 512 ∧ (shepOf readyS.m 0).queue.length < 64 ∧ readyS.m.seq.heldTraps = [] ∧ 2 ^ 64 - 1 < 2 ^ 64
    ∧ bitAt (0x8000000000000001 : BitVec 64).toNat 63 = true
    ∧ (tget EvSlot.reset (15 * 64 + 63) (on readyS (fun m => { m with host.slots := [(1023, ⟨9, true, 1⟩)] })).m.host.slots).count
        = bits (0x8000000000000001 : BitVec 64).toNat 0 32
    ∧ (tget EvSlot.reset (15 * 64 + 62) readyS.m.host.slots).count ≠ bits (0x8000000000000001 : BitVec 64).toNat 0 32 := by decide +kernel
def busyS : State := on State.reset (fun m => { m with host.busy := true })
theorem wit_StartAndPower : bitAt (1 : BitVec 64).toNat 0 = true ∧ bitAt (2 : BitVec 64).toNat 0 = false ∧ bitAt (2 : BitVec 64).toNat 1 = true
    ∧ busyS.m.host.busy = true ∧ busyS.m.host.startWarm = false ∧ (⟨1, [], 2 ^ 38, 0, 6⟩ : StartReport).base + 2 ^ 26 + 2 ^ 32 ≤ 2 ^ 39
    ∧ State.reset.m.host.busy = false ∧ 524280 < 524288 ∧ 524280 % 8 = 0 ∧ (500 : BitVec 64).toNat % 4096 = 500 ∧ (2500 : BitVec 64).toNat % 4096 = 2500
    ∧ 63 ≠ State.reset.m.host.peer ∧ 63 / 64 = State.reset.m.host.peer / 64 ∧ 7 < 8 := by decide +kernel
/-- A start in each of its steps; a warm start keeps its image and does not scrub, or scrubs. -/
def stepS (n : Nat) : State := on busyS (fun m => { m with host.phase := n })
theorem wit_StartAndPower_steps : (∀ n ∈ [1, 2, 3, 4, 5, 6], (stepS n).m.host.busy = true ∧ (stepS n).m.host.phase = n)
    ∧ (⟨0, [], 2 ^ 38, 0, 6⟩ : StartReport).steps = 6 ∧ (⟨0, [], 2 ^ 38, 0, 6⟩ : StartReport).result = 0 ∧ (stepS 1).m.host.startWarm = false
    ∧ (∀ c ∈ [1, 2, 3, 4, 5], (⟨c, [], 0, 0, 6⟩ : StartReport).result < 6) ∧ skipsStep2 (stepS 2).m ⟨0, [], 0, 0, 6⟩ = false
    ∧ bitAt (2 : BitVec 64).toNat 0 = false := by decide +kernel
theorem wit_MemoryWrites : ([.hbm 0, .spad 5] : List Loc).length = ([1, 2] : List Byte).length := by decide

end Sys2Proof.Tests
end

/-! PROOFS. What a place of the package's memory reads after writes of bytes at places (R3, R189). -/
namespace Sys2Proof.Machine

/-- The places whose bytes the model's memory holds: HBM and the scratchpads. At the others `locByte` reads 0 and `setByte`
keeps nothing. -/
def inMemory : Loc → Bool
  | .hbm _ | .spad _ => true
  | _ => false

theorem locByte_setByte_same (m : Mach) (p : Loc) (b : Byte) (hp : inMemory p = true) :
    locByte (setByte m p b) p = b := by
  cases p with
  | hbm | spad => exact memGet_memPut_same ..
  | peer | host | missing => cases hp

theorem locByte_setByte_other (m : Mach) (l p : Loc) (b : Byte) (h : l ≠ p) :
    locByte (setByte m l b) p = locByte m p := by
  cases l with
  | hbm a =>
    cases p with
    | hbm a' => exact memGet_memPut_other _ _ _ _ fun e => h (e ▸ rfl)
    | _ => rfl
  | spad a =>
    cases p with
    | spad a' => exact memGet_memPut_other _ _ _ _ fun e => h (e ▸ rfl)
    | _ => rfl
  | _ => rfl

/-- The list of writes is searched from its end: the rest of the list is written after its head, so the head's byte is read
only where the rest does not write the place. -/
theorem locByte_setBytes (m : Mach) (ls : List Loc) (bs : List Byte) (p : Loc) (hp : inMemory p = true) :
    locByte (setBytes m ls bs) p =
      (((ls.zip bs).reverse.find? (fun e => e.1 == p)).map (·.2)).getD (locByte m p) := by
  induction ls generalizing m bs with
  | nil => rfl
  | cons l ls ih =>
    cases bs with
    | nil => rfl
    | cons b bs =>
      have later := ih (setByte m l b) bs
      rw [setBytes, later, List.zip_cons_cons, List.reverse_cons, List.find?_append]
      cases (ls.zip bs).reverse.find? (fun e => e.1 == p) with
      | some e => rfl
      | none =>
        by_cases h : l = p
        · subst h
          simp [locByte_setByte_same m l b hp]
        · simp [locByte_setByte_other m l p b h, h]

/-- Settles O9: the canonical form by `setBytes_hbm_wf` and `setBytes_spad_wf`, what a place reads by `locByte_setBytes`. -/
theorem memoryWrites : Obligations.MemoryWrites := by
  intro m ls bs _
  exact ⟨setBytes_hbm_wf m ls bs, setBytes_spad_wf m ls bs,
    fun a => locByte_setBytes m ls bs (.hbm a) rfl, fun a => locByte_setBytes m ls bs (.spad a) rfl⟩

end Sys2Proof.Machine

/-! PROOFS. What a lifted meaning gives, and what tables and lists read after a write. -/
namespace Sys2Proof.Machine

/-- A meaning that is lifted goes on with what it makes of the machine proper. -/
theorem next_of_lift {i : Instr} {s : State} {m : Mach} (g : Mach → Mach) (hi : exec i s = lift g s) (hm : g s.m = m) :
    exec i s = .next { s with m := m } := by
  rw [hi, lift, hm]

theorem tget_tdel {V : Type} (d : V) (j k : Nat) (t : Tbl V) : tget d j (tdel k t) = if j = k then d else tget d j t := by
  unfold tget
  split
  · rename_i h
    rw [h, tfind_tdel_same]
    rfl
  · rename_i h
    rw [tfind_tdel_other _ _ _ h]

theorem tget_tset {V : Type} (d : V) (j k : Nat) (v : V) (t : Tbl V) : tget d j (tset k v t) = if j = k then v else tget d j t := by
  unfold tget
  split
  · rename_i h
    rw [h, tfind_tset_same]
    rfl
  · rename_i h
    rw [tfind_tset_other _ _ _ _ h]

/-- A fold whose steps leave its start as it is. -/
theorem foldl_eq_self {α β : Type} {f : β → α → β} {b : β} {l : List α} (h : ∀ a ∈ l, f b a = b) : l.foldl f b = b := by
  induction l with
  | nil => rfl
  | cons a l ih => rw [List.foldl_cons, h a List.mem_cons_self, ih fun x hx => h x (List.mem_cons_of_mem _ hx)]

/-- A list that takes an element unless it holds it. -/
theorem mem_insertNew {l : List Nat} {a x : Nat} : x ∈ (if l.contains a then l else a :: l) ↔ x = a ∨ x ∈ l := by
  split
  · rename_i h
    exact ⟨.inr, fun hx => hx.elim (fun e => e ▸ List.contains_iff_mem.mp h) id⟩
  · exact List.mem_cons

end Sys2Proof.Machine

/-! PROOFS. Every step keeps the range of CAP, the depth of the buckets and the number of selected pairs (R32, R39, R450). -/
namespace Sys2Proof.Machine

theorem mem_of_tfind {V : Type} {k : Nat} {v : V} {t : Tbl V} (h : tfind k t = some v) : (k, v) ∈ t := by
  induction t with
  | nil => cases h
  | cons e t ih =>
    obtain ⟨a, x⟩ := e
    simp only [tfind] at h
    split at h
    · rename_i ha
      cases h
      exact ha ▸ List.mem_cons_self
    · exact List.mem_cons_of_mem _ (ih h)

/-- The invariant reads CAP, the buckets and the selected pairs, and no other part of the state. -/
theorem runOk_iff (s : State) : runOk s = true ↔
    (500 ≤ s.pow.cap ∧ s.pow.cap ≤ 2500) ∧ s.sched.firing.length ≤ 2 ∧ ∀ e ∈ s.pow.buckets, bucketOk e.2 = true := by
  simp only [runOk, Bool.and_eq_true, decide_eq_true_eq, List.all_eq_true, and_assoc]

theorem runOk_congr {s t : State} (h : runOk s = true) (hc : t.pow.cap = s.pow.cap) (hb : t.pow.buckets = s.pow.buckets)
    (hf : t.sched.firing.length ≤ 2) : runOk t = true := by
  rw [runOk_iff] at h ⊢
  rw [hc, hb]
  exact ⟨h.1, hf, h.2.2⟩

/-- The machine proper does not matter. -/
theorem runOk_machine {s : State} (h : runOk s = true) (m : Mach) : runOk { s with m := m } = true := h

theorem firing_length_le {s : State} (h : runOk s = true) : s.sched.firing.length ≤ 2 := ((runOk_iff s).mp h).2.1

/-! ## Buckets -/

theorem bucketOk_iff (b : Bucket) : bucketOk b = true ↔ 1 ≤ b.depth ∧ 1 ≤ b.rate ∧ 1 ≤ b.newRate ∧ b.level ≤ b.depth := by
  simp only [bucketOk, decide_eq_true_eq]

/-- A port that Bruosh has not set has the bucket of power-on, which meets the invariant too. -/
theorem bucketOk_bucketOf {s : State} (h : runOk s = true) (port : Nat) : bucketOk (bucketOf s port) = true := by
  obtain ⟨-, -, hb⟩ := (runOk_iff s).mp h
  unfold bucketOf tget
  cases hf : tfind port s.pow.buckets with
  | none => rfl
  | some b => exact hb _ (mem_of_tfind hf)

theorem runOk_putBucket {s : State} (h : runOk s = true) (port : Nat) {b : Bucket} (hb : bucketOk b = true) :
    runOk (putBucket s port b) = true := by
  rw [runOk_iff] at h ⊢
  obtain ⟨hc, hf, ho⟩ := h
  refine ⟨hc, hf, fun e he => ?_⟩
  simp only [putBucket, tput] at he
  split at he
  · exact ho e (mem_tdel _ _ _ he)
  · rcases mem_tset _ _ _ _ he with rfl | he
    · exact hb
    · exact ho e he

theorem bucketOk_stepBucket {b : Bucket} (h : bucketOk b = true) : bucketOk (stepBucket b) = true := by
  rw [bucketOk_iff] at h ⊢
  simp only [stepBucket]
  omega

theorem bucketOk_setBucket {b : Bucket} (depth rate : Nat) (h : bucketOk b = true) : bucketOk (setBucket b depth rate) = true := by
  rw [bucketOk_iff] at h ⊢
  simp only [setBucket]
  omega

/-- Credits that flits spend leave the rest of the bucket, and no more credit than there was. -/
theorem bucketOk_spend {b : Bucket} (h : bucketOk b = true) {n : Nat} (hn : n ≤ b.level) :
    bucketOk { b with level := n } = true := by
  rw [bucketOk_iff] at h ⊢
  exact ⟨h.1, h.2.1, h.2.2.1, hn.trans h.2.2.2⟩

theorem runOk_enterFabric {s : State} (h : runOk s = true) (port id n : Nat) (moves : Mach → Mach → Bool) (g : Mach → Mach) :
    runOk (enterFabric port id n moves g s) = true := by
  have hb := bucketOk_bucketOf h port
  unfold enterFabric
  dsimp only
  split
  · exact h
  · split
    · exact runOk_putBucket h port (bucketOk_spend hb (Nat.zero_le _))
    · exact runOk_putBucket (s := { s with m := g s.m }) h port (bucketOk_spend hb (Nat.sub_le _ _))

theorem runOk_enterPort {s : State} (h : runOk s = true) (id : Nat) (g : Mach → Mach) : runOk (enterPort id g s) = true := by
  unfold enterPort
  dsimp only
  split
  · exact runOk_enterFabric h _ _ _ _ _
  · exact h

/-! ## Selected pairs -/

theorem selectPairs_length_le (m : Mach) (core pe : Nat) (starve : Bool) : (selectPairs m core pe starve).length ≤ 2 := by
  unfold selectPairs
  dsimp only
  split
  · exact Nat.zero_le _
  · split <;> simp

/-- A PE's cycle that selects anew, and one of a PE that does not run, which leaves the state. -/
theorem runOk_peCycle {s : State} (h : runOk s = true) (starve : Bool) (core pe : Nat) : runOk (peCycle starve core pe s) = true := by
  unfold peCycle
  split
  · exact h
  · split
    · exact h
    · refine runOk_congr h rfl rfl ?_
      dsimp only
      rw [List.length_map]
      split
      · exact selectPairs_length_le ..
      · exact Nat.zero_le _

/-! ## The host -/

theorem runOk_startWrite {s : State} (h : runOk s = true) (v : Nat) : runOk (startWrite v s) = true := by
  unfold startWrite
  split
  · exact runOk_congr h rfl rfl (Nat.zero_le _)
  · exact h

theorem capOf_range (v : Nat) : 500 ≤ capOf v ∧ capOf v ≤ 2500 := by
  unfold capOf
  omega

theorem runOk_powerctlS {s : State} (h : runOk s = true) (v : Nat) : runOk (powerctlS v s) = true := by
  rw [runOk_iff] at h ⊢
  exact ⟨capOf_range v, h.2⟩

theorem runOk_registerWriteS {s : State} (h : runOk s = true) (off v : Nat) : runOk (registerWriteS off v s) = true := by
  unfold registerWriteS
  dsimp only
  split
  · exact h
  · split
    · exact runOk_machine h _
    · split
      · exact runOk_startWrite h v
      · split
        · exact runOk_powerctlS h v
        · split_ifs <;> exact runOk_machine h _

/-! ## Steps -/

/-- Every outcome of a meaning that goes on meets the invariant. -/
def Keeps (o : Out) : Prop := ∀ t, o = .next t → runOk t = true

theorem keeps_next {t : State} (h : runOk t = true) : Keeps (.next t) := by
  rintro _ ⟨⟩
  exact h

/-- A meaning that changes the machine proper leaves the power registers and the selection. -/
theorem keeps_machine {s : State} (h : runOk s = true) (m : Mach) : Keeps (.next { s with m := m }) := keeps_next (runOk_machine h m)

theorem keeps_leave {o : Out} (h : Keeps o) (g : Mach → Mach) : Keeps (leave g o) := by
  cases o with
  | next t => exact keeps_next (t := { t with m := g t.m }) (h t rfl)
  | fault f => rintro _ ⟨⟩
  | refused r => rintro _ ⟨⟩

/-- The instructions and events that reach the buckets, CAP or the selection, and the others, which change the machine proper. -/
theorem keeps_exec (i : Instr) {s : State} (h : runOk s = true) : Keeps (exec i s) := by
  cases i with
  | starveCycle core pe =>
    refine keeps_next ?_
    split
    · exact runOk_peCycle h ..
    · exact h
  | bucketStep port => exact keeps_next (runOk_putBucket h port (bucketOk_stepBucket (bucketOk_bucketOf h port)))
  | bucketSetting port depth rate => exact keeps_next (runOk_putBucket h port (bucketOk_setBucket _ _ (bucketOk_bucketOf h port)))
  | storeCompletion id ans => exact keeps_next (runOk_enterPort h ..)
  | copyCompletion id bad =>
    show Keeps (execCopyCompletion id bad s)
    unfold execCopyCompletion
    split
    · exact keeps_next (runOk_enterFabric h ..)
    · exact keeps_next h
  | tokenArrival n =>
    show Keeps (execTokenArrival n s)
    unfold execTokenArrival
    split
    · exact keeps_next h
    · split
      · exact keeps_next (runOk_enterFabric h ..)
      · exact keeps_machine h _
  | toryrFlitReceive lane ok phase => exact keeps_next (runOk_enterFabric h ..)
  | coldStart v =>
    refine keeps_next ?_
    split
    · exact runOk_startWrite h _
    · exact h
  | warmStart v =>
    refine keeps_next ?_
    split
    · exact h
    · exact runOk_startWrite h _
  | powerctl v => exact keeps_next (runOk_powerctlS h _)
  | thermalLimit w p => exact keeps_next (runOk_congr h rfl rfl (firing_length_le h))
  | powerOn peer rev rate => exact keeps_next (by rfl)
  | registerWrite off v => exact keeps_next (runOk_registerWriteS h ..)
  | _ => exact keeps_machine h _

/-- The step of a unit's word. -/
theorem keeps_stepUnit {s : State} (h : runOk s = true) (u : Nat) : Keeps (stepUnit u s) := by
  have hn : runOk (noteTurn u s) = true := by
    unfold noteTurn
    split <;> exact h
  unfold stepUnit
  split
  · split
    · rename_i x i _
      exact keeps_leave (keeps_exec i (s := enterUnit u x (noteTurn u s)) hn) _
    · exact keeps_exec _ hn
  · exact keeps_next h

theorem keeps_stepTurn {s : State} (h : runOk s = true) (t : Turn) : Keeps (stepTurn t s) := by
  cases t with
  | pe core pe =>
    show Keeps (if _ then _ else _)
    split
    · exact keeps_exec _ h
    · exact keeps_next (runOk_peCycle h ..)
  | unit u => exact keeps_stepUnit (s := { s with m := settleSeqw u s.m }) h u
  | event i => exact keeps_exec i h

theorem keeps_stepCore {s : State} (h : runOk s = true) : Keeps (stepCore s) := by
  unfold stepCore
  split
  · rename_i x rest hf
    have hs : runOk { s with sched.firing := rest } = true := by
      refine runOk_congr h rfl rfl ?_
      have := firing_length_le h
      rw [hf, List.length_cons] at this
      show rest.length ≤ 2
      omega
    dsimp only
    split
    · rename_i i who _
      exact keeps_leave (keeps_exec i (s := enterPe who { s with sched.firing := rest }) hs) _
    · exact keeps_next hs
  · split
    · exact keeps_next (t := tick s) h
    · rename_i t rest _
      exact keeps_stepTurn (s := tick { s with sched.agenda := rest }) h t

theorem runOk_endStep {s : State} (h : runOk s = true) : runOk (endStep s) = true := by
  unfold endStep notePower
  dsimp only
  split <;> exact h

/-- Settles O7: `exec` keeps the invariant (`keeps_exec`), and so does everything that a step does around it. -/
theorem runInvariant : Obligations.RunInvariant := by
  intro s t h hst
  unfold step at hst
  have hc := keeps_stepCore h
  cases ho : stepCore s with
  | next u =>
    rw [ho] at hst
    cases hst
    exact runOk_endStep (hc u ho)
  | fault f => rw [ho] at hst; cases hst
  | refused r => rw [ho] at hst; cases hst

end Sys2Proof.Machine

/-! PROOFS. What a step runs: a selected pair, an event, a PE's turn, or nothing (R15, R61, R62, R201). -/
namespace Sys2Proof.Machine

/-- A pair whose word decodes fires it, in the name of the pair. -/
theorem firingOf_of_fate {m : Mach} {x : Sel} {i : Instr}
    (h : fate .pe true true (OpWord.ofNat (imgInstr (frameImg m x.core (x.slot / 8)) x.pe (x.slot % 8) % 2 ^ 40)) = .ok i) :
    firingOf m x = some (i, .pe x.core x.pe (x.slot / 8) (x.slot % 8) x.bank
      (bitAt (imgInstr (frameImg m x.core (x.slot / 8)) x.pe (x.slot % 8)) 40)) := by
  simp only [firingOf, slotWord, h, trigKP]

theorem step_of_stepCore {s t : State} (h : stepCore s = .next t) : step s = .next (endStep t) := by
  simp only [step, h]

/-- A selected pair goes before the agenda. -/
theorem stepCore_firing {s : State} {x : Sel} {rest : List Sel} {i : Instr} {who : Actor} (h : s.sched.firing = x :: rest)
    (hx : firingOf s.m x = some (i, who)) :
    stepCore s = leave (fun m => markFences (afterFiring x m)) (exec i (enterPe who { s with sched.firing := rest })) := by
  simp only [stepCore, h, hx]

theorem stepCore_idle {s : State} (hf : s.sched.firing = []) (ha : s.sched.agenda = []) : stepCore s = .next (tick s) := by
  simp only [stepCore, hf, ha]

theorem stepCore_turn {s : State} {t : Turn} {rest : List Turn} (hf : s.sched.firing = []) (ha : s.sched.agenda = t :: rest) :
    stepCore s = stepTurn t (tick { s with sched.agenda := rest }) := by
  simp only [stepCore, hf, ha]

/-- A PE's turn is one cycle; where the counter reads 63 it is a StarveCycle (R34). -/
theorem stepTurn_pe (core pe : Nat) (s : State) :
    stepTurn (.pe core pe) s = .next (peCycle (tget 0 (core * 16 + pe) s.m.pe.starv == 63) core pe s) := by
  show (if _ then execStarveCycle core pe s else _) = _
  by_cases h : tget 0 (core * 16 + pe) s.m.pe.starv = 63
  · simp only [execStarveCycle, h, if_true, beq_self_eq_true]
  · rw [if_neg h, beq_eq_false_iff_ne.mpr h]

/-- Settles O3. -/
theorem stepFiresPair : Obligations.StepFiresPair := by
  intro s x rest i t hf hfate hexec
  refine step_of_stepCore ?_
  rw [stepCore_firing hf (firingOf_of_fate hfate)]
  exact congrArg (leave _) hexec

/-- Settles O5. -/
theorem stepTurns : Obligations.StepTurns := by
  intro s hf
  refine ⟨fun ha => step_of_stepCore (stepCore_idle hf ha), fun i rest t ha hexec => ?_, fun core pe rest ha => ?_⟩
  · exact step_of_stepCore ((stepCore_turn hf ha).trans hexec)
  · exact step_of_stepCore ((stepCore_turn hf ha).trans (stepTurn_pe core pe _))

end Sys2Proof.Machine

/-! PROOFS. The frame of the integer, logic and floating-point entries (R16, R89, R160, R161). -/
namespace Sys2Proof.Machine

/-- The frame depends on which sources are read, not on how often or in which order they are named. -/
theorem KeepsRest.of_same_sources {m t : Mach} {d : Opd} {os os' : List Opd} (h : KeepsRest m t d os) (ho : ∀ o, o ∈ os ↔ o ∈ os') :
    KeepsRest m t d os' := by
  have hin : os.any isInC = os'.any isInC := by
    rw [Bool.eq_iff_iff, List.any_eq_true, List.any_eq_true]
    simp only [ho]
  have hch : ∀ ch, ch ∈ inChans os ↔ ch ∈ inChans os' := by
    intro ch
    simp only [inChans, List.mem_dedup, List.mem_filterMap, ho]
  exact { h with
    spreds := fun u i hi => h.spreds u i (hin ▸ hi)
    chans := fun core pe ch h1 h2 hc => h.chans core pe ch h1 h2 fun f k b c hcur hm => hc f k b c hcur ((hch ch).mp hm)
    tiles := fun hi => h.tiles (hin ▸ hi) }

/-- The operands of an entry are A, B where it has one, and D, which some entries read. -/
theorem mem_intSrcs (sh : Shape) (rd : Bool) (d a : Opd) (b : Option Opd) (o : Opd) :
    o ∈ (intSrcs sh rd d a b).map (·.2) ++ [d] ↔ o ∈ a :: (b.toList ++ [d]) := by
  cases b <;> cases rd <;> simp [intSrcs]

theorem mem_fltSrcs (F : FFmt) (rd : Bool) (d a : Opd) (b : Option Opd) (o : Opd) :
    o ∈ (fltSrcs F rd d a b).map (·.2) ++ [d] ↔ o ∈ a :: (b.toList ++ [d]) := by
  cases b <;> cases rd <;> simp [fltSrcs]

theorem intRes_keeps (s : State) (sh : Shape) (rd : Bool) (d a : Opd) (b : Option Opd) (op : Nat → Nat → Nat → Nat × Nat)
    (ha : actorOk s.m.cur = true) : KeepsRest s.m (intRes s sh rd d a b op).m d (a :: (b.toList ++ [d])) :=
  (wrote_keeps s _ d _ _ rfl ha).of_same_sources (mem_intSrcs sh rd d a b)

theorem fltRes_keeps (s : State) (F : FFmt) (xs rd : Bool) (d a : Opd) (b : Option Opd) (op : Nat → Nat → Nat → Nat × Nat)
    (ha : actorOk s.m.cur = true) : KeepsRest s.m (fltRes s F xs rd d a b op).m d (a :: (b.toList ++ [d])) :=
  (wrote_keeps s _ d _ _ rfl ha).of_same_sources (mem_fltSrcs F rd d a b)

/-- A row of the integer table is an integer entry of `exec`. -/
theorem exec_of_intRow {i : Instr} {r : LaneRow} (h : intRow i = some r) (s : State) :
    ∃ op, exec i s = lift (intEntry r.shape r.readD r.d r.a r.b op) s := by
  unfold intRow at h
  split at h <;> cases h <;> exact ⟨_, rfl⟩

/-- A row of the logic, shift, field and address tables is an integer entry of `exec`. -/
theorem exec_of_logicRow {i : Instr} {r : LaneRow} (h : logicRow i = some r) (s : State) :
    ∃ op, exec i s = lift (intEntry r.shape r.readD r.d r.a r.b op) s := by
  unfold logicRow at h
  split at h <;> cases h <;> exact ⟨_, rfl⟩

/-- A row of the floating-point tables is a floating-point entry of `exec`. -/
theorem exec_of_fltRow {i : Instr} {r : FltRow} (h : fltRow i = some r) (s : State) :
    ∃ op, exec i s = lift (fltEntry r.fmt r.xs r.readD r.carry r.d r.a r.b op) s := by
  unfold fltRow at h
  split at h <;> cases h <;> exact ⟨_, rfl⟩

/-- Settles O13: a row is an entry whose result is `wrote`, and `wrote_keeps` frames that. -/
theorem valueFrame : Obligations.ValueFrame := by
  refine ⟨fun i s r t hrow ha hst hex => ?_, fun i s r t hrow ha hst hsc hex => ?_⟩
  · obtain ⟨op, he⟩ := hrow.elim (exec_of_intRow · s) (exec_of_logicRow · s)
    rw [he, intEntry_starts s _ _ _ _ _ op hst] at hex
    cases hex
    exact ⟨intRes_keeps s _ _ _ _ _ op ha, rfl, rfl⟩
  · obtain ⟨op, he⟩ := exec_of_fltRow hrow s
    rw [he, fltEntry_starts s _ _ _ _ _ _ _ op hst hsc] at hex
    cases hex
    exact ⟨fltRes_keeps s _ _ _ _ _ _ op ha, rfl, rfl⟩

end Sys2Proof.Machine

/-! PROOFS. Two statements that fail: the end of a routine's activation, and the cycles of a PE that a core does not have. -/
namespace Sys2Proof.Machine

/-! ## A routine that ends without SDONE -/

/-- Pasture 0 is live on core 0. -/
def liveMach : Mach := { State.reset.m with sys.past := [(0, { Pasture.reset with st := .live, cset := 1 })] }

/-- An atomic block with DONE in slot 0 of PE 0. -/
def atomicDone : List W64 := 0x2000000 :: (oneSlotImage 0x92A2A2A00).drop 1

/-- A buffered store of four bytes that is not poisoned. -/
def bufferedStore : BufStore := ⟨none, .pe 0 0 1 0 0 false, .virt 0, 4, 1, 0, false, none, none⟩

/-- Family 0 of pasture 0 casts its one holder, core 0, whose routine runs. -/
def castingFam : Fam where
  desc := [0, 0, 0, 0, 0, 0, 0, 0, 0, 1]
  entries := [⟨0, 0, true, false⟩]
  version := 0
  step := some ⟨.cast, .routine, 0, 1, 0, 0, [], 0⟩
  buf := []
  copies := []
  sent := 0
  wave := none
  hot := []
  cool := []
  casts := 0
  merges := 0
  lastFail := 0

/-- The routine of `castingFam` is bound in bank 0 of frame 1 of core 0, has buffered a store, and fires DONE before any SDONE. -/
def routineEnds : State := { State.reset with m := { liveMach with
  pe.frames := [(1, atomicDone)]
  pe.binds := [(4, ⟨0, .routine 0 0, 0, false, none⟩)]
  pe.commit := [(4, [bufferedStore])]
  stage.fams := [(0, castingFam)]
  cur := .pe 0 0 1 0 0 false } }

/-- How many steps of stage families are under way. -/
def stepsUnderWay (m : Mach) : Nat := m.stage.fams.countP (fun e => e.2.step.isSome)

/-- The DONE fails the step (R369), with which the step ends. -/
theorem done_fails_step : ∃ t, exec .done routineEnds = .next t ∧ stepsUnderWay t.m = 0 := ⟨_, rfl, by decide⟩

/-- Refutes O22: DONE is followed by what ends with an activation (R369, R370). In `routineEnds` the binding is a routine's, so the step of
its family fails with the last DONE; the statement has nothing change but the binding, which then waits for its commit. -/
theorem not_doneAndDispatch : ¬ Obligations.DoneAndDispatch := by
  intro h
  obtain ⟨hdone, -⟩ := h
  obtain ⟨-, hlast⟩ := hdone routineEnds 0 0 1 0 0 false ⟨0, .routine 0 0, 0, false, none⟩ rfl rfl rfl
  obtain ⟨-, hatomic⟩ := hlast (by decide)
  have hex := hatomic (by decide) (by decide) (by decide)
  obtain ⟨t, ht, hnone⟩ := done_fails_step
  rw [hex] at ht
  cases ht
  exact absurd hnone (by decide)

/-! ## A cycle of PE 16 -/

/-- The PEs of a core are numbered 0 to 15 (R9), and the model gives no cycle to another number. -/
theorem peCycle_no_pe (x : Bool) (core : Nat) {pe : Nat} (h : 16 ≤ pe) (s : State) : peCycle x core pe s = s := by
  unfold peCycle
  split
  · rfl
  · simp [h]

/-- Refutes O24: it has every cycle move the starvation counter of its PE on, whatever the PE's number, but the cycle of PE 16 of core 0 leaves
the state as it is (`peCycle_no_pe`), with the counter at 0. -/
theorem not_powerBuckets : ¬ Obligations.PowerBuckets := by
  intro h
  obtain ⟨-, hcycle, -⟩ := h
  obtain ⟨hstarv, -⟩ := hcycle { State.reset with m := liveMach } 0 16 0 false (by decide) (by decide)
  rw [peCycle_no_pe false 0 (le_refl 16)] at hstarv
  exact absurd hstarv (by decide)

end Sys2Proof.Machine

/-! PROOFS. Accesses of other agents to local HBM (R197, R231, R244, R440), and the events of the HBM controllers (R274-R281). -/
namespace Sys2Proof.Machine

/-! ## Accesses from outside -/

/-- The places of `n` bytes of HBM from `a`. -/
abbrev hbmLocs (a n : Nat) : List Loc := (upto n).map (fun i => Loc.hbm (a + i))

theorem outsideWaits_read (m : Mach) {a n : Nat} (ln : Nat) (hn : n ≤ 16) :
    outsideWaits m ⟨a, n, .read, ln⟩ = (rowsHeld m (hbmLocs a n) || locsMoving m (hbmLocs a n)) := by
  simp [outsideWaits, outLen, hn]

theorem outsideWaits_write (m : Mach) {a n : Nat} (v : BitVec 128) (ln : Nat) (hn : n ≤ 16) :
    outsideWaits m ⟨a, n, .write v, ln⟩
      = (rowsHeld m (hbmLocs a n) || locsMoving m (hbmLocs a n) || heldByResv m (18 * 16384) (hbmLocs a n)) := by
  simp [outsideWaits, outLen, hn]

/-- An AMO and a CAS that do not wait find no reservation of another context on their word. -/
theorem heldByResv_of_amo {m : Mach} {a n : Nat} {op : AmoOp} {b : BitVec 64} {ln : Nat}
    (h : outsideWaits m ⟨a, n, .amo op b, ln⟩ = false) : heldByResv m (18 * 16384) (hbmLocs a (AmoOp.bytes op)) = false := by
  have hb : min 16 (AmoOp.bytes op) = AmoOp.bytes op := by cases op <;> rfl
  simp only [outsideWaits, outLen, hb, Bool.or_eq_false_iff] at h
  exact h.2

theorem heldByResv_of_cas {m : Mach} {a n ctx : Nat} {old new : BitVec 64} {ln : Nat} (hn : n ≤ 16)
    (h : outsideWaits m ⟨a, n, .cas ctx old new, ln⟩ = false) : heldByResv m (20 * 16384 + ctx) (hbmLocs a n) = false := by
  simp only [outsideWaits, outLen, Nat.min_eq_right hn, Bool.or_eq_false_iff] at h
  exact h.2

/-- A read from outside leaves the machine as it is, whether it waits or not. -/
theorem outsideAccess_read (m : Mach) (a n ln : Nat) : outsideAccess m ⟨a, n, .read, ln⟩ = m := by
  unfold outsideAccess
  split <;> rfl

theorem outsideAccess_write {m : Mach} {a n : Nat} {v : BitVec 128} {ln : Nat} (hn : n ≤ 16) (ha : a + n ≤ 2 ^ 39)
    (h : outsideWaits m ⟨a, n, .write v, ln⟩ = false) :
    outsideAccess m ⟨a, n, .write v, ln⟩ = storeLocs m (hbmLocs a n) (bytesOf v.toNat n) := by
  have hr := h
  rw [outsideWaits_write m v ln hn, Bool.or_eq_false_iff] at hr
  unfold outsideAccess
  rw [h]
  dsimp only
  rw [if_neg Bool.false_ne_true, if_neg]
  simp only [hr.2, Bool.false_eq_true, or_false]
  omega

/-- An aligned operation on a sound word that no reservation holds reads the word and writes what `new` gives in one step. -/
theorem outsideRmw_writes {m m1 : Mach} {code a n v : Nat} {new : Mach → Nat → Option Nat × Mach} (hal : a % n = 0) (ha : a + n ≤ 2 ^ 39)
    (hr : heldByResv m code (hbmLocs a n) = false) (hf : (hbmLocs a n).any (fun l => (locFault m .idle l).isSome) = false)
    (hv : new m (memRead m.mem.hbm a n) = (some v, m1)) : outsideRmw m code a n new = writeLocs m1 (hbmLocs a n) (bytesOf v n) := by
  simp only [outsideRmw, hal, hr, hf, hv, Nat.not_lt.mpr ha, ne_eq, not_true_eq_false, Bool.false_eq_true, or_self, if_false]

theorem outsideRmw_keeps {m m1 : Mach} {code a n : Nat} {new : Mach → Nat → Option Nat × Mach} (hal : a % n = 0) (ha : a + n ≤ 2 ^ 39)
    (hr : heldByResv m code (hbmLocs a n) = false) (hf : (hbmLocs a n).any (fun l => (locFault m .idle l).isSome) = false)
    (hv : new m (memRead m.mem.hbm a n) = (none, m1)) : outsideRmw m code a n new = m1 := by
  simp only [outsideRmw, hal, hr, hf, hv, Nat.not_lt.mpr ha, ne_eq, not_true_eq_false, Bool.false_eq_true, or_self, if_false]

theorem outsideAccess_amo {m : Mach} {a : Nat} {op : AmoOp} {b : BitVec 64} {ln : Nat} (hal : a % AmoOp.bytes op = 0)
    (ha : a + AmoOp.bytes op ≤ 2 ^ 39) (hw : outsideWaits m ⟨a, AmoOp.bytes op, .amo op b, ln⟩ = false)
    (hf : (hbmLocs a (AmoOp.bytes op)).any (fun l => (locFault m .idle l).isSome) = false) :
    outsideAccess m ⟨a, AmoOp.bytes op, .amo op b, ln⟩ = writeLocs m (hbmLocs a (AmoOp.bytes op))
      (bytesOf (amoNew op (memRead m.mem.hbm a (AmoOp.bytes op)) (b.toNat % 256 ^ AmoOp.bytes op)) (AmoOp.bytes op)) := by
  unfold outsideAccess
  rw [hw, if_neg Bool.false_ne_true]
  exact outsideRmw_writes hal ha (heldByResv_of_amo hw) hf rfl

theorem outsideAccess_cas {m : Mach} {a n ctx : Nat} {old new : BitVec 64} {ln : Nat} (hn : n = 4 ∨ n = 8) (hal : a % n = 0)
    (ha : a + n ≤ 2 ^ 39) (hw : outsideWaits m ⟨a, n, .cas ctx old new, ln⟩ = false)
    (hf : (hbmLocs a n).any (fun l => (locFault m .idle l).isSome) = false) :
    outsideAccess m ⟨a, n, .cas ctx old new, ln⟩ =
      (let ok := memRead m.mem.hbm a n == old.toNat % 256 ^ n
       let m1 := casCount m (20 * 16384 + ctx) (a * 16 + n) ok
       if ok then writeLocs m1 (hbmLocs a n) (bytesOf (new.toNat % 256 ^ n) n) else m1) := by
  have hr := heldByResv_of_cas (by omega) hw
  unfold outsideAccess
  rw [hw, if_neg Bool.false_ne_true]
  simp only [if_pos hn]
  cases hok : memRead m.mem.hbm a n == old.toNat % 256 ^ n with
  | true => exact outsideRmw_writes hal ha hr hf (by simp only [hok, if_true])
  | false => exact outsideRmw_keeps hal ha hr hf (by simp only [hok, Bool.false_eq_true, if_false])

/-! ## Where an access comes from -/

/-- The machine after `k` flits of a receive lane are taken for a request. -/
abbrev takeFlits (m : Mach) (ln : Nat) (l : Lane) (k : Nat) : Mach := { m with fab.rx := tset ln { l with came := l.came - k } m.fab.rx }

theorem peerRequest_serves {s : State} {acc : OutAccess} {l : Lane} (hl : tfind acc.lane s.m.fab.rx = some l) (hk : outFlits acc ≤ l.came)
    (hp : s.m.host.phase ≠ 0) (hw : outsideWaits s.m acc = false) :
    exec (.peerRequest acc) s = .next { s with m := outsideAccess (takeFlits s.m acc.lane l (outFlits acc)) acc } := by
  refine next_of_lift (peerRequestG acc) rfl ?_
  unfold peerRequestG
  rw [hl]
  dsimp only
  rw [if_neg]
  simp only [hw, Bool.false_eq_true, or_false]
  omega

theorem peerRequest_waits {s : State} {acc : OutAccess}
    (h : outsideWaits s.m acc = true ∨ s.m.host.phase = 0 ∨ tfind acc.lane s.m.fab.rx = none) : exec (.peerRequest acc) s = .next s := by
  refine next_of_lift (peerRequestG acc) rfl ?_
  unfold peerRequestG
  split
  · rfl
  · rename_i l hl
    rw [hl] at h
    rw [if_pos]
    rcases h with h | h | h
    · exact .inr (.inr h)
    · exact .inl h
    · cases h

theorem ualinkPeerAccess_serves {s : State} (acc : OutAccess) (hl : s.m.host.ports ≠ 0) (hp : s.m.host.phase ≠ 0) :
    exec (.ualinkPeerAccess acc) s = .next { s with m := outsideAccess s.m acc } := by
  show Host.Outcome.next { s with m := if s.m.host.ports = 0 ∨ s.m.host.phase = 0 then s.m else outsideAccess s.m acc } = _
  rw [if_neg (by omega)]

theorem ualinkPeerAccess_read (s : State) (a n ln : Nat) : exec (.ualinkPeerAccess ⟨a, n, .read, ln⟩) s = .next s := by
  show Host.Outcome.next { s with m := if s.m.host.ports = 0 ∨ s.m.host.phase = 0 then s.m else outsideAccess s.m ⟨a, n, .read, ln⟩ } = _
  rw [outsideAccess_read, ite_self]

theorem hostMemoryAccess_write {s : State} (a n ln : Nat) (v : BitVec 128) (hp : s.m.host.phase = 7) :
    exec (.hostMemoryAccess ⟨a, n, .write v, ln⟩) s = .next { s with m := outsideAccess s.m ⟨a, n, .write v, ln⟩ } := by
  refine next_of_lift (hostMemoryAccessG _) rfl ?_
  simp only [hostMemoryAccessG, hp, decide_true]

theorem hostMemoryAccess_read {s : State} {a n : Nat} (ln : Nat) (hp : s.m.host.phase = 7) (hn : n ≤ 16) (ha : a + n ≤ 2 ^ 39)
    (hw : outsideWaits s.m ⟨a, n, .read, ln⟩ = false) (hf : (hbmLocs a n).any (fun l => (locFault s.m .idle l).isSome) = false) :
    exec (.hostMemoryAccess ⟨a, n, .read, ln⟩) s = .next { s with m.host.bar2 := .data n (memRead s.m.mem.hbm a n) } := by
  refine next_of_lift (hostMemoryAccessG _) rfl ?_
  simp only [hostMemoryAccessG, hp, decide_true, bar2Read, hf]
  rw [if_neg, if_neg Bool.false_ne_true]
  simp only [hw, Bool.false_eq_true, or_false]
  omega

/-- Before READY a read of the host completes with Unsupported Request and a write is dropped. -/
theorem hostMemoryAccess_early {s : State} (a n ln : Nat) (v : BitVec 128) (hp : s.m.host.phase ≠ 7) :
    exec (.hostMemoryAccess ⟨a, n, .read, ln⟩) s = .next { s with m.host.bar2 := .unsupported }
      ∧ exec (.hostMemoryAccess ⟨a, n, .write v, ln⟩) s = .next s := by
  constructor
  · refine next_of_lift (hostMemoryAccessG _) rfl ?_
    simp only [hostMemoryAccessG, hp, decide_false]
  · refine next_of_lift (hostMemoryAccessG _) rfl ?_
    simp only [hostMemoryAccessG, hp, decide_false]

/-! ## The HBM controllers -/

theorem mem_of_reqOf {m : Mach} {id : Nat} {r : Req} (h : reqOf m id = some r) : r ∈ m.mem.reqs := List.mem_of_find?_eq_some h

/-- The machine with a pseudo-channel degraded and the event logged. -/
abbrev degrade (m : Mach) (pc : Nat) : Mach := { m with
  mem.degraded := if m.mem.degraded.contains pc then m.mem.degraded else pc :: m.mem.degraded
  mem.bruoshLog := m.mem.bruoshLog ++ [(0x10000, pc)] }

/-- A third failed replay fails what is pending on its pseudo-channel; where nothing is, it only marks and logs it (R279). -/
theorem parityAlert_third {s : State} {pc : Nat} (h : ∀ q ∈ s.m.mem.reqs, q.done = true ∨ onChannel (degrade s.m pc) pc q = none) :
    exec (.parityAlert pc true) s = .next { s with m := degrade s.m pc } := by
  refine next_of_lift (parityAlertG pc true) rfl ?_
  refine foldl_eq_self (b := degrade s.m pc) fun q _ => ?_
  dsimp only
  split
  · rename_i r hr
    rcases h r (mem_of_reqOf hr) with hd | hc
    · simp only [hd]
    · cases hd : r.done <;> simp only [hc]
  · rfl

theorem forceClose_waits {s : State} {row : Nat} {x : OpenRow} (hx : s.m.mem.rows.find? (fun y => y.row == row) = some x)
    (hl : logRoom s.m x.past = false) : exec (.forceClose row) s = .next s := by
  refine next_of_lift (forceCloseG row) rfl ?_
  simp only [forceCloseG, hx, hl, Bool.not_false, if_true]

/-- The record of a forced close (R276). -/
abbrev closeRecord (x : OpenRow) (row : Nat) : FRec :=
  ⟨BitVec.ofNat 128 (originAct x.holder x.act 0x0B (row / 2 ^ 40 % 8 + Config.rowChannel row % 64 * 16)), true,
    row % 2 ^ 40 * 8192 + row / 2 ^ 40 % 8 * 256, 8, 0x0B, 0, 0⟩

/-- The machine in which the reservation of a row has ended by force and its holder is to be told. -/
abbrev closed (m : Mach) (x : OpenRow) (row : Nat) : Mach := { m with
  mem.rows := m.mem.rows.filter (fun y => y.row != row)
  mem.forced := m.mem.forced ++ [(row, x.holder)]
  mem.rowAct := tset row (tget 0 row m.mem.rowAct + 1) m.mem.rowAct }

theorem forceClose_closes {s : State} {row : Nat} {x : OpenRow} (hx : s.m.mem.rows.find? (fun y => y.row == row) = some x)
    (hl : logRoom s.m x.past = true) :
    exec (.forceClose row) s = .next { s with m := faultRec (closed s.m x row) x.past .idle (closeRecord x row) } := by
  refine next_of_lift (forceCloseG row) rfl ?_
  simp only [forceCloseG, hx, hl, Bool.not_true, Bool.false_eq_true, if_false, precharge]

theorem dramRefresh_counts {s : State} {row : Nat} (h : s.m.mem.rows.any (fun x => x.row == row) = true) :
    ∃ t, exec (.dramRefresh row) s = .next t ∧ tget 0 row t.m.mem.rowAct = tget 0 row s.m.mem.rowAct + 1
      ∧ t.m.mem.rows = s.m.mem.rows ∧ t.m.mem.hbm = s.m.mem.hbm := by
  have he : exec (.dramRefresh row) s = .next { s with m := precharge s.m row } := by
    refine next_of_lift (dramRefreshG row) rfl ?_
    rw [dramRefreshG, if_pos h]
  refine ⟨_, he, ?_, rfl, rfl⟩
  simp only [precharge, tget_tset, if_true]

theorem writeDrain_issues (s : State) (pc : Nat) :
    ∃ t, exec (.writeDrain pc) s = .next t ∧ tget 0 pc t.m.mem.wq = tget 0 pc s.m.mem.wq - 1
      ∧ t.m.mem.drain = (if tget 0 pc s.m.mem.wq ≤ 17 then s.m.mem.drain.erase pc else s.m.mem.drain) ∧ t.m.mem.hbm = s.m.mem.hbm := by
  refine ⟨_, rfl, tget_tput_same .., ?_, rfl⟩
  have h : (tget 0 pc s.m.mem.wq - 1 ≤ 16) = (tget 0 pc s.m.mem.wq ≤ 17) := propext (by omega)
  simp only [writeDrainG, h]

/-- Raising an alert changes the list of alerts alone. -/
theorem raiseAlert_eq (m : Mach) (row : Nat) : activationThresholdG (.alert row) m
    = { m with mem.alerts := if m.mem.alerts.contains row then m.mem.alerts else row :: m.mem.alerts } := by
  simp only [activationThresholdG]
  split <;> rfl

theorem activationThreshold_alert (s : State) (row : Nat) :
    ∃ t, exec (.activationThreshold (.alert row)) s = .next t ∧ row ∈ t.m.mem.alerts
      ∧ (∀ x, x ≠ row → (x ∈ t.m.mem.alerts ↔ x ∈ s.m.mem.alerts)) ∧ t.m.mem.rowAct = s.m.mem.rowAct ∧ t.m.mem.hbm = s.m.mem.hbm := by
  refine ⟨_, next_of_lift _ rfl (raiseAlert_eq s.m row), mem_insertNew.mpr (.inl rfl),
    fun x hx => ?_, rfl, rfl⟩
  exact mem_insertNew.trans (or_iff_right hx)

theorem activationThreshold_managed (s : State) (row : Nat) :
    ∃ t, exec (.activationThreshold (.managed row)) s = .next t ∧ tget 0 row t.m.mem.rowAct = 0 ∧ row ∉ t.m.mem.alerts
      ∧ (∀ x, x ≠ row → tget 0 x t.m.mem.rowAct = tget 0 x s.m.mem.rowAct ∧ (x ∈ t.m.mem.alerts ↔ x ∈ s.m.mem.alerts))
      ∧ t.m.mem.hbm = s.m.mem.hbm := by
  refine ⟨_, rfl, ?_, ?_, fun x hx => ⟨?_, ?_⟩, rfl⟩
  · simp only [activationThresholdG, tget_tdel, if_true]
  · simp [activationThresholdG]
  · simp only [activationThresholdG, tget_tdel, if_neg hx]
  · simp [activationThresholdG, hx]

theorem activationThreshold_corrupt (s : State) (row : Nat) :
    ∃ t, exec (.activationThreshold (.corrupt row)) s = .next t ∧ tget 0 row t.m.mem.rowAct = 0 ∧ row ∈ t.m.mem.alerts
      ∧ t.m.mem.bruoshLog = s.m.mem.bruoshLog ++ [(0x10002, row)] ∧ t.m.mem.hbm = s.m.mem.hbm := by
  refine ⟨_, rfl, ?_, mem_insertNew.mpr (.inl rfl), rfl, rfl⟩
  simp only [activationThresholdG, tget_tdel, if_true]

theorem backgroundScrub_uncorrectable (s : State) {u : Nat} (hu : u < 2 ^ 33) :
    ∃ t, exec (.backgroundScrub u true) s = .next t ∧ u ∈ t.m.mem.badHbm
      ∧ t.m.mem.bruoshLog = s.m.mem.bruoshLog ++ [(0x10001, u)] ∧ t.m.mem.hbm = s.m.mem.hbm := by
  refine ⟨_, next_of_lift (backgroundScrubG u true) rfl (if_neg (Nat.not_le.mpr hu)), mem_insertNew.mpr (.inl rfl), rfl, rfl⟩

theorem backgroundScrub_corrected (s : State) {u : Nat} (hu : u < 2 ^ 33) :
    exec (.backgroundScrub u false) s = .next { s with m.mem.bruoshLog := s.m.mem.bruoshLog ++ [(0x10003, u)] } :=
  next_of_lift (backgroundScrubG u false) rfl (if_neg (Nat.not_le.mpr hu))

theorem backgroundScrub_beyond (s : State) {u : Nat} (x : Bool) (hu : 2 ^ 33 ≤ u) : exec (.backgroundScrub u x) s = .next s :=
  next_of_lift (backgroundScrubG u x) rfl (if_pos hu)

/-- Settles O41: an access that does not wait is served as `peerRequest_serves`, `ualinkPeerAccess_serves` and the laws of the host's
port say, with the effect that `outsideAccess` has on the word; the controllers' events are read off their definitions. -/
theorem controllerEvents : Obligations.ControllerEvents := by
  refine ⟨fun s a n ln l v hn ha hrows hmov => ?_, fun s acc => peerRequest_waits, fun s a op b ln l hal ha hw hf hl hk hp => ?_,
    fun s a n ctx old new ln l hn hal ha hw hf hl hk hp => ?_, fun s row x => forceClose_waits, fun s row x => forceClose_closes,
    fun s row => dramRefresh_counts, writeDrain_issues, fun s pc => rfl, fun s pc => parityAlert_third, activationThreshold_alert,
    activationThreshold_managed, activationThreshold_corrupt, fun s u => backgroundScrub_uncorrectable s,
    fun s u => backgroundScrub_corrected s, fun s u x => backgroundScrub_beyond s x⟩
  · have hwait : outsideWaits s.m ⟨a, n, .read, ln⟩ = false := by
      rw [outsideWaits_read s.m ln hn, hrows, hmov]
      rfl
    refine ⟨fun hres => ?_, fun hl hk hp => ?_, ualinkPeerAccess_read s a n ln, fun hp hf => hostMemoryAccess_read ln hp hn ha hwait hf,
      fun hp => hostMemoryAccess_early a n ln v hp⟩
    · have hw : outsideWaits s.m ⟨a, n, .write v, ln⟩ = false := by
        rw [outsideWaits_write s.m v ln hn, hrows, hmov, hres]
        rfl
      refine ⟨fun hl hk hp => ?_, fun hl hp => ?_, fun hp => ?_⟩
      · rw [peerRequest_serves (acc := ⟨a, n, .write v, ln⟩) hl hk hp hw, outsideAccess_write (m := takeFlits s.m ln l _) hn ha hw]
        rfl
      · rw [ualinkPeerAccess_serves _ hl hp, outsideAccess_write hn ha hw]
      · rw [hostMemoryAccess_write a n ln v hp, outsideAccess_write hn ha hw]
    · rw [peerRequest_serves (acc := ⟨a, n, .read, ln⟩) hl hk hp hwait, outsideAccess_read]
      rfl
  · rw [peerRequest_serves (acc := ⟨a, _, .amo op b, ln⟩) hl hk hp hw]
    exact congrArg (fun m => Host.Outcome.next { s with m := m }) (outsideAccess_amo (m := takeFlits s.m ln l 1) hal ha hw hf)
  · rw [peerRequest_serves (acc := ⟨a, n, .cas ctx old new, ln⟩) hl hk hp hw]
    exact congrArg (fun m => Host.Outcome.next { s with m := m }) (outsideAccess_cas (m := takeFlits s.m ln l 1) hn hal ha hw hf)

end Sys2Proof.Machine

/-! PROOFS. The host's writes to the management window (R28, R413, R415, R441-R443). -/
namespace Sys2Proof.Machine

/-! ## Launch -/

/-- An address that launch and image words give: 56 bits. -/
theorem bits_of_high_zero {v : Nat} (hv : v < 2 ^ 64) (h : bits v 56 8 = 0) : bits v 0 56 = v := by
  simp only [bits, Nat.shiftRight_eq_div_pow] at h ⊢
  omega

/-- A launch that nothing refuses clears the cores, makes the pasture live and starts its root graph. -/
theorem launchWriteG_starts {m : Mach} {p v c g : Nat} (hp : p < 16) (hh : bits v 56 8 = 0) (hl : bits v 0 6 = 0)
    (hst : (pastOf m p).st = .ready) (hc : (coresOf m p).head? = some c) (hlog : (pastOf m p).log.isSome = true)
    (hg : freeGraphCtx m (clusterOf c) = some g) :
    launchWriteG p v m = startGraph (setPast (launchCores m p) p
        { pastOf (launchCores m p) p with st := .live, home := clusterOf c, root := (launchCores m p).ids, pcause := 0 })
      (8 * clusterOf c + g) p (bits v 0 56) 0 0 none true := by
  have hlog' : (pastOf m p).log.isNone = false := by rw [← Option.not_isSome, hlog]; rfl
  have hst' : ((pastOf m p).st != .ready) = false := by rw [hst]; rfl
  simp only [launchWriteG, Nat.not_le.mpr hp, hh, hl, hst', hc, hlog', hg, ne_eq, not_true_eq_false, or_self, Bool.false_eq_true, if_false]

theorem launchWriteG_bad {m : Mach} {p v : Nat} (hp : p < 16) (hr : bits v 56 8 ≠ 0 ∨ bits v 0 6 ≠ 0) :
    launchWriteG p v m = launchBad m p := by
  simp only [launchWriteG, Nat.not_le.mpr hp, if_false, if_pos hr]

theorem launchWriteG_busy {m : Mach} {p v : Nat} (hp : p < 16) (hh : bits v 56 8 = 0) (hl : bits v 0 6 = 0)
    (hst : (pastOf m p).st ≠ .ready) : launchWriteG p v m = launchBusy m p := by
  have hst' : ((pastOf m p).st != .ready) = true := by simpa using hst
  simp only [launchWriteG, Nat.not_le.mpr hp, hh, hl, hst', ne_eq, not_true_eq_false, or_self, if_false, if_true]

/-- The context in which a graph starts holds its argument in s0 and its address in s1; the others stay as they were. -/
theorem unitOf_startGraph (m : Mach) (u p base arg parent : Nat) (by_ : Option Nat) (root : Bool) (x : Nat) :
    unitOf (startGraph m u p base arg parent by_ root) x = if x = u then { SUnit.reset with
      s := tput 0 1 (BitVec.ofNat 64 base) (tput 0 0 (BitVec.ofNat 64 arg) []), base := base, run := .running, past := p, graph := m.ids }
      else unitOf m x := unitOf_setUnit ..

theorem sReg_startGraph_zero (m : Mach) (u p base arg parent : Nat) (by_ : Option Nat) (root : Bool) :
    sReg (startGraph m u p base arg parent by_ root) u 0 = arg % 2 ^ 64 := by
  simp only [sReg, unitOf_startGraph, if_true, tget_tput, BitVec.toNat_ofNat, zero_ne_one, if_false]

theorem sReg_startGraph_one (m : Mach) (u p base arg parent : Nat) (by_ : Option Nat) (root : Bool) :
    sReg (startGraph m u p base arg parent by_ root) u 1 = base % 2 ^ 64 := by
  simp only [sReg, unitOf_startGraph, if_true, tget_tput, BitVec.toNat_ofNat]

@[simp] theorem launchCores_past (m : Mach) (p : Nat) : (launchCores m p).sys.past = m.sys.past := by
  simp only [launchCores, clearCores]
@[simp] theorem launchCores_mem (m : Mach) (p : Nat) : (launchCores m p).mem = m.mem := by
  simp only [launchCores, clearCores]
@[simp] theorem launchCores_units (m : Mach) (p : Nat) : (launchCores m p).seq.units = m.seq.units := by
  simp only [launchCores, clearCores]

theorem pastOf_startGraph (m : Mach) (u p base arg parent : Nat) (by_ : Option Nat) (root : Bool) (q : Nat) :
    pastOf (startGraph m u p base arg parent by_ root) q = pastOf m q := rfl

theorem pastOf_launchCores (m : Mach) (p q : Nat) : pastOf (launchCores m p) q = pastOf m q := by
  simp only [pastOf, launchCores_past]

theorem launchWrite_starts {s : State} {p : Nat} {v : BitVec 64} {c g : Nat} (hp : p < 16) (hh : bits v.toNat 56 8 = 0)
    (hl : bits v.toNat 0 6 = 0) (hst : (pastOf s.m p).st = .ready) (hc : (coresOf s.m p).head? = some c)
    (hlog : (pastOf s.m p).log.isSome = true) (hg : freeGraphCtx s.m (clusterOf c) = some g) :
    ∃ t, exec (.launchWrite p v) s = .next t ∧ (unitOf t.m (8 * clusterOf c + g)).run = .running ∧ (unitOf t.m (8 * clusterOf c + g)).w = 0
      ∧ (unitOf t.m (8 * clusterOf c + g)).base = v.toNat ∧ (unitOf t.m (8 * clusterOf c + g)).past = p
      ∧ sReg t.m (8 * clusterOf c + g) 0 = 0 ∧ sReg t.m (8 * clusterOf c + g) 1 = v.toNat
      ∧ (pastOf t.m p).st = .live ∧ (pastOf t.m p).home = clusterOf c ∧ t.m.mem = s.m.mem
      ∧ (∀ q, q ≠ p → pastOf t.m q = pastOf s.m q) ∧ (∀ x, x ≠ 8 * clusterOf c + g → unitOf t.m x = unitOf s.m x) := by
  refine ⟨_, next_of_lift (launchWriteG p v.toNat) rfl ((launchWriteG_starts hp hh hl hst hc hlog hg).trans
    (by rw [bits_of_high_zero v.isLt hh])), ?_, ?_, ?_, ?_, sReg_startGraph_zero .., ?_, ?_, ?_, ?_, fun q hq => ?_, fun x hx => ?_⟩
  · simp only [unitOf_startGraph, if_true]
  · simp only [unitOf_startGraph, if_true]; rfl
  · simp only [unitOf_startGraph, if_true]
  · simp only [unitOf_startGraph, if_true]
  · exact (sReg_startGraph_one ..).trans (Nat.mod_eq_of_lt v.isLt)
  · rw [pastOf_startGraph, pastOf_setPast_same]
  · rw [pastOf_startGraph, pastOf_setPast_same]
  · simp only [startGraph, setUnit_mem, setPast_mem, launchCores_mem]
  · rw [pastOf_startGraph, pastOf_setPast, if_neg hq, pastOf_launchCores]
  · rw [unitOf_startGraph, if_neg hx]
    simp only [unitOf, setPast_seq, launchCores_units]

theorem launchWrite_bad {s : State} {p : Nat} {v : BitVec 64} (hp : p < 16) (hr : bits v.toNat 56 8 ≠ 0 ∨ bits v.toNat 0 6 ≠ 0) :
    ∃ t, exec (.launchWrite p v) s = .next t ∧ pastOf t.m p = { pastOf s.m p with badF := true }
      ∧ t.m.host.msix = s.m.host.msix ++ [1024 + p] ∧ t.m.mem = s.m.mem ∧ t.m.seq = s.m.seq :=
  ⟨_, next_of_lift (launchWriteG p v.toNat) rfl (launchWriteG_bad hp hr), pastOf_setPast_same .., rfl, rfl, rfl⟩

theorem launchWrite_busy {s : State} {p : Nat} {v : BitVec 64} (hp : p < 16) (hh : bits v.toNat 56 8 = 0) (hl : bits v.toNat 0 6 = 0)
    (hst : (pastOf s.m p).st ≠ .ready) : ∃ t, exec (.launchWrite p v) s = .next t ∧ pastOf t.m p = { pastOf s.m p with busyF := true }
      ∧ t.m.host.msix = s.m.host.msix ++ [1024 + p] ∧ t.m.mem = s.m.mem ∧ t.m.seq = s.m.seq :=
  ⟨_, next_of_lift (launchWriteG p v.toNat) rfl (launchWriteG_busy hp hh hl hst), pastOf_setPast_same .., rfl, rfl, rfl⟩

/-! ## Causes from the host, and the end of a pasture -/

theorem hostev_raises {s : State} {p : Nat} {v : BitVec 64} (hp : p < 16) :
    exec (.hostev p v) s = .next { s with m := raiseHome s.m p 0x10 v.toNat } :=
  next_of_lift (hostevG p v.toNat) rfl (if_neg (Nat.not_le.mpr hp))

theorem preq_raises {s : State} {p : Nat} {v : BitVec 64} (hp : p < 16) (hv : v.toNat < 512) :
    exec (.preq p v) s = .next { s with m := raiseHome s.m p 0x0F v.toNat } := by
  refine next_of_lift (preqG p v.toNat) rfl (if_neg ?_)
  have hb : bits v.toNat 9 55 = 0 := by
    simp only [bits, Nat.shiftRight_eq_div_pow]
    omega
  omega

/-- No unit holds a cause of the host's. -/
theorem holdsRec_idle (m : Mach) : holdsRec m .idle = false := by
  simp [holdsRec]

/-- A cause joins the queue of the home cluster's shepherd core while it has a place and no unit holds a cause (R413, R418). -/
theorem raiseHome_queues {m : Mach} {p : Nat} (code v : Nat) (hq : (shepOf m (pastOf m p).home).queue.length < 64)
    (hh : m.seq.heldTraps = []) : raiseHome m p code v = setShep m (pastOf m p).home { shepOf m (pastOf m p).home with
      queue := (shepOf m (pastOf m p).home).queue ++ [⟨code, BitVec.ofNat 64 v, p⟩] } := by
  have hroom : causeRoom m (pastOf m p).home = true := by
    simp [causeRoom, hq, hh]
  simp [raiseHome, raiseCause, hroom, holdsRec_idle]

/-- A pasture whose accesses are performed is done. -/
theorem pastureEnds_done {m : Mach} {p cause : Nat} (h : accessLeft m p m.ids = false) :
    pastureEnds m p cause = pastureDone m p cause := by
  simp only [pastureEnds, h, Bool.false_eq_true, if_false]

theorem pastOf_pastureDone (m : Mach) (p cause : Nat) : pastOf (pastureDone m p cause) p =
    { pastOf m p with st := .ready, doneF := true, pcause := cause, ending := none } :=
  pastOf_setPast_same (dropHeld (freeObjects m p) p) p _

theorem pastureEnds_waits {m : Mach} {p cause : Nat} (h : accessLeft m p m.ids = true) :
    pastureEnds m p cause = setPast m p { pastOf m p with ending := some (m.ids, cause) } := by
  simp only [pastureEnds, h, if_true]

/-! ## Event slots -/

/-- The event slot of an acknowledgement that the model takes. -/
theorem eventAckG_eq {m : Mach} {p vec v : Nat} (hp : p < 16) (hv : vec < 64) (hb : bitAt v 63 = true) :
    eventAckG p vec v m = if (tget EvSlot.reset (p * 64 + vec) m.host.slots).count = bits v 0 32 then
      { m with host.slots := tput EvSlot.reset (p * 64 + vec) { tget EvSlot.reset (p * 64 + vec) m.host.slots with pend := false, count := 0 } m.host.slots }
      else msix m (p * 64 + vec) := by
  simp only [eventAckG, Nat.not_le.mpr hp, Nat.not_le.mpr hv, hb, Bool.not_true, Bool.false_eq_true, or_self, if_false]

theorem eventAck_clears {s : State} {p vec : Nat} {v : BitVec 64} (hp : p < 16) (hv : vec < 64) (hb : bitAt v.toNat 63 = true)
    (hc : (tget EvSlot.reset (p * 64 + vec) s.m.host.slots).count = bits v.toNat 0 32) :
    ∃ t, exec (.eventAck p vec v) s = .next t
      ∧ tget EvSlot.reset (p * 64 + vec) t.m.host.slots
        = { tget EvSlot.reset (p * 64 + vec) s.m.host.slots with pend := false, count := 0 } ∧ t.m.host.msix = s.m.host.msix
      ∧ (∀ k, k ≠ p * 64 + vec → tget EvSlot.reset k t.m.host.slots = tget EvSlot.reset k s.m.host.slots) :=
  ⟨_, next_of_lift (eventAckG p vec v.toNat) rfl ((eventAckG_eq hp hv hb).trans (if_pos hc)), tget_tput_same .., rfl,
    fun _ hk => tget_tput_other _ _ _ _ _ hk⟩

theorem eventAck_repeats {s : State} {p vec : Nat} {v : BitVec 64} (hp : p < 16) (hv : vec < 64) (hb : bitAt v.toNat 63 = true)
    (hc : (tget EvSlot.reset (p * 64 + vec) s.m.host.slots).count ≠ bits v.toNat 0 32) :
    exec (.eventAck p vec v) s = .next { s with m := msix s.m (p * 64 + vec) } :=
  next_of_lift (eventAckG p vec v.toNat) rfl ((eventAckG_eq hp hv hb).trans (if_neg hc))

/-! ## The management window -/

theorem next_of_registerWriteS {off : Nat} {v : BitVec 64} {s t : State} (h : registerWriteS off v.toNat s = t) :
    exec (.registerWrite off v) s = .next t := congrArg Host.Outcome.next h

/-- The registers of pasture `p` stand in its 4 KB of the window. -/
theorem registerWriteS_pasture {p o : Nat} (hp : p < 16) (ho : o < 0x1000) (h8 : o % 8 = 0) (v : Nat) (s : State) :
    registerWriteS (0x10000 + 0x1000 * p + o) v s =
      if o = 0 then { s with m := launchWriteG p v s.m }
      else if o = 8 then { s with m := pstatusWrite p v s.m }
      else if o = 0x10 then { s with m := hostevG p v s.m }
      else if o = 0x18 then { s with m := preqG p v s.m }
      else if 0x400 ≤ o ∧ o < 0x800 ∧ o % 16 = 8 then { s with m := eventAckG p ((o - 0x400) / 16) v s.m }
      else s := by
  have hdiv : (0x10000 + 0x1000 * p + o - 0x10000) / 0x1000 = p := by omega
  have hmod : (0x10000 + 0x1000 * p + o) % 0x1000 = o := by omega
  unfold registerWriteS
  rw [if_neg (by omega), if_neg (by omega), if_neg (by omega), if_neg (by omega), if_pos (by omega)]
  simp only [hdiv, hmod]

/-- The acknowledgement registers of the event slots, and the value registers between them, which are read-only. -/
theorem registerWriteS_eventAck {p e : Nat} (hp : p < 16) (he : e < 64) (v : Nat) (s : State) :
    registerWriteS (0x10000 + 0x1000 * p + 0x408 + 16 * e) v s = { s with m := eventAckG p e v s.m } := by
  have h := registerWriteS_pasture (o := 0x408 + 16 * e) hp (by omega) (by omega) v s
  have hslot : (0x408 + 16 * e - 0x400) / 16 = e := by omega
  rw [if_neg (by omega), if_neg (by omega), if_neg (by omega), if_neg (by omega), if_pos (by omega), hslot] at h
  rw [Nat.add_assoc]
  exact h

theorem registerWriteS_eventValue {p e : Nat} (hp : p < 16) (he : e < 64) (v : Nat) (s : State) :
    registerWriteS (0x10000 + 0x1000 * p + 0x400 + 16 * e) v s = s := by
  have h := registerWriteS_pasture (o := 0x400 + 16 * e) hp (by omega) (by omega) v s
  rw [if_neg (by omega), if_neg (by omega), if_neg (by omega), if_neg (by omega), if_neg (by omega)] at h
  rw [Nat.add_assoc]
  exact h

theorem registerWriteS_fwstage {i : Nat} (hi : i < 65536) (v : Nat) (s : State) :
    registerWriteS (0x80000 + 8 * i) v s = { s with m := fwstageWriteG (8 * i) v s.m } := by
  unfold registerWriteS
  rw [if_neg (by omega), if_pos (by omega), Nat.add_sub_cancel_left]

/-- A register of the module below the pastures' that is not STARTCTL or POWERCTL is read-only. -/
theorem registerWriteS_readOnly {off : Nat} (h : off < 0x10000) (h1 : off ≠ 0x08) (h2 : off ≠ 0x18) (v : Nat) (s : State) :
    registerWriteS off v s = s := by
  have hf : ¬ 0x80000 ≤ off := by omega
  have hp : ¬ (0x10000 ≤ off ∧ off < 0x20000) := by omega
  simp only [registerWriteS, hf, h1, h2, hp, if_false, ite_self]

/-- A write of the window goes to its register (R441). -/
theorem registerWrite_goes (s : State) (v : BitVec 64) : exec (.registerWrite 0x08 v) s = .next (startWrite v.toNat s)
    ∧ exec (.registerWrite 0x18 v) s = exec (.powerctl v) s
    ∧ (∀ p < 16, exec (.registerWrite (0x10000 + 0x1000 * p) v) s = exec (.launchWrite p v) s
      ∧ exec (.registerWrite (0x10000 + 0x1000 * p + 8) v) s = .next { s with m := pstatusWrite p v.toNat s.m }
      ∧ exec (.registerWrite (0x10000 + 0x1000 * p + 0x10) v) s = exec (.hostev p v) s
      ∧ exec (.registerWrite (0x10000 + 0x1000 * p + 0x18) v) s = exec (.preq p v) s
      ∧ (∀ e < 64, exec (.registerWrite (0x10000 + 0x1000 * p + 0x408 + 16 * e) v) s = exec (.eventAck p e v) s
        ∧ exec (.registerWrite (0x10000 + 0x1000 * p + 0x400 + 16 * e) v) s = .next s))
    ∧ (∀ i < 65536, exec (.registerWrite (0x80000 + 8 * i) v) s = exec (.fwstageWrite (8 * i) v) s)
    ∧ exec (.registerWrite 0 v) s = .next s ∧ exec (.registerWrite 0x10 v) s = .next s ∧ exec (.registerWrite 0x20 v) s = .next s := by
  have reg : ∀ p < 16, ∀ o, o < 0x1000 → o % 8 = 0 → exec (.registerWrite (0x10000 + 0x1000 * p + o) v) s = .next _ :=
    fun p hp o ho h8 => next_of_registerWriteS (registerWriteS_pasture hp ho h8 v.toNat s)
  refine ⟨next_of_registerWriteS rfl, next_of_registerWriteS rfl,
    fun p hp => ⟨reg p hp 0 (by decide) rfl, reg p hp 8 (by decide) rfl, reg p hp 0x10 (by decide) rfl, reg p hp 0x18 (by decide) rfl,
      fun e he => ⟨next_of_registerWriteS (registerWriteS_eventAck hp he _ s), next_of_registerWriteS (registerWriteS_eventValue hp he _ s)⟩⟩,
    fun i hi => next_of_registerWriteS (registerWriteS_fwstage hi _ s), next_of_registerWriteS ?_, next_of_registerWriteS ?_,
    next_of_registerWriteS ?_⟩ <;> exact registerWriteS_readOnly (by decide) (by decide) (by decide) _ s

/-- Settles O59: a launch write by what refuses it, causes by the room in the queue of the home cluster, the end of a pasture by the
accesses that it has left, and the window register by register. -/
theorem hostWrites : Obligations.HostWrites := by
  refine ⟨fun s p v c g hp hh hl hst hc hlog hg => launchWrite_starts hp hh hl hst hc hlog hg, fun s p v hp hr => launchWrite_bad hp hr,
    fun s p v hp hh hl hst => launchWrite_busy hp hh hl hst, fun s p v hp => hostev_raises hp, fun s p v hp hv => preq_raises hp hv,
    fun m p code v hq hh _ => ?_, fun m p cause => ⟨fun h => ?_, fun h => ?_⟩,
    fun s p vec v hp hv hb => ⟨eventAck_clears hp hv hb, eventAck_repeats hp hv hb⟩, registerWrite_goes, fun s off => rfl⟩
  · rw [raiseHome_queues code v hq hh]
    exact ⟨congrArg Shep.queue (shepOf_setShep_same ..), rfl, rfl⟩
  · rw [pastureEnds_done h]
    exact ⟨pastOf_pastureDone m p cause, rfl, rfl, rfl⟩
  · rw [pastureEnds_waits h]
    exact ⟨pastOf_setPast_same .., rfl, rfl⟩

end Sys2Proof.Machine

/-! PROOFS. Tickets, tiles and plinth nodes: the instructions of chapter 12 that make a request, and the events that serve it (R266,
R268-R275). -/
namespace Sys2Proof.Machine

/-! ## Instructions -/

/-- An instruction that starts has its effect on the values of its sources. -/
theorem exec_memStart {i : Instr} {s : State} {os ds : List Opd} {more : List Nat} {onP : Val → Mach → Mach}
    {eff : List Val → Mach → Mach} (hi : exec i s = lift (memStart os ds more onP eff) s) (h : memStarts s.m os ds more = true) :
    exec i s = .next (after s os ds (eff (os.map (srcVal s.m .whole)))) :=
  next_of_lift _ hi (memStart_starts s.m os ds more onP eff h)

theorem livePast_congr {m t : Mach} (h : t.sys = m.sys) (core : Nat) : livePast t core = livePast m core := by
  unfold livePast liveOn coreIn pastOf
  rw [h]

/-- Reading the sources leaves the pasture for which the actor works. -/
theorem pastOfActor_readDone (m : Mach) (os ds : List Opd) :
    pastOfActor (readDone m os ds) (readDone m os ds).cur = pastOfActor m m.cur := by
  cases hc : m.cur with
  | idle => simp only [readDone, hc]
  | pe core pe f k b keep =>
    have hr : readDone m os ds = deqSrcs m os := by simp only [readDone, hc]
    rw [hr, deqSrcs_cur, hc]
    exact congrArg (·.getD 0) (livePast_congr (deqSrcs_rest m os).sys core)
  | unit u w =>
    obtain ⟨tiles, sp, e, -, hunit, -, -⟩ := readDone_unit m os ds u w hc
    rw [e]
    simp only [hc, pastOfActor, unitOf]
    rw [hunit u]
    rfl

/-- AGLD and AGST ask for their tile, or refuse the binding at once (R269). -/
theorem tile_asks {s : State} {d a b : Opd} {i : Instr} {ld : Bool} (hi : i = .agld d a b ∧ ld = true ∨ i = .agst d a b ∧ ld = false)
    (h : memStarts s.m [a, b] [d] [] = true) :
    let bw := payOf s.m .whole b % 2 ^ 64
    (bindOk (readDone s.m [a, b] [d]) (pastOfActor s.m s.m.cur) bw = true → exec i s = .next (issued s [a, b] [d] (fun m =>
      mkReq m (dstOf m d false) (.ag ld (payOf s.m .whole a % 2 ^ 56) bw none) 5 false true)))
    ∧ (bindOk (readDone s.m [a, b] [d]) (pastOfActor s.m s.m.cur) bw = false →
      exec i s = .next (answered s [a, b] d .tile (2 ^ 63 + 3))) := by
  have hx : exec i s = lift (agG ld d a b) s := by
    rcases hi with ⟨rfl, rfl⟩ | ⟨rfl, rfl⟩ <;> rfl
  have he := exec_memStart hx h
  rw [he, ← pastOfActor_readDone s.m [a, b] [d]]
  exact ⟨fun hb => congrArg (fun m => Host.Outcome.next { s with m := m }) (if_pos hb),
    fun hb => congrArg (fun m => Host.Outcome.next { s with m := m }) (if_neg (Bool.eq_false_iff.mp hb))⟩

/-- PLSET asks for its node, or refuses the configuration at once (R271). -/
theorem plset_asks {s : State} {d a b : Opd} (h : memStarts s.m [a, b] [d] [] = true) :
    let c := payOf s.m .whole a % 2 ^ 64
    (plsetOk c = true → exec (.plset d a b) s = .next (issued s [a, b] [d] (fun m =>
      mkReq m (dstOf m d false) (.plset c (payOf s.m .whole b % 2 ^ 32)) 5 false false)))
    ∧ (plsetOk c = false → exec (.plset d a b) s = .next (answered s [a, b] d .tile (2 ^ 63 + 2))) := by
  have he := exec_memStart (i := .plset d a b) rfl h
  rw [he]
  exact ⟨fun hc => congrArg (fun m => Host.Outcome.next { s with m := m }) (if_pos hc),
    fun hc => congrArg (fun m => Host.Outcome.next { s with m := m }) (if_neg (Bool.eq_false_iff.mp hc))⟩

/-! ## The word of a ticket (R266) -/

section Ticket
variable {core slot gen : Nat} (hcore : core < 768) (hslot : slot < 96) (hgen : gen < 65536)

include hslot hgen in
theorem copyTicket_core (hcore : core < 768) : bits (copyTicket core gen slot) 48 10 = core := by
  simp only [bits, copyTicket, Nat.shiftRight_eq_div_pow]
  omega

include hslot in
theorem copyTicket_slot : bits (copyTicket core gen slot) 0 8 = slot := by
  simp only [bits, copyTicket, Nat.shiftRight_eq_div_pow]
  omega

include hslot hgen in
theorem copyTicket_gen : bits (copyTicket core gen slot) 32 16 = gen := by
  simp only [bits, copyTicket, Nat.shiftRight_eq_div_pow]
  omega

include hcore hslot hgen in
theorem copyTicket_ok : bitAt (copyTicket core gen slot) 63 = false := by
  simp only [bitAt, copyTicket, Nat.shiftRight_eq_div_pow, beq_eq_false_iff_ne]
  omega

include hcore hslot hgen in
/-- A ticket of the pasture reads the outcome that its slot keeps, until the slot serves another copy. -/
theorem cqryWord_copyTicket {m : Mach} {p : Nat} (hset : bitAt (pastOf m p).cset core = true) :
    cqryWord m p (copyTicket core gen slot) = if (slotOf m core slot).gen ≠ gen then 3 * 2 ^ 62 else
      (if (slotOf m core slot).busy then 2 ^ 62 else if (slotOf m core slot).failed = 0 then 0 else 2 ^ 63)
        + (slotOf m core slot).failed * 2 ^ 32 + (slotOf m core slot).bytes := by
  unfold cqryWord
  simp only [copyTicket_core hslot hgen hcore, copyTicket_slot hslot, copyTicket_gen hslot hgen, copyTicket_ok hcore hslot hgen, hset,
    Bool.not_true, Bool.or_self, Bool.false_or, ge_iff_le, Nat.not_le.mpr hslot, decide_false, bne_iff_ne]
  split
  · rfl
  · split_ifs <;> rfl

end Ticket

/-! ## Tiles and nodes -/

/-- The state of a tile's unit as it starts: s0 holds the binding's parameter and s1 the address of the program (R269). -/
def tileUnit (r : Req) (addr bw : Nat) : SUnit := { SUnit.reset with
  s := tput 0 1 (BitVec.ofNat 64 addr) (tput 0 0 (BitVec.ofNat 64 (bits bw 32 32)) []), base := addr, run := .running
  past := r.past, graph := r.sect }

/-- The machine after a tile starts, or goes on from where its pre-emption left it (R269, R425). -/
def tileStarted (m : Mach) (id : Nat) (r : Req) (ld : Bool) (addr bw : Nat) : Option TileImg → Mach
  | some x =>
    let m1 := setUnit { setReq m { r with op := .ag ld addr bw none } with
      copy.tiles := tset (bindTile bw) x.bind m.copy.tiles
      copy.nodes := (match x.node with | some n => tput Node.reset (bindTile bw - 272) n m.copy.nodes | none => m.copy.nodes) } (bindTile bw) x.unit
    flush (deliverParked m1 r.past (fun a => match a with | .unit v _ => v == bindTile bw | _ => false))
  | none =>
    let m1 := setUnit m (bindTile bw) (tileUnit r addr bw)
    { m1 with
      free := m.free + 2048
      copy.tiles := tset (bindTile bw) ⟨ld, bits bw 26 2, chanKey (bits bw 0 10) (bits bw 10 4) (bits bw 14 3), id,
        tileCode m1 (bindTile bw) addr, [], none⟩ m1.copy.tiles }

/-- The oldest request for a tile that does not run starts it. -/
theorem agTileStart_eq {s : State} {id : Nat} {r : Req} {ld : Bool} {addr bw : Nat} {saved : Option TileImg} (hr : reqOf s.m id = some r)
    (hop : r.op = .ag ld addr bw saved) (hmay : mayPerform s.m r = true) (htile : thas (bindTile bw) s.m.copy.tiles = false)
    (hfirst : ∀ q ∈ s.m.mem.reqs, q.id < id → running s.m q.past = true → ∀ l x y z, q.op = .ag l x y z → bindTile y ≠ bindTile bw) :
    exec (.agTileStart id) s = .next { s with m := tileStarted s.m id r ld addr bw saved } := by
  refine next_of_lift (agTileStartG id) rfl ?_
  simp only [agTileStartG, hr, hop]
  rw [if_neg]
  · cases saved <;> rfl
  · simp only [htile, hmay, Bool.false_or, Bool.not_true, Bool.or_false, List.any_eq_true, Bool.and_eq_true, decide_eq_true_eq]
    rintro ⟨q, hq, ⟨hlt, hrun⟩, hsame⟩
    split at hsame
    · exact hfirst q hq hlt hrun _ _ _ _ ‹q.op = _› (beq_iff_eq.mp hsame)
    · cases hsame

theorem agTileStart_starts {s : State} {id : Nat} {r : Req} {ld : Bool} {addr bw : Nat} (hr : reqOf s.m id = some r)
    (hop : r.op = .ag ld addr bw none) (haddr : addr < 2 ^ 56) (hmay : mayPerform s.m r = true) :
    let u := bindTile bw
    thas u s.m.copy.tiles = false → (∀ q ∈ s.m.mem.reqs, q.id < id → running s.m q.past = true → ∀ l x y z, q.op = .ag l x y z → bindTile y ≠ u) →
    ∃ t, exec (.agTileStart id) s = .next t ∧ (unitOf t.m u).run = .running ∧ (unitOf t.m u).w = 0 ∧ (unitOf t.m u).base = addr
      ∧ (unitOf t.m u).past = r.past ∧ sReg t.m u 0 = bits bw 32 32 ∧ sReg t.m u 1 = addr ∧ (∀ n, 1 < n → sReg t.m u n = 0)
      ∧ tfind u t.m.copy.tiles = some ⟨ld, bits bw 26 2, chanKey (bits bw 0 10) (bits bw 10 4) (bits bw 14 3), id,
          tileCode (setUnit s.m u (unitOf t.m u)) u addr, [], none⟩
      ∧ t.m.mem = s.m.mem := by
  intro u htile hfirst
  have hunit : unitOf (tileStarted s.m id r ld addr bw none) u = tileUnit r addr bw := unitOf_setUnit_same s.m u _
  have hreg : ∀ n, sReg (tileStarted s.m id r ld addr bw none) u n
      = if n = 1 then addr % 2 ^ 64 else if n = 0 then bits bw 32 32 % 2 ^ 64 else 0 := by
    intro n
    simp only [sReg, hunit, tileUnit, tget_tput]
    split_ifs
    · exact BitVec.toNat_ofNat ..
    · exact BitVec.toNat_ofNat ..
    · rfl
  refine ⟨_, agTileStart_eq hr hop hmay htile hfirst, ?_, ?_, ?_, ?_, ?_, ?_, fun n hn => ?_, ?_, rfl⟩
  · rw [hunit]; rfl
  · rw [hunit]; rfl
  · rw [hunit]; rfl
  · rw [hunit]; rfl
  · rw [hreg]
    simp only [bits, zero_ne_one, if_false, if_true]
    omega
  · rw [hreg, if_pos rfl]
    omega
  · rw [hreg, if_neg (by omega), if_neg (by omega)]
  · rw [hunit]
    exact tfind_tset_same ..

/-- The entry of a coalescing unit goes, and the others stay. -/
theorem tget_held_coalesceReleaseG (m : Mach) (u v : Nat) :
    tget 0 v (coalesceReleaseG u m).copy.held = if v = u then 0 else tget 0 v m.copy.held := by
  unfold coalesceReleaseG
  split
  · rename_i hu
    split
    · rename_i hv
      rw [hv, tget, hu, Option.getD_none]
    · rfl
  · exact tget_tdel ..

theorem coalesceRelease_releases (s : State) (u : Nat) : ∃ t, exec (.coalesceRelease u) s = .next t ∧ tget 0 u t.m.copy.held = 0
    ∧ (∀ v, v ≠ u → tget 0 v t.m.copy.held = tget 0 v s.m.copy.held) ∧ t.m.mem = s.m.mem := by
  refine ⟨_, next_of_lift (coalesceReleaseG u) rfl rfl, ?_, fun v hv => ?_, ?_⟩
  · rw [tget_held_coalesceReleaseG, if_pos rfl]
  · rw [tget_held_coalesceReleaseG, if_neg hv]
  · unfold coalesceReleaseG
    split <;> rfl

theorem nodeConfiguration_writes {s : State} {id : Nat} {r : Req} {c k : Nat} (hr : reqOf s.m id = some r) (hop : r.op = .plset c k) :
    let n := bits c 59 3 * 8 + bits c 56 3
    thas (272 + n) s.m.copy.tiles = false → tileSaved s.m r.past (272 + n) = false → gated s.m r = false →
    exec (.nodeConfiguration id) s =
      .next { s with m := finish { s.m with copy.nodes := tput Node.reset n ⟨c, k, [], [], 0, 0⟩ s.m.copy.nodes } id 0 } := by
  intro n htile hsaved hgate
  refine next_of_lift (nodeConfigurationG id) rfl ?_
  simp only [nodeConfigurationG, hr, hop]
  exact if_neg (by simp [n, htile, hsaved, hgate] at *)

end Sys2Proof.Machine

/-! PROOFS. Copies at their engine: a slot and a ticket, the bytes that move, and the completion word (R39, R259, R262, R264-R266). -/
namespace Sys2Proof.Machine

/-! ## A slot and a ticket -/

/-- The machine after copy `id` takes slot `i` of an engine, whose generation rises (R259). -/
def slotGranted (m : Mach) (id core i : Nat) : Mach :=
  modReq (setSlot { m with free := m.free + 1 } core i ⟨((slotOf m core i).gen + 1) % 65536, true, 0, 0⟩) id
    (fun x => { x with granted := some (i, ((slotOf m core i).gen + 1) % 65536) })

/-- Whether a request waits for the ticket of copy `id`. -/
def wantsTicket (id : Nat) (q : Req) : Bool := match q.op with | .ticket t => t == id | _ => false

/-- The machine after the request for the ticket of copy `id`, where one waits, gets the ticket `v` (R266). -/
def ticketGiven (m : Mach) (id v : Nat) : Mach :=
  match m.mem.reqs.find? (wantsTicket id) with
  | some t => finish m t.id v
  | none => m

theorem ticketGiven_some {m : Mach} {id v : Nat} {t : Req} (h : m.mem.reqs.find? (wantsTicket id) = some t) :
    ticketGiven m id v = finish m t.id v := by
  simp only [ticketGiven, h]

theorem ticketGiven_none {m : Mach} {id v : Nat} (h : m.mem.reqs.find? (wantsTicket id) = none) : ticketGiven m id v = m := by
  simp only [ticketGiven, h]

/-- A copy that waits for a slot has been judged and has none. -/
theorem op_of_waitsSlot {r : Req} (h : waitsSlot r = true) :
    (∃ k vec bw ds o dN sN hd hs, r.op = .copy k vec bw ds o dN sN hd hs true) ∧ r.granted.isSome = false := by
  unfold waitsSlot at h
  split at h
  · rename_i hop
    simp only [Bool.and_eq_true] at h
    obtain ⟨rfl, hn⟩ := h
    exact ⟨⟨_, _, _, _, _, _, _, _, _, hop⟩, by simpa using hn⟩
  · cases h

/-- The oldest waiting copy of an engine that is not held gets the slot that the free choice names. -/
theorem copySlotGrantG_grants {m : Mach} {id i : Nat} {r : Req} {A : CopyArgs} (hr : reqOf m id = some r) (hw : waitsSlot r = true)
    (hA : copyArgs r = some A)
    (hold : ∀ q ∈ m.mem.reqs, (waitsSlot q = true ∨ copyPends m q = true) → q.id ≠ id → copyEarlier m r q = true →
      ∀ B, copyArgs q = some B → copyCore m q B ≠ copyCore m r A)
    (hfrozen : copyFrozen m r = false) (heng : engineHeld m (copyCore m r A) = false)
    (hi : (freeSlots m (copyCore m r A))[Config.freeSlot m.free % (freeSlots m (copyCore m r A)).length]? = some i) :
    copySlotGrantG id m = ticketGiven (slotGranted m id (copyCore m r A) i) id
      (copyTicket (copyCore m r A) (((slotOf m (copyCore m r A) i).gen + 1) % 65536) i) := by
  obtain ⟨⟨k, vec, bw, ds, o, dN, sN, hd, hs, hop⟩, hnone⟩ := op_of_waitsSlot hw
  simp only [copySlotGrantG, hr, hop, hA]
  rw [if_neg]
  · rw [hi]
    rfl
  · simp only [hnone, hfrozen, heng, Bool.false_or, Bool.or_false, List.any_eq_true, Bool.and_eq_true, Bool.or_eq_true, bne_iff_ne]
    rintro ⟨q, hq, ⟨⟨hwait, hne⟩, hearly⟩, hsame⟩
    split at hsame
    · exact hold q hq hwait hne hearly _ ‹copyArgs q = _› (beq_iff_eq.mp hsame)
    · cases hsame

theorem copySlotGrant_grants {s : State} {id : Nat} {r : Req} {A : CopyArgs} (hr : reqOf s.m id = some r) (hw : waitsSlot r = true)
    (hA : copyArgs r = some A) :
    let core := copyCore s.m r A
    (∀ q ∈ s.m.mem.reqs, (waitsSlot q = true ∨ copyPends s.m q = true) → q.id ≠ id → copyEarlier s.m r q = true →
      ∀ B, copyArgs q = some B → copyCore s.m q B ≠ core) →
    copyFrozen s.m r = false → engineHeld s.m core = false → freeSlots s.m core ≠ [] →
    ∃ i ∈ freeSlots s.m core,
      let g := ((slotOf s.m core i).gen + 1) % 65536
      let m1 := modReq (setSlot { s.m with free := s.m.free + 1 } core i ⟨g, true, 0, 0⟩) id (fun x => { x with granted := some (i, g) })
      let isT := fun (q : Req) => match q.op with | .ticket t => t == id | _ => false
      (∀ t, m1.mem.reqs.find? isT = some t → exec (.copySlotGrant id) s = .next { s with m := finish m1 t.id (copyTicket core g i) })
      ∧ (m1.mem.reqs.find? isT = none → exec (.copySlotGrant id) s = .next { s with m := m1 }) := by
  intro core hold hfrozen heng hfree
  have hlt : Config.freeSlot s.m.free % (freeSlots s.m core).length < (freeSlots s.m core).length :=
    Nat.mod_lt _ (List.length_pos_of_ne_nil hfree)
  refine ⟨_, List.getElem_mem hlt, ?_⟩
  have hg := copySlotGrantG_grants hr hw hA hold hfrozen heng (List.getElem?_eq_getElem hlt)
  exact ⟨fun t ht => next_of_lift (copySlotGrantG id) rfl (hg.trans (ticketGiven_some ht)),
    fun ht => next_of_lift (copySlotGrantG id) rfl (hg.trans (ticketGiven_none ht))⟩

/-! ## The bytes that move (R264, R265) -/

theorem badUnits_ok (moves : List (Loc × Byte)) : badUnits (moves.map (fun x => .ok x.1 x.2)) = [] := by
  unfold badUnits
  rw [List.foldl_map]
  exact foldl_eq_self fun _ _ => rfl

/-- Where no byte fails and no element repeats, every byte moves, in pattern order. -/
theorem goodBytes_ok (m : Mach) (r : Req) {A : CopyArgs} {ps : List (Int × Int)} {moves : List (Loc × Byte)} (hk : A.kind ≠ 2)
    (hl : moves.length = ps.length) : goodBytes m r A ps (moves.map (fun x => .ok x.1 x.2)) = moves := by
  unfold goodBytes
  simp only [badUnits_ok, if_neg hk, List.any_nil, Bool.false_eq_true, if_false]
  induction moves generalizing ps with
  | nil => simp
  | cons x moves ih =>
    cases ps with
    | nil => cases hl
    | cons p ps =>
      simp only [List.map_cons, List.zip_cons_cons, List.filterMap_cons]
      rw [ih (Nat.succ.inj hl)]

/-! ## Completion -/

/-- Flits of an effect that takes place enter the fabric together where the port has the credits that are due; else those for which there is
one do, and the rest waits (R39). -/
theorem enterFabric_moves {port id n : Nat} {moves : Mach → Mach → Bool} {g : Mach → Mach} {s : State} (h : moves s.m (g s.m) = true) :
    enterFabric port id n moves g s =
      (let b := bucketOf s port
       let due := n - tget 0 id s.pow.paid
       if b.level < due then
        (let s1 := putBucket s port { b with level := 0 }
         { s1 with pow.capped := true, pow.paid := tput 0 id (n - due + b.level) s1.pow.paid })
       else
        (let s1 := putBucket { s with m := g s.m } port { b with level := b.level - due }
         { s1 with pow.paid := tput 0 id 0 s1.pow.paid })) := by
  simp only [enterFabric, h, Bool.not_true, Bool.false_eq_true, if_false]

/-- The machine after copy `r` gives up slot `i` of its engine, and its request is gone. -/
def copyForgotten (m : Mach) (r : Req) (core i : Nat) : Mach :=
  let m1 := delReq (setSlot m core i { slotOf m core i with busy := false }) r.id
  { m1 with copy.issued := m1.copy.issued.filter (· != r.id), copy.moved := m1.copy.moved.filter (· != r.id) }

/-- A copy that ends writes its value, or the failure value, to CW where that translates (R262). -/
theorem endCopy_ok {m : Mach} {r : Req} {A : CopyArgs} {core i : Nat} {ls : List Loc}
    (h : scratchLocs (copyForgotten m r core i) r.who r.past (bits A.vec 96 32) 4 = .ok ls) :
    endCopy m r A core i = serveParts (writeLocs (copyForgotten m r core i) ls
      (bytesOf (if (slotOf m core i).failed = 0 then bits A.bw 0 32 else 0xFFFFFFFF) 4)) := by
  unfold copyForgotten at h ⊢
  simp only [endCopy, h]

/-- The copy of a slot that has its bytes to move moves them in one step, all at once with its completion word, as its port has the credits
for its last flits. -/
theorem copyCompletion_completes {s : State} {id : Nat} {r : Req} {A : CopyArgs} {i g failed bytes : Nat} {ps : List (Int × Int)}
    {bad : List Nat} {ls : List Loc} {m2 m5 : Mach} (hr : reqOf s.m id = some r) (hA : copyArgs r = some A) (hgr : r.granted = some (i, g))
    (hmay : mayPerform s.m r = true) (hrange : rangeHeld s.m r = false) (hps : copyPairs s.m r A.kind A.vec A.desc = some ps)
    (hmoved : s.m.copy.moved.contains id = false) (heng : engineHeld s.m (copyCore s.m r A) = false) (hheld : copyHeld s.m r A bad = false)
    (hmove : moveCopy s.m r A (copyCore s.m r A) i g bad = m2) (hslot : slotOf m2 (copyCore s.m r A) i = ⟨g, true, failed, bytes⟩)
    (hitem : itemHeld m2 r.past (copyTicket (copyCore s.m r A) g i) = false)
    (hscratch : scratchLocs (copyForgotten m2 r (copyCore s.m r A) i) r.who r.past (bits A.vec 96 32) 4 = .ok ls)
    (hend : serveParts (writeLocs (copyForgotten m2 r (copyCore s.m r A) i) ls
      (bytesOf (if failed = 0 then bits A.bw 0 32 else 0xFFFFFFFF) 4)) = m5)
    (hgone : reqOf m5 id = none) :
    let b := bucketOf s (1000 + copyCore s.m r A)
    let n := max 1 ((ps.length + 15) / 16)
    let due := n - tget 0 id s.pow.paid
    exec (.copyCompletion id bad) s = .next (if b.level < due then
        (let s1 := putBucket s (1000 + copyCore s.m r A) { b with level := 0 }
         { s1 with pow.capped := true, pow.paid := tput 0 id (n - due + b.level) s1.pow.paid })
      else
        (let s1 := putBucket { s with m := m5 } (1000 + copyCore s.m r A) { b with level := b.level - due }
         { s1 with pow.paid := tput 0 id 0 s1.pow.paid })) := by
  have hG : copyCompletionG id bad s.m = m5 := by
    have he := endCopy_ok hscratch
    rw [hslot] at he
    simp only [copyCompletionG, hr, hA, hgr, heng, hmoved, hmay, hrange, hheld, hmove, hitem, he, hend, Bool.not_true, Bool.or_self,
      Bool.false_eq_true, if_false]
  have hbefore : copyMoved s.m id = false := by rw [copyMoved, hmoved, hr]; rfl
  have hafter : copyMoved m5 id = true := by simp [copyMoved, hgone]
  show execCopyCompletion id bad s = _
  simp only [execCopyCompletion, hr, hA, hps, Option.bind_some, Option.map_some, Option.getD_some]
  rw [enterFabric_moves (moves := fun m t => !copyMoved m id && copyMoved t id) (by simp only [hG, hbefore, hafter]; rfl), hG]
  rfl

/-- Settles O40: every clause is the rule of its instruction or event above. -/
theorem streamsAndCopies : Obligations.StreamsAndCopies := by
  unfold Obligations.StreamsAndCopies
  refine ⟨⟨fun d a s h => (exec_memStart (i := .cqry d a) rfl h :),
    fun m p core slot gen hcore hslot hgen hset => cqryWord_copyTicket hcore hslot hgen hset,
    fun d a b s i ld hi h => tile_asks hi h, fun d a b s h => plset_asks h,
    fun f d a b s h => (exec_memStart (i := .cflush f d a b) rfl h :),
    fun f d a b s h => (exec_memStart (i := .bopen f d a b) rfl h :), fun d a s h => (exec_memStart (i := .bclose d a) rfl h :)⟩,
    fun s id r A => copySlotGrant_grants, ?completion, fun m r A ps moves => goodBytes_ok m r,
    fun s id r ld addr bw => agTileStart_starts, ?resumption, coalesceRelease_releases, fun s id r c k => nodeConfiguration_writes⟩
  case completion =>
    intro s id r A i g ps bad ls hr hA hgr hmay hrange hps hmoved core heng hheld os us good places phys m0 m1 m2 hitem m3 m4 hscratch m5
      hgone
    have hid : r.id = id := by simpa using List.find?_some hr
    have hmove : moveCopy s.m r A core i g bad = m2 := by
      rw [moveCopy, hps, Option.getD_some]
    have hslot : slotOf m2 core i = ⟨g, true, min us.length 65535, min good.length (2 ^ 32 - 1)⟩ := tget_tput_same ..
    have hforgotten : copyForgotten m2 r core i = m4 := by
      rw [copyForgotten, hslot, hid]
    have hfail : (min us.length 65535 = 0) = (us = []) := by
      rw [← List.length_eq_zero_iff]
      exact propext (by omega)
    have hend : serveParts (writeLocs (copyForgotten m2 r core i) ls
        (bytesOf (if min us.length 65535 = 0 then bits A.bw 0 32 else 0xFFFFFFFF) 4)) = m5 := by
      simp only [hforgotten, hfail, m5]
    exact copyCompletion_completes hr hA hgr hmay hrange hps hmoved heng hheld hmove hslot hitem (hforgotten ▸ hscratch) hend hgone
  case resumption =>
    intro s id r ld addr bw x hr hop hmay u htile hfirst m1
    exact agTileStart_eq hr hop hmay htile hfirst

end Sys2Proof.Machine

/-! PROOFS. Decoding what the encoder writes (R61, R68, R76): the five fields of an op word are bytes, and the words of the manual. -/
namespace Sys2Proof

/-! ## The fields of an op word -/

theorem boolBit_lt (b : Bool) : boolBit b < 2 := by cases b <;> decide
@[simp] theorem Opd.code_lt (o : Opd) : o.code < 256 := by
  cases o <;> simp only [Opd.code] <;> omega

theorem Shape.code_lt (x : Shape) : x.code < 8 := by cases x <;> decide
theorem Rnd.code_lt (x : Rnd) : x.code < 4 := by cases x <;> decide
theorem Scope.code_lt (x : Scope) : x.code < 16 := by cases x <;> decide
theorem Order.code_lt (x : Order) : x.code < 4 := by cases x <;> decide
theorem Width.code_lt (x : Width) : x.code < 4 := by cases x <;> decide
theorem CmpCond.code_lt (x : CmpCond) : x.code < 8 := by cases x <;> decide
theorem FCond.code_lt (x : FCond) : x.code < 8 := by cases x <;> decide
theorem WCond.code_lt (x : WCond) : x.code < 8 := by cases x <;> decide
theorem SgnOp.code_lt (x : SgnOp) : x.code < 4 := by cases x <;> decide
theorem LogOp.code_lt (x : LogOp) : x.code < 4 := by cases x <;> decide
theorem FFmt.code_lt (x : FFmt) : x.code < 8 := by cases x <;> decide
theorem ITy.code_lt (x : ITy) : x.code < 8 := by cases x <;> decide
theorem QFmt.code_lt (x : QFmt) : x.code < 4 := by cases x <;> decide
theorem RedOp.code_lt (x : RedOp) : x.code < 4 := by cases x <;> decide
theorem UnpkSel.code_lt (x : UnpkSel) : x.code < 4 := by cases x <;> decide
theorem TurnK.code_lt (x : TurnK) : x.code < 4 := by cases x <;> decide
theorem FenceK.code_lt (x : FenceK) : x.code < 4 := by cases x <;> decide
theorem AmoOp.code_lt (x : AmoOp) : x.code < 16 := by cases x <;> decide
theorem BextMode.code_lt (x : BextMode) : x.code < 4 := by cases x <;> decide
theorem ScanOp.code_lt (x : ScanOp) : x.code < 4 := by cases x <;> decide
theorem RscanMode.code_lt (x : RscanMode) : x.code < 4 := by cases x <;> decide
theorem MgrpOp.code_lt (x : MgrpOp) : x.code < 4 := by cases x <;> decide
theorem RamoOp.code_lt (x : RamoOp) : x.code < 8 := by cases x <;> decide
theorem TlbiKind.code_lt (x : TlbiKind) : x.code < 4 := by cases x <;> decide
theorem LimmForm.code_lt (x : LimmForm) : x.code < 4 := by cases x <;> decide

@[simp] theorem ShF.enc_lt (f : ShF) : f.enc < 256 := by grind [ShF.enc, Shape.code_lt]
@[simp] theorem IntF.enc_lt (f : IntF) : f.enc < 256 := by grind [IntF.enc, Shape.code_lt, boolBit_lt]
@[simp] theorem BfxF.enc_lt (f : BfxF) : f.enc < 256 := by grind [BfxF.enc, Shape.code_lt, boolBit_lt]
@[simp] theorem CmpF.enc_lt (f : CmpF) : f.enc < 256 := by grind [CmpF.enc, Shape.code_lt, CmpCond.code_lt]
@[simp] theorem SelF.enc_lt (f : SelF) : f.enc < 256 := by grind [SelF.enc]
@[simp] theorem LeaF.enc_lt (f : LeaF) : f.enc < 256 := by grind [LeaF.enc, Shape.code_lt]
@[simp] theorem FpF.enc_lt (f : FpF) : f.enc < 256 := by grind [FpF.enc, Shape.code_lt, Rnd.code_lt, boolBit_lt]
@[simp] theorem FmmF.enc_lt (f : FmmF) : f.enc < 256 := by grind [FmmF.enc, Shape.code_lt, boolBit_lt]
@[simp] theorem FsgnF.enc_lt (f : FsgnF) : f.enc < 256 := by grind [FsgnF.enc, Shape.code_lt, SgnOp.code_lt, boolBit_lt]
@[simp] theorem FcmpF.enc_lt (f : FcmpF) : f.enc < 256 := by grind [FcmpF.enc, Shape.code_lt, FCond.code_lt, boolBit_lt]
@[simp] theorem CvtF.enc_lt (f : CvtF) : f.enc < 256 := by grind [CvtF.enc, Rnd.code_lt, boolBit_lt]
@[simp] theorem CviF.enc_lt (f : CviF) : f.enc < 256 := by grind [CviF.enc, boolBit_lt]
@[simp] theorem FtoiF.enc_lt (f : FtoiF) : f.enc < 256 := by grind [FtoiF.enc, Shape.code_lt, Rnd.code_lt, boolBit_lt]
@[simp] theorem SatF.enc_lt (f : SatF) : f.enc < 256 := by grind [SatF.enc, boolBit_lt]
@[simp] theorem QblkF.enc_lt (f : QblkF) : f.enc < 256 := by grind [QblkF.enc, QFmt.code_lt]
@[simp] theorem UnpkF.enc_lt (f : UnpkF) : f.enc < 256 := by grind [UnpkF.enc, Shape.code_lt, UnpkSel.code_lt]
@[simp] theorem BitF.enc_lt (f : BitF) : f.enc < 256 := by grind [BitF.enc, boolBit_lt]
@[simp] theorem DeqF.enc_lt (f : DeqF) : f.enc < 256 := by grind [DeqF.enc]
@[simp] theorem PlogF.enc_lt (f : PlogF) : f.enc < 256 := by grind [PlogF.enc, LogOp.code_lt]
@[simp] theorem PoisF.enc_lt (f : PoisF) : f.enc < 256 := by grind [PoisF.enc]
@[simp] theorem MxF.enc_lt (f : MxF) : f.enc < 256 := by grind [MxF.enc, FFmt.code_lt]
@[simp] theorem MxfmtF.enc_lt (f : MxfmtF) : f.enc < 256 := by grind [MxfmtF.enc, FFmt.code_lt, boolBit_lt]
@[simp] theorem MxaccF.enc_lt (f : MxaccF) : f.enc < 256 := by grind [MxaccF.enc, boolBit_lt]
@[simp] theorem MxdrnF.enc_lt (f : MxdrnF) : f.enc < 256 := by grind [MxdrnF.enc, FFmt.code_lt, Rnd.code_lt, boolBit_lt]
@[simp] theorem CturnF.enc_lt (f : CturnF) : f.enc < 256 := by grind [CturnF.enc, TurnK.code_lt]
@[simp] theorem MemF.enc_lt (f : MemF) : f.enc < 256 := by grind [MemF.enc, Scope.code_lt, Order.code_lt, Width.code_lt]
@[simp] theorem ScF.enc_lt (f : ScF) : f.enc < 256 := by grind [ScF.enc, Scope.code_lt]
@[simp] theorem ScBF.enc_lt (f : ScBF) : f.enc < 256 := by grind [ScBF.enc, Scope.code_lt, boolBit_lt]
@[simp] theorem ApF.enc_lt (f : ApF) : f.enc < 256 := by grind [ApF.enc, Scope.code_lt, Width.code_lt]
@[simp] theorem FenceF.enc_lt (f : FenceF) : f.enc < 256 := by grind [FenceF.enc, Scope.code_lt, FenceK.code_lt]
@[simp] theorem AmoF.enc_lt (f : AmoF) : f.enc < 256 := by grind [AmoF.enc, Scope.code_lt, AmoOp.code_lt]
@[simp] theorem WaitaF.enc_lt (f : WaitaF) : f.enc < 256 := by grind [WaitaF.enc, Scope.code_lt, boolBit_lt, WCond.code_lt]
@[simp] theorem CopyF.enc_lt (f : CopyF) : f.enc < 256 := by grind [CopyF.enc]
@[simp] theorem BextF.enc_lt (f : BextF) : f.enc < 256 := by grind [BextF.enc, BextMode.code_lt]
@[simp] theorem PscanF.enc_lt (f : PscanF) : f.enc < 256 := by grind [PscanF.enc, Rnd.code_lt, ScanOp.code_lt]
@[simp] theorem RelF.enc_lt (f : RelF) : f.enc < 256 := by grind [RelF.enc]
@[simp] theorem FamF.enc_lt (f : FamF) : f.enc < 256 := by grind [FamF.enc]
@[simp] theorem MgrpF.enc_lt (f : MgrpF) : f.enc < 256 := by grind [MgrpF.enc, MgrpOp.code_lt]
@[simp] theorem RamoF.enc_lt (f : RamoF) : f.enc < 256 := by grind [RamoF.enc, Scope.code_lt, RamoOp.code_lt]
@[simp] theorem PfF.enc_lt (f : PfF) : f.enc < 256 := by grind [PfF.enc, boolBit_lt]
@[simp] theorem TlbiF.enc_lt (f : TlbiF) : f.enc < 256 := by grind [TlbiF.enc, Scope.code_lt, TlbiKind.code_lt]

/-- The five fields of an op word are bytes. -/
structure OpWord.Fits (w : OpWord) : Prop where
  opc : w.opc < 256
  d : w.d < 256
  a : w.a < 256
  b : w.b < 256
  m : w.m < 256

theorem OpWord.Fits.toNat_lt {w : OpWord} (h : w.Fits) : w.toNat < 2 ^ 40 := by
  obtain ⟨h1, h2, h3, h4, h5⟩ := h
  unfold OpWord.toNat
  omega

/-- A word of bytes is read back from its 40 bits. -/
theorem OpWord.Fits.ofNat_toNat {w : OpWord} (h : w.Fits) : OpWord.ofNat w.toNat = w := by
  obtain ⟨h1, h2, h3, h4, h5⟩ := h
  obtain ⟨opc, d, a, b, m⟩ := w
  simp only [OpWord.ofNat, OpWord.toNat, bits, Nat.shiftRight_eq_div_pow, OpWord.mk.injEq] at *
  omega

theorem bits_lt (v lo n : Nat) : bits v lo n < 2 ^ n := Nat.mod_lt _ (Nat.two_pow_pos n)

theorem encOp_fits {i : Instr} {w : OpWord} (h : encOp i = some w) : w.Fits := by
  cases i with
  | chq d a => cases h; exact ⟨by simp, by simp, by dsimp; omega, by simp, by simp⟩
  | cturn f a => cases h; exact ⟨by simp, by simp, by dsimp; omega, by simp, by simp⟩
  | limm form v d =>
    cases h
    have := bits_lt v.toNat 0 6
    have := form.code_lt
    exact ⟨by simp, by simp, bits_lt _ 14 8, bits_lt _ 6 8, by dsimp; omega⟩
  | cvt f tf ff d a =>
    cases h
    have := tf.code_lt
    have := ff.code_lt
    exact ⟨by simp, by simp, by simp, by dsimp; omega, by simp⟩
  | cvti f tf ff d a =>
    cases h
    have := tf.code_lt
    have := ff.code_lt
    exact ⟨by simp, by simp, by simp, by dsimp; omega, by simp⟩
  | fred f op d a => cases h; exact ⟨by simp, by simp, by simp, by have := op.code_lt; dsimp; omega, by simp⟩
  | rscan f d a b => cases h; exact ⟨by simp, by simp, by simp, by have := b.code_lt; dsimp; omega, by simp⟩
  | hash spr d a =>
    cases h
    cases spr with
    | none => exact ⟨by simp, by simp, by simp, by simp, by simp⟩
    | some k => exact ⟨by simp, by simp, by simp, by dsimp; omega, by simp⟩
  | lbrk c ng n =>
    cases h
    have := boolBit_lt c
    have := boolBit_lt ng
    exact ⟨by simp, by simp, by dsimp; omega, by simp, by simp⟩
  | _ => cases h <;> constructor <;> simp [Fin.val_lt_of_le]

/-! ## The round trip -/

open Laws in
/-- The laws of the instructions, under one name. An event has no op word. -/
theorem decodeOp_encOp (i : Instr) : RoundTrip.Statement i := by
  cases i with
  | nop => exact RoundTrip.nop | mov f d a => exact RoundTrip.mov f d a | send d a b => exact RoundTrip.send d a b
  | deq f a => exact RoundTrip.deq f a | tagr d a => exact RoundTrip.tagr d a | eos d => exact RoundTrip.eos d
  | pset a b => exact RoundTrip.pset a b | plog f d a b => exact RoundTrip.plog f d a b | done => exact RoundTrip.done
  | poison f d a => exact RoundTrip.poison f d a | chq d a => exact RoundTrip.chq d a | add f d a b => exact RoundTrip.add f d a b
  | sub f d a b => exact RoundTrip.sub f d a b | adds f d a b => exact RoundTrip.adds f d a b
  | addn f d a b => exact RoundTrip.addn f d a b | mul f d a b => exact RoundTrip.mul f d a b
  | mulh f d a b => exact RoundTrip.mulh f d a b | mulhn f d a b => exact RoundTrip.mulhn f d a b
  | mad f d a b => exact RoundTrip.mad f d a b | div f d a b => exact RoundTrip.div f d a b
  | divn f d a b => exact RoundTrip.divn f d a b | rem f d a b => exact RoundTrip.rem f d a b
  | min f d a b => exact RoundTrip.min f d a b | max f d a b => exact RoundTrip.max f d a b
  | minn f d a b => exact RoundTrip.minn f d a b | maxn f d a b => exact RoundTrip.maxn f d a b | abs f d a => exact RoundTrip.abs f d a
  | and f d a b => exact RoundTrip.and f d a b | or f d a b => exact RoundTrip.or f d a b | xor f d a b => exact RoundTrip.xor f d a b
  | andn f d a b => exact RoundTrip.andn f d a b | shl f d a b => exact RoundTrip.shl f d a b
  | shr f d a b => exact RoundTrip.shr f d a b | sha f d a b => exact RoundTrip.sha f d a b | rot f d a b => exact RoundTrip.rot f d a b
  | cmp f d a b => exact RoundTrip.cmp f d a b | sel f d a b => exact RoundTrip.sel f d a b | clz f d a => exact RoundTrip.clz f d a
  | popc f d a => exact RoundTrip.popc f d a | bfx f d a b => exact RoundTrip.bfx f d a b | bfi f d a b => exact RoundTrip.bfi f d a b
  | lea f d a b => exact RoundTrip.lea f d a b | limm form v d => exact RoundTrip.limm form v d
  | fadd f d a b => exact RoundTrip.fadd f d a b | fsub f d a b => exact RoundTrip.fsub f d a b
  | fmul f d a b => exact RoundTrip.fmul f d a b | fma f d a b => exact RoundTrip.fma f d a b
  | fnma f d a b => exact RoundTrip.fnma f d a b | fmin f d a b => exact RoundTrip.fmin f d a b
  | fmax f d a b => exact RoundTrip.fmax f d a b | fsgn f d a b => exact RoundTrip.fsgn f d a b
  | fcmp f d a b => exact RoundTrip.fcmp f d a b | fdiv f d a b => exact RoundTrip.fdiv f d a b
  | fsqrt f d a => exact RoundTrip.fsqrt f d a | frcp f d a => exact RoundTrip.frcp f d a | frsq f d a => exact RoundTrip.frsq f d a
  | fexp2 f d a => exact RoundTrip.fexp2 f d a | flog2 f d a => exact RoundTrip.flog2 f d a
  | fdot f d a b => exact RoundTrip.fdot f d a b | cvt f tf ff d a => exact RoundTrip.cvt f tf ff d a
  | cvti f tf ff d a => exact RoundTrip.cvti f tf ff d a | ftoi f d a => exact RoundTrip.ftoi f d a
  | itof f d a => exact RoundTrip.itof f d a | scale f d a b => exact RoundTrip.scale f d a b | qblk f d a => exact RoundTrip.qblk f d a
  | fred f op d a => exact RoundTrip.fred f op d a | shuf f d a b => exact RoundTrip.shuf f d a b
  | bcst f d a b => exact RoundTrip.bcst f d a b | pack f d a b => exact RoundTrip.pack f d a b
  | unpk f d a => exact RoundTrip.unpk f d a | fcls f d a => exact RoundTrip.fcls f d a | rand f d a b => exact RoundTrip.rand f d a b
  | mxmode f d a => exact RoundTrip.mxmode f d a | mxwld f a b => exact RoundTrip.mxwld f a b
  | mxwbuf d a b => exact RoundTrip.mxwbuf d a b | mxfmt f a b => exact RoundTrip.mxfmt f a b
  | mxrun d a b => exact RoundTrip.mxrun d a b | mxacc f a => exact RoundTrip.mxacc f a | mxdrn f d a b => exact RoundTrip.mxdrn f d a b
  | mxst f d a => exact RoundTrip.mxst f d a | cturn f a => exact RoundTrip.cturn f a | mxwait d a => exact RoundTrip.mxwait d a
  | ld f d a b => exact RoundTrip.ld f d a b | st f d a b => exact RoundTrip.st f d a b | lds f d a b => exact RoundTrip.lds f d a b
  | sts f d a b => exact RoundTrip.sts f d a b | ldh f d a b => exact RoundTrip.ldh f d a b | sth f d a b => exact RoundTrip.sth f d a b
  | hset d a b => exact RoundTrip.hset d a b | hget d a b => exact RoundTrip.hget d a b | wbind f d a b => exact RoundTrip.wbind f d a b
  | wfree a => exact RoundTrip.wfree a | pft f a b => exact RoundTrip.pft f a b | snap f d a b => exact RoundTrip.snap f d a b
  | append f d a b => exact RoundTrip.append f d a b | publ f d a b => exact RoundTrip.publ f d a b
  | fence f d => exact RoundTrip.fence f d | amo f d a b => exact RoundTrip.amo f d a b | cas f d a b => exact RoundTrip.cas f d a b
  | red f d a b => exact RoundTrip.red f d a b | waita f d a b => exact RoundTrip.waita f d a b | mon f a => exact RoundTrip.mon f a
  | mwait f d => exact RoundTrip.mwait f d | arrive f d a b => exact RoundTrip.arrive f d a b
  | waitc f d a b => exact RoundTrip.waitc f d a b | bar f d a => exact RoundTrip.bar f d a | bara f a => exact RoundTrip.bara f a
  | futw f d a b => exact RoundTrip.futw f d a b | futr f d a => exact RoundTrip.futr f d a | prio a => exact RoundTrip.prio a
  | copy f d a b => exact RoundTrip.copy f d a b | copya f d a b => exact RoundTrip.copya f d a b
  | copyi f d a b => exact RoundTrip.copyi f d a b | cqry d a => exact RoundTrip.cqry d a | agld d a b => exact RoundTrip.agld d a b
  | agst d a b => exact RoundTrip.agst d a b | bopen f d a b => exact RoundTrip.bopen f d a b | bclose d a => exact RoundTrip.bclose d a
  | plset d a b => exact RoundTrip.plset d a b | cflush f d a b => exact RoundTrip.cflush f d a b | rdef d a => exact RoundTrip.rdef d a
  | rins f d a b => exact RoundTrip.rins f d a b | rdel f d a => exact RoundTrip.rdel f d a | rule d a => exact RoundTrip.rule d a
  | eval d a => exact RoundTrip.eval d a | fold f d a => exact RoundTrip.fold f d a | rscan f d a b => exact RoundTrip.rscan f d a b
  | rlook f d a => exact RoundTrip.rlook f d a | rwit f d a => exact RoundTrip.rwit f d a
  | rback f d a b => exact RoundTrip.rback f d a b | rcnt f d => exact RoundTrip.rcnt f d | rdrop f d a => exact RoundTrip.rdrop f d a
  | bhist d a b => exact RoundTrip.bhist d a b | bsel d a b => exact RoundTrip.bsel d a b | bext f d a b => exact RoundTrip.bext f d a b
  | pscan f d a b => exact RoundTrip.pscan f d a b | topp d a => exact RoundTrip.topp d a
  | iwalk f d a b => exact RoundTrip.iwalk f d a b | spmx f d a b => exact RoundTrip.spmx f d a b
  | exq f d a b => exact RoundTrip.exq f d a b | excfg d a b => exact RoundTrip.excfg d a b
  | exdq f d a b => exact RoundTrip.exdq f d a b | stage d a => exact RoundTrip.stage d a | cast d a b => exact RoundTrip.cast d a b
  | merge d a b => exact RoundTrip.merge d a b | krt d a b => exact RoundTrip.krt d a b | hash spr d a => exact RoundTrip.hash spr d a
  | kroute f d a b => exact RoundTrip.kroute f d a b | sdone a => exact RoundTrip.sdone a | mdone a => exact RoundTrip.mdone a
  | castq d a => exact RoundTrip.castq d a | lease d a b => exact RoundTrip.lease d a b | lmove d a b => exact RoundTrip.lmove d a b
  | lrel f d a b => exact RoundTrip.lrel f d a b | lqry d a => exact RoundTrip.lqry d a | mcst f d a b => exact RoundTrip.mcst f d a b
  | mcstq d a b => exact RoundTrip.mcstq d a b | mgrp f d a b => exact RoundTrip.mgrp f d a b
  | ramo f d a b => exact RoundTrip.ramo f d a b | pgmig d a b => exact RoundTrip.pgmig d a b | slot d a => exact RoundTrip.slot d a
  | keyi f d a b => exact RoundTrip.keyi f d a b | peerq f d a => exact RoundTrip.peerq f d a | loop a b => exact RoundTrip.loop a b
  | lbrk c ng n => exact RoundTrip.lbrk c ng n | jind f a => exact RoundTrip.jind f a | arm f d a b => exact RoundTrip.arm f d a b
  | install f d a b => exact RoundTrip.install f d a b | launch f d a b => exact RoundTrip.launch f d a b
  | seqw d a => exact RoundTrip.seqw d a | getc d a b => exact RoundTrip.getc d a b | setc d a b => exact RoundTrip.setc d a b
  | event a b => exact RoundTrip.event a b | trap a b => exact RoundTrip.trap a b | tret => exact RoundTrip.tret
  | preempt d a => exact RoundTrip.preempt d a | resume f d a b => exact RoundTrip.resume f d a b
  | csave d a => exact RoundTrip.csave d a | cload d a => exact RoundTrip.cload d a | tlbi f d a b => exact RoundTrip.tlbi f d a b
  | gtbl d a b => exact RoundTrip.gtbl d a b | part d a b => exact RoundTrip.part d a b | halt d a => exact RoundTrip.halt d a
  | attest d a b => exact RoundTrip.attest d a b | flog f d a b => exact RoundTrip.flog f d a b
  | _ => nofun

theorem decodeOp_of_fate {k : UKind} {loader storer : Bool} {w : OpWord} {i : Instr} (h : fate k loader storer w = .ok i) :
    decodeOp w = .ok i := by
  unfold fate fateSeq at h
  repeat' split at h
  all_goals cases h
  assumption

/-- A well-formed instruction passes the decoder's own conditions on modifiers and literals. -/
theorem instrOk_of_wf {k : UKind} {i : Instr} {w : OpWord} (hwf : i.wf k = true) (hw : encOp i = some w) : instrOk i = true := by
  unfold Instr.wf at hwf
  simp only [hw] at hwf
  split at hwf
  · rename_i j hj
    have hdec := decodeOp_of_fate hj
    by_contra hno
    rw [decodeOp_encOp i w hw, if_neg hno] at hdec
    cases hdec
  · cases hwf

/-- Settles O2: the five fields of the word are bytes (`encOp_fits`), and a word that runs in some unit decodes, so the decoder gives the
instruction back (`decodeOp_encOp`). -/
theorem encodeDecode : Obligations.EncodeDecode := by
  intro k i w hwf hw
  have hfits := encOp_fits hw
  refine ⟨hfits.toNat_lt, ?_⟩
  rw [hfits.ofNat_toNat, decodeOp_encOp i w hw, if_pos (instrOk_of_wf hwf hw)]

/-- Settles O1: the decoder evaluates on each of the words. -/
theorem decodeWords : Obligations.DecodeWords := by
  refine ⟨?_, ?_, ?_, ?_, ?_, ?_, ?_, ?_, ?_⟩ <;> rfl

end Sys2Proof

/-! PROOFS. What a performed load delivers (R22, R79, R200, R204, R210, R211, R270, R281, R399). -/
namespace Sys2Proof.Machine

/-! ## A load at its request -/

theorem id_of_reqOf {m : Mach} {id : Nat} {r : Req} (h : reqOf m id = some r) : r.id = id := by
  simpa using List.find?_some h

theorem reqPlace_load {r : Req} {pl : Place} {n : Nat} {nt : Bool} (h : r.op = .load pl n nt) : reqPlace r = some (pl, n, .rd) := by
  simp only [reqPlace, h]

/-- The answer of a load that may be performed reaches it and the loads merged with it. -/
theorem exec_loadResult {s : State} {id : Nat} {r : Req} {pl : Place} {n : Nat} {nt : Bool} (hr : reqOf s.m id = some r)
    (hop : r.op = .load pl n nt) (hmay : mayPerform s.m r = true) (ans : Answer) :
    exec (.loadResult id ans) s = .next { s with m := performLoad s.m r pl n nt ans } := by
  refine next_of_lift (loadResultAny id ans) rfl ?_
  simp only [loadResultAny, loadResult, loadResultG, hr, hop, hmay, Bool.not_true, Bool.false_eq_true, if_false]

theorem performLoad_fails {m : Mach} {r : Req} {pl : Place} {n c d : Nat} {nt : Bool} {ls : List Loc} {ans : Answer}
    (h : mergedFault m r = some (c, d, ls)) : performLoad m r pl n nt ans = failMerged m r c d ls := by
  simp only [performLoad, h]

/-- An answer of the outside, of SECDED or for one byte is the load's alone. -/
theorem performLoad_answered {m : Mach} {r : Req} (pl : Place) (n : Nat) (nt : Bool) (ans : Answer) (h : mergedFault m r = none)
    (ha : ans ≠ .perform) : performLoad m r pl n nt ans = loadOne m r pl n nt ans := by
  have hb : (ans != .perform) = true := bne_iff_ne.mpr ha
  have he : (ans == .perform) = false := beq_eq_false_iff_ne.mpr ha
  simp only [performLoad, h, hb, he, Bool.true_or, Bool.false_eq_true, if_true, if_false, List.foldl_nil]

/-- A load that is merged with the performed one, as long as its request is there. -/
def performMerged (m : Mach) (q : Req) : Mach :=
  match reqOf m q.id, q.op with
  | some x, .load pl n nt => loadOne m x pl n nt .perform
  | _, _ => m

/-- A load is performed with the loads that are merged with it, or waits for them. -/
theorem performLoad_perform {m : Mach} {r : Req} (pl : Place) (n : Nat) (nt : Bool) (h : mergedFault m r = none) :
    performLoad m r pl n nt .perform =
      if mergedMay m r then (mergedWith m r).foldl performMerged (loadOne m r pl n nt .perform) else m := by
  have hb : (Answer.perform != .perform) = false := by decide
  have he : (Answer.perform == .perform) = true := by decide
  simp only [performLoad, h, hb, he, Bool.false_or, if_true]
  rfl

theorem performLoad_sole {m : Mach} {r : Req} (pl : Place) (n : Nat) (nt : Bool) (h : mergedFault m r = none) (hw : mergedWith m r = []) :
    performLoad m r pl n nt .perform = loadOne m r pl n nt .perform := by
  rw [performLoad_perform pl n nt h, hw]
  simp only [mergedMay, hw, List.all_nil, if_true, List.foldl_nil]

/-! ## The fault of a sole access -/

section Fault
variable {m : Mach} {r : Req} {pl : Place} {n : Nat} {k : AccK} (hw : mergedWith m r = []) (hp : reqPlace r = some (pl, n, k))
include hw hp

theorem mergedFault_bad {c d : Nat} (ht : targetOf m r pl n k = .bad c d) : mergedFault m r = some (c, d, []) := by
  simp only [mergedFault, hw, List.findSome?_cons, hp, ht]

theorem mergedFault_at {ls : List Loc} (ht : targetOf m r pl n k = .at ls) :
    mergedFault m r = (faultR m r k.writes ls).map (fun x => (x.1, x.2, ls)) := by
  simp only [mergedFault, hw, List.findSome?_cons, List.findSome?_nil, hp, ht]
  cases faultR m r k.writes ls <;> rfl

end Fault

theorem mergedFault_load {m : Mach} {r : Req} {pl : Place} {n : Nat} {nt : Bool} {ls : List Loc} (hw : mergedWith m r = [])
    (hop : r.op = .load pl n nt) (ht : targetOf m r pl n .rd = .at ls) (hf : faultR m r false ls = none) : mergedFault m r = none := by
  have hk : AccK.rd.writes = false := rfl
  rw [mergedFault_at hw (reqPlace_load hop) ht, hk, hf, Option.map_none]

theorem failMerged_sole {m : Mach} {r : Req} (hw : mergedWith m r = []) (c d : Nat) (ls : List Loc) :
    failMerged m r c d ls = failReq (endTorn m r.id) r c d ls := by
  rw [failMerged, hw, List.foldl_nil]

/-! ## What one load does at its target -/

section Target
variable {m : Mach} {r : Req} {pl : Place} {n : Nat} {ls : List Loc} (ht : targetOf m r pl n .rd = .at ls)
include ht

theorem loadOne_perform (nt : Bool) (hk : allKept m ls = true) : loadOne m r pl n nt .perform =
    finish (endTorn (drawFree (countMove m r)) r.id) r.id (tornVal m r n (mergeBuf m r ls (readVal m ls none))) := by
  simp only [loadOne, ht, hk, if_true]

theorem loadOne_byte (nt : Bool) (v : BitVec 128) (hm : misaligned ls = true) : loadOne m r pl n nt (.data v) =
    setTorn m r (v.toNat % n) (bits (mergeBuf m r ls (readVal m ls none)) (8 * (v.toNat % n)) 8) := by
  have ho : ls.any isOutside = false := by
    simp only [misaligned, Bool.and_eq_true, Bool.not_eq_true'] at hm
    exact hm.1
  simp only [loadOne, ht, ho, hm, Bool.false_eq_true, if_false, if_true]

theorem loadOne_outside (nt : Bool) (v : BitVec 128) (ho : ls.any isOutside = true) : loadOne m r pl n nt (.data v) =
    finish (drawFree (countMove (if nt then m else keepBytes m ls v.toNat) r)) r.id (mergeBuf m r ls (readVal m ls (some v.toNat))) := by
  simp only [loadOne, ht, ho, if_true]

theorem loadOne_corrected (nt : Bool) (v : BitVec 128) (ho : ls.any isOutside = false) (hm : misaligned ls = false) :
    loadOne m r pl n nt (.data v) =
      finish (drawFree (countMove (logCorrected m ls) r)) r.id (mergeBuf m r ls (readVal m ls none)) := by
  simp only [loadOne, ht, ho, hm, Bool.false_eq_true, if_false]

theorem loadOne_fail (nt : Bool) (c : BitVec 8) (d : BitVec 81) : loadOne m r pl n nt (.fail c d) =
    if c.toNat = 0 then discarded m r ls (fun p => failMerged m r 0x09 p ls)
    else if failOk r ls c.toNat d.toNat && !mergedBegun m r then failMerged (markBad m ls c.toNat d.toNat) r c.toNat d.toNat ls else m := by
  simp only [loadOne, ht]

end Target

theorem loadOne_beyond {m : Mach} {r : Req} {pl : Place} {n : Nat} (ht : targetOf m r pl n .rd = .beyond) (nt : Bool) (v : BitVec 128) :
    loadOne m r pl n nt (.data v) = finishTok m r.id [⟨Val.none, false, true, 0⟩] := by
  simp only [loadOne, ht]

/-! ## Bytes -/

/-- A value of which no byte has been read before is delivered as it is read. -/
theorem tornVal_eq_self {m : Mach} {r : Req} (n v : Nat) (h : tfind r.id m.mem.torn = none) : tornVal m r n v = v := by
  have h0 : (tornOf m r).1 = 0 := by simp [tornOf, tget, h]
  refine foldl_eq_self fun i _ => ?_
  have hb : bitAt 0 i = false := by simp [bitAt]
  rw [h0, hb, if_neg Bool.false_ne_true]

/-- Bytes of local places are read where they stand. -/
theorem readVal_local {m : Mach} {ls : List Loc} (h : ls.any isOutside = false) : readVal m ls none = natOf (ls.map (locByte m)) := by
  unfold readVal
  refine congrArg natOf (List.ext_getElem (by simp [upto]) fun i h1 h2 => ?_)
  rw [List.length_map] at h2
  have hl : isOutside ls[i] = false := by
    have := List.any_eq_false.mp h ls[i] (List.getElem_mem h2)
    simpa using this
  simp only [upto, List.getElem_map, List.getElem_range, List.getElem?_eq_getElem h2]
  cases hx : ls[i] with
  | peer p pa c => rw [hx] at hl; cases hl
  | host t pa => rw [hx] at hl; cases hl
  | _ => rfl

theorem allKept_local (m : Mach) {ls : List Loc} (h : ls.any isOutside = false) : allKept m ls = true := by
  refine List.all_eq_true.mpr fun l hl => ?_
  have := List.any_eq_false.mp h l hl
  simp [this]

/-- Only PEs buffer stores. -/
theorem mergeBuf_unit {m : Mach} {r : Req} {u w : Nat} (ls : List Loc) (v : Nat) (h : r.who = .unit u w) : mergeBuf m r ls v = v := by
  simp only [mergeBuf, h]

theorem reqLocs_load {m : Mach} {r : Req} {pl : Place} {n : Nat} {nt : Bool} {ls : List Loc} (hop : r.op = .load pl n nt)
    (ht : targetOf m r pl n .rd = .at ls) : reqLocs m r = ls := by
  simp only [reqLocs, hop, reqPlace_load hop, ht]

theorem mergedWith_sole {m : Mach} {r : Req} (h : m.mem.reqs = [r]) : mergedWith m r = [] := by
  unfold mergedWith
  split <;> simp [h]

/-! ## Flits that were discarded (R399) -/

theorem discarded_nothingSent {m : Mach} {r : Req} {ls : List Loc} (fail : Nat → Mach) (h : sentTo m r ls = []) :
    discarded m r ls fail = m := by
  have hr : resendFlit m r ls = none := by
    simp only [resendFlit, h, ite_self]
  simp only [discarded, hr, h]

theorem discarded_resends {m : Mach} {r : Req} {ls : List Loc} {x : Nat × Nat} {rest : List (Nat × Nat)} (fail : Nat → Mach)
    (h : sentTo m r ls = x :: rest) (hn : tget 0 r.id m.fab.resent < 3) :
    discarded m r ls fail = { countFlit m x.1 x.2 with
      fab.resent := tset r.id (tget 0 r.id m.fab.resent + 1) (countFlit m x.1 x.2).fab.resent } := by
  simp only [discarded, resendFlit, h, if_pos hn]

theorem discarded_fails {m : Mach} {r : Req} {ls : List Loc} {x : Nat × Nat} {rest : List (Nat × Nat)} (fail : Nat → Mach)
    (h : sentTo m r ls = x :: rest) (hn : 3 ≤ tget 0 r.id m.fab.resent) : discarded m r ls fail = fail x.1 := by
  simp only [discarded, resendFlit, h, if_neg (Nat.not_lt.mpr hn)]

/-! ## A local access counts no flit and no page -/

/-- A place of this package takes no flit. -/
theorem sentTo_local (m : Mach) (r : Req) {ls : List Loc} (h : ls.any isOutside = false) : sentTo m r ls = [] := by
  unfold sentTo
  rw [List.filterMap_eq_nil_iff.mpr fun l hl => ?_]
  · rfl
  · have ho := List.any_eq_false.mp h l hl
    cases l with
    | peer p pa c => exact absurd rfl ho
    | _ => rfl

theorem countAt_notMigrate {m : Mach} {r : Req} {va : Nat} (h : ∀ e, leafR m r va = .ok e → bits e 5 2 ≠ 3) : countAt m r va = m := by
  unfold countAt
  split
  · rename_i e he
    exact if_neg fun hc => h e he hc.1
  · rfl

theorem countMove_local {m : Mach} {r : Req} (ho : (reqLocs m r).any isOutside = false)
    (h : ∀ va ∈ moveVas m r, ∀ e, leafR m r (va / 65536 * 65536) = .ok e → bits e 5 2 ≠ 3) : countMove m r = m := by
  unfold countMove sendFlits
  rw [sentTo_local m r ho, List.foldl_nil]
  refine foldl_eq_self fun va hva => countAt_notMigrate ?_
  obtain ⟨v, hv, rfl⟩ := List.mem_map.mp (List.mem_eraseDups.mp hva)
  exact h v hv

/-! ## Results in their order (R204) -/

/-- A request with an earlier one of its slot or its output does not leave. -/
theorem firstOfSlot_behind {m : Mach} {r q : Req} (hq : q ∈ m.mem.reqs) (hid : q.id < r.id)
    (h : (sameSlot r q = true ∧ q.dst ≠ .drop ∧ r.dst ≠ .drop) ∨ sameOut r.dst q.dst = true) : firstOfSlot m r = false := by
  unfold firstOfSlot
  rw [Bool.and_eq_false_iff, Bool.not_eq_false', List.any_eq_true]
  refine .inl ⟨q, hq, ?_⟩
  rcases h with ⟨hs, h1, h2⟩ | h
  · simp [hid, hs, h1, h2]
  · simp [hid, h]

theorem firstOfSlot_sole {m : Mach} {r : Req} (h : m.mem.reqs = [r]) (hdst : ∀ u, r.dst ≠ .tile u) : firstOfSlot m r = true := by
  unfold firstOfSlot
  rw [Bool.and_eq_true, Bool.not_eq_true', h]
  refine ⟨by simp, ?_⟩
  split
  · exact absurd ‹_› (hdst _)
  · rfl

/-- With no request left and no pasture to complete, nothing more leaves. -/
theorem flushN_idle {m : Mach} (k : Nat) (hreqs : m.mem.reqs = []) (hend : ∀ p < 16, (pastOf m p).ending = none) : flushN k m = m := by
  cases k with
  | zero => rfl
  | succ k =>
    have he : advanceEnd m = none := by
      refine List.findSome?_eq_none_iff.mpr fun p hp => ?_
      rw [hend p (List.mem_range.mp hp)]
    simp only [flushN, flushOne, advanceSys, advanceEvent, hreqs, he, List.find?_nil, List.findSome?_nil, Option.orElse_none]

theorem flush_untouched {m : Mach} (h : m.sync.touched = []) :
    flush m = flushN (4 * m.mem.reqs.length + ((m.mem.reqs.map (fun r => (r.res.getD []).length)).sum) + 20) m := by
  simp only [flush, serveTouched, h, List.isEmpty_nil, if_true]

/-- A shepherd core's results are never parked. -/
theorem deliverTok_shepherd (m : Mach) (p u w k : Nat) (t : Token) (h : isShepherd u = true) :
    deliverTok m p (.unit u w) (.sreg u k) t = setSReg m u k (bits t.val.pay.toNat 0 64) := by
  have hu : 128 ≤ u ∧ u < 144 := by simpa [isShepherd] using h
  have htile : isTile u = false := by simp [isTile]; omega
  have hgraph : isGraph u = false := by simp [isGraph]; omega
  simp only [deliverTok, tileAway, htile, hgraph, writeDst, Bool.and_false, Bool.false_and, Bool.or_false, Bool.false_eq_true, if_false]

/-- The sole request, with one token that ends no stream, leaves. -/
theorem flushOne_sole {m : Mach} {r : Req} {t : Token} {u k : Nat} (hreqs : m.mem.reqs = [r]) (hres : r.res = some [t]) (ht : t.eos = false)
    (hdst : r.dst = .sreg u k) : flushOne m = some (deliverTok (delReq m r.id) r.past r.who r.dst t) := by
  have hfirst : firstOfSlot m r = true := firstOfSlot_sole hreqs fun v hv => by rw [hdst] at hv; cases hv
  have hgoes : streamGoes m r = true := by
    simp [streamGoes, isStream, hres, ht]
  have hfind : m.mem.reqs.find? (fun r => r.res.isSome && firstOfSlot m r && streamGoes m r) = some r := by
    simp [hreqs, hres, hfirst, hgoes]
  simp only [flushOne, hfind, hres, Option.getD_some, List.foldl_cons, List.foldl_nil, hdst]

theorem flushN_succ_of_flushOne {m x : Mach} (k : Nat) (h : flushOne m = some x) : flushN (k + 1) m = flushN k x := by
  simp only [flushN, h, Option.orElse_some]

/-- A shepherd core's sole request, with its result for a register: the register takes it, and nothing else happens. -/
theorem flush_sole_shepherd {m : Mach} {r : Req} {t : Token} {u w k : Nat} (hreqs : m.mem.reqs = [r]) (hres : r.res = some [t])
    (ht : t.eos = false) (hwho : r.who = .unit u w) (hu : isShepherd u = true) (hdst : r.dst = .sreg u k)
    (htouched : m.sync.touched = []) (hend : ∀ p < 16, (pastOf m p).ending = none) :
    flush m = setSReg (delReq m r.id) u k (bits t.val.pay.toNat 0 64) := by
  have hone := flushOne_sole hreqs hres ht hdst
  rw [hwho, hdst, deliverTok_shepherd _ _ u w k t hu] at hone
  have hnone : (setSReg (delReq m r.id) u k (bits t.val.pay.toNat 0 64)).mem.reqs = [] := by
    simp [delReq, hreqs]
  rw [flush_untouched htouched, flushN_succ_of_flushOne _ hone]
  exact flushN_idle _ hnone hend

/-- The end of a shepherd core's sole request for a register. -/
theorem finish_sole_shepherd {m : Mach} {r : Req} {u w k : Nat} (v : Nat) (hreqs : m.mem.reqs = [r]) (hwho : r.who = .unit u w)
    (hu : isShepherd u = true) (hdst : r.dst = .sreg u k) (htouched : m.sync.touched = []) (hend : ∀ p < 16, (pastOf m p).ending = none) :
    finish m r.id v = setSReg (delReq m r.id) u k (v % 2 ^ 64) := by
  have hmod : modReq m r.id (fun r => { r with done := true, res := some [tokNat v] })
      = { m with mem.reqs := [{ r with done := true, res := some [tokNat v] }] } := by
    simp [modReq, reqOf, hreqs, setReq]
  have hval : bits (tokNat v).val.pay.toNat 0 64 = v % 2 ^ 64 := by
    simp only [tokNat, tokOf, Val.ofNat, bits, BitVec.toNat_ofNat, Nat.shiftRight_zero]
    omega
  rw [finish, finishTok, hmod, ← hval]
  refine (flush_sole_shepherd (m := { m with mem.reqs := _ }) (r := { r with done := true, res := some [tokNat v] })
    rfl rfl rfl hwho hu hdst htouched hend).trans ?_
  simp [delReq, hreqs]

/-! ## A token that an instruction emits -/

/-- Immediates are read without taking a token. -/
theorem deqSrcs_imm (m : Mach) (v : BitVec 7) : deqSrcs m [.imm v] = m := by
  unfold deqSrcs
  split <;> rfl

/-- A value that a PE moves to an output with an earlier result to come waits behind it (R204). -/
theorem mov_waits {s : State} {f : BitF} {n : Fin 8} {v : BitVec 7} {core pe frame slot bank b : Nat} {keep : Bool} {q : Req}
    (hc : s.m.cur = .pe core pe frame slot bank keep) (hq : q ∈ s.m.mem.reqs) (hdst : q.dst = .out core pe n.val b) :
    ∃ tok : Token, exec (.mov f (.outC n) (.imm v)) s = .next { s with m := queueTok s.m (.out core pe n.val bank) tok } := by
  have hheld : outHeld s.m core pe n.val = true := List.any_eq_true.mpr ⟨q, hq, by simp [hdst]⟩
  have hpoison : poisonStep [srcVal s.m .whole (.imm v)] = none := by
    simp [poisonStep, srcVal, hc, Val.ofNat]
  have hmov : ∃ tok : Token, movG f.bit (.outC n) (.imm v) s.m = queueTok s.m (.out core pe n.val bank) tok := by
    simp only [movG, fireK, hc, List.map_cons, List.map_nil, hpoison, deqSrcs_imm, putTok, emitOut, hheld, firingBank, if_true]
    exact ⟨_, rfl⟩
  obtain ⟨tok, h⟩ := hmov
  exact ⟨tok, next_of_lift (movG f.bit (.outC n) (.imm v)) rfl h⟩

/-- Settles O32: a load at its request is `loadOne` at its target, and what it is merged with `performLoad_perform`; a shepherd core's sole
load ends as `finish_sole_shepherd` says. -/
theorem loadsPerformed : Obligations.LoadsPerformed := by
  refine ⟨fun s id r pl n nt ls hr hop hmay hw ht hf hk => ?_, fun m r n v => tornVal_eq_self n v,
    fun s id r pl n nt ls v hr hop hmay ht hf hm => ?_, fun s id r pl n nt ls c d hr hop hmay ht hf => ?_,
    fun m r ls fail => ⟨discarded_nothingSent fail, fun x rest hs => ⟨discarded_resends fail hs, discarded_fails fail hs⟩⟩,
    fun m ls => readVal_local, fun s id r pl n nt ls v hr hop hmay ht hf ho => ?_, fun s id r pl n nt ls v hr hop hmay ht hf ho hm => ?_,
    fun s id r pl n nt v hr hop hmay ht hf => ?_, fun s id r pl n nt c d ls ans hr hop hmay hf => ?_,
    fun m r pl n k hw hp => ⟨fun c d => mergedFault_bad hw hp, fun ls => mergedFault_at hw hp, failMerged_sole hw⟩,
    fun s id r pl n nt hr hop hmay hf => ?_, ?shepherd, fun m r q core pe ch b b' hq hid h => ?_, ?emitted⟩
  · rw [exec_loadResult hr hop hmay, performLoad_sole pl n nt (mergedFault_load hw hop ht hf) hw, loadOne_perform ht nt hk, id_of_reqOf hr]
  · rw [exec_loadResult hr hop hmay, performLoad_answered pl n nt (.data v) hf nofun, loadOne_byte ht nt v hm]
  · rw [exec_loadResult hr hop hmay, performLoad_answered pl n nt (.fail c d) hf nofun, loadOne_fail ht nt c d]
  · rw [exec_loadResult hr hop hmay, performLoad_answered pl n nt (.data v) hf nofun, loadOne_outside ht nt v ho, id_of_reqOf hr]
  · rw [exec_loadResult hr hop hmay, performLoad_answered pl n nt (.data v) hf nofun, loadOne_corrected ht nt v ho hm, id_of_reqOf hr]
    rfl
  · rw [exec_loadResult hr hop hmay, performLoad_answered pl n nt (.data v) hf nofun, loadOne_beyond ht nt v, id_of_reqOf hr]
  · rw [exec_loadResult hr hop hmay, performLoad_fails hf]
  · rw [exec_loadResult hr hop hmay, performLoad_perform pl n nt hf]
    exact ⟨fun h => by rw [mergedMay, h]; rfl, fun h => by rw [mergedMay, h]; rfl⟩
  case shepherd =>
    intro s id r pl n nt ls u w k hreqs hid hop hwho hu hdst hmay ht hf ho hmig htorn htouched hend
    have hr : reqOf s.m id = some r := by simp [reqOf, hreqs, hid]
    have hw : mergedWith s.m r = [] := mergedWith_sole hreqs
    have hcount : countMove s.m r = s.m := countMove_local (by rwa [reqLocs_load hop ht]) hmig
    have hx := exec_loadResult hr hop hmay .perform
    rw [performLoad_sole pl n nt (mergedFault_load hw hop ht hf) hw, loadOne_perform ht nt (allKept_local s.m ho),
      tornVal_eq_self _ _ (hid ▸ htorn), mergeBuf_unit ls _ hwho, readVal_local ho, hcount,
      finish_sole_shepherd (m := endTorn (drawFree s.m) r.id) _ hreqs hwho hu hdst htouched hend] at hx
    refine ⟨_, hx, ?_, fun v j hvj => ?_, rfl, rfl, ?_, rfl⟩
    · simp [sReg_setSReg]
    · rw [sReg_setSReg, if_neg (by omega)]
      rfl
    · simp [endTorn, drawFree, delReq, hreqs]
  · refine firstOfSlot_behind hq hid (h.imp_right ?_)
    rintro ⟨hr, hq⟩
    simp [hr, hq, sameOut]
  case emitted =>
    intro s f n v core pe frame slot bank keep q b hc hq hdst
    obtain ⟨tok, he⟩ := mov_waits (f := f) (v := v) hc hq hdst
    exact ⟨_, _, he, rfl, rfl, rfl, rfl, rfl⟩

end Sys2Proof.Machine

/-! PROOFS. INSTALL, its transfer and the placed block (R20, R84, R118, R148, R158). -/
namespace Sys2Proof.Machine

theorem bits_zero_eq_mod (v n : Nat) : bits v 0 n = v % 2 ^ n := by
  rw [bits, Nat.shiftRight_zero]

/-- An S-form instruction that starts has its effect on the values of its sources, once they are read. -/
theorem exec_sFire {i : Instr} {s : State} {u w : Nat} {os d : List Opd} {eff : Nat → Nat → List Nat → Mach → Mach}
    (hi : exec i s = lift (sFire os d eff) s) (h : sStarts s.m u w os d = true) :
    exec i s = .next { s with m := eff u w (os.map (payOf s.m .whole)) (readDone s.m os d) } :=
  next_of_lift _ hi (sFire_starts s.m u w os d eff h)

/-! ## INSTALL -/

/-- INSTALL with its sources read: the address of the image and the core. -/
def installAt (f : PfF) (d : Opd) (u w va core : Nat) (m : Mach) : Mach :=
  let p := pastOfActor m (.unit u w)
  if !coreIn m p core then seqResult m u d f (failWord 0x11 0 0 0)
  else if armatureBusy m (.unit u w) core va || readsHeld m (.unit u w) va (fun h => 64 * imgSize h) then stall m
  else match readImage m (.unit u w) p core va with
    | .error (v, m1) => seqResult { m1 with free := m1.free + 1 } u d f v
    | .ok (img, _) => { m with
        free := m.free + 1
        seq.installs := tset (frameKey core (imgFrame img)) ⟨img, some u, w, (match d with | .r n => .sreg u n.val | _ => .zero),
          if f.pw then some f.pi.val else none⟩ m.seq.installs }

theorem exec_install {s : State} {u w : Nat} {f : PfF} {d a b : Opd} (h : sStarts s.m u w [a, b] [d] = true) :
    exec (.install f d a b) s = .next { s with
      m := installAt f d u w (payOf s.m .whole a % 2 ^ 56) (payOf s.m .whole b % 2 ^ 10) (readDone s.m [a, b] [d]) } := by
  rw [← bits_zero_eq_mod, ← bits_zero_eq_mod]
  exact (exec_sFire (i := .install f d a b) rfl h :)

section Install
variable {m : Mach} {u w va core : Nat} (f : PfF) (d : Opd)

theorem installAt_noCore (hc : coreIn m (pastOfActor m (.unit u w)) core = false) :
    installAt f d u w va core m = seqResult m u d f (failWord 0x11 0 0 0) := by
  simp only [installAt, hc, Bool.not_false, if_true]

variable (hc : coreIn m (pastOfActor m (.unit u w)) core = true)
include hc

theorem installAt_waits (h : armatureBusy m (.unit u w) core va = true ∨ readsHeld m (.unit u w) va (fun h => 64 * imgSize h) = true) :
    installAt f d u w va core m = stall m := by
  have hw := Bool.or_eq_true_iff.mpr h
  simp only [installAt, hc, hw, Bool.not_true, Bool.false_eq_true, if_false, if_true]

variable (hb : armatureBusy m (.unit u w) core va = false) (hh : readsHeld m (.unit u w) va (fun h => 64 * imgSize h) = false)
include hb hh

theorem installAt_fails {v : Nat} {m1 : Mach} (hr : readImage m (.unit u w) (pastOfActor m (.unit u w)) core va = .error (v, m1)) :
    installAt f d u w va core m = seqResult { m1 with free := m1.free + 1 } u d f v := by
  simp only [installAt, hc, hb, hh, hr, Bool.not_true, Bool.or_self, Bool.false_eq_true, if_false]

/-- The armature has the image, and the machine else is as it was: the old block stays until the transfer ends (log 96). -/
theorem installAt_takes {img : List W64} {r : RouteW}
    (hr : readImage m (.unit u w) (pastOfActor m (.unit u w)) core va = .ok (img, r)) :
    ∃ x : Install, (x.img, x.unit, x.word) = (img, some u, w) ∧ installAt f d u w va core m =
      { m with free := m.free + 1, seq.installs := tset (frameKey core (imgFrame img)) x m.seq.installs } := by
  simp only [installAt, hc, hb, hh, hr, Bool.not_true, Bool.or_self, Bool.false_eq_true, if_false]
  exact ⟨⟨img, some u, w, _, _⟩, rfl, rfl⟩

end Install

/-! ## The failed items of an image -/

section Read
variable {m : Mach} {who : Actor} {va h : Nat} (hn : readNat m who va 8 = .ok h)
include hn

theorem readImage_busy (p : Nat) {core : Nat} (hb : frameBusy m core (bits h 24 1) = true) :
    readImage m who p core va = .error (failWord 0x10 0 0 0, m) := by
  simp only [readImage, hn, hb, if_true]

theorem readImage_badHeader (p : Nat) {core : Nat} (hb : frameBusy m core (bits h 24 1) = false) (hh : header0Ok h = false) :
    readImage m who p core va = .error (failWord 0x01 0 0 0, emptyFrame m core (bits h 24 1)) := by
  simp only [readImage, hn, hb, hh, Bool.not_false, Bool.false_eq_true, if_false, if_true]

/-- An image that is read whole and fails in its judgement leaves the frame empty. -/
theorem readImage_judged {p core v : Nat} {img : List W64} (hb : frameBusy m core (bits h 24 1) = false) (hh : header0Ok h = true)
    (hw : readWords m who va (8 * imgSize h) = .ok img) (hj : judge m who p core img = .error v) :
    readImage m who p core va = .error (v, emptyFrame m core (bits h 24 1)) := by
  simp only [readImage, hn, hb, hh, hw, hj, Bool.not_true, Bool.false_eq_true, if_false]

end Read

section Judge
variable {m : Mach} {who : Actor} {p core : Nat} {img : List W64} {x : Nat × Nat}

theorem judge_badWord (h : badWord m core img = some x) : judge m who p core img = .error (failWord 0x01 x.1 x.2 0) := by
  simp only [judge, h]

theorem judge_badCtl (h1 : badWord m core img = none) (h2 : headerOk img = true) (h : badCtl img = some x) :
    judge m who p core img = .error (failWord 0x02 x.1 x.2 0) := by
  simp only [judge, h1, h2, h, Bool.not_true, Bool.false_eq_true, if_false]

theorem judge_badBind (h1 : badWord m core img = none) (h2 : headerOk img = true) (h3 : badCtl img = none) (h : badBind img = some x) :
    judge m who p core img = .error (failWord 0x03 x.1 0 x.2) := by
  simp only [judge, h1, h2, h3, h, Bool.not_true, Bool.false_eq_true, if_false]

end Judge

/-! ## The transfer -/

theorem armatureTransfer_unit {s : State} {core frame u : Nat} {x : Install} (hx : tfind (frameKey core frame) s.m.seq.installs = some x)
    (hu : x.unit = some u) (hi : (pastOf s.m (pastOfActor s.m (.unit u x.word))).image = none) :
    exec (.armatureTransfer core frame) s = .next { s with
      m := installDone (placeBlock { s.m with seq.installs := tdel (frameKey core frame) s.m.seq.installs } (pastOfActor s.m (.unit u x.word))
        core frame x.img (routeWrites core (routeEntries x.img))) x } := by
  refine next_of_lift (armatureTransferG core frame) rfl ?_
  simp only [armatureTransferG, hx, hu, hi, Option.isSome_none, Bool.false_eq_true, if_false]

/-- An install of an averaging period is judged again (log 51). -/
theorem armatureTransfer_averaging {s : State} {core frame : Nat} {x : Install} {r : RouteW}
    (hx : tfind (frameKey core frame) s.m.seq.installs = some x) (hu : x.unit = none) (hi : (pastOf s.m (pastOfCore s.m core)).image = none)
    (hj : judge s.m (.pe core 0 0 0 0 false) (pastOfCore s.m core) core x.img = .ok r) :
    exec (.armatureTransfer core frame) s = .next { s with
      m := placeBlock { s.m with seq.installs := tdel (frameKey core frame) s.m.seq.installs } (pastOfCore s.m core) core frame x.img r } := by
  refine next_of_lift (armatureTransferG core frame) rfl ?_
  simp only [armatureTransferG, hx, hu, hi, hj, Option.isSome_none, Bool.false_eq_true, if_false]

/-! ## What a placed block changes -/

theorem tfind_tfilter {V : Type} (p : Nat → Bool) (k : Nat) (t : Tbl V) : tfind k (tfilter p t) = if p k then tfind k t else none := by
  induction t with
  | nil => simp [tfilter, tfind]
  | cons e t ih =>
    obtain ⟨a, v⟩ := e
    unfold tfilter at ih ⊢
    rw [List.filter_cons]
    by_cases ha : a = k
    · subst ha
      cases hp : p a
      · simp [ih, hp]
      · simp [tfind]
    · cases hp : p a <;> simp [tfind, ha, ih]

/-- A step that touches nothing of the machine but its fabric. -/
def FabOnly (m t : Mach) : Prop := ∃ fab, t = { m with fab := fab }

theorem foldl_fabOnly {α : Type} {f : Mach → α → Mach} (hf : ∀ m a, FabOnly m (f m a)) (l : List α) (m : Mach) :
    FabOnly m (l.foldl f m) := by
  induction l generalizing m with
  | nil => exact ⟨m.fab, rfl⟩
  | cons a l ih =>
    obtain ⟨fab, h⟩ := hf m a
    obtain ⟨fab', h'⟩ := ih (f m a)
    exact ⟨fab', by rw [List.foldl_cons, h', h]⟩

theorem writeSlots_fabOnly (m : Mach) (own : Mach → Nat → Option Nat → List Nat) (w : SlotMap) : FabOnly m (writeSlots m own w) :=
  foldl_fabOnly (fun _ _ => ⟨_, rfl⟩) w m

theorem addCircuits_fabOnly (m : Mach) (core frame : Nat) (cs : List (Nat × Nat)) : FabOnly m (addCircuits m core frame cs) := by
  refine foldl_fabOnly (fun m c => ?_) cs m
  dsimp only
  split
  · exact ⟨m.fab, rfl⟩
  · exact ⟨_, rfl⟩

/-- An input as a block with a binding word for it loads it. -/
abbrev loadedChan (img : List W64) (pe ch : Nat) : Chan := { Chan.reset with
  binding := BitVec.ofNat 64 (imgBind img pe ch)
  fifo := initToks img (imgBind img pe ch)
  ringBase := ringStart img pe ch }

theorem chanOf_loadChan (img : List W64) (core : Nat) (m : Mach) (x : Nat × Nat) (k : Nat) : chanOf (loadChan img core m x) k =
    if k = chanKey core x.1 x.2 ∧ imgBind img x.1 x.2 ≠ 0 then loadedChan img x.1 x.2 else chanOf m k := by
  unfold loadChan
  dsimp only
  split
  · rename_i h
    rw [if_neg fun hk => hk.2 h]
  · rename_i h
    rw [chanOf_setChan]
    simp [h]

/-- Loading the inputs of a list, within the ranges of R9, sets those of them that have a binding word and leaves the others. -/
theorem chanOf_foldl_loadChan (img : List W64) (core : Nat) (l : List (Nat × Nat)) (hl : ∀ x ∈ l, x.1 < 16 ∧ x.2 < 8) (m : Mach)
    {pe ch : Nat} (hpe : pe < 16) (hch : ch < 8) : chanOf (l.foldl (loadChan img core) m) (chanKey core pe ch) =
      if (pe, ch) ∈ l ∧ imgBind img pe ch ≠ 0 then loadedChan img pe ch else chanOf m (chanKey core pe ch) := by
  induction l generalizing m with
  | nil => simp
  | cons x l ih =>
    obtain ⟨⟨h1, h2⟩, hrest⟩ := List.forall_mem_cons.mp hl
    have hkey : chanKey core pe ch = chanKey core x.1 x.2 ↔ (pe, ch) = x := by
      refine ⟨fun h => ?_, fun h => by rw [← h]⟩
      obtain ⟨-, h3, h4⟩ := chanKey_inj hpe hch h1 h2 h
      exact Prod.ext h3 h4
    simp only [List.foldl_cons, ih hrest, chanOf_loadChan, hkey, List.mem_cons]
    by_cases hx : (pe, ch) = x
    · subst hx
      by_cases hb : imgBind img pe ch = 0 <;> simp [hb]
    · simp [hx]

theorem chanOf_foldl_loadChan_other (img : List W64) (core : Nat) (l : List (Nat × Nat)) (hl : ∀ x ∈ l, x.1 < 16 ∧ x.2 < 8) (m : Mach)
    {k : Nat} (hk : k / 128 ≠ core) : chanOf (l.foldl (loadChan img core) m) k = chanOf m k := by
  induction l generalizing m with
  | nil => rfl
  | cons x l ih =>
    obtain ⟨⟨h1, h2⟩, hrest⟩ := List.forall_mem_cons.mp hl
    rw [List.foldl_cons, ih hrest, chanOf_loadChan, if_neg]
    rintro ⟨rfl, -⟩
    refine hk ?_
    unfold chanKey
    omega

theorem loadChan_eq (img : List W64) (core : Nat) (l : List (Nat × Nat)) (m : Mach) :
    ∃ chans, l.foldl (loadChan img core) m = { m with pe.chans := chans } := by
  induction l generalizing m with
  | nil => exact ⟨m.pe.chans, rfl⟩
  | cons x l ih =>
    obtain ⟨chans, h⟩ := ih (loadChan img core m x)
    refine ⟨chans, ?_⟩
    rw [List.foldl_cons, h]
    unfold loadChan
    dsimp only
    split <;> rfl

theorem mem_allInputs {pe ch : Nat} (hpe : pe < 16) (hch : ch < 8) : (pe, ch) ∈ allInputs := by
  refine List.mem_map.mpr ⟨pe * 8 + ch, List.mem_range.mpr (by omega), Prod.ext ?_ ?_⟩
  · show (pe * 8 + ch) / 8 = pe
    omega
  · show (pe * 8 + ch) % 8 = ch
    omega

theorem allInputs_range : ∀ x ∈ allInputs, x.1 < 16 ∧ x.2 < 8 := by
  intro x hx
  obtain ⟨i, hi, rfl⟩ := List.mem_map.mp hx
  have := List.mem_range.mp hi
  show i / 8 < 16 ∧ i % 8 < 8
  omega

/-- The registers of a context that is zeroed, and the others. -/
theorem peReg_abortBank (m : Mach) {core pe c code ctx : Nat} (hpe : pe < 16) (hcode : code < 64) (hc : c < 8) :
    peReg (abortBank m core ctx) core pe c code = if c = ctx then Val.none else peReg m core pe c code := by
  have hkey : (!(regKey core pe c code / 8192 == core && regKey core pe c code / 64 % 8 == ctx)) = !(c == ctx) := by
    have h1 : regKey core pe c code / 8192 = core := by unfold regKey; omega
    have h2 : regKey core pe c code / 64 % 8 = c := by unfold regKey; omega
    simp [h1, h2]
  unfold peReg abortBank zeroBank tget
  dsimp only
  rw [tfind_tfilter, hkey]
  by_cases h : c = ctx <;> simp [h]

theorem peReg_zeroFrame (m : Mach) {core frame pe c code : Nat} (hpe : pe < 16) (hcode : code < 64) (hc : c < 8) :
    peReg (zeroFrame m core frame) core pe c code = if c / 4 = frame then Val.none else peReg m core pe c code := by
  show peReg ((upto 4).foldl _ m) core pe c code = _
  have h4 : upto 4 = [0, 1, 2, 3] := rfl
  have hctx : c / 4 = frame ↔ c = frame * 4 + 3 ∨ c = frame * 4 + 2 ∨ c = frame * 4 + 1 ∨ c = frame * 4 + 0 := by omega
  simp only [h4, List.foldl_cons, List.foldl_nil, peReg_abortBank _ hpe hcode hc, hctx, ite_or]

/-- The frame with its new image, zeroed, and the inputs of the block loaded. -/
def blockLoaded (m : Mach) (core frame : Nat) (img : List W64) : Mach :=
  allInputs.foldl (loadChan img core) (zeroFrame { m with pe.frames := tset (frameKey core frame) img m.pe.frames } core frame)

/-- A placed block also changes routes of the fabric. -/
theorem placeBlock_fabOnly (m : Mach) (p core frame : Nat) (img : List W64) (r : RouteW) :
    FabOnly (blockLoaded m core frame img) (placeBlock m p core frame img r) := by
  obtain ⟨fab, h⟩ := writeSlots_fabOnly (blockLoaded m core frame img) (fun m k v => slotOwners m p (2 * k) (tfind k m.fab.slots) v) r.slots
  obtain ⟨fab', h'⟩ := addCircuits_fabOnly { blockLoaded m core frame img with fab := fab } core frame r.circ
  exact ⟨fab', (congrArg (addCircuits · core frame r.circ) h).trans h'⟩

/-- The frame itself and what it does not reach. -/
theorem blockLoaded_rest (m : Mach) (core frame : Nat) (img : List W64) : let t := blockLoaded m core frame img
    frameImg t core frame = img ∧ t.mem = m.mem ∧ t.seq = m.seq ∧ t.sys = m.sys
    ∧ ∀ pe c code, peReg t core pe c code = peReg (zeroFrame m core frame) core pe c code := by
  obtain ⟨chans, h⟩ := loadChan_eq img core allInputs (zeroFrame { m with pe.frames := tset (frameKey core frame) img m.pe.frames } core frame)
  intro t
  have ht : t = _ := h
  rw [ht]
  refine ⟨?_, rfl, rfl, rfl, fun pe c code => rfl⟩
  show tget [] (frameKey core frame) (tset (frameKey core frame) img m.pe.frames) = img
  rw [tget_tset, if_pos rfl]

theorem chanOf_blockLoaded (m : Mach) (core frame : Nat) (img : List W64) {pe ch : Nat} (hpe : pe < 16) (hch : ch < 8) :
    chanOf (blockLoaded m core frame img) (chanKey core pe ch) =
      if imgBind img pe ch = 0 then chanOf m (chanKey core pe ch) else loadedChan img pe ch := by
  rw [blockLoaded, chanOf_foldl_loadChan img core allInputs allInputs_range _ hpe hch]
  by_cases h : imgBind img pe ch = 0
  · rw [if_neg fun hc => hc.2 h, if_pos h]
    rfl
  · rw [if_pos ⟨mem_allInputs hpe hch, h⟩, if_neg h]

theorem chanOf_blockLoaded_other (m : Mach) (core frame : Nat) (img : List W64) {k : Nat} (hk : k / 128 ≠ core) :
    chanOf (blockLoaded m core frame img) k = chanOf m k :=
  chanOf_foldl_loadChan_other img core allInputs allInputs_range _ hk

/-- Settles O55: INSTALL as `installAt`, the failed items in the order of `judge`, and the placed block as `blockLoaded`. -/
theorem installs : Obligations.Installs := by
  refine ⟨fun f s u w d a b h => ?_, fun m who p core va h hn => ?_, fun s core frame x u => armatureTransfer_unit,
    fun s core frame x r => armatureTransfer_averaging, fun m p core frame img r _ => ?_⟩
  · intro m p va core
    rw [exec_install h]
    refine ⟨fun hc => ?_, fun hc hw => ?_, fun v m1 hc hb hh hr => ?_, fun img r hc hb hh hr => ?_⟩
    · rw [installAt_noCore f d hc]
    · rw [installAt_waits f d hc hw]
    · rw [installAt_fails f d hc hb hh hr]
    · obtain ⟨x, hx, he⟩ := installAt_takes f d hc hb hh hr
      refine ⟨_, rfl, ?_, ?_, ?_⟩
      · rw [he]
      · rw [he]
      · rw [he, tfind_tset_same, Option.map_some, hx]
  · refine ⟨readImage_busy hn p, readImage_badHeader hn p, fun img hb hh hw => ⟨fun x h1 => ?_, fun x h1 h2 h3 => ?_, fun x h1 h2 h3 h4 => ?_⟩⟩
    · exact readImage_judged hn hb hh hw (judge_badWord h1)
    · exact readImage_judged hn hb hh hw (judge_badCtl h1 h2 h3)
    · exact readImage_judged hn hb hh hw (judge_badBind h1 h2 h3 h4)
  · intro t
    obtain ⟨fab, ht⟩ : FabOnly (blockLoaded m core frame img) t := placeBlock_fabOnly m p core frame img r
    obtain ⟨himg, hmem, hseq, hsys, hregs⟩ := blockLoaded_rest m core frame img
    rw [ht]
    refine ⟨himg, hmem, hseq, hsys, fun pe hpe ch hch => chanOf_blockLoaded m core frame img hpe hch,
      fun k hk => chanOf_blockLoaded_other m core frame img hk, fun pe hpe code hcode c hc => ?_⟩
    exact (hregs pe c code).trans (peReg_zeroFrame m hpe hcode hc)

end Sys2Proof.Machine

/-! PROOFS. Taking a trap, double traps, TRAP and TRET, asynchronous causes (R87, R414, R417-R420). -/
namespace Sys2Proof.Machine

/-! ## Translation does not read the shepherd cores' registers -/

theorem walkTbl_setShep (m : Mach) (k : Nat) (x : Shep) (va : Nat) (lv : List (Nat × Nat × Nat)) (tbl : Nat) :
    walkTbl (setShep m k x) va lv tbl = walkTbl m va lv tbl := by
  induction lv generalizing tbl with
  | nil => rfl
  | cons e lv ih =>
    obtain ⟨level, lo, w⟩ := e
    simp only [walkTbl, ih]
    rfl

theorem leafOf_setShep (m : Mach) (k : Nat) (x : Shep) (who : Actor) (p va : Nat) : leafOf (setShep m k x) who p va = leafOf m who p va := by
  simp only [leafOf, walk, walkTbl_setShep]
  cases who <;> rfl

theorem virtLocs_setShep (m : Mach) (k : Nat) (x : Shep) (who : Actor) (p va n : Nat) (acc : AccK) :
    virtLocs (setShep m k x) who p va n acc = virtLocs m who p va n acc := by
  simp only [virtLocs, xlate, leafOf_setShep]
  rfl

/-- Whether word TVEC can be fetched depends on TVEC alone of the registers. -/
theorem tvecFetches_setShep (m : Mach) (k : Nat) (x : Shep) (h : x.tvec = (shepOf m k).tvec) :
    tvecFetches (setShep m k x) k = tvecFetches m k := by
  simp only [tvecFetches, virtLocs_setShep, shepOf_setShep_same, h]
  rfl

/-! ## Taking a trap (R418) -/

/-- The registers of a shepherd core that enters a trap at depth 0 or 1. -/
def trapEntered (x : Shep) (c q : Nat) (v : W64) (spc : Nat) : Shep :=
  if shDepth x = 0 then
    { x with spc1 := BitVec.ofNat 64 spc, sst1 := x.status, cause1 := causeWord q c, tval1 := v, status := entryStatus q 1 }
  else { x with spc2 := BitVec.ofNat 64 spc, sst2 := x.status, cause2 := causeWord q c, tval2 := v, status := entryStatus q 2 }

theorem trapEntered_tvec (x : Shep) (c q : Nat) (v : W64) (spc : Nat) : (trapEntered x c q v spc).tvec = x.tvec := by
  unfold trapEntered
  split <;> rfl

/-- A trap that can be entered writes the registers of the new level and goes on at TVEC. -/
theorem takeTrap_enters {m : Mach} {k : Nat} (c q : Nat) (v : W64) (spc : Nat) (hd : shDepth (shepOf m k) < 2) (ht : tvecFetches m k = true) :
    takeTrap m k c q v spc = setUnit (setShep m k (trapEntered (shepOf m k) c q v spc)) (128 + k)
      { unitOf m (128 + k) with w := (shepOf m k).tvec.toNat, run := .running } := by
  have hf : tvecFetches (setShep m k (trapEntered (shepOf m k) c q v spc)) k = true := by
    rw [tvecFetches_setShep _ _ _ (trapEntered_tvec ..), ht]
  unfold trapEntered at hf ⊢
  simp only [takeTrap, ge_iff_le, Nat.not_le.mpr hd, if_false, hf, if_true]
  rfl

/-- A step of a unit's word and run state leaves its registers. -/
theorem sReg_setUnit_run (m : Mach) (u n : Nat) (run : RunSt) (v r : Nat) :
    sReg (setUnit m u { unitOf m u with w := n, run := run }) v r = sReg m v r := by
  unfold sReg
  rw [unitOf_setUnit]
  split
  · rename_i h
    rw [h]
  · rfl

/-! ## The double trap (R419) -/

/-- HALT by the ROM handler leaves the shepherd cores' registers. -/
theorem shepOf_haltPast (m : Mach) (p k : Nat) : shepOf (haltPast m p) k = shepOf m k := by
  unfold haltPast
  dsimp only
  split <;> rfl

theorem takeTrap_double {m : Mach} {k : Nat} (c q : Nat) (v : W64) (spc : Nat) (hd : shDepth (shepOf m k) = 2) :
    takeTrap m k c q v spc = romDoubleTrap m k c q v false := by
  simp only [takeTrap, hd, ge_iff_le, le_refl, if_true]

/-- The registers with which the ROM handler enters word TVEC. -/
theorem shepOf_romDoubleTrap (m : Mach) (k c q : Nat) (v : W64) : shepOf (romDoubleTrap m k c q v false) k = { shepOf m k with
    spc1 := 0, sst1 := 4, cause1 := causeWord q 0x11
    tval1 := BitVec.ofNat 64 (bits (shepOf m k).cause2.toNat 0 8 + c % 256 * 256 + q % 16 * 65536)
    status := entryStatus q 1 } := by
  simp only [romDoubleTrap, Bool.false_eq_true, if_false]
  refine (shepOf_setShep_same ..).trans ?_
  rw [shepOf_haltPast]
  rfl

theorem unitOf_romDoubleTrap (m : Mach) (k c q : Nat) (v : W64) : let t := romDoubleTrap m k c q v false
    (unitOf t (128 + k)).w = (shepOf t k).tvec.toNat ∧ (unitOf t (128 + k)).run = .running := by
  intro t
  rw [shepOf_romDoubleTrap]
  simp only [t, romDoubleTrap, Bool.false_eq_true, if_false, unitOf_setUnit_same, shepOf_haltPast, and_true]
  rfl

/-! ## Words that trap (R87) -/

theorem decodeTrap_fetch {s : State} {u c v : Nat} (hr : unitMayRun s.m u = true) (hf : fetchWord s.m u = .error (c, v)) :
    exec (.decodeTrap u) s = .next { s with m := flush { trapUnit s.m u (unitOf s.m u).w c v with ctl := .seq } } := by
  refine next_of_lift (fun m => flush (decodeTrapG u m)) rfl ?_
  simp only [decodeTrapG, hr, hf, Bool.not_true, Bool.false_eq_true, if_false]

theorem decodeTrap_word {s : State} {u x c : Nat} (hr : unitMayRun s.m u = true) (hf : fetchWord s.m u = .ok x)
    (hw : wordFate s.m u x = .error c) :
    exec (.decodeTrap u) s = .next { s with m := flush { trapForm s.m u (unitOf s.m u).w c 0 with ctl := .seq } } := by
  refine next_of_lift (fun m => flush (decodeTrapG u m)) rfl ?_
  simp only [decodeTrapG, hr, hf, hw, Bool.not_true, Bool.false_eq_true, if_false]

/-! ## TRAP and TRET (R420) -/

theorem exec_trap {s : State} {k w : Nat} {a b : Opd} (h : sStarts s.m (128 + k) w [a, b] [] = true) :
    exec (.trap a b) s = .next { s with
      m := if payOf s.m .whole a % 2 ^ 8 < 128 then trapForm (readDone s.m [a, b] []) (128 + k) w 0x01 0
        else { takeTrap (readDone s.m [a, b] []) k (payOf s.m .whole a % 2 ^ 8) (pastOfActor (readDone s.m [a, b] []) (.unit (128 + k) w))
          (BitVec.ofNat 64 (payOf s.m .whole b)) (w + 1) with ctl := .trapped } } := by
  have he := (exec_sFire (i := .trap a b) rfl h :)
  simp only [List.map_cons, List.map_nil, List.getElem?_cons_zero, List.getElem?_cons_succ, Option.getD_some, bits_zero_eq_mod,
    Nat.add_sub_cancel_left] at he
  exact he

/-- A shepherd core's TRET, which reads no operand. -/
def tretAt (m : Mach) (k w : Nat) : Mach :=
  if shDepth (shepOf m k) = 0 then trapUnit m (128 + k) w 0x09 w
  else if !statusOk (shepOf m k) then trapUnit m (128 + k) w 0x0A w
  else { setShep m k { shepOf m k with status := BitVec.ofNat 64 (savedStatus (shepOf m k)) } with
    ctl := .jump (savedWord (shepOf m k) % 2 ^ 16) }

theorem exec_tret {s : State} {k w : Nat} (h : s.m.cur = .unit (128 + k) w) : exec .tret s = .next { s with m := tretAt s.m k w } := by
  have hs : sStarts s.m (128 + k) w [] [] = true := by
    simp [sStarts, sReady, sRegs, h]
  have hrd : readDone s.m [] [] = s.m := by
    simp [readDone, h]
  refine next_of_lift tretG rfl ((sFire_starts s.m (128 + k) w [] [] _ hs).trans ?_)
  simp only [hrd, Nat.add_sub_cancel_left, bits_zero_eq_mod]
  rfl

section Tret
variable {m : Mach} {k : Nat} (w : Nat)

theorem tretAt_depth0 (h : shDepth (shepOf m k) = 0) : tretAt m k w = trapUnit m (128 + k) w 0x09 w := if_pos h

theorem tretAt_refused (h : shDepth (shepOf m k) ≠ 0) (hs : statusOk (shepOf m k) = false) :
    tretAt m k w = trapUnit m (128 + k) w 0x0A w := by
  simp only [tretAt, h, hs, if_false, Bool.not_false, if_true]

theorem tretAt_returns (h : shDepth (shepOf m k) ≠ 0) (hs : statusOk (shepOf m k) = true) : tretAt m k w =
    { setShep m k { shepOf m k with status := BitVec.ofNat 64 (savedStatus (shepOf m k)) } with
      ctl := .jump (savedWord (shepOf m k) % 2 ^ 16) } := by
  simp only [tretAt, h, hs, if_false, Bool.not_true, Bool.false_eq_true]

end Tret

theorem shDepth_entryStatus (x : Shep) (q : Nat) {d : Nat} (hd : d < 4) (h : x.status = entryStatus q d) : shDepth x = d := by
  simp only [shDepth, h, entryStatus, bits_zero_eq_mod, BitVec.toNat_ofNat]
  omega

/-- A trap taken at depth 0 has saved the status and the word: a status without reserved bits is one that TRET accepts. -/
theorem trapEntered_saved {x : Shep} (c q : Nat) (v : W64) {spc : Nat} (hd : shDepth x = 0) (hs : spc < 2 ^ 16)
    (h1 : bits x.status.toNat 3 9 = 0) (h2 : bits x.status.toNat 16 48 = 0) : let y := trapEntered x c q v spc
    shDepth y = 1 ∧ statusOk y = true ∧ savedStatus y = x.status.toNat ∧ savedWord y = spc := by
  intro y
  have hy : y = { x with spc1 := BitVec.ofNat 64 spc, sst1 := x.status, cause1 := causeWord q c, tval1 := v, status := entryStatus q 1 } :=
    if_pos hd
  have hdepth : shDepth y = 1 := shDepth_entryStatus y q (by decide) (by rw [hy])
  have hstatus : savedStatus y = x.status.toNat := by
    rw [savedStatus, if_pos hdepth, hy]
  refine ⟨hdepth, ?_, hstatus, ?_⟩
  · have hx : bits x.status.toNat 0 2 = 0 := hd
    simp only [statusOk, hdepth, hstatus, h1, h2, hx]
    rfl
  · rw [savedWord, if_pos hdepth, hy, BitVec.toNat_ofNat]
    omega

/-- TRET of a trap taken at depth 0 brings back STATUS and goes on at the saved word. -/
theorem tret_takeTrap {s : State} {k : Nat} (c q : Nat) (v : W64) {spc : Nat} (w : Nat) (hd : shDepth (shepOf s.m k) = 0)
    (ht : tvecFetches s.m k = true) (hs : spc < 2 ^ 16) (h1 : bits (shepOf s.m k).status.toNat 3 9 = 0)
    (h2 : bits (shepOf s.m k).status.toNat 16 48 = 0) :
    ∃ t, exec .tret { s with m := { takeTrap s.m k c q v spc with cur := .unit (128 + k) w } } = .next t
      ∧ (shepOf t.m k).status = (shepOf s.m k).status ∧ t.m.ctl = .jump spc := by
  obtain ⟨hdepth, hok, hstatus, hword⟩ := trapEntered_saved c q v hd hs h1 h2
  have hx : shepOf { takeTrap s.m k c q v spc with cur := .unit (128 + k) w } k = trapEntered (shepOf s.m k) c q v spc := by
    rw [takeTrap_enters c q v spc (by omega) ht]
    exact shepOf_setShep_same ..
  refine ⟨_, exec_tret rfl, ?_⟩
  rw [tretAt_returns w (by rw [hx, hdepth]; decide) (by rw [hx, hok]), hx, hstatus, hword]
  refine ⟨?_, by rw [Nat.mod_eq_of_lt hs]⟩
  refine (congrArg Shep.status (shepOf_setShep_same ..)).trans ?_
  exact BitVec.ofNat_toNat ..

/-! ## Causes of other units, and those that are taken between words (R66, R418) -/

section Sync
variable {m : Mach} {u w : Nat} {c : Cause} (hu : isShepherd u = false) (hr : holdsRec m (.unit u w) = false)
include hu hr

/-- A unit that is no shepherd core halts, and its cause joins the queue. -/
theorem trapSync_queues (h : causeRoom m (unitCluster u (pastOf m c.past).home) = true) :
    trapSync m u w c = raiseCause (haltUnit m u c.code) (unitCluster u (pastOf m c.past).home) c (.unit u w) := by
  simp only [trapSync, trapNow, hu, hr, h, Bool.not_true, Bool.not_false, Bool.and_false, Bool.or_self, Bool.false_eq_true, if_false]

theorem trapSync_held (h : causeRoom m (unitCluster u (pastOf m c.past).home) = false) : trapSync m u w c = { m with
    seq.heldTraps := m.seq.heldTraps ++ [(unitCluster u (pastOf m c.past).home, c, .unit u w, true)] } := by
  simp only [trapSync, hu, hr, h, Bool.not_false, Bool.and_self, Bool.or_true, if_true]

end Sync

theorem asyncCause_taken {s : State} {k : Nat} {c : Cause} {rest : List Cause} (hk : k < 16) (hrun : (unitOf s.m (128 + k)).run = .running)
    (hq : (shepOf s.m k).queue = c :: rest) (hb : unitBlocked s.m (128 + k) = false) (hd : shDepth (shepOf s.m k) = 0)
    (ha : shAE (shepOf s.m k) = true) :
    exec (.asyncCause k) s = .next { s with
      m := takeTrap (releaseHeldTrap (setShep s.m k { shepOf s.m k with queue := rest }) k) k c.code c.past c.val
        (unitOf s.m (128 + k)).w } := by
  refine next_of_lift (asyncCauseG k) rfl ?_
  have hready : asyncReady s.m k = true := by
    simp [asyncReady, hd, ha, hq]
  unfold asyncCauseG
  simp only [hq]
  rw [if_neg]
  simp [hrun, hready, hb, hk]

theorem asyncCause_waits {s : State} {k : Nat} (h : shAE (shepOf s.m k) = false ∨ shDepth (shepOf s.m k) ≠ 0) :
    exec (.asyncCause k) s = .next s := by
  refine next_of_lift (asyncCauseG k) rfl (if_pos ?_)
  have hready : asyncReady s.m k = false := by
    rcases h with h | h <;> simp [asyncReady, h]
  simp [hready]

theorem watchdog_taken {s : State} {k n : Nat} {c : Cause} (hk : k < 16) (hrun : (unitOf s.m (128 + k)).run = .running)
    (hq : (shepOf s.m k).queue[n]? = some c) (hw : unitWaits s.m (128 + k) = false) :
    let m1 := releaseHeldTrap (setShep s.m k { shepOf s.m k with queue := (shepOf s.m k).queue.eraseIdx n }) k
    exec (.watchdog k n) s = .next { s with m := takeTrap m1 k 0x12 c.past (causeWord c.past c.code) (unitOf m1 (128 + k)).w } := by
  intro m1
  refine next_of_lift (watchdogG k n) rfl ?_
  have hnot : (RunSt.running == .waiting) = false := by decide
  unfold watchdogG
  simp only [hq, hrun, hnot, Bool.false_eq_true, if_false]
  exact if_neg (by simp [hk, hw])

/-- Settles O56. -/
theorem traps : Obligations.Traps := by
  refine ⟨⟨fun s u c v => decodeTrap_fetch, fun s u x c => decodeTrap_word⟩, fun m k c q v spc hd ht => ?_, fun m k c q v spc hd ht => ?_,
    fun m k c q v spc hd => ?_, fun s k w a b h => ?_, fun s k w h => ?_, fun s k c q v spc w hd ht hs h1 h2 => tret_takeTrap c q v w hd ht hs h1 h2,
    fun m u w c hu hr => ⟨trapSync_queues hu hr, trapSync_held hu hr⟩, fun s k c rest hk hrun hq hb hd ha => asyncCause_taken hk hrun hq hb hd ha,
    fun s k => asyncCause_waits, fun s k n c hk hrun hq hw => watchdog_taken hk hrun hq hw⟩
  · intro x t
    have he : t = _ := takeTrap_enters c q v spc (by omega) ht
    rw [he]
    refine ⟨?_, ?_, ?_, fun j hj => ?_, rfl, rfl, fun u r => sReg_setUnit_run ..⟩
    · refine (shepOf_setShep_same ..).trans (if_pos hd)
    · rw [unitOf_setUnit_same]
    · rw [unitOf_setUnit_same]
    · exact (shepOf_setShep ..).trans (if_neg hj)
  · intro x t
    have he : t = _ := takeTrap_enters c q v spc (by omega) ht
    rw [he]
    refine ⟨?_, ?_, rfl⟩
    · refine (shepOf_setShep_same ..).trans (if_neg (by omega))
    · rw [unitOf_setUnit_same]
  · intro x t y
    have he : t = romDoubleTrap m k c q v false := takeTrap_double c q v spc hd
    obtain ⟨hw, hrun⟩ := unitOf_romDoubleTrap m k c q v
    have hy : y = _ := (congrArg (shepOf · k) he).trans (shepOf_romDoubleTrap m k c q v)
    have hx : x = shepOf m k := rfl
    have hy' : y = shepOf (romDoubleTrap m k c q v false) k := congrArg (shepOf · k) he
    refine ⟨by rw [hy], ?_, ?_, ?_⟩
    · rw [hy, hx, bits_zero_eq_mod, BitVec.toNat_ofNat]
      omega
    · rw [hy', he]
      exact hw
    · rw [he]
      exact hrun
  · intro m c v
    rw [exec_trap h]
    have hc : payOf s.m .whole a % 2 ^ 8 = c := rfl
    rw [hc]
    exact ⟨fun hlt => by rw [if_neg (by omega)], fun hlt => by rw [if_pos hlt]⟩
  · intro x
    rw [exec_tret h]
    exact ⟨fun hd hs => by rw [tretAt_returns w hd hs], fun hd => by rw [tretAt_depth0 w hd], fun hd hs => by rw [tretAt_refused w hd hs]⟩

end Sys2Proof.Machine

/-! PROOFS. Sequencing: the next address for each NAS, LOOP, LBRK and JIND. -/
namespace Sys2Proof.Machine

theorem seqNAS_eq (q : Nat) : seqNAS q = q / 2 ^ 21 % 8 := by
  rw [seqNAS, bits, Nat.shiftRight_eq_div_pow]
  rfl

theorem seqT_eq (q : Nat) : seqT q = q % 2 ^ 16 := bits_zero_eq_mod q 16

theorem seqPS_eq (q : Nat) : seqPS q = q / 2 ^ 18 % 8 := by
  rw [seqPS, bits, Nat.shiftRight_eq_div_pow]
  rfl

theorem bitAt_eq_testBit (x i : Nat) : bitAt x i = x.testBit i := by
  rw [bitAt, Nat.testBit_eq_decide_div_mod_eq, Nat.shiftRight_eq_div_pow]
  rfl

/-- The unit goes on at `n`: in a unit without an open loop, what `setNext` does. -/
def goTo (m : Mach) (u n : Nat) : Mach := setUnit m u { unitOf m u with w := n, run := .running }

theorem setNext_noLoop {m : Mach} {u : Nat} (n : Nat) (h : (unitOf m u).loops = []) : setNext m u n = goTo m u n := by
  simp only [setNext, goTo, h, loopNext]

@[simp] theorem unitOf_setSReg_loops (m : Mach) (u r v : Nat) : (unitOf (setSReg m u r v) u).loops = (unitOf m u).loops := by
  rw [setSReg, unitOf_setUnit_same]

/-! ## The next address of R65 -/

section
variable {m : Mach} {u : Nat} (hl : (unitOf m u).loops = [])
include hl

theorem nasNext_sequence (hn : seqNAS (unitOf m u).seqf = 0) : nasNext m u = goTo m u ((unitOf m u).w + 1) := by
  simp only [nasNext, hn, setNext_noLoop _ hl]

theorem nasNext_jump (hn : seqNAS (unitOf m u).seqf = 1) : nasNext m u = goTo m u (seqT (unitOf m u).seqf) := by
  simp only [nasNext, hn, setNext_noLoop _ hl]

theorem nasNext_branch (hn : seqNAS (unitOf m u).seqf = 2) : nasNext m u = goTo m u
    (if bitAt (unitOf m u).p.toNat (seqPS (unitOf m u).seqf) != seqPN (unitOf m u).seqf then seqT (unitOf m u).seqf
     else (unitOf m u).w + 1) := by
  simp only [nasNext, hn, setNext_noLoop _ hl]

theorem nasNext_call (hn : seqNAS (unitOf m u).seqf = 3) (hk : (unitOf m u).link.length < 8) : nasNext m u
    = goTo (setUnit m u { unitOf m u with link := ((unitOf m u).w + 1) :: (unitOf m u).link }) u (seqT (unitOf m u).seqf) := by
  simp only [nasNext, hn, if_neg (Nat.ne_of_lt hk)]
  exact setNext_noLoop _ (by rw [unitOf_setUnit_same]; exact hl)

theorem nasNext_return {r : Nat} {rest : List Nat} (hn : seqNAS (unitOf m u).seqf = 4) (hk : (unitOf m u).link = r :: rest) :
    nasNext m u = goTo (setUnit m u { unitOf m u with link := rest }) u r := by
  simp only [nasNext, hn, hk]
  exact setNext_noLoop _ (by rw [unitOf_setUnit_same]; exact hl)

theorem nasNext_pendingEmpty (hn : seqNAS (unitOf m u).seqf = 5) (hp : pendingOf m u = []) :
    nasNext m u = goTo m u ((unitOf m u).w + 1) := by
  simp only [nasNext, hn, hp, List.isEmpty_nil, if_true, setNext_noLoop _ hl]

theorem nasNext_count_ends (hn : seqNAS (unitOf m u).seqf = 6) (ho : sOutstanding m u 31 = false) (hc : sReg m u 31 ≤ 1) :
    nasNext m u = goTo (if sReg m u 31 = 0 then m else setSReg m u 31 0) u ((unitOf m u).w + 1) := by
  simp only [nasNext, hn, ho, Nat.not_lt.mpr hc, if_false, Bool.false_eq_true, Nat.sub_eq_zero_of_le hc]
  refine setNext_noLoop _ ?_
  split
  · exact hl
  · rw [unitOf_setSReg_loops]
    exact hl

theorem nasNext_count_repeats (hn : seqNAS (unitOf m u).seqf = 6) (ho : sOutstanding m u 31 = false) (hc : 1 < sReg m u 31) :
    nasNext m u = goTo (setSReg m u 31 (sReg m u 31 - 1)) u (seqT (unitOf m u).seqf) := by
  simp only [nasNext, hn, ho, hc, if_true, if_false, Bool.false_eq_true, Nat.ne_of_gt (Nat.lt_of_succ_lt hc)]
  exact setNext_noLoop _ (by rw [unitOf_setSReg_loops]; exact hl)

end

section
variable {m : Mach} {u : Nat}

theorem nasNext_pendingWaits (hn : seqNAS (unitOf m u).seqf = 5) (hp : pendingOf m u ≠ []) :
    nasNext m u = setUnit m u { unitOf m u with run := .waiting } := by
  simp only [nasNext, hn, List.isEmpty_eq_false_iff.mpr hp, if_false, Bool.false_eq_true]

theorem nasNext_count_waits (hn : seqNAS (unitOf m u).seqf = 6) (ho : sOutstanding m u 31 = true) :
    nasNext m u = setUnit m u { unitOf m u with run := .waiting } := by
  simp only [nasNext, hn, ho, if_true]

theorem nasNext_halt (hn : seqNAS (unitOf m u).seqf = 7) : nasNext m u = haltUnit m u 0 := by
  simp only [nasNext, hn]

theorem nasNext_call_full (hn : seqNAS (unitOf m u).seqf = 3) (hk : (unitOf m u).link.length = 8) :
    nasNext m u = trapForm m u (unitOf m u).w 0x01 0x01 := by
  simp only [nasNext, hn, hk, if_true]

theorem nasNext_return_empty (hn : seqNAS (unitOf m u).seqf = 4) (hk : (unitOf m u).link = []) :
    nasNext m u = trapForm m u (unitOf m u).w 0x01 0x02 := by
  simp only [nasNext, hn, hk]

/-- A word that neither stalls, traps nor jumps and whose unit no INSTALL or FENCE holds is followed by NAS. -/
theorem afterWord_seq (hc : m.ctl = .seq) (hw : unitWaits m u = false) :
    afterWord u m = nasNext { m with cur := .idle, ctl := .seq } u := by
  have hw' : unitWaits { m with cur := .idle, ctl := .seq } u = false := hw
  simp only [afterWord, hc, hw', if_false, Bool.false_eq_true]

end

/-- `exec_sFire` for an effect that is worked out to the machine `n`. -/
theorem exec_sFire_eq {i : Instr} {s : State} {u w : Nat} {os d : List Opd} {eff : Nat → Nat → List Nat → Mach → Mach} {n : Mach}
    (hi : exec i s = lift (sFire os d eff) s) (h : sStarts s.m u w os d = true)
    (he : eff u w (os.map (payOf s.m .whole)) (readDone s.m os d) = n) : exec i s = .next { s with m := n } :=
  he ▸ exec_sFire hi h

/-! ## LOOP, LBRK, JIND -/

section
variable {s : State} {u w : Nat} {a : Opd}

theorem exec_loop_skips {b : Fin 256} (h : sStarts s.m u w [a] [] = true) (hn : payOf s.m .whole a % 2 ^ 32 = 0) :
    exec (.loop a b) s = .next { s with m := { readDone s.m [a] [] with ctl := .jump (w + b.val + 1) } } := by
  rw [← bits_zero_eq_mod] at hn
  exact exec_sFire_eq (i := .loop a b) rfl h (if_pos hn)

theorem exec_loop_opens {b : Fin 256} (h : sStarts s.m u w [a] [] = true) (hn : payOf s.m .whole a % 2 ^ 32 ≠ 0)
    (hl : (unitOf (readDone s.m [a] []) u).loops.length < 4)
    (hf : ∀ t ∈ (unitOf (readDone s.m [a] []) u).loops.head?, w + b.val ≤ t.fin) :
    exec (.loop a b) s = .next { s with m := setUnit (readDone s.m [a] []) u { unitOf (readDone s.m [a] []) u with
      loops := ⟨w + 1, w + b.val, payOf s.m .whole a % 2 ^ 32⟩ :: (unitOf (readDone s.m [a] []) u).loops } } := by
  have hh : (unitOf (readDone s.m [a] []) u).loops.head?.any (fun t => t.fin < w + b.val) = false := by
    cases hd : (unitOf (readDone s.m [a] []) u).loops.head? with
    | none => rfl
    | some t => exact decide_eq_false (Nat.not_lt.mpr (hf t hd))
  rw [← bits_zero_eq_mod] at hn ⊢
  refine exec_sFire_eq (i := .loop a b) rfl h ?_
  exact (if_neg hn).trans ((if_neg (Nat.ne_of_lt hl)).trans (if_neg (by rw [hh]; exact Bool.false_ne_true)))

theorem exec_lbrk_leaves {c ng : Bool} {n : Fin 8} {t : LoopE} {rest : List LoopE} (hu : s.m.cur = .unit u w)
    (hl : (unitOf s.m u).loops = t :: rest) (hc : c = true → bitAt (unitOf s.m u).p.toNat n.val = !ng) :
    exec (.lbrk c ng n) s = .next { s with
      m := { setUnit s.m u { unitOf s.m u with loops := rest } with ctl := .jump (t.fin + 1) } } := by
  have htaken : (!c || bitAt (unitOf s.m u).p.toNat n.val != ng) = true := by
    cases c with
    | false => rfl
    | true => simp [hc rfl]
  refine next_of_lift (lbrkG c ng n.val) rfl ?_
  simp only [lbrkG, hu, htaken, hl, if_true]

theorem exec_lbrk_stays {ng : Bool} {n : Fin 8} (hu : s.m.cur = .unit u w) (hc : bitAt (unitOf s.m u).p.toNat n.val = ng) :
    exec (.lbrk true ng n) s = .next s := by
  refine next_of_lift (lbrkG true ng n.val) rfl ?_
  simp only [lbrkG, hu, hc, bne_self_eq_false, Bool.not_true, Bool.or_self, Bool.false_eq_true, if_false]

theorem exec_jind (h : sStarts s.m u w [a] [] = true) : exec (.jind ⟨false⟩ a) s
    = .next { s with m := { readDone s.m [a] [] with ctl := .jump (payOf s.m .whole a % 2 ^ 16) } } := by
  rw [← bits_zero_eq_mod]
  exact exec_sFire (i := .jind ⟨false⟩ a) rfl h

theorem exec_jind_call (h : sStarts s.m u w [a] [] = true) (hk : (unitOf (readDone s.m [a] []) u).link.length < 8) :
    exec (.jind ⟨true⟩ a) s = .next { s with
      m := { setUnit (readDone s.m [a] []) u { unitOf (readDone s.m [a] []) u with
          link := (w + 1) :: (unitOf (readDone s.m [a] []) u).link } with ctl := .jump (payOf s.m .whole a % 2 ^ 16) } } := by
  rw [← bits_zero_eq_mod]
  exact exec_sFire_eq (i := .jind ⟨true⟩ a) rfl h (if_neg (Nat.ne_of_lt hk))

end

/-- Settles O26: one equation of `nasNext` for each value of NAS, and one of `exec` for each case of LOOP, LBRK and JIND. -/
theorem sequencing : Obligations.Sequencing := by
  refine ⟨fun m u hc hw hl => ?_, fun s u w a b => exec_loop_skips, fun s u w a b h hn => exec_loop_opens h hn,
    fun s u w c ng n t rest => exec_lbrk_leaves, fun s u w ng n => exec_lbrk_stays, fun s u w a => exec_jind,
    fun s u w a h => exec_jind_call h⟩
  intro x T go m0
  have hl0 : (unitOf m0 u).loops = [] := hl
  have hT : T = seqT x.seqf := (seqT_eq _).symm
  rw [afterWord_seq hc hw, hT]
  simp only [← seqNAS_eq]
  refine ⟨nasNext_sequence hl0, nasNext_jump hl0, fun hn => ?_, nasNext_call hl0, fun r rest => nasNext_return hl0,
    nasNext_pendingEmpty hl0, nasNext_pendingWaits (m := m0), nasNext_count_waits (m := m0), nasNext_count_ends hl0, nasNext_count_repeats hl0,
    nasNext_halt (m := m0), nasNext_call_full (m := m0), nasNext_return_empty (m := m0)⟩
  have hcond : (bitAt x.p.toNat (seqPS x.seqf) != seqPN x.seqf)
      = (x.p.getLsbD (x.seqf / 2 ^ 18 % 8) ^^ x.seqf.testBit 17) := by
    rw [bitAt_eq_testBit, seqPN, bitAt_eq_testBit, seqPS_eq, BitVec.testBit_toNat, Bool.bne_eq_xor]
  exact (nasNext_branch hl0 hn).trans (by rw [← hcond]; rfl)

end Sys2Proof.Machine

/-! PROOFS. SEQW, the wait for an empty Pending, and EVENT. -/
namespace Sys2Proof.Machine

/-! ## SEQW as it issues -/

section
variable {s : State} {u w : Nat} {d a : Opd}

theorem readDone_cur (m : Mach) (os ds : List Opd) (hc : m.cur = .unit u w) : (readDone m os ds).cur = m.cur := by
  obtain ⟨tiles, sp, h, -, -⟩ := readDone_unit m os ds u w hc
  rw [h]

theorem cur_of_sStarts {m : Mach} {os ds : List Opd} (h : sStarts m u w os ds = true) : m.cur = .unit u w := by
  rw [sStarts, Bool.and_eq_true, beq_iff_eq] at h
  exact h.1

theorem exec_seqw_stale (h : sStarts s.m u w [a] [d] = true) (hs : staleTicket (readDone s.m [a] [d]) u (payOf s.m .whole a) = true) :
    exec (.seqw d a) s = .next { s with m := putS (readDone s.m [a] [d]) u d (2 ^ 63 + 0x40) } :=
  exec_sFire_eq (i := .seqw d a) rfl h (if_pos hs)

theorem exec_seqw_waits (h : sStarts s.m u w [a] [d] = true)
    (hs : staleTicket (readDone s.m [a] [d]) u (payOf s.m .whole a) = false) :
    exec (.seqw d a) s = .next { s with
      m := settleSeqw u (pendReq (readDone s.m [a] [d]) u d
        (.seqw (payOf s.m .whole a % 16) (payOf s.m .whole a / 2 ^ 16 % 2 ^ 16))) } := by
  have he : bits (payOf s.m .whole a) 0 4 = payOf s.m .whole a % 16 := bits_zero_eq_mod _ 4
  have hg : bits (payOf s.m .whole a) 16 16 = payOf s.m .whole a / 2 ^ 16 % 2 ^ 16 := by
    rw [bits, Nat.shiftRight_eq_div_pow]
  rw [← he, ← hg]
  exact exec_sFire_eq (i := .seqw d a) rfl h (if_neg (fun ht => Bool.false_ne_true (hs.symm.trans ht)))

end

/-! ## The wait for Pending -/

theorem ofUnit_who {m : Mach} {u p : Nat} {who : Actor} (h : ofUnit m u p who = true) : ∃ w, who = .unit u w := by
  cases who with
  | unit v w =>
    rw [ofUnit, Bool.and_eq_true, beq_iff_eq] at h
    exact ⟨w, by rw [h.1]⟩
  | idle => cases h
  | pe => cases h

theorem seqwReady_notOurs {m : Mach} {u : Nat} {r : Req} (h : ∀ v w e g, r.who = .unit v w → r.op = .seqw e g → v ≠ u) :
    seqwReady m u r = none := by
  rw [seqwReady]
  split
  · next e g hop =>
    have hu : ofUnit m u r.past r.who = false := by
      rw [Bool.eq_false_iff]
      intro ho
      obtain ⟨w, hw⟩ := ofUnit_who ho
      exact h u w e g hw hop rfl
    split
    · simp [hu]
    · rfl
  · rfl

theorem settleSeqw_none {m : Mach} {u : Nat} (h : ∀ r ∈ m.mem.reqs, seqwReady m u r = none) : settleSeqw u m = m := by
  have hits : m.mem.reqs.filterMap (fun r => (seqwReady m u r).map (fun x => (r, x))) = [] :=
    List.filterMap_eq_nil_iff.mpr (fun r hr => by rw [h r hr]; rfl)
  simp only [settleSeqw, hits, List.foldl_nil]

section
variable {s : State} {u : Nat} (hn : ∀ r ∈ s.m.mem.reqs, ∀ v w e g, r.who = .unit v w → r.op = .seqw e g → v ≠ u)
  (h6 : (unitOf s.m u).seqf / 2 ^ 21 % 8 ≠ 6)
include hn h6

theorem exec_pendingEmpty_goes (hw : (unitOf s.m u).run = .waiting) (hp : pendingOf s.m u = [])
    (hr : isShepherd u = true ∨ running s.m (unitOf s.m u).past = true) (hl : (unitOf s.m u).loops = []) :
    exec (.pendingEmpty u) s = .next { s with m := goTo s.m u ((unitOf s.m u).w + 1) } := by
  rw [← seqNAS_eq] at h6
  refine next_of_lift (pendingEmptyG u) rfl ?_
  rw [pendingEmptyG, settleSeqw_none (fun r hr => seqwReady_notOurs (hn r hr))]
  exact (if_pos ⟨hw, hr⟩).trans ((if_neg h6).trans ((if_pos (by rw [hp]; rfl)).trans (setNext_noLoop _ hl)))

theorem exec_pendingEmpty_stays (hp : pendingOf s.m u ≠ []) : exec (.pendingEmpty u) s = .next s := by
  rw [← seqNAS_eq] at h6
  refine next_of_lift (pendingEmptyG u) rfl ?_
  rw [pendingEmptyG, settleSeqw_none (fun r hr => seqwReady_notOurs (hn r hr))]
  simp only [h6, List.isEmpty_eq_false_iff.mpr hp, if_false, Bool.false_eq_true, ite_self]

end

/-! ## A SEQW whose work is done -/

/-- A fold over copies of one element reaches `Q` once it is not empty, when a step leads from `P` to `Q`. -/
theorem foldl_copies {α β : Type} {f : β → α → β} {a : α} {P Q : β → Prop} (hstep : ∀ b, P b → Q (f b a)) (hQP : ∀ b, Q b → P b) :
    ∀ (l : List α) (b : β), (∀ x ∈ l, x = a) → l ≠ [] → P b → Q (l.foldl f b)
  | [x], b, hl, _, hb => by
    rw [hl x (List.mem_singleton_self x)]
    exact hstep b hb
  | x :: y :: l, b, hl, _, hb => by
    rw [List.foldl_cons, hl x List.mem_cons_self]
    exact foldl_copies hstep hQP (y :: l) _ (fun z hz => hl z (List.mem_cons_of_mem x hz)) (List.cons_ne_nil y l)
      (hQP _ (hstep b hb))

/-- What the settling of unit `u`'s SEQWs leaves unchanged: the fields of memory that it does not write, and the word's sequencing. -/
def SettleKeeps (u : Nat) (m b : Mach) : Prop :=
  (unitOf b u).seqf = (unitOf m u).seqf ∧ b.mem.hbm = m.mem.hbm ∧ b.mem.spad = m.mem.spad

/-- The machine `b` is `m` with the result `v` of the SEQW `id` of unit `u` in register `n`. -/
def SeqwWritten (u n v id : Nat) (m b : Mach) : Prop :=
  SettleKeeps u m b ∧ sReg b u n = v ∧ b.mem.reqs = m.mem.reqs.filter (fun q => q.id != id)

theorem unitOf_setSReg_same (m : Mach) (u r v : Nat) : unitOf (setSReg m u r v) u = { unitOf m u with s := (unitOf (setSReg m u r v) u).s } := by
  simp only [setSReg, unitOf_setUnit_same]

theorem freeTicketEntry_eq {m : Mach} {u e : Nat} {t : Ticket} (h : tfind e (unitOf m u).tickets = some t) : freeTicketEntry m u e
    = setUnit m u { unitOf m u with tickets := tset e { t with used := false, work := 0 } (unitOf m u).tickets } := by
  simp only [freeTicketEntry, h]

/-- The result of a SEQW is a word: a number of activations or a trap cause. -/
theorem workResult_eq (m : Mach) (k : Nat) (child : Bool) : workResult m k child
    = if child then ((graphOf m k).map (·.cause % 256)).getD 0 else ((tfind k m.seq.sections).map (·.aborted % 2 ^ 22)).getD 0 := by
  cases child with
  | true =>
    rw [workResult]
    cases graphOf m k <;> rfl
  | false =>
    rw [workResult]
    cases tfind k m.seq.sections with
    | none => rfl
    | some x => exact bits_zero_eq_mod x.aborted 22

theorem workResult_lt (m : Mach) (k : Nat) (child : Bool) : workResult m k child < 2 ^ 64 := by
  rw [workResult]
  split <;> split
  · omega
  · decide
  · exact (bits_lt _ 0 22).trans (by decide)
  · decide

theorem mem_seqwHits {m : Mach} {u : Nat} {r : Req} {x : Nat × Ticket} (ho : ∀ q ∈ m.mem.reqs, q ≠ r → seqwReady m u q = none)
    (hready : seqwReady m u r = some x) :
    ∀ h ∈ m.mem.reqs.filterMap (fun q => (seqwReady m u q).map (fun y => (q, y))), h = (r, x) := by
  intro h hh
  obtain ⟨q, hq, hqh⟩ := List.mem_filterMap.mp hh
  by_cases hqr : q = r
  · rw [hqr, hready] at hqh
    exact (Option.some.inj hqh).symm
  · rw [ho q hq hqr] at hqh
    cases hqh

section
variable {m : Mach} {u n : Nat}

/-- The result of a SEQW goes to its register, and its request leaves the list. -/
theorem writeDst_seqw {r : Req} (hdst : r.dst = .sreg u n) (b : Mach) {v : Nat} (hv : v < 2 ^ 64) :
    writeDst (delReq b r.id) r.who r.dst (tokNat v) = setSReg (delReq b r.id) u n v := by
  have hb : bits (tokNat v).val.pay.toNat 0 64 = v := by
    rw [bits_zero_eq_mod]
    exact (congrArg (· % 2 ^ 64) (BitVec.toNat_ofNat v 128)).trans (by omega)
  rw [hdst]
  exact congrArg (setSReg (delReq b r.id) u n) hb

theorem writeDst_seqwWritten {r : Req} (hdst : r.dst = .sreg u n) {b : Mach} (hb : SettleKeeps u m b)
    (hrq : b.mem.reqs.filter (fun q => q.id != r.id) = m.mem.reqs.filter (fun q => q.id != r.id)) {v : Nat} (hv : v < 2 ^ 64) :
    SeqwWritten u n v r.id m (writeDst (delReq b r.id) r.who r.dst (tokNat v))
      ∧ (unitOf (writeDst (delReq b r.id) r.who r.dst (tokNat v)) u).tickets = (unitOf b u).tickets := by
  obtain ⟨hf, hh, hs⟩ := hb
  rw [writeDst_seqw hdst b hv]
  refine ⟨⟨⟨?_, hh, hs⟩, ?_, hrq⟩, by rw [unitOf_setSReg_same]; rfl⟩
  · rw [unitOf_setSReg_same]
    exact hf
  · rw [sReg_setSReg, if_pos ⟨rfl, rfl⟩, Nat.mod_eq_of_lt hv]

theorem freeTicketEntry_seqwWritten {b : Mach} {e v id : Nat} {t : Ticket} (hb : SeqwWritten u n v id m b)
    (htk : tfind e (unitOf b u).tickets = some t) : SeqwWritten u n v id m (freeTicketEntry b u e)
      ∧ tfind e (unitOf (freeTicketEntry b u e) u).tickets = some { t with used := false, work := 0 } := by
  obtain ⟨⟨hf, hh, hs⟩, hrg, hrq⟩ := hb
  rw [freeTicketEntry_eq htk]
  refine ⟨⟨⟨?_, hh, hs⟩, ?_, hrq⟩, ?_⟩
  · rw [unitOf_setUnit_same]
    exact hf
  · rw [sReg, unitOf_setUnit_same]
    exact hrg
  · rw [unitOf_setUnit_same]
    exact tfind_tset_same ..

/-- When `r` alone is ready, its result is written and its ticket is free, however often `r` stands in the list. -/
theorem settleSeqw_one {e g k : Nat} {child : Bool} {r : Req} (hr : r ∈ m.mem.reqs) (hdst : r.dst = .sreg u n)
    (ho : ∀ q ∈ m.mem.reqs, q ≠ r → seqwReady m u q = none) (ht : tfind e (unitOf m u).tickets = some ⟨g, true, child, k⟩)
    (hready : seqwReady m u r = some (e, ⟨g, true, child, k⟩)) :
    SeqwWritten u n (workResult m k child) r.id m (settleSeqw u m)
    ∧ tfind e (unitOf (settleSeqw u m) u).tickets = some ⟨g, false, child, 0⟩ := by
  have hcopies := mem_seqwHits ho hready
  have hne : m.mem.reqs.filterMap (fun q => (seqwReady m u q).map (fun y => (q, y))) ≠ [] :=
    List.ne_nil_of_mem (List.mem_filterMap.mpr ⟨r, hr, by rw [hready]; rfl⟩)
  obtain ⟨hwritten, htickets⟩ := foldl_copies
    (f := fun b h => writeDst (delReq b h.1.id) h.1.who h.1.dst (tokNat (workResult m h.2.2.work h.2.2.child)))
    (P := fun b => (SettleKeeps u m b ∧ b.mem.reqs.filter (fun q => q.id != r.id) = m.mem.reqs.filter (fun q => q.id != r.id))
      ∧ (unitOf b u).tickets = (unitOf m u).tickets)
    (Q := fun b => SeqwWritten u n (workResult m k child) r.id m b ∧ (unitOf b u).tickets = (unitOf m u).tickets)
    (fun b ⟨⟨hb, hrq⟩, htk⟩ => (writeDst_seqwWritten hdst hb hrq (workResult_lt m k child)).imp_right (·.trans htk))
    (fun b ⟨⟨hb, _, hrq⟩, htk⟩ => ⟨⟨hb, by rw [hrq, List.filter_filter]; simp only [Bool.and_self]⟩, htk⟩)
    _ m hcopies hne ⟨⟨⟨rfl, rfl, rfl⟩, rfl⟩, rfl⟩
  exact foldl_copies (f := fun b h => freeTicketEntry b u h.2.1)
    (P := fun b => SeqwWritten u n (workResult m k child) r.id m b ∧ ∃ used work, tfind e (unitOf b u).tickets = some ⟨g, used, child, work⟩)
    (Q := fun b => SeqwWritten u n (workResult m k child) r.id m b ∧ tfind e (unitOf b u).tickets = some ⟨g, false, child, 0⟩)
    (fun b ⟨hb, _, _, htk⟩ => freeTicketEntry_seqwWritten hb htk) (fun b ⟨hb, htk⟩ => ⟨hb, _, _, htk⟩)
    _ _ hcopies hne ⟨hwritten, _, _, htickets ▸ ht⟩

end

/-- A unit that waits may go on when its SEQWs are settled, which changes no register, no ticket and nothing of memory. -/
theorem pendingEmptyG_settled {m : Mach} {u : Nat} (h6 : seqNAS (unitOf (settleSeqw u m) u).seqf ≠ 6) :
    ∃ x, (pendingEmptyG u m = settleSeqw u m ∨ pendingEmptyG u m = setUnit (settleSeqw u m) u x)
      ∧ x.s = (unitOf (settleSeqw u m) u).s ∧ x.tickets = (unitOf (settleSeqw u m) u).tickets := by
  simp only [pendingEmptyG, if_neg h6]
  split
  · split
    · exact ⟨_, .inr rfl, rfl, rfl⟩
    · exact ⟨_, .inl rfl, rfl, rfl⟩
  · exact ⟨_, .inl rfl, rfl, rfl⟩

theorem exec_pendingEmpty_settles {s : State} {u n e g k : Nat} {child : Bool} {r : Req}
    (hr : r ∈ s.m.mem.reqs) (hop : r.op = .seqw e g) (hdst : r.dst = .sreg u n)
    (ho : ∀ q ∈ s.m.mem.reqs, q ≠ r → seqwReady s.m u q = none) (h6 : (unitOf s.m u).seqf / 2 ^ 21 % 8 ≠ 6)
    (hu : ofUnit s.m u r.past r.who = true) (ht : tfind e (unitOf s.m u).tickets = some ⟨g, true, child, k⟩)
    (hd : workDone s.m k child = true) :
    ∃ t, exec (.pendingEmpty u) s = .next t ∧ sReg t.m u n = workResult s.m k child
      ∧ tfind e (unitOf t.m u).tickets = some ⟨g, false, child, 0⟩
      ∧ t.m.mem.reqs = s.m.mem.reqs.filter (fun q => q.id != r.id) ∧ t.m.mem.hbm = s.m.mem.hbm ∧ t.m.mem.spad = s.m.mem.spad := by
  have hready : seqwReady s.m u r = some (e, ⟨g, true, child, k⟩) := by
    simp [seqwReady, hop, ht, hu, hd]
  obtain ⟨⟨⟨hf, hh, hs⟩, hreg, hrq⟩, htk⟩ := settleSeqw_one hr hdst ho ht hready
  rw [← seqNAS_eq, ← hf] at h6
  refine ⟨_, next_of_lift (pendingEmptyG u) rfl rfl, ?_⟩
  obtain ⟨x, hx | hx, hxs, hxt⟩ := pendingEmptyG_settled h6
  · exact hx ▸ ⟨hreg, htk, hrq, hh, hs⟩
  · refine hx ▸ ⟨?_, ?_, hrq, hh, hs⟩
    · rw [sReg, unitOf_setUnit_same, hxs]
      exact hreg
    · rw [unitOf_setUnit_same, hxt]
      exact htk

theorem workDone_iff (m : Mach) (k : Nat) (child : Bool) : workDone m k child = true ↔
    ((if child then ∀ g, graphOf m k = some g → g.complete = true else ∀ x, tfind k m.seq.sections = some x → x.complete = true)
      ∧ ∀ r ∈ m.mem.reqs, r.sect ∈ workTree m (m.seq.graphs.length + 1) [k] → memOp r = true → r.done = true) := by
  have hops : (!m.mem.reqs.any (fun r => (workTree m (m.seq.graphs.length + 1) [k]).contains r.sect && memOp r && !r.done)) = true
      ↔ ∀ r ∈ m.mem.reqs, r.sect ∈ workTree m (m.seq.graphs.length + 1) [k] → memOp r = true → r.done = true := by
    simp only [Bool.not_eq_true', List.any_eq_false, Bool.and_eq_true, List.contains_iff_mem, not_and, Bool.not_eq_false, and_imp]
  rw [workDone, Bool.and_eq_true, hops]
  refine and_congr_left' ?_
  cases child with
  | true => cases hg : graphOf m k <;> simp
  | false => cases hx : tfind k m.seq.sections <;> simp

/-! ## EVENT -/

section
variable {s : State} {u w : Nat} {a b : Opd} (h : sStarts s.m u w [a, b] [] = true)
include h

theorem exec_event_badVector (hv : 63 < payOf s.m .whole a) :
    exec (.event a b) s = .next { s with m := trapForm (readDone s.m [a, b] []) u w 0x01 0x06 } :=
  exec_sFire_eq (i := .event a b) rfl h (if_pos hv)

theorem exec_event_posts (hv : payOf s.m .whole a ≤ 63)
    (hh : eventHeld (readDone s.m [a, b] []) (.unit u w) (readDone s.m [a, b] []).ids = false) :
    exec (.event a b) s = .next { s with
      m := postEvent (readDone s.m [a, b] []) (pastOfActor (readDone s.m [a, b] []) (.unit u w)) (payOf s.m .whole a)
        (payOf s.m .whole b) } :=
  exec_sFire_eq (i := .event a b) rfl h ((if_neg (Nat.not_lt.mpr hv)).trans (if_neg (by rw [hh]; exact Bool.false_ne_true)))

theorem exec_event_held (hv : payOf s.m .whole a ≤ 63)
    (hh : eventHeld (readDone s.m [a, b] []) (.unit u w) (readDone s.m [a, b] []).ids = true) : let m := readDone s.m [a, b] []
    exec (.event a b) s = .next { s with m := { m with
      ids := m.ids + 1
      mem.reqs := m.mem.reqs ++ [⟨m.ids, .unit u w, 0, sectOf m m.cur, pastOfActor m (.unit u w), .drop,
        .event (pastOfActor m (.unit u w)) (payOf s.m .whole a) (payOf s.m .whole b), 8, false, true, none, none, false, none, none,
        false, none⟩] } } :=
  exec_sFire_eq (i := .event a b) rfl h ((if_neg (Nat.not_lt.mpr hv)).trans (if_pos hh))

end

/-- An event sets its slot, and sends a message when the slot was not pending. -/
theorem postEvent_slot (m : Mach) (p vec v : Nat) : let k := p * 64 + vec
    let x := tget EvSlot.reset k m.host.slots
    tget EvSlot.reset k (postEvent m p vec v).host.slots = ⟨BitVec.ofNat 64 v, true, min (x.count + 1) (2 ^ 32 - 1)⟩
      ∧ (postEvent m p vec v).host.msix = (if x.pend then m.host.msix else m.host.msix ++ [k]) ∧ (postEvent m p vec v).mem = m.mem := by
  intro k x
  by_cases hx : x.pend = true
  · rw [postEvent, if_pos hx, if_pos hx]
    exact ⟨tget_tput_same .., rfl, rfl⟩
  · rw [postEvent, if_neg hx, if_neg hx]
    exact ⟨tget_tput_same .., rfl, rfl⟩

/-- Settles O29, from what `settleSeqw` does when no SEQW or exactly one is ready, and the cases of SEQW and EVENT. -/
theorem waitsAndEvents : Obligations.WaitsAndEvents := by
  refine ⟨⟨fun s u w d a h => exec_seqw_stale h, fun s u w d a h hs => ?_,
    fun s u hn hw h6 hp hr hl => exec_pendingEmpty_goes hn h6 hw hp hr hl, fun s u hn hp h6 => exec_pendingEmpty_stays hn h6 hp,
    fun s u w r e g n child k hr _ hop hdst ho h6 hu ht hd => ?_, workDone_iff⟩,
    fun s u w a b h hv hh => ?_, fun s u w a b h hv hh => ?_, fun s u w a b h hv => exec_event_badVector h hv⟩
  · have hc : (readDone s.m [a] [d]).cur = s.m.cur := readDone_cur _ _ _ (cur_of_sStarts h)
    rw [← hc]
    exact exec_seqw_waits h hs
  · intro v
    have hv : v = workResult s.m k child := (workResult_eq s.m k child).symm
    rw [hv]
    exact exec_pendingEmpty_settles hr hop hdst ho h6 hu ht hd
  · exact ⟨_, exec_event_posts h hv hh, postEvent_slot ..⟩
  · exact ⟨_, _, exec_event_held h hv hh, rfl, rfl, rfl, rfl, rfl, rfl⟩

end Sys2Proof.Machine

/-! PROOFS. The poison step of R89 and the scale check of R107. -/
namespace Sys2Proof.Machine

/-! ## The merged poison of the sources -/

theorem bits_merge (x : Nat) : bits x 28 3 = x / 2 ^ 28 % 8 := by
  rw [bits, Nat.shiftRight_eq_div_pow]
  rfl

theorem setBits_merge (x y : Nat) : setBits x 28 3 y = x - x / 2 ^ 28 % 8 * 2 ^ 28 + y % 8 * 2 ^ 28 := by
  rw [setBits, bits_merge]
  rfl

/-- The payload of a poison whose MERGE is raised. -/
theorem bumpMerge_pay (v : Val) (k : Nat) :
    (bumpMerge v k).pay.toNat = setBits v.pay.toNat 28 3 (min 7 (bits v.pay.toNat 28 3 + k)) := by
  have hv : v.pay.toNat < 2 ^ 128 := v.pay.isLt
  rw [bumpMerge, BitVec.toNat_ofNat, setBits_merge]
  exact Nat.mod_eq_of_lt (by omega)

theorem bits_setBits_merge (x y : Nat) : bits (setBits x 28 3 y) 28 3 = y % 8 := by
  rw [bits_merge, setBits_merge]
  omega

theorem setBits_setBits_merge (x y z : Nat) : setBits (setBits x 28 3 y) 28 3 z = setBits x 28 3 z := by
  rw [setBits_merge, ← bits_merge, bits_setBits_merge, setBits_merge, setBits_merge]
  omega

theorem val_eq_of_pay {x y : Val} (hpay : x.pay.toNat = y.pay.toNat) (hp : x.poison = y.poison) (hs : x.scaled = y.scaled) : x = y := by
  obtain ⟨px, _, _⟩ := x
  obtain ⟨py, _, _⟩ := y
  obtain rfl : px = py := BitVec.eq_of_toNat_eq hpay
  obtain rfl := hp
  obtain rfl := hs
  rfl

/- The kernel compares `(bumpMerge v k).poison` and `v.poison` by their records, payload and all; hence `rw`, not `rfl`. -/
@[simp] theorem bumpMerge_poison (v : Val) (k : Nat) : (bumpMerge v k).poison = v.poison := by
  rw [bumpMerge]

@[simp] theorem bumpMerge_scaled (v : Val) (k : Nat) : (bumpMerge v k).scaled = v.scaled := by
  rw [bumpMerge]

theorem bumpMerge_zero (v : Val) : bumpMerge v 0 = v := by
  refine val_eq_of_pay ?_ (bumpMerge_poison ..) (bumpMerge_scaled ..)
  rw [bumpMerge_pay, setBits_merge, bits_merge]
  omega

theorem bumpMerge_add (v : Val) (j k : Nat) : bumpMerge (bumpMerge v j) k = bumpMerge v (j + k) := by
  refine val_eq_of_pay ?_ (by simp only [bumpMerge_poison]) (by simp only [bumpMerge_scaled])
  have hmin : min 7 (min 7 (bits v.pay.toNat 28 3 + j) % 8 + k) = min 7 (bits v.pay.toNat 28 3 + (j + k)) := by
    omega
  rw [bumpMerge_pay, bumpMerge_pay, bumpMerge_pay, bits_setBits_merge, setBits_setBits_merge, hmin]

/-- One source of the poison step: `acc` is the poison of the sources before it. -/
def poisonNext (acc : Option Val) (s : Val) : Option Val :=
  if s.poison then some (acc.elim s (mergeVal · s)) else acc

theorem poisonStep_eq_foldl (vs : List Val) : poisonStep vs = vs.foldl poisonNext none := by
  have hnext : ∀ acc s, poisonNext acc s
      = if s.poison then some (match acc with | none => s | some v => mergeVal v s) else acc := by
    rintro (_ | v) s <;> rfl
  have hfun := funext fun acc => funext (hnext acc)
  rw [hfun]
  rfl

/-- Each further poison raises MERGE by 1. -/
theorem foldl_poisonNext_some {v : Val} (hv : v.poison = true) :
    ∀ (vs : List Val), vs.foldl poisonNext (some v) = some (bumpMerge v (vs.filter (·.poison)).length) := by
  intro vs
  induction vs generalizing v with
  | nil => rw [List.foldl_nil, List.filter_nil, List.length_nil, bumpMerge_zero]
  | cons s vs ih =>
    rw [List.foldl_cons]
    by_cases hs : s.poison = true
    · have hmerge : poisonNext (some v) s = some (bumpMerge v 1) := by
        simp [poisonNext, mergeVal, hs, hv]
      have hpoison : (bumpMerge v 1).poison = true := (bumpMerge_poison v 1).trans hv
      rw [hmerge, ih hpoison, bumpMerge_add, List.filter_cons_of_pos hs, List.length_cons, Nat.add_comm]
    · have hskip : poisonNext (some v) s = some v := if_neg hs
      rw [hskip, ih hv, List.filter_cons_of_neg hs]

theorem foldl_poisonNext_none {v : Val} {ps : List Val} :
    ∀ (vs : List Val), vs.filter (·.poison) = v :: ps → vs.foldl poisonNext none = some (bumpMerge v ps.length) := by
  intro vs
  induction vs with
  | nil => exact fun h => nomatch h
  | cons s vs ih =>
    intro h
    rw [List.foldl_cons]
    by_cases hs : s.poison = true
    · rw [List.filter_cons_of_pos hs] at h
      obtain ⟨rfl, hps⟩ := List.cons.inj h
      have hfirst : poisonNext none s = some s := if_pos hs
      rw [hfirst, foldl_poisonNext_some hs, hps]
    · rw [List.filter_cons_of_neg hs] at h
      have hskip : poisonNext none s = none := if_neg hs
      rw [hskip, ih h]

theorem poisonStep_of_filter {vs ps : List Val} {v : Val} (h : vs.filter (·.poison) = v :: ps) :
    poisonStep vs = some (bumpMerge v ps.length) := by
  rw [poisonStep_eq_foldl, foldl_poisonNext_none vs h]

/-! ## The poison step of an entry in a PE -/

section
variable {m : Mach} {core pe frame slot bank : Nat} {keep : Bool} (hc : m.cur = .pe core pe frame slot bank keep)
include hc

/-- A poisoned source ends an entry: the merged poison goes to D. -/
theorem fire_poisoned {rd : List (LaneK × Opd)} {d : DstK} {eff : List Val → Mach → Mach} {v : Val} {ps : List Val}
    (h : (rd.map (fun x => srcVal m x.1 x.2)).filter (·.poison) = v :: ps) :
    fire rd d eff m = putRes (deqSrcs m (rd.map (·.2))) d (bumpMerge v ps.length) := by
  simp only [fire, fireK, hc, poisonStep_of_filter h]

theorem putRes_out (n : Fin 8) (x : Val) : putRes m (.opd (.outC n)) x = emitOut m core pe n.val ⟨x, false, false, bank⟩ := by
  simp only [putRes, putTok, firingBank, hc]

theorem putRes_reg {d : Opd} {c : Nat} (hd : ∀ n, d ≠ .outC n) (hr : regCode d = some c) (x : Val) :
    putRes m (.opd d) x = setPeReg m core pe (frame * 4 + bank) c x := by
  cases d with
  | outC n => exact absurd rfl (hd n)
  | _ => simp only [putRes, putTok, hc, hr]

theorem putRes_sink {d : Opd} (hd : ∀ n, d ≠ .outC n) (hr : regCode d = none) {x : Val} (hx : x.poison = true) :
    putRes m (.opd d) x = poisonSink m m.cur x := by
  cases d with
  | outC n => exact absurd rfl (hd n)
  | _ => simp only [putRes, putTok, hc, hr, hx, if_true]

end

/-! ## The scale check -/

/-- The sources that a floating-point entry checks, each with whether it carries a scale. -/
def scaleSrcs (carry : Bool × Bool × Bool) (readD : Bool) (d a : Opd) (b : Option Opd) : List (Opd × Bool) :=
  (a, carry.1) :: ((match b with | some b => [(b, carry.2.1)] | none => []) ++ if readD then [(d, carry.2.2)] else [])

theorem scaleBad_eq (xs : Bool) (l : List (Val × Bool)) :
    scaleBad xs l = (l.find? (fun x => x.1.scaled != (x.2 && xs))).map (·.1.scaled) := by
  have hbad : (fun x : Val × Bool => if x.2 then x.1.scaled != xs else x.1.scaled) = fun x => x.1.scaled != (x.2 && xs) := by
    funext ⟨v, c⟩
    cases c with
    | true => rfl
    | false => exact (Bool.bne_false v.scaled).symm
  rw [scaleBad, hbad]

theorem scaleBad_map {m : Mach} {k : LaneK} {xs : Bool} {l : List (Opd × Bool)} {o : Opd} {c : Bool}
    (h : l.find? (fun x => (srcVal m k x.1).scaled != (x.2 && xs)) = some (o, c)) :
    scaleBad xs (l.map (fun x => (srcVal m k x.1, x.2))) = some (srcVal m k o).scaled := by
  rw [scaleBad_eq, List.find?_map]
  exact congrArg (fun y => (y.map (fun x => (srcVal m k x.1, x.2))).map (·.1.scaled)) h

theorem scaleCheck_fails {xs bit : Bool} {l : List (Val × Bool)} (h : scaleBad xs l = some bit) (d : DstK) (eff : Mach → Mach) (m : Mach) :
    scaleCheck xs l d eff m = putRes m d (scalePoison m bit) := by
  simp only [scaleCheck, h]

/-- The machine after its sources are read executes for the same actor. -/
theorem readDone_actor (m : Mach) (os ds : List Opd) : (readDone m os ds).cur = m.cur := by
  cases hc : m.cur with
  | idle => simp only [readDone, hc]
  | pe => simp only [readDone, hc, deqSrcs_cur]
  | unit u w => exact (readDone_cur m os ds hc).trans hc

theorem fltEntry_scaleFails (s : State) (F : FFmt) (xs rd : Bool) (carry : Bool × Bool × Bool) (d a : Opd) (b : Option Opd)
    (op : Nat → Nat → Nat → Nat × Nat) (h : starts s.m (fltSrcs F rd d a b) (.opd d) = true) {o : Opd} {c : Bool}
    (hbad : (scaleSrcs carry rd d a b).find? (fun x => (srcVal s.m (.flt F) x.1).scaled != (x.2 && xs)) = some (o, c)) :
    lift (fltEntry F xs rd carry d a b op) s = .next (wroteV s ((fltSrcs F rd d a b).map (·.2)) (.opd d)
      (scalePoison (readDone s.m ((fltSrcs F rd d a b).map (·.2)) [d]) (srcVal s.m (.flt F) o).scaled)) := by
  have hscale := scaleBad_map hbad
  show Host.Outcome.next { s with m := fire (fltSrcs F rd d a b) (.opd d) _ s.m } = _
  rw [fire_starts _ _ _ _ h]
  cases b <;> cases rd <;> exact congrArg (fun n => Host.Outcome.next { s with m := n }) (scaleCheck_fails hscale ..)

/-- Settles O19: `poisonStep` of the sources is the first poison with MERGE raised once for each further one, and `scaleBad` finds
the first source that fails the check. -/
theorem poisonAndScales : Obligations.PoisonAndScales := by
  refine ⟨fun i s core pe frame slot bank keep d rd hc hrow v ps hps => ?_, fun i s r hrow hst o c hbad => ?_⟩
  · intro m x
    have hexec : ∃ eff, exec i s = lift (fire rd (.opd d) eff) s := by
      rcases hrow with ⟨r, hr, rfl, rfl⟩ | ⟨r, hr, rfl, rfl⟩
      · obtain ⟨op, he⟩ := hr.elim (exec_of_intRow · s) (exec_of_logicRow · s)
        exact ⟨_, he⟩
      · obtain ⟨op, he⟩ := exec_of_fltRow hr s
        exact ⟨_, he⟩
    obtain ⟨eff, he⟩ := hexec
    have hm : m.cur = .pe core pe frame slot bank keep := (deqSrcs_cur ..).trans hc
    have hv : v.poison = true := (List.mem_filter.mp (hps ▸ List.mem_cons_self)).2
    refine (next_of_lift _ he (fire_poisoned hc hps)).trans (congrArg (fun n => Host.Outcome.next { s with m := n }) ?_)
    split
    · next n => exact putRes_out hm n x
    · next hd =>
      split
      · next k hk => exact putRes_reg hm (fun n => hd n) hk x
      · next hk =>
        refine (putRes_sink hm (fun n => hd n) hk (x := x) hv).trans ?_
        rw [poisonSink, deqSrcs_cur]
  · obtain ⟨op, he⟩ := exec_of_fltRow hrow s
    rw [he, fltEntry_scaleFails s _ _ _ _ _ _ _ op hst hbad, scalePoison, readDone_actor]

end Sys2Proof.Machine

/-! PROOFS. The exact arithmetic of R173 is that of the rational numbers (R90, R101, R102). -/
namespace Sys2Proof.Machine

/-- The number that a sign stands for in an exact value. -/
def signRat (neg : Bool) : ℚ := if neg then -1 else 1

theorem signRat_not (neg : Bool) : signRat (!neg) = -signRat neg := by
  cases neg <;> simp [signRat]

theorem signRat_bne (a b : Bool) : signRat (a != b) = signRat a * signRat b := by
  cases a <;> cases b <;> simp [signRat]

/-- The sign of an integer times its magnitude is the integer. -/
theorem signRat_mul_natAbs (z : ℤ) : signRat (decide (z < 0)) * (z.natAbs : ℚ) = z := by
  rcases lt_or_ge z 0 with hz | hz
  · simp [signRat, hz, Nat.cast_natAbs, abs_of_neg]
  · simp [signRat, hz.not_gt, Nat.cast_natAbs, abs_of_nonneg hz]

@[simp] theorem toRat_fin (neg : Bool) (m : Nat) (e : ℤ) :
    XR.toRat (.fin neg m e false) = some (signRat neg * m * (2 : ℚ) ^ e) := rfl

/-- Only a finite value without a sticky remainder is a rational number. -/
theorem toRat_eq_some {x : XR} {p : ℚ} (h : XR.toRat x = some p) :
    ∃ neg m e, x = .fin neg m e false ∧ signRat neg * m * (2 : ℚ) ^ e = p := by
  match x, h with
  | .fin neg m e false, h => exact ⟨neg, m, e, rfl, Option.some.inj h⟩

theorem toRat_xneg {x : XR} {p : ℚ} (hx : XR.toRat x = some p) : XR.toRat (xneg x) = some (-p) := by
  obtain ⟨a, m, e, rfl, rfl⟩ := toRat_eq_some hx
  rw [xneg, toRat_fin, signRat_not, neg_mul, neg_mul]

theorem toRat_xmul {x y : XR} {p q : ℚ} (hx : XR.toRat x = some p) (hy : XR.toRat y = some q) :
    XR.toRat (xmul x y).1 = some (p * q) := by
  obtain ⟨a, m, e, rfl, rfl⟩ := toRat_eq_some hx
  obtain ⟨b, n, f, rfl, rfl⟩ := toRat_eq_some hy
  rw [xmul, toRat_fin, signRat_bne, Nat.cast_mul, zpow_add₀ two_ne_zero]
  exact congrArg some (by ring)

/-- A significand brought to a lower exponent, with its sign, keeps its value. -/
theorem aligned_mul_zpow (neg : Bool) (m : Nat) {e q : ℤ} (h : q ≤ e) :
    (((if neg then -1 else 1) * ((m * 2 ^ (e - q).toNat : Nat) : ℤ) : ℤ) : ℚ) * (2 : ℚ) ^ q = signRat neg * m * 2 ^ e := by
  have hpow : (2 : ℚ) ^ (e - q).toNat * 2 ^ q = 2 ^ e := by
    rw [← zpow_natCast, Int.toNat_of_nonneg (by omega), ← zpow_add₀ two_ne_zero, Int.sub_add_cancel]
  have hsign : (((if neg then -1 else 1 : ℤ)) : ℚ) = signRat neg := by cases neg <;> simp [signRat]
  rw [← hpow, Int.cast_mul, hsign]
  push_cast
  ring

theorem toRat_xadd (r : Rnd) {x y : XR} {p q : ℚ} (hx : XR.toRat x = some p) (hy : XR.toRat y = some q) :
    XR.toRat (xadd r x y).1 = some (p + q) := by
  obtain ⟨a, m, e, rfl, rfl⟩ := toRat_eq_some hx
  obtain ⟨b, n, f, rfl, rfl⟩ := toRat_eq_some hy
  rw [← aligned_mul_zpow a m (min_le_left e f), ← aligned_mul_zpow b n (min_le_right e f), ← add_mul, ← Int.cast_add]
  simp only [xadd]
  generalize (if a then -1 else 1) * ((m * 2 ^ (e - min e f).toNat : Nat) : ℤ)
    + (if b then -1 else 1) * ((n * 2 ^ (f - min e f).toNat : Nat) : ℤ) = z
  split
  · next hz => split <;> simp [hz]
  · rw [toRat_fin, signRat_mul_natAbs]

/-- A quotient of finite values is truncated 64 bits below its unit, and the sticky mark says whether a remainder was left. -/
theorem xdiv_fin (a b : Bool) (m : Nat) (e f : ℤ) {n : Nat} (hn : 0 < n) :
    xdiv (.fin a m e false) (.fin b n f false) = (.fin (a != b) (m * 2 ^ 64 / n) (e - f - 64) (m * 2 ^ 64 % n != 0), 0) := by
  rw [xdiv, if_neg hn.ne']

/-- Settles O15: sums are formed at the lower exponent, products and negations term by term; the bounds of a quotient are those of
division with remainder. -/
theorem exactArithmetic : Obligations.ExactArithmetic := by
  refine ⟨fun r x y p q hx hy => ⟨toRat_xadd r hx hy, toRat_xmul hx hy, toRat_xneg hx⟩, fun a m e b n f hn => ?_⟩
  refine ⟨_, _, xdiv_fin a b m e f hn, ?_⟩
  have hdiv : m * 2 ^ 64 / n * n + m * 2 ^ 64 % n = m * 2 ^ 64 := Nat.div_add_mod' ..
  have hrem : m * 2 ^ 64 % n < n := Nat.mod_lt _ hn
  generalize m * 2 ^ 64 / n = k at hdiv ⊢
  generalize m * 2 ^ 64 % n = rem at hdiv hrem ⊢
  have hsum : (k : ℚ) * n + rem = m * 2 ^ 64 := by exact_mod_cast hdiv
  have hlt : (rem : ℚ) < n := by exact_mod_cast hrem
  refine ⟨?_, ?_, ?_⟩
  · rw [bne_eq_false_iff_eq, ← hsum, left_eq_add, Nat.cast_eq_zero]
  · exact hsum ▸ le_add_of_nonneg_right rem.cast_nonneg
  · rw [← hsum, add_mul, one_mul]
    exact add_lt_add_right hlt _

end Sys2Proof.Machine

/-! PROOFS. The exact sum of a matrix chunk (R106). -/
namespace Sys2Proof.Machine

section Sum
variable {α : Type} {v : α → XR} {p : α → ℚ} {l : List α}

/-- Adding the values of a list one by one adds their rational numbers. -/
theorem toRat_foldl_xadd (r : Rnd) (h : ∀ i ∈ l, XR.toRat (v i) = some (p i)) {x : XR} {q : ℚ} (fl : Nat) (hx : XR.toRat x = some q) :
    XR.toRat ((l.map v).foldl (fun acc y => let z := xadd r acc.1 y; (z.1, acc.2 ||| z.2)) (x, fl)).1 = some (q + (l.map p).sum) := by
  induction l generalizing x q fl with
  | nil => simpa using hx
  | cons i l ih =>
    obtain ⟨hi, hl⟩ := List.forall_mem_cons.mp h
    rw [List.map_cons, List.foldl_cons, List.map_cons, List.sum_cons, ← add_assoc]
    exact ih hl _ (toRat_xadd r hx hi)

/-- The exact sum of a list that starts with 0 is the sum of the rational numbers of the rest. -/
theorem toRat_xsum_zero_cons (r : Rnd) (h : ∀ i ∈ l, XR.toRat (v i) = some (p i)) :
    XR.toRat (xsum r (.fin false 0 0 false :: l.map v)).1 = some (l.map p).sum := by
  have hzero : XR.toRat (.fin false 0 0 false) = some 0 := by rw [toRat_fin, Nat.cast_zero, mul_zero, zero_mul]
  rw [xsum, toRat_foldl_xadd r h 0 hzero, zero_add]

end Sum

/-- The products of the elements `lo` to `hi` - 1 of a chunk, summed without rounding. -/
theorem toRat_products {x y : Nat → XR} {A B : Nat → ℚ} {lo hi : Nat}
    (h : ∀ i < hi, XR.toRat (x i) = some (A i) ∧ XR.toRat (y i) = some (B i)) :
    XR.toRat (xsum .rne (.fin false 0 0 false :: (upto (hi - lo)).map (fun i => (xmul (x (lo + i)) (y (lo + i))).1))).1
      = some ((upto (hi - lo)).map (fun i => A (lo + i) * B (lo + i))).sum := by
  refine toRat_xsum_zero_cons .rne fun i hi => ?_
  obtain ⟨hx, hy⟩ := h (lo + i) (by have := List.mem_range.mp hi; omega)
  exact toRat_xmul hx hy

/-- Settles O44: the sum of a group is exact, and so are its two scalings and the sum of the groups. -/
theorem chunkSum_exact : Obligations.ChunkSum := by
  intro fa fw G last act sca tile n A B S T helem hscale part
  unfold chunkSum
  split
  · exact toRat_products helem
  · refine toRat_xsum_zero_cons .rne fun g hg => ?_
    obtain ⟨hS, hT⟩ := hscale g (List.mem_range.mp (List.mem_filter.mp hg).1)
    have hgroup : ∀ i < min (64 * g + 64) last, _ := fun i hi => helem i (lt_min_iff.mp hi).2
    exact toRat_xmul (toRat_xmul (toRat_products hgroup) hS) hT

end Sys2Proof.Machine

/-! PROOFS. Rounding a value that a format represents (R92, R96). -/
namespace Sys2Proof.Machine

/-! ## The parts of a code -/

/-- The magnitude of a code, its exponent field above its fraction. -/
def magnitude (F : FFmt) (x : Nat) : Nat := bits x F.fb F.eb * 2 ^ F.fb + bits x 0 F.fb

/-- Sign, exponent and fraction fill a code. -/
theorem fmtWidth_eq (F : FFmt) : F.width = F.eb + F.fb + 1 := by cases F <;> rfl

theorem fmtWidth_sub_one (F : FFmt) : F.width - 1 = F.eb + F.fb := by rw [fmtWidth_eq, Nat.add_sub_cancel]

theorem magnitude_eq_mod (F : FFmt) (x : Nat) : magnitude F x = x % 2 ^ (F.width - 1) := by
  rw [magnitude, bits_zero_eq_mod, bits, Nat.shiftRight_eq_div_pow, fmtWidth_sub_one, Nat.add_comm F.eb, pow_add, Nat.mod_mul]
  ring

/-- A code is its sign bit and its magnitude. -/
theorem signBit_add_magnitude {F : FFmt} {x : Nat} (hx : x < 2 ^ F.width) : signBit F (signOf F x) + magnitude F x = x := by
  have htop : x / 2 ^ (F.width - 1) < 2 := by
    rw [Nat.div_lt_iff_lt_mul (by positivity), ← pow_succ', fmtWidth_sub_one, ← fmtWidth_eq]
    exact hx
  have hsign : signBit F (signOf F x) = x / 2 ^ (F.width - 1) * 2 ^ (F.width - 1) := by
    rw [signBit, signOf, bitAt, Nat.shiftRight_eq_div_pow, Nat.mod_eq_of_lt htop]
    interval_cases x / 2 ^ (F.width - 1) <;> simp
  rw [hsign, magnitude_eq_mod, Nat.div_add_mod']

/-- The magnitude of a code that is no NaN and no infinity is at most the largest finite one. -/
theorem magnitude_le_largest {F : FFmt} {x : Nat} (hnan : isNanCode F x = false) (hinf : isInfCode F x = false) :
    magnitude F x ≤ F.largest := by
  have hE := bits_lt x F.fb F.eb
  have hf := bits_lt x 0 F.fb
  unfold magnitude
  cases F <;>
  · simp [isNanCode, isInfCode, FFmt.eb, FFmt.fb, FFmt.hasInf, FFmt.largest] at hnan hinf hE hf ⊢
    omega

/-- The value of a finite code: its fraction, with the hidden bit unless its exponent field is 0 (R92). -/
theorem fval_of_zero_exponent {F : FFmt} {x : Nat} (hnan : isNanCode F x = false) (hinf : isInfCode F x = false)
    (hE : bits x F.fb F.eb = 0) : fval F x = .fin (signOf F x) (bits x 0 F.fb) (1 - (F.bias : ℤ) - F.fb) false := by
  simp [fval, hnan, hinf, hE]

theorem fval_of_exponent {F : FFmt} {x : Nat} (hnan : isNanCode F x = false) (hinf : isInfCode F x = false)
    (hE : bits x F.fb F.eb ≠ 0) :
    fval F x = .fin (signOf F x) (2 ^ F.fb + bits x 0 F.fb) ((bits x F.fb F.eb : ℤ) - F.bias - F.fb) false := by
  simp [fval, hnan, hinf, hE]

/-! ## Rounding at the value's own unit -/

/-- Rounding to the unit in which a value is given changes nothing. -/
theorem roundAt_self (r : Rnd) (neg : Bool) (m : Nat) (e : ℤ) : roundAt r neg m e e false = (m, false) := by
  simp [roundAt, roundAway]

theorem roundTo_zero (neg : Bool) (e : ℤ) (F : FFmt) (r : Rnd) (sat : Bool) :
    roundTo (.fin neg 0 e false) F r sat = (signBit F neg, 0) := rfl

/-- A value whose unit is the one that its format keeps is given its code, unless that lies beyond the largest finite one. -/
theorem roundTo_of_unit {F : FFmt} {m c : Nat} {e : ℤ} (hm : m ≠ 0) (hlt : m < 2 ^ (F.fb + 1))
    (hunit : max (e + m.log2) (1 - (F.bias : ℤ)) - F.fb = e)
    (hcode : (c : ℤ) = if m < 2 ^ F.fb then (m : ℤ) else (e + F.fb + F.bias) * 2 ^ F.fb + (m - 2 ^ F.fb : Nat))
    (hle : c ≤ F.largest) (neg : Bool) (r : Rnd) (sat : Bool) : roundTo (.fin neg m e false) F r sat = (signBit F neg + c, 0) := by
  simp only [roundTo, hunit, roundAt_self, hm, hlt.ne, if_false, Bool.and_true, Bool.false_and, decide_false, Bool.not_false,
    Bool.false_eq_true, ← hcode, Int.toNat_natCast]
  rw [if_neg (by omega)]
  rfl

/-- A value without the hidden bit lies in the unit of the smallest exponent. -/
theorem unit_of_subnormal (F : FFmt) {m : Nat} (hm : m ≠ 0) (hlt : m < 2 ^ F.fb) :
    max (1 - (F.bias : ℤ) - F.fb + m.log2) (1 - (F.bias : ℤ)) - F.fb = 1 - (F.bias : ℤ) - F.fb := by
  have hlog : m.log2 < F.fb := (Nat.log2_lt hm).mpr hlt
  omega

/-- A value with the hidden bit lies in the unit of its exponent field. -/
theorem unit_of_normal (F : FFmt) {E f : Nat} (hE : E ≠ 0) (hf : f < 2 ^ F.fb) :
    max ((E : ℤ) - F.bias - F.fb + (2 ^ F.fb + f).log2) (1 - (F.bias : ℤ)) - F.fb = (E : ℤ) - F.bias - F.fb := by
  have hlog : (2 ^ F.fb + f).log2 = F.fb :=
    (Nat.log2_eq_iff (by positivity)).mpr ⟨Nat.le_add_right .., by rw [pow_succ]; omega⟩
  omega

/-- Settles O16: the value of a finite code is given in the unit that its format keeps there, and its code is the magnitude. -/
theorem roundRepresentable : Obligations.RoundRepresentable := by
  intro F r sat x hx hnan hinf
  have hle := magnitude_le_largest hnan hinf
  have hf := bits_lt x 0 F.fb
  suffices hround : roundTo (fval F x) F r sat = (signBit F (signOf F x) + magnitude F x, 0) by
    rwa [signBit_add_magnitude hx] at hround
  by_cases hE : bits x F.fb F.eb = 0
  · rw [fval_of_zero_exponent hnan hinf hE]
    by_cases hm : bits x 0 F.fb = 0
    · rw [hm, roundTo_zero, magnitude, hE, hm, Nat.zero_mul, Nat.add_zero]
    · refine roundTo_of_unit hm (hf.trans (Nat.pow_lt_pow_succ one_lt_two)) (unit_of_subnormal F hm hf) ?_ hle ..
      rw [if_pos hf, magnitude, hE, Nat.zero_mul, Nat.zero_add]
  · rw [fval_of_exponent hnan hinf hE]
    refine roundTo_of_unit (by positivity) (by rw [pow_succ]; omega) (unit_of_normal F hE hf) ?_ hle ..
    rw [if_neg (by omega), magnitude, Nat.add_sub_cancel_left]
    push_cast
    ring

end Sys2Proof.Machine

/-! PROOFS. The results of the floating-point entries (R96, R101, R172-R175). -/
namespace Sys2Proof.Machine

/-- The flags of a product that a NaN addend drops (R173) are raised with those of the operands. -/
theorem finish_product_flags (f : FpF) (codes : List Nat) (p t : XR × Nat) (nanD : Bool) :
    Sys2Proof.finish t (fmtOf f.shape) f.rnd f.sat (if nanD then snanFlag (fmtOf f.shape) codes else p.2 ||| snanFlag (fmtOf f.shape) codes)
      = rounded f codes (t.1, t.2 ||| if nanD then 0 else p.2) := by
  cases nanD
  · simp [Sys2Proof.finish, rounded, snanFlag, Nat.or_assoc]
  · simp [Sys2Proof.finish, rounded, snanFlag]

section Rows
variable {d a b : Opd} {r : FltRow}

theorem fltRow_fma_op {f : FpF} (h : fltRow (.fma f d a b) = some r) : r.op = fopFma (fmtOf f.shape) f.rnd f.sat := by
  cases h
  funext x y z
  exact (finish_product_flags f [x, y, z] _ _ _).symm

theorem fltRow_fnma_op {f : FpF} (h : fltRow (.fnma f d a b) = some r) : r.op = fopFnma (fmtOf f.shape) f.rnd f.sat := by
  cases h
  funext x y z
  exact (finish_product_flags f [x, y, z] _ _ _).symm

/-- The row of FSGN gives its sign bit by cases of the operation; `fopSgn` gives the whole lane so (R175). -/
theorem fltRow_fsgn_op {f : FsgnF} (h : fltRow (.fsgn f d a b) = some r) : r.op = fopSgn (fmtOf f.shape) f.op := by
  cases h
  funext x y z
  cases f.op <;> simp [fopSgn, snanFlag, signBit, signOf, bitAt_eq_testBit]

end Rows

/-- A row of the floating-point tables is the entry of `exec` with the row's own lane. -/
theorem exec_eq_of_fltRow {i : Instr} {r : FltRow} (h : fltRow i = some r) (s : State) :
    exec i s = lift (fltEntry r.fmt r.xs r.readD r.carry r.d r.a r.b r.op) s := by
  cases i with
  | fma f d a b =>
    have hop := fltRow_fma_op h
    cases h
    exact congrArg (fun op => lift (fltEntry _ _ _ _ _ _ _ op) s) hop.symm
  | fnma f d a b =>
    have hop := fltRow_fnma_op h
    cases h
    exact congrArg (fun op => lift (fltEntry _ _ _ _ _ _ _ op) s) hop.symm
  | fsgn f d a b =>
    have hop := fltRow_fsgn_op h
    cases h
    exact congrArg (fun op => lift (fltEntry _ _ _ _ _ _ _ op) s) hop.symm
  | fadd | fsub | fmul | fmin | fmax | fdiv | fsqrt | frcp | frsq | fexp2 | flog2 =>
    cases h
    rfl
  | _ => cases h

/-- Settles O14: an entry that starts and passes the scale check gives its lane operation's result, which is that of its row. -/
theorem floatResults : Obligations.FloatResults := fun _ s _ hrow hst hsc =>
  (exec_eq_of_fltRow hrow s).trans (fltEntry_starts s _ _ _ _ _ _ _ _ hst hsc)

end Sys2Proof.Machine

/-! PROOFS. What NOP, MOV, SEND, EOS and POISON emit (R124-R126, R129, R133). -/
namespace Sys2Proof.Machine

theorem firingBank_readDone (m : Mach) (os ds : List Opd) : firingBank (readDone m os ds) = firingBank m := by
  rw [firingBank, firingBank, readDone_actor]

section
variable {s : State} {d a b : Opd}

theorem exec_mov (f : BitF) (h : starts s.m [(.whole, a)] (.opd d) = true) :
    let k := if f.bit then headKind s.m a else (false, false)
    exec (.mov f d a) s = .next { s with
      m := putTok (readDone s.m [a] [d]) (.opd d) ⟨srcVal s.m .whole a, k.1, k.2, firingBank s.m⟩ } := by
  refine next_of_lift (movG f.bit d a) rfl ?_
  rw [movG, fireK_starts _ _ _ _ _ h]
  rfl

/-- SEND takes the tag from its operand B (R126). -/
theorem exec_send (h : starts s.m [(.whole, a), (.whole, b)] (.opd d) = true) :
    let n := payOf s.m .whole b
    exec (.send d a b) s = .next { s with
      m := putTok (readDone s.m [a, b] [d]) (.opd d)
        ⟨srcVal s.m .whole a, bitAt n 0, bitAt n 1, if bitAt n 2 then bits n 3 2 else firingBank s.m⟩ } := by
  refine next_of_lift (sendG d a b) rfl ?_
  rw [sendG, fireK_starts _ _ _ _ _ h]
  rfl

theorem exec_poison (f : PoisF) (h : starts s.m [(.whole, a)] (.opd d) = true) :
    exec (.poison f d a) s = .next (wroteV s [a] (.opd d)
      (poison (readDone s.m [a] [d]) (readDone s.m [a] [d]).cur f.cause.val (bits (payOf s.m .whole a) 0 81))) :=
  next_of_lift (poisonG f.cause.val d a) rfl (fire_starts _ _ _ _ h)

end

theorem bits_ctx (n : Nat) : bits n 3 2 = n / 8 % 4 := by
  rw [bits, Nat.shiftRight_eq_div_pow]
  rfl

/-- Settles O20: each entry starts by `fireK_starts`; the model forms the tag and the poison for the actor before its sources are
read, which is the actor after (`readDone_actor`). -/
theorem tokenResults : Obligations.TokenResults := by
  refine ⟨fun _ => rfl, fun s f d a h => ?_, fun s d a b h => ?_, fun _ _ => rfl, fun s f d a h => ?_⟩
  · intro k m
    rw [exec_mov f h, firingBank_readDone]
  · intro n m k
    rw [exec_send h]
    simp only [k, m, n, firingBank_readDone, bitAt_eq_testBit, bits_ctx]
  · rw [exec_poison f h, readDone_actor, bits_zero_eq_mod]

end Sys2Proof.Machine

/-! PROOFS. What a predicate reads after PSET and PLOG (R130, R131). -/
namespace Sys2Proof.Machine

/-- A one-bit field of a number between what stands above it and what stands below it. -/
theorem setBits_one_eq (x n v : Nat) : setBits x n 1 v = 2 ^ n * (2 * (x / 2 ^ n / 2) + v % 2) + x % 2 ^ n := by
  have hx : 2 ^ n * (x / 2 ^ n) + x % 2 ^ n = x := Nat.div_add_mod ..
  have hq : 2 ^ n * (x / 2 ^ n) = 2 ^ n * (2 * (x / 2 ^ n / 2)) + x / 2 ^ n % 2 * 2 ^ n := by
    rw [Nat.mul_comm (x / 2 ^ n % 2), ← Nat.mul_add, Nat.div_add_mod]
  rw [setBits, bits, Nat.shiftRight_eq_div_pow, pow_one, Nat.mul_add, Nat.mul_comm _ (v % 2)]
  omega

theorem testBit_setBits_one (x n v i : Nat) : (setBits x n 1 v).testBit i = if i = n then v.testBit 0 else x.testBit i := by
  rw [setBits_one_eq, Nat.testBit_two_pow_mul_add _ (Nat.mod_lt _ (Nat.two_pow_pos n))]
  rcases Nat.lt_trichotomy i n with hi | rfl | hi
  · rw [if_pos hi, if_neg hi.ne, Nat.testBit_mod_two_pow, decide_eq_true hi, Bool.true_and]
  · rw [if_neg (lt_irrefl _), if_pos rfl, Nat.sub_self, Nat.testBit_zero, Nat.testBit_zero, Nat.mul_add_mod, Nat.mod_mod]
  · obtain ⟨j, rfl⟩ : ∃ j, i = n + (j + 1) := ⟨i - n - 1, by omega⟩
    have habove : (2 * (x / 2 ^ n / 2) + v % 2) / 2 = x / 2 ^ n / 2 := by omega
    rw [if_neg (by omega), if_neg (by omega), Nat.add_sub_cancel_left, Nat.testBit_succ, habove, ← Nat.testBit_succ,
      Nat.testBit_div_two_pow, Nat.add_comm]

/-- A bit of a masked write of eight bits is the value's where the mask selects it, and stays otherwise. -/
theorem testBit_maskedWrite {mask i : Nat} (p v : Nat) (hm : mask < 256) (hi : i < 8) :
    ((p &&& (255 - mask)) ||| (v &&& mask)).testBit i = if mask.testBit i then v.testBit i else p.testBit i := by
  have hkept : (255 - mask).testBit i = !mask.testBit i := by
    have h := Nat.testBit_two_pow_sub_succ (n := 8) hm i
    rwa [decide_eq_true hi, Bool.true_and, show 2 ^ 8 - (mask + 1) = 255 - mask by omega] at h
  rw [Nat.testBit_or, Nat.testBit_and, Nat.testBit_and, hkept]
  cases mask.testBit i <;> simp

theorem testBit_zero_toNat (x : Bool) : x.toNat.testBit 0 = x := by
  cases x <;> rfl

theorem bitAt_pePred_setPePred (m : Mach) (core pe ctx v : Nat) {i : Nat} (hi : i < 8) :
    bitAt (pePred (setPePred m core pe ctx v) core pe ctx) i = v.testBit i := by
  rw [bitAt_eq_testBit, pePred, setPePred, tget_tput_same, BitVec.toNat_ofNat, Nat.testBit_mod_two_pow, decide_eq_true hi,
    Bool.true_and]

section
variable {s : State} {core pe frame slot bank : Nat} {keep : Bool} (hc : s.m.cur = .pe core pe frame slot bank keep)
include hc

theorem exec_pset (a b : Fin 256) : let p := pePred s.m core pe (frame * 4 + bank)
    exec (.pset a b) s = .next { s with
      m := setPePred s.m core pe (frame * 4 + bank) ((p &&& (255 - a.val)) ||| (b.val &&& a.val)) } := by
  intro p
  refine next_of_lift (psetG a.val b.val) rfl ?_
  rw [psetG, hc]

theorem exec_plog (f : PlogF) (d a b : Fin 8) : let p := pePred s.m core pe (frame * 4 + bank)
    exec (.plog f d a b) s = .next { s with
      m := setPePred s.m core pe (frame * 4 + bank) (setBits p d.val 1 (logOp f.op (bitAt p a.val) (bitAt p b.val)).toNat) } := by
  intro p
  refine next_of_lift (plogG f.op d.val a.val b.val) rfl ?_
  simp only [plogG, setPred, getPred, hc, Bool.toNat, Bool.cond_eq_ite, p]

theorem pset_predicates (a b : Fin 256) : let p := pePred s.m core pe (frame * 4 + bank)
    ∃ t, exec (.pset a b) s = .next t ∧ t.m.mem = s.m.mem ∧ ∀ i < 8,
    bitAt (pePred t.m core pe (frame * 4 + bank)) i
      = if bitAt a.val i then bitAt b.val i else bitAt p i := by
  refine ⟨_, exec_pset hc a b, rfl, fun i hi => ?_⟩
  simp only [bitAt_pePred_setPePred _ _ _ _ _ hi, testBit_maskedWrite _ _ a.isLt hi, bitAt_eq_testBit]

theorem plog_predicates (f : PlogF) (d a b : Fin 8) : let p := pePred s.m core pe (frame * 4 + bank)
    ∃ t, exec (.plog f d a b) s = .next t ∧ t.m.mem = s.m.mem ∧ ∀ i < 8,
    bitAt (pePred t.m core pe (frame * 4 + bank)) i
      = if i = d.val then logOp f.op (bitAt p a.val) (bitAt p b.val) else bitAt p i := by
  intro p
  refine ⟨_, exec_plog hc f d a b, rfl, fun i hi => ?_⟩
  rw [bitAt_pePred_setPePred _ _ _ _ _ hi, testBit_setBits_one, testBit_zero_toNat, ← bitAt_eq_testBit]

end

end Sys2Proof.Machine

/-! PROOFS. The channels: TAGR, CHQ and DEQ, and the arrival of a token (R113, R117, R127, R128, R134). -/
namespace Sys2Proof.Machine

/-! ## One channel -/

/-- What `ChansOnly` compares is the same in `m` and `t`, and so is every channel but `k`. -/
structure OnlyChan (m t : Mach) (k : Nat) : Prop where
  rest : ChansOnly m t
  others : ∀ j, j ≠ k → chanOf t j = chanOf m j

theorem OnlyChan.refl (m : Mach) (k : Nat) : OnlyChan m m k := ⟨.refl m, fun _ _ => rfl⟩

theorem OnlyChan.trans {a b c : Mach} {k : Nat} (h : OnlyChan a b k) (g : OnlyChan b c k) : OnlyChan a c k :=
  ⟨h.rest.trans g.rest, fun j hj => (g.others j hj).trans (h.others j hj)⟩

theorem OnlyChan.of_setChan (m : Mach) (k : Nat) (c : Chan) : OnlyChan m (setChan m k c) k :=
  ⟨⟨rfl, rfl, rfl, rfl, rfl, rfl, rfl, rfl, rfl, rfl, rfl, rfl, rfl, rfl⟩, fun j hj => (chanOf_setChan m k j c).trans (if_neg hj)⟩

/-- Without ring tokens there is nothing to move into the FIFO (R117). -/
theorem refill_emptyRing {c : Chan} (h : c.ring = []) (n : Nat) : refill n c = c := by
  cases n with
  | zero => rfl
  | succ n => simp only [refill, h]

/-- Without a node there is nothing to gather or to emit (R302). -/
theorem settleC_noNode {c : Chan} (hn : c.node = 0) (he : c.emit = []) : settleC c = c := by
  rw [settleC, settle, he]
  exact if_pos hn

/-- Nothing moves up behind the head of an input without ring tokens and without a node. -/
theorem dequeueC_plain {c : Chan} (hr : c.ring = []) (hn : c.node = 0) (he : c.emit = []) :
    dequeueC c = { c with fifo := c.fifo.tail } := by
  have hrefill := refill_emptyRing (c := { c with fifo := c.fifo.tail }) hr
  have hsettle := settleC_noNode (c := { c with fifo := c.fifo.tail }) hn he
  rw [dequeueC, hrefill, hsettle]

/-- DEQ takes healthy tokens from the head of such an input one by one (R127). -/
theorem deqGo_plain {core pe ch : Nat} (n : Nat) {m : Mach} {c : Chan} (hc : chanOf m (chanKey core pe ch) = c) (hr : c.ring = [])
    (hn : c.node = 0) (he : c.emit = []) (hlen : n ≤ c.fifo.length) (hok : (c.fifo.take n).all (fun t => !t.val.poison) = true) :
    chanOf (deqGo core pe ch n m) (chanKey core pe ch) = { c with fifo := c.fifo.drop n }
      ∧ OnlyChan m (deqGo core pe ch n m) (chanKey core pe ch) := by
  induction n generalizing m c with
  | zero => exact ⟨hc, .refl m _⟩
  | succ n ih =>
    obtain ⟨x, l, hfifo⟩ := List.exists_cons_of_length_pos (Nat.zero_lt_of_lt hlen)
    rw [hfifo, List.take_succ_cons, List.all_cons, Bool.and_eq_true, Bool.not_eq_true'] at hok
    obtain ⟨hx, hl⟩ := hok
    have hhead : headTok m (chanKey core pe ch) = some x := by
      rw [headTok, hc, hfifo, List.head?_cons]
    have hdeq : dequeue m (chanKey core pe ch) = setChan m (chanKey core pe ch) { c with fifo := l } := by
      rw [dequeue, hc, dequeueC_plain hr hn he, hfifo, List.tail_cons]
    have hgo : deqGo core pe ch (n + 1) m = deqGo core pe ch n (setChan m (chanKey core pe ch) { c with fifo := l }) := by
      simp only [deqGo, hhead, hdeq, hx, Bool.false_eq_true, if_false]
    obtain ⟨hchan, honly⟩ := ih (chanOf_setChan_same m _ { c with fifo := l }) hr hn he
      (by rw [hfifo, List.length_cons] at hlen; exact Nat.le_of_succ_le_succ hlen) hl
    rw [hgo, hfifo, List.drop_succ_cons]
    exact ⟨hchan, (OnlyChan.of_setChan m _ _).trans honly⟩

/-! ## TAGR, CHQ and DEQ -/

section
variable {s : State} {core pe frame slot bank : Nat} {keep : Bool} (hc : s.m.cur = .pe core pe frame slot bank keep)
include hc

theorem exec_tagr (d : Opd) {n : Fin 8} {t : Token} (h : headTok s.m (chanKey core pe n.val) = some t) :
    exec (.tagr d (.inC n)) s = .next { s with m := putRes s.m (.opd d) (Val.ofNat (tagOf t)) } := by
  refine next_of_lift (tagrG d (.inC n)) rfl ?_
  simp only [tagrG, hc, headOf, h, Option.getD_some]

theorem exec_chq (d : Opd) (a : Fin 16) :
    exec (.chq d a) s = .next { s with m := putRes s.m (.opd d) (Val.ofNat (chqWord s.m core pe a.val)) } := by
  refine next_of_lift (chqG d a.val) rfl ?_
  simp only [chqG, hc]

theorem exec_deq (f : DeqF) (ch : Fin 8) :
    exec (.deq f (.inC ch)) s = .next { s with m := deqGo core pe ch.val f.n.val s.m } := by
  refine next_of_lift (deqG f.n.val (.inC ch)) rfl ?_
  simp only [deqG, hc]

end

theorem chqWord_input (m : Mach) (core pe : Nat) {ch : Nat} (h : ch < 8) : let c := chanOf m (chanKey core pe ch)
    chqWord m core pe ch = min 20 c.fifo.length + (if ringCap c = 0 then 0 else 64) + (if bindDL c.binding then 128 else 0)
      + c.ring.length % 2 ^ 32 * 2 ^ 32 := by
  intro c
  have hword : chqWord m core pe ch = c.ring.length % 2 ^ 32 * 2 ^ 32 + (if bindDL c.binding then 128 else 0)
      + (if ringCap c = 0 then 0 else 64) + min 20 c.fifo.length := if_pos h
  rw [hword]
  ring

theorem chqWord_output (m : Mach) (core pe : Nat) {ch : Nat} (h : 8 ≤ ch) :
    chqWord m core pe ch = (creditOf m core pe (ch - 8)).elim 32 (min 20) := by
  rw [chqWord, if_neg (Nat.not_lt.mpr h)]
  cases creditOf m core pe (ch - 8) <;> rfl

/-- Settles O21: an equation of `exec` for each entry; the predicates bit by bit, and DEQ token by token (`deqGo_plain`). -/
theorem tagsAndPredicates : Obligations.TagsAndPredicates := by
  refine ⟨fun s core pe frame slot bank keep hc _ => ⟨fun d n t => exec_tagr hc d, fun d a ha => ?_, fun d a ha => ?_,
    pset_predicates hc, fun f d a b => ?_⟩, fun s core pe frame slot bank keep f ch hc => ?_⟩
  · intro c word
    rw [exec_chq hc, chqWord_input _ _ _ ha]
  · intro word
    have hword : word = (creditOf s.m core pe (a.val - 8)).elim 32 (min 20) := by
      unfold word
      cases creditOf s.m core pe (a.val - 8) <;> rfl
    rw [exec_chq hc, chqWord_output _ _ _ ha, hword]
  · obtain ⟨t, ht, hmem, hbits⟩ := plog_predicates hc f d a b
    refine ⟨t, ht, hmem, fun i hi => (hbits i hi).trans ?_⟩
    cases f.op <;> rfl
  · intro c hr hn he hlen hok
    obtain ⟨hchan, honly⟩ := deqGo_plain (m := s.m) f.n.val rfl hr hn he hlen hok
    exact ⟨_, exec_deq hc f ch, congrArg Chan.fifo hchan, honly.rest.mem, honly.others⟩

/-! ## A token arrives -/

theorem plainRoom_pos {c : Chan} (h : c.fifo.length < fifoCap c) : 0 < plainRoom c := by
  unfold plainRoom
  omega

/-- An input without a node accepts a token while its FIFO has a place, unless a new block size is to take effect (R301). -/
theorem chanAccepts_fifo {c : Chan} (hp : c.pendNode = none) (hn : c.node = 0) (h : c.fifo.length < fifoCap c) :
    chanAccepts c = true := by
  simp [chanAccepts, hp, hn, plainRoom_pos h]

theorem acceptTok_fifo {c : Chan} (hn : c.node = 0) (hr : c.ring = []) (h : c.fifo.length < fifoCap c) (t : Token) :
    acceptTok c t = { c with fifo := c.fifo ++ [t] } := by
  simp [acceptTok, pushTok, hn, hr, h]

theorem ringSync_nothing {m : Mach} {k : Nat} (h : (chanOf m k).unw = 0) : ringSync m k = m := by
  simp only [ringSync, h, if_true]

/-- The first token of a PE output that an input accepts leaves the fabric for the end of the FIFO. -/
theorem tokenArrivalG_enters {m : Mach} {n : Nat} {t : Transit} (ht : m.fab.transit[n]? = some t) (hd : t.dst < 100000)
    (hs : t.src < 200000) (hfirst : (m.fab.transit.take n).all (fun x => x.src != t.src || x.dst != t.dst) = true)
    (hp : (chanOf m t.dst).pendNode = none) (hn : (chanOf m t.dst).node = 0) (hr : (chanOf m t.dst).ring = [])
    (hu : (chanOf m t.dst).unw = 0) (hroom : (chanOf m t.dst).fifo.length < fifoCap (chanOf m t.dst)) :
    tokenArrivalG n m = setChan { m with fab.transit := m.fab.transit.eraseIdx n } t.dst
      { chanOf m t.dst with fifo := (chanOf m t.dst).fifo ++ [t.tok] } := by
  have hnone : (m.fab.transit.take n).any (fun x => x.src == t.src && x.dst == t.dst) = false := by
    rw [List.any_eq_not_all_not, Bool.not_eq_false']
    simpa only [Bool.not_and, bne] using hfirst
  simp only [tokenArrivalG, ht, Nat.not_le.mpr hd, hnone, chanAccepts_fifo hp hn hroom, hs, decide_true, Bool.true_or, Bool.not_false,
    Bool.and_true, if_false, if_true, acceptTok_fifo hn hr hroom]
  exact ringSync_nothing (by rw [chanOf_setChan_same]; exact hu)

theorem exec_tokenArrival_pe {s : State} {n : Nat} {t : Transit} (ht : s.m.fab.transit[n]? = some t) (hs : t.src < 200000) :
    exec (.tokenArrival n) s = .next { s with m := tokenArrivalG n s.m } := by
  have hany : tokenArrivalAny n s.m = tokenArrivalG n s.m := by
    have hrouted : ¬ 400000 ≤ t.src := by omega
    simp only [tokenArrivalAny, ht, hrouted, decide_false, Bool.false_and, Bool.false_eq_true, if_false]
  refine next_of_lift (tokenArrivalAny n) ?_ hany
  have htile : ¬ (200000 ≤ t.src ∧ t.src < 200336) := by omega
  show execTokenArrival n s = _
  simp only [execTokenArrival, ht, htile, if_false]

/-- Settles O25: the input takes the token (`tokenArrivalG_enters`), and nothing is to be written to a spill ring. -/
theorem tokenArrives : Obligations.TokenArrives := by
  intro s n t ht hd hs hfirst c hp hn hr hu hroom
  refine ⟨_, exec_tokenArrival_pe ht hs, ?_⟩
  rw [tokenArrivalG_enters ht hd hs hfirst hp hn hr hu hroom]
  exact ⟨chanOf_setChan_same .., rfl, rfl, rfl⟩

end Sys2Proof.Machine

/-! PROOFS. GETC and SETC over the control registers (R76, R140, R153, R414-R416). -/
namespace Sys2Proof.Machine

/-! ## The instructions -/

section
variable {s : State} {u w : Nat} {a b d : Opd}

theorem exec_getc_reads {sel : Fin 256} {v : Nat} (h : sStarts s.m u w [b] [d] = true)
    (hv : getcVal (readDone s.m [b] [d]) u sel.val (payOf s.m .whole b % 2 ^ 13) = .ok v) :
    exec (.getc d sel b) s = .next { s with m := putS (readDone s.m [b] [d]) u d v } := by
  rw [← bits_zero_eq_mod] at hv
  refine exec_sFire_eq (i := .getc d sel b) rfl h ?_
  simp only [List.map_cons, List.getElem?_cons_zero, Option.getD_some, hv]

theorem exec_getc_traps {sel : Fin 256} {c : Nat} (h : sStarts s.m u w [b] [d] = true)
    (hc : getcVal (readDone s.m [b] [d]) u sel.val (payOf s.m .whole b % 2 ^ 13) = .error c) :
    exec (.getc d sel b) s = .next { s with m := trapForm (readDone s.m [b] [d]) u w c 0 } := by
  rw [← bits_zero_eq_mod] at hc
  refine exec_sFire_eq (i := .getc d sel b) rfl h ?_
  simp only [List.map_cons, List.getElem?_cons_zero, Option.getD_some, hc]

section
variable {sel : Fin 256} (h : sStarts s.m u w [a, b] [] = true)
include h

theorem exec_setc_readOnly (hro : roSelector sel.val = true ∧ (isShepherd u = true ∨ sel.val < 0x20)) :
    exec (.setc sel a b) s = .next { s with m := trapForm (readDone s.m [a, b] []) u w 0x02 0 } := by
  refine exec_sFire_eq (i := .setc sel a b) rfl h (if_pos ?_)
  simpa only [Bool.and_eq_true, Bool.or_eq_true, decide_eq_true_eq] using hro

section
variable (hro : ¬(roSelector sel.val = true ∧ (isShepherd u = true ∨ sel.val < 0x20)))
include hro

theorem exec_setc_writes {v : Nat} (hv : getcVal (readDone s.m [a, b] []) u sel.val (payOf s.m .whole b % 2 ^ 13) = .ok v) :
    exec (.setc sel a b) s = .next { s with
      m := setcEff (readDone s.m [a, b] []) u sel.val (payOf s.m .whole b % 2 ^ 13) (payOf s.m .whole a) } := by
  rw [← bits_zero_eq_mod] at hv ⊢
  refine exec_sFire_eq (i := .setc sel a b) rfl h ((if_neg ?_).trans ?_)
  · simpa only [Bool.and_eq_true, Bool.or_eq_true, decide_eq_true_eq] using hro
  · simp only [List.map_cons, List.getElem?_cons_succ, List.getElem?_cons_zero, Option.getD_some, hv]

theorem exec_setc_traps {c : Nat} (hc : getcVal (readDone s.m [a, b] []) u sel.val (payOf s.m .whole b % 2 ^ 13) = .error c) :
    exec (.setc sel a b) s = .next { s with m := trapForm (readDone s.m [a, b] []) u w c 0 } := by
  rw [← bits_zero_eq_mod] at hc
  refine exec_sFire_eq (i := .setc sel a b) rfl h ((if_neg ?_).trans ?_)
  · simpa only [Bool.and_eq_true, Bool.or_eq_true, decide_eq_true_eq] using hro
  · simp only [List.map_cons, List.getElem?_cons_succ, List.getElem?_cons_zero, Option.getD_some, hc]

end

end

end

/-! ## The word as it is decoded (R76, R87) -/

/-- The codes of an S-form register, of 0x2A and of an immediate are codes of operands. -/
theorem ofCode_of_sImmOrZ {loader storer : Bool} {c : Nat} (h : Cls.okS loader storer .sImmOrZ c = true) :
    ∃ o, Opd.ofCode c = some o := by
  simp only [Cls.okS, isM, isZero, isImm, Bool.or_eq_true, Bool.and_eq_true, decide_eq_true_eq, beq_iff_eq] at h
  rw [← Option.isSome_iff_exists]
  unfold Opd.ofCode
  obtain (hr | hz) | ⟨hlo, hhi⟩ := h
  · rw [if_pos hr]
    rfl
  · rw [hz]
    rfl
  · repeat rw [if_neg (by omega)]
    rw [if_pos hhi]
    rfl

theorem okS_sImmOrZ_of_regS {loader storer : Bool} {c : Nat} (h : Cls.okS loader storer .regS c = true) :
    Cls.okS loader storer .sImmOrZ c = true := by
  simp only [Cls.okS] at h ⊢
  rw [h]
  rfl

theorem okS_sImmOrZ_of_sImm {loader storer : Bool} {c : Nat} (h : Cls.okS loader storer .sImm c = true) :
    Cls.okS loader storer .sImmOrZ c = true := by
  simp only [Cls.okS, Bool.or_eq_true] at h ⊢
  exact h.imp_left .inl

theorem decodeOp_getc {d a b m : Nat} {D B : Opd} (hd : Opd.ofCode d = some D) (ha : a < 256) (hb : Opd.ofCode b = some B) :
    decodeOp ⟨0xD7, d, a, b, m⟩ = if m = 0 ∧ selectorOk a = true then .ok (.getc D (Fin.ofNat 256 a) B) else .error .modifier := by
  by_cases hm : m = 0
  · simp [decodeOp, decodeClassD, needOpd, need, needFin, needM0, instrOk, hd, ha, hb, hm, bind, Except.bind, Nat.mod_eq_of_lt ha]
  · simp [decodeOp, decodeClassD, needOpd, need, needFin, needM0, hd, ha, hb, hm, bind, Except.bind]

theorem decodeOp_setc {d a b m : Nat} {A B : Opd} (hd : d < 256) (ha : Opd.ofCode a = some A) (hb : Opd.ofCode b = some B) :
    decodeOp ⟨0xD8, d, a, b, m⟩ = if m = 0 ∧ selectorOk d = true then .ok (.setc (Fin.ofNat 256 d) A B) else .error .modifier := by
  by_cases hm : m = 0
  · simp [decodeOp, decodeClassD, needOpd, need, needFin, needM0, instrOk, hd, ha, hb, hm, bind, Except.bind, Nat.mod_eq_of_lt hd]
  · simp [decodeOp, decodeClassD, needOpd, need, needFin, needM0, hd, ha, hb, hm, bind, Except.bind]

/-- A word that the unit may run traps with 0x02 where its modifier is a reserved one, for every unit or for this kind. -/
theorem fateSeq_reserved {k : UKind} {loader storer seq : Bool} {w : OpWord} {r : OpRow} (hr : opRow w.opc = some r)
    (hp : r.privileged = false) (hk : r.runs k = true) (ho : operandsOk k loader storer w r = true)
    (hd : decodeOp w = .error .modifier ∨ (∃ i, decodeOp w = .ok i) ∧ unitModOk k w = false) :
    fateSeq k loader storer seq w = .error 0x02 := by
  obtain hd | ⟨⟨i, hd⟩, hu⟩ := hd
  · simp [fateSeq, hr, hp, hk, ho, hd]
  · simp [fateSeq, hr, hp, hk, ho, hd, hu]

theorem sForm_operandsOk {k : UKind} {loader storer : Bool} {w : OpWord} {r : OpRow} (hk : k = .graph ∨ k = .shepherd)
    (h : operandsOk k loader storer w r = true) :
    r.d.okS loader storer w.d = true ∧ r.a.okS loader storer w.a = true ∧ r.b.okS loader storer w.b = true := by
  obtain rfl | rfl := hk
  · simpa [operandsOk, and_assoc] using (Bool.and_eq_true_iff.mp h).2
  · simpa [operandsOk, and_assoc] using (Bool.and_eq_true_iff.mp h).2

theorem fateSeq_getc_reserved {k : UKind} {loader storer seq : Bool} {w : OpWord} {r : OpRow} (hr : opRow w.opc = some r)
    (hk : k = .graph ∨ k = .shepherd) (ha : w.a < 256) (ho : operandsOk k loader storer w r = true) (hopc : w.opc = 0xD7)
    (hs : selectorOk w.a = false) : fateSeq k loader storer seq w = .error 0x02 := by
  obtain ⟨opc, d, a, b, m⟩ := w
  obtain rfl : opc = 0xD7 := hopc
  obtain rfl : r = ⟨0xD7, false, true, true, false, false, .regS, .lit, .sImmOrZ, false, false⟩ := by
    cases hr
    rfl
  obtain ⟨okD, -, okB⟩ := sForm_operandsOk hk ho
  obtain ⟨D, hD⟩ := ofCode_of_sImmOrZ (okS_sImmOrZ_of_regS okD)
  obtain ⟨B, hB⟩ := ofCode_of_sImmOrZ okB
  refine fateSeq_reserved hr rfl (by obtain rfl | rfl := hk <;> rfl) ho (.inl ?_)
  rw [decodeOp_getc hD ha hB, if_neg (fun h => Bool.false_ne_true (hs.symm.trans h.2))]

theorem fateSeq_setc_reserved {k : UKind} {loader storer seq : Bool} {w : OpWord} {r : OpRow} (hr : opRow w.opc = some r)
    (hk : k = .graph ∨ k = .shepherd) (hd : w.d < 256) (ho : operandsOk k loader storer w r = true) (hopc : w.opc = 0xD8)
    (hs : selectorOk w.d = false ∨ roSelector w.d = true ∧ (k = .shepherd ∨ w.d < 0x20)) :
    fateSeq k loader storer seq w = .error 0x02 := by
  obtain ⟨opc, d, a, b, m⟩ := w
  obtain rfl : opc = 0xD8 := hopc
  obtain rfl : r = ⟨0xD8, false, true, true, false, false, .lit, .sImm, .sImmOrZ, false, false⟩ := by
    cases hr
    rfl
  obtain ⟨-, okA, okB⟩ := sForm_operandsOk hk ho
  obtain ⟨A, hA⟩ := ofCode_of_sImmOrZ (okS_sImmOrZ_of_sImm okA)
  obtain ⟨B, hB⟩ := ofCode_of_sImmOrZ okB
  refine fateSeq_reserved hr rfl (by obtain rfl | rfl := hk <;> rfl) ho ?_
  rw [decodeOp_setc hd hA hB]
  by_cases hok : m = 0 ∧ selectorOk d = true
  · obtain ⟨hro, hunit⟩ : roSelector d = true ∧ (k = .shepherd ∨ d < 0x20) :=
      hs.resolve_left (fun h => Bool.false_ne_true (h.symm.trans hok.2))
    refine .inr ⟨⟨_, if_pos hok⟩, ?_⟩
    obtain rfl | rfl := hk
    · have hlow : d < 0x20 := hunit.resolve_left nofun
      simp [unitModOk, hro, hlow]
    · simp [unitModOk, hro]
  · exact .inl (if_neg hok)

/-! ## The selectors that trap (R153, R414) -/

theorem getcVal_reserved (m : Mach) (u : Nat) {sel : Nat} (ix : Nat) (h : selectorOk sel = false) :
    getcVal m u sel ix = .error 0x02 := by
  have hout : ¬(0x20 ≤ sel ∧ sel ≤ 0x2F ∧ sel ≠ 0x27 ∧ (!isShepherd u) = true) := by
    rintro ⟨hlo, hhi, hne, -⟩
    simp [selectorOk, hlo, hhi, hne] at h
  simp only [getcVal, if_neg hout]
  split
  any_goals cases h -- a selector with a word of its own is not reserved
  rfl

theorem getcVal_notShepherd (m : Mach) {u sel : Nat} (ix : Nat) (hlo : 0x20 ≤ sel) (hhi : sel ≤ 0x2F) (hne : sel ≠ 0x27)
    (h : isShepherd u = false) : getcVal m u sel ix = .error 0x03 :=
  if_pos ⟨hlo, hhi, hne, by rw [h]; rfl⟩

theorem getcVal_astat (m : Mach) (u ix : Nat) : getcVal m u 0x10 ix =
    if ix < 6144 && coreIn m (pastOfActor m (.unit u (unitOf m u).w)) (ix / 8)
    then .ok (astatOf m (pastOfActor m (.unit u (unitOf m u).w)) ix).toNat else .error 0x03 := rfl

theorem getcVal_group_beyond (m : Mach) (u : Nat) {ix : Nat} (h : 256 ≤ ix) : getcVal m u 0x11 ix = .error 0x03 :=
  if_neg (Nat.not_lt.mpr h)

/-! ## What the shepherd core reads and writes (R414) -/

section
variable {u : Nat} (h : isShepherd u = true) (m : Mach) (ix : Nat)
include h

/-- No selector is of another unit kind for a shepherd core. -/
theorem shepherd_hasAll (sel : Nat) : ¬(0x20 ≤ sel ∧ sel ≤ 0x2F ∧ sel ≠ 0x27 ∧ (!isShepherd u) = true) := by
  simp [h]

theorem getcVal_status : getcVal m u 0x20 ix = .ok (shepOf m (unitCluster u 0)).status.toNat := if_neg (shepherd_hasAll h 0x20)
theorem getcVal_tvec : getcVal m u 0x25 ix = .ok (shepOf m (unitCluster u 0)).tvec.toNat := if_neg (shepherd_hasAll h 0x25)
theorem getcVal_spc1 : getcVal m u 0x21 1 = .ok (shepOf m (unitCluster u 0)).spc1.toNat := if_neg (shepherd_hasAll h 0x21)
theorem getcVal_spc2 : getcVal m u 0x21 2 = .ok (shepOf m (unitCluster u 0)).spc2.toNat := if_neg (shepherd_hasAll h 0x21)
theorem getcVal_sst1 : getcVal m u 0x22 1 = .ok (shepOf m (unitCluster u 0)).sst1.toNat := if_neg (shepherd_hasAll h 0x22)
theorem getcVal_sst2 : getcVal m u 0x22 2 = .ok (shepOf m (unitCluster u 0)).sst2.toNat := if_neg (shepherd_hasAll h 0x22)
theorem getcVal_cset : getcVal m u 0x2F ix = if ix < 256 ∧ ix % 16 < 12
    then .ok (bits (pastOf m (ix / 16)).cset (64 * (ix % 16)) 64) else .error 0x03 := if_neg (shepherd_hasAll h 0x2F)

/-- The word of a register of pasture `P`, for the selectors 0x28 to 0x2E. -/
def pastWord (P : Pasture) : Nat → Nat
  | 0x28 => P.asid * 65536 + pstateCode P.st
  | 0x29 => P.xroot
  | 0x2A => P.fto
  | 0x2B => P.quota.toNat
  | 0x2C => P.pcap
  | 0x2D => P.ctxbase
  | _ => P.asave

theorem getcVal_pasture {sel : Nat} (hlo : 0x28 ≤ sel) (hhi : sel ≤ 0x2E) :
    getcVal m u sel ix = if ix < 16 then .ok (pastWord (pastOf m ix) sel) else .error 0x03 := by
  refine (if_neg (shepherd_hasAll h sel)).trans ?_
  obtain rfl | rfl | rfl | rfl | rfl | rfl | rfl : sel = 0x28 ∨ sel = 0x29 ∨ sel = 0x2A ∨ sel = 0x2B ∨ sel = 0x2C ∨ sel = 0x2D
    ∨ sel = 0x2E := by omega
  all_goals rfl

theorem getcVal_level_beyond {sel : Nat} (hlo : 0x21 ≤ sel) (hhi : sel ≤ 0x24) (h1 : ix ≠ 1) (h2 : ix ≠ 2) :
    getcVal m u sel ix = .error 0x03 := by
  refine (if_neg (shepherd_hasAll h sel)).trans ?_
  obtain rfl | rfl | rfl | rfl : sel = 0x21 ∨ sel = 0x22 ∨ sel = 0x23 ∨ sel = 0x24 := by omega
  all_goals exact (if_neg h1).trans (if_neg h2)

theorem getcVal_cset_beyond (hix : 256 ≤ ix ∨ 12 ≤ ix % 16) : getcVal m u 0x2F ix = .error 0x03 := by
  rw [getcVal_cset h, if_neg (by omega)]

end

/-! ## What SETC writes is what GETC reads (R4, R140, R415, R416) -/

theorem bits_eq_div_mod (v lo n : Nat) : bits v lo n = v / 2 ^ lo % 2 ^ n := by
  rw [bits, Nat.shiftRight_eq_div_pow]

/-- A field that is written reads as written. -/
theorem bits_setBits_same (x lo n y : Nat) : bits (setBits x lo n y) lo n = y % 2 ^ n := by
  calc bits (setBits x lo n y) lo n
      = (x - 2 ^ lo * bits x lo n + y % 2 ^ n * 2 ^ lo) / 2 ^ lo % 2 ^ n := by
        rw [bits_eq_div_mod (setBits x lo n y), setBits, Nat.mul_comm (bits x lo n)]
    _ = (x / 2 ^ lo - x / 2 ^ lo % 2 ^ n + y % 2 ^ n) % 2 ^ n := by
        rw [Nat.add_mul_div_right _ _ (Nat.two_pow_pos lo), Nat.sub_mul_div, bits_eq_div_mod x]
    _ = y % 2 ^ n := by
        rw [← Nat.mul_div_self_eq_mod_sub_self, Nat.mul_add_mod, Nat.mod_mod]

/-- The context of the arithmetic status word that SETC writes holds it. -/
theorem astatOf_setAstat (m : Mach) (p ix v : Nat) : astatOf (setAstat m p ix v) p ix = BitVec.ofNat 64 v := by
  cases hi : (pastOf m p).image with
  | some i => simp only [setAstat, astatOf, hi, pastOf_setPast_same, tget_tput_same]
  | none =>
    have hp : pastOf { m with pe.astat := tput 0 ix (BitVec.ofNat 64 v) m.pe.astat } p = pastOf m p := rfl
    simp only [setAstat, astatOf, hi, hp, tget_tput_same]

/-- The arithmetic status word is neither a unit's state nor a core set. -/
theorem coreIn_setAstat (m : Mach) (p ix v q core : Nat) : coreIn (setAstat m p ix v) q core = coreIn m q core := by
  cases hi : (pastOf m p).image with
  | some i =>
    simp only [setAstat, hi, coreIn, pastOf_setPast]
    split
    · next hq => rw [hq]
    · rfl
  | none =>
    simp only [setAstat, hi]
    rfl

theorem setAstat_seq (m : Mach) (p ix v : Nat) : (setAstat m p ix v).seq = m.seq := by
  unfold setAstat
  dsimp only
  split <;> rfl

theorem pastOfActor_congr_seq {m t : Mach} (h : t.seq = m.seq) (u w : Nat) : pastOfActor t (.unit u w) = pastOfActor m (.unit u w) := by
  simp only [pastOfActor, unitOf, h]

theorem bits_lt_word (v lo : Nat) {n : Nat} (h : n ≤ 64) : bits v lo n % 2 ^ 64 = bits v lo n :=
  Nat.mod_eq_of_lt ((bits_lt v lo n).trans_le (Nat.pow_le_pow_right (by decide) h))

theorem astat_readsBack (m : Mach) (u v : Nat) {ix : Nat} (hix : ix < 6144)
    (hc : coreIn m (pastOfActor m (.unit u (unitOf m u).w)) (ix / 8) = true) :
    getcVal (setcEff m u 0x10 ix v) u 0x10 ix = .ok (v % 64) := by
  have heff : setcEff m u 0x10 ix v = setAstat m (pastOfActor m (.unit u (unitOf m u).w)) ix (bits v 0 6) := rfl
  have hseq := setAstat_seq m (pastOfActor m (.unit u (unitOf m u).w)) ix (bits v 0 6)
  have hunit : unitOf (setAstat m (pastOfActor m (.unit u (unitOf m u).w)) ix (bits v 0 6)) u = unitOf m u := by
    rw [unitOf, hseq, ← unitOf]
  rw [heff, getcVal_astat, hunit, pastOfActor_congr_seq hseq, coreIn_setAstat, hc, astatOf_setAstat, BitVec.toNat_ofNat,
    bits_lt_word v 0 (by decide), bits_zero_eq_mod]
  simp [hix]

/-- A field of a control register is one of a word. -/
theorem toNat_ofNat_bits (v : Nat) {n : Nat} (h : n ≤ 64) : (BitVec.ofNat 64 (bits v 0 n)).toNat = v % 2 ^ n := by
  rw [BitVec.toNat_ofNat, bits_lt_word v 0 h, bits_zero_eq_mod]

theorem sstat_readsBack (m : Mach) (u v : Nat) : getcVal (setcEff m u 0x03 0 v) u 0x03 0 = .ok (v % 64) := by
  have hread : ∀ n : Mach, getcVal n u 0x03 0 = .ok (unitOf n u).sstat.toNat := fun _ => rfl
  have hwrite : setcEff m u 0x03 0 v = setUnit m u { unitOf m u with sstat := BitVec.ofNat 64 (bits v 0 6) } := rfl
  rw [hread, hwrite, unitOf_setUnit_same]
  exact congrArg _ (toNat_ofNat_bits v (by decide))

section
variable {u : Nat} (h : isShepherd u = true) (m : Mach) (v : Nat)

theorem shepOf_setcEff {m : Mach} {sel ix v : Nat} {x : Shep} (he : setcEff m u sel ix v = setShep m (unitCluster u 0) x) :
    shepOf (setcEff m u sel ix v) (unitCluster u 0) = x := by
  rw [he, shepOf_setShep_same]

include h

theorem status_readsBack : let x := shepOf m (unitCluster u 0)
    getcVal (setcEff m u 0x20 0 v) u 0x20 0 = .ok (x.status.toNat - x.status.toNat / 4 % 2 * 4 + v / 4 % 2 * 4) := by
  intro x
  have hset : setBits x.status.toNat 2 1 (bits v 2 1) = x.status.toNat - x.status.toNat / 4 % 2 * 4 + v / 4 % 2 * 4 := by
    rw [setBits, bits_eq_div_mod, bits_eq_div_mod, Nat.mod_mod]
    rfl
  have hlt : x.status.toNat - x.status.toNat / 4 % 2 * 4 + v / 4 % 2 * 4 < 2 ^ 64 := by
    have := x.status.isLt
    omega
  rw [getcVal_status h, shepOf_setcEff rfl, hset, BitVec.toNat_ofNat, Nat.mod_eq_of_lt hlt]

theorem spc1_readsBack : getcVal (setcEff m u 0x21 1 v) u 0x21 1 = .ok (v % 2 ^ 16) := by
  rw [getcVal_spc1 h, shepOf_setcEff rfl, if_pos rfl, toNat_ofNat_bits v (by decide)]

theorem spc2_readsBack : getcVal (setcEff m u 0x21 2 v) u 0x21 2 = .ok (v % 2 ^ 16) := by
  rw [getcVal_spc2 h, shepOf_setcEff rfl, if_neg (by decide), toNat_ofNat_bits v (by decide)]

theorem sst1_readsBack : getcVal (setcEff m u 0x22 1 v) u 0x22 1 = .ok (v % 2 ^ 64) := by
  rw [getcVal_sst1 h, shepOf_setcEff rfl, if_pos rfl, BitVec.toNat_ofNat]

theorem sst2_readsBack : getcVal (setcEff m u 0x22 2 v) u 0x22 2 = .ok (v % 2 ^ 64) := by
  rw [getcVal_sst2 h, shepOf_setcEff rfl, if_neg (by decide), BitVec.toNat_ofNat]

theorem tvec_readsBack : getcVal (setcEff m u 0x25 0 v) u 0x25 0 = .ok (v % 2 ^ 16) := by
  rw [getcVal_tvec h, shepOf_setcEff rfl, toNat_ofNat_bits v (by decide)]

end

/-- A pasture whose STATE is written: ASID is written with it before the pasture has run (R415). -/
def stateWritten (P : Pasture) (v : Nat) : Pasture :=
  { P with st := setPState P (bits v 0 3), asid := if early P then bits v 16 12 else P.asid }

theorem pastOf_setcState (m : Mach) (u p v : Nat) : pastOf (setcEff m u 0x28 p v) p = stateWritten (pastOf m p) v := by
  have heff : setcEff m u 0x28 p v =
      let m1 := setPast m p (stateWritten (pastOf m p) v)
      if setPState (pastOf m p) (bits v 0 3) = .free then { m1 with mem.apps := m1.mem.apps.filter (fun e => e.2.past != p) } else m1 := rfl
  rw [heff]
  dsimp only
  split <;> exact pastOf_setPast_same ..

/-- The code of a state that SETC writes: the transitions of R415, every other write leaves it. -/
theorem pstateCode_setPState (P : Pasture) (v : Nat) : pstateCode (setPState P v) =
    if P.st = .free ∧ v = 1 then 1 else if (P.st = .ready ∨ P.st = .halted) ∧ v = 0 then 0 else pstateCode P.st := by
  unfold setPState
  split
  · next h1 => simp [h1, pstateCode]
  · next h1 => simp [h1, pstateCode]
  · next h1 => simp [h1, pstateCode]
  · next hn1 hn2 hn3 =>
    rw [if_neg (fun h => hn1 h.1 h.2), if_neg]
    rintro ⟨hst | hst, hv⟩
    · exact hn2 hst hv
    · exact hn3 hst hv

section
variable {u p : Nat} (h : isShepherd u = true) (hp : p < 16) (m : Mach) (v : Nat)
include h hp

/-- A selector that writes its pasture's registers `x` reads the word of `x`. -/
theorem pasture_readsBack {m : Mach} {sel v : Nat} {x : Pasture} (hlo : 0x28 ≤ sel) (hhi : sel ≤ 0x2E)
    (he : pastOf (setcEff m u sel p v) p = x) : getcVal (setcEff m u sel p v) u sel p = .ok (pastWord x sel) := by
  rw [getcVal_pasture h _ _ hlo hhi, if_pos hp, he]

theorem fto_readsBack : getcVal (setcEff m u 0x2A p v) u 0x2A p = .ok (v % 2 ^ 10) := by
  rw [← bits_zero_eq_mod]
  exact (pasture_readsBack h hp (m := m) (sel := 0x2A) (v := v) (by decide) (by decide) (pastOf_setPast_same ..) :)

theorem quota_readsBack : getcVal (setcEff m u 0x2B p v) u 0x2B p = .ok (v % 2 ^ 13 + v / 2 ^ 16 % 8 * 2 ^ 16) := by
  have hword : (BitVec.ofNat 64 (bits v 16 3 * 65536 + bits v 0 13)).toNat = v % 2 ^ 13 + v / 2 ^ 16 % 8 * 2 ^ 16 := by
    rw [BitVec.toNat_ofNat, bits_zero_eq_mod, bits_eq_div_mod]
    omega
  rw [← hword]
  exact (pasture_readsBack h hp (m := m) (sel := 0x2B) (v := v) (by decide) (by decide) (pastOf_setPast_same ..) :)

theorem pcap_readsBack : getcVal (setcEff m u 0x2C p v) u 0x2C p = .ok (v % 4) := by
  have hfield : bits v 0 2 = v % 4 := bits_zero_eq_mod v 2
  rw [← hfield]
  exact (pasture_readsBack h hp (m := m) (sel := 0x2C) (v := v) (by decide) (by decide) (pastOf_setPast_same ..) :)

theorem state_readsBack : let P := pastOf m p
    let code := if P.st = .free ∧ v % 8 = 1 then 1 else if (P.st = .ready ∨ P.st = .halted) ∧ v % 8 = 0 then 0 else pstateCode P.st
    getcVal (setcEff m u 0x28 p v) u 0x28 p = .ok ((if early P then v / 2 ^ 16 % 2 ^ 12 else P.asid) * 2 ^ 16 + code) := by
  intro P code
  have hcode : code = pstateCode (setPState P (bits v 0 3)) := by
    rw [pstateCode_setPState, bits_zero_eq_mod]
    rfl
  rw [hcode, ← bits_eq_div_mod]
  exact (pasture_readsBack h hp (by decide) (by decide) (pastOf_setcState m u p v) :)

section
variable (he : early (pastOf m p) = true)
include he

theorem earlyPasture_readsBack {sel : Nat} {x : Pasture} (hlo : 0x28 ≤ sel) (hhi : sel ≤ 0x2E)
    (hw : setcEff m u sel p v = if early (pastOf m p) then setPast m p x else m) :
    getcVal (setcEff m u sel p v) u sel p = .ok (pastWord x sel) :=
  pasture_readsBack h hp hlo hhi (by rw [hw, if_pos he, pastOf_setPast_same])

theorem xroot_readsBack : getcVal (setcEff m u 0x29 p v) u 0x29 p = .ok (v / 2 ^ 12 % 2 ^ 40 * 2 ^ 12) := by
  rw [← bits_eq_div_mod]
  exact (earlyPasture_readsBack h hp m v he (sel := 0x29) (by decide) (by decide) rfl :)

theorem ctxbase_readsBack : getcVal (setcEff m u 0x2D p v) u 0x2D p = .ok (v / 2 ^ 16 % 2 ^ 36 * 2 ^ 16) := by
  rw [← bits_eq_div_mod]
  exact (earlyPasture_readsBack h hp m v he (sel := 0x2D) (by decide) (by decide) rfl :)

theorem asave_readsBack : getcVal (setcEff m u 0x2E p v) u 0x2E p = .ok (v / 2 ^ 12 % 2 ^ 40 * 2 ^ 12) := by
  rw [← bits_eq_div_mod]
  exact (earlyPasture_readsBack h hp m v he (sel := 0x2E) (by decide) (by decide) rfl :)

end

end

/-! ## Core sets (R416) -/

/-- The core of bit `j` in word `w` of CSET is in the sets of three pastures other than `p`. -/
def coreFull (m : Mach) (p w j : Nat) : Bool :=
  decide (3 ≤ ((upto 16).filter (fun q => q != p && bitAt (pastOf m q).cset (64 * w + j))).length)

section
variable {m : Mach} {p w v : Nat}

theorem setCset_ignored (h : early (pastOf m p) = false ∨ ∃ j < 64, bitAt v j = true ∧ coreFull m p w j = true) :
    setCset m p w v = m := by
  refine if_pos ?_
  rw [Bool.or_eq_true, Bool.not_eq_true']
  refine h.imp_right (fun ⟨j, hj, hb, hf⟩ => ?_)
  exact List.any_eq_true.mpr ⟨j, List.mem_range.mpr hj, Bool.and_eq_true_iff.mpr ⟨hb, hf⟩⟩

theorem setCset_writes (he : early (pastOf m p) = true) (h : ∀ j < 64, bitAt v j = true → coreFull m p w j = false) :
    setCset m p w v = setPast m p { pastOf m p with cset := setBits (pastOf m p).cset (64 * w) 64 v } := by
  refine if_neg ?_
  rw [Bool.not_eq_true, Bool.or_eq_false_iff, Bool.not_eq_false']
  refine ⟨he, List.any_eq_false.mpr (fun j hj hjf => ?_)⟩
  obtain ⟨hb, hf⟩ := Bool.and_eq_true_iff.mp hjf
  exact Bool.false_ne_true ((h j (List.mem_range.mp hj) hb).symm.trans hf)

theorem setcEff_cset (m : Mach) (u p v : Nat) {w : Nat} (hw : w < 16) : setcEff m u 0x2F (p * 16 + w) v = setCset m p w v := by
  have hp : (p * 16 + w) / 16 = p := by omega
  have hm : (p * 16 + w) % 16 = w := by omega
  show setCset m ((p * 16 + w) / 16) ((p * 16 + w) % 16) v = _
  rw [hp, hm]

theorem cset_readsBack {u : Nat} (hs : isShepherd u = true) (hp : p < 16) (hw : w < 12) (he : early (pastOf m p) = true)
    (h : ∀ j < 64, bitAt v j = true → coreFull m p w j = false) :
    getcVal (setcEff m u 0x2F (p * 16 + w) v) u 0x2F (p * 16 + w) = .ok (v % 2 ^ 64) := by
  have hpast : (p * 16 + w) / 16 = p := by omega
  have hword : (p * 16 + w) % 16 = w := by omega
  rw [setcEff_cset m u p v (by omega), setCset_writes he h, getcVal_cset hs, if_pos (by omega), hpast, hword, pastOf_setPast_same,
    bits_setBits_same]

end

/-! ## The statement -/

theorem isShepherd_core {k : Nat} (hk : k < 16) : isShepherd (128 + k) = true := by
  rw [isShepherd, Bool.and_eq_true, decide_eq_true_eq, decide_eq_true_eq]
  omega

theorem unitCluster_core {k : Nat} (hk : k < 16) : unitCluster (128 + k) 0 = k := by
  rw [unitCluster, if_neg (by omega), if_pos (by omega)]
  omega

/-- Settles O28: the instructions by `getcVal` and `setcEff`, the word by the decoder's answer, each selector's fields by what SETC
writes and GETC reads. -/
theorem controlRegisters : Obligations.ControlRegisters := by
  refine ⟨⟨fun s u w d a b v => exec_getc_reads, fun s u w d a b c => exec_getc_traps, fun s u w d a b h => ?_,
      fun w r k loader storer seq hr hk hd ha hb ho hs => ?_⟩, fun m u sel ix => ?_, fun m u ix v => astat_readsBack m u v,
    fun m k v hk => ?_⟩
  · exact ⟨exec_setc_readOnly h, fun hro => ⟨fun v => exec_setc_writes h hro, fun c => exec_setc_traps h hro⟩⟩
  · exact hs.elim (fun ⟨hopc, hsel⟩ => fateSeq_getc_reserved hr hk ha ho hopc hsel)
      (fun ⟨hopc, hsel⟩ => fateSeq_setc_reserved hr hk hd ho hopc hsel)
  · refine ⟨getcVal_reserved m u ix, fun hlo hhi hne => getcVal_notShepherd m ix hlo hhi hne, fun hix => ?_,
      getcVal_group_beyond m u, fun h => ⟨getcVal_level_beyond h m ix, fun hlo hhi hix => ?_, getcVal_cset_beyond h m ix⟩⟩
    · refine (getcVal_astat m u ix).trans (if_neg ?_)
      rw [Bool.and_eq_true, decide_eq_true_eq]
      exact fun ⟨hlt, hin⟩ => hix.elim (Nat.not_le.mpr hlt) (fun hout => Bool.false_ne_true (hout.symm.trans hin))
    · rw [getcVal_pasture h m ix hlo hhi, if_neg (Nat.not_lt.mpr hix)]
  · intro u x
    have h : isShepherd u = true := isShepherd_core hk
    have hx : x = shepOf m (unitCluster u 0) := by rw [unitCluster_core hk]
    rw [hx]
    refine ⟨sstat_readsBack m u v, status_readsBack h m v, spc1_readsBack h m v, spc2_readsBack h m v, sst1_readsBack h m v,
      sst2_readsBack h m v, tvec_readsBack h m v, fun p hp => ⟨fto_readsBack h hp m v, quota_readsBack h hp m v, pcap_readsBack h hp m v,
        fun he => ⟨xroot_readsBack h hp m v he, ctxbase_readsBack h hp m v he, asave_readsBack h hp m v he⟩, fun he => ?_,
        state_readsBack h hp m v, fun w hw => ⟨fun hc => ?_, cset_readsBack h hp hw⟩⟩⟩
    · have hlate : ¬ early (pastOf m p) = true := by rw [he]; exact Bool.false_ne_true
      exact ⟨if_neg hlate, if_neg hlate, if_neg hlate⟩
    · rw [setcEff_cset m u p v (by omega)]
      exact setCset_ignored hc

end Sys2Proof.Machine

/-! PROOFS. The results of the integer entries ADD to ABS (R164, R165). -/
namespace Sys2Proof.Machine

/-! ## Entries that give the same lanes -/

/-- Two lane operations give the same result and flags on lanes of `w` bits. -/
def SameLanes (w : Nat) (f g : Nat → Nat → Nat → Nat × Nat) : Prop :=
  ∀ x y z, x < 2 ^ w → y < 2 ^ w → z < 2 ^ w → f x y z = g x y z

/-- An integer entry of `exec` that starts gives the lanes of every operation that agrees with its own. -/
theorem exec_of_sameLanes {i : Instr} {s : State} {sh : Shape} {rd : Bool} {d a : Opd} {b : Option Opd}
    {f g : Nat → Nat → Nat → Nat × Nat} (hi : exec i s = lift (intEntry sh rd d a b f) s) (hl : SameLanes sh.width f g)
    (hst : starts s.m (intSrcs sh rd d a b) (.opd d) = true) : exec i s = .next (intRes s sh rd d a b g) := by
  rw [hi, intEntry_starts s sh rd d a b f hst, intRes_congr s sh rd d a b f g hl]

/-! ## Narrowing an exact value that fits -/

theorem narrowS_asInt {w x : Nat} (hw : 0 < w) (hx : x < 2 ^ w) : narrowS w false (asInt w x) = (x, 0) := by
  rw [narrowS_eq, sgnRes_in, asInt_eq w x hw, wrap_sgn w x hx]

theorem narrowU_natCast {w n : Nat} (h : n < 2 ^ w) : narrowU w (n : ℤ) = (n, 0) := by
  have hn : (n : ℤ) < 2 ^ w := by exact_mod_cast h
  rw [narrowU_eq, unsRes, if_pos ⟨Int.natCast_nonneg n, hn⟩, Int.toNat_natCast]

/-- The quotient of two lanes, rounded down, is that of the natural numbers. -/
theorem narrowU_floor_div {w m n : Nat} (h : m / n < 2 ^ w) : narrowU w ⌊(m : ℚ) / n⌋ = (m / n, 0) := by
  rw [Rat.floor_natCast_div_natCast, ← Int.natCast_ediv, narrowU_natCast h]

/-! ## The lane of each entry in exact numbers -/

theorem opAddn_eq (w x y z : Nat) : opAddn w x y z = narrowU w ((x : ℤ) + y) := by
  rw [opAddn, narrowU_eq]

section
variable {w : Nat} (hw : 0 < w) (x y z : Nat)
include hw

theorem opAdd_eq : opAdd w x y z = narrowS w false (asInt w x + asInt w y) := by
  rw [opAdd, narrowS_eq, asInt_eq w x hw, asInt_eq w y hw]

theorem opSub_eq (sat : Bool) : opSub sat w x y z = narrowS w sat (asInt w x - asInt w y) := by
  rw [opSub, narrowS_eq, asInt_eq w x hw, asInt_eq w y hw]

theorem opAdds_eq : opAdds w x y z = narrowS w true (asInt w x + asInt w y) := by
  rw [opAdds, narrowS_eq, asInt_eq w x hw, asInt_eq w y hw]

theorem opMul_eq (sat : Bool) : opMul sat w x y z = narrowS w sat (asInt w x * asInt w y) := by
  rw [opMul, narrowS_eq, asInt_eq w x hw, asInt_eq w y hw]

/-- The high half of a product rounds down. -/
theorem opMulh_eq : opMulh w x y z = narrowS w false ⌊(asInt w x * asInt w y : ℚ) / 2 ^ w⌋ := by
  have hfloor : ⌊(asInt w x * asInt w y : ℚ) / 2 ^ w⌋ = asInt w x * asInt w y / 2 ^ w := by
    exact_mod_cast Rat.floor_intCast_div_natCast (asInt w x * asInt w y) (2 ^ w)
  rw [opMulh, Int.fdiv_eq_ediv_of_nonneg _ (by positivity), hfloor, narrowS_eq, sgnRes_in, asInt_eq w x hw, asInt_eq w y hw]

theorem opMad_eq (sat : Bool) : opMad sat w x y z = narrowS w sat (asInt w z + asInt w x * asInt w y) := by
  rw [opMad, narrowS_eq, asInt_eq w x hw, asInt_eq w y hw, asInt_eq w z hw]

theorem opDiv_eq : opDiv w x y z = if y = 0 then (0, fDZ)
    else if asInt w x = -(2 ^ (w - 1)) ∧ asInt w y = -1 then (x, fOV)
    else narrowS w false ((asInt w x).tdiv (asInt w y)) := by
  rw [opDiv, narrowS_eq, sgnRes_in, asInt_eq w x hw, asInt_eq w y hw]

/-- The remainder is that of the division that rounds toward 0. -/
theorem opRem_eq : opRem w x y z = if y = 0 then (x, fDZ)
    else narrowS w false (asInt w x - asInt w y * (asInt w x).tdiv (asInt w y)) := by
  rw [opRem, narrowS_eq, sgnRes_in, asInt_eq w x hw, asInt_eq w y hw, Int.tmod_def]

theorem opAbs_eq (sat : Bool) : opAbs sat w x y z = narrowS w sat |asInt w x| := by
  rw [opAbs, narrowS_eq, asInt_eq w x hw, Int.natCast_natAbs]

end

section
variable {w x y : Nat} (hx : x < 2 ^ w) (hy : y < 2 ^ w) (z : Nat)

include hx

theorem opDivn_eq : opDivn w x y z = if y = 0 then (0, fDZ) else narrowU w ⌊(x : ℚ) / y⌋ := by
  rw [opDivn, narrowU_floor_div ((Nat.div_le_self x y).trans_lt hx)]

theorem opMinn_eq : opMinn w x y z = narrowU w (min (x : ℤ) y) := by
  rw [← Nat.cast_min, narrowU_natCast ((min_le_left x y).trans_lt hx), opMinn, min_def]

include hy

theorem opMaxn_eq : opMaxn w x y z = narrowU w (max (x : ℤ) y) := by
  rw [← Nat.cast_max, narrowU_natCast (max_lt hx hy), opMaxn, max_def]

/-- The high half of a product of lanes fits a lane. -/
theorem opMulhn_eq : opMulhn w x y z = narrowU w ⌊((x : ℚ) * y) / 2 ^ w⌋ := by
  have hlt : x * y / 2 ^ w < 2 ^ w := Nat.div_lt_of_lt_mul (Nat.mul_lt_mul'' hx hy)
  have hfrac : ((x : ℚ) * y) / 2 ^ w = ((x * y : Nat) : ℚ) / (2 ^ w : Nat) := by push_cast; rfl
  rw [opMulhn, hfrac, narrowU_floor_div hlt]

theorem opMin_eq (hw : 0 < w) : opMin w x y z = narrowS w false (min (asInt w x) (asInt w y)) := by
  rw [opMin, ← asInt_eq w x hw, ← asInt_eq w y hw]
  by_cases h : asInt w x ≤ asInt w y
  · rw [if_pos h, min_eq_left h, narrowS_asInt hw hx]
  · rw [if_neg h, min_eq_right (not_le.mp h).le, narrowS_asInt hw hy]

theorem opMax_eq (hw : 0 < w) : opMax w x y z = narrowS w false (max (asInt w x) (asInt w y)) := by
  rw [opMax, ← asInt_eq w x hw, ← asInt_eq w y hw]
  by_cases h : asInt w x ≤ asInt w y
  · rw [if_pos h, max_eq_right h, narrowS_asInt hw hy]
  · rw [if_neg h, max_eq_left (not_le.mp h).le, narrowS_asInt hw hx]

end

/-! ## The table -/

/-- A row of the integer table is an integer entry of `exec`, with an operation that gives the row's lanes. -/
theorem exec_sameLanes_of_intRow {i : Instr} {r : LaneRow} (h : intRow i = some r) :
    ∃ op, (∀ s, exec i s = lift (intEntry r.shape r.readD r.d r.a r.b op) s) ∧ SameLanes r.shape.width op r.op := by
  cases i with
  | add f => cases h; exact ⟨_, fun _ => rfl, fun x y z _ _ _ => opAdd_eq (shape_pos f.shape) x y z⟩
  | sub f => cases h; exact ⟨_, fun _ => rfl, fun x y z _ _ _ => opSub_eq (shape_pos f.shape) x y z f.sat⟩
  | adds f => cases h; exact ⟨_, fun _ => rfl, fun x y z _ _ _ => opAdds_eq (shape_pos f.shape) x y z⟩
  | addn f => cases h; exact ⟨_, fun _ => rfl, fun x y z _ _ _ => opAddn_eq _ x y z⟩
  | mul f => cases h; exact ⟨_, fun _ => rfl, fun x y z _ _ _ => opMul_eq (shape_pos f.shape) x y z f.sat⟩
  | mulh f => cases h; exact ⟨_, fun _ => rfl, fun x y z _ _ _ => opMulh_eq (shape_pos f.shape) x y z⟩
  | mulhn => cases h; exact ⟨_, fun _ => rfl, fun x y z hx hy _ => opMulhn_eq hx hy z⟩
  | mad f => cases h; exact ⟨_, fun _ => rfl, fun x y z _ _ _ => opMad_eq (shape_pos f.shape) x y z f.sat⟩
  | div f => cases h; exact ⟨_, fun _ => rfl, fun x y z _ _ _ => opDiv_eq (shape_pos f.shape) x y z⟩
  | divn => cases h; exact ⟨_, fun _ => rfl, fun x y z hx _ _ => opDivn_eq hx z⟩
  | rem f => cases h; exact ⟨_, fun _ => rfl, fun x y z _ _ _ => opRem_eq (shape_pos f.shape) x y z⟩
  | min f => cases h; exact ⟨_, fun _ => rfl, fun x y z hx hy _ => opMin_eq hx hy z (shape_pos f.shape)⟩
  | max f => cases h; exact ⟨_, fun _ => rfl, fun x y z hx hy _ => opMax_eq hx hy z (shape_pos f.shape)⟩
  | minn => cases h; exact ⟨_, fun _ => rfl, fun x y z hx _ _ => opMinn_eq hx z⟩
  | maxn => cases h; exact ⟨_, fun _ => rfl, fun x y z hx hy _ => opMaxn_eq hx hy z⟩
  | abs f => cases h; exact ⟨_, fun _ => rfl, fun x y z _ _ _ => opAbs_eq (shape_pos f.shape) x y z f.sat⟩
  | _ => cases h

/-- Settles O10: each entry's operation gives the lanes of its row, for lanes of every width. -/
theorem integerResults : Obligations.IntegerResults := by
  intro i s r hrow _ hst
  obtain ⟨op, he, hl⟩ := exec_sameLanes_of_intRow hrow
  exact exec_of_sameLanes (he s) hl hst

end Sys2Proof.Machine

/-! PROOFS. The results of the logic, shift, bit-field and address entries (R166, R167, R170). -/
namespace Sys2Proof.Machine

/-! ## Fields of a number -/

/-- A number with a field replaced: what stands above the field, the field, what stands below it. -/
theorem setBits_eq (x lo n y : Nat) : setBits x lo n y = 2 ^ lo * (2 ^ n * (x / 2 ^ lo / 2 ^ n) + y % 2 ^ n) + x % 2 ^ lo := by
  have hx : 2 ^ lo * (x / 2 ^ lo) + x % 2 ^ lo = x := Nat.div_add_mod ..
  have hq : 2 ^ lo * (x / 2 ^ lo) = 2 ^ lo * (2 ^ n * (x / 2 ^ lo / 2 ^ n)) + 2 ^ lo * (x / 2 ^ lo % 2 ^ n) := by
    rw [← Nat.mul_add, Nat.div_add_mod]
  rw [setBits, bits_eq_div_mod, Nat.mul_comm _ (2 ^ lo), Nat.mul_comm _ (2 ^ lo), Nat.mul_add]
  omega

theorem testBit_setBits (x lo n y i : Nat) :
    (setBits x lo n y).testBit i = if lo ≤ i ∧ i < lo + n then y.testBit (i - lo) else x.testBit i := by
  rw [setBits_eq, Nat.testBit_two_pow_mul_add _ (Nat.mod_lt _ (Nat.two_pow_pos lo)),
    Nat.testBit_two_pow_mul_add _ (Nat.mod_lt _ (Nat.two_pow_pos n))]
  by_cases hlo : i < lo
  · rw [if_pos hlo, if_neg (by omega), Nat.testBit_mod_two_pow, decide_eq_true hlo, Bool.true_and]
  · by_cases hn : i - lo < n
    · rw [if_neg hlo, if_pos hn, if_pos (by omega), Nat.testBit_mod_two_pow, decide_eq_true hn, Bool.true_and]
    · have habove : i - lo - n + n + lo = i := by omega
      rw [if_neg hlo, if_neg hn, if_neg (by omega), Nat.testBit_div_two_pow, Nat.testBit_div_two_pow, habove]

/-! ## Signed lanes modulo 2^w -/

theorem sgn_emod (w x : Nat) : sgn w x % (2 ^ w : Nat) = (x : ℤ) % (2 ^ w : Nat) := by
  rw [sgn]
  split
  · exact_mod_cast Nat.mod_mod x (2 ^ w)
  · rw [Int.sub_emod_right]
    exact_mod_cast Nat.mod_mod x (2 ^ w)

theorem wrapI_natCast (w n : Nat) : wrapI w n = n % 2 ^ w := by
  rw [wrapI, ← Int.natCast_emod, Int.toNat_natCast]

/-- A signed product modulo 2^w is the unsigned one. -/
theorem wrapI_sgn_mul (w x n : Nat) : wrapI w (sgn w x * n) = x * n % 2 ^ w := by
  rw [← wrapI_natCast, wrapI, wrapI, Int.mul_emod, sgn_emod, ← Int.mul_emod, Nat.cast_mul]

/-- The signed reading of a field, by its highest bit. -/
theorem sgn_of_testBit {n v : Nat} (hn : 0 < n) (hv : v < 2 ^ n) :
    sgn n v = if v.testBit (n - 1) then (v : ℤ) - 2 ^ n else v := by
  rw [sgn, Nat.mod_eq_of_lt hv]
  by_cases h : v < 2 ^ (n - 1)
  · rw [if_pos h, Nat.testBit_lt_two_pow h, if_neg Bool.false_ne_true]
  · have htop : v.testBit (n - 1) = true :=
      Nat.testBit_of_two_pow_le_and_two_pow_add_one_gt (not_lt.mp h) (by rwa [Nat.sub_add_cancel hn])
    rw [if_neg h, htop, if_pos rfl]
    push_cast
    rfl

/-! ## Counting bits -/

/-- Leading zeros of a lane. -/
theorem clz_eq {w x : Nat} (hx : x < 2 ^ w) : clz w x = w - Nat.size x := by
  rw [clz, Nat.mod_eq_of_lt hx]
  by_cases h : x = 0
  · rw [if_pos h, h, Nat.size_zero, Nat.sub_zero]
  · have hsize : Nat.size x = Nat.log2 x + 1 := by
      refine le_antisymm (Nat.size_le.mpr Nat.lt_log2_self) (Nat.lt_size.mpr (Nat.log2_self_le h))
    rw [if_neg h, hsize]
    omega

/-- The 1 bits of a number among its low `w` bits. -/
theorem popc_eq_countP (w x : Nat) : popc w x = (List.range w).countP (fun i => x.testBit i) := by
  induction w generalizing x with
  | zero => rfl
  | succ w ih =>
    have hlow : x % 2 = if x.testBit 0 then 1 else 0 := by
      rw [Nat.testBit_zero]
      rcases Nat.mod_two_eq_zero_or_one x with h | h <;> simp [h]
    have hhigh : (fun i => x.testBit i) ∘ Nat.succ = fun i => (x / 2).testBit i := funext fun i => Nat.testBit_succ x i
    rw [popc, ih, List.range_succ_eq_map, List.countP_cons, List.countP_map, hhigh, hlow, Nat.add_comm]

/-! ## The lane of each entry -/

section
variable {w x y z : Nat} (hx : x < 2 ^ w) (hy : y < 2 ^ w)

theorem opShl_eq (hw : 0 < w) (sat : Bool) : opShl sat w x y z = narrowS w sat (asInt w x * 2 ^ (y % w)) := by
  rw [opShl, narrowS_eq, asInt_eq w x hw]
  cases sat
  · have hmul := wrapI_sgn_mul w x (2 ^ (y % w))
    push_cast at hmul
    rw [sgnRes_in, hmul]
    rfl
  · rfl

theorem opSha_eq (hw : 0 < w) : opSha w x y z = (((BitVec.ofNat w x).sshiftRight (y % w)).toNat, 0) := by
  have hpow : ((2 ^ (y % w) : Nat) : ℤ) = 2 ^ (y % w) := by push_cast; rfl
  rw [opSha, BitVec.sshiftRight, ofInt_eq, Int.shiftRight_eq_div_pow, hpow, Int.fdiv_eq_ediv_of_nonneg _ (by positivity),
    ← asInt_eq w x hw, asInt]

include hx

theorem toNat_lane : (BitVec.ofNat w x).toNat = x := by
  rw [BitVec.toNat_ofNat, Nat.mod_eq_of_lt hx]

theorem opShr_eq : opShr w x y z = ((BitVec.ofNat w x >>> (y % w)).toNat, 0) := by
  rw [opShr, BitVec.toNat_ushiftRight, toNat_lane hx, Nat.shiftRight_eq_div_pow]

theorem opRot_eq : opRot w x y z = (((BitVec.ofNat w x).rotateLeft (y % w)).toNat, 0) := by
  rw [opRot, rotl, BitVec.toNat_rotateLeft, toNat_lane hx, Nat.mod_mod, Nat.or_mod_two_pow,
    Nat.mod_eq_of_lt ((Nat.shiftRight_le x _).trans_lt hx)]

include hy

theorem opAnd_eq : opAnd w x y z = ((BitVec.ofNat w x &&& BitVec.ofNat w y).toNat, 0) := by
  rw [opAnd, BitVec.toNat_and, toNat_lane hx, toNat_lane hy]

theorem opOr_eq : opOr w x y z = ((BitVec.ofNat w x ||| BitVec.ofNat w y).toNat, 0) := by
  rw [opOr, BitVec.toNat_or, toNat_lane hx, toNat_lane hy]

theorem opXor_eq : opXor w x y z = ((BitVec.ofNat w x ^^^ BitVec.ofNat w y).toNat, 0) := by
  rw [opXor, BitVec.toNat_xor, toNat_lane hx, toNat_lane hy]

theorem opAndn_eq : opAndn w x y z = ((BitVec.ofNat w x &&& ~~~BitVec.ofNat w y).toNat, 0) := by
  rw [opAndn, BitVec.toNat_and, BitVec.toNat_not, toNat_lane hx, toNat_lane hy, onesN]

end

/-! ## Bit fields (R167) -/

theorem bfPos_eq (w y : Nat) : bfPos w y = fieldPos w y := by
  rw [bfPos, fieldPos, bits_zero_eq_mod]
  rfl

theorem bfLen_eq (w y : Nat) : bfLen w y = fieldLen w y := by
  rw [bfLen, fieldLen, bfPos_eq, bits_eq_div_mod]
  rfl

/-- A field lies within its lane. -/
theorem fieldPos_add_fieldLen_le {w : Nat} (hw : 0 < w) (y : Nat) : fieldPos w y + fieldLen w y ≤ w := by
  have hpos : fieldPos w y < w := Nat.mod_lt _ hw
  have hlen : fieldLen w y ≤ w - fieldPos w y := Nat.min_le_right ..
  omega

/-- A field as it stands, or extended by its highest bit. -/
theorem extended_field_eq {w len v : Nat} (hlen : len ≤ w) (hv : v < 2 ^ len) (sx : Bool) :
    (if sx && len != 0 then sext len w v else v)
      = (BitVec.ofInt w (if sx ∧ 0 < len ∧ v.testBit (len - 1) then (v : ℤ) - 2 ^ len else v)).toNat := by
  rw [ofInt_eq]
  by_cases hs : sx = true ∧ 0 < len
  · obtain ⟨rfl, hpos⟩ := hs
    simp [sext, sgn_of_testBit hpos hv, hpos, hpos.ne']
  · have hno : ¬(sx && len != 0) = true := by simpa [Nat.pos_iff_ne_zero] using hs
    rw [if_neg hno, if_neg (fun h => hs ⟨h.1, h.2.1⟩), wrapI_natCast,
      Nat.mod_eq_of_lt (hv.trans_le (Nat.pow_le_pow_right Nat.two_pos hlen))]

theorem opBfx_eq {w : Nat} (hw : 0 < w) (sx : Bool) (x y z : Nat) : opBfx sx w x y z =
    (let len := fieldLen w y
      let v := x / 2 ^ fieldPos w y % 2 ^ len
      ((BitVec.ofInt w (if sx ∧ 0 < len ∧ v.testBit (len - 1) then (v : ℤ) - 2 ^ len else v)).toNat, 0)) := by
  have hfit := fieldPos_add_fieldLen_le hw y
  rw [opBfx, bfPos_eq, bfLen_eq]
  exact congrArg (·, 0) (extended_field_eq (by omega) (Nat.mod_lt _ (Nat.two_pow_pos _)) sx)

/-- A lane with a field inserted, as masks and a shift give it. -/
theorem toNat_insert_eq_setBits {w z : Nat} (hz : z < 2 ^ w) (x : Nat) {pos len : Nat} (hfit : pos + len ≤ w) :
    (BitVec.ofNat w z &&& ~~~BitVec.ofNat w ((2 ^ len - 1) <<< pos)
      ||| BitVec.ofNat w ((x &&& (2 ^ len - 1)) <<< pos)).toNat = setBits z pos len x := by
  refine Nat.eq_of_testBit_eq fun i => ?_
  rw [BitVec.testBit_toNat, BitVec.getLsbD_or, BitVec.getLsbD_and, BitVec.getLsbD_not, BitVec.getLsbD_ofNat, BitVec.getLsbD_ofNat,
    BitVec.getLsbD_ofNat, Nat.testBit_shiftLeft, Nat.testBit_shiftLeft, Nat.testBit_and, Nat.testBit_two_pow_sub_one, testBit_setBits]
  by_cases hi : i < w
  · by_cases hfield : pos ≤ i ∧ i < pos + len
    · have hin : i - pos < len := by omega
      simp [hi, hfield, hin]
    · have hout : ¬(pos ≤ i ∧ i - pos < len) := by omega
      rw [if_neg hfield]
      by_cases hpos : pos ≤ i
      · have hge : ¬i - pos < len := fun h => hout ⟨hpos, h⟩
        simp [hi, hge]
      · simp [hi, hpos]
  · have hbeyond : z.testBit i = false := Nat.testBit_lt_two_pow (hz.trans_le (Nat.pow_le_pow_right Nat.two_pos (not_lt.mp hi)))
    rw [if_neg (by omega)]
    simp [hi, hbeyond]

theorem opBfi_eq {w z : Nat} (hw : 0 < w) (x y : Nat) (hz : z < 2 ^ w) : opBfi w x y z =
    (let pos := fieldPos w y
      let mask := 2 ^ fieldLen w y - 1
      ((BitVec.ofNat w z &&& ~~~BitVec.ofNat w (mask <<< pos) ||| BitVec.ofNat w ((x &&& mask) <<< pos)).toNat, 0)) := by
  rw [opBfi, bfPos_eq, bfLen_eq]
  exact congrArg (·, 0) (toNat_insert_eq_setBits hz x (fieldPos_add_fieldLen_le hw y)).symm

/-! ## The tables -/

/-- A row of the tables of logic, shifts, fields and addresses is an integer entry of `exec`, with an operation that gives the
row's lanes. -/
theorem exec_sameLanes_of_logicRow {i : Instr} {r : LaneRow} (h : logicRow i = some r) :
    ∃ op, (∀ s, exec i s = lift (intEntry r.shape r.readD r.d r.a r.b op) s) ∧ SameLanes r.shape.width op r.op := by
  cases i with
  | and => cases h; exact ⟨_, fun _ => rfl, fun x y z hx hy _ => opAnd_eq hx hy⟩
  | or => cases h; exact ⟨_, fun _ => rfl, fun x y z hx hy _ => opOr_eq hx hy⟩
  | xor => cases h; exact ⟨_, fun _ => rfl, fun x y z hx hy _ => opXor_eq hx hy⟩
  | andn => cases h; exact ⟨_, fun _ => rfl, fun x y z hx hy _ => opAndn_eq hx hy⟩
  | shl f => cases h; exact ⟨_, fun _ => rfl, fun x y z _ _ _ => opShl_eq (shape_pos f.shape) f.sat⟩
  | shr => cases h; exact ⟨_, fun _ => rfl, fun x y z hx _ _ => opShr_eq hx⟩
  | sha f => cases h; exact ⟨_, fun _ => rfl, fun x y z _ _ _ => opSha_eq (shape_pos f.shape)⟩
  | rot => cases h; exact ⟨_, fun _ => rfl, fun x y z hx _ _ => opRot_eq hx⟩
  | clz => cases h; exact ⟨_, fun _ => rfl, fun x y z hx _ _ => congrArg (·, 0) (clz_eq hx)⟩
  | popc => cases h; exact ⟨_, fun _ => rfl, fun x y z _ _ _ => congrArg (·, 0) (popc_eq_countP _ x)⟩
  | bfx f => cases h; exact ⟨_, fun _ => rfl, fun x y z _ _ _ => opBfx_eq (shape_pos f.shape) f.sx x y z⟩
  | bfi f => cases h; exact ⟨_, fun _ => rfl, fun x y z _ _ hz => opBfi_eq (shape_pos f.shape) x y hz⟩
  | lea => cases h; exact ⟨_, fun _ => rfl, fun _ _ _ _ _ _ => rfl⟩
  | _ => cases h

/-- Settles O11: each entry's operation gives the lanes of its row, for lanes of every width. -/
theorem logicResults : Obligations.LogicResults := by
  intro i s r hrow _ hst
  obtain ⟨op, he, hl⟩ := exec_sameLanes_of_logicRow hrow
  exact exec_of_sameLanes (he s) hl hst

end Sys2Proof.Machine

/-! PROOFS. The predicate of CMP (R168). -/
namespace Sys2Proof.Machine

theorem upto_all (n : Nat) (p : Nat → Bool) : (upto n).all p = decide (∀ i < n, p i = true) := by
  rw [Bool.eq_iff_iff, List.all_eq_true, decide_eq_true_iff]
  simp only [upto, List.mem_range]

theorem lane_eq_div_mod (w x i : Nat) : lane w x i = x / 2 ^ (w * i) % 2 ^ w := bits_eq_div_mod ..

/-- Each condition of R168 on exact integers. -/
theorem cmpHolds_eq_cmpRel {w : Nat} (hw : 0 < w) (c : CmpCond) : cmpHolds w c = cmpRel w c := by
  funext x y
  cases c with
  | eq => rfl
  | ne => exact decide_not.symm
  | lt => simp only [cmpHolds, cmpRel, asInt_eq _ _ hw]
  | le => simp only [cmpHolds, cmpRel, asInt_eq _ _ hw]
  | ltn => rfl
  | len => rfl
  | tst => exact decide_not.symm

theorem allLanes_eq_everyLane {m t : Mach} (hc : t.cur = m.cur) (w : Nat) (rel : Nat → Nat → Bool) (x y : Nat) :
    allLanes t w rel x y = everyLane m w rel x y := by
  rw [allLanes, everyLane, hc]
  cases m.cur with
  | unit => rfl
  | idle => simp only [upto_all, lane_eq_div_mod]
  | pe => simp only [upto_all, lane_eq_div_mod]

/-- Settles O12: CMP's conditions are those of `cmpRel`, judged in the lanes of its actor. -/
theorem compareResult : Obligations.CompareResult := by
  intro s f p a b _ hst
  refine next_of_lift (cmpG f p.val a b) rfl ?_
  rw [cmpG, fire_starts _ _ _ _ hst, cmpHolds_eq_cmpRel (shape_pos f.shape),
    allLanes_eq_everyLane (readDone_actor s.m _ _)]
  rfl

end Sys2Proof.Machine

/-! PROOFS. SEL, LIMM, the lane moves and RAND (R169, R171, R185, R187). -/
namespace Sys2Proof.Machine

section
variable {s : State} {d a b : Opd}

theorem exec_sel (f : SelF) (h : starts s.m [(.whole, a), (.whole, b)] (.opd d) = true) :
    exec (.sel f d a b) s = .next (wroteV s [a, b] (.opd d)
      (if getPred s.m f.p.val then srcVal s.m .whole a else srcVal s.m .whole b)) :=
  next_of_lift (selG f.p.val d a b) rfl (fire_starts _ _ _ _ h)

theorem exec_limm_low (v : BitVec 22) (h : starts s.m [] (.opd d) = true) :
    exec (.limm .low v d) s = .next (wroteV s [] (.opd d) (Val.ofNat v.toNat)) :=
  next_of_lift (limmG .low v d) rfl (fire_starts _ _ _ _ h)

theorem exec_limm_mid (v : BitVec 22) (h : starts s.m [(.whole, d)] (.opd d) = true) :
    exec (.limm .mid v d) s = .next (wroteV s [d] (.opd d) (Val.ofNat (setBits (payOf s.m .whole d) 22 22 v.toNat))) :=
  next_of_lift (limmG .mid v d) rfl (fire_starts _ _ _ _ h)

theorem exec_limm_top (v : BitVec 22) (h : starts s.m [(.whole, d)] (.opd d) = true) :
    exec (.limm .top v d) s = .next (wroteV s [d] (.opd d) (Val.ofNat (setBits (payOf s.m .whole d) 44 20 v.toNat))) :=
  next_of_lift (limmG .top v d) rfl (fire_starts _ _ _ _ h)

theorem exec_shuf (f : ShF) : let w := f.shape.width; let k := LaneK.int w
    starts s.m [(k, a), (k, b)] (.opd d) = true → exec (.shuf f d a b) s = .next (wroteV s [a, b] (.opd d)
      ⟨BitVec.ofNat 128 (shufPay w (payOf s.m k a) (payOf s.m k b)), false, (srcVal s.m k a).scaled⟩) :=
  fun h => next_of_lift (shufG f.shape.width d a b) rfl (fire_starts _ _ _ _ h)

theorem exec_bcst (f : ShF) : let w := f.shape.width; let k := LaneK.int w
    starts s.m [(k, a), (k, b)] (.opd d) = true → exec (.bcst f d a b) s = .next (wroteV s [a, b] (.opd d)
      ⟨BitVec.ofNat 128 (bcstPay w (payOf s.m k a) (payOf s.m k b)), false, (srcVal s.m k a).scaled⟩) :=
  fun h => next_of_lift (bcstG f.shape.width d a b) rfl (fire_starts _ _ _ _ h)

theorem exec_pack (f : ShF) : let w := f.shape.width; let k := LaneK.int w
    starts s.m [(k, a), (k, b)] (.opd d) = true → (srcVal s.m k a).scaled = (srcVal s.m k b).scaled →
    exec (.pack f d a b) s = .next (wroteV s [a, b] (.opd d)
      ⟨BitVec.ofNat 128 (packPay w (payOf s.m k a) (payOf s.m k b)), false, (srcVal s.m k a).scaled⟩) := by
  intro w k h hs
  refine next_of_lift (packG w d a b) rfl ?_
  rw [packG, fire_starts _ _ _ _ h]
  exact if_pos hs

theorem exec_unpk (f : UnpkF) : let w := f.shape.width; let k := LaneK.int w
    starts s.m [(k, a)] (.opd d) = true → exec (.unpk f d a) s = .next (wroteV s [a] (.opd d)
      ⟨BitVec.ofNat 128 (unpkPay w f.sel (payOf s.m k a)), false, (srcVal s.m k a).scaled⟩) :=
  fun h => next_of_lift (unpkG f.shape.width f.sel d a) rfl (fire_starts _ _ _ _ h)

end

/-- A number with a field replaced by a number that fits it. -/
theorem setBits_eq_sum {x lo n v : Nat} (hv : v < 2 ^ n) :
    setBits x lo n v = x % 2 ^ lo + v * 2 ^ lo + x / 2 ^ (lo + n) * 2 ^ (lo + n) := by
  rw [setBits_eq, Nat.mod_eq_of_lt hv, Nat.div_div_eq_div_mul, pow_add]
  ring

/-- Lanes that a broadcast fills are equal (R185). -/
theorem spread_eq_packLanes (w n x : Nat) : spread w n x = packLanes w ((upto n).map fun _ => x) := by
  rw [spread, List.map_const', upto, List.length_range]

/-- Packing lanes drops the bits above their width. -/
theorem packLanes_map_mod (w : Nat) (l : List Nat) : packLanes w (l.map (· % 2 ^ w)) = packLanes w l := by
  induction l with
  | nil => rfl
  | cons x l ih => rw [List.map_cons, packLanes, packLanes, ih, Nat.mod_mod]

theorem packPay_eq (w x y : Nat) : packPay w x y = packLanes (w / 2)
    ((upto (128 / w)).map (fun i => lane w x i % 2 ^ (w / 2)) ++ (upto (128 / w)).map (fun i => lane w y i % 2 ^ (w / 2))) := by
  rw [packPay, ← packLanes_map_mod, List.map_append, lanesOf, lanesOf, List.map_map, List.map_map]
  rfl

theorem sext_eq {w : Nat} (hw : 0 < w) (v x : Nat) : sext w v x = (BitVec.ofInt v (asInt w x)).toNat := by
  rw [ofInt_eq, asInt_eq w x hw, sext]

/-- UNPK takes one half of the lanes and extends them by 0 or by their sign. -/
theorem unpkPay_eq {w : Nat} (hw : 0 < w) (sel : UnpkSel) (x : Nat) : unpkPay w sel x = packLanes (2 * w) ((upto (64 / w)).map (fun i =>
    let y := lane w x ((if sel = .hi ∨ sel = .hisx then 64 / w else 0) + i)
    if sel = .losx ∨ sel = .hisx then (BitVec.ofInt (2 * w) (asInt w y)).toNat else y)) := by
  refine congrArg (packLanes (2 * w)) (List.map_congr_left fun i _ => ?_)
  cases sel <;> simp [sext_eq hw]

/-- Settles O18: each instruction writes what its payload function gives, which is what the statement spells out. -/
theorem selectionAndLanes : Obligations.SelectionAndLanes := by
  refine ⟨⟨fun s f d a b h => exec_sel f h, fun s v d h => exec_limm_low v h, fun s v d h => ?_, fun s v d hv h => ?_⟩,
    fun s f d a b h => exec_shuf f h, fun s f d a b h => ?_, fun s f d a b h hs => ?_, fun s f d a h => ?_,
    fun s f d a b h => ?_⟩
  · rw [exec_limm_mid v h, setBits_eq_sum v.isLt]
  · rw [exec_limm_top v h, setBits_eq_sum hv]
  · rw [exec_bcst f h, bcstPay, spread_eq_packLanes]
  · rw [exec_pack f h hs, packPay_eq]
  · rw [exec_unpk f h, unpkPay_eq (shape_pos f.shape)]
  · exact intEntry_starts s .s32 false d a (some b) (opRand f.bit) h

end Sys2Proof.Machine

/-! PROOFS. Comparison, dot product, conversions, scaling, reduction, classification and quantising (R176-R186). -/
namespace Sys2Proof.Machine

/-! ## Entries that pass the scale check -/

/-- The scale check passes when each source's scaled bit is the one that its entry asks for. -/
theorem scaleCheck_passes {xs : Bool} {l : List (Val × Bool)} (h : ∀ x ∈ l, x.1.scaled = (x.2 && xs)) (d : DstK) (eff : Mach → Mach)
    (m : Mach) : scaleCheck xs l d eff m = eff m := by
  have hgood : scaleBad xs l = none := by
    rw [scaleBad_eq, Option.map_eq_none_iff, List.find?_eq_none]
    exact fun x hx => by simp [h x hx]
  rw [scaleCheck, hgood]

section
variable {s : State} {d a b : Opd}

theorem exec_fcmp (f : FcmpF) (p : Fin 8) : let F := fmtOf f.shape
    starts s.m [(.flt F, a), (.flt F, b)] (.pred p.val) = true →
    (srcVal s.m (.flt F) a).scaled = f.xs → (srcVal s.m (.flt F) b).scaled = f.xs →
    let n := 128 / F.width; let x := payOf s.m (.flt F) a; let y := payOf s.m (.flt F) b
    let hold := (upto n).all fun i => fcondHolds f.cond (xcmp (fval F (lane F.width x i)) (fval F (lane F.width y i)))
    let nv := snanFlag F (lanesOf F.width n x ++ lanesOf F.width n y)
    exec (.fcmp f p a b) s = .next { s with m := sticky (setPred (readDone s.m [a, b] []) p.val hold) nv } := by
  intro F h ha hb n x y hold nv
  refine next_of_lift (fcmpG f p.val a b) rfl ?_
  rw [fcmpG, fire_starts _ _ _ _ h]
  refine scaleCheck_passes (fun v hv => ?_) _ _ _
  rcases List.mem_pair.mp hv with rfl | rfl
  · exact ha
  · exact hb

theorem exec_fdot (f : FpF) : let F := fmtOf f.shape
    starts s.m [(.flt F, a), (.flt F, b), (.flt F, d)] (.opd d) = true → (srcVal s.m (.flt F) a).scaled = f.xs →
    (srcVal s.m (.flt F) b).scaled = false → (srcVal s.m (.flt F) d).scaled = f.xs →
    let n := 128 / F.width; let x := payOf s.m (.flt F) a; let y := payOf s.m (.flt F) b; let z := payOf s.m (.flt F) d % 2 ^ 32
    let r := Sys2Proof.finish (dotSum f.rnd (fval .f32 z)
        ((upto n).map fun i => xmul (fval F (lane F.width x i)) (fval F (lane F.width y i)))) .f32 f.rnd f.sat
      (snanFlag F (lanesOf F.width n x ++ lanesOf F.width n y) ||| snanFlag .f32 [z])
    exec (.fdot f d a b) s = .next (wrote s [a, b, d] (.opd d) ⟨BitVec.ofNat 128 r.1, false, f.xs⟩ r.2) := by
  intro F h ha hb hd n x y z r
  refine next_of_lift (fdotG f d a b) rfl ?_
  rw [fdotG, fire_starts _ _ _ _ h]
  refine scaleCheck_passes (fun v hv => ?_) _ _ _
  rcases List.mem_cons.mp hv with rfl | hv
  · exact ha
  rcases List.mem_pair.mp hv with rfl | rfl
  · exact hb
  · exact hd

theorem exec_scale (f : SatF) (h : starts s.m [(.flt .f32, a), (.flt .f32, b)] (.opd d) = true)
    (ha : (srcVal s.m (.flt .f32) a).scaled = true) (hb : (srcVal s.m (.flt .f32) b).scaled = false) :
    let r := onLanes 32 4 (fopMul .f32 .rne f.sat) (payOf s.m (.flt .f32) a) (payOf s.m (.flt .f32) b) 0
    exec (.scale f d a b) s = .next (wrote s [a, b] (.opd d) (Val.ofNat r.1) r.2) := by
  refine next_of_lift (scaleG f.sat d a b) rfl ?_
  rw [scaleG, fire_starts _ _ _ _ h]
  refine scaleCheck_passes (fun v hv => ?_) _ _ _
  rcases List.mem_pair.mp hv with rfl | rfl
  · exact ha
  · exact hb

theorem exec_fred (f : FpF) (op : RedOp) : let F := fmtOf f.shape
    starts s.m [(.flt F, a)] (.opd d) = true → (srcVal s.m (.flt F) a).scaled = f.xs →
    let r := treeUp (fredNode op f.rnd f.sat) (Nat.log2 (128 / F.width))
      ((lanesOf F.width (128 / F.width) (payOf s.m (.flt F) a)).map (widen F))
    exec (.fred f op d a) s = .next (wrote s [a] (.opd d) ⟨BitVec.ofNat 128 r.1, false, f.xs⟩ r.2) := by
  intro F h ha r
  refine next_of_lift (fredG f op d a) rfl ?_
  rw [fredG, fire_starts _ _ _ _ h]
  refine scaleCheck_passes (fun v hv => ?_) _ _ _
  obtain rfl := List.mem_singleton.mp hv
  exact ha

theorem exec_fcls (f : ShF) (h : starts s.m [(.flt (fmtOf f.shape), a)] (.opd d) = true) : let F := fmtOf f.shape
    exec (.fcls f d a) s = .next (wroteV s [a] (.opd d)
      (Val.ofNat (onLanes F.width (128 / F.width) (opFcls F) (payOf s.m (.flt F) a) 0 0).1)) :=
  next_of_lift (fclsG (fmtOf f.shape) d a) rfl (fire_starts _ _ _ _ h)

end

/-! ## Conversions (R179): the elements that are packed -/

/-- A bit of packed lanes is a bit of the lane that it falls in. -/
theorem testBit_packLanes {w : Nat} (hw : 0 < w) (l : List Nat) (i : Nat) :
    (packLanes w l).testBit i = (l[i / w]?.getD 0).testBit (i % w) := by
  induction l generalizing i with
  | nil => simp [packLanes]
  | cons x l ih =>
    rw [packLanes, Nat.add_comm, Nat.testBit_two_pow_mul_add _ (Nat.mod_lt _ (Nat.two_pow_pos w))]
    by_cases hi : i < w
    · rw [if_pos hi, Nat.testBit_mod_two_pow, decide_eq_true hi, Bool.true_and, Nat.div_eq_of_lt hi, Nat.mod_eq_of_lt hi]
      rfl
    · obtain ⟨j, rfl⟩ : ∃ j, i = j + w := ⟨i - w, by omega⟩
      rw [if_neg hi, Nat.add_sub_cancel, ih, Nat.add_div_right j hw, Nat.add_mod_right]
      rfl

theorem getD_map_upto (f : Nat → Nat) (n j : Nat) : ((upto n).map f)[j]?.getD 0 = if j < n then f j else 0 := by
  by_cases h : j < n <;> simp [upto, h]

theorem testBit_lane_mod {w : Nat} (hw : 0 < w) (x i : Nat) : (lane w x (i / w)).testBit (i % w) = x.testBit i := by
  rw [lane_eq_div_mod, Nat.testBit_mod_two_pow, decide_eq_true (Nat.mod_lt i hw), Bool.true_and, Nat.testBit_div_two_pow,
    Nat.mod_add_div]

/-- Packed lanes written over `n` lanes of a register from lane `p`: the other lanes stay. -/
theorem setBits_packLanes {w N p n d : Nat} (hw : 0 < w) (hN : w * N = 128) (hfit : p + n ≤ N) (hd : d < 2 ^ 128) (v : Nat → Nat) :
    setBits d (p * w) (n * w) (packLanes w ((upto n).map v))
      = packLanes w ((upto N).map fun e => if p ≤ e ∧ e < p + n then v (e - p) else lane w d e) := by
  refine Nat.eq_of_testBit_eq fun i => ?_
  have hlanes : (p * w ≤ i ∧ i < p * w + n * w) ↔ (p ≤ i / w ∧ i / w < p + n) := by
    rw [Nat.le_div_iff_mul_le hw, Nat.div_lt_iff_lt_mul hw, Nat.add_mul]
  rw [testBit_setBits, testBit_packLanes hw, testBit_packLanes hw, getD_map_upto, getD_map_upto]
  simp only [hlanes]
  by_cases hin : p ≤ i / w ∧ i / w < p + n
  · have hpw : w * p ≤ i := by rw [Nat.mul_comm]; exact (hlanes.mpr hin).1
    have hlane : (i - p * w) / w = i / w - p := by rw [Nat.mul_comm p, Nat.sub_mul_div]
    have hbit : (i - p * w) % w = i % w := by rw [Nat.mul_comm p, Nat.sub_mul_mod hpw]
    rw [if_pos hin, if_pos (by omega : i / w < N), if_pos hin, hlane, hbit, if_pos (by omega)]
  · rw [if_neg hin, if_neg hin]
    by_cases hi : i / w < N
    · rw [if_pos hi, testBit_lane_mod hw]
    · have h128 : 128 ≤ i := by
        rw [← hN, Nat.mul_comm]
        exact (Nat.le_div_iff_mul_le hw).mp (not_lt.mp hi)
      rw [if_neg hi, Nat.zero_testBit, Nat.testBit_lt_two_pow (hd.trans_le (Nat.pow_le_pow_right Nat.two_pos h128))]

/-- The elements of a narrowing conversion lie within the register. -/
theorem narrowed_part_fits {wt wf part : Nat} (hf : 0 < wf) (hpart : part < wf / wt) : part * (128 / wf) + 128 / wf ≤ 128 / wt := by
  calc part * (128 / wf) + 128 / wf = (part + 1) * (128 / wf) := by ring
    _ ≤ wf / wt * (128 / wf) := Nat.mul_le_mul_right _ hpart
    _ ≤ wf * 128 / (wt * wf) := Nat.div_mul_div_le ..
    _ = 128 / wt := by rw [Nat.mul_comm wt, Nat.mul_div_mul_left _ _ hf]

/-- The elements that the model converts and places are those of R179. -/
theorem cvtElems_eq {wt wf part : Nat} (ht : wt * (128 / wt) = 128) (hpart : part < max wf wt / min wf wt)
    (conv : Nat → Nat × Nat) (a : Nat) {d : Nat} (hd : d < 2 ^ 128) :
    cvtElems wt wf part conv a d = convElems wt wf part conv a d := by
  have hw : 0 < wt := Nat.pos_of_ne_zero fun h => by rw [h, Nat.zero_mul] at ht; cases ht
  by_cases h : wt < wf
  · rw [max_eq_left h.le, min_eq_right h.le] at hpart
    have hmax : max wt wf = wf := max_eq_right h.le
    have hset := setBits_packLanes hw ht (narrowed_part_fits (hw.trans h) hpart) hd (fun i => (conv (lane wf a i)).1)
    simp only [cvtElems, convElems, if_pos h, hmax, List.map_map, Function.comp_def, hset]
  · have hmax : Nat.max wt wf = max wt wf := rfl
    simp only [cvtElems, convElems, hmax, if_neg h, List.map_map, Function.comp_def]

/-- A conversion that does not narrow does not read D. -/
theorem cvtElems_kept (wt wf part : Nat) (conv : Nat → Nat × Nat) (a : Nat) (u v : Val) :
    cvtElems wt wf part conv a (natAt (u :: if wt < wf then [v] else []) 1) = cvtElems wt wf part conv a v.pay.toNat := by
  by_cases h : wt < wf
  · rw [if_pos h]
    rfl
  · simp only [cvtElems, if_neg h]

/-- A conversion that starts has read A, and D where it narrows. -/
theorem fire_conversion {m : Mach} {k : LaneK} {a d : Opd} {p : Prop} [Decidable p]
    (h : starts m ((k, a) :: if p then [(.whole, d)] else []) (.opd d) = true) (eff : List Val → Mach → Mach) :
    fire ((k, a) :: if p then [(.whole, d)] else []) (.opd d) eff m
      = eff (srcVal m k a :: if p then [srcVal m .whole d] else []) (readDone m (a :: if p then [d] else []) [d]) := by
  rw [fire_starts _ _ _ _ h]
  split <;> rfl

section
variable {s : State} {d a : Opd}

theorem exec_cvt (f : CvtF) (tf ff : FFmt)
    (h : starts s.m ((.nar ff, a) :: if tf.width < ff.width then [(.whole, d)] else []) (.opd d) = true)
    (ha : (srcVal s.m (.nar ff) a).scaled = f.xs) :
    let conv := fun x => Sys2Proof.finish (fval ff x, 0) tf f.rnd (f.sat && decide (tf.width ≤ ff.width)) (snanFlag ff [x])
    let r := cvtElems tf.width ff.width f.part.val conv (payOf s.m (.nar ff) a) (payOf s.m .whole d)
    exec (.cvt f tf ff d a) s = .next (wrote s (a :: if tf.width < ff.width then [d] else []) (.opd d)
      ⟨BitVec.ofNat 128 r.1, false, f.xs⟩ r.2) := by
  intro conv r
  refine next_of_lift (cvtG f tf ff d a) rfl ?_
  rw [cvtG, fire_conversion h]
  refine (scaleCheck_passes (fun v hv => ?_) _ _ _).trans ?_
  · obtain rfl := List.mem_singleton.mp hv
    exact ha
  · dsimp only
    rw [cvtElems_kept]
    rfl

theorem exec_cvti (f : CviF) (tt ft : ITy)
    (h : starts s.m ((.whole, a) :: if tt.width < ft.width then [(.whole, d)] else []) (.opd d) = true) :
    let r := cvtElems tt.width ft.width f.part.val (cvtInt tt ft f.sat) (payOf s.m .whole a) (payOf s.m .whole d)
    exec (.cvti f tt ft d a) s = .next (wrote s (a :: if tt.width < ft.width then [d] else []) (.opd d) (Val.ofNat r.1) r.2) := by
  refine next_of_lift (cvtiG f tt ft d a) rfl ?_
  rw [cvtiG, fire_conversion h, cvtElems_kept]
  rfl

end

/-- Narrowing, with the two ends of the range apart. -/
theorem narrow_eq_ends (w : Nat) {lo hi : ℤ} (h : lo ≤ hi) (sat : Bool) (v : ℤ) : narrow w lo hi sat v =
    if sat ∧ v < lo then (wrapI w lo, fOV) else if sat ∧ hi < v then (wrapI w hi, fOV) else (wrapI w v, 0) := by
  rw [narrow, ofInt_eq, ofInt_eq]
  by_cases hlo : v < lo
  · have hclamp : max lo (min hi v) = lo := by omega
    have hhi : ¬hi < v := by omega
    simp only [hclamp, hlo, hhi, or_false, and_true, and_false, if_false]
  · by_cases hhi : hi < v
    · have hclamp : max lo (min hi v) = hi := by omega
      simp only [hclamp, hlo, hhi, or_true, and_true, and_false, if_false]
    · simp only [hlo, hhi, or_self, and_false, if_false]

/-- The integer conversion of R179, by the signedness of its types. -/
theorem cvtInt_eq_intConv (tt : ITy) {ft : ITy} (hw : 0 < ft.width) (sat : Bool) : cvtInt tt ft sat = intConv tt ft sat := by
  funext x
  have hp : (0 : ℤ) < 2 ^ (tt.width - 1) := by positivity
  have hq : (0 : ℤ) < 2 ^ tt.width := by positivity
  rw [cvtInt, intConv, asInt_eq _ _ hw, narrowS, narrow_eq_ends _ (by omega), narrow_eq_ends _ (by omega)]
  cases tt.signed <;> rfl

/-! ## The lanes of ITOF, SCALE and FCLS -/

theorem opItof_eq (F : FFmt) (r : Rnd) (zx : Bool) (x y z : Nat) :
    opItof F r zx x y z = roundTo (xint (if zx then (x : ℤ) else asInt F.width x)) F r false := by
  rw [opItof, asInt_eq _ _ (by cases F <;> decide)]

theorem onLanes_fst (w n : Nat) (op : Nat → Nat → Nat → Nat × Nat) (a b d : Nat) :
    (onLanes w n op a b d).1 = packLanes w ((upto n).map fun i => (op (lane w a i) (lane w b i) (lane w d i)).1) := by
  rw [onLanes, List.map_map]
  rfl

/-! ## QBLK (R105, R182) -/

theorem poisonStep_eq_none {vs : List Val} (h : vs.any (·.poison) = false) : poisonStep vs = none := by
  rw [poisonStep_eq_foldl]
  refine foldl_eq_self fun v hv => ?_
  rw [List.any_eq_false] at h
  exact if_neg (h v hv)

theorem peReg_sticky (m : Mach) (fl core pe ctx code : Nat) : peReg (sticky m fl) core pe ctx code = peReg m core pe ctx code := by
  rw [sticky]
  split <;> rfl

theorem sticky_busy (m : Mach) (fl : Nat) : (sticky m fl).pe.busy = m.pe.busy := by
  rw [sticky]
  split <;> rfl

section
variable {m : Mach} {core pe frame slot bank : Nat} {keep : Bool} (hc : m.cur = .pe core pe frame slot bank keep)
include hc

theorem putRegs_cons (d : Nat) (v : Val) (vs : List Val) :
    putRegs m d (v :: vs) = putRegs (setPeReg m core pe (frame * 4 + bank) d v) (d + 1) vs := by
  simp only [putRegs, hc]

theorem putRegs_busy (d : Nat) (vs : List Val) : (putRegs m d vs).pe.busy = m.pe.busy := by
  induction vs generalizing m d with
  | nil => rfl
  | cons v vs ih =>
    have hc' : (setPeReg m core pe (frame * 4 + bank) d v).cur = .pe core pe frame slot bank keep := hc
    rw [putRegs_cons hc, ih hc']
    rfl

theorem peReg_putRegs_below {d code : Nat} (h : code < d) (vs : List Val) :
    peReg (putRegs m d vs) core pe (frame * 4 + bank) code = peReg m core pe (frame * 4 + bank) code := by
  induction vs generalizing m d with
  | nil => rfl
  | cons v vs ih =>
    have hc' : (setPeReg m core pe (frame * 4 + bank) d v).cur = .pe core pe frame slot bank keep := hc
    have hkey : regKey core pe (frame * 4 + bank) code ≠ regKey core pe (frame * 4 + bank) d := by
      unfold regKey
      omega
    rw [putRegs_cons hc, ih hc' (by omega), peReg_setPeReg_other _ _ _ _ _ _ _ _ _ _ hkey]

/-- A value of the list stands in its register. -/
theorem peReg_putRegs {d j : Nat} {v : Val} {vs : List Val} (h : vs[j]? = some v) :
    peReg (putRegs m d vs) core pe (frame * 4 + bank) (d + j) = v := by
  induction vs generalizing m d j with
  | nil => cases h
  | cons w vs ih =>
    have hc' : (setPeReg m core pe (frame * 4 + bank) d w).cur = .pe core pe frame slot bank keep := hc
    rw [putRegs_cons hc]
    cases j with
    | zero =>
      cases h
      rw [Nat.add_zero d, peReg_putRegs_below hc' (Nat.lt_add_one d), peReg_setPeReg_same]
    | succ j => rw [← Nat.add_assoc, Nat.add_right_comm, ih hc' h]

end

/-- What QBLK writes: the element registers, marked scaled, and the scale. -/
def qblkVals (q : QFmt) (g : List Nat × Nat × Nat) : List Val :=
  (upto (qElems q)).map (fun i => (⟨BitVec.ofNat 128 (bits (packLanes (qFmt q).width g.1) (128 * i) 128), false, true⟩ : Val))
    ++ [Val.ofNat g.2.1]

theorem qblkVals_element (q : QFmt) (g : List Nat × Nat × Nat) {j : Nat} (hj : j < qElems q) :
    (qblkVals q g)[j]? = some ⟨BitVec.ofNat 128 (packLanes (qFmt q).width g.1 / 2 ^ (128 * j)), false, true⟩ := by
  have hfield : BitVec.ofNat 128 (bits (packLanes (qFmt q).width g.1) (128 * j) 128)
      = BitVec.ofNat 128 (packLanes (qFmt q).width g.1 / 2 ^ (128 * j)) := by
    rw [bits_eq_div_mod]
    exact BitVec.eq_of_toNat_eq (by simp only [BitVec.toNat_ofNat, Nat.mod_mod])
  rw [qblkVals, List.getElem?_append_left (by simpa [upto] using hj), List.getElem?_map, ← hfield]
  simp [upto, hj]

theorem qblkVals_scale (q : QFmt) (g : List Nat × Nat × Nat) : (qblkVals q g)[qElems q]? = some (Val.ofNat g.2.1) := by
  simp [qblkVals, upto]

/-- A PE that fires no pair in three cycles. -/
def peRests (m : Mach) (core pe : Nat) : Mach := { m with pe.busy := tput 0 (core * 16 + pe) 3 m.pe.busy }

theorem exec_qblk {s : State} {core pe frame slot bank : Nat} {keep : Bool} (hc : s.m.cur = .pe core pe frame slot bank keep)
    (f : QblkF) (dn an : Fin 32) : let vs := (upto 16).map (fun i => peReg s.m core pe (frame * 4 + bank) (an.val + i))
    vs.any (·.poison) = false → vs.any (·.scaled) = false →
    let g := qblkGroup f.fmt (vs.flatMap (fun v => lanesOf 32 4 v.pay.toNat))
    exec (.qblk f (.r dn) (.r an)) s = .next { s with
      m := sticky (putRegs (peRests s.m core pe) dn.val (qblkVals f.fmt g)) g.2.2 } := by
  intro vs hp hs g
  refine next_of_lift (qblkG f.fmt (.r dn) (.r an)) rfl ?_
  simp only [qblkG, hc, peRests]
  rw [poisonStep_eq_none hp, hs]
  rfl

/-! ## The statement -/

theorem snanFlag_singleton (F : FFmt) (x : Nat) : snanFlag F [x] = if isSnan F x then fNV else 0 := by
  rw [snanFlag, List.any_cons, List.any_nil, Bool.or_false]

theorem snanFlag_or (F G : FFmt) (l : List Nat) (x : Nat) :
    snanFlag F l ||| snanFlag G [x] = if l.any (isSnan F) || isSnan G x then fNV else 0 := by
  rw [snanFlag_singleton, snanFlag]
  cases l.any (isSnan F) <;> cases isSnan G x <;> rfl

theorem fmt_lanes (F : FFmt) : F.width * (128 / F.width) = 128 := by cases F <;> rfl
theorem ity_lanes (t : ITy) : t.width * (128 / t.width) = 128 := by cases t <;> rfl
theorem ity_pos (t : ITy) : 0 < t.width := by cases t <;> decide

theorem payOf_lt (m : Mach) (k : LaneK) (o : Opd) : payOf m k o < 2 ^ 128 := (srcVal m k o).pay.isLt

/-- Settles O17: each entry's result by its lemma above; CVT and CVTI by `cvtElems_eq`, which places the converted elements, and QBLK
by what its register writes leave. -/
theorem conversionsAndOthers : Obligations.ConversionsAndOthers := by
  refine ⟨⟨fun s f p a b h ha hb => ?_, fun s f d a b h ha hb hd => ?_, fun s f d a h hs => ?_, fun s f d a h => ?_,
      fun s f d a b h ha hb => ?_, fun s f op d a h ha => exec_fred f op h ha, fun s f d a h => ?_⟩,
    fun s f tf ff d a h ha hok => ?_, fun s f tt ft d a h hok => ?_,
    fun s f dn an core pe frame slot bank keep hc _ _ _ hp hs => ?_⟩
  · rw [exec_fcmp f p h ha hb, upto_all]
    rfl
  · rw [exec_fdot f h ha hb hd, snanFlag_or]
    rfl
  · exact fltEntry_starts s _ _ _ _ _ _ _ _ h hs
  · exact exec_of_sameLanes (i := .itof f d a) rfl (fun x y z _ _ _ => opItof_eq ..) h
  · exact exec_scale f h ha hb
  · rw [exec_fcls f h, onLanes_fst, lanesOf, List.map_map]
    rfl
  · simp only [decide_eq_true_eq] at h ⊢
    simp only [instrOk, Bool.and_eq_true, decide_eq_true_eq] at hok
    rw [exec_cvt f tf ff h ha, cvtElems_eq (fmt_lanes tf) hok.1.2 _ _ (payOf_lt ..)]
    simp only [Sys2Proof.finish, Nat.or_zero, snanFlag_singleton]
  · simp only [decide_eq_true_eq] at h ⊢
    simp only [instrOk, Bool.and_eq_true, decide_eq_true_eq] at hok
    rw [exec_cvti f tt ft h, cvtElems_eq (ity_lanes tt) hok.2 _ _ (payOf_lt ..), cvtInt_eq_intConv _ (ity_pos ft)]
  · have hrests : (peRests s.m core pe).cur = .pe core pe frame slot bank keep := hc
    refine ⟨_, exec_qblk hc f dn an hp hs, fun j hj => ?_, ?_, ?_⟩
    · rw [peReg_sticky, peReg_putRegs hrests (qblkVals_element _ _ hj)]
    · rw [peReg_sticky, peReg_putRegs hrests (qblkVals_scale ..)]
      rfl
    · rw [sticky_busy, putRegs_busy hrests, peRests, tget_tput_same]

end Sys2Proof.Machine

/-! PROOFS. Reading the sources, the handles, and the words of a handle: what the memory instructions share (R4, R16, R206, R207). -/
namespace Sys2Proof.Machine

/-! ## What reading the sources leaves -/

/-- The dequeues of R16 change channels and the free counter. -/
theorem deqSrcs_eq (m : Mach) (os : List Opd) : ∃ chans free, deqSrcs m os = { m with pe.chans := chans, free := free } := by
  unfold deqSrcs
  split
  · refine List.foldlRecOn _ _ (motive := fun t : Mach => ∃ chans free, t = { m with pe.chans := chans, free := free })
      ⟨m.pe.chans, m.free, rfl⟩ ?_
    rintro t ⟨chans, free, rfl⟩ ch -
    dsimp only
    split
    · exact ⟨_, _, rfl⟩
    · split
      · exact ⟨_, _, rfl⟩
      · exact ⟨_, _, rfl⟩
  · exact ⟨m.pe.chans, m.free, rfl⟩

/-- Reading the sources changes channels, a storer's tokens and its p0, and the free counter. -/
theorem readDone_eq (m : Mach) (os ds : List Opd) : ∃ chans units tiles free,
    readDone m os ds = { m with pe.chans := chans, seq.units := units, copy.tiles := tiles, free := free } := by
  cases hc : m.cur with
  | idle =>
    have e : readDone m os ds = m := by simp only [readDone, hc]
    rw [← hc]
    exact ⟨m.pe.chans, m.seq.units, m.copy.tiles, m.free, e⟩
  | pe core pe f k b c =>
    obtain ⟨chans, free, e⟩ := deqSrcs_eq m os
    have hr : readDone m os ds = deqSrcs m os := by simp only [readDone, hc]
    rw [← hc]
    exact ⟨chans, m.seq.units, m.copy.tiles, free, hr.trans e⟩
  | unit u w =>
    obtain ⟨tiles, units, e, -⟩ := readDone_unit m os ds u w hc
    rw [← hc]
    exact ⟨m.pe.chans, units, tiles, m.free, e⟩

theorem readDone_mem (m : Mach) (os ds : List Opd) : (readDone m os ds).mem = m.mem := by
  obtain ⟨_, _, _, _, e⟩ := readDone_eq m os ds
  rw [e]

theorem inAtomic_readDone (m : Mach) (os ds : List Opd) : inAtomic (readDone m os ds) = inAtomic m := by
  obtain ⟨_, _, _, _, e⟩ := readDone_eq m os ds
  rw [e]
  rfl

theorem readHand_readDone (m : Mach) (os ds : List Opd) (h : Nat) : readHand (readDone m os ds) h = readHand m h := by
  obtain ⟨_, _, _, _, e⟩ := readDone_eq m os ds
  rw [e]
  rfl

theorem getHand_readDone (m : Mach) (os ds : List Opd) (o h : Nat) : getHand (readDone m os ds) o h = getHand m o h := by
  obtain ⟨_, _, _, _, e⟩ := readDone_eq m os ds
  rw [e]
  rfl

theorem handPend_readDone (m : Mach) (os ds : List Opd) (o h : Nat) : handPend (readDone m os ds) o h = handPend m o h := by
  obtain ⟨_, _, _, _, e⟩ := readDone_eq m os ds
  rw [e]
  rfl

/-- An instruction that starts has its effect on the values of its sources, whatever registers beside them it waits for. -/
theorem exec_starts {i : Instr} {s : State} {os ds : List Opd} {more : List Nat} {onP : Val → Mach → Mach} {eff : List Val → Mach → Mach}
    (hi : exec i s = .next { s with m := memStart os ds more onP eff s.m }) (h : memStarts s.m os ds more = true) :
    exec i s = .next (after s os ds (eff (os.map (srcVal s.m .whole)))) := by
  rw [hi, memStart_starts s.m os ds more onP eff h]
  rfl

/-- An instruction that names handles starts as others do, unless a handle stalls it. -/
theorem exec_handStart {i : Instr} {s : State} {hs : List Nat} {os ds : List Opd} {more : List Nat} {onP : Val → Mach → Mach}
    {eff : List Val → Mach → Mach}
    (hi : exec i s = .next { s with m := if handStall s.m hs then stall s.m else memStart os ds more onP eff s.m })
    (hstall : handStall s.m hs = false) (h : memStarts s.m os ds more = true) :
    exec i s = .next (after s os ds (eff (os.map (srcVal s.m .whole)))) :=
  exec_starts (hi.trans (by rw [if_neg (Bool.eq_false_iff.mp hstall)])) h

/-! ## A write of a handle -/

/-- A handle that is written reads as written, and every other one as before. -/
theorem getHand_setHand (m : Mach) {o h o' h' : Nat} (v : BitVec 256) (hh : h < 16) (hh' : h' < 16) :
    getHand (setHand m o h v) o' h' = if o' = o ∧ h' = h then v else getHand m o' h' := by
  unfold getHand setHand
  by_cases ho : o < 2048 <;> by_cases ho' : o' < 2048 <;> simp only [ho, ho', if_true, if_false, tget_tput]
  · exact if_congr (by omega) rfl rfl
  · rw [if_neg (by omega)]
  · rw [if_neg (by omega)]
  · exact if_congr (by omega) rfl rfl

theorem setHand_eq (m : Mach) (o h : Nat) (v : BitVec 256) :
    ∃ hands uhands, setHand m o h v = { m with pe.hands := hands, seq.uhands := uhands } := by
  unfold setHand
  split
  · exact ⟨_, m.seq.uhands, rfl⟩
  · exact ⟨m.pe.hands, _, rfl⟩

theorem setHandPend_eq (m : Mach) (o h : Nat) (id : Option Nat) :
    ∃ hpend uhpend, setHandPend m o h id = { m with pe.hpend := hpend, seq.uhpend := uhpend } := by
  unfold setHandPend
  split
  · split
    · exact ⟨_, m.seq.uhpend, rfl⟩
    · exact ⟨m.pe.hpend, _, rfl⟩
  · split
    · exact ⟨_, m.seq.uhpend, rfl⟩
    · exact ⟨m.pe.hpend, _, rfl⟩

theorem setHand_mem (m : Mach) (o h : Nat) (v : BitVec 256) : (setHand m o h v).mem = m.mem := by
  obtain ⟨_, _, e⟩ := setHand_eq m o h v
  rw [e]

theorem setHandPend_mem (m : Mach) (o h : Nat) (id : Option Nat) : (setHandPend m o h id).mem = m.mem := by
  obtain ⟨_, _, e⟩ := setHandPend_eq m o h id
  rw [e]

theorem getHand_setHandPend (m : Mach) (o h : Nat) (id : Option Nat) (o' h' : Nat) :
    getHand (setHandPend m o h id) o' h' = getHand m o' h' := by
  obtain ⟨_, _, e⟩ := setHandPend_eq m o h id
  rw [e]
  rfl

/-! ## The words of a handle -/

theorem testBit_bits (x lo n i : Nat) : (bits x lo n).testBit i = (decide (i < n) && x.testBit (lo + i)) := by
  rw [bits_eq_div_mod, Nat.testBit_mod_two_pow, Nat.testBit_div_two_pow, Nat.add_comm]

/-- A write of one field leaves a field that stands apart from it. -/
theorem bits_setBits_apart {x lo n y lo' n' : Nat} (h : lo' + n' ≤ lo ∨ lo + n ≤ lo') : bits (setBits x lo n y) lo' n' = bits x lo' n' := by
  refine Nat.eq_of_testBit_eq fun i => ?_
  rw [testBit_bits, testBit_bits, testBit_setBits]
  by_cases hi : i < n'
  · rw [if_neg (by omega)]
  · simp [hi]

theorem bits_mod_two_pow {x lo n k : Nat} (h : lo + n ≤ k) : bits (x % 2 ^ k) lo n = bits x lo n := by
  refine Nat.eq_of_testBit_eq fun i => ?_
  rw [testBit_bits, testBit_bits, Nat.testBit_mod_two_pow]
  by_cases hi : i < n
  · rw [decide_eq_true (show lo + i < k by omega), Bool.true_and]
  · simp [hi]

/-- The words of a 256-bit handle after a write of word `k`. -/
theorem word_setWord (x : BitVec 256) (k : Nat) {j v : Nat} (hj : j < 4) (hv : v < 2 ^ 64) :
    bits (BitVec.ofNat 256 (setBits x.toNat (64 * k) 64 v)).toNat (64 * j) 64 = if j = k then v else bits x.toNat (64 * j) 64 := by
  rw [BitVec.toNat_ofNat, bits_mod_two_pow (by omega)]
  split
  · rename_i h
    rw [h, bits_setBits_same, Nat.mod_eq_of_lt hv]
  · exact bits_setBits_apart (by omega)

/-- The value that HSET writes to word `k` of a handle, for an actor that is a shepherd core or not (R4, R207, R213). -/
def hsetWord (k x : Nat) (shep : Bool) : Nat :=
  if k = 0 ∧ bits (handWord k x) 60 4 = 8 ∧ !shep then bits (handWord k x) 0 60 else handWord k x

theorem handWord_eq (k x : Nat) :
    handWord k x = if k = 0 then x - x / 2 ^ 56 % 2 * 2 ^ 56 else if k = 1 then x - x / 2 ^ 56 % 4 * 2 ^ 56 else x := by
  simp only [handWord, setBits, bits_eq_div_mod]
  split_ifs <;> omega

theorem handWord_lt {k x : Nat} (hx : x < 2 ^ 64) : handWord k x < 2 ^ 64 := by
  rw [handWord_eq]
  split_ifs <;> omega

/-- Reserved bits keep 0, and TYPE 8 becomes TYPE 0 outside a shepherd core. -/
theorem hsetWord_eq {k x : Nat} (hx : x < 2 ^ 64) (shep : Bool) : hsetWord k x shep =
    (let v := if k = 0 then x - x / 2 ^ 56 % 2 * 2 ^ 56 else if k = 1 then x - x / 2 ^ 56 % 4 * 2 ^ 56 else x
     if k = 0 ∧ v / 2 ^ 60 = 8 ∧ shep = false then v % 2 ^ 60 else v) := by
  have hlt : handWord k x < 2 ^ 64 := handWord_lt hx
  have htype : bits (handWord k x) 60 4 = handWord k x / 2 ^ 60 := by
    rw [bits_eq_div_mod]
    omega
  rw [← handWord_eq, hsetWord, htype, bits_zero_eq_mod]
  simp only [Bool.not_eq_true']

theorem hsetWord_lt {k x : Nat} (hx : x < 2 ^ 64) (shep : Bool) : hsetWord k x shep < 2 ^ 64 := by
  have hlt : handWord k x < 2 ^ 64 := handWord_lt hx
  rw [hsetWord, bits_zero_eq_mod]
  split_ifs <;> omega

end Sys2Proof.Machine

/-! PROOFS. What an instruction that only makes a request leaves as it was (R204, R210). -/
namespace Sys2Proof.Machine

theorem lt_eight_of_mem_inChans {os : List Opd} {ch : Nat} (h : ch ∈ inChans os) : ch < 8 := by
  simp only [inChans, List.mem_dedup, List.mem_filterMap] at h
  obtain ⟨o, -, ho⟩ := h
  split at ho
  · cases ho
    exact Fin.isLt _
  · cases ho

theorem mem_inChans_append {os ds : List Opd} {ch : Nat} (h : ch ∈ inChans os) : ch ∈ inChans (os ++ ds) := by
  simp only [inChans, List.mem_dedup, List.filterMap_append, List.mem_append] at h ⊢
  exact .inl h

theorem KeepsAll.refl (m : Mach) (os : List Opd) : KeepsAll m m os :=
  ⟨rfl, rfl, rfl, rfl, fun _ _ => rfl, fun _ _ _ => rfl, ⟨rfl, rfl⟩, rfl, rfl, ⟨rfl, rfl, rfl, rfl⟩, fun _ _ _ _ _ _ => rfl⟩

/-- Dequeues change the channels of the firing PE alone. -/
theorem deqSrcs_keeps {m : Mach} {core pe f k b : Nat} {c : Bool} (os ds : List Opd) (hc : m.cur = .pe core pe f k b c) (hpe : pe < 16) :
    KeepsAll m (deqSrcs m os) (os ++ ds) := by
  have hr := deqSrcs_rest m os
  refine ⟨by rw [hr.mem], by rw [hr.mem], by rw [hr.pe], by rw [hr.pe], fun u r => ?_, fun u i _ => ?_, ⟨by rw [hr.pe], by rw [hr.seq]⟩,
    by rw [hr.seq], hr.sys, ⟨by rw [hr.pe], by rw [hr.pe], by rw [hr.pe], by rw [hr.pe]⟩, fun core' pe' ch' hpe' hch' hnot => ?_⟩
  · simp only [sReg, unitOf, hr.seq]
  · simp only [unitOf, hr.seq]
  · refine deqSrcs_chans m os _ fun core2 pe2 f2 k2 b2 c2 hc2 ch hch heq => ?_
    cases hc.symm.trans hc2
    obtain ⟨rfl, rfl, rfl⟩ := chanKey_inj hpe' hch' hpe (lt_eight_of_mem_inChans hch) heq
    exact hnot f k b c hc (mem_inChans_append hch)

/-- Reading the sources changes the channels that a PE dequeues, and the tokens and p0 of a storer tile that reads in0. -/
theorem readDone_keeps (m : Mach) (os ds : List Opd) (hpe : ∀ core pe f k b c, m.cur = .pe core pe f k b c → pe < 16) :
    KeepsAll m (readDone m os ds) (os ++ ds) := by
  cases hc : m.cur with
  | idle =>
    rw [show readDone m os ds = m by simp only [readDone, hc]]
    exact .refl m _
  | pe core pe f k b c =>
    rw [show readDone m os ds = deqSrcs m os by simp only [readDone, hc]]
    exact deqSrcs_keeps os ds hc (hpe core pe f k b c hc)
  | unit u w =>
    obtain ⟨tiles, sp, e, -, hregs, -, hpreds⟩ := readDone_unit m os ds u w hc
    rw [e]
    refine ⟨rfl, rfl, rfl, rfl, fun v r => ?_, hpreds, ⟨rfl, rfl⟩, rfl, rfl, ⟨rfl, rfl, rfl, rfl⟩, fun _ _ _ _ _ _ => rfl⟩
    show (tget 0 r (tget SUnit.reset v sp).s).toNat = (tget 0 r (unitOf m v).s).toNat
    rw [hregs v]

/-- A request that enters joins the requests, and changes nothing that an instruction could read. -/
theorem KeepsAll.addReq {m t : Mach} {os : List Opd} (h : KeepsAll m t os) (r : Req) : KeepsAll m (addReq t r) os :=
  ⟨h.hbm, h.spad, h.regs, h.preds, h.sregs, h.spreds, h.hands, h.sheps, h.sys, h.array, h.chans⟩

/-- Settles O30: the sources are read (`readDone_keeps`), and one request enters. -/
theorem requestFrame : Obligations.RequestFrame := by
  intro s os ds f _ hpe
  refine ⟨(readDone_keeps s.m os ds hpe).addReq _, ?_⟩
  show (readDone s.m os ds).mem.reqs ++ [_] = _
  rw [readDone_mem]

end Sys2Proof.Machine

/-! PROOFS. What a performed store writes (R39, R79, R200, R210, R270, R379, R384). -/
namespace Sys2Proof.Machine

/-! ## A store at its request -/

/-- The port of a tile takes in an effect by what it makes of the machine. -/
theorem enterPort_congr {id : Nat} {g h : Mach → Mach} {s : State} (e : g s.m = h s.m) : enterPort id g s = enterPort id h s := by
  simp only [enterPort, enterFabric, e]

theorem reqPlace_store {r : Req} {pl : Place} {n data : Nat} (h : r.op = .store pl n data) : reqPlace r = some (pl, n, .wr) := by
  simp only [reqPlace, h]

theorem mergedFault_store {m : Mach} {r : Req} {pl : Place} {n data : Nat} {ls : List Loc} (hw : mergedWith m r = [])
    (hop : r.op = .store pl n data) (ht : targetOf m r pl n .wr = .at ls) (hf : faultR m r true ls = none) : mergedFault m r = none := by
  have hk : AccK.wr.writes = true := rfl
  rw [mergedFault_at hw (reqPlace_store hop) ht, hk, hf, Option.map_none]

/-- The answer of a store that may be performed reaches it and the stores merged with it, as its port takes in its flits. -/
theorem exec_storeCompletion {s : State} {id : Nat} {r : Req} {pl : Place} {n data : Nat} {ans : Answer} {m : Mach}
    (hr : reqOf s.m id = some r) (hop : r.op = .store pl n data) (hmay : mayPerform s.m r = true)
    (hm : performStore s.m r pl n data ans = m) : exec (.storeCompletion id ans) s = .next (enterPort id (fun _ => m) s) := by
  refine congrArg Host.Outcome.next (enterPort_congr ?_)
  simp only [storeCompletionG, hr, hop, hmay, if_true, hm]

/-- A store that is merged with the performed one, as long as its request is there. -/
def performMergedStore (m : Mach) (q : Req) : Mach :=
  match reqOf m q.id, q.op with
  | some x, .store pl n data => storeOne m x pl n data .perform
  | _, _ => m

theorem performStore_fails {m : Mach} {r : Req} {pl : Place} {n data c d : Nat} {ls : List Loc} {ans : Answer}
    (h : mergedFault m r = some (c, d, ls)) : performStore m r pl n data ans = failMerged m r c d ls := by
  simp only [performStore, h]

/-- An answer of the outside, or for one byte, is the store's alone. -/
theorem performStore_answered {m : Mach} {r : Req} (pl : Place) (n data : Nat) (ans : Answer) (h : mergedFault m r = none)
    (ha : ans ≠ .perform) : performStore m r pl n data ans = storeOne m r pl n data ans := by
  have hb : (ans != .perform) = true := bne_iff_ne.mpr ha
  have he : (ans == .perform) = false := beq_eq_false_iff_ne.mpr ha
  simp only [performStore, h, hb, he, Bool.true_or, Bool.false_eq_true, if_true, if_false, List.foldl_nil]

/-- A store is performed with the stores that are merged with it, or waits for them. -/
theorem performStore_perform {m : Mach} {r : Req} (pl : Place) (n data : Nat) (h : mergedFault m r = none) :
    performStore m r pl n data .perform =
      if mergedMay m r then (mergedWith m r).foldl performMergedStore (storeOne m r pl n data .perform) else m := by
  have hb : (Answer.perform != .perform) = false := by decide
  have he : (Answer.perform == .perform) = true := by decide
  simp only [performStore, h, hb, he, Bool.false_or, if_true]
  rfl

theorem performStore_sole {m : Mach} {r : Req} (pl : Place) (n data : Nat) (h : mergedFault m r = none) (hw : mergedWith m r = []) :
    performStore m r pl n data .perform = storeOne m r pl n data .perform := by
  rw [performStore_perform pl n data h, hw]
  simp only [mergedMay, hw, List.all_nil, if_true, List.foldl_nil]

/-! ## What one store does at its target -/

/-- The request of a store that is performed. -/
abbrev storeDone (r : Req) : Req := { r with done := true, res := some [tokNat 0] }

section Target
variable {m : Mach} {r : Req} {pl : Place} {n : Nat} {ls : List Loc} (ht : targetOf m r pl n .wr = .at ls)
  (hheld : heldByResv m (ctxCode r.past r.who) ls = false)
include ht hheld

theorem storeOne_perform (data : Nat) : storeOne m r pl n data .perform =
    (let m1 := modReq (endTorn (drawFree (countMove m r)) r.id) r.id storeDone
     let todo := (ls.zip (bytesOf data n)).zipIdx.filter (fun x => !bitAt (tornOf m r).1 x.2)
     flush (storeLocs m1 (todo.map (·.1.1)) (todo.map (·.1.2)))) := by
  simp only [storeOne, ht, hheld, Bool.false_eq_true, if_false]

theorem storeOne_byte (data : Nat) (v : BitVec 128) (hm : misaligned ls = true) : storeOne m r pl n data (.data v) =
    storeLocs (setTorn m r (v.toNat % n) 0) (ls[v.toNat % n]?).toList [BitVec.ofNat 8 (data / 256 ^ (v.toNat % n))] := by
  simp only [storeOne, ht, hheld, hm, Bool.false_eq_true, if_false, if_true]

theorem storeOne_fail (data : Nat) (c : BitVec 8) (d : BitVec 81) : storeOne m r pl n data (.fail c d) =
    if c.toNat = 0 then discarded m r ls (fun p => failMerged m r 0x09 p ls)
    else if failOk r ls c.toNat d.toNat && c.toNat != 0x01 && !mergedBegun m r then failMerged m r c.toNat d.toNat ls else m := by
  simp only [storeOne, ht, hheld, Bool.false_eq_true, if_false]

end Target

/-! ## The credits of a tile's port -/

/-- What no tile has asked for takes effect without a credit. -/
theorem enterPort_noTile {s : State} {id : Nat} {g : Mach → Mach}
    (h : ∀ r u w, reqOf s.m id = some r → r.who = .unit u w → isTile u = false) : enterPort id g s = { s with m := g s.m } := by
  unfold enterPort
  cases hr : reqOf s.m id with
  | none => rfl
  | some r =>
    rw [Option.bind_some]
    cases hwho : r.who with
    | unit u w =>
      have hu := h r u w hr hwho
      cases r.op <;> simp only [hu, Bool.false_eq_true, if_false]
    | _ => rfl

/-- Whether request `id` has taken effect. -/
def tookEffect (id : Nat) (m : Mach) : Bool := match reqOf m id with | some r => r.done | none => true

/-- The flits that the request of a tile takes at the tile's port. -/
def portFlits (r : Req) : Nat := match r.op with | .store _ k _ => max 1 ((k + 15) / 16) | _ => 1

theorem enterPort_tile {s : State} {id : Nat} {g : Mach → Mach} {r : Req} {u w : Nat} (hr : reqOf s.m id = some r)
    (hwho : r.who = .unit u w) (htile : isTile u = true) : enterPort id g s =
      enterFabric u id (portFlits r) (fun _ m1 => tookEffect id m1) g s := by
  unfold enterPort portFlits flitsOf
  rw [hr, Option.bind_some, hwho]
  cases r.op <;> simp only [htile, if_true] <;> rfl

/-! ## A sole store -/

/-- Two machines agree but for what a write marks: units, lines, monitors, write queues, and what has left the package. -/
structure MarksOnly (m t : Mach) : Prop where
  hbm : t.mem.hbm = m.mem.hbm
  spad : t.mem.spad = m.mem.spad
  reqs : t.mem.reqs = m.mem.reqs
  touched : t.sync.touched = m.sync.touched
  pe : t.pe = m.pe
  seq : t.seq = m.seq
  sys : t.sys = m.sys

theorem MarksOnly.refl (m : Mach) : MarksOnly m m := ⟨rfl, rfl, rfl, rfl, rfl, rfl, rfl⟩

theorem MarksOnly.trans {a b c : Mach} (h : MarksOnly a b) (g : MarksOnly b c) : MarksOnly a c :=
  ⟨g.hbm.trans h.hbm, g.spad.trans h.spad, g.reqs.trans h.reqs, g.touched.trans h.touched, g.pe.trans h.pe, g.seq.trans h.seq,
    g.sys.trans h.sys⟩

theorem foldl_marksOnly {α : Type} {f : Mach → α → Mach} (hf : ∀ m a, MarksOnly m (f m a)) (l : List α) (m : Mach) :
    MarksOnly m (l.foldl f m) := by
  induction l generalizing m with
  | nil => exact .refl m
  | cons a l ih => exact (hf m a).trans (ih (f m a))

theorem clearLine_marksOnly (m : Mach) (ls : List Loc) : MarksOnly m (clearLine m ls) := by
  refine foldl_marksOnly (fun m l => ?_) ls m
  split
  · split
    · exact ⟨rfl, rfl, rfl, rfl, rfl, rfl, rfl⟩
    · exact .refl m
  · exact .refl m

theorem clearMarks_marksOnly (m : Mach) (ls : List Loc) : MarksOnly m (clearMarks m ls) := by
  refine foldl_marksOnly (fun m l => ?_) (wholeUnits ls) m
  split
  · exact ⟨rfl, rfl, rfl, rfl, rfl, rfl, rfl⟩
  · exact ⟨rfl, rfl, rfl, rfl, rfl, rfl, rfl⟩
  · exact .refl m

theorem queueWrites_marksOnly (m : Mach) (ls : List Loc) : MarksOnly m (queueWrites m ls) := by
  refine foldl_marksOnly (fun m u => ?_) _ m
  exact ⟨rfl, rfl, rfl, rfl, rfl, rfl, rfl⟩

theorem setBytes_eq (m : Mach) (ls : List Loc) (bs : List Byte) :
    setBytes m ls bs = { m with mem.hbm := (setBytes m ls bs).mem.hbm, mem.spad := (setBytes m ls bs).mem.spad } := by
  induction ls generalizing m bs with
  | nil => rfl
  | cons l ls ih =>
    cases bs with
    | nil => rfl
    | cons b bs =>
      have e := ih (setByte m l b) bs
      simp only [setBytes]
      rw [e]
      cases l <;> rfl

/-- Places without a byte, and bytes without a place, are left out. -/
theorem setBytes_zip (m : Mach) (ls : List Loc) (bs : List Byte) :
    setBytes m ((ls.zip bs).map Prod.fst) ((ls.zip bs).map Prod.snd) = setBytes m ls bs := by
  induction ls generalizing m bs with
  | nil => rfl
  | cons l ls ih =>
    cases bs with
    | nil => rfl
    | cons b bs => exact ih _ _

/-- What a write leaves in the memories depends on them alone. -/
theorem setBytes_congr {m t : Mach} (hh : t.mem.hbm = m.mem.hbm) (hs : t.mem.spad = m.mem.spad) (ls : List Loc) (bs : List Byte) :
    (setBytes t ls bs).mem.hbm = (setBytes m ls bs).mem.hbm ∧ (setBytes t ls bs).mem.spad = (setBytes m ls bs).mem.spad := by
  induction ls generalizing m t bs with
  | nil => exact ⟨hh, hs⟩
  | cons l ls ih =>
    cases bs with
    | nil => exact ⟨hh, hs⟩
    | cons b bs =>
      refine ih (m := setByte m l b) (t := setByte t l b) ?_ ?_ bs
      · cases l <;> simp only [setByte, hh]
      · cases l <;> simp only [setByte, hs]

/-- A store writes its bytes, and beside them what a write marks. -/
theorem storeLocs_eq_wake (m : Mach) (ls : List Loc) (bs : List Byte) : ∃ t, storeLocs m ls bs = wake t ∧ MarksOnly (setBytes m ls bs) t := by
  have hline := clearLine_marksOnly m ls
  refine ⟨_, rfl, MarksOnly.trans (b := setBytes (clearLine m ls) ls bs) ?_ ?_⟩
  · obtain ⟨hhbm, hspad⟩ := setBytes_congr hline.hbm hline.spad ls bs
    rw [setBytes_eq (clearLine m ls), setBytes_eq m]
    exact ⟨hhbm, hspad, hline.reqs, hline.touched, hline.pe, hline.seq, hline.sys⟩
  · generalize setBytes (clearLine m ls) ls bs = x
    have hmons : MarksOnly (clearMarks x ls) (fireMons (clearMarks x ls) ls) := ⟨rfl, rfl, rfl, rfl, rfl, rfl, rfl⟩
    have hqueue := ((clearMarks_marksOnly x ls).trans hmons).trans (queueWrites_marksOnly _ ls)
    exact ⟨hqueue.hbm, hqueue.spad, hqueue.reqs, hqueue.touched, hqueue.pe, hqueue.seq, hqueue.sys⟩

/-- Where every request has ended, no waiter goes on. -/
theorem wake_allDone {m : Mach} (h : ∀ r ∈ m.mem.reqs, r.done = true) : wake m = flush m := by
  have hfail : failWaiters m = m := by
    unfold failWaiters
    rw [List.filter_eq_nil_iff.mpr fun r hr => by simp [h r hr]]
    exact ite_self _
  have hfirst : firstWaiter m = none := by
    unfold firstWaiter
    rw [List.filter_eq_nil_iff.mpr fun r hr => by simp [h r hr]]
    rfl
  have hmwait : wakeMwait m = m := by
    unfold wakeMwait
    dsimp only
    rw [List.filter_eq_nil_iff.mpr fun r hr => ?_]
    · rfl
    · split
      · simp [h r hr]
      · simp
  simp only [wake, hfail, wakeN, hfirst, hmwait]

/-- With no request left, nothing written and no pasture to complete, nothing leaves. -/
theorem flush_idle {m : Mach} (hreqs : m.mem.reqs = []) (htouched : m.sync.touched = []) (hend : ∀ p < 16, (pastOf m p).ending = none) :
    flush m = m := by
  rw [flush_untouched htouched, flushN_idle _ hreqs hend]

/-- The result of the sole request that no one waits for is dropped. -/
theorem flush_sole_dropped {m : Mach} {r : Req} {t : Token} (hreqs : m.mem.reqs = [r]) (hres : r.res = some [t]) (ht : t.eos = false)
    (hdst : r.dst = .drop) (htouched : m.sync.touched = []) (hend : ∀ p < 16, (pastOf m p).ending = none) : flush m = delReq m r.id := by
  have hfirst : firstOfSlot m r = true := firstOfSlot_sole hreqs fun v hv => by rw [hdst] at hv; cases hv
  have hgoes : streamGoes m r = true := by
    simp [streamGoes, isStream, hres, ht]
  have hfind : m.mem.reqs.find? (fun r => r.res.isSome && firstOfSlot m r && streamGoes m r) = some r := by
    simp [hreqs, hres, hfirst, hgoes]
  have hone : flushOne m = some (delReq m r.id) := by
    simp [flushOne, hfind, hres, hdst, deliverTok, writeDst]
  rw [flush_untouched htouched, flushN_succ_of_flushOne _ hone]
  exact flushN_idle _ (by simp [delReq, hreqs]) hend

/-- A sole store without an acknowledgement writes its bytes, and its request is gone. -/
theorem storeLocs_sole_dropped {m : Mach} {r : Req} {t : Token} {ls : List Loc} {bs : List Byte} (hreqs : m.mem.reqs = [r])
    (hdone : r.done = true) (hres : r.res = some [t]) (ht : t.eos = false) (hdst : r.dst = .drop) (htouched : m.sync.touched = [])
    (hend : ∀ p < 16, (pastOf m p).ending = none) :
    let x := flush (storeLocs m ls bs)
    x.mem.hbm = (setBytes m ls bs).mem.hbm ∧ x.mem.spad = (setBytes m ls bs).mem.spad ∧ x.pe = m.pe ∧ x.seq = m.seq ∧ x.sys = m.sys
      ∧ x.mem.reqs = [] := by
  obtain ⟨y, hy, hmarks⟩ := storeLocs_eq_wake m ls bs
  have hset := setBytes_eq m ls bs
  have hyreqs : y.mem.reqs = [r] := by rw [hmarks.reqs, hset]; exact hreqs
  have hytouched : y.sync.touched = [] := by rw [hmarks.touched, hset]; exact htouched
  have hysys : y.sys = m.sys := by rw [hmarks.sys, hset]
  have hyend : ∀ p < 16, (pastOf y p).ending = none := fun p hp => by
    rw [pastOf, hysys]
    exact hend p hp
  have hgone : (delReq y r.id).mem.reqs = [] := by simp [delReq, hyreqs]
  intro x
  have hx : x = delReq y r.id := by
    show flush (storeLocs m ls bs) = _
    rw [hy, wake_allDone (by simp [hyreqs, hdone]), flush_sole_dropped hyreqs hres ht hdst hytouched hyend]
    exact flush_idle hgone hytouched hyend
  rw [hx]
  exact ⟨hmarks.hbm, hmarks.spad, hmarks.pe.trans (by rw [hset]), hmarks.seq.trans (by rw [hset]), hysys, hgone⟩

/-- A lane's count of flits touches nothing but the fabric. -/
theorem countFlit_fabOnly (m : Mach) (p line : Nat) : FabOnly m (countFlit m p line) := by
  unfold countFlit
  split
  · exact ⟨m.fab, rfl⟩
  · split
    · exact ⟨_, rfl⟩
    · exact ⟨m.fab, rfl⟩

theorem leafR_withFab (m : Mach) (fab : FabS) (r : Req) (va : Nat) : leafR { m with fab := fab } r va = leafR m r va := rfl

/-- An access to no migrate page counts its flits alone. -/
theorem countMove_fabOnly {m : Mach} {r : Req}
    (h : ∀ va ∈ moveVas m r, ∀ e, leafR m r (va / 65536 * 65536) = .ok e → bits e 5 2 ≠ 3) : FabOnly m (countMove m r) := by
  obtain ⟨fab, hfab⟩ : FabOnly m (sendFlits m r (reqLocs m r)) :=
    foldl_fabOnly (f := fun m (x : Nat × Nat) => countFlit m x.1 x.2) (fun m x => countFlit_fabOnly m x.1 x.2) _ m
  refine ⟨fab, ?_⟩
  unfold countMove
  rw [hfab]
  refine foldl_eq_self fun va hva => countAt_notMigrate ?_
  obtain ⟨v, hv, rfl⟩ := List.mem_map.mp (List.mem_eraseDups.mp hva)
  exact fun e he => h v hv e ((leafR_withFab m fab r _).symm.trans he)

/-- Every byte of a store is still to be written where none has been written before. -/
theorem todo_untorn {m : Mach} {r : Req} (l : List (Loc × Byte)) (h : tfind r.id m.mem.torn = none) :
    l.zipIdx.filter (fun x => !bitAt (tornOf m r).1 x.2) = l.zipIdx := by
  have h0 : (tornOf m r).1 = 0 := by simp [tornOf, tget, h]
  refine List.filter_eq_self.mpr fun x _ => ?_
  simp [h0, bitAt]

theorem map_fst_zipIdx {α β : Type} (f : α → β) (l : List α) : l.zipIdx.map (fun x => f x.1) = l.map f := by
  have h := congrArg (List.map f) (List.zipIdx_map_fst 0 l)
  rwa [List.map_map] at h

/-- A sole request that ends as a store, with what it leaves as it was. -/
theorem storeDone_sole {m : Mach} {r : Req} {fab : FabS} (hreqs : m.mem.reqs = [r]) (hfab : countMove m r = { m with fab := fab }) :
    let t := modReq (endTorn (drawFree (countMove m r)) r.id) r.id storeDone
    t.mem.reqs = [storeDone r] ∧ t.mem.hbm = m.mem.hbm ∧ t.mem.spad = m.mem.spad ∧ t.sync.touched = m.sync.touched ∧ t.pe = m.pe
      ∧ t.seq = m.seq ∧ t.sys = m.sys := by
  rw [hfab]
  simp [modReq, endTorn, drawFree, reqOf, hreqs, setReq]

/-- A sole store of which no byte has been written before, and which no one acknowledges, writes its bytes and changes no register. -/
theorem storeOne_sole_dropped {m : Mach} {r : Req} {pl : Place} {n data : Nat} {ls : List Loc} (hreqs : m.mem.reqs = [r])
    (hdst : r.dst = .drop) (ht : targetOf m r pl n .wr = .at ls) (hheld : heldByResv m (ctxCode r.past r.who) ls = false)
    (hcount : FabOnly m (countMove m r)) (htorn : tfind r.id m.mem.torn = none) (htouched : m.sync.touched = [])
    (hend : ∀ p < 16, (pastOf m p).ending = none) :
    let t := storeOne m r pl n data .perform
    t.mem.hbm = (setBytes m ls (bytesOf data n)).mem.hbm ∧ t.mem.spad = (setBytes m ls (bytesOf data n)).mem.spad ∧ t.pe = m.pe
      ∧ t.seq = m.seq ∧ t.sys = m.sys ∧ t.mem.reqs = [] := by
  obtain ⟨fab, hfab⟩ := hcount
  have hx := storeOne_perform ht hheld data
  simp only [todo_untorn _ htorn, map_fst_zipIdx Prod.fst, map_fst_zipIdx Prod.snd] at hx
  obtain ⟨hreqs1, hhbm1, hspad1, htouched1, hpe1, hseq1, hsys1⟩ := storeDone_sole hreqs hfab
  generalize modReq (endTorn (drawFree (countMove m r)) r.id) r.id storeDone = m1 at hx hreqs1 hhbm1 hspad1 htouched1 hpe1 hseq1 hsys1
  have hend1 : ∀ p < 16, (pastOf m1 p).ending = none := fun p hp => by
    rw [pastOf, hsys1]
    exact hend p hp
  obtain ⟨hhbm, hspad, hpe, hseq, hsys, hnone⟩ := storeLocs_sole_dropped (ls := (ls.zip (bytesOf data n)).map Prod.fst)
    (bs := (ls.zip (bytesOf data n)).map Prod.snd) hreqs1 rfl rfl rfl hdst (htouched1.trans htouched) hend1
  obtain ⟨hhbm2, hspad2⟩ := setBytes_congr hhbm1 hspad1 ls (bytesOf data n)
  rw [setBytes_zip] at hhbm hspad
  rw [hx]
  exact ⟨hhbm.trans hhbm2, hspad.trans hspad2, hpe.trans hpe1, hseq.trans hseq1, hsys.trans hsys1, hnone⟩

/-- Settles O33: a store at its request is `storeOne` at its target, and what it is merged with `performStore_perform`; its flits enter a
tile's port as `enterPort_tile` says. -/
theorem storesPerformed : Obligations.StoresPerformed := by
  refine ⟨fun s id r pl n data ls hr hop hmay hw ht hf hheld => ?_, fun s id g => enterPort_noTile,
    fun s id g r u w hr hwho htile hdone => ?_, fun s id r pl n data ls v hr hop hmay ht hf hheld hm => ?_,
    fun s id r pl n data ls c d hr hop hmay ht hf hheld => ?_, ?sole, fun s id r pl n data c d ls ans hr hop hmay hf => ?_,
    fun s id r pl n data hr hop hmay hf => ?_, ?crc, fun pa bs => ?_⟩
  · refine exec_storeCompletion hr hop hmay ?_
    rw [performStore_sole pl n data (mergedFault_store hw hop ht hf) hw, storeOne_perform ht hheld, id_of_reqOf hr]
  · have hmoves : tookEffect id (g s.m) = true := by
      unfold tookEffect
      split
      · exact hdone _ ‹_›
      · rfl
    rw [enterPort_tile hr hwho htile, enterFabric_moves hmoves]
    rfl
  · refine exec_storeCompletion hr hop hmay ?_
    rw [performStore_answered pl n data (.data v) hf nofun, storeOne_byte ht hheld data v hm]
  · refine exec_storeCompletion hr hop hmay ?_
    rw [performStore_answered pl n data (.fail c d) hf nofun, storeOne_fail ht hheld data c d]
  case sole =>
    intro s id r pl n data ls hreqs hid hop hdst hmay ht hf hheld hmig htile htorn htouched hend
    have hr : reqOf s.m id = some r := by simp [reqOf, hreqs, hid]
    have hw : mergedWith s.m r = [] := mergedWith_sole hreqs
    have hx := exec_storeCompletion hr hop hmay (performStore_sole pl n data (mergedFault_store hw hop ht hf) hw)
    rw [enterPort_noTile (fun q u w hq => by cases hr.symm.trans hq; exact htile u w)] at hx
    exact ⟨_, hx, storeOne_sole_dropped hreqs hdst ht hheld (countMove_fabOnly hmig) (hid ▸ htorn) htouched hend⟩
  · exact exec_storeCompletion hr hop hmay (performStore_fails hf)
  · exact exec_storeCompletion hr hop hmay (performStore_perform pl n data hf)
  case crc => simp [crc32c, crcByte, List.range_succ]
  · simp [checkCode, List.range_succ]

end Sys2Proof.Machine

/-! PROOFS. The commit buffer of an atomic frame (R22, R206). -/
namespace Sys2Proof.Machine

/-! ## Commit order -/

theorem posLt_trans {x y z : ChainPos} (h : posLt x y = true) (g : posLt y z = true) : posLt x z = true := by
  simp only [posLt, Bool.or_eq_true, Bool.and_eq_true, decide_eq_true_eq, beq_iff_eq] at h g ⊢
  omega

theorem posLt_asymm {x y : ChainPos} (h : posLt x y = true) : posLt y x = false := by
  rw [Bool.eq_false_iff]
  intro g
  simp only [posLt, Bool.or_eq_true, Bool.and_eq_true, decide_eq_true_eq, beq_iff_eq] at h g
  omega

/-- A store has its place before another: it is chained, and the other is not or stands behind it in chain order. -/
theorem bufBefore_iff {x y : BufStore} : bufBefore x y = true ↔
    ∃ a, x.pos = some a ∧ ∀ b, y.pos = some b → a.chain < b.chain ∨ a.chain = b.chain ∧ posLt a b = true := by
  unfold bufBefore
  cases hx : x.pos <;> cases hy : y.pos <;> simp

theorem bufBefore_trans {x y z : BufStore} (h : bufBefore x y = true) (g : bufBefore y z = true) : bufBefore x z = true := by
  rw [bufBefore_iff] at h g ⊢
  obtain ⟨a, ha, hab⟩ := h
  obtain ⟨b, hb, hbc⟩ := g
  refine ⟨a, ha, fun c hc => ?_⟩
  rcases hab b hb, hbc c hc with ⟨h1 | ⟨h1, p1⟩, h2 | ⟨h2, p2⟩⟩
  · exact .inl (h1.trans h2)
  · exact .inl (h2 ▸ h1)
  · exact .inl (h1 ▸ h2)
  · exact .inr ⟨h1.trans h2, posLt_trans p1 p2⟩

theorem bufBefore_asymm {x y : BufStore} (h : bufBefore x y = true) : bufBefore y x = false := by
  rw [Bool.eq_false_iff]
  intro g
  rw [bufBefore_iff] at h g
  obtain ⟨a, ha, hab⟩ := h
  obtain ⟨b, hb, hba⟩ := g
  rcases hab b hb, hba a ha with ⟨h1 | ⟨h1, p1⟩, h2 | ⟨h2, p2⟩⟩
  · omega
  · omega
  · omega
  · rw [posLt_asymm p1] at p2
    cases p2

theorem insBuf_perm (e : BufStore) (es : List BufStore) : (insBuf e es).Perm (e :: es) := by
  induction es with
  | nil => exact .refl _
  | cons x xs ih =>
    rw [insBuf]
    split
    · exact .refl _
    · exact (ih.cons x).trans (.swap e x xs)

/-- A store enters behind those that its place is not before, so that the buffer stays in commit order. -/
theorem insBuf_sorted (e : BufStore) {es : List BufStore} (h : es.Pairwise (fun x y => bufBefore y x = false)) :
    (insBuf e es).Pairwise (fun x y => bufBefore y x = false) := by
  induction es with
  | nil => exact List.pairwise_singleton _ _
  | cons x xs ih =>
    obtain ⟨hx, hxs⟩ := List.pairwise_cons.mp h
    rw [insBuf]
    split
    next hbefore =>
      refine List.pairwise_cons.mpr ⟨fun y hy => ?_, h⟩
      rcases List.mem_cons.mp hy with rfl | hy
      · exact bufBefore_asymm hbefore
      · rw [Bool.eq_false_iff]
        intro hye
        exact absurd ((bufBefore_trans hye hbefore).symm.trans (hx y hy)) (by decide)
    next hbehind =>
      refine List.pairwise_cons.mpr ⟨fun y hy => ?_, ih hxs⟩
      rcases List.mem_cons.mp ((insBuf_perm e xs).mem_iff.mp hy) with rfl | hy
      · exact Bool.eq_false_iff.mpr hbehind
      · exact hx y hy

/-! ## A store that enters its bank's share -/

theorem commit_bufferStore {m : Mach} {core pe f k b : Nat} {c : Bool} (pl : Place) (n data sc : Nat) (rel : Bool) (hw : Option Nat)
    (hc : m.cur = .pe core pe f k b c) :
    let es := tget [] (ctxKey core f b) m.pe.commit
    tget [] (ctxKey core f b) (bufferStore m pl n data sc rel none hw).pe.commit = insBuf ⟨posOf m, m.cur, pl, n, data, sc, rel,
      if bufUsed es + n ≤ 4096 then none else some (poison m m.cur 0x06 (bufUsed es)).pay, hw⟩ es := by
  simp only [bufferStore, hc, tget_tset, if_true, ← Nat.not_lt, ite_not]

/-! ## COMMIT -/

/-- The request by which COMMIT issues a buffered store, as ST would have. -/
def commitReq (m : Mach) (b : Binding) (p : Nat) (e : BufStore) : Req :=
  ⟨m.ids, e.who, b.act, kindSect b, p, .drop, .store e.pl e.len e.data, e.scope, false, e.rel, e.pos, none, false, none, none, false, none⟩

/-- The machine after COMMIT has issued the first store of a bank, which leaves the stores `rest`. -/
def commitIssued (m : Mach) (key : Nat) (b : Binding) (p : Nat) (e : BufStore) (rest : List BufStore) : Mach :=
  addReq { m with pe.commit := tput [] key rest m.pe.commit } (commitReq m b p e)

section Commit
variable {m : Mach} {core ctx p : Nat} {b : Binding} {e : BufStore} {rest : List BufStore}
  (hb : tfind (core * 8 + ctx) m.pe.binds = some b) (hend : b.ending = true) (hp : livePast m core = some p) (hrun : running m p = true)
  (hes : tget [] (core * 8 + ctx) m.pe.commit = e :: rest)
include hb hend hp hrun hes

theorem commitG_waits (hw : e.hwait.isSome = true) : commitG core ctx m = m := by
  simp [commitG, hb, hend, hp, hrun, hes, hw]

theorem commitG_issues (hw : e.hwait = none) (h : (∃ q f, b.kind = .routine q f) ∨ rest ≠ []) :
    commitG core ctx m = commitIssued m (core * 8 + ctx) b p e rest := by
  simp only [commitG, hb, hend, hp, hrun, hes, hw, Option.any_some, Bool.not_true, Bool.or_self, Bool.false_eq_true, if_false,
    Option.isSome_none, Option.getD_some]
  split
  · rfl
  · rename_i hkind
    rcases h with ⟨q, f, h⟩ | h
    · exact absurd h (hkind q f)
    · exact absurd rfl h
  · rfl

theorem commitG_releases (hw : e.hwait = none) (hkind : ∀ q f, b.kind ≠ .routine q f) (hrest : rest = []) :
    commitG core ctx m = releaseCtx (commitIssued m (core * 8 + ctx) b p e rest) core ctx false := by
  subst hrest
  simp only [commitG, hb, hend, hp, hrun, hes, hw, Option.any_some, Bool.not_true, Bool.or_self, Bool.false_eq_true, if_false,
    Option.isSome_none, Option.getD_some]
  rfl

end Commit

/-- Settles O34: the buffer stays in commit order (`insBuf_sorted`), and COMMIT takes its first store. -/
theorem commitOrder : Obligations.CommitOrder := by
  refine ⟨fun e es h => ⟨insBuf_sorted e h, insBuf_perm e es⟩,
    fun m pl n data sc rel hw core pe f k b c hc => commit_bufferStore pl n data sc rel hw hc,
    fun s core ctx b p e rest hb hend hp hrun hes => ⟨fun hw => next_of_lift (commitG core ctx) rfl (commitG_waits hb hend hp hrun hes hw),
      fun hw => ⟨fun h => next_of_lift (commitG core ctx) rfl (commitG_issues hb hend hp hrun hes hw h),
        fun hkind hrest => next_of_lift (commitG core ctx) rfl (commitG_releases hb hend hp hrun hes hw hkind hrest)⟩⟩⟩

end Sys2Proof.Machine

/-! PROOFS. The requests of loads and stores, and the handle registers (R4, R22, R206-R208, R210, R213). -/
namespace Sys2Proof.Machine

/-! ## Loads and stores -/

/-- A store outside an atomic frame makes its request. -/
theorem issueStore_asks {m : Mach} (d : Opd) (pl : Place) (n data sc : Nat) (rel : Bool) (hw : Option Nat) (h : inAtomic m = false) :
    issueStore m d pl n data sc rel hw =
      addReq m { mkReq m (ackOf m d) (.store pl n (data % 256 ^ n)) sc false rel with hwait := hw } := by
  simp only [issueStore, h, Bool.false_eq_true, if_false]

/-- A store in an atomic frame enters its bank's share of the commit buffer. -/
theorem issueStore_buffers {m : Mach} (d : Opd) (pl : Place) (n data sc : Nat) (rel : Bool) (hw : Option Nat) (h : inAtomic m = true) :
    issueStore m d pl n data sc rel hw = bufferStore m pl n (data % 256 ^ n) sc rel none hw := by
  simp only [issueStore, h, if_true]

/-- A store starts as other instructions do, and reads its data before its tokens go. -/
theorem storeStart_starts {f : MemF} {b : Opd} {os : List Opd} {m : Mach} (onP : Val → Mach → Mach) (eff : List Val → Nat → Mach → Mach)
    (h : memStarts m os [] (pairReg m (widthBytes f.width == 16) b) = true) :
    storeStart f b os onP eff m = eff (os.map (srcVal m .whole)) (wideVal m b) (readDone m os []) :=
  memStart_starts m os [] _ onP (fun vs => eff vs (wideVal m b)) h

/-- A load starts as other instructions do. -/
theorem loadStart_starts {n : Nat} {d : Opd} {os : List Opd} {m : Mach} (eff : List Val → Mach → Mach)
    (h : memStarts m os [d] (pairReg m (n == 16) d) = true) :
    loadStart n d os eff m = eff (os.map (srcVal m .whole)) (readDone m os [d]) :=
  memStart_starts m os [d] _ _ eff h

section Issue
variable {s : State} {f : MemF} {d a b : Opd}

theorem exec_ld (h : memStarts s.m [a, b] [d] (pairReg s.m (widthBytes f.width == 16) d) = true) :
    exec (.ld f d a b) s = .next (after s [a, b] [d] (fun m => issueLoad m f d
      (.virt ((payOf s.m .whole a % 2 ^ 64 + payOf s.m .whole b % 2 ^ 64) % 2 ^ 64)) f.scope.code none)) :=
  next_of_lift (ldG f d a b) rfl (by rw [ldG, loadStart_starts _ h]; rfl)

theorem exec_lds (h : memStarts s.m [a, b] [d] (pairReg s.m (widthBytes f.width == 16) d) = true) :
    let sa := (payOf s.m .whole a + payOf s.m .whole b) % 2 ^ 32
    exec (.lds f d a b) s = .next (after s [a, b] [d] (fun m => issueLoad m f d (.scratch sa) (scratchScope m sa f.scope.code) none)) :=
  next_of_lift (ldsG f d a b) rfl (by rw [ldsG, loadStart_starts _ h]; rfl)

/-- A load through a handle that does not stall waits where the handle is pending. -/
theorem exec_ldh {h : Fin 16} (hstall : handStall s.m [h.val] = false)
    (hst : memStarts s.m [b] [d] (pairReg s.m (widthBytes f.width == 16) d) = true) :
    exec (.ldh f d (.h h) b) s = .next (after s [b] [d] (fun m => issueLoad m f d
      (.hand (handOwner m.cur) h.val (readHand m h.val).1 (payOf s.m .whole b % 2 ^ 64)) f.scope.code (readHand m h.val).2)) :=
  next_of_lift (ldhG f d (.h h) b) rfl ((if_neg (Bool.eq_false_iff.mp hstall)).trans (loadStart_starts _ hst))

theorem exec_st (h : memStarts s.m [a, b] [] (pairReg s.m (widthBytes f.width == 16) b) = true) :
    exec (.st f d a b) s = .next (after s [a, b] [] (fun m => issueStore m d (.virt (payOf s.m .whole a % 2 ^ 64)) (widthBytes f.width)
      (wideVal s.m b) f.scope.code (isRelO f.order) none)) :=
  next_of_lift (stG f d a b) rfl (by rw [stG, storeStart_starts _ _ h]; rfl)

theorem exec_sts (h : memStarts s.m [a, b] [] (pairReg s.m (widthBytes f.width == 16) b) = true) :
    exec (.sts f d a b) s = .next (after s [a, b] [] (fun m => issueStore m d (.scratch (payOf s.m .whole a % 2 ^ 32)) (widthBytes f.width)
      (wideVal s.m b) (scratchScope m (payOf s.m .whole a % 2 ^ 32) f.scope.code) (isRelO f.order) none)) :=
  next_of_lift (stsG f d a b) rfl (by rw [stsG, storeStart_starts _ _ h]; rfl)

theorem exec_sth {h : Fin 16} (hstall : handStall s.m [h.val] = false)
    (hst : memStarts s.m [b, d] [] (pairReg s.m (widthBytes f.width == 16) b) = true) :
    exec (.sth f d (.h h) b) s = .next (after s [b, d] [] (fun m => issueStore m .zero
      (.hand (handOwner m.cur) h.val (readHand m h.val).1 (payOf s.m .whole d % 2 ^ 64)) (widthBytes f.width) (wideVal s.m b) f.scope.code
      (isRelO f.order) (readHand m h.val).2)) :=
  next_of_lift (sthG f d (.h h) b) rfl ((if_neg (Bool.eq_false_iff.mp hstall)).trans (storeStart_starts _ _ hst))

end Issue

/-- An output channel is no D for a store through a handle: it is not acknowledged. -/
theorem ackOf_zero (m : Mach) : ackOf m .zero = .drop := by
  unfold ackOf
  split
  · rename_i h
    cases h
  · rfl

/-! ## HSET and HGET -/

section Handles
variable {s : State} {h : Fin 16} {b : Fin 4}

/-- HSET writes its word at once, or after the SNAP that its handle is pending on. -/
theorem exec_hset {a : Opd} (hst : memStarts s.m [a] [] [] = true) (hstall : handStall s.m [h.val] = false) :
    exec (.hset (.h h) a b) s = .next (after s [a] [] (fun m =>
      let v := hsetWord b.val (payOf s.m .whole a % 2 ^ 64) (isShepActor m.cur)
      match handPend m (handOwner m.cur) h.val with
      | some id => addReq m { mkReq m .drop (.hset (handOwner m.cur) h.val b.val (BitVec.ofNat 64 v)) 5 false false with hwait := some id }
      | none => setHand m (handOwner m.cur) h.val
          (BitVec.ofNat 256 (setBits (getHand m (handOwner m.cur) h.val).toNat (64 * b.val) 64 v)))) :=
  (exec_handStart (i := .hset (.h h) a b) rfl hstall hst :)

theorem exec_hget {d : Opd} (hst : memStarts s.m [] [d] [] = true) (hstall : handStall s.m [h.val] = false) :
    exec (.hget d (.h h) b) s = .next (after s [] [d] (fun m =>
      match (readHand m h.val).2 with
      | some id => addReq m { mkReq m (dstOf m d false) (.hget (handOwner m.cur) h.val b.val) 5 false false with hwait := some id }
      | none => resultNow m (dstOf m d false) (.hget (handOwner m.cur) h.val b.val)
          (tokNat (bits (readHand m h.val).1.toNat (64 * b.val) 64)))) :=
  (exec_handStart (i := .hget d (.h h) b) rfl hstall hst :)

end Handles

theorem hset_pending {s : State} {h : Fin 16} {b : Fin 4} {a : Opd} {id : Nat} (hst : memStarts s.m [a] [] [] = true)
    (hstall : handStall s.m [h.val] = false) (hp : handPend s.m (handOwner s.m.cur) h.val = some id) :
    ∃ t r, exec (.hset (.h h) a b) s = .next t ∧ t.m.mem.reqs = s.m.mem.reqs ++ [r] ∧ r.hwait = some id
      ∧ (∃ v, r.op = .hset (handOwner s.m.cur) h.val b.val v) ∧ (∀ o g, getHand t.m o g = getHand s.m o g) := by
  have hx := exec_hset (b := b) hst hstall
  simp only [after, handPend_readDone, readDone_actor, hp] at hx
  exact ⟨_, _, hx, congrArg (·.reqs ++ _) (readDone_mem ..), rfl, ⟨_, rfl⟩, fun o g => getHand_readDone s.m [a] [] o g⟩

theorem hset_writes {s : State} {h : Fin 16} {b : Fin 4} {a : Opd} (hst : memStarts s.m [a] [] [] = true)
    (hstall : handStall s.m [h.val] = false) (hp : handPend s.m (handOwner s.m.cur) h.val = none) :
    exec (.hset (.h h) a b) s = .next (after s [a] [] (fun m => setHand m (handOwner s.m.cur) h.val
      (BitVec.ofNat 256 (setBits (getHand s.m (handOwner s.m.cur) h.val).toNat (64 * b.val) 64
        (hsetWord b.val (payOf s.m .whole a % 2 ^ 64) (isShepActor s.m.cur)))))) := by
  have hx := exec_hset (b := b) hst hstall
  simp only [after, handPend_readDone, readDone_actor, getHand_readDone, hp] at hx
  exact hx

/-- Settles O31: each instruction makes its request as it starts, and HSET writes its word (`word_setWord`). -/
theorem loadsAndStores : Obligations.LoadsAndStores := by
  refine ⟨fun f d a b s h => exec_ld h, fun f d a b s h => exec_lds h,
    fun f d h b s hstall hst => exec_ldh hstall hst, fun f d a b s h hat => ?_, fun f d a b s h hat => ?_,
    fun f d h b s hstall hst hat => ?_, fun f d a b s h hat => ?_, fun f d a b s h hat => ?_,
    fun f d h b s hstall hst hat => ?_, fun h a b s hst hstall hp => ?_, fun d h b s hst hstall hp => ?_,
    fun h a b s id hst hstall hp => hset_pending hst hstall hp, fun d h b s id hst hstall hp => ?_⟩
  · rw [exec_st h, after, issueStore_asks d _ _ _ _ _ _ ((inAtomic_readDone ..).trans hat)]
    rfl
  · rw [exec_sts h, after, issueStore_asks d _ _ _ _ _ _ ((inAtomic_readDone ..).trans hat)]
    rfl
  · rw [exec_sth hstall hst, after, issueStore_asks .zero _ _ _ _ _ _ ((inAtomic_readDone ..).trans hat), ackOf_zero]
    rfl
  · rw [exec_st h, after, issueStore_buffers d _ _ _ _ _ _ ((inAtomic_readDone ..).trans hat)]
    rfl
  · rw [exec_sts h, after, issueStore_buffers d _ _ _ _ _ _ ((inAtomic_readDone ..).trans hat)]
    rfl
  · rw [exec_sth hstall hst, after, issueStore_buffers .zero _ _ _ _ _ _ ((inAtomic_readDone ..).trans hat)]
    rfl
  · have hx : payOf s.m .whole a % 2 ^ 64 < 2 ^ 64 := Nat.mod_lt _ (by decide)
    have hex := hset_writes (b := b) hst hstall hp
    simp only [after] at hex
    refine ⟨_, hex, fun k hk => ?_, fun o g hg hne => ?_, (setHand_mem ..).trans (readDone_mem ..)⟩
    · rw [getHand_setHand _ _ h.isLt h.isLt, if_pos ⟨rfl, rfl⟩, word_setWord _ _ hk (hsetWord_lt hx _), hsetWord_eq hx]
      split
      · rename_i hkb
        rw [hkb]
      · rfl
    · rw [getHand_setHand _ _ h.isLt hg, if_neg (by omega), getHand_readDone]
  · have hx := exec_hget (b := b) hst hstall
    simp only [after, readHand_readDone, hp] at hx
    rw [hx, answered, after, readDone_actor]
  · have hx := exec_hget (b := b) hst hstall
    simp only [after, readHand_readDone, readDone_actor, hp] at hx
    exact hx

end Sys2Proof.Machine

/-! PROOFS. Gather windows, page fault-in, snapshots, append, publication and fences as they are issued (R208, R215-R221). -/
namespace Sys2Proof.Machine

/-! ## WBIND -/

/-- The machine after WBIND leaves the image `v` in handle `d` of its executor. -/
def bindLeaves (m : Mach) (d : Fin 16) (v : BitVec 256) : Mach :=
  setHandPend (setHand m (handOwner m.cur) d.val v) (handOwner m.cur) d.val none

theorem bindLeaves_getHand (m : Mach) (d : Fin 16) (v : BitVec 256) : getHand (bindLeaves m d v) (handOwner m.cur) d.val = v := by
  rw [bindLeaves, getHand_setHandPend, getHand_setHand _ _ d.isLt d.isLt, if_pos ⟨rfl, rfl⟩]

theorem bindLeaves_mem (m : Mach) (d : Fin 16) (v : BitVec 256) : (bindLeaves m d v).mem = m.mem := by
  rw [bindLeaves, setHandPend_mem, setHand_mem]

/-- The lowest free window of pasture `p`. -/
def freeWindow (m : Mach) (p : Nat) : Option Nat := (upto 16).find? (fun w => !thas (p * 16 + w) m.mem.windows)

theorem freeWindow_none {m : Mach} {p : Nat} (h : ∀ w < 16, thas (p * 16 + w) m.mem.windows = true) : freeWindow m p = none := by
  refine List.find?_eq_none.mpr fun w hw => ?_
  rw [h w (List.mem_range.mp hw)]
  decide

/-- The window that WBIND binds to its handles. -/
def boundWindow (f : ScBF) (a b : Fin 16) (m : Mach) : Window := ⟨false, f.bit, (readHand m a.val).1, (readHand m b.val).1, f.scope.code⟩

/-- The machine after WBIND binds window `w` to its handles. -/
def windowBound (f : ScBF) (d a b : Fin 16) (w : Nat) (m : Mach) : Mach :=
  bindLeaves { m with mem.windows := tset (pastOfActor m m.cur * 16 + w) (boundWindow f a b m) m.mem.windows } d
    (windowImage (readHand m a.val).1 (readHand m b.val).1 w)

theorem windowBound_mem (f : ScBF) (d a b : Fin 16) (w : Nat) (m : Mach) : (windowBound f d a b w m).mem
    = { m.mem with windows := tset (pastOfActor m m.cur * 16 + w) (boundWindow f a b m) m.mem.windows } := by
  rw [windowBound, bindLeaves_mem]

/-- The machine after a WBIND that does not stall. -/
def wbound (f : ScBF) (d a b : Fin 16) (m : Mach) : Mach :=
  match freeWindow m (pastOfActor m m.cur) with
  | some w =>
    if (readHand m a.val).2.isNone && (readHand m b.val).2.isNone && windowOk (readHand m a.val).1 (readHand m b.val).1 then
      windowBound f d a b w m
    else bindLeaves m d 0
  | none => bindLeaves m d 0

section Wbind
variable {f : ScBF} {d a b : Fin 16} {s : State} (hstall : handStall s.m [d.val, a.val, b.val] = false)
include hstall

theorem exec_wbind : exec (.wbind f (.h d) (.h a) (.h b)) s = .next { s with m := wbound f d a b s.m } :=
  next_of_lift (wbindG f (.h d) (.h a) (.h b)) rfl (if_neg (Bool.eq_false_iff.mp hstall))

theorem exec_wbind_refused
    (h : windowOk (readHand s.m a.val).1 (readHand s.m b.val).1 = false ∨ (readHand s.m a.val).2.isSome = true
      ∨ (readHand s.m b.val).2.isSome = true ∨ (∀ w < 16, thas (pastOfActor s.m s.m.cur * 16 + w) s.m.mem.windows = true)) :
    exec (.wbind f (.h d) (.h a) (.h b)) s = .next { s with m := bindLeaves s.m d 0 } := by
  rw [exec_wbind hstall, wbound]
  split
  next w hw =>
    rw [if_neg]
    simp only [Bool.and_eq_true, not_and, Option.isNone_iff_eq_none]
    rintro ⟨ha, hb⟩ hok
    rcases h with h | h | h | h
    · rw [h] at hok
      cases hok
    · rw [ha] at h
      cases h
    · rw [hb] at h
      cases h
    · rw [freeWindow_none h] at hw
      cases hw
  next => rfl

theorem exec_wbind_binds {w : Nat} (hw : freeWindow s.m (pastOfActor s.m s.m.cur) = some w) (ha : (readHand s.m a.val).2 = none)
    (hb : (readHand s.m b.val).2 = none) (hok : windowOk (readHand s.m a.val).1 (readHand s.m b.val).1 = true) :
    exec (.wbind f (.h d) (.h a) (.h b)) s = .next { s with m := windowBound f d a b w s.m } := by
  rw [exec_wbind hstall]
  simp only [wbound, hw, ha, hb, hok, Option.isNone_none, Bool.and_self, if_true]

end Wbind

/-! ## WFREE and WINDOW_FREE -/

/-- The machine after window `w` of pasture `p` is freed, and the handle that named it is TYPE 0; request `id` is gone. -/
def windowFreed (m : Mach) (id p o h w : Nat) : Mach :=
  let m1 := setHandPend (setHand (delReq m id) o h (BitVec.ofNat 256 (setBits (getHand m o h).toNat 60 4 0))) o h none
  { m1 with mem.windows := tdel (p * 16 + w) m1.mem.windows }

theorem windowFreed_type (m : Mach) (id p o w : Nat) {h : Nat} (hh : h < 16) : hType (getHand (windowFreed m id p o h w) o h) = 0 := by
  have e : getHand (windowFreed m id p o h w) o h = BitVec.ofNat 256 (setBits (getHand m o h).toNat 60 4 0) :=
    (getHand_setHandPend _ o h none o h).trans ((getHand_setHand _ _ hh hh).trans (if_pos ⟨rfl, rfl⟩))
  rw [e, hType, BitVec.toNat_ofNat, bits_mod_two_pow (by decide), bits_setBits_same, Nat.zero_mod]

theorem windowFreed_mem (m : Mach) (id p o h w : Nat) : (windowFreed m id p o h w).mem
    = { (delReq m id).mem with windows := tdel (p * 16 + w) m.mem.windows } := by
  simp only [windowFreed, setHandPend_mem, setHand_mem]
  rfl

theorem reqOf_windowFreed (m : Mach) (id p o h w : Nat) : reqOf (windowFreed m id p o h w) id = none := by
  rw [reqOf, windowFreed_mem]
  exact List.find?_eq_none.mpr fun q hq => by simpa [delReq] using (List.mem_filter.mp hq).2

/-- A window through which no access is under way is freed, unless its pasture is pre-empted. -/
theorem windowFreeG_frees {m : Mach} {id o h w : Nat} {r : Req} (hr : reqOf m id = some r) (hop : r.op = .wfree o h w)
    (himage : (pastOf m r.past).image = none)
    (hbusy : m.mem.reqs.any (fun q => throughWindow q r.past w && !q.done && q.granted.isSome) = false) :
    windowFreeG id m = windowFreed m id r.past o h w := by
  have himage' : (pastOf (delReq m id) r.past).image = none := himage
  simp only [windowFreeG, hr, hop, hbusy, Bool.false_eq_true, if_false, setHandP, getHandP, himage, himage']
  rfl

theorem windowFreeG_waits {m : Mach} {id o h w : Nat} {r : Req} (hr : reqOf m id = some r) (hop : r.op = .wfree o h w)
    (hbusy : m.mem.reqs.any (fun q => throughWindow q r.past w && !q.done && q.granted.isSome) = true) : windowFreeG id m = m := by
  simp only [windowFreeG, hr, hop, hbusy, if_true]

/-- Whether an access reaches window `w` of pasture `p` now: it is issued, and waits for no handle. -/
def reaches (m : Mach) (p w : Nat) (r : Req) : Bool := throughWindow r p w && !r.done && r.hwait.isNone && posReady m r

/-- The requests as WFREE marks those that reach its window. -/
def marked (m : Mach) (p w : Nat) (reqs : List Req) : List Req :=
  reqs.map (fun r => if reaches m p w r then { r with granted := some (w, 1) } else r)

/-- The machine in which window `k` is closed. -/
def windowClosed (m : Mach) (k : Nat) (y : Window) : Mach := { m with mem.windows := tset k { y with closed := true } m.mem.windows }

theorem marked_busy (m : Mach) (p w : Nat) (reqs : List Req) :
    (marked m p w reqs).any (fun q => throughWindow q p w && !q.done && q.granted.isSome)
      = reqs.any (fun r => throughWindow r p w && !r.done && (r.granted.isSome || (r.hwait.isNone && posReady m r))) := by
  rw [marked, List.any_map]
  congr 1
  funext r
  simp only [Function.comp_apply]
  split
  next h =>
    simp only [reaches, Bool.and_eq_true] at h
    obtain ⟨⟨⟨h1, h2⟩, h3⟩, h4⟩ := h
    have h1' : throughWindow { r with granted := some (w, 1) } p w = true := h1
    simp [h1, h1', h2, h3, h4]
  next h =>
    simp only [reaches, Bool.not_eq_true] at h
    cases h1 : throughWindow r p w <;> cases h2 : r.done <;> simp_all

theorem marked_eq_self {m : Mach} {p w : Nat} {reqs : List Req}
    (h : reqs.any (fun r => throughWindow r p w && !r.done && (r.granted.isSome || (r.hwait.isNone && posReady m r))) = false) :
    marked m p w reqs = reqs := by
  refine (List.map_congr_left fun r hr => if_neg ?_).trans (List.map_id _)
  have hr := List.any_eq_false.mp h r hr
  simp only [reaches, Bool.and_eq_true, Bool.or_eq_true, not_and] at hr ⊢
  rintro ⟨⟨h1, h2⟩, h3⟩ h4
  exact hr ⟨h1, h2⟩ (.inr ⟨h3, h4⟩)

/-- The machine after WFREE has closed its window and asked for its end. -/
def freeAsked (m : Mach) (a : Fin 16) (w : Nat) (y : Window) : Mach :=
  let p := pastOfActor m m.cur
  let m1 := windowClosed m (p * 16 + w) y
  addReq { m1 with mem.reqs := marked m1 p w m.mem.reqs } (mkReq m1 .drop (.wfree (handOwner m.cur) a.val w) 5 false false)

theorem freeAsked_reqs (m : Mach) (a : Fin 16) (w : Nat) (y : Window) :
    let p := pastOfActor m m.cur
    (freeAsked m a w y).mem.reqs = marked (windowClosed m (p * 16 + w) y) p w m.mem.reqs
      ++ [mkReq (windowClosed m (p * 16 + w) y) .drop (.wfree (handOwner m.cur) a.val w) 5 false false] := rfl

section Asked
variable {m : Mach} (a : Fin 16) (w : Nat) (y : Window) (hids : ∀ r ∈ m.mem.reqs, r.id < m.ids)
include hids

theorem marked_id_ne (n : Mach) (p : Nat) {q : Req} (hq : q ∈ marked n p w m.mem.reqs) : q.id ≠ m.ids := by
  obtain ⟨r, hr, rfl⟩ := List.mem_map.mp hq
  have hlt := hids r hr
  split <;> exact Nat.ne_of_lt hlt

/-- The request for the window's end is the one that WFREE makes. -/
theorem reqOf_freeAsked : reqOf (freeAsked m a w y) m.ids =
    some (mkReq (windowClosed m (pastOfActor m m.cur * 16 + w) y) .drop (.wfree (handOwner m.cur) a.val w) 5 false false) := by
  rw [reqOf, freeAsked_reqs, List.find?_append, List.find?_eq_none.mpr fun q hq => by simpa using marked_id_ne w hids _ _ hq, Option.none_or]
  exact List.find?_cons_of_pos (beq_self_eq_true m.ids)

/-- Without that request the others are left. -/
theorem delReq_freeAsked : (delReq (freeAsked m a w y) m.ids).mem.reqs
    = marked (windowClosed m (pastOfActor m m.cur * 16 + w) y) (pastOfActor m m.cur) w m.mem.reqs := by
  show (freeAsked m a w y).mem.reqs.filter (fun r => r.id != m.ids) = _
  rw [freeAsked_reqs, List.filter_append, List.filter_eq_self.mpr fun q hq => by simpa using marked_id_ne w hids _ _ hq]
  simp [mkReq, windowClosed]

omit hids in
/-- The request itself goes through no window. -/
theorem freeAsked_busy : (freeAsked m a w y).mem.reqs.any (fun q => throughWindow q (pastOfActor m m.cur) w && !q.done && q.granted.isSome)
    = m.mem.reqs.any (fun r => throughWindow r (pastOfActor m m.cur) w && !r.done
      && (r.granted.isSome || (r.hwait.isNone && posReady (windowClosed m (pastOfActor m m.cur * 16 + w) y) r))) := by
  rw [freeAsked_reqs, List.any_append, marked_busy]
  simp [throughWindow, mkReq]

end Asked

/-- A WFREE that does not stall, through the handle of a window, closes the window and asks for its end at once. -/
theorem exec_wfree {s : State} {a : Fin 16} {y : Window} (hstall : handStall s.m [a.val] = false) (htype : hType (readHand s.m a.val).1 = 6)
    (hp : (readHand s.m a.val).2 = none) :
    let w := bits (hAux0 (readHand s.m a.val).1) 0 4
    tfind (pastOfActor s.m s.m.cur * 16 + w) s.m.mem.windows = some y →
    exec (.wfree (.h a)) s = .next { s with m := windowFreeG s.m.ids (freeAsked s.m a w y) } := by
  intro w hy
  refine next_of_lift (wfreeG (.h a)) rfl ((if_neg (Bool.eq_false_iff.mp hstall)).trans ?_)
  simp only [hanNo, htype, hp, hy, bne_self_eq_false, Option.isSome_none, Bool.or_self, Bool.false_eq_true, if_false, w]
  rfl

/-! ## Pages -/

theorem exec_pft {s : State} {f : ScF} {a b : Opd} (h : memStarts s.m [a, b] [] (pairReg s.m true a) = true)
    (hok : pftOk (wideVal s.m a) = true) : exec (.pft f a b) s = .next (issued s [a, b] [] (fun m =>
      mkReq m .drop (.pft (wideVal s.m a % 2 ^ 128) (payOf s.m .whole b % 2 ^ 64)) f.scope.code false true)) := by
  refine next_of_lift (pftG f a b) rfl ?_
  rw [pftG, memStart_starts _ _ _ _ _ _ h]
  exact if_pos hok

theorem exec_append {s : State} {f : ApF} {d a b : Opd}
    (h : memStarts s.m [a, b] [d] (pairReg s.m (widthBytes f.width == 16) b) = true) :
    exec (.append f d a b) s = .next (issued s [a, b] [d] (fun m => mkReq m (dstOf m d false) (.append (payOf s.m .whole a % 2 ^ 64)
      (widthBytes f.width) (wideVal s.m b % 256 ^ widthBytes f.width)) f.scope.code false false)) := by
  refine next_of_lift (appendG f d a b) rfl ?_
  rw [appendG, memStart_starts _ _ _ _ _ _ h]
  rfl

/-- PUBL reads B as the version it publishes, unless it resets the page. -/
theorem exec_publ {s : State} {f : ScBF} {d a b : Opd} (h : memStarts s.m (if f.bit then [a] else [a, b]) [d] [] = true) :
    let os := if f.bit then [a] else [a, b]
    exec (.publ f d a b) s = .next (issued s os [d] (fun m => mkReq m (dstOf m d false)
      (.publ (natAt (os.map (srcVal s.m .whole)) 0 % 2 ^ 64) (natAt (os.map (srcVal s.m .whole)) 1 % 2 ^ 32) f.bit) f.scope.code false true)) :=
  (exec_memStart (i := .publ f d a b) rfl h :)

/-- Settles O35: WBIND as `exec_wbind_binds` and `exec_wbind_refused` say, WFREE and WINDOW_FREE by `windowFreeG`; the others make their
requests as they start. -/
theorem windowsAndPages : Obligations.WindowsAndPages := by
  refine ⟨fun f d a b s w hstall => ?bind, fun f d a b s hstall h => ?refused, fun a s y hstall htype hp => ?wfree,
    fun s id r o h w hr hop hh himage hbusy => ?_, fun f a b s h hok => ?_, fun f d a b s h hstall => ?_, fun f d a b s h => ?_,
    fun f d a b s hb h => ?_, fun f d a b s hb h => ?_, fun f d s h => (exec_memStart (i := .fence f d) rfl h :)⟩
  case bind =>
    intro p ix src hw ha hb hok
    exact ⟨_, exec_wbind_binds hstall hw ha hb hok, bindLeaves_getHand _ d _, by rw [windowBound_mem]; exact tfind_tset_same ..,
      fun k hk => by rw [windowBound_mem]; exact tfind_tset_other _ _ _ _ hk, by rw [windowBound_mem]⟩
  case refused =>
    exact ⟨_, exec_wbind_refused hstall h, bindLeaves_getHand s.m d 0, bindLeaves_mem s.m d 0⟩
  case wfree =>
    intro w k m1 busy hy hids
    have hx := exec_wfree hstall htype hp hy
    have hr := reqOf_freeAsked a w y hids
    have hbusy := freeAsked_busy (m := s.m) a w y
    refine ⟨fun hb => ?_, fun hb himage => ?_⟩
    · rw [windowFreeG_waits hr rfl (hbusy.trans hb)] at hx
      exact ⟨_, hx, tfind_tset_same .., by rw [freeAsked_reqs, List.getLast?_concat]; rfl, rfl⟩
    · rw [windowFreeG_frees hr rfl himage (hbusy.trans hb)] at hx
      refine ⟨_, hx, ?_, windowFreed_type _ _ _ _ _ a.isLt, ?_, ?_⟩
      · rw [windowFreed_mem]
        exact tfind_tdel_same ..
      · rw [windowFreed_mem]
        exact (delReq_freeAsked a w y hids).trans (marked_eq_self hb)
      · rw [windowFreed_mem]
        rfl
  · refine ⟨_, next_of_lift (windowFreeG id) rfl (windowFreeG_frees hr hop himage hbusy), ?_, windowFreed_type _ _ _ _ _ hh,
      reqOf_windowFreed ..⟩
    rw [windowFreed_mem]
    exact tfind_tdel_same ..
  · exact exec_pft h hok
  · exact exec_handStart (i := .snap f (.h d) a b) rfl hstall h
  · exact exec_append h
  · have hx := exec_publ (f := f) (d := d) (a := a) (b := b) (s := s) (by rwa [hb])
    simp only [hb, Bool.false_eq_true, if_false] at hx
    exact hx
  · have hx := exec_publ (f := f) (d := d) (a := a) (b := b) (s := s) (by rwa [hb])
    simp only [hb, if_true] at hx
    exact hx

end Sys2Proof.Machine

/-! PROOFS. Fences, the arrival of a prefetch, timeouts, failed peers and page walks (R79, R194, R195, R220, R221, R231, R257, R258). -/
namespace Sys2Proof.Machine

/-! ## A request in the list -/

/-- A request that is modified under its id is found so. -/
theorem reqOf_modReq {m : Mach} {id : Nat} {r : Req} {f : Req → Req} (hr : reqOf m id = some r) (hf : (f r).id = r.id) :
    reqOf (modReq m id f) id = some (f r) := by
  have hid : r.id = id := id_of_reqOf hr
  have hsame : ((fun x : Req => x.id == id) ∘ fun x => if x.id == (f r).id then f r else x) = fun x => x.id == id := by
    funext x
    simp only [Function.comp_apply, hf, hid]
    split
    next h => rw [hf, hid, beq_self_eq_true, h]
    next => rfl
  have hm : modReq m id f = setReq m (f r) := by simp only [modReq, hr]
  rw [hm, reqOf, setReq, List.find?_map, hsame, show m.mem.reqs.find? _ = some r from hr, Option.map_some, hf, beq_self_eq_true, if_pos rfl]

theorem modReq_hbm (m : Mach) (id : Nat) (f : Req → Req) : (modReq m id f).mem.hbm = m.mem.hbm := by
  unfold modReq
  split <;> rfl

theorem modReq_tlb (m : Mach) (id : Nat) (f : Req → Req) : (modReq m id f).mem.tlb = m.mem.tlb := by
  unfold modReq
  split <;> rfl

/-! ## Fences (R221) -/

/-- The value of a fence's D: 0, or FAIL with the peer that it has noted. -/
def fenceValue (r : Req) : Nat := match r.granted with | some (p, _) => 2 ^ 63 + p | none => 0

/-- A fence completes when no access that it covers is outstanding, and its unit goes on. -/
def fenceEnded (m : Mach) (id : Nat) (r : Req) : Mach :=
  match r.who with
  | .unit u w => resumeWord (finish m id (fenceValue r)) u w
  | _ => finish m id (fenceValue r)

theorem fenceCompletionG_eq {m : Mach} {id : Nat} {r : Req} (hr : reqOf m id = some r) (hf : isFence r = true) (hpos : posReady m r = true)
    (hrun : ∀ u w, r.who = .unit u w → isShepherd u = true ∨ running m r.past = true) :
    fenceCompletionG id m = if m.mem.reqs.any (fenceWaits m r) then m else fenceEnded m id r := by
  cases hwho : r.who with
  | unit u w =>
    have hgate : (!isShepherd u && !running m r.past) = false := by
      rcases hrun u w hwho with h | h <;> simp [h]
    simp only [fenceCompletionG, fenceEnded, hr, hf, hpos, hwho, hgate, Bool.not_true, Bool.false_or]
    rfl
  | _ =>
    simp only [fenceCompletionG, fenceEnded, hr, hf, hpos, hwho, Bool.not_true, Bool.false_or]
    rfl

/-! ## The arrival of a prefetch (R220, R231) -/

/-- The failure of a unit of a prefetch: its side, its number, cause and detail. -/
def pftFailure (desc : Nat) (x : Nat × Except (Nat × Nat) (List Loc × List Byte)) : Option (Nat × Nat × Nat × Nat) :=
  match x.2 with
  | .error e => some (0, desc % 2 ^ 56 / 64 + x.1, e.1, e.2)
  | .ok _ => none

/-- A unit of a prefetch that does not fail is written. -/
def pftCopy (m : Mach) (x : Nat × Except (Nat × Nat) (List Loc × List Byte)) : Mach :=
  match x.2 with
  | .ok u => writeLocs m u.1 u.2
  | .error _ => m

theorem movePft_eq (m : Mach) (r : Req) (desc : Nat) (bad : List Nat) : movePft m r desc bad =
    (let n := bits desc 96 32 / 64
     let units := (upto n).map (fun i => (i, pftUnit m r desc bad i))
     let fails := units.filterMap (pftFailure desc)
     let m1 := sendFlits (countUnits m r ((upto n).map (fun i => desc % 2 ^ 56 / 64 + i))) r (nextLocs m r)
     (units.foldl pftCopy
       (unitRecords (markUnits { m1 with free := m.free + 64 * n } r (unitLocs m r .pft (desc % 2 ^ 56, 64 * n)) fails) r 0 (fun _ => false)
         fails), fails.length)) := by
  unfold movePft
  simp only [bits_zero_eq_mod]
  rw [List.filterMap_congr (g := pftFailure desc) fun x _ => by rcases x with ⟨i, e | u⟩ <;> rfl]
  exact congrArg₂ Prod.mk (List.foldl_ext _ _ _ fun m x _ => by rcases x with ⟨i, e | u⟩ <;> rfl) rfl

/-- A prefetch that is not held back copies its units and arrives at its barrier. -/
theorem pftArrivalG_arrives {m n : Mach} {id desc obj fails : Nat} {bad : List Nat} {r : Req} (hr : reqOf m id = some r)
    (hop : r.op = .pft desc obj) (hgr : r.granted = none) (hmay : mayIssue m r = true) (hlane : pftLaneHeld m r desc obj bad = false)
    (hrange : rangeHeld m r = false) (hmove : movePft m r desc bad = (n, fails)) (hitem : itemHeld n r.past 0 = false) :
    pftArrivalG id bad m = pftArrive n r obj fails bad := by
  simp only [pftArrivalG, hr, hop, hgr, hmay, hlane, hrange, hmove, hitem, Bool.not_true, Bool.or_self, Bool.false_eq_true, if_false]

/-- What the arrival adds to the barrier: one arrival, and the failures. -/
def arrived (old fails : Nat) : Nat := min (old / 2 ^ 32 + fails) (2 ^ 32 - 1) * 2 ^ 32 + min (old % 2 ^ 32 + 1) (2 ^ 32 - 1)

/-- The arrival at a barrier object that nothing makes fail. -/
theorem pftArrive_counts {m : Mach} {r : Req} {obj fails : Nat} {bad : List Nat} {ls : List Loc} (hobj : obj % 8 = 0)
    (hls : virtR m r obj 8 .atomW = .ok ls) (hf : faultR m r false ls = none) (hu : (ls.head?).bind (unitFault m r bad 2 0) = none) :
    pftArrive m r obj fails bad =
      if heldByResv m (ctxCode r.past r.who) ls then modReq m r.id (fun x => { x with granted := some (fails, 0) })
      else if ls.any isOutside then flush (delReq m r.id)
      else writeLocs (delReq m r.id) ls (bytesOf (arrived (locsRead m ls) fails) 8) := by
  simp only [pftArrive, hobj, hls, hf, hu, bne_self_eq_false, Bool.false_eq_true, if_false, Option.orElse_none]
  rfl

/-! ## Timeouts (R79, R257) -/

theorem scopeTimeoutG_fails {m : Mach} {id : Nat} {r : Req} (hr : reqOf m id = some r) (ht : timesOut r = true) (hmay : mayIssue m r = true) :
    scopeTimeoutG id m = failSync m r (timeoutFault m r).1 (timeoutFault m r).2 (awaited m r) := by
  simp only [scopeTimeoutG, hr, ht, hmay, Bool.not_true, Bool.or_self, Bool.false_eq_true, if_false]

theorem timeoutFault_scope {m : Mach} {r : Req} (hpeer : peerOfReq m r = none) (hhost : ∀ l ∈ awaited m r, ∀ t a, l = .host t a → t = 0) :
    timeoutFault m r = (0x0C, 2 * timeScope m r) := by
  have hfind : (awaited m r).findSome? (fun l => match l with | .host t _ => if 1 ≤ t then some t else none | _ => none) = none := by
    refine List.findSome?_eq_none_iff.mpr fun l hl => ?_
    split
    next t a => rw [hhost _ hl t a rfl]; rfl
    next => rfl
  simp only [timeoutFault, hpeer]
  split
  next h => cases h
  next t _ h => cases hfind.symm.trans h
  next => rfl

theorem timeoutFault_peer {m : Mach} {r : Req} {p : Nat} (hpeer : peerOfReq m r = some p) :
    timeoutFault m r = if 6 ≤ timeScope m r then (0x09, p) else (0x0C, 2 * timeScope m r) := by
  simp only [timeoutFault, hpeer]

/-! ## Page walks (R194, R195) -/

/-- A walk puts its entry first in each TLB that its actor fills. -/
def tlbFilled (x : TlbE) (keys : List Nat) (m : Mach) : Mach :=
  keys.foldl (fun m k => { m with mem.tlb := tset k ((x :: tget [] k m.mem.tlb).take (if k < 1000 then 64 else 4096)) m.mem.tlb }) m

theorem tlbFilled_eq (x : TlbE) (keys : List Nat) (m : Mach) : ∃ tlb, tlbFilled x keys m = { m with mem.tlb := tlb }
    ∧ ∀ k, k ∈ keys ∨ (tget [] k m.mem.tlb).head? = some x → (tget [] k tlb).head? = some x := by
  induction keys generalizing m with
  | nil => exact ⟨m.mem.tlb, rfl, fun k hk => hk.resolve_left List.not_mem_nil⟩
  | cons k0 keys ih =>
    obtain ⟨tlb, e, hkeep⟩ := ih { m with
      mem.tlb := tset k0 ((x :: tget [] k0 m.mem.tlb).take (if k0 < 1000 then 64 else 4096)) m.mem.tlb }
    refine ⟨tlb, e, fun k hk => hkeep k ?_⟩
    by_cases h : k = k0
    · refine .inr ?_
      rw [h, tget_tset, if_pos rfl]
      split <;> rfl
    · rcases hk with hk | hk
      · exact .inl ((List.mem_cons.mp hk).resolve_left h)
      · exact .inr (by rwa [tget_tset, if_neg h])

/-- The TLB entry of a leaf that a request's walk finds. -/
def walkEntry (m : Mach) (r : Req) (va e : Nat) : TlbE :=
  ⟨tlbTag (isShepActor r.who) (pastOf m r.past).asid, va / pteSize e * pteSize e, pteSize e, e⟩

theorem pageWalkG_keeps {m : Mach} {id va e : Nat} {r : Req} (hr : reqOf m id = some r) (hva : reqVa r = some va) (hdone : r.done = false)
    (hx : r.xlat = none) (hlt : va < 2 ^ 56) (hw : walk m (isShepActor r.who) (pastOf m r.past).xroot va = .ok e) :
    pageWalkG id m = modReq (tlbFilled (walkEntry m r va e) (tlbKeys r.who) m) id
      (fun x => { x with xlat := some (va / pteSize e * pteSize e, e) }) := by
  have hcond : (r.done || r.xlat.isSome || decide (2 ^ 56 ≤ va)) = false := by
    rw [hdone, hx, decide_eq_false (Nat.not_le.mpr hlt)]
    rfl
  simp only [pageWalkG, hr, hva, hw, hcond, Bool.false_eq_true, if_false]
  rfl

theorem pageWalk_fills {s : State} {id va e : Nat} {r : Req} (hr : reqOf s.m id = some r) (hva : reqVa r = some va) (hdone : r.done = false)
    (hx : r.xlat = none) (hlt : va < 2 ^ 56) (hw : walk s.m (isShepActor r.who) (pastOf s.m r.past).xroot va = .ok e) :
    ∃ t, exec (.pageWalk id) s = .next t
      ∧ (reqOf t.m id).map (·.xlat) = some (some (va / pteSize e * pteSize e, e))
      ∧ (∀ k ∈ tlbKeys r.who, (tget [] k t.m.mem.tlb).head? = some (walkEntry s.m r va e))
      ∧ t.m.mem.hbm = s.m.mem.hbm := by
  obtain ⟨tlb, he, hheads⟩ := tlbFilled_eq (walkEntry s.m r va e) (tlbKeys r.who) s.m
  have hg := pageWalkG_keeps hr hva hdone hx hlt hw
  rw [he] at hg
  refine ⟨_, next_of_lift (pageWalkG id) rfl hg, ?_, fun k hk => ?_, ?_⟩
  · rw [reqOf_modReq (m := { s.m with mem.tlb := tlb }) hr rfl]
    rfl
  · rw [modReq_tlb]
    exact hheads k (.inl hk)
  · rw [modReq_hbm]

/-- Settles O36: a fence ends as `fenceEnded`, a prefetch moves its units as `movePft_eq` says and arrives as `pftArrive_counts` does, and a
walk fills the TLBs (`tlbFilled_eq`). -/
theorem fencesAndWalks : Obligations.FencesAndWalks := by
  refine ⟨fun s id r hr hf hpos hrun => ?fence, fun s id r desc obj bad ls hr hop hgr hmay hlane hrange hobj => ?prefetch,
    fun s id r hr ht hmay => next_of_lift (scopeTimeoutG id) rfl (scopeTimeoutG_fails hr ht hmay),
    fun m r => ⟨timeoutFault_scope, fun p => timeoutFault_peer⟩, fun s p peer => ?peers,
    fun s id r va e hr hva hdone hx hlt hw => pageWalk_fills hr hva hdone hx hlt hw⟩
  case fence =>
    have hg := fenceCompletionG_eq hr hf hpos hrun
    refine ⟨fun h => next_of_lift (fenceCompletionG id) rfl (hg.trans (if_pos h)), fun h => ?_⟩
    rw [h, if_neg Bool.false_ne_true] at hg
    refine ⟨fun hwho => next_of_lift (fenceCompletionG id) rfl (hg.trans ?_), fun u w hwho => next_of_lift (fenceCompletionG id) rfl (hg.trans ?_)⟩
    · unfold fenceEnded
      split
      · exact absurd ‹_› (hwho _ _)
      · rfl
    · simp only [fenceEnded, hwho]
      rfl
  case prefetch =>
    intro n units fails m1 m2 hitem hls hfault hu v
    have hmove : movePft s.m r desc bad = (m2, fails.length) := movePft_eq s.m r desc bad
    have hid : r.id = id := id_of_reqOf hr
    show Host.Outcome.next { s with m := serveParts (pftArrivalG id bad s.m) } = _
    rw [pftArrivalG_arrives hr hop hgr hmay hlane hrange hmove hitem, pftArrive_counts hobj hls hfault hu, hid]
    rfl
  case peers =>
    intro m0 os fences m1 m2
    refine ⟨fun h => ?_, fun h => ?_⟩
    · exact next_of_lift (peerFailureG p peer) rfl (if_neg (mt List.isEmpty_iff.mp h))
    · exact next_of_lift (peerFailureG p peer) rfl (if_pos (List.isEmpty_iff.mpr h))

end Sys2Proof.Machine

/-! PROOFS. COPY, COPYA and COPYI as they are issued, refused or made to wait (R201, R206, R261-R263). -/
namespace Sys2Proof.Machine

/-- Whether the copy waits for a SNAP of its destination's handle, and of its source's (R206). -/
def copyPendD (m : Mach) (f : CopyF) (bw : Nat) : Bool := !bitAt bw 32 && (readHand m f.hd.val).2.isSome
def copyPendS (m : Mach) (f : CopyF) (bw : Nat) : Bool := !bitAt bw 33 && (readHand m f.hs.val).2.isSome

/-- The machine in which the copy `r` and the request for its ticket have entered. -/
def copyEntered (m : Mach) (d : Opd) (r : Req) : Mach :=
  let m1 := addReq m r
  addReq m1 { mkReq m1 (dstOf m d false) (.ticket r.id) 5 false false with pos := none }

/-- The machine after a copy starts: the copy and the request for its ticket, judged at once where nothing holds it back. -/
def copyStarted (m : Mach) (f : CopyF) (d : Opd) (k vec bw : Nat) : Mach :=
  let r := copyWaits m f k vec bw
  if r.hwait.isSome || !copyIssues (copyEntered m d r) r then copyEntered m d r else judgeCopy (copyEntered m d r) r

theorem exec_copyStart {i : Instr} {s : State} {f : CopyF} {d a b : Opd} {k : Nat} (hi : exec i s = lift (copyG k f d a b) s)
    (hstall : handStall s.m [f.hd.val, f.hs.val] = false) (h : memStarts s.m [a, b] [d] (pairReg s.m true a) = true) :
    exec i s = .next { s with m := copyStarted (readDone s.m [a, b] [d]) f d k (wideVal s.m a % 2 ^ 128) (payOf s.m .whole b % 2 ^ 64) } := by
  refine next_of_lift (copyG k f d a b) hi ?_
  rw [copyG, if_neg (Bool.eq_false_iff.mp hstall)]
  exact memStart_starts _ _ _ _ _ _ h

section Pending
variable {m : Mach} {f : CopyF} {bw : Nat}

/-- A copy whose handles are not pending is the new one. -/
theorem copyWaits_eq_new (k vec : Nat) (hd : copyPendD m f bw = false) (hs : copyPendS m f bw = false) :
    copyWaits m f k vec bw = copyNew m f k vec bw 0 false := by
  unfold copyPendD at hd
  unfold copyPendS at hs
  simp only [copyWaits, hd, hs, Bool.false_eq_true, if_false]
  rfl

theorem copyWaits_hwait (k vec : Nat) (h : copyPendD m f bw = true ∨ copyPendS m f bw = true) :
    (copyWaits m f k vec bw).hwait.isSome = true := by
  have e : (copyWaits m f k vec bw).hwait = if copyPendS m f bw then (readHand m f.hs.val).2
      else if copyPendD m f bw then (readHand m f.hd.val).2 else none := rfl
  rw [e]
  split
  next hs => exact (Bool.and_eq_true_iff.mp hs).2
  next hs =>
    have hd := h.resolve_right hs
    rw [if_pos hd]
    exact (Bool.and_eq_true_iff.mp hd).2

end Pending

/-! ## Judging a copy (R262) -/

/-- The descriptor that a copy reads as it is judged, or 0 where it cannot be read. -/
def descRead (m : Mach) (r : Req) (k vec : Nat) : Nat := if k = 0 then 0 else (spRead m r (bits vec 64 32) 32).getD 0

/-- Whether the descriptor of a copy can be read: COPY has none (R261). -/
def descOk (m : Mach) (r : Req) (k vec : Nat) : Bool :=
  k == 0 || (bits vec 64 32 % 16 == 0 && (spRead m r (bits vec 64 32) 32).isSome)

theorem descOk_of_copyDesc {m : Mach} {r : Req} {k vec ds : Nat} (h : copyDesc m r k vec ds) :
    descOk m r k vec = true ∧ descRead m r k vec = ds := by
  unfold copyDesc at h
  unfold descOk descRead
  by_cases hk : k = 0
  · rw [if_pos hk] at h
    simp [hk, h]
  · rw [if_neg hk] at h
    simp [hk, h.1, h.2]

theorem descOk_eq_false {m : Mach} {r : Req} {k vec : Nat} (hk : k ≠ 0)
    (h : vec / 2 ^ 64 % 16 ≠ 0 ∨ spRead m r (bits vec 64 32) 32 = none) : descOk m r k vec = false := by
  have hk' : (k == 0) = false := beq_eq_false_iff_ne.mpr hk
  rw [descOk, hk', Bool.false_or, Bool.and_eq_false_iff]
  rcases h with h | h
  · refine .inl (beq_eq_false_iff_ne.mpr ?_)
    rw [bits_eq_div_mod]
    omega
  · rw [h]
    exact .inr rfl

/-- A new copy is judged with the descriptor that it reads, and keeps it. -/
theorem judgeCopy_new {m n : Mach} {f : CopyF} {k vec bw : Nat} {A : CopyArgs} :
    let r := copyNew m f k vec bw 0 false
    let r1 := copyNew m f k vec bw (descRead n r k vec) true
    copyArgs r1 = some A →
    judgeCopy n r = if descOk n r k vec && copyOk n r1 A then setReq { n with copy.issued := n.copy.issued ++ [m.ids] } r1
      else refuseCopy n r A := by
  rintro r r1 hA
  cases hA
  rfl

/-- Settles O39: a copy enters with the request for its ticket (`exec_copyStart`), and is judged as `judgeCopy_new` says. -/
theorem copiesIssue : Obligations.CopiesIssue := by
  intro f d a b s i k hi hstall hst m vec bw pends m1 r
  have hx : exec i s = .next { s with m := copyStarted m f d k vec bw } := by
    refine exec_copyStart ?_ hstall hst
    rcases hi with ⟨rfl, rfl⟩ | ⟨rfl, rfl⟩ | ⟨rfl, rfl⟩ <;> rfl
  have hnone : pends = false → copyStarted m f d k vec bw = if !copyIssues m1 r then m1 else judgeCopy m1 r := fun hp => by
    obtain ⟨hd, hs⟩ := Bool.or_eq_false_iff.mp hp
    rw [copyStarted, copyWaits_eq_new k vec hd hs]
    rfl
  refine ⟨fun hp hno => ?_, fun hp hiss => ⟨fun ds A hdesc hA => ?_, fun A hk hbad hA => ?_⟩, fun hp => ?_⟩
  · rw [hx, hnone hp, hno]
    rfl
  · obtain ⟨hok, hread⟩ := descOk_of_copyDesc hdesc
    have hj := judgeCopy_new (m := m) (n := m1) (f := f) (k := k) (vec := vec) (bw := bw) (A := A) (by rwa [hread])
    rw [hok, hread, Bool.true_and] at hj
    rw [hx, hnone hp, hiss, hj]
    refine ⟨fun h => ?_, fun h => ?_⟩
    · rw [h]
      rfl
    · rw [h]
      rfl
  · have hj := judgeCopy_new (m := m) (n := m1) (f := f) (k := k) (vec := vec) (bw := bw) (A := A) (by rwa [descRead, if_neg hk])
    rw [descOk_eq_false hk hbad, Bool.false_and] at hj
    rw [hx, hnone hp, hiss, hj]
    rfl
  · have hw := copyWaits_hwait k vec (Bool.or_eq_true_iff.mp hp)
    rw [hx, copyStarted, hw]
    rfl

end Sys2Proof.Machine

/-! PROOFS. TLBI and its completion, PART, and the report of ATTEST (R188, R198, R430, R433, R436, R437). -/
namespace Sys2Proof.Machine

/-! ## TLBI (R198, R433) -/

/-- A table whose values are mapped by their keys. -/
theorem tfind_map_values {V : Type} (f : Nat → V → V) (k : Nat) (t : Tbl V) :
    tfind k (t.map (fun e => (e.1, f e.1 e.2))) = (tfind k t).map (f k) := by
  induction t with
  | nil => rfl
  | cons e t ih =>
    obtain ⟨a, x⟩ := e
    simp only [List.map_cons, tfind]
    split
    next h => rw [h]; rfl
    next => exact ih

/-- The TLBs after the entries that `names` names are dropped from those that lie in the scope. -/
def tlbDropped (inScope : Nat → Bool) (names : TlbE → Bool) (t : Tbl (List TlbE)) : Tbl (List TlbE) :=
  t.map (fun e => if inScope e.1 then (e.1, e.2.filter (fun x => !names x)) else e)

theorem tget_tlbDropped (inScope : Nat → Bool) (names : TlbE → Bool) (t : Tbl (List TlbE)) (k : Nat) : tget [] k (tlbDropped inScope names t)
    = if inScope k then (tget [] k t).filter (fun x => !names x) else tget [] k t := by
  have e : tlbDropped inScope names t = t.map (fun e => (e.1, if inScope e.1 then e.2.filter (fun x => !names x) else e.2)) :=
    List.map_congr_left fun e _ => by split <;> rfl
  rw [e]
  refine (congrArg (·.getD []) (tfind_map_values (fun k v => if inScope k then v.filter (fun x => !names x) else v) k t)).trans ?_
  unfold tget
  cases tfind k t with
  | none => split <;> rfl
  | some v => rfl

/-- What a TLBI of a kind names. -/
def tlbNamed (kind : TlbiKind) (va asid : Nat) (e : TlbE) : Prop :=
  match kind with
  | .pg => min e.asid 0xFFF = asid ∧ e.base ≤ va ∧ va < e.base + e.size
  | .asid => min e.asid 0xFFF = asid
  | .all => e.asid ≠ 0xFFF

theorem tlbNames_iff (kind : TlbiKind) (va asid : Nat) (e : TlbE) :
    tlbNames kind va asid e.asid e.base e.size = true ↔ tlbNamed kind va asid e := by
  cases kind <;> simp [tlbNames, tlbNamed, and_assoc]

/-- Reading the sources of an S-form word leaves memory, the PEs and the system's state. -/
theorem readDone_of_sStarts {m : Mach} {u w : Nat} {os ds : List Opd} (h : sStarts m u w os ds = true) :
    (readDone m os ds).mem = m.mem ∧ (readDone m os ds).pe = m.pe ∧ (readDone m os ds).sys = m.sys := by
  obtain ⟨tiles, units, e, -⟩ := readDone_unit m os ds u w (cur_of_sStarts h)
  rw [e]
  exact ⟨rfl, rfl, rfl⟩

theorem tlbi_drops {f : TlbiF} {s : State} {u w : Nat} {d a b : Opd} (h : sStarts s.m u w [a, b] [d] = true) :
    let inScope := tlbIn (unitCluster u 0) f.scope.code
    let names := fun e : TlbE => tlbNames f.kind (payOf s.m .whole a % 2 ^ 56) (payOf s.m .whole b % 2 ^ 12) e.asid e.base e.size
    ∃ t, exec (.tlbi f d a b) s = .next t ∧ t.m.mem.tlb = tlbDropped inScope names s.m.mem.tlb ∧ t.m.mem.hbm = s.m.mem.hbm
      ∧ t.m.mem.spad = s.m.mem.spad ∧ t.m.pe = s.m.pe ∧ t.m.sys = s.m.sys := by
  intro inScope names
  obtain ⟨hmem, hpe, hsys⟩ := readDone_of_sStarts h
  refine ⟨_, exec_sFire_eq (i := .tlbi f d a b) rfl h rfl, ?_, ?_, ?_, hpe, hsys⟩
  · show tlbDropped inScope (fun e => tlbNames f.kind (bits (payOf s.m .whole a) 0 56) (bits (payOf s.m .whole b) 0 12) e.asid e.base e.size)
      (readDone s.m [a, b] [d]).mem.tlb = _
    rw [hmem, bits_zero_eq_mod, bits_zero_eq_mod]
  · exact congrArg (·.hbm) hmem
  · exact congrArg (·.spad) hmem

/-! ## TLBI_COMPLETION -/

/-- Whether an access in flight still uses a translation that a TLBI named. -/
def tlbiWaits (m : Mach) (ws : List Nat) (q : Req) : Bool :=
  decide (q.id ∈ ws) && !q.done && (running m q.past || isShepActor q.who || mayPerform m q)

/-- The requests with the named translations of those that TLBI waited for forgotten. -/
def tlbiForgotten (ws : List Nat) (reqs : List Req) : List Req :=
  reqs.map (fun q => if q.id ∈ ws ∧ q.done = false then { q with xlat := none } else q)

theorem tlbiCompletionG_eq {m : Mach} {id : Nat} {r : Req} {ws : List Nat} (hr : reqOf m id = some r) (hop : r.op = .tlbi ws)
    (hdone : r.done = false) : tlbiCompletionG id m =
      if m.mem.reqs.any (tlbiWaits m ws) then m else finish { m with mem.reqs := tlbiForgotten ws m.mem.reqs } id 0 := by
  simp only [tlbiCompletionG, hr, hop, hdone, Bool.false_or, tlbiForgotten, List.contains_eq_mem, Bool.and_eq_true,
    decide_eq_true_eq, Bool.not_eq_true']
  rfl

/-! ## PART (R188, R436) -/

theorem servePart_refuses {m : Mach} {r : Req} {core e v : Nat} (hop : r.op = .part core e v) (hres : r.res = none)
    (hbusy : partBusy m core e v = false) (h : partOverlap m core e v = true) : servePart m r = finish m r.id (2 ^ 63 + 4) := by
  simp only [servePart, hop, hres, hbusy, h, Option.isSome_none, Bool.or_self, Bool.false_eq_true, if_false, if_true]

theorem servePart_writes {m : Mach} {r : Req} {core e v : Nat} (hop : r.op = .part core e v) (hres : r.res = none)
    (hbusy : partBusy m core e v = false) (h : partOverlap m core e v = false) : servePart m r = finish (writePart m core e v) r.id 0 := by
  simp only [servePart, hop, hres, hbusy, h, Option.isSome_none, Bool.or_self, Bool.false_eq_true, if_false]

theorem partBusy_iff (m : Mach) (core e v : Nat) : partBusy m core e v = true ↔
    ∃ x ∈ leaving m core e v, ∃ r ∈ m.mem.reqs, ∃ y ∈ allExts m r, y.1 < (x.2 : Int) ∧ (x.1 : Int) ≤ y.2 := by
  simp only [partBusy, List.any_eq_true, decide_eq_true_eq]

section Write
variable (m : Mach) (core e : Nat) {v : Nat}

theorem writePart_ranges : (writePart m core e v).sys.ranges
    = if bitAt v 63 then tset (core * 8 + e) ⟨bits v 52 4, bits v 16 12, bits v 0 11⟩ m.sys.ranges else tdel (core * 8 + e) m.sys.ranges := by
  unfold writePart
  cases bitAt v 63 <;> rfl

/-- The units of 256 bytes that pass to the pasture of the range word from another one. -/
def passing (m : Mach) (core v : Nat) : List Nat :=
  ((upto (bits v 16 12)).map (fun i => core * 2048 + bits v 0 11 + i)).filter
    (fun u => match tfind u m.sys.owners with | some q => q != bits v 52 4 | none => false)

theorem writePart_spad (hv : bitAt v 63 = true) :
    (writePart m core e v).mem.spad = tfilter (fun a => !(passing m core v).contains (a / 256)) m.mem.spad := by
  unfold writePart
  rw [hv]
  rfl

variable {m core} in
theorem mem_passing {i q : Nat} (hi : i < bits v 16 12) (hq : tfind (core * 2048 + (bits v 0 11 + i)) m.sys.owners = some q)
    (hne : q ≠ bits v 52 4) : core * 2048 + (bits v 0 11 + i) ∈ passing m core v := by
  refine List.mem_filter.mpr ⟨List.mem_map.mpr ⟨i, List.mem_range.mpr hi, Nat.add_assoc ..⟩, ?_⟩
  rw [hq]
  exact bne_iff_ne.mpr hne

/-- A byte of a unit that passes reads as zero. -/
theorem writePart_zero (hv : bitAt v 63 = true) {u j : Nat} (hu : u ∈ passing m core v) (hj : j < 256) :
    memGet (writePart m core e v).mem.spad (u * 256 + j) = 0 := by
  have hdiv : (u * 256 + j) / 256 = u := by omega
  rw [writePart_spad m core e hv, memGet, tget, tfind_tfilter, hdiv, if_neg (by simp [hu])]
  rfl

end Write

/-- What PART leaves, by the core and the range word that it names. -/
def partAnswer (m : Mach) (u : Nat) (d : Opd) (core v : Nat) : Mach :=
  if 768 ≤ core ∨ !partWordOk v then putS m u d (2 ^ 63 + 1)
  else if bitAt v 63 && !coreIn m (bits v 52 4) core then putS m u d (2 ^ 63 + 6)
  else
    let r := mkReq m (dstOf m d false) (.part core (bits v 48 4) v) 5 false false
    servePart (addReq m r) r

theorem partAnswer_bad {m : Mach} {u core v : Nat} {d : Opd} (h : 768 ≤ core ∨ partWordOk v = false) :
    partAnswer m u d core v = putS m u d (2 ^ 63 + 1) :=
  if_pos (h.imp_right fun hok => by rw [hok]; rfl)

section Part
variable {m : Mach} {u core v : Nat} {d : Opd} (hc : core < 768) (hok : partWordOk v = true)
include hc hok

theorem partAnswer_good : partAnswer m u d core v = if bitAt v 63 && !coreIn m (bits v 52 4) core then putS m u d (2 ^ 63 + 6)
    else servePart (addReq m (mkReq m (dstOf m d false) (.part core (bits v 48 4) v) 5 false false))
      (mkReq m (dstOf m d false) (.part core (bits v 48 4) v) 5 false false) := by
  refine if_neg ?_
  rw [hok]
  rintro (h | h)
  · omega
  · cases h

theorem partAnswer_foreign (hv : bitAt v 63 = true) (hin : coreIn m (bits v 52 4) core = false) :
    partAnswer m u d core v = putS m u d (2 ^ 63 + 6) := by
  rw [partAnswer_good hc hok, hv, hin]
  rfl

theorem partAnswer_serves (hin : bitAt v 63 = true → coreIn m (bits v 52 4) core = true) :
    partAnswer m u d core v = servePart (addReq m (mkReq m (dstOf m d false) (.part core (bits v 48 4) v) 5 false false))
      (mkReq m (dstOf m d false) (.part core (bits v 48 4) v) 5 false false) := by
  rw [partAnswer_good hc hok]
  refine if_neg ?_
  rw [Bool.and_eq_true, Bool.not_eq_true']
  rintro ⟨hv, h⟩
  rw [hin hv] at h
  cases h

end Part

/-! ## ATTEST (R430, R437) -/

/-- What ATTEST leaves, with the nonce that it has read and the places of the report. -/
def attested (m : Mach) (u w : Nat) (d : Opd) (nonce : List Byte) (ls : List Loc) : Mach :=
  let who : Actor := .unit u w
  if ((faultR m (mkReq m .drop .tile 5 false false) true ls).orElse (fun _ => lineFault m ls)).isSome then putS m u d (2 ^ 63 + 7)
  else if heldByResv m (ctxCode (pastOfActor m who) who) ls || rowsHeld m ls || locsMoving m ls then stall m
  else
    let body := reportBody m (u - 128) nonce
    putS (writeLocs { m with free := m.free + 32 } ls (body ++ bytesOf (Config.deviceSign body).toNat 64)) u d 0

theorem length_bytesOf (v n : Nat) : (bytesOf v n).length = n := by
  induction n generalizing v with
  | zero => rfl
  | succ n ih => rw [bytesOf, List.length_cons, ih]

theorem natOf_bytesOf (v n : Nat) : natOf (bytesOf v n) = v % 256 ^ n := by
  induction n generalizing v with
  | zero => rw [bytesOf, natOf, pow_zero, Nat.mod_one]
  | succ n ih =>
    rw [bytesOf, natOf, ih, BitVec.toNat_ofNat, pow_succ' 256 n]
    exact Nat.mod_mul.symm

theorem natOf_bytesOf_of_lt {v n : Nat} (h : v < 256 ^ n) : natOf (bytesOf v n) = v := by
  rw [natOf_bytesOf, Nat.mod_eq_of_lt h]

/-- A number of `n` bytes is read from its bytes. -/
theorem natOf_bytesOf_toNat {w : Nat} (n : Nat) (x : BitVec w) (hw : w = 8 * n) : natOf (bytesOf x.toNat n) = x.toNat := by
  subst hw
  refine natOf_bytesOf_of_lt ?_
  rw [show 256 = 2 ^ 8 by rfl, ← pow_mul]
  exact x.isLt

theorem length_reportBody (m : Mach) (k : Nat) {nonce : List Byte} (hn : nonce.length = 32) : (reportBody m k nonce).length = 192 := by
  simp [reportBody, length_bytesOf, hn]

/-- The part of a list behind a first part, as long as a second one. -/
theorem take_drop_middle {α : Type} {l p q r : List α} {i j : Nat} (hl : l = p ++ q ++ r) (hi : p.length = i) (hj : q.length = j) :
    (l.drop i).take j = q := by
  subst hl hi hj
  simp

/-- The fields of the report: the nonce, the digest, the device's key and the digest of its ROM (R437). -/
theorem reportBody_fields (m : Mach) (k : Nat) {nonce : List Byte} (hn : nonce.length = 32) :
    let body := reportBody m k nonce
    (body.drop 32).take 32 = nonce ∧ (body.drop 64).take 64 = bytesOf m.host.digest.toNat 64
      ∧ (body.drop 128).take 32 = bytesOf Config.deviceKey.toNat 32 ∧ (body.drop 160).take 32 = bytesOf Config.romDigest.toNat 32 := by
  let head := bytesOf (1 + k * 256 + m.host.count % 65536 * 65536) 8 ++ List.replicate 24 (0 : Byte)
  let digest := bytesOf m.host.digest.toNat 64
  let key := bytesOf Config.deviceKey.toNat 32
  let rom := bytesOf Config.romDigest.toNat 32
  have hhead : head.length = 32 := by simp [head, length_bytesOf]
  have hdigest : digest.length = 64 := length_bytesOf ..
  have hkey : key.length = 32 := length_bytesOf ..
  have hrom : rom.length = 32 := length_bytesOf ..
  have hbody : reportBody m k nonce = head ++ nonce ++ digest ++ key ++ rom := rfl
  refine ⟨take_drop_middle (p := head) (r := digest ++ key ++ rom) ?_ hhead hn,
    take_drop_middle (p := head ++ nonce) (r := key ++ rom) ?_ ?_ hdigest,
    take_drop_middle (p := head ++ nonce ++ digest) (r := rom) hbody ?_ hkey,
    take_drop_middle (p := head ++ nonce ++ digest ++ key) (r := []) ?_ ?_ hrom⟩
  all_goals simp [hbody, hhead, hn, hdigest, hkey, digest, key, rom]

theorem exec_part {s : State} {u w : Nat} {d a b : Opd} (h : sStarts s.m u w [a, b] [d] = true) :
    exec (.part d a b) s = .next { s with m := partAnswer (readDone s.m [a, b] [d]) u d (payOf s.m .whole a % 2 ^ 10) (payOf s.m .whole b) } :=
  exec_sFire_eq (i := .part d a b) rfl h (by rw [← bits_zero_eq_mod]; rfl)

theorem exec_attest {s : State} {u w : Nat} {d a b : Opd} {nonce : List Byte} {ls : List Loc} (h : sStarts s.m u w [a, b] [d] = true)
    (hn : readBytes (readDone s.m [a, b] [d]) (.unit u w) (payOf s.m .whole b % 2 ^ 56) 32 = .ok nonce)
    (hls : virtLocs (readDone s.m [a, b] [d]) (.unit u w) (pastOfActor (readDone s.m [a, b] [d]) (.unit u w)) (payOf s.m .whole a % 2 ^ 56)
      256 .wr = .ok ls) :
    exec (.attest d a b) s = .next { s with m := attested (readDone s.m [a, b] [d]) u w d nonce ls } := by
  refine exec_sFire_eq (i := .attest d a b) rfl h ?_
  rw [← bits_zero_eq_mod] at hn hls
  simp only [List.map_cons, List.map_nil, List.getElem?_cons_zero, List.getElem?_cons_succ, Option.getD_some, hn, hls]
  rfl

/-- Settles O58: TLBI drops what it names (`tget_tlbDropped`), PART answers as `partAnswer` and writes as `writePart` does, and ATTEST reports
the fields of `reportBody_fields`. -/
theorem invalidateAndPartition : Obligations.InvalidateAndPartition := by
  refine ⟨fun f s u w d a b h => ?tlbi, fun s id r ws hr hop hdone => ?completion, fun s u w d a b h => ?part,
    fun m r core e v hop hres hbusy => ⟨servePart_refuses hop hres hbusy, servePart_writes hop hres hbusy⟩, partBusy_iff,
    fun m core e v => ?write, fun s u w d a b nonce ls h => ?attest, fun m k nonce hn => ?report⟩
  case tlbi =>
    intro va asid named
    obtain ⟨t, hx, htlb, hhbm, hspad, hpe, hsys⟩ := tlbi_drops (f := f) h
    refine ⟨t, hx, hhbm, hspad, hpe, hsys, fun k hk => ?_, fun k hk e => ?_⟩
    · rw [htlb, tget_tlbDropped, hk]
      rfl
    · rw [htlb, tget_tlbDropped, hk, if_pos rfl, List.mem_filter, Bool.not_eq_true', ← Bool.not_eq_true, tlbNames_iff]
      rfl
  case completion =>
    intro waits
    have hg := tlbiCompletionG_eq hr hop hdone
    exact ⟨fun hw => next_of_lift (tlbiCompletionG id) rfl (hg.trans (if_pos hw)),
      fun hw => next_of_lift (tlbiCompletionG id) rfl (hg.trans (if_neg (Bool.eq_false_iff.mp hw)))⟩
  case part =>
    intro m core v r
    have hx := exec_part h
    exact ⟨fun hc hok hin => by rw [hx, partAnswer_serves hc hok hin], fun hbad => by rw [hx, partAnswer_bad hbad],
      fun hc hok hv hin => by rw [hx, partAnswer_foreign hc hok hv hin]⟩
  case write =>
    refine ⟨fun hv => ?_, fun hv => ?_, fun k hk => ?_, fun i hi q hv hq hne j hj => ?_⟩
    · rw [writePart_ranges, hv]
      exact tfind_tdel_same ..
    · rw [writePart_ranges, hv]
      exact tfind_tset_same ..
    · rw [writePart_ranges]
      split
      · exact tfind_tset_other _ _ _ _ hk
      · exact tfind_tdel_other _ _ _ hk
    · exact writePart_zero m core e hv (mem_passing hi hq hne) hj
  case attest =>
    intro m who hn hls bad held body m1
    have hx := exec_attest h hn hls
    have hsome : ((faultR m (mkReq m .drop .tile 5 false false) true ls).orElse (fun _ => lineFault m ls)).isSome = bad := by
      cases hf : faultR m (mkReq m .drop .tile 5 false false) true ls <;> simp only [bad, hf] <;> rfl
    refine ⟨fun hb => ?_, fun hb hh => ?_, fun hb hh => ?_⟩
    · rw [hx, attested, hsome, hb]
      rfl
    · rw [hx, attested, hsome, hb, if_neg Bool.false_ne_true]
      exact congrArg (fun x => Host.Outcome.next { s with m := x }) (if_pos hh)
    · rw [hx, attested, hsome, hb, if_neg Bool.false_ne_true]
      exact congrArg (fun x => Host.Outcome.next { s with m := x }) (if_neg (Bool.eq_false_iff.mp hh))
  case report =>
    intro body
    obtain ⟨hnonce, hdigest, hkey, hrom⟩ := reportBody_fields m k hn
    rw [hdigest, hkey, hrom]
    exact ⟨length_reportBody m k hn, hnonce, natOf_bytesOf_toNat 64 _ rfl, natOf_bytesOf_toNat 32 _ rfl, natOf_bytesOf_toNat 32 _ rfl⟩

end Sys2Proof.Machine

/-! PROOFS. The synchronisation instructions make their requests (R65, R226, R227, R240, R241). -/
namespace Sys2Proof.Machine

/-! ## Aligned and misaligned operations -/

/-- The operations that are conditions: of an S-form unit they stand in Pending until they hold (R65). -/
def isCondition : ReqOp → Bool
  | .waita .. | .mwait | .waitc .. | .futr _ | .bar _ => true
  | _ => false

/-- An operation whose address is aligned makes its request. -/
theorem syncIssue_aligned {m : Mach} {ea al : Nat} (h : ea % al = 0) (dst : Dst) (op : ReqOp) (sc : Nat) (acq rel : Bool) :
    syncIssue m dst op ea al sc acq rel = addReq m { mkReq m dst op sc acq rel with pend := isCondition op && isUnit m.cur } := by
  refine (if_pos h).trans (congrArg (fun p => addReq m { mkReq m dst op sc acq rel with pend := p }) ?_)
  cases m.cur with
  | unit u w => cases op <;> rfl
  | _ => exact (Bool.and_false _).symm

theorem syncIssue_misaligned {m : Mach} {ea al : Nat} (h : ea % al ≠ 0) (dst : Dst) (op : ReqOp) (sc : Nat) (acq rel : Bool) :
    syncIssue m dst op ea al sc acq rel = misplaced m (mkReq m dst op sc acq rel) ea := by
  rw [misplaced, ← bits_zero_eq_mod]
  exact if_neg h

section Issue
variable {i : Instr} {s : State} {os ds : List Opd} {dst : Mach → Dst} {op : ReqOp} {ea al sc : Nat} {acq rel : Bool}
  (hi : exec i s = .next (after s os ds (fun m => syncIssue m (dst m) op ea al sc acq rel)))
include hi

theorem exec_aligned (h : ea % al = 0) : exec i s
    = .next (issued s os ds (fun m => { mkReq m (dst m) op sc acq rel with pend := isCondition op && isUnit m.cur })) :=
  hi.trans (congrArg (fun eff => Host.Outcome.next (after s os ds eff)) (funext fun _ => syncIssue_aligned h ..))

theorem exec_misaligned (h : ea % al ≠ 0) : exec i s
    = .next (after s os ds (fun m => misplaced m (mkReq m (dst m) op sc acq rel) ea)) :=
  hi.trans (congrArg (fun eff => Host.Outcome.next (after s os ds eff)) (funext fun _ => syncIssue_misaligned h ..))

end Issue

/-! ## Each instruction issues its operation -/

section Start
variable {s : State} {d a b : Opd}

theorem exec_amo {f : AmoF} (h : memStarts s.m [a, b] [d] [] = true) :
    exec (.amo f d a b) s = .next (after s [a, b] [d] (fun m => syncIssue m (dstOf m d false)
      (.amo f.op (payOf s.m .whole a % 2 ^ 64) (payOf s.m .whole b % 256 ^ AmoOp.bytes f.op) true) (payOf s.m .whole a % 2 ^ 64)
      (AmoOp.bytes f.op) f.scope.code true true)) :=
  (exec_memStart (i := .amo f d a b) rfl h :)

theorem exec_red {f : AmoF} (h : memStarts s.m [a, b] [] [] = true) :
    exec (.red f d a b) s = .next (after s [a, b] [] (fun m => syncIssue m (ackOf m d)
      (.amo f.op (payOf s.m .whole a % 2 ^ 64) (payOf s.m .whole b % 256 ^ AmoOp.bytes f.op) false) (payOf s.m .whole a % 2 ^ 64)
      (AmoOp.bytes f.op) f.scope.code false true)) :=
  (exec_memStart (i := .red f d a b) rfl h :)

/-- CAS reads the expected value and, above it, the new one from B (R230). -/
theorem exec_cas {f : ScBF} (h : memStarts s.m [a, b] [d] (pairReg s.m f.bit b) = true) :
    let n := if f.bit then 8 else 4
    let ea := payOf s.m .whole a % 2 ^ 64
    let x := if f.bit then wideVal s.m b else payOf s.m .whole b
    exec (.cas f d a b) s = .next (after s [a, b] [d] (fun m => syncIssue m (dstOf m d false)
      (.cas ea n (x % 2 ^ (8 * n)) (x / 2 ^ (8 * n) % 2 ^ (8 * n))) ea n f.scope.code true true)) := by
  refine next_of_lift (casG f d a b) rfl ?_
  rw [casG, memStart_starts _ _ _ _ _ _ h]
  simp only [bits_eq_div_mod, pow_zero, Nat.div_one]
  rfl

theorem exec_waita {f : WaitaF} (h : memStarts s.m [a, b] [d] [] = true) :
    let n := if f.w8 then 8 else 4
    let ea := payOf s.m .whole a % 2 ^ 64
    exec (.waita f d a b) s = .next (after s [a, b] [d] (fun m => syncIssue m (dstOf m d false)
      (.waita ea n f.cond (payOf s.m .whole b % 256 ^ n)) ea n (if ea / 2 ^ 56 = 0xFF ∧ 3 < f.scope.code then 3 else f.scope.code)
      true false)) := by
  refine next_of_lift (waitaG f d a b) rfl ?_
  rw [waitaG, memStart_starts _ _ _ _ _ _ h]
  rfl

theorem exec_arrive {f : ScF} (h : memStarts s.m [a, b] [] [] = true) :
    exec (.arrive f d a b) s = .next (after s [a, b] [] (fun m => syncIssue m (ackOf m d)
      (.arrive (payOf s.m .whole a % 2 ^ 64) (payOf s.m .whole b % 2 ^ 32)) (payOf s.m .whole a % 2 ^ 64) 8 f.scope.code false true)) :=
  (exec_memStart (i := .arrive f d a b) rfl h :)

theorem exec_waitc {f : ScBF} (h : memStarts s.m [a, b] [d] [] = true) :
    exec (.waitc f d a b) s = .next (after s [a, b] [d] (fun m => syncIssue m (dstOf m d false)
      (.waitc (payOf s.m .whole a % 2 ^ 64) (payOf s.m .whole b % 2 ^ 32) f.bit) (payOf s.m .whole a % 2 ^ 64) 8 f.scope.code
      true false)) :=
  (exec_memStart (i := .waitc f d a b) rfl h :)

theorem exec_futw {f : ScF} (h : memStarts s.m [a, b] [d] [] = true) :
    exec (.futw f d a b) s = .next (after s [a, b] [d] (fun m => syncIssue m (dstOf m d false)
      (.futw (payOf s.m .whole a % 2 ^ 64) (payOf s.m .whole b % 2 ^ 64)) (payOf s.m .whole a % 2 ^ 64) 16 f.scope.code false true)) :=
  (exec_memStart (i := .futw f d a b) rfl h :)

theorem exec_futr {f : ScF} (h : memStarts s.m [a] [d] [] = true) :
    exec (.futr f d a) s = .next (after s [a] [d] (fun m => syncIssue m (dstOf m d false)
      (.futr (payOf s.m .whole a % 2 ^ 64)) (payOf s.m .whole a % 2 ^ 64) 16 f.scope.code true false)) :=
  (exec_memStart (i := .futr f d a) rfl h :)

/-- MON and MWAIT name no aligned address: MON's is any byte of its line (R233). -/
theorem exec_mon {f : ScF} (h : memStarts s.m [a] [] [] = true) :
    exec (.mon f a) s = .next (after s [a] [] (fun m => syncIssue m .drop (.mon (payOf s.m .whole a % 2 ^ 64)) 0 1 f.scope.code
      false false)) :=
  (exec_memStart (i := .mon f a) rfl h :)

theorem exec_mwait {f : ScF} (h : memStarts s.m [] [d] [] = true) :
    exec (.mwait f d) s = .next (after s [] [d] (fun m => syncIssue m (dstOf m d false) .mwait 0 1 f.scope.code true false)) :=
  (exec_memStart (i := .mwait f d) rfl h :)

end Start

/-! ## Groups and classes -/

theorem raiseWclass_cur (m : Mach) (g : Nat) : (raiseWclass m g).cur = m.cur := by
  unfold raiseWclass
  split
  · dsimp only
    split
    · split <;> rfl
    · rfl
  · rfl

/-- BAR raises WCLASS as it fires, before its request enters (R240). -/
theorem exec_bar {f : ScF} {d : Opd} {g : Fin 256} {s : State} (h : memStarts s.m [] [d] [] = true) :
    exec (.bar f d g) s = .next (after s [] [d] (fun m => addReq (raiseWclass m g.val)
      { mkReq (raiseWclass m g.val) (dstOf m d false) (.bar g.val) f.scope.code true true with pend := isUnit m.cur })) := by
  rw [(exec_memStart (i := .bar f d g) rfl h :)]
  refine congrArg (fun eff => Host.Outcome.next (after s [] [d] eff)) (funext fun m => ?_)
  rw [syncIssue_aligned (Nat.zero_mod 1), raiseWclass_cur]
  rfl

theorem raiseWclass_group {m : Mach} {g core pe fr k b : Nat} {c : Bool} {x : Group} (hc : m.cur = .pe core pe fr k b c)
    (hx : tfind (pastOfActor m m.cur * 256 + g) m.sync.groups = some x) (hmem : x.members.contains (ctxKey core fr b) = true) :
    tfind (pastOfActor m m.cur * 256 + g) (raiseWclass m g).sync.groups
      = some { x with wclass := max x.wclass (effClass m core (fr * 4 + b)) } := by
  have hr : (raiseWclass m g).sync.groups = tset (pastOfActor m m.cur * 256 + g)
      { x with wclass := max x.wclass (effClass m core (fr * 4 + b)) } m.sync.groups := by
    rw [hc] at hx
    simp only [raiseWclass, hc, hx, hmem, if_true]
  rw [hr]
  exact tfind_tset_same ..

/-- PRIO with its source read: the class of the context, clamped to PCAP (R241). -/
theorem exec_prio {a : Opd} {s : State} {core pe fr k b : Nat} {c : Bool} (hc : s.m.cur = .pe core pe fr k b c)
    (h : memStarts s.m [a] [] [] = true) :
    exec (.prio a) s = .next (after s [a] [] (fun m =>
      { m with pe.prio := tput 0 (ctxKey core fr b) (capClass m (pastOfActor m m.cur) (payOf s.m .whole a % 4)) m.pe.prio })) := by
  refine next_of_lift (prioG a) rfl ?_
  simp only [prioG, hc]
  exact memStart_starts _ _ _ _ _ _ h

theorem prio_readDone (m : Mach) (os ds : List Opd) : (readDone m os ds).pe.prio = m.pe.prio := by
  obtain ⟨_, _, _, _, e⟩ := readDone_eq m os ds
  rw [e]

theorem sync_readDone (m : Mach) (os ds : List Opd) : (readDone m os ds).sync = m.sync := by
  obtain ⟨_, _, _, _, e⟩ := readDone_eq m os ds
  rw [e]

theorem pastOf_readDone (m : Mach) (os ds : List Opd) (p : Nat) : pastOf (readDone m os ds) p = pastOf m p := by
  obtain ⟨_, _, _, _, e⟩ := readDone_eq m os ds
  rw [e]
  rfl

/-- Settles O37: each instruction issues its operation with `syncIssue`, which makes the request of an aligned address and refuses a
misaligned one; BAR and PRIO as `raiseWclass_group` and `exec_prio` say. -/
theorem syncIssues : Obligations.SyncIssues := by
  refine ⟨fun f d a b s h ha => exec_aligned (exec_amo h) ha, ⟨fun f d a b s ha => ⟨fun h => exec_misaligned (exec_amo h) ha,
      fun h => exec_misaligned (exec_red h) ha⟩, fun f d a b s h ha => exec_misaligned (exec_cas h) ha,
      fun f d a b s h ha => exec_misaligned (exec_waita h) ha, fun f d a b s h ha => exec_misaligned (exec_arrive h) ha,
      fun f d a b s h ha => exec_misaligned (exec_waitc h) ha, fun f d a b s h ha => exec_misaligned (exec_futw h) ha,
      fun f d a s h ha => exec_misaligned (exec_futr h) ha⟩, fun f d a b s h ha => exec_aligned (exec_red h) ha,
    fun f d a b s h ha => exec_aligned (exec_cas h) ha, fun f d a b s h ha => exec_aligned (exec_waita h) ha,
    fun f a s h => exec_aligned (exec_mon h) (Nat.zero_mod 1), fun f d s h => exec_aligned (exec_mwait h) (Nat.zero_mod 1),
    fun f d a b s h ha => exec_aligned (exec_arrive h) ha, fun f d a b s h ha => exec_aligned (exec_waitc h) ha,
    fun f d a b s h ha => exec_aligned (exec_futw h) ha, fun f d a s h ha => exec_aligned (exec_futr h) ha,
    fun f d g s h => exec_bar h, fun m g core pe fr k b c x => raiseWclass_group,
    fun f g s h => (exec_memStart (i := .bara f g) rfl h :), fun a s core pe fr k b c hc h => ⟨_, exec_prio hc h, ?_, ?_, ?_, ?_⟩⟩
  · rw [← pastOf_readDone s.m [a] [], ← pastOfActor_readDone s.m [a] []]
    exact tget_tput_same ..
  · intro x hx
    rw [← prio_readDone s.m [a] []]
    exact tget_tput_other _ _ _ _ _ hx
  · exact readDone_mem s.m [a] []
  · exact sync_readDone s.m [a] []

end Sys2Proof.Machine

/-! PROOFS. The synchronisation engine: what it computes, one operation in its turn, a waiter that waits alone, and the last arrival at
a barrier (R223, R228-R232, R236, R238, R239). -/
namespace Sys2Proof.Machine

/-! ## The new value of AMO and RED (R228) -/

theorem sgn_amoNew_min4 (old b : Nat) : sgn 32 (amoNew .min4 old b) = min (sgn 32 old) (sgn 32 b) := by
  rw [amoNew, min_def]
  exact apply_ite (sgn 32) _ old b

theorem sgn_amoNew_max4 (old b : Nat) : sgn 32 (amoNew .max4 old b) = max (sgn 32 old) (sgn 32 b) := by
  rw [amoNew, max_comm, max_def]
  exact apply_ite (sgn 32) _ old b

/-! ## The turn of one operation on its local word -/

/-- The operations on one word that the engine of its die serves (R223). -/
def isWordOp : ReqOp → Bool
  | .amo .. | .cas .. | .arrive .. | .futw .. | .waita .. | .waitc .. | .futr _ => true
  | _ => false

theorem isPageOp_wordOp {r : Req} (h : isWordOp r.op = true) : isPageOp r = false := by
  unfold isPageOp
  split <;> simp_all [isWordOp]

section Turn
variable {s : State} {id ea n pa : Nat} {r : Req} {k : AccK} {ls : List Loc} (hr : reqOf s.m id = some r)
  (hplace : reqPlace r = some (.virt ea, n, k)) (hmay : mayPerform s.m r = true) (hnew : r.granted = none)
  (hls : virtR s.m r ea n k = .ok ls) (hfault : faultR s.m r false ls = none) (hhead : ls.head? = some (.hbm pa))
  (hresv : modifies r = true → waitsThere r = false → heldByResv s.m (ctxCode r.past r.who) ls = false)
include hplace hmay hnew

/-- A word operation that may be performed and is not registered goes to the engine of its address. -/
theorem syncServiceG_wordOp (hr : reqOf s.m id = some r) (hop : isWordOp r.op = true) :
    syncServiceG id .perform s.m = serveVirt s.m r ea n k .perform := by
  have hpage := isPageOp_wordOp hop
  unfold isWordOp at hop
  split at hop
  case h_8 => cases hop
  all_goals
    rename_i h
    simp only [syncServiceG, hr, h, hplace, hpage, hmay, hnew, Bool.and_true, Bool.false_eq_true, if_true, if_false]

include hr hls hfault hhead hresv

/-- The engine serves a word operation whose local word no failure and no reservation keeps from it. -/
theorem exec_serves (hop : isWordOp r.op = true) :
    exec (.syncEngineService id .perform) s = .next { s with m := serveLocal s.m r pa ls } := by
  refine next_of_lift (syncServiceG id .perform) rfl ?_
  have hpage := isPageOp_wordOp hop
  have hfree : (modifies r && !waitsThere r && heldByResv s.m (ctxCode r.past r.who) ls) = false := by
    cases hm : modifies r <;> cases hw : waitsThere r <;> simp [hm, hw, hresv]
  rw [syncServiceG_wordOp hplace hmay hnew hr hop]
  simp only [serveVirt, serveFault, hpage, hls, hfault, hhead, hfree, Bool.false_and, Bool.false_eq_true, if_false]

end Turn

/-! ## What a served operation does -/

section Effect
variable {m : Mach} {r : Req} {ea n pa : Nat} {ls : List Loc}

theorem serveLocal_amo {op : AmoOp} {b : Nat} {fetch : Bool} (h : r.op = .amo op ea b fetch) :
    let old := memRead m.mem.hbm pa (AmoOp.bytes op)
    serveLocal m r pa ls = writeLocs (modReq m r.id (fun q => { q with done := true, res := some [tokNat (if fetch then old else 0)] }))
      (ls.take (AmoOp.bytes op)) (bytesOf (amoNew op old b) (AmoOp.bytes op)) := by
  simp only [serveLocal, h]

theorem serveLocal_cas_fails {old new : Nat} (h : r.op = .cas ea n old new) (hne : memRead m.mem.hbm pa n ≠ old) :
    serveLocal m r pa ls = finish (casCount m (ctxCode r.past r.who) (pa * 16 + n) false) r.id
      (casRes r.who (memRead m.mem.hbm pa n) false) := by
  have hok : (memRead m.mem.hbm pa n == old) = false := beq_eq_false_iff_ne.mpr hne
  simp only [serveLocal, h, hok, Bool.false_eq_true, if_false]

theorem serveLocal_cas_writes {old new : Nat} (h : r.op = .cas ea n old new) (heq : memRead m.mem.hbm pa n = old) :
    serveLocal m r pa ls = writeLocs (modReq (casCount m (ctxCode r.past r.who) (pa * 16 + n) true) r.id
      (fun q => { q with done := true, res := some [tokNat (casRes r.who old true)] })) ls (bytesOf new n) := by
  simp only [serveLocal, h, heq, beq_self_eq_true, if_true]

theorem serveLocal_arrive {c : Nat} (h : r.op = .arrive ea c) :
    serveLocal m r pa ls = writeLocs (modReq m r.id (fun q => { q with done := true, res := some [tokNat 0] })) (ls.take 8)
      (bytesOf (arriveVal (memRead m.mem.hbm pa 8) c) 8) := by
  simp only [serveLocal, h]

theorem serveLocal_futw_full {v : Nat} (h : r.op = .futw ea v) (hfull : bitAt (memRead m.mem.hbm pa 16) 64 = true) :
    serveLocal m r pa ls = finish m r.id (2 ^ 63) := by
  simp only [serveLocal, h, hfull, if_true]

theorem serveLocal_futw_empty {v : Nat} (h : r.op = .futw ea v) (hempty : bitAt (memRead m.mem.hbm pa 16) 64 = false) :
    serveLocal m r pa ls = writeLocs (modReq m r.id (fun q => { q with done := true, res := some [tokNat 0] })) (ls.take 16)
      (bytesOf (memRead m.mem.hbm pa 16 / 2 ^ 65 * 2 ^ 65 + 2 ^ 64 + v) 16) := by
  simp only [serveLocal, h, hempty, Bool.false_eq_true, if_false]

theorem isWordOp_waits (h : waitsThere r = true) : isWordOp r.op = true := by
  unfold waitsThere at h
  split at h
  case h_4 => cases h
  all_goals
    rename_i hop
    rw [hop]
    rfl

/-- WAITA, WAITC and FUTR enter the queue of their word. -/
theorem serveLocal_waits (h : waitsThere r = true) : serveLocal m r pa ls = register m r pa := by
  unfold waitsThere at h
  split at h
  case h_4 => cases h
  all_goals
    rename_i hop
    simp only [serveLocal, hop]

end Effect

/-! ## Requests of which none goes on (R223, R232) -/

/-- No request is a waiter whose condition holds, or an MWAIT. -/
def NoneGoesOn (m : Mach) : Prop :=
  ∀ r ∈ m.mem.reqs, (r.done = true ∨ waiterValue m r = none) ∧ r.op ≠ .mwait

theorem wakeN_noneGoesOn {m : Mach} (h : NoneGoesOn m) (n : Nat) : wakeN n m = m := by
  have hfirst : firstWaiter m = none := by
    unfold firstWaiter
    rw [List.filter_eq_nil_iff.mpr fun r hr => ?_]
    · rfl
    · rcases (h r hr).1 with hd | hv
      · simp [hd]
      · simp [hv]
  cases n with
  | zero => rfl
  | succ n => simp only [wakeN, hfirst]

theorem wakeMwait_noMwait {m : Mach} (h : ∀ r ∈ m.mem.reqs, r.op ≠ .mwait) : wakeMwait m = m := by
  unfold wakeMwait
  dsimp only
  rw [List.filter_eq_nil_iff.mpr fun r hr => ?_]
  · rfl
  · split
    · exact absurd ‹_› (h r hr)
    · simp

/-- What fault records and rings have written fires monitors, and no more. -/
theorem serveTouched_noneGoesOn {m : Mach} (h : ∀ sync : SyncS, sync.bad = m.sync.bad → sync.resv = m.sync.resv →
    NoneGoesOn { m with sync := sync }) :
    ∃ sync, serveTouched m = { m with sync := sync } ∧ sync.touched = [] := by
  unfold serveTouched
  split
  · rename_i ht
    exact ⟨m.sync, rfl, List.isEmpty_iff.mp ht⟩
  · refine ⟨(fireMons { m with sync.touched := [] } (m.sync.touched.map .hbm)).sync, ?_, rfl⟩
    have hq := h (fireMons { m with sync.touched := [] } (m.sync.touched.map .hbm)).sync rfl rfl
    dsimp only
    exact (congrArg wakeMwait (wakeN_noneGoesOn hq _)).trans (wakeMwait_noMwait fun r hr => (hq r hr).2)

/-- Where no request goes on, a flush delivers what it can with the monitors fired. -/
theorem flush_noneGoesOn {m : Mach} (h : ∀ sync : SyncS, sync.bad = m.sync.bad → sync.resv = m.sync.resv →
    NoneGoesOn { m with sync := sync }) :
    ∃ sync, sync.touched = [] ∧ flush m = flush { m with sync := sync } := by
  obtain ⟨sync, hserve, htouched⟩ := serveTouched_noneGoesOn h
  refine ⟨sync, htouched, ?_⟩
  rw [flush_untouched (m := { m with sync := sync }) htouched, flush, hserve]

/-! ## A request that waits alone -/

/-- A waiter whose condition has held, with its value. -/
def ended (q : Req) (v : Nat) : Req := { q with done := true, res := some [tokNat v] }

/-- The low 64 bits of a token's value. -/
theorem bits_tokNat (v : Nat) : bits (tokNat v).val.pay.toNat 0 64 = v % 2 ^ 64 := by
  simp only [tokNat, tokOf, Val.ofNat, bits, BitVec.toNat_ofNat, Nat.shiftRight_zero]
  omega

theorem noneGoesOn_ended {x : Mach} {q : Req} {v : Nat} (hreqs : x.mem.reqs = [ended q v]) (hop : q.op ≠ .mwait) : NoneGoesOn x := by
  intro r hr
  obtain rfl : r = ended q v := List.mem_singleton.mp (hreqs ▸ hr)
  exact ⟨.inl rfl, hop⟩

/-- A shepherd core's sole waiter that has ended gives its register the value, whatever monitors fire. -/
theorem flush_ended {x : Mach} {q : Req} {u w k v : Nat} (hreqs : x.mem.reqs = [ended q v]) (hop : q.op ≠ .mwait)
    (hwho : q.who = .unit u w) (hu : isShepherd u = true) (hdst : q.dst = .sreg u k) (hend : ∀ p < 16, (pastOf x p).ending = none) :
    ∃ sync, flush x = setSReg (delReq { x with sync := sync } q.id) u k (bits (tokNat v).val.pay.toNat 0 64) := by
  obtain ⟨sync, htouched, hflush⟩ := flush_noneGoesOn (m := x) fun sync _ _ => noneGoesOn_ended (x := { x with sync := sync }) hreqs hop
  exact ⟨sync, hflush.trans (flush_sole_shepherd (r := ended q v) hreqs rfl rfl hwho hu hdst htouched hend)⟩

theorem modReq_sole {m : Mach} {q : Req} {f : Req → Req} (hreqs : m.mem.reqs = [q]) (hid : (f q).id = q.id) :
    modReq m q.id f = { m with mem.reqs := [f q] } := by
  simp [modReq, reqOf, hreqs, setReq, hid]

/-- With a sole request that is a WAITA without a result, and no pasture to complete, nothing leaves. -/
theorem flush_sole_waita {m : Mach} {q : Req} {ea n b : Nat} {c : WCond} (hreqs : m.mem.reqs = [q]) (hop : q.op = .waita ea n c b)
    (hres : q.res = none) (htouched : m.sync.touched = []) (hend : ∀ p < 16, (pastOf m p).ending = none) : flush m = m := by
  have hone : flushOne m = none := by
    simp [flushOne, hreqs, hres]
  have hsys : advanceSys m = none := by
    simp [advanceSys, hreqs, sysReady, hop]
  have hevent : advanceEvent m = none := by
    simp [advanceEvent, hreqs, hop]
  have hdone : advanceEnd m = none := by
    refine List.findSome?_eq_none_iff.mpr fun p hp => ?_
    rw [hend p (List.mem_range.mp hp)]
  rw [flush_untouched htouched]
  simp only [flushN, hone, hsys, hdone, hevent, Option.orElse_none]

section Waita
variable {m : Mach} {q : Req} {ea n b a turn : Nat} {c : WCond} (hop : q.op = .waita ea n c b) (hgranted : q.granted = some (a, turn))
  (ha : a < 2 ^ 60) (hbad : thas (a / 64) m.sync.bad = false)
include hop hgranted ha hbad

/-- A registered WAITA has its word once its condition holds (R232). -/
theorem waiterValue_waita : waiterValue m q
    = if wcond (8 * n) c (memRead m.mem.hbm a n) b then some (memRead m.mem.hbm a n, m) else none := by
  have hlocal : ¬(2 ^ 61 ≤ a ∨ (a < 2 ^ 60 ∧ thas (a / 64) m.sync.bad = true)) := by
    rintro (h | h)
    · omega
    · exact Bool.false_ne_true (hbad ▸ h.2)
  simp only [waiterValue, hgranted, if_neg hlocal, hop, waitRead, if_pos ha]

omit ha in
theorem failWaiters_waita (hreqs : m.mem.reqs = [q]) : failWaiters m = m := by
  unfold failWaiters
  rw [List.filter_eq_nil_iff.mpr fun r hr => ?_]
  · exact ite_self _
  · obtain rfl : r = q := List.mem_singleton.mp (hreqs ▸ hr)
    simp [hop, hgranted, hbad]

variable (hreqs : m.mem.reqs = [q]) (hend : ∀ p < 16, (pastOf m p).ending = none)
include hreqs hend

/-- A WAITA alone whose condition does not hold goes on waiting. -/
theorem wake_waita_waits (hres : q.res = none) (hcond : wcond (8 * n) c (memRead m.mem.hbm a n) b = false) :
    ∃ sync, wake m = { m with sync := sync } := by
  have hquiet : ∀ sync : SyncS, sync.bad = m.sync.bad → sync.resv = m.sync.resv → NoneGoesOn { m with sync := sync } := by
    intro sync hb _ r hr
    obtain rfl : r = q := List.mem_singleton.mp (hreqs ▸ hr)
    refine ⟨.inr ?_, by simp [hop]⟩
    rw [waiterValue_waita (m := { m with sync := sync }) hop hgranted ha (hb ▸ hbad), hcond]
    rfl
  have hhere := hquiet m.sync rfl rfl
  obtain ⟨sync, htouched, hflush⟩ := flush_noneGoesOn hquiet
  refine ⟨sync, ?_⟩
  rw [wake, failWaiters_waita hop hgranted hbad hreqs, wakeN_noneGoesOn hhere, wakeMwait_noMwait fun r hr => (hhere r hr).2, hflush]
  exact flush_sole_waita hreqs hop hres htouched hend

/-- A shepherd core's WAITA alone whose condition holds gives its register the word. -/
theorem wake_waita_completes {u w k : Nat} (hdone : q.done = false) (hwho : q.who = .unit u w) (hu : isShepherd u = true)
    (hdst : q.dst = .sreg u k) (hcond : wcond (8 * n) c (memRead m.mem.hbm a n) b = true) :
    ∃ sync, wake m = setSReg { m with mem.reqs := [], sync := sync } u k (memRead m.mem.hbm a n % 2 ^ 64) := by
  set v := memRead m.mem.hbm a n
  have hvalue : waiterValue m q = some (v, m) := by
    rw [waiterValue_waita hop hgranted ha hbad, hcond, if_pos rfl]
  have hfirst : firstWaiter m = some q := by
    simp [firstWaiter, hreqs, hdone, hvalue, argMax]
  have hnot : q.op ≠ .mwait := by simp [hop]
  have hended : ∀ x : Mach, x.mem.reqs = [ended q v] → NoneGoesOn x := fun x hx => noneGoesOn_ended hx hnot
  have hmod : modReq m q.id (fun r => { r with done := true, res := some [tokNat v] }) = { m with mem.reqs := [ended q v] } :=
    modReq_sole hreqs rfl
  have hwake : wakeN (m.mem.reqs.length + 1) m = { m with mem.reqs := [ended q v] } := by
    rw [hreqs, List.length_singleton, wakeN, hfirst]
    simp only [hvalue]
    rw [hmod]
    exact wakeN_noneGoesOn (hended _ rfl) 1
  obtain ⟨sync, hflush⟩ := flush_ended (x := { m with mem.reqs := [ended q v] }) rfl hnot hwho hu hdst hend
  refine ⟨sync, ?_⟩
  rw [wake, failWaiters_waita hop hgranted hbad hreqs]
  dsimp only
  rw [hwake, wakeMwait_noMwait fun r hr => (hended { m with mem.reqs := [ended q v] } rfl r hr).2, hflush, bits_tokNat]
  simp [delReq, ended]

end Waita

/-- A readable local word lies on no poisoned line (R225). -/
theorem line_healthy_of_faultR {m : Mach} {r : Req} {ls : List Loc} {pa : Nat} (hf : faultR m r false ls = none)
    (hhead : ls.head? = some (.hbm pa)) : thas (pa / 64) m.sync.bad = false := by
  have hpa := List.findSome?_eq_none_iff.mp hf _ (List.mem_of_head? hhead)
  simp only [locFault, Bool.not_false, if_true, ite_eq_right_iff, reduceCtorEq, imp_false, Bool.or_eq_true, not_or] at hpa
  exact Bool.eq_false_iff.mpr hpa.2

theorem reqPlace_waita {r : Req} {ea n b : Nat} {c : WCond} (h : r.op = .waita ea n c b) (hea : ea < 255 * 2 ^ 56) :
    reqPlace r = some (.virt ea, n, .atomR) := by
  have hne : ea / 2 ^ 56 ≠ 0xFF := by omega
  simp only [reqPlace, h, if_neg hne]

theorem done_of_mayPerform {m : Mach} {r : Req} (h : mayPerform m r = true) : r.done = false := by
  refine Bool.eq_false_iff.mpr fun hd => ?_
  simp [mayPerform, mayIssue, hd] at h

/-- The machine whose sole request has entered the queue of the word at `a`. -/
def soleRegistered (m : Mach) (r : Req) (a : Nat) : Mach :=
  { m with ids := m.ids + 1, mem.reqs := [{ r with granted := some (a, m.ids) }] }

theorem register_sole {m : Mach} {r : Req} (a : Nat) (hreqs : m.mem.reqs = [r]) : register m r a = wake (soleRegistered m r a) := by
  rw [register, modReq_sole (m := { m with ids := m.ids + 1 }) hreqs rfl]
  rfl

/-- A shepherd core's WAITA alone: its register takes the word, or the request waits in the queue of its word. -/
theorem soleWaita_served {s : State} {id ea n b u w k pa : Nat} {c : WCond} {r : Req} {ls : List Loc} (hreqs : s.m.mem.reqs = [r])
    (hid : r.id = id) (hop : r.op = .waita ea n c b) (hwho : r.who = .unit u w) (hu : isShepherd u = true) (hdst : r.dst = .sreg u k)
    (hea : ea < 255 * 2 ^ 56) (hmay : mayPerform s.m r = true) (hnew : r.granted = none) (hres : r.res = none)
    (hls : virtR s.m r ea n .atomR = .ok ls) (hfault : faultR s.m r false ls = none) (hhead : ls.head? = some (.hbm pa))
    (hpa : pa < 2 ^ 60) (hend : ∀ p < 16, (pastOf s.m p).ending = none) :
    ∃ t, exec (.syncEngineService id .perform) s = .next t ∧ t.m.mem.hbm = s.m.mem.hbm
      ∧ (wcond (8 * n) c (memRead s.m.mem.hbm pa n) b = true → sReg t.m u k = memRead s.m.mem.hbm pa n % 2 ^ 64 ∧ t.m.mem.reqs = [])
      ∧ (wcond (8 * n) c (memRead s.m.mem.hbm pa n) b = false → t.m.seq = s.m.seq
        ∧ t.m.mem.reqs = [{ r with granted := some (pa, s.m.ids) }]) := by
  have hr : reqOf s.m id = some r := by simp [reqOf, hreqs, hid]
  have hwait : waitsThere r = true := by simp only [waitsThere, hop]
  have hserve := exec_serves hr (reqPlace_waita hop hea) hmay hnew hls hfault hhead (by simp [hwait]) (isWordOp_waits hwait)
  rw [serveLocal_waits hwait, register_sole pa hreqs] at hserve
  have hbad := line_healthy_of_faultR hfault hhead
  have hdone := done_of_mayPerform hmay
  refine ⟨_, hserve, ?_⟩
  cases hcond : wcond (8 * n) c (memRead s.m.mem.hbm pa n) b with
  | true =>
    obtain ⟨sync, hw⟩ := wake_waita_completes (m := soleRegistered s.m r pa) (q := { r with granted := some (pa, s.m.ids) })
      hop rfl hpa hbad rfl hend hdone hwho hu hdst hcond
    rw [hw]
    refine ⟨rfl, fun _ => ⟨?_, rfl⟩, nofun⟩
    simp [sReg_setSReg, soleRegistered]
  | false =>
    obtain ⟨sync, hw⟩ := wake_waita_waits (m := soleRegistered s.m r pa) (q := { r with granted := some (pa, s.m.ids) })
      hop rfl hpa hbad rfl hend hres hcond
    rw [hw]
    exact ⟨rfl, nofun, fun _ => ⟨rfl, rfl⟩⟩

/-! ## Barriers (R239) -/

theorem arriveGroup_group {m : Mach} {k ctx : Nat} {x : Group} (hx : tfind k m.sync.groups = some x)
    (hmem : x.members.contains ctx = true) (hnew : x.arrived.contains ctx = false) :
    tfind k (arriveGroup m k ctx).sync.groups = some (if x.arrived.length + 1 = x.members.length then
      { x with arrived := [], phase := (x.phase + 1) % 65536, wclass := 0 } else { x with arrived := ctx :: x.arrived }) := by
  simp only [arriveGroup, hx, hmem, hnew, Bool.not_true, Bool.or_false, Bool.false_eq_true, if_false, List.length_cons]
  split
  · exact tfind_tset_same ..
  · exact tfind_tset_same ..

/-- Settles O38: the engine serves a word operation with `serveLocal`, whose effect is stated for each operation; a WAITA alone goes as
`soleWaita_served` says and an arrival as `arriveGroup_group` says. -/
theorem engineServes : Obligations.EngineServes := by
  refine ⟨fun old b => ⟨fun _ _ => ?_, fun _ _ => ?_⟩, ⟨?turn, fun s id r ea n c b u w k pa ls => soleWaita_served,
    fun m k ctx x => arriveGroup_group, fun s w => ⟨_, rfl, tfind_tdel_same .., fun x hx => tfind_tdel_other _ _ _ hx, rfl⟩⟩⟩
  · exact ⟨rfl, sgn_amoNew_min4 old b, sgn_amoNew_max4 old b, rfl, rfl, rfl, rfl, rfl, rfl⟩
  · exact ⟨rfl, rfl, rfl, rfl, rfl, rfl, rfl⟩
  case turn =>
    intro s id r ea n k pa ls hr hplace _ _ hmay hnew hls hfault hhead hresv ends
    have hid := id_of_reqOf hr
    have hserve := exec_serves hr hplace hmay hnew hls hfault hhead hresv
    subst hid
    refine ⟨fun op b fetch hop => ?_, fun old new hop hne => ?_, fun old new hop heq => ?_, fun c hop => ?_, fun v hop hfull => ?_,
      fun v hop hempty => ?_, fun hop => ?_⟩
    · obtain ⟨rfl, -⟩ : AmoOp.bytes op = n ∧ AccK.atomW = k := by simpa [reqPlace, hop] using hplace
      rw [hserve (hop ▸ rfl), serveLocal_amo hop]
    · rw [hserve (hop ▸ rfl), serveLocal_cas_fails hop hne]
    · rw [hserve (hop ▸ rfl), serveLocal_cas_writes hop heq]
    · rw [hserve (hop ▸ rfl), serveLocal_arrive hop]
      rfl
    · rw [hserve (hop ▸ rfl), serveLocal_futw_full hop hfull]
    · rw [hserve (hop ▸ rfl), serveLocal_futw_empty hop hempty]
    · have hwait : waitsThere r = true := by
        rcases hop with ⟨c, b, h⟩ | ⟨t, x, h⟩ | h <;> simp only [waitsThere, h]
      rw [hserve (isWordOp_waits hwait), serveLocal_waits hwait]
      rfl

end Sys2Proof.Machine

/-! PROOFS. What a step runs in a unit's turn: the word at its next address (R64, R65, R87, R135, R204, R269). -/
namespace Sys2Proof.Machine

/-- A unit without a loaded program fetches the eight bytes at its next address. -/
theorem fetchWord_memory {m : Mach} {u : Nat} {ls : List Loc} (hw : (unitOf m u).w < imageWords u) (ht : tfind u m.copy.tiles = none)
    (hls : virtLocs m (.unit u (unitOf m u).w) (pastOfActor m (.unit u (unitOf m u).w))
      ((unitOf m u).base + 8 * (unitOf m u).w) 8 .fetch = .ok ls)
    (hfault : locsFault m (.unit u (unitOf m u).w) ls = none) (hin : ls.any isOutside = false) :
    fetchWord m u = .ok (locsRead m ls) := by
  simp only [fetchWord, Nat.not_le.mpr hw, if_false, ht, Option.bind_none, hls, hfault, hin, Bool.false_eq_true]

/-- A tile takes the word of the program that it read as it started (R269). -/
theorem fetchWord_tile {m : Mach} {u : Nat} {b : TileB} {c : W64} (hw : (unitOf m u).w < imageWords u)
    (ht : tfind u m.copy.tiles = some b) (hc : b.code[(unitOf m u).w]? = some (some c)) : fetchWord m u = .ok c.toNat := by
  simp only [fetchWord, Nat.not_le.mpr hw, if_false, ht, Option.bind_some, hc]

/-- A word that passes its fetch and its checks is the one to execute. -/
theorem unitInstr_of_fetch {m : Mach} {u x : Nat} {i : Instr} (hx : fetchWord m u = .ok x) (hi : wordFate m u x = .ok i) :
    unitInstr m u = some (x, i) := by
  simp only [unitInstr, hx, hi]

/-- A unit whose turn it is executes its word; its sequencing follows, and the results that may leave do. -/
theorem stepUnit_word {s : State} {u x : Nat} {i : Instr} (hturn : unitTurn exec s u = true) (hx : unitInstr s.m u = some (x, i)) :
    stepUnit u s = leave (fun m => flush (afterWord u m)) (exec i (enterUnit u x (noteTurn u s))) := by
  simp only [stepUnit, hturn, if_true, hx]

/-- Settles O4: the word is fetched from memory (`fetchWord_memory`) or from a tile's program (`fetchWord_tile`). -/
theorem stepRunsWord : Obligations.StepRunsWord := by
  intro s u rest x i t hf ha s1 y who hturn hw hword hfate hexec
  have hx : fetchWord s1.m u = .ok x := by
    obtain ⟨htile, ls, hls, hfault, hin, rfl⟩ | ⟨b, c, htile, hc, rfl⟩ := hword
    · exact fetchWord_memory hw htile hls hfault hin
    · exact fetchWord_tile hw htile hc
  have hstep : stepUnit u s1 = .next { t with m := flush (afterWord u t.m) } :=
    (stepUnit_word hturn (unitInstr_of_fetch hx hfate)).trans (congrArg (leave _) hexec)
  exact step_of_stepCore ((stepCore_turn hf ha).trans hstep)

end Sys2Proof.Machine

/-! PROOFS. Matrix commands: what enters the queue of an array, and what is answered, waits or traps instead (R284, R285, R291-R305). -/
namespace Sys2Proof.Machine

/-! ## The queue of an array (R284, R304, R307) -/

@[simp] theorem arrQOf_setArrQ_same (m : Mach) (p core : Nat) (q : ArrQ) : arrQOf (setArrQ m p core q) p core = q := by
  cases himg : (pastOf m p).image with
  | none =>
    have hset : setArrQ m p core q = { m with mat.q := tput ArrQ.reset (arrKey m p core) q m.mat.q } := by simp only [setArrQ, himg]
    have hpast : (pastOf (setArrQ m p core q) p).image = none := hset ▸ himg
    simp only [arrQOf, hpast]
    rw [hset]
    exact tget_tput_same ..
  | some i => simp only [arrQOf, setArrQ, himg, pastOf_setPast_same, tget_tput_same]

/-- An array settles nothing while no S-form MXWAIT is at the head of its queue. -/
theorem settleWaits_eq_self {m : Mach} {p core : Nat} (n : Nat)
    (h : ∀ c ∈ (arrQOf m p core).queue.head?, c.op = .wait → isUnit c.who = false) : settleWaits p core n m = m := by
  cases n with
  | zero => rfl
  | succ n =>
    rw [settleWaits]
    cases hq : (arrQOf m p core).queue with
    | nil => rfl
    | cons c rest =>
      refine if_neg fun hc => ?_
      simp only [Bool.and_eq_true, beq_iff_eq] at hc
      obtain ⟨⟨-, hop⟩, hunit⟩ := hc
      rw [h c (by rw [hq]; rfl) hop] at hunit
      cases hunit

/-- A command stands last in the queue that it enters. -/
theorem queue_pushCmd {m : Mach} {p core : Nat} {dst : Dst} {pend : Bool} {op : ArrOp} (hop : op = .wait → isUnit m.cur = false)
    (hhead : ∀ c ∈ (arrQOf m p core).queue.head?, c.op = .wait → isUnit c.who = false) :
    (arrQOf (pushCmd m p core dst pend op) p core).queue = (arrQOf m p core).queue ++ [⟨op, m.ids, m.cur⟩] := by
  rw [pushCmd, settleWaits_eq_self, arrQOf_setArrQ_same]
  · rfl
  · rw [arrQOf_setArrQ_same]
    intro c hc
    cases hq : (arrQOf m p core).queue with
    | nil =>
      rw [hq] at hc
      obtain rfl : _ = c := Option.some.inj hc
      exact hop
    | cons c0 rest =>
      rw [hq] at hc
      exact hhead c (by rw [hq]; exact hc)

theorem peCmd_pe {m : Mach} {core pe fr k b : Nat} {c : Bool} (hc : m.cur = .pe core pe fr k b c) (dst : Dst) (op : ArrOp) :
    peCmd m dst op = pushCmd m (pastOfActor m m.cur) core dst false op := by
  simp only [peCmd, hc]

/-! ## CTURN, MXST, MXWAIT and MXMODE -/

theorem exec_cturn {s : State} {core pe fr k b : Nat} {c : Bool} (f : CturnF) (ch : Fin 8) (hc : s.m.cur = .pe core pe fr k b c) :
    let x := chanKey core pe ch.val
    exec (.cturn f ch) s = .next { s with m := setChan s.m x { chanOf s.m x with pendNode := some (TurnK.size f.k) } } :=
  next_of_lift (cturnG (TurnK.size f.k) ch.val) rfl (by simp only [cturnG, hc])

theorem coreIn_readDone (m : Mach) (os ds : List Opd) (p core : Nat) : coreIn (readDone m os ds) p core = coreIn m p core := by
  rw [coreIn, pastOf_readDone, coreIn]

theorem mat_readDone (m : Mach) (os ds : List Opd) : (readDone m os ds).mat = m.mat := by
  obtain ⟨_, _, _, _, e⟩ := readDone_eq m os ds
  rw [e]

/-- The core that an S-form MXWAIT or an MXMODE names in A[9:0]. -/
theorem coreField_eq (x : Nat) : bits (x % 2 ^ 64) 0 10 = x % 2 ^ 10 := by
  rw [bits_mod_two_pow (by decide), bits_zero_eq_mod]

section
variable {s : State} {d a : Opd} (h : memStarts s.m [a] [d] [] = true)
include h

theorem exec_mxst_pe {core pe fr k b : Nat} {c : Bool} (f : BitF) (hc : s.m.cur = .pe core pe fr k b c) : exec (.mxst f d a) s =
    .next (queued s [a] [d] (fun m => dstOf m d false) (.st f.bit (payOf s.m .whole a % 2 ^ 64 % 4))) := by
  rw [exec_memStart (i := .mxst f d a) rfl h]
  simp only [queued, after, readDone_actor, hc]
  rfl

/-- In S-form MXST traps for a core outside the pasture, waits for one of the four places, or enters the queue of its core (R285). -/
theorem exec_mxst_unit {u w : Nat} (f : BitF) (hc : s.m.cur = .unit u w) :
    let m := readDone s.m [a] [d]
    let p := pastOfActor m m.cur
    let x := payOf s.m .whole a % 2 ^ 64
    exec (.mxst f d a) s = .next { s with
      m := if !coreIn m p (bits x 16 10) then trapForm m u w 0x03 0
        else if 4 ≤ sPlaces (arrQOf m p (bits x 16 10)) then stall m
        else pushCmd m p (bits x 16 10) (dstOf m d false) false (.st f.bit (x % 4)) } := by
  intro m p x
  have hcur : m.cur = .unit u w := (readDone_actor ..).trans hc
  rw [exec_memStart (i := .mxst f d a) rfl h]
  simp only [after, p, m, hcur]
  rfl

/-- In S-form MXWAIT traps for a core outside the pasture, or enters the queue of its core as a condition in Pending (R304). -/
theorem exec_mxwait_unit {u w : Nat} (hc : s.m.cur = .unit u w) :
    let m := readDone s.m [a] [d]
    let p := pastOfActor m m.cur
    let core := payOf s.m .whole a % 2 ^ 10
    exec (.mxwait d a) s = .next { s with
      m := if !coreIn m p core then trapForm m u w 0x03 0 else pushCmd m p core (dstOf m d false) true .wait } := by
  intro m p core
  have hcur : m.cur = .unit u w := (readDone_actor ..).trans hc
  refine next_of_lift (mxwaitG d a) rfl ?_
  simp only [mxwaitG, hc]
  rw [memStart_starts _ _ _ _ _ _ h]
  simp only [p, m, core, hcur, ← coreField_eq]
  rfl

/-- MXMODE fails for a core outside the pasture, answers at once where the mode stands already, or asks for it (R305). -/
theorem exec_mxmode (f : BitF) :
    let m := readDone s.m [a] [d]
    let core := payOf s.m .whole a % 2 ^ 10
    exec (.mxmode f d a) s = .next { s with
      m := if !coreIn m (pastOfActor m m.cur) core then resultNow m (dstOf m d false) (.mode core f.bit) (tokNat (2 ^ 63 + 0x11))
        else if m.mat.mode.contains core == f.bit then resultNow m (dstOf m d false) (.mode core f.bit) (tokNat 0)
        else addReq m (mkReq m (dstOf m d false) (.mode core f.bit) 5 false false) } := by
  intro m core
  rw [exec_memStart (i := .mxmode f d a) rfl h]
  simp only [core, ← coreField_eq]
  rfl

end

/-- Settles O42: the commands enter as `peCmd` or `pushCmd` puts them, the cases of MXST, MXWAIT and MXMODE are those of their `exec`
lemmas, and `queue_pushCmd` gives the place in the queue. -/
theorem matrixCommands : Obligations.MatrixCommands := by
  refine ⟨fun f a b s h hb => ?wld, fun d a b s h => (exec_memStart (i := .mxwbuf d a b) rfl h :),
    fun f a b s h => (exec_memStart (i := .mxfmt f a b) rfl h :), fun d a b s h => (exec_memStart (i := .mxrun d a b) rfl h :),
    fun f d a b s h => (exec_memStart (i := .mxdrn f d a b) rfl h :),
    fun f n s core pe fr k b c hc => next_of_lift (mxaccG f n.val) rfl (peCmd_pe hc ..),
    fun f d a s core pe fr k b c hc h => exec_mxst_pe h f hc, ?stUnit, fun d a s core pe fr k b c hc => ?waitPe, ?waitUnit, ?mode,
    fun f ch s core pe fr k b c hc => ?turn, fun f a b s h hb => ?wldScaled, ?stops, fun m p core dst pend op => queue_pushCmd⟩
  case wld =>
    rw [exec_memStart (i := .mxwld f a b) rfl h]
    exact congrArg (fun m => Host.Outcome.next { s with m := m }) (if_neg (Bool.eq_false_iff.mp hb))
  case wldScaled =>
    rw [exec_memStart (i := .mxwld f a b) rfl h]
    exact congrArg (fun m => Host.Outcome.next { s with m := m }) (if_pos hb)
  case stUnit =>
    intro f d a s u w hc h m p core op hin hfree
    rw [exec_mxst_unit h f hc, if_neg (by simpa only [Bool.not_eq_true', Bool.not_eq_false]), if_neg (Nat.not_le.mpr hfree)]
  case waitPe =>
    refine next_of_lift (mxwaitG d a) rfl ?_
    rw [← peCmd_pe hc]
    simp only [mxwaitG, hc]
  case waitUnit =>
    intro d a s u w hc h m p hin
    rw [exec_mxwait_unit h hc, if_neg (by simpa only [Bool.not_eq_true', Bool.not_eq_false])]
  case mode =>
    intro f d a s h core hin
    rw [← coreIn_readDone s.m [a] [d], ← pastOfActor_readDone s.m [a] [d]] at hin
    rw [exec_mxmode h, if_neg (by simpa only [Bool.not_eq_true', Bool.not_eq_false]), mat_readDone]
    refine ⟨fun hm => ?_, fun hm => ?_⟩
    · rw [if_pos (beq_iff_eq.mpr hm)]
      rfl
    · rw [if_neg (mt beq_iff_eq.mp hm)]
      rfl
  case turn =>
    exact ⟨_, exec_cturn f ch hc, chanOf_setChan_same .., fun x hne => (chanOf_setChan ..).trans (if_neg hne), rfl⟩
  case stops =>
    intro d a s u w f hc h m p x
    have hwait : x % 2 ^ 10 = payOf s.m .whole a % 2 ^ 10 := Nat.mod_mod_of_dvd _ (pow_dvd_pow 2 (by decide))
    rw [← bits_eq_div_mod, hwait]
    refine ⟨fun hin => ?_, fun hin hfull => ?_, fun hin => ⟨?_, ?_⟩⟩
    · rw [exec_mxst_unit h f hc, if_pos (by simpa only [Bool.not_eq_true'])]
    · rw [exec_mxst_unit h f hc, if_neg (by simpa only [Bool.not_eq_true', Bool.not_eq_false]), if_pos hfull]
    · rw [exec_mxwait_unit h hc, if_pos (by simpa only [Bool.not_eq_true'])]
    · rw [exec_mxmode h, if_pos (by simpa only [Bool.not_eq_true'])]
      rfl

end Sys2Proof.Machine

/-! PROOFS. Matrix arrays at work: the pasture they serve, one command, one row of an MXRUN, drains, mode changes and corner turns
(R106, R283, R284, R292-R305). -/
namespace Sys2Proof.Machine

/-! ## The pasture that an array serves (R284, R303) -/

section
variable {m : Mach} {core p : Nat}

theorem arrayPast_of_live (hl : livePast m core = some p) (hr : running m p = true) (hq : (arrQOf m p core).queue ≠ []) :
    arrayPast m core = some p := by
  have hwaits : (!(arrQOf m p core).queue.isEmpty) = true := by simpa using hq
  simp only [arrayPast, hl, Option.filter_some, hwaits, Bool.true_or, if_true, hr]

/-- An array serves the live pasture while its clock runs, or one that is not launched and has sent commands. -/
theorem arrayPast_serves (h : arrayPast m core = some p) : (livePast m core = some p ∧ running m p = true)
    ∨ ((pastOf m p).st ≠ .live ∧ (pastOf m p).image = none ∧ (arrQOf m p core).queue ≠ []) := by
  simp only [arrayPast] at h
  split at h
  next q hq =>
    split at h
    next hr =>
      obtain rfl : q = p := Option.some.inj h
      exact .inl ⟨(Option.filter_eq_some_iff.mp hq).1, hr⟩
    next => cases h
  next =>
    have hp := List.find?_some h
    simp only [Bool.and_eq_true, bne_iff_ne, Option.isNone_iff_eq_none, Bool.not_eq_true', List.isEmpty_eq_false_iff] at hp
    obtain ⟨⟨hst, himg⟩, hq⟩ := hp
    exact .inr ⟨hst, himg, hq⟩

end

/-! ## One turn of the array (R283, R284) -/

section
variable {s : State} {core p : Nat} {bad : List Nat}

section
variable {c : ArrCmd} {rest : List ArrCmd} (hp : arrayPast s.m core = some p) (hmode : s.m.mat.mode.contains core = true)
  (hdrain : (arrQOf s.m p core).drain = none) (hq : (arrQOf s.m p core).queue = c :: rest)
include hp hmode hdrain hq

/-- A command whose request is gone leaves the queue. -/
theorem exec_arrayCommand_gone (hreq : reqOf (takeHeld s.m core p) c.req = none) :
    exec (.arrayCommand core bad) s = .next { s with m := settleWaits p core 8 (popCmd (takeHeld s.m core p) p core) } := by
  refine next_of_lift (arrayCommandG core bad) rfl ?_
  simp only [arrayCommandG, hp, hmode, hdrain, hq, Bool.not_true, Option.isSome_none, Bool.or_self, Bool.false_eq_true, if_false, hreq]

/-- The array executes the head of its queue, which leaves the queue as it completes. -/
theorem exec_arrayCommand_runs {r : Req} (hreq : reqOf (takeHeld s.m core p) c.req = some r) :
    let m2 := doCmd (takeHeld s.m core p) p core r bad c.op
    exec (.arrayCommand core bad) s = .next { s with
      m := if (arrQOf m2 p core).busy then m2 else settleWaits p core 8 (popCmd m2 p core) } := by
  refine next_of_lift (arrayCommandG core bad) rfl ?_
  simp only [arrayCommandG, hp, hmode, hdrain, hq, Bool.not_true, Option.isSome_none, Bool.or_self, Bool.false_eq_true, if_false, hreq]

end

theorem exec_arrayCommand_vector (hmode : s.m.mat.mode.contains core = false) : exec (.arrayCommand core bad) s = .next s := by
  refine next_of_lift (arrayCommandG core bad) rfl ?_
  simp only [arrayCommandG, hmode, Bool.not_false, Bool.true_or, if_true]
  cases arrayPast s.m core <;> rfl

end

/-! ## MXWLD and MXACC (R292, R295) -/

section
variable {m : Mach} {p core : Nat} {r : Req}

/-- The word of an MXWLD names a tile sequence within the 32 entries, and sets no reserved bit. -/
def wldOk (a : Nat) : Bool := a / 2 ^ 5 % 8 == 0 && bits a 11 53 == 0 && decide (a % 32 + (a / 2 ^ 8 % 8 + 1) ≤ 32)

theorem bits_three (a lo : Nat) : bits a lo 3 = a / 2 ^ lo % 8 := bits_eq_div_mod a lo 3

theorem not_wldOk (a : Nat) :
    (bits a 5 3 != 0 || bits a 11 53 != 0 || decide (32 < a % 32 + (bits a 8 3 + 1))) = !wldOk a := by
  simp only [wldOk, bits_three, bne, Bool.not_and, ← Nat.not_le, decide_not]

theorem doWld_refused {a : Nat} (fmt : FFmt) (b : Nat) (h : wldOk a = false) :
    doWld m p core r fmt a b = refuseCmd m r (a % 2 ^ 32) := by
  simp only [doWld, not_wldOk, h, Bool.not_false, if_true]

theorem doWld_latches {a : Nat} (fmt : FFmt) (b : Nat) (h : wldOk a = true) :
    doWld m p core r fmt a b = finish (setHeld (setArrQ m p core { arrQOf m p core with
        first := a % 32, count := a / 2 ^ 8 % 8 + 1, wfmt := fmt, outerW := b % 2 ^ 32, seqOn := true }) core
      { heldOf m core with active := some ⟨wbufTile (heldOf m core) (a % 32), fmt, b % 2 ^ 32⟩ }) r.id 0 := by
  simp only [doWld, not_wldOk, h, Bool.not_true, Bool.false_eq_true, if_false, cmdDone]
  rw [bits_three]

/-- The held state of an array after bank `n` is cleared. -/
def bankCleared (n : Nat) (h : ArrH) : ArrH :=
  { h with acc := tfilter (fun k => k / 2048 != n) h.acc, rowp := tfilter (fun k => k / 64 != n) h.rowp }

theorem tget_tfilter {V : Type} (d : V) (f : Nat → Bool) (k : Nat) (t : Tbl V) :
    tget d k (tfilter f t) = if f k then tget d k t else d := by
  rw [tget, tfind_tfilter]
  split <;> rfl

theorem acc_bankCleared (n k : Nat) (h : ArrH) :
    tget 0 k (bankCleared n h).acc = if k / 2048 = n then 0 else tget 0 k h.acc := by
  rw [bankCleared, tget_tfilter]
  by_cases hk : k / 2048 = n <;> simp [hk]

theorem rowp_bankCleared (n i : Nat) (h : ArrH) :
    tfind i (bankCleared n h).rowp = if i / 64 = n then none else tfind i h.rowp := by
  rw [bankCleared, tfind_tfilter]
  by_cases hi : i / 64 = n <;> simp [hi]

end

/-! ## One row of an MXRUN (R106, R297) -/

theorem tfind_of_thas_false {V : Type} {k : Nat} {t : Tbl V} (h : thas k t = false) : tfind k t = none := by
  simpa [thas] using h

/-- One element of a row takes `f` of its place and its value, and its flags are collected. -/
def elemStep (at0 : Nat) (f : Nat → Nat → Nat × Nat) (x : RunAcc) (n : Nat) : RunAcc :=
  let v := f n (tget 0 (at0 + n) x.h.acc).toNat
  { x with h := { x.h with acc := tput 0 (at0 + n) (BitVec.ofNat 32 v.1) x.h.acc }, fl := x.fl ||| v.2 }

/-- The elements of a row before the `N`th, taken in order. -/
def elemsDone (at0 : Nat) (f : Nat → Nat → Nat × Nat) (N : Nat) (x : RunAcc) : RunAcc := (upto N).foldl (elemStep at0 f) x

section
variable (at0 : Nat) (f : Nat → Nat → Nat × Nat) (N : Nat) (x : RunAcc)

theorem elemsDone_succ : elemsDone at0 f (N + 1) x = elemStep at0 f (elemsDone at0 f N x) N := by
  rw [elemsDone, upto, List.range_succ, List.foldl_append]
  rfl

/-- Nothing but the accumulators and the flags changes. -/
theorem elemsDone_keeps : (elemsDone at0 f N x).h.rowp = x.h.rowp ∧ (elemsDone at0 f N x).h.stat = x.h.stat
    ∧ (elemsDone at0 f N x).marked = x.marked := by
  induction N with
  | zero => exact ⟨rfl, rfl, rfl⟩
  | succ N ih =>
    rw [elemsDone_succ]
    exact ih

/-- Each element of the row is taken once, from its value before the row. -/
theorem acc_elemsDone (k : Nat) : tget 0 k (elemsDone at0 f N x).h.acc =
    if at0 ≤ k ∧ k < at0 + N then BitVec.ofNat 32 (f (k - at0) (tget 0 k x.h.acc).toNat).1 else tget 0 k x.h.acc := by
  induction N with
  | zero => exact (if_neg (by omega)).symm
  | succ N ih =>
    have hstep : (elemsDone at0 f (N + 1) x).h.acc = tput 0 (at0 + N)
        (BitVec.ofNat 32 (f N (tget 0 (at0 + N) (elemsDone at0 f N x).h.acc).toNat).1) (elemsDone at0 f N x).h.acc := by
      rw [elemsDone_succ, elemStep]
    rw [hstep, tget_tput]
    by_cases hk : k = at0 + N
    · subst hk
      rw [if_pos rfl, ih, if_neg (by omega), if_pos (by omega), Nat.add_sub_cancel_left]
    · rw [if_neg hk, ih]
      exact if_congr (by omega) rfl rfl

end

section
variable {m : Mach} {core : Nat} {r : Req} {q : ArrQ} {bad : List Nat} {G last ab rb : Nat} {tile : List Byte} {i : Nat} {x : RunAcc}

/-- The unit that a row cannot read: of its elements, else of its scale record. -/
def rowFault (m : Mach) (core : Nat) (q : ArrQ) (bad : List Nat) (G last ab rb : Nat) : Option Nat :=
  (arrFault m core bad ab (elemBytes q.afmt last)).orElse (fun _ => if G = 0 then none else arrFault m core bad rb 16)

/-- Element `n` of a row after the chunk's products are added to its value `v` (R106). -/
def rowElem (m : Mach) (core : Nat) (q : ArrQ) (G last ab rb : Nat) (tile : List Byte) (n v : Nat) : Nat × Nat :=
  let act := spadBytes m core ab (elemBytes q.afmt last)
  let scales := if G = 0 then [] else spadBytes m core rb 16
  let outer := if G = 0 then [] else [if q.os then natOf (scales.take 4) else 0x3F800000, q.outerW]
  passElem (chunkSum q.afmt q.wfmt G last act scales tile n) outer v (bitAt q.satm q.bank)

theorem runRow_skips (h : thas (q.bank * 64 + i) x.h.rowp = true) : runRow m core r q bad G last ab rb tile i x = x := if_pos h

theorem runRow_marks {u : Nat} (h : thas (q.bank * 64 + i) x.h.rowp = false) (hu : rowFault m core q bad G last ab rb = some u) :
    runRow m core r q bad G last ab rb tile i x = { x with
      h.rowp := tset (q.bank * 64 + i) (BitVec.ofNat 128 (originReq r 0x01 (core * 2 ^ 19 + 64 * u))) x.h.rowp
      bad := u :: x.bad, marked := true } := by
  rw [rowFault] at hu
  simp only [runRow, h, Bool.false_eq_true, if_false, hu, markRow, tfind_of_thas_false h]

theorem runRow_adds (h : thas (q.bank * 64 + i) x.h.rowp = false) (hu : rowFault m core q bad G last ab rb = none) :
    runRow m core r q bad G last ab rb tile i x
      = elemsDone (q.bank * 2048 + i * 32) (rowElem m core q G last ab rb tile) 32 x := by
  rw [rowFault] at hu
  simp only [runRow, h, Bool.false_eq_true, if_false, hu]
  rfl

end

/-! ## MXRUN (R296-R298) -/

section
variable {m : Mach} {p core : Nat} {r : Req} {bad : List Nat} {a b : Nat}

theorem runRows_eq (b : Nat) : bits b 0 6 = b % 64 := bits_zero_eq_mod b 6
theorem runArow_eq (b : Nat) : bits b 6 6 = b / 64 % 64 := bits_eq_div_mod b 6 6

/-- An MXRUN has its tile sequence and its activations set, and its word keeps to its rows, its chunks and the scratchpad. -/
def runOkWord (q : ArrQ) (a b : Nat) : Bool :=
  q.seqOn && q.actOn && bits b 24 40 == 0 && decide (b / 64 % 64 + (b % 64 + 1) ≤ 64) && decide (b / 2 ^ 12 % 8 + 1 ≤ q.count)
    && a % 2 ^ 32 % 16 == 0 && decide (a % 2 ^ 32 < 2 ^ 19)

theorem not_runOkWord (q : ArrQ) (a b : Nat) : (!q.seqOn || !q.actOn || bits b 24 40 != 0 || decide (64 < bits b 6 6 + (bits b 0 6 + 1))
    || decide (q.count < bits b 12 3 + 1) || a % 2 ^ 32 % 16 != 0 || !arrW0 (a % 2 ^ 32)) = !runOkWord q a b := by
  simp only [runOkWord, runRows_eq, runArow_eq, bits_three, arrW0, bne, Bool.not_and, ← Nat.not_le, decide_not]

/-- An MXRUN under way goes on with its next row. -/
theorem doRun_continues {pr : RunProg} {E CB G : Nat} (hp : (arrQOf m p core).prog = some pr)
    (hg : geometry (arrQOf m p core).afmt (arrQOf m p core).wfmt = some (E, CB, G)) :
    doRun m p core r bad a b = runNext m p core r bad a b E CB G pr := by
  simp only [doRun, hp, hg]

theorem doRun_badWord (hp : (arrQOf m p core).prog = none) (hw : runOkWord (arrQOf m p core) a b = false) :
    doRun m p core r bad a b = refuseCmd m r (a % 2 ^ 32) := by
  simp only [doRun, hp, not_runOkWord, hw, Bool.not_false, if_true]

/-- A forbidden pairing marks the first row (R294). -/
theorem doRun_badPairing (hp : (arrQOf m p core).prog = none) (hw : runOkWord (arrQOf m p core) a b = true)
    (hg : geometry (arrQOf m p core).afmt (arrQOf m p core).wfmt = none) :
    doRun m p core r bad a b = finish (setHeld m core (markRow (heldOf m core) ((arrQOf m p core).bank * 64 + b / 64 % 64)
      (BitVec.ofNat 128 (originReq r 0x04 ((arrQOf m p core).afmt.code + 16 * (arrQOf m p core).wfmt.code))))) r.id 1 := by
  simp only [doRun, hp, not_runOkWord, hw, Bool.not_true, Bool.false_eq_true, if_false, hg]
  rw [runArow_eq]
  rfl

/-- The last element of the last chunk, counted: KLAST, or all of the chunk where it is 0. -/
def klastOf (E b : Nat) : Nat := if b / 2 ^ 15 % 2 ^ 9 = 0 then E else b / 2 ^ 15 % 2 ^ 9

/-- The first address outside the pasture's scratchpad that an MXRUN would read. -/
def runOutside (m : Mach) (p core a b E CB G : Nat) : Option Nat :=
  arrBad m p core (runTouch (heldOf m core) (arrQOf m p core) E CB G (b / 2 ^ 12 % 8 + 1) (b % 64 + 1) (b / 64 % 64) (klastOf E b)
    (a % 2 ^ 32))

section
variable {E CB G : Nat} (hp : (arrQOf m p core).prog = none) (hw : runOkWord (arrQOf m p core) a b = true)
  (hg : geometry (arrQOf m p core).afmt (arrQOf m p core).wfmt = some (E, CB, G))
include hp hw hg

/-- An MXRUN is refused before its first row or not at all (R288). -/
theorem doRun_checks : doRun m p core r bad a b = if E < klastOf E b then refuseCmd m r (a % 2 ^ 32)
    else match runOutside m p core a b E CB G with
      | some x => refuseCmd m r x
      | none => runNext m p core r bad a b E CB G ⟨0, 0, false⟩ := by
  simp only [doRun, hp, not_runOkWord, hw, Bool.not_true, Bool.false_eq_true, if_false, hg]
  rw [bits_three, runRows_eq, runArow_eq, bits_eq_div_mod b 15 9]
  rfl

theorem doRun_outside {x : Nat} (hkl : klastOf E b ≤ E) (hx : runOutside m p core a b E CB G = some x) :
    doRun m p core r bad a b = refuseCmd m r x := by
  rw [doRun_checks hp hw hg, if_neg (Nat.not_lt.mpr hkl), hx]

theorem doRun_starts (hkl : klastOf E b ≤ E) (hx : runOutside m p core a b E CB G = none) :
    doRun m p core r bad a b = runNext m p core r bad a b E CB G ⟨0, 0, false⟩ := by
  rw [doRun_checks hp hw hg, if_neg (Nat.not_lt.mpr hkl), hx]

end

/-- An MXRUN after its next row: row `pr.rows % rows` of chunk `pr.rows / rows`. -/
def rowTaken (m : Mach) (p core : Nat) (r : Req) (bad : List Nat) (a b E CB G : Nat) (pr : RunProg) : RunAcc :=
  let q := arrQOf m p core
  let rows := b % 64 + 1
  let j := pr.rows / rows
  let i := pr.rows % rows
  runRow m core r q bad G (if j + 1 = b / 2 ^ 12 % 8 + 1 then klastOf E b else E) (a % 2 ^ 32 + i * q.rstride + CB * j)
    (q.sbase + i * q.sstride + 16 * j) (wbufTile (heldOf m core) (q.first + j)) (b / 64 % 64 + i) ⟨heldOf m core, [], pr.fl, pr.marked⟩

/-- The machine with a row `x` of an MXRUN in its array: units found uncorrectable are marked, and flags reach the status word. -/
def rowKept (m : Mach) (p core : Nat) (x : RunAcc) : Mach :=
  let q := arrQOf m p core
  setHeld (x.bad.foldl (fun m u => markSpad m core u) m) core (orStat x.h q.bank (accFlags (bitAt q.satm q.bank) x.fl))

/-- An MXRUN takes one row at a turn, and ends with its last (R296). -/
theorem runNext_eq {E CB G : Nat} (pr : RunProg) :
    let x := rowTaken m p core r bad a b E CB G pr
    runNext m p core r bad a b E CB G pr = if pr.rows + 1 = (b % 64 + 1) * (b / 2 ^ 12 % 8 + 1) then
        runEnd (setArrQ (rowKept m p core x) p core { arrQOf m p core with prog := none }) p core r (b / 2 ^ 12 % 8 + 1) x.fl x.marked
      else setArrQ (rowKept m p core x) p core { arrQOf m p core with prog := some ⟨pr.rows + 1, x.fl, x.marked⟩ } := by
  simp only [runNext]
  rw [bits_three, runRows_eq, runArow_eq, bits_eq_div_mod b 15 9]
  rfl

end

/-! ## Drains, mode changes, corner turns (R283, R300, R301, R305) -/

section
variable {s : State} {core p : Nat} {d : Drain} (hl : livePast s.m core = some p) (hr : running s.m p = true)
  (hd : (arrQOf s.m p core).drain = some d) (hf : s.m.fab.transit.any (fun t => t.src == 300000 + core) = false)
include hl hr hd hf

theorem exec_drainToken_sends {t : Token} {rest : List Token} (ht : d.toks = t :: rest) :
    exec (.drainToken core) s = .next { s with
      m := sendTok (setArrQ s.m p core { arrQOf s.m p core with drain := some { d with toks := rest } }) (300000 + core) d.dst t } := by
  refine next_of_lift (drainTokenG core) rfl ?_
  simp only [drainTokenG, hl, hd, hr, hf, Bool.not_true, Bool.or_self, Bool.false_eq_true, if_false, ht]

theorem exec_drainToken_completes (ht : d.toks = []) :
    exec (.drainToken core) s = .next { s with m := settleWaits p core 8 (finish (popCmd s.m p core) d.req d.res) } := by
  refine next_of_lift (drainTokenG core) rfl ?_
  simp only [drainTokenG, hl, hd, hr, hf, Bool.not_true, Bool.or_self, Bool.false_eq_true, if_false, ht, cmdDone]

end

/-- A queue with a command, a drain or an MXRUN under way is not empty. -/
theorem arraysEmpty_false {m : Mach} {core : Nat} (hcore : core < 768) {q : ArrQ} (hq : tget ArrQ.reset core m.mat.q = q)
    (hbusy : q.queue ≠ [] ∨ q.drain.isSome = true ∨ q.prog.isSome = true) : arraysEmpty m core = false := by
  have hne : (q.queue.isEmpty && !q.busy) = false := by
    obtain h | h | h := hbusy
    · simp [h]
    · simp [ArrQ.busy, h]
    · simp [ArrQ.busy, h]
  cases hfind : tfind core m.mat.q with
  | none =>
    have hreset : q = ArrQ.reset := by rw [← hq, tget, hfind]; rfl
    rw [hreset] at hne
    cases hne
  | some x =>
    obtain rfl : x = q := by rw [← hq, tget, hfind]; rfl
    refine List.all_eq_false.mpr ⟨(core, x), mem_of_tfind hfind, ?_⟩
    simp only [hne, Bool.or_false, bne_iff_ne, ne_eq, not_not]
    exact Nat.mod_eq_of_lt (by omega)

/-- The array of a core leaves systolic mode: the weight buffer and the tile registers of the live pasture are emptied, another's
held state is saved (R305, R307). -/
def modeLeft (m : Mach) (core : Nat) : Mach :=
  match livePast m core with
  | some p =>
    let m1 := takeHeld m core p
    setHeld m1 core { heldOf m1 core with wbuf := [], active := none, standby := none }
  | none => match tfind core m.mat.owner with | some o => saveHeld m core o | none => m

section
variable {s : State} {core : Nat} {r : Req} {on : Bool} (hreqs : s.m.mem.reqs = [r]) (hdone : r.done = false)
  (hop : r.op = .mode core on) (hwho : isShepActor r.who = true)
include hreqs hdone hop hwho

theorem exec_modeChange : exec (.modeChange core) s = .next { s with
    m := if on then
        finish { s.m with mat.mode := if s.m.mat.mode.contains core then s.m.mat.mode else core :: s.m.mat.mode } r.id 0
      else if !arraysEmpty s.m core then s.m
      else finish { modeLeft s.m core with mat.mode := (modeLeft s.m core).mat.mode.erase core } r.id 0 } := by
  refine next_of_lift (modeChangeG core) rfl ?_
  simp only [modeChangeG, hreqs, List.find?_cons, hdone, hop, hwho, Bool.not_false, Bool.true_or, Bool.and_self, beq_self_eq_true]
  cases on <;> rfl

end

section
variable {s : State} {core pe ch k : Nat}

theorem exec_cornerTurnResize_takes (hk : (chanOf s.m (chanKey core pe ch)).pendNode = some k)
    (hg : (chanOf s.m (chanKey core pe ch)).gather = []) (he : (chanOf s.m (chanKey core pe ch)).emit = []) :
    let x := chanKey core pe ch
    exec (.cornerTurnResize core pe ch) s = .next { s with m := setChan s.m x { chanOf s.m x with node := k, pendNode := none } } :=
  next_of_lift (cornerTurnResizeG core pe ch) rfl (by simp only [cornerTurnResizeG, hk, hg, he, List.isEmpty_nil, Bool.and_self, if_true])

theorem exec_cornerTurnResize_waits (hk : (chanOf s.m (chanKey core pe ch)).pendNode = some k)
    (hheld : (chanOf s.m (chanKey core pe ch)).gather ≠ [] ∨ (chanOf s.m (chanKey core pe ch)).emit ≠ []) :
    exec (.cornerTurnResize core pe ch) s = .next s := by
  refine next_of_lift (cornerTurnResizeG core pe ch) rfl ?_
  simp only [cornerTurnResizeG, hk]
  refine if_neg fun h => ?_
  simp only [Bool.and_eq_true, List.isEmpty_iff] at h
  obtain ⟨hg, he⟩ := h
  exact hheld.elim (· hg) (· he)

end

/-- Settles O43: each command and event by its lemma above; a row of an MXRUN is the fold `elemsDone` over its elements. -/
theorem matrixEvents : Obligations.MatrixEvents := by
  refine ⟨?command, fun m core p => arrayPast_of_live, fun m core p => arrayPast_serves,
    fun s core bad => exec_arrayCommand_vector, ?wld,
    ?acc, fun m p core r bad clr bank => rfl,
    fun m core r q bad G last ab rb tile i x => ?row, fun x oa ow acc sat => ⟨rfl, rfl⟩, fun m p core r bad a b => ?run,
    fun m p core r bad a b E CB G pr => ?next, fun m p core r chunks fl marked => rfl,
    fun s core p d t rest hl hr hd ht hf => exec_drainToken_sends hl hr hd hf ht,
    fun s core p d hl hr hd ht hf => exec_drainToken_completes hl hr hd hf ht,
    fun s core r on hreqs hdone hop hwho => ?mode, fun m core q hq hbusy hcore => arraysEmpty_false hcore hq hbusy,
    ?turn⟩
  case command =>
    exact fun s core bad p c rest hp hmode hdrain hq => ⟨exec_arrayCommand_gone hp hmode hdrain hq,
      fun r => exec_arrayCommand_runs hp hmode hdrain hq⟩
  case wld => exact fun m p core r bad fmt a b => ⟨doWld_refused fmt b, doWld_latches fmt b⟩
  case acc =>
    intro m p core r bad n sat clr hn m1
    refine ⟨fun h => ?_, fun h => ⟨bankCleared n (heldOf m1 core), ?_, rfl, fun k hk => ?_, fun k hk => ?_, fun i hi => ?_, fun i hi => ?_⟩⟩
    · rw [h]; rfl
    · rw [h]; rfl
    · rw [acc_bankCleared, if_pos (by omega)]
    · rw [acc_bankCleared, if_neg hk]
    · rw [rowp_bankCleared, if_pos (by omega)]
    · rw [rowp_bankCleared, if_neg hi]
  case row =>
    refine ⟨runRow_skips, fun u h hu => ?_, fun h hu => ?_⟩
    · rw [runRow_marks h hu]
      exact ⟨rfl, rfl, rfl, tfind_tset_same ..⟩
    · obtain ⟨hrowp, hstat, hmarked⟩ := elemsDone_keeps (q.bank * 2048 + i * 32) (rowElem m core q G last ab rb tile) 32 x
      rw [runRow_adds h hu]
      refine ⟨hrowp, hstat, hmarked, fun n hn => ?_, fun k hk => ?_⟩
      · rw [acc_elemsDone, if_pos ⟨Nat.le_add_right .., Nat.add_lt_add_left hn _⟩, Nat.add_sub_cancel_left]
        rfl
      · rw [acc_elemsDone, if_neg]
        rintro ⟨hlo, hhi⟩
        exact hk (k - (q.bank * 2048 + i * 32)) (by omega) (Nat.add_sub_cancel' hlo).symm
  case run =>
    refine ⟨fun pr E CB G => doRun_continues, doRun_badWord, doRun_badPairing, fun E CB G hp hw hg => ⟨fun hkl => ?_,
      fun x hkl hx => doRun_outside hp hw hg hkl hx, fun hkl hx => doRun_starts hp hw hg hkl hx⟩⟩
    exact (doRun_checks hp hw hg).trans (if_pos hkl)
  case next =>
    exact ⟨fun h => (runNext_eq pr).trans (if_neg h), fun h => (runNext_eq pr).trans (if_pos h)⟩
  case mode =>
    rw [exec_modeChange hreqs hdone hop hwho]
    refine ⟨fun hon => ?_, fun hon hfull => ?_, fun hon hl hempty => ?_, fun p hon hl hempty => ?_⟩
    · rw [if_pos hon]
    · rw [if_neg (by simp [hon]), hfull]
      rfl
    · rw [if_neg (by simp [hon]), hempty, modeLeft, hl]
      rfl
    · rw [if_neg (by simp [hon]), hempty, modeLeft, hl]
      rfl
  case turn =>
    intro s core pe ch k x c hk
    exact ⟨fun hg he => ⟨_, exec_cornerTurnResize_takes hk hg he, chanOf_setChan_same .., fun y hy => (chanOf_setChan ..).trans (if_neg hy)⟩,
      exec_cornerTurnResize_waits hk⟩

end Sys2Proof.Machine

/-! PROOFS. The selection instructions: buckets, cut-offs and scans (R309-R315). -/
namespace Sys2Proof.Machine

/-! ## BHIST and BSEL -/

/-- A lane raises the count of its own bucket by one until that is full, and no other count. -/
theorem getD_histAdd {sw x b : Nat} {h : List Nat} (hh : h.length = 16) (hb : b < 16)
    (hroom : (h[b]?).getD 0 + (if !isHole x && bucket sw x == b then 1 else 0) ≤ 65535) :
    ((histAdd sw h x).1[b]?).getD 0 = (h[b]?).getD 0 + if !isHole x && bucket sw x == b then 1 else 0 := by
  by_cases hx : isHole x = true
  · simp [histAdd, hx]
  by_cases he : bucket sw x = b
  · have hfree : (h[b]?).getD 0 ≠ 65535 := by
      simp only [hx, he, Bool.not_false, beq_self_eq_true, Bool.and_self, if_true] at hroom
      omega
    have hstep : histAdd sw h x = (h.set b ((h[b]?).getD 0 + 1), 0) := by
      rw [histAdd, if_neg hx, he]
      exact if_neg hfree
    rw [hstep]
    simp [hx, he, hh, hb]
  · have hkeep : ((histAdd sw h x).1[b]?).getD 0 = (h[b]?).getD 0 := by
      rw [histAdd, if_neg hx]
      dsimp only
      split
      · rfl
      · rw [List.getElem?_set_ne he]
    rw [hkeep]
    simp [he]

theorem length_histAdd (sw x : Nat) (h : List Nat) : (histAdd sw h x).1.length = h.length := by
  unfold histAdd
  split
  · rfl
  · dsimp only
    split <;> simp

/-- Counting a list of lanes: a bucket that does not fill up gains one for each lane that is in it. -/
theorem getD_foldl_histAdd {sw b : Nat} (hb : b < 16) (ls : List Nat) : ∀ (h : List Nat) (fl : Nat), h.length = 16 →
    (h[b]?).getD 0 + (ls.filter (fun x => !isHole x && bucket sw x == b)).length ≤ 65535 →
    ((ls.foldl (fun (x : List Nat × Nat) v => let y := histAdd sw x.1 v; (y.1, x.2 ||| y.2)) (h, fl)).1[b]?).getD 0
      = (h[b]?).getD 0 + (ls.filter (fun x => !isHole x && bucket sw x == b)).length := by
  induction ls with
  | nil => intro h fl _ _; rfl
  | cons x xs ih =>
    intro h fl hh hroom
    have hcount : ((x :: xs).filter (fun x => !isHole x && bucket sw x == b)).length
        = (if !isHole x && bucket sw x == b then 1 else 0) + (xs.filter (fun x => !isHole x && bucket sw x == b)).length := by
      rw [List.filter_cons]
      split <;> simp [Nat.add_comm]
    rw [hcount] at hroom ⊢
    have hx := getD_histAdd (sw := sw) (x := x) hh hb (by omega)
    rw [List.foldl_cons, ih _ _ ((length_histAdd ..).trans hh) (by rw [hx]; omega), hx]
    omega

/-- Above the threshold the count of entries is below `k`, and at a threshold that is not 0 it reaches `k`. -/
theorem threshold_spec (h : List Nat) (k : Nat) : ∀ n, let t := threshold h k n
    (t = 0 ∨ k ≤ histFrom h t) ∧ ∀ u, t < u → u ≤ n → histFrom h u < k
  | 0 => ⟨.inl rfl, fun u h1 h2 => absurd h1 (by omega)⟩
  | n + 1 => by
    by_cases hk : k ≤ histFrom h (n + 1)
    · simp only [threshold, if_pos hk]
      exact ⟨.inr hk, fun u h1 h2 => absurd h1 (by omega)⟩
    · simp only [threshold, if_neg hk]
      obtain ⟨hat, habove⟩ := threshold_spec h k n
      refine ⟨hat, fun u h1 h2 => ?_⟩
      rcases Nat.lt_or_eq_of_le h2 with h2 | rfl
      · exact habove u h1 (by omega)
      · omega

section
variable {s : State} {d a b : Opd}

theorem exec_bhist (h : starts s.m [(.whole, a), (.whole, b), (.whole, d), (.whole, nextReg d)] (.opd d) = true)
    (ha : (srcVal s.m .whole a).scaled = false) :
    let r := histStep (payOf s.m .whole b % 2 ^ 64) (payOf s.m .whole a) (histOf (payOf s.m .whole d) (payOf s.m .whole (nextReg d)))
    let m := readDone s.m [a, b, d, nextReg d] [d]
    let m1 := putRes (putRes m (.opd d) (Val.ofNat (histLo r.1))) (.opd (nextReg d)) (Val.ofNat (histHi r.1))
    exec (.bhist d a b) s = .next { s with m := sticky m1 r.2 } := by
  intro r m m1
  refine next_of_lift (bhistG d a b) rfl ?_
  rw [bhistG, fireK_starts _ _ _ _ _ h]
  exact if_neg (Bool.eq_false_iff.mp ha)

/-- A lone source that carries no scale passes the check of R107. -/
theorem scaleCheck_unscaled {v : Val} (h : v.scaled = false) (d : DstK) (eff : Mach → Mach) (m : Mach) :
    scaleCheck false [(v, true)] d eff m = eff m :=
  scaleCheck_passes (fun x hx => by rw [List.mem_singleton.mp hx, h, Bool.and_false]) d eff m

/-! ## BEXT -/

theorem exec_bext_sum (h : starts s.m [(.whole, a), (.whole, b), (.whole, d)] (.opd d) = true) (ha : (srcVal s.m .whole a).scaled = false) :
    let r := bextSum (payOf s.m .whole b % 2 ^ 64) (payOf s.m .whole a) (payOf s.m .whole d)
    exec (.bext ⟨.sum⟩ d a b) s = .next (wrote s [a, b, d] (.opd d) (Val.ofNat r.1) r.2) := by
  intro r
  exact next_of_lift (bextG .sum d a b) rfl ((fire_starts _ _ _ _ h).trans (scaleCheck_unscaled ha _ _ _))

theorem exec_bext_lanes (h : starts s.m [(.whole, a), (.whole, b)] (.opd d) = true) (ha : (srcVal s.m .whole a).scaled = false) :
    let sw := payOf s.m .whole b % 2 ^ 64
    let sel := selected sw (lanesOf 32 4 (payOf s.m .whole a))
    let m := readDone s.m [a, b] [d]
    let x := packLanes 32 (padTo 4 FFmt.f32.canon (sel.map (·.2)))
    let y := packLanes 32 (padTo 4 (2 ^ 32 - 1) (sel.map (fun x => (bits sw 40 24 + x.1) % 2 ^ 32)))
    exec (.bext ⟨.val⟩ d a b) s = .next { s with m := putTok m (.opd d) ⟨Val.ofNat x, false, sel.isEmpty, firingBank m⟩ }
    ∧ exec (.bext ⟨.idx⟩ d a b) s = .next { s with m := putTok m (.opd d) ⟨Val.ofNat y, false, sel.isEmpty, firingBank m⟩ } := by
  intro sw sel m x y
  constructor
  · exact next_of_lift (bextG .val d a b) rfl ((fire_starts _ _ _ _ h).trans (scaleCheck_unscaled ha _ _ _))
  · exact next_of_lift (bextG .idx d a b) rfl ((fire_starts _ _ _ _ h).trans (scaleCheck_unscaled ha _ _ _))

/-! ## PSCAN and TOPP -/

/-- An integer scan raises no flag, and its lanes are the sums of the carry and the lanes so far. -/
theorem scanLanes_add (r : Rnd) (ls : List Nat) : ∀ c, (scanLanes .add r ls c).2 = 0 ∧ (scanLanes .add r ls c).1.length = ls.length
    ∧ ∀ i < ls.length, ((scanLanes .add r ls c).1[i]?).getD 0 = (c + (ls.take (i + 1)).sum) % 2 ^ 32 := by
  induction ls with
  | nil => exact fun c => ⟨rfl, rfl, fun i hi => absurd hi (Nat.not_lt_zero i)⟩
  | cons x xs ih =>
    intro c
    obtain ⟨hflag, hlen, hlane⟩ := ih ((c + x) % 2 ^ 32)
    refine ⟨(Nat.zero_or _).trans hflag, congrArg (· + 1) hlen, fun i hi => ?_⟩
    cases i with
    | zero => simp [scanLanes, scanLane]
    | succ i =>
      have hi' : i < xs.length := by simpa using hi
      calc ((scanLanes .add r (x :: xs) c).1[i + 1]?).getD 0
          = ((scanLanes .add r xs ((c + x) % 2 ^ 32)).1[i]?).getD 0 := by simp [scanLanes, scanLane]
        _ = ((c + x) % 2 ^ 32 + (xs.take (i + 1)).sum) % 2 ^ 32 := hlane i hi'
        _ = (c + ((x :: xs).take (i + 1 + 1)).sum) % 2 ^ 32 := by
          rw [List.take_succ_cons, List.sum_cons, Nat.mod_add_mod, Nat.add_assoc]

theorem exec_pscan_add {f : PscanF} (hf : f.op = .add) (h : starts s.m [(.whole, a), (.whole, b)] (.opd d) = true) :
    exec (.pscan f d a b) s = .next (wrote s [a, b] (.opd d) (Val.ofNat (packLanes 32
      (scanLanes .add f.rnd (lanesOf 32 4 (payOf s.m .whole a)) (lane 32 (payOf s.m .whole b) 3)).1)) 0) := by
  refine next_of_lift (pscanG f d a b) rfl ?_
  rw [pscanG, fire_starts _ _ _ _ h, hf]
  exact congrArg (sticky _) (scanLanes_add ..).1

theorem exec_pscan_float {f : PscanF} (hf : f.op ≠ .add) (h : starts s.m [(.whole, a), (.whole, b)] (.opd d) = true)
    (ha : (srcVal s.m .whole a).scaled = false) :
    let r := scanLanes f.op f.rnd (lanesOf 32 4 (payOf s.m .whole a)) (scanCarry (payOf s.m .whole b))
    exec (.pscan f d a b) s = .next (wrote s [a, b] (.opd d) (Val.ofNat (packLanes 32 r.1)) r.2) := by
  intro r
  refine next_of_lift (pscanG f d a b) rfl ?_
  have hadd : (f.op == .add) = false := beq_false_of_ne hf
  rw [pscanG, hadd]
  exact (fire_starts _ _ _ _ h).trans ((if_neg Bool.false_ne_true).trans (scaleCheck_unscaled ha _ _ _))

end

/-- Settles O45: each instruction's effect by its lemma; the counts by induction over the lanes, the threshold by induction over the
buckets, the add-scan by induction over the lanes. -/
theorem selectionResults : Obligations.SelectionResults := by
  unfold Obligations.SelectionResults
  refine ⟨fun s d a b => exec_bhist, fun sw a h b hh hb hroom => getD_foldl_histAdd hb (lanesOf 32 4 a) h 0 hh hroom, ?_,
    fun h k => threshold_spec h k 15, fun s d a b => exec_bext_sum, fun s d a b => exec_bext_lanes, ?_,
    fun s f d a b => exec_pscan_float, ?_⟩
  · intro s d a b hst h t
    exact next_of_lift (bselG d a b) rfl (fire_starts _ _ _ _ hst)
  · intro s f d a b hf hst
    obtain ⟨-, hlen, hlane⟩ := scanLanes_add f.rnd (lanesOf 32 4 (payOf s.m .whole a)) (lane 32 (payOf s.m .whole b) 3)
    exact ⟨_, hlen, hlane, exec_pscan_add hf hst⟩
  · intro s d a hst ha
    exact next_of_lift (toppG d a) rfl ((fire_starts _ _ _ _ hst).trans (scaleCheck_unscaled ha _ _ _))

end Sys2Proof.Machine

/-! PROOFS. The relation instructions (R328, R345-R350, R353-R356). -/
namespace Sys2Proof.Machine

/-! ## The form of the class (R345) -/

/-- No refusal word is a result below 2^63. -/
theorem failW_ge (c : Nat) : 2 ^ 63 ≤ failW c := Nat.le_add_right _ _

theorem ruleStarts_memStarts {s : State} {o : Opd} {os : List Opd} {d : Opd} {wideD wideA : Bool}
    (h : ruleStarts s (o :: os) d wideD wideA = true) : memStarts s.m (o :: os) [d] (pairReg s.m wideD d ++ pairReg s.m wideA o) = true
      ∧ (o :: os).any (fun o => (srcVal s.m .whole o).scaled) = false := by
  unfold ruleStarts at h
  rw [Bool.and_eq_true, Bool.not_eq_true'] at h
  exact h

theorem pairReg_narrow (m : Mach) (o : Opd) : pairReg m false o = [] := by
  unfold pairReg
  split <;> rfl

/-- A start whose result and source A are both 64 bits wide names no second register of a pair. -/
theorem ruleStarts_narrow {s : State} {o : Opd} {os : List Opd} {d : Opd} (h : ruleStarts s (o :: os) d false false = true) :
    memStarts s.m (o :: os) [d] [] = true ∧ (o :: os).any (fun o => (srcVal s.m .whole o).scaled) = false := by
  simpa only [pairReg_narrow, List.append_nil] using ruleStarts_memStarts h

/-- An instruction of the class that starts answers at once with what its effect gives. -/
theorem exec_ruleStart {i : Instr} {s : State} {o : Opd} {os : List Opd} {d : Opd} {wideD wideA : Bool}
    {eff : Nat → List Val → Mach → Mach × Nat} (hi : exec i s = lift (ruleStart (o :: os) d wideD wideA eff) s)
    (h : ruleStarts s (o :: os) d wideD wideA = true) : exec i s = .next (ruleAns s (o :: os) d wideD
      (eff (if wideA then wideVal s.m o else payOf s.m .whole o) ((o :: os).map (srcVal s.m .whole)))) := by
  obtain ⟨hmem, hsc⟩ := ruleStarts_memStarts h
  refine next_of_lift _ hi ?_
  unfold ruleStart
  rw [memStart_starts _ _ _ _ _ _ hmem]
  refine if_neg ?_
  rw [List.any_map]
  exact Bool.eq_false_iff.mp hsc

theorem exec_rcnt {s : State} (f : RelF) {d : Opd} (h : ruleStarts s [] d true false = true) :
    exec (.rcnt f d) s = .next (ruleAns s [] d true (fun m => rcntGo m (pastOfActor m m.cur) f.rel.val)) := by
  unfold ruleStarts at h
  rw [Bool.and_eq_true] at h
  refine next_of_lift (rcntG f d) rfl ?_
  unfold rcntG ruleStart
  rw [memStart_starts _ _ _ _ _ _ h.1]
  rfl

section
variable {s : State} {d a b : Opd}

theorem exec_rins (f : RelF) (h : ruleStarts s [a, b] d false true = true) : exec (.rins f d a b) s = .next (ruleAns s [a, b] d false
    (fun m => rinsGo m (pastOfActor m m.cur) f.rel.val (wideVal s.m a) (payOf s.m .whole b))) :=
  (exec_ruleStart (i := .rins f d a b) (eff := fun x vs m => rinsGo m (pastOfActor m m.cur) f.rel.val x (natAt vs 1)) rfl h :)

theorem exec_rdel (f : RelF) (h : ruleStarts s [a] d false true = true) : exec (.rdel f d a) s = .next (ruleAns s [a] d false
    (fun m => rdelGo m (pastOfActor m m.cur) f.rel.val (wideVal s.m a))) :=
  (exec_ruleStart (i := .rdel f d a) (eff := fun x _ m => rdelGo m (pastOfActor m m.cur) f.rel.val x) rfl h :)

theorem exec_rule (h : ruleStarts s [a] d false false = true) : exec (.rule d a) s = .next (ruleAns s [a] d false
    (fun m => ruleGo { m with free := m.free + 1 } (pastOfActor m m.cur) (payOf s.m .whole a % 2 ^ 56))) := by
  rw [← bits_zero_eq_mod]
  exact (exec_ruleStart (i := .rule d a) (eff := fun x _ m => ruleGo { m with free := m.free + 1 } (pastOfActor m m.cur) (bits x 0 56)) rfl h :)

theorem exec_rdrop (f : BitF) (h : ruleStarts s [a] d false false = true) : exec (.rdrop f d a) s = .next (ruleAns s [a] d false
    (fun m => rdropGo m (pastOfActor m m.cur) f.bit (payOf s.m .whole a % 2 ^ 8))) := by
  rw [← bits_zero_eq_mod]
  exact (exec_ruleStart (i := .rdrop f d a) (eff := fun x _ m => rdropGo m (pastOfActor m m.cur) f.bit (bits x 0 8)) rfl h :)

theorem exec_rlook (f : RelF) (h : ruleStarts s [a] d true true = true) : exec (.rlook f d a) s = .next (ruleAns s [a] d true
    (fun m => rlookGo m (pastOfActor m m.cur) f.rel.val (wideVal s.m a))) :=
  (exec_ruleStart (i := .rlook f d a) (eff := fun x _ m => rlookGo m (pastOfActor m m.cur) f.rel.val x) rfl h :)

theorem exec_rwit (f : RelF) (h : ruleStarts s [a] d true false = true) : exec (.rwit f d a) s = .next (ruleAns s [a] d true
    (fun m => rwitGo m (pastOfActor m m.cur) f.rel.val (payOf s.m .whole a % 2 ^ 28))) := by
  rw [← bits_zero_eq_mod]
  exact (exec_ruleStart (i := .rwit f d a) (eff := fun x _ m => rwitGo m (pastOfActor m m.cur) f.rel.val (bits x 0 28)) rfl h :)

end

/-- A refusal or result that is known as the instruction fires. -/
theorem exec_unscaled {i : Instr} {s : State} {a d : Opd} {onP : Val → Mach → Mach} {eff : List Val → Mach → Mach} {m : Mach}
    (hi : exec i s = lift (memStart [a] [d] [] onP eff) s) (h : ruleStarts s [a] d false false = true)
    (he : eff [srcVal s.m .whole a] (readDone s.m [a] [d]) = m) : exec i s = .next { s with m := m } :=
  (exec_memStart hi (ruleStarts_narrow h).1).trans (congrArg (fun m => Host.Outcome.next { s with m := m }) he)

/-! ## RDEF (R347, R348) -/

theorem unscaled_single {s : State} {a d : Opd} (h : ruleStarts s [a] d false false = true) : (srcVal s.m .whole a).scaled = false := by
  simpa using (ruleStarts_narrow h).2

theorem exec_rdef_busy {s : State} {d a : Opd} (h : ruleStarts s [a] d false false = true)
    (hb : let m := readDone s.m [a] [d]; ruleBusy m (pastOfActor m m.cur) = true) :
    exec (.rdef d a) s = .next (answered s [a] d .tile (2 ^ 63 + 4)) :=
  exec_unscaled (i := .rdef d a) rfl h
    ((if_neg (Bool.eq_false_iff.mp (unscaled_single h))).trans (if_pos hb))

theorem exec_rdef_asks {s : State} {d a : Opd} (h : ruleStarts s [a] d false false = true)
    (hb : let m := readDone s.m [a] [d]; ruleBusy m (pastOfActor m m.cur) = false) :
    exec (.rdef d a) s = .next (issued s [a] [d] (fun m =>
      { mkReq m (dstOf m d false) (.rdef (payOf s.m .whole a % 2 ^ 56)) 5 true false with pos := none })) := by
  rw [← bits_zero_eq_mod]
  exact exec_unscaled (i := .rdef d a) rfl h
    ((if_neg (Bool.eq_false_iff.mp (unscaled_single h))).trans (if_neg (Bool.eq_false_iff.mp hb)))

theorem exec_loadResult_rdef {s : State} {id va : Nat} {r : Req} {ans : Answer} (hr : reqOf s.m id = some r) (hop : r.op = .rdef va)
    (hmay : mayPerform s.m r = true) : let x := rdefGo { s.m with free := s.m.free + 1 } r ans va
    exec (.loadResult id ans) s = .next { s with m := finish x.1 id x.2 } := by
  refine next_of_lift (loadResultAny id ans) rfl ?_
  simp only [loadResultAny, loadResult, hr, hop, hmay, if_true]

theorem exec_loadResult_rback {s : State} {id : Nat} {seeds : List (Nat × Nat × Nat)} {acc : Bool} {r : Req} {ans : Answer}
    (hr : reqOf s.m id = some r) (hop : r.op = .rback seeds acc) (hmay : mayPerform s.m r = true) :
    exec (.loadResult id ans) s = .next { s with m := finish (rbackGo s.m r.past seeds acc).1 id (rbackGo s.m r.past seeds acc).2 } := by
  refine next_of_lift (loadResultAny id ans) rfl ?_
  simp only [loadResultAny, loadResult, hr, hop, hmay, if_true]

theorem rdefGo_busy {m : Mach} {r : Req} (ans : Answer) (va : Nat) (hb : ruleBusy m r.past = true) :
    rdefGo m r ans va = (m, 2 ^ 63 + 4) := if_pos hb

/-- A refusal is no declaration. -/
theorem not_declared {m m1 : Mach} {c : Nat} (h : (m, failW c) = (m1, 0)) : False :=
  absurd (congrArg Prod.snd h) (by have := failW_ge c; dsimp only; omega)

/-- An RDEF that succeeds leaves the relation of its record, under a number that was free, with distinct homes that the pasture
holds. -/
theorem rdefGo_declares {m m1 : Mach} {r : Req} {ans : Answer} {va : Nat} (h : rdefGo m r ans va = (m1, 0)) :
    ∃ rl ws homes z, relOf m r.past rl = none ∧ m1 = setRel z r.past rl (mkRel va ws homes) ∧ homes.Nodup
      ∧ ∀ c ∈ homes, coreIn m r.past c = true := by
  unfold rdefGo at h
  extract_lets p at h
  split at h
  · exact (not_declared h).elim
  split at h
  · exact (not_declared h).elim
  split at h
  · exact (not_declared h).elim
  rename_i ws _
  extract_lets rl hc at h
  split at h
  · exact (not_declared h).elim
  split at h
  · exact (not_declared h).elim
  rename_i hfree
  split at h
  · exact (not_declared h).elim
  extract_lets homes x n at h
  split at h
  · exact (not_declared h).elim
  rename_i hdistinct
  split at h
  · exact (not_declared h).elim
  rename_i hcores
  split at h
  · exact (not_declared h).elim
  split at h
  · exact (not_declared h).elim
  obtain ⟨rfl, -⟩ := Prod.mk.inj h
  refine ⟨_, _, _, _, by simpa using hfree, rfl, ?_, fun c hc => ?_⟩
  · have hlen : homes.length = hc := (List.length_map _).trans List.length_range
    exact (List.dedup_sublist homes).eq_of_length ((not_not.mp hdistinct).trans hlen.symm) ▸ List.nodup_dedup homes
  · by_contra hnot
    exact hcores (List.any_eq_true.mpr ⟨c, hc, by rw [show coreIn m p c = false from Bool.eq_false_iff.mpr hnot]; rfl⟩)

theorem relOf_setRel (m : Mach) (p rl : Nat) (x : Rel) : relOf (setRel m p rl x) p rl = some x := tfind_tset_same ..

/-! ## RINS and RDEL (R349) -/

section Insert
variable {m : Mach} {p rl : Nat} {x : Rel} (hb : ruleBusy m p = false) (hx : relOf m p rl = some x) (hd : x.derived = false)
include hb hx hd

theorem rinsGo_outside {k b : Nat} (h : domainErr x.alg (b % 2 ^ 32) = true) : rinsGo m p rl k b = (m, 2 ^ 63 + 7) := by
  simp only [rinsGo, hb, hx, hd, h, Bool.false_eq_true, if_false, if_true]
  rfl

/-- RINS of keys that no tuple has: nothing for Zero, else a new tuple, where the partition has a free slot. -/
theorem rinsGo_new {k b : Nat} (h : domainErr x.alg (b % 2 ^ 32) = false) (hf : findTup m p rl x (cutKeys x k) = none) :
    let m1 := { m with free := m.free + 1 }
    let t0 : Tup := ⟨cutKeys x k, b % 2 ^ 32, flV + flBASE + flPEND + x.stratum * 65536, wAll⟩
    (isZeroW x.alg (b % 2 ^ 32) = true → rinsGo m p rl k b = (m1, 0))
    ∧ (isZeroW x.alg (b % 2 ^ 32) = false → freeId m1 p rl x (cutKeys x k) = none → rinsGo m p rl k b = (m1, 2 ^ 63 + 8))
    ∧ (∀ id, isZeroW x.alg (b % 2 ^ 32) = false → freeId m1 p rl x (cutKeys x k) = some id →
      rinsGo m p rl k b = (placeTup m1 p rl x id t0, 2 ^ 62 + id)) := by
  intro m1 t0
  simp only [rinsGo, hb, hx, hd, h, hf, Bool.false_eq_true, if_false]
  exact ⟨fun hz => if_pos hz, fun hz hfree => by rw [if_neg (Bool.eq_false_iff.mp hz), hfree]; rfl,
    fun id hz hfree => by rw [if_neg (Bool.eq_false_iff.mp hz), hfree]⟩

/-- RINS of keys that a tuple has. -/
theorem rinsGo_found {k b id : Nat} (h : domainErr x.alg (b % 2 ^ 32) = false) (hf : findTup m p rl x (cutKeys x k) = some id) :
    let m1 := { m with free := m.free + 1 }
    let w := b % 2 ^ 32
    let t := recAt m p rl x id
    rinsGo m p rl k b =
      if t.del then (if isZeroW x.alg w then (m1, 0)
        else (putRec m1 p rl x id ⟨cutKeys x k, w, flV + flBASE + flPEND + x.stratum * 65536, wAll⟩, 2 ^ 62 + id))
      else if better x.alg w t.w then (putRec m1 p rl x id { t with w := w, fl := setBits t.fl 27 1 1 }, 2 ^ 61 + id)
      else if bitAt b 32 ∧ f32Cmp w t.w ≠ some .eq ∧ !isZeroW x.alg w then
        (putRec m1 p rl x id { t with w := w, fl := setBits (setBits t.fl 27 1 1) 28 1 1 }, 2 ^ 60 + id)
      else (m1, id) := by
  simp only [rinsGo, hb, hx, hd, h, hf, Bool.false_eq_true, if_false]

theorem rdelGo_marks {k id : Nat} (hf : findTup m p rl x (cutKeys x k) = some id) (hdel : (recAt m p rl x id).del = false) :
    let t := { recAt m p rl x id with fl := setBits (setBits (recAt m p rl x id).fl 27 1 1) 29 1 1 }
    rdelGo m p rl k = (putRec { m with free := m.free + 1 } p rl x id t, id) := by
  simp only [rdelGo, hb, hx, hd, hf, hdel, Bool.false_eq_true, if_false]

end Insert

/-! ## RULE and RDROP (R350) -/

theorem relStratum_congr {m t : Mach} (h : t.rule.rels = m.rule.rels) (p r : Nat) : relStratum t p r = relStratum m p r := by
  unfold relStratum relOf
  rw [h]

/-- Where a plan is registered: its rule id and its words. -/
def ruleRegistered (m : Mach) (p i : Nat) (ws : List W64) : Mach := { m with rule.rules := tset (p * 256 + i) ws m.rule.rules }
/-- The head relation of a plan that is registered is derived from then on. -/
def headDerived (m : Mach) (p head : Nat) : Mach :=
  match relOf m p head with | some h => setRel m p head { h with derived := true } | none => m

theorem headDerived_rules (m : Mach) (p head : Nat) : (headDerived m p head).rule.rules = m.rule.rules := by
  unfold headDerived
  split <;> rfl

/-- RULE registers a plan that passes its checks under the lowest free id. -/
theorem ruleGo_registers {m m1 : Mach} {p va i : Nat} (h : ruleGo m p va = (m1, i)) (hi : i < 2 ^ 63) :
    ∃ ws, readWords m m.cur va 8 = .ok ws ∧ planCode m p ws = 0
      ∧ (upto 255).find? (fun i => !thas (p * 256 + i) m.rule.rules) = some i
      ∧ let m2 := headDerived (ruleRegistered m p i ws) p (planOf ws).head
        let st := relStratum m2 p (planOf ws).head
        m1 = setStrat m2 p st { stratOf m2 p st with added := true } := by
  have refused : ∀ c, (m, failW c) ≠ (m1, i) := fun c hc => by
    have := failW_ge c
    have : failW c = i := congrArg Prod.snd hc
    omega
  unfold ruleGo at h
  split at h
  · exact (refused _ h).elim
  split at h
  · exact (refused _ h).elim
  split at h
  · exact (refused _ h).elim
  rename_i ws hws
  dsimp only at h
  split at h
  · exact (refused _ h).elim
  rename_i hcode
  split at h
  · exact (refused _ h).elim
  rename_i j hj
  obtain ⟨hm, rfl⟩ := Prod.mk.inj h
  exact ⟨ws, hws, not_not.mp hcode, hj, hm.symm⟩

theorem ruleGo_leaves {m m1 : Mach} {p va i : Nat} (h : ruleGo m p va = (m1, i)) (hi : i < 2 ^ 63) :
    i < 255 ∧ thas (p * 256 + i) m.rule.rules = false ∧ (∀ j < i, thas (p * 256 + j) m.rule.rules = true)
      ∧ ∃ ws, readWords m m.cur va 8 = .ok ws ∧ planCode m p ws = 0 ∧ tfind (p * 256 + i) m1.rule.rules = some ws
        ∧ (stratOf m1 p (relStratum m1 p (planOf ws).head)).added = true := by
  obtain ⟨ws, hws, hcode, hfind, hm1⟩ := ruleGo_registers h hi
  obtain ⟨hfree, hrange, hlowest⟩ := List.find?_range_eq_some.mp hfind
  refine ⟨List.mem_range.mp hrange, by simpa using hfree, fun j hj => by simpa using hlowest j hj, ws, hws, hcode, ?_, ?_⟩
  · rw [hm1]
    show tfind _ (headDerived _ _ _).rule.rules = _
    rw [headDerived_rules]
    exact tfind_tset_same ..
  · rw [hm1, relStratum_congr (by rfl)]
    exact congrArg Strat.added (tget_tput_same ..)

theorem rdropGo_rule {m m1 : Mach} {p n : Nat} (h : rdropGo m p true n = (m1, 0)) :
    thas (p * 256 + n) m.rule.rules = true ∧ tfind (p * 256 + n) m1.rule.rules = none := by
  unfold rdropGo at h
  split at h
  · exact (not_declared h).elim
  rw [if_pos rfl] at h
  split at h
  · exact (not_declared h).elim
  rename_i ws hws
  obtain ⟨rfl, -⟩ := Prod.mk.inj h
  exact ⟨by rw [thas, hws]; rfl, tfind_tdel_same ..⟩

theorem rdropGo_relation {m m1 : Mach} {p n : Nat} (h : rdropGo m p false n = (m1, 0)) :
    (relOf m p n).isSome = true ∧ relOf m1 p n = none := by
  unfold rdropGo at h
  split at h
  · exact (not_declared h).elim
  rw [if_neg Bool.false_ne_true] at h
  split at h
  · exact (not_declared h).elim
  rename_i hrel
  split at h
  · exact (not_declared h).elim
  obtain ⟨rfl, -⟩ := Prod.mk.inj h
  exact ⟨by simpa [Option.isSome_iff_ne_none] using hrel, tfind_tdel_same ..⟩

/-! ## Reading relations (R353, R354) -/

/-- The tuples of a list of ids whose records pass a test, in the order of the ids. -/
theorem filterMap_recs {α : Type} (p : Nat → Bool) (g : Nat → α) (ids : List Nat) :
    ids.filterMap (fun id => if p id then some (id, g id) else none) = (ids.filter p).map (fun id => (id, g id)) := by
  induction ids with
  | nil => rfl
  | cons id ids ih => by_cases h : p id = true <;> simp [h, ih]

theorem partIds_sorted (x : Rel) (h : Nat) : (partIds x h).Pairwise (· < ·) :=
  List.pairwise_map.mpr (List.pairwise_lt_range.imp (fun hlt => Nat.add_lt_add_left hlt _))

/-- The tuples that RSCAN.all reads of a partition. -/
def partTuples (m : Mach) (p rl : Nat) (x : Rel) (h : Nat) : List (Nat × Tup) :=
  ((partIds x h).filter (fun id => (recAt m p rl x id).v && !(recAt m p rl x id).del)).map (fun id => (id, recAt m p rl x id))

theorem rscanToks_all {m : Mach} {p rl h : Nat} {x : Rel} (hx : relOf m p rl = some x) (hh : h < x.homes.length) :
    rscanToks m p rl h .all = (partTuples m p rl x h).flatMap (scanTokens m p x false)
      ++ [⟨Val.ofNat (partTuples m p rl x h).length, true, false, 0⟩] := by
  have hts := filterMap_recs (fun id => (recAt m p rl x id).v && !(recAt m p rl x id).del) (recAt m p rl x) (partIds x h)
  have hall : ((RscanMode.all == .delta) || (RscanMode.all == .dgrad)) = false := rfl
  have hgrad : ((RscanMode.all == .grad) || (RscanMode.all == .dgrad)) = false := rfl
  simp only [rscanToks, hx, if_neg (Nat.not_le.mpr hh), hall, hgrad, Bool.not_false, Bool.true_or, Bool.and_true, hts]
  rfl

theorem partTuples_sorted (m : Mach) (p rl : Nat) (x : Rel) (h : Nat) : ((partTuples m p rl x h).map (·.1)).Pairwise (· < ·) := by
  rw [partTuples, List.map_map]
  exact (List.map_id _).symm ▸ (partIds_sorted x h).filter _

theorem mem_partTuples {m : Mach} {p rl : Nat} {x : Rel} {h id : Nat} {t : Tup} : (id, t) ∈ partTuples m p rl x h ↔
    id ∈ partIds x h ∧ t = recAt m p rl x id ∧ t.v = true ∧ t.del = false := by
  simp only [partTuples, List.mem_map, List.mem_filter, Bool.and_eq_true, Bool.not_eq_true', Prod.mk.injEq]
  constructor
  · rintro ⟨_, ⟨hid, hv, hdel⟩, rfl, rfl⟩
    exact ⟨hid, rfl, hv, hdel⟩
  · rintro ⟨hid, rfl, hv, hdel⟩
    exact ⟨id, ⟨hid, hv, hdel⟩, rfl, rfl⟩

theorem exec_rscan {s : State} {f : RelF} {d a : Opd} (mode : RscanMode) (h : memStarts s.m [a] [d] [] = true)
    (ha : (srcVal s.m .whole a).scaled = false) : exec (.rscan f d a mode) s = .next (after s [a] [d] (fun m =>
      flush (addReq m { mkReq m (dstOf m d false) .tile 5 false false with
        done := true
        res := some (rscanToks m (pastOfActor m m.cur) f.rel.val (payOf s.m .whole a % 2 ^ 10) mode) }))) := by
  rw [← bits_zero_eq_mod]
  exact next_of_lift (rscanG f d a mode) rfl
    ((memStart_starts s.m _ _ _ _ _ h).trans (if_neg (Bool.eq_false_iff.mp ha)))

theorem mem_tuplesOf_map {m : Mach} {p rl : Nat} {x : Rel} {t : Tup} : t ∈ (tuplesOf m p rl x).map (·.2) ↔
    ∃ h id, h < x.homes.length ∧ id ∈ partIds x h ∧ t = recAt m p rl x id ∧ t.v = true := by
  rw [tuplesOf, filterMap_recs (fun id => (recAt m p rl x id).v) (recAt m p rl x), List.map_map]
  simp only [List.mem_map, List.mem_filter, List.mem_flatMap, upto, List.mem_range, Function.comp_apply]
  constructor
  · rintro ⟨id, ⟨⟨h, hh, hid⟩, hv⟩, rfl⟩
    exact ⟨h, id, hh, hid, rfl, hv⟩
  · rintro ⟨h, id, hh, hid, rfl, hv⟩
    exact ⟨id, ⟨⟨h, hh, hid⟩, hv⟩, rfl⟩

/-- The greatest of some numbers: none is above it, and it is one of them or the one that the search began with. -/
theorem foldl_max_spec (l : List Nat) : ∀ a, a ≤ l.foldl max a ∧ (∀ n ∈ l, n ≤ l.foldl max a) ∧ (l.foldl max a = a ∨ l.foldl max a ∈ l) := by
  induction l with
  | nil => exact fun a => ⟨Nat.le_refl a, fun n hn => absurd hn List.not_mem_nil, .inl rfl⟩
  | cons b l ih =>
    intro a
    obtain ⟨hle, hall, hmem⟩ := ih (max a b)
    rw [List.foldl_cons]
    refine ⟨(Nat.le_max_left a b).trans hle, fun n hn => ?_, ?_⟩
    · rcases List.mem_cons.mp hn with rfl | hn
      · exact (Nat.le_max_right a n).trans hle
      · exact hall n hn
    · rcases hmem with h | h
      · rcases Nat.le_total a b with hab | hab
        · exact .inr (by rw [h, Nat.max_eq_right hab]; exact List.mem_cons_self)
        · exact .inl (by rw [h, Nat.max_eq_left hab])
      · exact .inr (List.mem_cons_of_mem _ h)

theorem rcntGo_counts {m : Mach} {p rl : Nat} {x : Rel} (hx : relOf m p rl = some x) : ∃ ts : List Tup, ∃ g : Nat,
    rcntGo m p rl = (m, ts.length + (ts.filter (·.new)).length * 2 ^ 32 + g * 2 ^ 64 + min x.dropped (2 ^ 31 - 1) * 2 ^ 96)
    ∧ (∀ t, t ∈ ts ↔ ∃ h id, h < x.homes.length ∧ id ∈ partIds x h ∧ t = recAt m p rl x id ∧ t.v = true)
    ∧ (∀ t ∈ ts, t.gen ≤ g) ∧ (g = 0 ∨ ∃ t ∈ ts, t.gen = g) := by
  obtain ⟨-, hall, hmem⟩ := foldl_max_spec (((tuplesOf m p rl x).map (·.2)).map (·.gen)) 0
  refine ⟨(tuplesOf m p rl x).map (·.2), _, by simp only [rcntGo, hx], fun t => mem_tuplesOf_map,
    fun t ht => hall _ (List.mem_map_of_mem ht), hmem.imp id (fun h => ?_)⟩
  obtain ⟨t, ht, hg⟩ := List.mem_map.mp h
  exact ⟨t, ht, hg⟩

/-! ## RBACK (R347, R356) -/

theorem exec_rback {s : State} {f : BitF} {d a b : Opd} (h : ruleStarts s [a, b] d false false = true) :
    let m := readDone s.m [a, b] [d]
    let j := rbackSeeds m (pastOfActor m m.cur) (payOf s.m .whole a % 2 ^ 56) (payOf s.m .whole b % 2 ^ 17)
    (∀ c, j = .error c → exec (.rback f d a b) s = .next (answered s [a, b] d .tile (2 ^ 63 + c)))
    ∧ (∀ seeds, j = .ok seeds → exec (.rback f d a b) s = .next (after s [a, b] [d] (fun m =>
        addReq { m with free := m.free + 1 } { mkReq m (dstOf m d false) (.rback seeds f.bit) 5 true false with pos := none }))) := by
  intro m j
  obtain ⟨hmem, hsc⟩ := ruleStarts_narrow h
  have hstart := memStart_starts s.m [a, b] [d] [] (poisonNow d .tile) (fun vs m =>
    if vs.any (·.scaled) then resultNow m (dstOf m d false) .tile (tokOf (poison m m.cur 0x05 1))
    else match rbackSeeds m (pastOfActor m m.cur) (bits (natAt vs 0) 0 56) (bits (natAt vs 1) 0 17) with
      | .error c => resultNow m (dstOf m d false) .tile (tokNat (failW c))
      | .ok seeds => addReq { m with free := m.free + 1 } { mkReq m (dstOf m d false) (.rback seeds f.bit) 5 true false with pos := none }) hmem
  have hvs : ([a, b].map (srcVal s.m .whole)).any (·.scaled) = false := by rw [List.any_map]; exact hsc
  have hj : rbackSeeds m (pastOfActor m m.cur) (bits (natAt ([a, b].map (srcVal s.m .whole)) 0) 0 56)
      (bits (natAt ([a, b].map (srcVal s.m .whole)) 1) 0 17) = j := by
    rw [bits_zero_eq_mod, bits_zero_eq_mod]
    rfl
  constructor
  · intro c hc
    refine next_of_lift (rbackG f d a b) rfl (hstart.trans ?_)
    rw [hvs, if_neg Bool.false_ne_true, hj, hc]
    rfl
  · intro seeds hs
    refine next_of_lift (rbackG f d a b) rfl (hstart.trans ?_)
    rw [hvs, if_neg Bool.false_ne_true, hj, hs]

theorem rbackSeeds_busy {m : Mach} {p : Nat} (va n : Nat) (h : ruleBusy m p = true) : rbackSeeds m p va n = .error 4 := if_pos h

/-- Settles O47: every instruction of the class by the lemma of its start, its effect by the inversion or the equations of what it
does to the relations. -/
theorem relations : Obligations.Relations := by
  unfold Obligations.Relations
  refine ⟨fun d a s h => ?_, fun s id r va ans => exec_loadResult_rdef, fun m r ans va => rdefGo_busy ans va, ?_,
    fun f d a b s => exec_rins f, ?_, fun f d a s => exec_rdel f, fun m p rl k x id hb hx hd => rdelGo_marks hb hx hd,
    fun d a s => exec_rule, fun m p va m1 i => ruleGo_leaves, fun f d a s => exec_rdrop f, fun m p n m1 => rdropGo_rule,
    fun m p n m1 => rdropGo_relation, fun f d a mode s => exec_rscan mode,
    fun m p rl h x hx hh => ⟨_, rscanToks_all hx hh, partTuples_sorted m p rl x h, fun id t => mem_partTuples⟩,
    fun f d a s => exec_rlook f, ?_, fun f d a s => exec_rwit f, ?_, fun f d s => exec_rcnt f, fun m p rl x => rcntGo_counts, ?_,
    fun f d a b s => exec_rback, fun m p va n => rbackSeeds_busy va n, fun s id r seeds acc ans => exec_loadResult_rback⟩
  · exact ⟨exec_rdef_busy h, exec_rdef_asks h⟩
  · intro m r ans va m1 h
    obtain ⟨rl, ws, homes, z, hfree, rfl, hnodup, hcores⟩ := rdefGo_declares h
    exact ⟨rl, _, hfree, relOf_setRel .., rfl, rfl, rfl, hnodup, hcores⟩
  · intro m p rl k b x hb hx hd w m1 t0
    refine ⟨rinsGo_outside hb hx hd, rinsGo_new hb hx hd, fun id h hf => ?_⟩
    rw [rinsGo_found hb hx hd h hf]
    refine ⟨?_, ?_, ?_, ?_, ?_⟩
    · intro hdel hz
      rw [if_pos hdel, if_pos hz]
    · intro hdel hz
      rw [if_pos hdel, if_neg (Bool.eq_false_iff.mp hz)]
    · intro hdel hbetter
      rw [if_neg (Bool.eq_false_iff.mp hdel), if_pos hbetter]
    · intro hdel hbetter hrep hne hz
      rw [if_neg (Bool.eq_false_iff.mp hdel), if_neg (Bool.eq_false_iff.mp hbetter),
        if_pos ⟨hrep, hne, by rw [hz]; rfl⟩]
    · intro hdel hbetter hstays
      rw [if_neg (Bool.eq_false_iff.mp hdel), if_neg (Bool.eq_false_iff.mp hbetter), if_neg]
      rintro ⟨hrep, hne, hz⟩
      rcases hstays with h | h | h
      · exact Bool.false_ne_true (h.symm.trans hrep)
      · exact hne h
      · rw [h] at hz
        exact Bool.false_ne_true hz
  · intro m p rl k x hx
    constructor
    · intro hf
      simp only [rlookGo, hx, hf]
      rfl
    · intro id hf
      simp only [rlookGo, hx, hf]
  · intro m p rl id x hx t
    constructor
    · intro hv
      simp only [rwitGo, hx]
      rw [if_pos hv]
    · intro hv
      simp only [rwitGo, hx]
      rw [if_neg (Bool.eq_false_iff.mp hv)]
  · intro m p rl k h
    simp only [rlookGo, rwitGo, rcntGo, h]
    exact ⟨rfl, rfl, rfl⟩

end Sys2Proof.Machine

/-! PROOFS. The steps of casts and merges (R361, R363-R366, R369-R373). -/
namespace Sys2Proof.Machine

@[simp] theorem famOf_setFam (m : Mach) (k : Nat) (f : Fam) : famOf (setFam m k f) k = some f := tfind_tset_same ..

/-! ## Samples (R364, R370) -/

/-- A table of counts after a sample: an entry whose occupancy passes the test counts one more, the others start again. -/
def sampled (m : Mach) (p : Nat) (f : Fam) (t : Tbl Nat) (c : Nat → Bool) : Tbl Nat :=
  f.entries.foldl (fun a e => if c (occupancy m p f e.core) then tset e.core (tget 0 e.core t + 1) a else a) []

/-- A family after a sample of its holders. -/
def famSampled (m : Mach) (p : Nat) (f : Fam) : Fam :=
  { f with hot := sampled m p f f.hot (fun o => decide (f.cth ≤ o)), cool := sampled m p f f.cool (fun o => decide (o ≤ f.mth)) }

/-- What a sample that has counted makes of the request that it takes up, if any. -/
def sampleAnswered (m1 : Mach) (p n : Nat) (f1 : Fam) : Option (Bool × Nat) → Mach
  | none => m1
  | some (false, i) =>
    let m2 := { m1 with free := m1.free + 1 }
    if castCode m2 p f1 i = 0 then startCast m2 p n i (2 ^ 64) f1 else m2
  | some (true, i) => startMerge { m1 with free := m1.free + 1 } p n i (2 ^ 64) f1

section Sample
variable {s : State} {p n : Nat} {f : Fam} (hf : famOf s.m (famKey p n) = some f) (hrun : running s.m p = true)
include hf hrun

theorem castSample_eq : let f1 := famSampled s.m p f
    let rs := if f.step.isSome then [] else sampleReqs f1
    exec (.castSample p n) s = .next { s with
      m := sampleAnswered (setFam s.m (famKey p n) f1) p n f1 (rs[Config.freeSlot s.m.free % rs.length]?) } := by
  refine next_of_lift (castSampleG p n) rfl ?_
  simp only [castSampleG, hf, hrun, Bool.not_true, Bool.false_eq_true, if_false]
  rfl

theorem castSample_counts (h : f.step.isSome = true ∨ sampleReqs (famSampled s.m p f) = []) :
    exec (.castSample p n) s = .next { s with m := setFam s.m (famKey p n) (famSampled s.m p f) } := by
  have hnone : (if f.step.isSome = true then [] else sampleReqs (famSampled s.m p f)) = [] := by
    rcases h with h | h
    · exact if_pos h
    · rw [h, ite_self]
  rw [castSample_eq hf hrun, hnone]
  rfl

/-- A sample that asks for steps starts one of them. -/
theorem castSample_starts (hs : f.step = none) (h : sampleReqs (famSampled s.m p f) ≠ []) :
    let f1 := famSampled s.m p f
    let m1 := setFam s.m (famKey p n) f1
    let m2 := { m1 with free := m1.free + 1 }
    ∃ x ∈ sampleReqs f1,
      (x.1 = false → castCode m2 p f1 x.2 = 0 → exec (.castSample p n) s = .next { s with m := startCast m2 p n x.2 (2 ^ 64) f1 })
      ∧ (x.1 = true → exec (.castSample p n) s = .next { s with m := startMerge m2 p n x.2 (2 ^ 64) f1 }) := by
  intro f1 m1 m2
  have hall : (if f.step.isSome = true then [] else sampleReqs f1) = sampleReqs f1 := if_neg (by rw [hs]; exact Bool.false_ne_true)
  obtain ⟨⟨merge, i⟩, hx⟩ : ∃ x, (sampleReqs f1)[Config.freeSlot s.m.free % (sampleReqs f1).length]? = some x :=
    ⟨_, List.getElem?_eq_getElem (Nat.mod_lt _ (List.length_pos_iff.mpr h))⟩
  have hexec := castSample_eq (n := n) hf hrun
  dsimp only at hexec
  rw [hall, hx] at hexec
  refine ⟨_, List.mem_of_getElem? hx, ?_, ?_⟩
  · rintro rfl hc
    exact hexec.trans (congrArg (fun m => Host.Outcome.next { s with m := m }) (if_pos hc))
  · rintro rfl
    exact hexec

end Sample

/-! ## Routines (R366, R369, R370) -/

section Step
variable {s : State} {p n : Nat} {f : Fam} {st : FamStep} (hf : famOf s.m (famKey p n) = some f) (hst : f.step = some st)
  (hrun : running s.m p = true)
include hf hst hrun

theorem routineDispatch_starts (hph : st.ph = .prepare) (hkind : f.kind = 0) (hready : stepReady s.m p f st = true) (hopen : st.kind ≠ .close)
    (hfree : thas (routineCore f st * 8 + 4) s.m.pe.binds = false) :
    let h := routineCore f st
    let m1 := setFam (bindCtx s.m h 4 ((f.version + 1) % 65536) (.routine p n)) (famKey p n) { f with step := some { st with ph := .routine } }
    exec (.routineDispatch p n) s = .next { s with m := sendTok m1 (450000 + h) (chanKey h f.rpe f.rch) (entryToken f st) } := by
  refine next_of_lift (routineDispatchG p n) rfl ?_
  have hgoes : (!running s.m p || st.ph != .prepare || f.kind != 0 || !stepReady s.m p f st) = false := by
    rw [hrun, hph, hkind, hready]
    rfl
  simp only [routineDispatchG, hf, hst, hgoes, Bool.false_eq_true, if_false]
  cases hk : st.kind with
  | close => exact absurd hk hopen
  | cast => exact if_neg (Bool.eq_false_iff.mp hfree)
  | merge => exact if_neg (Bool.eq_false_iff.mp hfree)

omit hrun in
theorem routineDispatch_waits (hready : stepReady s.m p f st = false) : exec (.routineDispatch p n) s = .next s := by
  refine next_of_lift (s := s) (routineDispatchG p n) rfl ?_
  simp only [routineDispatchG, hf, hst, hready, Bool.not_false, Bool.or_true, if_true]

theorem stepDone_finishes {b : Binding} (hkind : f.kind = 0) (hph : st.ph = .routine)
    (hb : routineOf s.m (famKey p n) (routineCore f st) = some b) (hend : b.ending = true) (hmark : b.sdone = some (decide (st.kind = .cast)))
    (hreqs : ctxReqs s.m (routineCore f st) 4 b.act = false) (hcommit : tget [] (routineCore f st * 8 + 4) s.m.pe.commit = []) :
    let m1 := releaseCtx s.m (routineCore f st) 4 false
    (st.kind = .cast → exec (.stepDone p n) s = .next { s with m := castDone (famKey p n) f st m1 })
    ∧ (st.kind ≠ .cast → exec (.stepDone p n) s = .next { s with m := mergeDone (famKey p n) f st m1 }) := by
  intro m1
  have hok : markOk st b = true := beq_iff_eq.mpr hmark
  have hexec : exec (.stepDone p n) s = .next { s with
      m := if st.kind == .cast then castDone (famKey p n) f st m1 else mergeDone (famKey p n) f st m1 } := by
    refine next_of_lift (stepDoneEv p n) rfl ?_
    simp only [stepDoneEv, hf, hst, hrun, hkind, hph, hb, hend, hok, hreqs, hcommit, Bool.not_true, Bool.false_eq_true, if_false,
      ne_eq, not_true_eq_false, List.isEmpty_nil, Bool.or_self]
    rfl
  exact ⟨fun h => by rw [hexec, if_pos (beq_iff_eq.mpr h)], fun h => by rw [hexec, if_neg (mt beq_iff_eq.mp h)]⟩

theorem stepDone_cutsQueue (hkind : f.kind = 2) (hcast : st.kind = .cast) (hph : st.ph = .prepare) :
    exec (.stepDone p n) s = .next { s with m := castDone (famKey p n) f st (setQueueX s.m st.other { queueX s.m st.other with
      cut := (queueX s.m f.queue).entries.length + (queueX s.m f.queue).ringq.length }) } := by
  refine next_of_lift (stepDoneEv p n) rfl ?_
  have hready : stepReady s.m (famKey p n / 64) f st = true := by simp only [stepReady, hkind, hcast, beq_self_eq_true, Bool.true_or]
  have hgoes : (st.ph != .prepare || !stepReady s.m (famKey p n / 64) f st) = false := by
    rw [hready, hph]
    rfl
  simp only [stepDoneEv, hf, hst, hrun, hardStep, hgoes, Bool.not_true, Bool.false_eq_true, if_false, ne_eq, hcast, hkind, (by decide : ¬ (2 : Nat) = 1)]
  rfl

end Step

/-! ## The table of a cast (R361, R366) -/

theorem coverOf_append (xs ys : List KrtE) (h : Nat) : coverOf (xs ++ ys) h = (coverOf ys h).or (coverOf xs h) := by
  rw [coverOf, List.filter_append, List.getLast?_append]
  rfl

theorem coverOf_singleton (e : KrtE) (h : Nat) : coverOf [e] h = if e.lo ≤ h then some e else none := by
  unfold coverOf
  by_cases he : e.lo ≤ h <;> simp [he]

/-- The mark of a split has no part in which entry covers a hash. -/
theorem coverOf_unsplit (es : List KrtE) (h : Nat) :
    (coverOf (es.map (fun e => { e with split := false })) h).map (·.core) = (coverOf es h).map (·.core) := by
  unfold coverOf
  rw [List.filter_map, List.getLast?_map, Option.map_map]
  rfl

/-- No entry that begins above a hash covers it. -/
theorem coverOf_above {es : List KrtE} {h : Nat} (hes : ∀ e ∈ es, h < e.lo) : coverOf es h = none := by
  rw [coverOf, List.getLast?_eq_none_iff, List.filter_eq_nil_iff]
  intro e he
  have := hes e he
  simp only [decide_eq_true_eq]
  omega

/-- A list of entries of which one begins at or below a hash covers it. -/
theorem coverOf_isSome {es : List KrtE} {h : Nat} {e : KrtE} (he : e ∈ es) (hlo : e.lo ≤ h) : (coverOf es h).isSome = true := by
  rw [coverOf, List.getLast?_isSome]
  exact List.ne_nil_of_mem (List.mem_filter.mpr ⟨he, decide_eq_true hlo⟩)

/-- The entries behind entry `i` begin at the end of its range or above it. -/
theorem hiOf_le_of_mem_drop {es : List KrtE} (hsorted : (es.map (·.lo)).Pairwise (· < ·)) {i : Nat} {e : KrtE} (he : e ∈ es.drop (i + 1)) :
    hiOf es i ≤ e.lo := by
  obtain ⟨j, hj, rfl⟩ := List.mem_iff_getElem.mp he
  rw [List.length_drop] at hj
  rw [List.getElem_drop, hiOf, List.getElem?_eq_getElem (by omega), Option.map_some, Option.getD_some]
  rcases Nat.eq_zero_or_pos j with rfl | hpos
  · exact Nat.le_refl _
  · have := (List.pairwise_iff_getElem.mp hsorted) (i + 1) (i + 1 + j) (by rw [List.length_map]; omega) (by rw [List.length_map]; omega)
      (by omega)
    simp only [List.getElem_map] at this
    exact this.le

/-- With the twin's entry behind the one that is split, the hashes from the middle of its range up are the twin's, and all others
stay where they were. -/
theorem coverOf_cast {es : List KrtE} {i mid other : Nat} (hsorted : (es.map (·.lo)).Pairwise (· < ·)) (hi : i < es.length)
    {h : Nat} (hh : h < 2 ^ 32) :
    let es0 := es.map (fun e => { e with split := false })
    (coverOf (es0.take (i + 1) ++ [⟨mid, other, false, false⟩] ++ es0.drop (i + 1)) h).map (·.core) =
      if mid ≤ h ∧ h < hiOf es i then some other else (coverOf es h).map (·.core) := by
  intro es0
  have htake : (coverOf (es0.take (i + 1)) h).map (·.core) = (coverOf (es.take (i + 1)) h).map (·.core) := by
    rw [← List.map_take, coverOf_unsplit]
  have hdrop : (coverOf (es0.drop (i + 1)) h).map (·.core) = (coverOf (es.drop (i + 1)) h).map (·.core) := by
    rw [← List.map_drop, coverOf_unsplit]
  have hes : coverOf es h = (coverOf (es.drop (i + 1)) h).or (coverOf (es.take (i + 1)) h) := by
    rw [← coverOf_append, List.take_append_drop]
  rw [coverOf_append, coverOf_append, coverOf_singleton, hes, Option.map_or, Option.map_or, Option.map_or, hdrop, htake]
  by_cases hbelow : h < hiOf es i
  · rw [coverOf_above (fun e he => hbelow.trans_le (hiOf_le_of_mem_drop hsorted he)), Option.map_none, Option.none_or, Option.none_or]
    by_cases hup : mid ≤ h
    · rw [if_pos hup, if_pos ⟨hup, hbelow⟩]
      rfl
    · rw [if_neg hup, if_neg (fun hand => hup hand.1)]
      rfl
  · have hnext : i + 1 < es.length := by
      by_contra hlast
      have : hiOf es i = 2 ^ 32 := by rw [hiOf, List.getElem?_eq_none (by omega)]; rfl
      omega
    have hlo : (es[i + 1]'hnext).lo = hiOf es i := by rw [hiOf, List.getElem?_eq_getElem hnext]; rfl
    obtain ⟨e, he⟩ := Option.isSome_iff_exists.mp
      (coverOf_isSome (es := es.drop (i + 1)) (h := h) (List.mem_drop_iff_getElem.mpr ⟨0, by omega, rfl⟩) (by rw [hlo]; omega))
    rw [if_neg (c := mid ≤ h ∧ h < hiOf es i) (fun hand => hbelow hand.2), he]
    rfl

/-! ## Senders (R363) and occupancies (R364, R372, R373) -/

theorem mem_senders (m : Mach) (f : Fam) (sk : Nat) : sk ∈ senders m f ↔ ((∃ c ∈ f.copies, c.1 = sk) ∨
    ∃ t ∈ m.fab.transit, 400000 ≤ t.src ∧ t.src < 430000 ∧ t.dst ∈ famSins f ∧ srcSender t.src = sk) := by
  simp only [senders, List.mem_dedup, List.mem_append, List.mem_map, List.mem_filter, Bool.and_eq_true, decide_eq_true_eq,
    List.contains_iff_mem, and_assoc]

theorem occupancy_queue (m : Mach) (p h : Nat) {f : Fam} (hk : f.kind = 2) :
    occupancy m p f h = (queueX m h).entries.length + (queueX m h).ringq.length := by
  simp only [occupancy, hk, exqCount]

theorem occupancy_partition (m : Mach) (p h : Nat) {f : Fam} (hk : f.kind = 1) :
    occupancy m p f h = ((portOps m p f).filter (fun k => (coverOf f.entries k).map (·.core) == some h)).length := by
  simp only [occupancy, hk]

theorem occupancy_program (m : Mach) (p h : Nat) {f : Fam} (hk : f.kind = 0) :
    occupancy m p f h = (chanOf m (f.sin h)).fifo.length + (chanOf m (f.sin h)).ring.length + (tget [] h f.buf).length := by
  simp only [occupancy, hk]

section Ack
variable {s : State} {p n sk : Nat} {f : Fam} (hf : famOf s.m (famKey p n) = some f) (hrun : running s.m p = true)
include hf hrun

/-- A sender that holds the table takes the new one; a step counts its acknowledgement once its older records have left. -/
theorem senderAck_holds (hsk : thas sk f.copies = true) : let f1 := { f with copies := tset sk (f.version, f.entries) f.copies }
    exec (.senderAck p n sk) s = .next { s with m := redirEnd (famKey p n) (setFam s.m (famKey p n) { f1 with
      step := f.step.map (fun st => if !oldInFlight s.m f1 sk then { st with acks := st.acks.filter (· != sk) } else st) }) } := by
  refine next_of_lift (senderAckG p n sk) rfl ?_
  simp only [senderAckG, hf, hrun, hsk, Bool.not_true, Bool.true_or, Bool.or_self, Bool.false_eq_true, if_false, if_true]

/-- A sender that has given the table up acknowledges as well. -/
theorem senderAck_gaveUp {st : FamStep} (hsk : thas sk f.copies = false) (hst : f.step = some st) (hmem : sk ∈ st.acks) :
    exec (.senderAck p n sk) s = .next { s with m := redirEnd (famKey p n) (setFam s.m (famKey p n) { f with
      step := some (if !oldInFlight s.m f sk then { st with acks := st.acks.filter (· != sk) } else st) }) } := by
  refine next_of_lift (senderAckG p n sk) rfl ?_
  simp only [senderAckG, hf, hrun, hsk, hst, List.contains_iff_mem.mpr hmem, Bool.not_true, Bool.false_or, Bool.or_self,
    Bool.false_eq_true, if_false, Option.map_some]

end Ack

theorem redirEnd_noStep {k : Nat} {m : Mach} {f : Fam} (hf : famOf m k = some f) (hst : f.step = none) : redirEnd k m = m := by
  simp only [redirEnd, hf, hst]

/-- Settles O50: each event by its lemma, the new table by the cover of its parts. -/
theorem stageEvents : Obligations.StageEvents := by
  unfold Obligations.StageEvents
  refine ⟨fun s p n f hf hrun => ⟨castSample_counts hf hrun, castSample_starts hf hrun⟩, ?_, ?_, ?_, fun k m f st => ⟨⟨_, _, rfl⟩, ?_⟩,
    mem_senders, fun m p f h => ⟨occupancy_queue m p h, occupancy_partition m p h, occupancy_program m p h⟩, ?_, ?_, ?_, ?_, ?_⟩
  · intro s p n f st hf hst hrun hph hkind hready hopen hfree
    exact routineDispatch_starts hf hst hrun hph hkind hready hopen hfree
  · intro s p n f st hf hst hrun _ _ hready
    exact routineDispatch_waits hf hst hready
  · intro s p n f st b hf hst hrun hkind hph h hb hend hmark hreqs hcommit
    exact stepDone_finishes hf hst hrun hkind hph hb hend hmark hreqs hcommit
  · intro hsorted hi _ _ h hh
    exact coverOf_cast hsorted hi hh
  · intro s p n f st hf hst hrun hkind hcast hph
    exact stepDone_cutsQueue hf hst hrun hkind hcast hph
  · intro s p n sk f st hf hrun hsk hst _ hold
    rw [senderAck_holds hf hrun hsk, hold, hst]
    rfl
  · intro s p n sk f st hf hrun hsk hst hmem hold
    rw [senderAck_gaveUp hf hrun hsk hst hmem, hold]
    rfl
  · intro s p n sk f st hf hrun hsk hst hmem hold
    rw [senderAck_gaveUp hf hrun hsk hst hmem, hold, Bool.not_true, if_neg Bool.false_ne_true, ← hst]
  · intro s p n sk f hf hrun hsk hst
    rw [senderAck_holds hf hrun hsk, hst]
    rw [redirEnd_noStep (famOf_setFam ..) rfl]
    exact ⟨_, rfl, famOf_setFam .., rfl⟩

end Sys2Proof.Machine

/-! PROOFS. Lanes and their leases, notices and keys (R385, R389, R390, R394, R399-R401). -/
namespace Sys2Proof.Machine

/-! ## Lighting lanes: the tables -/

/-- The lanes `ks` of a package join a table of lanes. -/
def litTbl (x : Nat) (v : Lane) (ks : List Nat) (t : Tbl Lane) : Tbl Lane := ks.foldl (fun t k => tset (x * 8 + k) v t) t

/-- The lanes of a table that are on a plane. -/
def onPlane (t : Tbl Lane) (k : Nat) : Nat := (t.filter (fun e => e.1 % 8 == k)).length

theorem lightTx_eq (p x : Nat) (ks : List Nat) : ∀ m, lightTx m p x ks = { m with fab.tx := litTbl x (Lane.fresh (some p)) ks m.fab.tx } := by
  induction ks with
  | nil => exact fun m => rfl
  | cons k ks ih => exact fun m => ih _

/-- Receive lanes light as transmit lanes do. -/
theorem foldl_lightRx (x : Nat) (v : Lane) (ks : List Nat) : ∀ m : Mach,
    ks.foldl (fun m k => { m with fab.rx := tset (x * 8 + k) v m.fab.rx }) m = { m with fab.rx := litTbl x v ks m.fab.rx } := by
  induction ks with
  | nil => exact fun m => rfl
  | cons k ks ih => exact fun m => ih _

theorem tfind_litTbl_other {x j : Nat} (v : Lane) (ks : List Nat) : ∀ t, (∀ k ∈ ks, j ≠ x * 8 + k) → tfind j (litTbl x v ks t) = tfind j t := by
  induction ks with
  | nil => exact fun t _ => rfl
  | cons k ks ih =>
    intro t h
    exact (ih _ (fun i hi => h i (List.mem_cons_of_mem _ hi))).trans (tfind_tset_other _ _ _ _ (h k List.mem_cons_self))

theorem tfind_litTbl_same {x k : Nat} (v : Lane) (ks : List Nat) : ∀ t, k ∈ ks → tfind (x * 8 + k) (litTbl x v ks t) = some v := by
  induction ks with
  | nil => exact fun t h => absurd h List.not_mem_nil
  | cons i ks ih =>
    intro t h
    by_cases hk : k ∈ ks
    · exact ih _ hk
    · obtain rfl : k = i := (List.mem_cons.mp h).resolve_right hk
      refine (tfind_litTbl_other v ks _ (fun i hi => ?_)).trans (tfind_tset_same ..)
      have : i ≠ k := fun he => hk (he ▸ hi)
      omega

/-- An entry for a key that is not listed joins the table. -/
theorem tset_perm {V : Type} {k : Nat} (v : V) {t : Tbl V} (h : tfind k t = none) : (tset k v t).Perm ((k, v) :: t) := by
  induction t with
  | nil => exact List.Perm.refl _
  | cons e t ih =>
    obtain ⟨a, y⟩ := e
    have ha : a ≠ k := fun he => by simp [tfind, he] at h
    have ht : tfind k t = none := by simpa [tfind, ha] using h
    rw [tset, if_neg ha]
    split
    · exact List.Perm.refl _
    · exact ((ih ht).cons _).trans (List.Perm.swap _ _ _)

theorem onPlane_tset {x j k : Nat} (v : Lane) {t : Tbl Lane} (hj : j < 8) (h : thas (x * 8 + j) t = false) :
    onPlane (tset (x * 8 + j) v t) k = onPlane t k + if k = j then 1 else 0 := by
  have hplane : (x * 8 + j) % 8 = j := by omega
  rw [onPlane, ((tset_perm v (tfind_of_thas_false h)).filter _).length_eq, List.filter_cons, hplane]
  by_cases hk : j = k
  · simp [hk, onPlane]
  · simp [hk, Ne.symm hk, onPlane]

/-- Each lane that lights is one more lane of its plane. -/
theorem onPlane_litTbl {x k : Nat} (v : Lane) (ks : List Nat) : ∀ t, ks.Nodup → (∀ j ∈ ks, j < 8 ∧ thas (x * 8 + j) t = false) →
    onPlane (litTbl x v ks t) k = onPlane t k + if k ∈ ks then 1 else 0 := by
  induction ks with
  | nil => exact fun t _ _ => rfl
  | cons j ks ih =>
    intro t hnodup h
    obtain ⟨hnot, hrest⟩ := List.nodup_cons.mp hnodup
    obtain ⟨hj, hdark⟩ := h j List.mem_cons_self
    have hks : ∀ i ∈ ks, i < 8 ∧ thas (x * 8 + i) (tset (x * 8 + j) v t) = false := by
      intro i hi
      obtain ⟨hlt, hi'⟩ := h i (List.mem_cons_of_mem _ hi)
      have : i ≠ j := fun he => hnot (he ▸ hi)
      exact ⟨hlt, by rwa [thas, tfind_tset_other _ _ _ _ (by omega)]⟩
    have hstep : onPlane (litTbl x v (j :: ks) t) k = onPlane (litTbl x v ks (tset (x * 8 + j) v t)) k := rfl
    rw [hstep, ih _ hrest hks, onPlane_tset v hj hdark]
    by_cases hk : k = j
    · subst hk
      simp [hnot]
    · simp [hk]

theorem lightTx_lights {m : Mach} {p x : Nat} {ks : List Nat} (hnodup : ks.Nodup)
    (h : ∀ k ∈ ks, k < 8 ∧ planeTx m k < 32 ∧ txLit m x k = false) :
    (∀ k ∈ ks, tfind (x * 8 + k) (lightTx m p x ks).fab.tx = some (Lane.fresh (some p)))
    ∧ (∀ k < 8, planeTx (lightTx m p x ks) k = planeTx m k + if k ∈ ks then 1 else 0) := by
  rw [lightTx_eq]
  exact ⟨fun k hk => tfind_litTbl_same _ ks _ hk,
    fun k _ => onPlane_litTbl _ ks _ hnodup (fun j hj => ⟨(h j hj).1, (h j hj).2.2⟩)⟩

/-! ## Our requests (R389) -/

/-- A module that has not lit its lanes serves no lease. -/
theorem leaseService_held {s : State} (c : LeaseCall) (h : s.m.host.phase < 5) : exec (.leaseService c) s = .next s :=
  next_of_lift (leaseServiceG c) rfl (if_pos h)

theorem exec_leaseService {s : State} (c : LeaseCall) (h : 5 ≤ s.m.host.phase) : exec (.leaseService c) s = .next { s with m := match c with
    | .ours peer => serveOurs s.m peer
    | .request src n plane prio => joinQueue s.m src n plane prio
    | .theirs => serveTheirs s.m
    | .denied src => { s.m with fab.leases := s.m.fab.leases.eraseP (·.src == src) }
    | .released src k => if 512 ≤ src ∨ 8 ≤ k then s.m else endRx s.m (src * 8 + k) } :=
  next_of_lift (leaseServiceG c) rfl (if_neg (Nat.not_lt.mpr h))

theorem serveOurs_grants {m0 : Mach} {x n y : Nat} {r : Req} (hr : leaseHead m0 x = some r) (hop : r.op = .lease x n none y) :
    let m := { m0 with free := m0.free + 1 }
    let ks := ((upto 8).filter (fun k => decide (planeTx m k < 32) && bitAt (Config.freeSlot m0.free) k && !txLit m x k)).take n
    serveOurs m0 x = if ks = [] then m else grantLease (lightTx m r.past x ks) r x := by
  intro m ks
  simp only [serveOurs, hr, hop]
  by_cases h : ks = []
  · exact (if_pos (List.isEmpty_iff.mpr h)).trans (if_pos h).symm
  · exact (if_neg (mt List.isEmpty_iff.mp h)).trans (if_neg h).symm

/-- The first that is marked, or else the first: none is marked where the head is not. -/
theorem mem_of_marked_or_head {α : Type} {l : List α} {mark : α → Bool} {x : α} (h : (l.find? mark).orElse (fun _ => l.head?) = some x) :
    x ∈ l ∧ (mark x = false → (∀ y ∈ l, mark y = false) ∧ l.head? = some x) := by
  cases hf : l.find? mark with
  | some y =>
    rw [hf] at h
    obtain rfl : y = x := Option.some.inj h
    exact ⟨List.mem_of_find?_eq_some hf, fun hm => absurd (List.find?_some hf) (by rw [hm]; exact Bool.false_ne_true)⟩
  | none =>
    rw [hf] at h
    have hhead : l.head? = some x := h
    exact ⟨List.mem_of_head? hhead, fun _ => ⟨fun y hy => by simpa using List.find?_eq_none.mp hf y hy, hhead⟩⟩

/-- The head request at a package: the oldest with PRIO, or the oldest where none has PRIO. -/
theorem leaseHead_spec {m : Mach} {x : Nat} {r : Req} (h : leaseHead m x = some r) : r ∈ m.mem.reqs ∧ r.done = false ∧
    (r.granted = none → ∀ q ∈ m.mem.reqs, ∀ n k y, q.op = .lease x n k y → q.done = false → q.granted = none) := by
  obtain ⟨hmem, hrest⟩ := mem_of_marked_or_head h
  obtain ⟨hr, hopen⟩ := List.mem_filter.mp hmem
  refine ⟨hr, by simpa using (Bool.and_eq_true_iff.mp hopen).1, fun hnone q hq n k y hop hdone => ?_⟩
  have hq' : q ∈ m.mem.reqs.filter (fun r => !r.done && (match r.op with | .lease y _ _ _ => y == x | _ => false)) :=
    List.mem_filter.mpr ⟨hq, by rw [hop, hdone]; exact beq_self_eq_true x⟩
  simpa using (hrest (by rw [hnone]; rfl)).1 q hq'

theorem leaseDenial_denies {s : State} {id x n y : Nat} {k : Option Nat} {r : Req} (hr : reqOf s.m id = some r) (hop : r.op = .lease x n k y)
    (hdone : r.done = false) :
    let d := min 15 (tget 0 x s.m.fab.denied + 1)
    let m1 := { s.m with
      fab.denied := tset x d s.m.fab.denied
      fab.prio := if 8 ≤ d ∧ x ∉ s.m.fab.prio then x :: s.m.fab.prio else s.m.fab.prio }
    exec (.leaseDenial id) s = .next { s with m := finish m1 id (2 ^ 63 + 4) } := by
  intro d m1
  refine next_of_lift (leaseDenialG id) rfl ?_
  have hprio : (!s.m.fab.prio.contains x) = true ↔ x ∉ s.m.fab.prio := by simp
  simp only [leaseDenialG, hr, hop, hdone, Bool.false_eq_true, if_false, hprio]
  rfl

/-! ## Requests of other packages (R389) -/

theorem joinQueue_joins {m : Mach} {src n : Nat} {plane : Option Nat} (prio : Bool) (hsrc : inPaddock m src = true) (h0 : 0 < n) (h8 : n < 8)
    (hplane : ∀ k, plane = some k → k < 8) : joinQueue m src n plane prio =
      { m with fab.leases := m.fab.leases ++ [⟨src, n, plane, prio, false⟩] } := by
  have hfits : plane.any (8 ≤ ·) = false := by
    cases plane with
    | none => rfl
    | some k => simpa using hplane k rfl
  refine if_neg ?_
  rw [hsrc, hfits, decide_eq_false (by omega : ¬ n = 0), decide_eq_false (by omega : ¬ 7 < n)]
  exact Bool.false_ne_true

theorem joinQueue_refuses {m : Mach} {src n : Nat} {plane : Option Nat} (prio : Bool)
    (h : inPaddock m src = false ∨ n = 0 ∨ 7 < n ∨ ∃ k, plane = some k ∧ 7 < k) : joinQueue m src n plane prio = m := by
  refine if_pos ?_
  rcases h with h | h | h | ⟨k, rfl, hk⟩
  · simp [h]
  · simp [h]
  · simp [h]
  · simp [Nat.succ_le_of_lt hk]

/-- The planes on which the head of the queue is given a lane. -/
def grantedTo (m : Mach) (q : LeaseQ) : List Nat :=
  ((match q.plane with | some k => [k] | none => upto 8).filter (fun k => bitAt (Config.freeSlot m.free) k && decide (planeRx m k < 32) && !rxLit m q.src k)).take q.n

theorem serveTheirs_eq {m : Mach} {q : LeaseQ} (hq : queueHead m = some q) (hw : q.waited = false) : serveTheirs m =
    if grantedTo m q = [] then { m with
      free := m.free + 1, fab.leases := m.fab.leases.map (fun x => if x = q then { x with waited := true } else x) }
    else { m with
      free := m.free + 1, fab.leases := m.fab.leases.erase q, fab.rx := litTbl q.src (Lane.fresh none) (grantedTo m q) m.fab.rx } := by
  simp only [serveTheirs, hq, hw, Bool.false_eq_true, if_false, foldl_lightRx, beq_iff_eq]
  by_cases h : grantedTo m q = []
  · exact (if_pos (List.isEmpty_iff.mpr h)).trans (if_pos h).symm
  · exact (if_neg (mt List.isEmpty_iff.mp h)).trans (if_neg h).symm

theorem serveTheirs_idle {m : Mach} (h : queueHead m = none ∨ ∃ q, queueHead m = some q ∧ q.waited = true) : serveTheirs m = m := by
  rcases h with h | ⟨q, h, hw⟩
  · simp only [serveTheirs, h]
  · simp only [serveTheirs, h, hw, if_true]

theorem leaseService_idle {s : State} (h : queueHead s.m = none ∨ ∃ q, queueHead s.m = some q ∧ q.waited = true) :
    exec (.leaseService .theirs) s = .next s := by
  by_cases hp : s.m.host.phase < 5
  · exact leaseService_held _ hp
  · rw [exec_leaseService _ (Nat.le_of_not_lt hp), serveTheirs_idle h]

theorem leaseService_refuses {s : State} {src n : Nat} {plane : Option Nat} (prio : Bool)
    (h : inPaddock s.m src = false ∨ n = 0 ∨ 7 < n ∨ ∃ k, plane = some k ∧ 7 < k) :
    exec (.leaseService (.request src n plane prio)) s = .next s := by
  by_cases hp : s.m.host.phase < 5
  · exact leaseService_held _ hp
  · rw [exec_leaseService _ (Nat.le_of_not_lt hp)]
    exact congrArg (fun m => Host.Outcome.next { s with m := m }) (joinQueue_refuses prio h)

theorem leaseService_theirs {s : State} {q : LeaseQ} (hp : 5 ≤ s.m.host.phase) (hq : queueHead s.m = some q) (hw : q.waited = false) :
    ∃ t, exec (.leaseService .theirs) s = .next t ∧ t.m.fab.tx = s.m.fab.tx ∧ t.m.mem = s.m.mem
      ∧ (grantedTo s.m q = [] → t.m.fab.rx = s.m.fab.rx
        ∧ t.m.fab.leases = s.m.fab.leases.map (fun x => if x = q then { x with waited := true } else x))
      ∧ (grantedTo s.m q ≠ [] → t.m.fab.leases = s.m.fab.leases.erase q
        ∧ (∀ k ∈ grantedTo s.m q, tfind (q.src * 8 + k) t.m.fab.rx = some (Lane.fresh none))
        ∧ (∀ j, (∀ k ∈ grantedTo s.m q, j ≠ q.src * 8 + k) → tfind j t.m.fab.rx = tfind j s.m.fab.rx)) := by
  refine ⟨_, exec_leaseService .theirs hp, ?_⟩
  dsimp only
  rw [serveTheirs_eq hq hw]
  by_cases h : grantedTo s.m q = []
  · rw [if_pos h]
    exact ⟨rfl, rfl, fun _ => ⟨rfl, rfl⟩, fun hne => absurd h hne⟩
  · rw [if_neg h]
    exact ⟨rfl, rfl, fun he => absurd he h, fun _ => ⟨rfl, fun k hk => tfind_litTbl_same _ _ _ hk,
      fun j hj => tfind_litTbl_other _ _ _ hj⟩⟩

/-- The planes that are granted are distinct, and on each there is room and the lane is dark. -/
theorem grantedTo_spec {m : Mach} {q : LeaseQ} (hplane : ∀ k, q.plane = some k → k < 8) : (grantedTo m q).Nodup
    ∧ ∀ k ∈ grantedTo m q, k < 8 ∧ planeRx m k < 32 ∧ thas (q.src * 8 + k) m.fab.rx = false := by
  have hplanes : (match q.plane with | some k => [k] | none => upto 8 : List Nat).Nodup
      ∧ ∀ k ∈ (match q.plane with | some k => [k] | none => upto 8 : List Nat), k < 8 := by
    cases hq : q.plane with
    | some k => exact ⟨List.nodup_singleton k, fun j hj => List.mem_singleton.mp hj ▸ hplane k hq⟩
    | none => exact ⟨List.nodup_range, fun j hj => List.mem_range.mp hj⟩
  refine ⟨(hplanes.1.filter _).sublist (List.take_sublist _ _), fun k hk => ?_⟩
  obtain ⟨hmem, hgood⟩ := List.mem_filter.mp (List.mem_of_mem_take hk)
  simp only [Bool.and_eq_true, decide_eq_true_eq, Bool.not_eq_true'] at hgood
  exact ⟨hplanes.2 k hmem, hgood.1.2, hgood.2⟩

theorem leaseService_keepsPlanes {s : State} (hroom : ∀ k < 8, planeRx s.m k ≤ 32)
    (hplanes : ∀ q ∈ s.m.fab.leases, ∀ k, q.plane = some k → k < 8) :
    ∃ t, exec (.leaseService .theirs) s = .next t ∧ (∀ k < 8, planeRx t.m k ≤ 32) := by
  by_cases hp : s.m.host.phase < 5
  · exact ⟨s, leaseService_held _ hp, hroom⟩
  cases hq : queueHead s.m with
  | none => exact ⟨s, leaseService_idle (.inl hq), hroom⟩
  | some q =>
    cases hw : q.waited with
    | true => exact ⟨s, leaseService_idle (.inr ⟨q, hq, hw⟩), hroom⟩
    | false =>
      refine ⟨_, exec_leaseService .theirs (Nat.le_of_not_lt hp), fun k hk => ?_⟩
      dsimp only
      rw [serveTheirs_eq hq hw]
      obtain ⟨hnodup, hgranted⟩ := grantedTo_spec (m := s.m) (hplanes q (mem_of_marked_or_head hq).1)
      split
      · exact hroom k hk
      · show onPlane (litTbl q.src (Lane.fresh none) (grantedTo s.m q) s.m.fab.rx) k ≤ 32
        rw [onPlane_litTbl _ _ _ hnodup (fun j hj => ⟨(hgranted j hj).1, (hgranted j hj).2.2⟩)]
        by_cases hmem : k ∈ grantedTo s.m q
        · rw [if_pos hmem]
          exact (hgranted k hmem).2.1
        · rw [if_neg hmem]
          exact hroom k hk

/-! ## Dark lanes (R390, R394) -/

theorem endRx_other {m : Mach} {key : Nat} (h : ∀ l, tfind key m.fab.rx = some l → l.revoking = none) : endRx m key = freeRx m key := by
  have hnone : (tfind key m.fab.rx).bind (·.revoking) = none := by
    cases hl : tfind key m.fab.rx with
    | none => rfl
    | some l => exact h l hl
  simp only [endRx, hnone]

theorem endRx_revoked {m : Mach} {key id : Nat} {l : Lane} {r : Req} (hl : tfind key m.fab.rx = some l) (hid : l.revoking = some id)
    (hr : reqOf m id = some r) : endRx m key = if (freeRx m key).fab.rx.any (fun e => e.2.revoking == some id) then freeRx m key
      else finish (freeRx m key) id (leaseWord (freeRx m key) r.past (key / 8)) := by
  have hsome : (tfind key m.fab.rx).bind (·.revoking) = some id := by rw [hl]; exact hid
  have hr' : reqOf (freeRx m key) id = some r := hr
  simp only [endRx, hsome, hr']

theorem revocationNotice_marks {s : State} {lane : Nat} {l : Lane} (hl : tfind lane s.m.fab.tx = some l) (hlt : lane < 4096)
    (hfloor : isFloor s.m.host.peer lane = false) : exec (.revocationNotice lane) s =
      .next { s with m.fab.tx := tset lane { l with notice := true } s.m.fab.tx } := by
  refine next_of_lift (revocationNoticeG lane) rfl ?_
  simp only [revocationNoticeG, hl, hfloor, Bool.false_eq_true, or_false, if_neg (Nat.not_le.mpr hlt)]

theorem noticeEnd_transmit {s : State} {lane : Nat} {l : Lane} (hl : tfind lane s.m.fab.tx = some l) (hlt : lane < 8192)
    (hn : l.notice = true) : exec (.revocationNoticeEnd lane) s =
      .next { s with m := laneCause { s.m with fab.tx := tdel lane s.m.fab.tx } l.holder 0x0C (lane / 8 + lane % 8 * 512) } := by
  refine next_of_lift (revocationNoticeEndG lane) rfl ?_
  simp only [revocationNoticeEndG, if_pos hlt, hl, hn, Bool.not_true, Bool.false_eq_true, if_false]

theorem noticeEnd_receive {s : State} {k id : Nat} {l : Lane} (hl : tfind k s.m.fab.rx = some l) (hid : l.revoking = some id) :
    exec (.revocationNoticeEnd (8192 + k)) s = .next { s with m := endRx s.m k } := by
  refine next_of_lift (revocationNoticeEndG (8192 + k)) rfl ?_
  simp only [revocationNoticeEndG, if_neg (by omega : ¬ 8192 + k < 8192), Nat.add_sub_cancel_left, hl, hid]

/-! ## Counters and keys (R399, R400) -/

theorem keyLow_marks {s : State} {lane : Nat} {l : Lane} (hl : tfind lane s.m.fab.tx = some l) : exec (.keyLow lane) s =
    .next { s with m.fab.tx := tset lane { l with low := true, ctr := max l.ctr (2 ^ 48 - 2 ^ 32) } s.m.fab.tx } := by
  refine next_of_lift (keyLowG lane) rfl ?_
  simp only [keyLowG, hl]

theorem keyHold_holds {s : State} {lane : Nat} {l : Lane} (hl : tfind lane s.m.fab.tx = some l) (hh : l.hold = false) :
    let m1 := { s.m with fab.tx := tset lane { l with hold := true, ctr := 2 ^ 48 - 1 } s.m.fab.tx }
    exec (.keyHold lane) s = .next { s with m := laneCause m1 none 0x0B (laneId s.m lane) } := by
  refine next_of_lift (keyHoldG lane) rfl ?_
  simp only [keyHoldG, hl, hh, Bool.false_eq_true, if_false]

/-- A lane that is left for a package keeps its requests. -/
theorem anyLeft {t : Tbl Lane} {near : Nat → Bool} {k : Nat} {x : Lane} (hx : tfind k t = some x) (hk : near k = true) (hm : x.moved = false) :
    t.any (fun e => near e.1 && !e.2.moved) = true :=
  List.any_eq_true.mpr ⟨(k, x), mem_of_tfind hx, by rw [hk, hm]; rfl⟩

theorem keyExpiry_darkens {s : State} {lane : Nat} {l : Lane} (hl : tfind lane s.m.fab.tx = some l) (hlt : lane < 4096) (hh : l.hold = true)
    (hleft : ∃ k x, tfind k (tdel lane s.m.fab.tx) = some x ∧ k / 8 = lane / 8 ∧ x.moved = false) :
    exec (.keyExpiry lane) s = .next { s with m.fab.tx := tdel lane s.m.fab.tx } := by
  obtain ⟨k, x, hx, hk, hm⟩ := hleft
  refine next_of_lift (keyExpiryG lane) rfl ?_
  have hany := anyLeft (near := fun j => j / 8 == lane / 8) hx (beq_iff_eq.mpr hk) hm
  simp only [keyExpiryG, hl, hh, if_neg (Nat.not_le.mpr hlt), Bool.not_true, Bool.false_eq_true, if_false]
  exact if_pos hany

theorem keyExpiry_moves {s : State} {lane : Nat} {l : Lane} (hl : tfind lane s.m.fab.tx = some l) (hge : 4096 ≤ lane) (hh : l.hold = true)
    (hleft : ∃ k x, tfind k s.m.fab.tx = some x ∧ k ≠ lane ∧ 4096 ≤ k ∧ x.moved = false) :
    exec (.keyExpiry lane) s = .next { s with m.fab.tx := tset lane { l with moved := true } s.m.fab.tx } := by
  obtain ⟨k, x, hx, hne, hk, hm⟩ := hleft
  refine next_of_lift (keyExpiryG lane) rfl ?_
  have hx' : tfind k (tset lane { l with moved := true } s.m.fab.tx) = some x := (tfind_tset_other _ _ _ _ hne).trans hx
  have hany := anyLeft (near := fun j => decide (4096 ≤ j)) hx' (decide_eq_true hk) hm
  have hheld : (!l.hold) = false := by rw [hh]; rfl
  simp only [keyExpiryG, hl, hheld, if_pos hge, Bool.false_eq_true, if_false]
  exact if_pos hany

theorem countFlit_counts {m : Mach} {p line k : Nat} {l : Lane} (hk : laneFor m p line = some k) (hl : tfind k m.fab.tx = some l) :
    countFlit m p line = { m with
      fab.tx := tset k ({ l with nonce := nonce (laneId m k) l, ctr := l.ctr + 1, low := l.low || decide (2 ^ 48 - 2 ^ 32 ≤ l.ctr + 1) }) m.fab.tx } := by
  have hlow : decide (2 ^ 48 ≤ l.ctr + 1 + 2 ^ 32) = decide (2 ^ 48 - 2 ^ 32 ≤ l.ctr + 1) := decide_eq_decide.mpr (by omega)
  simp only [countFlit, hk, hl, hlow]

theorem lineHeld_iff {m : Mach} {p line k : Nat} {l : Lane} (hk : laneFor m p line = some k) (hl : tfind k m.fab.tx = some l)
    (hp : p ≠ m.host.peer) : lineHeld m p line = true ↔ l.hold = true ∨ 2 ^ 48 - 1 ≤ l.ctr := by
  have hsome : (laneFor m p line).bind (fun k => tfind k m.fab.tx) = some l := by rw [hk]; exact hl
  have hne : (p != m.host.peer) = true := bne_iff_ne.mpr hp
  simp only [lineHeld, hsome, hne, Bool.true_and, laneRefuses, Bool.or_eq_true, decide_eq_true_eq]

/-- A line goes by a lit lane that is no other package's: the package's own in the paddock, a gate lane beyond it. -/
theorem laneFor_spec {m : Mach} {p line k : Nat} (h : laneFor m p line = some k) : ∃ l, (k, l) ∈ m.fab.tx ∧ l.notice = false ∧ l.moved = false
    ∧ (p / 64 = m.host.peer / 64 → k / 8 = p) ∧ (p / 64 ≠ m.host.peer / 64 → 4096 ≤ k) := by
  have hmem : k ∈ lanesTo m p := by
    unfold laneFor at h
    dsimp only at h
    split at h
    · rename_i hgate
      obtain rfl := Option.some.inj h
      simpa using (Bool.and_eq_true_iff.mp hgate).2
    · exact List.mem_of_getElem? h
  obtain ⟨⟨k', l⟩, he, rfl⟩ := List.mem_map.mp hmem
  obtain ⟨htx, hgood⟩ := List.mem_filter.mp he
  simp only [Bool.and_eq_true, Bool.not_eq_true'] at hgood
  obtain ⟨⟨hway, hnotice⟩, hmoved⟩ := hgood
  refine ⟨l, htx, hnotice, hmoved, fun hin => ?_, fun hout => ?_⟩
  · have hv : viaGate m p = false := by simp [viaGate, hin]
    simpa [hv] using hway
  · have hv : viaGate m p = true := by simp [viaGate, hout]
    simpa [hv] using hway

theorem toNat_nonce {id : Nat} {l : Lane} (hid : id < 2 ^ 48) (hctr : l.ctr < 2 ^ 48) : (nonce id l).toNat = id * 2 ^ 48 + l.ctr := by
  rw [nonce, BitVec.toNat_ofNat, Nat.mod_eq_of_lt hid, Nat.mod_eq_of_lt hctr, Nat.mod_eq_of_lt (by omega)]

/-- The id of a transmit lane of the paddock names that lane. -/
theorem laneOfId_laneId {m : Mach} {key : Nat} (hown : m.host.peer < 512) (hkey : key < 4096) (hpad : key / 8 / 64 = m.host.peer / 64)
    (hne : key / 8 ≠ m.host.peer) (hlit : thas key m.fab.tx = true) : laneOfId m false (laneId m key) = some key := by
  generalize hi : (key / 8 % 64 + 72 - m.host.peer % 64) % 72 = i
  have hid : laneId m key = m.host.peer * 2 ^ 39 + key / 8 * 2 ^ 30 + key % 8 * 2 ^ 27 + i * 2 ^ 20 := by
    simp only [laneId, if_neg (Nat.not_le.mpr hkey), hi]
  have hi72 : i < 72 := hi ▸ Nat.mod_lt _ (by decide)
  have hsrc : bits (laneId m key) 39 9 = m.host.peer := by rw [bits_eq_div_mod]; omega
  have hdst : bits (laneId m key) 30 9 = key / 8 := by rw [bits_eq_div_mod]; omega
  have hlane : bits (laneId m key) 27 3 = key % 8 := by rw [bits_eq_div_mod]; omega
  have hturn : bits (laneId m key) 20 7 = i := by rw [bits_eq_div_mod]; omega
  have hlow : bits (laneId m key) 0 20 = 0 := by rw [bits_eq_div_mod]; omega
  have hport : (m.host.peer % 64 + i) % 72 = key / 8 % 64 := by omega
  have hpeer : m.host.peer / 64 * 64 + key / 8 % 64 = key / 8 := by omega
  have hkeyOf : key / 8 * 8 + key % 8 = key := by omega
  have hbad : ¬ (2 ^ 48 ≤ laneId m key ∨ 72 ≤ i ∨ i = 0) := by omega
  obtain ⟨hsmall, hi'⟩ := not_or.mp hbad
  have hin : key / 8 % 64 < 64 := Nat.mod_lt _ (by decide)
  simp only [laneOfId, hsrc, hdst, hlane, hturn, hlow, hport, hpeer, hkeyOf, hin, hlit, hsmall, if_true, Bool.false_eq_true, if_false,
    ne_eq, not_true_eq_false, or_false, false_or, if_neg hi']

/-! ## KEYI (R399-R401) -/

section Keyi
variable {s : State} {f : BitF} {u w : Nat} {d a b : Opd}

theorem exec_keyi (h : sStarts s.m u w [a, b] [d] = true) (hu : isShepherd u = true) : let m := readDone s.m [a, b] [d]
    (quotaLink m (pastOfActor m (.unit u w)) = true → exec (.keyi f d a b) s = .next { s with m := addReq m (mkReq m (dstOf m d false)
      (.keyi (payOf s.m .whole b % 2 ^ 48 + if f.bit then 2 ^ 48 else 0) (payOf s.m .whole a % 2 ^ 56)) 5 false false) })
    ∧ (quotaLink m (pastOfActor m (.unit u w)) = false → exec (.keyi f d a b) s = .next { s with m := trapForm m u w 0x03 0 }) := by
  intro m
  refine ⟨fun hq => ?_, fun hq => ?_⟩
  · refine exec_sFire_eq (i := .keyi f d a b) rfl h ((if_neg ?_).trans ?_)
    · rw [hu, hq]
      exact Bool.false_ne_true
    · rw [← bits_zero_eq_mod, ← bits_zero_eq_mod]
      rfl
  · refine exec_sFire_eq (i := .keyi f d a b) rfl h (if_pos ?_)
    rw [hq, Bool.not_false, Bool.or_true]

end Keyi

section KeyRead
variable {s : State} {id lane va : Nat} {r : Req} (hr : reqOf s.m id = some r) (hop : r.op = .keyi lane va) (hmay : mayPerform s.m r = true)
include hr hop hmay

theorem exec_loadResult_keyi (ans : Answer) : exec (.loadResult id ans) s = .next { s with m := keyiDo s.m r lane va ans } := by
  refine next_of_lift (loadResultAny id ans) rfl ?_
  simp only [loadResultAny, hr, hop, hmay, if_true]

theorem keyiRead_performs {ls : List Loc} (hv : virtR s.m r va 32 .rd = .ok ls) (hf : faultR s.m r false ls = none) :
    exec (.loadResult id .perform) s = .next { s with m := keyiEnd s.m r lane va ls } := by
  rw [exec_loadResult_keyi hr hop hmay]
  simp only [keyiDo, hv, hf]

theorem keyiRead_fails {ls : List Loc} (hv : virtR s.m r va 32 .rd = .ok ls) (hf : faultR s.m r false ls = none) {c : BitVec 8}
    {d : BitVec 81} (hc : c ≠ 0) (hok : failOk r ls c.toNat d.toNat = true) : exec (.loadResult id (.fail c d)) s =
      .next { s with m := failReq (markBad s.m ls c.toNat d.toNat) r c.toNat d.toNat ls } := by
  rw [exec_loadResult_keyi hr hop hmay]
  simp only [keyiDo, hv, hf, if_neg hc, hok, if_true]

theorem keyiRead_untranslated {x : Nat × Nat} (hv : virtR s.m r va 32 .rd = .error x) (ans : Answer) :
    exec (.loadResult id ans) s = .next { s with m := failReq s.m r x.1 x.2 [] } := by
  rw [exec_loadResult_keyi hr hop hmay]
  simp only [keyiDo, hv]

end KeyRead

/-- The machine's lanes are lit as another's are. -/
def LitAs (m t : Mach) : Prop := t.host.peer = m.host.peer ∧ t.fab.rx = m.fab.rx ∧ ∀ k, thas k t.fab.tx = thas k m.fab.tx

theorem thas_tset_listed {V : Type} {k : Nat} {t : Tbl V} (h : (tfind k t).isSome = true) (v : V) (j : Nat) : thas j (tset k v t) = thas j t := by
  by_cases hj : j = k
  · rw [thas, thas, hj, tfind_tset_same, h]
    rfl
  · rw [thas, thas, tfind_tset_other _ _ _ _ hj]

theorem countFlit_litAs (m : Mach) (p line : Nat) : LitAs m (countFlit m p line) := by
  unfold countFlit
  split
  · exact ⟨rfl, rfl, fun _ => rfl⟩
  · split
    case h_1 hl => exact ⟨rfl, rfl, thas_tset_listed (by rw [hl]; rfl) _⟩
    case h_2 => exact ⟨rfl, rfl, fun _ => rfl⟩

theorem countAt_litAs (m : Mach) (r : Req) (va : Nat) : LitAs m (countAt m r va) := by
  unfold countAt
  split
  · split
    · dsimp only
      split <;> exact ⟨rfl, rfl, fun _ => rfl⟩
    · exact ⟨rfl, rfl, fun _ => rfl⟩
  · exact ⟨rfl, rfl, fun _ => rfl⟩

theorem foldl_litAs {α : Type} {f : Mach → α → Mach} (hf : ∀ m a, LitAs m (f m a)) (l : List α) : ∀ m, LitAs m (l.foldl f m) := by
  induction l with
  | nil => exact fun m => ⟨rfl, rfl, fun _ => rfl⟩
  | cons a l ih =>
    intro m
    obtain ⟨hpeer, hrx, htx⟩ := hf m a
    obtain ⟨hpeer', hrx', htx'⟩ := ih (f m a)
    exact ⟨hpeer'.trans hpeer, hrx'.trans hrx, fun k => (htx' k).trans (htx k)⟩

/-- The counting of an access lights no lane and darkens none. -/
theorem countMove_litAs (m : Mach) (r : Req) : LitAs m (countMove m r) := by
  obtain ⟨hpeer, hrx, htx⟩ : LitAs m (sendFlits m r (reqLocs m r)) :=
    foldl_litAs (f := fun m (x : Nat × Nat) => countFlit m x.1 x.2) (fun m x => countFlit_litAs m x.1 x.2) _ m
  obtain ⟨hpeer', hrx', htx'⟩ := foldl_litAs (f := fun m va => countAt m r va) (fun m va => countAt_litAs m r va)
    (((moveVas m r).map (fun va => va / 65536 * 65536)).eraseDups) (sendFlits m r (reqLocs m r))
  exact ⟨hpeer'.trans hpeer, hrx'.trans hrx, fun k => (htx' k).trans (htx k)⟩

theorem laneOfId_litAs {m t : Mach} (h : LitAs m t) (rx : Bool) (id : Nat) : laneOfId t rx id = laneOfId m rx id := by
  obtain ⟨hpeer, hrx, htx⟩ := h
  cases rx
  · simp only [laneOfId, hpeer, htx, Bool.false_eq_true, if_false]
  · simp only [laneOfId, hpeer, hrx, if_true]

theorem keyiEnd_local {m : Mach} {ls : List Loc} (r : Req) (lane va : Nat) (hlen : ls.length = 32) (hloc : ∀ l ∈ ls, isOutside l = false) :
    let m1 := countMove { m with free := m.free + 1 } r
    let rx := decide (2 ^ 48 ≤ lane)
    (∀ k, laneOfId m1 rx (lane % 2 ^ 48) = some k →
      keyiEnd m r lane va ls = finish (installKey m1 rx k (BitVec.ofNat 256 (natOf (ls.map (locByte m))))) r.id 0)
    ∧ (laneOfId m1 rx (lane % 2 ^ 48) = none → keyiEnd m r lane va ls = finish m1 r.id (2 ^ 63 + 1)) := by
  intro m1 rx
  have hbytes : (upto 32).map (fun i => match (ls[i]? : Option Loc) with
      | some l => if isOutside l then Config.outsideByte m.free (va + i) else locByte m l
      | none => 0) = ls.map (locByte m) := by
    refine List.ext_getElem (by rw [List.length_map, List.length_map, hlen]; exact List.length_range) (fun i h1 h2 => ?_)
    have hi : i < ls.length := by rwa [List.length_map] at h2
    simp only [List.getElem_map, upto, List.getElem_range, List.getElem?_eq_getElem hi]
    exact if_neg (by rw [hloc _ (List.getElem_mem hi)]; exact Bool.false_ne_true)
  have hlane : laneOfId m1 rx (lane % 2 ^ 48) = laneOfId m rx (lane % 2 ^ 48) :=
    laneOfId_litAs (countMove_litAs { m with free := m.free + 1 } r) rx _
  rw [hlane]
  refine ⟨fun k hk => ?_, fun hk => ?_⟩
  · simp only [keyiEnd]
    rw [show laneOfId m (decide (2 ^ 48 ≤ lane)) (lane % 2 ^ 48) = some k from hk]
    exact congrArg (fun bs => finish (installKey m1 rx k (BitVec.ofNat 256 (natOf bs))) r.id 0) hbytes
  · simp only [keyiEnd]
    rw [show laneOfId m (decide (2 ^ 48 ≤ lane)) (lane % 2 ^ 48) = none from hk]
    rfl

theorem installKey_installs (m : Mach) (key : Nat) (v : BitVec 256) (l : Lane) :
    (tfind key m.fab.tx = some l → tfind key (installKey m false key v).fab.tx =
        some { l with key := v, phase := !l.phase, ctr := 0, hold := false, low := false, moved := false })
    ∧ (tfind key m.fab.rx = some l → tfind key (installKey m true key v).fab.rx = some { l with newKey := some v }) := by
  refine ⟨fun hl => ?_, fun hl => ?_⟩
  · simp only [installKey, hl, Bool.false_eq_true, if_false, tfind_tset_same]
  · simp only [installKey, hl, if_true, tfind_tset_same]

/-! ## Flits that come (R39, R399, R401) -/

/-- A lane that has taken a flit is not as it was. -/
theorem tset_ne_of_came {k : Nat} {l v : Lane} {t : Tbl Lane} (hl : tfind k t = some l) (hv : v.came ≠ l.came) : tset k v t ≠ t := by
  intro he
  have : some v = some l := (tfind_tset_same k v t).symm.trans ((congrArg (tfind k) he).trans hl)
  exact hv (congrArg Lane.came (Option.some.inj this))

theorem toryrFlitReceiveG_cases (m : Mach) (lane : Nat) (ok phase : Bool) :
    toryrFlitReceiveG lane ok phase m = m ∨ ∃ rx, toryrFlitReceiveG lane ok phase m = { m with fab.rx := rx } := by
  unfold toryrFlitReceiveG
  split
  · exact .inl rfl
  · split
    · exact .inl rfl
    · split
      · exact .inr ⟨_, rfl⟩
      · split
        · exact .inl rfl
        · exact .inr ⟨_, rfl⟩

theorem toryrFlitReceiveG_samePhase {m : Mach} {lane : Nat} {l : Lane} (hl : tfind lane m.fab.rx = some l) :
    toryrFlitReceiveG (8192 + lane) true l.phase m =
      { m with fab.rx := tset lane { l with ctr := min (l.ctr + 1) (2 ^ 48 - 1), came := l.came + 1 } m.fab.rx } := by
  have hlane : 8192 + lane - 8192 = lane := Nat.add_sub_cancel_left ..
  have hgood : ¬ (8192 + lane < 8192 ∨ (!true) = true) := by simp
  simp only [toryrFlitReceiveG, hlane, hl, if_neg hgood, beq_self_eq_true, if_true]

/-- The first flit of a new phase makes the new key the lane's. -/
theorem toryrFlitReceiveG_newPhase {m : Mach} {lane : Nat} {l : Lane} {k : BitVec 256} (hl : tfind lane m.fab.rx = some l)
    (hk : l.newKey = some k) : toryrFlitReceiveG (8192 + lane) true (!l.phase) m =
      { m with fab.rx := tset lane { l with key := k, newKey := none, phase := !l.phase, ctr := 1, came := l.came + 1 } m.fab.rx } := by
  have hlane : 8192 + lane - 8192 = lane := Nat.add_sub_cancel_left ..
  have hgood : ¬ (8192 + lane < 8192 ∨ (!true) = true) := by simp
  have hphase : ((!l.phase) == l.phase) = false := by cases l.phase <;> rfl
  simp only [toryrFlitReceiveG, hlane, hl, if_neg hgood, hphase, hk, Bool.false_eq_true, if_false]

section Flit
variable {s : State} {lane : Nat} {l : Lane} (hl : tfind lane s.m.fab.rx = some l)
include hl

/-- A flit that changes its lane and for which the port has a credit comes in. -/
theorem toryrFlitReceive_enters {phase : Bool} {v : Lane} (hg : toryrFlitReceiveG (8192 + lane) true phase s.m =
      { s.m with fab.rx := tset lane v s.m.fab.rx }) (hv : v.came ≠ l.came) (hlevel : (bucketOf s (10000 + lane)).level ≠ 0)
    (hpaid : tfind (2 ^ 64) s.pow.paid = none) : ∃ t, exec (.toryrFlitReceive (8192 + lane) true phase) s = .next t
      ∧ tfind lane t.m.fab.rx = some v ∧ (bucketOf t (10000 + lane)).level + 1 = (bucketOf s (10000 + lane)).level := by
  have hmoves : ((toryrFlitReceiveG (8192 + lane) true phase s.m).fab.rx != s.m.fab.rx) = true := by
    rw [hg]
    exact bne_iff_ne.mpr (tset_ne_of_came hl hv)
  have hport : 10000 + (8192 + lane - 8192) = 10000 + lane := by omega
  have hdue : tget 0 (2 ^ 64) s.pow.paid = 0 := by rw [tget, hpaid]; rfl
  refine ⟨_, congrArg Host.Outcome.next (enterFabric_moves (moves := fun m m1 => m1.fab.rx != m.fab.rx) hmoves), ?_⟩
  rw [hdue, hport, if_neg (by omega), hg]
  refine ⟨tfind_tset_same .., ?_⟩
  show (tget Bucket.reset _ (tput Bucket.reset _ _ _)).level + 1 = _
  rw [tget_tput_same]
  show (bucketOf s (10000 + lane)).level - 1 + 1 = _
  omega

end Flit

theorem toryrFlitReceive_waits {s : State} {lane : Nat} (hlevel : (bucketOf s (10000 + lane)).level = 0)
    (hpaid : tfind (2 ^ 64) s.pow.paid = none) (ok phase : Bool) : ∃ t, exec (.toryrFlitReceive (8192 + lane) ok phase) s = .next t ∧ t.m = s.m := by
  refine ⟨_, rfl, ?_⟩
  have hport : 10000 + (8192 + lane - 8192) = 10000 + lane := by omega
  have hdue : tget 0 (2 ^ 64) s.pow.paid = 0 := by rw [tget, hpaid]; rfl
  by_cases hmoves : ((toryrFlitReceiveG (8192 + lane) ok phase s.m).fab.rx != s.m.fab.rx) = true
  · rw [enterFabric_moves (moves := fun m m1 => m1.fab.rx != m.fab.rx) hmoves, hdue, hport, if_pos (by rw [hlevel]; decide)]
    rfl
  · have hsame : toryrFlitReceiveG (8192 + lane) ok phase s.m = s.m := by
      rcases toryrFlitReceiveG_cases s.m (8192 + lane) ok phase with h | ⟨rx, h⟩
      · exact h
      · have hrx : rx = s.m.fab.rx := by rw [h] at hmoves; simpa using hmoves
        rw [h, hrx]
    rw [enterFabric, hsame]
    simp

theorem toryrFlitReceive_discards {s : State} (lane : Nat) (phase : Bool) : exec (.toryrFlitReceive (8192 + lane) false phase) s = .next s := by
  have hsame : toryrFlitReceiveG (8192 + lane) false phase s.m = s.m := by
    unfold toryrFlitReceiveG
    split
    · rfl
    · exact if_pos (.inr rfl)
  show Host.Outcome.next (enterFabric _ _ _ _ _ s) = _
  rw [enterFabric, hsame]
  simp

/-- Settles O52: each event by its lemma; the count of lit lanes by the table that they join. -/
theorem laneEvents : Obligations.LaneEvents := by
  unfold Obligations.LaneEvents
  refine ⟨fun s c => leaseService_held c, ?_, fun m x r => leaseHead_spec, fun m p x ks hnodup h => lightTx_lights hnodup h, ?_,
    fun s src n plane prio => leaseService_refuses prio, fun s q hp hq hw => leaseService_theirs hp hq hw, fun s => leaseService_idle,
    fun m q hq => mem_of_marked_or_head hq, fun s => leaseService_keepsPlanes, fun s src hp => exec_leaseService (.denied src) hp, ?_,
    fun s k l id => noticeEnd_receive, ?_, fun s id r x n k y => leaseDenial_denies, ?_, fun s lane l => noticeEnd_transmit, ?_,
    fun s lane l => keyHold_holds, fun s lane l => keyExpiry_darkens, fun s lane l => keyExpiry_moves, ?_, fun m p line k => laneFor_spec,
    fun id l => toNat_nonce, fun f s u w d a b h hu => (exec_keyi h hu).1, ?_, fun s id r lane va x ans hr hop hmay hv =>
      keyiRead_untranslated hr hop hmay hv ans, fun m r lane va ls => keyiEnd_local r lane va,
    fun f s u w d a b h hu => (exec_keyi h hu).2, installKey_installs, fun m key => laneOfId_laneId, ?_, ?_,
    fun s lane l _ hlevel hpaid ok phase => toryrFlitReceive_waits hlevel hpaid ok phase, fun s lane phase => toryrFlitReceive_discards lane phase⟩
  · intro s x r n y hp hr hop m ks
    rw [exec_leaseService _ hp]
    exact congrArg (fun m => Host.Outcome.next { s with m := m }) (serveOurs_grants hr hop)
  · intro s src n plane prio hp hsrc h0 h8 hplane
    rw [exec_leaseService _ hp]
    exact congrArg (fun m => Host.Outcome.next { s with m := m }) (joinQueue_joins prio hsrc h0 h8 hplane)
  · intro s src k hp hk hsrc
    rw [exec_leaseService _ hp]
    exact congrArg (fun m => Host.Outcome.next { s with m := m }) (if_neg (show ¬ (512 ≤ src ∨ 8 ≤ k) by omega))
  · intro m key m1
    refine ⟨rfl, rfl, rfl, endRx_other, fun l id r hl hid hr => ?_⟩
    rw [endRx_revoked hl hid hr]
    have hany : (m1.fab.rx.any (fun e => e.2.revoking == some id)) = true ↔ ∃ e ∈ m1.fab.rx, e.2.revoking = some id := by
      simp only [List.any_eq_true, beq_iff_eq]
    refine ⟨fun hsome => if_pos (hany.mpr hsome), fun hnone => if_neg (fun h => ?_)⟩
    obtain ⟨e, he, hrev⟩ := hany.mp h
    exact hnone e he hrev
  · intro s lane l hl hlt hfloor
    exact ⟨_, revocationNotice_marks hl hlt hfloor, tfind_tset_same .., fun k hk => tfind_tset_other _ _ _ _ hk⟩
  · intro s lane l hl
    exact ⟨_, keyLow_marks hl, tfind_tset_same .., rfl⟩
  · intro m p line k l hk hl
    rw [countFlit_counts hk hl]
    exact ⟨tfind_tset_same .., fun j hj => tfind_tset_other _ _ _ _ hj, lineHeld_iff hk hl⟩
  · intro s id r lane va ls hr hop hmay hv hf
    exact ⟨keyiRead_performs hr hop hmay hv hf, fun c d hc hok => keyiRead_fails hr hop hmay hv hf hc hok⟩
  · intro s lane l k hl hk hlevel hpaid
    exact toryrFlitReceive_enters hl (toryrFlitReceiveG_newPhase hl hk) (Nat.succ_ne_self _) hlevel hpaid
  · intro s lane l hl hlevel hpaid
    obtain ⟨t, he, hlane, -⟩ := toryrFlitReceive_enters hl (toryrFlitReceiveG_samePhase hl) (Nat.succ_ne_self _) hlevel hpaid
    exact ⟨t, he, hlane⟩

end Sys2Proof.Machine

/-! PROOFS. LEASE, LMOVE, LREL, LQRY and PEERQ (R391-R394, R408). -/
namespace Sys2Proof.Machine

/-! ## The common start -/

/-- An effect is asked only of the machine whose sources have been read. -/
theorem after_congr {s : State} {os ds : List Opd} {f g : Mach → Mach} (h : f (readDone s.m os ds) = g (readDone s.m os ds)) :
    after s os ds f = after s os ds g :=
  congrArg (fun m => { s with m := m }) h

/-- A field of a 64-bit operand is a field of what it holds. -/
theorem bits_mod_word (v : Nat) {n : Nat} (h : n ≤ 64) : bits (v % 2 ^ 64) 0 n = v % 2 ^ n := by
  rw [bits_zero_eq_mod, Nat.mod_mod_of_dvd v (Nat.pow_dvd_pow 2 h)]

theorem exec_laneStart {i : Instr} {s : State} {a : Opd} {os : List Opd} {d : Opd} {eff : Nat → Nat → Nat → Mach → Mach}
    (hi : exec i s = lift (laneStart (a :: os) d eff) s) (h : memStarts s.m (a :: os) [d] [] = true) :
    exec i s = .next (after s (a :: os) [d] (fun m => eff (pastOfActor m m.cur) (payOf s.m .whole a % 2 ^ 64)
      (natAt ((a :: os).map (srcVal s.m .whole)) 1 % 2 ^ 64) m)) :=
  exec_memStart hi h

/-! ## The order of the answers (R392, R394) -/

section Answers
variable {α : Type} {m : Mach} {p : Nat} {answer : Nat → α} {els : α}

/-- An instruction that asks nothing but its peer's code answers it, in the order FIELD, NOT_PADDOCK and PEER_FAILED. -/
theorem answer_peerCode {peers : List Nat} {ok failed : Bool} {A B C : Prop} [Decidable A] [Decidable B] [Decidable C]
    (hA : (!ok || !peers.all (inUse m)) = true ↔ A) (hB : (!peers.all (inPaddock m)) = true ↔ B)
    (hC : (failed && peers.any (peerFailed m p)) = true ↔ C) :
    (if peerCode m p peers ok failed ≠ 0 then answer (peerCode m p peers ok failed) else els) =
      if A then answer 1 else if B then answer 3 else if C then answer 6 else els := by
  have hcode : peerCode m p peers ok failed = if A then 1 else if B then 3 else if C then 6 else 0 := by
    simp only [peerCode, hA, hB, hC]
  rw [hcode]
  by_cases a : A
  · simp [a]
  · by_cases b : B
    · simp [a, b]
    · by_cases c : C <;> simp [a, b, c]

/-- The instructions with one peer and a count. -/
theorem answer_counted (x n : Nat) : (if peerCode m p [x] (decide (1 ≤ n)) true ≠ 0 then answer (peerCode m p [x] (decide (1 ≤ n)) true) else els) =
    if n = 0 ∨ inUse m x = false then answer 1 else if inPaddock m x = false then answer 3
    else if peerFailed m p x = true then answer 6 else els := by
  refine answer_peerCode ?_ ?_ ?_
  · simp
  · simp
  · simp

theorem answer_pair (x y : Nat) : (if peerCode m p [x, y] true true ≠ 0 then answer (peerCode m p [x, y] true true) else els) =
    if inUse m x = false ∨ inUse m y = false then answer 1 else if inPaddock m x = false ∨ inPaddock m y = false then answer 3
    else if peerFailed m p x = true ∨ peerFailed m p y = true then answer 6 else els := by
  refine answer_peerCode ?_ ?_ ?_
  · simp [← Bool.not_eq_true]
  · simp [← Bool.not_eq_true]
  · simp

/-- LQRY reads the lanes to a failed peer. -/
theorem answer_query (x : Nat) : (if peerCode m p [x] true false ≠ 0 then answer (peerCode m p [x] true false) else els) =
    if inUse m x = false then answer 1 else if inPaddock m x = false then answer 3 else els := by
  refine (answer_peerCode (A := inUse m x = false) (B := inPaddock m x = false) (C := False) ?_ ?_ ?_).trans ?_
  · simp
  · simp
  · simp
  · rw [if_neg not_false]

end Answers

/-- The quotas are asked after the peer's code. -/
theorem answer_codeThen {α : Type} {answer : Nat → α} {els : α} (c k : Nat) (hk : k ≠ 0) (Q : Prop) [Decidable Q] :
    (let c1 := if c != 0 then c else if Q then k else 0
    if c1 ≠ 0 then answer c1 else els) = if c ≠ 0 then answer c else if Q then answer k else els := by
  by_cases hc : c = 0
  · by_cases hq : Q
    · simp [hc, hq, hk]
    · simp [hc, hq]
  · simp [hc]

/-! ## LEASE and LMOVE -/

theorem exec_lease {s : State} {d a b : Opd} (h : memStarts s.m [a, b] [d] [] = true) : exec (.lease d a b) s = .next (after s [a, b] [d] (fun m =>
    let p := pastOfActor m m.cur
    let x := payOf s.m .whole a % 2 ^ 64
    let n := payOf s.m .whole b % 2 ^ 3
    let answer := fun c => resultNow m (dstOf m d false) .tile (tokNat (2 ^ 63 + c))
    if n = 0 ∨ inUse m x = false then answer 1
    else if inPaddock m x = false then answer 3
    else if peerFailed m p x = true then answer 6
    else if quotaPeer m p < heldTo m p x + n ∨ quotaTotal m p < heldAll m p + n then answer 2
    else queueLease m d x n none m.host.peer)) := by
  refine (exec_laneStart (i := .lease d a b) rfl h).trans (congrArg Host.Outcome.next (after_congr ?_))
  dsimp only
  rw [show natAt ([a, b].map (srcVal s.m .whole)) 1 = payOf s.m .whole b from rfl, bits_mod_word _ (by decide)]
  generalize readDone s.m [a, b] [d] = m
  generalize payOf s.m .whole b % 2 ^ 3 = n
  generalize payOf s.m .whole a % 2 ^ 64 = x
  exact (answer_codeThen (answer := fun c => resultNow m (dstOf m d false) .tile (tokNat (2 ^ 63 + c))) _ 2 (by decide) _).trans
    (answer_counted (answer := fun c => resultNow m (dstOf m d false) .tile (tokNat (2 ^ 63 + c))) x n)

/-- Whether a pasture holds a lane, by the lane's holder. -/
theorem holds_eq (o : Option Lane) (p : Nat) :
    (!(match o with | some l => l.holder == some p | none => false)) = decide (o.map (·.holder) ≠ some (some p)) := by
  cases o with
  | none => simp
  | some l => by_cases h : l.holder = some p <;> simp [h]

theorem addsHolding_eq (o : Option Lane) :
    (match o with | some l => if l.holder.isNone then 1 else 0 | none => 0) = if o.map (·.holder) = some none then 1 else 0 := by
  cases o with
  | none => rfl
  | some l => simp

theorem head_choice {α : Type} {answer : Nat → α} (ks all : List Nat) (move : Nat → α) :
    (match ks.head? with | none => if all.isEmpty then answer 5 else answer 2 | some k => move k) =
      match ks with | [] => answer (if all = [] then 5 else 2) | k :: _ => move k := by
  cases ks with
  | cons k ks => rfl
  | nil => cases all <;> rfl

theorem exec_lmove {s : State} {d a b : Opd} (h : memStarts s.m [a, b] [d] [] = true) : exec (.lmove d a b) s = .next (after s [a, b] [d] (fun m =>
    let p := pastOfActor m m.cur
    let x := payOf s.m .whole a % 2 ^ 64
    let y := payOf s.m .whole b % 2 ^ 9
    let answer := fun c => resultNow m (dstOf m d false) .tile (tokNat (2 ^ 63 + c))
    let fits := fun take => planesDown.filter (fun k => mayRelease m p take x k
      && decide ((tfind (y * 8 + k) m.fab.tx).map (·.holder) ≠ some (some p)) && bitAt (Config.freeSlot m.free) k)
    if inUse m x = false ∨ inUse m y = false then answer 1
    else if inPaddock m x = false ∨ inPaddock m y = false then answer 3
    else if peerFailed m p x = true ∨ peerFailed m p y = true then answer 6
    else if quotaPeer m p ≤ heldTo m p y then answer 2
    else match fits (quotaTake m p) with
      | [] => answer (if fits true = [] then 5 else 2)
      | k :: _ =>
        let adds := if (tfind (x * 8 + k) m.fab.tx).map (·.holder) = some none then 1 else 0
        if quotaTotal m p < heldAll m p + adds then answer 2 else queueLease { m with free := m.free + 1 } d y 1 (some k) x)) := by
  refine (exec_laneStart (i := .lmove d a b) rfl h).trans (congrArg Host.Outcome.next (after_congr ?_))
  dsimp only
  rw [show natAt ([a, b].map (srcVal s.m .whole)) 1 = payOf s.m .whole b from rfl, bits_mod_word _ (by decide)]
  generalize readDone s.m [a, b] [d] = m
  generalize payOf s.m .whole b % 2 ^ 9 = y
  generalize payOf s.m .whole a % 2 ^ 64 = x
  generalize pastOfActor m m.cur = p
  simp only [← holds_eq, ← addsHolding_eq]
  refine (answer_pair (answer := fun v => resultNow m (dstOf m d false) .tile (tokNat (failW v))) x y).trans ?_
  refine if_congr Iff.rfl rfl (if_congr Iff.rfl rfl (if_congr Iff.rfl rfl (if_congr Nat.lt_succ_iff rfl ?_)))
  exact head_choice (answer := fun v => resultNow m (dstOf m d false) .tile (tokNat (failW v))) _ _ _

/-! ## LREL -/

/-- The lanes `ks` of a package are revoked by the request that is made next. -/
def revokeRx (m : Mach) (x : Nat) (ks : List Nat) : Mach :=
  ks.foldl (fun m k => match tfind (x * 8 + k) m.fab.rx with
    | some l => { m with fab.rx := tset (x * 8 + k) { l with revoking := some m.ids } m.fab.rx }
    | none => m) m

theorem revokeRx_cons (m : Mach) (x k : Nat) (ks : List Nat) : revokeRx m x (k :: ks) =
    revokeRx (match tfind (x * 8 + k) m.fab.rx with
      | some l => { m with fab.rx := tset (x * 8 + k) { l with revoking := some m.ids } m.fab.rx }
      | none => m) x ks := rfl

/-- Nothing but the receive lanes changes, and of these nothing but who revokes those of `ks`. -/
theorem revokeRx_spec {x : Nat} (ks : List Nat) : ∀ m, (∃ rx, revokeRx m x ks = { m with fab.rx := rx })
    ∧ ∀ j, (tfind (x * 8 + j) (revokeRx m x ks).fab.rx).map (·.revoking) =
      if j ∈ ks then (tfind (x * 8 + j) m.fab.rx).map (fun _ => some m.ids) else (tfind (x * 8 + j) m.fab.rx).map (·.revoking) := by
  induction ks with
  | nil => exact fun m => ⟨⟨m.fab.rx, rfl⟩, fun j => (if_neg List.not_mem_nil).symm⟩
  | cons k ks ih =>
    intro m
    rw [revokeRx_cons]
    cases hl : tfind (x * 8 + k) m.fab.rx with
    | none =>
      obtain ⟨hm, hrev⟩ := ih m
      refine ⟨hm, fun j => (hrev j).trans ?_⟩
      by_cases hj : j = k
      · rw [hj, hl, Option.map_none, Option.map_none, ite_self, ite_self]
      · simp only [List.mem_cons, hj, false_or]
    | some l =>
      obtain ⟨⟨rx, hm⟩, hrev⟩ := ih { m with fab.rx := tset (x * 8 + k) { l with revoking := some m.ids } m.fab.rx }
      refine ⟨⟨rx, hm⟩, fun j => (hrev j).trans ?_⟩
      by_cases hj : j = k
      · subst hj
        rw [if_pos List.mem_cons_self, tfind_tset_same, hl]
        exact ite_self _
      · rw [tfind_tset_other _ _ _ _ (by omega)]
        simp only [List.mem_cons, hj, false_or]

/-- LREL without `.rx`. -/
theorem exec_lrel_tx {s : State} {d a b : Opd} {f : BitF} (hf : f.bit = false) (h : memStarts s.m [a, b] [d] [] = true) :
    exec (.lrel f d a b) s = .next (after s [a, b] [d] (fun m =>
    let p := pastOfActor m m.cur
    let x := payOf s.m .whole a % 2 ^ 64
    let n := payOf s.m .whole b % 2 ^ 3
    let ks := (planesDown.filter (mayRelease m p (quotaTake m p) x)).take n
    let answer := fun m v => resultNow m (dstOf m d false) .tile (tokNat v)
    if n = 0 ∨ inUse m x = false then answer m (2 ^ 63 + 1)
    else if inPaddock m x = false then answer m (2 ^ 63 + 3)
    else if peerFailed m p x = true then answer m (2 ^ 63 + 6)
    else if ks.length < n then answer m (2 ^ 63 + 5)
    else answer (darkTx m x ks) (leaseWord (darkTx m x ks) p x))) := by
  refine (exec_laneStart (i := .lrel f d a b) rfl h).trans (congrArg Host.Outcome.next (after_congr ?_))
  dsimp only
  rw [show natAt ([a, b].map (srcVal s.m .whole)) 1 = payOf s.m .whole b from rfl, bits_mod_word _ (by decide)]
  refine (answer_counted (answer := fun v => resultNow _ _ .tile (tokNat (failW v))) _ _).trans ?_
  exact if_congr Iff.rfl rfl (if_congr Iff.rfl rfl (if_congr Iff.rfl rfl (if_neg (Bool.eq_false_iff.mp hf))))

/-- LREL with `.rx`. -/
theorem exec_lrel_rx {s : State} {d a b : Opd} {f : BitF} (hf : f.bit = true) (h : memStarts s.m [a, b] [d] [] = true) :
    exec (.lrel f d a b) s = .next (after s [a, b] [d] (fun m =>
    let p := pastOfActor m m.cur
    let x := payOf s.m .whole a % 2 ^ 64
    let n := payOf s.m .whole b % 2 ^ 3
    let ks := (planesDown.filter (fun k => match tfind (x * 8 + k) m.fab.rx with
      | some l => k != floorPlane x m.host.peer && l.revoking.isNone
      | none => false)).take n
    let m1 := revokeRx m x ks
    let answer := fun c => resultNow m (dstOf m d false) .tile (tokNat (2 ^ 63 + c))
    if n = 0 ∨ inUse m x = false then answer 1
    else if inPaddock m x = false then answer 3
    else if peerFailed m p x = true then answer 6
    else if quotaRevoke m p = false then answer 2
    else if ks.length < n then answer 5
    else addReq m1 (mkReq m1 (dstOf m1 d false) (.lrel x ks) 5 false false))) := by
  refine (exec_laneStart (i := .lrel f d a b) rfl h).trans (congrArg Host.Outcome.next (after_congr ?_))
  dsimp only
  rw [show natAt ([a, b].map (srcVal s.m .whole)) 1 = payOf s.m .whole b from rfl, bits_mod_word _ (by decide)]
  generalize readDone s.m [a, b] [d] = m
  refine (answer_counted (answer := fun v => resultNow m (dstOf m d false) .tile (tokNat (failW v))) _ _).trans ?_
  have hrev : (!quotaRevoke m (pastOfActor m m.cur)) = true ↔ quotaRevoke m (pastOfActor m m.cur) = false := iff_of_eq (Bool.not_eq_true' _)
  exact if_congr Iff.rfl rfl (if_congr Iff.rfl rfl (if_congr Iff.rfl rfl ((if_pos hf).trans (if_congr hrev rfl rfl))))

/-- What is known of each answer in turn is known of an effect that gives one of them. -/
theorem answers_in_turn {α : Type} {A B C D E : Prop} [Decidable A] [Decidable B] [Decidable C] [Decidable D] [Decidable E] {g : Nat → α} {x : α}
    {P : α → Prop} (hx : P x) :
    let e := if A then g 1 else if B then g 3 else if C then g 6 else if D then g 2 else if E then g 5 else x
    if A then e = g 1 else if B then e = g 3 else if C then e = g 6 else if D then e = g 2 else if E then e = g 5 else P e := by
  by_cases hA : A
  · simp [hA]
  · by_cases hB : B
    · simp [hA, hB]
    · by_cases hC : C
      · simp [hA, hB, hC]
      · by_cases hD : D
        · simp [hA, hB, hC, hD]
        · by_cases hE : E
          · simp [hA, hB, hC, hD, hE]
          · simpa [hA, hB, hC, hD, hE] using hx

theorem tfind_darkTx {x : Nat} (ks : List Nat) : ∀ m k, (∀ j ∈ ks, j < 8) →
    tfind k (darkTx m x ks).fab.tx = if k / 8 = x ∧ k % 8 ∈ ks then none else tfind k m.fab.tx := by
  induction ks with
  | nil => exact fun m k _ => (if_neg (fun h => List.not_mem_nil h.2)).symm
  | cons j ks ih =>
    intro m k hks
    obtain ⟨hj, hrest⟩ := List.forall_mem_cons.mp hks
    refine (ih { m with fab.tx := tdel (x * 8 + j) m.fab.tx } k hrest).trans ?_
    by_cases hk : k = x * 8 + j
    · have hplace : k / 8 = x ∧ k % 8 = j := by omega
      rw [if_pos (⟨hplace.1, List.mem_cons.mpr (.inl hplace.2)⟩ : k / 8 = x ∧ k % 8 ∈ j :: ks), hk, tfind_tdel_same, ite_self]
    · have hplace : k / 8 = x ∧ k % 8 ∈ j :: ks ↔ k / 8 = x ∧ k % 8 ∈ ks := by
        rw [List.mem_cons]
        exact ⟨fun ⟨hx, h⟩ => ⟨hx, h.resolve_left (by omega)⟩, fun ⟨hx, h⟩ => ⟨hx, .inr h⟩⟩
      simp only [hplace, tfind_tdel_other _ _ _ hk]

/-- The machine `t` after an LREL is made in `m` that revokes the lanes `ks` of a package. -/
def Revokes (m : Mach) (x : Nat) (ks : List Nat) (t : Mach) : Prop :=
  (t.mem.reqs.getLast?).map (·.op) = some (.lrel x ks) ∧ t.fab.tx = m.fab.tx
    ∧ ∀ k < 8, (tfind (x * 8 + k) t.fab.rx).map (·.revoking) =
      if k ∈ ks then some (some m.ids) else (tfind (x * 8 + k) m.fab.rx).map (·.revoking)

/-- A lane that may be revoked is lit. -/
theorem lrelRx_revokes {m : Mach} {x n : Nat} {d : Opd} {ks : List Nat}
    (hks : ks = (planesDown.filter (fun k => match tfind (x * 8 + k) m.fab.rx with
      | some l => k != floorPlane x m.host.peer && l.revoking.isNone
      | none => false)).take n) :
    let m1 := revokeRx m x ks
    Revokes m x ks (addReq m1 (mkReq m1 (dstOf m1 d false) (.lrel x ks) 5 false false)) := by
  intro m1
  obtain ⟨⟨rx, hm⟩, hrev⟩ := revokeRx_spec (x := x) ks m
  refine ⟨?_, ?_, fun k _ => (hrev k).trans ?_⟩
  · simp [addReq, mkReq]
  · show m1.fab.tx = _
    rw [show m1 = _ from hm]
  · by_cases hk : k ∈ ks
    · rw [if_pos hk, if_pos hk]
      have hlit := (List.mem_filter.mp (List.mem_of_mem_take (hks ▸ hk))).2
      cases hl : tfind (x * 8 + k) m.fab.rx with
      | some l => rfl
      | none => simp [hl] at hlit
    · rw [if_neg hk, if_neg hk]

/-! ## LQRY and PEERQ -/

theorem exec_lqry {s : State} {d a : Opd} (h : memStarts s.m [a] [d] [] = true) : exec (.lqry d a) s = .next (after s [a] [d] (fun m =>
    let p := pastOfActor m m.cur
    let x := payOf s.m .whole a % 2 ^ 64
    let answer := fun v => resultNow m (dstOf m d false) .tile (tokNat v)
    if inUse m x = false then answer (2 ^ 63 + 1)
    else if inPaddock m x = false then answer (2 ^ 63 + 3)
    else answer (leaseWord m p x))) := by
  refine (exec_laneStart (i := .lqry d a) rfl h).trans (congrArg Host.Outcome.next (after_congr ?_))
  dsimp only
  rw [← answer_query (p := pastOfActor (readDone s.m [a] [d]) (readDone s.m [a] [d]).cur)
    (answer := fun c => resultNow (readDone s.m [a] [d]) (dstOf (readDone s.m [a] [d]) d false) .tile (tokNat (2 ^ 63 + c)))]
  split
  · rfl
  · rfl

theorem exec_peerq {s : State} {d a : Opd} (f : BitF) (h : memStarts s.m [a] [d] [] = true) :
    exec (.peerq f d a) s = .next (after s [a] [d] (fun m =>
    let p := pastOfActor m m.cur
    let x := payOf s.m .whole a % 2 ^ 9
    if inUse m x = false then resultNow m (dstOf m d false) .tile (tokNat (2 ^ 63 + 1))
    else
      let m1 := if f.bit then { m with fab.failed := m.fab.failed.filter (· ≠ p * 512 + x) } else m
      resultNow m1 (dstOf m1 d false) .tile (tokNat (peerWord m p x)))) := by
  refine (exec_laneStart (i := .peerq f d a) rfl h).trans (congrArg Host.Outcome.next (after_congr ?_))
  dsimp only
  rw [bits_mod_word _ (by decide)]
  generalize readDone s.m [a] [d] = m
  generalize payOf s.m .whole a % 2 ^ 9 = x
  have hflt : m.fab.failed.filter (· != pastOfActor m m.cur * 512 + x) = m.fab.failed.filter (· ≠ pastOfActor m m.cur * 512 + x) :=
    List.filter_congr (fun y _ => by by_cases hy : y = pastOfActor m m.cur * 512 + x <;> simp [hy])
  rw [hflt]
  cases inUse m x <;> rfl

/-- The fields of the peer word. -/
theorem peerWord_fields (m : Mach) (p x : Nat) : let w := peerWord m p x
    w < 2 ^ 17 ∧ bitAt w 16 = peerFailed m p x ∧ bits w 10 4 = ((upto 8).filter (txLit m x)).length
      ∧ bitAt w 9 = (x / 64 != m.host.peer / 64) ∧ bits w 0 9 = 0 := by
  have hlit : ((upto 8).filter (txLit m x)).length ≤ 8 := (List.length_filter_le ..).trans_eq List.length_range
  simp only [peerWord, bits_eq_div_mod, bitAt, Nat.shiftRight_eq_div_pow]
  generalize ((upto 8).filter (txLit m x)).length = n at hlit ⊢
  generalize m.fab.tx.filter _ = ls
  generalize (x / 64 != m.host.peer / 64) = gate
  generalize ls.any (·.2.low) = low
  generalize ls.any (·.2.hold) = held
  generalize peerFailed m p x = failed
  have hbit : ∀ (c : Bool) (v : Nat), (if c then v else 0) = c.toNat * v := fun c v => by cases c <;> simp
  simp only [hbit]
  have hfailed := failed.toNat_le
  have hlow := low.toNat_le
  have hheld := held.toNat_le
  have hgate := gate.toNat_le
  generalize hw : failed.toNat * 2 ^ 16 + low.toNat * 2 ^ 15 + held.toNat * 2 ^ 14 + n * 2 ^ 10 + gate.toNat * 2 ^ 9 = w
  have hread : ∀ c : Bool, (c.toNat == 1) = c := fun c => by cases c <;> rfl
  have h16 : w / 2 ^ 16 % 2 = failed.toNat := by omega
  have h9 : w / 2 ^ 9 % 2 = gate.toNat := by omega
  refine ⟨by omega, by rw [h16, hread], by omega, by rw [h9, hread], by omega⟩

/-- Settles O51: each instruction by its start and the order of its answers. -/
theorem laneInstructions : Obligations.LaneInstructions := by
  unfold Obligations.LaneInstructions
  refine ⟨fun d a b s h => exec_lease h, fun d a b s h => exec_lmove h, ?_, ?_, fun m x ks k hks => tfind_darkTx ks m k hks,
    fun d a s h => exec_lqry h, fun f d a s h => exec_peerq f h, peerWord_fields⟩
  · exact fun f d a b s h hf => exec_lrel_tx hf h
  · intro f d a b s h hf
    refine ⟨_, exec_lrel_rx hf h, ?_⟩
    intro m p x n ks answer
    exact answers_in_turn (g := answer) (P := Revokes m x ks) (lrelRx_revokes rfl)

end Sys2Proof.Machine

/-! PROOFS. Multicast: groups, lines and answers (R395-R398, R411). -/
namespace Sys2Proof.Machine

/-! ## MGRP (R395) -/

section Mgrp
variable {f : MgrpF} {s : State} {u w : Nat} {d a b : Opd} (h : sStarts s.m u w [a, b] [d] = true)
include h

theorem exec_mgrp_set (hop : f.op = .set) {v : Nat} (hv : readNat (readDone s.m [a, b] [d]) (.unit u w) (payOf s.m .whole a % 2 ^ 64) 64 = .ok v) :
    let m := readDone s.m [a, b] [d]
    let g := payOf s.m .whole b % 256
    exec (.mgrp f d a b) s = .next { s with m := putS { m with
      free := m.free + 64, fab.groups := tset g (v, (tget (0, 0) g m.fab.groups).2) m.fab.groups } u d 0 } := by
  refine exec_sFire_eq (i := .mgrp f d a b) rfl h ?_
  simp only [hop, List.map_cons, List.getElem?_cons_zero, Option.getD_some, List.getElem?_cons_succ, bits_zero_eq_mod, hv]
  rfl

theorem exec_mgrp_clr (hop : f.op = .clr) :
    let m := readDone s.m [a, b] [d]
    let g := payOf s.m .whole b % 256
    exec (.mgrp f d a b) s = .next { s with m := putS { m with fab.groups := tset g (0, (tget (0, 0) g m.fab.groups).2) m.fab.groups } u d 0 } := by
  refine exec_sFire_eq (i := .mgrp f d a b) rfl h ?_
  simp only [hop, List.map_cons, List.getElem?_cons_zero, Option.getD_some, List.getElem?_cons_succ, bits_zero_eq_mod]
  rfl

theorem exec_mgrp_unmap (hop : f.op = .unmap) :
    let m := readDone s.m [a, b] [d]
    exec (.mgrp f d a b) s = .next { s with m := putS { m with fab.inbound := tdel (payOf s.m .whole b % 64) m.fab.inbound } u d 0 } := by
  refine exec_sFire_eq (i := .mgrp f d a b) rfl h ?_
  simp only [hop, List.map_cons, List.getElem?_cons_zero, Option.getD_some, List.getElem?_cons_succ, bits_zero_eq_mod]
  rfl

/-- The word of a mapping is read, and a word with a set reserved bit or an extent beyond HBM is refused. -/
theorem exec_mgrp_map (hop : f.op = .map) {v : Nat} (hv : readNat (readDone s.m [a, b] [d]) (.unit u w) (payOf s.m .whole a % 2 ^ 64) 16 = .ok v) :
    let m := readDone s.m [a, b] [d]
    let i : Inbound := ⟨bits v 64 52, bits v 32 32, bits v 16 8, bits v 0 9, bitAt v 24, pastOfActor m (.unit u w)⟩
    let m1 := { m with free := m.free + 16 }
    exec (.mgrp f d a b) s = .next { s with m := (
      if bits v 116 12 ≠ 0 ∨ bits v 64 8 ≠ 0 ∨ bits v 25 7 ≠ 0 ∨ bits v 9 7 ≠ 0 ∨ bits v 32 32 = 0 ∨ 2 ^ 39 < bits v 64 52 + 256 * bits v 32 32
      then putS m1 u d (2 ^ 63 + 1)
      else putS { m1 with fab.inbound := tset (payOf s.m .whole b % 64) i m1.fab.inbound } u d 0) } := by
  refine exec_sFire_eq (i := .mgrp f d a b) rfl h ?_
  simp only [hop, List.map_cons, List.getElem?_cons_zero, Option.getD_some, bits_zero_eq_mod (payOf s.m .whole a) 64, hv, List.getElem?_cons_succ,
    bits_zero_eq_mod (payOf s.m .whole b) 6]
  rfl

end Mgrp

/-! ## MCST (R396) -/

/-- An MCST of the group and the issuer is not complete. -/
theorem mcstBusy_iff (m : Mach) (g : Nat) : (m.mem.reqs.any (fun r => match r.op with
      | .mcst _ x _ _ _ _ _ => x == g && issuerOf r.who == issuerOf m.cur && !r.done
      | _ => false)) = true ↔
    ∃ r ∈ m.mem.reqs, r.done = false ∧ issuerOf r.who = issuerOf m.cur ∧ ∃ x o n l k as, r.op = .mcst x g o n l k as := by
  rw [List.any_eq_true]
  refine exists_congr fun r => and_congr_right fun _ => ?_
  split
  · rename_i sa y o n l k as hop
    simp only [Bool.and_eq_true, beq_iff_eq, Bool.not_eq_true', hop, ReqOp.mcst.injEq]
    refine ⟨fun ⟨⟨hg, hi⟩, hd⟩ => ⟨hd, hi, sa, o, n, l, k, as, rfl, hg, rfl, rfl, rfl, rfl, rfl⟩,
      fun ⟨hd, hi, _, _, _, _, _, _, _, hg, _⟩ => ⟨⟨hg, hi⟩, hd⟩⟩
  · rename_i hno
    exact ⟨fun h => absurd h Bool.false_ne_true, fun ⟨_, _, x, o, n, l, k, as, hop⟩ => absurd hop (hno _ _ _ _ _ _ _)⟩

section Mcst
variable {s : State} {d a b : Opd} (f : ScF) (h : memStarts s.m [a, b] [d] [] = true)
include h

theorem exec_mcst_sends {ls : List Loc} (hls : lineLocs (readDone s.m [a, b] [d]) (payOf s.m .whole a % 2 ^ 32) 256 = .ok ls)
    (hy : payOf s.m .whole b < 2 ^ 32) :
    let m := readDone s.m [a, b] [d]
    let g := payOf s.m .whole b % 256
    let mask := (tget (0, 0) g m.fab.groups).1
    mask ≠ 0 → (¬ ∃ r ∈ m.mem.reqs, r.done = false ∧ issuerOf r.who = issuerOf m.cur ∧ ∃ x o n l k as, r.op = .mcst x g o n l k as) →
    exec (.mcst f d a b) s = .next (after s [a, b] [d] (fun m => mcstSend (addReq m (mkReq m (dstOf m d false)
      (.mcst (payOf s.m .whole a % 2 ^ 32) g (payOf s.m .whole b / 256) 0 [] mask []) f.scope.code false true)) m.ids)) := by
  intro m g mask hmask hbusy
  refine (exec_memStart (i := .mcst f d a b) rfl h).trans (congrArg Host.Outcome.next (after_congr ?_))
  have hoff : bits (payOf s.m .whole b) 8 24 = payOf s.m .whole b / 256 := by rw [bits_eq_div_mod]; omega
  have hgrp : bits (payOf s.m .whole b) 0 8 = g := bits_zero_eq_mod _ _
  have hfits : ¬ (2 ^ 32 ≤ payOf s.m .whole b ∨ mask = 0 ∨ _) := not_or.mpr ⟨Nat.not_le.mpr hy, not_or.mpr ⟨hmask, mt (mcstBusy_iff m g).mp hbusy⟩⟩
  have hA : natAt ([a, b].map (srcVal s.m .whole)) 0 = payOf s.m .whole a := rfl
  have hB : natAt ([a, b].map (srcVal s.m .whole)) 1 = payOf s.m .whole b := rfl
  simp only [hA, hB, hoff, hgrp, hls]
  exact if_neg hfits

theorem exec_mcst_refuses :
    let m := readDone s.m [a, b] [d]
    let y := payOf s.m .whole b
    (((tget (0, 0) (y % 256) m.fab.groups).1 = 0 ∨ 2 ^ 32 ≤ y
      ∨ (∃ r ∈ m.mem.reqs, r.done = false ∧ issuerOf r.who = issuerOf m.cur ∧ ∃ x o n l k as, r.op = .mcst x (y % 256) o n l k as)
      ∨ ∃ c, lineLocs m (payOf s.m .whole a % 2 ^ 32) 256 = .error c) →
    exec (.mcst f d a b) s = .next (answered s [a, b] d .tile (2 ^ 63 + 1))) := by
  intro m y hbad
  refine (exec_memStart (i := .mcst f d a b) rfl h).trans (congrArg Host.Outcome.next (after_congr ?_))
  have hgrp : bits y 0 8 = y % 256 := bits_zero_eq_mod _ _
  have hA : natAt ([a, b].map (srcVal s.m .whole)) 0 = payOf s.m .whole a := rfl
  have hB : natAt ([a, b].map (srcVal s.m .whole)) 1 = y := rfl
  simp only [hA, hB, hgrp]
  cases hls : lineLocs (readDone s.m [a, b] [d]) (payOf s.m .whole a % 2 ^ 32) 256 with
  | error c => rfl
  | ok ls =>
    refine if_pos ?_
    rcases hbad with hmask | hy | hbusy | ⟨c, hc⟩
    · exact .inr (.inl hmask)
    · exact .inl hy
    · exact .inr (.inr ((mcstBusy_iff m (y % 256)).mpr hbusy))
    · rw [show lineLocs (readDone s.m [a, b] [d]) (payOf s.m .whole a % 2 ^ 32) 256 = .error c from hc] at hls
      cases hls

end Mcst

theorem modReq_fab (m : Mach) (id : Nat) (f : Req → Req) : (modReq m id f).fab = m.fab := by
  unfold modReq
  split <;> rfl

/-- A line that is read takes the group's next number and becomes the group's latest. -/
theorem mcstSend_sends {m : Mach} {id : Nat} {r : Req} {sa g off n mask : Nat} {as : List (Nat × Nat)} {ls : List Loc}
    (hr : reqOf m id = some r) (hop : r.op = .mcst sa g off n [] mask as) (hmay : mayPerform m r = true)
    (hls : scratchLocs m r.who r.past sa 256 = .ok ls) (hok : locsFault m r.who ls = none) :
    let k := ((tget (0, 0) g m.fab.groups).2 + 1) % 65536
    tget (0, 0) g (mcstSend m id).fab.groups = ((tget (0, 0) g m.fab.groups).1, k) ∧ tfind g (mcstSend m id).fab.latest = some (k, mask, [])
      ∧ (reqOf (mcstSend m id) id).map (·.op) = some (.mcst sa g off k (ls.map (locByte m)) mask []) := by
  intro k
  have hsend : mcstSend m id = modReq { m with
        fab.groups := tset g ((tget (0, 0) g m.fab.groups).1, k) m.fab.groups
        fab.latest := tset g (k, mask, []) m.fab.latest } id
      (fun x => { x with op := .mcst sa g off k (ls.map (locByte m)) mask [] }) := by
    simp only [mcstSend, hr, hop, hmay, hls, hok, Bool.not_true, Bool.false_eq_true, if_false]
    rfl
  have hr' : reqOf { m with
        fab.groups := tset g ((tget (0, 0) g m.fab.groups).1, k) m.fab.groups
        fab.latest := tset g (k, mask, []) m.fab.latest } id = some r := hr
  rw [hsend]
  refine ⟨?_, ?_, ?_⟩
  · rw [modReq_fab, tget, tfind_tset_same]
    rfl
  · rw [modReq_fab, tfind_tset_same]
  · rw [reqOf_modReq hr' rfl]
    rfl

/-- A line that is sent is not sent again. -/
theorem mcstSend_sent {m : Mach} {id : Nat} {r : Req} {sa g off n mask : Nat} {line : List Byte} {as : List (Nat × Nat)}
    (hr : reqOf m id = some r) (hop : r.op = .mcst sa g off n line mask as) (hline : line ≠ []) : mcstSend m id = m := by
  cases line with
  | nil => exact absurd rfl hline
  | cons y l => simp only [mcstSend, hr, hop]

/-! ## MCSTQ (R398) -/

section Mcstq
variable {s : State} {d a b : Opd} {ls : List Loc} (h : memStarts s.m [a, b] [d] [] = true)
  (hls : lineLocs (readDone s.m [a, b] [d]) (payOf s.m .whole a % 2 ^ 32) 16 = .ok ls)
include h hls

theorem exec_mcstq :
    let m := readDone s.m [a, b] [d]
    let sa := payOf s.m .whole a % 2 ^ 32
    let g := payOf s.m .whole b % 256
    let r := mkReq m (dstOf m d false) (.mcstq sa g) 2 false false
    (mayPerform (addReq m r) r = true → exec (.mcstq d a b) s = .next (after s [a, b] [d] (fun m => mcstqDo (addReq m r) r sa g)))
    ∧ (mayPerform (addReq m r) r = false → exec (.mcstq d a b) s = .next (issued s [a, b] [d] (fun _ => r))) := by
  intro m sa g r
  have hA : natAt ([a, b].map (srcVal s.m .whole)) 0 = payOf s.m .whole a := rfl
  have hB : natAt ([a, b].map (srcVal s.m .whole)) 1 = payOf s.m .whole b := rfl
  have hgrp : bits (payOf s.m .whole b) 0 8 = g := bits_zero_eq_mod _ _
  refine ⟨fun hmay => ?_, fun hmay => ?_⟩
  · refine (exec_memStart (i := .mcstq d a b) rfl h).trans (congrArg Host.Outcome.next (after_congr ?_))
    simp only [hA, hB, hgrp, hls]
    exact if_pos hmay
  · refine (exec_memStart (i := .mcstq d a b) rfl h).trans (congrArg Host.Outcome.next (after_congr ?_))
    simp only [hA, hB, hgrp, hls]
    exact if_neg (Bool.eq_false_iff.mp hmay)

end Mcstq

theorem loadResult_mcstq {s : State} {id sa g : Nat} {r : Req} (hr : reqOf s.m id = some r) (hop : r.op = .mcstq sa g)
    (hmay : mayPerform s.m r = true) (ans : Answer) : exec (.loadResult id ans) s = .next { s with m := mcstqDo s.m r sa g } := by
  refine next_of_lift (loadResultAny id ans) rfl ?_
  simp only [loadResultAny, hr, hop, hmay, if_true]

theorem mcstqDo_answers {m : Mach} {r : Req} {sa : Nat} (g : Nat) {ls : List Loc} (hls : scratchLocs m r.who r.past sa 256 = .ok ls) :
    let x := tget (0, 0, []) g m.fab.latest
    mcstqDo m r sa g = finish (writeLocs m ls (mcstVector x)) r.id (mcstRecord g x
      ((upto 512).any (fun p => bitAt x.2.1 p && !x.2.2.any (fun a => a.1 == p)))) := by
  simp only [mcstqDo, hls, membersOf, List.any_filter]

/-- An access of its chain that is not performed holds a request back. -/
theorem mayPerform_held {m : Mach} {r q : Req} (hq : q ∈ m.mem.reqs) (hb : holdsBack m r q = true) : mayPerform m r = false := by
  have hany : m.mem.reqs.any (holdsBack m r) = true := List.any_eq_true.mpr ⟨q, hq, hb⟩
  simp only [mayPerform, mayIssue, hany, Bool.not_true, Bool.and_false, Bool.false_and]

/-- The nibble of a member in the vector. -/
def mcstNibble (x : Nat × Nat × List (Nat × Nat)) (p : Nat) : Nat :=
  if bitAt x.2.1 p = false then 0 else
    match x.2.2.find? (fun a => a.1 == p) with
    | some a => if a.2 = 0 then 1 else 8 + a.2
    | none => 2

theorem mcstNibble_lt {x : Nat × Nat × List (Nat × Nat)} (h : ∀ a ∈ x.2.2, a.2 < 8) (p : Nat) : mcstNibble x p < 16 := by
  unfold mcstNibble
  split
  · decide
  · split
    · rename_i a ha
      have := h a (List.mem_of_find?_eq_some ha)
      split <;> omega
    · decide

theorem mcstVector_eq (x : Nat × Nat × List (Nat × Nat)) :
    mcstVector x = (upto 256).map (fun i => BitVec.ofNat 8 (mcstNibble x (2 * i) + 16 * mcstNibble x (2 * i + 1))) := by
  have hnib : ∀ p, (if !bitAt x.2.1 p then 0 else match x.2.2.find? (fun a => a.1 == p) with
      | some (_, 0) => 1
      | some (_, n) => 8 + n
      | none => 2) = mcstNibble x p := by
    intro p
    unfold mcstNibble
    cases bitAt x.2.1 p with
    | false => rfl
    | true =>
      cases x.2.2.find? (fun a => a.1 == p) with
      | none => rfl
      | some a =>
        obtain ⟨k, n⟩ := a
        cases n <;> rfl
  exact List.map_congr_left fun i _ => congrArg₂ (fun a b => BitVec.ofNat 8 (a + 16 * b)) (hnib (2 * i)) (hnib (2 * i + 1))

theorem mcstVector_nibble {x : Nat × Nat × List (Nat × Nat)} {p : Nat} (hp : p < 512) (h : ∀ a ∈ x.2.2, a.2 < 8) :
    bits ((mcstVector x).map (·.toNat))[p / 2]! (4 * (p % 2)) 4 = mcstNibble x p := by
  have hlo := mcstNibble_lt h (2 * (p / 2))
  have hhi := mcstNibble_lt h (2 * (p / 2) + 1)
  have hget : ((mcstVector x).map (·.toNat))[p / 2]! = mcstNibble x (2 * (p / 2)) + 16 * mcstNibble x (2 * (p / 2) + 1) := by
    have hlen : p / 2 < 256 := by omega
    rw [mcstVector_eq, List.map_map, getElem!_pos _ _ (by simpa [upto] using hlen)]
    simp only [upto, List.getElem_map, List.getElem_range, Function.comp, BitVec.toNat_ofNat]
    omega
  rw [hget, bits_eq_div_mod]
  rcases Nat.mod_two_eq_zero_or_one p with hpar | hpar
  · have hplace : p = 2 * (p / 2) := by omega
    rw [hpar, congrArg (mcstNibble x) hplace]
    omega
  · have hplace : p = 2 * (p / 2) + 1 := by omega
    rw [hpar, congrArg (mcstNibble x) hplace]
    omega

/-! ## Members (R396) -/

theorem memberFault_iff (m : Mach) (ls : List Loc) :
    memberFault m ls = none ↔ lineFault m ls = none ∧ ∀ l ∈ ls, Config.rowChannel (rowOf (locPa l)) ∉ m.mem.degraded := by
  have hrows : (ls.findSome? (fun l => if m.mem.degraded.contains (Config.rowChannel (rowOf (locPa l))) then some (0x01, locPa l / 64 * 64) else none)) = none
      ↔ ∀ l ∈ ls, Config.rowChannel (rowOf (locPa l)) ∉ m.mem.degraded := by
    rw [List.findSome?_eq_none_iff]
    refine forall_congr' fun l => forall_congr' fun _ => ?_
    rw [ite_eq_right_iff]
    simp
  rw [← hrows, memberFault]
  cases lineFault m ls with
  | none => simp
  | some x => simp

theorem memberWrite_mapped {m : Mach} {src g off : Nat} {i : Inbound} (line : List Byte) (hi : memberMap m src g = some i) :
    memberWrite m src g off line = if i.len ≤ off then (2, m)
      else if memberFault m (memberLocs i off) ≠ none then (5, m) else (0, writeLocs m (memberLocs i off) line) := by
  simp only [memberWrite, hi, Option.isSome_iff_ne_none, Nat.lt_succ_iff]

/-- A line of another package is written where the inbound mapping puts it, or not at all. -/
theorem mcst_incoming {s : State} {src g off : Nat} {line : List Byte} {e : Nat × Inbound}
    (he : s.m.fab.inbound.find? (fun e => e.2.valid && e.2.src == src && e.2.group == g) = some e) (hsrc : src ≠ s.m.host.peer)
    (hlen : line.length = 256) (hfree : memberHeld s.m src g off = false) : exec (.mcstMemberWrite (.incoming src g off line)) s =
      if off < e.2.len ∧ memberFault s.m (memberLocs e.2 off) = none then .next { s with m := writeLocs s.m (memberLocs e.2 off) line }
      else .next s := by
  have hmap : memberMap s.m src g = some e.2 := by rw [memberMap, he]; rfl
  have hgo : ¬ (line.length ≠ 256 ∨ src = s.m.host.peer ∨ memberHeld s.m src g off = true) := by simp [hlen, hsrc, hfree]
  have hm : mcstMemberWriteG (.incoming src g off line) s.m = (memberWrite s.m src g off line).2 := if_neg hgo
  refine (next_of_lift (mcstMemberWriteG (.incoming src g off line)) rfl hm).trans ?_
  rw [memberWrite_mapped line hmap]
  by_cases hoff : off < e.2.len
  · rw [if_neg (Nat.not_le.mpr hoff)]
    by_cases hfault : memberFault s.m (memberLocs e.2 off) = none
    · rw [if_neg (not_not.mpr hfault), if_pos ⟨hoff, hfault⟩]
    · rw [if_pos hfault, if_neg (fun h => hfault h.2)]
  · rw [if_pos (Nat.le_of_not_lt hoff), if_neg (fun h => hoff h.1)]

theorem mcst_incoming_held {s : State} {src g off : Nat} (line : List Byte) (hheld : memberHeld s.m src g off = true) :
    exec (.mcstMemberWrite (.incoming src g off line)) s = .next s :=
  next_of_lift (mcstMemberWriteG (.incoming src g off line)) rfl (if_pos (.inr (.inr hheld)))

section Answer
variable {s : State} {id sa g off n mask k nak : Nat} {r : Req} {line : List Byte} {as : List (Nat × Nat)}
  (hr : reqOf s.m id = some r) (hop : r.op = .mcst sa g off n line mask as) (hline : line ≠ []) (hopen : r.done = false)
include hr hop hline hopen

/-- The answer of a member that is still to answer. -/
theorem mcst_answer (hmem : bitAt mask k = true) (hk : k < 512) (hnak : nak < 8) (hnew : ∀ a ∈ as, a.1 ≠ k) (hup : peerFailed s.m r.past k = false) :
    mcstMemberWriteG (.answer id k nak) s.m =
      if k = s.m.host.peer ∧ nak < 3 then
        if memberHeld s.m k g off then s.m
        else noteAnswer (memberWrite s.m k g off line).2 id g n k (memberWrite s.m k g off line).1
      else if nak ≠ 3 ∧ nak ≠ 6 ∧ lineHeld s.m k 0 = true then s.m
      else noteAnswer (countFlit s.m k 0) id g n k nak := by
  have hsent := mcstSend_sent hr hop hline
  have hnone : as.any (fun a => a.1 == k) = false := by simpa using hnew
  have hempty : line.isEmpty = false := by simpa using hline
  have hgood : (r.done || line.isEmpty || !bitAt mask k || decide (512 ≤ k) || as.any (fun a => a.1 == k) || decide (7 < nak)) = false := by
    rw [hopen, hempty, hmem, hnone, decide_eq_false (Nat.not_le.mpr hk), decide_eq_false (by omega : ¬ 7 < nak)]
    rfl
  simp only [mcstMemberWriteG, hsent, hr, hop]
  rw [if_neg (Bool.eq_false_iff.mp hgood), if_neg (Bool.eq_false_iff.mp hup)]

/-- This package's own answer is what its member's line gives. -/
theorem mcst_answer_own (hmem : bitAt mask s.m.host.peer = true) (hk : s.m.host.peer < 512) (hnak : nak < 3)
    (hnew : ∀ a ∈ as, a.1 ≠ s.m.host.peer) (hup : peerFailed s.m r.past s.m.host.peer = false)
    (hfree : memberHeld s.m s.m.host.peer g off = false) {e : Inbound} (he : memberMap s.m s.m.host.peer g = some e) :
    let answer := fun m n' => noteAnswer m id g n s.m.host.peer n'
    let m1 := if e.len ≤ off then answer s.m 2
      else if memberFault s.m (memberLocs e off) ≠ none then answer s.m 5
      else answer (writeLocs s.m (memberLocs e off) line) 0
    exec (.mcstMemberWrite (.answer id s.m.host.peer nak)) s = .next { s with m := m1 } := by
  intro answer m1
  refine next_of_lift (mcstMemberWriteG (.answer id s.m.host.peer nak)) rfl ?_
  rw [mcst_answer hr hop hline hopen hmem hk (by omega) hnew hup, if_pos ⟨rfl, hnak⟩, if_neg (Bool.eq_false_iff.mp hfree),
    memberWrite_mapped line he]
  by_cases hoff : e.len ≤ off
  · rw [if_pos hoff]
    exact (if_pos hoff).symm
  · rw [if_neg hoff]
    refine Eq.trans ?_ (if_neg hoff).symm
    by_cases hfault : memberFault s.m (memberLocs e off) = none
    · rw [if_neg (not_not.mpr hfault), if_neg (not_not.mpr hfault)]
    · rw [if_pos hfault, if_pos hfault]

theorem mcst_answer_other (hmem : bitAt mask k = true) (hk : k < 512) (hnak : nak < 8) (hnew : ∀ a ∈ as, a.1 ≠ k) (hother : k ≠ s.m.host.peer)
    (hup : peerFailed s.m r.past k = false) :
    ((nak = 3 ∨ nak = 6 ∨ lineHeld s.m k 0 = false) →
      exec (.mcstMemberWrite (.answer id k nak)) s = .next { s with m := noteAnswer (countFlit s.m k 0) id g n k nak })
    ∧ (nak ≠ 3 → nak ≠ 6 → lineHeld s.m k 0 = true → exec (.mcstMemberWrite (.answer id k nak)) s = .next s) := by
  have hm := mcst_answer hr hop hline hopen hmem hk hnak hnew hup
  rw [if_neg (fun h => hother h.1)] at hm
  refine ⟨fun h => next_of_lift _ rfl (hm.trans (if_neg ?_)), fun h3 h6 hheld => next_of_lift _ rfl (hm.trans (if_pos ⟨h3, h6, hheld⟩))⟩
  rintro ⟨h3, h6, hheld⟩
  rcases h with h | h | h
  · exact h3 h
  · exact h6 h
  · rw [h] at hheld
    cases hheld

/-- The last answer completes a multicast that no member has refused. -/
theorem mcst_completes (hall : ∀ p < 512, bitAt mask p = true → ∃ a ∈ as, a.1 = p) (hok : ∀ a ∈ as, a.2 = 0) :
    exec (.mcstCompletion id) s = .next { s with m := finish s.m id (mcstRecord g (n, mask, as) false) } := by
  have hempty : line.isEmpty = false := by simpa using hline
  have hmissing : (membersOf mask).any (fun p => !as.any (fun a => a.1 == p)) = false := by
    rw [List.any_eq_false]
    intro p hp
    obtain ⟨hlt, hin⟩ := List.mem_filter.mp hp
    obtain ⟨a, ha, hap⟩ := hall p (List.mem_range.mp hlt) hin
    have : as.any (fun a => a.1 == p) = true := List.any_eq_true.mpr ⟨a, ha, beq_iff_eq.mpr hap⟩
    rw [this]
    exact Bool.false_ne_true
  have hnaks : (membersOf mask).filterMap (fun p => as.find? (fun a => a.1 == p && a.2 != 0)) = [] := by
    rw [List.filterMap_eq_nil_iff]
    intro p _
    rw [List.find?_eq_none]
    intro a ha
    simp [hok a ha]
  refine next_of_lift (mcstCompletionG id) rfl ?_
  simp only [mcstCompletionG, hr, hop, hopen, hempty, hmissing, hnaks, List.foldl_nil, Bool.or_self, Bool.false_eq_true, if_false]

end Answer

/-- A multicast waits for each of its members. -/
theorem mcst_waits {s : State} {id sa g off n mask p : Nat} {r : Req} {line : List Byte} {as : List (Nat × Nat)}
    (hr : reqOf s.m id = some r) (hop : r.op = .mcst sa g off n line mask as) (hp : p < 512) (hmem : bitAt mask p = true)
    (hnone : ∀ a ∈ as, a.1 ≠ p) : exec (.mcstCompletion id) s = .next s := by
  have hno : as.any (fun a => a.1 == p) = false := by simpa using hnone
  have hmissing : (membersOf mask).any (fun p => !as.any (fun a => a.1 == p)) = true :=
    List.any_eq_true.mpr ⟨p, List.mem_filter.mpr ⟨List.mem_range.mpr hp, hmem⟩, by rw [hno]; rfl⟩
  refine next_of_lift (mcstCompletionG id) rfl ?_
  simp only [mcstCompletionG, hr, hop, hmissing, Bool.or_true, if_true]

/-- Settles O53: each instruction and event by its lemma. -/
theorem multicast : Obligations.Multicast := by
  unfold Obligations.Multicast
  refine ⟨?_, ?_, fun m id r sa g off n mask as ls hr hop _ hmay hls hok => mcstSend_sends hr hop hmay hls hok,
    fun d a b s ls h => exec_mcstq h, fun s id r sa g ans hr hop hmay => loadResult_mcstq hr hop hmay ans,
    fun m r sa g ls hls => mcstqDo_answers g hls, fun m r q => mayPerform_held, fun x p => mcstVector_nibble,
    fun s src g off line e => mcst_incoming, fun _ _ => rfl, fun s src g off line => mcst_incoming_held line, memberFault_iff, ?_, ?_, ?_,
    fun s id r sa g off n line mask as p => mcst_waits⟩
  · intro f s u w d a b h m g j va n
    refine ⟨fun v hop hv => exec_mgrp_set h hop hv, fun hop => exec_mgrp_clr h hop, fun hop => exec_mgrp_unmap h hop, ?_, ?_⟩
    · intro v hop hv h1 h2 h3 h4 hlen hfit i m1
      refine (exec_mgrp_map h hop hv).trans (congrArg (fun m => Host.Outcome.next { s with m := m }) (if_neg ?_))
      rintro (h | h | h | h | h | h)
      · exact h h1
      · exact h h2
      · exact h h3
      · exact h h4
      · exact hlen h
      · omega
    · intro v hop hv hbad
      exact (exec_mgrp_map h hop hv).trans (congrArg (fun m => Host.Outcome.next { s with m := m }) (if_pos hbad))
  · intro f d a b s h m sa y mask busy
    exact ⟨fun ls hls hy hmask hbusy => exec_mcst_sends f h hls hy hmask hbusy, exec_mcst_refuses f h⟩
  · intro s id r sa g off n line mask as nak e hr hop hline hopen hmem hk hnak hnew hup hfree he
    exact mcst_answer_own hr hop hline hopen hmem hk hnak hnew hup hfree he
  · intro s id r sa g off n line mask as k nak hr hop hline hopen hmem hk hnak hnew hother hup
    exact mcst_answer_other hr hop hline hopen hmem hk hnak hnew hother hup
  · intro s id r sa g off n line mask as hr hop hline hopen hall hok
    exact mcst_completes hr hop hline hopen hall hok

end Sys2Proof.Machine

/-! PROOFS. RAMO, page migration and slot entries (R402-R407). -/
namespace Sys2Proof.Machine

/-! ## RAMO (R402-R404) -/

theorem bits_zero_byte (v n : Nat) : bits v 0 (8 * n) = v % 256 ^ n := by
  rw [bits_zero_eq_mod, pow_mul]
  rfl

/-- The operands that a RAMO reads; `.cas.w16` reads D. -/
theorem exec_ramo {f : RamoF} {s : State} {d a b : Opd} : let n := RamoOp.bytes f.op
    let ea := payOf s.m .whole a % 2 ^ 64
    let x := if f.op = .cas8 then wideVal s.m b else payOf s.m .whole b
    let new := if f.op = .cas4 ∨ f.op = .cas8 then x / 256 ^ n % 256 ^ n else if f.op = .cas16 then payOf s.m .whole d else 0
    let os := if f.op = .cas16 then [a, b, d] else [a, b]
    memStarts s.m os [d] (pairReg s.m (f.op == .cas8) b) = true → ea % n = 0 → exec (.ramo f d a b) s = .next (issued s os [d] (fun m =>
      mkReq m (dstOf m d false) (.ramo f.op ea (x % 256 ^ n) new) f.scope.code true true)) := by
  intro n ea x new os h hal
  have hos : (if (f.op == .cas16) = true then [a, b, d] else [a, b]) = os := if_congr beq_iff_eq rfl rfl
  have hx : (if (f.op == .cas8) = true then wideVal s.m b else (srcVal s.m .whole b).pay.toNat) = x := if_congr beq_iff_eq rfl rfl
  have hea : natAt (os.map (srcVal s.m .whole)) 0 = payOf s.m .whole a := by
    by_cases hop : f.op = .cas16
    · rw [show os = [a, b, d] from if_pos hop]
      rfl
    · rw [show os = [a, b] from if_neg hop]
      rfl
  have hnew : (if (f.op == .cas16) = true then natAt (os.map (srcVal s.m .whole)) 2
      else if (f.op == .cas4 || f.op == .cas8) = true then bits x (8 * n) (8 * n) else 0) = new := by
    have hbits : bits x (8 * n) (8 * n) = x / 256 ^ n % 256 ^ n := by
      rw [bits_eq_div_mod, pow_mul]
      rfl
    by_cases h16 : f.op = .cas16
    · rw [show os = [a, b, d] from if_pos h16]
      simp only [new, h16]
      rfl
    · have hcas : (f.op == .cas4 || f.op == .cas8) = true ↔ f.op = .cas4 ∨ f.op = .cas8 := by simp
      rw [if_neg (fun hb => h16 (eq_of_beq hb)), hbits]
      exact (if_congr hcas rfl rfl).trans (if_congr Iff.rfl rfl (if_neg h16).symm)
  refine next_of_lift (ramoG f d a b) rfl ?_
  unfold ramoG
  dsimp only
  rw [hos, hx, memStart_starts s.m os [d] _ _ _ h, hnew, hea, bits_zero_byte]
  exact syncIssue_aligned hal _ _ _ _ _

section PortalReply
variable {s : State} {id ea b c : Nat} {r : Req} {op : RamoOp} {ls : List Loc} (hr : reqOf s.m id = some r) (hop : r.op = .ramo op ea b c)
  (hmay : mayPerform s.m r = true) (ht : targetOf s.m r (.virt ea) (RamoOp.bytes op) .ramo = .at ls)
include hr hop hmay ht

/-- The target of a RAMO. -/
theorem portalReplyG_ramo (ans : Answer) : portalReplyG id ans s.m =
    (let t := match ls.head? with | some (.host t _) => t | _ => 0
    if !bitAt (Config.portalOps t) op.code then failReq s.m r 0x08 (bits ea 0 56) ls
    else match ans with
      | .data v => finish s.m r.id (bits v.toNat 0 (8 * RamoOp.bytes op))
      | .fail c d => if failOk r ls c.toNat d.toNat then failReq s.m r c.toNat d.toNat ls else s.m
      | .perform => s.m) := by
  simp only [portalReplyG, hr, hop, hmay, performRamo, ht, Bool.not_true, Bool.false_eq_true, if_false] <;> rfl

theorem portalReply_data (v : BitVec 128) :
    let t := match ls.head? with | some (.host t _) => t | _ => 0
    let m1 := finish s.m id (v.toNat % 256 ^ RamoOp.bytes op)
    let m2 := failReq s.m r 0x08 (ea % 2 ^ 56) ls
    exec (.portalReply id (.data v)) s = .next { s with m := if bitAt (Config.portalOps t) op.code then m1 else m2 } := by
  intro t m1 m2
  refine next_of_lift (portalReplyG id (.data v)) rfl ((portalReplyG_ramo hr hop hmay ht _).trans ?_)
  have hid : r.id = id := id_of_reqOf hr
  show (if (!bitAt (Config.portalOps t) op.code) = true then failReq s.m r 0x08 (bits ea 0 56) ls
    else finish s.m r.id (bits v.toNat 0 (8 * RamoOp.bytes op))) = _
  rw [bits_zero_byte, bits_zero_eq_mod, hid]
  cases bitAt (Config.portalOps t) op.code <;> rfl

theorem portalReply_fail (hlacks : bitAt (Config.portalOps (match ls.head? with | some (.host t _) => t | _ => 0)) op.code = true)
    (x : BitVec 8) (y : BitVec 81) : exec (.portalReply id (.fail x y)) s =
      .next { s with m := if failOk r ls x.toNat y.toNat then failReq s.m r x.toNat y.toNat ls else s.m } := by
  refine next_of_lift (portalReplyG id (.fail x y)) rfl ((portalReplyG_ramo hr hop hmay ht _).trans ?_)
  refine if_neg ?_
  rw [hlacks]
  exact Bool.false_ne_true

end PortalReply

theorem portalReply_waits {s : State} {id : Nat} {r : Req} (hr : reqOf s.m id = some r) (hmay : mayPerform s.m r = false) (ans : Answer) :
    exec (.portalReply id ans) s = .next s := by
  refine next_of_lift (portalReplyG id ans) rfl ?_
  simp only [portalReplyG, hr, hmay, Bool.not_false, if_true]

/-! ## PGMIG (R406) -/

section Pgmig
variable {s : State} {d a b : Opd} (h : memStarts s.m [a, b] [d] [] = true)
include h

theorem exec_pgmig :
    let m := readDone s.m [a, b] [d]
    let p := pastOfActor m m.cur
    let va := payOf s.m .whole a % 2 ^ 64
    let peer := payOf s.m .whole b % 512
    (∀ c, leafOf m m.cur p va = .error c → exec (.pgmig d a b) s = .next (answered s [a, b] d .tile (2 ^ 63 + 1)))
    ∧ (∀ e, leafOf m m.cur p va = .ok e → exec (.pgmig d a b) s = .next (after s [a, b] [d] (fun m =>
        if !migratable e then resultNow m (dstOf m d false) .tile (tokNat (2 ^ 63 + 1))
        else if peerFailed m p peer || peerFailed m p (bits e 52 9) then resultNow m (dstOf m d false) .tile (tokNat (2 ^ 63 + 6))
        else if bits e 52 9 = peer then resultNow m (dstOf m d false) .tile (tokNat 0)
        else addReq m (mkReq m (dstOf m d false) (.pgmig va (pageKey e) peer) 5 false false)))) := by
  intro m p va peer
  have hA : natAt ([a, b].map (srcVal s.m .whole)) 0 = payOf s.m .whole a := rfl
  have hB : bits (natAt ([a, b].map (srcVal s.m .whole)) 1) 0 9 = peer := bits_zero_eq_mod _ _
  refine ⟨fun c hc => ?_, fun e he => ?_⟩
  · refine (exec_memStart (i := .pgmig d a b) rfl h).trans (congrArg Host.Outcome.next (after_congr ?_))
    simp only [hA, hB]
    rw [show leafOf (readDone s.m [a, b] [d]) _ _ (payOf s.m .whole a % 2 ^ 64) = .error c from hc]
    rfl
  · refine (exec_memStart (i := .pgmig d a b) rfl h).trans (congrArg Host.Outcome.next (after_congr ?_))
    simp only [hA, hB]
    rw [show leafOf (readDone s.m [a, b] [d]) _ _ (payOf s.m .whole a % 2 ^ 64) = .ok e from he]
    rfl

end Pgmig

theorem pageMigration_ours {s : State} {id va key peer : Nat} {r : Req} (hr : reqOf s.m id = some r) (hop : r.op = .pgmig va key peer)
    (hopen : r.done = false) (hfirst : ∀ q ∈ s.m.mem.reqs, q.id < id → q.done = false → ∀ v p, q.op ≠ .pgmig v key p) :
    exec (.pageMigration (.ours id true)) s = .next { s with m := finish (movePage s.m r.past va peer) id 0 } := by
  have hearlier : s.m.mem.reqs.any (fun q => q.id < id && !q.done && (match q.op with | .pgmig _ k _ => k == key | _ => false)) = false := by
    rw [List.any_eq_false]
    intro q hq hbad
    simp only [Bool.and_eq_true, decide_eq_true_eq, Bool.not_eq_true'] at hbad
    obtain ⟨⟨hid, hdone⟩, hkey⟩ := hbad
    split at hkey
    case h_1 v k p hq' => exact hfirst q hq hid hdone v p (hq'.trans (by rw [eq_of_beq hkey]))
    case h_2 => cases hkey
  refine next_of_lift (pageMigrationG (.ours id true)) rfl ?_
  simp only [pageMigrationG, hr, hop, hopen, Bool.false_or, if_true]
  exact if_neg (Bool.eq_false_iff.mp hearlier)

/-! ## The leaf entry of a page that moves -/

/-- With no request, what leaves changes no byte of HBM. -/
theorem flushN_noReqs (k : Nat) : ∀ m : Mach, m.mem.reqs = [] → (flushN k m).mem.hbm = m.mem.hbm := by
  induction k with
  | zero => exact fun m _ => rfl
  | succ k ih =>
    intro m hreqs
    cases he : advanceEnd m with
    | none =>
      simp only [flushN, flushOne, advanceSys, advanceEvent, hreqs, he, List.find?_nil, List.findSome?_nil, Option.orElse_none]
    | some x =>
      simp only [flushN, flushOne, advanceSys, advanceEvent, hreqs, he, List.find?_nil, List.findSome?_nil, Option.orElse_none,
        Option.orElse_some]
      obtain ⟨p, -, hp⟩ := List.exists_of_findSome?_eq_some he
      split at hp
      · split at hp
        · obtain rfl := Option.some.inj hp
          exact (ih (pastureDone m p _) (by show m.mem.reqs.filter _ = []; rw [hreqs]; rfl)).trans rfl
        · cases hp
      · cases hp

theorem wake_noReqs {m : Mach} (hreqs : m.mem.reqs = []) : (wake m).mem.hbm = m.mem.hbm := by
  rw [wake_allDone (fun r hr => absurd (hreqs ▸ hr) List.not_mem_nil)]
  have hserved : (serveTouched m).mem = m.mem := by
    unfold serveTouched
    split
    · rfl
    · simp only [fireMons, wakeN, firstWaiter, wakeMwait, hreqs, List.filter_nil, List.foldl_nil, argMax]
  unfold flush
  rw [flushN_noReqs _ _ (by rw [hserved]; exact hreqs), hserved]

theorem writeLocs_noReqs {m : Mach} (ls : List Loc) (bs : List Byte) (hreqs : m.mem.reqs = []) :
    (writeLocs m ls bs).mem.hbm = (setBytes m ls bs).mem.hbm := by
  have hset : (setBytes m ls bs).mem.reqs = [] := by rw [setBytes_eq]; exact hreqs
  have hmons : ∀ x : Mach, MarksOnly x (fireMons x ls) := fun x => ⟨rfl, rfl, rfl, rfl, rfl, rfl, rfl⟩
  have hmarks : MarksOnly (setBytes m ls bs) (queueWrites (fireMons (clearMarks (setBytes m ls bs) ls) ls) ls) :=
    ((clearMarks_marksOnly _ ls).trans (hmons _)).trans (queueWrites_marksOnly _ ls)
  unfold writeLocs
  dsimp only
  generalize queueWrites (fireMons (clearMarks (setBytes m ls bs) ls) ls) ls = x at hmarks ⊢
  refine (wake_noReqs ?_).trans hmarks.hbm
  exact hmarks.reqs.trans hset

/-- A run of bytes of HBM is written as a number is. -/
theorem setBytes_run (n : Nat) : ∀ (m : Mach) (a v : Nat),
    (setBytes m ((upto n).map (fun i => .hbm (a + i))) (bytesOf v n)).mem.hbm = memWrite m.mem.hbm a n v := by
  induction n with
  | zero => exact fun m a v => rfl
  | succ n ih =>
    intro m a v
    have hrun : (upto (n + 1)).map (fun i => Loc.hbm (a + i)) = .hbm a :: (upto n).map (fun i => Loc.hbm (a + 1 + i)) := by
      rw [upto, List.range_succ_eq_map, List.map_cons, List.map_map]
      refine congrArg _ (List.map_congr_left fun i _ => ?_)
      show Loc.hbm (a + (i + 1)) = _
      rw [Nat.add_comm i 1, Nat.add_assoc]
    rw [hrun]
    exact ih (setByte m (.hbm a) (BitVec.ofNat 8 v)) (a + 1) (v / 256)

theorem memGet_memWrite_other (n : Nat) : ∀ (t : List Host.Cell) (a v b : Nat), b < a ∨ a + n ≤ b → memGet (memWrite t a n v) b = memGet t b := by
  induction n with
  | zero => exact fun t a v b _ => rfl
  | succ n ih =>
    intro t a v b hb
    exact (ih _ _ _ _ (by omega)).trans (memGet_memPut_other _ _ _ _ (by omega))

theorem memRead_memWrite (n : Nat) : ∀ (t : List Host.Cell) (a v : Nat), memRead (memWrite t a n v) a n = v % 256 ^ n := by
  induction n with
  | zero => exact fun t a v => (Nat.mod_one v).symm
  | succ n ih =>
    intro t a v
    have hfirst : memGet (memWrite (memPut t a (BitVec.ofNat 8 v)) (a + 1) n (v / 256)) a = BitVec.ofNat 8 v :=
      (memGet_memWrite_other n _ _ _ _ (.inl (Nat.lt_succ_self a))).trans (memGet_memPut_same ..)
    rw [memWrite, memRead, ih, hfirst, BitVec.toNat_ofNat, pow_succ' 256 n]
    exact Nat.mod_mul.symm

theorem memRead_lt (n : Nat) : ∀ (t : List Host.Cell) (a : Nat), memRead t a n < 256 ^ n := by
  induction n with
  | zero => exact fun t a => Nat.one_pos
  | succ n ih =>
    intro t a
    have hrest := ih t (a + 1)
    have hbyte := (memGet t a).isLt
    rw [memRead, pow_succ' 256 n]
    omega

/-- The leaf entry alone changes where this package gives up a page. -/
theorem movePage_hbm {m : Mach} {p va peer pa e : Nat} (hpa : pteAddr m va walkLevels (pastOf m p).xroot = some pa)
    (he : memRead m.mem.hbm pa 8 = e) (hmig : migratable e = true) (hreqs : m.mem.reqs = []) (hpeer : peer ≠ m.host.peer)
    (hown : bits e 52 9 = m.host.peer) : (movePage m p va peer).mem.hbm = memWrite m.mem.hbm pa 8 (setBits e 52 9 peer) := by
  have hkeep : ¬ ((!migratable e) = true) := by rw [hmig]; exact Bool.false_ne_true
  have hfar : ¬ (peer = m.host.peer ∧ bits e 52 9 ≠ m.host.peer) := fun h => hpeer h.1
  unfold movePage
  rw [hpa]
  dsimp only
  rw [he, if_neg hkeep, if_neg hfar, if_pos (.inr hown)]
  dsimp only
  rw [writeLocs_noReqs _ _ hreqs, setBytes_run]

theorem movePage_moves {m : Mach} {p va peer pa : Nat} (hpa : pteAddr m va walkLevels (pastOf m p).xroot = some pa) :
    let e := memRead m.mem.hbm pa 8
    migratable e = true → m.mem.reqs = [] → peer ≠ m.host.peer → bits e 52 9 = m.host.peer →
      memRead (movePage m p va peer).mem.hbm pa 8 = setBits e 52 9 peer
      ∧ (∀ a, a < pa ∨ pa + 8 ≤ a → memGet (movePage m p va peer).mem.hbm a = memGet m.mem.hbm a) := by
  intro e hmig hreqs hpeer hown
  have hlt : setBits e 52 9 peer < 256 ^ 8 := by
    have he : e < 256 ^ 8 := memRead_lt 8 _ _
    rw [setBits_eq]
    omega
  rw [movePage_hbm hpa rfl hmig hreqs hpeer hown]
  exact ⟨(memRead_memWrite 8 _ _ _).trans (Nat.mod_eq_of_lt hlt), fun a ha => memGet_memWrite_other 8 _ _ _ _ ha⟩

/-! ## SLOT (R407) -/

section Slot
variable {s : State} {u w : Nat} {d a : Opd} (h : sStarts s.m u w [a] [d] = true)
include h

theorem exec_slot :
    let m := readDone s.m [a] [d]
    (∀ e, slotEntry m (pastOfActor m (.unit u w)) [] (payOf s.m .whole a) = some e →
      exec (.slot d a) s = .next { s with m := putS (newSlot m (pastOfActor m (.unit u w)) e) u d 0 })
    ∧ (slotEntry m (pastOfActor m (.unit u w)) [] (payOf s.m .whole a) = none →
      exec (.slot d a) s = .next { s with m := putS m u d (2 ^ 63 + 4) }) := by
  intro m
  have hA : (([a].map (payOf s.m .whole))[0]?).getD 0 = payOf s.m .whole a := rfl
  refine ⟨fun e he => exec_sFire_eq (i := .slot d a) rfl h ?_, fun he => exec_sFire_eq (i := .slot d a) rfl h ?_⟩
  · simp only [hA]
    rw [he]
  · simp only [hA]
    rw [he]
    rfl

end Slot

theorem mem_slotOwners (m : Mach) (p k : Nat) (old v : Option Nat) : p ∈ slotOwners m p k old v := by
  unfold slotOwners
  split
  · exact List.mem_append_right _ (List.mem_singleton_self p)
  · exact List.mem_singleton_self p

theorem newSlot_spec (m : Mach) (p : Nat) (e : Nat × Option Nat) :
    (newSlot m p e).fab.newSlots = (m.fab.newSlots.filter (fun x => x.1 ≠ e.1)) ++ [e] ∧ (newSlot m p e).fab.slots = m.fab.slots
      ∧ (newSlot m p e).mem = m.mem ∧ p ∈ tget [] (2 * e.1 + 1) (newSlot m p e).fab.slotOwn := by
  have hflt : m.fab.newSlots.filter (fun x => x.1 != e.1) = m.fab.newSlots.filter (fun x => x.1 ≠ e.1) :=
    List.filter_congr (fun x _ => by by_cases hx : x.1 = e.1 <;> simp [hx])
  refine ⟨congrArg (· ++ [e]) hflt, rfl, rfl, ?_⟩
  rw [tget, newSlot, tfind_tset_same]
  exact mem_slotOwners ..

/-- Entries that are written take their places in the table, and no other changes. -/
theorem writeSlots_spec (own : Mach → Nat → Option Nat → List Nat) (w : SlotMap) : ∀ m,
    (writeSlots m own w).fab.newSlots = m.fab.newSlots.filter (fun x => w.all (fun e => x.1 != e.1))
    ∧ ((w.map (·.1)).Nodup → ∀ e ∈ w, tfind e.1 (writeSlots m own w).fab.slots = e.2)
    ∧ (∀ k, (∀ e ∈ w, k ≠ e.1) → tfind k (writeSlots m own w).fab.slots = tfind k m.fab.slots) := by
  induction w with
  | nil =>
    refine fun m => ⟨?_, fun _ e he => absurd he List.not_mem_nil, fun k _ => rfl⟩
    exact (List.filter_eq_self.mpr fun x _ => rfl).symm
  | cons e w ih =>
    intro m
    obtain ⟨hnew, hsame, hother⟩ := ih { m with
      fab.newSlots := m.fab.newSlots.filter (fun x => x.1 != e.1)
      fab.slots := match e.2 with | some v => tset e.1 v m.fab.slots | none => tdel e.1 m.fab.slots
      fab.slotOwn := tput [] (2 * e.1) (if e.2.isSome then own m e.1 e.2 else []) (tdel (2 * e.1 + 1) m.fab.slotOwn) }
    refine ⟨hnew.trans ?_, fun hnodup x hx => ?_, fun k hk => ?_⟩
    · rw [List.filter_filter]
      exact List.filter_congr fun x _ => (Bool.and_comm _ _)
    · obtain ⟨hnot, hrest⟩ := List.nodup_cons.mp hnodup
      rcases List.mem_cons.mp hx with rfl | hx
      · refine (hother x.1 fun y hy he => hnot (List.mem_map.mpr ⟨y, hy, he.symm⟩)).trans ?_
        cases hv : x.2 with
        | some v => exact tfind_tset_same ..
        | none => exact tfind_tdel_same ..
      · exact hsame hrest x hx
    · obtain ⟨hne, hrest⟩ := List.forall_mem_cons.mp hk
      refine (hother k hrest).trans ?_
      cases hv : e.2 with
      | some v => exact tfind_tset_other _ _ _ _ hne
      | none => exact tfind_tdel_other _ _ _ hne

theorem slotEntryEffect_moves {s : State} (router : Nat) (hnodup : (s.m.fab.newSlots.map (·.1)).Nodup) :
    ∃ t, exec (.slotEntryEffect router) s = .next t
      ∧ t.m.fab.newSlots = s.m.fab.newSlots.filter (fun e => e.1 / 2048 ≠ router)
      ∧ (∀ e ∈ s.m.fab.newSlots, e.1 / 2048 = router → tfind e.1 t.m.fab.slots = e.2)
      ∧ (∀ k, k / 2048 ≠ router → tfind k t.m.fab.slots = tfind k s.m.fab.slots) := by
  refine ⟨_, next_of_lift (slotEntryEffectG router) rfl rfl, ?_⟩
  have hmem : ∀ e, e ∈ s.m.fab.newSlots.filter (fun e => e.1 / 2048 == router) ↔ e ∈ s.m.fab.newSlots ∧ e.1 / 2048 = router :=
    fun e => List.mem_filter.trans (and_congr_right' beq_iff_eq)
  obtain ⟨hnew, hsame, hother⟩ := writeSlots_spec (fun m k v =>
    let new := tget [] (2 * k + 1) m.fab.slotOwn
    if tfind k m.fab.slots == v then ((tget [] (2 * k) m.fab.slotOwn).filter (fun p => !new.contains p)) ++ new else new)
    (s.m.fab.newSlots.filter (fun e => e.1 / 2048 == router)) s.m
  refine ⟨hnew.trans (List.filter_congr fun x hx => ?_), fun e he hrouter => ?_, fun k hk => ?_⟩
  · rw [Bool.eq_iff_iff, List.all_eq_true, decide_eq_true_eq]
    refine ⟨fun h hrouter => ?_, fun h e he => bne_iff_ne.mpr fun hxe => h (hxe ▸ ((hmem e).mp he).2)⟩
    exact bne_iff_ne.mp (h x ((hmem x).mpr ⟨hx, hrouter⟩)) rfl
  · exact hsame (hnodup.sublist (List.filter_sublist.map _)) e ((hmem e).mpr ⟨he, hrouter⟩)
  · exact hother k fun e he hke => hk (hke ▸ ((hmem e).mp he).2)

/-- Settles O54: each instruction and event by its lemma. -/
theorem portalAndPages : Obligations.PortalAndPages := by
  unfold Obligations.PortalAndPages
  refine ⟨fun f d a b s => exec_ramo, fun s id r op ea b c ls v hr hop hmay ht => portalReply_data hr hop hmay ht v,
    fun s id r op ea b c ls x y hr hop hmay ht hlacks => portalReply_fail hr hop hmay ht hlacks x y,
    fun s id r hr hmay ans => portalReply_waits hr hmay ans, ?_, fun s id r va key peer hr hop hopen => pageMigration_ours hr hop hopen,
    fun m p va peer pa hpa hmig hreqs _ => movePage_moves hpa hmig hreqs, fun s u w d a h => exec_slot h, newSlot_spec,
    fun s router => slotEntryEffect_moves router⟩
  intro d a b s h m p va peer
  obtain ⟨hbad, hleaf⟩ := exec_pgmig h
  have keeps : ∀ {e}, migratable e = true → ¬ (!migratable e) = true := fun hmig => by rw [hmig]; exact Bool.false_ne_true
  have reaches : ∀ {e}, peerFailed m p peer = false → peerFailed m p (bits e 52 9) = false →
      ¬ (peerFailed m p peer || peerFailed m p (bits e 52 9)) = true := fun hto hfrom => by rw [hto, hfrom]; exact Bool.false_ne_true
  refine ⟨hbad, fun e he hmig => ?_, fun e he hmig hto hfrom => ⟨fun hthere => ?_, fun hmoves => ?_⟩⟩
  · refine (hleaf e he).trans (congrArg Host.Outcome.next (after_congr (if_pos ?_)))
    rw [hmig]
    rfl
  · refine (hleaf e he).trans (congrArg Host.Outcome.next (after_congr ?_))
    exact (if_neg (keeps hmig)).trans ((if_neg (reaches hto hfrom)).trans (if_pos hthere))
  · refine (hleaf e he).trans (congrArg Host.Outcome.next (after_congr ?_))
    exact (if_neg (keeps hmig)).trans ((if_neg (reaches hto hfrom)).trans (if_neg hmoves))

end Sys2Proof.Machine

/-! PROOFS. The stage instructions (R359-R370, R378). -/
namespace Sys2Proof.Machine

/-- An instruction of the class that starts answers at once with what its effect gives. -/
theorem exec_stageStart {i : Instr} {s : State} {os : List Opd} {d : Opd} {wide : Bool} {eff : List Val → Mach → Mach × Nat}
    (hi : exec i s = lift (stageStart os d wide eff) s) (h : memStarts s.m os [d] (pairReg s.m wide d) = true) :
    exec i s = .next (ruleAns s os d wide (eff (os.map (srcVal s.m .whole)))) := by
  refine next_of_lift _ hi ?_
  unfold stageStart
  rw [memStart_starts _ _ _ _ _ _ h]

theorem exec_stageStart_narrow {i : Instr} {s : State} {os : List Opd} {d : Opd} {eff : List Val → Mach → Mach × Nat}
    (hi : exec i s = lift (stageStart os d false eff) s) (h : memStarts s.m os [d] [] = true) :
    exec i s = .next (ruleAns s os d false (eff (os.map (srcVal s.m .whole)))) :=
  exec_stageStart hi (by rwa [pairReg_narrow])

/-! ## STAGE (R359, R361) -/

theorem exec_stage {s : State} {d a : Opd} (h : memStarts s.m [a] [d] [] = true) : exec (.stage d a) s =
    .next (ruleAns s [a] d false (fun m => stageGo { m with free := m.free + 1 } (pastOfActor m m.cur) (payOf s.m .whole a % 2 ^ 56))) := by
  refine (exec_stageStart_narrow (i := .stage d a) rfl h).trans ?_
  rw [show bits (natAt ([a].map (srcVal s.m .whole)) 0) 0 56 = payOf s.m .whole a % 2 ^ 56 from bits_zero_eq_mod _ _]

theorem failW_ne_zero (c : Nat) : failW c ≠ 0 := by
  have := failW_ge c
  omega

theorem length_of_readWords {m : Mach} {who : Actor} {va n : Nat} {ws : List W64} (h : readWords m who va n = .ok ws) : ws.length = n := by
  unfold readWords at h
  cases hb : readBytes m who va (8 * n) with
  | error e =>
    rw [hb] at h
    cases h
  | ok bs =>
    rw [hb] at h
    obtain rfl := Except.ok.inj h
    rw [List.length_map]
    exact List.length_range

/-- The fields that STAGE judges are those of the first eight words. -/
theorem fieldsOk_congr {f g : Fam} (h : ∀ i < 8, g.word i = f.word i) : g.fieldsOk = f.fieldsOk := by
  have h0 := h 0 (by decide)
  have h1 := h 1 (by decide)
  have h2 := h 2 (by decide)
  have h3 := h 3 (by decide)
  have h4 := h 4 (by decide)
  have h5 := h 5 (by decide)
  have h6 := h 6 (by decide)
  have h7 := h 7 (by decide)
  unfold Fam.fieldsOk Fam.kind Fam.hsel Fam.kb Fam.maxt Fam.cth Fam.mth Fam.stbase Fam.stlen Fam.tcnt Fam.sblk Fam.rblk Fam.spe Fam.sch Fam.rpe
  rw [h0, h1, h2, h3, h4, h5, h6, h7]

/-- The family that STAGE declares, with the candidates that it has read behind its descriptor. -/
theorem declared_spec {ws cands : List W64} {own : Nat} (hlen : ws.length = 8)
    (hok : (⟨ws, [], 0, none, [], [], 0, none, [], [], 0, 0, 0⟩ : Fam).fieldsOk = true) :
    let f : Fam := ⟨ws ++ cands, [⟨0, own, false, false⟩], 0, none, [], [], 0, none, [], [], 0, 0, 0⟩
    f.desc.take 8 = ws ∧ f.entries.map (·.lo) = [0] ∧ f.version = 0 ∧ f.step = none ∧ f.fieldsOk = true := by
  refine ⟨List.take_left' hlen, rfl, rfl, rfl, (fieldsOk_congr fun i hi => ?_).trans hok⟩
  show (((ws ++ cands)[i]?).getD 0).toNat = ((ws[i]?).getD 0).toNat
  rw [List.getElem?_append_left (by omega)]

theorem stageGo_declares {m m1 : Mach} {p va : Nat} (h : stageGo m p va = (m1, 0)) : ∃ ws f, readWords m m.cur va 8 = .ok ws ∧
    let k := famKey p (bits ((ws[0]?).getD 0).toNat 0 6)
    famOf m1 k = some f ∧ famOf m k = none ∧ f.desc.take 8 = ws ∧ f.entries.map (·.lo) = [0] ∧ f.version = 0 ∧ f.step = none
      ∧ f.fieldsOk = true := by
  have refused : ∀ {m2 : Mach} {c : Nat} {P : Prop}, (m2, failW c) = (m1, 0) → P :=
    fun he => absurd (congrArg Prod.snd he) (failW_ne_zero _)
  unfold stageGo at h
  split at h
  · exact refused h
  split at h
  · exact refused h
  rename_i ws hws
  dsimp only at h
  split at h
  · exact refused h
  rename_i hok
  split at h
  · exact refused h
  rename_i hnone
  split at h
  · exact refused h
  · exact refused h
  rename_i bs own _ _
  split at h
  · exact refused h
  have hnew : famOf m (famKey p (bits ((ws[0]?).getD 0).toNat 0 6)) = none := Option.not_isSome_iff_eq_none.mp hnone
  have hspec := declared_spec (own := own)
    (cands := ((upto (Fam.tcnt ⟨ws, [], 0, none, [], [], 0, none, [], [], 0, 0, 0⟩)).map (fun i => natOf ((bs.drop (2 * i)).take 2))).map (BitVec.ofNat 64))
    (length_of_readWords hws) (by simpa using hok)
  split at h
  · split at h
    · exact refused h
    split at h
    · exact refused h
    obtain rfl := congrArg Prod.fst h
    exact ⟨ws, _, hws, famOf_setFam _ _ _, hnew, hspec⟩
  · obtain rfl := congrArg Prod.fst h
    exact ⟨ws, _, hws, famOf_setFam _ _ _, hnew, hspec⟩

/-! ## CAST and MERGE (R364, R370) -/

theorem exec_stepStart {i : Instr} {s : State} {d a b : Opd} {code : Mach → Nat → Fam → Nat → Nat}
    {start : Mach → Nat → Nat → Nat → Nat → Fam → Mach} (hi : exec i s = lift (stepStart d a b code start) s)
    (h : memStarts s.m [a, b] [d] [] = true) :
    let m := readDone s.m [a, b] [d]
    let p := pastOfActor m m.cur
    let n := payOf s.m .whole a % 2 ^ 6
    let k := payOf s.m .whole b % 2 ^ 5
    ∀ f, famOf m (famKey p n) = some f → code m p f k = 0 →
      exec i s = .next { s with m := start (addReq m (mkReq m (dstOf m d false) (.stage n) 5 true false)) p n k m.ids f } := by
  intro m p n k f hf hc
  refine (exec_memStart hi h).trans (congrArg (fun m => Host.Outcome.next { s with m := m }) ?_)
  have hA : bits (natAt ([a, b].map (srcVal s.m .whole)) 0) 0 6 = n := bits_zero_eq_mod _ _
  have hB : bits (natAt ([a, b].map (srcVal s.m .whole)) 1) 0 5 = k := bits_zero_eq_mod _ _
  simp only [hA, hB]
  rw [show famOf (readDone s.m [a, b] [d]) _ = some f from hf]
  exact if_neg (not_not.mpr hc)

theorem entryOf_modify {es : List KrtE} {i : Nat} (f : KrtE → KrtE) (hi : i < es.length) : entryOf (es.modify i f) i = f (entryOf es i) := by
  simp only [entryOf, List.getElem?_modify_eq, List.getElem?_eq_getElem hi, Option.getD_some]
  rfl

theorem cores_modify (es : List KrtE) (i : Nat) (f : KrtE → KrtE) (hf : ∀ e, (f e).core = e.core) :
    (es.modify i f).map (·.core) = es.map (·.core) := by
  refine List.ext_getElem? fun j => ?_
  rw [List.getElem?_map, List.getElem?_map, List.getElem?_modify]
  cases es[j]? with
  | none => rfl
  | some e =>
    by_cases hij : i = j
    · simp [hij, hf]
    · simp [hij]

/-- A merge holds its entry's range, and changes no holder. -/
theorem startMerge_holds (m : Mach) (p n i req : Nat) (f : Fam) (h0 : i ≠ 0) (hi : i < f.entries.length) :
    ∃ g, famOf (startMerge m p n i req f) (famKey p n) = some g ∧ (g.entries.map (·.core)) = f.entries.map (·.core)
      ∧ (entryOf g.entries i).hold = true ∧ g.step.map (fun s => (s.kind, s.ph, s.entry, s.other, s.mid)) =
        some (.merge, .prepare, i, holderOf f (i - 1), holderOf f i) := by
  refine ⟨_, famOf_setFam _ _ _, ?_⟩
  simp only [if_neg h0]
  refine ⟨cores_modify _ _ _ fun _ => rfl, ?_, rfl⟩
  rw [entryOf_modify _ hi]

/-! ## KRT, CASTQ and HASH -/

theorem exec_krt {s : State} {d a b : Opd} (h : memStarts s.m [a, b] [d] (pairReg s.m true d) = true) :
    exec (.krt d a b) s = .next (ruleAns s [a, b] d true (fun m =>
      (m, match famOf m (famKey (pastOfActor m m.cur) (payOf s.m .whole a % 2 ^ 6)) with
        | some f => krtWord f (payOf s.m .whole b % 2 ^ 5)
        | none => 0))) := by
  refine (exec_stageStart (i := .krt d a b) rfl h).trans (congrArg Host.Outcome.next (after_congr ?_))
  have hA : bits (natAt ([a, b].map (srcVal s.m .whole)) 0) 0 6 = payOf s.m .whole a % 2 ^ 6 := bits_zero_eq_mod _ _
  have hB : bits (natAt ([a, b].map (srcVal s.m .whole)) 1) 0 5 = payOf s.m .whole b % 2 ^ 5 := bits_zero_eq_mod _ _
  dsimp only
  rw [hA, hB] <;> rfl

theorem exec_castq {s : State} {d a : Opd} (h : memStarts s.m [a] [d] [] = true) :
    exec (.castq d a) s = .next (ruleAns s [a] d false (fun m =>
      (m, match famOf m (famKey (pastOfActor m m.cur) (payOf s.m .whole a % 2 ^ 6)) with
        | some f => castqWord f
        | none => 2 ^ 63 + 5))) := by
  refine (exec_stageStart_narrow (i := .castq d a) rfl h).trans (congrArg Host.Outcome.next (after_congr ?_))
  have hA : bits (natAt ([a].map (srcVal s.m .whole)) 0) 0 6 = payOf s.m .whole a % 2 ^ 6 := bits_zero_eq_mod _ _
  dsimp only
  rw [hA]
  rfl

theorem exec_hash {s : State} {d a : Opd} (spr : Option (Fin 64)) (hs : starts s.m [(.whole, a)] (.opd d) = true) :
    let h := fun k => match spr with | some kb => hashSpread kb.val k | none => rhash k
    let x := payOf s.m .whole a
    ((∃ u w, s.m.cur = .unit u w) → exec (.hash spr d a) s = .next (wroteV s [a] (.opd d) (Val.ofNat (h (x % 2 ^ 32)))))
    ∧ ((∃ c p f k b z, s.m.cur = .pe c p f k b z) →
      exec (.hash spr d a) s = .next (wroteV s [a] (.opd d) (Val.ofNat (packLanes 32 ((lanesOf 32 4 x).map h))))) := by
  intro h x
  have hcur : (readDone s.m [a] (dstOpds (.opd d))).cur = s.m.cur := readDone_actor ..
  refine ⟨fun ⟨u, w, hu⟩ => ?_, fun ⟨c, p, f, k, b, z, hp⟩ => ?_⟩
  · refine next_of_lift (hashG spr d a) rfl ((fire_starts s.m _ _ _ hs).trans ?_)
    simp only [List.map_cons, List.map_nil, hcur, hu]
    rfl
  · refine next_of_lift (hashG spr d a) rfl ((fire_starts s.m _ _ _ hs).trans ?_)
    simp only [List.map_cons, List.map_nil, hcur, hp]
    rfl

/-! ## KROUTE (R362, R363) -/

theorem krouteGo_routes {m : Mach} {n : Nat} {d : Opd} {va vb : Val} (hf : (famOf m (famKey (pastOfActor m m.cur) n)).isSome = true) :
    let key := vb.pay.toNat % 2 ^ 32
    let r := mkReq m (dstOf m d false) (.kroute n key { va with pay := BitVec.ofNat 128 (va.pay.toNat / 2 ^ 32 * 2 ^ 32 + key) }) 5 false false
    krouteGo n d va vb m = routeRec (addReq m r) r := by
  refine if_neg ?_
  rw [Option.isNone_iff_eq_none]
  exact fun hnone => by simp [hnone] at hf

theorem exec_kroute_pe {s : State} {f : FamF} {d a b : Opd} {core pe fr k bk : Nat} {c : Bool} (hcur : s.m.cur = .pe core pe fr k bk c)
    (hb : (srcVal s.m .whole b).poison = false) :
    let m := deqSrcs s.m [a, b]
    let key := payOf s.m .whole b % 2 ^ 32
    let rcd := { srcVal s.m .whole a with pay := BitVec.ofNat 128 (payOf s.m .whole a / 2 ^ 32 * 2 ^ 32 + key) }
    let held := routeStalls s.m s.m.cur (pastOfActor s.m s.m.cur) f.fam.val key
    (famOf m (famKey (pastOfActor m m.cur) f.fam.val)).isSome = true →
    let r := mkReq m (dstOf m d false) (.kroute f.fam.val key rcd) 5 false false
    (held = false → exec (.kroute f d a b) s = .next { s with m := routeRec (addReq m r) r })
    ∧ (held = true → exec (.kroute f d a b) s = .next { s with m := stall s.m }) := by
  intro m key rcd held hfam r
  have hgo : krouteG f.fam.val d a b s.m =
      if held = true then stall s.m else krouteGo f.fam.val d (srcVal s.m .whole a) (srcVal s.m .whole b) m := by
    simp only [krouteG, hcur, hb, Bool.false_eq_true, if_false]
    simp only [held, hcur]
    rfl
  refine ⟨fun hfree => next_of_lift (krouteG f.fam.val d a b) rfl (hgo.trans ?_),
    fun hheld => next_of_lift (krouteG f.fam.val d a b) rfl (hgo.trans (if_pos hheld))⟩
  rw [if_neg (Bool.eq_false_iff.mp hfree)]
  exact krouteGo_routes hfam

theorem exec_kroute_unit {s : State} {f : FamF} {d a b : Opd} {u w : Nat} (hcur : s.m.cur = .unit u w) (hready : sReady s.m u [a, b, d] [] = true) :
    let m := readDone s.m [a, b, d] []
    let key := payOf s.m .whole b % 2 ^ 32
    let rcd := { srcVal s.m .whole a with pay := BitVec.ofNat 128 (payOf s.m .whole a / 2 ^ 32 * 2 ^ 32 + key) }
    let held := routeStalls m m.cur (pastOfActor m m.cur) f.fam.val key
    (famOf m (famKey (pastOfActor m m.cur) f.fam.val)).isSome = true →
    let r := mkReq m (dstOf m d false) (.kroute f.fam.val key rcd) 5 false false
    (held = false → exec (.kroute f d a b) s = .next { s with m := routeRec (addReq m r) r })
    ∧ (held = true → exec (.kroute f d a b) s = .next { s with m := stall m }) := by
  intro m key rcd held hfam r
  have hgo : krouteG f.fam.val d a b s.m =
      if held = true then stall m else krouteGo f.fam.val d (srcVal s.m .whole a) (srcVal s.m .whole b) m := by
    simp only [krouteG, hcur]
    rw [sStart_ready s.m u w _ _ _ hcur hready]
    rfl
  refine ⟨fun hfree => next_of_lift (krouteG f.fam.val d a b) rfl (hgo.trans ?_),
    fun hheld => next_of_lift (krouteG f.fam.val d a b) rfl (hgo.trans (if_pos hheld))⟩
  rw [if_neg (Bool.eq_false_iff.mp hfree)]
  exact krouteGo_routes hfam

theorem routeStalls_iff {m : Mach} {who : Actor} {p n key : Nat} {f : Fam} (hf : famOf m (famKey p n) = some f) :
    routeStalls m who p n key = true ↔ ∃ e, coverOf (copyOf f (senderOf who)).2 (f.hash key) = some e
      ∧ ∃ x ∈ f.entries, x.core = e.core ∧ x.hold = true := by
  simp only [routeStalls, hf]
  cases hc : coverOf (copyOf f (senderOf who)).2 (f.hash key) with
  | none => simp
  | some e => simp

/-! ## The tables that a sender holds (R363) -/

theorem roomTable_room {m : Mach} {k sk : Nat}
    (h : (heldTables m (k / 64) sk).length < 8 ∨ (∃ x ∈ heldTables m (k / 64) sk, x.1 = k)) : roomTable m k sk = m := by
  refine if_pos ?_
  simpa [or_comm] using h

theorem roomTable_gives {m : Mach} {k sk : Nat} (h8 : 8 ≤ (heldTables m (k / 64) sk).length)
    (hk : ∀ x ∈ heldTables m (k / 64) sk, x.1 ≠ k) :
    ∃ x ∈ heldTables m (k / 64) sk, roomTable m k sk = setFam { m with free := m.free + 1 } x.1 { x.2 with copies := tdel sk x.2.copies } := by
  have hlt : Config.freeSlot m.free % (heldTables m (k / 64) sk).length < (heldTables m (k / 64) sk).length := Nat.mod_lt _ (by omega)
  refine ⟨(heldTables m (k / 64) sk)[Config.freeSlot m.free % (heldTables m (k / 64) sk).length], List.getElem_mem hlt, ?_⟩
  have hother : (heldTables m (k / 64) sk).any (·.1 == k) = false := List.any_eq_false.mpr fun x hx => by simpa using hk x hx
  have hfull : ¬ (((heldTables m (k / 64) sk).any (·.1 == k) || decide ((heldTables m (k / 64) sk).length < 8)) = true) := by
    rw [hother, decide_eq_false (Nat.not_lt.mpr h8)]
    exact Bool.false_ne_true
  refine (if_neg hfull).trans ?_
  rw [List.getElem?_eq_getElem hlt]

/-- Whatever table goes, the fabric and the requests are as they were. -/
theorem roomTable_fab (m : Mach) (k sk : Nat) : (roomTable m k sk).fab = m.fab := by
  unfold roomTable
  dsimp only
  split
  · rfl
  · split <;> rfl

theorem famOf_modReq (m : Mach) (id k : Nat) (g : Req → Req) : famOf (modReq m id g) k = famOf m k := by
  unfold modReq
  split <;> rfl

theorem routeRec_routes {m : Mach} {r : Req} {n key : Nat} {v : Val} {f : Fam} {e : KrtE} (hop : r.op = .kroute n key v)
    (hf : famOf m (famKey r.past n) = some f) (he : coverOf (copyOf f (senderOf r.who)).2 (f.hash key) = some e) :
    (routeRec m r).fab.transit = m.fab.transit ++ [⟨routeSrc r.who, f.sin e.core, ⟨v, false, false, f.sctx⟩, some r.id⟩]
      ∧ (famOf (routeRec m r) (famKey r.past n)).map (·.sent) = some (f.sent + 1)
      ∧ ∀ g, famOf (routeRec m r) (famKey r.past n) = some g → thas (senderOf r.who) g.copies = true := by
  let sk := senderOf r.who
  let f1 := { f with copies := tset sk (copyOf f sk) f.copies, sent := f.sent + 1 }
  let m2 := modReq (setFam (roomTable m (famKey r.past n) sk) (famKey r.past n) f1) r.id
    (fun x => { x with granted := some (e.core, (copyOf f sk).1) })
  have hrec : routeRec m r =
      { m2 with fab.transit := m2.fab.transit ++ [⟨routeSrc r.who, f.sin e.core, ⟨v, false, false, f.sctx⟩, some r.id⟩] } := by
    simp only [routeRec, hop, hf, he]
    rfl
  have hfam : famOf (routeRec m r) (famKey r.past n) = some f1 := by
    rw [hrec]
    exact (famOf_modReq _ _ _ _).trans (famOf_setFam _ _ _)
  have hfab : m2.fab = m.fab := (modReq_fab _ _ _).trans (roomTable_fab ..)
  refine ⟨?_, by rw [hfam]; rfl, fun g hg => ?_⟩
  · rw [hrec]
    show m2.fab.transit ++ _ = _
    rw [hfab]
  · obtain rfl := Option.some.inj (hfam.symm.trans hg)
    show (tfind sk (tset sk _ f.copies)).isSome = true
    rw [tfind_tset_same]
    rfl

/-! ## SDONE and MDONE (R369) -/

theorem exec_stepDone {i : Instr} {s : State} {a : Opd} {split : Bool} (hi : exec i s = lift (stepDoneG split a) s)
    (h : starts s.m [(.whole, a)] .none = true) : exec i s = .next { s with m := stageEndsCur (doneG (markDone split (readDone s.m [a] []))) } :=
  next_of_lift _ hi (fireK_starts s.m _ _ _ _ h)

/-- Settles O49: each instruction by its start, and the table of a family by what changes it. -/
theorem stages : Obligations.Stages := by
  unfold Obligations.Stages
  refine ⟨fun d a s => exec_stage, fun m p va m1 => stageGo_declares, ?_, startMerge_holds, fun d a b s => exec_krt, fun d a s => exec_castq,
    fun spr d a s => exec_hash spr, fun f d a b s core pe fr k bk c => exec_kroute_pe, fun f d a b s u w => exec_kroute_unit,
    fun m who p n key f => routeStalls_iff, fun m r n key v f e => routeRec_routes, fun m k sk => roomTable_room,
    fun m k sk => roomTable_gives, ?_⟩
  · intro d a b s h m p n i m1 f hf
    exact ⟨fun hc => exec_stepStart (i := .cast d a b) rfl h f hf hc, fun hc => exec_stepStart (i := .merge d a b) rfl h f hf hc⟩
  · rintro a s i split (⟨rfl, rfl⟩ | ⟨rfl, rfl⟩) h
    · exact exec_stepDone (i := .sdone a) rfl h
    · exact exec_stepDone (i := .mdone a) rfl h

end Sys2Proof.Machine

/-! PROOFS. The index engine and the expert queues (R316-R326). -/
namespace Sys2Proof.Machine

/-! ## IWALK and SPMX (R318, R319) -/

theorem exec_iwalk {f : ScF} {s : State} {d b : Opd} {a : Fin 16} (h : memStarts s.m [b] [d] [] = true)
    (hres : bits (payOf s.m .whole b) 96 32 = 0) :
    let w := payOf s.m .whole b
    exec (.iwalk f d (.h a) b) s = .next (issued s [b] [d] (fun m =>
      { mkReq m (dstOf m d false) (.iwalk (readHand m a.val).1 a.val (bits w 0 32) (bits w 32 32) (bits w 64 32) 0) f.scope.code false false with
        hwait := (readHand m a.val).2 })) := by
  intro w
  refine (exec_memStart (i := .iwalk f d (.h a) b) rfl h).trans (congrArg Host.Outcome.next (after_congr ?_))
  have hgood : (bits (natAt ([b].map (srcVal s.m .whole)) 0) 96 32 != 0) = false := bne_eq_false_iff_eq.mpr hres
  simp only [hgood, Bool.false_eq_true, if_false]
  rfl

theorem exec_spmx {f : ScF} {s : State} {d b : Opd} {a : Fin 16} (h : memStarts s.m [b] [d] [] = true)
    (hres : bits (payOf s.m .whole b) 100 28 = 0) :
    let w := payOf s.m .whole b
    let x := bits w 96 4
    exec (.spmx f d (.h a) b) s = .next (issued s [b] [d] (fun m =>
      { mkReq m (dstOf m d false)
          (.spmx (readHand m a.val).1 (readHand m x).1 (a.val + 16 * x) (bits w 0 32) (bits w 32 32) (bits w 64 32) 0) f.scope.code false false with
        hwait := (readHand m a.val).2.orElse (fun _ => (readHand m x).2) })) := by
  intro w x
  refine (exec_memStart (i := .spmx f d (.h a) b) rfl h).trans (congrArg Host.Outcome.next (after_congr ?_))
  have hgood : (bits (natAt ([b].map (srcVal s.m .whole)) 0) 100 28 != 0) = false := bne_eq_false_iff_eq.mpr hres
  simp only [hgood, Bool.false_eq_true, if_false]
  rfl

/-! ## The tokens of a walk -/

theorem walkToken_gives {m : Mach} {r : Req} {next : ReqOp} {used : Nat} {v : Val} (h : dstCredit m r = true) : walkToken m r next used v =
    deliverTok (modReq { walkCounts m r with free := (walkCounts m r).free + used } r.id (fun q => { q with op := next })) r.past r.who r.dst (tokOf v) :=
  if_pos h

theorem walkEnd_ends {m : Mach} {r : Req} {e : Nat} {cut : Bool} (h : dstCredit m r = true) :
    walkEnd m r e cut = finishTok m r.id [⟨Val.ofNat (e % 2 ^ 32), true, cut, 0⟩] := if_pos h

section Emit
variable {s : State} {id : Nat} {r : Req} (hr : reqOf s.m id = some r) (hturn : indexTurn s.m r = true)
include hr hturn

/-- A walk whose lane holds its flits waits (R400). -/
theorem emit_held (hheld : laneHeld s.m r (nextLocs s.m r) = true) : exec (.indexEngineEmit ⟨id, .perform⟩) s = .next s := by
  refine next_of_lift (indexEngineEmitG id .perform) rfl ?_
  simp only [indexEngineEmitG, hr, hturn, hheld, answersFail, Bool.not_true, Bool.not_false, Bool.and_self, Bool.or_true, if_true]

theorem emit_performs (hfree : laneHeld s.m r (nextLocs s.m r) = false) {n : Mach} (hn : walkStep s.m r none = n) :
    exec (.indexEngineEmit ⟨id, .perform⟩) s = .next { s with m := n } := by
  refine next_of_lift (indexEngineEmitG id .perform) rfl ?_
  simp only [indexEngineEmitG, hr, hturn, hfree, answersFail, Bool.not_true, Bool.and_false, Bool.or_self, Bool.false_eq_true, if_false]
  exact hn

theorem emit_fails {c : BitVec 8} {d : BitVec 81} (hc : c ≠ 0) (hfails : walkFails s.m r c.toNat d.toNat = true) {n : Mach}
    (hn : walkStep (markBad s.m (nextLocs s.m r) c.toNat d.toNat) r (some (poisonReq r c.toNat d.toNat)) = n) :
    exec (.indexEngineEmit ⟨id, .fail c d⟩) s = .next { s with m := n } := by
  refine next_of_lift (indexEngineEmitG id (.fail c d)) rfl ?_
  have hans : answersFail (.fail c d) = true := bne_iff_ne.mpr hc
  simp only [indexEngineEmitG, hr, hturn, hans, Bool.not_true, Bool.false_and, Bool.or_self, Bool.false_eq_true, if_false, if_neg hc, hfails, if_true]
  exact hn

end Emit

/-- The value of a walk's next token. -/
def iwalkVal (m : Mach) (r : Req) (hv : BitVec 256) (p0 maj e : Nat) (failed : Option Val) : Val :=
  match failed, walkCoord m r hv maj (p0 + e) with
  | some v, _ => v
  | none, .error (c, d) => poisonReq r c d
  | none, .ok x => Val.ofNat (packLanes 32 [x.1, x.2, p0 + e, e])

theorem iwalkVal_ok {m : Mach} {r : Req} {hv : BitVec 256} {p0 maj e : Nat} {x : Nat × Nat} (hx : walkCoord m r hv maj (p0 + e) = .ok x) :
    iwalkVal m r hv p0 maj e none = Val.ofNat (packLanes 32 [x.1, x.2, p0 + e, e]) := by
  unfold iwalkVal
  rw [hx]

theorem iwalkVal_error {m : Mach} {r : Req} {hv : BitVec 256} {p0 maj e : Nat} {x : Nat × Nat} (hx : walkCoord m r hv maj (p0 + e) = .error x) :
    iwalkVal m r hv p0 maj e none = poisonReq r x.1 x.2 := by
  unfold iwalkVal
  rw [hx]

section Iwalk
variable {r : Req} {hv : BitVec 256} {h p0 cnt maj e : Nat} (hop : r.op = .iwalk hv h p0 cnt maj e) (hok : walkOk hv maj = true)
include hop hok

theorem walkStep_iwalk (m : Mach) (failed : Option Val) (he : e < cnt) (hb : p0 + e < hBound hv / 2 ^ hEsz hv) : walkStep m r failed =
    walkToken m r (.iwalk hv h p0 cnt maj (e + 1)) (16 + 4 * maj) (iwalkVal m r hv p0 maj e failed) := by
  simp only [walkStep, hop, hok, Bool.not_true, Bool.false_eq_true, if_false]
  exact if_pos ⟨he, hb⟩

theorem walkStep_iwalk_end (m : Mach) (failed : Option Val) (hend : cnt ≤ e ∨ hBound hv / 2 ^ hEsz hv ≤ p0 + e) :
    walkStep m r failed = walkEnd m r e (decide (e < cnt)) := by
  simp only [walkStep, hop, hok, Bool.not_true, Bool.false_eq_true, if_false]
  exact if_neg (by omega)

end Iwalk

section Spmx
variable {r : Req} {hv x : BitVec 256} {h m0 cm maj e : Nat} (hop : r.op = .spmx hv x h m0 cm maj e) (hok : spmxOk hv x maj = true)
include hop hok

theorem walkStep_spmx {m : Mach} {y : SpAcc} (he : e < cm) (hm : m0 + e < maj) (hrow : spmxRow m r hv x (m0 + e) = .ok y)
    (hcred : dstCredit m r = true) : walkStep m r none =
    (let v := match y.bad with
      | none => Val.ofNat (packLanes 32 [y.y, m0 + e, y.k, 0])
      | some a => poisonReq r 0x08 (a + h / 16 * 2 ^ 56)
    stickyReq (walkToken m r (.spmx hv x h m0 cm maj (e + 1)) (8 + 12 * (y.k + 1)) v) r y.fl) := by
  have hgo : e < cm ∧ m0 + e < maj := ⟨he, hm⟩
  simp only [walkStep, hop, hok, hrow, hcred, Bool.not_true, Bool.false_eq_true, if_false, if_pos hgo, if_true]
  cases y.bad <;> rfl

theorem walkStep_spmx_end (m : Mach) (hend : cm ≤ e ∨ maj ≤ m0 + e) : walkStep m r none = walkEnd m r e (decide (e < cm)) := by
  simp only [walkStep, hop, hok, Bool.not_true, Bool.false_eq_true, if_false]
  exact if_neg (by omega)

end Spmx

/-! ## EXQ, EXDQ and EXCFG (R322, R323, R325) -/

theorem exec_exq {f : ScF} {s : State} {d a b : Opd} (h : memStarts s.m [a, b] [d] [] = true) (hb : payOf s.m .whole b < 2 ^ 9) :
    exec (.exq f d a b) s = .next (issued s [a, b] [d] (fun m =>
      mkReq m (dstOf m d false) (.exq (payOf s.m .whole b) ⟨srcVal s.m .whole a, false, (headKind s.m a).2, 0⟩) f.scope.code false true)) := by
  refine next_of_lift (exqG f d a b) rfl ?_
  unfold exqG
  dsimp only
  rw [memStart_starts s.m _ _ _ _ _ h]
  have hq : bits (natAt ([a, b].map (srcVal s.m .whole)) 1) 0 9 = payOf s.m .whole b := (bits_zero_eq_mod _ _).trans (Nat.mod_eq_of_lt hb)
  have hres : (bits (natAt ([a, b].map (srcVal s.m .whole)) 1) 9 119 != 0) = false := by
    rw [bne_eq_false_iff_eq, bits_eq_div_mod]
    show payOf s.m .whole b / 2 ^ 9 % 2 ^ 119 = 0
    rw [Nat.div_eq_of_lt hb, Nat.zero_mod]
  simp only [hq, hres, Bool.false_eq_true, if_false]
  rfl

theorem exec_exdq {f : ScF} {s : State} {d a b : Opd} (h : memStarts s.m [a, b] [d] [] = true) : let n := payOf s.m .whole b % 2 ^ 9
    1 ≤ n → n ≤ 256 → exec (.exdq f d a b) s = .next (issued s [a, b] [d] (fun m =>
      mkReq m (dstOf m d false) (.exdq (payOf s.m .whole a % 2 ^ 9) n) f.scope.code true false)) := by
  intro n h1 h256
  refine (exec_memStart (i := .exdq f d a b) rfl h).trans (congrArg Host.Outcome.next (after_congr ?_))
  have hq : bits (natAt ([a, b].map (srcVal s.m .whole)) 0) 0 9 = payOf s.m .whole a % 2 ^ 9 := bits_zero_eq_mod _ _
  have hn : bits (natAt ([a, b].map (srcVal s.m .whole)) 1) 0 9 = n := bits_zero_eq_mod _ _
  simp only [hq, hn]
  exact if_neg (by omega)

theorem exec_excfg {s : State} {d a b : Opd} (h : memStarts s.m [a, b] [d] (pairReg s.m true b) = true) :
    let q := payOf s.m .whole a % 2 ^ 9
    (∀ r ∈ s.m.mem.reqs, queueReq r = some q → sameIssuer r.who s.m.cur = false) →
    let m := readDone s.m [a, b] [d]
    let c := excfgCode (queueX m q) (asidOfActor m m.cur) (wideVal s.m b)
    (c = 0 → exec (.excfg d a b) s =
      .next { s with m := resultNow (setQueueX m q (excfgQueue (queueX m q) (asidOfActor m m.cur) (wideVal s.m b))) (dstOf m d false) .tile (tokNat 0) })
    ∧ (c ≠ 0 → exec (.excfg d a b) s = .next { s with m := resultNow m (dstOf m d false) .tile (tokNat (2 ^ 63 + c)) }) := by
  intro q hmine m c
  have hq : bits (natAt ([a, b].map (srcVal s.m .whole)) 0) 0 9 = q := bits_zero_eq_mod _ _
  have hnone : m.mem.reqs.filter (fun r => queueReq r == some q && sameIssuer r.who m.cur) = [] := by
    rw [show m.mem = s.m.mem from readDone_mem .., show m.cur = s.m.cur from readDone_actor .., List.filter_eq_nil_iff]
    intro r hr hbad
    obtain ⟨hreq, hiss⟩ := Bool.and_eq_true_iff.mp hbad
    rw [hmine r hr (eq_of_beq hreq)] at hiss
    cases hiss
  have hgo : excfgG d a b s.m = if c = 0 then
      resultNow (setQueueX m q (excfgQueue (queueX m q) (asidOfActor m m.cur) (wideVal s.m b))) (dstOf m d false) .tile (tokNat 0)
      else resultNow m (dstOf m d false) .tile (tokNat (2 ^ 63 + c)) := by
    unfold excfgG
    dsimp only
    rw [memStart_starts s.m _ _ _ _ _ h, hq, show (readDone s.m [a, b] [d]).mem.reqs.filter _ = [] from hnone]
    rfl
  exact ⟨fun hc => next_of_lift (excfgG d a b) rfl (hgo.trans (if_pos hc)), fun hc => next_of_lift (excfgG d a b) rfl (hgo.trans (if_neg hc))⟩

/-! ## The queues (R320, R323-R325) -/

theorem queueX_setQueueX_same (m : Mach) (q : Nat) (x : ExpQ) : queueX (setQueueX m q x) q = x := tget_tput_same ..

theorem queueX_setQueueX_other {m : Mach} {q k : Nat} {x : ExpQ} (h : k ≠ q) : queueX (setQueueX m q x) k = queueX m k :=
  tget_tput_other _ _ _ _ _ h

/-- A request in its turn arrives, and is served unless others are ahead of it. -/
theorem serveQueue_turn {m : Mach} {r : Req} {q : Nat} (hq : queueReq r = some q) (hturn : queueTurn m r = true) : serveQueue m r =
    if queueAhead (arriveQueue m r q) r q = true then arriveQueue m r q
    else leaveQueue (match r.op with
      | .exq _ t => doExq (arriveQueue m r q) r q t
      | .exdq _ n => doExdq (arriveQueue m r q) r q n
      | _ => arriveQueue m r q) q := by
  simp only [serveQueue, hq, hturn, Bool.true_and]
  cases queueAhead (arriveQueue m r q) r q <;> rfl

section Exq
variable {s : State} {id q : Nat} {r : Req} {t : Token} (hr : reqOf s.m id = some r) (hop : r.op = .exq q t) (hturn : queueTurn s.m r = true)
include hr hop hturn

theorem exqPlacement_serves : exec (.exqPlacement id) s = .next { s with m :=
    (if queueAhead (arriveQueue s.m r q) r q = true then arriveQueue s.m r q else leaveQueue (doExq (arriveQueue s.m r q) r q t) q) } := by
  refine next_of_lift (exqPlacementG id) rfl ?_
  have hq : queueReq r = some q := by rw [queueReq, hop]
  simp only [exqPlacementG, hr, hop]
  rw [serveQueue_turn hq hturn, hop]

theorem exqPlacement_places : let m := arriveQueue s.m r q
    (queueAhead m r q = true → exec (.exqPlacement id) s = .next { s with m := m })
    ∧ (∀ m1, queueAhead m r q = false → queueMine m r q = true → appendX m r (routeExq m r q) t = some m1 →
      exec (.exqPlacement id) s = .next { s with m := leaveQueue (finish m1 id 0) q })
    ∧ (queueAhead m r q = false → queueMine m r q = true → appendX m r (routeExq m r q) t = none →
      exec (.exqPlacement id) s = .next { s with m := leaveQueue m q }) := by
  intro m
  have hserve := exqPlacement_serves hr hop hturn
  have hid : r.id = id := id_of_reqOf hr
  refine ⟨fun hahead => ?_, fun m1 hahead hmine happ => ?_, fun hahead hmine happ => ?_⟩
  · rw [hserve, if_pos hahead]
  · rw [hserve, if_neg (Bool.eq_false_iff.mp hahead)]
    have hdo : doExq m r q t = finish m1 id 0 := by
      simp only [doExq, hmine, happ, hid, Bool.not_true, Bool.false_eq_true, if_false]
    rw [hdo]
  · rw [hserve, if_neg (Bool.eq_false_iff.mp hahead)]
    have hdo : doExq m r q t = m := by
      simp only [doExq, hmine, happ, Bool.not_true, Bool.false_eq_true, if_false]
    rw [hdo]

end Exq

/-- A queue with one entry more; the threshold releases all (R324). -/
def withEntry (x : ExpQ) (t : Token) : ExpQ :=
  let y := { x with entries := x.entries ++ [t] }
  if y.thr ≤ unreleased y then releaseAll y else y

theorem withEntry_spec {x : ExpQ} (t : Token) (hring : x.ringq = []) : (withEntry x t).entries = x.entries ++ [t]
    ∧ (withEntry x t).released = (if x.thr ≤ x.entries.length + 1 - x.released then x.entries.length + 1 else x.released) := by
  have hcount : exqCount { x with entries := x.entries ++ [t] } = x.entries.length + 1 := by
    simp [exqCount, hring]
  simp only [withEntry, unreleased, releaseAll, hcount]
  split
  · exact ⟨rfl, rfl⟩
  · exact ⟨rfl, rfl⟩

/-- An entry that finds room is the last (R323). -/
theorem appendX_appends (m : Mach) (r : Req) (q : Nat) (t : Token) : let x := queueX m q
    x.entries.length < 4096 → x.ringq = [] → ∃ m1, appendX m r q t = some m1 ∧ (queueX m1 q).entries = x.entries ++ [t]
      ∧ (queueX m1 q).released = (if x.thr ≤ x.entries.length + 1 - x.released then x.entries.length + 1 else x.released) := by
  intro x hroom hring
  refine ⟨setQueueX m q (withEntry x t), if_pos ⟨hroom, List.isEmpty_iff.mpr hring⟩, ?_⟩
  rw [queueX_setQueueX_same]
  exact withEntry_spec t hring

section Exdq
variable {s : State} {id q n : Nat} {r : Req} (hr : reqOf s.m id = some r) (hop : r.op = .exdq q n) (hturn : queueTurn s.m r = true)
include hr hop hturn

theorem exdqDelivery_delivers : let m := arriveQueue s.m r q
    let k := sourceExdq m q
    let c := min n (queueX m k).released
    let ts := (queueX m k).entries.take c ++ [⟨Val.ofNat c, true, false, 0⟩]
    (queueAhead m r q = true → exec (.exdqDelivery id) s = .next { s with m := m })
    ∧ (queueAhead m r q = false → queueMine m r q = true → (running m r.past = true ∨ isShepActor r.who = true) →
      0 < c → (queueX m k).cut = 0 → exec (.exdqDelivery id) s = .next { s with m := leaveQueue (finishTok (takeX m k c) id ts) q }) := by
  intro m k c ts
  have hq : queueReq r = some q := by rw [queueReq, hop]
  have hserve : exdqDeliveryG id s.m = if queueAhead m r q = true then m else leaveQueue (doExdq m r q n) q := by
    simp only [exdqDeliveryG, hr, hop]
    rw [serveQueue_turn hq hturn, hop]
  refine ⟨fun hahead => next_of_lift (exdqDeliveryG id) rfl (hserve.trans (if_pos hahead)), fun hahead hmine hrun hc hcut => ?_⟩
  have hgoes : (running m r.past || isShepActor r.who) = true := Bool.or_eq_true_iff.mpr hrun
  have hid : r.id = id := id_of_reqOf hr
  have hsome : ¬ (c = 0 ∨ (queueX m k).cut ≠ 0) := by omega
  have hdo : doExdq m r q n = finishTok (takeX m k c) id ts := by
    simp only [doExdq, hmine, hgoes, hid, Bool.not_true, Bool.false_eq_true, if_false]
    exact if_neg hsome
  refine next_of_lift (exdqDeliveryG id) rfl (hserve.trans ((if_neg (Bool.eq_false_iff.mp hahead)).trans ?_))
  rw [hdo]

end Exdq

theorem timerRelease_releases {s : State} {q : Nat} (htmr : (queueX s.m q).tmr ≠ 0) : ∃ t, exec (.timerRelease q) s = .next t
      ∧ queueX t.m q = { queueX s.m q with released := (queueX s.m q).entries.length + (queueX s.m q).ringq.length }
      ∧ (∀ k, k ≠ q → queueX t.m k = queueX s.m k) ∧ t.m.mem = s.m.mem :=
  ⟨_, next_of_lift (timerReleaseG q) rfl (if_neg htmr), queueX_setQueueX_same .., fun _ hk => queueX_setQueueX_other hk, rfl⟩

/-- Settles O46: a walk by its steps, and a queue's requests by their turns. -/
theorem indexAndQueues : Obligations.IndexAndQueues := by
  unfold Obligations.IndexAndQueues
  refine ⟨fun f d a b s => exec_iwalk, fun f d a b s => exec_spmx, ?_, ?_, fun f d a b s => exec_exq, fun f d a b s => exec_exdq,
    fun d a b s => exec_excfg, fun s id r q t => exqPlacement_places, appendX_appends, fun s id r q n => exdqDelivery_delivers,
    fun s q => timerRelease_releases⟩
  · intro s id r hv h p0 cnt maj e hr hop hturn hok next
    have hid : r.id = id := id_of_reqOf hr
    have htoken : ∀ {m failed v}, e < cnt → p0 + e < hBound hv / 2 ^ hEsz hv → dstCredit m r = true → iwalkVal m r hv p0 maj e failed = v →
        walkStep m r failed = deliverTok (next m) r.past r.who r.dst (tokOf v) := by
      intro m failed v he hb hcred hv'
      rw [walkStep_iwalk hop hok m failed he hb, walkToken_gives hcred, hid, hv']
    refine ⟨emit_held hr hturn, fun x he hb hfree hx hcred => ?_, fun x he hb hfree hx hcred => ?_, ?_, fun hend hfree hcred => ?_⟩
    · exact emit_performs hr hturn hfree (htoken he hb hcred (iwalkVal_ok hx))
    · exact emit_performs hr hturn hfree (htoken he hb hcred (iwalkVal_error hx))
    · intro c d he hb hc hfails mb hcred
      have hval : iwalkVal mb r hv p0 maj e (some (poisonReq r c.toNat d.toNat)) = poisonReq r c.toNat d.toNat := rfl
      exact emit_fails hr hturn hc hfails (htoken he hb hcred hval)
    · refine emit_performs hr hturn hfree ?_
      rw [walkStep_iwalk_end hop hok _ _ hend, walkEnd_ends hcred, hid]
  · intro s id r hv x h m0 cm maj e hr hop hturn hok
    obtain rfl : r.id = id := id_of_reqOf hr
    refine ⟨?_, fun hend hfree hcred => ?_⟩
    · intro y he hm hfree hrow hcred v m1
      refine emit_performs hr hturn hfree ((walkStep_spmx hop hok he hm hrow hcred).trans ?_)
      exact congrArg (fun m => stickyReq m r y.fl) (walkToken_gives hcred)
    · refine emit_performs hr hturn hfree ?_
      rw [walkStep_spmx_end hop hok _ hend, walkEnd_ends hcred]

end Sys2Proof.Machine

/-! PROOFS. Evaluations: events, candidates, waves and the end (R334-R340, R347, R351, R352). -/
namespace Sys2Proof.Machine

/-! ## EVAL and FOLD (R351, R352) -/

section Starts
variable {s : State} {d a : Opd} (h : memStarts s.m [a] [d] [] = true) (hsc : (srcVal s.m .whole a).scaled = false)
include h hsc

theorem exec_eval : let m := readDone s.m [a] [d]
    let m1 := addReq m (mkReq m (dstOf m d false) .eval 5 true false)
    ruleBusy m (pastOfActor m m.cur) = false →
    exec (.eval d a) s = .next { s with m := evalGo m1 (pastOfActor m m.cur) m.ids (payOf s.m .whole a % 2 ^ 6) } := by
  intro m m1 hbusy
  refine (exec_memStart (i := .eval d a) rfl h).trans (congrArg (fun m => Host.Outcome.next { s with m := m }) ?_)
  refine (if_neg (Bool.eq_false_iff.mp hsc)).trans ((if_neg (Bool.eq_false_iff.mp hbusy)).trans ?_)
  exact congrArg (evalGo m1 (pastOfActor m m.cur) m.ids) (bits_zero_eq_mod _ _)

theorem exec_fold (f : BitF) : let m := readDone s.m [a] [d]
    let n := payOf s.m .whole a % 2 ^ 8
    let known := if f.bit then decide (n < 64) && (famOf m (famKey (pastOfActor m m.cur) n)).isSome
      else (relOf m (pastOfActor m m.cur) n).isSome
    (known = true → exec (.fold f d a) s = .next (issued s [a] [d] (fun m => mkReq m (dstOf m d false) (.fold f.bit n 0) 5 true false)))
    ∧ (known = false → exec (.fold f d a) s = .next (answered s [a] d .tile (2 ^ 63 + 5))) := by
  intro m n known
  have hn : bits (natAt ([a].map (srcVal s.m .whole)) 0) 0 8 = n := bits_zero_eq_mod _ _
  refine ⟨fun hk => ?_, fun hk => ?_⟩
  · refine (exec_memStart (i := .fold f d a) rfl h).trans (congrArg Host.Outcome.next (after_congr ?_))
    dsimp only
    rw [hn]
    refine (if_neg (Bool.eq_false_iff.mp hsc)).trans (if_neg ?_)
    rw [show (if f.bit = true then _ else _) = true from hk]
    exact Bool.false_ne_true
  · refine (exec_memStart (i := .fold f d a) rfl h).trans (congrArg Host.Outcome.next (after_congr ?_))
    dsimp only
    rw [hn]
    refine (if_neg (Bool.eq_false_iff.mp hsc)).trans (if_pos ?_)
    rw [show (if f.bit = true then _ else _) = false from hk]
    rfl

end Starts

/-! ## The evaluation of a pasture -/

theorem evalOf_setEval (m : Mach) (p : Nat) (e : Eval) : evalOf (setEval m p e) p = some e := tfind_tset_same ..

/-- An evaluation that does not drain goes on. -/
theorem drainEnd_setEval {m : Mach} {p : Nat} {e : Eval} (h : e.draining = false) : drainEnd p (setEval m p e) = setEval m p e := by
  simp only [drainEnd, evalOf_setEval, h, Bool.false_and, Bool.false_eq_true, if_false]

theorem drainEnd_drained {m : Mach} {p : Nat} {e : Eval} (he : evalOf m p = some e) (hd : e.draining = true) (hev : e.events = [])
    (hc : e.cands = []) (hu : e.user = []) :
    drainEnd p m = finish (raiseHome { m with rule.evals := tdel p m.rule.evals } p 0x0E e.stratum) e.req (2 ^ 63 + 0x0D) := by
  simp only [drainEnd, he, hd, hev, hc, hu, List.isEmpty_nil, Bool.and_self, if_true]
  rfl

/-! ## TUPLE_EVENT (R335) -/

theorem nextEvents_spec {m : Mach} {p : Nat} {e : Eval} {n : Nat} (h : n ∈ nextEvents m p e) : n < e.events.length
    ∧ (n < e.fresh ∨ ∀ j, e.fresh ≤ j → j < n → (e.events[j]?).map (eventPort m p) ≠ (e.events[n]?).map (eventPort m p)) := by
  obtain ⟨hlt, hmay⟩ := List.mem_filter.mp h
  refine ⟨List.mem_range.mp hlt, ?_⟩
  rcases Bool.or_eq_true_iff.mp hmay with hfresh | hfirst
  · exact .inl (of_decide_eq_true hfresh)
  · refine .inr fun j hj hjn hport => ?_
    rw [Bool.not_eq_true', List.any_eq_false] at hfirst
    exact hfirst j (List.mem_range.mpr hjn) (Bool.and_eq_true_iff.mpr ⟨decide_eq_true hj, beq_iff_eq.mpr hport⟩)

/-- Where an event waits, one may be processed: the first of all. -/
theorem nextEvents_ne_nil {m : Mach} {p : Nat} {e : Eval} (h : e.events ≠ []) : nextEvents m p e ≠ [] := by
  have hmem : 0 ∈ nextEvents m p e := List.mem_filter.mpr ⟨List.mem_range.mpr (List.length_pos_iff.mpr h), Bool.or_eq_true_iff.mpr (.inr rfl)⟩
  exact List.ne_nil_of_mem hmem

theorem versionAt_eq (m : Mach) (p : Nat) (x : Rel) (events : List (Nat × Nat × Nat)) (rl id rcd : Nat) : versionAt m p x events rl id rcd =
    if (recAt m p rl x id).v = true ∧ ∃ w ∈ events, w.1 = rl ∧ w.2.1 = id then tupOf rcd else recAt m p rl x id := by
  refine if_congr ?_ rfl rfl
  simp only [Bool.and_eq_true, List.any_eq_true, beq_iff_eq]

/-- An evaluation whose event `i`, of the version `rcd` of a tuple, has been taken out. -/
def eventTaken (e : Eval) (i rl id rcd : Nat) : Eval := { e with
  events := e.events.eraseIdx i
  fresh := if i < e.fresh then e.fresh - 1 else e.fresh
  present := (rl, id, rcd) :: e.present.filter (fun u => !(u.1 == rl && u.2.1 == id))
  recv := e.recv + 1 }

/-- The event of a tuple that is taken is the oldest of that tuple. -/
theorem findIdx_event {l : List (Nat × Nat × Nat)} {n rl id x : Nat} (h : l[n]? = some (rl, id, x)) :
    ∃ rcd, l[l.findIdx (fun w => w.1 == rl && w.2.1 == id)]? = some (rl, id, rcd) := by
  have hlt : l.findIdx (fun w => w.1 == rl && w.2.1 == id) < l.length :=
    List.findIdx_lt_length_of_exists ⟨_, List.mem_of_getElem? h, by simp⟩
  have hgood := List.findIdx_getElem (w := hlt)
  refine ⟨(l[l.findIdx (fun w => w.1 == rl && w.2.1 == id)]).2.2, ?_⟩
  obtain ⟨hrl, hid⟩ := Bool.and_eq_true_iff.mp hgood
  rw [List.getElem?_eq_getElem hlt]
  exact congrArg some (Prod.ext (eq_of_beq hrl) (Prod.ext (eq_of_beq hid) rfl))

theorem tupleEvent_takes {s : State} {p : Nat} {e : Eval} (he : evalOf s.m p = some e) (hrun : running s.m p = true) (hev : e.events ≠ []) :
    ∃ n rl id rcd, n ∈ nextEvents s.m p e ∧ (∃ x, e.events[n]? = some (rl, id, x)) ∧
      let i := e.events.findIdx (fun w => w.1 == rl && w.2.1 == id)
      e.events[i]? = some (rl, id, rcd) ∧
      let e1 := eventTaken e i rl id rcd
      let m1 := setEval { s.m with free := s.m.free + 1 } p e1
      (∀ x, relOf s.m p rl = some x → e.draining = false →
        let t := versionAt s.m p x e1.events rl id rcd
        let core := slotCore s.m p rl x (idHome id) (idSlot id)
        let cs := (stratRules s.m p e.stratum).flatMap (fun q => (ruleCands s.m p q.1 core q.2 e1 rl id t).map (fun c => (q.2.user, c)))
        (t.v = true → exec (.tupleEvent p) s = .next { s with m := cs.foldl (fun m c => sendCand m p core c.1 c.2) m1 })
        ∧ (t.v = false → exec (.tupleEvent p) s = .next { s with m := m1 }))
      ∧ ((relOf s.m p rl = none ∨ e.draining = true) → exec (.tupleEvent p) s = .next { s with m := drainEnd p m1 }) := by
  have hmay : 0 < (nextEvents s.m p e).length := List.length_pos_iff.mpr (nextEvents_ne_nil hev)
  have hlt : Config.freeSlot s.m.free % (nextEvents s.m p e).length < (nextEvents s.m p e).length := Nat.mod_lt _ hmay
  let n := (nextEvents s.m p e)[Config.freeSlot s.m.free % (nextEvents s.m p e).length]
  have hn : n ∈ nextEvents s.m p e := List.getElem_mem hlt
  obtain ⟨hnlt, -⟩ := nextEvents_spec hn
  obtain ⟨⟨rl, id, x0⟩, hx⟩ : ∃ x, e.events[n] = x := ⟨_, rfl⟩
  have hat : e.events[n]? = some (rl, id, x0) := by rw [List.getElem?_eq_getElem hnlt, hx]
  obtain ⟨rcd, hrcd⟩ := findIdx_event hat
  refine ⟨n, rl, id, rcd, hn, ⟨x0, hat⟩, hrcd, ?_⟩
  intro e1 m1
  have hchoice : ((nextEvents s.m p e)[Config.freeSlot s.m.free % (nextEvents s.m p e).length]?).bind (fun i => e.events[i]?) = some (rl, id, x0) := by
    rw [List.getElem?_eq_getElem hlt]
    exact hat
  have hgo : tupleEventG p s.m = match relOf s.m p rl with
      | none => drainEnd p m1
      | some x =>
        let t := versionAt s.m p x e1.events rl id rcd
        if e.draining || !t.v then drainEnd p m1
        else
          let core := slotCore s.m p rl x (idHome id) (idSlot id)
          let cs := (stratRules s.m p e.stratum).flatMap (fun q =>
            (ruleCands s.m p q.1 core q.2 e1 rl id t).map (fun c => (q.2.user, c)))
          cs.foldl (fun m c => sendCand m p core c.1 c.2) m1 := by
    simp only [tupleEventG, he, hrun, hchoice, hrcd, Option.map_some, Option.getD_some, Bool.not_true, Bool.false_eq_true, if_false] <;> rfl
  refine ⟨?_, fun hend => ?_⟩
  · intro x hx hd t core cs
    refine ⟨fun hv => next_of_lift (tupleEventG p) rfl (hgo.trans ?_), fun hv => next_of_lift (tupleEventG p) rfl (hgo.trans ?_)⟩
    · rw [hx]
      exact if_neg (by rw [hd, show (versionAt s.m p x e1.events rl id rcd).v = true from hv]; exact Bool.false_ne_true)
    · rw [hx]
      refine (if_pos (by rw [hd, show (versionAt s.m p x e1.events rl id rcd).v = false from hv]; rfl)).trans ?_
      exact drainEnd_setEval (e := e1) hd
  · refine next_of_lift (tupleEventG p) rfl (hgo.trans ?_)
    cases hx : relOf s.m p rl with
    | none => rfl
    | some x =>
      have hd : e.draining = true := hend.resolve_left (by rw [hx]; exact Option.some_ne_none x)
      exact if_pos (by rw [hd]; rfl)

/-! ## CANDIDATE_ARRIVAL (R337) -/

section Candidate
variable {s : State} {p n : Nat} {e : Eval} {c : Cand} (he : evalOf s.m p = some e) (hrun : running s.m p = true) (hc : e.cands[n]? = some c)
include he hrun hc

theorem candidateArrival_waits (h : ∃ c0 ∈ e.cands.take n, c0.src = c.src ∧ candPort s.m p c0 = candPort s.m p c) :
    exec (.candidateArrival p n) s = .next s := by
  obtain ⟨c0, hmem, hsrc, hport⟩ := h
  have hany : (e.cands.take n).any (fun d => d.src == c.src && candPort s.m p d == candPort s.m p c) = true :=
    List.any_eq_true.mpr ⟨c0, hmem, by rw [hsrc, hport, beq_self_eq_true, beq_self_eq_true]; rfl⟩
  refine next_of_lift (candidateArrivalG p n) rfl ?_
  simp only [candidateArrivalG, he, hrun, hc, candFirst, hany, Bool.not_true, Bool.not_false, Bool.false_eq_true, if_false, if_true]

theorem candidateArrival_arrives (h : ∀ c0 ∈ e.cands.take n, c0.src = c.src → candPort s.m p c0 ≠ candPort s.m p c) :
    let r := headPort s.m p { e with cands := e.cands.eraseIdx n } c
    r.2.draining = false →
    exec (.candidateArrival p n) s = .next { s with m := setEval r.1 p { r.2 with recv := r.2.recv + 1 } } := by
  intro r hd
  have hnone : (e.cands.take n).any (fun d => d.src == c.src && candPort s.m p d == candPort s.m p c) = false := by
    rw [List.any_eq_false]
    intro c0 hmem hbad
    obtain ⟨hsrc, hport⟩ := Bool.and_eq_true_iff.mp hbad
    exact h c0 hmem (eq_of_beq hsrc) (eq_of_beq hport)
  refine next_of_lift (candidateArrivalG p n) rfl ?_
  simp only [candidateArrivalG, he, hrun, hc, candFirst, hnone, Bool.not_true, Bool.not_false, Bool.false_eq_true, if_false]
  exact drainEnd_setEval hd

end Candidate

/-- A candidate whose tuple is there raises it where its weight is better. -/
theorem headPort_raises {m : Mach} {p : Nat} {e : Eval} {c : Cand} {x : Rel} {id : Nat} (hx : relOf m p c.rel = some x)
    (hnan : isNanCode .f32 c.weight.toNat = false) (hdom : domainErr x.alg c.weight.toNat = false)
    (hzero : isZeroW x.alg c.weight.toNat = false) (hid : findTup m p c.rel x (cutKeys x c.keys.toNat) = some id) :
    let gen := min c.gen 65535
    let t := recAt { m with free := m.free + 1 } p c.rel x id
    headPort m p e c = if better x.alg c.weight.toNat t.w then
        (putRec { m with free := m.free + 1 } p c.rel x id
          { t with w := c.weight.toNat, fl := setBits (setBits t.fl 0 16 gen) 26 1 1, wit := c.witness.toNat },
         { e with
            events := e.events ++ [(c.rel, id, tupNat { t with
              w := c.weight.toNat, fl := setBits (setBits t.fl 0 16 gen) 26 1 1, wit := c.witness.toNat })]
            sent := e.sent + 1, rounds := max e.rounds gen })
      else ({ m with free := m.free + 1 }, e) := by
  simp only [headPort, hx, hnan, hdom, hzero, hid, Bool.not_false, Bool.and_false, Bool.or_self, Bool.false_eq_true, if_false, addEvent]

/-! ## USER_RETURN (R336) -/

section Return
variable {s : State} {core p key : Nat} {e : Eval} {c : Cand} {more : List Cand} {kt wt : Token} {rest : List Token}

/-- The evaluation once the two tokens of a candidate are taken. -/
def userTaken (e : Eval) (key : Nat) (more : List Cand) (rest : List Token) : Eval := { e with
  user := if more.isEmpty then tdel key e.user else tset key more e.user
  back := if more.isEmpty || rest.isEmpty then tdel key e.back else tset key rest e.back
  sent := e.sent + 2, recv := e.recv + 4 }

/-- A poisoned token of a user block is recorded and traps. -/
def userBad (core p : Nat) (m : Mach) (v : Val) : Mach :=
  raiseCause (faultRec m p .idle { poisonRec v 5 with item := noId }) (clusterOf core) ⟨0x07, BitVec.ofNat 64 v.pay.toNat, p⟩ .idle

section Taken
variable (hlive : livePast s.m core = some p) (he : evalOf s.m p = some e) (hrun : running s.m p = true)
    (hfind : e.user.find? (fun u => u.1 / 128 == core && 2 ≤ (tget [] u.1 e.back).length) = some (key, c :: more))
    (hback : tget [] key e.back = kt :: wt :: rest)
include hlive he hrun hfind hback

theorem userReturnG_takes :
    let m1 := setEval s.m p (userTaken e key more rest)
    let bad := ([kt, wt].map (·.val)).filter (·.poison)
    let w := wt.val.pay.toNat
    let c1 := { c with keys := kt.val.pay, weight := BitVec.ofNat 32 w, gen := bits w 32 16, witness := BitVec.ofNat 64 (w / 2 ^ 64) }
    userReturnG core s.m =
      if !bad.isEmpty then drainEnd p (bad.foldl (userBad core p) m1)
      else if wt.flag then drainEnd p m1
      else setEval m1 p { userTaken e key more rest with cands := e.cands ++ [c1], sent := e.sent + 3 } := by
  intro m1 bad w c1
  simp only [userReturnG, hlive, he, hrun, hfind, hback, Bool.not_true, Bool.false_eq_true, if_false] <;> rfl

theorem userReturn_poisoned (hbad : kt.val.poison = true ∨ wt.val.poison = true) : exec (.userReturn core) s =
    .next { s with m := drainEnd p ((([kt, wt].map (·.val)).filter (·.poison)).foldl (userBad core p)
      (setEval s.m p (userTaken e key more rest))) } := by
  refine next_of_lift (userReturnG core) rfl ((userReturnG_takes hlive he hrun hfind hback).trans (if_pos ?_))
  rw [Bool.not_eq_true', List.isEmpty_eq_false_iff]
  rcases hbad with h | h
  · exact List.ne_nil_of_mem (List.mem_filter.mpr ⟨List.mem_cons_self, h⟩)
  · exact List.ne_nil_of_mem (List.mem_filter.mpr ⟨List.mem_cons_of_mem _ List.mem_cons_self, h⟩)

theorem userReturn_good (hk : kt.val.poison = false) (hw : wt.val.poison = false) :
    let m1 := setEval s.m p (userTaken e key more rest)
    let w := wt.val.pay.toNat
    let c1 := { c with keys := kt.val.pay, weight := BitVec.ofNat 32 w, gen := bits w 32 16, witness := BitVec.ofNat 64 (w / 2 ^ 64) }
    (wt.flag = true → exec (.userReturn core) s = .next { s with m := drainEnd p m1 })
    ∧ (wt.flag = false → exec (.userReturn core) s =
      .next { s with m := setEval m1 p { userTaken e key more rest with cands := e.cands ++ [c1], sent := e.sent + 3 } }) := by
  intro m1 w c1
  have hgood : ([kt, wt].map (·.val)).filter (·.poison) = [] := by simp [hk, hw]
  have hgo := userReturnG_takes hlive he hrun hfind hback
  dsimp only at hgo
  rw [hgood] at hgo
  exact ⟨fun hf => next_of_lift (userReturnG core) rfl (hgo.trans (if_pos hf)),
    fun hf => next_of_lift (userReturnG core) rfl (hgo.trans (if_neg (Bool.eq_false_iff.mp hf)))⟩

end Taken

end Return

/-! ## Waves and the timeout (R338, R340) -/

/-- A wave with no family to sum and no FOLD to move on sums the evaluation. -/
theorem foldWave_sums {s : State} {p : Nat} (hrun : running s.m p = true) (hfam : ∀ e ∈ s.m.stage.fams, e.1 / 64 ≠ p)
    (hfold : ∀ r ∈ s.m.mem.reqs, ∀ b n w, r.op ≠ .fold b n w) : exec (.foldWave p) s = .next { s with m := stageEnds p (evalWave p s.m) } := by
  have hnone : s.m.stage.fams.filter (fun e => e.1 / 64 == p) = [] :=
    List.filter_eq_nil_iff.mpr fun e he hbad => hfam e he (eq_of_beq hbad)
  have hwave : (s.m.mem.reqs.filter (fun r => r.past == p && !r.done)).foldl (waveFold p []) s.m = s.m := by
    refine foldl_eq_self fun r hr => ?_
    have hop := hfold r (List.mem_filter.mp hr).1
    unfold waveFold
    split
    · rename_i n w he
      exact absurd he (hop _ _ _)
    · rename_i n w he
      exact absurd he (hop _ _ _)
    · rfl
  refine next_of_lift (foldWaveG p) rfl ?_
  simp only [foldWaveG, hrun, hnone, List.filter_nil, List.map_nil, List.foldl_nil, hwave, Bool.not_true, Bool.false_eq_true, if_false]

section Wave
variable {m : Mach} {p : Nat} {e : Eval} (he : evalOf m p = some e) (hd : e.draining = false) (hev : e.events = []) (hc : e.cands = [])
  (hu : e.user = []) (hbal : e.sent = e.recv)
include he hd hev hc hu hbal

theorem evalWave_quiet : evalWave p m =
    if e.waveOk && e.waveTot == (e.sent, e.recv) then
      (let m1 := setStrat m p e.stratum ⟨true, false, false⟩
      if e.stratum < e.last then startStratum m1 p { e with stratum := e.stratum + 1 }
      else finish { m1 with rule.evals := tdel p m1.rule.evals } e.req ((if e.full then 2 ^ 62 else 0) + min e.rounds 65535 * 2 ^ 32))
    else setEval m p { e with waveOk := true, waveTot := (e.sent, e.recv) } := by
  have hquiet : (e.events.isEmpty && e.cands.isEmpty && e.user.isEmpty && e.sent == e.recv) = true := by
    rw [hev, hc, hu, hbal, beq_self_eq_true]
    rfl
  simp only [evalWave, he, hd, hquiet, Bool.true_and, Bool.false_eq_true, if_false]

theorem evalWave_folds :
    ((e.waveOk = false ∨ e.waveTot ≠ (e.sent, e.recv)) → evalWave p m = setEval m p { e with waveOk := true, waveTot := (e.sent, e.recv) })
    ∧ (e.waveOk = true → e.waveTot = (e.sent, e.recv) →
      let m1 := setStrat m p e.stratum ⟨true, false, false⟩
      let v := (if e.full then 2 ^ 62 else 0) + min e.rounds 65535 * 2 ^ 32
      (e.stratum < e.last → evalWave p m = startStratum m1 p { e with stratum := e.stratum + 1 })
      ∧ (e.last ≤ e.stratum → evalWave p m = finish { m1 with rule.evals := tdel p m1.rule.evals } e.req v)) := by
  have hw := evalWave_quiet he hd hev hc hu hbal
  refine ⟨fun hno => hw.trans (if_neg fun hyes => ?_), fun hok htot => ?_⟩
  · obtain ⟨hok, htot⟩ := Bool.and_eq_true_iff.mp hyes
    rcases hno with hno | hno
    · rw [hno] at hok
      cases hok
    · exact hno (eq_of_beq htot)
  · have hyes : (e.waveOk && e.waveTot == (e.sent, e.recv)) = true := by rw [hok, htot, beq_self_eq_true]; rfl
    have hfold := hw.trans (if_pos hyes)
    exact ⟨fun hlt => hfold.trans (if_pos hlt), fun hge => hfold.trans (if_neg (Nat.not_lt.mpr hge))⟩

end Wave

theorem foldTimeout_drains {s : State} {p : Nat} {e : Eval} (he : evalOf s.m p = some e) (hrun : running s.m p = true) (hd : e.draining = false)
    (htmo : ((stratRules s.m p e.stratum).map (fun q => q.2.ftmo)).foldl max 0 ≠ 0) :
    exec (.foldTimeout p) s = .next { s with m := drainEnd p (setEval s.m p { e with draining := true }) } := by
  refine next_of_lift (foldTimeoutG p) rfl ?_
  have hgo : ¬ ((!running s.m p || decide (((stratRules s.m p e.stratum).map (fun q => q.2.ftmo)).foldl max 0 = 0) || e.draining) = true) := by
    rw [hrun, hd, decide_eq_false htmo]
    exact Bool.false_ne_true
  simp only [foldTimeoutG, he]
  exact if_neg hgo

/-- Settles O48: each step of an evaluation by its lemma. -/
theorem evaluation : Obligations.Evaluation := by
  unfold Obligations.Evaluation
  refine ⟨fun d a s => exec_eval, fun f d a s h hsc => exec_fold h hsc f, fun s p e => tupleEvent_takes, fun m p e n => nextEvents_spec,
    versionAt_eq, ?_, fun m p e c x id => headPort_raises, ?_, fun s p => foldWave_sums, fun m p e => evalWave_folds,
    fun s p e => foldTimeout_drains, fun m p e => drainEnd_drained⟩
  · intro s p n e c he hrun hc hd
    exact ⟨candidateArrival_waits he hrun hc, candidateArrival_arrives he hrun hc⟩
  · intro s core p e key c more kt wt rest hlive he hrun hfind hback e1 m1 w c1 raised
    rw [show m1 = setEval s.m p (userTaken e key more rest) from rfl, show raised = userBad core p from rfl]
    refine ⟨fun hk hw => (userReturn_good hlive he hrun hfind hback hk hw).2, fun hk hw => (userReturn_good hlive he hrun hfind hback hk hw).1,
      fun hk hw => ?_, fun hk hw => ?_, fun hk hw => ?_⟩
    · simpa only [List.map_cons, List.map_nil, List.filter_cons, List.filter_nil, hk, hw, if_true, Bool.false_eq_true, if_false, List.foldl_cons,
        List.foldl_nil] using userReturn_poisoned hlive he hrun hfind hback (.inl hk)
    · simpa only [List.map_cons, List.map_nil, List.filter_cons, List.filter_nil, hk, hw, if_true, Bool.false_eq_true, if_false, List.foldl_cons,
        List.foldl_nil] using userReturn_poisoned hlive he hrun hfind hback (.inr hw)
    · simpa only [List.map_cons, List.map_nil, List.filter_cons, List.filter_nil, hk, hw, if_true, List.foldl_cons,
        List.foldl_nil] using userReturn_poisoned hlive he hrun hfind hback (.inl hk)

end Sys2Proof.Machine

/-! PROOFS. The reset state: what it holds and that it meets the invariant. -/

namespace Sys2Proof.Machine

/-- Settles O6: each field is read off the reset state. -/
theorem resetState : Obligations.ResetState := by
  unfold Obligations.ResetState
  refine ⟨fun p => ?_, fun core => ?_, fun u => ?_, fun k => ?_, fun a => ?_, rfl, rfl, rfl, rfl⟩
  · exact ⟨rfl, rfl, rfl, rfl, rfl, rfl, rfl, rfl, rfl⟩
  · rfl
  · exact ⟨rfl, fun r => rfl⟩
  · rfl
  · exact ⟨rfl, rfl⟩

/-- Settles O8. -/
theorem resetInvariant : Obligations.ResetInvariant := ⟨rfl, rfl, rfl⟩

end Sys2Proof.Machine

/-! PROOFS. Placing the records of a section, and moving them between cores in an averaging period (R36, R37, R150). -/

namespace Sys2Proof.Machine

/-! ## Placing -/

/-- The accesses that hold a section's start are those of the units that the section's ARM can be of. -/
theorem startHeld_any_false {m : Mach} {sec : Section} {id : Nat}
    (h : ∀ u < 144, (if sec.shep then u = 128 + sec.cluster else u < 128) → startHeld m u sec.graph id = false) :
    (upto 144).any (fun u => startHeld m u sec.graph id && (if sec.shep then u == 128 + sec.cluster else isGraph u)) = false := by
  rw [List.any_eq_false]
  intro u hu hboth
  obtain ⟨hheld, hof⟩ := Bool.and_eq_true_iff.mp hboth
  have hu' : u < 144 := by simpa [upto] using hu
  have hclear := h u hu' (by cases hs : sec.shep <;> simpa [hs, isGraph] using hof)
  rw [hclear] at hheld
  exact Bool.false_ne_true hheld

theorem nextTarget_ready {m : Mach} {id b : Nat} {sec : Section} {e : Nat × Nat × Nat} (hcomplete : sec.complete = false)
    (htile : sec.tile < sec.count) (hrun : running m sec.past = true)
    (hheld : ∀ u < 144, (if sec.shep then u = 128 + sec.cluster else u < 128) → startHeld m u sec.graph id = false)
    (hb : (sectBlocks sec)[sec.blk]? = some b)
    (he : (sec.entries.filter (fun e => e.1 == b))[sec.tile % (sec.entries.filter (fun e => e.1 == b)).length]? = some e)
    (hroom : queueLoad m e.2.2 < 64) : nextTarget m id sec = some e := by
  simp [nextTarget, startHeld_any_false hheld, hcomplete, htile, hrun, hb, he, hroom]

/-! ## Averaging -/

/-- What every move of a period meets: its record is a movable one of the sender's queue that the target can take. -/
def GoodMove (m : Mach) (v : Move) : Prop :=
  v.rcd ∈ tget [] v.src m.pe.rq ∧ movableRec m v.src v.rcd = true ∧ targetTakes m v.src v.dst v.rcd = true

theorem linkMoves_good (m : Mach) (done : List Move) (x y : Nat) : ∀ v ∈ linkMoves m done x y, GoodMove m v := by
  intro v hv
  obtain ⟨r, hr, rfl⟩ := List.mem_map.mp hv
  obtain ⟨hlast, htakes⟩ := List.mem_filter.mp hr
  obtain ⟨hqueue, hfree⟩ := List.mem_filter.mp (List.mem_of_mem_drop hlast)
  exact ⟨hqueue, (Bool.and_eq_true_iff.mp hfree).1, htakes⟩

/-- A fold whose steps keep a property of the whole accumulator keeps it. -/
theorem foldl_keeps {α β : Type} {P : β → Prop} {f : β → α → β} (hf : ∀ b a, P b → P (f b a)) :
    ∀ (l : List α) (b : β), P b → P (l.foldl f b)
  | [], _, hb => hb
  | a :: l, b, hb => foldl_keeps hf l (f b a) (hf b a hb)

/-- The installs that a period begins change nothing but the table of installs. -/
def OnlyInstalls (m t : Mach) : Prop := t.pe = m.pe ∧ t.mem = m.mem ∧ t.seq.avg = m.seq.avg

theorem averagingSample_idle {m : Mach} {cl : Nat} (h : tget [] cl m.seq.avg = []) :
    (averagingSampleG cl m).pe = m.pe ∧ (averagingSampleG cl m).mem = m.mem
      ∧ ∀ v ∈ tget [] cl (averagingSampleG cl m).seq.avg, GoodMove m v := by
  unfold averagingSampleG
  rw [h, if_neg (by simp)]
  dsimp only
  generalize hmoves : List.foldl _ ([] : List Move) _ = mvs
  have hgood : ∀ v ∈ mvs, GoodMove m v := by
    rw [← hmoves]
    refine foldl_keeps (P := fun acc => ∀ v ∈ acc, GoodMove m v) (fun acc x hacc => ?_) _ _ (by simp)
    refine foldl_keeps (P := fun acc => ∀ v ∈ acc, GoodMove m v) (fun acc d hacc => ?_) _ _ hacc
    split
    next y _ =>
      split
      · exact fun v hv => (List.mem_append.mp hv).elim (hacc v) (linkMoves_good m acc x y v)
      · exact hacc
    next => exact hacc
  generalize hinst : List.foldl _ m mvs = m1
  have honly : OnlyInstalls m m1 := by
    rw [← hinst]
    refine foldl_keeps (P := OnlyInstalls m) (fun t v ht => ?_) _ _ ⟨rfl, rfl, rfl⟩
    split
    · exact ht
    · exact ht
  obtain ⟨hpe, hmem, -⟩ := honly
  exact ⟨hpe, hmem, by rw [tget_tput_same]; exact hgood⟩

/-- The moves of a cluster after its first one has been judged: the first goes, whatever becomes of its record. -/
theorem averagingMove_cons {m : Mach} {cl : Nat} {v : Move} {rest : List Move} (h : tget [] cl m.seq.avg = v :: rest)
    (hrun : (livePast m v.src).any (running m) = true) (hinst : thas (frameKey v.dst v.rcd.frame) m.seq.installs = false) :
    averagingMoveG cl m =
      let m1 := { m with seq.avg := tput [] cl rest m.seq.avg }
      if frameImg m v.dst v.rcd.frame == frameImg m v.src v.rcd.frame && (queueOf m v.src).contains v.rcd then
        setQueue (setQueue m1 v.src ((queueOf m v.src).erase v.rcd)) v.dst (queueOf m1 v.dst ++ [v.rcd])
      else m1 := by
  simp only [averagingMoveG, h, hrun, hinst, Bool.not_true, Bool.false_eq_true, if_false]

theorem averagingMove_installing {m : Mach} {cl : Nat} {v : Move} {rest : List Move} (h : tget [] cl m.seq.avg = v :: rest)
    (hrun : (livePast m v.src).any (running m) = true) (hinst : thas (frameKey v.dst v.rcd.frame) m.seq.installs = true) :
    averagingMoveG cl m = m := by
  simp only [averagingMoveG, h, hrun, hinst, Bool.not_true, Bool.false_eq_true, if_false, if_true]

theorem averagingMove_stopped {m : Mach} {cl : Nat} {v : Move} {rest : List Move} (h : tget [] cl m.seq.avg = v :: rest)
    (hstop : (livePast m v.src).any (running m) = false) :
    averagingMoveG cl m =
      { m with seq.avg := tput [] cl (rest.filter (fun x => (livePast m x.src).any (running m))) m.seq.avg } := by
  simp only [averagingMoveG, h, hstop, Bool.not_false, if_true, List.filter_cons, Bool.false_eq_true, if_false]

theorem setQueue_move {m : Mach} {src dst : Nat} {q q' : List Rec} (hne : src ≠ dst) :
    tget [] src (setQueue (setQueue m src q) dst q').pe.rq = q ∧ tget [] dst (setQueue (setQueue m src q) dst q').pe.rq = q' :=
  ⟨(tget_tput_other [] src dst q' _ hne).trans (tget_tput_same [] src q _), tget_tput_same [] dst q' _⟩

/-- Settles O23: a placement goes through the section's next target, a period's moves are those of its links, and a move's
answer is read off the state of its frames. -/
theorem recordsPlaced : Obligations.RecordsPlaced := by
  unfold Obligations.RecordsPlaced
  refine ⟨?_, fun s cl h => ?_, fun s cl h => ?_, ?_, fun s cl v rest h hstop => ?_, fun s cl v rest h hrun => ⟨fun hi => ?_, fun hi hne => ?_⟩,
    fun s cl h => ?_⟩
  · intro s id sec b e hsec hcomplete htile hrun hheld hb es he hroom hnext
    have htarget := nextTarget_ready (id := id) hcomplete htile hrun hheld hb he hroom
    refine ⟨_, next_of_lift (recordPlacementG id) rfl rfl, ?_⟩
    simp only [recordPlacementG, hsec, htarget, hnext, bne_self_eq_false, Bool.false_eq_true, if_false]
    refine ⟨tget_tput_same _ _ _ _, ⟨_, tfind_tset_same _ _ _, ?_⟩, rfl⟩
    by_cases hlast : sec.blk + 1 < (sectBlocks sec).length
    · rw [if_pos hlast]
      exact ⟨rfl, rfl, (if_pos hlast).mpr ⟨rfl, rfl⟩⟩
    · rw [if_neg hlast]
      exact ⟨rfl, rfl, (if_neg hlast).mpr ⟨rfl, rfl⟩⟩
  · refine next_of_lift (averagingSampleG cl) rfl ?_
    have hsome : (!(tget [] cl s.m.seq.avg).isEmpty) = true := by simpa using h
    exact if_pos hsome
  · exact ⟨_, rfl, averagingSample_idle h⟩
  · intro s cl v rest h hrun hinst himg hin hne
    refine ⟨_, next_of_lift (averagingMoveG cl) rfl (averagingMove_cons h hrun hinst), ?_⟩
    have hgo : (frameImg s.m v.dst v.rcd.frame == frameImg s.m v.src v.rcd.frame && (queueOf s.m v.src).contains v.rcd) = true := by
      rw [himg, beq_self_eq_true, Bool.true_and, List.contains_iff_mem]
      exact hin
    dsimp only
    rw [if_pos hgo]
    exact ⟨tget_tput_same _ _ _ _, (setQueue_move hne).1, (setQueue_move hne).2, rfl⟩
  · exact ⟨_, next_of_lift (averagingMoveG cl) rfl (averagingMove_stopped h hstop), rfl, rfl, tget_tput_same _ _ _ _⟩
  · exact next_of_lift (averagingMoveG cl) rfl (averagingMove_installing h hrun hi)
  · refine ⟨_, next_of_lift (averagingMoveG cl) rfl (averagingMove_cons h hrun hi), ?_⟩
    have hstay : (frameImg s.m v.dst v.rcd.frame == frameImg s.m v.src v.rcd.frame) = false := beq_eq_false_iff_ne.mpr hne
    dsimp only
    rw [hstay, Bool.false_and, if_neg Bool.false_ne_true]
    exact ⟨tget_tput_same _ _ _ _, rfl, rfl⟩
  · refine next_of_lift (averagingMoveG cl) rfl ?_
    simp only [averagingMoveG, h]

end Sys2Proof.Machine

/-! PROOFS. Starts and power (R444-R450): what a start keeps, its steps, the firmware region, the default lanes, and the
registers of the window. -/

namespace Sys2Proof.Machine

theorem mem_upto {n k : Nat} : k ∈ upto n ↔ k < n := List.mem_range

/-! ## Memory written byte by byte -/

theorem memGet_memBytes_outside : ∀ (bs : List Byte) (t : List Host.Cell) (a b : Nat), b < a ∨ a + bs.length ≤ b →
    memGet (memBytes t a bs) b = memGet t b
  | [], _, _, _, _ => rfl
  | x :: bs, t, a, b, h => by
    rw [List.length_cons] at h
    have hrest := memGet_memBytes_outside bs (memPut t a x) (a + 1) b (by omega)
    exact hrest.trans (memGet_memPut_other t a b x (by omega))

theorem memGet_memBytes_at : ∀ (bs : List Byte) (t : List Host.Cell) (a i : Nat) (h : i < bs.length),
    memGet (memBytes t a bs) (a + i) = bs[i]
  | x :: bs, t, a, 0, _ => (memGet_memBytes_outside bs (memPut t a x) (a + 1) a (by omega)).trans (memGet_memPut_same t a x)
  | x :: bs, t, a, i + 1, h => by
    have hrest := memGet_memBytes_at bs (memPut t a x) (a + 1) i (by simpa using h)
    rwa [Nat.add_right_comm, Nat.add_assoc] at hrest

/-- What stays of a memory of which a region is cleared. -/
theorem memGet_tfilter (f : Nat → Bool) (t : List Host.Cell) (a : Nat) : memGet (tfilter f t) a = if f a then memGet t a else 0 :=
  tget_tfilter _ f a t

theorem memGet_scrub (m : Mach) (a : Nat) : memGet (scrub m).mem.hbm a = if inFirmware m a then memGet m.mem.hbm a else 0 :=
  memGet_tfilter (inFirmware m) m.mem.hbm a

/-! ## The firmware region -/

/-- The size of the region that an image takes. -/
def imageRegion (m : Mach) (rep : StartReport) : Nat := pageUp (imageSize m rep) + imageNat m rep 0x10 4

theorem imageSize_le_region (m : Mach) (rep : StartReport) : imageSize m rep ≤ imageRegion m rep := by
  unfold imageRegion pageUp
  omega

/-- HBM after the load: the image, zeros up to the end of its region, and what was there elsewhere. -/
theorem loadFirmware_hbm (m : Mach) (rep : StartReport) :
    (loadFirmware m rep).mem.hbm = memBytes
      (tfilter (fun a => !(rep.base / 65536 * 65536 ≤ a && a < rep.base / 65536 * 65536 + imageRegion m rep : Bool)) m.mem.hbm)
      (rep.base / 65536 * 65536) (imageBytes m rep 256 (imageSize m rep)) := rfl

theorem length_imageBytes (m : Mach) (rep : StartReport) (off n : Nat) : (imageBytes m rep off n).length = n := by
  simp [imageBytes, upto]

theorem loadFirmware_image {m : Mach} {rep : StartReport} {i : Nat} (h : i < imageSize m rep) :
    memGet (loadFirmware m rep).mem.hbm (rep.base / 65536 * 65536 + i) = imageByte m rep (256 + i) := by
  rw [loadFirmware_hbm, memGet_memBytes_at _ _ _ i (by rwa [length_imageBytes])]
  simp [imageBytes, upto]

theorem loadFirmware_behind {m : Mach} {rep : StartReport} {i : Nat} (h : imageSize m rep ≤ i) (hi : i < imageRegion m rep) :
    memGet (loadFirmware m rep).mem.hbm (rep.base / 65536 * 65536 + i) = 0 := by
  rw [loadFirmware_hbm, memGet_memBytes_outside _ _ _ _ (by rw [length_imageBytes]; omega), memGet_tfilter, if_neg]
  simp only [Bool.not_eq_true', Bool.not_eq_false, Bool.and_eq_true, decide_eq_true_eq]
  omega

theorem loadFirmware_elsewhere {m : Mach} {rep : StartReport} {a : Nat}
    (h : a < rep.base / 65536 * 65536 ∨ rep.base / 65536 * 65536 + imageRegion m rep ≤ a) :
    memGet (loadFirmware m rep).mem.hbm a = memGet m.mem.hbm a := by
  have hsize := imageSize_le_region m rep
  rw [loadFirmware_hbm, memGet_memBytes_outside _ _ _ _ (by rw [length_imageBytes]; omega), memGet_tfilter, if_pos]
  simp only [Bool.not_eq_true', Bool.and_eq_false_iff, decide_eq_false_iff_not]
  omega

/-! ## The beginning of a start -/

/-- A pasture as a start leaves it. -/
def freed (x : Pasture) : Pasture :=
  { x with st := .free, quota := 0, root := 0, log := none, heldRecs := [], gate := none, image := none, ending := none, flight := [],
           ctxsave := (0, 0, 0) }

/-- Once a pasture is free, freeing further ones leaves it free; and each of the list is freed. -/
theorem freeAll_st (ps : List Nat) : ∀ (t : Tbl Pasture) (p : Nat), p ∈ ps ∨ (tget Pasture.reset p t).st = .free →
    (tget Pasture.reset p (ps.foldl (fun t p => tput Pasture.reset p (freed (tget Pasture.reset p t)) t) t)).st = .free := by
  induction ps with
  | nil => exact fun t p h => h.resolve_left List.not_mem_nil
  | cons q ps ih =>
    intro t p h
    refine ih _ p ?_
    by_cases hpq : p = q
    · subst hpq
      exact .inr (by rw [tget_tput_same]; rfl)
    · rw [tget_tput_other _ _ _ _ _ hpq]
      exact h.imp_left (fun hmem => (List.mem_cons.mp hmem).resolve_left hpq)

theorem startBegin_free (warm : Bool) (v : Nat) (m : Mach) {p : Nat} (hp : p < 16) : (pastOf (startBegin warm v m) p).st = .free := by
  have hlisted := mem_upto.mpr hp
  unfold pastOf startBegin
  dsimp only
  generalize upto 16 = ps at hlisted ⊢
  exact freeAll_st ps m.sys.past p (.inl hlisted)

/-! ## The steps of a start -/

/-- A step that is done: PHASE names the next one. -/
def nextPhase (m : Mach) : Mach := { m with host.phase := m.host.phase + 1 }

section
variable {rep : StartReport} {m : Mach}

theorem startStep_idle (h : m.host.busy = false) : startStep rep m = m := by simp [startStep, h]

theorem startStep_1 (h : m.host.busy = true) (hp : m.host.phase = 1) :
    startStep rep m = if rep.result = 1 then failStart m 1 else nextPhase m := by simp [startStep, h, hp, nextPhase]

theorem startStep_2 (h : m.host.busy = true) (hp : m.host.phase = 2) :
    startStep rep m = if skipsStep2 m rep then nextPhase m
      else if rep.result = 2 || !imageSigned m rep then failStart m 2 else nextPhase (loadFirmware m rep) := by
  simp [startStep, h, hp, nextPhase]

theorem startStep_3 (h : m.host.busy = true) (hp : m.host.phase = 3) :
    startStep rep m = if rep.result = 3 then failStart m 3 else nextPhase m := by simp [startStep, h, hp, nextPhase]

theorem startStep_4 (h : m.host.busy = true) (hp : m.host.phase = 4) :
    startStep rep m = if rep.result = 4 then failStart m 4 else nextPhase (lightLanes m rep.ports) := by
  simp [startStep, h, hp, nextPhase]

theorem startStep_5 (h : m.host.busy = true) (hp : m.host.phase = 5) :
    startStep rep m = if rep.result = 5 then failStart m 5
      else nextPhase (if !m.host.startWarm || m.host.startScrub then scrub m else m) := by simp [startStep, h, hp, nextPhase]

theorem startStep_6 (h : m.host.busy = true) (hp : m.host.phase = 6) : startStep rep m = finishStart m := by simp [startStep, h, hp]

end

theorem startSteps_idle {rep : StartReport} {m : Mach} (h : m.host.busy = false) (n : Nat) : startSteps rep n m = m := by
  induction n with
  | zero => rfl
  | succ n ih => rw [startSteps, startStep_idle h, ih]

/-- What the loss of a cache line leaves. -/
def KeptByLoss (m t : Mach) : Prop := t.host = m.host ∧ t.fab = m.fab

theorem loseLine_keeps (m t : Mach) (line : Nat) (h : KeptByLoss m t) : KeptByLoss m (loseLine t line) := by
  unfold loseLine
  split
  · exact h
  · exact h

theorem loseLines_keep (m : Mach) : KeptByLoss m (m.mem.dirty.foldl loseLine m) :=
  foldl_keeps (P := KeptByLoss m) (loseLine_keeps m) _ m ⟨rfl, rfl⟩

theorem finishStart_host (m : Mach) : (finishStart m).host =
    { m.host with busy := false, phase := 7, result := 0, count := (m.host.count + 1) % 65536, msix := m.host.msix ++ [1040] } := by
  obtain ⟨hhost, -⟩ := loseLines_keep m
  exact congrArg (fun h : HostS => { h with busy := false, phase := 7, result := 0, count := (h.count + 1) % 65536, msix := h.msix ++ [1040] }) hhost

theorem finishStart_fab (m : Mach) : (finishStart m).fab = { m.fab with slots := [], newSlots := [], slotOwn := [] } := by
  obtain ⟨-, hfab⟩ := loseLines_keep m
  exact congrArg (fun f : FabS => { f with slots := [], newSlots := [], slotOwn := [] }) hfab

theorem finishStart_units (m : Mach) : (finishStart m).seq.units = bootUnits m.host ∧ (finishStart m).seq.sheps = bootSheps m.host := by
  obtain ⟨hhost, -⟩ := loseLines_keep m
  exact ⟨congrArg bootUnits hhost, congrArg bootSheps hhost⟩

/-- A table that lists consecutive keys gives each its value. -/
theorem tfind_consecutive {V : Type} (base : Nat) (x : V) (n k : Nat) (h : k < n) :
    tfind (base + k) ((upto n).map (fun k => (base + k, x))) = some x := by
  have hlist : ∀ l : List Nat, k ∈ l → tfind (base + k) (l.map (fun k => (base + k, x))) = some x := by
    intro l hl
    induction l with
    | nil => exact absurd hl List.not_mem_nil
    | cons j l ih =>
      rw [List.map_cons, tfind]
      by_cases hj : base + j = base + k
      · exact if_pos hj
      · rw [if_neg hj]
        exact ih ((List.mem_cons.mp hl).resolve_left (fun hk => hj (by rw [hk])))
  exact hlist _ (mem_upto.mpr h)

/-- The shepherd cores as a completed start leaves them. -/
theorem finishStart_shepherd (m : Mach) {k : Nat} (hk : k < 16) :
    unitOf (finishStart m) (128 + k) = { SUnit.reset with base := 0x7F0000000000, w := m.host.fwEntry, run := .running }
      ∧ shepOf (finishStart m) k = { Shep.reset with tvec := BitVec.ofNat 64 m.host.fwTvec } := by
  obtain ⟨hunits, hsheps⟩ := finishStart_units m
  refine ⟨?_, ?_⟩
  · rw [unitOf, hunits]
    exact congrArg (Option.getD · SUnit.reset) (tfind_consecutive 128 _ 16 k hk)
  · have hfind := tfind_consecutive 0 { Shep.reset with tvec := BitVec.ofNat 64 m.host.fwTvec } 16 k hk
    simp only [Nat.zero_add] at hfind
    rw [shepOf, hsheps]
    exact congrArg (Option.getD · Shep.reset) hfind

/-! ## A cold start that nothing fails -/

section
variable (m : Mach) (rep : StartReport)

@[simp] theorem nextPhase_phase : (nextPhase m).host.phase = m.host.phase + 1 := rfl
@[simp] theorem nextPhase_busy : (nextPhase m).host.busy = m.host.busy := rfl
@[simp] theorem nextPhase_startWarm : (nextPhase m).host.startWarm = m.host.startWarm := rfl
@[simp] theorem loadFirmware_phase : (loadFirmware m rep).host.phase = m.host.phase := rfl
@[simp] theorem loadFirmware_busy : (loadFirmware m rep).host.busy = m.host.busy := rfl
@[simp] theorem loadFirmware_startWarm : (loadFirmware m rep).host.startWarm = m.host.startWarm := rfl
@[simp] theorem lightLanes_phase (ports : Nat) : (lightLanes m ports).host.phase = m.host.phase := rfl
@[simp] theorem lightLanes_busy (ports : Nat) : (lightLanes m ports).host.busy = m.host.busy := rfl
@[simp] theorem lightLanes_startWarm (ports : Nat) : (lightLanes m ports).host.startWarm = m.host.startWarm := rfl
@[simp] theorem scrub_host : (scrub m).host = m.host := rfl

end

/-- Steps 3 to 6 of a cold start that none of them fails. -/
theorem startSteps_from3 {rep : StartReport} {m : Mach} (hbusy : m.host.busy = true) (hphase : m.host.phase = 3) (hres : rep.result = 0)
    (hcold : m.host.startWarm = false) :
    startSteps rep 4 m = finishStart (nextPhase (scrub (nextPhase (lightLanes (nextPhase m) rep.ports)))) := by
  rw [startSteps, startStep_3 hbusy hphase, if_neg (by rw [hres]; decide)]
  rw [startSteps, startStep_4 (by simp [hbusy]) (by simp [hphase]), if_neg (by rw [hres]; decide)]
  rw [startSteps, startStep_5 (by simp [hbusy]) (by simp [hphase]), if_neg (by rw [hres]; decide), if_pos (by simp [hcold])]
  rw [startSteps, startStep_6 (by simp [hbusy]) (by simp [hphase]), startSteps]

section
variable {rep : StartReport} {m : Mach} (hbusy : m.host.busy = true) (hphase : m.host.phase = 1) (hres : rep.result = 0)
  (hcold : m.host.startWarm = false)
include hbusy hphase hres hcold

/-- The first step is done, and the second does not skip the image. -/
theorem coldStart_image : startStep rep (startStep rep m) =
    if imageSigned m rep = true then nextPhase (loadFirmware (nextPhase m) rep) else failStart (nextPhase m) 2 := by
  have hskip : skipsStep2 (nextPhase m) rep = false := by
    rw [skipsStep2, show (nextPhase m).host.startWarm = false from hcold]
    rfl
  rw [startStep_1 hbusy hphase, if_neg (by rw [hres]; decide)]
  rw [startStep_2 (m := nextPhase m) hbusy (congrArg (· + 1) hphase), hskip, hres, if_neg Bool.false_ne_true,
    show imageSigned (nextPhase m) rep = imageSigned m rep from rfl]
  cases imageSigned m rep <;> rfl

theorem coldStart_unsigned (hsig : imageSigned m rep = false) : startSteps rep 6 m = failStart (nextPhase m) 2 := by
  have himage := coldStart_image hbusy hphase hres hcold
  rw [hsig, if_neg Bool.false_ne_true] at himage
  rw [startSteps, startSteps, himage]
  exact startSteps_idle rfl 4

/-- The state in which the last step of a start runs. -/
def beforeFinish (m : Mach) (rep : StartReport) : Mach :=
  nextPhase (scrub (nextPhase (lightLanes (nextPhase (nextPhase (loadFirmware (nextPhase m) rep))) rep.ports)))

theorem coldStart_signed (hsig : imageSigned m rep = true) : startSteps rep 6 m = finishStart (beforeFinish m rep) := by
  have himage := coldStart_image hbusy hphase hres hcold
  rw [if_pos hsig] at himage
  rw [startSteps, startSteps, himage, startSteps_from3 (by simp [hbusy]) (by simp [hphase]) hres (by simp [hcold])]
  rfl

end

/-! ## The default lanes -/

theorem thas_iff {V : Type} (k : Nat) : ∀ t : Tbl V, thas k t = true ↔ ∃ e ∈ t, e.1 = k
  | [] => by simp [thas, tfind]
  | (a, v) :: t => by
    have ih := thas_iff k t
    unfold thas at ih ⊢
    rw [tfind]
    by_cases ha : a = k
    · simp [ha]
    · simp [ha, ih]

/-- The lanes of a peer of this package's tray that a completed start lights: those of the planes of the pair. -/
theorem defaultLanes_lit {own d k : Nat} (planes : Nat → List Nat) (hd : d < 512) (hk : k < 8) (hne : d ≠ own)
    (htray : d / 64 = own / 64) : thas (d * 8 + k) (defaultLanes own planes) = decide (k ∈ planes d) := by
  rw [Bool.eq_iff_iff, decide_eq_true_iff, thas_iff]
  constructor
  · rintro ⟨e, he, hkey⟩
    rcases List.mem_append.mp he with hpeer | hgate
    · obtain ⟨j, hj, hlane⟩ := List.mem_flatMap.mp hpeer
      dsimp only at hlane
      split at hlane
      · exact absurd hlane List.not_mem_nil
      · obtain ⟨i, hi, rfl⟩ := List.mem_map.mp hlane
        obtain ⟨hi8, hplane⟩ := List.mem_filter.mp hi
        have hi8 := mem_upto.mp hi8
        dsimp only at hkey
        obtain rfl : i = k := by omega
        have hpeer : own / 64 * 64 + j = d := by omega
        rw [hpeer] at hplane
        exact List.contains_iff_mem.mp hplane
    · obtain ⟨i, -, rfl⟩ := List.mem_map.mp hgate
      dsimp only at hkey
      omega
  · intro hplane
    have hj : own / 64 * 64 + d % 64 = d := by omega
    refine ⟨(d * 8 + k, Lane.fresh none), List.mem_append_left _ (List.mem_flatMap.mpr ⟨d % 64, mem_upto.mpr (by omega), ?_⟩), rfl⟩
    dsimp only
    rw [hj, if_neg hne]
    exact List.mem_map_of_mem (f := fun i => (d * 8 + i, Lane.fresh none))
      (List.mem_filter.mpr ⟨mem_upto.mpr hk, List.contains_iff_mem.mpr hplane⟩)

/-! ## Registers of the window -/

theorem startStatus_phase (s : State) (h : s.m.host.phase < 8) :
    bits (registerRead 0x10 s) 0 4 = (if s.m.host.busy then 8 else 0) + s.m.host.phase % 8 := by
  have hread : registerRead 0x10 s = (if s.m.host.warmed then 2 ^ 32 else 0) + s.m.host.count * 2 ^ 16 + s.m.host.result * 2 ^ 8
      + (if s.m.host.busy then 8 else 0) + s.m.host.phase := rfl
  rw [hread, bits_eq_div_mod]
  cases s.m.host.warmed <;> cases s.m.host.busy <;> simp only [Bool.false_eq_true, if_false, if_true] <;> omega

theorem capOf_exact {v : Nat} (hlo : 500 ≤ v % 4096) (hhi : v % 4096 ≤ 2500) : capOf v = v % 4096 := by
  rw [capOf, bits_eq_div_mod, Nat.pow_zero, Nat.div_one]
  omega

theorem idRegister_fields (s : State) (hpeer : s.m.host.peer < 512) :
    bits (registerRead 0 s) 0 16 = 0x5634 ∧ bits (registerRead 0 s) 24 9 = s.m.host.peer := by
  have hread : registerRead 0 s = 0x5634 + s.m.host.revision % 256 * 2 ^ 16 + s.m.host.peer % 512 * 2 ^ 24 := rfl
  rw [hread, bits_eq_div_mod, bits_eq_div_mod]
  omega

theorem exec_startCompletion {s : State} {rep : StartReport} (hres : rep.result < 6) (hbase : rep.base + 2 ^ 26 + 2 ^ 32 ≤ 2 ^ 39) :
    exec (.startCompletion rep) s = .next { s with m := startSteps rep (min 6 rep.steps) s.m } :=
  next_of_lift (startCompletionG rep) rfl (if_neg (by omega))

/-- Settles O60: each step of a start by its equation, the completed start by the chain of its six steps, and the registers by
their words. -/
theorem startAndPower : Obligations.StartAndPower := by
  unfold Obligations.StartAndPower
  refine ⟨fun s v => ⟨fun hc => ?_, fun hc => ?_, fun hgo => ?_⟩, fun s => ?_, fun s rep hres hbase => exec_startCompletion hres hbase,
    fun rep n m => ⟨rfl, rfl⟩, fun rep m h => startStep_idle h, fun rep m h => ?_, fun m c => ?_, ?_, fun m rep => ?_, memGet_scrub,
    fun m => ?_, fun m ports => ?_, fun s off v hb hoff hal => ?_, fun s off v hb => ?_, fun s v => ?_, fun s w p => ?_,
    fun s peer rev rate => ?_⟩
  · exact congrArg Host.Outcome.next (if_pos hc)
  · exact ⟨congrArg Host.Outcome.next (if_neg (Bool.eq_false_iff.mp hc)), congrArg Host.Outcome.next (if_neg (Bool.eq_false_iff.mp hc))⟩
  · have hstart : startWrite v.toNat s =
        { s with m := startBegin (!bitAt v.toNat 0) v.toNat s.m, sched.firing := [], pow.paid := [] } := if_pos (by simpa using hgo)
    dsimp only
    rw [hstart]
    exact ⟨fun p hp => startBegin_free _ _ _ hp, rfl, rfl, rfl, rfl, rfl, rfl, rfl, rfl, rfl, rfl, rfl, rfl, rfl⟩
  · exact (Nat.lt_or_ge s.m.host.phase 8).imp_left (startStatus_phase s)
  · exact ⟨startStep_1 h, startStep_2 h, startStep_3 h, startStep_4 h, startStep_5 h, startStep_6 h⟩
  · exact ⟨rfl, rfl, rfl, rfl, rfl, rfl, rfl⟩
  · intro s rep hbusy hphase hres hsteps hcold hbase
    refine ⟨_, exec_startCompletion (by omega) hbase, ?_⟩
    rw [hsteps, Nat.min_self]
    dsimp only
    cases hsig : imageSigned s.m rep with
    | false =>
      rw [coldStart_unsigned hbusy hphase hres hcold hsig]
      exact ⟨rfl, fun _ => ⟨rfl, rfl⟩, nofun⟩
    | true =>
      rw [coldStart_signed hbusy hphase hres hcold hsig, finishStart_host]
      exact ⟨rfl, nofun, fun _ => ⟨rfl, rfl, rfl, rfl, rfl⟩⟩
  · exact ⟨fun i hi => loadFirmware_image hi, fun i hi hreg => loadFirmware_behind hi hreg, fun a ha => loadFirmware_elsewhere ha⟩
  · dsimp only
    rw [finishStart_host, finishStart_fab]
    refine ⟨rfl, rfl, rfl, rfl, by simp, rfl, rfl, rfl, fun k hk => ?_⟩
    obtain ⟨hunit, hshep⟩ := finishStart_shepherd m hk
    simp only [sReg, hunit, hshep]
    exact ⟨trivial, trivial, trivial, fun r => rfl, trivial⟩
  · exact ⟨rfl, rfl, fun d hd k hk hne htray => ⟨defaultLanes_lit (lanePlanes m.host.peer) hd hk hne htray,
      defaultLanes_lit (fun d => lanePlanes d m.host.peer) hd hk hne htray⟩⟩
  · have hgo : ¬ (s.m.host.busy = true ∨ 524288 ≤ off ∨ off % 8 ≠ 0) := by simp [hb, hal]; omega
    refine ⟨_, next_of_lift (fwstageWriteG off v.toNat) rfl (if_neg hgo), ?_, fun a ha => memGet_memWrite_other 8 _ _ _ _ ha, rfl⟩
    exact (memRead_memWrite 8 _ _ _).trans (Nat.mod_eq_of_lt v.isLt)
  · exact next_of_lift (fwstageWriteG off v.toNat) rfl (if_pos (.inl hb))
  · obtain ⟨hlo, hhi⟩ := capOf_range v.toNat
    exact ⟨_, rfl, rfl, hlo, hhi, capOf_exact, rfl⟩
  · exact ⟨_, rfl, rfl, rfl, rfl, rfl⟩
  · have hpeer : (powerOnS peer rev rate s).m.host.peer < 512 := Nat.mod_lt _ (by decide)
    obtain ⟨hmagic, hfield⟩ := idRegister_fields (powerOnS peer rev rate s) hpeer
    exact ⟨_, rfl, rfl, rfl, rfl, rfl, rfl, hmagic, hfield, rfl⟩

end Sys2Proof.Machine

/-! PROOFS. The system operations on pastures: how they enter their queue, what serving one answers, and the images that a
readout takes and a RESUME brings back (R423-R438). -/

namespace Sys2Proof.Machine

/-! ## The instructions -/

/-- An operation whose pastures are 0 to 15 enters their queue. -/
theorem exec_sysStart {i : Instr} {s : State} {u w : Nat} {os : List Opd} {pasts : List Nat} {d : Opd} {op : List Nat → SysOp}
    {o : SysOp} (hi : exec i s = lift (sysStart os pasts d op) s) (h : sStarts s.m u w os [d] = true)
    (hp : pasts.any (fun i => 16 ≤ ((os.map (payOf s.m .whole))[i]?).getD 0) = false)
    (ho : op (os.map (payOf s.m .whole)) = o) :
    exec i s = .next (after s os [d] (fun m => flush (addReq m (mkReq m (dstOf m d false) (.sys o) 5 false false)))) := by
  subst ho
  exact exec_sFire_eq hi h (if_neg (Bool.eq_false_iff.mp hp))

/-- An operation on a pasture above 15 answers FIELD. -/
theorem exec_sysStart_field {i : Instr} {s : State} {u w : Nat} {a d : Opd} {op : List Nat → SysOp}
    (hi : exec i s = lift (sysStart [a] [0] d op) s) (h : sStarts s.m u w [a] [d] = true) (hp : 16 ≤ payOf s.m .whole a) :
    exec i s = .next (after s [a] [d] (fun m => putS m u d (2 ^ 63 + 1))) :=
  exec_sFire_eq hi h (if_pos (by simpa using hp))

section
variable (s : State) (d a b : Opd)

theorem exec_preempt : exec (.preempt d a) s = lift (sysStart [a] [0] d (fun vs => .preempt ((vs[0]?).getD 0))) s := rfl
theorem exec_csave : exec (.csave d a) s = lift (sysStart [a] [0] d (fun vs => .csave ((vs[0]?).getD 0))) s := rfl
theorem exec_cload : exec (.cload d a) s = lift (sysStart [a] [0] d (fun vs => .cload ((vs[0]?).getD 0))) s := rfl
theorem exec_halt : exec (.halt d a) s = lift (sysStart [a] [0] d (fun vs => .halt ((vs[0]?).getD 0))) s := rfl
theorem exec_gtbl : exec (.gtbl d a b) s =
    lift (sysStart [a, b] [0] d (fun vs => .gtbl ((vs[0]?).getD 0) (bits ((vs[1]?).getD 0) 0 56))) s := rfl
theorem exec_flogCfg : exec (.flog ⟨false⟩ d a b) s =
    lift (sysStart [a, b] [0] d (fun vs => .flogCfg ((vs[0]?).getD 0) ((vs[1]?).getD 0))) s := rfl
theorem exec_resume : exec (.resume ⟨false⟩ d a b) s =
    lift (sysStart [a] [0] d (fun vs => .resume ((vs[0]?).getD 0) none)) s := rfl
theorem exec_swap : exec (.resume ⟨true⟩ d a b) s =
    lift (sysStart [a, b] [0, 1] d (fun vs => .resume ((vs[0]?).getD 0) (some ((vs[1]?).getD 0)))) s := rfl

end

theorem exec_flogAck {s : State} {u w : Nat} {d a b : Opd} (h : sStarts s.m u w [a, b] [d] = true) (hp : payOf s.m .whole a < 16) :
    exec (.flog ⟨true⟩ d a b) s = .next { s with m := flogAck (readDone s.m [a, b] [d]) u d (payOf s.m .whole a) (payOf s.m .whole b) } := by
  have hi : exec (.flog ⟨true⟩ d a b) s = lift (flogG ⟨true⟩ d a b) s := rfl
  rw [flogG, if_pos rfl] at hi
  exact exec_sFire_eq hi h (if_neg (Nat.not_le.mpr hp))

theorem flogAck_logged {m : Mach} {p : Nat} {r : LogRing} (hlog : (pastOf m p).log = some r) (u : Nat) (d : Opd) (n : Nat) :
    flogAck m u d p n =
      let t := (r.tail + min (n % 2 ^ 24) (ringCount r)) % 2 ^ 24
      putS (drainLog (setPast m p { pastOf m p with log := some { r with tail := t } }) p) u d (r.head + t * 2 ^ 24) := by
  simp only [flogAck, hlog, bits_zero_eq_mod]

/-! ## Serving an operation -/

section
variable (m : Mach) (r : Req) {p : Nat}

theorem servePreempt_state (h : (pastOf m p).st ≠ .live) : serveSys m r (.preempt p) = sysAnswer m r.id (2 ^ 63 + 2) :=
  if_pos (bne_iff_ne.mpr h)

theorem servePreempt_live (h : (pastOf m p).st = .live) : serveSys m r (.preempt p) =
    if slotsFree m p none = false then sysAnswer m r.id (2 ^ 63 + 3)
    else if areaWrites m (unitBase m p) unitArea then sysGo (gatePast m p r.id) r.id else sysAnswer m r.id (2 ^ 63 + 7) := by
  simp only [serveSys, h, bne_self_eq_false, Bool.false_eq_true, if_false, sysFail]
  cases slotsFree m p none <;> cases areaWrites m (unitBase m p) unitArea <;> rfl

theorem serveCsave_state (h : (pastOf m p).st ≠ .shadowed) : serveSys m r (.csave p) = sysAnswer m r.id (2 ^ 63 + 2) :=
  if_pos (bne_iff_ne.mpr h)

theorem serveCsave_shadowed (h : (pastOf m p).st = .shadowed) : serveSys m r (.csave p) =
    if areaWrites m (pastOf m p).ctxbase (ctxBytes m p) then sysGo m r.id else sysAnswer m r.id (2 ^ 63 + 7) := by
  simp only [serveSys, h, bne_self_eq_false, Bool.false_eq_true, if_false, sysFail]
  cases areaWrites m (pastOf m p).ctxbase (ctxBytes m p) <;> rfl

theorem serveCload_state (h : (pastOf m p).st ≠ .saved) : serveSys m r (.cload p) = sysAnswer m r.id (2 ^ 63 + 2) :=
  if_pos (bne_iff_ne.mpr h)

theorem serveCload_saved (h : (pastOf m p).st = .saved) : serveSys m r (.cload p) =
    if slotsFree m p none = false then sysAnswer m r.id (2 ^ 63 + 3)
    else if areaReads m (pastOf m p).ctxbase (ctxBytes m p) then sysAnswer (loadCtx m p) r.id 0 else sysAnswer m r.id (2 ^ 63 + 7) := by
  simp only [serveSys, h, bne_self_eq_false, Bool.false_eq_true, if_false, sysFail]
  cases slotsFree m p none <;> cases areaReads m (pastOf m p).ctxbase (ctxBytes m p) <;> rfl

/-- A RESUME that its check refuses answers the check's code. -/
theorem serveResume_refused {out : Option Nat} {c : Nat} (h : resumeCheck m p out = some c) :
    serveSys m r (.resume p out) = sysAnswer m r.id (2 ^ 63 + c) := by simp only [serveSys, h, sysFail]

theorem resumeCheck_state {out : Option Nat} (h : (pastOf m p).st ≠ .shadowed ∨ coresFree m p out = false) :
    resumeCheck m p out = some 2 := by
  refine if_pos ?_
  rcases h with hst | hcores
  · rw [bne_iff_ne.mpr hst, Bool.true_or]
  · rw [hcores, Bool.not_false, Bool.or_true]

theorem serveResume_alone (h : (pastOf m p).st = .shadowed) (hc : coresFree m p none = true) : serveSys m r (.resume p none) =
    if areaReads m (unitBase m p) unitArea then sysAnswer (restore m p) r.id 0 else sysAnswer m r.id (2 ^ 63 + 7) := by
  simp only [serveSys, resumeCheck, h, bne_self_eq_false, hc, sysFail]
  cases areaReads m (unitBase m p) unitArea <;> rfl

theorem serveResume_swap {q : Nat} (h : (pastOf m p).st = .shadowed) (hc : coresFree m p (some q) = true) (hq : (pastOf m q).st = .live) :
    serveSys m r (.resume p (some q)) =
      if slotsFree m q (some p) = false then sysAnswer m r.id (2 ^ 63 + 3)
      else if areaReads m (unitBase m p) unitArea && areaWrites m (unitBase m q) unitArea then sysGo (gatePast m q r.id) r.id
      else sysAnswer m r.id (2 ^ 63 + 7) := by
  simp only [serveSys, resumeCheck, h, hq, bne_self_eq_false, hc, sysFail]
  cases slotsFree m q (some p) <;> cases areaReads m (unitBase m p) unitArea <;> cases areaWrites m (unitBase m q) unitArea <;> rfl

theorem serveHalt_ended (h : (pastOf m p).st = .free ∨ (pastOf m p).st = .halted) :
    serveSys m r (.halt p) = sysAnswer m r.id (2 ^ 63 + 2) := by
  refine if_pos ?_
  rcases h with hst | hst
  · rw [hst]; rfl
  · rw [hst]; rfl

theorem serveHalt_starts (hfree : (pastOf m p).st ≠ .free) (hhalted : (pastOf m p).st ≠ .halted) :
    serveSys m r (.halt p) = haltStart (sysGo m r.id) p r.id := if_neg (by simp [hfree, hhalted])

theorem serveGtbl_members {va : Nat} {ms : List (Nat × Nat)} (h : (pastOf m p).st = .free ∨ (pastOf m p).st = .ready)
    (hms : gtblMembers m r.who p va = .ok ms) :
    serveSys m r (.gtbl p va) = sysAnswer (setGroups { m with free := m.free + 8 + 4 * 24576 } p ms) r.id 0 := by
  have hst : ¬ ((pastOf m p).st != .free && (pastOf m p).st != .ready) = true := by
    rcases h with hst | hst
    · rw [hst]; decide
    · rw [hst]; decide
  refine (if_neg hst).trans ?_
  rw [hms]

theorem serveFlogCfg_ring {v : Nat} (h : (pastOf m p).st ≠ .halted) (hres : v / 16 % 4 = 0) (hsz : v % 16 ≤ 10)
    (hring : ringOk m p (bits v 6 50 * 64) (v % 16) = true) :
    serveSys m r (.flogCfg p v) = sysAnswer
      (drainLog (setPast m p { pastOf m p with log := some ⟨bits v 6 50 * 64, v % 16, 0, 0, false, false⟩ }) p) r.id 0 := by
  have hsize : bits v 0 4 = v % 16 := bits_zero_eq_mod v 4
  have hreserved : bits v 4 2 = 0 := by rw [bits_eq_div_mod]; exact hres
  have hgood : ¬ (bits v 4 2 ≠ 0 ∨ 10 < v % 16 ∨ (!ringOk m p (bits v 6 50 * 64) (v % 16)) = true) := by
    rw [hreserved, hring]
    simpa using hsz
  simp only [serveSys, hsize]
  rw [if_neg (by simpa using h), if_neg hgood]

theorem endCsave (h : areaWrites m (pastOf m p).ctxbase (ctxBytes m p) = true) :
    endSys m r (.csave p) = sysAnswer (saveCtx m p) r.id 0 := if_pos h

end

/-! ## Save areas -/

section
variable (m : Mach) (p b n : Nat)

theorem saveArea_past : pastOf (saveArea m p b n) p = { pastOf m p with ctxsave := (b, n, m.free) } := pastOf_setPast_same _ _ _

theorem saveArea_spad : (saveArea m p b n).mem.spad = m.mem.spad := rfl

/-- HBM outside the area stays. -/
theorem saveArea_hbm {a : Nat} (h : a < b ∨ b + n ≤ a) : memGet (saveArea m p b n).mem.hbm a = memGet m.mem.hbm a :=
  memGet_memBytes_outside (areaBytes m.free n) m.mem.hbm b a (by simpa [areaBytes, upto] using h)

end

theorem saveCtx_past (m : Mach) (p : Nat) : pastOf (saveCtx m p) p =
    { pastOf m p with st := .saved, ctxsave := ((pastOf m p).ctxbase, ctxBytes m p, m.free) } := by
  rw [saveCtx, pastOf_setPast_same, saveArea_past]

theorem readBack_intact {m : Mach} {p : Nat} (h : areaIntact m p = true) (units : Bool) : readBack m p units = m := if_pos h

theorem readBack_touched {m : Mach} {p : Nat} {i : Image} (h : areaIntact m p = false) (hi : (pastOf m p).image = some i) :
    (pastOf (readBack m p false) p).image = some (Image.within (coreIn m p) p ((freeImage m.free).getD i)) := by
  rw [readBack, if_neg (Bool.eq_false_iff.mp h), hi]
  exact congrArg Pasture.image (pastOf_setPast_same _ p _)

theorem readBack_mem (m : Mach) (p : Nat) (units : Bool) : (readBack m p units).mem = m.mem := by
  unfold readBack
  dsimp only
  split
  · rfl
  · split <;> rfl

theorem loadCtx_past (m : Mach) (p : Nat) : (pastOf (loadCtx m p) p).st = .shadowed
    ∧ (pastOf (loadCtx m p) p).image = (pastOf (readBack m p false) p).image := by
  rw [loadCtx, pastOf_setPast_same]
  exact ⟨rfl, rfl⟩

/-! ## The readout -/

/-- What a request keeps at the readout of its pasture: a tile's request takes the tile's state with it. -/
def withTile (m : Mach) (p : Nat) (r : Req) : Req :=
  match r.op with
  | .ag ld a bw _ => (match m.copy.tiles.find? (fun e => e.2.req == r.id && tileFor m p e.1) with
      | some e => { r with op := .ag ld a bw (some (tileImage m e.1 e.2)) }
      | none => r)
  | _ => r

theorem withTile_id (m : Mach) (p : Nat) (r : Req) : (withTile m p r).id = r.id := by
  unfold withTile
  split
  · split <;> rfl
  · rfl

/-- A request of Bruosh is no tile's. -/
theorem withTile_sys {m : Mach} {p : Nat} {r : Req} {op : SysOp} (h : (withTile m p r).op = .sys op) : withTile m p r = r := by
  unfold withTile at h ⊢
  split at h
  · split at h
    · cases h
    next hop _ _ => exact absurd (hop.symm.trans h) nofun
  · rfl

theorem takeImage_reqs (m : Mach) (p : Nat) : (takeImage m p).mem.reqs = m.mem.reqs.map (withTile m p) := rfl

theorem reqOf_takeImage {m : Mach} {p id : Nat} {r : Req} {op : SysOp} (hr : reqOf (takeImage m p) id = some r) (hop : r.op = .sys op) :
    reqOf m id = some r := by
  rw [reqOf, takeImage_reqs, List.find?_map] at hr
  obtain ⟨r0, hfind, rfl⟩ := Option.map_eq_some_iff.mp hr
  rw [withTile_sys hop]
  rw [← hfind, reqOf]
  exact congrArg (fun f => m.mem.reqs.find? f) (funext fun q => by simp only [Function.comp, withTile_id])

/-- The image that a readout takes. -/
def imageOf (m : Mach) (p : Nat) : Image :=
  ⟨m.pe.only (coreIn m p), tfilter (coreIn m p) m.mat.q, m.fab.transit.filter (boundFor m p),
    m.fab.circuits.filter (fun c => coreIn m p (c.owner / 2)), m.mat.mode.filter (coreIn m p), tfilter (ctxOf m p) m.seq.units,
    tfilter (fun k => ctxOf m p (k / 16)) m.seq.uhands, tfilter (fun k => ctxOf m p (k / 16)) m.seq.uhpend,
    tfilter (fun k => k / 16384 == p) m.sync.mons⟩

theorem takeImage_past (m : Mach) (p : Nat) :
    (pastOf (takeImage m p) p).image = some (imageOf m p) ∧ (pastOf (takeImage m p) p).st = .shadowed := by
  rw [takeImage, saveArea_past, pastOf_setPast_same]
  exact ⟨rfl, rfl⟩

theorem takeImage_units (m : Mach) (p : Nat) :
    (takeImage m p).seq.units = tfilter (fun u => !ctxOf m p u && !tileFor m p u) m.seq.units := rfl

theorem takeImage_mons (m : Mach) (p : Nat) : (takeImage m p).sync.mons = tfilter (fun k => k / 16384 != p) m.sync.mons := rfl

theorem takeImage_avg (m : Mach) (p : Nat) :
    (takeImage m p).seq.avg = m.seq.avg.map (fun e => (e.1, e.2.filter (fun x => !coreIn m p x.src))) := rfl

theorem takeImage_hbm {m : Mach} {p a : Nat} (h : a < unitBase m p ∨ unitBase m p + unitArea ≤ a) :
    memGet (takeImage m p).mem.hbm a = memGet m.mem.hbm a := saveArea_hbm _ p (unitBase m p) unitArea h

theorem takeImage_unitOf {m : Mach} {p u : Nat} (h : ctxOf m p u = true) : unitOf (takeImage m p) u = SUnit.reset := by
  rw [unitOf, takeImage_units, tget_tfilter, h]
  rfl

/-- The pastures whose image the swap of a readout brings back. -/
def swapsIn (m : Mach) (id : Nat) : Option Nat :=
  match (reqOf m id).map (·.op) with
  | some (ReqOp.sys (.resume a _)) => some a
  | _ => none

/-- The readout goes on once nothing of the pasture is on its way any more. -/
theorem channelStoreReadout_gated {m : Mach} {p id : Nat} (hgate : (pastOf m p).gate = some id) :
    channelStoreReadoutG p m =
      if halting m p || !((swapsIn m id).all (fun a => ctxRoom m a (some p)))
          || m.fab.transit.any (fun t => t.src < 200000 && boundFor m p t) || m.seq.installs.any (fun e => coreIn m p (e.1 / 2)) then m
      else
        match reqOf (takeImage m p) id with
        | none => takeImage m p
        | some r => match r.op with
          | .sys (.resume a _) => finish (restore (takeImage m p) a) id 0
          | _ => finish (takeImage m p) id 0 := by
  simp only [channelStoreReadoutG, hgate, swapsIn] <;> rfl

/-! ## Halting -/

/-- A request as step 1 of HALT leaves it: without a destination, unless it outlives its pasture. -/
def haltDropped (p : Nat) (r : Req) : Req := if r.past == p && !outlives r then { r with dst := .drop, pend := false } else r

theorem haltStart_reqs (m : Mach) (p id : Nat) : ∃ kept : List Req, (haltStart m p id).mem.reqs = kept.map (haltDropped p) := by
  unfold haltStart
  dsimp only [setPast_mem]
  generalize List.foldl _ m (upto 16) = m0
  exact ⟨_, List.map_congr_left (fun _ _ => rfl)⟩

theorem haltDropped_dst {p : Nat} {r : Req} (hpast : (haltDropped p r).past = p) (hout : outlives (haltDropped p r) = false) :
    (haltDropped p r).dst = .drop ∧ (haltDropped p r).pend = false := by
  unfold haltDropped at hpast hout ⊢
  split
  · exact ⟨rfl, rfl⟩
  next h =>
    rw [if_neg h] at hpast hout
    exact absurd (by rw [hpast, hout, beq_self_eq_true]; rfl) h

theorem haltEnd_past (m : Mach) (p : Nat) : (pastOf (haltEnd m p) p).st = .halted ∧ (pastOf (haltEnd m p) p).haltedF = true
    ∧ (pastOf (haltEnd m p) p).root = 0 ∧ (pastOf (haltEnd m p) p).gate = none := by
  have hpast : pastOf (haltEnd m p) p =
      { pastOf (dropHeld (freeObjects m p) p) p with st := .halted, haltedF := true, gate := none, root := 0, flight := [] } :=
    pastOf_setPast_same (dropHeld (freeObjects m p) p) p _
  rw [hpast]
  exact ⟨rfl, rfl, rfl, rfl⟩

/-! ## Graph contexts and monitors that come back -/

/-- A graph context that is free is the one that its graph comes back in. -/
theorem ctxMap_own {m : Mach} {u : Nat} (h : (unitOf m u).run = .idle) : ctxMap m [u] = [(u, u)] := by
  simp [ctxMap, h, tset]

theorem renCode_nil (p c : Nat) : renCode [] p c = c := by
  unfold renCode
  split
  next h =>
    have hcode : c / 16384 = p ∧ 8192 ≤ c % 16384 := by simpa using h
    rw [show ∀ k, tget k k ([] : Tbl Nat) = k from fun _ => rfl]
    omega
  · rfl

theorem restoreCtxs_unit {m : Mach} {p u : Nat} {x : SUnit} {i : Image} (hunits : i.units = [(u, x)]) (hidle : (unitOf m u).run = .idle) :
    unitOf (restoreCtxs m p i) u = x := by
  have hown : tget u u (ctxMap m (i.units.map (·.1))) = u := by
    rw [hunits, show [(u, x)].map (·.1) = [u] from rfl, ctxMap_own hidle]
    simp [tget, tfind]
  unfold unitOf restoreCtxs
  simp only [hunits, List.foldl_cons, List.foldl_nil]
  rw [hunits] at hown
  rw [hown, tget, tfind_tset_same]
  rfl

theorem restoreCtxs_monitor {m : Mach} {p k : Nat} {x : Monitor} {i : Image} (hmons : i.mons = [(k, x)]) (hunits : i.units = []) :
    tfind k (restoreCtxs m p i).sync.mons = some { x with fired := true, rearmed := true } := by
  have hcode : renCode (ctxMap m (i.units.map (·.1))) p k = k := by
    rw [hunits]
    exact renCode_nil p k
  unfold restoreCtxs
  simp only [hmons, List.foldl_cons, List.foldl_nil]
  rw [hcode, tfind_tset_same]

/-- Settles O57: each instruction goes through the common start of Bruosh's operations, each answer through the case of its
state, and the images through the tables that a readout filters. -/
theorem systemOperations : Obligations.SystemOperations := by
  unfold Obligations.SystemOperations
  refine ⟨?_, ?_, ?_, ?_, fun m r p => ?_, ?_, fun m p => ?_, fun m p => ?_, fun m p => ?_, fun m p => ?_, ?_, fun m p i => ?_⟩
  · rintro s u w d a b i op h hp (⟨rfl, rfl, hq⟩ | ⟨rfl, rfl⟩ | ⟨rfl, rfl⟩)
    · exact exec_sysStart (exec_swap s d a b) h (by simpa using ⟨hp, hq⟩) (by simp)
    · exact exec_sysStart (exec_gtbl s d a b) h (by simpa using hp) (by simp [bits_zero_eq_mod])
    · exact exec_sysStart (exec_flogCfg s d a b) h (by simpa using hp) (by simp)
  · rintro s u w d a b i op h hp (⟨rfl, rfl⟩ | ⟨rfl, rfl⟩ | ⟨rfl, rfl⟩ | ⟨rfl, rfl⟩ | ⟨rfl, rfl⟩)
    · exact exec_sysStart (exec_preempt s d a) h (by simpa using hp) (by simp)
    · exact exec_sysStart (exec_csave s d a) h (by simpa using hp) (by simp)
    · exact exec_sysStart (exec_cload s d a) h (by simpa using hp) (by simp)
    · exact exec_sysStart (exec_halt s d a) h (by simpa using hp) (by simp)
    · exact exec_sysStart (exec_resume s d a b) h (by simpa using hp) (by simp)
  · intro s u w d a i h hp hi
    simp only [List.mem_cons, List.not_mem_nil, or_false] at hi
    rcases hi with rfl | rfl | rfl | rfl
    · exact exec_sysStart_field (exec_preempt s d a) h hp
    · exact exec_sysStart_field (exec_csave s d a) h hp
    · exact exec_sysStart_field (exec_cload s d a) h hp
    · exact exec_sysStart_field (exec_halt s d a) h hp
  · intro s u w d a b r h hp m p hlog
    exact (exec_flogAck h hp).trans (congrArg (fun m => Host.Outcome.next { s with m := m }) (flogAck_logged hlog u d _))
  · refine ⟨servePreempt_state m r, fun hst => ⟨serveResume_refused m r (resumeCheck_state m (.inl hst)), serveCsave_state m r hst⟩,
      fun hst hfree => ?_, fun hst hfree => ?_, serveResume_alone m r, fun _ hc => serveResume_refused m r (resumeCheck_state m (.inr hc)),
      fun q => serveResume_swap m r, serveCsave_shadowed m r, endCsave m r, serveCload_state m r, fun hst hfree => ?_,
      fun hst hfree => ?_, serveHalt_starts m r, rfl, serveHalt_ended m r, fun hst va ms => serveGtbl_members m r hst,
      fun v => serveFlogCfg_ring m r⟩
    · rw [servePreempt_live m r hst, hfree, if_neg (by decide)]
    · rw [servePreempt_live m r hst, hfree, if_pos rfl]
    · rw [serveCload_saved m r hst, hfree, if_pos rfl]
    · rw [serveCload_saved m r hst, hfree, if_neg (by decide)]
  · intro s p id hgate hhalt
    refine ⟨fun htransit => ?_, fun htransit hinst r hr => ⟨fun hop => ?_, fun a hop hroom => ?_⟩⟩
    · refine next_of_lift (channelStoreReadoutG p) rfl ((channelStoreReadout_gated hgate).trans (if_pos ?_))
      rw [htransit, Bool.or_true, Bool.true_or]
    · refine next_of_lift (channelStoreReadoutG p) rfl ((channelStoreReadout_gated hgate).trans ((if_neg ?_).trans ?_))
      · rw [hhalt, htransit, hinst, swapsIn, reqOf_takeImage hr hop, Option.map_some, hop]
        exact Bool.false_ne_true
      · rw [hr]
        dsimp only
        rw [hop]
    · refine next_of_lift (channelStoreReadoutG p) rfl ((channelStoreReadout_gated hgate).trans ((if_neg ?_).trans ?_))
      · rw [hhalt, htransit, hinst, swapsIn, reqOf_takeImage hr hop, Option.map_some, hop]
        simp [hroom]
      · rw [hr]
        dsimp only
        rw [hop]
  · obtain ⟨himage, hst⟩ := takeImage_past m p
    refine ⟨imageOf m p, himage, hst, rfl, fun u => tfind_tfilter _ _ _, fun u => takeImage_unitOf, fun k => ?_, fun k hk => ?_, rfl,
      fun a => takeImage_hbm, fun c e he => ?_⟩
    · exact (tfind_tfilter (fun k => k / 16384 == p) k m.sync.mons).trans (if_congr beq_iff_eq rfl rfl)
    · rw [takeImage_mons, tfind_tfilter, if_neg (by simpa using hk)]
    · exact (tfind_map_values (fun _ (l : List Move) => l.filter (fun x => !coreIn m p x.src)) c m.seq.avg).trans (by rw [he]; rfl)
  · rw [saveCtx_past]
    exact ⟨rfl, rfl, rfl, fun a => saveArea_hbm m p _ _⟩
  · obtain ⟨hst, himage⟩ := loadCtx_past m p
    exact ⟨hst, readBack_mem m p false, fun h => himage.trans (by rw [readBack_intact h]), fun h i hi => himage.trans (readBack_touched h hi)⟩
  · obtain ⟨hst, hflag, hroot, hgate⟩ := haltEnd_past m p
    exact ⟨hst, hflag, hroot, hgate, rfl, rfl, rfl⟩
  · intro m p id _ r hr hpast _ _ hout
    obtain ⟨kept, hkept⟩ := haltStart_reqs m p id
    rw [hkept] at hr
    obtain ⟨q, -, rfl⟩ := List.mem_map.mp hr
    exact haltDropped_dst hpast hout
  · exact ⟨fun u x => restoreCtxs_unit, fun k x => restoreCtxs_monitor⟩

end Sys2Proof.Machine

/-! PROOFS. ARM and LAUNCH (R137, R145, R147, R149-R151), and how ARM's checks stand to its draw (log 27). -/
namespace Sys2Proof.Machine

/-! ## The result word of the sequencing class (R145) -/

/-- Two machines agree but for the registers of unit `u`. -/
def registersOnly (u : Nat) (m t : Mach) : Prop :=
  ∃ sp, t = { m with seq.units := sp } ∧ (∀ j, j ≠ u → unitOf t j = unitOf m j) ∧ (unitOf t u).tickets = (unitOf m u).tickets

theorem registersOnly_refl (u : Nat) (m : Mach) : registersOnly u m m := ⟨m.seq.units, rfl, fun _ _ => rfl, rfl⟩

theorem registersOnly_trans {u : Nat} {m n t : Mach} (h : registersOnly u m n) (g : registersOnly u n t) : registersOnly u m t := by
  obtain ⟨sp, rfl, hother, hticket⟩ := h
  obtain ⟨sq, rfl, gother, gticket⟩ := g
  exact ⟨sq, rfl, fun j hj => (gother j hj).trans (hother j hj), gticket.trans hticket⟩

theorem registersOnly_setUnit {u : Nat} {m : Mach} {x : SUnit} (h : x.tickets = (unitOf m u).tickets) : registersOnly u m (setUnit m u x) :=
  ⟨_, rfl, fun j hj => (unitOf_setUnit m u j x).trans (if_neg hj), (congrArg SUnit.tickets (unitOf_setUnit_same m u x)).trans h⟩

section Result
variable (m : Mach) (u : Nat) (d : Opd) (f : PfF) (v : Nat)

theorem registersOnly_putS : registersOnly u m (putS m u d v) := by
  cases d with
  | r n => exact registersOnly_setUnit rfl
  | _ => exact registersOnly_refl u m

theorem registersOnly_seqResult : registersOnly u m (seqResult m u d f v) := by
  unfold seqResult
  split
  · exact registersOnly_trans (registersOnly_putS m u d v) (registersOnly_setUnit rfl)
  · exact registersOnly_putS m u d v

theorem sReg_setSPred (i r : Nat) (b : Bool) : sReg (setSPred m u i b) u r = sReg m u r := by
  simp only [sReg, setSPred, unitOf_setUnit_same]

theorem sReg_seqResult (r : Fin 32) : sReg (seqResult m u (.r r) f v) u r.val = v % 2 ^ 64 := by
  have hput : sReg (putS m u (.r r) v) u r.val = v % 2 ^ 64 := (sReg_setSReg ..).trans (if_pos ⟨rfl, rfl⟩)
  unfold seqResult
  split
  · exact (sReg_setSPred ..).trans hput
  · exact hput

end Result

theorem failWord_code (c : Nat) : failWord c 0 0 0 = 2 ^ 63 + c := by simp [failWord]

/-! ## A ticket that is allocated and reported (R147) -/

/-- The generation of ticket entry `e` once it is allocated again. -/
def nextGen (m : Mach) (u e : Nat) : Nat := ((tget ⟨0, false, false, 0⟩ e (unitOf m u).tickets).gen + 1) % 65536

/-- Unit `u` allocates entry `e` for the work `k` and writes its ticket word to D: the end of ARM and LAUNCH. -/
def ticketed (m : Mach) (u : Nat) (d : Opd) (f : PfF) (e : Nat) (child : Bool) (k : Nat) : Mach :=
  let t := allocTicket m u e child k
  seqResult t.2 u d f (ticketWord child t.1 e)

section Ticketed
variable (m : Mach) (u : Nat) (d : Opd) (f : PfF) (e : Nat) (child : Bool) (k : Nat)

theorem registersOnly_ticketed : registersOnly u (allocTicket m u e child k).2 (ticketed m u d f e child k) := registersOnly_seqResult ..

theorem ticketed_mem : (ticketed m u d f e child k).mem = m.mem := by
  obtain ⟨sp, h, -⟩ := registersOnly_ticketed m u d f e child k
  rw [h, allocTicket, setUnit_mem]

theorem ticketed_sections : (ticketed m u d f e child k).seq.sections = m.seq.sections := by
  obtain ⟨sp, h, -⟩ := registersOnly_ticketed m u d f e child k
  rw [h, allocTicket, setUnit]

theorem unitOf_ticketed_other {j : Nat} (hj : j ≠ u) : unitOf (ticketed m u d f e child k) j = unitOf m j := by
  obtain ⟨sp, -, hother, -⟩ := registersOnly_ticketed m u d f e child k
  exact (hother j hj).trans ((unitOf_setUnit ..).trans (if_neg hj))

theorem ticketed_entry : tfind e (unitOf (ticketed m u d f e child k) u).tickets = some ⟨nextGen m u e, true, child, k⟩ := by
  obtain ⟨sp, -, -, hticket⟩ := registersOnly_ticketed m u d f e child k
  rw [hticket, allocTicket, unitOf_setUnit_same, tfind_tset_same, nextGen]

theorem ticketed_word {e : Nat} (he : e < 16) (r : Fin 32) : sReg (ticketed m u (.r r) f e child k) u r.val =
    (if child then 2 ^ 62 else 0) + nextGen m u e * 65536 + e := by
  have hg : nextGen m u e < 65536 := Nat.mod_lt _ (by decide)
  rw [ticketed, sReg_seqResult]
  change ((if child then 2 ^ 62 else 0) + nextGen m u e % 65536 * 65536 + e) % 2 ^ 64 = _
  cases child <;> simp only [if_true, Bool.false_eq_true, if_false] <;> omega

end Ticketed

theorem freeTicket_lt {m : Mach} {u e : Nat} (h : freeTicket m u = some e) : e < 16 :=
  List.mem_range.mp (List.mem_of_find?_eq_some h)

/-- What starts counts in the graph `g`, where there is one. -/
def countLive (m : Mach) (g : Nat) : Mach :=
  match graphOf m g with
  | some x => setGraph m g { x with live := x.live + 1 }
  | none => m

theorem countLive_keeps (m : Mach) (g : Nat) : (countLive m g).mem = m.mem ∧ (countLive m g).seq.units = m.seq.units
    ∧ (countLive m g).seq.sections = m.seq.sections := by
  unfold countLive
  cases graphOf m g <;> exact ⟨rfl, rfl, rfl⟩

theorem unitOf_countLive (m : Mach) (g j : Nat) : unitOf (countLive m g) j = unitOf m j := by
  obtain ⟨-, hunits, -⟩ := countLive_keeps m g
  rw [unitOf, hunits, unitOf]

/-! ## ARM -/

/-- The machine once the free values of one instruction are drawn. -/
def drawn (m : Mach) : Mach := { m with free := m.free + 1 }

/-- The section that ARM makes. -/
def armSection (m : Mach) (u w : Nat) (es : List (Nat × Nat × Nat)) (count : Nat) : Section :=
  let p := pastOfActor m (.unit u w)
  ⟨p, unitCluster u (pastOf m p).home, sectOf m (.unit u w), isShepherd u, es, count, 0, 0, 0, 0, 0, false⟩

/-- The section has the next model number; one that a graph arms counts in the graph. -/
def addSection (m : Mach) (u w : Nat) (es : List (Nat × Nat × Nat)) (count : Nat) : Mach :=
  let m1 := { m with ids := m.ids + 1, seq.sections := tset m.ids (armSection m u w es count) m.seq.sections }
  if isShepherd u then m1 else countLive m1 (unitOf m u).graph

theorem addSection_keeps (m : Mach) (u w : Nat) (es : List (Nat × Nat × Nat)) (count : Nat) : (addSection m u w es count).mem = m.mem
    ∧ (addSection m u w es count).seq.units = m.seq.units
    ∧ (addSection m u w es count).seq.sections = tset m.ids (armSection m u w es count) m.seq.sections := by
  unfold addSection
  split
  · exact ⟨rfl, rfl, rfl⟩
  · exact countLive_keeps _ _

/-- ARM once its reads are in their place, the checks being those of `x`. -/
def armAt (f : PfF) (d : Opd) (u w count : Nat) (x : Except Nat (List (Nat × Nat × Nat))) (m : Mach) : Mach :=
  match x with
  | .error c => seqResult m u d f (2 ^ 63 + c)
  | .ok es => match freeTicket m u with
    | none => seqResult m u d f (2 ^ 63 + 0x21)
    | some e => ticketed (addSection m u w es count) u d f e false m.ids

section Arm
variable {s : State} {u w : Nat} {f : PfF} {d a b : Opd} (h : sStarts s.m u w [a, b] [d] = true)
include h

theorem exec_arm_waits (hh : readsHeld (readDone s.m [a, b] [d]) (.unit u w) (payOf s.m .whole a % 2 ^ 56) armSize = true) :
    exec (.arm f d a b) s = .next { s with m := stall (readDone s.m [a, b] [d]) } := by
  rw [← bits_zero_eq_mod] at hh
  exact exec_sFire_eq (i := .arm f d a b) rfl h (if_pos hh)

/-- The checks read the descriptor before the draw. -/
theorem exec_arm (hh : readsHeld (readDone s.m [a, b] [d]) (.unit u w) (payOf s.m .whole a % 2 ^ 56) armSize = false) :
    let m0 := readDone s.m [a, b] [d]
    exec (.arm f d a b) s = .next { s with
      m := armAt f d u w (payOf s.m .whole b) (armCheck m0 (.unit u w) (pastOfActor m0 (.unit u w)) (payOf s.m .whole a % 2 ^ 56)
        (payOf s.m .whole b)) (drawn m0) } := by
  intro m0
  rw [← bits_zero_eq_mod] at hh ⊢
  refine exec_sFire_eq (i := .arm f d a b) rfl h ((if_neg (ne_true_of_eq_false hh)).trans ?_)
  simp only [List.map, List.getElem?_cons_zero, List.getElem?_cons_succ, Option.getD_some]
  cases armCheck m0 (.unit u w) (pastOfActor m0 (.unit u w)) (bits (payOf s.m .whole a) 0 56) (payOf s.m .whole b) with
  | error c =>
    simp only [armAt, failWord_code]
    rfl
  | ok es =>
    simp only [armAt, failWord_code]
    rfl

end Arm

/-- Allocation of ARM: the section, the ticket and its word; memory stays. -/
theorem armAt_arms {m : Mach} {u w count e : Nat} {es : List (Nat × Nat × Nat)} (f : PfF) (d : Opd) (he : freeTicket m u = some e) :
    let t := armAt f d u w count (.ok es) m
    tfind m.ids t.seq.sections = some (armSection m u w es count)
      ∧ tfind e (unitOf t u).tickets = some ⟨nextGen m u e, true, false, m.ids⟩
      ∧ (∀ n, d = .r n → sReg t u n.val = nextGen m u e * 65536 + e) ∧ t.mem = m.mem := by
  obtain ⟨hmem, hunits, hsect⟩ := addSection_keeps m u w es count
  have hgen : nextGen (addSection m u w es count) u e = nextGen m u e := by rw [nextGen, unitOf, hunits, nextGen, unitOf]
  simp only [armAt, he]
  refine ⟨?_, ?_, ?_, ?_⟩
  · rw [ticketed_sections, hsect, tfind_tset_same]
  · rw [ticketed_entry, hgen]
  · rintro n rfl
    rw [ticketed_word _ _ _ _ _ (freeTicket_lt he), hgen]
    simp
  · rw [ticketed_mem, hmem]

/-! ## LAUNCH -/

/-- The cluster that LAUNCH's A names, or that of the unit. -/
def launchCluster (m : Mach) (u p A : Nat) : Nat := if bitAt A 60 then bits A 56 4 else unitCluster u (pastOf m p).home

/-- LAUNCH with its sources read. -/
def launchAt (f : PfF) (d : Opd) (u p A arg : Nat) (m : Mach) : Mach :=
  let cl := launchCluster m u p A
  if !(coresOf m p).any (fun c => clusterOf c == cl) then seqResult m u d f (2 ^ 63 + 0x31)
  else match virtLocs m (.unit (8 * cl) 0) p (A % 2 ^ 56) 8 .fetch with
    | .error _ => seqResult m u d f (2 ^ 63 + 0x12)
    | .ok _ => match freeGraphCtx m cl with
      | none => seqResult m u d f (2 ^ 63 + 0x30)
      | some c => match freeTicket m u with
        | none => seqResult m u d f (2 ^ 63 + 0x21)
        | some e =>
          let parent := if isShepherd u then 2 ^ 64 else (unitOf m u).graph
          ticketed (countLive (startGraph m (8 * cl + c) p (A % 2 ^ 56) arg parent (some u) false) parent) u d f e true m.ids

theorem exec_launch {s : State} {u w : Nat} {f : PfF} {d a b : Opd} (h : sStarts s.m u w [a, b] [d] = true) :
    let m := readDone s.m [a, b] [d]
    exec (.launch f d a b) s = .next { s with
      m := launchAt f d u (pastOfActor m (.unit u w)) (payOf s.m .whole a) (payOf s.m .whole b) m } := by
  intro m
  refine exec_sFire_eq (i := .launch f d a b) rfl h ?_
  simp only [launchAt, ← bits_zero_eq_mod, ← failWord_code]
  rfl

section Launch
variable {m : Mach} {u p A arg : Nat} (f : PfF) (d : Opd)

theorem launchAt_noCluster (hc : (coresOf m p).any (fun c => clusterOf c == launchCluster m u p A) = false) :
    launchAt f d u p A arg m = seqResult m u d f (2 ^ 63 + 0x31) := by
  simp only [launchAt, hc, Bool.not_false, if_true]

variable (hc : (coresOf m p).any (fun c => clusterOf c == launchCluster m u p A) = true)
include hc

theorem launchAt_noImage {x : Nat × Nat} (hv : virtLocs m (.unit (8 * launchCluster m u p A) 0) p (A % 2 ^ 56) 8 .fetch = .error x) :
    launchAt f d u p A arg m = seqResult m u d f (2 ^ 63 + 0x12) := by
  simp only [launchAt, hc, hv, Bool.not_true, Bool.false_eq_true, if_false]

variable {ls : List Loc} (hv : virtLocs m (.unit (8 * launchCluster m u p A) 0) p (A % 2 ^ 56) 8 .fetch = .ok ls)
include hv

theorem launchAt_noContext (hg : freeGraphCtx m (launchCluster m u p A) = none) :
    launchAt f d u p A arg m = seqResult m u d f (2 ^ 63 + 0x30) := by
  simp only [launchAt, hc, hv, hg, Bool.not_true, Bool.false_eq_true, if_false]

variable {c : Nat} (hg : freeGraphCtx m (launchCluster m u p A) = some c)
include hg

theorem launchAt_noTicket (he : freeTicket m u = none) : launchAt f d u p A arg m = seqResult m u d f (2 ^ 63 + 0x21) := by
  simp only [launchAt, hc, hv, hg, he, Bool.not_true, Bool.false_eq_true, if_false]

variable {e : Nat} (he : freeTicket m u = some e)
include he

theorem launchAt_launches (hr : (unitOf m u).run = .running) :
    let t := launchAt f d u p A arg m
    let x := 8 * launchCluster m u p A + c
    (unitOf t x).run = .running ∧ (unitOf t x).w = 0 ∧ (unitOf t x).base = A % 2 ^ 56 ∧ (unitOf t x).past = p
      ∧ sReg t x 0 = arg % 2 ^ 64 ∧ sReg t x 1 = A % 2 ^ 56
      ∧ tfind e (unitOf t u).tickets = some ⟨nextGen m u e, true, true, m.ids⟩
      ∧ (∀ n, d = .r n → sReg t u n.val = 2 ^ 62 + nextGen m u e * 65536 + e) ∧ t.mem = m.mem := by
  intro t x
  have hidle : (unitOf m x).run = .idle := by
    have hfound := List.find?_some hg
    exact eq_of_beq hfound
  have hother : x ≠ u := by
    intro hxu
    rw [hxu, hr] at hidle
    cases hidle
  let parent := if isShepherd u then 2 ^ 64 else (unitOf m u).graph
  let m1 := startGraph m x p (A % 2 ^ 56) arg parent (some u) false
  have ht : t = ticketed (countLive m1 parent) u d f e true m.ids := by
    simp only [t, launchAt, hc, hv, hg, he, Bool.not_true, Bool.false_eq_true, if_false]
    rfl
  have hchild : unitOf t x = unitOf m1 x := by rw [ht, unitOf_ticketed_other _ _ _ _ _ _ _ hother, unitOf_countLive]
  have hsreg (r : Nat) : sReg t x r = sReg m1 x r := by rw [sReg, hchild, sReg]
  have hgen : nextGen (countLive m1 parent) u e = nextGen m u e := by
    rw [nextGen, unitOf_countLive, unitOf_startGraph, if_neg hother.symm, nextGen]
  refine ⟨?_, ?_, ?_, ?_, ?_, ?_, ?_, ?_, ?_⟩
  · rw [hchild, unitOf_startGraph, if_pos rfl]
  · rw [hchild, unitOf_startGraph, if_pos rfl]
    rfl
  · rw [hchild, unitOf_startGraph, if_pos rfl]
  · rw [hchild, unitOf_startGraph, if_pos rfl]
  · rw [hsreg, sReg_startGraph_zero]
  · rw [hsreg, sReg_startGraph_one]
    omega
  · rw [ht, ticketed_entry, hgen]
  · rintro n rfl
    rw [ht, ticketed_word _ _ _ _ _ (freeTicket_lt he), hgen]
    rfl
  · obtain ⟨hmem, -⟩ := countLive_keeps m1 parent
    rw [ht, ticketed_mem, hmem]
    rfl

end Launch

/-! ## ARM's checks and its draw (log 27)

`Obligations.ArmAndLaunch` makes ARM's checks in the machine after the draw, `armG` makes them in the machine before it. Only the bytes of
a descriptor on another package can tell the two apart, and `Config.outsideByte`, which gives these bytes, is a constant without a body.
So the obligation turns on that constant: it holds if the bytes do not vary with the draw (`armAndLaunch_of_steady_outside`), and it fails
if a draw gives an empty descriptor and the next one an entry (`armAndLaunch_fails_of_differing_draws`). -/

theorem readBytes_drawn (hs : ∀ n a, Config.outsideByte (n + 1) a = Config.outsideByte n a) (m : Mach) (who : Actor) (va n : Nat) :
    readBytes (drawn m) who va n = readBytes m who va n := by
  simp only [readBytes, drawn, hs]
  rfl

theorem armCheck_drawn (hs : ∀ n a, Config.outsideByte (n + 1) a = Config.outsideByte n a) (m : Mach) (who : Actor) (p va count : Nat) :
    armCheck (drawn m) who p va count = armCheck m who p va count := by
  simp only [armCheck, readNat, readWords, readBytes_drawn hs]
  rfl

/-- Where bytes from outside do not vary with the draw, ARM's checks are the same before and after it. -/
theorem exec_arm_steady (hs : ∀ n a, Config.outsideByte (n + 1) a = Config.outsideByte n a) {s : State} {u w : Nat} {f : PfF}
    {d a b : Opd} (h : sStarts s.m u w [a, b] [d] = true)
    (hh : readsHeld (readDone s.m [a, b] [d]) (.unit u w) (payOf s.m .whole a % 2 ^ 56) armSize = false)
    {x : Except Nat (List (Nat × Nat × Nat))} (hx : let m := drawn (readDone s.m [a, b] [d])
      armCheck m (.unit u w) (pastOfActor m (.unit u w)) (payOf s.m .whole a % 2 ^ 56) (payOf s.m .whole b) = x) :
    exec (.arm f d a b) s = .next { s with m := armAt f d u w (payOf s.m .whole b) x (drawn (readDone s.m [a, b] [d])) } := by
  subst hx
  refine (exec_arm h hh).trans ?_
  rw [armCheck_drawn hs]
  rfl

/-- Where bytes from outside do not vary with the draw, ARM and LAUNCH do what the obligation says. -/
theorem armAndLaunch_of_steady_outside (hs : ∀ n a, Config.outsideByte (n + 1) a = Config.outsideByte n a) :
    Obligations.ArmAndLaunch := by
  unfold Obligations.ArmAndLaunch
  refine ⟨fun s u w f d a b h => ⟨exec_arm_waits h, fun hh => ⟨fun c hc => exec_arm_steady hs h hh hc, fun es hes =>
      ⟨fun hn => ?_, fun e he => ?_⟩⟩⟩,
    fun s u w f d a b ls c e h hr hcl hv hg he => ?_, fun s u w f d a b h => ⟨fun hcl => ?_, fun hcl => ⟨fun x hv => ?_, fun ls hv =>
      ⟨fun hg => ?_, fun c hg he => ?_⟩⟩⟩⟩
  · have hn' : freeTicket (drawn (readDone s.m [a, b] [d])) u = none := hn
    rw [exec_arm_steady hs h hh hes]
    simp only [armAt, hn']
    rfl
  · exact ⟨_, exec_arm_steady hs h hh hes, armAt_arms f d he⟩
  · refine ⟨_, exec_launch h, ?_⟩
    dsimp only
    exact launchAt_launches f d hcl hv hg he hr
  · rw [exec_launch h, launchAt_noCluster f d hcl]
  · rw [exec_launch h, launchAt_noImage f d hcl hv]
  · rw [exec_launch h, launchAt_noContext f d hcl hv hg]
  · rw [exec_launch h, launchAt_noTicket f d hcl hv hg he]

/-- Graph context 0 of cluster 0 executes its word 0; its first 64 KB lie on package 5, and `n` free values have been drawn. -/
def outsideDescriptor (n : Nat) : State := { State.reset with m := { State.reset.m with
  cur := .unit 0 0
  free := n
  mem.tlb := [(1000, [⟨0, 0, 65536, 5 * 2 ^ 52 + 32 + 7⟩])] } }

theorem readBytes_outsideDescriptor (n : Nat) :
    readBytes (outsideDescriptor n).m (.unit 0 0) 0 8 = .ok ((upto 8).map (fun i => Config.outsideByte n (0 + i)))
    ∧ readBytes (outsideDescriptor n).m (.unit 0 0) 8 8 = .ok ((upto 8).map (fun i => Config.outsideByte n (8 + i))) := by
  constructor <;> rfl

theorem readsHeld_outsideDescriptor (n : Nat) : readsHeld (outsideDescriptor n).m (.unit 0 0) 0 armSize = false := by
  have hnone (va k : Nat) : imageHeld (outsideDescriptor n).m va k = false := rfl
  rw [readsHeld, hnone]
  cases readNat (outsideDescriptor n).m (.unit 0 0) 0 8 <;> simp [hnone]

/-- A header whose first byte is 0 lists no entry (R149). -/
theorem armCheck_outside_empty {n : Nat} (h : Config.outsideByte n 0 = 0) :
    armCheck (outsideDescriptor n).m (.unit 0 0) 0 0 0 = .error 0x22 := by
  have hread : readNat (outsideDescriptor n).m (.unit 0 0) 0 8 = .ok (natOf ((upto 8).map (fun i => Config.outsideByte n (0 + i)))) := by
    rw [readNat, (readBytes_outsideDescriptor n).1]
    rfl
  have hcount : bits (natOf ((upto 8).map (fun i => Config.outsideByte n (0 + i)))) 0 8 = 0 := by
    rw [bits_zero_eq_mod]
    simp [upto, List.range_succ, natOf, h]
  rw [armCheck, hread]
  exact if_pos (.inl hcount)

/-- A descriptor of one entry, block 0 in frame 0 of core 0, which the pasture does not have. -/
theorem armCheck_outside_entry {n : Nat} (h : ∀ i < 16, Config.outsideByte n i = if i = 0 then 1 else 0) :
    armCheck (outsideDescriptor n).m (.unit 0 0) 0 0 0 = .error 0x11 := by
  have hheader : readNat (outsideDescriptor n).m (.unit 0 0) 0 8 = .ok 1 := by
    rw [readNat, (readBytes_outsideDescriptor n).1]
    simp [upto, List.range_succ, h, Except.map, natOf]
  have hentry : readWords (outsideDescriptor n).m (.unit 0 0) (0 + 8) 1 = .ok [0] := by
    rw [readWords, Nat.zero_add, Nat.mul_one, (readBytes_outsideDescriptor n).2]
    simp [upto, List.range_succ, h, Except.map, natOf]
  have hcore : coreIn (outsideDescriptor n).m 0 0 = false := rfl
  rw [armCheck, hheader]
  simp [hentry, bits, sectEntry, hcore]

/-- Where the draw turns an empty descriptor on another package into one with an entry, ARM writes the failure of the empty one, and the
obligation asks for that of the other. -/
theorem armAndLaunch_fails_of_differing_draws (h0 : Config.outsideByte 0 0 = 0)
    (h1 : ∀ i < 16, Config.outsideByte 1 i = if i = 0 then 1 else 0) : ¬ Obligations.ArmAndLaunch := by
  unfold Obligations.ArmAndLaunch
  rintro ⟨harm, -, -⟩
  let f : PfF := ⟨false, 0⟩
  have hstart : sStarts (outsideDescriptor 0).m 0 0 [.imm 0, .imm 0] [.r 3] = true := by decide
  have hheld := readsHeld_outsideDescriptor 0
  have hmodel : exec (.arm f (.r 3) (.imm 0) (.imm 0)) (outsideDescriptor 0)
      = .next { outsideDescriptor 0 with m := seqResult (outsideDescriptor 1).m 0 (.r 3) f (2 ^ 63 + 0x22) } :=
    (exec_arm hstart hheld).trans
      (congrArg (fun x => Host.Outcome.next { outsideDescriptor 0 with m := armAt f (.r 3) 0 0 0 x (outsideDescriptor 1).m })
        (armCheck_outside_empty h0))
  obtain ⟨-, hchecks⟩ := harm (outsideDescriptor 0) 0 0 f (.r 3) (.imm 0) (.imm 0) hstart
  obtain ⟨hfailed, -⟩ := hchecks hheld
  have hstated := hfailed 0x11 (armCheck_outside_entry h1)
  have hwords := congrArg (fun o => match o with | .next t => sReg t.m 0 (3 : Fin 32).val | _ => 0) (hmodel.symm.trans hstated)
  simp only [sReg_seqResult] at hwords
  omega

end Sys2Proof.Machine
